-- ==== Sys2Proof/Word.lean ====
section
/-!
DEFINITION. The word types of the RK480 and their plainest arithmetic (spec/00_scope.md R2, R3, R7).
-/

namespace Sys2Proof

/-- One byte of any memory. -/
abbrev Byte := BitVec 8
/-- A 32-bit lane word, immediate word or narrow register. -/
abbrev W32 := BitVec 32
/-- A 64-bit scalar register, base word or extension word. -/
abbrev W64 := BitVec 64
/-- One bit per lane of a gang of at most 64 lanes. -/
abbrev Mask := BitVec 64

/-- `Sext(x, n)` of R7, for an `x` given as a natural number: its low `n` bits as a two's complement value. -/
def sext (x n : Nat) : Int := (BitVec.ofNat n x).toInt

/-- `Zext(x, n)` of R7. -/
def zext (x n : Nat) : Nat := x % 2 ^ n

/-- The low `n` bits of an exact integer, as pseudocode truncates it (00_scope, "Pseudocode"). -/
def low (t : Int) (n : Nat) : Nat := (t % (2 ^ n : Nat)).toNat

/-- Bits `hi:lo` of a natural number (R3). -/
def bits (x hi lo : Nat) : Nat := (x / 2 ^ lo) % 2 ^ (hi + 1 - lo)

/-- Bit `i` of a natural number. -/
def bit (x i : Nat) : Bool := x.testBit i

/-- 1 for true, 0 for false. -/
def b2n (b : Bool) : Nat := if b then 1 else 0

end Sys2Proof
end

