-- ==== Sys2Proof/Syntax.lean ====
section
/-!
DEFINITION. The steps of the RK480: one constructor of `Instr` for every row of spec/opcode_table.json, 163
instructions and 85 events. Register numbers, operand classes, element types and modes are read out of the words
once, by Decode; the machine never sees a raw encoding.
-/

namespace Sys2Proof

/-- The guard of R96: lanes where predicate `p` is true, or false with `neg`. -/
structure Guard where
  p : Nat
  neg : Bool
  deriving DecidableEq, Repr

/-- The guard that selects every active lane (GP = 0, GN = 0), the only one a uniform instruction may carry. -/
def Guard.all : Guard := ⟨0, false⟩

/-- Element types, Table 5-7. -/
inductive Ety where
  | s32 | u32 | s64 | u64 | s16x2 | u16x2 | s8x4 | u8x4 | f32 | f16x2 | bf16x2
  deriving DecidableEq, Repr

/-- Element formats of CVT and CVTMX, Table 9-6. -/
inductive Fmt where
  | s32 | u32 | s16 | u16 | s8 | u8 | f32 | f16 | bf16 | e4m3 | e5m2 | e2m1 | s4 | u4
  deriving DecidableEq, Repr

/-- Scope codes, Table 5-6. -/
inductive Scope where
  | gang | crew | dev | sys
  deriving DecidableEq, Repr

/-- Element sizes of the memory range, Table 5-6. -/
inductive Size where
  | b8 | b16 | b32 | b64
  deriving DecidableEq, Repr

/-- Specials, Table 5-4. -/
inductive Special where
  | laneid | gangid | crewx | crewy | crewz | crewlin | gangw | crewn | validn | launchx | launchy | launchz
  | coreid | cycle | pairside
  deriving DecidableEq, Repr

/-- An operand of the operand space (Table 5-3), or the immediate word that takes its place in a 96-bit form (R95). -/
inductive Opd where
  | v (n : Nat)
  | s (n : Nat)
  | k (z : Int)
  | x (sp : Special)
  | lr
  | exm
  | q (n : Nat)
  | imm (w : W32)
  deriving DecidableEq, Repr

/-- Integer compare conditions, R165. -/
inductive Cond where
  | eq | ne | lt | le | gt | ge
  deriving DecidableEq, Repr

/-- Floating-point compare conditions, Table 9-4. -/
inductive FCond where
  | eq | ne | lt | le | gt | ge | un | ord
  deriving DecidableEq, Repr

/-- Modes of SHFL, R169. -/
inductive ShflMode where
  | idx | up | down | xor
  deriving DecidableEq, Repr

/-- Operations of RED, R171. -/
inductive RedOp where
  | add | min | max | and | or | xor
  deriving DecidableEq, Repr

/-- Operations of PSCAN, R172. -/
inductive ScanOp where
  | add | min | max
  deriving DecidableEq, Repr

/-- Forms of PMOV, R167. -/
inductive PmovForm where
  | toPred (p : Nat) (a : Opd)
  | fromPred (d : Opd) (p : Nat)
  | bit (p : Nat) (a : Opd)
  deriving DecidableEq, Repr

/-- Atomic operations, Table 12-4. -/
inductive AtomOp where
  | add | smin | smax | umin | umax | and | or | xor | xchg | cas | fadd
  deriving DecidableEq, Repr

/-- WAITA conditions, Table 12-6. -/
inductive WCond where
  | ne | eq | geu | ltu
  deriving DecidableEq, Repr

/-- Bank modes, Table 6-8. -/
inductive BankMode where
  | cache | scratch | fifo
  deriving DecidableEq, Repr

/-- Where BRA or CALL goes: an offset from the instruction, in bytes divided by 4, or a scalar register (R130, R140). -/
inductive Target where
  | off (w : W32)
  | reg (n : Nat)
  deriving DecidableEq, Repr

/-- The immediate of MOVI: the word of the 96-bit form or the extension word of the 128-bit form (R163). -/
inductive MoviImm where
  | word (w : W32)
  | ext (w : W64)
  deriving DecidableEq, Repr

/-- A one-operand form: guard, type, SAT, destination, source. -/
structure Un where
  g : Guard
  ty : Ety
  sat : Bool
  d : Opd
  a : Opd
  deriving DecidableEq, Repr

/-- A two-operand form. -/
structure Bin where
  g : Guard
  ty : Ety
  sat : Bool
  d : Opd
  a : Opd
  b : Opd
  deriving DecidableEq, Repr

/-- A three-operand form. -/
structure Ter where
  g : Guard
  ty : Ety
  sat : Bool
  d : Opd
  a : Opd
  b : Opd
  c : Opd
  deriving DecidableEq, Repr

/-- The common part of the global lane-wise forms: index and record, with the displacement of a 96-bit form (R235, R237). -/
structure GMem where
  g : Guard
  size : Size
  scope : Scope
  idx : Opd
  rc : Nat
  disp : Option W32
  deriving DecidableEq, Repr

/-- The common part of the scratchpad forms (R241). -/
structure SMem where
  g : Guard
  size : Size
  scope : Scope
  base : Opd
  off : Opd
  disp : Option W32
  deriving DecidableEq, Repr

/-- A byte range of a record, as ZFILL defines it (R250): index, record, length, displacement. -/
structure Range where
  idx : Opd
  rc : Nat
  len : Opd
  disp : Option W32
  deriving DecidableEq, Repr

/-- The common part of the copies (Table 14-2): guard, future, three scalar operands, record, barrier. -/
structure Copy where
  g : Guard
  f : Nat
  a : Opd
  b : Opd
  c : Opd
  rc : Nat
  bar : Option Nat
  deriving DecidableEq, Repr

/-- The common part of the MMA forms (Table 14-2): tile offsets, format-word register, tile, scale offsets. -/
structure MmaArgs where
  g : Guard
  f : Nat
  a : Opd
  b : Opd
  fw : Nat
  tile : Nat
  sa : Nat
  sb : Nat
  deriving DecidableEq, Repr

/-- An emulation-space form (Table 5-9). -/
structure Emu where
  g : Guard
  d : Opd
  a : Opd
  b : Opd
  deriving DecidableEq, Repr

/-- Illegal-instruction causes, Table 5-8 in its checking order. -/
inductive Cause where
  | misalignedFetch | fetchFault | blockCrossing | targetNotHeader | illegalClause | reservedMajor | length
  | undefinedMinor | reservedField | operandClass | oddPair | beyondCount | privileged | tryMismatch
  deriving DecidableEq, Repr

/-- Names a gang: gang `num` of the crew whose table number is `crew`, or the supervisor gang of a core. -/
inductive GRef where
  | user (crew num : Nat)
  | sup (core : Nat)
  deriving DecidableEq, Repr

/-- Where an uncorrectable error is met (R199, R200, R204): a line at its home, a word of a channel zero map with the lines that it
covers, a line of a core point, a scratchpad, a FIFO bank or an instruction cache. -/
inductive EccSite where
  | memLine (pa : Nat)
  | mapWord (lines : List Nat)
  | cacheLine (core pa : Nat)
  | scratchLine (crew off : Nat)
  | fifoLine (crew key line : Nat)
  | codeLine (core pa : Nat)
  deriving DecidableEq, Repr

/-- The steps of the machine, in the order of spec/opcode_table.json. -/
inductive Instr where
  -- control, 07_control
  | clauseHeader (yld : Bool) (setb seta : Nat) (wait : BitVec 12)
  | nop
  | bra (t : Target)
  | brc (sense : Bool) (c : Nat) (off : W32)
  | call (g : Guard) (t : Target)
  | callv (g : Guard) (a b : Nat)
  | ret
  | ifI (g : Guard) (elseD endD : Nat)
  | elseI
  | endif
  | loop
  | brk (g : Guard)
  | cont (g : Guard)
  | endloop
  | gjoin
  | exit
  | waitp (path t : Nat)
  | tryGang (off : W32)
  | tryCrew (off : W32)
  | tryLaunch (off : W32)
  | endtryGang
  | endtryCrew
  | endtryLaunch
  | throw (g : Guard) (a : Opd)
  | rethrow
  | rdexr (d : Opd) (a : Opd)
  -- integer, 08_integer
  | iadd (x : Bin) | isub (x : Bin) | imul (x : Bin) | imulh (x : Bin) | imad (x : Ter)
  | iabs (x : Un) | ineg (x : Un) | imin (x : Bin) | imax (x : Bin)
  | and (x : Bin) | or (x : Bin) | xor (x : Bin) | not (x : Un)
  | shl (x : Bin) | shr (x : Bin) | sar (x : Bin) | rot (x : Bin)
  | bfx (x : Un) (ctl : Opd)
  | bfi (x : Bin) (ctl : Opd)
  | popc (x : Un) | clz (x : Un) | ctz (x : Un) | brev (x : Un)
  | icmp (g : Guard) (c : Cond) (ty : Ety) (pd : Nat) (a b : Opd)
  | icmpc (c : Cond) (ty : Ety) (cd : Nat) (a b : Opd)
  | sel (x : Bin) (pi : Nat) (neg : Bool)
  | mov (x : Un)
  | movi (g : Guard) (ty : Ety) (d : Opd) (imm : MoviImm)
  | lea (x : Bin) (sh : Nat)
  | plop (g : Guard) (d a b : Nat) (tt : BitVec 4)
  | clop (d a b : Nat) (tt : BitVec 4)
  | pmov (g : Guard) (m : PmovForm)
  | shfl (g : Guard) (m : ShflMode) (ty : Ety) (d a b : Opd)
  | bcast (g : Guard) (ty : Ety) (d a b : Opd)
  | ballot (g : Guard) (d : Opd) (p : Nat)
  | pscan (g : Guard) (op : ScanOp) (incl : Bool) (ty : Ety) (sat : Bool) (d a : Opd)
  | append (g : Guard) (d a b : Opd)
  | red (g : Guard) (op : RedOp) (ty : Ety) (sat : Bool) (d : Opd) (va : Nat)
  -- floating point, 09_float
  | fadd (x : Bin) | fsub (x : Bin) | fmul (x : Bin) | fma (x : Ter)
  | fmin (nan : Bool) (x : Bin) | fmax (nan : Bool) (x : Bin)
  | fabs (x : Un) | fneg (x : Un) | fscale (x : Bin)
  | fcmp (g : Guard) (c : FCond) (pd : Nat) (a b : Opd)
  | fcmpc (c : FCond) (cd : Nat) (a b : Opd)
  | fclass (g : Guard) (pd : Nat) (a : Opd) (mask : BitVec 10)
  | frcp (x : Un) | frsq (x : Un) | fsqrt (x : Un) | fexp2 (x : Un) | flog2 (x : Un)
  | fsin (x : Un) | fcos (x : Un) | ftanh (x : Un)
  | cvt (g : Guard) (tgt src : Fmt) (sat : Bool) (d a : Opd) (si di : Nat)
  | cvtmx (g : Guard) (fmt : Fmt) (d a b : Opd) (di : Nat)
  | cvtmxScale (g : Guard) (fmt : Fmt) (d a : Opd)
  -- memory, 12_memory_ops
  | ld (m : GMem) (sx : Bool) (d : Opd)
  | ldRp (m : GMem) (sx : Bool) (d : Opd) (p : Nat)
  | st (m : GMem) (data : Opd)
  | lds (m : SMem) (sx : Bool) (d : Opd)
  | sts (m : SMem) (data : Opd)
  | atom (op : AtomOp) (m : GMem) (d data : Opd)
  | atoms (op : AtomOp) (m : SMem) (d data : Opd)
  | fence (scope : Scope) (d : Opd)
  | waita (c : WCond) (size : Size) (scope : Scope) (d idx : Opd) (rc : Nat) (cmp : Opd) (disp : Option W32)
  | wake (scope : Scope) (idx : Opd) (rc : Nat) (disp : Option W32)
  | persist
  | zfill (r : Range)
  | pagereq (f : Nat) (r : Range)
  | cctlWb (scope : Scope) (r : Range)
  | cctlDisc (scope : Scope) (r : Range)
  | icpf (r : Range)
  | icpin (r : Range)
  | icpinUnpin (r : Range)
  | icinvCrew (r : Range)
  | icinvDev (r : Range)
  | qstat (full : Bool) (d : Opd) (q c : Nat)
  -- engines, 14_engines
  | cpy (x : Copy) (arr dir : Bool)
  | cpyM (x : Copy) (cores : BitVec 8)
  | cpyX (x : Copy) (arr dir : Bool)
  | mma (x : MmaArgs)
  | mmaSp (x : MmaArgs) (sm : Nat)
  | mmaP (x : MmaArgs)
  | msel (g : Guard) (f : Nat) (a b : Opd) (fw sa sm : Nat)
  | accz (g : Guard) (f tile : Nat)
  | accdr (g : Guard) (f : Nat) (off : Opd) (tgt : Fmt) (tile : Nat)
  | wdset (g : Guard) (f : Nat) (val : Opd) (tile : Nat)
  | mfence (g : Guard) (f : Nat)
  | fwait (f : Nat) (st : Option Nat)
  | ftest (f c : Nat) (st : Option Nat)
  | fcancel (f : Nat)
  | fexport (f : Nat) (off : Opd)
  | fimport (f : Nat) (off : Opd)
  | barinit (bar : Nat) (e : Opd)
  | bara (bar : Nat)
  | barexp (bar : Nat) (b : Opd)
  | barw (bar : Nat) (phase : Bool)
  | lbar (n : Nat)
  -- transactions and system, 15_ordered_system
  | otdecl (f : Nat) (off : Opd)
  | otbegin (f : Nat)
  | otend
  | otround (a : Opd)
  | trap (code : Opd)
  | svret (slot : Opd) (adv : Nat)
  | svthrow (slot code : Opd)
  | rdxv (g : Guard) (d slot : Opd) (reg : Nat) (hi : Bool)
  | wrxv (g : Guard) (slot data : Opd) (reg : Nat) (hi : Bool)
  | rdxs (d slot : Opd) (num : Nat)
  | wrxs (slot data : Opd) (num : Nat)
  | rdsys (d : Opd) (num : Nat)
  | wrsys (data : Opd) (num : Nat)
  | bankset (mask : Opd) (mode : BankMode)
  | bist (d arr pat : Opd)
  | mbxrdNext (d : Opd)
  | mbxrdWord (d slot word : Opd)
  | coreret (d core : Opd)
  -- emulation space, 05_encoding
  | idivU32 (x : Emu) | iremU32 (x : Emu) | idivU64 (x : Emu) | iremU64 (x : Emu)
  | idivS32 (x : Emu) | iremS32 (x : Emu) | idivS64 (x : Emu) | iremS64 (x : Emu)
  | fdivF32 (x : Emu) | dadd (x : Emu) | dmul (x : Emu)
  | dfma (x : Emu) (c : Opd)
  | ddiv (x : Emu)
  | dsqrt (g : Guard) (d a : Opd)
  | dcvt (g : Guard) (form : Nat) (d a : Opd)
  | emu (x : Emu)
  -- events (95_what_each_step_holds); the operands name the subject and what an outside party decides
  | loadDataReturn (g : GRef) (op : Nat) (lanes : Mask)
  | spillReadReturn (g : GRef) (reg : Nat) (bad : Mask)
  | sysreadComplete (g : GRef) (op : Nat)
  | fenceComplete (g : GRef) (op : Nat)
  | bufDrain (g : GRef) (seq : Nat)
  | coreWriteBack (core : Option Nat) (pa : Nat)
  | copyDiscard (core : Option Nat) (pa : Nat)
  | copyFetch (core : Option Nat) (pa : Nat)
  | atomicComplete (g : GRef) (op lane : Nat)
  | copySegmentStart (core : Nat)
  | copyPieceWritten (core idx piece : Nat)
  | copyComplete (core idx : Nat)
  | matrixCommandStart (core : Nat)
  | matrixCommandComplete (core : Nat)
  | bankSwitchApply (g : GRef) (bank : Nat)
  | persistComplete (g : GRef)
  | icinvComplete (g : GRef)
  | unwindComplete (u : Nat)
  | candidatePromote (g : GRef) (grp : Nat)
  | svyieldTimeout (core : Nat)
  | waitaPoll (g : GRef) (grp : Nat)
  | preemptRequest (ctx : Nat)
  | crewSave (crew : Nat)
  | crewResume (crew core : Nat)
  | crewPlace
  | crewEnd (crew : Nat)
  | tailRead (q : Nat)
  | tailPollTimer (q : Nat)
  | dependenceWatch (q : Nat)
  | launchAccept
  | completionWrite (launch : Nat)
  | beatEnd
  | mergeComplete
  | lbarCountExchange (launch n modules : Nat)
  | heartbeat (missed : BitVec 4)
  | failover
  | claimDeadline (e : Nat)
  | evnext
  | evans (e : Nat) (forward : Bool)
  | evack (e : Nat)
  | eventRingWrite
  | tinvGo
  | tinvDone
  | ownreqGo
  | ownToHostFlip (block : Nat)
  | ownToDeviceFlip (block : Nat) (dirty : List (Nat × Byte))
  | hostMemAccess (pa : Nat) (ctx : Nat) (write : Option (List Byte)) (len : Nat)
  | hostSnoop (pa : Nat) (write : List Byte)
  | pageRequestWrite (fn : Nat)
  | pageReply (fn tag stat : Nat)
  | pagereqResolve (crew op : Nat)
  | functionLevelReset (fn : Nat)
  | powerOn
  | startCold (failed : Option (Nat × Nat)) (badCores : List Nat)
  | startWarm (failed : Option (Nat × Nat)) (badCores : List Nat)
  | attestGo
  | attestDone
  | lmargGo (port : Nat)
  | lmargScanDone (port errors : Nat)
  | supervisorRestart (core : Nat)
  | beatWrite
  | qcfgWrite (crew n : Nat)
  | tickConfigWrite
  | tickClear
  | tickEdge
  | currentSample (milliamps : List W32)
  | lqConfigWrite (q word : Nat) (val : W64)
  | accessTableWrite (target ctx : Nat) (val : BitVec 16)
  | registerWrite (pa : Nat) (val : W64)
  | powerLimit (milliwatts : Nat)
  | coldPlateLimit (sensor : Nat)
  | junctionTrip (sensor : Nat)
  | linkLaneFail (port lane : Nat)
  | linkDown (port : Nat)
  | hostPortDown
  | eccUncorrectable (site : EccSite)
  | arithmeticClockCycle
  | powerBelowLimit
  | coldPlateInRange (sensor : Nat)
  | hostPortUp
  | peerMemAccess (pa ctx : Nat) (write : Option (List Byte)) (len : Nat)
  | sysStoreComplete (g : GRef) (seq : Nat)
  | backInvalidateResponse (pa : Nat) (dirty : Option (List Byte))
  | bistComplete (core : Nat) (failRows firstRow : Nat)
  | spanLaunchUnwind (launch : Nat)
  deriving DecidableEq, Repr

end Sys2Proof
end

