-- ==== Sys2Proof/Decode.lean ====
section
/-!
DEFINITION. From bytes to instructions and back (spec/05_encoding.md R92 to R109 and the encoding tables of 07 to 15).
`Raw` is an instruction word cut into the fields of Table 5-1. `Raw.parse` names the instruction and says which
groups of Table 5-8 it passes; `decode` reports the first failing cause in that table's order. The checks that need
the gang (register count, tiles, barriers, privilege) are made by the machine. `enc` goes the other way.
-/

namespace Sys2Proof

/-- Cause codes, Table 5-8. -/
def Cause.code : Cause → Nat
  | .misalignedFetch => 0x0D | .fetchFault => 0x0E | .blockCrossing => 0x06 | .targetNotHeader => 0x0C
  | .illegalClause => 0x07 | .reservedMajor => 0x01 | .length => 0x05 | .undefinedMinor => 0x02
  | .reservedField => 0x03 | .operandClass => 0x04 | .oddPair => 0x09 | .beyondCount => 0x08
  | .privileged => 0x0B | .tryMismatch => 0x0A

/-- Position in the checking order of Table 5-8. -/
def Cause.order : Cause → Nat
  | .misalignedFetch => 1 | .fetchFault => 2 | .blockCrossing => 3 | .targetNotHeader => 4
  | .illegalClause => 5 | .reservedMajor => 6 | .length => 7 | .undefinedMinor => 8
  | .reservedField => 9 | .operandClass => 10 | .oddPair => 11 | .beyondCount => 12
  | .privileged => 13 | .tryMismatch => 14

/-- The fields of Table 5-1 with the immediate or extension word. `len` is LEN: 1, 2 or 3. -/
structure Raw where
  len : Nat
  maj : Nat
  gp : Nat
  gn : Bool
  d : Nat
  a : Nat
  b : Nat
  c : Nat
  min : Nat
  ext : Nat
  deriving DecidableEq, Repr

/-! ### Codes of the small enumerations -/

/-- Table 5-7. -/
def Ety.ofCode : Nat → Option Ety
  | 0 => some .s32 | 1 => some .u32 | 2 => some .s64 | 3 => some .u64 | 4 => some .s16x2 | 5 => some .u16x2
  | 6 => some .s8x4 | 7 => some .u8x4 | 8 => some .f32 | 9 => some .f16x2 | 10 => some .bf16x2 | _ => none

def Ety.code : Ety → Nat
  | .s32 => 0 | .u32 => 1 | .s64 => 2 | .u64 => 3 | .s16x2 => 4 | .u16x2 => 5 | .s8x4 => 6 | .u8x4 => 7
  | .f32 => 8 | .f16x2 => 9 | .bf16x2 => 10

/-- 64-bit element types use register pairs (R103). -/
def Ety.is64 : Ety → Bool
  | .s64 | .u64 => true
  | _ => false

/-- Table 9-6. -/
def Fmt.ofCode : Nat → Option Fmt
  | 0 => some .s32 | 1 => some .u32 | 4 => some .s16 | 5 => some .u16 | 6 => some .s8 | 7 => some .u8
  | 8 => some .f32 | 9 => some .f16 | 10 => some .bf16 | 11 => some .e4m3 | 12 => some .e5m2 | 13 => some .e2m1
  | 14 => some .s4 | 15 => some .u4 | _ => none

def Fmt.code : Fmt → Nat
  | .s32 => 0 | .u32 => 1 | .s16 => 4 | .u16 => 5 | .s8 => 6 | .u8 => 7 | .f32 => 8 | .f16 => 9 | .bf16 => 10
  | .e4m3 => 11 | .e5m2 => 12 | .e2m1 => 13 | .s4 => 14 | .u4 => 15

/-- Element width in bits, Table 9-6. -/
def Fmt.width : Fmt → Nat
  | .s32 | .u32 | .f32 => 32
  | .s16 | .u16 | .f16 | .bf16 => 16
  | .s8 | .u8 | .e4m3 | .e5m2 => 8
  | .e2m1 | .s4 | .u4 => 4

def Scope.ofCode : Nat → Scope
  | 0 => .gang | 1 => .crew | 2 => .dev | _ => .sys

def Scope.code : Scope → Nat
  | .gang => 0 | .crew => 1 | .dev => 2 | .sys => 3

def Size.ofCode : Nat → Size
  | 0 => .b8 | 1 => .b16 | 2 => .b32 | _ => .b64

def Size.code : Size → Nat
  | .b8 => 0 | .b16 => 1 | .b32 => 2 | .b64 => 3

/-- Element size in bytes. -/
def Size.bytes : Size → Nat
  | .b8 => 1 | .b16 => 2 | .b32 => 4 | .b64 => 8

def Size.is64 : Size → Bool
  | .b64 => true
  | _ => false

def Special.ofCode : Nat → Option Special
  | 896 => some .laneid | 897 => some .gangid | 898 => some .crewx | 899 => some .crewy | 900 => some .crewz
  | 901 => some .crewlin | 902 => some .gangw | 903 => some .crewn | 904 => some .validn | 905 => some .launchx
  | 906 => some .launchy | 907 => some .launchz | 908 => some .coreid | 909 => some .cycle | 910 => some .pairside
  | _ => none

def Special.code : Special → Nat
  | .laneid => 896 | .gangid => 897 | .crewx => 898 | .crewy => 899 | .crewz => 900 | .crewlin => 901
  | .gangw => 902 | .crewn => 903 | .validn => 904 | .launchx => 905 | .launchy => 906 | .launchz => 907
  | .coreid => 908 | .cycle => 909 | .pairside => 910

/-- The operand space, Table 5-3; none for the reserved special codes 911 to 1013. -/
def Opd.ofCode (n : Nat) : Option Opd :=
  if n < 640 then some (.v n)
  else if n < 768 then some (.s (n - 640))
  else if n < 896 then some (.k ((n : Int) - 800))
  else if n < 1014 then (Special.ofCode n).map .x
  else if n = 1014 then some .lr
  else if n = 1015 then some .exm
  else some (.q (n - 1016))

/-- The operand code of an operand; 0 for an immediate word, whose field must be zero (R95). -/
def Opd.code : Opd → Nat
  | .v n => n
  | .s n => n + 640
  | .k z => (z + 800).toNat
  | .x sp => sp.code
  | .lr => 1014
  | .exm => 1015
  | .q n => n + 1016
  | .imm _ => 0

def Cond.ofCode : Nat → Option Cond
  | 0 => some .eq | 1 => some .ne | 2 => some .lt | 3 => some .le | 4 => some .gt | 5 => some .ge | _ => none

def Cond.code : Cond → Nat
  | .eq => 0 | .ne => 1 | .lt => 2 | .le => 3 | .gt => 4 | .ge => 5

def FCond.ofCode : Nat → Option FCond
  | 0 => some .eq | 1 => some .ne | 2 => some .lt | 3 => some .le | 4 => some .gt | 5 => some .ge
  | 6 => some .un | 7 => some .ord | _ => none

def FCond.code : FCond → Nat
  | .eq => 0 | .ne => 1 | .lt => 2 | .le => 3 | .gt => 4 | .ge => 5 | .un => 6 | .ord => 7

def ShflMode.ofCode : Nat → Option ShflMode
  | 0 => some .idx | 1 => some .up | 2 => some .down | 3 => some .xor | _ => none

def ShflMode.code : ShflMode → Nat
  | .idx => 0 | .up => 1 | .down => 2 | .xor => 3

def RedOp.ofCode : Nat → Option RedOp
  | 0 => some .add | 1 => some .min | 2 => some .max | 3 => some .and | 4 => some .or | 5 => some .xor | _ => none

def RedOp.code : RedOp → Nat
  | .add => 0 | .min => 1 | .max => 2 | .and => 3 | .or => 4 | .xor => 5

def ScanOp.ofCode : Nat → Option ScanOp
  | 0 => some .add | 1 => some .min | 2 => some .max | _ => none

def ScanOp.code : ScanOp → Nat
  | .add => 0 | .min => 1 | .max => 2

def AtomOp.ofCode : Nat → Option AtomOp
  | 0 => some .add | 1 => some .smin | 2 => some .smax | 3 => some .umin | 4 => some .umax | 5 => some .and
  | 6 => some .or | 7 => some .xor | 8 => some .xchg | 9 => some .cas | 10 => some .fadd | _ => none

def AtomOp.code : AtomOp → Nat
  | .add => 0 | .smin => 1 | .smax => 2 | .umin => 3 | .umax => 4 | .and => 5
  | .or => 6 | .xor => 7 | .xchg => 8 | .cas => 9 | .fadd => 10

def WCond.ofCode : Nat → WCond
  | 0 => .ne | 1 => .eq | 2 => .geu | _ => .ltu

def WCond.code : WCond → Nat
  | .ne => 0 | .eq => 1 | .geu => 2 | .ltu => 3

def BankMode.ofCode : Nat → Option BankMode
  | 0 => some .cache | 1 => some .scratch | 2 => some .fifo | _ => none

def BankMode.code : BankMode → Nat
  | .cache => 0 | .scratch => 1 | .fifo => 2

/-! ### Operand classes -/

/-- Operand classes of Table 5-3; `y` is class X without laneid, for positions read once for the gang (R102). -/
inductive OC where
  | v | s | k | x | y | l | e | q
  deriving DecidableEq, Repr

/-- Is the operand of one of the classes a position admits (R103)? -/
def Opd.isOf (o : Opd) (cs : List OC) : Bool :=
  match o with
  | .v _ => cs.contains .v
  | .s _ => cs.contains .s
  | .k _ => cs.contains .k
  | .x .laneid => cs.contains .x
  | .x _ => cs.contains .x || cs.contains .y
  | .lr => cs.contains .l
  | .exm => cs.contains .e
  | .q _ => cs.contains .q
  | .imm _ => true

/-- The classes of a lane-wise source (Table 8-2). -/
def vsrc : List OC := [.v, .s, .k, .x, .l, .e, .q]
/-- The classes of a source of a scalar form (R104, R153). -/
def ssrc : List OC := [.s, .k, .y, .l, .e]
/-- The destinations of majors 0x20 to 0x6F (R103). -/
def ddst : List OC := [.v, .s, .l, .e, .q]

/-- A destination of class S, L or E selects the scalar form (R104). -/
def Opd.isScalarDst : Opd → Bool
  | .s _ | .lr | .exm => true
  | _ => false

/-- A vector operand of a 64-bit position names an even register (R103). -/
def Opd.evenIf (o : Opd) (is64 : Bool) : Bool :=
  match o with
  | .v n => !is64 || n % 2 == 0
  | _ => true

/-! ### Parsing -/

/-- An instruction with the verdict of each static group of Table 5-8. -/
structure Parsed where
  len : Bool := true
  minor : Bool := true
  resv : Bool := true
  cls : Bool := true
  pair : Bool := true
  ins : Instr

/-- An operand field, with a placeholder for a reserved special code (which no class admits). -/
def Raw.op (n : Nat) : Opd × Bool :=
  match Opd.ofCode n with
  | some o => (o, true)
  | none => (.x .laneid, false)

def Raw.guard (r : Raw) : Guard := ⟨r.gp, r.gn⟩
/-- Table 5-1 has no guard set: what a uniform instruction must carry (R96). -/
def Raw.noGuard (r : Raw) : Bool := r.gp == 0 && !r.gn
def Raw.sub (r : Raw) : Nat := r.min / 32
def Raw.sat (r : Raw) : Bool := r.min.testBit 4
def Raw.tyc (r : Raw) : Nat := r.min % 16
/-- The immediate word of a 96-bit form. -/
def Raw.imm (r : Raw) : W32 := BitVec.ofNat 32 r.ext
/-- Operand B, which the immediate word supplies in a 96-bit form (R95). -/
def Raw.bOpd (r : Raw) : Opd × Bool := if r.len == 2 then (.imm r.imm, true) else Raw.op r.b
/-- The B field must be zero when the immediate word supplies B (R95). -/
def Raw.bZero (r : Raw) : Bool := r.len != 2 || r.b == 0
/-- The displacement word of a 96-bit memory form (R235). -/
def Raw.disp (r : Raw) : Option W32 := if r.len == 2 then some r.imm else none

/-- A one-operand form of majors 0x20 to 0x6F. -/
def Raw.un (r : Raw) (tys : List Nat) (satOk subOk cOk : Bool) (mk : Un → Instr) : Parsed :=
  let d := Raw.op r.d
  let a := Raw.op r.a
  let sc := d.1.isScalarDst
  let ty := (Ety.ofCode r.tyc).getD .u32
  { len := r.len == 1
    minor := tys.contains r.tyc && (satOk || !r.sat) && subOk
    resv := r.b == 0 && cOk && (!sc || r.noGuard)
    cls := d.2 && a.2 && d.1.isOf ddst && a.1.isOf (if sc then ssrc else vsrc)
    pair := d.1.evenIf ty.is64 && a.1.evenIf ty.is64
    ins := mk ⟨r.guard, ty, r.sat, d.1, a.1⟩ }

/-- A two-operand form; `bcls` are the classes of a vector form's B, `b64` whether B follows a 64-bit type. -/
def Raw.bin (r : Raw) (lens : List Nat) (tys : List Nat) (satOk subOk cOk : Bool) (bcls : List OC) (b64 : Bool)
    (mk : Bin → Instr) : Parsed :=
  let d := Raw.op r.d
  let a := Raw.op r.a
  let b := r.bOpd
  let sc := d.1.isScalarDst
  let ty := (Ety.ofCode r.tyc).getD .u32
  let scb := if bcls.contains .l then ssrc else [.s, .k, .y]
  { len := lens.contains r.len
    minor := tys.contains r.tyc && (satOk || !r.sat) && subOk
    resv := r.bZero && cOk && (!sc || r.noGuard)
    cls := d.2 && a.2 && b.2 && d.1.isOf ddst && a.1.isOf (if sc then ssrc else vsrc)
      && b.1.isOf (if sc then scb else bcls)
    pair := d.1.evenIf ty.is64 && a.1.evenIf ty.is64 && b.1.evenIf (ty.is64 && b64)
    ins := mk ⟨r.guard, ty, r.sat, d.1, a.1, b.1⟩ }

/-- A three-operand form, 64 bits only. -/
def Raw.ter (r : Raw) (tys : List Nat) (satOk : Bool) (mk : Ter → Instr) : Parsed :=
  let d := Raw.op r.d
  let a := Raw.op r.a
  let b := Raw.op r.b
  let c := Raw.op r.c
  let sc := d.1.isScalarDst
  let src := if sc then ssrc else vsrc
  let ty := (Ety.ofCode r.tyc).getD .u32
  { len := r.len == 1
    minor := tys.contains r.tyc && (satOk || !r.sat) && r.sub == 0
    resv := !sc || r.noGuard
    cls := d.2 && a.2 && b.2 && c.2 && d.1.isOf ddst && a.1.isOf src && b.1.isOf src && c.1.isOf src
    pair := d.1.evenIf ty.is64 && a.1.evenIf ty.is64 && b.1.evenIf ty.is64 && c.1.evenIf ty.is64
    ins := mk ⟨r.guard, ty, r.sat, d.1, a.1, b.1, c.1⟩ }

def ints : List Nat := [0, 1, 2, 3, 4, 5, 6, 7]
def words : List Nat := [0, 1, 2, 3]
def floats : List Nat := [8, 9, 10]

/-- BFX and BFI (R160): the control word is operand C, or the immediate word with C zero. -/
def Raw.bitField (r : Raw) (tys : List Nat) (ins : Bool) : Parsed :=
  let d := Raw.op r.d
  let a := Raw.op r.a
  let b := Raw.op r.b
  let ctl := if r.len == 2 then (.imm r.imm, true) else Raw.op r.c
  let sc := d.1.isScalarDst
  let src := if sc then ssrc else vsrc
  let ty := (Ety.ofCode r.tyc).getD .u32
  { len := r.len == 1 || r.len == 2
    minor := tys.contains r.tyc && !r.sat && r.sub == 0
    resv := (ins || r.b == 0) && (r.len != 2 || r.c == 0) && (!sc || r.noGuard)
    cls := d.2 && a.2 && (!ins || b.2) && ctl.2 && d.1.isOf ddst && a.1.isOf src && (!ins || b.1.isOf src)
      && ctl.1.isOf (if sc then [.s, .k, .y] else [.v, .s, .k, .x, .q])
    pair := d.1.evenIf ty.is64 && a.1.evenIf ty.is64 && (!ins || b.1.evenIf ty.is64)
    ins := if ins then .bfi ⟨r.guard, ty, false, d.1, a.1, b.1⟩ ctl.1 else .bfx ⟨r.guard, ty, false, d.1, a.1⟩ ctl.1 }

/-- ICMP, ICMPC, FCMP, FCMPC: D zero, result named in C[3:0] (R165, R182). ICMP's A and B, for which R165 lists no classes, take those of
IADD (V S K X L E Q): DESIGN CHOICE, notes/assumptions/69. -/
def Raw.cmp (r : Raw) (tys : List Nat) (subMax : Nat) (uni : Bool) (mk : Opd → Opd → Instr) : Parsed :=
  let a := Raw.op r.a
  let b := r.bOpd
  let src := if uni then ssrc else vsrc
  let ty := (Ety.ofCode r.tyc).getD .u32
  { len := r.len == 1 || r.len == 2
    minor := tys.contains r.tyc && !r.sat && r.sub ≤ subMax
    resv := r.d == 0 && r.c < 16 && r.bZero && (!uni || r.noGuard)
    cls := a.2 && b.2 && a.1.isOf src && b.1.isOf src
    pair := a.1.evenIf ty.is64 && b.1.evenIf ty.is64
    ins := mk a.1 b.1 }

/-- MOVI: the admitted pairs of type and length (R163). -/
def Raw.moviLen (r : Raw) : Bool :=
  match r.tyc, r.len with
  | 1, 2 => true
  | 2, 2 => true
  | 3, 2 => true
  | 2, 3 => true
  | 3, 3 => true
  | _, _ => false

/-- A control-range form with only the listed fields in use. -/
def Raw.ctl (r : Raw) (lens : List Nat) (lane : Bool) (minOk : Bool) (i : Instr) : Parsed :=
  { len := lens.contains r.len
    minor := minOk
    resv := (lane || r.noGuard) && r.d == 0 && r.a == 0 && r.b == 0 && r.c == 0
    ins := i }

/-- A global lane-wise form (Table 12-1). -/
def Raw.gmem (r : Raw) : GMem :=
  ⟨r.guard, Size.ofCode (r.min / 4 % 4), Scope.ofCode (r.min % 4), (Raw.op r.a).1, r.c % 32, r.disp⟩

def Raw.smem (r : Raw) : SMem :=
  ⟨r.guard, Size.ofCode (r.min / 4 % 4), Scope.ofCode (r.min % 4), (Raw.op r.a).1, (Raw.op r.b).1, r.disp⟩

def Raw.szc (r : Raw) : Nat := r.min / 4 % 4
def Raw.scc (r : Raw) : Nat := r.min % 4

/-- A uniform range form (Table 12-1): index, record, length. -/
def Raw.range (r : Raw) (scopes : List Nat) (subOk dOk : Bool) (dCls : Bool) (mk : Range → Instr) : Parsed :=
  let a := Raw.op r.a
  let b := Raw.op r.b
  { len := r.len == 1 || r.len == 2
    minor := subOk && !r.sat && r.szc == 0 && scopes.contains r.scc
    resv := r.noGuard && dOk && r.c < 32
    cls := dCls && a.2 && b.2 && a.1.isOf [.s, .k] && b.1.isOf [.s, .k]
    ins := mk ⟨a.1, r.c % 32, b.1, r.disp⟩ }

/-- A copy form (Table 14-2). -/
def Raw.copy (r : Raw) (minOk extOk : Bool) (mk : Copy → Instr) : Parsed :=
  let a := Raw.op r.a
  let b := Raw.op r.b
  let c := Raw.op r.c
  let bar := if r.min.testBit 6 then some (r.min % 32) else none
  { len := r.len == 3
    minor := minOk && (r.min.testBit 6 || r.min % 32 == 0) && !r.min.testBit 8
    resv := extOk
    cls := r.d < 16 && a.2 && b.2 && c.2 && a.1.isOf [.s, .k] && b.1.isOf [.s, .k] && c.1.isOf [.s, .k]
    ins := mk ⟨r.guard, r.d, a.1, b.1, c.1, r.ext % 32, bar⟩ }

/-- An MMA form or MSEL (Table 14-2). -/
def Raw.mmaForm (r : Raw) (minOk extOk : Bool) (mk : MmaArgs → Instr) : Parsed :=
  let a := Raw.op r.a
  let b := Raw.op r.b
  { len := r.len == 3
    minor := minOk
    resv := extOk
    cls := r.d < 16 && a.2 && b.2 && a.1.isOf [.s, .k] && b.1.isOf [.s, .k] && r.c < 640
    ins := mk ⟨r.guard, r.d, a.1, b.1, r.c, r.min % 4, r.ext % 2 ^ 20, r.ext / 2 ^ 20 % 2 ^ 20⟩ }

/-- An engine or system form of 64 bits: which of D, A, B, C are in use, with their class verdicts. -/
def Raw.sys (r : Raw) (lens : List Nat) (lane minOk : Bool) (useD useA useB useC : Bool) (extOk clsOk : Bool)
    (i : Instr) : Parsed :=
  { len := lens.contains r.len
    minor := minOk
    resv := (lane || r.noGuard) && (useD || r.d == 0) && (useA || r.a == 0) && (useB || r.b == 0)
      && (useC || r.c == 0) && extOk
    cls := clsOk
    ins := i }

/-- Does a field hold an operand of one of the classes? -/
def fieldOf (n : Nat) (cs : List OC) : Bool := (Raw.op n).2 && (Raw.op n).1.isOf cs

/-- System register numbers that Table 6-4, Table 17-7 and Table 20-4 list; others are reserved (R124). -/
def sysNumDefined (n : Nat) : Bool :=
  n ≤ 4 || (0x100 ≤ n && n ≤ 0x13F) || n == 0x200 || n == 0x201 || (0x208 ≤ n && n ≤ 0x210)
  || (0x218 ≤ n && n ≤ 0x21B) || (0x300 ≤ n && n ≤ 0x304) || n == 0x308 || (0x400 ≤ n && n ≤ 0x403)
  || (let m := if 0xC00 ≤ n then n - 0x400 else n
      (0x800 ≤ m && m ≤ 0x810) || (0x880 ≤ m && m ≤ 0x88B) || (0x900 ≤ m && m ≤ 0x905))

/-- An emulation-space form (R109). -/
def Raw.emul (r : Raw) (d64 a64 b64 useB : Bool) (minOk : Bool) (mk : Emu → Instr) : Parsed :=
  let a := (Raw.op r.a).1
  let b := (Raw.op r.b).1
  { len := r.len == 1
    minor := minOk
    resv := r.c == 0 && (useB || r.b == 0)
    cls := fieldOf r.d [.v] && fieldOf r.a [.v, .s, .k] && (!useB || fieldOf r.b [.v, .s, .k])
    pair := (Raw.op r.d).1.evenIf d64 && a.evenIf a64 && (!useB || b.evenIf b64)
    ins := mk ⟨r.guard, (Raw.op r.d).1, a, b⟩ }

/-- Control range, Table 7-1. -/
def Raw.parseControl (r : Raw) : Option Parsed :=
  let g := r.guard
  let reg (n : Nat) : Nat := n - 640
  let tgt : Target := if r.len == 2 then .off r.imm else .reg (reg r.a)
  let jump (lane : Bool) (i : Instr) : Parsed :=
    { len := r.len == 1 || r.len == 2, minor := r.min == 0
      resv := (lane || r.noGuard) && r.d == 0 && (r.len == 1 || r.a == 0) && r.b == 0 && r.c == 0
      cls := r.len == 2 || fieldOf r.a [.s], ins := i }
  match r.maj with
  | 0x00 => some (r.ctl [1] false (r.min == 0) .nop)
  | 0x01 => some (jump false (.bra tgt))
  | 0x02 => some (r.ctl [2] false (r.min < 32) (.brc (r.min.testBit 4) (r.min % 16) r.imm))
  | 0x03 => some (jump true (.call g tgt))
  | 0x04 => some { len := r.len == 1, minor := r.min == 0, resv := r.d == 0 && r.c == 0
                   cls := fieldOf r.a [.v] && fieldOf r.b [.s], ins := .callv g r.a (reg r.b) }
  | 0x05 => some (r.ctl [1] false (r.min == 0) .ret)
  | 0x06 =>
    let e := r.ext % 2 ^ 16
    let n := r.ext / 2 ^ 16 % 2 ^ 16
    let p := r.ctl [2] true (r.min == 0) (.ifI g e n)
    some { p with resv := p.resv && n != 0 && (e == 0 || e < n) }
  | 0x07 => some (r.ctl [1] false (r.min == 0) .elseI)
  | 0x08 => some (r.ctl [1] false (r.min == 0) .endif)
  | 0x09 => some (r.ctl [1] false (r.min == 0) .loop)
  | 0x0A => some (r.ctl [1] true (r.min == 0) (.brk g))
  | 0x0B => some (r.ctl [1] true (r.min == 0) (.cont g))
  | 0x0C => some (r.ctl [1] false (r.min == 0) .endloop)
  | 0x0D => some (r.ctl [1] false (r.min == 0) .gjoin)
  | 0x0E => some (r.ctl [1] false (r.min == 0) .exit)
  | 0x0F => some { len := r.len == 1, minor := r.min < 4
                   resv := r.noGuard && r.d == 0 && r.a == 0 && r.b == 0, ins := .waitp (r.min % 4) r.c }
  | 0x10 => some (r.ctl [2] false (r.min < 3)
      (match r.min with | 0 => .tryGang r.imm | 1 => .tryCrew r.imm | _ => .tryLaunch r.imm))
  | 0x11 => some (r.ctl [1] false (r.min < 3)
      (match r.min with | 0 => .endtryGang | 1 => .endtryCrew | _ => .endtryLaunch))
  | 0x12 => some { len := r.len == 1, minor := r.min == 0, resv := r.d == 0 && r.b == 0 && r.c == 0
                   cls := fieldOf r.a [.v, .s, .k], ins := .throw g (Raw.op r.a).1 }
  | 0x13 => some (r.ctl [1] false (r.min == 0) .rethrow)
  | 0x14 => some { len := r.len == 1, minor := r.min == 0, resv := r.noGuard && r.b == 0 && r.c == 0
                   cls := fieldOf r.d [.s] && fieldOf r.a [.s, .k], ins := .rdexr (Raw.op r.d).1 (Raw.op r.a).1 }
  | _ => none

/-- Integer range, 08_integer. The spec does not list the operand classes of SHL, SHR, SAR and ROT, of A and B of BFX, BFI and SEL, and of A
of POPC, CLZ, CTZ, BREV and LEA: they take those of IADD (V S K X L E Q). DESIGN CHOICE, notes/assumptions/69. BCAST's B and PMOV.BIT's A are
read once for the gang and admit no laneid (R102, R167, R169). -/
def Raw.parseInt (r : Raw) : Option Parsed :=
  let g := r.guard
  let ty := (Ety.ofCode r.tyc).getD .u32
  let z := r.sub == 0
  let c0 := r.c == 0
  let b2 (tys : List Nat) (sat : Bool) (mk : Bin → Instr) := r.bin [1, 2] tys sat z c0 vsrc true mk
  let dd := (Raw.op r.d).1
  match r.maj with
  | 0x20 => some (b2 ints true .iadd)
  | 0x21 => some (b2 ints true .isub)
  | 0x22 => some (b2 ints true .imul)
  | 0x23 => some (b2 words false .imulh)
  | 0x24 => some (r.ter ints true .imad)
  | 0x25 => some (r.un ints true z c0 .iabs)
  | 0x26 => some (r.un ints true z c0 .ineg)
  | 0x27 => some (b2 ints false .imin)
  | 0x28 => some (b2 ints false .imax)
  | 0x29 => some (b2 ints false .and)
  | 0x2A => some (b2 ints false .or)
  | 0x2B => some (b2 ints false .xor)
  | 0x2C => some (r.un ints false z c0 .not)
  | 0x2D => some (b2 ints true .shl)
  | 0x2E => some (b2 ints false .shr)
  | 0x2F => some (b2 ints false .sar)
  | 0x30 => some (b2 ints false .rot)
  | 0x31 => some (r.bitField words false)
  | 0x32 => some (r.bitField [1, 3] true)
  | 0x33 => some (r.un ints false z c0 .popc)
  | 0x34 => some (r.un ints false z c0 .clz)
  | 0x35 => some (r.un ints false z c0 .ctz)
  | 0x36 => some (r.un ints false z c0 .brev)
  | 0x37 => some (r.cmp words 5 false (.icmp g ((Cond.ofCode r.sub).getD .eq) ty (r.c % 16)))
  | 0x38 => some (r.cmp words 5 true (.icmpc ((Cond.ofCode r.sub).getD .eq) ty (r.c % 16)))
  | 0x39 => some (r.bin [1, 2] [1, 3] false z (r.c < 32) vsrc true (fun x => .sel x (r.c % 16) (r.c.testBit 4)))
  | 0x3A => some (r.un [1, 3] false z c0 .mov)
  | 0x3B => some { len := r.moviLen, minor := z && !r.sat
                   resv := r.a == 0 && r.b == 0 && c0 && (!dd.isScalarDst || r.noGuard)
                   cls := fieldOf r.d [.v, .s, .l, .e], pair := dd.evenIf ty.is64
                   ins := .movi g ty dd (if r.len == 3 then .ext (BitVec.ofNat 64 r.ext) else .word r.imm) }
  | 0x3C => some (r.bin [1, 2] words false true c0 [.v, .s, .k, .x, .q] false (fun x => .lea x r.sub))
  | 0x3D => some { len := r.len == 2, minor := r.min == 0
                   resv := r.d == 0 && r.a == 0 && r.b == 0 && c0 && r.ext < 2 ^ 16
                   ins := .plop g (r.ext % 16) (r.ext / 16 % 16) (r.ext / 256 % 16) (BitVec.ofNat 4 (r.ext / 4096)) }
  | 0x3E =>
    let minor := r.tyc == 1 && !r.sat && r.sub < 3
    match r.sub with
    | 1 => some { len := r.len == 1, minor, resv := r.a == 0 && r.b == 0 && r.c < 16
                  cls := fieldOf r.d [.v], ins := .pmov g (.fromPred dd (r.c % 16)) }
    | 2 => some { len := r.len == 1, minor, resv := r.d == 0 && r.b == 0 && r.c < 16
                  cls := fieldOf r.a [.s, .k, .y, .l, .e], ins := .pmov g (.bit (r.c % 16) (Raw.op r.a).1) }
    | _ => some { len := r.len == 1, minor, resv := r.d == 0 && r.b == 0 && r.c < 16
                  cls := fieldOf r.a [.v, .s, .k, .x, .q], ins := .pmov g (.toPred (r.c % 16) (Raw.op r.a).1) }
  | 0x3F => some { len := r.len == 2, minor := r.min == 0
                   resv := r.noGuard && r.d == 0 && r.a == 0 && r.b == 0 && c0 && r.ext < 2 ^ 16
                   ins := .clop (r.ext % 16) (r.ext / 16 % 16) (r.ext / 256 % 16) (BitVec.ofNat 4 (r.ext / 4096)) }
  | 0x40 => some { len := r.len == 1, minor := (r.tyc == 1 || r.tyc == 3) && !r.sat && r.sub < 4, resv := c0
                   cls := fieldOf r.d [.v] && fieldOf r.a [.v] && fieldOf r.b [.v, .s, .k, .x]
                   pair := dd.evenIf ty.is64 && (Raw.op r.a).1.evenIf ty.is64
                   ins := .shfl g ((ShflMode.ofCode r.sub).getD .idx) ty dd (Raw.op r.a).1 (Raw.op r.b).1 }
  | 0x41 => some { len := r.len == 1, minor := (r.tyc == 1 || r.tyc == 3) && !r.sat && z, resv := c0
                   cls := fieldOf r.d [.v] && fieldOf r.a [.v] && fieldOf r.b [.s, .k, .y]
                   pair := dd.evenIf ty.is64 && (Raw.op r.a).1.evenIf ty.is64
                   ins := .bcast g ty dd (Raw.op r.a).1 (Raw.op r.b).1 }
  | 0x42 => some { len := r.len == 1, minor := r.min == 0, resv := r.a == 0 && r.b == 0 && r.c < 16
                   cls := fieldOf r.d [.s], ins := .ballot g dd (r.c % 16) }
  | 0x43 => some { len := r.len == 1
                   minor := r.tyc < 2 && r.sub / 2 < 3 && (!r.sat || r.sub / 2 == 0), resv := r.b == 0 && c0
                   cls := fieldOf r.d [.v] && fieldOf r.a [.v]
                   ins := .pscan g ((ScanOp.ofCode (r.sub / 2)).getD .add) (r.sub.testBit 0) ty r.sat dd (Raw.op r.a).1 }
  | 0x44 => some { len := r.len == 1, minor := r.min == 1, resv := c0
                   cls := fieldOf r.d [.v] && fieldOf r.a [.s] && fieldOf r.b [.s, .k]
                   ins := .append g dd (Raw.op r.a).1 (Raw.op r.b).1 }
  | 0x45 => some { len := r.len == 2
                   minor := r.tyc < 4 && r.sub < 6 && (!r.sat || r.sub == 0)
                   resv := r.a == 0 && r.b == 0 && c0 && r.ext < 1024
                   cls := fieldOf r.d [.s], pair := !ty.is64 || r.ext % 2 == 0
                   ins := .red g ((RedOp.ofCode r.sub).getD .add) ty r.sat dd (r.ext % 1024) }
  | _ => none

/-- Floating-point range, 09_float. -/
def Raw.parseFloat (r : Raw) : Option Parsed :=
  let g := r.guard
  let z := r.sub == 0
  let c0 := r.c == 0
  let b2 (sat sub : Bool) (mk : Bin → Instr) := r.bin [1, 2] floats sat sub c0 vsrc true mk
  let u (mk : Un → Instr) := r.un floats false z c0 mk
  let d := (Raw.op r.d).1
  let a := (Raw.op r.a).1
  let sc := d.isScalarDst
  match r.maj with
  | 0x50 => some (b2 true z .fadd)
  | 0x51 => some (b2 true z .fsub)
  | 0x52 => some (b2 true z .fmul)
  | 0x53 => some (r.ter floats true .fma)
  | 0x54 => some (b2 false (r.sub < 2) (.fmin (r.sub == 1)))
  | 0x55 => some (b2 false (r.sub < 2) (.fmax (r.sub == 1)))
  | 0x56 => some (u .fabs)
  | 0x57 => some (u .fneg)
  | 0x58 => some (r.cmp [8] 7 false (.fcmp g ((FCond.ofCode r.sub).getD .eq) (r.c % 16)))
  | 0x59 => some (r.cmp [8] 7 true (.fcmpc ((FCond.ofCode r.sub).getD .eq) (r.c % 16)))
  | 0x5A => some (u .frcp)
  | 0x5B => some (u .frsq)
  | 0x5C => some (u .fsqrt)
  | 0x5D => some (u .fexp2)
  | 0x5E => some (u .flog2)
  | 0x5F => some (u .fsin)
  | 0x60 => some (u .fcos)
  | 0x61 => some (u .ftanh)
  | 0x62 => some { len := r.len == 2, minor := r.tyc == 8 && !r.sat && z
                   resv := r.d == 0 && r.b == 0 && r.c < 16 && r.ext < 1024, cls := fieldOf r.a vsrc
                   ins := .fclass g (r.c % 16) a (BitVec.ofNat 10 r.ext) }
  | 0x63 =>
    let src := Fmt.ofCode r.tyc
    let tgt := Fmt.ofCode r.sub
    let sw := (src.getD .s32).width
    let tw := (tgt.getD .s32).width
    let kOk := r.tyc == 0 || r.tyc == 1 || r.tyc == 8
    some { len := r.len == 1, minor := src.isSome && tgt.isSome && r.tyc != r.sub
           resv := r.b == 0 && r.c < 64 && r.c % 8 < 32 / sw && r.c / 8 % 8 < 32 / tw && (!sc || r.noGuard)
           cls := fieldOf r.d ddst && fieldOf r.a (if sc then ssrc else vsrc)
             && (kOk || !fieldOf r.a [.k])
           ins := .cvt g (tgt.getD .s32) (src.getD .s32) r.sat d a (r.c % 8) (r.c / 8 % 8) }
  | 0x64 =>
    let fmt := (Fmt.ofCode r.tyc).getD .e4m3
    let minor := (r.tyc == 11 || r.tyc == 13) && !r.sat && r.sub < 2
    let dc := fieldOf r.d ddst && fieldOf r.a (if sc then ssrc else vsrc)
    if r.sub == 1 then
      some { len := r.len == 1, minor, resv := r.b == 0 && c0 && (!sc || r.noGuard), cls := dc
             ins := .cvtmxScale g fmt d a }
    else
      some { len := r.len == 1, minor, resv := r.c < (if r.tyc == 11 then 4 else 8) && (!sc || r.noGuard)
             cls := dc && fieldOf r.b (if sc then [.s, .k, .y] else [.v, .s, .k, .x, .q])
             ins := .cvtmx g fmt d a (Raw.op r.b).1 (r.c % 8) }
  | 0x65 => some (r.bin [1, 2] floats true z c0 [.v, .s, .k, .x, .q] true .fscale)
  | _ => none

/-- Memory range, Table 12-1. -/
def Raw.parseMem (r : Raw) : Option Parsed :=
  let l12 := r.len == 1 || r.len == 2
  let sz := Size.ofCode r.szc
  let a := Raw.op r.a
  let b := Raw.op r.b
  let c := Raw.op r.c
  let d := Raw.op r.d
  let lane : List OC := [.v, .s, .k, .x]
  let sk : List OC := [.s, .k]
  let sx := r.sub / 2 % 2 == 1
  let sxOk := !sx || r.szc < 2
  let m0 := !r.sat
  let dq (is64 : Bool) := fieldOf r.d [.v, .q] && !(is64 && fieldOf r.d [.q])
  let aop := (AtomOp.ofCode r.sub).getD .add
  let atomMin := m0 && r.sub < 11 && r.szc ≥ 2 && (r.sub != 10 || r.szc == 2)
  match r.maj with
  | 0x70 =>
    let rp := r.sub % 2 == 1
    let p := r.c / 32 % 16
    some { len := l12, minor := m0 && r.sub < 4 && sxOk
           resv := r.b == 0 && r.c < 512 && (if rp then p != 0 else p == 0)
           cls := dq sz.is64 && fieldOf r.a lane, pair := d.1.evenIf sz.is64
           ins := if rp then .ldRp r.gmem sx d.1 p else .ld r.gmem sx d.1 }
  | 0x71 => some { len := l12, minor := m0 && r.sub == 0, resv := r.d == 0 && r.c < 32
                   cls := fieldOf r.a lane && fieldOf r.b [.v, .s, .k, .x, .q], pair := b.1.evenIf sz.is64
                   ins := .st r.gmem b.1 }
  | 0x72 => some { len := l12, minor := m0 && (r.sub == 0 || r.sub == 2) && sxOk && r.scc < 2, resv := r.c == 0
                   cls := dq sz.is64 && fieldOf r.a sk && fieldOf r.b lane, pair := d.1.evenIf sz.is64
                   ins := .lds r.smem sx d.1 }
  | 0x73 => some { len := l12, minor := m0 && r.sub == 0 && r.scc < 2, resv := r.d == 0
                   cls := fieldOf r.a sk && fieldOf r.b lane && fieldOf r.c [.v, .s, .k, .x, .q]
                   pair := c.1.evenIf sz.is64, ins := .sts r.smem c.1 }
  | 0x74 => some { len := l12, minor := atomMin, resv := r.c < 32
                   cls := fieldOf r.d [.v] && fieldOf r.a lane && fieldOf r.b lane
                   pair := d.1.evenIf sz.is64 && b.1.evenIf sz.is64, ins := .atom aop r.gmem d.1 b.1 }
  | 0x75 => some { len := l12, minor := atomMin && r.scc < 2
                   cls := fieldOf r.d [.v] && fieldOf r.a sk && fieldOf r.b lane && fieldOf r.c lane
                   pair := d.1.evenIf sz.is64 && c.1.evenIf sz.is64, ins := .atoms aop r.smem d.1 c.1 }
  | 0x76 => some (r.sys [1] false (m0 && r.sub == 0 && r.szc == 0) true false false false true (fieldOf r.d [.s])
      (.fence (Scope.ofCode r.scc) d.1))
  | 0x77 => some { len := l12, minor := m0 && r.sub < 4 && r.szc ≥ 2 && r.scc ≥ 2
                   resv := r.noGuard && r.c < 32
                   cls := fieldOf r.d [.s] && fieldOf r.a sk && fieldOf r.b sk
                   ins := .waita (WCond.ofCode r.sub) sz (Scope.ofCode r.scc) d.1 a.1 (r.c % 32) b.1 r.disp }
  | 0x78 => some { len := l12, minor := m0 && r.sub == 0 && r.szc == 0 && r.scc ≥ 2
                   resv := r.noGuard && r.d == 0 && r.b == 0 && r.c < 32, cls := fieldOf r.a sk
                   ins := .wake (Scope.ofCode r.scc) a.1 (r.c % 32) r.disp }
  | 0x79 => some (r.sys [1] false (r.min == 0) false false false false true true .persist)
  | 0x7A => some (r.range [2] (r.sub == 0) (r.d == 0) true .zfill)
  | 0x7B => some (r.range [0] (r.sub == 0) true (r.d < 16) (.pagereq r.d))
  | 0x7C => some (r.range [0, 1, 2] (r.sub < 2) (r.d == 0) true
      (if r.sub == 1 then .cctlDisc (Scope.ofCode r.scc) else .cctlWb (Scope.ofCode r.scc)))
  | 0x7D => some (r.range [0] (r.sub == 0) (r.d == 0) true .icpf)
  | 0x7E => some (r.range [0] (r.sub < 2) (r.d == 0) true (if r.sub == 1 then .icpinUnpin else .icpin))
  | 0x7F => some (r.range [1, 2] (r.sub == 0) (r.d == 0) true (if r.scc == 1 then .icinvCrew else .icinvDev))
  | 0x80 => some { len := r.len == 1, minor := m0 && r.sub < 2 && r.szc == 0 && r.scc == 0
                   resv := r.noGuard && r.b == 0 && r.c < 16, cls := fieldOf r.d [.s] && fieldOf r.a [.q]
                   ins := .qstat (r.sub == 1) d.1 (r.a - 1016) (r.c % 16) }
  | _ => none

/-- Engine range, Tables 14-2 and 14-5. -/
def Raw.parseEngine (r : Raw) : Option Parsed :=
  let g := r.guard
  let a := Raw.op r.a
  let sk : List OC := [.s, .k]
  let t := r.min % 4
  let cf := r.c < 16
  let arrOk := !r.min.testBit 7 || r.min.testBit 6
  match r.maj with
  | 0x90 => some (r.copy arrOk (r.ext < 32) (fun x => .cpy x (r.min.testBit 7) (r.min.testBit 5)))
  | 0x91 => some (r.copy (!r.min.testBit 7 && !r.min.testBit 5) (r.ext < 2 ^ 16 && r.ext / 32 % 8 == 0)
      (fun x => .cpyM x (BitVec.ofNat 8 (r.ext / 256))))
  | 0x92 => some (r.copy arrOk (r.ext < 32) (fun x => .cpyX x (r.min.testBit 7) (r.min.testBit 5)))
  | 0x93 => some (r.mmaForm (r.min < 4) (r.ext < 2 ^ 40) .mma)
  | 0x94 => some (r.mmaForm (r.min < 4) (r.ext < 2 ^ 60) (fun x => .mmaSp x (r.ext / 2 ^ 40 % 2 ^ 20)))
  | 0x95 => some (r.mmaForm (r.min < 4) (r.ext < 2 ^ 40) .mmaP)
  | 0x96 => some (r.mmaForm (r.min == 0) (r.ext < 2 ^ 60 && r.ext / 2 ^ 20 % 2 ^ 20 == 0)
      (fun x => .msel x.g x.f x.a x.b x.fw x.sa (r.ext / 2 ^ 40 % 2 ^ 20)))
  | 0x97 => some (r.sys [1] true (r.min < 4) true false false false true (r.d < 16) (.accz g r.d t))
  | 0x98 => some (r.sys [1] true (r.min % 32 < 4 && [0, 8, 9, 10, 11, 12].contains r.sub) true true false false true
      (r.d < 16 && fieldOf r.a sk) (.accdr g r.d a.1 ((Fmt.ofCode r.sub).getD .f32) t))
  | 0x99 => some (r.sys [1] true (r.min < 4) true true false false true (r.d < 16 && fieldOf r.a sk)
      (.wdset g r.d a.1 t))
  | 0x9A => some (r.sys [1] true (r.min == 0) true false false false true (r.d < 16) (.mfence g r.d))
  | 0x9B =>
    let st := r.min == 32
    some { len := r.len == 1, minor := r.min == 0 || st
           resv := r.noGuard && (st || r.d == 0) && r.a == 0 && r.b == 0 && cf, cls := !st || fieldOf r.d [.s]
           ins := .fwait (r.c % 16) (if st then some (r.d - 640) else none) }
  | 0x9C =>
    let st := r.min.testBit 5
    some { len := r.len == 1, minor := r.min < 64 && !r.min.testBit 4
           resv := r.noGuard && (st || r.d == 0) && r.a == 0 && r.b == 0 && cf, cls := !st || fieldOf r.d [.s]
           ins := .ftest (r.c % 16) (r.min % 16) (if st then some (r.d - 640) else none) }
  | 0x9D => some { len := r.len == 1, minor := r.min == 0
                   resv := r.noGuard && r.d == 0 && r.a == 0 && r.b == 0 && cf, ins := .fcancel (r.c % 16) }
  | 0x9E => some { len := r.len == 1, minor := r.min == 0, resv := r.noGuard && r.d == 0 && r.b == 0 && cf
                   cls := fieldOf r.a sk, ins := .fexport (r.c % 16) a.1 }
  | 0x9F => some (r.sys [1] false (r.min == 0) true true false false true (r.d < 16 && fieldOf r.a sk)
      (.fimport r.d a.1))
  | 0xA0 => some (r.sys [1] false (r.min < 32) false true false false true (fieldOf r.a sk) (.barinit (r.min % 32) a.1))
  | 0xA1 => some (r.sys [1] false (r.min < 32) false false false false true true (.bara (r.min % 32)))
  | 0xA2 => some (r.sys [1] false (r.min < 32) false true false false true (fieldOf r.a sk) (.barexp (r.min % 32) a.1))
  | 0xA3 => some (r.sys [1] false (r.min < 64) false false false false true true
      (.barw (r.min % 32) (r.min.testBit 5)))
  | 0xA4 => some (r.sys [1] false (r.min < 4) false false false false true true (.lbar t))
  | _ => none

/-- Transactions and system range, Tables 15-3 and 15-7. -/
def Raw.parseSystem (r : Raw) : Option Parsed :=
  let g := r.guard
  let a := (Raw.op r.a).1
  let b := (Raw.op r.b).1
  let d := (Raw.op r.d).1
  let sk : List OC := [.s, .k]
  let m0 := r.min == 0
  let aSk := fieldOf r.a sk
  let bSk := fieldOf r.b sk
  let dS := fieldOf r.d [.s]
  let vreg := r.ext < 2 ^ 17 && r.ext / 1024 % 64 == 0
  match r.maj with
  | 0xB0 => some (r.sys [1] false m0 true true false false true (r.d < 16 && aSk) (.otdecl r.d a))
  | 0xB1 => some { len := r.len == 1, minor := m0
                   resv := r.noGuard && r.d == 0 && r.a == 0 && r.b == 0 && r.c < 16, ins := .otbegin (r.c % 16) }
  | 0xB2 => some (r.sys [1] false m0 false false false false true true .otend)
  | 0xB3 => some (r.sys [1] false m0 false true false false true aSk (.otround a))
  | 0xC0 => some (r.sys [1, 2] false m0 false (r.len == 1) false false (r.len == 1 || r.ext < 2 ^ 16)
      (r.len == 2 || aSk) (.trap (if r.len == 2 then .imm r.imm else a)))
  | 0xC1 => some (r.sys [1] false m0 false true false true true aSk (.svret a r.c))
  | 0xC2 => some (r.sys [1] false m0 false true true false true (aSk && bSk) (.svthrow a b))
  | 0xC3 => some (r.sys [2] true m0 true true false false vreg (fieldOf r.d [.v] && aSk)
      (.rdxv g d a (r.ext % 1024) (r.ext.testBit 16)))
  | 0xC4 => some (r.sys [2] true m0 false true true false vreg (aSk && fieldOf r.b [.v, .s, .k])
      (.wrxv g a b (r.ext % 1024) (r.ext.testBit 16)))
  | 0xC5 => some (r.sys [2] false m0 true true false false (r.ext < 2 ^ 13) (dS && aSk) (.rdxs d a (r.ext % 2 ^ 13)))
  | 0xC6 => some (r.sys [2] false m0 false true true false (r.ext < 2 ^ 13) (aSk && bSk) (.wrxs a b (r.ext % 2 ^ 13)))
  | 0xC7 => some (r.sys [2] false (m0 && sysNumDefined (r.ext % 4096)) true false false false (r.ext < 2 ^ 12) dS
      (.rdsys d (r.ext % 4096)))
  | 0xC8 => some (r.sys [2] false (m0 && sysNumDefined (r.ext % 4096)) false true false false (r.ext < 2 ^ 12) aSk
      (.wrsys a (r.ext % 4096)))
  | 0xC9 => some (r.sys [1] false (r.min < 3) false true false false true aSk
      (.bankset a ((BankMode.ofCode r.min).getD .cache)))
  | 0xCA => some (r.sys [1] false m0 true true true false true (dS && aSk && bSk) (.bist d a b))
  | 0xCB =>
    if r.min == 32 then some (r.sys [1] false true true true true false true (dS && aSk && bSk) (.mbxrdWord d a b))
    else some (r.sys [1] false m0 true false false false true dS (.mbxrdNext d))
  | 0xCC => some (r.sys [1] false m0 true true false false true (dS && aSk) (.coreret d a))
  | _ => none

/-- Emulation space, Table 5-9. -/
def Raw.parseEmu (r : Raw) : Option Parsed :=
  let m0 := r.min == 0
  let e (w : Bool) (mk : Emu → Instr) := r.emul w w w true m0 mk
  match r.maj with
  | 0xE0 => some (e false .idivU32)
  | 0xE1 => some (e false .iremU32)
  | 0xE2 => some (e true .idivU64)
  | 0xE3 => some (e true .iremU64)
  | 0xE4 => some (e false .idivS32)
  | 0xE5 => some (e false .iremS32)
  | 0xE6 => some (e true .idivS64)
  | 0xE7 => some (e true .iremS64)
  | 0xE8 => some (e false .fdivF32)
  | 0xE9 => some (e true .dadd)
  | 0xEA => some (e true .dmul)
  | 0xEB =>
    let p := e true (fun x => .dfma x (Raw.op r.c).1)
    some { p with resv := true, cls := p.cls && fieldOf r.c [.v], pair := p.pair && (Raw.op r.c).1.evenIf true }
  | 0xEC => some (e true .ddiv)
  | 0xED => some (r.emul true true false false m0 (fun x => .dsqrt x.g x.d x.a))
  | 0xEE =>
    let f := r.min % 4
    some (r.emul (f == 0 || f == 2) (f == 1 || f == 3) false false (r.min < 4) (fun x => .dcvt x.g f x.d x.a))
  | 0xEF => some (e false .emu)
  | _ => none

/-- The instruction a word names, by Table 5-5; none for a reserved major. -/
def Raw.parse (r : Raw) : Option Parsed :=
  if r.maj < 0x20 then r.parseControl
  else if r.maj < 0x50 then r.parseInt
  else if r.maj < 0x70 then r.parseFloat
  else if r.maj < 0x90 then r.parseMem
  else if r.maj < 0xB0 then r.parseEngine
  else if r.maj < 0xE0 then r.parseSystem
  else r.parseEmu

/-- The static checks of Table 5-8, rows 6 to 11, in order. -/
def Raw.check (r : Raw) : Except Cause Instr :=
  match r.parse with
  | none => .error .reservedMajor
  | some p =>
    if !p.len then .error .length
    else if !p.minor then .error .undefinedMinor
    else if !p.resv then .error .reservedField
    else if !p.cls then .error .operandClass
    else if !p.pair then .error .oddPair
    else .ok p.ins

/-! ### Words and bytes -/

/-- The base word and what follows it, cut by Table 5-1. -/
def Raw.ofWord (w ext : Nat) : Raw :=
  ⟨w % 4, bits w 9 2, bits w 13 10, w.testBit 14, bits w 24 15, bits w 34 25, bits w 44 35, bits w 54 45, bits w 63 55,
    ext⟩

/-- The base word of a cut instruction. -/
def Raw.word (r : Raw) : Nat :=
  r.len + r.maj * 2 ^ 2 + r.gp * 2 ^ 10 + b2n r.gn * 2 ^ 14 + r.d * 2 ^ 15 + r.a * 2 ^ 25 + r.b * 2 ^ 35
    + r.c * 2 ^ 45 + r.min * 2 ^ 55

/-- Length in bytes of the word whose LEN field is `l` (R92). -/
def lenBytes (l : Nat) : Nat :=
  if l == 2 then 12 else if l == 3 then 16 else 8

/-- A clause header (Table 5-2); its own breaches are cause illegal clause (R97). -/
def decodeHeader (w : Nat) : Except Cause Instr :=
  let seta := bits w 17 14
  let setb := bits w 21 18
  if w / 2 ^ 23 != 0 || (0xC ≤ seta && seta ≤ 0xE) || (0xC ≤ setb && setb ≤ 0xE) then .error .illegalClause
  else .ok (.clauseHeader (w.testBit 22) setb seta (BitVec.ofNat 12 (w / 4)))

/-- Little-endian value of a list of bytes (R3). -/
def leNat : List Byte → Nat
  | [] => 0
  | b :: bs => b.toNat + 256 * leNat bs

/-- The `n` low bytes of a value, least significant first (R3). -/
def toLE : Nat → Nat → List Byte
  | 0, _ => []
  | n + 1, x => BitVec.ofNat 8 x :: toLE n (x / 256)

/-- Decode from the value of the base word and of the extension bytes that follow it. -/
def decodeWords (w ext : Nat) : Except Cause Instr :=
  if w % 4 == 0 then decodeHeader w
  else
    let l := w % 4
    (Raw.ofWord w (if l == 1 then 0 else if l == 2 then ext % 2 ^ 32 else ext % 2 ^ 64)).check

/-- Decode the instruction at the front of a list of bytes: the instruction with its length in bytes, or the cause by
which it is illegal. Too few bytes read as a fetch fault. -/
def decode (bs : List Byte) : Except Cause (Instr × Nat) :=
  if bs.length < 8 then .error .fetchFault
  else
    let w := leNat (bs.take 8)
    let n := lenBytes (w % 4)
    if bs.length < n then .error .fetchFault
    else match decodeWords w (leNat ((bs.take n).drop 8)) with
      | .ok i => .ok (i, n)
      | .error c => .error c

/-! ### The encoder -/

/-- The immediate word of a 96-bit form as a natural number. -/
def Opd.ext : Opd → Nat
  | .imm w => w.toNat
  | _ => 0

/-- LEN of a form whose B operand may be the immediate word. -/
def Opd.lenB : Opd → Nat
  | .imm _ => 2
  | _ => 1

def dispLen (d : Option W32) : Nat := if d.isSome then 2 else 1
def dispExt (d : Option W32) : Nat := (d.map BitVec.toNat).getD 0

def encMin (sub : Nat) (sat : Bool) (ty : Nat) : Nat := sub * 32 + b2n sat * 16 + ty

def encUn (maj sub : Nat) (x : Un) : Raw :=
  ⟨1, maj, x.g.p, x.g.neg, x.d.code, x.a.code, 0, 0, encMin sub x.sat x.ty.code, 0⟩

def encBin (maj sub c : Nat) (x : Bin) : Raw :=
  ⟨x.b.lenB, maj, x.g.p, x.g.neg, x.d.code, x.a.code, x.b.code, c, encMin sub x.sat x.ty.code, x.b.ext⟩

def encTer (maj : Nat) (x : Ter) : Raw :=
  ⟨1, maj, x.g.p, x.g.neg, x.d.code, x.a.code, x.b.code, x.c.code, encMin 0 x.sat x.ty.code, 0⟩

/-- A 64-bit form without a guard. -/
def encU (maj d a b c min : Nat) : Raw := ⟨1, maj, 0, false, d, a, b, c, min, 0⟩
/-- A 64-bit form with a guard. -/
def encG (maj : Nat) (g : Guard) (d a b c min : Nat) : Raw := ⟨1, maj, g.p, g.neg, d, a, b, c, min, 0⟩
/-- A 96-bit form. -/
def encW (maj : Nat) (g : Guard) (d a b c min ext : Nat) : Raw := ⟨2, maj, g.p, g.neg, d, a, b, c, min, ext⟩

def memMin (sub : Nat) (sz : Size) (sc : Scope) : Nat := sub * 32 + sz.code * 4 + sc.code

def encGMem (maj sub : Nat) (m : GMem) (d b cHi : Nat) : Raw :=
  ⟨dispLen m.disp, maj, m.g.p, m.g.neg, d, m.idx.code, b, m.rc + cHi * 32, memMin sub m.size m.scope, dispExt m.disp⟩

def encSMem (maj sub : Nat) (m : SMem) (d c : Nat) : Raw :=
  ⟨dispLen m.disp, maj, m.g.p, m.g.neg, d, m.base.code, m.off.code, c, memMin sub m.size m.scope, dispExt m.disp⟩

def encRange (maj sub scope d : Nat) (r : Range) : Raw :=
  ⟨dispLen r.disp, maj, 0, false, d, r.idx.code, r.len.code, r.rc, sub * 32 + scope, dispExt r.disp⟩

def encCopy (maj : Nat) (arr dir : Bool) (extHi : Nat) (x : Copy) : Raw :=
  ⟨3, maj, x.g.p, x.g.neg, x.f, x.a.code, x.b.code, x.c.code,
    b2n arr * 128 + b2n x.bar.isSome * 64 + b2n dir * 32 + x.bar.getD 0, x.rc + extHi * 256⟩

def encMma (maj sm : Nat) (x : MmaArgs) : Raw :=
  ⟨3, maj, x.g.p, x.g.neg, x.f, x.a.code, x.b.code, x.fw, x.tile, x.sa + x.sb * 2 ^ 20 + sm * 2 ^ 40⟩

def encEmu (maj : Nat) (x : Emu) : Raw := encG maj x.g x.d.code x.a.code x.b.code 0 0

def encCmp (maj sub ty c : Nat) (g : Guard) (a b : Opd) : Raw :=
  ⟨b.lenB, maj, g.p, g.neg, 0, a.code, b.code, c, encMin sub false ty, b.ext⟩

/-- The fields of an instruction; a clause header and an event have none. -/
def enc : Instr → Option Raw
  | .nop => some (encU 0x00 0 0 0 0 0)
  | .bra (.off w) => some (encW 0x01 .all 0 0 0 0 0 w.toNat)
  | .bra (.reg n) => some (encU 0x01 0 (n + 640) 0 0 0)
  | .brc sense c off => some (encW 0x02 .all 0 0 0 0 (b2n sense * 16 + c) off.toNat)
  | .call g (.off w) => some (encW 0x03 g 0 0 0 0 0 w.toNat)
  | .call g (.reg n) => some (encG 0x03 g 0 (n + 640) 0 0 0)
  | .callv g a b => some (encG 0x04 g 0 a (b + 640) 0 0)
  | .ret => some (encU 0x05 0 0 0 0 0)
  | .ifI g e n => some (encW 0x06 g 0 0 0 0 0 (e + n * 2 ^ 16))
  | .elseI => some (encU 0x07 0 0 0 0 0)
  | .endif => some (encU 0x08 0 0 0 0 0)
  | .loop => some (encU 0x09 0 0 0 0 0)
  | .brk g => some (encG 0x0A g 0 0 0 0 0)
  | .cont g => some (encG 0x0B g 0 0 0 0 0)
  | .endloop => some (encU 0x0C 0 0 0 0 0)
  | .gjoin => some (encU 0x0D 0 0 0 0 0)
  | .exit => some (encU 0x0E 0 0 0 0 0)
  | .waitp n t => some (encU 0x0F 0 0 0 t n)
  | .tryGang off => some (encW 0x10 .all 0 0 0 0 0 off.toNat)
  | .tryCrew off => some (encW 0x10 .all 0 0 0 0 1 off.toNat)
  | .tryLaunch off => some (encW 0x10 .all 0 0 0 0 2 off.toNat)
  | .endtryGang => some (encU 0x11 0 0 0 0 0)
  | .endtryCrew => some (encU 0x11 0 0 0 0 1)
  | .endtryLaunch => some (encU 0x11 0 0 0 0 2)
  | .throw g a => some (encG 0x12 g 0 a.code 0 0 0)
  | .rethrow => some (encU 0x13 0 0 0 0 0)
  | .rdexr d a => some (encU 0x14 d.code a.code 0 0 0)
  | .iadd x => some (encBin 0x20 0 0 x)
  | .isub x => some (encBin 0x21 0 0 x)
  | .imul x => some (encBin 0x22 0 0 x)
  | .imulh x => some (encBin 0x23 0 0 x)
  | .imad x => some (encTer 0x24 x)
  | .iabs x => some (encUn 0x25 0 x)
  | .ineg x => some (encUn 0x26 0 x)
  | .imin x => some (encBin 0x27 0 0 x)
  | .imax x => some (encBin 0x28 0 0 x)
  | .and x => some (encBin 0x29 0 0 x)
  | .or x => some (encBin 0x2A 0 0 x)
  | .xor x => some (encBin 0x2B 0 0 x)
  | .not x => some (encUn 0x2C 0 x)
  | .shl x => some (encBin 0x2D 0 0 x)
  | .shr x => some (encBin 0x2E 0 0 x)
  | .sar x => some (encBin 0x2F 0 0 x)
  | .rot x => some (encBin 0x30 0 0 x)
  | .bfx x (.imm w) => some (encW 0x31 x.g x.d.code x.a.code 0 0 (encMin 0 x.sat x.ty.code) w.toNat)
  | .bfx x ctl => some (encG 0x31 x.g x.d.code x.a.code 0 ctl.code (encMin 0 x.sat x.ty.code))
  | .bfi x (.imm w) => some (encW 0x32 x.g x.d.code x.a.code x.b.code 0 (encMin 0 x.sat x.ty.code) w.toNat)
  | .bfi x ctl => some (encG 0x32 x.g x.d.code x.a.code x.b.code ctl.code (encMin 0 x.sat x.ty.code))
  | .popc x => some (encUn 0x33 0 x)
  | .clz x => some (encUn 0x34 0 x)
  | .ctz x => some (encUn 0x35 0 x)
  | .brev x => some (encUn 0x36 0 x)
  | .icmp g c ty pd a b => some (encCmp 0x37 c.code ty.code pd g a b)
  | .icmpc c ty cd a b => some (encCmp 0x38 c.code ty.code cd .all a b)
  | .sel x pi neg => some (encBin 0x39 0 (pi + b2n neg * 16) x)
  | .mov x => some (encUn 0x3A 0 x)
  | .movi g ty d (.word w) => some (encW 0x3B g d.code 0 0 0 ty.code w.toNat)
  | .movi g ty d (.ext w) => some ⟨3, 0x3B, g.p, g.neg, d.code, 0, 0, 0, ty.code, w.toNat⟩
  | .lea x sh => some (encBin 0x3C sh 0 x)
  | .plop g d a b tt => some (encW 0x3D g 0 0 0 0 0 (d + a * 16 + b * 256 + tt.toNat * 4096))
  | .pmov g (.toPred p a) => some (encG 0x3E g 0 a.code 0 p 1)
  | .pmov g (.fromPred d p) => some (encG 0x3E g d.code 0 0 p (32 + 1))
  | .pmov g (.bit p a) => some (encG 0x3E g 0 a.code 0 p (64 + 1))
  | .clop d a b tt => some (encW 0x3F .all 0 0 0 0 0 (d + a * 16 + b * 256 + tt.toNat * 4096))
  | .shfl g m ty d a b => some (encG 0x40 g d.code a.code b.code 0 (encMin m.code false ty.code))
  | .bcast g ty d a b => some (encG 0x41 g d.code a.code b.code 0 ty.code)
  | .ballot g d p => some (encG 0x42 g d.code 0 0 p 0)
  | .pscan g op incl ty sat d a =>
    some (encG 0x43 g d.code a.code 0 0 (encMin (op.code * 2 + b2n incl) sat ty.code))
  | .append g d a b => some (encG 0x44 g d.code a.code b.code 0 1)
  | .red g op ty sat d va => some (encW 0x45 g d.code 0 0 0 (encMin op.code sat ty.code) va)
  | .fadd x => some (encBin 0x50 0 0 x)
  | .fsub x => some (encBin 0x51 0 0 x)
  | .fmul x => some (encBin 0x52 0 0 x)
  | .fma x => some (encTer 0x53 x)
  | .fmin n x => some (encBin 0x54 (b2n n) 0 x)
  | .fmax n x => some (encBin 0x55 (b2n n) 0 x)
  | .fabs x => some (encUn 0x56 0 x)
  | .fneg x => some (encUn 0x57 0 x)
  | .fcmp g c pd a b => some (encCmp 0x58 c.code 8 pd g a b)
  | .fcmpc c cd a b => some (encCmp 0x59 c.code 8 cd .all a b)
  | .frcp x => some (encUn 0x5A 0 x)
  | .frsq x => some (encUn 0x5B 0 x)
  | .fsqrt x => some (encUn 0x5C 0 x)
  | .fexp2 x => some (encUn 0x5D 0 x)
  | .flog2 x => some (encUn 0x5E 0 x)
  | .fsin x => some (encUn 0x5F 0 x)
  | .fcos x => some (encUn 0x60 0 x)
  | .ftanh x => some (encUn 0x61 0 x)
  | .fclass g pd a m => some (encW 0x62 g 0 a.code 0 pd 8 m.toNat)
  | .cvt g tgt src sat d a si di => some (encG 0x63 g d.code a.code 0 (si + di * 8) (encMin tgt.code sat src.code))
  | .cvtmx g fmt d a b di => some (encG 0x64 g d.code a.code b.code di fmt.code)
  | .cvtmxScale g fmt d a => some (encG 0x64 g d.code a.code 0 0 (32 + fmt.code))
  | .fscale x => some (encBin 0x65 0 0 x)
  | .ld m sx d => some (encGMem 0x70 (b2n sx * 2) m d.code 0 0)
  | .ldRp m sx d p => some (encGMem 0x70 (b2n sx * 2 + 1) m d.code 0 p)
  | .st m data => some (encGMem 0x71 0 m 0 data.code 0)
  | .lds m sx d => some (encSMem 0x72 (b2n sx * 2) m d.code 0)
  | .sts m data => some (encSMem 0x73 0 m 0 data.code)
  | .atom op m d data => some (encGMem 0x74 op.code m d.code data.code 0)
  | .atoms op m d data => some (encSMem 0x75 op.code m d.code data.code)
  | .fence sc d => some (encU 0x76 d.code 0 0 0 sc.code)
  | .waita c sz sc d idx rc cmp disp =>
    some ⟨dispLen disp, 0x77, 0, false, d.code, idx.code, cmp.code, rc, memMin c.code sz sc, dispExt disp⟩
  | .wake sc idx rc disp => some ⟨dispLen disp, 0x78, 0, false, 0, idx.code, 0, rc, sc.code, dispExt disp⟩
  | .persist => some (encU 0x79 0 0 0 0 0)
  | .zfill r => some (encRange 0x7A 0 2 0 r)
  | .pagereq f r => some (encRange 0x7B 0 0 f r)
  | .cctlWb sc r => some (encRange 0x7C 0 sc.code 0 r)
  | .cctlDisc sc r => some (encRange 0x7C 1 sc.code 0 r)
  | .icpf r => some (encRange 0x7D 0 0 0 r)
  | .icpin r => some (encRange 0x7E 0 0 0 r)
  | .icpinUnpin r => some (encRange 0x7E 1 0 0 r)
  | .icinvCrew r => some (encRange 0x7F 0 1 0 r)
  | .icinvDev r => some (encRange 0x7F 0 2 0 r)
  | .qstat full d q c => some (encU 0x80 d.code (q + 1016) 0 c (b2n full * 32))
  | .cpy x arr dir => some (encCopy 0x90 arr dir 0 x)
  | .cpyM x cores => some (encCopy 0x91 false false cores.toNat x)
  | .cpyX x arr dir => some (encCopy 0x92 arr dir 0 x)
  | .mma x => some (encMma 0x93 0 x)
  | .mmaSp x sm => some (encMma 0x94 sm x)
  | .mmaP x => some (encMma 0x95 0 x)
  | .msel g f a b fw sa sm => some (encMma 0x96 sm ⟨g, f, a, b, fw, 0, sa, 0⟩)
  | .accz g f t => some (encG 0x97 g f 0 0 0 t)
  | .accdr g f off tgt t => some (encG 0x98 g f off.code 0 0 (tgt.code * 32 + t))
  | .wdset g f val t => some (encG 0x99 g f val.code 0 0 t)
  | .mfence g f => some (encG 0x9A g f 0 0 0 0)
  | .fwait f none => some (encU 0x9B 0 0 0 f 0)
  | .fwait f (some n) => some (encU 0x9B (n + 640) 0 0 f 32)
  | .ftest f c none => some (encU 0x9C 0 0 0 f c)
  | .ftest f c (some n) => some (encU 0x9C (n + 640) 0 0 f (32 + c))
  | .fcancel f => some (encU 0x9D 0 0 0 f 0)
  | .fexport f off => some (encU 0x9E 0 off.code 0 f 0)
  | .fimport f off => some (encU 0x9F f off.code 0 0 0)
  | .barinit b e => some (encU 0xA0 0 e.code 0 0 b)
  | .bara b => some (encU 0xA1 0 0 0 0 b)
  | .barexp b n => some (encU 0xA2 0 n.code 0 0 b)
  | .barw b ph => some (encU 0xA3 0 0 0 0 (b + b2n ph * 32))
  | .lbar n => some (encU 0xA4 0 0 0 0 n)
  | .otdecl f off => some (encU 0xB0 f off.code 0 0 0)
  | .otbegin f => some (encU 0xB1 0 0 0 f 0)
  | .otend => some (encU 0xB2 0 0 0 0 0)
  | .otround a => some (encU 0xB3 0 a.code 0 0 0)
  | .trap (.imm w) => some (encW 0xC0 .all 0 0 0 0 0 w.toNat)
  | .trap a => some (encU 0xC0 0 a.code 0 0 0)
  | .svret slot n => some (encU 0xC1 0 slot.code 0 n 0)
  | .svthrow slot code => some (encU 0xC2 0 slot.code code.code 0 0)
  | .rdxv g d slot reg hi => some (encW 0xC3 g d.code slot.code 0 0 0 (reg + b2n hi * 2 ^ 16))
  | .wrxv g slot data reg hi => some (encW 0xC4 g 0 slot.code data.code 0 0 (reg + b2n hi * 2 ^ 16))
  | .rdxs d slot num => some (encW 0xC5 .all d.code slot.code 0 0 0 num)
  | .wrxs slot data num => some (encW 0xC6 .all 0 slot.code data.code 0 0 num)
  | .rdsys d num => some (encW 0xC7 .all d.code 0 0 0 0 num)
  | .wrsys data num => some (encW 0xC8 .all 0 data.code 0 0 0 num)
  | .bankset m mode => some (encU 0xC9 0 m.code 0 0 mode.code)
  | .bist d arr pat => some (encU 0xCA d.code arr.code pat.code 0 0)
  | .mbxrdNext d => some (encU 0xCB d.code 0 0 0 0)
  | .mbxrdWord d slot w => some (encU 0xCB d.code slot.code w.code 0 32)
  | .coreret d core => some (encU 0xCC d.code core.code 0 0 0)
  | .idivU32 x => some (encEmu 0xE0 x)
  | .iremU32 x => some (encEmu 0xE1 x)
  | .idivU64 x => some (encEmu 0xE2 x)
  | .iremU64 x => some (encEmu 0xE3 x)
  | .idivS32 x => some (encEmu 0xE4 x)
  | .iremS32 x => some (encEmu 0xE5 x)
  | .idivS64 x => some (encEmu 0xE6 x)
  | .iremS64 x => some (encEmu 0xE7 x)
  | .fdivF32 x => some (encEmu 0xE8 x)
  | .dadd x => some (encEmu 0xE9 x)
  | .dmul x => some (encEmu 0xEA x)
  | .dfma x c => some (encG 0xEB x.g x.d.code x.a.code x.b.code c.code 0)
  | .ddiv x => some (encEmu 0xEC x)
  | .dsqrt g d a => some (encG 0xED g d.code a.code 0 0 0)
  | .dcvt g form d a => some (encG 0xEE g d.code a.code 0 0 form)
  | .emu x => some (encEmu 0xEF x)
  | _ => none

/-- The words of an instruction: base word, extension word, length in bytes. None for an event, which has no words. -/
def encode (i : Instr) : Option (Nat × Nat × Nat) :=
  match i with
  | .clauseHeader yld setb seta wait =>
    some (wait.toNat * 4 + seta * 2 ^ 14 + setb * 2 ^ 18 + b2n yld * 2 ^ 22, 0, 8)
  | _ => (enc i).map (fun r => (r.word, r.ext, lenBytes r.len))

/-- The bytes of an instruction, as memory holds them (R92). -/
def encodeBytes (i : Instr) : Option (List Byte) :=
  (encode i).map (fun (w, ext, n) => toLE 8 w ++ toLE (n - 8) ext)

/-- Length in bytes of an instruction; 8 for an event, which is never fetched. -/
def Instr.bytes (i : Instr) : Nat := ((encode i).map (fun x => x.2.2)).getD 8

/-- The instruction read from bits numbered as spec/opcode_table.json numbers them: bit 0 is the least significant bit
of the base word, and bits above `nbits` are zero. -/
def decodeTableWord (nbits w : Nat) : Option Instr :=
  match decode (toLE 16 (w % 2 ^ nbits)) with
  | .ok (i, _) => some i
  | .error _ => none

/-! ### What an instruction names, for the checks that need the gang -/

/-- The vector registers an operand names, both halves of a pair. -/
def Opd.vregs (o : Opd) (is64 : Bool) : List Nat :=
  match o with
  | .v n => if is64 then [n, n + 1] else [n]
  | _ => []

/-- The queue register an operand names. -/
def Opd.qreg : Opd → List Nat
  | .q n => [n]
  | _ => []

/-- The source operands of an instruction with whether each is a pair, in the order A, B, C. -/
def Instr.srcs : Instr → List (Opd × Bool)
  | .iadd x | .isub x | .imul x | .imulh x | .imin x | .imax x | .and x | .or x | .xor x | .shl x | .shr x | .sar x
  | .rot x | .sel x _ _ | .fadd x | .fsub x | .fmul x | .fmin _ x | .fmax _ x | .fscale x =>
    [(x.a, x.ty.is64), (x.b, x.ty.is64)]
  | .lea x _ => [(x.a, x.ty.is64), (x.b, false)]
  | .imad x | .fma x => [(x.a, x.ty.is64), (x.b, x.ty.is64), (x.c, x.ty.is64)]
  | .iabs x | .ineg x | .not x | .popc x | .clz x | .ctz x | .brev x | .mov x | .fabs x | .fneg x | .frcp x | .frsq x
  | .fsqrt x | .fexp2 x | .flog2 x | .fsin x | .fcos x | .ftanh x => [(x.a, x.ty.is64)]
  | .bfx x ctl => [(x.a, x.ty.is64), (ctl, false)]
  | .bfi x ctl => [(x.a, x.ty.is64), (x.b, x.ty.is64), (ctl, false)]
  | .icmp _ _ ty _ a b | .icmpc _ ty _ a b => [(a, ty.is64), (b, ty.is64)]
  | .pmov _ (.toPred _ a) | .pmov _ (.bit _ a) => [(a, false)]
  | .shfl _ _ ty _ a b | .bcast _ ty _ a b => [(a, ty.is64), (b, false)]
  | .pscan _ _ _ _ _ _ a => [(a, false)]
  | .append _ _ a b => [(a, false), (b, false)]
  | .red _ _ ty _ _ va => [(.v va, ty.is64)]
  | .fcmp _ _ _ a b | .fcmpc _ _ a b => [(a, false), (b, false)]
  | .fclass _ _ a _ => [(a, false)]
  | .cvt _ tgt _ _ d a _ _ => (a, false) :: (if tgt.width < 32 then [(d, false)] else [])
  | .cvtmx _ _ d a b _ => [(a, false), (b, false), (d, false)]
  | .cvtmxScale _ _ _ a => [(a, false)]
  | .ld m _ _ | .ldRp m _ _ _ => [(m.idx, false)]
  | .st m data => [(m.idx, false), (data, m.size.is64)]
  | .atom op m d data => [(m.idx, false), (data, m.size.is64)] ++ (if op = .cas then [(d, m.size.is64)] else [])
  | .lds m _ _ => [(m.base, false), (m.off, false)]
  | .sts m data => [(m.base, false), (m.off, false), (data, m.size.is64)]
  | .atoms op m d data =>
    [(m.base, false), (m.off, false), (data, m.size.is64)] ++ (if op = .cas then [(d, m.size.is64)] else [])
  | .callv _ a _ => [(.v a, false)]
  | .throw _ a => [(a, false)]
  | .mma x | .mmaSp x _ | .mmaP x => [(.v x.fw, false)]
  | .msel _ _ _ _ fw _ _ => [(.v fw, false)]
  | .wrxv _ _ data _ _ => [(data, false)]
  | .idivU32 x | .iremU32 x | .idivS32 x | .iremS32 x | .fdivF32 x | .emu x => [(x.a, false), (x.b, false)]
  | .idivU64 x | .iremU64 x | .idivS64 x | .iremS64 x | .dadd x | .dmul x | .ddiv x => [(x.a, true), (x.b, true)]
  | .dfma x c => [(x.a, true), (x.b, true), (c, true)]
  | .dsqrt _ _ a => [(a, true)]
  | .dcvt _ f _ a => [(a, f % 2 == 1)]
  | _ => []

/-- The destination operand of an instruction with whether it is a pair. -/
def Instr.dst : Instr → Option (Opd × Bool)
  | .iadd x | .isub x | .imul x | .imulh x | .imin x | .imax x | .and x | .or x | .xor x | .shl x | .shr x | .sar x
  | .rot x | .sel x _ _ | .fadd x | .fsub x | .fmul x | .fmin _ x | .fmax _ x | .fscale x | .lea x _
  | .bfi x _ => some (x.d, x.ty.is64)
  | .imad x | .fma x => some (x.d, x.ty.is64)
  | .iabs x | .ineg x | .not x | .popc x | .clz x | .ctz x | .brev x | .mov x | .fabs x | .fneg x | .frcp x | .frsq x
  | .fsqrt x | .fexp2 x | .flog2 x | .fsin x | .fcos x | .ftanh x | .bfx x _ => some (x.d, x.ty.is64)
  | .movi _ ty d _ => some (d, ty.is64)
  | .pmov _ (.fromPred d _) => some (d, false)
  | .shfl _ _ ty d _ _ | .bcast _ ty d _ _ => some (d, ty.is64)
  | .ballot _ d _ | .red _ _ _ _ d _ => some (d, false)
  | .pscan _ _ _ _ _ d _ | .append _ d _ _ => some (d, false)
  | .cvt _ _ _ _ d _ _ _ | .cvtmx _ _ d _ _ _ | .cvtmxScale _ _ d _ => some (d, false)
  | .ld m _ d | .ldRp m _ d _ => some (d, m.size.is64)
  | .atom _ m d _ => some (d, m.size.is64)
  | .lds m _ d => some (d, m.size.is64)
  | .atoms _ m d _ => some (d, m.size.is64)
  | .rdxv _ d _ _ _ => some (d, false)
  | .idivU32 x | .iremU32 x | .idivS32 x | .iremS32 x | .fdivF32 x | .emu x => some (x.d, false)
  | .idivU64 x | .iremU64 x | .idivS64 x | .iremS64 x | .dadd x | .dmul x | .ddiv x => some (x.d, true)
  | .dfma x _ => some (x.d, true)
  | .dsqrt _ d _ => some (d, true)
  | .dcvt _ f d _ => some (d, f % 2 == 0)
  | .fence _ d | .rdexr d _ | .rdxs d _ _ | .rdsys d _ | .bist d _ _ | .mbxrdNext d | .mbxrdWord d _ _
  | .coreret d _ | .qstat _ d _ _ => some (d, false)
  | .waita _ _ _ d _ _ _ _ => some (d, false)
  | _ => none

/-- Every vector register the instruction names (R34, R103). -/
def Instr.vregs (i : Instr) : List Nat :=
  (i.srcs.flatMap (fun x => x.1.vregs x.2)) ++ (match i.dst with | some x => x.1.vregs x.2 | none => [])

/-- The queue registers popped, one entry per operand position in the order A, B, C (R122). -/
def Instr.pops (i : Instr) : List Nat :=
  match i with
  | .cvt _ _ _ _ _ a _ _ => a.qreg
  | .cvtmx _ _ _ a b _ => a.qreg ++ b.qreg
  | _ => i.srcs.flatMap (fun x => x.1.qreg)

/-- The queue register pushed. -/
def Instr.push (i : Instr) : Option Nat :=
  match i.dst with
  | some (.q n, _) => some n
  | _ => none

/-- Gang-collective instructions, Table 2-2. -/
def Instr.collective : Instr → Bool
  | .cpy .. | .cpyM .. | .cpyX .. | .mma .. | .mmaSp .. | .mmaP .. | .msel .. | .accz .. | .accdr .. | .wdset ..
  | .mfence .. | .barinit .. | .bara .. | .barexp .. | .lbar .. | .call .. | .callv .. | .ret | .tryGang ..
  | .tryCrew .. | .tryLaunch .. | .endtryGang | .endtryCrew | .endtryLaunch | .otdecl .. | .otbegin .. | .otend
  | .otround .. | .pscan .. | .append .. | .shfl .. | .bcast .. | .bankset .. => true
  | _ => false

/-- Long-latency instructions, R98. -/
def Instr.longLatency : Instr → Bool
  | .ld .. | .ldRp .. | .lds .. | .atom .. | .atoms .. | .fence .. | .rdxv .. | .rdxs .. | .rdsys .. => true
  | _ => false

/-- The structured instructions an idle group executes (R132). -/
def Instr.structured : Instr → Bool
  | .ifI .. | .elseI | .endif | .loop | .brk .. | .cont .. | .endloop | .gjoin => true
  | _ => false

/-- Emulation-space instructions, majors 0xE0 to 0xEF. -/
def Instr.emulated : Instr → Bool
  | .idivU32 .. | .iremU32 .. | .idivU64 .. | .iremU64 .. | .idivS32 .. | .iremS32 .. | .idivS64 .. | .iremS64 ..
  | .fdivF32 .. | .dadd .. | .dmul .. | .dfma .. | .ddiv .. | .dsqrt .. | .dcvt .. | .emu .. => true
  | _ => false

/-- Supervisor-only instructions (R312). -/
def Instr.supervisorOnly : Instr → Bool
  | .svret .. | .svthrow .. | .rdxv .. | .wrxv .. | .rdxs .. | .wrxs .. | .mbxrdNext .. | .mbxrdWord .. | .bist ..
  | .coreret .. => true
  | _ => false

/-- Instructions the supervisor gang may not execute (R408). -/
def Instr.userOnly : Instr → Bool
  | .cpy .. | .cpyM .. | .cpyX .. | .mma .. | .mmaSp .. | .mmaP .. | .msel .. | .accz .. | .accdr .. | .wdset ..
  | .mfence .. | .fwait .. | .ftest .. | .fcancel .. | .fexport .. | .fimport .. | .pagereq .. | .barinit ..
  | .bara .. | .barexp .. | .barw .. | .lbar .. | .otdecl .. | .otbegin .. | .otend | .otround .. | .tryGang ..
  | .tryCrew .. | .tryLaunch .. | .endtryGang | .endtryCrew | .endtryLaunch | .rethrow | .rdexr .. | .lds .. | .sts ..
  | .atoms .. | .append .. => true
  | _ => false

end Sys2Proof
end

