-- ==== Sys2Proof/Machine/Fp.lean ====
section
/-!
DEFINITION. Exact values and the one rounding of the RK480's floating-point formats (spec/04_numbers.md R70 to R72, R89;
spec/09_float.md R177, R178, R180 to R189). Every operation is formed on exact values and rounded once.
-/

namespace Sys2Proof.Machine

/-- What a floating-point element holds: a NaN, an infinity, or `(-1)^neg * m * 2^e`. -/
inductive FVal where
  | nan
  | inf (neg : Bool)
  | fin (neg : Bool) (m : Nat) (e : Int)
  deriving DecidableEq, Repr

/-- How a format treats its top exponent field (Table 4-1). -/
inductive Tops where
  | ieee | e4m3 | none
  deriving DecidableEq, Repr

/-- A floating-point format: exponent and fraction bits, bias, top codes. -/
structure FSpec where
  eb : Nat
  fb : Nat
  bias : Nat
  tops : Tops
  deriving DecidableEq, Repr

/-- Table 4-1. -/
def FSpec.f32 : FSpec := ⟨8, 23, 127, .ieee⟩
def FSpec.f16 : FSpec := ⟨5, 10, 15, .ieee⟩
def FSpec.bf16 : FSpec := ⟨8, 7, 127, .ieee⟩
def FSpec.e4m3 : FSpec := ⟨4, 3, 7, .e4m3⟩
def FSpec.e5m2 : FSpec := ⟨5, 2, 15, .ieee⟩
def FSpec.e2m1 : FSpec := ⟨2, 1, 1, .none⟩
/-- IEEE 754 binary64, for the emulation operations of 25_prog_emulate. -/
def FSpec.f64 : FSpec := ⟨11, 52, 1023, .ieee⟩

/-- Width of an element in bits. -/
def FSpec.width (f : FSpec) : Nat := 1 + f.eb + f.fb

/-- The code, without sign, of the largest finite value. -/
def FSpec.maxCode (f : FSpec) : Nat :=
  match f.tops with
  | .ieee => 2 ^ (f.eb + f.fb) - 2 ^ f.fb - 1
  | .e4m3 => 0x7E
  | .none => 2 ^ (f.eb + f.fb) - 1

/-- The canonical NaN of R71; E2M1 has none and takes +0 (Table 9-7). -/
def FSpec.nanCode (f : FSpec) : Nat :=
  match f.tops with
  | .ieee => 2 ^ (f.eb + f.fb) - 2 ^ f.fb + 2 ^ (f.fb - 1)
  | .e4m3 => 0x7F
  | .none => 0

/-- The exponent of one unit in the last place of the subnormals. -/
def FSpec.qmin (f : FSpec) : Int := 1 - (f.bias : Int) - f.fb

/-- The sign bit put over a magnitude code. -/
def FSpec.signed (f : FSpec) (neg : Bool) (code : Nat) : Nat := (if neg then 2 ^ (f.eb + f.fb) else 0) + code

def FSpec.infCode (f : FSpec) (neg : Bool) : Nat := f.signed neg (2 ^ (f.eb + f.fb) - 2 ^ f.fb)

/-- The value of an element (R70). -/
def FSpec.decode (f : FSpec) (x : Nat) : FVal :=
  let neg := x.testBit (f.eb + f.fb)
  let ex := x / 2 ^ f.fb % 2 ^ f.eb
  let fr := x % 2 ^ f.fb
  let fin := if ex = 0 then FVal.fin neg fr f.qmin else FVal.fin neg (fr + 2 ^ f.fb) (f.qmin + ex - 1)
  match f.tops with
  | .ieee => if ex = 2 ^ f.eb - 1 then (if fr = 0 then .inf neg else .nan) else fin
  | .e4m3 => if ex = 15 ∧ fr = 7 then .nan else fin
  | .none => fin

/-- `m * 2^e` divided by `2^q` and rounded to the nearest natural number, ties to even. -/
def roundAt (m : Nat) (e q : Int) : Nat :=
  if q ≤ e then m * 2 ^ (e - q).toNat
  else
    let s := (q - e).toNat
    let t := m / 2 ^ s
    let r := m % 2 ^ s
    if 2 * r < 2 ^ s then t else if 2 * r > 2 ^ s then t + 1 else t + t % 2

/-- The same, truncated. -/
def truncAt (m : Nat) (e q : Int) : Nat :=
  if q ≤ e then m * 2 ^ (e - q).toNat else m / 2 ^ (q - e).toNat

/-- The exponent of one unit in the last place of a format at the magnitude `m * 2^e`, with `m` not zero. -/
def FSpec.ulpAt (f : FSpec) (m : Nat) (e : Int) : Int := max (e + (m.log2 : Int) - f.fb) f.qmin

/-- The magnitude code nearest to `m * 2^e`, taken with unbounded exponent; it may exceed `maxCode` (R177). -/
def FSpec.nearCode (f : FSpec) (m : Nat) (e : Int) : Nat :=
  if m = 0 then 0 else
    let q := f.ulpAt m e
    (q - f.qmin).toNat * 2 ^ f.fb + roundAt m e q

/-- The greatest magnitude code not above `m * 2^e`, taken with unbounded exponent (R89). -/
def FSpec.truncCode (f : FSpec) (m : Nat) (e : Int) : Nat :=
  if m = 0 then 0 else
    let q := f.ulpAt m e
    (q - f.qmin).toNat * 2 ^ f.fb + truncAt m e q

/-- RoundNE of an exact value into an IEEE format (R177). -/
def FSpec.round (f : FSpec) : FVal → Nat
  | .nan => f.nanCode
  | .inf neg => f.infCode neg
  | .fin neg m e => let c := f.nearCode m e; if c > f.maxCode then f.infCode neg else f.signed neg c

/-- An exact sum of signed magnitudes; `zneg` is the sign an exact zero takes. -/
def addFin (n1 : Bool) (m1 : Nat) (e1 : Int) (n2 : Bool) (m2 : Nat) (e2 : Int) : FVal :=
  let e := min e1 e2
  let x : Int := (m1 * 2 ^ (e1 - e).toNat : Nat)
  let y : Int := (m2 * 2 ^ (e2 - e).toNat : Nat)
  let t := (if n1 then -x else x) + (if n2 then -y else y)
  if t = 0 then .fin (n1 && n2) 0 e else .fin (decide (t < 0)) t.natAbs e

/-- Exact sum (R177). -/
def FVal.add : FVal → FVal → FVal
  | .nan, _ => .nan
  | _, .nan => .nan
  | .inf a, .inf b => if a = b then .inf a else .nan
  | .inf a, .fin _ _ _ => .inf a
  | .fin _ _ _, .inf b => .inf b
  | .fin n1 m1 e1, .fin n2 m2 e2 => addFin n1 m1 e1 n2 m2 e2

def FVal.neg : FVal → FVal
  | .nan => .nan
  | .inf a => .inf (!a)
  | .fin n m e => .fin (!n) m e

/-- Exact product (R177). -/
def FVal.mul : FVal → FVal → FVal
  | .nan, _ => .nan
  | _, .nan => .nan
  | .inf a, .inf b => .inf (a != b)
  | .inf a, .fin n m _ => if m = 0 then .nan else .inf (a != n)
  | .fin n m _, .inf b => if m = 0 then .nan else .inf (b != n)
  | .fin n1 m1 e1, .fin n2 m2 e2 => .fin (n1 != n2) (m1 * m2) (e1 + e2)

/-- A value scaled by a power of two (FSCALE, R180). -/
def FVal.scale (k : Int) : FVal → FVal
  | .fin n m e => .fin n m (e + k)
  | x => x

/-- SAT of R178 on a rounded element. -/
def FSpec.satur (f : FSpec) (x : Nat) : Nat :=
  let one := f.bias * 2 ^ f.fb
  match f.decode x with
  | .nan => 0
  | .inf neg => if neg then 0 else one
  | .fin neg _ _ => if neg then 0 else if x > one then one else x

/-- A total order value of a finite or infinite element in which -0 lies below +0 (R181). -/
def FSpec.rank (f : FSpec) (x : Nat) : Int :=
  let mag : Int := (x % 2 ^ (f.eb + f.fb) : Nat)
  if x.testBit (f.eb + f.fb) then -mag - 1 else mag

/-- FMIN and FMAX (R181); `nanRule` is the .NAN form. -/
def FSpec.minmax (f : FSpec) (isMax nanRule : Bool) (a b : Nat) : Nat :=
  match f.decode a, f.decode b with
  | .nan, .nan => f.nanCode
  | .nan, _ => if nanRule then f.nanCode else b
  | _, .nan => if nanRule then f.nanCode else a
  | _, _ => if isMax then (if f.rank a ≥ f.rank b then a else b) else (if f.rank a ≤ f.rank b then a else b)

/-- Less-than of two values, false with a NaN; zeros are equal (R182). -/
def FVal.lt : FVal → FVal → Bool
  | .nan, _ => false
  | _, .nan => false
  | .inf a, .inf b => a && !b
  | .inf a, .fin _ _ _ => a
  | .fin _ _ _, .inf b => !b
  | .fin n1 m1 e1, .fin n2 m2 e2 =>
    let e := min e1 e2
    let x : Int := (m1 * 2 ^ (e1 - e).toNat : Nat)
    let y : Int := (m2 * 2 ^ (e2 - e).toNat : Nat)
    decide ((if n1 then -x else x) < (if n2 then -y else y))

def FVal.isNan : FVal → Bool
  | .nan => true
  | _ => false

/-- The exact value of an integer. -/
def FVal.ofInt (z : Int) : FVal := .fin (decide (z < 0)) z.natAbs 0

/-- The class bit of an FP32 element, 0 to 9 (R183). -/
def fclassBit (x : Nat) : Nat :=
  let neg := x.testBit 31
  let ex := x / 2 ^ 23 % 256
  let fr := x % 2 ^ 23
  if ex = 255 then
    if fr = 0 then (if neg then 0 else 7) else if fr.testBit 22 then 9 else 8
  else if ex = 0 then
    if fr = 0 then (if neg then 3 else 4) else (if neg then 2 else 5)
  else (if neg then 1 else 6)

/-! ### Conversion -/

/-- The floating-point format of a CVT code, if it names one. -/
def fspecOf : Fmt → Option FSpec
  | .f32 => some .f32 | .f16 => some .f16 | .bf16 => some .bf16
  | .e4m3 => some .e4m3 | .e5m2 => some .e5m2 | .e2m1 => some .e2m1
  | _ => none

/-- Is an integer format signed? -/
def fmtSigned : Fmt → Bool
  | .s32 | .s16 | .s8 | .s4 => true
  | _ => false

/-- The exact value of an element (R186). -/
def fmtValue (f : Fmt) (x : Nat) : FVal :=
  match (fspecOf f) with
  | some s => s.decode x
  | none => FVal.ofInt (if fmtSigned f then sext x f.width else (zext x f.width : Nat))

/-- RoundNE of an exact finite value to an integer (R186). -/
def roundInt (neg : Bool) (m : Nat) (e : Int) : Int :=
  let t : Int := (roundAt m e 0 : Nat)
  if neg then -t else t

/-- The range of an integer format. -/
def fmtLo (f : Fmt) : Int := if fmtSigned f then -(2 ^ (f.width - 1) : Nat) else 0
def fmtHi (f : Fmt) : Int := if fmtSigned f then (2 ^ (f.width - 1) : Nat) - 1 else (2 ^ f.width : Nat) - 1

/-- An integer put within bounds. -/
def clampInt (t lo hi : Int) : Int := max lo (min hi t)

/-- Conversion of an exact value into a floating-point format by R187. -/
def FSpec.convert (f : FSpec) (sat : Bool) : FVal → Nat
  | .nan => f.nanCode
  | .inf neg =>
    match f.tops with
    | .ieee => if sat then f.signed neg f.maxCode else f.infCode neg
    | .e4m3 => if sat then f.signed neg f.maxCode else f.nanCode
    | .none => f.signed neg f.maxCode
  | .fin neg m e =>
    let c := f.nearCode m e
    if c > f.maxCode then
      match f.tops with
      | .ieee => if sat then f.signed neg f.maxCode else f.infCode neg
      | .e4m3 => if sat then f.signed neg f.maxCode else f.nanCode
      | .none => f.signed neg f.maxCode
    else f.signed neg c

/-- Conversion of an element from one format to another (R186 to R188). -/
def cvtElem (tgt src : Fmt) (sat : Bool) (x : Nat) : Nat :=
  match (fspecOf tgt) with
  | some s => s.convert sat (fmtValue src x)
  | none =>
    match fmtValue src x with
    | .nan => 0
    | .inf neg => low (if neg then (fmtLo tgt) else (fmtHi tgt)) tgt.width
    | .fin neg m e =>
      let y := roundInt neg m e
      let keep := (fspecOf src).isNone && !sat
      low (if keep then y else clampInt y (fmtLo tgt) (fmtHi tgt)) tgt.width

/-- CVTMX's conversion of an FP32 value under the E8M0 code of its block (R189). -/
def cvtmxElem (f : FSpec) (a s : Nat) : Nat :=
  if s = 255 then f.nanCode else f.convert true ((FSpec.f32.decode a).scale (127 - (s : Int)))

/-- CVTMX.SCALE: the E8M0 code of a block whose largest magnitude is the FP32 value `a` (R189). -/
def cvtmxScaleOf (emax : Int) (a : Nat) : Nat :=
  match FSpec.f32.decode a with
  | .fin _ m e => if m = 0 then 127 else (clampInt (e + (m.log2 : Int) - emax + 127) 0 254).toNat
  | _ => 0xFF

/-! ### Quotient and square root, rounded once -/

/-- Integer square root by binary digits: the greatest `r` with `r * r ≤ n`, for `n < 4^k`. -/
def isqrt (n : Nat) : Nat → Nat → Nat
  | 0, r => r
  | k + 1, r => let t := r + 2 ^ k; isqrt n k (if t * t ≤ n then t else r)

/-- A value with a sticky last bit that stands for a non-zero remainder. -/
def sticky (t : Nat) (rest : Bool) : Nat := 2 * t + b2n rest

/-- The exact quotient `m1 2^e1 / (m2 2^e2)` to enough bits for one rounding of any format here. -/
def quot (neg : Bool) (m1 : Nat) (e1 : Int) (m2 : Nat) (e2 : Int) : FVal :=
  let sh := 140 + m2.log2
  let n := m1 * 2 ^ sh
  .fin neg (sticky (n / m2) (n % m2 != 0)) (e1 - e2 - sh - 1)

/-- Division (R177; 25_prog_emulate). -/
def FVal.div : FVal → FVal → FVal
  | .nan, _ => .nan
  | _, .nan => .nan
  | .inf _, .inf _ => .nan
  | .inf a, .fin n _ _ => .inf (a != n)
  | .fin n m e, .inf b => .fin (n != b) 0 (if m = 0 then e else 0)
  | .fin n1 m1 e1, .fin n2 m2 e2 =>
    if m2 = 0 then (if m1 = 0 then .nan else .inf (n1 != n2))
    else if m1 = 0 then .fin (n1 != n2) 0 0 else quot (n1 != n2) m1 e1 m2 e2

/-- Square root (R184, FSQRT). -/
def FVal.sqrt : FVal → FVal
  | .nan => .nan
  | .inf neg => if neg then .nan else .inf false
  | .fin neg m e =>
    if m = 0 then .fin neg 0 e
    else if neg then .nan
    else
      let sh : Nat := if e % 2 = 0 then 260 else 261
      let n := m * 2 ^ sh
      let r := isqrt n (n.log2 / 2 + 1) 0
      .fin false (sticky r (r * r != n)) ((e - sh) / 2 - 1)

/-! ### The approximated functions of Table 9-5

A reference value in fixed point with 320 fraction bits: every element of the formats here is a multiple of 2^-149, so the
value of a function at an argument that is no special case lies further from 1, and from every bound the table sets about
an element, than the error of the reference. -/

/-- The eight functions of Table 9-5. -/
inductive ApproxFn where
  | rcp | rsq | sqrt | exp2 | log2 | sin | cos | tanh
  deriving DecidableEq, Repr

/-- One in the fixed point used here. -/
def fx1 : Nat := 2 ^ 320
/-- ln 2 and pi, in 320 fraction bits. -/
def fxLn2 : Nat :=
  1480553391661173448385607439722553250922680800745876974795605978609098082859138712941075737848984
def fxPi : Nat :=
  6710401180212168915155840974220003240804194089427148950727106424351713218671805380099500388914039

def fxMul (a b : Nat) : Nat := a * b / fx1

/-- Sum of `x^k / k!` from term number `i` on, `t` being that term. -/
def fxExpSum (x : Nat) : Nat → Nat → Nat → Nat
  | 0, _, _ => 0
  | n + 1, i, t => t + fxExpSum x n (i + 1) (fxMul t x / (i + 1))

/-- `2^f` for a fraction `f` in fixed point below 1. -/
def fxExp2 (f : Nat) : Nat := fxExpSum (fxMul f fxLn2) 70 0 fx1

/-- Sum of `t^(2k+1) / (2k+1)`. -/
def fxAtanhSum (t2 : Nat) : Nat → Nat → Nat → Nat
  | 0, _, _ => 0
  | n + 1, i, p => p / (2 * i + 1) + fxAtanhSum t2 n (i + 1) (fxMul p t2)

/-- `log2 m` for `m` in fixed point from 1 to 2. -/
def fxLog2 (m : Nat) : Nat :=
  let t := (m - fx1) * fx1 / (m + fx1)
  2 * fxAtanhSum (fxMul t t) 104 0 t * fx1 / fxLn2

/-- Alternating Taylor sum; `up` counts the factorial's next two factors. -/
def fxAlt (x2 : Nat) : Nat → Nat → Int → Nat → Int
  | 0, _, _, _ => 0
  | n + 1, i, sgn, t => sgn * t + fxAlt x2 n (i + 2) (-sgn) (fxMul t x2 / ((i + 1) * (i + 2)))

/-- `sin (pi x)` and `cos (pi x)` for `x` in fixed point from 0 to 1/2. -/
def fxSinPi (x : Nat) : Nat := let y := fxMul x fxPi; (fxAlt (fxMul y y) 42 1 1 y).toNat
def fxCosPi (x : Nat) : Nat := let y := fxMul x fxPi; (fxAlt (fxMul y y) 42 0 1 fx1).toNat

/-- `m 2^e` in fixed point, truncated. -/
def toFx (m : Nat) (e : Int) : Nat := truncAt m e (-320)

/-- The reference of `2^a`; magnitudes beyond any format's range are cut at 2^20. -/
def refExp2 (neg : Bool) (m : Nat) (e : Int) : FVal :=
  let x := min (toFx m e) (2 ^ 20 * fx1)
  let i := x / fx1
  let f := x % fx1
  if !neg then .fin false (fxExp2 f) ((i : Int) - 320)
  else if f = 0 then .fin false (fxExp2 0) (-(i : Int) - 320)
  else .fin false (fxExp2 (fx1 - f)) (-(i : Int) - 1 - 320)

/-- The reference of `log2 (m 2^e)`. -/
def refLog2 (m : Nat) (e : Int) : FVal :=
  let k := e + (m.log2 : Int)
  let l := fxLog2 (toFx m (-(m.log2 : Int)))
  let t := k * (fx1 : Nat) + (l : Int)
  .fin (decide (t < 0)) t.natAbs (-320)

/-- `a` modulo 2 half-turns: exact for every finite element here. -/
def halfTurns (m : Nat) (e : Int) : Nat := toFx m e % (2 * fx1)

/-- The reference of `sin (pi a)`: the argument folded into the first quarter turn. -/
def refSin (neg : Bool) (m : Nat) (e : Int) : FVal :=
  let x := halfTurns m e
  let s := x ≥ fx1
  let y := if s then x - fx1 else x
  .fin (neg != s) (fxSinPi (if 2 * y > fx1 then fx1 - y else y)) (-320)

def refCos (m : Nat) (e : Int) : FVal :=
  let x := halfTurns m e
  let y := if x > fx1 then 2 * fx1 - x else x
  if 2 * y > fx1 then .fin true (fxCosPi (fx1 - y)) (-320) else .fin false (fxCosPi y) (-320)

/-- The reference of `tanh a`: `(E - 1) / (E + 1)` with `E = e^(2 |a|)`; beyond 64 the last value below 1,
since the exact result never reaches it. -/
def refTanh (neg : Bool) (m : Nat) (e : Int) : FVal :=
  let x := toFx m e
  if x ≥ 64 * fx1 then .fin neg (fx1 - 1) (-320)
  else
    let y := 2 * x * fx1 / fxLn2
    let ex := fxExp2 (y % fx1) * 2 ^ (y / fx1)
    .fin neg ((ex - fx1) * fx1 / (ex + fx1)) (-320)

/-- The reference of a function at a finite argument that is no special case. -/
def ApproxFn.ref (fn : ApproxFn) (neg : Bool) (m : Nat) (e : Int) : FVal :=
  match fn with
  | .rcp => quot neg 1 0 m e
  | .sqrt => (FVal.fin neg m e).sqrt
  | .rsq =>
    match (FVal.fin neg m e).sqrt with
    | .fin _ rm re => quot false 1 0 rm re
    | x => x
  | .exp2 => refExp2 neg m e
  | .log2 => refLog2 m e
  | .sin => refSin neg m e
  | .cos => refCos m e
  | .tanh => refTanh neg m e

/-- Is `m 2^e` an integer, and is it an odd one? -/
def isInteger (m : Nat) (e : Int) : Bool := decide (e ≥ 0) || m % 2 ^ (-e).toNat == 0
def isOdd (m : Nat) (e : Int) : Bool := decide (e ≤ 0) && (m / 2 ^ (-e).toNat) % 2 == 1
/-- Is `m 2^e` an integer and a half? -/
def isHalf (m : Nat) (e : Int) : Bool := !isInteger m e && isInteger m (e + 1)

/-- The special cases of Table 9-5 and the exact functions: the element they give, if the argument is one. -/
def ApproxFn.special (fn : ApproxFn) (f : FSpec) (x : Nat) : Option Nat :=
  let one := f.bias * 2 ^ f.fb
  match fn, f.decode x with
  | _, .nan => some f.nanCode
  | .rcp, .inf neg => some (f.signed neg 0)
  | .rcp, .fin neg m _ => if m = 0 then some (f.infCode neg) else none
  | .rsq, .inf neg => some (if neg then f.nanCode else 0)
  | .rsq, .fin neg m _ => if m = 0 then some (f.infCode neg) else if neg then some f.nanCode else none
  | .sqrt, v => some (f.round v.sqrt)
  | .exp2, .inf neg => some (if neg then 0 else f.infCode false)
  | .exp2, .fin neg m e => if isInteger m e then some (f.round (refExp2 neg m e)) else none
  | .log2, .inf neg => some (if neg then f.nanCode else f.infCode false)
  | .log2, .fin neg m e =>
    if m = 0 then some (f.infCode true)
    else if neg then some f.nanCode
    else if m = 2 ^ m.log2 then some (f.round (FVal.ofInt (e + (m.log2 : Int)))) else none
  | .sin, .inf _ => some f.nanCode
  | .sin, .fin neg m e =>
    if isInteger m e then some (f.signed neg 0)
    else if isHalf m e then some (f.signed (neg != isOdd m e) one) else none
  | .cos, .inf _ => some f.nanCode
  | .cos, .fin _ m e =>
    if isInteger m e then some (f.signed (isOdd m e) one)
    else if isHalf m e then some 0 else none
  | .tanh, .inf neg => some (f.signed neg one)
  | .tanh, .fin _ m e =>
    if m = 0 ∨ e + (m.log2 : Int) < -12 then some x else none

/-- The distance of two finite values, as a magnitude `m 2^e`. -/
def finDist (n1 : Bool) (m1 : Nat) (e1 : Int) (n2 : Bool) (m2 : Nat) (e2 : Int) : Nat × Int :=
  match addFin n1 m1 e1 (!n2) m2 e2 with
  | .fin _ m e => (m, e)
  | _ => (0, 0)

/-- Is `m 2^e` at most `k 2^q`? -/
def atMost (m : Nat) (e : Int) (k : Nat) (q : Int) : Bool :=
  let f := min e q
  decide (m * (2:Nat) ^ (e - f).toNat ≤ k * 2 ^ (q - f).toNat)

/-- The bound of Table 9-5 at the argument `m 2^e`: an absolute bound as a power of two, or a number of ulps. -/
def ApproxFn.bound (fn : ApproxFn) (f : FSpec) (m : Nat) (e : Int) : Int ⊕ Nat :=
  let wide := f == FSpec.f32
  let abs : Int := if wide then -22 else if f == FSpec.f16 then -10 else -7
  let ulps := if wide then 2 else 1
  match fn with
  | .rcp | .rsq | .sqrt => .inr 1
  | .exp2 => .inr ulps
  | .log2 =>
    let k := e + (m.log2 : Int)
    if k = -1 ∨ k = 0 then .inl abs else .inr ulps
  | .sin | .cos => .inl abs
  | .tanh => if wide ∧ e + (m.log2 : Int) < 0 then .inl (-22) else .inr ulps

/-- Does an element lie within the bound of Table 9-5 of the function's value at a finite argument that is no special
case? Results of FSIN, FCOS and FTANH do not exceed 1 in magnitude, and overflow gives an infinity (R184). -/
def ApproxFn.within (fn : ApproxFn) (f : FSpec) (neg : Bool) (m : Nat) (e : Int) (r : Nat) : Bool :=
  let one := f.bias * 2 ^ f.fb
  let cap := match fn with
    | .sin | .cos | .tanh => decide (r % 2 ^ (f.eb + f.fb) ≤ one)
    | _ => true
  match fn.ref neg m e, f.decode r with
  | .fin rn rm re, .fin n2 m2 e2 =>
    let d := finDist rn rm re n2 m2 e2
    cap && decide (f.nearCode rm re ≤ f.maxCode) && (match fn.bound f m e with
      | .inl q => atMost d.1 d.2 1 q
      | .inr k => if rm = 0 then d.1 == 0 else atMost d.1 d.2 k (f.ulpAt rm re))
  | .fin rn rm re, .inf n2 => rn == n2 && decide (f.nearCode rm re > f.maxCode)
  | _, _ => false

/-- An approximated function (R184): exact in the special cases, and elsewhere the free element `r` where it lies within
the bound, or else the reference rounded once (notes/assumptions/4). -/
def ApproxFn.result (fn : ApproxFn) (f : FSpec) (x r : Nat) : Nat :=
  match fn.special f x with
  | some y => y
  | none =>
    match f.decode x with
    | .fin neg m e => if fn.within f neg m e r then r else f.round (fn.ref neg m e)
    | _ => f.nanCode

end Sys2Proof.Machine
end

