-- ==== Sys2Proof/Machine/Flags.lean ====
section
/-!
DEFINITION. Element arithmetic of the integer range and every condition the compares form (spec/08_integer.md R152 to
R172, spec/09_float.md R177 to R183): pure functions from lane words to lane words and from elements to truth values.
A lane word is a natural number below 2^32, or below 2^64 for a register pair.
-/

namespace Sys2Proof.Machine

/-- Width n of an element (Table 5-7). -/
def etyBits : Ety → Nat
  | .s32 | .u32 | .f32 => 32
  | .s64 | .u64 => 64
  | .s16x2 | .u16x2 | .f16x2 | .bf16x2 => 16
  | .s8x4 | .u8x4 => 8

/-- Elements of a lane word or pair. -/
def etyCount : Ety → Nat
  | .s16x2 | .u16x2 | .f16x2 | .bf16x2 => 2
  | .s8x4 | .u8x4 => 4
  | _ => 1

def etySigned : Ety → Bool
  | .s32 | .s64 | .s16x2 | .s8x4 => true
  | _ => false

/-- The floating-point format of an element type. -/
def etySpec : Ety → FSpec
  | .f16x2 => .f16
  | .bf16x2 => .bf16
  | _ => .f32

def etyFloat : Ety → Bool
  | .f32 | .f16x2 | .bf16x2 => true
  | _ => false

/-- Element `e` of a lane word, `n` bits wide. -/
def elem (n w e : Nat) : Nat := w / 2 ^ (n * e) % 2 ^ n

/-- A lane word put together from its elements. -/
def joinElems (n : Nat) : List Nat → Nat
  | [] => 0
  | x :: xs => x % 2 ^ n + 2 ^ n * joinElems n xs

/-- A function of one, two or three elements, applied to every element of a lane word (R152, R156, R180). -/
def lane1 (ty : Ety) (f : Nat → Nat) (a : Nat) : Nat :=
  joinElems (etyBits ty) ((List.range (etyCount ty)).map (fun e => f (elem (etyBits ty) a e)))
def lane2 (ty : Ety) (f : Nat → Nat → Nat) (a b : Nat) : Nat :=
  joinElems (etyBits ty) ((List.range (etyCount ty)).map (fun e => f (elem (etyBits ty) a e) (elem (etyBits ty) b e)))
def lane3 (ty : Ety) (f : Nat → Nat → Nat → Nat) (a b c : Nat) : Nat :=
  joinElems (etyBits ty) ((List.range (etyCount ty)).map
    (fun e => f (elem (etyBits ty) a e) (elem (etyBits ty) b e) (elem (etyBits ty) c e)))

/-- A source element as the type reads it (R152). -/
def readElem (ty : Ety) (x : Nat) : Int := if etySigned ty then sext x (etyBits ty) else (zext x (etyBits ty) : Nat)

/-- The bounds SAT clamps to (R154). -/
def etyLo (ty : Ety) : Int := if etySigned ty then -(2 ^ (etyBits ty - 1) : Nat) else 0
def etyHi (ty : Ety) : Int := if etySigned ty then (2 ^ (etyBits ty - 1) : Nat) - 1 else (2 ^ etyBits ty : Nat) - 1

/-- The exact result saturated or wrapped (R154). -/
def finish (ty : Ety) (sat : Bool) (t : Int) : Nat :=
  low (if sat then clampInt t (etyLo ty) (etyHi ty) else t) (etyBits ty)

/-- An exact integer function of one, two or three elements, by the pattern of R156. -/
def exact1 (ty : Ety) (sat : Bool) (f : Int → Int) : Nat → Nat := lane1 ty (fun a => finish ty sat (f (readElem ty a)))
def exact2 (ty : Ety) (sat : Bool) (f : Int → Int → Int) : Nat → Nat → Nat :=
  lane2 ty (fun a b => finish ty sat (f (readElem ty a) (readElem ty b)))
def exact3 (ty : Ety) (sat : Bool) (f : Int → Int → Int → Int) : Nat → Nat → Nat → Nat :=
  lane3 ty (fun a b c => finish ty sat (f (readElem ty a) (readElem ty b) (readElem ty c)))

/-- IMULH: the high n bits of the exact product (R156). -/
def mulHigh (ty : Ety) (a b : Int) : Int := (a * b) / (2 ^ etyBits ty : Nat)

/-- IABS on the value the type reads. -/
def absInt (a : Int) : Int := (a.natAbs : Int)

/-- LEA (R157): A's width follows the type, B is a 32-bit word. -/
def leaWord (ty : Ety) (sh a b : Nat) : Nat :=
  let x : Int := if etySigned ty then sext b 32 else (zext b 32 : Nat)
  low ((zext a (etyBits ty) : Nat) + x * (2 ^ sh : Nat)) (etyBits ty)

/-- The shifts of R159 on one element; the amount is the element read unsigned. A left shift past twice the width is cut
there: every amount of n or more gives the same saturated or wrapped result. -/
def shlElem (ty : Ety) (sat : Bool) (a b : Nat) : Nat :=
  finish ty sat (readElem ty a * (2 ^ (min b (2 * etyBits ty)) : Nat))
def shrElem (ty : Ety) (a b : Nat) : Nat := if b < etyBits ty then zext a (etyBits ty) / 2 ^ b else 0
def sarElem (ty : Ety) (a b : Nat) : Nat :=
  low (sext a (etyBits ty) / (2 ^ (min b (etyBits ty)) : Nat)) (etyBits ty)
def rotElem (ty : Ety) (a b : Nat) : Nat :=
  let n := etyBits ty
  let s := b % n
  (a * 2 ^ s) % 2 ^ n + a / 2 ^ (n - s)

/-- BFX (R160) on the value `a` with control word `k`. -/
def bfxWord (ty : Ety) (a k : Nat) : Nat :=
  let n := etyBits ty
  let pos := k % 256
  let m := min (k / 256 % 256) n
  let src : Int := if etySigned ty then sext a n else (zext a n : Nat)
  if m = 0 then 0
  else
    let f := low (src / (2 ^ pos : Nat)) m
    if etySigned ty then low (sext f m) n else f

/-- BFI (R160): `a` inserted into `b`. -/
def bfiWord (ty : Ety) (a b k : Nat) : Nat :=
  let n := etyBits ty
  let pos := k % 256
  let m := min (k / 256 % 256) n
  if m = 0 ∨ pos ≥ n then b
  else
    let top := min (pos + m) n
    b % 2 ^ pos + (a * 2 ^ pos % 2 ^ top) / 2 ^ pos * 2 ^ pos + b / 2 ^ top * 2 ^ top

/-- Bit counts of R161 on an element of n bits. -/
def popcount : Nat → Nat → Nat
  | 0, _ => 0
  | k + 1, x => x % 2 + popcount k (x / 2)
def clzElem (n x : Nat) : Nat := if x = 0 then n else n - 1 - x.log2
def ctzElem : Nat → Nat → Nat
  | 0, _ => 0
  | k + 1, x => if x % 2 = 1 then 0 else 1 + ctzElem k (x / 2)
def brevElem : Nat → Nat → Nat
  | 0, _ => 0
  | k + 1, x => x % 2 * 2 ^ k + brevElem k (x / 2)

/-- Bitwise operations on whole words below 2^n. -/
def notWord (ty : Ety) (a : Nat) : Nat := 2 ^ (etyBits ty * etyCount ty) - 1 - a

/-- The integer conditions of R165. -/
def condHolds (c : Cond) (a b : Int) : Bool :=
  match c with
  | .eq => decide (a = b) | .ne => decide (a ≠ b) | .lt => decide (a < b) | .le => decide (a ≤ b)
  | .gt => decide (b < a) | .ge => decide (b ≤ a)

/-- ICMP and ICMPC on two words of the type (R165). -/
def icmpHolds (c : Cond) (ty : Ety) (a b : Nat) : Bool := condHolds c (readElem ty a) (readElem ty b)

/-- The floating-point conditions of Table 9-4. -/
def fcondHolds (c : FCond) (a b : FVal) : Bool :=
  let un := a.isNan || b.isNan
  let eq := !un && !a.lt b && !b.lt a
  match c with
  | .eq => eq | .ne => !eq | .lt => a.lt b | .le => a.lt b || eq | .gt => b.lt a | .ge => b.lt a || eq
  | .un => un | .ord => !un

/-- FCMP and FCMPC on two FP32 words (R182). -/
def fcmpHolds (c : FCond) (a b : Nat) : Bool := fcondHolds c (FSpec.f32.decode a) (FSpec.f32.decode b)

/-- A truth table of PLOP and CLOP (R166). -/
def tableBit (tt : BitVec 4) (a b : Bool) : Bool := tt.getLsbD (2 * b2n a + b2n b)

/-- Fold of RED (R171), exact; the list is in ascending lane order. -/
def redFold (op : RedOp) (ty : Ety) (xs : List Nat) : Int :=
  let vs := xs.map (readElem ty)
  match op with
  | .add => vs.foldl (· + ·) 0
  | .min => vs.foldl min (etyHi ty)
  | .max => vs.foldl max (etyLo ty)
  | .and => ((xs.foldl Nat.land (2 ^ etyBits ty - 1) : Nat) : Int)
  | .or => ((xs.foldl Nat.lor 0 : Nat) : Int)
  | .xor => ((xs.foldl Nat.xor 0 : Nat) : Int)

/-- Fold of PSCAN (R172). -/
def scanFold (op : ScanOp) (ty : Ety) (xs : List Nat) : Int :=
  match op with
  | .add => redFold .add ty xs
  | .min => redFold .min ty xs
  | .max => redFold .max ty xs

/-- One floating-point element result, saturated by R178 where asked. -/
def fFinish (f : FSpec) (sat : Bool) (v : FVal) : Nat := let r := f.round v; if sat then f.satur r else r

/-- The arithmetic of Table 9-2 on lane words. -/
def faddWord (ty : Ety) (sat : Bool) : Nat → Nat → Nat :=
  let f := etySpec ty; lane2 ty (fun a b => fFinish f sat ((f.decode a).add (f.decode b)))
def fsubWord (ty : Ety) (sat : Bool) : Nat → Nat → Nat :=
  let f := etySpec ty; lane2 ty (fun a b => fFinish f sat ((f.decode a).add (f.decode b).neg))
def fmulWord (ty : Ety) (sat : Bool) : Nat → Nat → Nat :=
  let f := etySpec ty; lane2 ty (fun a b => fFinish f sat ((f.decode a).mul (f.decode b)))
def fmaWord (ty : Ety) (sat : Bool) : Nat → Nat → Nat → Nat :=
  let f := etySpec ty; lane3 ty (fun a b c => fFinish f sat (((f.decode a).mul (f.decode b)).add (f.decode c)))
def fminWord (ty : Ety) (isMax nanRule : Bool) : Nat → Nat → Nat := lane2 ty ((etySpec ty).minmax isMax nanRule)
def fabsWord (ty : Ety) : Nat → Nat := lane1 ty (fun a => a % 2 ^ (etyBits ty - 1))
def fnegWord (ty : Ety) : Nat → Nat := lane1 ty (fun a => (a + 2 ^ (etyBits ty - 1)) % 2 ^ etyBits ty)

/-- FSCALE (R180): `k` is the element of B read as a signed integer; zeros and infinities pass whatever `k`. -/
def fscaleElem (f : FSpec) (sat : Bool) (n a k : Nat) : Nat := fFinish f sat ((f.decode a).scale (sext k n))
def fscaleWord (ty : Ety) (sat : Bool) : Nat → Nat → Nat := lane2 ty (fscaleElem (etySpec ty) sat (etyBits ty))

end Sys2Proof.Machine
end

