-- ==== Sys2Proof/Machine/Tab.lean ====
section
/-!
DEFINITION. Sparse tables: memory, registers and every other collection the machine holds by number. A table is a list of
(key, value) pairs in one canonical form, keys strictly rising; where a default is fixed, no entry equals it, so equal
tables are equal lists.
-/

namespace Sys2Proof.Machine

/-- A sparse table by natural number. -/
abbrev Tab (α : Type) := List (Nat × α)

/-- The entry at a key, if one is listed. It and `Tab.erase` look at the whole table, so the laws of reading and writing hold of
every list, in canonical form or not. -/
def Tab.find? {α : Type} : Tab α → Nat → Option α
  | [], _ => none
  | (j, x) :: t, k => if j = k then some x else Tab.find? t k

/-- What a key reads as, when unlisted keys read as `d`. -/
def Tab.get {α : Type} (d : α) (t : Tab α) (k : Nat) : α := (Tab.find? t k).getD d

/-- List a value at a key. -/
def Tab.put {α : Type} : Tab α → Nat → α → Tab α
  | [], k, x => [(k, x)]
  | e :: t, k, x => if e.1 < k then e :: Tab.put t k x else (k, x) :: (if e.1 = k then t else e :: t)

/-- Unlist a key. -/
def Tab.erase {α : Type} : Tab α → Nat → Tab α
  | [], _ => []
  | (j, y) :: t, k => if j = k then Tab.erase t k else (j, y) :: Tab.erase t k

/-- Write a value; writing the default unlists the key. -/
def Tab.set {α : Type} [DecidableEq α] (d : α) (t : Tab α) (k : Nat) (x : α) : Tab α :=
  if x = d then Tab.erase t k else Tab.put t k x

/-- Change a listed value. -/
def Tab.upd {α : Type} (t : Tab α) (k : Nat) (f : α → α) : Tab α :=
  match Tab.find? t k with
  | some x => Tab.put t k (f x)
  | none => t

/-- Change every listed value. -/
def Tab.mapVals {α β : Type} (f : Nat → α → β) (t : Tab α) : Tab β := t.map (fun p => (p.1, f p.1 p.2))

/-- Keys at or above `b`, strictly rising. -/
def Tab.sortedFrom {α : Type} : Nat → Tab α → Bool
  | _, [] => true
  | b, (k, _) :: t => b ≤ k && Tab.sortedFrom (k + 1) t

/-- The canonical form of a table whose unlisted keys read as `d`. -/
def Tab.wf {α : Type} [DecidableEq α] (d : α) (t : Tab α) : Bool :=
  Tab.sortedFrom 0 t && t.all (fun p => decide (p.2 ≠ d))

/-- The bytes of a memory by address (Host.Cell is a pair of this list); an unlisted address reads as zero. -/
abbrev Memory := Tab Byte

/-- What one byte of a memory reads as. Unlisted addresses read as zero: GDDR-7 by its zero maps (R191), new scratchpad
banks (R195), and, as a DESIGN CHOICE (notes/assumptions/3), memory the spec gives no contents. -/
def Memory.read (m : Memory) (a : Nat) : Byte := Tab.get 0#8 m a

/-- Write one byte, keeping the canonical form. -/
def Memory.write (m : Memory) (a : Nat) (b : Byte) : Memory := Tab.set 0#8 m a b

/-- The canonical form of a memory. -/
def Memory.wf (m : Memory) : Bool := Tab.wf 0#8 m

/-- Read `n` consecutive bytes. -/
def Memory.readN (m : Memory) (a : Nat) : Nat → List Byte
  | 0 => []
  | n + 1 => m.read a :: Memory.readN m (a + 1) n

/-- A range of a memory as an array, in one pass over the table. -/
def Memory.slice (m : Memory) (a n : Nat) : Array Byte :=
  m.foldl (fun r p => if a ≤ p.1 ∧ p.1 < a + n then r.setIfInBounds (p.1 - a) p.2 else r) (Array.replicate n 0#8)

/-- Write consecutive bytes. -/
def Memory.writeN (m : Memory) (a : Nat) : List Byte → Memory
  | [] => m
  | b :: bs => Memory.writeN (m.write a b) (a + 1) bs

end Sys2Proof.Machine
end

