-- ==== Sys2Proof/Machine/State.lean ====
section
/-!
DEFINITION. The state of one RK480 module: everything spec/ names, as plain data. INVENTORY.md lists each item with its
rule and its reset value. Numbers that the spec only counts or indexes with are natural numbers; words that software
sees are bit vectors.
-/

namespace Sys2Proof.Machine

/-- Why a step stops. The machine reports every breach of the spec inside itself (throws, traps, supervisor faults,
queue errors), so there is one reason only. -/
inductive Fault where
  /-- Raised by every instruction when `State.cur` names no quad group that exists: there is nobody to execute it. Safe:
  the hardware never issues an instruction without an issuer. -/
  | noIssuer
  deriving DecidableEq, Repr

/-- Why an instruction has no meaning here. -/
inductive Refusal where
  /-- An instruction not modelled yet, by its mnemonic. Safe: nothing is claimed of it. -/
  | notModelled (mnemonic : String)
  deriving DecidableEq, Repr

/-- One turn of the machine: a quad group of a gang issues, or an event happens. The order of turns is the model's own
(notes/assumptions/1). -/
inductive Turn where
  | issue (g : GRef) (grp : Nat)
  /-- An idle group may pass over further instructions of its fetch block in the cycle in which it has passed one (R132). -/
  | pass (g : GRef) (grp : Nat)
  | event (i : Instr)
  deriving DecidableEq, Repr

/-- Why an attempt to issue did not issue (R41), in the classes of the stall counters (R352). -/
inductive Stall where
  | operand | wait | sync | backlog | spill
  deriving DecidableEq, Repr

/-- The current clause of a quad group (Table 5-2). -/
structure Clause where
  seta : Nat
  setb : Nat
  deriving DecidableEq, Repr

/-- A WAITA in progress (R248): the address it read from its record as it issued, and the value it compares with (R121); the line it
watches (a physical line, or a scratchpad line of its crew), whether a watch entry is held, and whether its word is to be
loaded again. -/
structure Watch where
  addr : Nat
  cmp : Nat
  line : Nat
  scr : Bool
  held : Bool
  due : Bool
  woken : Bool
  deriving DecidableEq, Repr

/-- What an issued instruction that has not completed still waits for in its quad group (R197, R253). -/
inductive Waiting where
  | none
  | banks (left : List Nat) (mode : BankMode)
  | icinv (ranges : List (Nat × Nat)) (done : Bool)
  | bist (result : Option W64)
  | coreret (core result : Nat)
  deriving DecidableEq, Repr

/-- A cached translation (R330, R332): it covers a run of `2^run` pages of 64 KiB. `gpages` are the runs of guest pages, by first
page and number, of the stage-two translations it rests on, those of its stage-one tables among them. -/
structure Xlat where
  ctx : Nat
  fn : Nat
  vpage : Nat
  frame : Nat
  run : Nat
  bits : BitVec 5
  s2 : Bool
  gpages : List (Nat × Nat)
  deriving DecidableEq, Repr

/-- A quad group (R25, Table 7-2). -/
structure QGroup where
  quads : BitVec 16
  pc : Nat
  clause : Option Clause
  llc : Nat
  /-- The group's last word was the header just before its pc (R98). -/
  hdr : Bool
  sd : Nat
  loops : List (Nat × Nat)
  joins : List (Nat × BitVec 16)
  idle : Bool
  resume : Nat
  /-- Order of arrival at the join where the group waits (R26), and whether the join is a GJOIN (R137). -/
  arrived : Option (Nat × Bool)
  watch : Option Watch
  waiting : Waiting
  /-- Cycle in which the supervisor group took a YLD header (R406). -/
  yieldAt : Option Nat
  /-- Cycles the candidate has been ready and not chosen, and its promotion (R40). -/
  passed : Nat
  promoted : Bool
  /-- The virtual pages on which an access or a fetch of the group waited at stage two, and which the host answered as failed (R367). -/
  pageFail : List Nat
  /-- Translations that its next instruction has made while it waits for the pages of others, and whether the access is permitted: of a range
  form by virtual page, of OTDECL by tile and W (R368). -/
  pages : Tab (Xlat × Bool)
  /-- The issue numbers of its PERSISTs in progress (R247). -/
  persists : List Nat
  ended : Bool
  deriving DecidableEq, Repr

/-- A quad group at gang start or catch entry: no clause, structure state at its start values (Tables 6-2 and 7-2). -/
def QGroup.start (quads : BitVec 16) (pc : Nat) : QGroup :=
  { quads := quads, pc := pc, clause := none, llc := 0, hdr := false, sd := 0, loops := [], joins := [], idle := false, resume := 0
    arrived := none, watch := none, waiting := .none, yieldAt := none, passed := 0, promoted := false, pageFail := [], pages := [], persists := []
    ended := false }

/-- Where an element lies: a physical byte address, a byte offset in the crew's scratchpad, the device register block
word, a page whose stage-two request is outstanding (`tbl`: the miss was met at a stage-one table, Table 18-7), or a virtual
address whose translation stalls on a block that is closing (R361). -/
inductive Place where
  | phys (pa : Nat)
  | scr (off : Nat)
  | page (fn page va : Nat) (tbl : Bool)
  | held (va : Nat)
  deriving DecidableEq, Repr

/-- A store in a scope buffer (R210, R212). `refused` holds a cause of Table 11-5 found at issue by the page tables. -/
structure StoreEnt where
  seq : Nat
  op : Nat
  /-- Lane and address of the store, for a bank that has left scratchpad mode meanwhile (R197). -/
  lane : Nat
  pc : Nat
  place : Place
  bytes : List Byte
  scope : Scope
  leafW : Bool
  /-- Another entry of its line and its instruction has been drained: the line has been requested (R240). -/
  asked : Bool
  /-- The cycle in which it entered the buffer (R225). -/
  born : Nat
  deriving DecidableEq, Repr

/-- A SYS store on its way from H to Y(x) (R212, R220). -/
structure SysEnt where
  seq : Nat
  op : Nat
  pa : Nat
  bytes : List Byte
  deriving DecidableEq, Repr

/-- What an instruction in flight is. -/
inductive FlightKind where
  | load (sx : Bool)
  /-- A store with elements whose pages are awaited; it enters the scope buffer whole (R368). -/
  | store
  /-- A ZFILL with pages that are awaited: one element for each page of its range, whose `data` is its length (R250, R368). -/
  | zfill
  | atomic (op : AtomOp)
  | sysread
  /-- An RDSYS of an observation counter whose cycle has not ended (R353). -/
  | ctread (n : Nat)
  | fence
  deriving DecidableEq, Repr

/-- One lane's element of a load, an atomic or a waiting store in flight; of a store, `cmp` is 1 where the leaf permits writes and 0
where it does not. `win` holds the value read while a DEV atomic's window is open. -/
structure Elem where
  lane : Nat
  place : Place
  data : Nat
  cmp : Nat
  win : Option Nat
  absent : Bool
  done : Bool
  result : Nat
  deriving DecidableEq, Repr

/-- An issued instruction that has not completed: LD, LDS, ATOM, ATOMS, FENCE, RDXV, RDXS, RDSYS (R98, R345). -/
structure Flight where
  id : Nat
  /-- Address of the instruction: where a throw of one of its lanes is met. -/
  pc : Nat
  kind : FlightKind
  seq : Nat
  scope : Scope
  size : Size
  dst : Opd
  rp : Option Nat
  elems : List Elem
  ctr : Option Nat
  path : Option Nat
  leafR : Bool
  value : W64
  lanes : List (Nat × W32)
  /-- The quads of the group that issued it (R41), and its active lanes (R122). -/
  quads : BitVec 16
  active : Mask
  /-- The cycle of its issue (R225). -/
  born : Nat
  deriving DecidableEq, Repr

/-- A gang-stack entry (R49). -/
structure GRegion where
  catchPc : Nat
  cd : Nat
  ld : Nat
  deriving DecidableEq, Repr

/-- The failure accumulator (Table 11-5). -/
structure FailAcc where
  count : Nat
  first : Nat
  link : Bool
  host : Bool
  table : Bool
  deriving DecidableEq, Repr

def FailAcc.zero : FailAcc := ⟨0, 0, false, false, false⟩

/-- An unbegun ticket of a gang, or the open body of its transaction (R307, R308): the token of its operation, mode, round
and tiles. Operations are named by their tokens (R278) wherever a field is called `op` beside a crew. -/
structure Ticket where
  op : Nat
  roundMode : Bool
  round : Nat
  tiles : List (Nat × Bool)
  deriving DecidableEq, Repr

/-- A mailbox request (Table 15-8) with its write set (R318). -/
structure Request where
  cls : Nat
  cause : Nat
  cancel : Bool
  sep : Bool
  answ : Bool
  seq : Nat
  pc : Nat
  insn : List Byte
  lanes : Mask
  active : Mask
  crewLin : Nat
  gang : Nat
  gw : Nat
  ctx : Nat
  info : Nat
  gref : GRef
  quads : BitVec 16
  order : Nat
  taken : Bool
  /-- Distinct registers of the write set: vector registers by number with their lanes, others by 0x10000 + number. -/
  writes : Tab (Tab W64)
  deriving DecidableEq, Repr

/-- A gang (Table 6-2): the registers its quad groups share, those of its lanes, and what it has in flight. -/
structure Gang where
  num : Nat
  width : Nat
  /-- How many lanes have their launch-valid bit set; they are the lowest ones (R23). -/
  valid : Nat
  n : Nat
  p : Nat
  vbase : Nat
  vbound : Nat
  spill : Nat
  slot : Nat
  pipe : Nat
  v : Tab W32
  pr : Tab (BitVec 16)
  cnt : Tab (BitVec 8)
  s : Tab W64
  c : BitVec 16
  b : Tab (BitVec 128)
  f : Tab W32
  k : Tab Nat
  paths : Tab (List (Nat × Bool))
  lr : W64
  groups : List QGroup
  stack : List GRegion
  /-- The crew regions (true) and launch regions (false) the gang is in, newest first: its crew depth, its launch depth
  and which it entered more recently (R49). -/
  entered : List Bool
  fail : FailAcc
  buf : List StoreEnt
  sysq : List SysEnt
  flights : List Flight
  /-- Issue numbers from which every earlier access must be performed first (FENCE and joins, Table 11-3). -/
  marks : List Nat
  seq : Nat
  spilled : List (Nat × Option Mask)
  /-- Elements of registers of the backing store, by register and lane, that have been written and have not reached their home
  slice yet (R114, R115). -/
  unhomed : List Nat
  round : Nat
  tickets : List Ticket
  body : Option Ticket
  /-- Bodies ended by a throw whose stores have not all reached H yet: their grants are held until they have (R231, R309). -/
  ending : List Ticket
  /-- The quads of the group whose trap request is pending (R313). -/
  trapped : Option (BitVec 16)
  /-- The request of a trap that waits for the gang's loads before it is written (R313). -/
  trapReq : Option Request
  /-- Its slot of the mailbox holds a class-4 notice that is not answered (R313, R319). -/
  noticed : Bool
  /-- The unwind that has stopped the gang (R56). -/
  stopped : Option Nat
  halted : Bool
  abandoned : Bool
  /-- Set when the gang has ended: the address of the EXIT its last group executed (R62). -/
  ended : Option Nat
  /-- Of an ended gang: its release at DEV has not been made yet (R146). -/
  exitRel : Bool
  lbar : Option Nat
  deriving DecidableEq, Repr

/-- Crew barrier state (Table 14-4). -/
structure Bar where
  exp : Nat
  arr : Nat
  byt : Int
  phase : Bool
  err : Bool
  deriving DecidableEq, Repr

/-- Barriers at placement (Table 14-4). -/
def Bar.init : Bar := ⟨1, 0, 0, false, false⟩

/-- An ACC80 element (Table 4-6). -/
structure Acc where
  m : BitVec 64
  x : BitVec 12
  mode : Bool
  sat : Bool
  spec : Bool
  outsat : Bool
  deriving DecidableEq, Repr

/-- The zero state (R86): M = 0, X = -2048, flags clear. -/
def Acc.zero : Acc := ⟨0, 0x800#12, false, false, false, false⟩

/-- An accumulator tile: element (i, j) at key 64 i + j, unlisted elements in the zero state; the recorded mode, none or
integer (false) or float (true) (R87). -/
structure Tile where
  el : Tab Acc
  mode : Option Bool
  deriving DecidableEq, Repr

def Tile.zero : Tile := ⟨[], none⟩

/-- How an operation stands (Table 14-1, ST). -/
inductive OpStatus where
  | unresolved | ok | empty | cancelled | faulted
  deriving DecidableEq, Repr

/-- What an operation of the operation table is. -/
inductive OpKind where
  | copy | matrix | ticket | pagereq
  deriving DecidableEq, Repr

/-- An entry of the operation table (R277). -/
structure OpEnt where
  gen : Nat
  busy : Bool
  st : OpStatus
  word : W64
  reported : Bool
  kind : OpKind
  gang : Nat
  deriving DecidableEq, Repr

/-- An entry before its first use; the spec gives no first generation (notes/assumptions/9). -/
def OpEnt.free : OpEnt := ⟨0, false, .empty, 0, true, .copy, 0⟩

/-- A queue entry: its words by lane (R122). -/
structure FifoEnt where
  words : Tab W32
  deriving DecidableEq, Repr

/-- A FIFO bank group: how many banks it spans, and its entries, oldest first (R122, R275). -/
structure Fifo where
  nb : Nat
  entries : List FifoEnt
  /-- Place in the ring of the banks, in 32-bit words, at which the oldest entry begins. -/
  head : Nat
  /-- Lost lines of the ring, with the bytes not written since (R199). -/
  lost : Tab (BitVec 128)
  deriving DecidableEq, Repr

def Fifo.empty : Fifo := ⟨1, [], 0, []⟩

/-- The two banks masks and the scratchpad banks of a crew on one core (R194). -/
structure Banks where
  all : BitVec 32
  scr : BitVec 32
  deriving DecidableEq, Repr

/-- What a copy command is (R283, R286, R287, R291). -/
inductive CopyKind where
  | cpy
  | multicast (cores : BitVec 8)
  | indexed (list : Nat)
  | msel (fw : W32) (src dst sa sm : Nat)
  deriving DecidableEq, Repr

/-- One stretch of bytes of an element of a copy: global at a physical address, or in the crew's scratchpad. -/
structure Stretch where
  scr : Bool
  at_ : Nat
  len : Nat
  deriving DecidableEq, Repr

/-- A command of the copy queue with its captured operands (R281) and its progress. -/
structure CopyCmd where
  /-- Address of the instruction (R398). -/
  pc : Nat
  crew : Nat
  gang : Nat
  side : Nat
  op : Nat
  path : Nat
  kind : CopyKind
  rc : BitVec 128
  first : Nat
  count : Nat
  off : Nat
  dir : Bool
  bar : Option Nat
  ctx : Nat
  body : Option Ticket
  /-- Segments of 4 KiB started, and the pieces written. -/
  segs : Nat
  done : List Nat
  undel : Nat
  /-- The lowest-numbered faulting element, and its code (R284). -/
  fault : Option (Nat × Nat)
  /-- CPY.M: cores that received bytes, and cores where bytes were dropped. -/
  got : BitVec 8
  skip : BitVec 8
  /-- Bytes by which the barrier has been lowered so far (R285). -/
  credited : Nat
  /-- Elements that waited on a stage-two page which the host answered as failed (R367). -/
  failed : List Nat
  /-- Bytes read before the element is written that they belong to: byte i of element k at 256 k + i (R226). -/
  pre : Tab Byte
  /-- Elements of which some bytes may have been written: where they were found to lie, the side that is read and the side that is written
  (R226). -/
  placed : Tab (List Stretch × List Stretch)
  /-- Bytes that have been written ahead of the rest of their element: the crew written to, and the byte's number as in `pre`. -/
  wrote : List (Nat × Nat)
  /-- Elements moved, skipped or faulted of pieces that are not written whole yet. -/
  moved : List Nat
  /-- Bytes of those pieces by which barriers are lowered once their piece is written: by 2^20 times the crew plus the piece (R285). -/
  due : Tab Nat
  deriving DecidableEq, Repr

/-- What a matrix command is. -/
inductive MxKind where
  | mma (a b sa sb : Nat) (fw : W32)
  | mmaSp (a b sa sb sm : Nat) (fw : W32)
  | mmaP (a b sa sb : Nat) (fw : W32)
  | accz
  | accdr (off : Nat) (tgt : Fmt)
  | wdset (val : W32)
  | mfence
  deriving DecidableEq, Repr

/-- A command of the matrix queue. `pre` holds the operand bytes, by scratchpad offset, that were read ahead of earlier
commands' writes, and of an ACCDR the destination bytes that were written ahead of them (R230); `left` counts the costed cycles that
a running command still has (R266); `body` names the transaction in whose body it was accepted (R309). -/
structure MxCmd where
  crew : Nat
  gang : Nat
  side : Nat
  op : Nat
  tile : Nat
  kind : MxKind
  trapspec : Bool
  running : Bool
  left : Nat
  /-- For MMA.P, whether the partner has issued (R290). -/
  paired : Bool
  pre : Tab Byte
  body : Option Nat
  deriving DecidableEq, Repr

/-- An MMA.P that one side has issued and its partner has not (R290). -/
structure Half where
  side : Nat
  tile : Nat
  fw : W32
  b : Nat
  sb : Nat
  widths : W32
  gang : Nat
  op : Nat
  deriving DecidableEq, Repr

/-- The race clocks of a debug crew (R398), by crew number below 64. -/
structure RaceClock where
  v : Tab Nat
  r : Tab Nat
  p : Tab Nat
  deriving DecidableEq, Repr

def RaceClock.zero : RaceClock := ⟨[], [], []⟩

/-- Where a crew stands with the distributor. -/
inductive CrewPhase where
  | resident | saved | ended
  deriving DecidableEq, Repr

/-- A placed crew. Scratchpad bytes are held by their offset in the allocation (R194). -/
structure Crew where
  launch : Nat
  index : Nat
  core : Nat
  phase : CrewPhase
  halting : Bool
  gangs : Tab Gang
  /-- Banks on the even (or only) core and on the odd core. -/
  banks0 : Banks
  banks1 : Banks
  scr : Memory
  /-- Lost lines of the allocation, with the bytes not written since (R199). -/
  lostScr : Tab (BitVec 128)
  fifos : Tab Fifo
  qcfg : Tab W32
  mxctl : W32
  bars : Tab Bar
  tiles : Tab Tile
  wds : Tab W32
  ops : Tab OpEnt
  rcd : Tab W64
  /-- The crews, by linear index, that the record of the area counts as throwing (NCREW, R65). -/
  rcdThrew : List Nat
  recSeq : Nat
  stack : List Nat
  /-- All of one side, oldest first. -/
  half : List Half
  savedCopies : List CopyCmd
  savedMx : List MxCmd
  race : RaceClock
  deriving DecidableEq, Repr

/-- A launch (Table 13-4, R263, R302). -/
structure Launch where
  queue : Nat
  compl : Nat
  corr : W64
  event : Bool
  code : Nat
  args : Nat
  argsz : Nat
  width : Nat
  coop : Bool
  pair : Bool
  x : Nat
  y : Nat
  z : Nat
  gangs : Nat
  validN : Nat
  nreg : Nat
  preg : Nat
  spb : Nat
  ffb : Nat
  bars : Nat
  acct : Nat
  wprod : Nat
  ctx : Nat
  prio : Nat
  /-- Linear index of the next crew to place, and how many crews have ended. -/
  next : Nat
  endedCrews : Nat
  stack : List Nat
  /-- The crews, by linear index, whose arrival at each launch barrier is counted (R302). -/
  lbars : Tab (List Nat)
  status : Nat
  fails : Nat
  first : Nat
  start : Nat
  finish : Nat
  record : Tab W64
  recCrew : Nat
  stopping : Bool
  debug : Bool
  span : Option Nat
  /-- Modules of the span whose own count of launch barrier n has arrived (R370). -/
  spanArr : Tab Nat
  deriving DecidableEq, Repr

/-- A byte copy at a core point or home point (R210). A dirty byte that is `tied` moves in one step with the byte before it, because one
element's store wrote both (R209). -/
structure Copied where
  val : Byte
  dirty : Bool
  tied : Bool := false
  deriving DecidableEq, Repr

/-- A line of an instruction cache (R200): its bytes, whether it is pinned, and whether an uncorrectable error lies in it. -/
structure ILine where
  bytes : List Byte
  pinned : Bool
  bad : Bool
  deriving DecidableEq, Repr

/-- A line held at its level-two slice (R203, R204): whether it is to be written back, and its zero flag. -/
structure L2Line where
  dirty : Bool
  zero : Bool
  deriving DecidableEq, Repr

/-- A core (Table 1-1). -/
structure Core where
  modes : BitVec 64
  cp : Tab Copied
  /-- Lost dirty lines of the core point, with the bytes not written since (R199). -/
  lostCp : Tab (BitVec 128)
  icache : Tab ILine
  copyQ : List CopyCmd
  mxQ : List MxCmd
  /-- A WDSET has taken this engine cycle (R296). -/
  mxUsed : Bool
  /-- A matrix step has ended, and neither has a step begun since nor has the power limit inserted its last idle cycle (R19). -/
  mxGap : Bool
  sup : Option Gang
  mbox : Tab Request
  mboxSeq : BitVec 32
  mboxOrder : Nat
  svflt : Bool
  sventry : Nat
  svfpc : Nat
  svfcause : W32
  bistres : W64
  bist : Option (Nat × Nat)
  live : Tab W64
  latch : Tab W64
  retired : Bool
  /-- Pipes that issued in this cycle, and what issued last on each (R39). -/
  issued : BitVec 4
  /-- The further cycles for which an instruction in progress holds each pipe (R24). -/
  hold : Tab Nat
  last : Tab (GRef × BitVec 16)
  stalls : Tab Nat
  deriving DecidableEq, Repr

/-- A core at reset: banks in cache mode, everything empty (Table 10-1). -/
def Core.reset : Core :=
  { modes := 0, cp := [], lostCp := [], icache := [], copyQ := [], mxQ := [], mxUsed := false, mxGap := false, sup := none, mbox := [], mboxSeq := 0, mboxOrder := 0
    svflt := false, sventry := 0, svfpc := 0, svfcause := 0, bistres := 0, bist := none, live := [], latch := []
    retired := false, issued := 0, hold := [], last := [], stalls := [] }

/-- A declaration in a sequencer (R269, R305). -/
structure Decl where
  die : Nat
  crew : Nat
  gang : Nat
  op : Nat
  launch : Nat
  index : Nat
  roundMode : Bool
  round : Nat
  key : Nat
  tiles : List (Nat × Bool)
  carried : Bool
  deriving DecidableEq, Repr

/-- A die: its headframe, sequencer, core rail offset and counters. -/
structure Die where
  failed : Bool
  /-- Heartbeats missed in a row (R364). -/
  missed : Nat
  decls : List Decl
  batch : List Decl
  voff : Int
  live : Tab W64
  latch : Tab W64
  /-- Physical numbers of the cores taken at step 1 of the last cold start, by logical index (R12, R389). -/
  enabled : List Nat
  deriving DecidableEq, Repr

def Die.reset : Die := ⟨false, 0, [], [], 0, [], [], []⟩

/-- A tile entry of a grant queue (R272), in merged order. -/
structure GrantEnt where
  tile : Nat
  w : Bool
  crew : Nat
  gang : Nat
  op : Nat
  granted : Bool
  released : Bool
  deriving DecidableEq, Repr

/-- A claim entry (Table 16-7) with its deadline and whether EVNEXT has taken the offer. -/
structure Claim where
  lost : Nat
  pend : Nat
  state : Nat
  timedOut : Bool
  fwd : Bool
  s : Bool
  h : Bool
  payload : W64
  deadline : Nat
  taken : Bool
  order : Nat
  deriving DecidableEq, Repr

def Claim.reset : Claim := ⟨0, 0, 0, false, false, false, true, 0, 0, true, 0⟩

/-- A launch-queue entry (Table 13-3). -/
structure LEntry where
  desc : Nat
  compl : Nat
  waddr : Nat
  wval : Nat
  flags : Nat
  corr : Nat
  zero : Nat
  deriving DecidableEq, Repr

/-- A launch-queue configuration block (Table 13-2) with the headframe's view of the queue. -/
structure LQueue where
  base : Nat
  ctl : Nat
  ctx : Nat
  state : Nat
  log2 : Nat
  prio : Nat
  en : Bool
  tail : Nat
  lastPoll : Nat
  /-- The SERIAL condition: the previous launch of the queue, while its completion entry is unwritten (R259). -/
  prev : Option Nat
  /-- The head entry is a cooperative launch that waits for room (R37, R261). -/
  hold : Bool
  /-- The dependence word of the head entry satisfied its condition when it was last looked at, with SERIAL met (R259). -/
  depOk : Bool
  /-- The entries that the headframe has read, the first of them the entry with this count (R258). -/
  first : Nat
  entries : List LEntry
  deriving DecidableEq, Repr

def LQueue.reset : LQueue := ⟨0, 0, 0, 0, 2, 0, false, 0, 0, none, false, false, 0, []⟩

/-- Page-request registers of a function (Table 18-6). -/
structure PageRegs where
  base : Nat
  en : Bool
  tail : Nat
  head : Nat
  bad : Bool
  deriving DecidableEq, Repr

def PageRegs.reset : PageRegs := ⟨0, false, 0, 0, false⟩

/-- Who waits on a page request (R366): a quad group, named by its lowest quad, for a virtual page; elements of an instruction in flight;
an element of a copy; the headframe for a queue and a virtual page, with the launch whose completion entry it is to write; a PAGEREQ for a
virtual page. -/
inductive Waiter where
  | group (g : GRef) (quad vpage : Nat)
  | flight (g : GRef) (op : Nat)
  | copy (core crew op elem : Nat)
  | headframe (q vpage : Nat) (launch : Option Nat)
  | pagereq (crew op vpage : Nat)
  deriving DecidableEq, Repr

/-- A page request: page, kind and stage of Table 18-7; `tag` once it is written to the ring. -/
structure PageReq where
  fn : Nat
  page : Nat
  ctx : Nat
  kind : Nat
  stage : Nat
  tag : Option Nat
  waiters : List Waiter
  /-- The host's answer, kept for waiters whose crew is saved: whether the page failed (R368). -/
  answer : Option Bool
  deriving DecidableEq, Repr

/-- A PAGEREQ in progress: the pages still to be answered, and whether one is not backed (R251). -/
structure PageOp where
  crew : Nat
  op : Nat
  ctx : Nat
  pages : List Nat
  fault : Bool
  deriving DecidableEq, Repr

/-- START (Table 20-1). `pending` is a requested start that has not been performed. -/
structure Start where
  kind : Nat
  shchg : Bool
  wfail : Nat
  code : Nat
  step : Nat
  state : Nat
  pending : Option Bool
  deriving DecidableEq, Repr

/-- OWNREQ (Table 18-1) with the blocks still to change. -/
structure OwnReq where
  addr : Nat
  count : Nat
  dir : Bool
  err : Bool
  busy : Bool
  left : List Nat
  /-- The block that is closing or opening (R361, R362). -/
  marked : Option Nat
  deriving DecidableEq, Repr

/-- TINV (Table 16-5). -/
structure Tinv where
  fn : Nat
  s2 : Bool
  ctx : Nat
  start : W64
  len : W64
  busy : Bool
  deriving DecidableEq, Repr

/-- The host event ring (Table 18-4), the classes whose delivery waits, and MSI-X messages sent per vector. -/
structure EventRing where
  base : Nat
  log2 : Nat
  en : Bool
  tail : Nat
  head : Nat
  evack : Nat
  waiting : List Nat
  msix : Tab Nat
  deriving DecidableEq, Repr

/-- An update of a field that is read to clear or that software clears, in the cycle in which it happens (R6); `Off` is such a clear, and
`offered` an offer that EVNEXT does not name yet. -/
inductive LateSet where
  | eventLost (e : Nat)
  | offered (e : Nat)
  | scanDone (p : Nat)
  | replyBad (f : Nat)
  | replyBadOff (f : Nat)
  | ownErr
  | ownErrOff
  deriving DecidableEq, Repr

/-- A margining register (Table 20-5). -/
structure Lmarg where
  /-- The lane of the scan in progress. -/
  scan : Option Nat
  dwell : Nat
  voff : Nat
  toff : Nat
  lane : Nat
  done : Bool
  errors : Nat
  deriving DecidableEq, Repr

def Lmarg.reset : Lmarg := ⟨none, 0, 0, 0, 0, false, 0⟩

/-- A link port: up or down, and the lanes retired on it (R369). -/
structure Port where
  down : Bool
  retired : BitVec 16
  peer : Nat
  deriving DecidableEq, Repr

/-- SY.TICK (Table 17-5) and settings written but not yet in force (R350). -/
structure Tick where
  tnum : BitVec 32
  en : Bool
  klog : Nat
  next : Option (Bool × Nat)
  clr : Bool
  deriving DecidableEq, Repr

/-- The trace ring (R276): where it lies, the bytes written to it and those its reader has taken, and the drop count. The spec gives
its registers no place (notes/assumptions/14). -/
structure Trace where
  base : Nat
  size : Nat
  written : Nat
  taken : Nat
  drops : Nat
  deriving DecidableEq, Repr

/-- The last access of a line by a crew, for the race report (R398): launch, crew, epoch, stop offset, write, kind, gang. -/
structure RaceAcc where
  launch : Nat
  crew : Nat
  epoch : Nat
  pc : Nat
  write : Bool
  sync : Bool
  kind : Nat
  gang : Nat
  deriving DecidableEq, Repr

/-- A record that a RETHROW re-raises, as it stood then (R65): the area of its own crew, the crews it counts by linear index, and the areas
of all crews that hold it. -/
structure Kept where
  rcd : Tab W64
  threw : List Nat
  areas : Tab (Tab W64)
  deriving DecidableEq, Repr

/-- An unwind between its first throw and its completion (R56, R59). Throws are (crew, gang, lane, code). -/
structure Unwind where
  level : Nat
  crew : Nat
  gang : Nat
  launch : Nat
  /-- The catch address and the depth of the region that catches, as they stood at the throw (R55). -/
  catchPc : Nat
  depth : Nat
  throws : List (Nat × Nat × Nat × Nat)
  cycle : Nat
  /-- The supervisor codes of SVTHROW (R320), by (crew, gang). -/
  svcodes : List (Nat × Nat × Nat)
  /-- The rethrown record (R65). -/
  kept : Option Kept
  /-- Stop addresses of throwing gangs by (crew, gang). -/
  stops : List (Nat × Nat × Nat)
  /-- Operations it has cancelled, by crew and token (CFUT of Table 16-11). -/
  cancelled : List (Nat × Nat)
  /-- The merge window is closed: every member has stopped (R59). -/
  closed : Bool
  /-- Throws on other modules of a span launch, by crew index, gang, lane and code (R370). -/
  remote : List (Nat × Nat × Nat × Nat)
  /-- In a span launch: the other modules have stopped and told of their throws (R370). -/
  heard : Bool
  /-- Members that were stopped at the catch of an earlier unwind, before they issued anything (R59). -/
  steered : List GRef
  deriving DecidableEq, Repr

/-- The whole module. -/
structure State where
  cycle : W64
  /-- Device memory at its home points, host memory at 0x8_0000_0000_0000, peer memory in its windows (Table 10-2). -/
  mem : Memory
  /-- Copies of host, peer and host-owned bytes held at home points (R208, R359). -/
  hcopy : Tab Copied
  /-- The far lines that are held zero-flagged (R203). -/
  zeroFar : List Nat
  /-- The launch whose store wrote a byte of host or peer memory last, for the failure of its write-back (R220). -/
  storers : Tab Nat
  /-- The lines of GDDR-7 and LPDDR-6 that their level-two slices hold (R203). -/
  l2 : Tab L2Line
  /-- The channel zero maps, one bit per GDDR-7 line; an unlisted bit is set (R191, R204). -/
  zmap : Tab Bool
  /-- Lost lines at home points and in memory, with the bytes not written since (R199, R204). -/
  lost : Tab (BitVec 128)
  cores : Tab Core
  /-- What a start has to hand on to the next one of cores that it did not bring up (R128, R385, R387). -/
  keptCores : Tab Core
  dies : Tab Die
  crews : Tab Crew
  launches : Tab Launch
  nextCrew : Nat
  accept : Nat
  unwinds : Tab Unwind
  nextUnwind : Nat
  -- translation
  ctxbase : Nat
  xlats : List Xlat
  tinv : Tinv
  regions : Tab (W64 × W64)
  access : Tab (BitVec 16)
  -- launch queues
  queues : Tab LQueue
  lastQ : Tab Nat
  -- transactions
  closing : List (Nat × Nat)
  merged : List GrantEnt
  grants : List GrantEnt
  exchanging : Bool
  /-- The cycle by which the exchange in progress is complete (R270). -/
  mergeBy : Nat
  -- events and host
  claims : Tab Claim
  claimOrder : Nat
  ring : EventRing
  pageRegs : Tab PageRegs
  pageReqs : List PageReq
  pageOps : List PageOp
  ownreq : OwnReq
  hostOwned : List Nat
  hostDir : List Nat
  hostPortDown : Bool
  -- device registers
  beat : W32
  beatNext : Option W32
  claimto : W32
  tick : Tick
  live : Tab W64
  latch : Tab W64
  /-- Increments of observation counters that the end of this cycle adds, and the counters written in it (R353); a counter
  is named by its number times 1024 plus its core or die. -/
  counts : Tab Nat
  wrote : List Nat
  /-- Hardware updates of this cycle that its end applies, so that reads of the cycle come before them and a software clear wins (R6). -/
  late : List LateSet
  trace : Trace
  start : Start
  shadow : List W32
  stoppedClock : Bool
  attest : Tab Byte
  attestGo : Bool
  attestDone : Bool
  lmarg : Tab Lmarg
  ports : Tab Port
  powlim : Nat
  power : Nat
  powerEngaged : Bool
  coldPlate : List Nat
  dbgEn : Bool
  dbgCtx : Nat
  spanid : W64
  route : Tab Byte
  spanGroup : Tab W64
  lead : Nat
  missed : Nat
  headerHash : List Byte
  -- race report
  lineClock : Tab (Tab Nat)
  lineAcc : Tab (List RaceAcc)
  -- the model's own
  agenda : List Turn
  cur : Option (GRef × Nat)
  blocked : Option Stall
  fresh : Nat
  deriving DecidableEq, Repr

/-- The module right after reset: every field at its reset value of spec/ (INVENTORY.md '## State'), a cold start
requested by power-on and not yet performed (R384: STATE resets to 01b), nothing placed, agenda empty. -/
def State.reset : State :=
  { cycle := 0, mem := [], hcopy := [], zeroFar := [], storers := [], l2 := [], zmap := [], lost := [], cores := [], keptCores := [], dies := [], crews := [], launches := []
    nextCrew := 0, accept := 0, unwinds := [], nextUnwind := 0
    ctxbase := 0, xlats := [], tinv := ⟨0, false, 0, 0, 0, false⟩, regions := [], access := []
    queues := [], lastQ := [], closing := [], merged := [], grants := [], exchanging := false, mergeBy := 0
    claims := [], claimOrder := 0, ring := ⟨0, 4, false, 0, 0, 0, [], []⟩, pageRegs := [], pageReqs := [], pageOps := []
    ownreq := ⟨0, 1, false, false, false, [], none⟩, hostOwned := [], hostDir := [], hostPortDown := false
    beat := 10, beatNext := none, claimto := 50, tick := ⟨0, false, 16, none, false⟩, live := [], latch := [], counts := []
    wrote := [], late := [], trace := ⟨0, 0, 0, 0, 0⟩, start := ⟨0, false, 0, 0, 0, 1, some false⟩, shadow := [], stoppedClock := false
    attest := [], attestGo := false, attestDone := false, lmarg := [], ports := [], powlim := 2000, power := 0
    powerEngaged := false, coldPlate := [], dbgEn := false, dbgCtx := 0, spanid := 0, route := [], spanGroup := []
    lead := 0, missed := 0, headerHash := [], lineClock := [], lineAcc := []
    agenda := [], cur := none, blocked := none, fresh := 0 }

end Sys2Proof.Machine
end

