-- ==== Sys2Proof/Machine/Event.lean ====
section
/-!
DEFINITION. Observation counters (spec/17_counters.md R351 to R353) and the claim protocol of events (spec/16_tables.md
R337 to R339): the two things any step may set off.
-/

namespace Sys2Proof.Machine

/-- Add `k` to a live counter; the flag tells that OVF went from 0 to 1 (R353). -/
def bump (live : Tab W64) (n k : Nat) : Tab W64 × Bool :=
  let w := Tab.get 0#64 live n
  let v := w.toNat % 2 ^ 48 + k
  let ovf := w.getLsbD 48
  let ov' := ovf || decide (v ≥ 2 ^ 48)
  (Tab.set 0#64 live n (BitVec.ofNat 64 (v % 2 ^ 48 + b2n ov' * 2 ^ 48)), ov' && !ovf)

/-- Cycles in a microsecond of the arithmetic clock (R339's example: 50 us are 62,500 cycles). -/
def cyclesPerMicrosecond : Nat := 1250

/-- The claim timeout in cycles; 0 is read as 1 (Table 6-11). -/
def claimCycles (s : State) : Nat := max 1 (s.claimto.toNat % 2 ^ 20) * cyclesPerMicrosecond

def claim (s : State) (e : Nat) : Claim := Tab.get Claim.reset s.claims e
def setClaim (s : State) (e : Nat) (c : Claim) : State := { s with claims := Tab.set Claim.reset s.claims e c }

/-- Offer an idle class to the supervisor (R339). -/
def offerClaim (s : State) (e : Nat) : State :=
  let c := claim s e
  let s := setClaim s e { c with state := 1, deadline := s.cycle.toNat + claimCycles s, taken := false, order := s.claimOrder }
  { s with claimOrder := s.claimOrder + 1, late := s.late ++ [.offered e] }

/-- Hand a class to the host; with H clear the event is lost, which LOST tells from the end of the cycle on, and the class ends, so a coalesced raise begins again, at
most once since PEND is then 0 (R339). -/
def deliverClaim (s : State) (e : Nat) (timedOut fwd : Bool) : Nat → State
  | 0 => s
  | n + 1 =>
    let c := claim s e
    if c.h then
      let s := setClaim s e { c with timedOut := timedOut, fwd := fwd, state := 2 }
      { s with ring := { s.ring with waiting := s.ring.waiting ++ [e] } }
    else
      let s := setClaim { s with late := s.late ++ [.eventLost e] } e { c with state := 0, pend := 0, taken := true }
      if c.pend = 0 then s
      else if c.s then offerClaim s e else deliverClaim s e false false n

/-- The raise of R339 for one class. -/
def raiseClaim (s : State) (e : Nat) (payload : W64) : State :=
  let c := { claim s e with payload := payload }
  if c.state ≠ 0 then setClaim s e { c with pend := min (c.pend + 1) 255 }
  else
    let s := setClaim s e c
    if c.s then offerClaim s e else deliverClaim s e false false 2

/-- Finish of R339. -/
def finishClaim (s : State) (e : Nat) : State :=
  let c := claim s e
  let s := setClaim s e { c with state := 0, pend := 0, taken := true }
  if c.pend = 0 then s else raiseClaim s e c.payload

/-! ### Observation counters (R351, R353) -/

/-- A counter of a core, a die or (0) the device. -/
def counterKey (n unit : Nat) : Nat := n * 1024 + unit

/-- An increment, added at the end of its cycle (R353). -/
def countAt (s : State) (n unit k : Nat) : State :=
  { s with counts := Tab.set 0 s.counts (counterKey n unit) (Tab.get 0 s.counts (counterKey n unit) + k) }

/-- Add to a device counter, a core counter, a die counter. -/
def countDev (s : State) (n k : Nat) : State := countAt s n 0 k
def countCore (s : State) (c n k : Nat) : State := countAt s n c k
def countDie (s : State) (d n k : Nat) : State := countAt s n d k

/-- An event is raised (R337, R339) and counted (0x905 of Table 17-7). -/
def raiseEvent (s : State) (e : Nat) (payload : Nat) : State :=
  raiseClaim (countDev s 0x905 1) e (BitVec.ofNat 64 payload)

/-- Change a core that exists. -/
def modCore (s : State) (c : Nat) (f : Core → Core) : State := { s with cores := Tab.upd s.cores c f }

/-- Change a die that exists. -/
def modDie (s : State) (d : Nat) (f : Die → Die) : State :=
  { s with dies := Tab.set Die.reset s.dies d (f (Tab.get Die.reset s.dies d)) }

/-- Change the live counters that a number names: those of a core below 0x880, of a die below 0x900, else of the device. -/
def modLive (s : State) (n unit : Nat) (f : Tab W64 → Tab W64) : State :=
  if n < 0x880 then modCore s unit (fun x => { x with live := f x.live })
  else if n < 0x900 then modDie s unit (fun x => { x with live := f x.live })
  else { s with live := f s.live }

/-- The live counters that a number names. -/
def liveOf (s : State) (n unit : Nat) : Tab W64 :=
  if n < 0x880 then ((Tab.find? s.cores unit).map (fun x => x.live)).getD []
  else if n < 0x900 then (Tab.get Die.reset s.dies unit).live
  else s.live

/-- Software writes a live counter: VALUE takes the written value, OVF is cleared by a one, and the write wins the cycle
(R353). -/
def writeCounter (s : State) (n unit w : Nat) : State :=
  let s := modLive s n unit (fun t =>
    let ovf := (Tab.get 0#64 t n).getLsbD 48 && !bit w 48
    Tab.set 0#64 t n (BitVec.ofNat 64 (w % 2 ^ 48 + b2n ovf * 2 ^ 48)))
  { s with wrote := s.wrote ++ [counterKey n unit] }

/-- One counter takes an increment; an OVF that goes from 0 to 1 raises event class 10 (R353). -/
def applyCount (s : State) (p : Nat × Nat) : State :=
  let n := p.1 / 1024
  let unit := p.1 % 1024
  let b := bump (liveOf s n unit) n p.2
  let s := modLive s n unit (fun _ => b.1)
  if b.2 then raiseEvent s 10 n else s

/-- The counter of events takes its increments last, those of the cycle's own class-10 events among them. -/
def applyEvents (s : State) : State :=
  let ev := counterKey 0x905 0
  let s := applyCount { s with counts := [] } (ev, Tab.get 0 s.counts ev)
  applyCount { s with counts := [] } (ev, Tab.get 0 s.counts ev)

/-- The end of a cycle: every increment is added, but to the counters written in the cycle (R353). -/
def applyCounts (s : State) : State :=
  let ev := counterKey 0x905 0
  let cs := s.counts.filter (fun p => p.1 != ev && !s.wrote.contains p.1)
  let t := cs.foldl applyCount { s with counts := s.counts.filter (fun p => p.1 == ev) }
  { (if s.wrote.contains ev then t else applyEvents t) with counts := [], wrote := [] }

end Sys2Proof.Machine
end

