-- ==== Sys2Proof/Machine/Gang.lean ====
section
/-!
DEFINITION. Who issues, and the registers and counters a gang holds (spec/02_execution.md R21 to R32, spec/06_registers.md
R113 to R123, spec/17_counters.md R345 to R347). Vector register n of lane L lies at key 64 n + L.
-/

namespace Sys2Proof.Machine

/-- What one step gives. -/
abbrev Out := Host.Outcome State Fault Refusal

/-! ### Finding and changing parts of the state -/

def crew? (s : State) (c : Nat) : Option Crew := Tab.find? s.crews c
def modCrew (s : State) (c : Nat) (f : Crew → Crew) : State := { s with crews := Tab.upd s.crews c f }
def launch? (s : State) (l : Nat) : Option Launch := Tab.find? s.launches l
def modLaunch (s : State) (l : Nat) (f : Launch → Launch) : State := { s with launches := Tab.upd s.launches l f }
def core? (s : State) (c : Nat) : Option Core := Tab.find? s.cores c

def gang? (s : State) : GRef → Option Gang
  | .user c n => (crew? s c).bind (fun cr => Tab.find? cr.gangs n)
  | .sup c => (core? s c).bind (fun x => x.sup)

def modGang (s : State) (g : GRef) (f : Gang → Gang) : State :=
  match g with
  | .user c n => modCrew s c (fun cr => { cr with gangs := Tab.upd cr.gangs n f })
  | .sup c => modCore s c (fun x => { x with sup := x.sup.map f })

def crewIdOf : GRef → Option Nat
  | .user c _ => some c
  | .sup _ => none

def crewOf? (s : State) (g : GRef) : Option Crew := (crewIdOf g).bind (crew? s)
def launchOf? (s : State) (g : GRef) : Option Launch := (crewOf? s g).bind (fun cr => launch? s cr.launch)

/-- Is the crew a pair crew (R35)? -/
def isPair (s : State) (cr : Crew) : Bool := ((launch? s cr.launch).map (fun l => l.pair)).getD false

/-- The core a gang is resident on: of a pair crew, the odd core for odd gang numbers (R35). -/
def coreOf (s : State) : GRef → Nat
  | .sup c => c
  | .user c n =>
    match crew? s c with
    | some cr => if isPair s cr && n % 2 == 1 then cr.core + 1 else cr.core
    | none => 0

/-- The context a gang's addresses are translated in; the supervisor's is 0 (R408). -/
def ctxOf (s : State) (g : GRef) : Nat := ((launchOf? s g).map (fun l => l.ctx)).getD 0

/-- Die of a core (R11). -/
def dieOf (core : Nat) : Nat := core / 160

/-- The issuing quad group with its gang; `dead` holds lanes in which the instruction has no effect because an operand of
theirs was uncorrectable (R115, R199). -/
structure Iss where
  ref : GRef
  grp : Nat
  gang : Gang
  q : QGroup
  dead : Mask := 0#64
  deriving DecidableEq, Repr

def issuerOf? (s : State) (g : GRef) (k : Nat) : Option Iss :=
  (gang? s g).bind (fun x => (x.groups[k]?).map (fun q => ⟨g, k, x, q, 0#64⟩))

/-- The quad group that `State.cur` names. -/
def issuer? (s : State) : Option Iss := s.cur.bind (fun p => issuerOf? s p.1 p.2)

/-- Change one quad group. -/
def modGroup (s : State) (g : GRef) (k : Nat) (f : QGroup → QGroup) : State :=
  modGang s g (fun x => { x with groups := x.groups.modify k f })

/-! ### Lanes -/

/-- The lanes of a gang, at most 64 (R21). -/
def laneIds (g : Gang) : List Nat := List.range (min g.width 64)
/-- Launch-valid (R23). -/
def laneValid (g : Gang) (l : Nat) : Bool := decide (l < g.valid)
/-- The lowest quad of a group, which names it while groups split and merge. -/
def lowQuad (q : QGroup) : Nat := ((List.range 16).find? (fun k => q.quads.getLsbD k)).getD 0
def inGroup (q : QGroup) (l : Nat) : Bool := q.quads.getLsbD (l / 4)
def counterOf (g : Gang) (l : Nat) : Nat := (Tab.get 0#8 g.cnt l).toNat
/-- Active and of the issuing group (R29, R30). -/
def laneActive (g : Gang) (q : QGroup) (l : Nat) : Bool :=
  decide (l < g.width) && laneValid g l && inGroup q l && counterOf g l == 0

/-- A predicate as a lane reads it; p0 is true (R96, R113). -/
def rdP (g : Gang) (p l : Nat) : Bool := p == 0 || (Tab.get 0#16 g.pr l).getLsbD p
/-- Writes to p0 are ignored (R113). -/
def wrP (g : Gang) (p l : Nat) (x : Bool) : Gang :=
  if p = 0 then g else
    let w := Tab.get 0#16 g.pr l
    let m := BitVec.ofNat 16 (2 ^ p)
    { g with pr := Tab.set 0#16 g.pr l (if x then w ||| m else w &&& ~~~m) }

/-- The guard of R96. -/
def laneSel (g : Gang) (q : QGroup) (gd : Guard) (l : Nat) : Bool := laneActive g q l && (rdP g gd.p l != gd.neg)

def activeLanes (g : Gang) (q : QGroup) : List Nat := (laneIds g).filter (laneActive g q)
def selLanes (g : Gang) (q : QGroup) (gd : Guard) : List Nat := (laneIds g).filter (laneSel g q gd)
/-- The lanes an instruction with a guard is performed in. -/
def selOf (is : Iss) (gd : Guard) : List Nat := (selLanes is.gang is.q gd).filter (fun l => !is.dead.getLsbD l)
/-- Valid lanes of the group, active or parked. -/
def groupLanes (g : Gang) (q : QGroup) : List Nat := (laneIds g).filter (fun l => laneValid g l && inGroup q l)

/-- Bit L set for every lane listed. -/
def maskOf (ls : List Nat) : Nat := ls.foldl (fun m l => m ||| 2 ^ l) 0

/-- exm as the group reads it (R30). -/
def exmOf (g : Gang) (q : QGroup) : Nat := maskOf (activeLanes g q)

/-! ### Registers -/

def rdV (g : Gang) (n l : Nat) : Nat := (Tab.get 0#32 g.v (64 * n + l)).toNat
/-- Is a register held in the backing store (R114)? -/
def spilledReg (g : Gang) (n : Nat) : Bool := decide (g.vbound - g.vbase ≤ n)
/-- Write a lane's word. One of the backing store is on its way to its home slice from then on (R115; notes/assumptions/49), and what a
fetch found lost there is replaced. -/
def wrV (g : Gang) (n l x : Nat) : Gang :=
  { g with v := Tab.set 0#32 g.v (64 * n + l) (BitVec.ofNat 32 x)
           spilled := g.spilled.map (fun e => if e.1 = n then (e.1, e.2.map (fun m => m &&& ~~~(BitVec.ofNat 64 (2 ^ l)))) else e)
           unhomed := if spilledReg g n && !g.unhomed.contains (64 * n + l) then g.unhomed ++ [64 * n + l] else g.unhomed }
/-- A lane word or, for a pair, both halves, low word in the even register (R103). -/
def rdVw (g : Gang) (n l : Nat) (is64 : Bool) : Nat := if is64 then rdV g n l + 2 ^ 32 * rdV g (n + 1) l else rdV g n l
def wrVw (g : Gang) (n l : Nat) (is64 : Bool) (x : Nat) : Gang :=
  if is64 then wrV (wrV g n l x) (n + 1) l (x / 2 ^ 32) else wrV g n l x

def rdS (g : Gang) (n : Nat) : Nat := (Tab.get 0#64 g.s n).toNat
def wrS (g : Gang) (n x : Nat) : Gang := { g with s := Tab.set 0#64 g.s n (BitVec.ofNat 64 x) }
def rdC (g : Gang) (n : Nat) : Bool := g.c.getLsbD n
def wrC (g : Gang) (n : Nat) (x : Bool) : Gang :=
  let m := BitVec.ofNat 16 (2 ^ n)
  { g with c := if x then g.c ||| m else g.c &&& ~~~m }
def rdB (g : Gang) (n : Nat) : BitVec 128 := Tab.get 0#128 g.b n
def rdF (g : Gang) (n : Nat) : Nat := (Tab.get 0#32 g.f n).toNat
def wrF (g : Gang) (n x : Nat) : Gang := { g with f := Tab.set 0#32 g.f n (BitVec.ofNat 32 x) }

/-! ### Lost lines (R199) -/

/-- A write of one byte takes it off its lost line; the mark goes with the last byte. -/
def clearLost (t : Tab (BitVec 128)) (a : Nat) : Tab (BitVec 128) :=
  Tab.set 0#128 t (a / 128) (Tab.get 0#128 t (a / 128) &&& ~~~(BitVec.ofNat 128 (2 ^ (a % 128))))

def isLost (t : Tab (BitVec 128)) (a : Nat) : Bool := Tab.get 0#128 t (a / 128) != 0#128

/-- A line's mark added to those a table holds. -/
def joinLost (t : Tab (BitVec 128)) (line : Nat) (m : BitVec 128) : Tab (BitVec 128) :=
  Tab.set 0#128 t line (Tab.get 0#128 t line ||| m)

/-! ### Nesting counters -/

/-- Set one counter; a value past 255 is held at 255 and reported (R32). -/
def setCounter (g : Gang) (l v : Nat) : Gang × Bool :=
  ({ g with cnt := Tab.set 0#8 g.cnt l (BitVec.ofNat 8 (min v 255)) }, decide (v > 255))

/-- Set counters by a function of the lane and its counter; the lanes that overflow are listed (R32). -/
def setCounters (g : Gang) (ls : List Nat) (f : Nat → Nat → Nat) : Gang × List Nat :=
  ls.foldl (fun acc l =>
    let r := setCounter acc.1 l (f l (counterOf acc.1 l))
    (r.1, if r.2 then acc.2 ++ [l] else acc.2)) (g, [])

/-- A write to exm (R31): valid lanes of the group whose bit is 0 are parked one deeper. -/
def wrExm (g : Gang) (q : QGroup) (m : Nat) : Gang × List Nat :=
  setCounters g ((groupLanes g q).filter (fun l => !m.testBit l)) (fun _ c => c + 1)

/-- A write to a scalar destination (R153): class S, lr or exm. The lanes whose counter overflows are listed. -/
def wrScalar (g : Gang) (q : QGroup) (o : Opd) (x : Nat) : Gang × List Nat :=
  match o with
  | .s n => (wrS g n x, [])
  | .lr => ({ g with lr := BitVec.ofNat 64 x }, [])
  | .exm => wrExm g q x
  | _ => (g, [])

/-! ### Depths (R49) -/

def crewDepth (g : Gang) : Nat := g.entered.count true
def launchDepth (g : Gang) : Nat := g.entered.count false

/-! ### Completion and path counters -/

def rdK (g : Gang) (n : Nat) : Nat := Tab.get 0 g.k n
def raiseK (g : Gang) (n : Option Nat) : Gang :=
  match n with
  | some n => { g with k := Tab.set 0 g.k n (rdK g n + 1) }
  | none => g
def lowerK (g : Gang) (n : Option Nat) : Gang :=
  match n with
  | some n => { g with k := Tab.set 0 g.k n (rdK g n - 1) }
  | none => g

/-- A path counter counts the instructions in its list (R347). -/
def pathCount (g : Gang) (n : Nat) : Nat := (Tab.get [] g.paths n).length
def raisePath (g : Gang) (n op : Nat) : Gang := { g with paths := Tab.set [] g.paths n (Tab.get [] g.paths n ++ [(op, false)]) }
/-- Completed instructions leave from the front only (R347). -/
def lowerPath (g : Gang) (n op : Nat) : Gang :=
  let xs := (Tab.get [] g.paths n).map (fun p => if p.1 = op then (p.1, true) else p)
  { g with paths := Tab.set [] g.paths n (xs.dropWhile (fun p => p.2)) }

/-- The counter the next long-latency instruction of the clause raises (R98). -/
def clauseCounter (q : QGroup) : Option Nat :=
  match q.clause with
  | none => none
  | some c =>
    let f := if q.llc = 0 then c.seta else c.setb
    if f = 15 then none else some f

/-! ### Crew-scope state -/

/-- Mode code of a bank of a core (Table 6-8): 0 cache, 1 scratchpad, 2 FIFO. -/
def bankModeOf (x : Core) (b : Nat) : Nat := x.modes.toNat / 4 ^ b % 4

/-- The banks of a crew on the core of side 0 (even or only) or 1 (odd). -/
def banksOf (cr : Crew) (side : Nat) : Banks := if side = 1 then cr.banks1 else cr.banks0

/-- Side of a gang: 1 on the odd core of a pair (R35). -/
def sideOf (s : State) : GRef → Nat
  | .sup _ => 0
  | .user c n =>
    match crew? s c with
    | some cr => if isPair s cr && n % 2 == 1 then 1 else 0
    | none => 0

/-- Number of banks of a queue configuration word, and its first bank (Table 6-9). -/
def qcfgBanks (w : W32) : Nat × Nat := (w.toNat % 32, 2 ^ (w.toNat / 256 % 4))

/-- VALID of SY.QCFGn, as the mapping stands (R122). -/
def qcfgUsable (s : State) (g : GRef) (w : W32) : Bool :=
  match crewOf? s g, core? s (coreOf s g) with
  | some cr, some x =>
    let (b, n) := qcfgBanks w
    w.getLsbD 15 && b % n == 0 && decide (b + n ≤ 32)
      && (List.range n).all (fun i => (banksOf cr (sideOf s g)).all.getLsbD (b + i) && bankModeOf x (b + i) == 2)
  | _, _ => false

def qcfgOf (cr : Crew) (n : Nat) : W32 := Tab.get 0#32 cr.qcfg n

/-- Key of a FIFO bank group of a crew: its side and first bank. -/
def fifoKey (side bank : Nat) : Nat := side * 32 + bank

/-! ### Specials -/

/-- The specials of Table 5-4. Registers of crew scope read as 0 to the supervisor (R312). -/
def rdSpecial (s : State) (g : GRef) (x : Gang) (l : Nat) (sp : Special) : Nat :=
  match sp with
  | .laneid => l
  | .gangid => x.num
  | .gangw => x.width
  | .coreid => coreOf s g
  | .cycle => s.cycle.toNat
  | .pairside => sideOf s g
  | _ =>
    match crewOf? s g with
    | none => 0
    | some cr =>
      match launch? s cr.launch with
      | none => 0
      | some ln =>
        match sp with
        | .crewx => cr.index % ln.x
        | .crewy => cr.index / ln.x % ln.y
        | .crewz => cr.index / (ln.x * ln.y)
        | .crewlin => cr.index
        | .crewn => ln.gangs
        | .validn => ln.validN
        | .launchx => ln.x
        | .launchy => ln.y
        | .launchz => ln.z
        | _ => 0

/-- A token for a fresh free value; every call takes a new one (notes/assumptions/2). -/
def freshen (s : State) : State := { s with fresh := s.fresh + 1 }

end Sys2Proof.Machine
end

