-- ==== Sys2Proof/Machine/Operands.lean ====
section
/-!
DEFINITION. What an instruction can come to, and every operand form: reading sources of the operand space for a lane or
once for the gang, queue registers, and writing results (spec/05_encoding.md R100 to R103, spec/06_registers.md R122,
spec/08_integer.md R152, R153, spec/09_float.md R176).
-/

namespace Sys2Proof.Machine

/-- What an instruction comes to before the common end of an issue is applied (`conclude`). -/
inductive Res where
  /-- Its effect is in the state; the group goes on behind it. -/
  | done (s : State)
  /-- Its effect is in the state; the group goes on at an address. -/
  | jump (s : State) (pc : Nat)
  /-- Its effect is in the state, program counters included. -/
  | stay (s : State)
  /-- The group is not ready; the state may note what it waits for. -/
  | wait (s : State) (why : Stall)
  /-- The illegal-instruction trap. -/
  | trap (s : State) (c : Cause)
  /-- A trap of the instruction itself, by class and information word (Table 15-8). -/
  | request (s : State) (cls info : Nat)
  /-- Throws by lane and code, after what the state holds has taken effect. -/
  | throw (s : State) (ts : List (Nat × Nat))
  /-- Throws met at another address than the group's own (R137), or a rethrow (R65). -/
  | throwAt (s : State) (pc : Nat) (ts : List (Nat × Nat)) (re : Bool)

/-- Every active lane of the group throws a code. -/
def throwAll (s : State) (is : Iss) (code : Nat) : Res :=
  .throw s ((activeLanes is.gang is.q).map (fun l => (l, code)))

/-- A uniform or collective breach: every active lane throws; with none active there is no effect (R28, R238). -/
def throwAllOrNop (s : State) (is : Iss) (code : Nat) : Res :=
  if (activeLanes is.gang is.q).isEmpty then .done s else throwAll s is code

/-- An inline constant as a type reads it: in every packed element, converted for a floating-point type (R101). -/
def kWord (ty : Ety) (z : Int) : Nat :=
  let x := if etyFloat ty then (etySpec ty).round (FVal.ofInt z) else low z (etyBits ty)
  joinElems (etyBits ty) (List.replicate (etyCount ty) x)

/-- The immediate word in operand B's place (R95, R152, R176). -/
def immWord (ty : Ety) (w : W32) : Nat := if ty.is64 then low (sext w.toNat 32) 64 else w.toNat

/-- A 64-bit register read by a type: whole, or its low 32 bits (R101). -/
def narrow (ty : Ety) (x : Nat) : Nat := if ty.is64 then x else x % 2 ^ 32

/-- A source: the operand, the type it is read by, and the queue entry popped for it. -/
structure Src where
  o : Opd
  ty : Ety
  ent : Tab W32
  deriving DecidableEq, Repr

/-- The value a source gives lane `l`; a scalar form reads it as lane 0 would, since no admitted class differs by lane
(R102). A queue entry's word is 32 bits, zero-extended for a pair. -/
def rdSrc (s : State) (is : Iss) (x : Src) (l : Nat) : Nat :=
  match x.o with
  | .v n => rdVw is.gang n l x.ty.is64
  | .s n => narrow x.ty (rdS is.gang n)
  | .k z => kWord x.ty z
  | .x sp => narrow x.ty (rdSpecial s is.ref is.gang l sp)
  | .lr => narrow x.ty is.gang.lr.toNat
  | .exm => narrow x.ty (exmOf is.gang is.q)
  | .q _ => (Tab.get 0#32 x.ent l).toNat
  | .imm w => immWord x.ty w

/-- Zext(operand, 64) of a uniform operand of class S, K, X, L or E; a K constant is sign-extended first. -/
def rdU (s : State) (is : Iss) (o : Opd) : Nat := rdSrc s is ⟨o, .u64, []⟩ 0

/-! ### Queue registers (R122, R254, R275) -/

def qCfg (s : State) (g : GRef) (n : Nat) : W32 := ((crewOf? s g).map (fun cr => qcfgOf cr n)).getD 0#32
def qKey (s : State) (g : GRef) (n : Nat) : Nat := fifoKey (sideOf s g) (qcfgBanks (qCfg s g n)).1
def qFifo (s : State) (g : GRef) (n : Nat) : Fifo :=
  ((crewOf? s g).map (fun cr => Tab.get Fifo.empty cr.fifos (qKey s g n))).getD Fifo.empty
/-- Capacity of the group for gangs of width `w` (R254). -/
def qCap (s : State) (g : GRef) (n w : Nat) : Nat := (qcfgBanks (qCfg s g n)).2 * 16384 / (4 * w)

/-- 32-bit words of the ring of `nb` banks (R197, R254). -/
def ringWords (nb : Nat) : Nat := 4096 * nb

/-- The lanes of the oldest entry of a ring whose word lies on a lost line (R199). -/
def headBad (q : Fifo) (nb w : Nat) : Mask :=
  if q.lost.isEmpty then 0#64
  else BitVec.ofNat 64 (maskOf ((List.range w).filter (fun l => Tab.get 0#128 q.lost ((q.head + l) % ringWords nb / 32) != 0#128)))

/-- Words written into a ring from a place on: each takes its four bytes off the mark of its line (R199). -/
def ringWrite (lost : Tab (BitVec 128)) (nb at_ w : Nat) : Tab (BitVec 128) :=
  if lost.isEmpty then lost
  else (List.range (4 * w)).foldl (fun t i => clearLost t ((4 * at_ + i) % (4 * ringWords nb))) lost

/-- A FIFO bank group of a gang's crew changed; one with neither entries nor marks is as at placement. -/
def setFifo (s : State) (g : GRef) (n : Nat) (q : Fifo) : State :=
  match crewIdOf g with
  | none => s
  | some c => modCrew s c (fun cr =>
      { cr with fifos := Tab.set Fifo.empty cr.fifos (qKey s g n) (if q.entries.isEmpty && q.lost.isEmpty then Fifo.empty else q) })

/-- The width of the gangs that share a queue register: all of one launch. -/
def ringWidth (s : State) (g : GRef) : Nat := ((gang? s g).map (fun x => x.width)).getD 16

/-- The oldest entry leaves (R122). -/
def popped (s : State) (g : GRef) (n : Nat) (es : List FifoEnt) : State :=
  let q := qFifo s g n
  let nb := (qcfgBanks (qCfg s g n)).2
  setFifo s g n { q with nb := nb, entries := es, head := (q.head + ringWidth s g) % ringWords nb }

/-- An entry is added behind the others (R122). -/
def pushed (s : State) (g : GRef) (n : Nat) (e : FifoEnt) : State :=
  let q := qFifo s g n
  let nb := (qcfgBanks (qCfg s g n)).2
  let w := ringWidth s g
  setFifo s g n { q with nb := nb, entries := q.entries ++ [e], lost := ringWrite q.lost nb (q.head + w * q.entries.length) w }

/-- Pop the entries of the source positions in order, with the lanes of lost words; none when an entry is missing. -/
def popAll (s : State) (g : GRef) : List (Opd × Ety) → Option (State × List Src × Mask)
  | [] => some (s, [], 0#64)
  | (.q n, ty) :: xs =>
    match (qFifo s g n).entries with
    | [] => none
    | e :: es =>
      let bad := headBad (qFifo s g n) (qcfgBanks (qCfg s g n)).2 (ringWidth s g)
      (popAll (popped s g n es) g xs).map (fun r => (r.1, ⟨.q n, ty, e.words⟩ :: r.2.1, r.2.2 ||| bad))
  | (o, ty) :: xs => (popAll s g xs).map (fun r => (r.1, ⟨o, ty, []⟩ :: r.2.1, r.2.2))

/-- The queue registers an instruction names. -/
def queueNames (srcs : List (Opd × Ety)) (d : Opd) : List Nat := srcs.flatMap (fun x => x.1.qreg) ++ d.qreg

/-- Throws added to what an instruction comes to, at the instruction itself. -/
def addThrows (r : Res) (ts : List (Nat × Nat)) : Res :=
  if ts.isEmpty then r else
    match r with
    | .done s => .throw s ts
    | .jump s _ => .throw s ts
    | .stay s => .throw s ts
    | .throw s us => .throw s (us ++ ts)
    | .throwAt s pc us re => .throwAt s pc (us ++ ts) re
    | r => r

/-- Take lanes out of an instruction: it has no effect in them, and they throw uncorrectable data (R115, R199). A lane that is not
active throws nothing, an active one that the guard does not select throws too, and a lane that reads its register across lanes gets the
value: DESIGN CHOICE, notes/assumptions/58. -/
def withDead (is : Iss) (bad : Mask) (k : Iss → Res) : Res :=
  addThrows (k { is with dead := is.dead ||| bad })
    (((activeLanes is.gang is.q).filter (fun l => bad.getLsbD l)).map (fun l => (l, 0x800B)))

/-- Make the pops of an instruction and see that its push has room, then go on; an unusable mapping throws (with no active lane the
group goes on) and a missing entry or room leaves the group not ready (R122). Room is looked for behind the instruction's own pops, so
that one that pops and pushes a full group issues: DESIGN CHOICE, notes/assumptions/57. -/
def withQueues (s : State) (is : Iss) (srcs : List (Opd × Ety)) (d : Opd) (k : State → Iss → List Src → Res) : Res :=
  if (queueNames srcs d).all (fun n => qcfgUsable s is.ref (qCfg s is.ref n)) then
    match popAll s is.ref srcs with
    | none => .wait s .sync
    | some (s', xs, bad) =>
      if d.qreg.all (fun n => decide ((qFifo s' is.ref n).entries.length < qCap s' is.ref n is.gang.width)) then
        withDead is bad (fun is => k s' is xs)
      else .wait s .sync
  else throwAllOrNop s is 0x8007

/-! ### Results -/

/-- The 64 bits a scalar form writes (R153, R176). `.U32` zero-extends the 32-bit result whatever its source, so that MOV.U32 of a
negative inline constant into a 64-bit register does not sign-extend it (R162 reads otherwise): DESIGN CHOICE,
notes/assumptions/59. -/
def scalarResult (ty : Ety) (x : Nat) : Nat :=
  match ty with
  | .s64 | .u64 => x
  | .s32 => low (sext x 32) 64
  | _ => x % 2 ^ 32

/-- Write a scalar destination; a nesting overflow of an exm write is thrown once the write is done (R32). -/
def writeScalar (s : State) (is : Iss) (d : Opd) (x : Nat) : Res :=
  let s' := modGang s is.ref (fun g => (wrScalar g is.q d x).1)
  match (wrScalar is.gang is.q d x).2 with
  | [] => .done s'
  | ls => .throw s' (ls.map (fun l => (l, 0x8004)))

/-- Selected lanes written into a vector register, or their words pushed (R122, R152). -/
def landed (s : State) (is : Iss) (ls : List Nat) (d : Opd) (is64 : Bool) (f : Nat → Nat) : State :=
  match d with
  | .v n => modGang s is.ref (fun g => ls.foldl (fun g l => wrVw g n l is64 (f l)) g)
  | .q n =>
    pushed s is.ref n ⟨ls.foldl (fun t l => Tab.set 0#32 t l (BitVec.ofNat 32 (f l))) []⟩
  | _ => s

def writeLanes (s : State) (is : Iss) (ls : List Nat) (d : Opd) (is64 : Bool) (f : Nat → Nat) : Res :=
  .done (landed s is ls d is64 f)

/-- The common shape of majors 0x20 to 0x6F: a scalar form where D is of class S, L or E, and otherwise one result per
selected lane from the values of the sources in that lane (R152, R153, R176). -/
def laneOp (s : State) (is : Iss) (gd : Guard) (d : Opd) (ty : Ety) (srcs : List (Opd × Ety))
    (f : Nat → List Nat → Nat) : Res :=
  withQueues s is srcs d (fun s' is xs =>
    if d.isScalarDst then writeScalar s' is d (scalarResult ty (f 0 (xs.map (fun x => rdSrc s is x 0))))
    else writeLanes s' is (selOf is gd) d ty.is64 (fun l => f l (xs.map (fun x => rdSrc s is x l))))

def unOp (s : State) (is : Iss) (x : Un) (f : Nat → Nat) : Res :=
  laneOp s is x.g x.d x.ty [(x.a, x.ty)] (fun _ vs => match vs with | [a] => f a | _ => 0)

def binOp (s : State) (is : Iss) (x : Bin) (f : Nat → Nat → Nat) : Res :=
  laneOp s is x.g x.d x.ty [(x.a, x.ty), (x.b, x.ty)] (fun _ vs => match vs with | [a, b] => f a b | _ => 0)

def terOp (s : State) (is : Iss) (x : Ter) (f : Nat → Nat → Nat → Nat) : Res :=
  laneOp s is x.g x.d x.ty [(x.a, x.ty), (x.b, x.ty), (x.c, x.ty)]
    (fun _ vs => match vs with | [a, b, c] => f a b c | _ => 0)

/-- A result per selected lane into a predicate (R165, R167, R182, R183). -/
def predOp (s : State) (is : Iss) (gd : Guard) (p : Nat) (srcs : List (Opd × Ety)) (f : Nat → List Nat → Bool) : Res :=
  withQueues s is srcs .exm (fun s' is xs =>
    .done (modGang s' is.ref (fun g => (selOf is gd).foldl
      (fun g l => wrP g p l (f l (xs.map (fun x => rdSrc s is x l)))) g)))

/-- A result once for the gang into a condition bit (R165, R182). -/
def condOp (s : State) (is : Iss) (c : Nat) (ty : Ety) (a b : Opd) (f : Nat → Nat → Bool) : Res :=
  .done (modGang s is.ref (fun g => wrC g c (f (rdSrc s is ⟨a, ty, []⟩ 0) (rdSrc s is ⟨b, ty, []⟩ 0))))

end Sys2Proof.Machine
end

