-- ==== Sys2Proof/Config.lean ====
section
/-!
DEFINITION. What the spec leaves open and no register fixes: free values, one opaque constant each (notes/assumptions/).
Nothing in Lean can evaluate them, so a statement about them holds for every value they could have.
-/

namespace Sys2Proof.Config

/-- The bits that a pushed word has beside a narrower result, by cycle, pipe of the module and lane (R186): nothing fixes them. -/
opaque pushRest : Nat → Nat → Nat → W32

/-- Free values by number; the machine never uses one number twice (notes/assumptions/2). -/
opaque freeValue : Nat → W64

/-- What happens between two cycles, by cycle number of the model: outside parties, background steps, latencies
(notes/assumptions/1). -/
opaque happenings : Nat → List Instr

/-- The element an approximated function gives inside its bound: function by major opcode, type, argument (R184;
notes/assumptions/4). -/
opaque approx : Nat → Ety → W32 → W32

/-- The bytes of the fuse block that a module is given at manufacture (R386). -/
opaque fuse : Nat → Byte

/-- How steps 1 to 5 of the n-th start go: the step that fails with its code, if one does, and the cores, by die times 256 plus
physical number, that keep a failing row at step 2 (R385). -/
opaque startOutcome : Nat → Option (Nat × Nat) × List Nat

/-- How many spare rows an array of a core has, by array (R324, R387). -/
opaque spareRows : Nat → Nat

/-- Shadow words of rows and lanes that the service calls of Yarvex record, by free number (R387, R394). -/
opaque fieldWords : Nat → List W32

/-- The bytes of the firmware image in the module's flash (R390). -/
opaque flash : Nat → Byte

/-- What an accepted firmware payload holds: bytes of device memory, words of the register block by offset (Yarvex and the
initial tables), and the entry of the supervisor in units of 32 bytes (R391, R408). -/
opaque firmware : List (Nat × Byte) × List (Nat × Nat) × Nat

/-- The peer module at the other end of each Brilyn port whose link trains (R369, R385). -/
opaque peerModule : Nat → Option Nat

/-- How the traffic for a peer is spread over the links that end there, by line (R369). -/
opaque linkSpread : Nat → Nat

/-- Offsets in the device register block of registers that the spec names and gives no place (R123, R276). -/
opaque unplaced : Nat → Nat

end Sys2Proof.Config
end

