-- ==== Sys2Proof/Machine/Points.lean ====
section
/-!
DEFINITION. The points that hold bytes and the steps between them (spec/11_ordering.md R208 to R217; spec/10_memories.md
Table 10-2, R191 to R194, R199 to R204): core points, home points, level two and its zero
maps, system points, scratchpad banks, the spill path. Everything is byte by byte; wider
accesses are lists of bytes, least significant first (R3).
-/

namespace Sys2Proof.Machine

/-! ### The physical map, Table 10-2 -/

/-- What a physical address names. -/
inductive Region where
  | gddr | lpddr | regs | peer | host | reserved
  deriving DecidableEq, Repr

def regionOf (pa : Nat) : Region :=
  if pa < 0x1FF8000000 then .gddr
  else if 0x10000000000 ≤ pa ∧ pa < 0x20000000000 then .lpddr
  else if 0xFF0000000000 ≤ pa ∧ pa < 0x1000000000000 then .regs
  else if 0x4000000000000 ≤ pa ∧ pa < 0x5000000000000 then .peer
  else if 0x8000000000000 ≤ pa ∧ pa < 0x10000000000000 then .host
  else .reserved

/-- GDDR-7 and LPDDR-6. -/
def isDeviceMem (pa : Nat) : Bool := regionOf pa == .gddr || regionOf pa == .lpddr

/-- Does the home point hold the memory itself (R208)? Not for a block that the host owns, whose lines are held as host
lines are (R359). -/
def homeIsMem (s : State) (pa : Nat) : Bool := isDeviceMem pa && !s.hostOwned.contains (pa / 4096)

/-! ### The ways to host and peer memory (R356, R369) -/

/-- Peer module of a peer-window address. -/
def peerOf (pa : Nat) : Nat := (pa - 0x4000000000000) / 2 ^ 42

def portOf (s : State) (p : Nat) : Port := Tab.get ⟨false, 0#16, p⟩ s.ports p

/-- Lanes of a port: 18 is the CXL port. -/
def portLanes (p : Nat) : Nat := if p < 18 then 8 else 16

/-- Has step 5 of a start trained the link of a port (R369, Table 20-2)? -/
def trained (s : State) (p : Nat) : Bool := (Tab.find? s.ports p).isSome

def lmargOf (s : State) (p : Nat) : Lmarg := Tab.get Lmarg.reset s.lmarg p

/-- Does a Brilyn link carry traffic: it is up, and a lane is left besides the retired ones and the one that is scanned (R369, R395)? -/
def linkRuns (s : State) (p : Nat) : Bool :=
  trained s p && !(portOf s p).down
    && (List.range 8).any (fun i => !(portOf s p).retired.getLsbD i && (lmargOf s p).scan != some i)

/-- The links that end at module `m` and carry traffic (R369). -/
def linksTo (s : State) (m : Nat) : List Nat := (List.range 18).filter (fun p => linkRuns s p && (portOf s p).peer == m)

/-- The one of several links that carries a line: traffic is spread by line address, in a way the spec does not give (R369;
notes/assumptions/55). -/
def spreadOver (line : Nat) : List Nat → Option Nat
  | [] => none
  | [p] => some p
  | ps => ps[Config.linkSpread line % ps.length]?

/-- The port over which a line of module `m` is reached: a link that ends there, or one to the relay of the route table (R369). -/
def pathTo? (s : State) (m line : Nat) : Option Nat :=
  match spreadOver line (linksTo s m) with
  | some p => some p
  | none =>
    let r := (Tab.get 0#8 s.route m).toNat
    if r = 0xFF then none else spreadOver line (linksTo s r)

/-- Why a physical address beyond the device cannot be reached now, as Table 11-5 codes it: 3 without a path to the peer, 4 with the
host port down (R356, R369). -/
def wayDown (s : State) (pa : Nat) : Option Nat :=
  match regionOf pa with
  | .host => if s.hostPortDown then some 4 else none
  | .peer => if !s.spanid.getLsbD 8 || (pathTo? s (peerOf pa) (pa / 128)).isNone then some 3 else none
  | .gddr | .lpddr => if s.hostOwned.contains (pa / 4096) && s.hostPortDown then some 4 else none
  | _ => none

/-- One failure counted for a launch (R220, Table 13-5). -/
def failLaunch (s : State) (k cause : Nat) : State :=
  modLaunch s k (fun l => { l with fails := l.fails + 1, first := if l.fails = 0 then cause else l.first })

/-! ### Watches (R248) -/

/-- The groups of a gang that watch a line are to load their words again. -/
def fireGang (scr : Bool) (line : Nat) (woken : Bool) (x : Gang) : Gang :=
  { x with groups := x.groups.map (fun q =>
      { q with watch := q.watch.map (fun w =>
          if w.scr = scr ∧ w.line = line then { w with due := true, woken := w.woken || woken } else w) }) }

/-- The tail words of the enabled queues that lie in a line are read again (R257), each once. -/
def tailReads (s : State) (line : Nat) : List Turn :=
  (s.queues.filter (fun q => q.2.en && q.2.ctl / 128 == line && !s.agenda.contains (.event (.tailRead q.1)))).map
    (fun q => .event (.tailRead q.1))

/-- A write to a line at its point, or a WAKE, reaches every waiter on it, and the headframe that watches a tail word there. -/
def fireWatch (s : State) (line : Nat) (woken : Bool) : State :=
  { s with
    agenda := tailReads s line ++ s.agenda
    crews := Tab.mapVals (fun _ cr => { cr with gangs := Tab.mapVals (fun _ x => fireGang false line woken x) cr.gangs }) s.crews
    cores := Tab.mapVals (fun _ c => { c with sup := c.sup.map (fireGang false line woken) }) s.cores }

/-- The same for a line of a crew's scratchpad. -/
def fireScr (s : State) (c line : Nat) (woken : Bool) : State :=
  modCrew s c (fun cr => { cr with gangs := Tab.mapVals (fun _ x => fireGang true line woken x) cr.gangs })

/-! ### Home slices, channels and level two (R201 to R204) -/

/-- The home slice of a physical address (R201). -/
def homeSlice (pa : Nat) : Nat :=
  [bits pa 18 12, bits pa 25 19, bits pa 32 26, bits pa 39 33, bits pa 46 40, bits pa 51 47].foldl Nat.xor 0

/-- Die of the home slice of a physical address. -/
def homeDie (pa : Nat) : Nat := homeSlice pa / 32

/-- The GDDR-7 channel of its die on which a line is stored (R202). -/
def channelOf (pa : Nat) : Nat := homeSlice pa % 32 / 4

/-- The bytes of an aligned group of eight around an address: an aligned element moves whole (R209). -/
def blockOf (pa : Nat) : List Nat := (List.range 8).map (fun i => pa / 8 * 8 + i)

/-- The byte addresses of the line of an address. -/
def lineAddrs (pa : Nat) : List Nat := (List.range 128).map (fun i => pa / 128 * 128 + i)

/-- Does the zero map answer for a GDDR-7 line (R204)? -/
def mapZero (s : State) (line : Nat) : Bool := regionOf (128 * line) == .gddr && Tab.get true s.zmap line

/-- A fill of a line from its channel, counted on the die of its home slice: a set map bit gives a zero-flagged line and no
data is read (R204). -/
def fillCount (s : State) (line : Nat) : State :=
  match regionOf (128 * line) with
  | .gddr => countDie s (homeDie (128 * line)) (if mapZero s line then 0x884 else 0x882) 1
  | .lpddr => countDie s (homeDie (128 * line)) 0x886 1
  | _ => s

/-- Are all bytes of a line zero? -/
def lineZero (s : State) (line : Nat) : Bool := (s.mem.readN (128 * line) 128).all (fun b => b == 0#8)

/-- Level two writes a line back: a dirty line that is all zero sets its map bit and no data goes out, any other clears it and is
written (R204). The line stays, clean, zero-flagged where it is all zero (R203). -/
def l2WriteBack (s : State) (line : Nat) : State :=
  match Tab.find? s.l2 line with
  | some ⟨true, z⟩ =>
    let zero := z || lineZero s line
    let s := { s with l2 := Tab.put s.l2 line ⟨false, zero⟩ }
    let d := homeDie (128 * line)
    match regionOf (128 * line) with
    | .gddr => countDie { s with zmap := Tab.set true s.zmap line zero } d (if zero then 0x885 else 0x883) 1
    | _ => countDie s d 0x887 1
  | _ => s

/-- A line leaves level two. -/
def l2Evict (s : State) (line : Nat) : State :=
  let s := l2WriteBack s line
  { s with l2 := Tab.erase s.l2 line }

/-- The numbers of the lines that hold bytes of a sorted table. -/
def tabLines {α : Type} (t : Tab α) : List Nat :=
  t.foldl (fun ls p => match ls with
    | l :: _ => if l = p.1 / 128 then ls else p.1 / 128 :: ls
    | [] => [p.1 / 128]) []

/-- Lines that a level-two slice of 2 MiB holds (Table 10-1). -/
def sliceLines : Nat := 16384

/-! ### Lines of host and peer memory at a slice (R206, R214, R220) -/

/-- Bytes over the host port or the Brilyn links as the counters 0x900 to 0x903 see them, those of the data and those of what goes the other
way for it: how many a transfer takes is free (notes/assumptions/24). -/
def countWire (s : State) (n : Nat) (out : Bool) : State :=
  let k := (Config.freeValue s.fresh).toNat
  freshen (countDev (countDev s (n + b2n out) (128 + k % 4096)) (n + b2n (!out)) (k / 4096 % 4096))

/-- The same for a line of host or peer memory, or of a block that the host owns. -/
def countPort (s : State) (pa : Nat) (out : Bool) : State :=
  match regionOf pa with
  | .peer => countWire s 0x902 out
  | .host => countWire s 0x900 out
  | .gddr | .lpddr => if homeIsMem s pa then s else countWire s 0x900 out
  | _ => s

/-- The launch whose store a byte holds is noted, for the failure of its write-back; other writers leave none (R220). -/
def setStorer (s : State) (k : Option Nat) (pa n : Nat) : State :=
  { s with storers := (List.range n).foldl (fun t i => match k with
      | some l => Tab.put t (pa + i) l
      | none => Tab.erase t (pa + i)) s.storers }

/-- Is a line held whole at its slice with all of its bytes zero (R203)? -/
def farZero (s : State) (line : Nat) : Bool :=
  (lineAddrs (128 * line)).all (fun a => ((Tab.find? s.hcopy a).map (fun c => c.val == 0#8)).getD false)

/-- A far line's zero flag set or cleared. -/
def setZeroFar (s : State) (line : Nat) (on : Bool) : State :=
  let others := s.zeroFar.filter (fun l => l != line)
  { s with zeroFar := if on then others ++ [line] else others }

/-- A byte that is not zero gives a far line its data, so that its zero flag goes (R203). -/
def unflagFar (s : State) (pa : Nat) (b : Byte) : State :=
  if b != 0#8 && s.zeroFar.contains (pa / 128) then setZeroFar s (pa / 128) false else s

/-- Put a byte of host or peer memory, or of a block that the host owns, at Y(x); a copy at H(x) takes it as clean (R212). Such a block
lies behind its channel's zero map too (R204, R359). The mark of a lost line stays: it travels on with a write-back (R199). -/
def farPut (s : State) (pa : Nat) (b : Byte) : State :=
  let s := unflagFar { s with mem := s.mem.write pa b } pa b
  let s := if regionOf pa = .gddr then { s with zmap := Tab.set true s.zmap (pa / 128) (lineZero s (pa / 128)) } else s
  fireWatch { s with hcopy := Tab.upd s.hcopy pa (fun _ => ⟨b, false, false⟩) } (pa / 128) false

/-- A store's byte at Y(x), which takes the byte off its lost line (R199). -/
def farWrite (s : State) (pa : Nat) (b : Byte) : State := farPut { s with lost := clearLost s.lost pa } pa b

/-- Does a dirty byte move in one step with the byte before it (R209)? -/
def joined (f : Nat → Option Copied) (a : Nat) : Bool :=
  a % 8 != 0 && ((f a).map (fun c => c.dirty && c.tied)).getD false && ((f (a - 1)).map (fun c => c.dirty)).getD false

/-- The bytes that one step writes back with a dirty byte: those of the elements that its own element overlaps (R209, R214). -/
def runOf (f : Nat → Option Copied) (pa : Nat) : List Nat :=
  (blockOf pa).filter (fun a => (blockOf pa).all (fun k => decide (k ≤ min a pa) || decide (max a pa < k) || joined f k))

/-- Write a dirty host or peer copy back from H(x) to Y(x), if the byte has one, with the bytes that move with it (R209, R214). A line that
is zero throughout is zero-flagged from then on (R203). -/
def homeWriteBack (s : State) (pa : Nat) : State :=
  match Tab.find? s.hcopy pa with
  | some ⟨_, true, _⟩ =>
    let s := (runOf (Tab.find? s.hcopy) pa).foldl (fun s a =>
      match Tab.find? s.hcopy a with
      | some ⟨b, true, _⟩ => farPut s a b
      | _ => s) (countPort s pa true)
    if farZero s (pa / 128) then setZeroFar s (pa / 128) true else s
  | _ => s

/-- A far line leaves its slice without its copies. -/
def farDrop (s : State) (line : Nat) : State :=
  setZeroFar { s with hcopy := s.hcopy.filter (fun p => p.1 / 128 != line) } line false

/-- The dirty bytes of a far line cannot reach Y(x): they are lost, with one failure for each launch whose stores they hold (R217, R220,
R234). -/
def farLost (s : State) (line cause : Nat) : State :=
  let mine := s.hcopy.filter (fun p => p.1 / 128 == line && p.2.dirty)
  ((mine.filterMap (fun p => Tab.find? s.storers p.1)).eraseDups).foldl (fun s k => failLaunch s k cause) (farDrop s line)

/-- The dirty bytes of a far line go to Y(x), or are lost where there is no way (R217, R220). -/
def farSettle (s : State) (line : Nat) : State :=
  match wayDown s (128 * line) with
  | some c => farLost s line c
  | none => (lineAddrs (128 * line)).foldl homeWriteBack s

/-- Does a far line hold dirty bytes? -/
def farDirty (s : State) (line : Nat) : Bool := s.hcopy.any (fun p => p.1 / 128 == line && p.2.dirty)

/-- A far line is evicted from its slice, its dirty bytes written back first. -/
def farEvict (s : State) (line : Nat) : State := farDrop (if farDirty s line then farSettle s line else s) line

/-- Room at its slice for a line: where it is not held and the slice is full, a line of the slice, which nothing fixes, is evicted
(R14, R191, R201). -/
def homeRoom (s : State) (line : Nat) : State :=
  if s.l2.length + s.hcopy.length < sliceLines then s
  else
    let same := fun (l : Nat) => homeSlice (128 * l) == homeSlice (128 * line)
    let own := (s.l2.map (fun p => p.1)).filter same
    let out := own ++ ((tabLines s.hcopy).filter same).filter (fun l => !own.contains l)
    if out.contains line || decide (out.length < sliceLines) then s
    else
      match out[(Config.freeValue s.fresh).toNat % out.length]? with
      | some l => farEvict (l2Evict (freshen s) l) l
      | none => s

/-- A line of device memory is held at its slice: filled from its channel if it is not there (R203, R204). -/
def l2Fill (s : State) (line : Nat) : State :=
  if (Tab.find? s.l2 line).isSome then s
  else
    let s := fillCount (homeRoom s line) line
    { s with l2 := Tab.put s.l2 line ⟨false, mapZero s line⟩ }

/-- A write to a line at its slice: dirty, and its zero flag cleared (R203). -/
def l2Dirty (s : State) (line : Nat) : State :=
  match Tab.find? s.l2 line with
  | some ⟨true, false⟩ => s
  | some _ => { s with l2 := Tab.put s.l2 line ⟨true, false⟩ }
  | none =>
    let s := homeRoom s line
    { s with l2 := Tab.put s.l2 line ⟨true, false⟩ }

/-- A line that has been zeroed whole is held as a zero-flagged tag (R203). -/
def l2Zero (s : State) (line : Nat) : State :=
  let s := homeRoom s line
  { s with l2 := Tab.put s.l2 line ⟨true, true⟩ }

/-! ### One byte at a point -/

/-- The byte at H(x); a host or peer byte with no copy there reads as at Y(x), from where it is fetched (R213). -/
def homeRead (s : State) (pa : Nat) : Byte :=
  if homeIsMem s pa then s.mem.read pa else ((Tab.find? s.hcopy pa).map (fun c => c.val)).getD (s.mem.read pa)

/-- A byte comes to H(x): a device line into its slice, of a host or peer line clean copies of the bytes of a list, if the byte has none
(R213, R214). -/
def homeFill (s : State) (pa : Nat) (as : List Nat) : State :=
  if homeIsMem s pa then l2Fill s (pa / 128)
  else if (Tab.find? s.hcopy pa).isSome then s
  else
    let s := countPort (homeRoom s (pa / 128)) pa false
    { s with hcopy := as.foldl (fun t a =>
        match Tab.find? t a with
        | some ⟨_, true, _⟩ => t
        | _ => Tab.put t a ⟨s.mem.read a, false, false⟩) s.hcopy }

/-- The aligned group of a byte comes to H(x) (R209, R213). -/
def homeFetch (s : State) (pa : Nat) : State := homeFill s pa (blockOf pa)

/-- A device write to a line that the host directory records is made after the snoop that drops the host's copy (R358); dirty
data that the host has comes as BACK_INVALIDATE_RESPONSE before it. -/
def dropHostCopy (s : State) (pa : Nat) : State :=
  if s.hostDir.contains (pa / 128) then { s with hostDir := s.hostDir.filter (fun l => l != pa / 128) } else s

/-- Is the byte that a copy replaces tied to the byte before it? What replaces it moves with that byte too (R209). -/
def stillTied (c : Option Copied) : Bool := (c.map (fun c => c.dirty && c.tied)).getD false

/-- Write a byte at H(x): memory itself, or a dirty copy of a host or peer byte, `tied` to the byte before it or not. The line takes its
place in its slice, and loses its zero flag (R203). -/
def homePut (s : State) (pa : Nat) (b : Byte) (tied : Bool) : State :=
  let s := dropHostCopy { s with lost := clearLost s.lost pa } pa
  fireWatch
    (if homeIsMem s pa then
      let s := l2Dirty s (pa / 128)
      { s with mem := s.mem.write pa b }
     else
      let s := setZeroFar (homeRoom s (pa / 128)) (pa / 128) false
      { s with hcopy := Tab.put s.hcopy pa ⟨b, true, tied || stillTied (Tab.find? s.hcopy pa)⟩ })
    (pa / 128) false

/-- A byte by itself. -/
def homeWrite (s : State) (pa : Nat) (b : Byte) : State := homePut s pa b false

/-- Write a byte at Y(x) (R212). For device memory Y(x) is H(x) (R208). -/
def sysWrite (s : State) (pa : Nat) (b : Byte) : State := if homeIsMem s pa then homeWrite s pa b else farWrite s pa b

/-- Every dirty host or peer copy at the home points, written back (R217). -/
def homeWriteBackAll (s : State) : State := s.hcopy.foldl (fun s p => if p.2.dirty then homeWriteBack s p.1 else s) s

/-! ### Accesses of a core to level two (Table 17-7) -/

/-- An access of any agent reaches level two: a hit or a miss of its line at the home slice's die (0x880, 0x881). -/
def countSlice (s : State) (pa : Nat) : State :=
  let held := if homeIsMem s pa then (Tab.find? s.l2 (pa / 128)).isSome else (Tab.find? s.hcopy pa).isSome
  countDie s (homeDie pa) (if held then 0x880 else 0x881) 1

/-- One of a core: with bytes on the viaduct where the core lies on another die (0x888; how many is free). -/
def countHome (s : State) (c pa : Nat) : State :=
  let d := homeDie pa
  let s := countSlice s pa
  if dieOf c = d then s
  else
    let n := 32 + (Config.freeValue s.fresh).toNat % 4096
    freshen (countDie (countDie s d 0x888 n) (dieOf c) 0x888 n)

/-! ### Core points -/

/-- A copy at a core point, and the mark of a lost line there. -/
def coreCopy? (s : State) (c pa : Nat) : Option Copied := (core? s c).bind (fun x => Tab.find? x.cp pa)
def coreMark (s : State) (c pa : Nat) : BitVec 128 := ((core? s c).map (fun x => Tab.get 0#128 x.lostCp (pa / 128))).getD 0#128

/-- One dirty byte of a core point goes to H(x). Its copy is left clean, or gone where its line is lost. -/
def coreByteHome (s : State) (c : Nat) (keep : Bool) (a : Nat) : State :=
  match coreCopy? s c a with
  | some ⟨b, true, t⟩ =>
    homePut (modCore s c (fun x => { x with cp := if keep then Tab.put x.cp a ⟨b, false, false⟩ else Tab.erase x.cp a })) a b t
  | _ => s

/-- Write a dirty byte of a core point back to H(x) with the bytes that move with it (R209, R214). A lost line takes its mark
along, and no copy of it stays (R199). -/
def coreWriteBack (s : State) (c pa : Nat) : State :=
  match coreCopy? s c pa with
  | some ⟨_, true, _⟩ =>
    let m := coreMark s c pa
    let s := (runOf (coreCopy? s c) pa).foldl (fun s a => coreByteHome s c (m == 0#128) a) s
    if m = 0#128 then s
    else
      modCore { s with lost := joinLost s.lost (pa / 128) m } c (fun x =>
        if x.cp.any (fun p => p.1 / 128 == pa / 128 && p.2.dirty) then x
        else { x with lostCp := Tab.erase x.lostCp (pa / 128), cp := x.cp.filter (fun p => p.1 / 128 != pa / 128) })
  | _ => s

/-- The lines a core's cache-mode banks hold: 128 lines of each bank (R191, R193). -/
def cacheLines (x : Core) : Nat := 128 * ((List.range 32).filter (fun b => bankModeOf x b == 0)).length

/-- Is a byte of a line dirty at a core point? -/
def coreDirtyLine (s : State) (c line : Nat) : Bool :=
  ((core? s c).map (fun x => x.cp.any (fun p => p.1 / 128 == line && p.2.dirty))).getD false

/-- Every dirty byte of a line of a core point goes to H(x), as one access of the core to level two. -/
def coreLineHome (s : State) (c line : Nat) : State :=
  if coreDirtyLine s c line then (lineAddrs (128 * line)).foldl (fun s a => coreWriteBack s c a) (countHome s c (128 * line)) else s

/-- A line leaves a core point, written back first. -/
def coreEvict (s : State) (c line : Nat) : State :=
  let s := coreLineHome s c line
  modCore s c (fun x => { x with cp := x.cp.filter (fun p => p.1 / 128 != line) })

/-- Room at a core point for a line it does not hold: where its banks are full, a line that nothing fixes is evicted. -/
def coreRoom (s : State) (c pa : Nat) : State :=
  match core? s c with
  | none => s
  | some x =>
    if x.cp.length < cacheLines x || x.cp.any (fun p => p.1 / 128 == pa / 128) then s
    else
      let ls := tabLines x.cp
      if ls.length < cacheLines x then s
      else
        match ls[(Config.freeValue s.fresh).toNat % ls.length]? with
        | some l => coreEvict (freshen s) c l
        | none => s

/-- Clean copies of some bytes of a line into a core point from H(x); dirty bytes stay (R213, R214). A line that is lost at H is not
copied: its bytes are read there (R199). -/
def coreFill (s : State) (c pa : Nat) (as : List Nat) : State :=
  if isLost s.lost pa then s
  else
    let s := coreRoom s c pa
    modCore s c (fun x => { x with cp := as.foldl (fun t a =>
      match Tab.find? t a with
      | some ⟨_, true, _⟩ => t
      | _ => Tab.put t a ⟨homeRead s a, false, false⟩) x.cp })

/-- The aligned group of a byte into a core point (R209, R213). -/
def coreFetch (s : State) (c pa : Nat) : State := coreFill s c pa (blockOf pa)

/-- A dirty byte into a core point, `tied` to the byte before it or not. The first byte of a line that is lost at H brings the mark along
(R199). -/
def coreDirty (s : State) (c pa : Nat) (b : Byte) (tied : Bool) : State :=
  let s := coreRoom s c pa
  modCore s c (fun x =>
    let t := if isLost s.lost pa && !x.cp.any (fun p => p.1 / 128 == pa / 128)
      then joinLost x.lostCp (pa / 128) (Tab.get 0#128 s.lost (pa / 128)) else x.lostCp
    { x with cp := Tab.put x.cp pa ⟨b, true, tied || stillTied (Tab.find? x.cp pa)⟩, lostCp := clearLost t pa })

/-- Every clean copy of a core point, discarded (R217). -/
def coreDiscardClean (s : State) (c : Nat) : State :=
  modCore s c (fun x => { x with cp := x.cp.filter (fun p => p.2.dirty) })

/-- Every clean copy of a peer line at every home point, discarded (R217). -/
def peerDiscardClean (s : State) : State :=
  let s := { s with hcopy := s.hcopy.filter (fun p => p.2.dirty || regionOf p.1 != Region.peer) }
  { s with zeroFar := s.zeroFar.filter (farZero s) }

/-! ### Reading and writing at the point of a scope -/

/-- Where an access of a scope is carried out (Table 11-1). -/
inductive Point where
  | core | home | sys
  deriving DecidableEq, Repr

/-- Is the gang of a pair crew? -/
def gangPair (s : State) (g : GRef) : Bool := ((crewOf? s g).map (isPair s)).getD false

def pointOf (pair : Bool) : Scope → Point
  | .gang | .crew => if pair then .home else .core
  | .dev => .home
  | .sys => .sys

/-- The point an access is really made at: a core with no bank in cache mode has no core point (R193). -/
def atPoint (s : State) (c : Nat) (p : Point) : Point :=
  match p with
  | .core => if ((core? s c).map (fun x => (List.range 32).any (fun b => bankModeOf x b == 0))).getD false then .core else .home
  | p => p

/-- Read one byte at a point for core `c`: the state after the fetches and write-backs R213 asks for, and the byte. -/
def readAt (s : State) (c : Nat) (p : Point) (pa : Nat) : State × Byte :=
  match atPoint s c p with
  | .core =>
    match coreCopy? s c pa with
    | some v => (s, v.val)
    | none =>
      let s := homeFetch s pa
      (coreFetch s c pa, homeRead s pa)
  | .home =>
    let s := homeFetch (coreWriteBack s c pa) pa
    (s, homeRead s pa)
  | .sys =>
    let s := homeWriteBack (coreWriteBack s c pa) pa
    (if homeIsMem s pa then l2Fill s (pa / 128) else countPort s pa false, s.mem.read pa)

/-- The copy of a byte at a core point, if any, takes a value as clean (R212). -/
def coreClean (s : State) (c pa : Nat) (b : Byte) : State :=
  modCore s c (fun x => { x with cp := Tab.upd x.cp pa (fun _ => ⟨b, false, false⟩), lostCp := clearLost x.lostCp pa })

/-- Write one byte at a point for core `c` (R212), `tied` to the byte before it or not. -/
def writeAt (s : State) (c : Nat) (p : Point) (pa : Nat) (b : Byte) (tied : Bool) : State :=
  match atPoint s c p with
  | .core => coreDirty s c pa b tied
  | .home => coreClean (homePut (coreWriteBack s c pa) pa b tied) c pa b
  | .sys => coreClean (sysWrite (homeWriteBack (coreWriteBack s c pa) pa) pa b) c pa b

/-- Before bytes of an element are read: where one of them has no copy at the point, the group is fetched anew there, so that no read mixes
copies of different ages (R209, R213). -/
def gather (s : State) (c : Nat) (p : Point) (as : List Nat) : State :=
  let far := fun (s : State) =>
    match as.find? (fun a => (Tab.find? s.hcopy a).isNone) with
    | some a => if homeIsMem s a then s else homeFetch s a
    | none => s
  match atPoint s c p with
  | .core =>
    match as.find? (fun a => (coreCopy? s c a).isNone) with
    | some a => coreFetch (homeFetch (far s) a) c a
    | none => s
  | .home => far s
  | .sys => s

/-- Does an element of `n` bytes move whole: 1, 2, 4 or 8 bytes, naturally aligned (R209)? -/
def wholeElem (pa n : Nat) : Bool := decide (n ≤ 8) && pa % n == 0

/-- Write consecutive bytes at a point, those of one element tied together (R209). -/
def writeAtN (s : State) (c : Nat) (p : Point) (pa : Nat) (bs : List Byte) : State :=
  (bs.zipIdx).foldl (fun s b => writeAt s c p (pa + b.2) b.1 (wholeElem pa bs.length && b.2 != 0)) s

/-- Consecutive bytes written at home points. -/
def homeWriteN (s : State) (pa : Nat) (bs : List Byte) : State :=
  (bs.zipIdx).foldl (fun s p => homeWrite s (pa + p.2) p.1) s

/-- Does an uncorrectable error meet a read of the byte at the point (R199)? A line that is lost at the core point is lost to
every read of the core; one lost at H, to every read that no good copy at the core point answers. -/
def lostAt (s : State) (c : Nat) (p : Point) (pa : Nat) : Bool :=
  coreMark s c pa != 0#128
    || (isLost s.lost pa && !(atPoint s c p == .core && (coreCopy? s c pa).isSome))

/-! ### Line counters (Table 17-7) -/

/-- An access of an element at a point, as the hit and miss counters see it: 0x80C and 0x80D at the core point. -/
def countAccess (s : State) (c : Nat) (p : Point) (pa : Nat) : State :=
  match atPoint s c p with
  | .core => if (coreCopy? s c pa).isSome then countCore s c 0x80C 1 else countHome (countCore s c 0x80D 1) c pa
  | _ => countHome s c pa

/-! ### The spill path (R114, R115) -/

/-- Physical address of an element of the backing store: register and lane by the key 64 n + L. -/
def spillAddr (x : Gang) (key : Nat) : Nat := x.spill + key / 64 * x.width * 4 + 4 * (key % 64)

/-- Lines that a core moves on its spill path: counted (0x80E), each an access of its cache-mode banks, or without any of level two. -/
def countSpill (s : State) (c : Nat) (lines : List Nat) : State :=
  lines.foldl (fun s l => countAccess (countCore s c 0x80E 1) c .core (128 * l)) s

/-- Write those unhomed elements of a gang that a test picks: into the core's banks in cache mode where the core has any, and otherwise to
their level-two home slices (R115). -/
def spillHome (s : State) (g : GRef) (p : Nat → Bool) : State :=
  match gang? s g with
  | none => s
  | some x =>
    if x.unhomed.isEmpty then s
    else
      let ks := x.unhomed.filter (fun k => p (spillAddr x k))
      let s := modGang s g (fun x => { x with unhomed := x.unhomed.filter (fun k => !p (spillAddr x k)) })
      let c := coreOf s g
      let s := countSpill s c ((ks.map (fun k => spillAddr x k / 128)).eraseDups)
      ks.foldl (fun s k => writeAtN s c .core (spillAddr x k) (toLE 4 (Tab.get 0#32 x.v k).toNat)) s

/-- Four bytes of the backing store as a core reads them on its spill path (R115). -/
def spillWord (s : State) (c a : Nat) : State × W32 :=
  let r := (List.range 4).foldl (fun (acc : State × List Byte) i =>
    let t := readAt acc.1 c .core (a + i)
    (t.1, acc.2 ++ [t.2])) (gather s c .core ((List.range 4).map (fun i => a + i)), [])
  (r.1, BitVec.ofNat 32 (leNat r.2))

/-- The user gangs bound to a core. -/
def gangsOn (s : State) (c : Nat) : List GRef :=
  s.crews.flatMap (fun p => if p.2.phase = .resident
    then (p.2.gangs.map (fun q => GRef.user p.1 q.1)).filter (fun g => coreOf s g == c) else [])

/-- Spilled elements on a core's spill path go where R115 has them go. -/
def spillsHome (s : State) (c : Nat) (p : Nat → Bool) : State := (gangsOn s c).foldl (fun s g => spillHome s g p) s

/-- Every dirty copy of a core point, written back (R217), with what lies on its spill path. -/
def coreWriteBackAll (s : State) (c : Nat) : State :=
  match core? s c with
  | none => s
  | some x =>
    let s := (tabLines x.cp).foldl (fun s l => coreLineHome s c l) (spillsHome s c (fun _ => true))
    modCore s c (fun x => { x with lostCp := [] })

/-! ### Scratchpad (R194, R197) -/

/-- Size of a crew's allocation in bytes; the supervisor has none (R408). -/
def scrSize (s : State) (g : GRef) : Nat := ((launchOf? s g).map (fun l => l.spb * 16384)).getD 0

/-- The numbers of the set bits of a bank mask, ascending. -/
def bankList (m : BitVec 32) : List Nat := (List.range 32).filter (fun b => m.getLsbD b)

/-- The core and bank a scratchpad offset lies in (R194). -/
def scrBank (s : State) (cr : Crew) (off : Nat) : Option (Nat × Nat) :=
  let half := (((launch? s cr.launch).map (fun l => l.spb * 16384)).getD 0) / 2
  let (side, o) := if isPair s cr && decide (half ≤ off) then (1, off - half) else (0, off)
  let bs := bankList (banksOf cr side).scr
  (bs[(o / 128) % bs.length]?).map (fun b => (cr.core + side, b))

/-- Is the bank of an offset in scratchpad mode (R197)? -/
def scrMode (s : State) (cr : Crew) (off : Nat) : Bool :=
  match scrBank s cr off with
  | some (c, b) => ((core? s c).map (fun x => bankModeOf x b == 1)).getD false
  | none => false

def scrRead (cr : Crew) (off n : Nat) : List Byte := cr.scr.readN off n

/-- Write bytes at the bank; a write to a watched line reaches its waiters. -/
def scrWrite (s : State) (c off : Nat) (bs : List Byte) : State :=
  let s := modCrew s c (fun cr => { cr with
    scr := cr.scr.writeN off bs
    lostScr := (List.range bs.length).foldl (fun t i => clearLost t (off + i)) cr.lostScr })
  let s := fireScr s c (off / 128) false
  if (off + bs.length - 1) / 128 = off / 128 then s else fireScr s c ((off + bs.length - 1) / 128) false

end Sys2Proof.Machine
end

