-- ==== Sys2Proof/Machine/Race.lean ====
section
/-!
DEFINITION. The trace ring (spec/13_queues.md R276) and the race report of debug launches (spec/20_bringup.md R397 to R399).
-/

namespace Sys2Proof.Machine

/-- One record into the trace ring: written whole, or dropped whole when the ring has no room, with the drop count raised and
reported (R276, R355; class 9 of Table 16-6). -/
def traceRecord (s : State) (ws : List Nat) : State :=
  let n := 8 * ws.length
  if s.trace.written + n ≤ s.trace.taken + s.trace.size then
    let s' := (ws.flatMap (toLE 8)).zipIdx.foldl
      (fun s p =>
        let a := s.trace.base + (s.trace.written + p.2) % s.trace.size
        homeWrite (setStorer s none a 1) a p.1) s
    { s' with trace := { s'.trace with written := s'.trace.written + n } }
  else
    let d := s.trace.drops + 1
    raiseEvent { s with trace := { s.trace with drops := d } } 9 d

/-- A stop offset (R62). -/
def stopOffset (code pc : Nat) : Nat :=
  if code ≤ pc ∧ (pc - code) / 4 < 2 ^ 32 then (pc - code) / 4 else 0xFFFFFFFF

/-! ### Clocks (R398) -/

/-- The greater of two clocks, entry by entry. -/
def clockMax (a b : Tab Nat) : Tab Nat := b.foldl (fun t p => Tab.set 0 t p.1 (max (Tab.get 0 t p.1) p.2)) a

/-- Is the crew stamped: of a debug launch of at most 64 crews (R397)? -/
def stamped (s : State) (c : Nat) : Option (Crew × Launch) :=
  match crew? s c with
  | some cr =>
    match launch? s cr.launch with
    | some l => if l.debug && decide (l.x * l.y * l.z ≤ 64) then some (cr, l) else none
    | none => none
  | none => none

/-- Key of a line's clock and accesses: clocks count the crews of one launch. -/
def raceKey (launch pa : Nat) : Nat := launch * 2 ^ 45 + pa / 128

def raceRelease (s : State) (c : Nat) : State :=
  match stamped s c with
  | none => s
  | some (cr, _) =>
    modCrew s c (fun x => { x with race :=
      { x.race with r := x.race.v, v := Tab.set 0 x.race.v cr.index (Tab.get 0 x.race.v cr.index + 1) } })

def raceAcquire (s : State) (c : Nat) : State :=
  match stamped s c with
  | none => s
  | some _ => modCrew s c (fun x => { x with race := { x.race with v := clockMax x.race.v x.race.p } })

/-- A grant of a tile: V takes the clocks of its lines (R398). -/
def raceGrant (s : State) (c tile : Nat) : State :=
  match stamped s c with
  | none => s
  | some (cr, _) =>
    [256 * tile, 256 * tile + 128].foldl (fun s pa =>
      modCrew s c (fun x => { x with race :=
        { x.race with v := clockMax x.race.v (Tab.get [] s.lineClock (raceKey cr.launch pa)) } })) s

/-- OTEND: after the release each W tile's line clocks take R (R398). -/
def raceTile (s : State) (c tile : Nat) : State :=
  match stamped s c with
  | none => s
  | some (cr, _) =>
    [256 * tile, 256 * tile + 128].foldl (fun s pa =>
      let k := raceKey cr.launch pa
      { s with lineClock := Tab.set [] s.lineClock k (clockMax (Tab.get [] s.lineClock k) cr.race.r) }) s

/-- One report (R399). -/
def raceReport (s : State) (l : Launch) (core pa : Nat) (old new : RaceAcc) : State :=
  traceRecord s
    [3 + dieOf core * 256, s.cycle.toNat, pa / 128 * 128, old.crew + new.crew * 2 ^ 32,
     stopOffset l.code old.pc + stopOffset l.code new.pc * 2 ^ 32,
     old.kind + new.kind * 4 + old.gang * 256 + new.gang * 65536, l.corr.toNat, 0]

/-- The NOSTAMP record of a debug launch of more than 64 crews (R397). -/
def raceNoStamp (s : State) (die : Nat) (l : Launch) : State :=
  traceRecord s [3 + die * 256 + 65536, s.cycle.toNat, 0, 0, 0, 0, l.corr.toNat, 0]

/-- An access of a gang or engine to one global line: clocks, reports, and the record of the access (R398). `sync` marks
atomics and WAITA, `wide` an access at DEV or SYS. -/
def raceAccess (s : State) (c gang core pc pa : Nat) (write sync wide : Bool) (kind : Nat) : State :=
  match stamped s c with
  | none => s
  | some (cr, l) =>
    let k := raceKey cr.launch pa
    let a : RaceAcc := ⟨cr.launch, cr.index, Tab.get 0 cr.race.v cr.index, pc, write, sync, kind, gang⟩
    let olds := Tab.get [] s.lineAcc k
    let s := olds.foldl (fun s e =>
      if e.crew ≠ a.crew ∧ (e.write || write) ∧ !(e.sync || sync) ∧ Tab.get 0 cr.race.v e.crew < e.epoch
      then raceReport s l core pa e a else s) s
    let news := olds.filter (fun e => !(e.crew == a.crew && e.write == write)) ++ [a]
    let s := { s with lineAcc := Tab.put s.lineAcc k news }
    let s := if !write || sync then
        (if wide || sync then modCrew s c (fun x => { x with race :=
          { x.race with p := clockMax x.race.p (Tab.get [] s.lineClock k) } }) else s) else s
    if write then
      { s with lineClock := Tab.set [] s.lineClock k (clockMax (Tab.get [] s.lineClock k) cr.race.r) }
    else s

/-- The same for a gang's own access; the supervisor has no crew. -/
def raceGang (s : State) (g : GRef) (pc pa : Nat) (sc : Scope) (write sync : Bool) : State :=
  match g with
  | .sup _ => s
  | .user c n => raceAccess s c n (coreOf s g) pc pa write sync (sc == .dev || sc == .sys) (if write then 1 else 0)

/-- LBAR releasing: every crew's V takes every crew's R (R398). -/
def raceBarrier (s : State) (launch : Nat) : State :=
  let rs := s.crews.foldl (fun t p => if p.2.launch = launch then clockMax t p.2.race.r else t) []
  match launch? s launch with
  | some l =>
    if l.debug then
      { s with crews := Tab.mapVals (fun _ cr =>
          if cr.launch = launch then { cr with race := { cr.race with v := clockMax cr.race.v rs } } else cr) s.crews }
    else s
  | none => s

end Sys2Proof.Machine
end

