-- ==== Sys2Proof/Machine/Xlate.lean ====
section
/-!
DEFINITION. Contexts, page tables, translation caches, regions and access tables (spec/16_tables.md R327 to R336), and which
physical addresses are refused outright (spec/10_memories.md R192; spec/18_host.md R356, R369).
-/

namespace Sys2Proof.Machine

/-- Little-endian value of `n` bytes held at home points, read without changing anything. -/
def homeWord (s : State) (pa : Nat) : Nat → Nat
  | 0 => 0
  | n + 1 => (homeRead s pa).toNat + 256 * homeWord s (pa + 1) n

/-! ### Context table (R327) -/

/-- A usable context entry: stage-one root, stage-two root, function, whether stage two is in use. -/
structure CtxEntry where
  root : Nat
  s2root : Nat
  fn : Nat
  s2 : Bool
  deriving DecidableEq, Repr

/-- The entry of a context; none where EN is 0, FN is above 16 or a reserved field is not zero (Table 16-2). -/
def ctxEntry? (s : State) (ctx : Nat) : Option CtxEntry :=
  let base := s.ctxbase + 32 * ctx
  let w0 := homeWord s base 8
  let w1 := homeWord s (base + 8) 8
  let fn := bits w1 5 1
  if bit w0 0 && bits w0 11 1 == 0 && bits w0 63 52 == 0 && bits w1 63 52 == 0 && bits w1 11 6 == 0 && decide (fn ≤ 16)
      && homeWord s (base + 16) 16 == 0 then
    some ⟨bits w0 51 12 * 4096, bits w1 51 12 * 4096, fn, bit w1 0⟩
  else none

/-! ### Walks (R328 to R333) -/

/-- What a walk finds: a leaf (zero for an absent page), or a stage-two miss on a guest physical page. -/
inductive Leaf where
  | leaf (w : Nat)
  | miss (gpage : Nat)
  deriving DecidableEq, Repr

/-- One table entry from an address: where it lies physically, or a stage-two miss. -/
abbrev EntryAt := State → Nat → State × (Nat ⊕ Nat)

/-- A malformed entry raises event class 13 with its physical address (R329). -/
def malformed (s : State) (pa : Nat) : State := raiseEvent s 13 pa

/-- Walk from a table: `levels` are the index positions of the pointer levels, then the leaf at bits 24:16. -/
def walkFrom (entry : EntryAt) (va : Nat) : List (Nat × Nat) → State → Nat → State × Leaf
  | [], s, base =>
    match entry s (base + 8 * bits va 24 16) with
    | (s, .inr g) => (s, .miss g)
    | (s, .inl pa) =>
      let w := homeWord s pa 8
      if bits w 63 56 = 0 ∧ bits w 15 5 = 0 then (s, .leaf w) else (malformed s pa, .leaf 0)
  | (hi, lo) :: ls, s, base =>
    match entry s (base + 8 * bits va hi lo) with
    | (s, .inr g) => (s, .miss g)
    | (s, .inl pa) =>
      let w := homeWord s pa 8
      if bits w 63 52 ≠ 0 ∨ bits w 11 1 ≠ 0 then (malformed s pa, .leaf 0)
      else if bit w 0 then walkFrom entry va ls s (bits w 51 12 * 4096)
      else (s, .leaf 0)

def directEntry : EntryAt := fun s a => (s, .inl a)

/-- Stage two of a guest physical address: the leaf, or nothing where it is absent, which is a miss whatever B (R333). -/
def walk2 (s : State) (root gpa : Nat) : State × Option Nat :=
  match walkFrom directEntry gpa [(51, 43), (42, 34), (33, 25)] s root with
  | (s, .leaf w) => (s, if bit w 0 then some w else none)
  | (s, .miss _) => (s, none)

/-- The physical page a leaf gives an address: the run's frame with the low page bits of the address (R330). -/
def leafPage (w page : Nat) : Nat :=
  let k := bits w 55 52
  bits w 51 16 / 2 ^ k * 2 ^ k + page % 2 ^ k

def guestEntry (root : Nat) : EntryAt := fun s a =>
  match walk2 s root a with
  | (s, some w) => (s, .inl (leafPage w (a / 2 ^ 16) * 2 ^ 16 + a % 2 ^ 16))
  | (s, none) => (s, .inr (a / 2 ^ 16))

/-- The run of guest pages of the stage-two leaf over a guest page: first page and number (R330, R332). -/
def guestRun (gpage w : Nat) : Nat × Nat :=
  let k := bits w 55 52
  (gpage / 2 ^ k * 2 ^ k, 2 ^ k)

/-- The guest runs through which a walk of stage one reads its tables (R332, R333). -/
def tableRuns (root va : Nat) : List (Nat × Nat) → State → Nat → List (Nat × Nat)
  | [], s, base =>
    let a := base + 8 * bits va 24 16
    match walk2 s root a with
    | (_, some w) => [guestRun (a / 2 ^ 16) w]
    | (_, none) => []
  | (hi, lo) :: ls, s, base =>
    let a := base + 8 * bits va hi lo
    match walk2 s root a with
    | (_, some w) =>
      let e := homeWord s (leafPage w (a / 2 ^ 16) * 2 ^ 16 + a % 2 ^ 16) 8
      guestRun (a / 2 ^ 16) w :: (if bit e 0 then tableRuns root va ls s (bits e 51 12 * 4096) else [])
    | (_, none) => []

/-- The pointer levels of stage one (R328). -/
def stage1Levels : List (Nat × Nat) := [(56, 52), (51, 43), (42, 34), (33, 25)]

/-- A translation formed by a fresh walk, or the function and guest page of a stage-two miss, met at a
stage-one table or at the page itself. -/
inductive XRes where
  | ok (x : Xlat)
  | miss (fn gpage : Nat) (tbl : Bool)
  deriving DecidableEq, Repr

/-- The translation a leaf implies for its run, without stage two. -/
def xlatOf (ctx fn page w : Nat) : Xlat :=
  let k := bits w 55 52
  ⟨ctx, fn, page / 2 ^ k * 2 ^ k, bits w 51 16 / 2 ^ k * 2 ^ k, k, BitVec.ofNat 5 w, false, []⟩

/-- A fresh walk of stage one, and of stage two where the context has it (R328, R333). A context that is not usable maps
nothing: every page is absent. -/
def walkFresh (s : State) (ctx va : Nat) : State × XRes :=
  let page := va / 2 ^ 16
  match ctxEntry? s ctx with
  | none => (s, .ok (xlatOf ctx 0 page 0))
  | some ce =>
    let entry := if ce.s2 then guestEntry ce.s2root else directEntry
    match walkFrom entry va stage1Levels s ce.root with
    | (s, .miss g) => (s, .miss ce.fn g true)
    | (s, .leaf w) =>
      let x := { xlatOf ctx ce.fn page w with s2 := ce.s2
                                              gpages := if ce.s2 then tableRuns ce.s2root va stage1Levels s ce.root else [] }
      if ce.s2 && bit w 0 then
        let g := leafPage w page
        match walk2 s ce.s2root (g * 2 ^ 16) with
        | (s, none) => (s, .miss ce.fn g false)
        | (s, some w2) =>
          let k := min (bits w 55 52) (bits w2 55 52)
          let p := leafPage w2 g
          (s, .ok { x with vpage := page / 2 ^ k * 2 ^ k, frame := p / 2 ^ k * 2 ^ k, run := k
                           bits := x.bits &&& (BitVec.ofNat 5 w2 ||| 0b00011#5)
                           gpages := x.gpages ++ [guestRun g w2] })
      else (s, .ok x)

def xlatCovers (x : Xlat) (ctx page : Nat) : Bool := x.ctx == ctx && decide (x.vpage ≤ page) && decide (page < x.vpage + 2 ^ x.run)

/-- Translate a page (R328 to R333). A cached translation may be used, old or not, until an invalidation drops it; where
the caches and the tables disagree the choice is free (R330, R332; notes/assumptions/7). -/
def translate (s : State) (ctx va : Nat) : State × XRes :=
  let cached := s.xlats.filter (fun x => xlatCovers x ctx (va / 2 ^ 16))
  let r := walkFresh s ctx va
  let fresh := match r.2 with
    | .ok x => if cached.contains x then [] else [x]
    | .miss _ _ _ => []
  match r.2, cached ++ fresh with
  | m, [] => (r.1, m)
  | .miss fn g tb, cs =>
    match cs[(Config.freeValue s.fresh).toNat % (cs.length + 1)]? with
    | some x => (freshen s, .ok x)
    | none => (freshen r.1, .miss fn g tb)
  | .ok _, [x] => if cached.contains x then (s, .ok x) else ({ r.1 with xlats := r.1.xlats ++ [x] }, .ok x)
  | .ok _, cs =>
    match cs[(Config.freeValue s.fresh).toNat % cs.length]? with
    | some x =>
      if cached.contains x then (freshen s, .ok x)
      else (freshen { r.1 with xlats := r.1.xlats ++ [x] }, .ok x)
    | none => (r.1, r.2)

def xlatPresent (x : Xlat) : Bool := x.bits.getLsbD 0
def xlatBacked (x : Xlat) : Bool := x.bits.getLsbD 1
/-- The physical address of a virtual address its page's translation covers. -/
def xlatPa (x : Xlat) (va : Nat) : Nat := (x.frame + (va / 2 ^ 16 - x.vpage)) * 2 ^ 16 + va % 2 ^ 16

/-- Is the block of a physical address closing, so that device accesses stall in translation (R361)? -/
def closingBlock (s : State) (pa : Nat) : Bool := s.ownreq.marked == some (pa / 4096) && !s.ownreq.dir

/-! ### Access tables (R334 to R336) -/

/-- Unit classes, the fields of Table 16-6a. -/
inductive AClass where
  | user | sup | copy | hf | fetch | host | peer
  deriving DecidableEq, Repr

/-- Low bit of a class's field. -/
def AClass.shift : AClass → Nat
  | .user => 0 | .sup => 2 | .copy => 4 | .hf => 6 | .fetch => 8 | .host => 10 | .peer => 12

/-- What an access does. -/
inductive AKind where
  | read | write | atomic | fetch
  deriving DecidableEq, Repr

/-- Does a two-bit field permit the access? -/
def permits (f : Nat) : AKind → Bool
  | .read | .fetch => f % 2 == 1
  | .write => f / 2 % 2 == 1
  | .atomic => f % 4 == 3

/-- Do the leaf's bits permit it (R331)? -/
def leafPermits (b : BitVec 5) : AKind → Bool
  | .read => b.getLsbD 2
  | .write => b.getLsbD 3
  | .atomic => b.getLsbD 2 && b.getLsbD 3
  | .fetch => b.getLsbD 4

/-- The access-table entry of a target and a context (Table 16-6a; reset 0x00C0, R336). -/
def accessEntry (s : State) (target ctx : Nat) : Nat := (Tab.get 0xC0#16 s.access (target * 4096 + ctx)).toNat

/-- The lowest-numbered enabled region that contains a device address (R334). -/
def regionIndex? (s : State) (pa : Nat) : Option Nat :=
  (List.range 16).find? (fun k =>
    let r := Tab.get (0#64, 0#64) s.regions k
    r.1.getLsbD 0 && decide (bits r.1.toNat 51 16 ≤ pa / 2 ^ 16) && decide (pa / 2 ^ 16 ≤ bits r.2.toNat 51 16))

/-- Why an access is refused, as Table 11-5 codes it: 1 access table, 2 reserved address, 3 a peer window in a module that is no part of
a span (R192, R334, R369). This is check 4 of Table 12-3. Without a path to the peer no port's table is asked, and with the host port down
nothing is refused: what needs the way fails where it needs it (R213, R356). -/
def refusalOf (s : State) (cls : AClass) (ctx pa : Nat) (k : AKind) : Option Nat :=
  let table := fun t => if permits (accessEntry s t ctx / 2 ^ cls.shift) k then none else some 1
  match regionOf pa with
  | .reserved => some 2
  | .regs => if cls = .sup ∨ cls = .host then none else some 1
  | .gddr | .lpddr => (regionIndex? s pa).elim (some 1) table
  | .host => table 16
  | .peer => if s.spanid.getLsbD 8 then (pathTo? s (peerOf pa) (pa / 128)).bind (fun p => table (17 + p)) else some 3

/-- Why an engine's or a headframe's access fails, which is made at the system point of host and peer memory: refused, or without a
way there (R226, R356, R369). -/
def barredOf (s : State) (cls : AClass) (ctx pa : Nat) (k : AKind) : Option Nat := (refusalOf s cls ctx pa k).or (wayDown s pa)

/-- The class of a gang's own accesses (R334, R408). -/
def classOf : GRef → AClass
  | .user _ _ => .user
  | .sup _ => .sup

end Sys2Proof.Machine
end

