-- ==== Sys2Proof/Machine/RegBlock.lean ====
section
/-!
DEFINITION. The device register block (Table 10-2, 0x0_FF00_0000_0000): every register the spec places in it, read and
written by 64-bit words (spec/13_queues.md R256, spec/16_tables.md R327 to R338, spec/18_host.md R360 to R370, spec/20_bringup.md
R384 to R397). A write whose effect is an event of its own puts that event at the head of the agenda.
-/

namespace Sys2Proof.Machine

def regBase : Nat := 0xFF0000000000

/-- An event that follows at once. -/
def soon (s : State) (i : Instr) : State := { s with agenda := .event i :: s.agenda }

/-! ### Launch-queue blocks (R256, Table 13-2) -/

def queueOf (s : State) (q : Nat) : LQueue := Tab.get LQueue.reset s.queues q
def modQueue (s : State) (q : Nat) (f : LQueue → LQueue) : State :=
  { s with queues := Tab.set LQueue.reset s.queues q (f (queueOf s q)) }

def lqGet (x : LQueue) (word : Nat) : Nat :=
  match word with
  | 0 => x.base
  | 1 => x.ctl
  | 2 => b2n x.en + x.prio * 2 ^ 8 + x.log2 * 2 ^ 11 + x.state * 2 ^ 16 + x.ctx * 2 ^ 32
  | _ => 0

/-- No page reply reaches the reads of a queue any more. -/
def forgetReads (s : State) (q : Nat) : State :=
  let keeps := fun w : Waiter => match w with | .headframe p _ none => p != q | _ => true
  { s with pageReqs := s.pageReqs.map (fun r => { r with waiters := r.waiters.filter keeps }) }

/-- Write of a word of block `q`; a write that sets EN to 1 reads the tail word, and a queue that is switched off waits for no page
(R257). -/
def lqPut (s : State) (q word w : Nat) : State :=
  let x := queueOf s q
  match word with
  | 0 => if x.en then s else modQueue s q (fun x => { x with base := w % 2 ^ 52 })
  | 1 => if x.en then s else modQueue s q (fun x => { x with ctl := w % 2 ^ 52 })
  | 2 =>
    let log2 := bits w 15 11
    let ctx := bits w 43 32
    if log2 < 2 ∨ log2 > 16 then s
    else if x.en ∧ bit w 0 ∧ (ctx ≠ x.ctx ∨ log2 ≠ x.log2) then s
    else
      let s := modQueue s q (fun x =>
        { x with ctx := ctx, log2 := log2, prio := bits w 10 8, en := bit w 0
                 state := if bit w 0 then (if x.en then x.state else 1) else 0
                 hold := x.hold && x.en && bit w 0
                 depOk := x.depOk && x.en && bit w 0
                 entries := if bit w 0 then x.entries else [] })
      if bit w 0 then soon s (.tailRead q) else forgetReads s q
  | _ => s

/-! ### Core control registers (R393, Table 20-4) -/

/-- SY numbers 0x300 to 0x308 of a core. -/
def coreControl (s : State) (c n : Nat) : Nat :=
  match core? s c with
  | none => 0
  | some x =>
    match n with
    | 0x300 => 2 * b2n x.svflt
    | 0x301 => x.sventry
    | 0x302 => x.svfpc
    | 0x303 => x.svfcause.toNat
    | 0x304 => x.bistres.toNat
    | 0x308 => low (Tab.get Die.reset s.dies (dieOf c)).voff 8
    | _ => 0

/-- SY.VMARG: a value outside -20 to +20 is ignored whole. -/
def vmargWrite (s : State) (c w : Nat) : State :=
  let v := sext w 8
  if -20 ≤ v ∧ v ≤ 20 then modDie s (dieOf c) (fun d => { d with voff := v }) else s

/-- Writes to a core's control registers, by the host or by a supervisor, which may write SY.VMARG alone (Table 20-4). -/
def coreControlPut (s : State) (host : Bool) (c n w : Nat) : State :=
  match n with
  | 0x300 => if host && bit w 0 && ((core? s c).map (fun x => x.svflt)).getD false then soon s (.supervisorRestart c) else s
  | 0x301 => if host ∧ w % 32 = 0 then modCore s c (fun x => { x with sventry := w % 2 ^ 57 }) else s
  | 0x308 => vmargWrite s c w
  | _ => s

/-! ### Device system registers (Tables 6-11 and 17-5) -/

/-- SY.BEAT: 8 to 13; a write takes effect at the next beat end (R127). -/
def beatPut (s : State) (w : Nat) : State :=
  let b := w % 16
  if 8 ≤ b ∧ b ≤ 13 then { s with beatNext := some (BitVec.ofNat 32 b) } else s

def claimtoPut (s : State) (w : Nat) : State := { s with claimto := BitVec.ofNat 32 (w % 2 ^ 20) }

def tickGet (s : State) : Nat := s.tick.klog + 2 ^ 8 * b2n s.tick.en + 2 ^ 32 * s.tick.tnum.toNat

/-- SY.TICK: KLOG outside 10 to 24 makes the whole write ignored; with EN 0 it takes effect at once, else at the next edge
(R350). -/
def tickPut (s : State) (w : Nat) : State :=
  let k := bits w 4 0
  if k < 10 ∨ k > 24 then s
  else
    let t := { s.tick with clr := s.tick.clr || bit w 9 }
    { s with tick := if s.tick.en then { t with next := some (bit w 8, k) } else { t with en := bit w 8, klog := k, next := none } }

/-! ### Access tables, claims, and the other single registers -/

/-- A store to an access-table entry; bits 15:14 read 0, and region 15 keeps USER, SUP and COPY at 00b (R334). -/
def accessPut (s : State) (target ctx v : Nat) : State :=
  let v := v % 2 ^ 14
  let v := if target = 15 then v / 64 * 64 else v
  if target < 35 ∧ ctx < 4096 then { s with access := Tab.set 0xC0#16 s.access (target * 4096 + ctx) (BitVec.ofNat 16 v) } else s

/-- Word 0 of a claim entry (Table 16-7). -/
def claimGet (c : Claim) : Nat :=
  b2n c.h + 2 * b2n c.s + 2 ^ 8 * b2n c.fwd + 2 ^ 9 * b2n c.timedOut + 2 ^ 16 * c.state + 2 ^ 24 * c.pend + 2 ^ 32 * c.lost

/-- The oldest offer not yet taken, which EVNEXT names; one made in this cycle comes behind a read of the cycle (R6). -/
def nextOffer (s : State) : Option Nat :=
  (s.claims.foldl (fun (best : Option (Nat × Nat)) p =>
    if p.2.state = 1 ∧ !p.2.taken ∧ !s.late.contains (.offered p.1) then
      match best with
      | some b => if b.2 ≤ p.2.order then some b else some (p.1, p.2.order)
      | none => some (p.1, p.2.order)
    else best) none).map (fun b => b.1)

/-- An EVNEXT read marks the offer taken. -/
def takeOffer (s : State) : State :=
  match nextOffer s with
  | some e => setClaim s e { claim s e with taken := true }
  | none => s

/-- EVANS (R339): HANDLED finishes the class, FORWARD delivers it; ignored for a class that is not offered. -/
def answerClaim (s : State) (e : Nat) (forward : Bool) : State :=
  if (claim s e).state = 1 then (if forward then deliverClaim s e false true 2 else finishClaim s e) else s

/-- EVACK (R363): Finish for a class in STATE 10b. -/
def ackClaim (s : State) (e : Nat) : State := if (claim s e).state = 2 then finishClaim s e else s

def ringGet (r : EventRing) (word : Nat) : Nat :=
  match word with
  | 0 => b2n r.en + 2 * r.log2 + r.base
  | 1 => r.tail
  | 2 => r.head
  | _ => 0

def ringPut (s : State) (word w : Nat) : State :=
  match word with
  | 0 =>
    let k := bits w 4 1
    if 4 ≤ k ∧ k ≤ 12 then { s with ring := { s.ring with base := bits w 51 12 * 4096, log2 := k, en := bit w 0 } } else s
  | 2 => { s with ring := { s.ring with head := w } }
  | 3 => if bit w 8 then ackClaim { s with ring := { s.ring with evack := bits w 5 0 } } (bits w 5 0)
         else { s with ring := { s.ring with evack := bits w 5 0 } }
  | _ => s

/-- Starts a translation invalidation; ignored while BUSY (R332). -/
def tinvStart (s : State) : State := { s with tinv := { s.tinv with busy := true } }

def tinvGet (t : Tinv) (word : Nat) : Nat :=
  match word with
  | 0 => t.ctx + 2 ^ 12 * b2n t.s2 + 2 ^ 13 * t.fn
  | 1 => t.start.toNat
  | 2 => t.len.toNat
  | _ => 2 * b2n t.busy

def tinvPut (s : State) (word w : Nat) : State :=
  match word with
  | 0 => { s with tinv := { s.tinv with ctx := bits w 11 0, s2 := bit w 12, fn := bits w 17 13 } }
  | 1 => { s with tinv := { s.tinv with start := BitVec.ofNat 64 w } }
  | 2 => { s with tinv := { s.tinv with len := BitVec.ofNat 64 w } }
  | _ => if bit w 0 then tinvStart s else s

/-- May a block change owner: usable GDDR-7 or the LPDDR-6 tier (R360)? -/
def ownable (block : Nat) : Bool :=
  match regionOf (4096 * block) with | .gddr | .lpddr => true | _ => false

/-- Starts an ownership change; blocks that already have the owner are skipped (R360). ERR is set at the end of the cycle (R6). -/
def ownreqStart (s : State) : State :=
  if s.ownreq.busy then s
  else
    let first := s.ownreq.addr / 4096
    let last := first + s.ownreq.count - 1
    if ownable first && ownable last && regionOf (4096 * first) == regionOf (4096 * last) then
      let left := ((List.range s.ownreq.count).map (fun i => first + i)).filter (fun b =>
        if s.ownreq.dir then s.hostOwned.contains b else !s.hostOwned.contains b)
      { s with ownreq := { s.ownreq with left := left, busy := !left.isEmpty, marked := left.head? } }
    else { s with late := s.late ++ [.ownErr] }

def ownreqPut (s : State) (word w : Nat) : State :=
  match word with
  | 0 => { s with ownreq := { s.ownreq with addr := bits w 51 12 * 4096 } }
  | _ =>
    let n := bits w 31 16
    if n < 1 ∨ n > 4096 ∨ (bit w 0 ∧ s.ownreq.busy) then s
    else
      let s := { s with ownreq := { s.ownreq with count := n, dir := bit w 4, err := s.ownreq.err && !bit w 2 }
                        late := if bit w 2 then s.late ++ [.ownErrOff] else s.late }
      if bit w 0 then ownreqStart s else s

def pageRegsOf (s : State) (f : Nat) : PageRegs := Tab.get PageRegs.reset s.pageRegs f
def modPageRegs (s : State) (f : Nat) (h : PageRegs → PageRegs) : State :=
  { s with pageRegs := Tab.set PageRegs.reset s.pageRegs f (h (pageRegsOf s f)) }

def pageRegsGet (p : PageRegs) (word : Nat) : Nat :=
  match word with
  | 0 => p.base + b2n p.en
  | 1 => p.tail
  | 2 => p.head
  | _ => 2 ^ 10 * b2n p.bad

def pageRegsPut (s : State) (f word w : Nat) : State :=
  match word with
  | 0 => modPageRegs s f (fun p => { p with base := bits w 51 13 * 8192, en := bit w 0 })
  | 2 => modPageRegs s f (fun p => { p with head := w })
  | 3 =>
    if bit w 9 then s
    else
      let s := modPageRegs s f (fun p => { p with bad := p.bad && !bit w 10 })
      let s := if bit w 10 then { s with late := s.late ++ [.replyBadOff f] } else s
      if bit w 31 then soon s (.pageReply f (bits w 7 0) (bits w 9 8)) else s
  | _ => s

/-- START (R384). A write of GO is ignored while a start runs, and for a KIND that is neither cold nor warm. -/
def startPut (s : State) (w : Nat) : State :=
  if bit w 0 then
    if s.start.state = 1 then s
    else
      let k := bits w 2 1
      let s := { s with start := { s.start with kind := k } }
      if k ≤ 1 then { s with start := { s.start with state := 1, pending := some (k == 1) } } else s
  else { s with start := { s.start with kind := bits w 2 1 } }

def startGet (s : State) (word : Nat) : Nat :=
  match word with
  | 0 => 2 * s.start.kind
  | _ => s.start.state + 2 ^ 8 * s.start.step + 2 ^ 16 * s.start.code + 2 ^ 24 * s.start.wfail + 2 ^ 28 * b2n s.start.shchg

/-- POWLIM (R396). -/
def powlimPut (s : State) (w : Nat) : State :=
  let p := bits w 11 0
  if 800 ≤ p ∧ p ≤ 2000 then { s with powlim := p } else s

/-- Is the lane of a scan one of its port's link, and not retired (R395)? -/
def lmargLegal (s : State) (p lane : Nat) : Bool := trained s p && decide (lane < portLanes p) && !(portOf s p).retired.getLsbD lane

/-- Starts a scan, unless one runs or the lane cannot be scanned (R395). -/
def lmargStart (s : State) (p : Nat) : State :=
  let x := lmargOf s p
  if x.scan.isSome || !lmargLegal s p x.lane then s
  else { s with lmarg := Tab.set Lmarg.reset s.lmarg p { x with scan := some x.lane } }

def lmargPut (s : State) (p w : Nat) : State :=
  let x := { lmargOf s p with dwell := bits w 27 24, voff := bits w 22 16, toff := bits w 13 8, lane := bits w 3 0 }
  let s := { s with lmarg := Tab.set Lmarg.reset s.lmarg p x }
  if bit w 31 then lmargStart s p else s

def lmargGet (x : Lmarg) (word : Nat) : Nat :=
  match word with
  | 0 => x.lane + 2 ^ 8 * x.toff + 2 ^ 16 * x.voff + 2 ^ 24 * x.dwell + 2 ^ 30 * b2n x.scan.isSome
  | _ => x.errors + 2 ^ 32 * b2n x.done

/-- GO of ATTEST (R392). -/
def attestStart (s : State) : State := { s with attestGo := true, attestDone := false }

/-! ### The fuse block (R386, R387) -/

/-- A byte of the fuse block: what Table 20-3 fixes, the shadow, and the module's own bytes. -/
def fuseByte (s : State) (o : Nat) : Byte :=
  if o < 4 then BitVec.ofNat 8 (0x4D444B52 / 256 ^ o)
  else if o < 8 then BitVec.ofNat 8 (0x480 / 256 ^ (o - 4))
  else if o = 8 then 0xB0#8
  else if o < 0xC then 0#8
  else if 0x18 ≤ o ∧ o < 0x40 then 0#8
  else if 0x830 ≤ o ∧ o < 0xC00 then 0#8
  else if 0xC00 ≤ o then BitVec.ofNat 8 (((s.shadow[(o - 0xC00) / 4]?).getD 0#32).toNat / 256 ^ (o % 4))
  else Config.fuse o

/-! ### Registers whose place the spec does not give (R123, R276; notes/assumptions/14) -/

/-- The observation registers of the trace ring, and the word through which the host reaches SY.CLAIMTO: which of them lies at an
offset that no other register has. -/
inductive Unplaced where
  | traceBase | traceSize | traceTaken | claimto
  deriving DecidableEq, Repr

def unplacedAt (o : Nat) : Option Unplaced :=
  if o = Config.unplaced 0 then some .traceBase
  else if o = Config.unplaced 1 then some .traceSize
  else if o = Config.unplaced 2 then some .traceTaken
  else if o = Config.unplaced 3 then some .claimto
  else none

def unplacedGet (s : State) (o : Nat) : Nat :=
  match unplacedAt o with
  | some .traceBase => s.trace.base
  | some .traceSize => s.trace.size
  | some .traceTaken => s.trace.taken
  | some .claimto => s.claimto.toNat
  | none => 0

/-- Writes of them. A new base or size starts the ring empty; the reader of the ring says how many bytes it has taken (R276). -/
def unplacedPut (s : State) (host : Bool) (o w : Nat) : State :=
  match unplacedAt o with
  | some .traceBase => { s with trace := { s.trace with base := w % 2 ^ 52, written := 0, taken := 0 } }
  | some .traceSize => { s with trace := { s.trace with size := w, written := 0, taken := 0 } }
  | some .traceTaken => { s with trace := { s.trace with taken := min w s.trace.written } }
  | some .claimto => if host then claimtoPut s w else s
  | none => s

/-- What the end of a cycle makes of an update of the cycle; one that software cleared in it is dropped (R6). -/
def applyLate (all : List LateSet) (s : State) (u : LateSet) : State :=
  match u with
  | .eventLost e => setClaim s e { claim s e with lost := min ((claim s e).lost + 1) (2 ^ 32 - 1) }
  | .scanDone p => { s with lmarg := Tab.set Lmarg.reset s.lmarg p { lmargOf s p with done := true } }
  | .replyBad f => if all.contains (.replyBadOff f) then s else modPageRegs s f (fun p => { p with bad := true })
  | .ownErr => if all.contains .ownErrOff then s else { s with ownreq := { s.ownreq with err := true } }
  | .offered _ | .replyBadOff _ | .ownErrOff => s

/-- The updates of a cycle, at its end. -/
def applyLates (s : State) : State := s.late.foldl (applyLate s.late) { s with late := [] }

/-! ### Words of the block -/

/-- A little-endian word of bytes. -/
def wordOf (f : Nat → Byte) (o : Nat) : Nat :=
  (List.range 8).foldl (fun w i => w + (f (o + i)).toNat * 256 ^ i) 0

/-- The word at an offset of the block, a multiple of 8. -/
def regGet (s : State) (o : Nat) : Nat :=
  if 0x1000000 ≤ o then
    let t := (o - 0x1000000) / 0x2000
    let c := (o - 0x1000000) % 0x2000 / 2
    if t < 35 then (List.range 4).foldl (fun w i => w + accessEntry s t (c + i) * 2 ^ (16 * i)) 0 else 0
  else if 0x100000 ≤ o then
    let c := (o - 0x100000) / 0x1000
    if c < 640 then coreControl s c (0x300 + (o - 0x100000) % 0x1000 / 8) else 0
  else if 0x20000 ≤ o then (if o < 0x21000 then wordOf (fuseByte s) (o - 0x20000) else 0)
  else if 0x10000 ≤ o then (if o < 0x10800 then lqGet (queueOf s ((o - 0x10000) / 32)) (o % 32 / 8) else 0)
  else if o = 0x2000 then s.ctxbase
  else if 0x2100 ≤ o ∧ o < 0x2120 then tinvGet s.tinv ((o - 0x2100) / 8)
  else if 0x3000 ≤ o ∧ o < 0x3400 then
    (if o % 16 = 0 then claimGet (claim s ((o - 0x3000) / 16)) else (claim s ((o - 0x3000) / 16)).payload.toNat)
  else if o = 0x3400 then (match nextOffer s with | some e => 2 ^ 63 + e | none => 0)
  else if o = 0x3408 then 0
  else if 0x4000 ≤ o ∧ o < 0x4100 then
    let r := Tab.get (0#64, 0#64) s.regions ((o - 0x4000) / 16)
    (if o % 16 = 0 then r.1.toNat else r.2.toNat)
  else if 0x5000 ≤ o ∧ o < 0x5020 then ringGet s.ring ((o - 0x5000) / 8)
  else if o = 0x6000 then s.ownreq.addr
  else if o = 0x6008 then
    2 * b2n s.ownreq.busy + 4 * b2n s.ownreq.err + 16 * b2n s.ownreq.dir + 2 ^ 16 * s.ownreq.count
  else if 0x7000 ≤ o ∧ o < 0x7440 then
    (if o % 0x40 < 0x20 then pageRegsGet (pageRegsOf s ((o - 0x7000) / 0x40)) (o % 0x40 / 8) else 0)
  else if o = 0x8000 then s.spanid.toNat
  else if 0x8100 ≤ o ∧ o < 0x8140 then wordOf (Tab.get 0#8 s.route) (o - 0x8100)
  else if 0x8200 ≤ o ∧ o < 0x8400 then (Tab.get 0#64 s.spanGroup ((o - 0x8200) / 8)).toNat
  else if 0x9000 ≤ o ∧ o < 0x9010 then startGet s ((o - 0x9000) / 8)
  else if o = 0x9148 then b2n s.attestDone
  else if o = 0x9140 then 0
  else if 0x9100 ≤ o ∧ o < 0x9340 then wordOf (Tab.get 0#8 s.attest) (o - 0x9100)
  else if o = 0x9400 then s.powlim + 2 ^ 32 * (s.power / 1000 % 4096)
  else if 0xA000 ≤ o ∧ o < 0xA130 then lmargGet (lmargOf s ((o - 0xA000) / 16)) (o % 16 / 8)
  else if o = 0xB000 then b2n s.dbgEn + 2 ^ 16 * s.dbgCtx
  else unplacedGet s o

/-- Write bytes of a table by offset. -/
def putBytes (t : Tab Byte) (o w : Nat) : Tab Byte :=
  (List.range 8).foldl (fun t i => Tab.set 0#8 t (o + i) (BitVec.ofNat 8 (w / 256 ^ i))) t

/-- Write of a word, by the host or by a supervisor. -/
def regPut (s : State) (host : Bool) (o w : Nat) : State :=
  if 0x1000000 ≤ o then
    let t := (o - 0x1000000) / 0x2000
    let c := (o - 0x1000000) % 0x2000 / 2
    (List.range 4).foldl (fun s i => accessPut s t (c + i) (w / 2 ^ (16 * i) % 2 ^ 16)) s
  else if 0x100000 ≤ o then
    let c := (o - 0x100000) / 0x1000
    if c < 640 then coreControlPut s host c (0x300 + (o - 0x100000) % 0x1000 / 8) w else s
  else if 0x20000 ≤ o then s
  else if 0x10000 ≤ o then (if o < 0x10800 then lqPut s ((o - 0x10000) / 32) (o % 32 / 8) w else s)
  else if o = 0x2000 then { s with ctxbase := bits w 51 12 * 4096 }
  else if 0x2100 ≤ o ∧ o < 0x2120 then (if o = 0x2118 ∧ s.tinv.busy then s else tinvPut s ((o - 0x2100) / 8) w)
  else if 0x3000 ≤ o ∧ o < 0x3400 then
    (if o % 16 = 0 then
      let e := (o - 0x3000) / 16
      setClaim s e { claim s e with h := bit w 0, s := bit w 1 }
     else s)
  else if o = 0x3400 then s
  else if o = 0x3408 then answerClaim s (bits w 5 0) (bit w 8)
  else if 0x4000 ≤ o ∧ o < 0x4100 then
    let k := (o - 0x4000) / 16
    let r := Tab.get (0#64, 0#64) s.regions k
    let v := BitVec.ofNat 64 (bits w 51 16 * 2 ^ 16)
    let r := if o % 16 = 0 then (v ||| BitVec.ofNat 64 (w % 2), r.2) else (r.1, v)
    { s with regions := Tab.set (0#64, 0#64) s.regions k r }
  else if 0x5000 ≤ o ∧ o < 0x5020 then ringPut s ((o - 0x5000) / 8) w
  else if o = 0x6000 then ownreqPut s 0 w
  else if o = 0x6008 then ownreqPut s 1 w
  else if 0x7000 ≤ o ∧ o < 0x7440 then
    (if o % 0x40 < 0x20 then pageRegsPut s ((o - 0x7000) / 0x40) (o % 0x40 / 8) w else s)
  else if o = 0x8000 then { s with spanid := BitVec.ofNat 64 (w % 64 + 2 ^ 8 * (w / 2 ^ 8 % 2)) }
  else if 0x8100 ≤ o ∧ o < 0x8140 then { s with route := putBytes s.route (o - 0x8100) w }
  else if 0x8200 ≤ o ∧ o < 0x8400 then
    { s with spanGroup := Tab.set 0#64 s.spanGroup ((o - 0x8200) / 8) (BitVec.ofNat 64 (w % 2 ^ 39 + 2 ^ 63 * (w / 2 ^ 63 % 2))) }
  else if o = 0x9000 then startPut s w
  else if o = 0x9008 then s
  else if o = 0x9140 then (if bit w 0 then attestStart s else s)
  else if 0x9100 ≤ o ∧ o < 0x9340 then (if o < 0x9140 then { s with attest := putBytes s.attest (o - 0x9100) w } else s)
  else if o = 0x9400 then powlimPut s w
  else if 0xA000 ≤ o ∧ o < 0xA130 then (if o % 16 = 0 then lmargPut s ((o - 0xA000) / 16) w else s)
  else if o = 0xB000 then { s with dbgEn := bit w 0, dbgCtx := bits w 27 16 }
  else unplacedPut s host o w

/-- Bits that a write of other bytes of the word must leave alone: a one there would clear them (RW1C). -/
def clearing (o : Nat) : Nat :=
  if o = 0x6008 then 4 else if 0x7000 ≤ o ∧ o < 0x7440 ∧ o % 0x40 = 0x18 then 2 ^ 10 else 0

/-- What a read of bytes of a word changes: an EVNEXT read takes its offer, LOST and DONE are read-to-clear (Table 0-2). -/
def regTouched (s : State) (o lo hi : Nat) : State :=
  if o = 0x3400 then takeOffer s
  else if 0x3000 ≤ o ∧ o < 0x3400 ∧ o % 16 = 0 ∧ 4 < hi then
    let e := (o - 0x3000) / 16
    setClaim s e { claim s e with lost := 0 }
  else if 0xA000 ≤ o ∧ o < 0xA130 ∧ o % 16 = 8 ∧ lo ≤ 4 ∧ 4 < hi then
    let p := (o - 0xA000) / 16
    { s with lmarg := Tab.set Lmarg.reset s.lmarg p { lmargOf s p with done := false } }
  else s

/-- Replace bytes `lo` on of a word. -/
def mergeWord (old lo : Nat) (bs : List Byte) : Nat :=
  (List.range 8).foldl (fun w i =>
    let b := if lo ≤ i then (bs[i - lo]?).map (fun b => b.toNat) else none
    w + (b.getD (old / 256 ^ i % 256)) * 256 ^ i) 0

/-- Write bytes of the block, word by word. The bytes of a word that are not written keep what they read as. -/
def regWriteWords (s : State) (host : Bool) : Nat → Nat → List Byte → State
  | 0, _, _ => s
  | n + 1, o, bs =>
    if bs.isEmpty then s
    else
      let lo := o % 8
      let k := 8 - lo
      let w := o - lo
      let old := Nat.land (regGet s w) (2 ^ 64 - 1 - clearing w)
      regWriteWords (regPut s host w (mergeWord old lo (bs.take k))) host n (o + k) (bs.drop k)

def regWrite (s : State) (host : Bool) (pa : Nat) (bs : List Byte) : State :=
  regWriteWords s host (bs.length / 8 + 2) (pa - regBase) bs

/-- Read bytes of the block, word by word: each word is read, and then what a read changes in it (Table 0-2). -/
def regReadWords (s : State) : Nat → Nat → Nat → State × List Byte
  | 0, _, _ => (s, [])
  | m + 1, o, n =>
    if n = 0 then (s, [])
    else
      let lo := o % 8
      let k := min n (8 - lo)
      let w := regGet s (o - lo)
      let r := regReadWords (regTouched s (o - lo) lo (lo + k)) m (o + k) (n - k)
      (r.1, (List.range k).map (fun i => BitVec.ofNat 8 (w / 256 ^ (lo + i))) ++ r.2)

def regRead (s : State) (pa n : Nat) : State × List Byte := regReadWords s (n / 8 + 2) (pa - regBase) n

/-! ### BAR0 of a virtual function (R365) -/

/-- Does a queue belong to function `f`: its context's entry names it with S2EN set? -/
def queueOfFn (s : State) (f q : Nat) : Bool :=
  match ctxEntry? s (queueOf s q).ctx with
  | some e => e.s2 && e.fn == f
  | none => false

/-- A write of a word at an offset of the BAR0 of function `f`: its queues' blocks with CTX and PRIO kept, and its own
page-request registers; all else is ignored. -/
def vfPut (s : State) (f o w : Nat) : State :=
  if o < 0x800 then
    let q := o / 32
    if queueOfFn s f q then
      let x := queueOf s q
      let w := if o % 32 = 16 then w / 2 ^ 44 * 2 ^ 44 + x.ctx * 2 ^ 32 + w / 2 ^ 11 % 2 ^ 21 * 2 ^ 11 + x.prio * 2 ^ 8 + w % 2 ^ 8 else w
      lqPut s q (o % 32 / 8) w
    else s
  else if 0x1000 ≤ o ∧ o < 0x1020 then pageRegsPut s f ((o - 0x1000) / 8) w
  else s

/-- What a word of it reads as. -/
def vfGet (s : State) (f o : Nat) : Nat :=
  if o < 0x800 then (if queueOfFn s f (o / 32) then lqGet (queueOf s (o / 32)) (o % 32 / 8) else 0)
  else if 0x1000 ≤ o ∧ o < 0x1020 then pageRegsGet (pageRegsOf s f) ((o - 0x1000) / 8)
  else 0

end Sys2Proof.Machine
end

