-- ==== Sys2Proof/Machine/Mem.lean ====
section
/-!
DEFINITION. What a gang's memory instructions do before and after issue (spec/11_ordering.md R209 to R225, spec/12_memory_ops.md
R237 to R245, spec/18_host.md R366 to R368): the checks of an element, scope buffers and their drains, loads and atomics
in flight, releases and acquires.
-/

namespace Sys2Proof.Machine

/-! ### Page requests (R273, R366) -/

/-- Is a request outstanding for a page: a guest page of a function, or at stage one a virtual page of a context? -/
def asksFor (r : PageReq) (fn page ctx stage : Nat) : Bool :=
  r.fn == fn && r.page == page && r.stage == stage && (stage == 1 || r.ctx == ctx) && r.answer.isNone

/-- A miss joins the request outstanding for its page, or makes one (R366). -/
def requestPage (s : State) (fn page ctx kind stage : Nat) (w : Waiter) : State :=
  if s.pageReqs.any (fun r => asksFor r fn page ctx stage) then
    { s with pageReqs := s.pageReqs.map (fun r =>
        if asksFor r fn page ctx stage then
          { r with waiters := if r.waiters.contains w then r.waiters else r.waiters ++ [w] } else r) }
  else { s with pageReqs := s.pageReqs ++ [⟨fn, page, ctx, kind, stage, none, [w], none⟩] }

/-- Is a request outstanding on which a waiter that a test picks waits? It goes on with the host's reply only (R366, R367). -/
def awaits (s : State) (p : Waiter → Bool) : Bool := s.pageReqs.any (fun r => r.waiters.any p)

/-! ### Buffer records (R119, R120) -/

/-- A buffer record cut into its fields (Table 6-3). -/
structure BRec where
  base : Nat
  stride : Nat
  extent : Nat
  esz : Nat
  swz : Nat
  spad : Bool
  deriving DecidableEq, Repr

def cutRec (r : BitVec 128) : BRec :=
  let x := r.toNat
  { base := bits x 56 0, stride := bits x 95 64, extent := bits x 127 96, esz := 2 ^ bits x 63 61, swz := bits x 60 58
    spad := bit x 57 }

/-- A record with a reserved swizzle, or a scratchpad base outside bits 19:0, counts as having EXTENT 0 (R120). -/
def recExtent (r : BRec) : Nat := if r.swz ≥ 4 ∨ (r.spad ∧ r.base ≥ 2 ^ 20) then 0 else r.extent

/-- Bits `hi:lo` of an address XORed with bits from `hi2` down (R120). -/
def swizzle (a n sh : Nat) : Nat := Nat.xor a (a / 2 ^ sh % 2 ^ n * 16)

/-- Address of element i (R120). -/
def recAddr (r : BRec) (i : Nat) : Nat :=
  let a := (r.base + i * r.stride) % 2 ^ 57
  match r.swz with
  | 1 => swizzle a 3 7
  | 2 => swizzle a 3 8
  | 3 => swizzle a 2 7
  | _ => a

/-! ### Transaction bodies (R306, R308) -/

/-- The physical tile of a byte. -/
def tileOf (pa : Nat) : Nat := pa / 256

/-- Is a tile of the body granted to it (R272)? -/
def tileGranted (s : State) (g : GRef) (t : Ticket) (tile : Nat) : Bool :=
  match g with
  | .sup _ => true
  | .user c n => s.grants.any (fun e => e.tile == tile && e.crew == c && e.gang == n && e.op == t.op
      && e.granted && !e.released)

/-- What the body of a transaction says of a byte range: 0 outside or not writable, 1 to wait for a grant, 2 to go on. -/
def bodyCheck (s : State) (g : GRef) (x : Gang) (pa n : Nat) (writes : Bool) : Nat :=
  match x.body with
  | none => 2
  | some t =>
    let ts := (List.range ((pa + n - 1) / 256 - pa / 256 + 1)).map (fun i => pa / 256 + i)
    if ts.all (fun k => t.tiles.any (fun e => e.1 == k && (!writes || e.2))) then
      (if ts.all (tileGranted s g t) then 2 else 1)
    else 0

/-! ### The checks of one element (R238, R241) -/

/-- What the checks of one element say. -/
inductive Chk where
  /-- It may be accessed at a place; the leaf's W bit is kept for a store. -/
  | ok (p : Place) (leafW : Bool)
  /-- A check fails with a code. -/
  | code (c : Nat)
  /-- Absent at stage one, for LD.RP. -/
  | absent
  /-- It waits: for a grant (R308), or for an ownership change (R361). -/
  | hold
  deriving DecidableEq, Repr

/-- Checks of a scratchpad element at a byte offset, but for lost lines (R241). -/
def chkScr (s : State) (g : GRef) (o : Int) (n : Nat) : Chk :=
  if o % (n : Int) ≠ 0 then .code 0x8008
  else if o < 0 ∨ o + n > (scrSize s g : Int) then .code 0x8001
  else
    match crewOf? s g with
    | some cr => if scrMode s cr o.toNat then .ok (.scr o.toNat) true else .code 0x8007
    | none => .code 0x8001

/-- Page-request kinds of Table 18-7. -/
def kindCode : AKind → Nat
  | .read => 0 | .write => 1 | .atomic => 1 | .fetch => 2

/-- What a walk of checks threads: the state, and the translations that the instruction has made, by line. -/
abbrev Trail := State × Tab XRes

/-- The translation of a line for one instruction, made once (R240). -/
def translateOnce (r : Trail) (ctx va : Nat) : Trail × XRes :=
  match Tab.find? r.2 (va / 128) with
  | some x => (r, x)
  | none =>
    let t := translate r.1 ctx va
    ((t.1, Tab.put r.2 (va / 128) t.2), t.2)

/-- Checks 3 and 4 and the body's check of a global element at a virtual address (Table 12-3, R308). A stage-two miss is no
check: the element is to wait on its page (R238, R333); so is one inside a body, which is judged once its page is there. -/
def chkGlobal (r : Trail) (is : Iss) (va n : Nat) (k : AKind) : Trail × Chk :=
  let ctx := ctxOf r.1 is.ref
  if is.q.pageFail.contains (va / 65536) then (r, .code 0x8002)
  else
  match translateOnce r ctx va with
  | (r, .miss fn g tb) => (r, .ok (.page fn g va tb) true)
  | (r, .ok x) =>
    let pa := xlatPa x va
    let body := if xlatPresent x then bodyCheck r.1 is.ref is.gang pa n (k != .read)
                else if is.gang.body.isSome then 0 else 2
    if body = 0 then (r, .code 0x8003)
    else if !xlatPresent x then (r, .absent)
    else if body = 1 ∨ closingBlock r.1 pa then (r, .hold)
    else if k = .write then (r, .ok (.phys pa) (leafPermits x.bits .write))
    else if leafPermits x.bits k && (refusalOf r.1 (classOf is.ref) ctx pa k).isNone then (r, .ok (.phys pa) true)
    else (r, .code 0x8007)

/-- A page's piece of a ZFILL: as a written element, and refused at once where a store would fail (R250). -/
def chkZero (r : Trail) (is : Iss) (va n : Nat) : Trail × Chk :=
  match chkGlobal r is va n .write with
  | (r, .ok (.phys pa) lw) =>
    if lw && (refusalOf r.1 (classOf is.ref) (ctxOf r.1 is.ref) pa .write).isNone then (r, .ok (.phys pa) lw) else (r, .code 0x8007)
  | c => c

/-- The checks of an element at an address of a record, n bytes wide, behind the first (Table 12-3, R237). -/
def chkAt (r : Trail) (is : Iss) (spad : Bool) (a n : Nat) (k : AKind) : Trail × Chk :=
  if spad then (r, chkScr r.1 is.ref a n)
  else if a % n ≠ 0 then (r, .code 0x8008)
  else chkGlobal r is a n k

/-- All checks of element i of a record (Table 12-3, R237). -/
def chkRec (r : Trail) (is : Iss) (b : BRec) (i : Int) (n : Nat) (k : AKind) : Trail × Chk :=
  if i < 0 ∨ i ≥ (recExtent b : Int) then (r, .code 0x8001) else chkAt r is b.spad (recAddr b i.toNat) n k

/-- A check of one element alone. -/
def alone (r : Trail × Chk) : State × Chk := (r.1.1, r.2)

/-- The element index of a global form (R237). -/
def recIndex (idx : Nat) (disp : Option W32) : Int :=
  (idx : Int) + (match disp with | some w => sext w.toNat 32 | none => 0)

/-- Check an element for each lane, in ascending lane order. -/
def chkEach (f : Trail → Nat → Trail × Chk) : List Nat → Trail → Trail × List (Nat × Chk)
  | [], r => (r, [])
  | l :: ls, r =>
    let c := f r l
    let t := chkEach f ls c.1
    (t.1, (l, c.2) :: t.2)

def chkLanes (s : State) (f : Trail → Nat → Trail × Chk) (ls : List Nat) : State × List (Nat × Chk) :=
  let r := chkEach f ls (s, [])
  (r.1.1, r.2)

/-- The codes the checks raise; absence throws unless a residency flag takes it (R243). -/
def chkCodes (rp : Bool) (cs : List (Nat × Chk)) : List (Nat × Nat) :=
  cs.filterMap (fun p => match p.2 with
    | .code c => some (p.1, c)
    | .absent => if rp then none else some (p.1, 0x8002)
    | _ => none)

/-! ### Overlaps and marks -/

def placeBytes (p : Place) (n : Nat) : Option (Bool × Nat × Nat) :=
  match p with
  | .phys a => some (false, a, a + n)
  | .scr o => some (true, o, o + n)
  | .page _ _ _ _ | .held _ => none

/-- Do two elements share a byte? An element whose page is awaited shares none. -/
def overlaps (p : Place) (n : Nat) (q : Place) (m : Nat) : Bool :=
  match placeBytes p n, placeBytes q m with
  | some (k, a, b), some (k', a', b') => k == k' && decide (a < b') && decide (a' < b)
  | _, _ => false

/-- Bytes of an element in flight: of a ZFILL's, the length of its page's piece. -/
def elemLen (f : Flight) (e : Elem) : Nat := if f.kind == .zfill then e.data else f.size.bytes

/-- Is an instruction in flight a store that waits to enter Buf(G)? -/
def Flight.storing (f : Flight) : Bool := f.kind == .store || f.kind == .zfill

/-- Elements not yet performed of the flights issued before a number. -/
def olderElems (g : Gang) (seq : Nat) : List (Flight × Elem) :=
  (g.flights.filter (fun f => f.seq < seq)).flatMap (fun f => (f.elems.filter (fun e => !e.done)).map (fun e => (f, e)))

/-- Is some access issued before a number still unperformed (R216)? -/
def olderPending (g : Gang) (seq : Nat) : Bool :=
  !(olderElems g seq).isEmpty || g.buf.any (fun e => decide (e.seq < seq)) || g.sysq.any (fun e => decide (e.seq < seq))

/-- May an access numbered `seq` be performed now, as far as fences and joins go (Table 11-3)? An acquire of a fence in
flight holds every later access (R217, R218). -/
def marksAllow (g : Gang) (seq : Nat) : Bool :=
  g.marks.all (fun m => decide (seq < m) || !olderPending g m)
    && g.flights.all (fun f => !(f.kind == .fence) || decide (seq < f.seq))

/-- Drop the marks that hold nothing any more. -/
def pruneMarks (g : Gang) : Gang := { g with marks := g.marks.filter (olderPending g) }

/-- A mark at the present point of the issue stream. -/
def mark (g : Gang) : Gang := if g.marks.contains g.seq then g else { g with marks := g.marks ++ [g.seq] }

/-- A join orders the accesses before it against those after it (Table 11-3). -/
def joinMark (g : Gang) : Gang := mark g

/-! ### Drains (R212, R220, R229) -/

/-- Storage size of a matrix operand in bits, from a size code (R75). -/
def storageBits (code : Nat) : Nat :=
  match code with
  | 0 => 1 | 1 => 4 | 2 => 8 | 3 => 16 | _ => 0

/-- The scratchpad ranges a matrix command reads for its step (Table 14-3), as offset and length. -/
def mxReads (k : MxKind) : List (Nat × Nat) :=
  let scales := fun (fw sa sb n : Nat) => (if bit fw 14 then [(sa, n)] else []) ++ (if bit fw 15 then [(sb, n)] else [])
  match k with
  | .mma a b sa sb fw | .mmaP a b sa sb fw =>
    [(a, 2048 * storageBits (bits fw.toNat 10 8)), (b, 2048 * storageBits (bits fw.toNat 13 11))]
      ++ scales fw.toNat sa sb 512
  | .mmaSp a b sa sb sm fw =>
    [(a, 2048 * storageBits (bits fw.toNat 10 8)), (b, 4096 * storageBits (bits fw.toNat 13 11)), (sm, 4096)]
      ++ scales fw.toNat sa sb 1024
  | _ => []

/-- Is a write to a range of a crew's scratchpad held until a matrix step has read its operands (R229)? The step reads them as it
ends. -/
def heldByMatrix (s : State) (crew off n : Nat) : Bool :=
  s.cores.any (fun p => p.2.mxQ.any (fun m => m.crew == crew
    && (mxReads m.kind).any (fun r => decide (r.1 < off + n) && decide (off < r.1 + r.2))))

/-- One failure added to the accumulator (R219, R220). -/
def addFailure (a : FailAcc) (cause : Nat) : FailAcc :=
  { count := min (a.count + 1) (2 ^ 32 - 1), first := if a.count = 0 then cause else a.first
    link := a.link || cause == 3, host := a.host || cause == 4, table := a.table || cause == 1 || cause == 2 }

/-- A failure of a gang's store; one known only after the gang has ended counts for the launch (R220). Every lane's store counts by itself:
DESIGN CHOICE, notes/assumptions/71. -/
def failStore (s : State) (g : GRef) (cause : Nat) : State :=
  match gang? s g with
  | some x =>
    if x.ended.isSome then
      match crewOf? s g with
      | some cr => modLaunch s cr.launch (fun l => { l with fails := l.fails + 1, first := if l.fails = 0 then cause else l.first })
      | none => s
    else modGang s g (fun x => { x with fail := addFailure x.fail cause })
  | none => s

/-- Failures that no fence of a gang has reported go to its launch's completion entry as the gang ends (Table 13-5, FAILS). -/
def countUnreported (s : State) (g : GRef) : State :=
  match gang? s g, crewOf? s g with
  | some x, some cr =>
    if x.fail.count = 0 then s
    else
      modLaunch (modGang s g (fun x => { x with fail := FailAcc.zero })) cr.launch
        (fun l => { l with fails := l.fails + x.fail.count, first := if l.fails = 0 then x.fail.first else l.first })
  | _, _ => s

/-- Is a byte range inside an open window of any gang's DEV atomic? No other drain or atomic is applied there (R224). -/
def inWindow (s : State) (pa n : Nat) : Bool :=
  let open? := fun (x : Gang) => x.flights.any (fun f => f.elems.any (fun e =>
    e.win.isSome && overlaps e.place f.size.bytes (.phys pa) n))
  s.crews.any (fun c => c.2.gangs.any (fun p => open? p.2)) || s.cores.any (fun c => (c.2.sup.map open?).getD false)

/-- May an entry of a scope buffer be drained now (R212, R216, R224, R229)? -/
def drainable (s : State) (g : GRef) (x : Gang) (e : StoreEnt) : Bool :=
  let n := e.bytes.length
  marksAllow x e.seq
    && x.buf.all (fun o => decide (e.seq ≤ o.seq) || !overlaps o.place o.bytes.length e.place n)
    && (olderElems x e.seq).all (fun p => !overlaps p.2.place (elemLen p.1 p.2) e.place n)
    && (match e.place with
        | .scr o => (match crewIdOf g with | some c => !heldByMatrix s c o n | none => true)
        | .phys pa => !inWindow s pa n
        | .page _ _ _ _ | .held _ => true)

/-- The path of stores lowers once no entry of the instruction is left (Table 17-2). -/
def storeDone (s : State) (g : GRef) (op : Nat) : State :=
  modGang s g (fun x =>
    if x.buf.any (fun e => e.op == op) || x.sysq.any (fun e => e.op == op) then pruneMarks x
    else pruneMarks (lowerPath (lowerPath x 1 op) 2 op))

/-- A request for the line of an entry, made with the first entry of its instruction that leaves; the others of that line ride with it
(R240). -/
def askLine (s : State) (g : GRef) (e : StoreEnt) (pa : Nat) : State :=
  if e.asked then s
  else
    let mine := fun o : StoreEnt => o.op == e.op && (match o.place with | .phys p => p / 128 == pa / 128 | _ => false)
    modGang (countAccess s (coreOf s g) (pointOf (gangPair s g) e.scope) pa) g
      (fun x => { x with buf := x.buf.map (fun o => if mine o then { o with asked := true } else o) })

/-- The launch of a gang, for the failures of its stores (R220). -/
def launchIdOf (s : State) (g : GRef) : Option Nat := (crewOf? s g).map (fun cr => cr.launch)

/-- Bytes of a gang's store, or of its atomic, written at a point of the hierarchy; what lies beyond the device is noted as its launch's
(R212, R220). -/
def storeAt (s : State) (g : GRef) (p : Point) (pa : Nat) (bs : List Byte) : State :=
  writeAtN (if homeIsMem s pa then s else setStorer s (launchIdOf s g) pa bs.length) (coreOf s g) p pa bs

/-- A line that a ZFILL has zeroed whole at its home slice is held zero-flagged (R203). -/
def flagZero (s : State) (pa : Nat) : State :=
  if homeIsMem s pa then l2Zero s (pa / 128) else if farZero s (pa / 128) then setZeroFar s (pa / 128) true else s

/-- Drain one entry: written at the point of its scope, or refused and counted (R212, R220); a whole line of ZFILL is held as
zero-flagged from then on (R203). A scratchpad store whose bank
has left scratchpad mode is not performed and throws (R197). -/
def drainEntry (s : State) (g : GRef) (e : StoreEnt) : State × List (Nat × Nat × Nat) :=
  let s := modGang s g (fun x => { x with buf := x.buf.filter (fun o => o ≠ e) })
  match e.place with
  | .scr o =>
    match crewIdOf g, crewOf? s g with
    | some ci, some cr =>
      if scrMode s cr o then (storeDone (scrWrite s ci o e.bytes) g e.op, [])
      else (storeDone s g e.op, [(e.lane, e.pc, 0x8007)])
    | _, _ => (s, [])
  | .phys pa =>
    let s := askLine s g e pa
    match (if e.leafW then refusalOf s (classOf g) (ctxOf s g) pa .write else some 1) with
    | some cause => (storeDone (failStore s g cause) g e.op, [])
    | none =>
      if regionOf pa = .regs then (storeDone (regWrite s false pa e.bytes) g e.op, [])
      else
        let s := raceGang s g e.pc pa e.scope true false
        match pointOf (gangPair s g) e.scope with
        | .sys =>
          let s := storeAt s g .home pa e.bytes
          if homeIsMem s pa then (storeDone s g e.op, [])
          else (modGang s g (fun x => { x with sysq := x.sysq ++ [⟨e.seq, e.op, pa, e.bytes⟩] }), [])
        | p =>
          let s := storeAt s g p pa e.bytes
          (storeDone (if e.bytes.length = 128 then flagZero s pa else s) g e.op, [])
  | .page _ _ _ _ | .held _ => (s, [])

/-- What a store that cannot reach Y(x) leaves at H(x): those of its bytes that are still its own there are clean from now on. -/
def homeClean (s : State) (k : Option Nat) (pa : Nat) (bs : List Byte) : State :=
  { s with hcopy := (bs.zipIdx).foldl (fun t b => Tab.upd t (pa + b.2) (fun c =>
      if c.val = b.1 ∧ Tab.find? s.storers (pa + b.2) = k then { c with dirty := false } else c)) s.hcopy }

/-- A SYS store reaches Y(x), or fails on the way (R212, R220): what H(x) holds dirty for its bytes goes to Y(x) and is clean
there. A younger value written at H(x) meanwhile goes with it, and bytes already written back have arrived. -/
def sysArrive (s : State) (g : GRef) (e : SysEnt) : State :=
  let s := modGang s g (fun x => { x with sysq := x.sysq.filter (fun o => o ≠ e) })
  let s := match wayDown s e.pa with
    | some cause => homeClean (failStore s g cause) (launchIdOf s g) e.pa e.bytes
    | none => (List.range e.bytes.length).foldl (fun s i => homeWriteBack s (e.pa + i)) s
  storeDone s g e.op

/-- Dirty host and peer lines go to their system points; each that cannot get there counts as a failure of the launches whose stores it
holds (R217, R220, R234). -/
def settleHome (s : State) : State :=
  ((tabLines (s.hcopy.filter (fun p => p.2.dirty))).reverse).foldl farSettle s

/-- Drain whatever can be drained, oldest first, as often as there are entries. -/
def drainSome (g : GRef) : Nat → State → State × List (Nat × Nat × Nat)
  | 0, s => (s, [])
  | n + 1, s =>
    match gang? s g with
    | none => (s, [])
    | some x =>
      match x.buf.find? (drainable s g x) with
      | none => (s, [])
      | some e =>
        let r := drainEntry s g e
        let t := drainSome g n r.1
        (t.1, r.2 ++ t.2)

/-- Drain the whole buffer; some entries stay where R229 or an unperformed load holds them. -/
def drainAll (s : State) (g : GRef) : State × List (Nat × Nat × Nat) :=
  drainSome g (((gang? s g).map (fun x => x.buf.length)).getD 0) s

/-- Every store of the gang to a host or peer location brought to its system point: those of SYS scope that are on their way, and
those of narrower scope that lie dirty at H(x) (R217). -/
def sysAll (s : State) (g : GRef) : State :=
  match gang? s g with
  | none => s
  | some x => settleHome (x.sysq.foldl (fun s e => sysArrive s g e) s)

/-- May an entry of another gang be drained as a release of its core is made? A store whose bank has left scratchpad mode is left to
its own drain, where it throws (R197). -/
def drainableQuiet (s : State) (g : GRef) (x : Gang) (e : StoreEnt) : Bool :=
  drainable s g x e && (match e.place, crewOf? s g with
    | .scr o, some cr => scrMode s cr o
    | _, _ => true)

def drainQuiet (g : GRef) : Nat → State → State
  | 0, s => s
  | n + 1, s =>
    match gang? s g with
    | none => s
    | some x =>
      match x.buf.find? (drainableQuiet s g x) with
      | none => s
      | some e => drainQuiet g n (drainEntry s g e).1

/-- The gangs whose scope buffers lie on a core: the user gangs bound to it, and its supervisor. -/
def buffersOn (s : State) (c : Nat) : List GRef := gangsOn s c ++ [.sup c]

/-- The other gangs of a core drain too, at the latest at a release at DEV by any gang of the core (R225). -/
def drainOthers (s : State) (g : GRef) : State :=
  ((buffersOn s (coreOf s g)).filter (fun h => h != g)).foldl
    (fun s h => drainQuiet h (((gang? s h).map (fun x => x.buf.length)).getD 0) s) s

/-- Does a store that entered it no later than in cycle `upTo` remain in a scope buffer of another gang of the core (R225;
notes/assumptions/56)? -/
def othersHold (s : State) (g : GRef) (upTo : Nat) : Bool :=
  ((buffersOn s (coreOf s g)).filter (fun h => h != g)).any (fun h =>
    ((gang? s h).map (fun x => x.buf.any (fun e => decide (e.born ≤ upTo)))).getD false)

/-! ### Releases and acquires (R217, Table 11-4) -/

/-- Have all loads and atomics of the gang that were issued before a number been performed? -/
def loadsPerformed (x : Gang) (seq : Nat) : Bool :=
  x.flights.all (fun f => decide (seq ≤ f.seq) || (f.kind == .sysread || f.kind == .fence) || f.elems.all (fun e => e.done))

/-- A release or acquire at DEV or SYS stamps the crew's clocks (R398). -/
def raceRel (s : State) (g : GRef) : State := match crewIdOf g with | some c => raceRelease s c | none => s
def raceAcq (s : State) (g : GRef) : State := match crewIdOf g with | some c => raceAcquire s c | none => s

/-- A release at a scope of what a gang issued before a number, if it can complete now: every load performed, every store
drained, and for DEV and SYS what the other buffers of the core held in cycle `upTo` drained and every dirty copy of the core written back,
for SYS every store at Y(x) (R217, R225). -/
def releaseTo (s : State) (g : GRef) (sc : Scope) (seq upTo : Nat) : Option (State × List (Nat × Nat × Nat)) :=
  match gang? s g with
  | none => some (s, [])
  | some x =>
    if !loadsPerformed x seq then none
    else
      let r := drainAll s g
      if ((gang? r.1 g).map (fun x => x.buf.all (fun e => decide (seq ≤ e.seq)))).getD true then
        let wide := drainOthers r.1 g
        match sc with
        | .gang | .crew => some r
        | .dev =>
          if othersHold wide g upTo then none else some (raceRel (coreWriteBackAll wide (coreOf wide g)) g, r.2)
        | .sys =>
          if othersHold wide g upTo then none else some (raceRel (sysAll (coreWriteBackAll wide (coreOf wide g)) g) g, r.2)
      else none

/-- A release of everything the gang has issued. -/
def release (s : State) (g : GRef) (sc : Scope) : Option (State × List (Nat × Nat × Nat)) :=
  releaseTo s g sc (((gang? s g).map (fun x => x.seq)).getD 0) s.cycle.toNat

/-- A release of scratchpad stores only, at the banks (Table 11-4, engine commands). -/
def releaseScr (s : State) (g : GRef) : Option (State × List (Nat × Nat × Nat)) :=
  let isScr := fun e : StoreEnt => match e.place with | .scr _ => true | _ => false
  let r := (((gang? s g).map (fun x => x.buf.filter isScr)).getD []).foldl
    (fun (acc : State × List (Nat × Nat × Nat)) e =>
      match gang? acc.1 g with
      | some x =>
        if drainable acc.1 g x e then
          let t := drainEntry acc.1 g e
          (t.1, acc.2 ++ t.2)
        else acc
      | none => acc) (s, [])
  if ((gang? r.1 g).map (fun x => x.buf.any isScr)).getD false then none else some r

/-- An acquire at a scope (R217). -/
def acquire (s : State) (g : GRef) (sc : Scope) : State :=
  match sc with
  | .gang | .crew => s
  | .dev => raceAcq (coreDiscardClean s (coreOf s g)) g
  | .sys => raceAcq (peerDiscardClean (coreDiscardClean s (coreOf s g))) g

/-- The scope of a crew's barrier for global memory: CREW, or DEV in a pair crew (Table 11-4). -/
def crewScope (s : State) (g : GRef) : Scope := if gangPair s g then .dev else .crew

/-! ### Loads and atomics in flight (R213, R222, R242, R245) -/

/-- Does a place lie in the register block? -/
def inRegs (p : Place) : Bool := match p with | .phys pa => regionOf pa == .regs | _ => false

/-- No earlier entry of the gang's buffer lies on the bytes of a place. -/
def bufFree (x : Gang) (seq : Nat) (p : Place) (n : Nat) : Bool :=
  x.buf.all (fun o => decide (seq ≤ o.seq) || !overlaps o.place o.bytes.length p n)

/-- May an element be performed now (Table 11-3)? An atomic also waits until earlier entries for its bytes are drained
(R222), and so does a read of a register, which has effects of its own (R5); a write to a held operand range waits (R229). -/
def elemReady (s : State) (g : GRef) (x : Gang) (f : Flight) (e : Elem) : Bool :=
  let n := f.size.bytes
  let at? := match f.kind with | .atomic _ => true | _ => false
  !e.done && !f.storing && placeBytes e.place n != none && marksAllow x f.seq
    && (olderElems x f.seq).all (fun p => !overlaps p.2.place (elemLen p.1 p.2) e.place n)
    && ((!at? && !inRegs e.place) || bufFree x f.seq e.place n)
    && (match at?, e.place, crewIdOf g with
        | true, .scr o, some c => !heldByMatrix s c o n
        | _, _, _ => true)

/-- The youngest entry of the gang's buffer for a byte, older than a number (R213). -/
def bufByte (x : Gang) (seq : Nat) (scr : Bool) (a : Nat) : Option Byte :=
  x.buf.foldl (fun acc e =>
    if e.seq < seq then
      match e.place with
      | .phys p => if !scr ∧ p ≤ a ∧ a < p + e.bytes.length then e.bytes[a - p]? else acc
      | .scr p => if scr ∧ p ≤ a ∧ a < p + e.bytes.length then e.bytes[a - p]? else acc
      | .page _ _ _ _ | .held _ => acc
    else acc) none

/-- The bytes a load of the gang sees at a place (R213), and whether one of them is uncorrectable (R199). -/
def loadBytes (s : State) (g : GRef) (seq : Nat) (sc : Scope) (p : Place) (n : Nat) : State × List Byte × Bool :=
  match gang? s g with
  | none => (s, List.replicate n 0#8, false)
  | some x =>
    match p with
    | .phys pa =>
      if regionOf pa = .regs then
        let r := regRead s pa n
        (r.1, r.2, false)
      else
        let c := coreOf s g
        let pt := pointOf (gangPair s g) sc
        let as := ((List.range n).map (fun i => pa + i)).filter (fun a => (bufByte x seq false a).isNone)
        (List.range n).foldl (fun acc i =>
          match bufByte x seq false (pa + i) with
          | some b => (acc.1, acc.2.1 ++ [b], acc.2.2)
          | none =>
            let bad := lostAt acc.1 c pt (pa + i)
            let r := readAt acc.1 c pt (pa + i)
            (r.1, acc.2.1 ++ [r.2], acc.2.2 || bad)) (gather s c pt as, [], false)
    | .scr o =>
      match crewOf? s g with
      | some cr =>
        (s, (List.range n).map (fun i => (bufByte x seq true (o + i)).getD (cr.scr.read (o + i))),
          (List.range n).any (fun i => (bufByte x seq true (o + i)).isNone && isLost cr.lostScr (o + i)))
      | none => (s, List.replicate n 0#8, false)
    | .page _ _ _ _ | .held _ => (s, List.replicate n 0#8, false)

/-- Does a load of `n` bytes need the way to host or peer memory while it is down: for a byte that no buffer of the gang and no copy on the
way to its point holds (R356, R369)? -/
def cutOffAt (s : State) (g : GRef) (x : Gang) (seq : Nat) (sc : Scope) (p : Place) (n : Nat) : Bool :=
  match p with
  | .phys pa =>
    (wayDown s pa).isSome && (List.range n).any (fun i =>
      let far := (Tab.find? s.hcopy (pa + i)).isNone
      (bufByte x seq false (pa + i)).isNone
        && (match atPoint s (coreOf s g) (pointOf (gangPair s g) sc) with
            | .core => (coreCopy? s (coreOf s g) (pa + i)).isNone && far
            | .home => far
            | .sys => true))
  | _ => false

/-- The new value of an atomic (Table 12-4); `n` is the width in bits. -/
def atomValue (op : AtomOp) (n old d cmp : Nat) : Nat :=
  match op with
  | .add => (old + d) % 2 ^ n
  | .smin => if sext old n ≤ sext d n then old else d
  | .smax => if sext old n ≥ sext d n then old else d
  | .umin => min old d
  | .umax => max old d
  | .and => Nat.land old d
  | .or => Nat.lor old d
  | .xor => Nat.xor old d
  | .xchg => d
  | .cas => if old = cmp then d else old
  | .fadd => FSpec.f32.round ((FSpec.f32.decode old).add (FSpec.f32.decode d))

/-- Write the result of an atomic at its point. -/
def atomWrite (s : State) (g : GRef) (sc : Scope) (p : Place) (n x : Nat) : State :=
  match p with
  | .phys pa => if regionOf pa = .regs then regWrite s false pa (toLE n x) else storeAt s g (pointOf (gangPair s g) sc) pa (toLE n x)
  | .scr o => (match crewIdOf g with | some c => scrWrite s c o (toLE n x) | none => s)
  | .page _ _ _ _ | .held _ => s

def modFlight (g : Gang) (id : Nat) (f : Flight → Flight) : Gang :=
  { g with flights := g.flights.map (fun x => if x.id = id then f x else x) }

def modElem (f : Flight) (lane : Nat) (h : Elem → Elem) : Flight :=
  { f with elems := f.elems.map (fun e => if e.lane = lane then h e else e) }

/-- The line of memory in which a place lies. -/
def lineAt (p : Place) : Option Nat := match p with | .phys pa => some (pa / 128) | _ => none

/-- A line is requested once for an instruction, with the first of its elements there that is performed (R240, Table 17-7). -/
def countElem (s : State) (g : GRef) (f : Flight) (e : Elem) : State :=
  match e.place with
  | .phys pa =>
    let before := f.elems.any (fun o => (o.done || o.win.isSome) && !o.absent && (lineAt o.place == some (pa / 128)))
    if regionOf pa = .regs || before then s else countAccess s (coreOf s g) (pointOf (gangPair s g) f.scope) pa
  | _ => s

/-- Perform a load's element, or an atomic in one step (R213, R222): the state, and whether the data was bad. -/
def performElem (s : State) (g : GRef) (f : Flight) (e : Elem) : State × Bool :=
  let n := f.size.bytes
  let r := loadBytes (countElem s g f e) g f.seq f.scope e.place n
  let old := leNat r.2.1
  let at? := match f.kind with | .atomic _ => true | _ => false
  let s := match e.place with
    | .phys pa => raceGang r.1 g f.pc pa f.scope at? at?
    | _ => r.1
  let s := match f.kind with
    | .atomic op => if r.2.2 then s else atomWrite s g f.scope e.place n (atomValue op (8 * n) old e.data e.cmp)
    | _ => s
  (modGang s g (fun x => pruneMarks (modFlight x f.id (fun f => modElem f e.lane
    (fun e => { e with done := true, result := old })))), r.2.2)

/-- Open the window of a DEV atomic at H(x): its read, the write to follow (R224). -/
def openWindow (s : State) (g : GRef) (f : Flight) (e : Elem) : State × Bool :=
  let r := loadBytes (countElem s g f e) g f.seq f.scope e.place f.size.bytes
  (modGang r.1 g (fun x => modFlight x f.id (fun f => modElem f e.lane
    (fun e => if r.2.2 then { e with done := true } else { e with win := some (leNat r.2.1) }))), r.2.2)

/-- The value LD and LDS write for an element (R242). -/
def loadResult (sx : Bool) (sz : Size) (x : Nat) : Nat :=
  match sz with
  | .b8 => if sx then low (sext x 8) 32 else x
  | .b16 => if sx then low (sext x 16) 32 else x
  | _ => x

/-- What a flight's lane receives. -/
def laneResult (f : Flight) (e : Elem) : Nat :=
  match f.kind with
  | .load sx => loadResult sx f.size e.result
  | _ => e.result

/-- Can the flight write its destinations: every element performed, and room for a pushed entry (R242)? -/
def flightReady (s : State) (g : GRef) (x : Gang) (f : Flight) : Bool :=
  f.elems.all (fun e => e.done) && (match f.dst with
    | .q n => !qcfgUsable s g (qCfg s g n) || decide ((qFifo s g n).entries.length < qCap s g n x.width)
    | _ => true)

/-- Does the push of a load or an atomic, which has its data, wait for room in a full queue (R122)? -/
def pushWaits (s : State) (g : GRef) (x : Gang) (f : Flight) : Bool := f.elems.all (fun e => e.done) && !flightReady s g x f

/-- Complete a load or atomic: destinations and residency flags written, counters lowered (R242, R243, R345, R347). Lanes in
`bad` met uncorrectable data and keep their destination. -/
def finishFlight (s : State) (g : GRef) (f : Flight) (bad : Mask) : State :=
  let es := f.elems.filter (fun e => !bad.getLsbD e.lane)
  let s := match f.dst with
    | .q n =>
      if qcfgUsable s g (qCfg s g n) then
        pushed s g n ⟨es.foldl (fun (t : Tab W32) (e : Elem) => Tab.set 0#32 t e.lane (BitVec.ofNat 32 (laneResult f e))) []⟩
      else s
    | _ => s
  modGang s g (fun x =>
    let x := match f.dst with
      | .v n => es.foldl (fun (x : Gang) (e : Elem) => wrVw x n e.lane f.size.is64 (laneResult f e)) x
      | _ => x
    let x := match f.rp with
      | some p => es.foldl (fun (x : Gang) (e : Elem) => wrP x p e.lane (!e.absent)) x
      | none => x
    let x := lowerK { x with flights := x.flights.filter (fun y => y.id ≠ f.id) } f.ctr
    pruneMarks (match f.path with | some p => lowerPath x p f.id | none => x))

/-! ### Issue of memory instructions -/

/-- A number for the next access of a gang. -/
def nextSeq (g : Gang) : Gang := { g with seq := g.seq + 1 }

/-- A long-latency instruction enters flight: it counts in its clause and raises its counters (R98, R345, R347). -/
def launchFlight (s : State) (is : Iss) (mk : Nat → Flight) : State :=
  let id := is.gang.seq
  let f := { mk id with born := s.cycle.toNat }
  modGang s is.ref (fun x =>
    let x := raiseK { nextSeq x with flights := x.flights ++ [f] } f.ctr
    let x := match f.path with | some p => raisePath x p id | none => x
    { x with groups := x.groups.modify is.grp (fun q => { q with llc := q.llc + 1 }) })

/-- The elements of a load or atomic from its checks. -/
def elemsOf (cs : List (Nat × Chk)) (data cmp : Nat → Nat) : List Elem :=
  cs.filterMap (fun p => match p.2 with
    | .ok pl _ => some ⟨p.1, pl, data p.1, cmp p.1, none, false, false, 0⟩
    | .absent => some ⟨p.1, .phys 0, 0, 0, none, true, true, 0⟩
    | _ => none)

/-- Does any element wait on a page? -/
def anyPage (cs : List (Nat × Chk)) : Bool :=
  cs.any (fun p => match p.2 with | .ok (.page _ _ _ _) _ => true | _ => false)

/-- Ask for every page an instruction's elements wait on, each for the waiter of its virtual page (R273). -/
def askPages (s : State) (ctx kind : Nat) (w : Nat → Waiter) (es : List Place) : State :=
  es.foldl (fun s p => match p with
    | .page fn g va tb => requestPage s fn g ctx (if tb then 3 else kind) 1 (w (va / 65536))
    | _ => s) s

/-- Does a place still want its translation: a page awaited, or a block that is closing? -/
def Place.awaited : Place → Bool
  | .page _ _ _ _ | .held _ => true
  | _ => false

/-- A free order of a list: its members sorted by free values drawn from number `k` on, by a key of theirs. -/
def insertFree {α : Type} (k : Nat) (key : α → Nat) (e : α) : List α → List α
  | [] => [e]
  | o :: os =>
    if (Config.freeValue (k + key e)).toNat ≤ (Config.freeValue (k + key o)).toNat then e :: o :: os
    else o :: insertFree k key e os

def freeOrder {α : Type} (k : Nat) (key : α → Nat) (es : List α) : List α := es.foldl (fun os e => insertFree k key e os) []

/-- Do two of the entries share a byte? -/
def clashing : List StoreEnt → Bool
  | [] => false
  | e :: es => es.any (fun o => overlaps e.place e.bytes.length o.place o.bytes.length) || clashing es

/-- The entries of one instruction in the order they are written: where lanes store to one location, the lane whose value
stands is free (R221; notes/assumptions/17). -/
def laneOrder (s : State) (es : List StoreEnt) : State × List StoreEnt :=
  if clashing es then ({ s with fresh := s.fresh + 64 }, freeOrder s.fresh (fun e => e.lane) es)
  else (s, es)

/-- Put entries into Buf(G) as one instruction of a path (R212, R347). -/
def bufferStores (s : State) (g : GRef) (es : List StoreEnt) (path : Nat) : State :=
  modGang s g (fun x =>
    let op := x.seq
    let x := { nextSeq x with buf := x.buf ++ es }
    if es.isEmpty then x else raisePath x path op)

/-- A range cut at multiples of `size`: first address and length of each piece; `fuel` bounds their number. -/
def cutAt (size a n : Nat) : Nat → List (Nat × Nat)
  | 0 => []
  | fuel + 1 =>
    if n = 0 then []
    else
      let k := min n (size - a % size)
      (a, k) :: cutAt size (a + k) (n - k) fuel

/-- The parts of a range that lie in one page each. -/
def pagePieces (a n : Nat) : List (Nat × Nat) := cutAt 65536 a n (n / 65536 + 2)
/-- The parts of a range that lie in one line each. -/
def linePieces (a n : Nat) : List (Nat × Nat) := cutAt 128 a n (n / 128 + 2)

/-- The stores of zero that cover the pieces of a ZFILL, a line or a part of one each, as a lane's stores of one instruction (R250). -/
def zeroStores (op pc lane born : Nat) (mk : Nat → Place) (rs : List (Nat × Nat)) : List StoreEnt :=
  (rs.flatMap (fun r => linePieces r.1 r.2)).map (fun p => ⟨op, op, lane, pc, mk p.1, List.replicate p.2 0#8, .dev, true, false, born⟩)

/-- The lowest lane of a mask; a uniform instruction's stores are its. -/
def lowLane (m : Mask) : Nat := ((List.range 64).find? (fun l => m.getLsbD l)).getD 0

/-- The buffer entries of a store's elements, made in cycle `born`: each lane's bytes at its place; of a ZFILL, zeros over each page's
piece. -/
def storeEntries (f : Flight) (born : Nat) : List StoreEnt :=
  match f.kind with
  | .zfill => zeroStores f.seq f.pc (lowLane f.active) born .phys
      (f.elems.filterMap (fun e => match e.place with | .phys pa => some (pa, e.data) | _ => none))
  | _ => f.elems.map (fun e => ⟨f.seq, f.id, e.lane, f.pc, e.place, toLE f.size.bytes e.data, f.scope, e.cmp == 1, false, born⟩)

/-- A store whose last element has been translated enters Buf(G) whole (R368). -/
def settleStore (s : State) (g : GRef) (f : Flight) : State :=
  if f.elems.any (fun e => e.place.awaited) then s
  else
    let r := laneOrder s (storeEntries f s.cycle.toNat)
    modGang r.1 g (fun x => { x with buf := x.buf ++ r.2, flights := x.flights.filter (fun y => y.id ≠ f.id) })

/-- An instruction in flight of a group, with nothing to await or to write yet. -/
def flightFor (is : Iss) (kind : FlightKind) (id : Nat) : Flight :=
  { id := id, pc := is.q.pc, kind := kind, seq := id, scope := .dev, size := .b64, dst := .exm, rp := none, elems := [], ctr := none
    path := none, leafR := true, value := 0, lanes := [], quads := is.q.quads, active := BitVec.ofNat 64 (exmOf is.gang is.q), born := 0 }

/-- A store that waits: it has issued, its data is taken, and it enters Buf(G) later (R368). -/
def awaitFlight (s : State) (is : Iss) (f : Flight) (path : Nat) : State :=
  modGang s is.ref (fun x => raisePath { nextSeq x with flights := x.flights ++ [{ f with born := s.cycle.toNat }] } path f.id)

/-- A store with elements that wait on pages. -/
def awaitStore (s : State) (is : Iss) (cs : List (Nat × Chk)) (sc : Scope) (sz : Size) (data : Nat → Nat) (path : Nat) : State :=
  let es := cs.filterMap (fun p => match p.2 with
    | .ok pl lw => some (Elem.mk p.1 pl (data p.1) (b2n lw) none false false 0)
    | _ => none)
  awaitFlight s is { flightFor is .store is.gang.seq with scope := sc, size := sz, elems := es } path

/-- Put the stores of an instruction's lanes into Buf(G) (R212, R244). -/
def enterStores (s : State) (is : Iss) (cs : List (Nat × Chk)) (sc : Scope) (n : Nat) (data : Nat → Nat) (path : Nat) : State :=
  let op := is.gang.seq
  let es := cs.filterMap (fun p => match p.2 with
    | .ok pl lw => some (StoreEnt.mk op op p.1 is.q.pc pl (toLE n (data p.1)) sc lw false s.cycle.toNat)
    | _ => none)
  let r := laneOrder s es
  bufferStores r.1 is.ref r.2 path

/-- The issuing group as one that waits for a virtual page. -/
def groupWaits (is : Iss) (vpage : Nat) : Waiter := .group is.ref (lowQuad is.q) vpage

end Sys2Proof.Machine
end

