-- ==== Sys2Proof/Machine/Finish.lean ====
section
/-!
DEFINITION. What ends or resolves: operations and their tokens (spec/14_engines.md R277 to R279), grant queues and open
bodies (spec/13_queues.md R272, spec/15_ordered_system.md R309), try regions that close (spec/03_unwinding.md R50), and the
end of a gang (spec/07_control.md R146).
-/

namespace Sys2Proof.Machine

/-! ### Operations (R277 to R279) -/

/-- A token: entry index and generation (R278). -/
def tokenOf (idx gen : Nat) : Nat := idx + gen * 1024

/-- Does a future register of a gang of the crew hold a token? -/
def tokenHeld (cr : Crew) (t : Nat) : Bool := cr.gangs.any (fun p => p.2.f.any (fun q => q.2.toNat == t))

/-- Entries that can take a new operation: never used, or resolved with no future register naming them. -/
def freeEntries (cr : Crew) : List Nat :=
  (List.range 768).filter (fun i =>
    match Tab.find? cr.ops i with
    | none => true
    | some e => e.st != .unresolved && !tokenHeld cr (tokenOf i e.gen))

/-- Generations run from 1 to 2^22 - 1 (R278). -/
def nextGen (g : Nat) : Nat := if g + 1 < 2 ^ 22 then g + 1 else 1

/-- Create an operation (R277), in a free entry that nothing fixes (a free value); none without a free entry. -/
def newOp (s : State) (c gang : Nat) (k : OpKind) : Option (State × Nat) :=
  match crew? s c with
  | none => none
  | some cr =>
    match freeEntries cr with
    | [] => none
    | i :: is =>
      let idx := ((i :: is)[(Config.freeValue s.fresh).toNat % (i :: is).length]?).getD i
      let gen := nextGen (Tab.get OpEnt.free cr.ops idx).gen
      some (modCrew (freshen s) c (fun cr => { cr with ops := Tab.put cr.ops idx ⟨gen, true, .unresolved, 0, false, k, gang⟩ }),
        tokenOf idx gen)

/-- The entry a token names; none where the generation does not match or for the null token (R278). -/
def opOf (cr : Crew) (tok : Nat) : Option OpEnt :=
  match Tab.find? cr.ops (tok % 1024) with
  | some e => if e.gen = tok / 1024 then some e else none
  | none => none

/-- ST codes of Table 14-1. -/
def stCode : OpStatus → Nat
  | .unresolved => 0 | .ok => 1 | .empty => 2 | .cancelled => 3 | .faulted => 4

/-- The status word a token reads as (R278, R279). -/
def statusOf (cr : Crew) (tok : Nat) : Nat := match opOf cr tok with | some e => e.word.toNat | none => 2

def opResolved (cr : Crew) (tok : Nat) : Bool := match opOf cr tok with | some e => e.st != .unresolved | none => true

/-- Resolve an operation with the other fields of its status word; a copy's resolution lowers path 3 (R279, R347). -/
def resolveOp (s : State) (c tok : Nat) (st : OpStatus) (word : Nat) : State :=
  match (crew? s c).bind (fun cr => opOf cr tok) with
  | some e =>
    if e.st = .unresolved then
      let e' := { e with st := st, word := BitVec.ofNat 64 (word + stCode st) }
      let s := modCrew s c (fun cr => { cr with ops := Tab.put cr.ops (tok % 1024) e' })
      if e.kind = .copy then modGang s (.user c e.gang) (fun x => lowerPath x 3 tok) else s
    else s
  | none => s

/-! ### Grant queues (R272) -/

/-- The run of R entries at the head of a queue shares one grant. Returns the entries left and those granted now. -/
def serveRun : List GrantEnt → List GrantEnt × List GrantEnt
  | [] => ([], [])
  | e :: es =>
    if e.w then (e :: es, [])
    else if e.released then serveRun es
    else
      let r := serveRun es
      if e.granted then (e :: r.1, r.2) else ({ e with granted := true } :: r.1, e :: r.2)

/-- Serve one tile's queue: released entries leave at the head; the head is granted, alone if W, with the R entries behind
it if R. -/
def serveTile : List GrantEnt → List GrantEnt × List GrantEnt
  | [] => ([], [])
  | e :: es =>
    if e.released then serveTile es
    else if e.w then (if e.granted then (e :: es, []) else ({ e with granted := true } :: es, [e]))
    else serveRun (e :: es)

/-- A grant acquires its tile's lines at DEV for the gang it goes to (R231), and is counted (0x88B). -/
def takeGrant (s : State) (e : GrantEnt) : State :=
  let c := coreOf s (.user e.crew e.gang)
  let s := modCore s c (fun x => { x with cp := x.cp.filter (fun p => p.2.dirty || tileOf p.1 != e.tile) })
  raceGrant (countDie s (homeDie (256 * e.tile)) 0x88B 1) e.crew e.tile

/-- Serve every queue. -/
def serveGrants (s : State) : State :=
  (s.grants.map (fun e => e.tile)).eraseDups.foldl (fun s t =>
    let r := serveTile (s.grants.filter (fun e => e.tile == t))
    r.2.foldl takeGrant { s with grants := s.grants.filter (fun e => e.tile != t) ++ r.1 }) s

/-- Release every grant, due or held, of one transaction, in the grant queues and in the merged order not yet sent. -/
def releaseGrants (s : State) (c gang op : Nat) : State :=
  let f := fun e : GrantEnt => if e.crew = c ∧ e.gang = gang ∧ e.op = op then { e with released := true } else e
  serveGrants { s with grants := s.grants.map f, merged := s.merged.map f }

/-- A transaction ends: a release, then the line clocks of its W tiles, and its grants are given up (R309, R398). -/
def endTicket (s : State) (c n : Nat) (t : Ticket) : State :=
  let s := t.tiles.foldl (fun s e => if e.2 then raceTile s c e.1 else s) (raceRel s (.user c n))
  releaseGrants s c n t.op

/-- Close the open body of a gang and release its grants (R309). -/
def closeBody (s : State) (g : GRef) : State :=
  match g, gang? s g with
  | .user c n, some x =>
    match x.body with
    | some t => endTicket (modGang s g (fun x => { x with body := none })) c n t
    | none => s
  | _, _ => s

/-- Does a byte lie in a tile of a ticket? -/
def inTiles (t : Ticket) (pa : Nat) : Bool := t.tiles.any (fun e => e.1 == tileOf pa)

/-- Dirty copies of a ticket's tiles at a core point, written back. -/
def writeBackTiles (s : State) (c : Nat) (t : Ticket) : State :=
  match core? s c with
  | none => s
  | some x => ((tabLines x.cp).filter (fun l => inTiles t (128 * l))).foldl (fun s l => coreLineHome s c l) s

/-- Does a store of the gang to a tile of a ticket remain in Buf(G)? -/
def tileStores (s : State) (g : GRef) (t : Ticket) : Bool :=
  ((gang? s g).map (fun x => x.buf.any (fun e => match e.place with
    | .phys pa => inTiles t pa
    | _ => false))).getD false

/-- Bring the stores of a gang to the tiles of its open body to H, as far as they can be drained (R309): the state, throws of
scratchpad stores, and whether none is left. -/
def settleBody (s : State) (g : GRef) : State × List (Nat × Nat × Nat) × Bool :=
  match (gang? s g).bind (fun x => x.body) with
  | none => (s, [], true)
  | some t =>
    let r := drainAll s g
    (writeBackTiles r.1 (coreOf r.1 g) t, r.2, !tileStores r.1 g t)

/-- Has every engine command that was accepted in the body completed (R309)? -/
def bodyCommandsDone (s : State) (c n op : Nat) : Bool :=
  let mine := fun m : CopyCmd => m.crew == c && m.gang == n && (m.body.map (fun t => t.op)) == some op
  s.cores.all (fun p => !p.2.copyQ.any mine
    && !p.2.mxQ.any (fun m => m.crew == c && m.gang == n && m.body == some op))
    && ((crew? s c).map (fun cr => !cr.savedCopies.any mine)).getD true

/-- Has every load and atomic of the gang been performed in the tiles of its body (R231)? -/
def bodyLoadsDone (x : Gang) (t : Ticket) : Bool :=
  x.flights.all (fun f => f.elems.all (fun e => e.done || (match e.place with
    | .phys pa => !inTiles t pa
    | _ => true)))

/-- Close the open body of a gang as OTEND does (R309), if that can be done now: once its engine commands have completed and its stores to
the tiles are at H. The state, throws of scratchpad stores met on the way, and whether no body is open any more. -/
def bodyEnd (s : State) (g : GRef) : State × List (Nat × Nat × Nat) × Bool :=
  match g, gang? s g with
  | .user c n, some x =>
    match x.body with
    | none => (s, [], true)
    | some t =>
      if !bodyCommandsDone s c n t.op || !bodyLoadsDone x t then (s, [], false)
      else
        let r := settleBody s g
        if r.2.1.isEmpty && r.2.2 then (closeBody r.1 g, [], true) else (r.1, r.2.1, false)
  | _, _ => (s, [], true)

/-- An ended body that still holds its grants gives them up once what OTEND waits for has happened (R231, R309): its engine commands have
completed, its loads are performed, and its stores are at H. -/
def endingStep (c n : Nat) (s : State) (t : Ticket) : State :=
  let g := GRef.user c n
  match gang? s g with
  | none => s
  | some x =>
    if !bodyCommandsDone s c n t.op || !bodyLoadsDone x t then s
    else
      let s := drainQuiet g x.buf.length s
      let s := writeBackTiles s (coreOf s g) t
      if tileStores s g t then s
      else endTicket (modGang s g (fun x => { x with ending := x.ending.filter (fun u => u.op != t.op) })) c n t

/-- The same for every ended body of a gang. -/
def settleEnding (s : State) (g : GRef) : State :=
  match g, gang? s g with
  | .user c n, some x => x.ending.foldl (endingStep c n) s
  | _, _ => s

/-- The open body of a gang ends at once; its grants are released as by OTEND, now or as soon as OTEND could complete (R308, R309). -/
def breakBody (s : State) (g : GRef) : State :=
  settleEnding (modGang s g (fun x => { x with body := none, ending := x.ending ++ x.body.toList })) g

/-- Withdraw a declaration (Table 3-3, R296): out of the sequencers, or its grants released as they fall due; it resolves
CANCELLED. -/
def withdrawTicket (s : State) (c gang op : Nat) : State :=
  let out := fun d : Decl => !(d.crew == c && d.gang == gang && d.op == op)
  let s := { s with dies := Tab.mapVals (fun _ d => { d with decls := d.decls.filter out, batch := d.batch.filter out }) s.dies }
  let s := modGang s (.user c gang) (fun x => { x with tickets := x.tickets.filter (fun t => t.op != op) })
  resolveOp (releaseGrants s c gang op) c op .cancelled 0

/-! ### Regions (R50) -/

/-- Live gangs of a crew. -/
def liveGangs (cr : Crew) : List Gang := (cr.gangs.filter (fun p => p.2.ended.isNone)).map (fun p => p.2)

def maxOf (xs : List Nat) : Nat := xs.foldl max 0

/-- Close the crew and launch entries that no gang is in any more (R50). -/
def closeRegions (s : State) (g : GRef) : State :=
  match g with
  | .sup _ => s
  | .user c _ =>
    match crew? s c with
    | none => s
    | some cr =>
      let s := modCrew s c (fun cr => { cr with stack := cr.stack.take (maxOf ((liveGangs cr).map crewDepth)) })
      let d := maxOf (s.crews.map (fun p => if p.2.launch = cr.launch then maxOf ((liveGangs p.2).map launchDepth) else 0))
      modLaunch s cr.launch (fun l => { l with stack := l.stack.take d })

/-! ### Launch barriers (R302) -/

/-- Modules of a span launch (R370): bits 38:32 of its queue's span-group word. -/
def spanModules (s : State) (l : Launch) : Nat := bits (Tab.get 0#64 s.spanGroup l.queue).toNat 38 32

/-- Launch barrier n releases when the crews that have arrived or ended are all of the launch, and in a span launch every
module's count has arrived: the count returns to zero and every waiting gang may go on (a gang that waits on n holds n, one
that may go on holds 4 + n). -/
def lbarRelease (s : State) (launch n : Nat) : State :=
  match launch? s launch with
  | none => s
  | some l =>
    let arrived := Tab.get [] l.lbars n
    let own := decide (arrived.length + l.endedCrews ≥ l.x * l.y * l.z)
    let all := l.span.isNone || decide (Tab.get 0 l.spanArr n ≥ spanModules s l)
    if own && all && !arrived.isEmpty then
      let s := modLaunch s launch (fun l => { l with lbars := Tab.set [] l.lbars n [], spanArr := Tab.set 0 l.spanArr n 0 })
      let free := fun (_ : Nat) (x : Gang) => if x.lbar = some n then { x with lbar := some (4 + n) } else x
      let free := fun (_ : Nat) (cr : Crew) => if cr.launch = launch then { cr with gangs := Tab.mapVals free cr.gangs } else cr
      raceBarrier { s with crews := Tab.mapVals free s.crews } launch
    else s

/-- A crew arrives when every gang of it that has not ended waits on the same launch barrier (R302). -/
def lbarArrive (s : State) (c : Nat) : State :=
  match crew? s c with
  | none => s
  | some cr =>
    match liveGangs cr with
    | [] => s
    | x :: xs =>
      match x.lbar with
      | some n =>
        if n < 4 ∧ xs.all (fun y => y.lbar == some n) then
          let s := modLaunch s cr.launch (fun l =>
            let a := Tab.get [] l.lbars n
            if a.contains cr.index then l else { l with lbars := Tab.set [] l.lbars n (a ++ [cr.index]) })
          lbarRelease s cr.launch n
        else s
      | none => s

/-! ### The end of a gang (R146) -/

/-- The release at DEV of a gang that has ended, as soon as it can be made (R146, R217). -/
def exitRelease (s : State) (g : GRef) : State :=
  match release s g .dev with
  | some r => modGang r.1 g (fun x => { x with exitRel := false })
  | none => s

/-- The last quad group of a gang has executed EXIT: regions close, and the stores are released at DEV, now or once the gang's loads
have completed (R146). -/
def endGang (s : State) (g : GRef) (pc : Nat) : State :=
  let s := modGang (countUnreported s g) g (fun x => { x with ended := some pc, exitRel := true, stack := [], entered := [] })
  let s := exitRelease (closeRegions s g) g
  match g with
  | .user c _ => lbarArrive s c
  | .sup _ => s

end Sys2Proof.Machine
end

