-- ==== Sys2Proof/Machine/Fetch.lean ====
section
/-!
DEFINITION. Fetching code: instruction caches (spec/10_memories.md R200; spec/16_tables.md R335), the fetch rules of
spec/05_encoding.md R92 and Table 5-8 rows 1 to 3, and the target rule of spec/07_control.md R130.
-/

namespace Sys2Proof.Machine

/-- What a fetch comes to: the bytes, a fetch fault, or a stage-two miss to wait for (R130). -/
inductive Fetched where
  | ok (s : State) (bs : List Byte)
  | bad (s : State)
  | wait (s : State)

/-- The 128 bytes of a line at H(x), with the host copies fetched that it needs (R213). -/
def lineBytes (s : State) (line : Nat) : State × List Byte :=
  let s := if homeIsMem s (128 * line) then l2Fill s line else (lineAddrs (128 * line)).foldl homeFetch s
  (s, (List.range 128).map (fun i => homeRead s (128 * line + i)))

/-- Does H(x) hold every byte of a line, so that reading it there asks nothing of Y(x) (R213)? -/
def homeHolds (s : State) (line : Nat) : Bool :=
  homeIsMem s (128 * line) || (lineAddrs (128 * line)).all (fun a => (Tab.find? s.hcopy a).isSome)

/-- Lines that an instruction cache of 64 KiB holds (Table 10-1). -/
def icacheLines : Nat := 512

/-- Room in an instruction cache for a line it does not hold: a line that is not pinned is evicted, which one is free (R200). -/
def icacheRoom (s : State) (c line : Nat) : State :=
  match core? s c with
  | none => s
  | some x =>
    if x.icache.length < icacheLines || (Tab.find? x.icache line).isSome then s
    else
      let ks := (x.icache.filter (fun l => !l.2.pinned)).map (fun l => l.1)
      match ks[(Config.freeValue s.fresh).toNat % ks.length]? with
      | some k => modCore (freshen s) c (fun x => { x with icache := Tab.erase x.icache k })
      | none => s

/-- A line put into a core's instruction cache. A pin is kept; at most 64 lines hold one (R200). -/
def icacheFill (s : State) (c line : Nat) (bs : List Byte) (pin : Bool) : State :=
  modCore (icacheRoom s c line) c (fun x =>
    let room := decide ((x.icache.filter (fun l => l.2.pinned)).length < 64)
    let was := ((Tab.find? x.icache line).map (fun l => l.pinned)).getD false
    { x with icache := Tab.put x.icache line ⟨bs, was || (pin && room), false⟩ })

/-- Fetch bytes that lie in one line. A line held in the instruction cache may be used as it is or, unless it is pinned,
have been evicted and be filled again: where the two differ the choice is free (R200; notes/assumptions/7). A line in which an
uncorrectable error lies is fetched again from level two, pinned or not, and a line that is lost there is a fetch fault (R200). The
access table is asked at a fill (R335); the FETCH field judges the supervisor too (R334; notes/assumptions/15). A fill needs the port or
link of a line of which H holds no copy (R356). -/
def fetchPiece (s : State) (g : GRef) (quad : Nat) (fail : List Nat) (a n : Nat) : Fetched :=
  let ctx := ctxOf s g
  if fail.contains (a / 65536) then .bad s
  else
  match translate s ctx a with
  | (s, .miss fn p tb) => .wait (requestPage s fn p ctx (if tb then 3 else 2) 1 (.group g quad (a / 65536)))
  | (s, .ok x) =>
    let pa := xlatPa x a
    let c := coreOf s g
    let line := pa / 128
    let cut := fun bs : List Byte => (bs.drop (pa % 128)).take n
    if !xlatPresent x then .bad s
    else if closingBlock s pa then .wait s
    else
      let legal := leafPermits x.bits .fetch && (refusalOf s .fetch ctx pa .fetch).isNone && !isLost s.lost pa
        && (homeHolds s line || (wayDown s pa).isNone)
      let fill := fun (s : State) =>
        if legal then
          let r := lineBytes (countHome s c pa) line
          Fetched.ok (icacheFill r.1 c line r.2 false) (cut r.2)
        else .bad s
      match (core? s c).bind (fun y => Tab.find? y.icache line) with
      | some l =>
        if l.bad then fill s
        else if l.pinned then .ok s (cut l.bytes)
        else
          let r := lineBytes s line
          if legal && r.2 == l.bytes then .ok s (cut l.bytes)
          else if (Config.freeValue s.fresh).getLsbD 0 then .ok (freshen s) (cut l.bytes)
          else fill (freshen s)
      | none => fill s

/-- Fetch bytes that may cross into the next line. -/
def fetchSpan (s : State) (g : GRef) (quad : Nat) (fail : List Nat) (a n : Nat) : Fetched :=
  let k := 128 - a % 128
  if n ≤ k then fetchPiece s g quad fail a n
  else
    match fetchPiece s g quad fail a k with
    | .ok s bs =>
      match fetchPiece s g quad fail (a + k) (n - k) with
      | .ok s bs' => .ok s (bs ++ bs')
      | r => r
    | r => r

/-- What reading the instruction at an address comes to: its bytes, or a cause of Table 5-8 rows 1 to 3. -/
inductive Insn where
  | ok (s : State) (bs : List Byte)
  | trap (s : State) (c : Cause) (bs : List Byte)
  | wait (s : State)

/-- The instruction at a gang's program counter. -/
def fetchInsn (s : State) (g : GRef) (quad : Nat) (fail : List Nat) (pc : Nat) : Insn :=
  if pc % 4 ≠ 0 then .trap s .misalignedFetch []
  else
    match fetchSpan s g quad fail pc 4 with
    | .bad s => .trap s .fetchFault []
    | .wait s => .wait s
    | .ok s bs =>
      let n := lenBytes (leNat bs % 4)
      match fetchSpan s g quad fail pc n with
      | .bad s => .trap s .fetchFault []
      | .wait s => .wait s
      | .ok s bs => if pc % 32 + n ≤ 32 then .ok s bs else .trap s .blockCrossing bs

/-- What the check of a target comes to (R93, R130). -/
inductive HdrRes where
  | ok (s : State)
  | trap (s : State) (c : Cause)
  | wait (s : State)

/-- Must an address be that of a clause header (R93, R130)? A word with LEN 00b is one (R92). -/
def headerAt (s : State) (is : Iss) (t : Nat) : HdrRes :=
  if t % 4 ≠ 0 then .trap s .misalignedFetch
  else
    match fetchSpan s is.ref (lowQuad is.q) is.q.pageFail t 8 with
    | .bad s => .trap s .fetchFault
    | .wait s => .wait s
    | .ok s bs => if leNat bs % 4 = 0 then .ok s else .trap s .targetNotHeader

end Sys2Proof.Machine
end

