-- ==== Sys2Proof/Machine/Ops.lean ====
section
/-!
DEFINITION. The common frame of every instruction: what holds it back, what traps it, and what it comes to (spec/05_encoding.md
R96 to R109; spec/02_execution.md R39 to R41; spec/07_control.md R132); TAKING AN EXCEPTION, as one operation for throws
(spec/03_unwinding.md R52 to R59) and one for traps (spec/15_ordered_system.md R312 to R314).
-/

namespace Sys2Proof.Machine

/-! ### What an instruction names -/

/-- The guard of a lane-wise or conditional form; uniform forms have none (R96). -/
def guardOf : Instr → Guard
  | .call g _ | .callv g _ _ | .ifI g _ _ | .brk g | .cont g | .throw g _ => g
  | .iadd x | .isub x | .imul x | .imulh x | .imin x | .imax x | .and x | .or x | .xor x | .shl x | .shr x | .sar x
  | .rot x | .sel x _ _ | .lea x _ | .fadd x | .fsub x | .fmul x | .fmin _ x | .fmax _ x | .fscale x | .bfi x _ => x.g
  | .imad x | .fma x => x.g
  | .iabs x | .ineg x | .not x | .popc x | .clz x | .ctz x | .brev x | .mov x | .fabs x | .fneg x | .frcp x | .frsq x
  | .fsqrt x | .fexp2 x | .flog2 x | .fsin x | .fcos x | .ftanh x | .bfx x _ => x.g
  | .icmp g _ _ _ _ _ | .movi g _ _ _ | .plop g _ _ _ _ | .pmov g _ | .shfl g _ _ _ _ _ | .bcast g _ _ _ _
  | .ballot g _ _ | .pscan g _ _ _ _ _ _ | .append g _ _ _ | .red g _ _ _ _ _ | .fcmp g _ _ _ _ | .fclass g _ _ _
  | .cvt g _ _ _ _ _ _ _ | .cvtmx g _ _ _ _ _ | .cvtmxScale g _ _ _ => g
  | .ld m _ _ | .ldRp m _ _ _ | .st m _ | .atom _ m _ _ => m.g
  | .lds m _ _ | .sts m _ | .atoms _ m _ _ => m.g
  | .cpy x _ _ | .cpyM x _ | .cpyX x _ _ => x.g
  | .mma x | .mmaSp x _ | .mmaP x => x.g
  | .msel g _ _ _ _ _ _ | .accz g _ _ | .accdr g _ _ _ _ | .wdset g _ _ _ | .mfence g _ | .rdxv g _ _ _ _
  | .wrxv g _ _ _ _ => g
  | .idivU32 x | .iremU32 x | .idivU64 x | .iremU64 x | .idivS32 x | .iremS32 x | .idivS64 x | .iremS64 x
  | .fdivF32 x | .dadd x | .dmul x | .ddiv x | .emu x | .dfma x _ => x.g
  | .dsqrt g _ _ | .dcvt g _ _ _ => g
  | _ => Guard.all

/-- The predicates an instruction reads or writes. -/
def predsOf (i : Instr) : List Nat :=
  (guardOf i).p :: (match i with
    | .icmp _ _ _ pd _ _ | .fcmp _ _ pd _ _ | .fclass _ pd _ _ => [pd]
    | .sel _ pi _ => [pi]
    | .plop _ d a b _ => [d, a, b]
    | .pmov _ (.toPred p _) | .pmov _ (.fromPred _ p) | .pmov _ (.bit p _) => [p]
    | .ballot _ _ p => [p]
    | .ldRp _ _ _ p => [p]
    | _ => [])

/-- The operands of uniform forms that are read once and are not among `Instr.srcs`. -/
def uniformOf : Instr → List Opd
  | .bra (.reg n) | .call _ (.reg n) => [.s n]
  | .callv _ _ b => [.s b]
  | .rdexr _ a => [a]
  | .waita _ _ _ _ idx _ cmp _ => [idx, cmp]
  | .wake _ idx _ _ => [idx]
  | .zfill r | .pagereq _ r | .cctlWb _ r | .cctlDisc _ r | .icpf r | .icpin r | .icpinUnpin r | .icinvCrew r
  | .icinvDev r => [r.idx, r.len]
  | .cpy x _ _ | .cpyM x _ | .cpyX x _ _ => [x.a, x.b, x.c]
  | .mma x | .mmaSp x _ | .mmaP x => [x.a, x.b]
  | .msel _ _ a b _ _ _ => [a, b]
  | .accdr _ _ o _ _ | .wdset _ _ o _ | .fexport _ o | .fimport _ o | .barinit _ o | .barexp _ o | .otdecl _ o
  | .otround o | .trap o | .svret o _ | .wrsys o _ | .bankset o _ | .coreret _ o | .rdxs _ o _ | .rdxv _ _ o _ _ => [o]
  | .svthrow a b | .wrxs a b _ | .bist _ a b | .mbxrdWord _ a b => [a, b]
  | .wrxv _ a _ _ _ => [a]
  | .fwait _ (some n) | .ftest _ _ (some n) => [.s n]
  | _ => []

/-- The in-flight path an instruction raises (Table 17-2). -/
def pathOf : Instr → Option Nat
  | .ld .. | .ldRp .. | .atom .. => some 0
  | .st .. | .zfill .. => some 1
  | .lds .. | .sts .. | .atoms .. => some 2
  | .cpy .. | .cpyM .. | .cpyX .. | .msel .. => some 3
  | _ => none

/-! ### Screens that need the gang (Table 5-8) -/

/-- MIN values that the crew or launch leaves undefined: a tile or barrier that is not reserved, MMA.P outside a pair crew,
LBAR outside a cooperative launch (R280, R290, R302). The supervisor may not execute any of these (R408). -/
def dynMinor (s : State) (g : GRef) (i : Instr) : Bool :=
  match launchOf? s g with
  | none => false
  | some l =>
    match i with
    | .mma x | .mmaSp x _ => decide (x.tile ≥ l.acct)
    | .mmaP x => !l.pair || decide (x.tile ≥ l.acct)
    | .accz _ _ t | .accdr _ _ _ _ t | .wdset _ _ _ t => decide (t ≥ l.acct)
    | .cpy x _ _ | .cpyM x _ | .cpyX x _ _ => (match x.bar with | some b => decide (b ≥ l.bars) | none => false)
    | .barinit b _ | .bara b | .barexp b _ | .barw b _ => decide (b ≥ l.bars)
    | .lbar _ => !l.coop
    | _ => false

/-- Table 5-8, row 12 (R34, R103). -/
def beyondCount (x : Gang) (i : Instr) : Bool := i.vregs.any (fun n => decide (n ≥ x.n))

/-- Table 5-8, row 13 (R106, R408), with the system registers marked "none" for user gangs (R124). -/
def privileged (g : GRef) (i : Instr) : Bool :=
  match g with
  | .sup _ => i.userOnly
  | .user _ _ => i.supervisorOnly || (match i with
      | .rdsys _ n | .wrsys _ n => decide (0x300 ≤ n ∧ n ≤ 0x3FF) || n == 0x402
      | _ => false)

/-- More than one live quad group (R28). -/
def separated (x : Gang) : Bool := decide (1 < (x.groups.filter (fun q => !q.ended)).length)

/-- The trap the gang and the instruction come to before any effect, in the order of Table 5-8: third long-latency
instruction of its clause, then rows 8, 12 and 13. -/
def screen (s : State) (is : Iss) (i : Instr) : Option Cause :=
  if i.longLatency && !is.q.idle && decide (is.q.llc ≥ 2) then some .illegalClause
  else if dynMinor s is.ref i then some .undefinedMinor
  else if beyondCount is.gang i then some .beyondCount
  else if privileged is.ref i then some .privileged
  else none

/-! ### Targets (R93, R130) -/

/-- The address a branch or call target names (R129, R130). -/
def targetOf (is : Iss) (t : Target) : Nat :=
  match t with
  | .off w => low ((is.q.pc : Int) + sext w.toNat 32 * 4) 57
  | .reg n => rdS is.gang n % 2 ^ 57

/-- Where a lane's CALLV goes (R141). -/
def callvTarget (is : Iss) (a b l : Nat) : Nat := (rdS is.gang b + rdV is.gang a l) % 2 ^ 57

/-- The selected lanes that no earlier round of a CALLV has served: not below the resume index, and of no target that was. -/
def callvRest (is : Iss) (gd : Guard) (a b : Nat) : List Nat :=
  let sel := selOf is gd
  sel.filter (fun l => !(decide (l < is.q.resume)
    || sel.any (fun m => decide (m < is.q.resume) && callvTarget is a b l == callvTarget is a b m)))

/-- Where RET goes (R142). -/
def retTarget (is : Iss) : Nat := is.gang.lr.toNat % 2 ^ 57 / 4 * 4

/-- The catch address of a TRY (R147). -/
def catchOf (is : Iss) (off : W32) : Nat := targetOf is (.off off)

/-- The address of an instruction's target, if it goes to one or opens a region with one. -/
def namedTarget (is : Iss) (i : Instr) : Option Nat :=
  match i with
  | .bra t => some (targetOf is t)
  | .brc sense c off => if rdC is.gang c = sense then some (targetOf is (.off off)) else none
  | .call g t => if (selOf is g).isEmpty then none else some (targetOf is t)
  | .callv g a b => if beyondCount is.gang i then none else (callvRest is g a b).head?.map (callvTarget is a b)
  | .ret => some (retTarget is)
  | .tryGang off | .tryCrew off | .tryLaunch off => some (catchOf is off)
  | _ => none

/-- The check of an instruction's target; an idle group passes over it (R132). -/
def targetCheck (s : State) (is : Iss) (i : Instr) : HdrRes :=
  if is.q.idle then .ok s
  else
    match namedTarget is i with
    | some t => headerAt s is t
    | none => .ok s

/-- Of two causes the one that Table 5-8 lists first (R108). -/
def firstCause (a b : Cause) : Cause := if a.order < b.order then a else b

/-! ### Readiness (R41) -/

/-- Is the gang kept from issuing: trapped, stopped by an unwind (but in the cycle of its first throw only the gangs that
threw, and those that it finds at another catch), halted, ended, of a crew that is being saved or not resident, or with an element that waits on a page (R41, R43,
R313, R56, R368)? -/
def suspended (s : State) (g : GRef) (x : Gang) : Bool :=
  x.trapped.isSome || x.halted || x.ended.isSome
    || ((crewOf? s g).map (fun cr => cr.halting || cr.phase != .resident)).getD false
    || (match x.stopped with
        | some u =>
          match Tab.find? s.unwinds u with
          | some w => w.cycle != s.cycle.toNat || w.steered.contains g || w.throws.any (fun t => GRef.user t.1 t.2.1 == g)
          | none => true
        | none => false)
    || x.flights.any (fun f => f.elems.any (fun e => !e.done && e.place.awaited))

/-- Must the group wait for an instruction in progress: one of its gang awaits a page and goes on with the host's reply (R366 to R368), or
a load or atomic of its own has its data and waits for room in the queue that it pushes (R122, R400)? -/
def groupHeld (s : State) (is : Iss) : Bool :=
  awaits s (fun w => match w with | .group h _ _ => h == is.ref | _ => false)
    || is.gang.flights.any (fun f => f.quads &&& is.q.quads != 0#16 && pushWaits s is.ref is.gang f)

/-- Destinations of instructions in flight are interlocked (R41, R112, R243), for the quads that issued them: separated groups of a gang
are not ordered among each other (R190, Table 11-3). -/
def interlocked (x : Gang) (q : QGroup) (i : Instr) : Bool :=
  let vs := i.vregs
  let os := i.srcs.map (fun p => p.1) ++ uniformOf i ++ (match i.dst with | some d => [d.1] | none => [])
  x.flights.any (fun f => f.quads &&& q.quads != 0#16 &&
    ((match f.dst with
      | .v n => vs.any (fun v => v == n || (f.size.is64 && v == n + 1))
      | .s n => os.contains (.s n)
      | _ => false)
    || (match f.rp with | some p => (predsOf i).contains p | none => false)))

/-- Source registers that lie in the backing store and have not been fetched yet (R114, R115). -/
def unfetched (x : Gang) (i : Instr) : List Nat :=
  ((i.srcs.flatMap (fun p => p.1.vregs p.2)).filter (fun v => decide (v ≥ x.vbound - x.vbase))).filter
    (fun v => !x.spilled.any (fun e => e.1 == v && e.2.isSome))

/-- Lanes whose fetched operand was uncorrectable (R115). -/
def spillBad (x : Gang) (i : Instr) : Mask :=
  (i.srcs.flatMap (fun p => p.1.vregs p.2)).foldl (fun m v =>
    x.spilled.foldl (fun m e => if e.1 = v then m ||| e.2.getD 0#64 else m) m) 0#64

/-- Does the instruction access memory (majors 0x70 to 0x7F, and APPEND), so that a PERSIST of its group holds it (R247)? -/
def memoryInstr : Instr → Bool
  | .ld .. | .ldRp .. | .st .. | .lds .. | .sts .. | .atom .. | .atoms .. | .fence .. | .waita .. | .wake .. | .persist
  | .zfill .. | .pagereq .. | .cctlWb .. | .cctlDisc .. | .icpf .. | .icpin .. | .icpinUnpin .. | .icinvCrew ..
  | .icinvDev .. | .append .. => true
  | _ => false

/-- Is a PERSIST of the group in progress? -/
def persisting (q : QGroup) : Bool := !q.persists.isEmpty

/-- Why the instruction cannot issue yet, if so (R41): operands, its completion counter at 7, its path counter at 255, a PERSIST in
progress. -/
def notReady (is : Iss) (i : Instr) : Option Stall :=
  if interlocked is.gang is.q i then some .operand
  else if i.longLatency && (match clauseCounter is.q with | some k => rdK is.gang k == 7 | none => false) then some .wait
  else if (match pathOf i with | some p => decide (pathCount is.gang p ≥ 255) | none => false)
      && !(selLanes is.gang is.q (guardOf i)).isEmpty then some .wait
  else if memoryInstr i && persisting is.q then some .sync
  else none

/-! ### Abandoning requests and loads -/

/-- Mark a gang's mailbox request abandoned and discard its write set (R321). -/
def abandonRequest (s : State) (g : GRef) : State :=
  match gang? s g with
  | none => s
  | some x =>
    let off := fun (_ : Nat) (r : Request) => if r.gref = g then { r with cancel := true, writes := [] } else r
    let s := modCore s (coreOf s g) (fun c => { c with mbox := Tab.mapVals off c.mbox })
    if x.trapped.isSome || x.trapReq.isSome || x.noticed then
      modGang s g (fun x => { x with trapped := none, trapReq := none, noticed := false })
    else s

/-- A lane's destination of an abandoned load becomes undefined: a free value (R56; notes/assumptions/5). -/
def freeDst (g : GRef) (f : Flight) (s : State) (l : Nat) : State :=
  let v := (Config.freeValue s.fresh).toNat
  modGang (freshen s) g (fun x =>
    let x := match f.dst with
      | .v n => wrVw x n l f.size.is64 v
      | _ => x
    match f.rp with
    | some p => wrP x p l (v.testBit 63)
    | none => x)

def waitsOnPage (f : Flight) : Bool := f.elems.any (fun e => !e.done && e.place.awaited)

/-- What is left of a flight whose waiting elements are abandoned: a store and a load go whole, and so does an atomic whose other elements
have been performed; those that have not are performed still, with no destination to write (R368). -/
def remainder (f : Flight) : Option Flight :=
  let left := f.elems.filter (fun e => !e.done && !e.place.awaited)
  match f.kind with
  | .atomic _ => if left.isEmpty then none else some { f with elems := left, dst := .exm, rp := none }
  | _ => none

/-- A flight that waits on pages is abandoned: what remains of it stays, and of a flight that goes the path falls (R347). -/
def abandonFlight (g : GRef) (s : State) (f : Flight) : State :=
  let s := if f.storing then s else (f.elems.map (fun e => e.lane)).foldl (freeDst g f) s
  modGang s g (fun x =>
    let x := { x with flights := x.flights.filterMap (fun y => if y.id = f.id then remainder y else some y), abandoned := true }
    if f.storing then lowerPath (lowerPath x 1 f.id) 2 f.id else x)

/-- Abandon every access of a gang that waits on a page request (R56, R368). -/
def abandonLoads (s : State) (g : GRef) : State :=
  match gang? s g with
  | none => s
  | some x =>
    let fs := x.flights.filter waitsOnPage
    let s := fs.foldl (abandonFlight g) s
    let keeps := fun w : Waiter => match w with
      | .group h _ _ => h != g
      | .flight h op => !(h == g && fs.any (fun f => f.id == op))
      | _ => true
    { s with pageReqs := s.pageReqs.map (fun r => { r with waiters := r.waiters.filter keeps }) }

/-! ### Traps (R312 to R314) -/

/-- The supervisor gang stops on a fault: pc and cause are latched and event class 2 is raised (R312, Table 20-4). -/
def supFault (s : State) (core cls cause code pc : Nat) : State :=
  let s := modCore s core (fun c =>
    { c with svflt := true, svfpc := pc, svfcause := BitVec.ofNat 32 (cls + cause * 256 + code * 65536)
             sup := c.sup.map (fun x => { x with halted := true }) })
  raiseEvent s 2 core

/-- The number of a request in the order in which its core's gangs trap: by cycle, within a cycle by pipe, and then as they are raised
(R274, R315). -/
def trapOrder (s : State) (g : GRef) (pipe : Nat) : Nat :=
  (s.cycle.toNat * 4 + pipe) * 2 ^ 64 + ((core? s (coreOf s g)).map (fun x => x.mboxOrder)).getD 0

/-- Write a request into its gang's mailbox slot (R274, R314), and count it (0x80F). -/
def postRequest (s : State) (r : Request) : State :=
  match gang? s r.gref with
  | none => s
  | some x =>
    let c := coreOf s r.gref
    let s := modCore s c (fun y =>
      { y with mbox := Tab.put y.mbox x.slot { r with seq := y.mboxSeq.toNat }, mboxSeq := y.mboxSeq + 1 })
    countCore s c 0x80F 1

/-- The issue number of the instruction that a notice is for: the first access of the gang that waits on a page. -/
def noticeSeq (x : Gang) : Nat :=
  ((x.flights.find? waitsOnPage).map (fun f => f.seq)).getD x.seq

/-- A request waits until every load of its gang has written its registers and its stores have been released at DEV; then it
becomes visible (R313). A notice waits for what the gang issued before the access that misses (R319). -/
def postTrap (s : State) (g : GRef) : State :=
  match gang? s g with
  | none => s
  | some x =>
    match x.trapReq with
    | none => s
    | some r =>
      if x.flights.any (fun f => !f.elems.isEmpty && !(r.cls == 4 && waitsOnPage f)) then s
      else
        match releaseTo s g .dev (if r.cls = 4 then noticeSeq x else x.seq) s.cycle.toNat with
        | none => s
        | some (s, _) => postRequest (modGang s g (fun x => { x with trapReq := none, noticed := r.cls == 4 })) r

/-- The request of a trap (Table 15-8). -/
def requestOf (s : State) (is : Iss) (cls cause info : Nat) (insn : List Byte) (lanes : List Nat) : Request :=
  { cls := cls, cause := cause, cancel := false, sep := separated is.gang, answ := false, seq := 0, pc := is.q.pc
    insn := insn, lanes := BitVec.ofNat 64 (maskOf lanes), active := BitVec.ofNat 64 (exmOf is.gang is.q)
    crewLin := ((crewOf? s is.ref).map (fun c => c.index)).getD 0, gang := is.gang.num
    gw := if is.gang.width = 16 then 0 else if is.gang.width = 32 then 1 else 2, ctx := ctxOf s is.ref, info := info
    gref := is.ref, quads := is.q.quads, order := trapOrder s is.ref is.gang.pipe, taken := false, writes := [] }

/-- Taking a trap: the instruction has no effect, its gang is suspended, and the request follows (R107, R109, R313); in the
supervisor gang it is a supervisor fault (R312). -/
def takeTrap (s : State) (is : Iss) (cls cause info : Nat) (insn : List Byte) (lanes : List Nat) : State :=
  match is.ref with
  | .sup c => supFault s c cls cause 0 is.q.pc
  | .user _ _ =>
    let r := requestOf s is cls cause info insn lanes
    let s := modCore s (coreOf s is.ref) (fun c => { c with mboxOrder := c.mboxOrder + 1 })
    postTrap (modGang s is.ref (fun x => { x with trapped := some is.q.quads, trapReq := some r })) is.ref

/-! ### Throws (R52 to R59) -/

/-- The level that catches a throw of a gang (R55): 0 gang, 1 crew, 2 launch, 3 none. -/
def catchLevel (x : Gang) (cr : Crew) (l : Launch) : Nat :=
  let gangTop := match x.stack with
    | e :: _ => e.cd == crewDepth x && e.ld == launchDepth x
    | [] => false
  let launch := if l.stack.isEmpty then 3 else 2
  if !cr.half.isEmpty then (if cr.stack.isEmpty then launch else 1)
  else if gangTop then 0
  else
    match x.entered with
    | true :: _ => 1
    | false :: _ => launch
    | [] => if cr.stack.isEmpty then launch else 1

/-- The catch address and the depth of the region that catches a throw of a gang at a level (R55); an uncaught one has neither. -/
def catchEntry (level : Nat) (x : Gang) (cr : Crew) (l : Launch) : Nat × Nat :=
  match level with
  | 0 => ((x.stack.head?.map (fun e => e.catchPc)).getD 0, x.stack.length)
  | 1 => (cr.stack.getLast?.getD 0, cr.stack.length)
  | 2 => (l.stack.getLast?.getD 0, l.stack.length)
  | _ => (0, 0)

/-- Do two record areas hold the same record? Its header, but for the sequence number, is the same in every crew of the group (R61,
R340). -/
def sameRecord (a b : Tab W64) : Bool := (List.range 7).all (fun i => Tab.get 0#64 a i == Tab.get 0#64 b i)

/-- The record of a crew's area as a RETHROW takes it along (R65). -/
def keptRecord (s : State) (cr : Crew) : Kept :=
  { rcd := cr.rcd, threw := cr.rcdThrew
    areas := (s.crews.filter (fun p => p.2.launch == cr.launch && sameRecord p.2.rcd cr.rcd)).map (fun p => (p.1, p.2.rcd)) }

/-- Do the groups of two unwinds share a gang? -/
def groupsMeet (a b : Unwind) : Bool :=
  a.launch == b.launch && (decide (2 ≤ a.level) || decide (2 ≤ b.level)
    || (a.crew == b.crew && (a.level == 1 || b.level == 1 || a.gang == b.gang)))

/-- The gangs of an unwind's group, ended ones too: those of the gang, the crew, or every placed crew of the launch. -/
def membersOf (s : State) (u : Unwind) : List GRef :=
  match u.level with
  | 0 => [.user u.crew u.gang]
  | 1 => ((crew? s u.crew).map (fun cr => cr.gangs.map (fun p => GRef.user u.crew p.1))).getD []
  | _ => s.crews.flatMap (fun p => if p.2.launch == u.launch then p.2.gangs.map (fun q => GRef.user p.1 q.1) else [])

/-- The stop address a throwing gang gives is that of its lowest throwing lane (R62). -/
def addStop (old : Unwind) (new : Unwind) : List (Nat × Nat × Nat) :=
  new.stops.foldl (fun t e =>
    let low := fun (u : Unwind) => ((u.throws.filter (fun x => x.1 == e.1 && x.2.1 == e.2.1)).map (fun x => x.2.2.1)).min?
    match low old, low new with
    | some a, some b => if a ≤ b then t else t.filter (fun x => !(x.1 == e.1 && x.2.1 == e.2.1)) ++ [e]
    | _, _ => t ++ [e]) old.stops

/-- Merge a later unwind into an earlier one, widening it where that is needed (R59). Of two regions of one level, the outer one covers
both throwers. -/
def mergeUnwind (old new : Unwind) : Unwind :=
  let wide := if old.level < new.level ∨ (old.level = new.level ∧ new.depth < old.depth) then new else old
  { old with level := wide.level, catchPc := wide.catchPc, depth := wide.depth
             throws := old.throws ++ new.throws, svcodes := old.svcodes ++ new.svcodes, remote := old.remote ++ new.remote
             heard := old.heard || new.heard, kept := old.kept.or new.kept, stops := addStop old new, cycle := min old.cycle new.cycle
             steered := old.steered ++ new.steered }

/-- Has the gang been stopped by an unwind whose merge window is closed (R59)? -/
def inClosed (s : State) (x : Gang) : Bool :=
  ((x.stopped.bind (Tab.find? s.unwinds)).map (fun w => w.closed)).getD false

/-- Stop one member (R56, step 1): it issues no more, its loads that wait on pages are abandoned, and so is its request; a gang
that has trapped does not issue in this cycle either. -/
def stopGang (u : Nat) (s : State) (g : GRef) : State :=
  match gang? s g with
  | none => s
  | some x =>
    if x.ended.isSome || inClosed s x then s
    else
      let s := abandonLoads (abandonRequest s g) g
      modGang s g (fun y => { y with stopped := some u, trapped := x.trapped })

/-- Begin an unwind, or merge it into those whose merge window is open and whose groups it meets, and stop every member (R56, R59). A
member of an unwind whose window has closed is stopped once it has been steered. -/
def beginUnwind (s : State) (u : Unwind) : State :=
  let met := s.unwinds.filter (fun p => !p.2.closed && groupsMeet p.2 u)
  match met with
  | [] =>
    let k := s.nextUnwind
    let s := { s with unwinds := Tab.put s.unwinds k u, nextUnwind := k + 1 }
    (membersOf s u).foldl (stopGang k) s
  | (k, w) :: rest =>
    let w := mergeUnwind (rest.foldl (fun w p => mergeUnwind w p.2) w) u
    let s := { s with unwinds := Tab.put (rest.foldl (fun t p => Tab.erase t p.1) s.unwinds) k w }
    (membersOf s w).foldl (stopGang k) s

/-- Taking an exception: lanes of a gang throw codes at an address (R52). A throw of the supervisor gang is a supervisor
fault of class 5 with the code of its lowest lane (R312; notes/assumptions/16). `re` marks RETHROW (R65), `sv` the code of
SVTHROW (R320). -/
def throwLanes (s : State) (g : GRef) (pc : Nat) (ts : List (Nat × Nat)) (re : Bool) (sv : Option Nat) : State :=
  match ts with
  | [] => s
  | t :: _ =>
    match g with
    | .sup c => supFault s c 5 0 t.2 pc
    | .user c n =>
      match gang? s g, crewOf? s g, launchOf? s g with
      | some x, some cr, some l =>
        if x.ended.isSome then s
        else
          let level := catchLevel x cr l
          let at_ := catchEntry level x cr l
          beginUnwind s
            { level := level, crew := c, gang := n, launch := cr.launch, catchPc := at_.1, depth := at_.2
              throws := ts.map (fun t => (c, n, t.1, t.2)), cycle := s.cycle.toNat
              svcodes := (match sv with | some v => [(c, n, v)] | none => [])
              kept := if re then some (keptRecord s cr) else none, stops := [(c, n, pc)], cancelled := [], closed := false, remote := []
              heard := false, steered := [] }
      | _, _, _ => s

/-- Throws of several places, each met at its own address (R197). -/
def throwMany (s : State) (g : GRef) (ts : List (Nat × Nat × Nat)) : State :=
  ts.foldl (fun s t => throwLanes s g t.2.1 [(t.1, t.2.2)] false none) s

/-! ### The end of an issue -/

/-- Does a mask of quads reach into both halves of a 64-lane gang (R24)? -/
def bothHalves (quads : BitVec 16) : Bool := quads &&& 0x00FF#16 != 0#16 && quads &&& 0xFF00#16 != 0#16

/-- The scalar forms of majors 0x20 to 0x6F, with a scalar destination or condition bits; they take one issue cycle (R104, R155, R179).
RED and BALLOT are vector forms (R152). -/
def scalarForm : Instr → Bool
  | .icmpc .. | .fcmpc .. | .clop .. => true
  | .red .. | .ballot .. | .fence .. | .waita .. | .rdexr .. | .rdxs .. | .rdsys .. | .bist .. | .mbxrdNext .. | .mbxrdWord .. | .coreret ..
  | .qstat .. => false
  | i => (match i.dst with | some d => d.1.isScalarDst | none => false)

/-- Does the instruction read or write a 64-bit type? -/
def wideForm (i : Instr) : Bool :=
  i.srcs.any (fun p => p.2) || (match i.dst with | some d => d.2 | none => false)

/-- Cycles for which a vector form of 32 lanes holds its pipe (Tables 8-1 and 9-1, R24). -/
def laneCycles (i : Instr) : Nat :=
  match i with
  | .frcp _ | .frsq _ | .fsqrt _ | .fexp2 _ | .flog2 _ | .fsin _ | .fcos _ | .ftanh _ => 4
  | .pscan .. | .append .. | .red .. => 2
  | .imul _ | .imulh _ | .imad _ => if wideForm i then 4 else 1
  | .iadd _ | .isub _ | .imin _ | .imax _ | .and _ | .or _ | .xor _ | .shl _ | .shr _ | .sar _ | .rot _ | .sel .. | .lea ..
  | .bfi .. | .iabs _ | .ineg _ | .not _ | .popc _ | .clz _ | .ctz _ | .brev _ | .mov _ | .bfx .. | .icmp .. | .movi ..
  | .plop .. | .pmov .. | .shfl .. | .bcast .. | .ballot .. => if wideForm i then 2 else 1
  | _ => 1

/-- Is the group idle, and the instruction one that idle groups pass over (R132)? -/
def passedOver (is : Iss) (i : Instr) : Bool :=
  is.q.idle && !i.structured && (match i with | .clauseHeader .. => false | _ => true)

/-- Cycles for which an instruction holds its pipe, for the quads that issue it (R24, R155, R179). -/
def pipeCycles (i : Instr) (quads : BitVec 16) : Nat :=
  if scalarForm i then 1 else if bothHalves quads then 2 * laneCycles i else laneCycles i

/-- The quads for which an instruction has issued: those of the group that holds the issuer's quads now, so that a join counts the
merged group. Behind an IF that splits, the whole group has issued it, and neither part counts as the candidate that issued last:
DESIGN CHOICE, notes/assumptions/60. -/
def issuedQuads (s : State) (is : Iss) : BitVec 16 :=
  match ((gang? s is.ref).map (fun x => x.groups.filter (fun q => q.quads &&& is.q.quads != 0#16))).getD [] with
  | [q] => q.quads
  | _ => is.q.quads

/-- The pipe has issued in this cycle, and the group issued last on it (R39); the group's wait for its turn starts again
(R40). A clause header takes no issue cycle (R97), and what an idle group passes over takes one (R132). -/
def noteIssue (s : State) (is : Iss) (i : Instr) : State :=
  let mine := fun q : QGroup => q.quads &&& is.q.quads != 0#16
  match i with
  | .clauseHeader .. =>
    modGang s is.ref (fun x => { x with groups := x.groups.map (fun q => if mine q then { q with pageFail := [], pages := [] } else q) })
  | _ =>
    let s := modGang s is.ref (fun x => { x with groups := x.groups.map (fun q =>
      if mine q then { q with passed := 0, promoted := false, pageFail := [], pages := [] } else q) })
    let quads := issuedQuads s is
    modCore s (coreOf s is.ref) (fun c =>
      { c with issued := c.issued ||| BitVec.ofNat 4 (2 ^ is.gang.pipe), hold := Tab.set 0 c.hold is.gang.pipe ((if passedOver is i then 1 else pipeCycles i quads) - 1)
               last := Tab.put c.last is.gang.pipe (is.ref, quads) })

/-- The group goes on at an address. -/
def goOn (s : State) (is : Iss) (pc : Nat) : State :=
  modGroup s is.ref is.grp (fun q => { q with pc := pc, hdr := false })

/-- Fetched operands are used once (R115). -/
def dropSpilled (s : State) (is : Iss) (i : Instr) : State :=
  if is.gang.spilled.isEmpty then s
  else
    let vs := i.srcs.flatMap (fun p => p.1.vregs p.2)
    modGang s is.ref (fun x => { x with spilled := x.spilled.filter (fun e => !vs.contains e.1) })

/-- The bytes of an instruction as a request carries them. -/
def insnBytes (i : Instr) : List Byte := (encodeBytes i).getD []

/-- The end of every issue: its bookkeeping, and nothing holds the group back. -/
def issued (s : State) (is : Iss) (i : Instr) : State := { noteIssue (dropSpilled s is i) is i with blocked := none }

/-- An issue whose group goes on at an address. -/
def movedTo (s : State) (is : Iss) (i : Instr) (pc : Nat) : State := issued (goOn s is pc) is i

/-- An issue whose group goes on behind the instruction. -/
def past (s : State) (is : Iss) (i : Instr) : State := movedTo s is i (is.q.pc + i.bytes)

/-- The instruction bytes that the request of an illegal-instruction trap carries: none for a misaligned fetch and a fetch fault
(Table 15-8). -/
def trapBytes (c : Cause) (i : Instr) : List Byte :=
  match c with
  | .misalignedFetch | .fetchFault => []
  | _ => insnBytes i

/-- What an instruction comes to becomes the next state. -/
def conclude (is : Iss) (i : Instr) (r : Res) : Out :=
  match r with
  | .done s => .next (past s is i)
  | .jump s pc => .next (movedTo s is i pc)
  | .stay s => .next (issued s is i)
  | .wait s why => .next { s with blocked := some why }
  | .trap s c => .next (issued (takeTrap s is 2 c.code 0 (trapBytes c i) (activeLanes is.gang is.q)) is i)
  | .request s cls info => .next (issued (takeTrap s is cls 0 info (insnBytes i) (activeLanes is.gang is.q)) is i)
  | .throw s ts => .next (issued (throwLanes s is.ref is.q.pc ts false none) is i)
  | .throwAt s pc ts re => .next (issued (throwLanes s is.ref pc ts re none) is i)

/-- A gang-collective instruction from a separated group does not execute (R28); a trap of its own still comes first
(R108). That holds of the supervisor's BANKSET too, of which R323 says it of user gangs only: DESIGN CHOICE, notes/assumptions/81. -/
def unlessSeparated (s : State) (is : Iss) (i : Instr) (r : Res) : Res :=
  if i.collective && separated is.gang then
    match r with
    | .trap s c => .trap s c
    | _ => throwAllOrNop s is 0x8006
  else r

/-- An instruction that the screen stops: the check of its target may come to an earlier cause of Table 5-8 (R108), or wait for a page
(R130). -/
def screened (s : State) (is : Iss) (i : Instr) (c : Cause) : Out :=
  match targetCheck s is i with
  | .ok s => conclude is i (.trap s c)
  | .trap s d => conclude is i (.trap s (firstCause d c))
  | .wait s => .next { s with blocked := some .sync }

/-- An operand in the backing store is not there yet: the group is not ready, for the first reason of Table 17-7 that applies, of which
the missing operand is the last (R115, R352). -/
def spillWait (s : State) (r : Res) : Out :=
  .next { s with blocked := some (match r with | .wait _ why => why | _ => .spill) }

/-- An emulation-space instruction traps for its selected lanes. Lanes whose operand in the backing store was uncorrectable throw, and
with a throw there is no request: the unwind would abandon it before it is visible (R109, R115; notes/assumptions/58). -/
def emulate (s : State) (is : Iss) (i : Instr) : Out :=
  let ls := selLanes is.gang is.q (guardOf i)
  match ls.filter (fun l => (spillBad is.gang i).getLsbD l) with
  | [] => .next (issued (takeTrap s is 3 0 0 (insnBytes i) ls) is i)
  | bad => conclude is i (.throw s (bad.map (fun l => (l, 0x800B))))

/-- Every instruction: the issuing group must exist; it may be held back, trap, be passed over by an idle group, or have its
effect, which `f` gives. -/
def issue (i : Instr) (s : State) (f : State → Iss → Res) : Out :=
  match issuer? s with
  | none => .fault .noIssuer
  | some is =>
    if is.q.ended then .fault .noIssuer
    else if suspended s is.ref is.gang || groupHeld s is then .next { s with blocked := some .sync }
    else
      match screen s is i with
      | some c => screened s is i c
      | none =>
        if i.emulated then
          (if is.q.idle then conclude is i (.done s)
           else
             match notReady is i with
             | some why => .next { s with blocked := some why }
             | none =>
               if (selLanes is.gang is.q (guardOf i)).isEmpty then conclude is i (.done s)
               else if (unfetched is.gang i).isEmpty then emulate s is i
               else .next { s with blocked := some .spill })
        else if passedOver is i then
          conclude is i (.done s)
        else
          match notReady is i with
          | some why => .next { s with blocked := some why }
          | none =>
            if (unfetched is.gang i).isEmpty then conclude is i (unlessSeparated s is i (withDead is (spillBad is.gang i) (f s)))
            else spillWait s (unlessSeparated s is i (f s is))

end Sys2Proof.Machine
end

