-- ==== Sys2Proof/Machine/Control.lean ====
section
/-!
DEFINITION. Control, divergence and exception instructions (spec/07_control.md R129 to R150; spec/02_execution.md R25 to
R32; spec/03_unwinding.md R48 to R52; clause headers, spec/05_encoding.md R97 to R99).
-/

namespace Sys2Proof.Machine

/-! ### Headers and branches -/

/-- The state behind a clause header (R97): the group's clause, and with YLD the supervisor's wait of R406 or, elsewhere, the loss
of the pipe's preference (R39, item 3). -/
def headerState (s : State) (is : Iss) (yld : Bool) (setb seta : Nat) : State :=
  let isSup := match is.ref with | .sup _ => true | .user _ _ => false
  let t := modGroup s is.ref is.grp (fun q =>
    { q with clause := some ⟨seta, setb⟩, llc := 0, hdr := true, pc := is.q.pc + 8
             yieldAt := if yld && isSup then some s.cycle.toNat else none })
  if yld then modCore t (coreOf t is.ref) (fun x =>
    { x with last := if Tab.find? x.last is.gang.pipe = some (is.ref, is.q.quads) then Tab.erase x.last is.gang.pipe else x.last })
  else t

/-- Are the counters that a WAIT mask names all zero? -/
def countersClear (g : Gang) (wait : BitVec 12) : Bool := (List.range 12).all (fun n => !wait.getLsbD n || rdK g n == 0)

/-- R97: the header waits for every counter its mask names, then becomes the group's clause; a header behind a header is illegal
(R98). -/
def execClauseHeader (yld : Bool) (setb seta : Nat) (wait : BitVec 12) (s : State) : Out :=
  issue (.clauseHeader yld setb seta wait) s (fun s is =>
    if is.q.hdr then .trap s .illegalClause
    else if countersClear is.gang wait then .stay (headerState s is yld setb seta)
    else .wait s .wait)

def execNop (s : State) : Out := issue .nop s (fun s _ => .done s)

/-- Go to an address that must hold a clause header (R93, R130), once a given effect has been made. -/
def goTo (s : State) (is : Iss) (t : Nat) (eff : State → Res) : Res :=
  match headerAt s is t with
  | .ok s' => eff s'
  | .trap s' c => .trap s' c
  | .wait s' => .wait s' .sync

def execBra (t : Target) (s : State) : Out :=
  issue (.bra t) s (fun s is => goTo s is (targetOf is t) (fun s' => .jump s' (targetOf is t)))

def execBrc (sense : Bool) (c : Nat) (off : W32) (s : State) : Out :=
  issue (.brc sense c off) s (fun s is =>
    if rdC is.gang c = sense then goTo s is (targetOf is (.off off)) (fun s' => .jump s' (targetOf is (.off off)))
    else .done s)

/-- Put a gang back, go to an address, and throw the nesting overflows that met the instruction (R32). -/
def putAndGo (s : State) (is : Iss) (g : Gang × List Nat) (pc : Nat) : Res :=
  let s := modGang s is.ref (fun _ => g.1)
  if g.2.isEmpty then .jump s pc else .throw s (g.2.map (fun l => (l, 0x8004)))

/-- Park every valid lane outside a set one deeper (R140, R141). -/
def parkOthers (g : Gang) (q : QGroup) (keep : List Nat) : Gang × List Nat :=
  setCounters g ((groupLanes g q).filter (fun l => !keep.contains l)) (fun _ c => c + 1)

/-- lr as CALL and CALLV write it (Table 7-4). -/
def mkLr (ra : Nat) (pk cv : Bool) (thr : Nat) : W64 :=
  BitVec.ofNat 64 (ra % 2 ^ 57 / 4 * 4 + b2n pk + 2 * b2n cv + thr * 2 ^ 57)

/-- The gang as CALL leaves it, with the overflows: a guarded call parks every other valid lane (R140). -/
def callGang (is : Iss) (g : Guard) (t : Target) : Gang × List Nat :=
  let guarded := !(g.p == 0 && !g.neg)
  let r := if guarded then parkOthers is.gang is.q (selOf is g) else (is.gang, [])
  ({ r.1 with lr := mkLr (is.q.pc + Instr.bytes (.call g t)) guarded false 0 }, r.2)

def execCall (g : Guard) (t : Target) (s : State) : Out :=
  issue (.call g t) s (fun s is =>
    if (selOf is g).isEmpty then .done s
    else goTo s is (targetOf is t) (fun s' => putAndGo s' is (callGang is g t) (targetOf is t)))

/-- The gang as a round of CALLV leaves it, for the lanes `grp` out of `rest` led by `f`, with the overflows. -/
def callvGang (is : Iss) (f : Nat) (rest grp : List Nat) : Gang × List Nat :=
  let r := parkOthers is.gang is.q grp
  let lr := if rest.length = grp.length then mkLr (is.q.pc + 8) true false 0 else mkLr (is.q.pc - 8) true true (f + 1)
  ({ r.1 with lr := lr, groups := r.1.groups.modify is.grp (fun q => { q with resume := 0 }) }, r.2)

/-- R141. -/
def execCallv (g : Guard) (a b : Nat) (s : State) : Out :=
  issue (.callv g a b) s (fun s is =>
    let rest := callvRest is g a b
    match rest with
    | [] => .done (modGroup s is.ref is.grp (fun q => { q with resume := 0 }))
    | f :: _ => goTo s is (callvTarget is a b f) (fun s' =>
        putAndGo s' is (callvGang is f rest (rest.filter (fun l => callvTarget is a b l == callvTarget is a b f)))
          (callvTarget is a b f)))

/-- The gang as RET leaves it (R142). -/
def retGang (is : Iss) : Gang :=
  let lr := is.gang.lr.toNat
  let g := if lr.testBit 0 then (setCounters is.gang (groupLanes is.gang is.q) (fun _ c => c - 1)).1 else is.gang
  if lr.testBit 1 then { g with groups := g.groups.modify is.grp (fun q => { q with resume := lr / 2 ^ 57 }) } else g

/-- R142. -/
def execRet (s : State) : Out :=
  issue .ret s (fun s is =>
    goTo s is (retTarget is) (fun s' => .jump (modGang s' is.ref (fun _ => retGang is)) (retTarget is)))

/-! ### Structured instructions -/

/-- The idle flag after a structured instruction (R132); `sets` for IF, ELSE, BRK and CONT. -/
def idleAfter (g : Gang) (q : QGroup) (sets : Bool) : Bool :=
  if (activeLanes g q).isEmpty then q.idle || sets else false

/-- The state behind a structured instruction of one group: counters and structure state put back, the idle flag set, the group at
an address. -/
def structuredState (s : State) (is : Iss) (g : Gang) (q : QGroup) (sets : Bool) (pc : Nat) : State :=
  modGang s is.ref (fun _ =>
    { g with groups := g.groups.set is.grp { q with idle := idleAfter g q sets, pc := pc, hdr := false, arrived := none } })

/-- Finish a structured instruction of one group, and throw the overflows (R32). -/
def structured (s : State) (is : Iss) (g : Gang × List Nat) (q : QGroup) (sets : Bool) (pc : Nat) : Res :=
  let s := structuredState s is g.1 q sets pc
  if g.2.isEmpty then .stay s
  else .throwAt s is.q.pc (g.2.map (fun l => (l, 0x8004))) false

/-- The condition GP and GN carry in IF, BRK and CONT (R129). -/
def condAt (g : Gang) (gd : Guard) (l : Nat) : Bool := rdP g gd.p l != gd.neg

/-- Active lanes of a quad. -/
def quadActive (g : Gang) (q : QGroup) (k : Nat) : List Nat := (activeLanes g q).filter (fun l => l / 4 == k)

/-- Class E of R25: the quad has active lanes and the condition is false in all of them. -/
def quadElse (g : Gang) (q : QGroup) (gd : Guard) (k : Nat) : Bool :=
  q.quads.getLsbD k && !(quadActive g q k).isEmpty && (quadActive g q k).all (fun l => !condAt g gd l)

/-- Classes T and M of R25: some active lane has the condition true. -/
def quadThen (g : Gang) (q : QGroup) (gd : Guard) (k : Nat) : Bool := (quadActive g q k).any (condAt g gd)

/-- A mask of quads from a test. -/
def quadMask (f : Nat → Bool) : BitVec 16 := BitVec.ofNat 16 (maskOf ((List.range 16).filter f))

/-- Does an IF split its group: a quad of class E beside one of class T or M (R25)? -/
def ifSplits (g : Gang) (q : QGroup) (gd : Guard) : Bool :=
  decide (quadMask (quadElse g q gd) ≠ 0#16) && (List.range 16).any (quadThen g q gd)

/-- The counters behind an IF (R133). -/
def ifCounters (g : Gang) (q : QGroup) (gd : Guard) : Gang × List Nat :=
  setCounters g (groupLanes g q) (fun l c =>
    if c ≥ 1 then c + 1
    else if !condAt g gd l && !(ifSplits g q gd && (quadMask (quadElse g q gd)).getLsbD (l / 4)) then 1 else c)

/-- The two groups of an IF that splits: the then-group, and the else-group at its own address (R25, R26). -/
def ifGroups (g : Gang) (q : QGroup) (gd : Guard) (elseD endD : Nat) : QGroup × QGroup :=
  let e := quadMask (quadElse g q gd)
  let j := (q.pc + 4 * endD, q.quads)
  let elseQ := { q with
    sd := q.sd + 1, quads := e, joins := j :: q.joins, hdr := false
    pc := if elseD = 0 then q.pc + 4 * endD else q.pc + 4 * elseD + 8 }
  ({ q with sd := q.sd + 1, quads := q.quads &&& ~~~e, joins := j :: q.joins },
   { elseQ with idle := idleAfter (ifCounters g q gd).1 elseQ true })

/-- IF (R25, R133). A split leaves the then-group in the issuer's place and appends the else-group. -/
def execIf (gd : Guard) (elseD endD : Nat) (s : State) : Out :=
  issue (.ifI gd elseD endD) s (fun s is =>
    if is.q.sd ≥ 255 then throwAllOrNop s is 0x8004
    else
      let r := ifCounters is.gang is.q gd
      if ifSplits is.gang is.q gd then
        let p := ifGroups is.gang is.q gd elseD endD
        structured s is ({ r.1 with groups := r.1.groups ++ [p.2] }, r.2) p.1 true (is.q.pc + 12)
      else structured s is r { is.q with sd := is.q.sd + 1 } true (is.q.pc + 12))

/-- The counters behind an ELSE (R134). -/
def elseCounters (is : Iss) : Gang × List Nat :=
  setCounters is.gang (groupLanes is.gang is.q) (fun _ c => if c = 0 then 1 else if c = 1 then 0 else c)

def execElse (s : State) : Out :=
  issue .elseI s (fun s is => structured s is (elseCounters is) is.q true (is.q.pc + 8))

/-- Live groups of a gang: those that have not executed EXIT. -/
def liveGroups (g : Gang) : List QGroup := g.groups.filter (fun q => !q.ended)

/-- Does a group wait at the join at an address? -/
def waitsAt (q : QGroup) (pc : Nat) (gjoin : Bool) : Bool :=
  !q.ended && q.pc == pc && (match q.arrived with | some a => a.2 == gjoin | none => false)

/-- The quads that have arrived at the ENDIF at an address; ended groups count as arrived (R146). -/
def arrivedQuads (g : Gang) (pc : Nat) : BitVec 16 :=
  g.groups.foldl (fun m q => if q.ended || waitsAt q pc false then m ||| q.quads else m) 0#16

/-- Can the join where a group waits complete (R134, R137)? -/
def joinComplete (g : Gang) (q : QGroup) : Bool :=
  match q.arrived with
  | none => false
  | some (_, true) => (liveGroups g).all (fun x => waitsAt x q.pc true)
  | some (_, false) =>
    match q.joins with
    | (_, m) :: _ => m &&& ~~~(arrivedQuads g q.pc) == 0#16
    | [] => true

/-- The next arrival number of a gang. -/
def nextArrival (g : Gang) : Nat := g.groups.foldl (fun m q => max m ((q.arrived.map (fun a => a.1 + 1)).getD 0)) 0

/-- Groups that merge into one: those waiting at the address, whose quads lie in the mask. The merged group keeps the
clause, the count and the structure state of the one that arrived last (R99, R131), and waits for the PERSISTs of all (R247). -/
def mergeGroups (g : Gang) (pc : Nat) (gjoin : Bool) (mask : BitVec 16) : Option (QGroup × List QGroup) :=
  let inM := fun q : QGroup => waitsAt q pc gjoin && q.quads &&& ~~~mask == 0#16
  let ms := g.groups.filter inM
  let newer := fun (a b : QGroup) => decide ((b.arrived.map (·.1)).getD 0 > (a.arrived.map (·.1)).getD 0)
  match ms with
  | [] => none
  | m :: rest =>
    let last := rest.foldl (fun a b => if newer a b then b else a) m
    some ({ last with quads := ms.foldl (fun x q => x ||| q.quads) 0#16, arrived := none
                      persists := (ms.flatMap (fun q => q.persists)).eraseDups }, g.groups.filter (fun q => !inM q))

/-- Wait at a join: note the arrival; when every live group waits and no join can complete, every active lane throws at
its own wait (R137). -/
def waitAtJoin (s : State) (is : Iss) (g : Gang) : Res :=
  let s' := modGang s is.ref (fun _ => g)
  let live := liveGroups g
  if live.all (fun q => q.arrived.isSome) && !live.any (joinComplete g) then
    match (laneIds g).filter (fun l => live.any (fun q => laneActive g q l)) with
    | [] => .wait s' .sync
    | l0 :: ls =>
      let pc := (((live.find? (fun q => laneActive g q l0)).map (fun q => q.pc)).getD is.q.pc)
      .throwAt s' pc ((l0 :: ls).map (fun l => (l, 0x8006))) false
  else .wait s' .sync

/-- The gang with the issuer's arrival noted. -/
def arrive (is : Iss) (gjoin : Bool) : Gang :=
  let a := if is.q.arrived.isSome then is.q.arrived else some (nextArrival is.gang, gjoin)
  { is.gang with groups := is.gang.groups.set is.grp { is.q with arrived := a } }

/-- The counters and structure state of ENDIF, for a group that has joined (R134). A join orders the accesses of the
groups it gathers (Table 11-3). -/
def endifGroup (g : Gang) (q : QGroup) (pc : Nat) : Gang × QGroup :=
  let g := (setCounters g (groupLanes g q) (fun _ c => c - 1)).1
  let q := { q with sd := q.sd - 1, pc := pc, hdr := false, arrived := none }
  (g, { q with idle := idleAfter g q false })

/-- The gang behind an ENDIF that closes no split (R134). -/
def endifGang (is : Iss) : Gang :=
  let r := endifGroup is.gang is.q (is.q.pc + 8)
  { r.1 with groups := r.1.groups.set is.grp r.2 }

/-- The gang behind an ENDIF at which the quads of `m` have all arrived, with the merged group in front; `js` are the joins left
(R26, R134). -/
def joinedGang (is : Iss) (m : BitVec 16) (js : List (Nat × BitVec 16)) : Option Gang :=
  let g := arrive is false
  (mergeGroups g is.q.pc false m).map (fun p =>
    let r := endifGroup (joinMark g) { p.1 with joins := js } (is.q.pc + 8)
    { r.1 with groups := r.2 :: p.2 })

/-- The turns left in the cycle name the groups of a gang by their places: they follow a group whose place has changed, and those of groups
that have been merged into another are gone (R40). -/
def sameTurns (s : State) (g : GRef) (old new : List QGroup) : State :=
  { s with agenda := s.agenda.filterMap (fun t => match t with
      | .issue h k =>
        if h = g then (old[k]?).bind (fun q => (new.findIdx? (fun r => r.quads == q.quads)).map (fun i => Turn.issue h i)) else some t
      | t => some t) }

/-- The state behind a join, whose gang is given. -/
def joinedState (s : State) (is : Iss) (g : Gang) : State := sameTurns (modGang s is.ref (fun _ => g)) is.ref is.gang.groups g.groups

/-- Have all quads of a mask arrived at the issuer's ENDIF, the issuer's own with them? -/
def allArrived (is : Iss) (m : BitVec 16) : Bool := m &&& ~~~(arrivedQuads (arrive is false) is.q.pc) == 0#16

def execEndif (s : State) : Out :=
  issue .endif s (fun s is =>
    match is.q.joins with
    | (a, m) :: js =>
      if a = is.q.pc then
        if allArrived is m then
          match joinedGang is m js with
          | some g => .stay (joinedState s is g)
          | none => .wait s .sync
        else waitAtJoin s is (arrive is false)
      else .stay (modGang s is.ref (fun _ => endifGang is))
    | [] => .stay (modGang s is.ref (fun _ => endifGang is)))

/-- The gang behind a GJOIN at which every live group waits (R137). -/
def gjoinedGang (is : Iss) : Option Gang :=
  let g := arrive is true
  (mergeGroups g is.q.pc true (BitVec.allOnes 16)).map (fun p =>
    let q := { p.1 with joins := [], pc := is.q.pc + 8, hdr := false }
    { joinMark g with groups := { q with idle := idleAfter g q false } :: p.2 })

/-- GJOIN (R137). A group that has waited here, and whose peers have ended, merges alone. -/
def execGjoin (s : State) : Out :=
  issue .gjoin s (fun s is =>
    if (liveGroups is.gang).length ≤ 1 ∧ is.q.arrived.isNone then .done s
    else if (liveGroups (arrive is true)).all (fun q => waitsAt q is.q.pc true) then
      match gjoinedGang is with
      | some g => .stay (joinedState s is g)
      | none => .wait s .sync
    else waitAtJoin s is (arrive is true))

/-- The counters behind a LOOP (R135). -/
def loopCounters (is : Iss) : Gang × List Nat :=
  setCounters is.gang (groupLanes is.gang is.q) (fun _ c => if c ≥ 1 then c + 2 else c)

/-- LOOP (R135). -/
def execLoop (s : State) : Out :=
  issue .loop s (fun s is =>
    if is.q.sd ≥ 255 ∨ is.q.loops.length ≥ 16 then throwAllOrNop s is 0x8004
    else structured s is (loopCounters is)
      { is.q with sd := is.q.sd + 1, loops := (is.q.pc + 8, is.q.sd + 1) :: is.q.loops } false (is.q.pc + 8))

/-- The counter BRK and CONT give a lane that leaves: SD - d plus 2 or 1, never below 0 (R135). -/
def leaveCount (q : QGroup) (k : Nat) : Nat :=
  let d := match q.loops with | (_, d) :: _ => d | [] => 0
  ((q.sd : Int) - d + k).toNat

/-- The counters behind BRK (k = 2) and CONT (k = 1): the active lanes where the condition holds leave. -/
def leaveCounters (is : Iss) (gd : Guard) (k : Nat) : Gang × List Nat :=
  setCounters is.gang ((activeLanes is.gang is.q).filter (condAt is.gang gd)) (fun _ _ => leaveCount is.q k)

def leave (s : State) (is : Iss) (gd : Guard) (k : Nat) : Res :=
  structured s is (leaveCounters is gd k) is.q true (is.q.pc + 8)

def execBrk (gd : Guard) (s : State) : Out := issue (.brk gd) s (fun s is => leave s is gd 2)
def execCont (gd : Guard) (s : State) : Out := issue (.cont gd) s (fun s is => leave s is gd 1)

/-- The lanes that continued are active again at ENDLOOP (R135). -/
def endloopBack (is : Iss) : Gang := (setCounters is.gang (groupLanes is.gang is.q) (fun _ c => if c = 1 then 0 else c)).1

/-- The counters behind the exit of a loop (R135). -/
def endloopOut (is : Iss) : Gang × List Nat :=
  setCounters (endloopBack is) (groupLanes (endloopBack is) is.q) (fun _ c => if c = 2 then 0 else if c ≥ 3 then c - 2 else c)

/-- ENDLOOP (R135): the back edge while a lane is active and the loop stack is not empty, otherwise the exit. -/
def execEndloop (s : State) : Out :=
  issue .endloop s (fun s is =>
    match is.q.loops, (activeLanes (endloopBack is) is.q).isEmpty with
    | (h, _) :: _, false => structured s is (endloopBack is, []) is.q false h
    | ls, _ => structured s is (endloopOut is) { is.q with loops := ls.drop 1, sd := is.q.sd - 1 } false (is.q.pc + 8))

/-! ### Waiting and ending -/

/-- WAITP (R145, R348). -/
def execWaitp (path t : Nat) (s : State) : Out :=
  issue (.waitp path t) s (fun s is => if pathCount is.gang path ≤ t then .done s else .wait s .wait)

/-- The issuing group has ended. -/
def groupEnded (s : State) (is : Iss) : State :=
  modGroup s is.ref is.grp (fun q => { q with ended := true, arrived := none, watch := none })

/-- The last group of a gang ends, and the gang with it, once an open body has been closed as by OTEND (R146, R309). -/
def lastExit (s : State) (is : Iss) : Res :=
  match bodyEnd s is.ref with
  | (s, [], true) => .stay (endGang (groupEnded s is) is.ref is.q.pc)
  | (s, ts, _) => .wait (throwMany s is.ref ts) .sync

/-- EXIT (R146): the group ends, and with the last one the gang. The supervisor gang goes on (R146). -/
def execExit (s : State) : Out :=
  issue .exit s (fun s is =>
    match is.ref with
    | .sup _ => .done s
    | .user _ _ => if (liveGroups is.gang).length ≤ 1 then lastExit s is else .stay (groupEnded s is))

/-! ### Try and throw -/

/-- TRY.GANG (R49, R51). -/
def execTryGang (off : W32) (s : State) : Out :=
  issue (.tryGang off) s (fun s is =>
    goTo s is (catchOf is off) (fun s' =>
      if is.gang.stack.length ≥ 8 then throwAllOrNop s is 0x8004
      else .done (modGang s' is.ref (fun g => { g with stack := ⟨catchOf is off, crewDepth g, launchDepth g⟩ :: g.stack }))))

/-- Enter region `d + 1` of a crew or launch stack (R50): the new stack, or the code thrown. -/
def enterRegion (stack : List Nat) (d addr : Nat) : Except Nat (List Nat) :=
  if d ≥ 4 then .error 0x8004
  else
    match stack[d]? with
    | none => .ok (stack ++ [addr])
    | some a => if a = addr then .ok stack else .error 0x8006

/-- TRY.CREW (R50, R51). -/
def execTryCrew (off : W32) (s : State) : Out :=
  issue (.tryCrew off) s (fun s is =>
    goTo s is (catchOf is off) (fun s' =>
      match crewIdOf is.ref, crewOf? s' is.ref with
      | some c, some cr =>
        match enterRegion cr.stack (crewDepth is.gang) (catchOf is off) with
        | .error code => throwAllOrNop s is code
        | .ok st =>
          let s' := modCrew s' c (fun cr => { cr with stack := st })
          .done (modGang s' is.ref (fun g => { g with entered := true :: g.entered }))
      | _, _ => .done s))

/-- TRY.LAUNCH (R50, R51). -/
def execTryLaunch (off : W32) (s : State) : Out :=
  issue (.tryLaunch off) s (fun s is =>
    goTo s is (catchOf is off) (fun s' =>
      match crewOf? s' is.ref, launchOf? s' is.ref with
      | some cr, some ln =>
        match enterRegion ln.stack (launchDepth is.gang) (catchOf is off) with
        | .error code => throwAllOrNop s is code
        | .ok st =>
          let s' := modLaunch s' cr.launch (fun l => { l with stack := st })
          .done (modGang s' is.ref (fun g => { g with entered := false :: g.entered }))
      | _, _ => .done s))

/-- The level of the gang's innermost open region (R51): 0 gang, 1 crew, 2 launch. A gang region is innermost when it
was opened at the present depths (R55). -/
def innermost (g : Gang) : Option Nat :=
  let outer := g.entered.head?.map (fun crew => if crew then 1 else 2)
  match g.stack with
  | e :: _ => if e.cd = crewDepth g ∧ e.ld = launchDepth g then some 0 else outer
  | [] => outer

def execEndtryGang (s : State) : Out :=
  issue .endtryGang s (fun s is =>
    if innermost is.gang = some 0 then .done (modGang s is.ref (fun g => { g with stack := g.stack.drop 1 }))
    else .trap s .tryMismatch)

/-- ENDTRY.CREW and ENDTRY.LAUNCH leave the region entered last; the entry closes with the last that is in it (R50). -/
def endtryOuter (s : State) (is : Iss) (level : Nat) : Res :=
  if innermost is.gang = some level then
    .done (closeRegions (modGang s is.ref (fun g => { g with entered := g.entered.drop 1 })) is.ref)
  else .trap s .tryMismatch

def execEndtryCrew (s : State) : Out := issue .endtryCrew s (fun s is => endtryOuter s is 1)
def execEndtryLaunch (s : State) : Out := issue .endtryLaunch s (fun s is => endtryOuter s is 2)

/-- THROW (R52, R148). -/
def execThrow (gd : Guard) (a : Opd) (s : State) : Out :=
  issue (.throw gd a) s (fun s is =>
    match selOf is gd with
    | [] => .done s
    | ls => .throw s (ls.map (fun l => (l, rdSrc s is ⟨a, .u32, []⟩ l % 2 ^ 15))))

/-- A word of the exception record of the issuer's crew (R150). -/
def recordWord (s : State) (is : Iss) (w : Nat) : Nat :=
  ((crewOf? s is.ref).map (fun cr => (Tab.get 0#64 cr.rcd w).toNat)).getD 0

/-- RETHROW (R65, R149): the primary code of the crew's record, in every active lane. -/
def execRethrow (s : State) : Out :=
  issue .rethrow s (fun s is =>
    let code := recordWord s is 0 % 2 ^ 16
    match activeLanes is.gang is.q with
    | [] => .done s
    | ls => .throwAt s is.q.pc (ls.map (fun l => (l, code))) true)

/-- RDEXR (R150). -/
def execRdexr (d a : Opd) (s : State) : Out :=
  issue (.rdexr d a) s (fun s is =>
    let w := rdU s is a
    writeScalar s is d (if w < 96 then recordWord s is w else 0))

end Sys2Proof.Machine
end

