-- ==== Sys2Proof/Machine/Matrix.lean ====
section
/-!
DEFINITION. The matrix engine's arithmetic (spec/04_numbers.md R73 to R91; layouts of spec/14_engines.md Table 14-3): format
words, operand groups, contributions, accumulation, drains and costs.
-/

namespace Sys2Proof.Machine

/-! ### Format words (R75, R76) -/

/-- Kinds of Table 4-4. -/
inductive MxFmtKind where
  | int | block | float
  deriving DecidableEq, Repr

/-- A row of Table 4-4: kind, permitted storage codes, least width, scale bit required. -/
structure MxFmt where
  kind : MxFmtKind
  store : List Nat
  least : Nat
  scaled : Bool

def mxFmt? (code : Nat) : Option MxFmt :=
  match code with
  | 0 | 1 => some ⟨.int, [1, 2], 4, false⟩
  | 2 | 3 => some ⟨.int, [2], 8, false⟩
  | 4 => some ⟨.int, [3], 16, false⟩
  | 5 => some ⟨.int, [0], 1, false⟩
  | 6 => some ⟨.block, [1], 3, true⟩
  | 8 | 9 => some ⟨.float, [3], 1, false⟩
  | 0xA | 0xB => some ⟨.float, [2], 1, false⟩
  | 0xC => some ⟨.float, [2], 1, true⟩
  | 0xD => some ⟨.float, [1, 2], 1, true⟩
  | _ => none

/-- One operand as a format word names it: format code, storage code, scale bit. -/
structure OpndFmt where
  code : Nat
  store : Nat
  scale : Bool
  deriving DecidableEq, Repr

def aFmt (fw : Nat) : OpndFmt := ⟨bits fw 3 0, bits fw 10 8, bit fw 14⟩
def bFmt (fw : Nat) : OpndFmt := ⟨bits fw 7 4, bits fw 13 11, bit fw 15⟩

/-- An operand's format is one R76 accepts, widths aside. -/
def OpndFmt.okFmt (f : OpndFmt) : Bool :=
  match mxFmt? f.code with
  | some m => m.store.contains f.store && (!m.scaled || f.scale)
  | none => false

def OpndFmt.least (f : OpndFmt) : Nat := match mxFmt? f.code with | some m => m.least | none => 0
def OpndFmt.kind (f : OpndFmt) : MxFmtKind := match mxFmt? f.code with | some m => m.kind | none => .int
def OpndFmt.bits (f : OpndFmt) : Nat := storageBits f.store

/-- WA and WB of a width register (Table 4-5). -/
def wdA (wd : W32) : Nat := bits wd.toNat 4 0
def wdB (wd : W32) : Nat := bits wd.toNat 12 8

/-- A width R76 accepts for an operand. -/
def widthOk (w : Nat) (f : OpndFmt) : Bool := decide (1 ≤ w) && decide (w ≤ 16) && decide (f.least ≤ w)

/-- R76 for an MMA form: format word and widths. -/
def mmaWordOk (fw : Nat) (wd : W32) : Bool :=
  decide (fw / 2 ^ 16 = 0) && (aFmt fw).okFmt && (bFmt fw).okFmt && widthOk (wdA wd) (aFmt fw) && widthOk (wdB wd) (bFmt fw)

/-- R76 for MSEL: A fields and bits 31:16; Q4W and BIN1 are not admitted (R291). -/
def mselWordOk (fw : Nat) : Bool :=
  decide (fw / 2 ^ 16 = 0) && (aFmt fw).okFmt && (aFmt fw).code != 5 && (aFmt fw).code != 6

/-- Contribution mode of a format word: float unless both operands are integer-kind without scale bits (R84). -/
def mmaFloat (fw : Nat) : Bool :=
  !((aFmt fw).kind == .int && !(aFmt fw).scale && (bFmt fw).kind == .int && !(bFmt fw).scale)

/-! ### Element values (R68 to R74, R79) -/

/-- Element `k` of a run of packed elements `w` bits wide (R69). -/
def packedAt (bs : Array Byte) (start w k : Nat) : Nat :=
  match w with
  | 1 => b2n (((bs[start + k / 8]?).getD 0#8).getLsbD (k % 8))
  | 4 => ((bs[start + k / 2]?).getD 0#8).toNat / 16 ^ (k % 2) % 16
  | 8 => ((bs[start + k]?).getD 0#8).toNat
  | _ => ((bs[start + 2 * k]?).getD 0#8).toNat + 256 * ((bs[start + 2 * k + 1]?).getD 0#8).toNat

/-- The floating-point format of a matrix format code. -/
def mxSpec : Nat → FSpec
  | 8 => .f16 | 9 => .bf16 | 0xA | 0xC => .e4m3 | 0xB => .e5m2 | _ => .e2m1

/-- The value of an integer element. -/
def mxInt (code x : Nat) : Int :=
  match code with
  | 0 => sext x 4
  | 1 => (zext x 4 : Nat)
  | 2 => sext x 8
  | 3 => (zext x 8 : Nat)
  | 4 => sext x 16
  | _ => if x % 2 = 0 then 1 else -1

/-- The largest finite value of a format. -/
def FSpec.maxVal (f : FSpec) (neg : Bool) : FVal := f.decode (f.signed neg f.maxCode)

/-- A floating-point element as an operand reads it: special values replaced, and whether one was (R79). -/
def mxFloat (code x : Nat) : FVal × Bool :=
  let f := mxSpec code
  match f.decode (x % 2 ^ f.width) with
  | .nan => (.fin false 0 0, true)
  | .inf neg => (f.maxVal neg, true)
  | v => (v, false)

/-- The outlier of a Q4W byte from its partner's four bits s, e1, e0, m (R74). -/
def q4wOutlier (p : Nat) : Int :=
  let v : Int := (((2 + p % 2) * 2 ^ (bits p 2 1 + 3) / 2 : Nat) : Int)
  if p.testBit 3 then -v else v

/-- The slots of a Q4W byte by Table 4-2: value and outlier mark of the even and of the odd slot. -/
def q4wByte (b : Nat) : (Int × Bool) × (Int × Bool) :=
  let lo := b % 16
  let hi := b / 16 % 16
  if lo = 8 then
    (if hi = 8 then ((8, true), (0, false)) else ((q4wOutlier hi, true), (0, false)))
  else if hi = 8 then ((0, false), (q4wOutlier lo, true))
  else ((sext lo 4, false), (sext hi 4, false))

/-- A group of a row of A or a column of B: signed magnitudes with their common weight 2^L, whether a special value was met
(R79) and whether an outlier was saturated (R83). -/
structure MxGroup where
  v : Array Int
  l : Int
  spec : Bool
  sat : Bool

/-- Outliers past the fourth of a group count as 7 with their own sign (R83). -/
def capOutliers : List (Int × Bool) → Nat → List Int × Bool
  | [], _ => ([], false)
  | (x, o) :: xs, n =>
    let r := capOutliers xs (if o then n + 1 else n)
    if o && decide (4 ≤ n) then ((if x < 0 then -7 else 7) :: r.1, true) else (x :: r.1, r.2)

/-- Exponent of a non-zero float element: that of its leading significand bit, a subnormal's read as the smallest normal
exponent (R80). -/
def leadExp (f : FSpec) (m : Nat) (e : Int) : Int := max (e + (m.log2 : Int)) (1 - (f.bias : Int))

/-- The elements of a float group made fixed point at width `w` under a scale exponent (R80). -/
def floatGroup (code w : Nat) (se : Int) (xs : List Nat) : MxGroup :=
  let f := mxSpec code
  let vs := xs.map (mxFloat code)
  let exps := vs.filterMap (fun p => match p.1 with
    | .fin _ m e => if m = 0 then none else some (leadExp f m e)
    | _ => none)
  let g := (exps.foldl (fun a e => match a with | none => some e | some b => some (max b e)) (none : Option Int)).getD 0 + se
  let l := g - ((w : Int) - 1)
  { v := (vs.map (fun p => match p.1 with
      | .fin n m e => let t : Int := (truncAt m (e + se) l : Nat); if n then -t else t
      | _ => 0)).toArray
    l := l, spec := vs.any (fun p => p.2), sat := false }

/-- One group of an operand from its raw elements (for Q4W, its bytes) and its scale code (R79 to R81, R83). -/
def mxGroup (f : OpndFmt) (w : Nat) (xs : List Nat) (sc : Option Nat) : MxGroup :=
  match sc with
  | some 0xFF => ⟨(List.replicate (if f.kind == .block then 2 * xs.length else xs.length) 0).toArray, 0, true, false⟩
  | _ =>
    let se : Int := match sc with | some c => (c : Int) - 127 | none => 0
    match f.kind with
    | .int => ⟨(xs.map (mxInt f.code)).toArray, se, false, false⟩
    | .block =>
      let r := capOutliers (xs.flatMap (fun b => let p := q4wByte b; [p.1, p.2])) 0
      ⟨r.1.toArray, se, false, r.2⟩
    | .float => floatGroup f.code w se xs

/-- Group `g` of `n` elements of the line (row or column) that starts at byte `start`. -/
def lineGroup (f : OpndFmt) (w : Nat) (bs : Array Byte) (start g n : Nat) (sc : Option Nat) : MxGroup :=
  let xs := if f.kind == .block then
      (List.range (n / 2)).map (fun t => ((bs[start + g * (n / 2) + t]?).getD 0#8).toNat)
    else (List.range n).map (fun t => packedAt bs start f.bits (g * n + t))
  mxGroup f w xs sc

/-- All groups of one operand: 64 lines of `ng` groups of `n` elements; scales at `ng` bytes a line (Table 14-3). -/
def operand (f : OpndFmt) (w ng n : Nat) (bs scales : Array Byte) : Array (Array MxGroup) :=
  ((List.range 64).map (fun i =>
    ((List.range ng).map (fun g =>
      lineGroup f w bs (i * ng * n * f.bits / 8) g n
        (if f.scale then some ((scales[ng * i + g]?).getD 0#8).toNat else none))).toArray)).toArray

/-! ### Contributions (R82, R84) -/

/-- Sum over a dense group. -/
def dotDense (a b : MxGroup) : Int := (List.range a.v.size).foldl (fun t k => t + (a.v[k]?).getD 0 * (b.v[k]?).getD 0) 0

/-- Sum over a sparse group: packed element `t` of A meets B's element at its run and index (R289). -/
def dotSparse (idx : Nat → Nat) (a b : MxGroup) : Int :=
  (List.range a.v.size).foldl (fun t k => t + (a.v[k]?).getD 0 * (b.v[4 * (k / 2) + idx k]?).getD 0) 0

/-- The least right shift that brings a value within 64 bits, truncating toward zero (R84, R88). -/
def leastShift (t : Int) : Nat :=
  let lim : Nat := if t < 0 then 2 ^ 63 else 2 ^ 63 - 1
  let m := t.natAbs
  if m ≤ lim then 0
  else
    let s := m.log2 - 63
    if m / 2 ^ s ≤ lim then s else s + 1

/-- Division by a power of two toward zero. -/
def shiftTz (t : Int) (s : Nat) : Int := let q : Int := (t.natAbs / 2 ^ s : Nat); if t < 0 then -q else q

/-- The contribution (C, ec) of group sums with their weights (R84). -/
def contribution (sums : List (Int × Int)) : Int × Int :=
  let nz := sums.filter (fun p => p.1 ≠ 0)
  match nz with
  | [] => (0, 0)
  | p :: ps =>
    let ec := ps.foldl (fun m q => min m q.2) p.2
    let c := nz.foldl (fun t q => t + q.1 * (2 : Int) ^ (q.2 - ec).toNat) 0
    let s := leastShift c
    (shiftTz c s, ec + s)

/-! ### Accumulation (R86, R88) -/

def Acc.exp (a : Acc) : Int := a.x.toInt
def Acc.val (a : Acc) : Int := a.m.toInt

def Acc.put (a : Acc) (m x : Int) : Acc := { a with m := BitVec.ofInt 64 m, x := BitVec.ofInt 12 x }

/-- Add a contribution in float mode to an element that is not in the zero state. -/
def accFloat (a : Acc) (c ec : Int) : Acc :=
  let t := if ec < a.exp then a.val + shiftTz c (a.exp - ec).toNat else a.val + c * (2 : Int) ^ (ec - a.exp).toNat
  let s := leastShift t
  let x := a.exp + s
  if x > 2047 then { a.put ((2 ^ 63 - 1) * t.sign) 2047 with sat := true } else a.put (shiftTz t s) x

/-- Add a contribution of a mode (R88). -/
def accumulate (a : Acc) (isFloat : Bool) (c ec : Int) : Acc :=
  let a := { a with mode := isFloat }
  if a.exp = -2048 then (if c ≠ 0 then a.put c ec else a)
  else if !isFloat then
    let t := a.val + c
    if t > 2 ^ 63 - 1 then { a with m := BitVec.ofInt 64 (2 ^ 63 - 1), sat := true }
    else if t < -(2 ^ 63) then { a with m := BitVec.ofInt 64 (-(2 ^ 63)), sat := true }
    else { a with m := BitVec.ofInt 64 t }
  else if c = 0 then a
  else accFloat a c ec

/-- The tile after every element is given by a function. -/
def tileOfFn (f : Nat → Nat → Acc) : Tab Acc :=
  (List.range 4096).filterMap (fun k => let a := f (k / 64) (k % 64); if a = Acc.zero then none else some (k, a))

/-- A tile made invalid (R64): every element in the zero state with SPEC set. -/
def Tile.invalid : Tile := ⟨(List.range 4096).map (fun k => (k, { Acc.zero with spec := true })), none⟩

/-! ### A step (R79 to R88, R289) -/

/-- What a step reads: its operands, scales and metadata as bytes. -/
structure StepIn where
  fw : Nat
  wd : W32
  a : Array Byte
  b : Array Byte
  sa : Array Byte
  sb : Array Byte
  sm : Option (Array Byte)

/-- Index of packed element `k` of group `g` of row `i` in its run (R289). -/
def spIndex (sm : Array Byte) (i g k : Nat) : Nat :=
  let r := 8 * g + k / 2
  let nib := ((sm[64 * i + r / 2]?).getD 0#8).toNat / 16 ^ (r % 2) % 16
  nib / 4 ^ (k % 2) % 4

/-- The operands of a step: groups of A's rows and of B's columns. -/
def stepOperands (x : StepIn) : Array (Array MxGroup) × Array (Array MxGroup) :=
  match x.sm with
  | none => (operand (aFmt x.fw) (wdA x.wd) 8 32 x.a x.sa, operand (bFmt x.fw) (wdB x.wd) 8 32 x.b x.sb)
  | some _ => (operand (aFmt x.fw) (wdA x.wd) 16 16 x.a x.sa, operand (bFmt x.fw) (wdB x.wd) 16 32 x.b x.sb)

def anySpec (o : Array (Array MxGroup)) : Bool := o.any (fun r => r.any (fun g => g.spec))

/-- Add one step to a tile; none where TRAPSPEC turns a special value into a fault (R79). -/
def stepTile (x : StepIn) (trapspec : Bool) (el : Tab Acc) : Option (Tab Acc) :=
  let o := stepOperands x
  if trapspec && (anySpec o.1 || anySpec o.2) then none
  else
    let rowFlag := fun (m : Array (Array MxGroup)) (p : MxGroup → Bool) => m.map (fun r => r.any p)
    let aSpec := rowFlag o.1 (fun g => g.spec)
    let bSpec := rowFlag o.2 (fun g => g.spec)
    let aSat := rowFlag o.1 (fun g => g.sat)
    let bSat := rowFlag o.2 (fun g => g.sat)
    let old := (List.range 4096).foldl (fun (acc : Array Acc × Tab Acc) k =>
      match acc.2 with
      | (j, a) :: t => if j = k then (acc.1.push a, t) else (acc.1.push Acc.zero, acc.2)
      | [] => (acc.1.push Acc.zero, [])) (#[], el)
    some (tileOfFn (fun i j =>
      let ra := (o.1[i]?).getD #[]
      let rb := (o.2[j]?).getD #[]
      let sums := (List.range ra.size).filterMap (fun g =>
        match ra[g]?, rb[g]? with
        | some ga, some gb =>
          let s := match x.sm with
            | none => dotDense ga gb
            | some sm => dotSparse (spIndex sm i g) ga gb
          some (s, ga.l + gb.l)
        | _, _ => none)
      let c := contribution sums
      let a := accumulate ((old.1[64 * i + j]?).getD Acc.zero) (mmaFloat x.fw) c.1 c.2
      { a with spec := a.spec || (aSpec[i]?).getD false || (bSpec[j]?).getD false
               outsat := a.outsat || (aSat[i]?).getD false || (bSat[j]?).getD false }))

/-! ### Drains (R89, R293) -/

/-- An element converted to a target: its code, and whether it was clamped. -/
def drainElem (tgt : Fmt) (a : Acc) : Nat × Bool :=
  let m := a.val
  if m = 0 then (0, false)
  else
    let neg := decide (m < 0)
    match fspecOf tgt with
    | some f =>
      let c := f.truncCode m.natAbs a.exp
      if c > f.maxCode then (f.signed neg f.maxCode, true) else (f.signed neg c, false)
    | none =>
      let t : Int := (truncAt m.natAbs a.exp 0 : Nat)
      let t := if neg then -t else t
      let u := clampInt t (-(2 ^ 31)) (2 ^ 31 - 1)
      (low u 32, u != t)

/-- The bytes of a drained tile, row-major, and the flags CLAMP, OUTSAT, SPEC, SAT of Table 14-1 as bits 7 to 4. -/
def drainTile (tgt : Fmt) (el : Tab Acc) : List Byte × Nat :=
  let n := tgt.width / 8
  let flag := fun (p : Acc → Bool) => el.any (fun e => p e.2)
  let body := (List.range 4096).foldl (fun (acc : List (List Byte) × Tab Acc) k =>
    match acc.2 with
    | (j, a) :: t => if j = k then (toLE n (drainElem tgt a).1 :: acc.1, t) else (List.replicate n 0#8 :: acc.1, acc.2)
    | [] => (List.replicate n 0#8 :: acc.1, [])) ([], el)
  (body.1.reverse.flatten,
    128 * b2n (flag (fun a => (drainElem tgt a).2)) + 64 * b2n (flag (fun a => a.outsat))
      + 32 * b2n (flag (fun a => a.spec)) + 16 * b2n (flag (fun a => a.sat)))

/-! ### Costs (R85, Table 13-6) -/

def isQ4w (fw : Nat) : Bool := (aFmt fw).code == 6 || (bFmt fw).code == 6

/-- Bytes a step reads from scratchpad, by Table 14-3. -/
def readBytes (k : MxKind) : Nat := (mxReads k).foldl (fun t r => t + r.2) 0

/-- Costed cycles of a command under a width register. -/
def mxCost (k : MxKind) (wd : W32) : Nat :=
  match k with
  | .mma _ _ _ _ fw | .mmaSp _ _ _ _ _ fw | .mmaP _ _ _ _ fw =>
    max (wdA wd * wdB wd + (if isQ4w fw.toNat then 2 else 0)) ((readBytes k + 4095) / 4096)
  | .accz => 8
  | .accdr _ _ => 32
  | .wdset _ | .mfence => 1

/-! ### Selection (R291) -/

/-- The magnitude MSEL compares: the decoded value times its group's scale, NaN as 0, infinity as the largest finite value,
as `m * 2^e`; a scale of 0xFF makes every element 0. -/
def selMag (f : OpndFmt) (x : Nat) (sc : Option Nat) : Nat × Int :=
  match sc with
  | some 0xFF => (0, 0)
  | _ =>
    let se : Int := match sc with | some c => (c : Int) - 127 | none => 0
    match f.kind with
    | .float => (match (mxFloat f.code x).1 with | .fin _ m e => (m, e + se) | _ => (0, 0))
    | _ => ((mxInt f.code x).natAbs, se)

/-- Is the first magnitude greater than the second? -/
def magGt (a b : Nat × Int) : Bool :=
  let e := min a.2 b.2
  decide (a.1 * (2 : Nat) ^ (a.2 - e).toNat > b.1 * (2 : Nat) ^ (b.2 - e).toNat)

/-- The two kept positions of a run of four: the largest magnitudes, the lower index where they tie, ascending. -/
def selPair (ms : List (Nat × Int)) : Nat × Nat :=
  let best := fun (skip : Option Nat) => (List.range 4).foldl (fun (acc : Option Nat) k =>
    if skip = some k then acc
    else match acc with
      | none => some k
      | some b => if magGt ((ms[k]?).getD (0, 0)) ((ms[b]?).getD (0, 0)) then some k else some b) none
  let i := (best none).getD 0
  let j := (best (some i)).getD 1
  if i < j then (i, j) else (j, i)

end Sys2Proof.Machine
end

