-- ==== Sys2Proof/Machine/Copy.lean ====
section
/-!
DEFINITION. Crew barriers and the copy engine (spec/14_engines.md R283 to R287, R291, R298 to R301, R409; spec/10_memories.md
R207; spec/13_queues.md R267): segments, pieces, completion and cancellation of copies.
-/

namespace Sys2Proof.Machine

/-! ### Crew barriers (R298 to R301) -/

def barOf (cr : Crew) (n : Nat) : Bar := Tab.get Bar.init cr.bars n
def modBar (s : State) (c n : Nat) (f : Bar → Bar) : State :=
  modCrew s c (fun cr => { cr with bars := Tab.set Bar.init cr.bars n (f (barOf cr n)) })

/-- A copy lowers a byte count; below -2^23 it stays there and sets the error flag (R300). -/
def barLower (s : State) (c n k : Nat) : State :=
  modBar s c n (fun b =>
    let t := b.byt - (k : Int)
    if t < -(2 ^ 23) then { b with byt := -(2 ^ 23), err := true } else { b with byt := t })

def barArrive (s : State) (c n : Nat) : State := modBar s c n (fun b => { b with arr := b.arr + 1 })

/-- The flip test of one barrier (R299). -/
def flip (b : Bar) : Bar :=
  if b.arr = b.exp ∧ b.byt = 0 ∧ b.err = false then { b with phase := !b.phase, arr := 0 } else b

/-- The flip test of every barrier, made once at the end of a cycle (R299). -/
def flipBars (s : State) : State :=
  { s with crews := Tab.mapVals (fun _ cr => { cr with bars := Tab.mapVals (fun _ b => flip b) cr.bars }) s.crews }

/-! ### Engine accesses (R226, R334) -/

/-- Read bytes as an engine does: at H(x) for device memory, at Y(x) for host and peer memory and for blocks that the host owns
(R226, R359). -/
def engRead (s : State) (pa n : Nat) : State × List Byte :=
  if homeIsMem s pa then
    let s := (List.range n).foldl (fun s i => homeFetch s (pa + i)) s
    (s, (List.range n).map (fun i => homeRead s (pa + i)))
  else (s, s.mem.readN pa n)

/-- Why an element cannot move yet: its page is awaited, its block is being taken back, its tile is not granted, or the matrix engine
holds a range that it writes. -/
inductive Hold where
  | page | block | grant | matrix
  deriving DecidableEq, Repr

/-- What locating a side of an element comes to. -/
inductive Locate where
  | ok (xs : List Stretch)
  | fault (code : Nat)
  | wait (h : Hold)

/-- Locate a scratchpad range: every bank in scratchpad mode (R409), the range within the allocation, and for a read no lost
line (R199). -/
def locScr (s : State) (c : Nat) (cr : Crew) (o n : Nat) (write : Bool) : Locate :=
  let lines := (List.range ((o + n - 1) / 128 - o / 128 + 1)).map (fun i => 128 * (o / 128 + i))
  if o + n > scrSize s (.user c 0) then .fault 0x8001
  else if !lines.all (scrMode s cr) then .fault 0x8007
  else if !write && lines.any (isLost cr.lostScr) then .fault 0x800B
  else if write && heldByMatrix s c o n then .wait .matrix
  else .ok [⟨true, o, n⟩]

/-- Locate several scratchpad ranges of an element, in their order. -/
def locScrs (s : State) (c : Nat) (cr : Crew) (write : Bool) : List (Nat × Nat) → Locate
  | [] => .ok []
  | x :: xs =>
    match locScr s c cr x.1 x.2 write with
    | .ok a => (match locScrs s c cr write xs with | .ok b => .ok (a ++ b) | r => r)
    | r => r

/-- Locate one page's part of the global side of element `k` of a copy: stage-two misses wait for the host's reply, or fault once the host
has answered that the page failed (R284, R366, R367); inside a body the tiles of CPY.X are judged here (R308). -/
def locPage (s : State) (core : Nat) (m : CopyCmd) (k va n : Nat) (write : Bool) : State × Locate :=
  let body := match m.kind, m.body with | .indexed _, some t => some t | _, _ => none
  let mine := fun w : Waiter => match w with | .copy _ c op e => c == m.crew && op == m.op && e == k | _ => false
  if m.failed.contains k then (s, .fault 0x8002)
  else if awaits s mine then (s, .wait .page)
  else
  match translate s m.ctx va with
  | (s, .miss fn g tb) =>
    (requestPage s fn g m.ctx (if tb then 3 else if write then 1 else 0) 1 (.copy core m.crew m.op k), .wait .page)
  | (s, .ok x) =>
    let pa := xlatPa x va
    let how := if write then AKind.write else AKind.read
    let g := GRef.user m.crew m.gang
    let judged := match body, gang? s g with
      | some t, some y => if xlatPresent x then bodyCheck s g { y with body := some t } pa n write else 0
      | _, _ => 2
    if judged = 0 then (s, .fault 0x8003)
    else if !xlatPresent x then (s, .fault 0x8002)
    else if judged = 1 then (s, .wait .grant)
    else if closingBlock s pa then (s, .wait .block)
    else if !(leafPermits x.bits how && (barredOf s .copy m.ctx pa how).isNone) then (s, .fault 0x8007)
    else if !write && (List.range n).any (fun i => isLost s.lost (pa + i)) then (s, .fault 0x800B)
    else (s, .ok [⟨false, pa, n⟩])

/-- Locate a global range page by page. -/
def locGlobal (s : State) (core : Nat) (m : CopyCmd) (k va n : Nat) (write : Bool) : State × Locate :=
  let h := 65536 - va % 65536
  if n ≤ h then locPage s core m k va n write
  else
    match locPage s core m k va h write with
    | (s, .ok xs) =>
      match locPage s core m k (va + h) (n - h) write with
      | (s, .ok ys) => (s, .ok (xs ++ ys))
      | r => r
    | r => r

/-! ### Multicast (R207) -/

/-- Core number of bit `i` of a cluster mask, from the issuing core. -/
def clusterCore (core i : Nat) : Nat := core / 160 * 160 + core % 160 / 8 * 8 + i

/-- The crews of the issuing launch on a core, by table number. -/
def crewsOn (s : State) (launch core : Nat) : List Nat :=
  (s.crews.filter (fun p => p.2.launch == launch && p.2.phase == .resident
    && (p.2.core == core || (isPair s p.2 && p.2.core + 1 == core)))).map (fun p => p.1)

/-- The crews that a multicast reaches, each with the bit of its core. -/
def mcTargets (s : State) (core launch : Nat) (mask : BitVec 8) : List (Nat × Nat) :=
  ((List.range 8).filter (fun i => mask.getLsbD i)).flatMap
    (fun i => (crewsOn s launch (clusterCore core i)).map (fun c => (i, c)))

/-- Does a matrix step hold a range in a crew that a multicast is about to write (R229)? -/
def mcHeld (s : State) (core : Nat) (launch : Nat) (mask : BitVec 8) (o n : Nat) : Bool :=
  (mcTargets s core launch mask).any (fun t => heldByMatrix s t.2 o n)

/-! ### Elements of a copy -/

/-- Bytes of an MSEL's element, two runs of four: those that are read, of which half as many are written (R291). -/
def mselSize (fw : W32) : Nat := (aFmt fw.toNat).bits

/-- Bytes that an element writes, and a command. -/
def copyEsz (m : CopyCmd) : Nat := match m.kind with | .msel fw .. => mselSize fw / 2 | _ => (cutRec m.rc).esz
def copyTotal (m : CopyCmd) : Nat := m.count * copyEsz m

/-- Where element `k` of an MSEL reads: its two runs, and the scale byte of their group where the format has one. -/
def mselFrom (fw : W32) (src sa k : Nat) : List (Nat × Nat) :=
  (src + k * mselSize fw, mselSize fw) :: (if (aFmt fw.toNat).scale then [(sa + k / 4, 1)] else [])

/-- Where it writes: the elements kept, and a byte of metadata. -/
def mselTo (fw : W32) (dst sm k : Nat) : List (Nat × Nat) := [(dst + k * (mselSize fw / 2), mselSize fw / 2), (sm + k, 1)]

/-- What an MSEL writes for the bytes that one element reads: of each run the two elements of largest magnitude, and their indexes (R291). -/
def mselBytes (fw : W32) (bs : List Byte) : List Byte :=
  let f := aFmt fw.toNat
  let w := f.bits
  let sc := if f.scale then (bs[w]?).map (fun b => b.toNat) else none
  let run := fun (j : Nat) =>
    let xs := (List.range 4).map (fun i => packedAt bs.toArray 0 w (4 * j + i))
    let p := selPair (xs.map (fun x => selMag f x sc))
    ((xs[p.1]?).getD 0 + 2 ^ w * (xs[p.2]?).getD 0, p.1 + 4 * p.2)
  toLE (w / 2) ((run 0).1 + 2 ^ (2 * w) * (run 1).1) ++ toLE 1 ((run 0).2 + 16 * (run 1).2)

/-- The bytes that an element writes for those that it has read. -/
def elemOut (m : CopyCmd) (bs : List Byte) : List Byte := match m.kind with | .msel fw .. => mselBytes fw bs | _ => bs

/-- The element index of element `k`, or none where CPY.X skips it, or a fault of its index word (R287). -/
def copyIndex (s : State) (c : Nat) (cr : Crew) (m : CopyCmd) (k : Nat) : Except Nat (Option Nat) :=
  match m.kind with
  | .indexed list =>
    match locScr s c cr (list + 4 * k) 4 false with
    | .fault code => .error code
    | _ =>
      let i := leNat (scrRead cr (list + 4 * k) 4)
      if i = 0xFFFFFFFF then .ok none
      else if i ≥ recExtent (cutRec m.rc) then .error 0x8001 else .ok (some i)
  | _ => .ok (some (m.first + k))

/-- What moving one element comes to. -/
inductive Move where
  | skip
  | fault (code : Nat)
  | wait (h : Hold)
  | go (src dst : List Stretch)

/-- Must the element wait? -/
def Move.holds : Move → Bool
  | .wait _ => true
  | _ => false

/-- Does a matrix step hold a stretch that element `k` writes (R229)? -/
def elemHeld (s : State) (core : Nat) (m : CopyCmd) (cr : Crew) (k : Nat) (dst : List Stretch) : Bool :=
  match m.kind with
  | .multicast mask => mcHeld s core cr.launch mask (m.off + k * copyEsz m) (copyEsz m)
  | _ => dst.any (fun x => x.scr && heldByMatrix s m.crew x.at_ x.len)

/-- Locate both sides of element `k`, the one read first: the record side and the dense side, or of MSEL the tile and its packed form. -/
def planElem (s : State) (core : Nat) (m : CopyCmd) (k : Nat) : State × Move :=
  match crew? s m.crew, Tab.find? m.placed k with
  | none, _ => (s, .wait .page)
  | some cr, some p => (s, if elemHeld s core m cr k p.2 then .wait .matrix else .go p.1 p.2)
  | some cr, none =>
    let r := cutRec m.rc
    match copyIndex s m.crew cr m k with
    | .error code => (s, .fault code)
    | .ok none => (s, .skip)
    | .ok (some i) =>
      let a := recAddr r i
      let o := m.off + k * copyEsz m
      let rec_ := fun (s : State) (w : Bool) => if r.spad then (s, locScr s m.crew cr a r.esz w) else locGlobal s core m k a r.esz w
      let source := fun (s : State) => match m.kind with
        | .msel fw src _ sa _ => (s, locScrs s m.crew cr false (mselFrom fw src sa k))
        | _ => if m.dir then (s, locScr s m.crew cr o r.esz false) else rec_ s false
      let dest := fun (s : State) => match m.kind with
        | .msel fw _ dst _ sm => (s, locScrs s m.crew cr true (mselTo fw dst sm k))
        | .multicast _ => (s, if elemHeld s core m cr k [] then .wait .matrix else .ok [])
        | _ => if m.dir then rec_ s true else (s, locScr s m.crew cr o r.esz true)
      match source s with
      | (s, .fault c) => (s, .fault c)
      | (s, .wait h) => (s, .wait h)
      | (s, .ok xs) =>
        match dest s with
        | (s, .fault c) => (s, .fault c)
        | (s, .wait h) => (s, .wait h)
        | (s, .ok ys) => (s, .go xs ys)

/-- Locate every element of a list. -/
def planAll (s : State) (core : Nat) (m : CopyCmd) : List Nat → State × List (Nat × Move)
  | [] => (s, [])
  | k :: ks =>
    let r := planElem s core m k
    let t := planAll r.1 core m ks
    (t.1, (k, r.2) :: t.2)

/-- The race report sees each line of the global stretches of a side (R398). -/
def raceStretches (s : State) (m : CopyCmd) (core : Nat) (write : Bool) (xs : List Stretch) : State :=
  (xs.filter (fun x => !x.scr)).foldl (fun s x =>
    (List.range ((x.at_ + x.len - 1) / 128 - x.at_ / 128 + 1)).foldl (fun s i =>
      raceAccess s m.crew m.gang core m.pc (if i = 0 then x.at_ else 128 * (x.at_ / 128 + i)) write false true (if write then 3 else 2)) s) s

/-- Read stretches. -/
def readStretches (s : State) (m : CopyCmd) : List Stretch → State × List Byte
  | [] => (s, [])
  | x :: xs =>
    let r :=
      if x.scr then (s, ((crew? s m.crew).map (fun cr => scrRead cr x.at_ x.len)).getD [])
      else engRead s x.at_ x.len
    let t := readStretches r.1 m xs
    (t.1, r.2 ++ t.2)

/-- What stretches hold now, where the engine reads them. -/
def peekStretches (s : State) (m : CopyCmd) (xs : List Stretch) : List Byte :=
  xs.flatMap (fun x =>
    if x.scr then ((crew? s m.crew).map (fun cr => scrRead cr x.at_ x.len)).getD []
    else (List.range x.len).map (fun i => if homeIsMem s (x.at_ + i) then homeRead s (x.at_ + i) else s.mem.read (x.at_ + i)))

/-- Source bytes of element `k`, those read early in place of what is there now (R226). -/
def withEarly (m : CopyCmd) (k : Nat) (bs : List Byte) : List Byte :=
  if m.pre.isEmpty then bs else bs.zipIdx.map (fun b => (Tab.find? m.pre (256 * k + b.2)).getD b.1)

/-- The addresses of the bytes of stretches, and whether each is the scratchpad's. -/
def stretchAddrs (xs : List Stretch) : List (Bool × Nat) := xs.flatMap (fun x => (List.range x.len).map (fun i => (x.scr, x.at_ + i)))

/-- Write those bytes of an element that a test on their numbers picks, into the scratchpad of a crew or at their points, counted (0x80B). -/
def putOut (s : State) (core crew : Nat) (p : Nat → Bool) (dst : List Stretch) (out : List Byte) : State :=
  let bs := (((stretchAddrs dst).zip out).zipIdx).filter (fun b => p b.2)
  bs.foldl (fun s b => if b.1.1.1 then scrWrite s crew b.1.1.2 [b.1.2] else sysWrite s b.1.1.2 b.1.2) (countCore s core 0x80B bs.length)

/-- Where element `k` is written: its own destination, or for CPY.M the dense range of each crew that the named cores hold, with the bit of
its core. -/
def elemTargets (s : State) (core : Nat) (m : CopyCmd) (k : Nat) (dst : List Stretch) : List (Nat × Nat × List Stretch) :=
  match m.kind, crew? s m.crew with
  | .multicast mask, some own =>
    (mcTargets s core own.launch mask).map (fun t => (t.1, t.2, [⟨true, m.off + k * copyEsz m, copyEsz m⟩]))
  | .multicast _, none => []
  | _, _ => [(0, m.crew, dst)]

/-- Does an allocation hold the whole dense range of a multicast (R207)? -/
def takesAll (s : State) (m : CopyCmd) (crew : Nat) : Bool := decide (m.off + copyTotal m ≤ scrSize s (.user crew 0))

/-- Is the bank of an element of a multicast in scratchpad mode? -/
def takesElem (s : State) (m : CopyCmd) (k crew : Nat) : Bool :=
  ((crew? s crew).map (fun cr => scrMode s cr (m.off + k * copyEsz m))).getD false

/-- Bytes delivered to a crew: its barrier is lowered by them once their piece is written (R207, R285). -/
def owe (m : CopyCmd) (crew p n : Nat) : CopyCmd :=
  { m with due := Tab.put m.due (2 ^ 20 * crew + p) ((Tab.find? m.due (2 ^ 20 * crew + p)).getD 0 + n)
           credited := m.credited + (if crew = m.crew then n else 0) }

/-- Write the rest of element `k` of a piece to a crew. -/
def putMoved (s : State) (core : Nat) (m : CopyCmd) (p k crew : Nat) (dst : List Stretch) (out : List Byte) : State × CopyCmd :=
  (putOut s core crew (fun i => !m.wrote.contains (crew, 256 * k + i)) dst out, owe m crew p (copyEsz m))

/-- Deliver element `k` to every crew of the named cores: bytes that meet a bank out of scratchpad mode are dropped, and a crew whose
allocation does not hold the whole destination receives nothing (R207). A pair crew both of whose cores are named receives the bytes, and
lowers its barrier, once: DESIGN CHOICE, notes/assumptions/79. -/
def deliver (s : State) (core : Nat) (m : CopyCmd) (p k : Nat) (out : List Byte) : State × CopyCmd :=
  let r := (elemTargets s core m k []).foldl (fun (acc : (State × CopyCmd) × List Nat) t =>
    let s := acc.1.1
    let m := acc.1.2
    let bitI := BitVec.ofNat 8 (2 ^ t.1)
    if !takesAll s m t.2.1 then acc
    else if !takesElem s m k t.2.1 then ((s, { m with skip := m.skip ||| bitI }), acc.2)
    else if acc.2.contains t.2.1 then ((s, { m with got := m.got ||| bitI }), acc.2)
    else (putMoved s core { m with got := m.got ||| bitI } p k t.2.1 t.2.2 out, acc.2 ++ [t.2.1]))
    ((s, m), [])
  r.1

/-! ### Pieces (R226, R267, R283) -/

/-- Pieces of a command: one per 128-byte line of its dense side. -/
def copyPieces (m : CopyCmd) : Nat := if copyTotal m = 0 then 0 else (m.off + copyTotal m - 1) / 128 - m.off / 128 + 1

/-- Elements of a piece. -/
def pieceElems (m : CopyCmd) (p : Nat) : List Nat :=
  let e := copyEsz m
  let lo := if p = 0 then 0 else (128 * (m.off / 128 + p) - m.off) / e
  let hi := min m.count ((128 * (m.off / 128 + p + 1) - m.off) / e)
  (List.range (hi - lo)).map (fun i => lo + i)

/-- Segments of 4 KiB (R267). -/
def copySegs (m : CopyCmd) : Nat := (copyPieces m + 31) / 32

/-- Note a faulting element (R284). -/
def noteFault (m : CopyCmd) (k code : Nat) : CopyCmd :=
  { m with undel := m.undel + copyEsz m
           fault := match m.fault with | some f => if f.1 ≤ k then some f else some (k, code) | none => some (k, code) }

/-- Note an element as moved. -/
def noteMoved (m : CopyCmd) (k : Nat) : CopyCmd := { m with moved := m.moved ++ [k] }

/-- The source bytes of element `k`: those that were read before its first byte was written, or else those that are there now, with the bytes
read early. An element's bytes are all read before it is written, since it is not transferred where one of them cannot be read (R284):
DEDUCED, notes/assumptions/36. -/
def elemSource (s : State) (core : Nat) (m : CopyCmd) (k : Nat) (src dst : List Stretch) : State × List Byte :=
  if (Tab.find? m.placed k).isSome then (s, withEarly m k ((stretchAddrs src).map (fun _ => 0#8)))
  else
    let r := readStretches (raceStretches s m core false src) m src
    (raceStretches r.1 m core true dst, withEarly m k r.2)

/-- Move one located element of piece `p`. -/
def moveElem (core p : Nat) (acc : State × CopyCmd) (e : Nat × Move) : State × CopyCmd :=
  let (s, m) := acc
  match e.2 with
  | .skip => (s, noteMoved (owe m m.crew p (copyEsz m)) e.1)
  | .fault code => (s, noteMoved (noteFault m e.1 code) e.1)
  | .wait _ => (s, m)
  | .go src dst =>
    let r := elemSource s core m e.1 src dst
    let out := elemOut m r.2
    let t := match m.kind with
      | .multicast _ => deliver r.1 core m p e.1 out
      | _ => putMoved r.1 core m p e.1 m.crew dst out
    (t.1, noteMoved t.2 e.1)

/-- The global lines of some elements, each as one access of the engine to its home slice and port (Table 17-7). -/
def countLines (s : State) (core : Nat) (es : List (Nat × Move)) : State :=
  let sides := es.flatMap (fun e => match e.2 with | .go src dst => src.map (fun x => (false, x)) ++ dst.map (fun x => (true, x)) | _ => [])
  let lines := sides.flatMap (fun x => if x.2.scr then [] else
    (List.range ((x.2.at_ + x.2.len - 1) / 128 - x.2.at_ / 128 + 1)).map (fun i => (x.1, 128 * (x.2.at_ / 128 + i))))
  lines.eraseDups.foldl (fun s l => countPort (countHome s core l.2) l.2 l.1) s

/-- Put a command back into its queue. -/
def putCopy (s : State) (core idx : Nat) (m : CopyCmd) : State := modCore s core (fun x => { x with copyQ := x.copyQ.set idx m })

/-- May a piece be written: its segment started, itself not written? -/
def pieceOpen (m : CopyCmd) (p : Nat) : Bool := decide (p < copyPieces m) && decide (p / 32 < m.segs) && !m.done.contains p

/-- Lower the barriers of the crews that a test on the piece picks by what was delivered to them (R207, R285). -/
def payDue (s : State) (m : CopyCmd) (f : Nat → Bool) : State :=
  match m.bar with
  | none => s
  | some b => m.due.foldl (fun s d => if f (d.1 % 2 ^ 20) then barLower s (d.1 / 2 ^ 20) b d.2 else s) s

/-- A command one of whose pieces is written whole: what it noted of that piece's elements goes. -/
def pieceDone (m : CopyCmd) (p : Nat) : CopyCmd :=
  let ks := pieceElems m p
  let others := fun {α : Type} (t : Tab α) (d : Nat) => t.filter (fun x => !ks.contains (x.1 / d))
  { m with done := m.done ++ [p], moved := m.moved.filter (fun k => !ks.contains k), placed := others m.placed 1, pre := others m.pre 256
           wrote := m.wrote.filter (fun x => !ks.contains (x.2 / 256)), due := m.due.filter (fun d => d.1 % 2 ^ 20 != p) }

/-- Write one piece (R226, R284, R285): every element of it that can be moved, in a free order; once none is left the piece counts as written
and the barriers are lowered by what was delivered. Of several elements of a scatter that fall on one location the last stands. -/
def copyPiece (s : State) (core idx : Nat) (m : CopyCmd) (p : Nat) : State :=
  let ks := pieceElems m p
  let r := planAll s core m (ks.filter (fun k => !m.moved.contains k))
  let es := r.2.filter (fun e => !e.2.holds)
  let s := countLines { r.1 with fresh := r.1.fresh + 128 } core es
  let t := (freeOrder r.1.fresh (fun e : Nat × Move => e.1 % 128) es).foldl (moveElem core p) (s, m)
  if ks.all t.2.moved.contains then putCopy (payDue t.1 t.2 (fun q => q == p)) core idx (pieceDone t.2 p)
  else putCopy t.1 core idx t.2

/-- Read some source bytes of a located element before it is written, by free values from `k0` on (R226). -/
def preRead (s : State) (k0 : Nat) (m : CopyCmd) (k : Nat) (src : List Stretch) : CopyCmd :=
  { m with pre := (peekStretches s m src).zipIdx.foldl (fun t b =>
      let key := 256 * k + b.2
      if (Tab.find? t key).isSome || !(Config.freeValue (k0 + key)).getLsbD 0 then t else Tab.put t key b.1) m.pre }

/-- Read what is left of an element's source, after which its bytes may be written one by one (R226). -/
def placeElem (s : State) (core : Nat) (m : CopyCmd) (k : Nat) (src dst : List Stretch) : State × CopyCmd :=
  let r := elemSource s core m k src dst
  (r.1, { m with pre := r.2.zipIdx.foldl (fun t b => Tab.put t (256 * k + b.2) b.1) m.pre, placed := Tab.put m.placed k (src, dst) })

/-- Write some bytes of a placed element ahead of the rest, by free values from `k0` on: a crew's are `n` numbers apart (R226). -/
def preWrite (s : State) (core k0 n : Nat) (m : CopyCmd) (k : Nat) (src dst : List Stretch) : State × CopyCmd :=
  let out := elemOut m (elemSource s core m k src dst).2
  let all := (elemTargets s core m k dst).filter (fun t => match m.kind with
    | .multicast _ => takesAll s m t.2.1 && takesElem s m k t.2.1
    | _ => true)
  all.zipIdx.foldl (fun (acc : State × CopyCmd) (t : (Nat × Nat × List Stretch) × Nat) =>
    let crew := t.1.2.1
    let pick := fun (i : Nat) => !acc.2.wrote.contains (crew, 256 * k + i) && (Config.freeValue (k0 + n * t.2 + 256 * k + i)).getLsbD 0
    (putOut acc.1 core crew pick t.1.2.2 out,
      { acc.2 with wrote := acc.2.wrote ++ ((List.range out.length).filter pick).map (fun i => (crew, 256 * k + i)) })) (s, m)

/-- Read and write some bytes of the open pieces of a command ahead of the rest: reads and writes of a command come in any order, byte by
byte, so which come when is free (R226). -/
def moveEarly (s : State) (core idx : Nat) (m : CopyCmd) : State :=
  let ks := ((((List.range (copyPieces m)).filter (pieceOpen m)).flatMap (pieceElems m)).filter (fun k => !m.moved.contains k))
  let k0 := s.fresh
  let n := 256 * m.count
  let r := ks.foldl (fun (acc : State × CopyCmd) k =>
    let t := planElem acc.1 core acc.2 k
    match t.2 with
    | .go src dst =>
      let m := if (Tab.find? acc.2.placed k).isSome then acc.2 else preRead t.1 k0 acc.2 k src
      let begun := (Tab.find? m.placed k).isSome
      let u := if !begun && (Config.freeValue (k0 + n + k)).getLsbD 0 then placeElem t.1 core m k src dst else (t.1, m)
      if (Tab.find? u.2.placed k).isSome then preWrite u.1 core (k0 + 2 * n) n u.2 k src dst else u
    | _ => (t.1, acc.2))
    ({ s with fresh := k0 + n * (2 + (elemTargets s core m 0 []).length) }, m)
  putCopy r.1 core idx r.2

/-- The same for every command of a core's queue. -/
def moveAllEarly (s : State) (core : Nat) : State :=
  (List.range (((core? s core).map (fun x => x.copyQ.length)).getD 0)).foldl (fun s i =>
    match (core? s core).bind (fun x => x.copyQ[i]?) with
    | some m => if m.segs = 0 then s else moveEarly s core i m
    | none => s) s

/-- Take a command out of its queue. -/
def dropCopy (s : State) (core idx : Nat) : State := modCore s core (fun x => { x with copyQ := x.copyQ.eraseIdx idx })

/-- SKIP of a command's status word (Table 14-1). -/
def copySkip (m : CopyCmd) : Nat :=
  match m.kind with
  | .multicast mask => (mask &&& (~~~m.got ||| m.skip)).toNat
  | _ => 0

/-- UNDEL of a command that ends: for CPY.M, of the issuing crew. -/
def copyUndel (m : CopyCmd) : Nat := copyTotal m - m.credited

/-- No page reply reaches a command any more. -/
def forgetCopy (s : State) (m : CopyCmd) : State :=
  let keeps := fun w : Waiter => match w with | .copy _ c op _ => !(c == m.crew && op == m.op) | _ => true
  { s with pageReqs := s.pageReqs.map (fun r => { r with waiters := r.waiters.filter keeps }) }

/-- A command whose pieces are all written completes: the barrier is lowered by the bytes of faulting elements, and the
future resolves OK or FAULTED (R284, R285). -/
def copyDone (s : State) (core idx : Nat) (m : CopyCmd) : State :=
  let s := forgetCopy (dropCopy s core idx) m
  let s := match m.kind, m.bar with
    | .multicast _, _ => s
    | _, some b => barLower s m.crew b m.undel
    | _, none => s
  let code := match m.fault with | some f => f.2 | none => 0
  resolveOp s m.crew m.op (if m.fault.isSome then .faulted else .ok)
    (copySkip m * 2 ^ 56 + copyUndel m * 2 ^ 32 + code * 2 ^ 16)

/-- What a cancelled copy leaves behind: its barriers lowered by what it delivered of pieces it has not written whole, its barrier lowered by
the bytes not delivered, and its future CANCELLED (Table 3-3, R285, R296). Of a CPY.M only the issuing crew's barrier is lowered by
undelivered bytes, and only where the issuing core is in the mask: DESIGN CHOICE, notes/assumptions/80. -/
def copyCancelled (s : State) (core : Nat) (m : CopyCmd) : State :=
  let s := payDue (forgetCopy s m) m (fun _ => true)
  let lowers := match m.kind with
    | .multicast mask => (List.range 8).any (fun i => mask.getLsbD i && clusterCore core i == core)
    | _ => true
  let s := match m.bar with
    | some b => if lowers then barLower s m.crew b (copyUndel m) else s
    | none => s
  resolveOp s m.crew m.op .cancelled (copySkip m * 2 ^ 56 + copyUndel m * 2 ^ 32)

/-- Cancel the first copy of a core's queue that a test picks. -/
def cancelCopies (s : State) (core : Nat) (p : CopyCmd → Bool) : Nat → State
  | 0 => s
  | n + 1 =>
    match core? s core with
    | none => s
    | some x =>
      match x.copyQ.findIdx? p with
      | none => s
      | some i =>
        match x.copyQ[i]? with
        | none => s
        | some m => cancelCopies (copyCancelled (dropCopy s core i) core m) core p n

/-- Commands that may start a segment now: those in progress with segments left, and, with fewer than four in progress, the
first one not started (R267). -/
def startable (q : List CopyCmd) : List Nat :=
  let on := (q.zipIdx.filter (fun p => decide (0 < p.1.segs) && decide (p.1.segs < copySegs p.1))).map (fun p => p.2)
  let busy := (q.filter (fun m => decide (0 < m.segs))).length
  match q.findIdx? (fun m => m.segs == 0) with
  | some i => if busy < 4 then on ++ [i] else on
  | none => on

/-- Write of the started segments every element that can be written (R43: started segments finish). -/
def finishSegments (s : State) (core idx : Nat) : List Nat → State
  | [] => s
  | p :: ps =>
    match (core? s core).bind (fun x => x.copyQ[idx]?) with
    | none => s
    | some m => finishSegments (if pieceOpen m p then copyPiece s core idx m p else s) core idx ps

end Sys2Proof.Machine
end

