-- ==== Sys2Proof/Machine/MatrixEngine.lean ====
section
/-!
DEFINITION. The matrix engine of a core (spec/14_engines.md R288 to R293, R296, R409; spec/11_ordering.md R229, R230;
spec/13_queues.md R266, R267): widths that will stand, backlog, the running of one command, removal of queued commands.
-/

namespace Sys2Proof.Machine

/-! ### Tiles and widths (R77, R78, R87) -/

/-- Key of a tile or its width register: the tiles of a pair crew lie on both cores. -/
def tileKey (side tile : Nat) : Nat := 4 * side + tile

def tileOfCrew (cr : Crew) (k : Nat) : Tile := Tab.get Tile.zero cr.tiles k
def modTile (s : State) (c k : Nat) (f : Tile → Tile) : State :=
  modCrew s c (fun cr => { cr with tiles := Tab.set Tile.zero cr.tiles k (f (tileOfCrew cr k)) })

/-- A width register, reset 0x0000_0808. -/
def widthOf (cr : Crew) (k : Nat) : W32 := Tab.get 0x808#32 cr.wds k

/-- WDSET writes WA and WB and nothing else (R292). -/
def wdWritten (v : W32) : W32 := v &&& 0x1F1F#32

def sameTile (m : MxCmd) (c side tile : Nat) : Bool := m.crew == c && m.side == side && m.tile == tile

/-- The widths that stand after every WDSET of a list of commands (R78). -/
def widthAfter (wd : W32) (c side tile : Nat) (q : List MxCmd) : W32 :=
  q.foldl (fun w m => match m.kind with
    | .wdset v => if sameTile m c side tile then wdWritten v else w
    | _ => w) wd

def mxQueue (s : State) (core : Nat) : List MxCmd := ((core? s core).map (fun x => x.mxQ)).getD []

/-- The widths that will stand for a command accepted now. -/
def widthNext (s : State) (core c side tile : Nat) : W32 :=
  match crew? s c with
  | some cr => widthAfter (widthOf cr (tileKey side tile)) c side tile (mxQueue s core)
  | none => 0x808#32

/-- Contribution mode of a command: none for one that contributes nothing. -/
def mxMode : MxKind → Option Bool
  | .mma _ _ _ _ fw | .mmaSp _ _ _ _ _ fw | .mmaP _ _ _ _ fw => some (mmaFloat fw.toNat)
  | _ => none

/-- The recorded mode of a tile once a command is accepted (R87). -/
def modeAfter (k : MxKind) (m : Option Bool) : Option Bool :=
  match k with
  | .accz => none
  | k => match mxMode k with | some x => some x | none => m

/-! ### Backlog (R266) -/

/-- Costs of a queue's commands in order, each with the widths that stand when it runs; a running command counts by the costed cycles
it has left. -/
def mxCosts (s : State) (done : List MxCmd) : List MxCmd → List Nat
  | [] => []
  | m :: q =>
    let wd := match crew? s m.crew with
      | some cr => widthAfter (widthOf cr (tileKey m.side m.tile)) m.crew m.side m.tile done
      | none => 0x808#32
    (if m.running then m.left else mxCost m.kind wd) :: mxCosts s (done ++ [m]) q

/-- A core's matrix backlog (R266). -/
def matrixBacklog (s : State) (core : Nat) : Nat := (mxCosts s [] (mxQueue s core)).sum

/-- Is the backlog above 1,024 cycles (R41)? -/
def backlogged (s : State) (core : Nat) : Bool := decide (matrixBacklog s core > 1024)

/-! ### Acceptance and removal -/

/-- Accept a command: into its queue, its tile's mode recorded (R87, R267). -/
def acceptMx (s : State) (core : Nat) (m : MxCmd) : State :=
  let s := modCore s core (fun x => { x with mxQ := x.mxQ ++ [m] })
  match m.kind with
  | .accz | .mma .. | .mmaSp .. | .mmaP .. =>
    modTile s m.crew (tileKey m.side m.tile) (fun t => { t with mode := modeAfter m.kind t.mode })
  | _ => s

/-- A tile made invalid; the commands accepted after the removed one and still queued set its mode again (R64, R87). -/
def invalidate (s : State) (m : MxCmd) (later : List MxCmd) : State :=
  let mode := later.foldl (fun md x => if sameTile x m.crew m.side m.tile then modeAfter x.kind md else md) none
  modTile s m.crew (tileKey m.side m.tile) (fun _ => { Tile.invalid with mode := mode })

/-! ### Running a command -/

/-- The bytes of an operand range as the step reads them: those read ahead, else those at the banks (R230). -/
def readOperand (cr : Crew) (m : MxCmd) (o n : Nat) : Array Byte :=
  m.pre.foldl (fun r p => if o ≤ p.1 ∧ p.1 < o + n then r.setIfInBounds (p.1 - o) p.2 else r) (cr.scr.slice o n)

/-- The lines a range of the scratchpad meets. -/
def scrLines (o n : Nat) : List Nat := (List.range ((o + n - 1) / 128 - o / 128 + 1)).map (fun i => 128 * (o / 128 + i))

/-- What a step reads, by Table 14-3. -/
def stepIn (cr : Crew) (m : MxCmd) (wd : W32) : Option StepIn :=
  let rd := readOperand cr m
  let sc := fun (on : Bool) (o n : Nat) => if on then rd o n else #[]
  match m.kind with
  | .mma a b sa sb fw | .mmaP a b sa sb fw =>
    let f := fw.toNat
    some ⟨f, wd, rd a (2048 * (aFmt f).bits), rd b (2048 * (bFmt f).bits), sc (aFmt f).scale sa 512, sc (bFmt f).scale sb 512, none⟩
  | .mmaSp a b sa sb sm fw =>
    let f := fw.toNat
    some ⟨f, wd, rd a (2048 * (aFmt f).bits), rd b (4096 * (bFmt f).bits), sc (aFmt f).scale sa 1024, sc (bFmt f).scale sb 1024,
      some (rd sm 4096)⟩
  | _ => none

/-- The fault a step meets when it reads: a bank out of scratchpad mode (R409), a lost line (R199). -/
def stepFault (s : State) (cr : Crew) (m : MxCmd) : Option Nat :=
  let lines := (mxReads m.kind).flatMap (fun r => scrLines r.1 r.2)
  if !lines.all (scrMode s cr) then some 0x8007
  else if lines.any (isLost cr.lostScr) then some 0x800B else none

/-- Resolve with a code: OK without one, FAULTED with one. -/
def resolveMx (s : State) (m : MxCmd) (code : Option Nat) (flags : Nat) : State :=
  match code with
  | none => resolveOp s m.crew m.op .ok flags
  | some c => resolveOp s m.crew m.op .faulted (flags + c * 2 ^ 16)

/-- The fault of an MMA form, or its tile after the step. Where FCANCEL has removed a WDSET on which the check at issue had counted (R76), the
step runs with the widths that stand, whatever they are: DESIGN CHOICE, notes/assumptions/72. Of a step with several faults the code is
0x8007, then 0x800B, and 0x800A last, for an operand that cannot be read is not examined for special values: DESIGN CHOICE,
notes/assumptions/82. -/
def stepResult (s : State) (cr : Crew) (m : MxCmd) : Except Nat (Tab Acc) :=
  match stepFault s cr m with
  | some c => .error c
  | none =>
    let k := tileKey m.side m.tile
    match stepIn cr m (widthOf cr k) with
    | none => .ok (tileOfCrew cr k).el
    | some x =>
      match stepTile x m.trapspec (tileOfCrew cr k).el with
      | some el => .ok el
      | none => .error 0x800A

/-- Put a step's tile in place. -/
def applyStep (s : State) (m : MxCmd) (el : Tab Acc) : State :=
  modTile s m.crew (tileKey m.side m.tile) (fun t => { t with el := el })

/-- Before a drain writes, the later steps of the crew that no MFENCE parts from it may have read bytes of its range already:
which ones is free (R230). -/
def readAhead (s : State) (core : Nat) (m : MxCmd) (o : Nat) (bs : List Byte) : State :=
  match crew? s m.crew with
  | none => s
  | some cr =>
    let q := mxQueue s core
    let open_ := q.takeWhile (fun x => match x.kind with | .mfence => false | _ => true)
    let changed := (bs.zipIdx.map (fun p => (o + p.2, p.1))).filter (fun p => cr.scr.read p.1 != p.2)
    let early := fun (i : Nat) (x : MxCmd) =>
      if x.crew ≠ m.crew then x
      else
        let ks := changed.filter (fun p => (mxReads x.kind).any (fun r => decide (r.1 ≤ p.1) && decide (p.1 < r.1 + r.2)))
        { x with pre := ks.foldl (fun t p =>
                   if (Tab.find? t p.1).isNone && (Config.freeValue (s.fresh + 65536 * i + (p.1 - o))).getLsbD 0
                   then Tab.put t p.1 (cr.scr.read p.1) else t) x.pre }
    if (open_.drop 1).any (fun x => x.crew == m.crew && (mxReads x.kind).any (fun r =>
        changed.any (fun p => decide (r.1 ≤ p.1) && decide (p.1 < r.1 + r.2)))) then
      let s := modCore s core (fun x => { x with mxQ := x.mxQ.zipIdx.map (fun p =>
        if 0 < p.2 ∧ p.2 < open_.length then early p.2 p.1 else p.1) })
      { s with fresh := s.fresh + 65536 * 8 }
    else s

/-- Does a byte of the scratchpad lie in a range that a command reads or writes? -/
def mxTouches (k : MxKind) (a : Nat) : Bool :=
  match k with
  | .accdr o tgt => decide (o ≤ a) && decide (a < o + 4096 * (tgt.width / 8))
  | k => (mxReads k).any (fun r => decide (r.1 ≤ a) && decide (a < r.1 + r.2))

/-- Write some bytes of a queued ACCDR ahead of the command at the front: those of its bytes that the front command touches; which is
free (R230). -/
def drainAhead (core : Nat) (front : MxCmd) (s : State) (p : MxCmd × Nat) : State :=
  match p.1.kind, crew? s p.1.crew with
  | .accdr o tgt, some cr =>
    let bs := (drainTile tgt (tileOfCrew cr (tileKey p.1.side p.1.tile)).el).1
    let early := (bs.zipIdx).filter (fun b => mxTouches front.kind (o + b.2) && (Tab.find? p.1.pre (o + b.2)).isNone
      && (Config.freeValue (s.fresh + b.2)).getLsbD 0 && scrMode s cr (o + b.2))
    let s := early.foldl (fun s b => scrWrite s p.1.crew (o + b.2) [b.1]) { s with fresh := s.fresh + bs.length }
    modCore s core (fun x => { x with mxQ := x.mxQ.modify p.2 (fun m =>
      { m with pre := early.foldl (fun t b => Tab.put t (o + b.2) b.1) m.pre }) })
  | _, _ => s

/-- The reads and writes of different commands that no MFENCE parts are unordered: before the front command has its effect, later
ACCDRs of its crew whose tiles no earlier command names may have written already (R230). -/
def drainsAhead (s : State) (core : Nat) (front : MxCmd) : State :=
  let open_ := (mxQueue s core).takeWhile (fun x => match x.kind with | .mfence => false | _ => true)
  ((open_.zipIdx).filter (fun p => decide (0 < p.2) && p.1.crew == front.crew
    && !(open_.take p.2).any (fun x => sameTile x p.1.crew p.1.side p.1.tile)
    && (match p.1.kind with
      | .accdr o tgt => (List.range (4096 * (tgt.width / 8))).any (fun i => mxTouches front.kind (o + i))
      | _ => false))).foldl (drainAhead core front) s

/-- ACCDR: the tile drained into the banks in scratchpad mode (R293, R409), but for the bytes written ahead. -/
def runDrain (s : State) (core : Nat) (m : MxCmd) (o : Nat) (tgt : Fmt) : State :=
  match crew? s m.crew with
  | none => s
  | some cr =>
    let d := drainTile tgt (tileOfCrew cr (tileKey m.side m.tile)).el
    let s := readAhead s core m o d.1
    let lines := scrLines o d.1.length
    let arr := d.1.toArray
    let s := lines.foldl (fun s l =>
      if !scrMode s cr l then s
      else if m.pre.isEmpty then scrWrite s m.crew l ((arr.extract (l - o) (l - o + 128)).toList)
      else (List.range 128).foldl (fun s i => match arr[l - o + i]? with
        | some b => if (Tab.find? m.pre (l + i)).isSome then s else scrWrite s m.crew (l + i) [b]
        | none => s) s) s
    resolveMx s m (if lines.all (scrMode s cr) then none else some 0x8007) d.2

/-- A drain stopped in the middle: each byte of its destination holds its old or its new value (Table 3-3). -/
def partialDrain (s : State) (m : MxCmd) (o : Nat) (tgt : Fmt) : State :=
  match crew? s m.crew with
  | none => s
  | some cr =>
    let bs := (drainTile tgt (tileOfCrew cr (tileKey m.side m.tile)).el).1
    let k := s.fresh
    (bs.zipIdx).foldl (fun s p =>
      if (Config.freeValue (k + p.2)).getLsbD 0 && scrMode s cr (o + p.2) then scrWrite s m.crew (o + p.2) [p.1] else s)
      { s with fresh := k + bs.length }

/-- Remove the command at a place of a core's queue, CANCELLED (R296, Table 3-3). With an MMA.P half that has no partner yet its place in the
count of R290 goes too, so that the other side's next MMA.P pairs with the next one issued: DESIGN CHOICE, notes/assumptions/83. -/
def removeMx (s : State) (core idx : Nat) : State :=
  let q := mxQueue s core
  match q[idx]? with
  | none => s
  | some m =>
    let s := modCore s core (fun x =>
      { x with mxQ := x.mxQ.eraseIdx idx, mxGap := x.mxGap || (m.running && (mxMode m.kind).isSome) })
    let s := match m.kind with
      | .accz | .mma .. | .mmaSp .. | .mmaP .. => invalidate s m (q.drop (idx + 1))
      | .accdr o tgt => if m.running then partialDrain s m o tgt else s
      | _ => s
    let s := modCrew s m.crew (fun cr => { cr with half := cr.half.filter (fun h => !(h.op == m.op && h.gang == m.gang)) })
    resolveOp s m.crew m.op .cancelled 0

/-- Is the command an MMA.P of a crew? -/
def isMmaP (c : Nat) (m : MxCmd) : Bool := m.crew == c && (match m.kind with | .mmaP .. => true | _ => false)

/-- The partner of the MMA.P at a place: the command of the same rank on the other core, once that has issued (R290). -/
def partnerOf (s : State) (core idx : Nat) : Option (Nat × Nat) :=
  let q := mxQueue s core
  match q[idx]? with
  | none => none
  | some m =>
    if !m.paired then none
    else
      let other := if m.side = 0 then core + 1 else core - 1
      let rank := ((q.take idx).filter (isMmaP m.crew)).length
      let ps := ((mxQueue s other).zipIdx.filter (fun p => isMmaP m.crew p.1)).map (fun p => p.2)
      (ps[rank]?).map (fun i => (other, i))

/-- Cancel the queued command at a place; both sides of an MMA.P go (R296). -/
def cancelMx (s : State) (core idx : Nat) : State :=
  match (mxQueue s core)[idx]? with
  | none => s
  | some m =>
    match (if isMmaP m.crew m then partnerOf s core idx else none) with
    | some (o, i) => removeMx (removeMx s core idx) o i
    | none => removeMx s core idx

/-- Cancel every command of a core's queue that a test picks. -/
def cancelMxAll (s : State) (core : Nat) (p : MxCmd → Bool) : Nat → State
  | 0 => s
  | n + 1 =>
    match (mxQueue s core).findIdx? p with
    | none => s
    | some i => cancelMxAll (cancelMx s core i) core p n

/-- What the command at the front of a core's queue does as it finishes (R289, R292, R293); an MMA.P is ended with its
partner. -/
def runMx (s : State) (core : Nat) (m : MxCmd) : State :=
  match crew? s m.crew with
  | none => s
  | some cr =>
    match m.kind with
    | .mma .. | .mmaSp .. | .mmaP .. =>
      match stepResult s cr m with
      | .ok el => resolveMx (applyStep s m el) m none 0
      | .error c => resolveMx s m (some c) 0
    | .accz => resolveMx (modTile s m.crew (tileKey m.side m.tile) (fun t => { t with el := [] })) m none 0
    | .accdr o tgt => runDrain s core m o tgt
    | .wdset v => resolveMx (modCrew s m.crew (fun cr => { cr with wds := Tab.set 0x808#32 cr.wds (tileKey m.side m.tile) (wdWritten v) })) m none 0
    | .mfence => resolveMx s m none 0

/-- Both sides of an MMA.P: both fault where either must (R409), else each adds its own product (R290). -/
def runPair (s : State) (m p : MxCmd) : State :=
  match crew? s m.crew with
  | none => s
  | some cr =>
    match stepResult s cr m, stepResult s cr p with
    | .ok a, .ok b => resolveMx (resolveMx (applyStep (applyStep s m a) p b) m none 0) p none 0
    | .error c, .error d => resolveMx (resolveMx s m (some c) 0) p (some d) 0
    | .error c, .ok b =>
      if c = 0x800A then resolveMx (resolveMx (applyStep s p b) m (some c) 0) p none 0
      else resolveMx (resolveMx s m (some c) 0) p (some c) 0
    | .ok a, .error d =>
      if d = 0x800A then resolveMx (resolveMx (applyStep s m a) m none 0) p (some d) 0
      else resolveMx (resolveMx s m (some d) 0) p (some d) 0

/-- The front command of a core's queue runs from now on, with its costed cycles before it (R266, R267). A step ends the time between
steps (R19). -/
def beginFront (s : State) (core : Nat) : State :=
  match mxQueue s core with
  | [] => s
  | m :: q =>
    let wd := ((crew? s m.crew).map (fun cr => widthOf cr (tileKey m.side m.tile))).getD 0x808#32
    modCore s core (fun x =>
      { x with mxQ := { m with running := true, left := mxCost m.kind wd } :: q, mxGap := x.mxGap && (mxMode m.kind).isNone })

/-- A WDSET runs in the engine cycle that takes it and is never found running (R296). -/
def runSet (s : State) (core : Nat) (m : MxCmd) : State :=
  modCore (runMx s core m) core (fun x => { x with mxQ := x.mxQ.drop 1, mxUsed := true })

/-- Can the command at the front of a core's queue begin: an MMA.P only with its partner at the front of the other core (R290)? -/
def frontReady (s : State) (core : Nat) (m : MxCmd) : Bool :=
  !isMmaP m.crew m || (match partnerOf s core 0 with | some (_, 0) => true | _ => false)

/-- Has a WDSET taken this engine cycle of a core (R296)? -/
def engineUsed (s : State) (core : Nat) : Bool := ((core? s core).map (fun x => x.mxUsed)).getD false

/-- Does the power limit keep a core's engine from its next step: an idle cycle is to come first (R19)? -/
def engineIdles (s : State) (core : Nat) : Bool := s.powerEngaged && ((core? s core).map (fun x => x.mxGap)).getD false

/-- Is the engine of a core free in this cycle for a command, and for a step if it is one (R19, R296)? -/
def engineFree (s : State) (m : MxCmd) (core : Nat) : Bool :=
  !engineUsed s core && !((mxMode m.kind).isSome && engineIdles s core)

/-- The engines that a front command runs on: for an MMA.P the partner's too (R290). -/
def frontCores (s : State) (core : Nat) (m : MxCmd) : List Nat :=
  match m.kind, partnerOf s core 0 with
  | .mmaP .., some (o, _) => [core, o]
  | _, _ => [core]

/-- The engine begins its front command (R267, R290), in a cycle that nothing takes from it or from the partner's engine (R19, R296). -/
def startMx (s : State) (core : Nat) : State :=
  match mxQueue s core with
  | [] => s
  | m :: _ =>
    if m.running || !frontReady s core m || !(frontCores s core m).all (engineFree s m) then s
    else
      match m.kind, partnerOf s core 0 with
      | .wdset _, _ => runSet s core m
      | .mmaP .., some (o, _) => beginFront (beginFront s core) o
      | _, _ => beginFront s core

/-- A command leaves its queue. Behind a matrix step the power limit may insert idle cycles before the next one (R19). -/
def leaveMx (s : State) (core : Nat) (m : MxCmd) : State :=
  modCore s core (fun x => { x with mxQ := x.mxQ.drop 1, mxGap := x.mxGap || (mxMode m.kind).isSome })

/-- The running command ends and leaves its queue, once its costed cycles are over. -/
def endMx (s : State) (core : Nat) : State :=
  match mxQueue s core with
  | [] => s
  | m :: _ =>
    if !m.running || decide (0 < m.left) then s
    else if isMmaP m.crew m then
      match partnerOf s core 0 with
      | some (o, 0) =>
        match mxQueue s o with
        | p :: _ =>
          if 0 < p.left then s
          else leaveMx (leaveMx (runPair (drainsAhead (drainsAhead s core m) o p) m p) core m) o p
        | [] => s
      | _ => s
    else leaveMx (runMx (drainsAhead s core m) core m) core m

/-- What a cycle does for a core's engine: a running command has one costed cycle less, and counts as busy if it is a matrix step; before a
step that follows another the power limit inserts idle cycles, one at least and how many more is free, and each is counted (R19, 0x809, 0x80A
of Table 17-7). -/
def mxTick (s : State) (core : Nat) : State :=
  let rest := fun (x : Core) => { x with mxUsed := false }
  match mxQueue s core with
  | [] => modCore s core rest
  | m :: q =>
    if m.running then
      let s := modCore s core (fun x => { rest x with mxQ := { m with left := m.left - 1 } :: q })
      if m.left ≠ 0 ∧ (mxMode m.kind).isSome then countCore s core 0x809 1 else s
    else if (mxMode m.kind).isSome && frontReady s core m && engineIdles s core && !engineUsed s core then
      let more := (Config.freeValue s.fresh).getLsbD 0
      modCore (countCore (freshen s) core 0x80A 1) core (fun x => { x with mxGap := more })
    else modCore s core rest

end Sys2Proof.Machine
end

