-- ==== Sys2Proof/Machine/MemOps.lean ====
section
/-!
DEFINITION. The memory instructions (spec/12_memory_ops.md R235 to R254), majors 0x70 to 0x80, and APPEND (spec/08_integer.md
R173, R174).
-/

namespace Sys2Proof.Machine

/-! ### Shared shapes -/

/-- A failed check: the throws are added; an undeclared access inside a body ends the transaction first (R308). -/
def memThrow (s : State) (is : Iss) (ts : List (Nat × Nat)) : Res :=
  .throw (if is.gang.body.isSome && ts.any (fun t => t.2 == 0x8003) then breakBody s is.ref else s) ts

/-- A uniform form fails a check: every active lane throws (R238). -/
def uniThrow (s : State) (is : Iss) (code : Nat) : Res :=
  memThrow s is ((activeLanes is.gang is.q).map (fun l => (l, code)))

/-- The issuer as the instructions see it that the body of a transaction does not check (Table 15-4). -/
def outOfBody (is : Iss) : Iss := { is with gang := { is.gang with body := none } }

/-- Element index of lane `l` in a global form (R237). -/
def gIndex (s : State) (is : Iss) (m : GMem) (l : Nat) : Int := recIndex (rdSrc s is ⟨m.idx, .u32, []⟩ l) m.disp

def recOf (is : Iss) (n : Nat) : BRec := cutRec (rdB is.gang n)

/-- Byte offset of lane `l` in a scratchpad form (R241). -/
def sOffset (s : State) (is : Iss) (m : SMem) (l : Nat) : Int :=
  sext (rdU s is m.base) 64 + (rdSrc s is ⟨m.off, .u32, []⟩ l : Int) + (match m.disp with | some w => sext w.toNat 32 | none => 0)

/-- The checks of a global form in its selected lanes. -/
def gChecks (s : State) (is : Iss) (m : GMem) (k : AKind) : State × List (Nat × Chk) :=
  chkLanes s (fun r l => chkRec r is (recOf is m.rc) (gIndex s is m l) m.size.bytes k) (selOf is m.g)

/-- The checks of a scratchpad form in its selected lanes. -/
def sChecks (s : State) (is : Iss) (m : SMem) : State × List (Nat × Chk) :=
  chkLanes s (fun r l => (r, chkScr s is.ref (sOffset s is m l) m.size.bytes)) (selOf is m.g)

def anyHold (cs : List (Nat × Chk)) : Bool := cs.any (fun p => match p.2 with | .hold => true | _ => false)

/-- The places of elements that passed their checks. -/
def placesOf (cs : List (Nat × Chk)) : List Place := cs.filterMap (fun p => match p.2 with | .ok pl _ => some pl | _ => none)

/-- The type data of a size is read by (R101). -/
def sizeTy (z : Size) : Ety := match z with | .b64 => .u64 | _ => .u32

/-- A load or atomic whose checks have passed is in flight; elements on pages that stage two lacks ask for them, and only they wait (R239,
R273, R368). -/
def launched (r : State × List (Nat × Chk)) (is : Iss) (rp : Option Nat) (kind path : Nat) (fk : FlightKind) (sc : Scope)
    (sz : Size) (d : Opd) (data cmp : Nat → Nat) : State :=
  let es := elemsOf r.2 data cmp
  let s := launchFlight r.1 is (fun id =>
    { flightFor is fk id with scope := sc, size := sz, dst := d, rp := rp, elems := es, ctr := clauseCounter is.q
                              path := if es.isEmpty then none else some path })
  askPages s (ctxOf s is.ref) kind (fun _ => .flight is.ref is.gang.seq) (es.map (fun e => e.place))

/-- After the checks of a load or atomic: throw, wait, or enter flight. -/
def launch (r : State × List (Nat × Chk)) (is : Iss) (rp : Option Nat) (kind path : Nat) (fk : FlightKind) (sc : Scope)
    (sz : Size) (d : Opd) (data cmp : Nat → Nat) : Res :=
  match chkCodes rp.isSome r.2 with
  | t :: ts => memThrow r.1 is (t :: ts)
  | [] => if anyHold r.2 then .wait r.1 .sync else .done (launched r is rp kind path fk sc sz d data cmp)

/-- A load whose destination is a queue register needs a usable mapping at issue; room is found when it returns (R122, R242). -/
def queueDst (s : State) (is : Iss) (d : Opd) (r : Res) : Res :=
  if d.qreg.all (fun n => qcfgUsable s is.ref (qCfg s is.ref n)) then r else throwAllOrNop s is 0x8007

/-- A store issues: into Buf(G), or to wait there for the pages of some elements (R212, R273, R368). -/
def stored (s : State) (is : Iss) (cs : List (Nat × Chk)) (sc : Scope) (sz : Size) (data : Nat → Nat) (path : Nat) : State :=
  if anyPage cs then
    askPages (awaitStore s is cs sc sz data path) (ctxOf s is.ref) 1 (fun _ => .flight is.ref is.gang.seq) (placesOf cs)
  else enterStores s is cs sc sz.bytes data path

/-- After the checks of a store: throw, wait, or pop the data and issue (R239, R244). -/
def store (s : State) (is : Iss) (sz : Size) (sc : Scope) (data : Opd) (path : Nat)
    (chk : State → Iss → State × List (Nat × Chk)) : Res :=
  let ty := sizeTy sz
  withQueues s is [(data, ty)] .exm (fun _ is _ =>
    let r := chk s is
    match chkCodes false r.2 with
    | t :: ts => memThrow r.1 is (t :: ts)
    | [] =>
      if anyHold r.2 then .wait r.1 .sync
      else
        match popAll r.1 is.ref [(data, ty)] with
        | some (s', [x], _) => .done (stored s' is r.2 sc sz (fun l => rdSrc s' is x l) path)
        | _ => .wait r.1 .sync)

/-! ### Loads, stores, atomics (R242 to R245) -/

def execLd (m : GMem) (sx : Bool) (d : Opd) (s : State) : Out :=
  issue (.ld m sx d) s (fun s is =>
    queueDst s is d (launch (gChecks s is m .read) is none 0 0 (.load sx) m.scope m.size d (fun _ => 0) (fun _ => 0)))

def execLdRp (m : GMem) (sx : Bool) (d : Opd) (p : Nat) (s : State) : Out :=
  issue (.ldRp m sx d p) s (fun s is =>
    queueDst s is d (launch (gChecks s is m .read) is (some p) 0 0 (.load sx) m.scope m.size d (fun _ => 0) (fun _ => 0)))

def execSt (m : GMem) (data : Opd) (s : State) : Out :=
  issue (.st m data) s (fun s is => store s is m.size m.scope data 1 (fun s is => gChecks s is m .write))

def execLds (m : SMem) (sx : Bool) (d : Opd) (s : State) : Out :=
  issue (.lds m sx d) s (fun s is =>
    queueDst s is d (launch (sChecks s is m) is none 0 2 (.load sx) m.scope m.size d (fun _ => 0) (fun _ => 0)))

def execSts (m : SMem) (data : Opd) (s : State) : Out :=
  issue (.sts m data) s (fun s is => store s is m.size m.scope data 2 (fun s is => sChecks s is m))

/-- The type an atomic's data is read by: FP32 for .FADD. -/
def atomTy (op : AtomOp) (z : Size) : Ety := match op with | .fadd => .f32 | _ => sizeTy z

/-- The value of D in a lane before the atomic (.CAS). -/
def priorD (is : Iss) (d : Opd) (z : Size) (l : Nat) : Nat := match d with | .v n => rdVw is.gang n l z.is64 | _ => 0

def execAtom (op : AtomOp) (m : GMem) (d data : Opd) (s : State) : Out :=
  issue (.atom op m d data) s (fun s is =>
    launch (gChecks s is m .atomic) is none 1 0 (.atomic op) m.scope m.size d
      (fun l => rdSrc s is ⟨data, atomTy op m.size, []⟩ l) (priorD is d m.size))

def execAtoms (op : AtomOp) (m : SMem) (d data : Opd) (s : State) : Out :=
  issue (.atoms op m d data) s (fun s is =>
    launch (sChecks s is m) is none 1 2 (.atomic op) m.scope m.size d
      (fun l => rdSrc s is ⟨data, atomTy op m.size, []⟩ l) (priorD is d m.size))

/-! ### FENCE and PERSIST (R246, R247) -/

/-- A FENCE in flight. -/
def fenceFlight (is : Iss) (sc : Scope) (d : Opd) (id : Nat) : Flight :=
  { flightFor is .fence id with scope := sc, dst := d, ctr := clauseCounter is.q }

/-- FENCE enters flight; from here on every later access waits for it (R218). Its end is FENCE_COMPLETE. -/
def execFence (sc : Scope) (d : Opd) (s : State) : Out :=
  issue (.fence sc d) s (fun s is => .done (launchFlight (modGang s is.ref mark) is (fenceFlight is sc d)))

/-- PERSIST is begun; the group issues no further memory instruction until PERSIST_COMPLETE. -/
def execPersist (s : State) : Out :=
  issue .persist s (fun s is =>
    let s := modGroup s is.ref is.grp (fun q => { q with persists := q.persists ++ [is.gang.seq] })
    .done (modGang s is.ref nextSeq))

/-! ### Waiting on a word (R248, R249) -/

/-- The conditions of Table 12-6. -/
def wCond (c : WCond) (w b : Nat) : Bool :=
  match c with
  | .ne => w != b
  | .eq => w == b
  | .geu => decide (b ≤ w)
  | .ltu => decide (w < b)

/-- May the gang's next access of a place be performed: no fence, join or older access of those bytes before it, and a register not
before the gang's own stores to it (R5)? -/
def placeFree (x : Gang) (p : Place) (n : Nat) : Bool :=
  marksAllow x x.seq && (olderElems x x.seq).all (fun e => !overlaps e.2.place (elemLen e.1 e.2) p n)
    && (!inRegs p || bufFree x x.seq p n)

/-- The line a place lies in, and whether it is a scratchpad line. -/
def lineOf (p : Place) : Nat × Bool :=
  match p with
  | .phys pa => (pa / 128, false)
  | .scr o => (o / 128, true)
  | .page _ _ va _ | .held va => (va / 128, false)

def setWatch (s : State) (is : Iss) (w : Option Watch) : State := modGroup s is.ref is.grp (fun q => { q with watch := w })

/-- The load of a WAITA: the state behind it, the word, and whether it is lost. -/
def waitLoad (s : State) (is : Iss) (z : Size) (sc : Scope) (p : Place) : State × Nat × Bool :=
  let s := match p with
    | .phys pa => if regionOf pa = .regs then s else countAccess s (coreOf s is.ref) (pointOf (gangPair s is.ref) sc) pa
    | _ => s
  let r := loadBytes s is.ref is.gang.seq sc p z.bytes
  (match p with
    | .phys pa => raceGang r.1 is.ref is.q.pc pa sc false true
    | _ => r.1, leNat r.2.1, r.2.2)

/-- Has a WAKE of the line of a place reached the group's WAITA? -/
def wokenAt (is : Iss) (p : Place) : Bool := (is.q.watch.map (fun x => x.woken && decide ((x.line, x.scr) = lineOf p))).getD false

/-- The state behind a WAITA that returns: no watch, the acquire at its scope, its issue number. -/
def waitedAt (s : State) (is : Iss) (sc : Scope) (p : Place) : State :=
  let s := setWatch s is none
  modGang (if (lineOf p).2 then s else acquire s is.ref sc) is.ref nextSeq

/-- The watch a WAITA keeps at a place, for an address and a value to compare with; a peer word is polled. -/
def watchOf (a b : Nat) (p : Place) : Watch :=
  ⟨a, b, (lineOf p).1, (lineOf p).2, (match p with | .phys pa => regionOf pa != .peer | _ => true), false, false⟩

/-- The loop of R248, one load at a place: it returns, or keeps its watch and waits. Where the load cannot be made yet the watch stays as
it is, so that a WAKE that has come counts for it; a load with no way to its word is refused (R356, R369). -/
def waitOn (s : State) (is : Iss) (c : WCond) (z : Size) (sc : Scope) (d : Opd) (p : Place) (a b : Nat) : Res :=
  if !placeFree is.gang p z.bytes then .wait (setWatch s is (some { watchOf a b p with due := true, woken := wokenAt is p })) .sync
  else
    let r := waitLoad s is z sc p
    if cutOffAt s is.ref is.gang is.gang.seq sc p z.bytes then uniThrow (setWatch s is none) is 0x8007
    else if r.2.2 then uniThrow (setWatch r.1 is none) is 0x800B
    else if wCond c r.2.1 b || wokenAt is p then writeScalar (waitedAt r.1 is sc p) is d r.2.1
    else .wait (setWatch r.1 is (some (watchOf a b p))) .sync

/-- A WAITA at the address it has read: its checks, then its loop. Each later load of a WAITA that waits is translated and checked anew, as a
load is, and throws for a page that is absent or refused by then: DESIGN CHOICE, notes/assumptions/85. -/
def waitAt (s : State) (is : Iss) (c : WCond) (size : Size) (sc : Scope) (d : Opd) (spad : Bool) (a b : Nat) : Res :=
  match alone (chkAt (s, []) is spad a size.bytes .read) with
  | (s, .code k) => uniThrow (setWatch s is none) is k
  | (s, .absent) => uniThrow (setWatch s is none) is 0x8002
  | (s, .hold) => .wait s .sync
  | (s, .ok (.page fn g va tb) _) =>
    .wait (askPages s (ctxOf s is.ref) 0 (groupWaits is) [.page fn g va tb]) .sync
  | (s, .ok p _) => waitOn s is c size sc d p a b

/-- WAITA: its record and operands are read once, as it issues (R121); later attempts load the word at the same address. -/
def execWaita (c : WCond) (size : Size) (sc : Scope) (d idx : Opd) (rc : Nat) (cmp : Opd) (disp : Option W32) (s : State) : Out :=
  issue (.waita c size sc d idx rc cmp disp) s (fun s is =>
    if (activeLanes is.gang is.q).isEmpty then .done s
    else
      match is.q.watch with
      | some w => if w.due then waitAt s is c size sc d w.scr w.addr w.cmp else .wait s .sync
      | none =>
        let r := recOf is rc
        let i := recIndex (rdSrc s is ⟨idx, .u32, []⟩ 0) disp
        if i < 0 ∨ i ≥ (recExtent r : Int) then uniThrow s is 0x8001
        else waitAt s is c size sc d r.spad (recAddr r i.toNat) (rdSrc s is ⟨cmp, sizeTy size, []⟩ 0))

/-- Does a store of the gang, or an older fence, hold a WAKE of the line of a place? -/
def wakeHeld (is : Iss) (p : Place) : Bool :=
  let ln := lineOf p
  let line := match p with | .phys _ => Place.phys (128 * ln.1) | _ => Place.scr (128 * ln.1)
  !marksAllow is.gang is.gang.seq || is.gang.buf.any (fun e => overlaps e.place e.bytes.length line 128)
    || is.gang.sysq.any (fun e => overlaps (.phys e.pa) e.bytes.length line 128)

/-- The state behind a WAKE of the line of a place. -/
def wokenState (s : State) (is : Iss) (p : Place) : State :=
  match (lineOf p).2, crewIdOf is.ref with
  | true, some c => fireScr s c (lineOf p).1 true
  | true, none => s
  | false, _ => fireWatch s (lineOf p).1 true

/-- WAKE waits for the gang's earlier stores to the line, then reaches every WAITA on it. -/
def execWake (sc : Scope) (idx : Opd) (rc : Nat) (disp : Option W32) (s : State) : Out :=
  issue (.wake sc idx rc disp) s (fun s is =>
    if (activeLanes is.gang is.q).isEmpty then .done s
    else
      let i := recIndex (rdSrc s is ⟨idx, .u32, []⟩ 0) disp
      match alone (chkRec (s, []) (outOfBody is) (recOf is rc) i 1 .read) with
      | (s, .code k) => uniThrow s is k
      | (s, .absent) => uniThrow s is 0x8002
      | (s, .hold) => .wait s .sync
      | (s, .ok (.page fn g va tb) _) =>
        .wait (askPages s (ctxOf s is.ref) 0 (groupWaits is) [.page fn g va tb]) .sync
      | (s, .ok p _) => if wakeHeld is p then .wait s .sync else .done (wokenState s is p))

/-! ### Ranges (R250) -/

/-- The range of a uniform form: its first address and its length. -/
structure RangeAt where
  rc : BRec
  a : Nat
  len : Nat

/-- The range [a, a + len), where the limits of R250 hold (check 1). -/
def rangeOf (s : State) (is : Iss) (r : Range) : Option RangeAt :=
  let rc := recOf is r.rc
  let i := recIndex (rdSrc s is ⟨r.idx, .u32, []⟩ 0) r.disp
  let len := rdSrc s is ⟨r.len, .u32, []⟩ 0
  let a := recAddr rc i.toNat
  if 0 ≤ i ∧ i < (recExtent rc : Int) ∧ rc.swz = 0 ∧ len ≤ 2 ^ 24 ∧ rc.base ≤ a ∧ a + len ≤ rc.base + rc.extent * rc.stride
  then some ⟨rc, a, len⟩ else none

/-- Does the range of a form have any byte? -/
def rangeEmpty (s : State) (is : Iss) (r : Range) : Bool := rdSrc s is ⟨r.len, .u32, []⟩ 0 == 0

/-- What a range comes to: its physical ranges, or nothing while a page is awaited or a block is closing. -/
abbrev Covered := State × Option (List (Nat × Nat))

/-- One page's piece of a range, its translation kept from an earlier attempt or made now: it adds its physical range, adds nothing, or has
the whole instruction wait. -/
def coverPiece (is : Iss) (ctx : Nat) (cls : AClass) (k : AKind) (acc : State × Option (List (Nat × Nat)) × Tab (Xlat × Bool))
    (p : Nat × Nat) : State × Option (List (Nat × Nat)) × Tab (Xlat × Bool) :=
  let (s, rs, kept) := acc
  let v := p.1 / 65536
  let take := fun (s : State) (kept : Tab (Xlat × Bool)) (x : Xlat) (may : Bool) =>
    let pa := xlatPa x p.1
    if xlatPresent x && closingBlock s pa then (s, none, kept)
    else (s, (if may then rs.map (fun rs => rs ++ [(pa, p.2)]) else rs), kept)
  if is.q.pageFail.contains v then acc
  else
    match Tab.find? kept v with
    | some (x, may) => take s kept x may
    | none =>
      match translate s ctx p.1 with
      | (s, .miss fn g tb) => (requestPage s fn g ctx (if tb then 3 else kindCode k) 1 (groupWaits is v), none, kept)
      | (s, .ok x) =>
        let pa := xlatPa x p.1
        let may := xlatPresent x && leafPermits x.bits k && (refusalOf s cls ctx pa k).isNone
        take s (if xlatPresent x && closingBlock s pa then kept else Tab.put kept v (x, may)) x may

/-- The physical ranges of a virtual range, but for pages that are absent, or refused to a class and kind of access (R252, R253). A
page that stage two lacks is asked for, and waited for, unless the host has answered that it failed (R333, R367); a page on a
closing block is waited for (R361). The pages that did not have to wait are not translated again (R368). -/
def coveredRanges (s : State) (is : Iss) (cls : AClass) (k : AKind) (a n : Nat) : Covered :=
  let r := (pagePieces a n).foldl (coverPiece is (ctxOf s is.ref) cls k) (s, some [], is.q.pages)
  (if r.2.1.isNone then modGroup r.1 is.ref is.grp (fun q => { q with pages := r.2.2 }) else r.1, r.2.1)

/-- Go on with the ranges, once they are there. -/
def onCovered (c : Covered) (f : State → List (Nat × Nat) → Res) : Res :=
  match c with
  | (s, some rs) => f s rs
  | (s, none) => .wait s .sync

/-- Does the line of a physical address meet one of the ranges? -/
def lineMeets (rs : List (Nat × Nat)) (pa : Nat) : Bool :=
  rs.any (fun r => decide (r.1 / 128 ≤ pa / 128) && decide (pa / 128 ≤ (r.1 + r.2 - 1) / 128))

/-- Numbers of the lines that meet the ranges. -/
def linesOf (rs : List (Nat × Nat)) : List Nat :=
  rs.flatMap (fun r => (List.range ((r.1 + r.2 - 1) / 128 - r.1 / 128 + 1)).map (fun i => r.1 / 128 + i))

/-- The common start of the uniform range forms: no effect without an active lane or a byte, 0x8001 where a limit breaks. -/
def onRange (s : State) (is : Iss) (r : Range) (f : RangeAt → Res) : Res :=
  if (activeLanes is.gang is.q).isEmpty || rangeEmpty s is r then .done s
  else
    match rangeOf s is r with
    | none => uniThrow s is 0x8001
    | some x => f x

/-! ### ZFILL and PAGEREQ (R250, R251) -/

/-- Checks 3 and 4 of a written range, with the body's check between 2 and 3: each page's piece (R250, R308). -/
def zChecks (s : State) (is : Iss) (x : RangeAt) : State × List (Nat × Chk) :=
  let ps := pagePieces x.a x.len
  chkLanes s (fun r k => (ps[k]?).elim (r, .absent) (fun p => chkZero r is p.1 p.2)) (List.range ps.length)

/-- The code a uniform form over a range throws: the body's first, then absence, then refusal. -/
def rangeCode (cs : List (Nat × Chk)) : Option Nat :=
  let codes := (chkCodes false cs).map (fun p => p.2)
  [0x8003, 0x8002, 0x8007].find? (fun c => codes.contains c)

/-- The stores of zero of a ZFILL that issues now: those of its lowest active lane. -/
def zeros (is : Iss) (born : Nat) (mk : Nat → Place) (rs : List (Nat × Nat)) : List StoreEnt :=
  zeroStores is.gang.seq is.q.pc (lowLane (BitVec.ofNat 64 (exmOf is.gang is.q))) born mk rs

/-- ZFILL of a scratchpad range: the checks of R241 on every byte, then zeros at the banks. -/
def zfillScr (s : State) (is : Iss) (x : RangeAt) : Res :=
  if x.a + x.len > scrSize s is.ref then uniThrow s is 0x8001
  else
    match crewOf? s is.ref with
    | none => uniThrow s is 0x8001
    | some cr =>
      if (linePieces x.a x.len).all (fun p => scrMode s cr p.1) then
        .done (bufferStores s is.ref (zeros is s.cycle.toNat .scr [(x.a, x.len)]) 1)
      else uniThrow s is 0x8007

/-- The physical ranges of the pages of a range that have passed their checks. -/
def zRanges (x : RangeAt) (cs : List (Nat × Chk)) : List (Nat × Nat) :=
  let ps := pagePieces x.a x.len
  cs.filterMap (fun p => match p.2 with
    | .ok (.phys pa) _ => (ps[p.1]?).map (fun q => (pa, q.2))
    | _ => none)

/-- A ZFILL with pages that stage two lacks: it has issued, and enters Buf(G) once the last of them is there; its other pages are not
looked at again (R368). -/
def awaitZfill (s : State) (is : Iss) (x : RangeAt) (cs : List (Nat × Chk)) : State :=
  let ps := pagePieces x.a x.len
  let es := cs.filterMap (fun p => match p.2 with
    | .ok pl _ => some (Elem.mk p.1 pl ((ps[p.1]?).elim 0 (fun q => q.2)) 1 none false false 0)
    | _ => none)
  askPages (awaitFlight s is { flightFor is .zfill is.gang.seq with elems := es } 1) (ctxOf s is.ref) 1 (fun _ => .flight is.ref is.gang.seq)
    (placesOf cs)

def execZfill (r : Range) (s : State) : Out :=
  issue (.zfill r) s (fun s is => onRange s is r (fun x =>
    if x.rc.spad then zfillScr s is x
    else
      let c := zChecks s is x
      match rangeCode c.2 with
      | some k => uniThrow c.1 is k
      | none =>
        if anyHold c.2 then .wait c.1 .sync
        else if anyPage c.2 then .done (awaitZfill c.1 is x c.2)
        else .done (bufferStores c.1 is.ref (zeros is c.1.cycle.toNat .phys (zRanges x c.2)) 1)))

/-- What PAGEREQ finds of one page: resident, refused, or to be asked for. -/
inductive PageNeed where
  | resident | refused
  | ask (fn page kind stage : Nat)
  | unbacked

def pageNeed (s : State) (is : Iss) (va : Nat) : State × PageNeed :=
  let ctx := ctxOf s is.ref
  match translate s ctx va with
  | (s, .miss fn g tb) => (s, .ask fn g (if tb then 3 else 4) 1)
  | (s, .ok x) =>
    if xlatPresent x then
      (if leafPermits x.bits .read && (refusalOf s (classOf is.ref) ctx (xlatPa x va) .read).isNone then (s, .resident)
       else (s, .refused))
    else if xlatBacked x then (s, .ask x.fn (va / 65536) 4 0)
    else (s, .unbacked)

/-- The needs of every page of a range. -/
def pageNeeds (s : State) (is : Iss) : List (Nat × Nat) → State × List (Nat × PageNeed)
  | [] => (s, [])
  | p :: ps =>
    let r := pageNeed s is p.1
    let t := pageNeeds r.1 is ps
    (t.1, (p.1 / 65536, r.2) :: t.2)

/-- Is a page refused? -/
def anyRefused (ns : List (Nat × PageNeed)) : Bool := ns.any (fun p => match p.2 with | .refused => true | _ => false)

/-- PAGEREQ's operation: its token in the future, a page request for every page that is not resident, and the pages it waits for. -/
def pagesAsked (s : State) (is : Iss) (f c tok : Nat) (ns : List (Nat × PageNeed)) : State :=
  let s := modGang s is.ref (fun g => wrF g f tok)
  let ctx := ctxOf s is.ref
  let s := ns.foldl (fun s p => match p.2 with
    | .ask fn page kind stage => requestPage s fn page ctx kind stage (.pagereq c tok p.1)
    | _ => s) s
  let need := ns.filterMap (fun p => match p.2 with | .ask _ _ _ _ => some p.1 | _ => none)
  let bad := ns.any (fun p => match p.2 with | .unbacked => true | _ => false)
  { s with pageOps := s.pageOps ++ [⟨c, tok, ctx, need, bad⟩] }

/-- PAGEREQ makes an operation and asks for every page that is not resident; PAGEREQ_RESOLVE ends it. Through a scratchpad record there is
no page to ask for: DEDUCED, notes/assumptions/73. -/
def execPagereq (f : Nat) (r : Range) (s : State) : Out :=
  issue (.pagereq f r) s (fun s is => onRange s is r (fun x =>
    match is.ref with
    | .sup _ => .done s
    | .user c n =>
      let ns := if x.rc.spad then (s, []) else pageNeeds s is (pagePieces x.a x.len)
      if anyRefused ns.2 then uniThrow ns.1 is 0x8007
      else
        match newOp ns.1 c n .pagereq with
        | none => .wait ns.1 .sync
        | some (s, tok) => .done (pagesAsked s is f c tok ns.2)))

/-! ### Cache control (R252, R253) -/

/-- Write back, and with `disc` discard, the core-point copies of the lines of ranges, and with `dev` the host and peer
copies at their home points that can reach their system points. -/
def cctl (s : State) (is : Iss) (rs : List (Nat × Nat)) (dev disc : Bool) : State :=
  let c := coreOf s is.ref
  let own := ((core? s c).map (fun x => x.cp.filter (fun p => lineMeets rs p.1))).getD []
  let s := (tabLines own).foldl (fun s l => coreLineHome s c l) s
  let s := if dev then (s.hcopy.filter (fun p => lineMeets rs p.1 && (wayDown s p.1).isNone)).foldl (fun s p => homeWriteBack s p.1) s
           else s
  if disc then
    let s := modCore s c (fun x => { x with cp := x.cp.filter (fun p => !lineMeets rs p.1) })
    if dev then { s with hcopy := s.hcopy.filter (fun p => p.2.dirty || !lineMeets rs p.1) } else s
  else s

def cctlOp (s : State) (is : Iss) (sc : Scope) (r : Range) (disc : Bool) : Res :=
  onRange s is r (fun x =>
    if x.rc.spad then .done s
    else onCovered (coveredRanges s is (classOf is.ref) .read x.a x.len) (fun s rs => .done (cctl s is rs (sc == .dev) disc)))

def execCctlWb (sc : Scope) (r : Range) (s : State) : Out :=
  issue (.cctlWb sc r) s (fun s is => cctlOp s is sc r false)
def execCctlDisc (sc : Scope) (r : Range) (s : State) : Out :=
  issue (.cctlDisc sc r) s (fun s is => cctlOp s is sc r true)

/-- The instruction-cache lines of a range, by the FETCH field and the leaf's fetch permission; none through a scratchpad
record. -/
def codeRanges (s : State) (is : Iss) (x : RangeAt) : Covered :=
  if x.rc.spad then (s, some []) else coveredRanges s is .fetch .fetch x.a x.len

/-- Fill the lines of ranges into a core's instruction cache, pinned or not; none that is lost or that cannot be reached. -/
def fillLines (s : State) (c : Nat) (rs : List (Nat × Nat)) (pin : Bool) : State :=
  (linesOf rs).foldl (fun s line =>
    if isLost s.lost (128 * line) || !(homeHolds s line || (wayDown s (128 * line)).isNone) then s
    else
      let r := lineBytes (countHome s c (128 * line)) line
      icacheFill r.1 c line r.2 pin) s

def icFill (s : State) (is : Iss) (r : Range) (pin : Bool) : Res :=
  onRange s is r (fun x => onCovered (codeRanges s is x) (fun s rs => .done (fillLines s (coreOf s is.ref) rs pin)))

def execIcpf (r : Range) (s : State) : Out := issue (.icpf r) s (fun s is => icFill s is r false)
def execIcpin (r : Range) (s : State) : Out := issue (.icpin r) s (fun s is => icFill s is r true)

/-- Unpin the lines of ranges in one core's instruction cache. -/
def unpinLines (rs : List (Nat × Nat)) (y : Core) : Core :=
  { y with icache := Tab.mapVals (fun k l => if lineMeets rs (128 * k) then { l with pinned := false } else l) y.icache }

def execIcpinUnpin (r : Range) (s : State) : Out :=
  issue (.icpinUnpin r) s (fun s is => onRange s is r (fun x =>
    onCovered (codeRanges s is x) (fun s rs => .done (modCore s (coreOf s is.ref) (unpinLines rs)))))

/-- Invalidate and unpin the lines of ranges in one core's instruction cache. -/
def dropLines (rs : List (Nat × Nat)) (x : Core) : Core :=
  { x with icache := x.icache.filter (fun l => !lineMeets rs (128 * l.1)) }

def execIcinvCrew (r : Range) (s : State) : Out :=
  issue (.icinvCrew r) s (fun s is => onRange s is r (fun x =>
    onCovered (codeRanges s is x) (fun s rs => .done (modCore s (coreOf s is.ref) (dropLines rs)))))

/-- ICINV.DEV: the group is not ready until ICINV_COMPLETE has released at DEV and invalidated on every core (R232). -/
def execIcinvDev (r : Range) (s : State) : Out :=
  issue (.icinvDev r) s (fun s is =>
    match is.q.waiting with
    | .icinv _ true => .done (modGroup s is.ref is.grp (fun q => { q with waiting := .none }))
    | .icinv _ false => .wait s .sync
    | _ => onRange s is r (fun x => onCovered (codeRanges s is x) (fun s rs =>
        .wait (modGroup s is.ref is.grp (fun q => { q with waiting := .icinv rs false })) .sync)))

/-! ### QSTAT (R254) -/

def execQstat (full : Bool) (d : Opd) (q c : Nat) (s : State) : Out :=
  issue (.qstat full d q c) s (fun s is =>
    if qcfgUsable s is.ref (qCfg s is.ref q) then
      let n := (qFifo s is.ref q).entries.length
      let cap := qCap s is.ref q is.gang.width
      writeScalar (modGang s is.ref (fun g => wrC g c (if full then decide (n ≥ cap) else n == 0))) is d (n + cap * 2 ^ 16 + 2 ^ 32)
    else
      writeScalar (modGang s is.ref (fun g => wrC g c false)) is d 0)

/-! ### APPEND (R173, R174) -/

def execAppend (gd : Guard) (d a b : Opd) (s : State) : Out :=
  issue (.append gd d a b) s (fun s is =>
    let ls := selOf is gd
    if ls.isEmpty then .done s
    else
      match chkScr s is.ref (sext (rdU s is a) 64) 4 with
      | .ok (.scr o) _ =>
        let p := Place.scr o
        let held := match crewIdOf is.ref with | some c => heldByMatrix s c o 4 | none => false
        if !placeFree is.gang p 4 || is.gang.buf.any (fun e => overlaps e.place e.bytes.length p 4) || held then .wait s .sync
        else
          let r := loadBytes s is.ref is.gang.seq .crew p 4
          if r.2.2 then throwAll s is 0x800B
          else
            let old := leNat r.2.1
            let g := min ls.length (rdSrc s is ⟨b, .u32, []⟩ 0 - old)
            let s := atomWrite r.1 is.ref .crew p 4 (old + g)
            writeLanes s is ls d false (fun l =>
              let k := (ls.filter (fun m => decide (m < l))).length
              if k < g then old + k else 0xFFFFFFFF)
      | .code k => throwAll s is k
      | _ => .wait s .sync)

end Sys2Proof.Machine
end

