-- ==== Sys2Proof/Machine/Engine.lean ====
section
/-!
DEFINITION. Engine commands, futures and barriers (spec/14_engines.md R277 to R302), majors 0x90 to 0xA4.
-/

namespace Sys2Proof.Machine

/-! ### Issuing a command (R280, R281) -/

/-- An operand that gives an offset, index, length or count: its low 32 bits (Table 14-2). -/
def rdE (s : State) (is : Iss) (o : Opd) : Nat := rdSrc s is ⟨o, .u32, []⟩ 0

/-- The common start of an engine command: its crew, and the skip when no lane is selected, which writes the null token. -/
def command (s : State) (is : Iss) (g : Guard) (f : Nat) (k : Nat → Nat → Crew → Res) : Res :=
  match is.ref, crewOf? s is.ref with
  | .user c n, some cr =>
    if (selOf is g).isEmpty then .done (modGang s is.ref (fun x => wrF x f 0)) else k c n cr
  | _, _ => .done s

/-- The first failing check of a list, thrown by every active lane. -/
def checked (s : State) (is : Iss) (cs : List (Bool × Nat)) (k : Res) : Res :=
  match cs.find? (fun c => c.1) with
  | some c => throwAll s is c.2
  | none => k

/-- Wait for a release to be possible, and make it; throws of stores that met a switched bank come first (R197). -/
def afterRelease (is : Iss) (s : State) (r : Option (State × List (Nat × Nat × Nat))) (k : State → Res) : Res :=
  match r with
  | none => .wait s .sync
  | some (s', []) => k s'
  | some (s', ts) => .wait (throwMany s' is.ref ts) .sync

/-- Take an operation entry and write its token to f[D]; without a free entry the group is not ready (R277, R281). -/
def withOp (s : State) (is : Iss) (c n f : Nat) (kind : OpKind) (k : State → Nat → Res) : Res :=
  match newOp s c n kind with
  | none => .wait s .sync
  | some (s', tok) => k (modGang s' is.ref (fun x => wrF x f tok)) tok

/-! ### Copies (R283 to R287) -/

/-- Is the record valid (R120)? -/
def recValid (r : BRec) : Bool := !(decide (r.swz ≥ 4) || (r.spad && decide (r.base ≥ 2 ^ 20)))

/-- Every element of a SPAD record lies in the allocation (R241, R283). -/
def spadInside (s : State) (g : GRef) (r : BRec) (i count : Nat) : Bool :=
  !r.spad || (List.range count).all (fun k => decide (recAddr r (i + k) + r.esz ≤ scrSize s g))

/-- What a body says of the global elements of a copy: throw, wait or go on (R308). -/
def bodyOfCopy (s : State) (is : Iss) (r : BRec) (i count : Nat) (writes : Bool) : State × List (Nat × Chk) :=
  if is.gang.body.isNone || r.spad then (s, [])
  else chkLanes s (fun s k => chkGlobal s is (recAddr r (i + k)) r.esz (if writes then .write else .read)) (List.range count)

/-- May a copy be accepted now: room in the queue, but for a copy of nothing, and a barrier that ARR may reach (R285)? -/
def copyRoom (s : State) (is : Iss) (bar : Option Nat) (arr empty : Bool) : Bool :=
  let full := ((core? s (coreOf s is.ref)).map (fun x => decide (x.copyQ.length ≥ 16))).getD true
  let blocked := match bar, arr, crewOf? s is.ref with
    | some b, true, some cr => decide ((barOf cr b).arr = (barOf cr b).exp)
    | _, _, _ => false
  !((full && !empty) || blocked)

/-- The state with a copy accepted: the arrival of ARR, the path counter, and the command in the queue or, of nothing, resolved. -/
def copyAccepted (s : State) (is : Iss) (core c : Nat) (bar : Option Nat) (arr empty : Bool) (m : CopyCmd) (tok : Nat) : State :=
  let s := match bar, arr with | some b, true => barArrive s c b | _, _ => s
  let s := modGang s is.ref (fun x => raisePath x 3 tok)
  if empty then resolveOp s c tok .ok (copySkip m * 2 ^ 56)
  else modCore s core (fun x => { x with copyQ := x.copyQ ++ [m] })

/-- Accept a copy: room in the queue, the scratchpad release of its issue, the arrival of ARR (R285), an operation. -/
def acceptCopy (s : State) (is : Iss) (c n f : Nat) (bar : Option Nat) (arr : Bool) (empty : Bool)
    (mk : Nat → CopyCmd) : Res :=
  let core := coreOf s is.ref
  if copyRoom s is bar arr empty then
    afterRelease is s (releaseScr s is.ref) (fun s =>
      withOp s is c n f .copy (fun s tok => .done (copyAccepted s is core c bar arr empty (mk tok) tok)))
  else .wait s .sync

/-- A command as it is captured at issue (R281). -/
def mkCopy (s : State) (is : Iss) (c n : Nat) (kind : CopyKind) (rc : BitVec 128) (first count off : Nat) (dir : Bool)
    (bar : Option Nat) (tok : Nat) : CopyCmd :=
  { pc := is.q.pc, crew := c, gang := n, side := sideOf s is.ref, op := tok, path := 3, kind := kind, rc := rc, first := first
    count := count, off := off, dir := dir, bar := bar, ctx := ctxOf s is.ref, body := is.gang.body, segs := 0, done := []
    undel := 0, fault := none, got := 0, skip := 0, credited := 0, failed := [], pre := [], placed := [], wrote := [], moved := [], due := [] }

/-- The number of records a CPY or CPY.M names. -/
def copyCount (s : State) (is : Iss) (x : Copy) : Nat := rdE s is x.c / (cutRec (rdB is.gang x.rc)).esz

/-- The operand checks of CPY and CPY.M, in their order (R283, R286). -/
def copyChecks (s : State) (is : Iss) (x : Copy) (multi : Bool) : List (Bool × Nat) :=
  let r := cutRec (rdB is.gang x.rc)
  let i := rdE s is x.a
  let o := rdE s is x.b
  let len := rdE s is x.c
  let count := copyCount s is x
  let al := min r.esz 128
  [(!recValid r || (multi && r.spad) || decide (len > 2 ^ 20) || decide (i + count > recExtent r)
      || !spadInside s is.ref r i count, 0x8001),
   (decide (len % r.esz ≠ 0) || decide (r.base % al ≠ 0) || decide (r.stride % al ≠ 0) || decide (o % al ≠ 0), 0x8008),
   (decide (o + len > scrSize s is.ref), 0x8001)]

/-- A command waits whole for the pages of its elements: inside a body it is accepted only once every tile that it names is granted, and
the tiles are judged once the pages are there (R308, R333). -/
def awaitPages (r : State × List (Nat × Chk)) (is : Iss) (kind : Nat) : Res :=
  .wait (askPages r.1 (ctxOf r.1 is.ref) kind (groupWaits is) (placesOf r.2)) .sync

/-- Does the body of a transaction refuse an element of a copy? -/
def bodyRefuses (cs : List (Nat × Chk)) : Bool := cs.any (fun p => match p.2 with | .code k => k == 0x8003 | _ => false)

/-- The CPY or CPY.M command of an operation. -/
def copyCommand (s u : State) (is : Iss) (c n : Nat) (x : Copy) (kind : CopyKind) (dir : Bool) (tok : Nat) : CopyCmd :=
  mkCopy u is c n kind (rdB is.gang x.rc) (rdE s is x.a) (copyCount s is x) (rdE s is x.b) dir x.bar tok

/-- CPY and CPY.M (R283, R286). -/
def copyOp (s : State) (is : Iss) (x : Copy) (kind : CopyKind) (arr dir : Bool) : Res :=
  command s is x.g x.f (fun c n _ =>
    let multi := match kind with | .multicast _ => true | _ => false
    checked s is (copyChecks s is x multi)
      (let b := bodyOfCopy s is (cutRec (rdB is.gang x.rc)) (rdE s is x.a) (copyCount s is x) dir
       if bodyRefuses b.2 then uniThrow b.1 is 0x8003
       else if anyHold b.2 then .wait b.1 .sync
       else if anyPage b.2 then awaitPages b is (b2n dir)
       else acceptCopy b.1 is c n x.f x.bar arr (rdE s is x.c == 0) (copyCommand s b.1 is c n x kind dir)))

def execCpy (x : Copy) (arr dir : Bool) (s : State) : Out :=
  issue (.cpy x arr dir) s (fun s is => copyOp s is x .cpy arr dir)

def execCpyM (x : Copy) (cores : BitVec 8) (s : State) : Out :=
  issue (.cpyM x cores) s (fun s is => copyOp s is x (.multicast cores) false false)

/-- The operand checks of CPY.X, in their order (R287). -/
def indexedChecks (s : State) (is : Iss) (x : Copy) : List (Bool × Nat) :=
  let r := cutRec (rdB is.gang x.rc)
  let list := rdE s is x.a
  let o := rdE s is x.b
  let count := rdE s is x.c
  [(!recValid r || decide (count > 2 ^ 16), 0x8001),
   (decide (list % 4 ≠ 0) || decide (o % min r.esz 128 ≠ 0), 0x8008),
   (decide (list + 4 * count > scrSize s is.ref) || decide (o + count * r.esz > scrSize s is.ref), 0x8001)]

/-- The CPY.X command of an operation. -/
def indexedCommand (s : State) (is : Iss) (c n : Nat) (x : Copy) (dir : Bool) (tok : Nat) : CopyCmd :=
  mkCopy s is c n (.indexed (rdE s is x.a)) (rdB is.gang x.rc) 0 (rdE s is x.c) (rdE s is x.b) dir x.bar tok

/-- What a body says of the global elements that the index list of a CPY.X names as it is accepted (R308); an index that fails is
judged when the engine reaches it. -/
def bodyOfIndexed (s : State) (is : Iss) (cr : Crew) (r : BRec) (list count : Nat) (writes : Bool) : State × List (Nat × Chk) :=
  if is.gang.body.isNone || r.spad then (s, [])
  else
    let idx := ((List.range count).map (fun k => leNat (scrRead cr (list + 4 * k) 4))).filter (fun i => decide (i < recExtent r))
    chkLanes s (fun t k => match idx[k]? with
      | some i => chkGlobal t is (recAddr r i) r.esz (if writes then .write else .read)
      | none => (t, .absent)) (List.range idx.length)

/-- Accept a CPY.X once every tile it names is granted (R287, R308); its index list is read with the gang's scratchpad stores at
the banks. -/
def acceptIndexed (s : State) (is : Iss) (c n : Nat) (x : Copy) (arr dir : Bool) : Res :=
  afterRelease is s (releaseScr s is.ref) (fun s =>
    match crewOf? s is.ref with
    | none => .done s
    | some cr =>
      let b := bodyOfIndexed s is cr (cutRec (rdB is.gang x.rc)) (rdE s is x.a) (rdE s is x.c) dir
      if anyHold b.2 then .wait b.1 .sync
      else if anyPage b.2 then awaitPages b is (b2n dir)
      else acceptCopy b.1 is c n x.f x.bar arr (rdE s is x.c == 0) (indexedCommand s is c n x dir))

/-- CPY.X (R287). -/
def execCpyX (x : Copy) (arr dir : Bool) (s : State) : Out :=
  issue (.cpyX x arr dir) s (fun s is =>
    command s is x.g x.f (fun c n _ =>
      checked s is (indexedChecks s is x)
        (if is.gang.body.isSome then acceptIndexed s is c n x arr dir
         else acceptCopy s is c n x.f x.bar arr (rdE s is x.c == 0) (indexedCommand s is c n x dir))))

/-! ### Matrix commands (R288 to R293) -/

/-- The format word every active lane holds, if they agree (R76). -/
def vote (is : Iss) (fw : Nat) : Option W32 :=
  match activeLanes is.gang is.q with
  | [] => none
  | l :: ls => if ls.all (fun k => rdV is.gang fw k == rdV is.gang fw l) then some (BitVec.ofNat 32 (rdV is.gang fw l)) else none

/-- The offset checks of R288: alignment of every range first, then bounds. -/
def rangeChecks (s : State) (is : Iss) (rs : List (Nat × Nat)) : List (Bool × Nat) :=
  [(rs.any (fun r => decide (r.1 % 128 ≠ 0)), 0x8008), (rs.any (fun r => decide (r.1 + r.2 > scrSize s is.ref)), 0x8001)]

/-- The matrix command of an operation as it is captured at issue. -/
def mxCommand (s : State) (is : Iss) (c n tile : Nat) (kind : MxKind) (trapspec paired : Bool) (tok : Nat) : MxCmd :=
  { crew := c, gang := n, side := sideOf s is.ref, op := tok, tile := tile, kind := kind, trapspec := trapspec, running := false, left := 0
    paired := paired, pre := [], body := is.gang.body.map (fun t => t.op) }

/-- Room in the matrix queue of a core (R267). -/
def mxRoom (s : State) (core : Nat) : Bool := !((core? s core).map (fun x => decide (x.mxQ.length ≥ 4))).getD true

/-- Accept a matrix command (R267): room in the queue, the scratchpad release, an operation. -/
def acceptMatrix (s : State) (is : Iss) (c n f tile : Nat) (kind : MxKind) (trapspec paired : Bool) (k : State → Nat → State) : Res :=
  let core := coreOf s is.ref
  if mxRoom s core then
    afterRelease is s (releaseScr s is.ref) (fun s =>
      withOp s is c n f .matrix (fun s tok => .done (k (acceptMx s core (mxCommand s is c n tile kind trapspec paired tok)) tok)))
  else .wait s .sync

/-- The checks of an MMA form, in their order: R76 and R87, the tile's mode, then the operands (R288, R290). -/
def mmaChecks (s : State) (is : Iss) (x : MmaArgs) (c : Nat) (cr : Crew) (fw : W32) (kind : MxKind) (extra : List (Bool × Nat)) :
    List (Bool × Nat) :=
  let side := sideOf s is.ref
  let mode := (tileOfCrew cr (tileKey side x.tile)).mode
  [(!mmaWordOk fw.toNat (widthNext s (coreOf s is.ref) c side x.tile), 0x8005),
   (match mode with | some m => m != mmaFloat fw.toNat | none => false, 0x8009)] ++ rangeChecks s is (mxReads kind) ++ extra

/-- R76 and R87 at issue, then the operand checks, then the backlog (R41). -/
def mmaOp (s : State) (is : Iss) (x : MmaArgs) (extra : Crew → W32 → MxKind → List (Bool × Nat))
    (mk : Nat → Nat → W32 → MxKind) (paired : Crew → Bool) (k : Crew → MxKind → State → Nat → State) : Res :=
  command s is x.g x.f (fun c n cr =>
    let core := coreOf s is.ref
    match vote is x.fw with
    | none => throwAll s is 0x8005
    | some fw =>
      let kind := mk (rdE s is x.a) (rdE s is x.b) fw
      let wd := widthNext s core c (sideOf s is.ref) x.tile
      checked s is (mmaChecks s is x c cr fw kind (extra cr wd kind))
        (if backlogged s core then .wait s .backlog
         else acceptMatrix s is c n x.f x.tile kind (cr.mxctl.getLsbD 0) (paired cr) (k cr kind)))

def execMma (x : MmaArgs) (s : State) : Out :=
  issue (.mma x) s (fun s is =>
    mmaOp s is x (fun _ _ _ => []) (fun a b fw => .mma a b x.sa x.sb fw) (fun _ => false) (fun _ _ s _ => s))

def execMmaSp (x : MmaArgs) (sm : Nat) (s : State) : Out :=
  issue (.mmaSp x sm) s (fun s is =>
    mmaOp s is x (fun _ _ _ => []) (fun a b fw => .mmaSp a b x.sa x.sb sm fw) (fun _ => false) (fun _ _ s _ => s))

/-- The agreement of two sides of an MMA.P (R290): tile, format word, B offset, SB and widths. -/
def agrees (h : Half) (tile b sb : Nat) (fw wd : W32) : Bool :=
  h.tile == tile && h.fw == fw && h.b == b && (h.sb == sb || !bit fw.toNat 15) && h.widths == wd

/-- Mark the oldest unpaired MMA.P of a crew in a core's queue as paired. -/
def markPaired (c : Nat) (x : Core) : Core :=
  match x.mxQ.findIdx? (fun m => isMmaP c m && !m.paired) with
  | some i => { x with mxQ := x.mxQ.modify i (fun m => { m with paired := true }) }
  | none => x

/-- Does an MMA.P complete a pair: has the other side issued its half? -/
def secondHalf (s : State) (is : Iss) (cr : Crew) : Bool := match cr.half with | h :: _ => h.side != sideOf s is.ref | [] => false

/-- The checks of MMA.P of its own: the A offset in the issuer's half (R194), and the agreement of the second side (R290). -/
def pairChecks (s : State) (is : Iss) (x : MmaArgs) (cr : Crew) (wd : W32) (kind : MxKind) : List (Bool × Nat) :=
  let side := sideOf s is.ref
  let half := scrSize s is.ref / 2
  match kind with
  | .mmaP a b _ sb fw =>
    [(if side = 0 then decide (a ≥ half) else decide (a < half), 0x8001),
     (match cr.half with | h :: _ => h.side != side && !agrees h x.tile b sb fw wd | [] => false, 0x8005)]
  | _ => []

/-- The state with a half of an MMA.P accepted: the first side waits for the other, the second completes the pair. -/
def halfIssued (s₀ : State) (is : Iss) (x : MmaArgs) (cr : Crew) (kind : MxKind) (s : State) (tok : Nat) : State :=
  let side := sideOf s₀ is.ref
  let other := if side = 0 then coreOf s₀ is.ref + 1 else coreOf s₀ is.ref - 1
  match is.ref, kind with
  | .user c n, .mmaP _ b _ sb fw =>
    if secondHalf s₀ is cr then modCore (modCrew s c (fun cr => { cr with half := cr.half.drop 1 })) other (markPaired c)
    else
      let wd := widthNext s (coreOf s is.ref) c side x.tile
      modCrew s c (fun cr => { cr with half := cr.half ++ [⟨side, x.tile, fw, b, sb, wd, n, tok⟩] })
  | _, _ => s

/-- MMA.P (R290): the A range in the issuer's own half; the second side checks the agreement and completes the pair. -/
def execMmaP (x : MmaArgs) (s : State) : Out :=
  issue (.mmaP x) s (fun s is =>
    mmaOp s is x (pairChecks s is x) (fun a b fw => .mmaP a b x.sa x.sb fw) (secondHalf s is) (halfIssued s is x))

/-- The checks of MSEL, in their order (R291). -/
def mselChecks (s : State) (is : Iss) (src dst : Nat) (w : W32) (sa sm : Nat) : List (Bool × Nat) :=
  let bits := (aFmt w.toNat).bits
  (!mselWordOk w.toNat, 0x8005) :: rangeChecks s is ([(src, 4096 * bits), (dst, 2048 * bits), (sm, 4096)]
    ++ (if (aFmt w.toNat).scale then [(sa, 1024)] else []))

/-- MSEL (R291), on the copy engine. -/
def execMsel (g : Guard) (f : Nat) (a b : Opd) (fw sa sm : Nat) (s : State) : Out :=
  issue (.msel g f a b fw sa sm) s (fun s is =>
    command s is g f (fun c n _ =>
      match vote is fw with
      | none => throwAll s is 0x8005
      | some w =>
        checked s is (mselChecks s is (rdE s is a) (rdE s is b) w sa sm)
          (acceptCopy s is c n f none false false
            (mkCopy s is c n (.msel w (rdE s is a) (rdE s is b) sa sm) 0 0 4096 (rdE s is b) false none))))

def execAccz (g : Guard) (f tile : Nat) (s : State) : Out :=
  issue (.accz g f tile) s (fun s is =>
    command s is g f (fun c n _ => acceptMatrix s is c n f tile .accz false false (fun s _ => s)))

def execAccdr (g : Guard) (f : Nat) (off : Opd) (tgt : Fmt) (tile : Nat) (s : State) : Out :=
  issue (.accdr g f off tgt tile) s (fun s is =>
    command s is g f (fun c n _ =>
      let o := rdE s is off
      checked s is (rangeChecks s is [(o, 4096 * (tgt.width / 8))])
        (acceptMatrix s is c n f tile (.accdr o tgt) false false (fun s _ => s))))

def execWdset (g : Guard) (f : Nat) (val : Opd) (tile : Nat) (s : State) : Out :=
  issue (.wdset g f val tile) s (fun s is =>
    command s is g f (fun c n _ =>
      acceptMatrix s is c n f tile (.wdset (BitVec.ofNat 32 (rdE s is val))) false false (fun s _ => s)))

def execMfence (g : Guard) (f : Nat) (s : State) : Out :=
  issue (.mfence g f) s (fun s is =>
    command s is g f (fun c n _ => acceptMatrix s is c n f 0 .mfence false false (fun s _ => s)))

/-! ### Futures (R294 to R297) -/

/-- Write a status word where an instruction asks for it. -/
def writeStatus (s : State) (is : Iss) (st : Option Nat) (w : Nat) : State :=
  match st with
  | some d => modGang s is.ref (fun x => wrS x d w)
  | none => s

/-- FWAIT (R294, R54). -/
def execFwait (f : Nat) (st : Option Nat) (s : State) : Out :=
  issue (.fwait f st) s (fun s is =>
    match is.ref, crewOf? s is.ref with
    | .user c _, some cr =>
      let tok := rdF is.gang f
      if !opResolved cr tok then .wait s .sync
      else
        let lanes := activeLanes is.gang is.q
        match opOf cr tok with
        | some e =>
          if e.st == .faulted && !e.reported && !lanes.isEmpty then
            let s := modCrew s c (fun cr => { cr with ops := Tab.put cr.ops (tok % 1024) { e with reported := true } })
            .throw s (lanes.map (fun l => (l, bits e.word.toNat 31 16)))
          else .done (writeStatus (acquire s is.ref .dev) is st (statusOf cr tok))
        | none => .done (writeStatus (acquire s is.ref .dev) is st (statusOf cr tok))
    | _, _ => .done s)

/-- FTEST (R295). -/
def execFtest (f c : Nat) (st : Option Nat) (s : State) : Out :=
  issue (.ftest f c st) s (fun s is =>
    match crewOf? s is.ref with
    | none => .done s
    | some cr =>
      let tok := rdF is.gang f
      let ok := opResolved cr tok
      let s := if ok then acquire s is.ref .dev else s
      .done (writeStatus (modGang s is.ref (fun x => wrC x c ok)) is st (statusOf cr tok)))

/-- Withdraw a PAGEREQ (Table 3-3). -/
def cancelPagereq (s : State) (c tok : Nat) : State :=
  let keep := fun w : Waiter => match w with | .pagereq d t _ => !(d == c && t == tok) | _ => true
  resolveOp { s with
    pageOps := s.pageOps.filter (fun p => !(p.crew == c && p.op == tok))
    pageReqs := s.pageReqs.map (fun r => { r with waiters := r.waiters.filter keep }) } c tok .cancelled 0

/-- Cancel one operation of a crew wherever it stands (R296). -/
def cancelOp (s : State) (c tok : Nat) : State :=
  match (crew? s c).bind (fun cr => (opOf cr tok).map (fun e => (cr, e))) with
  | none => s
  | some (cr, e) =>
    if e.st ≠ .unresolved then s
    else
      let cores := if isPair s cr then [cr.core, cr.core + 1] else [cr.core]
      match e.kind with
      | .copy => cores.foldl (fun s k => cancelCopies s k (fun m => m.crew == c && m.op == tok) 1) s
      | .matrix => cores.foldl (fun s k => cancelMxAll s k (fun m => m.crew == c && m.op == tok && !m.running) 1) s
      | .ticket => withdrawTicket s c e.gang tok
      | .pagereq => cancelPagereq s c tok

def execFcancel (f : Nat) (s : State) : Out :=
  issue (.fcancel f) s (fun s is =>
    match is.ref with
    | .user c _ => .done (cancelOp s c (rdF is.gang f))
    | .sup _ => .done s)

/-- The store of a token that FEXPORT makes. -/
def tokenStored (s : State) (is : Iss) (f : Nat) (p : Place) : State :=
  let lane := ((activeLanes is.gang is.q).head?).getD 0
  modGang s is.ref (fun x =>
    { nextSeq x with buf := x.buf ++ [⟨x.seq, x.seq, lane, is.q.pc, p, toLE 4 (rdF x f), .crew, true, false, s.cycle.toNat⟩] })

/-- FEXPORT (R297): a 32-bit store at CREW scope. -/
def execFexport (f : Nat) (off : Opd) (s : State) : Out :=
  issue (.fexport f off) s (fun s is =>
    match chkScr s is.ref (sext (rdU s is off) 64) 4 with
    | .code k => throwAllOrNop s is k
    | .ok p _ => .done (tokenStored s is f p)
    | _ => .wait s .sync)

/-- FIMPORT (R297): a 32-bit load at CREW scope. -/
def execFimport (f : Nat) (off : Opd) (s : State) : Out :=
  issue (.fimport f off) s (fun s is =>
    match chkScr s is.ref (sext (rdU s is off) 64) 4 with
    | .code k => throwAllOrNop s is k
    | .ok p _ =>
      if !placeFree is.gang p 4 then .wait s .sync
      else
        let r := loadBytes s is.ref is.gang.seq .crew p 4
        if r.2.2 then throwAllOrNop s is 0x800B
        else .done (modGang r.1 is.ref (fun x => wrF (nextSeq x) f (leNat r.2.1)))
    | _ => .wait s .sync)

/-! ### Barriers (R298 to R302) -/

def execBarinit (bar : Nat) (e : Opd) (s : State) : Out :=
  issue (.barinit bar e) s (fun s is =>
    let x := rdU s is e
    if x < 1 ∨ x > 4095 then throwAllOrNop s is 0x8001
    else
      match is.ref with
      | .user c _ => .done (modBar s c bar (fun b => { b with exp := x, arr := 0, byt := 0, err := false }))
      | .sup _ => .done s)

/-- BARA: one arrival, with a release at CREW (in a pair crew, at DEV for global memory). -/
def execBara (bar : Nat) (s : State) : Out :=
  issue (.bara bar) s (fun s is =>
    match is.ref, crewOf? s is.ref with
    | .user c _, some cr =>
      if (barOf cr bar).arr = (barOf cr bar).exp then .wait s .sync
      else afterRelease is s (release s is.ref (crewScope s is.ref)) (fun s => .done (barArrive s c bar))
    | _, _ => .done s)

def execBarexp (bar : Nat) (b : Opd) (s : State) : Out :=
  issue (.barexp bar b) s (fun s is =>
    match is.ref, crewOf? s is.ref with
    | .user c _, some cr =>
      let x := rdU s is b
      if x > 2 ^ 23 - 1 ∨ (barOf cr bar).byt + (x : Int) > 2 ^ 23 - 1 then throwAllOrNop s is 0x8001
      else .done (modBar s c bar (fun y => { y with byt := y.byt + (x : Int) }))
    | _, _ => .done s)

def execBarw (bar : Nat) (phase : Bool) (s : State) : Out :=
  issue (.barw bar phase) s (fun s is =>
    match crewOf? s is.ref with
    | some cr => if (barOf cr bar).phase = phase then .done (acquire s is.ref (crewScope s is.ref)) else .wait s .sync
    | none => .done s)

/-- The scope of LBAR: SYS in a span launch, else DEV (R302). -/
def lbarScope (s : State) (is : Iss) : Scope := if ((launchOf? s is.ref).map (fun l => l.span.isSome)).getD false then .sys else .dev

/-- LBAR (R302): the gang releases and arrives, waits until the barrier releases, and acquires. -/
def execLbar (n : Nat) (s : State) : Out :=
  issue (.lbar n) s (fun s is =>
    let sc := lbarScope s is
    match is.gang.lbar, is.ref with
    | some k, .user _ _ =>
      if k ≥ 4 then .done (acquire (modGang s is.ref (fun x => { x with lbar := none })) is.ref sc) else .wait s .sync
    | none, .user c _ =>
      afterRelease is s (release s is.ref sc) (fun s =>
        .wait (lbarArrive (modGang s is.ref (fun x => { x with lbar := some n })) c) .sync)
    | _, .sup _ => .done s)

end Sys2Proof.Machine
end

