-- ==== Sys2Proof/Machine/SysReg.lean ====
section
/-!
DEFINITION. System registers by number (spec/06_registers.md R123 to R128, Tables 6-4 to 6-11; spec/17_counters.md R350, R351).
-/

namespace Sys2Proof.Machine

/-- TRP of SY.GSTAT: the gang's slot holds a request of it that is not answered (R313, R319). -/
def gangTrp (x : Gang) : Bool := x.noticed || (x.trapped.isSome && x.trapReq.isNone)

/-- SY.GSTAT (Table 6-7). -/
def gstat (x : Gang) : Nat :=
  let n := (x.groups.filter (fun q => !q.ended)).length
  n % 32 + 2 ^ 8 * b2n (decide (1 < n)) + 2 ^ 9 * b2n (gangTrp x) + 2 ^ 10 * x.stack.length
    + 2 ^ 14 * crewDepth x + 2 ^ 17 * launchDepth x + 2 ^ 20 * b2n x.body.isSome

/-- Registers of gang scope. -/
def gangReg (x : Gang) (n : Nat) : Nat :=
  if n = 0 then x.vbase
  else if n = 1 then x.vbound
  else if n = 2 then x.n + 2 ^ 16 * x.p
  else if n = 3 then x.spill
  else if n = 4 then gstat x
  else if 0x100 ≤ n ∧ n < 0x140 then (rdB x ((n - 0x100) / 2)).toNat / 2 ^ (64 * (n % 2)) % 2 ^ 64
  else 0

/-- SY.QCFGn as it reads: the word with VALID (R122). -/
def qcfgRead (s : State) (g : GRef) (w : W32) : Nat := w.toNat % 2 ^ 16 + 2 ^ 16 * b2n (qcfgUsable s g w)

/-- Registers of crew scope; the supervisor reads 0 (R312). -/
def crewReg (s : State) (g : GRef) (n : Nat) : Nat :=
  match crewOf? s g with
  | none => 0
  | some cr =>
    if n = 0x200 then (banksOf cr (sideOf s g)).all.toNat
    else if 0x208 ≤ n ∧ n ≤ 0x20F then qcfgRead s g (qcfgOf cr (n - 0x208))
    else if n = 0x210 then cr.mxctl.toNat
    else if 0x218 ≤ n ∧ n ≤ 0x21B then
      (if n - 0x218 < ((launch? s cr.launch).map (fun l => l.acct)).getD 0 then (widthOf cr (tileKey (sideOf s g) (n - 0x218))).toNat
       else 0)
    else 0

/-- Is a number of gang or of crew scope (Table 6-4)? -/
def gangScope (n : Nat) : Bool := decide (n ≤ 4) || (decide (0x100 ≤ n) && decide (n < 0x140))
def crewScoped (n : Nat) : Bool :=
  n == 0x200 || n == 0x210 || (decide (0x208 ≤ n) && decide (n ≤ 0x20F)) || (decide (0x218 ≤ n) && decide (n ≤ 0x21B))

/-- The core or die a counter number means for a core. -/
def counterUnit (n core : Nat) : Nat := if n < 0x880 then core else if n < 0x900 then dieOf core else 0

/-- A latch (Table 17-7: its live number plus 0x400). -/
def latchOf (s : State) (n core : Nat) : Nat :=
  let m := n - 0x400
  (if m < 0x880 then Tab.get 0#64 (((core? s core).map (fun x => x.latch)).getD []) m
   else if m < 0x900 then Tab.get 0#64 (Tab.get Die.reset s.dies (dieOf core)).latch m
   else Tab.get 0#64 s.latch m).toNat

/-- SY.ID (Table 6-5): PART, STEP, and the die that executes the read. -/
def syId (core : Nat) : Nat := 0x0480 * 2 ^ 16 + 0xB0 * 2 ^ 8 + dieOf core

/-- What RDSYS reads. A CLAIMTO of 0, which Table 6-11 has read as 1, reads back as the 0 that was written, and counts as 1 microsecond where
an event takes its deadline: DESIGN CHOICE, notes/assumptions/87. -/
def sysRead (s : State) (g : GRef) (x : Gang) (n : Nat) : Nat :=
  let c := coreOf s g
  if gangScope n then gangReg x n
  else if crewScoped n then crewReg s g n
  else if n = 0x201 then ((core? s c).map (fun y => y.modes.toNat)).getD 0
  else if 0x300 ≤ n ∧ n < 0x400 then coreControl s c n
  else if n = 0x400 then syId c
  else if n = 0x401 then s.beat.toNat
  else if n = 0x402 then s.claimto.toNat
  else if n = 0x403 then tickGet s
  else if 0xC00 ≤ n then latchOf s n c
  else if 0x800 ≤ n then (Tab.get 0#64 (liveOf s n (counterUnit n c)) n).toNat
  else 0

/-- Write one half of a buffer record, as written (R124). -/
def writeBHalf (x : Gang) (n w : Nat) : Gang :=
  let k := (n - 0x100) / 2
  let old := (rdB x k).toNat
  let new := if n % 2 = 0 then old / 2 ^ 64 * 2 ^ 64 + w % 2 ^ 64 else old % 2 ^ 64 + w % 2 ^ 64 * 2 ^ 64
  { x with b := Tab.set 0#128 x.b k (BitVec.ofNat 128 new) }

/-- The fields of SY.QCFGn that software writes (Table 6-9). -/
def qcfgWritten (w : Nat) : W32 := BitVec.ofNat 32 w &&& 0x831F#32

/-- The writes to gang and crew scope. -/
def writeScoped (s : State) (g : GRef) (n w : Nat) : State :=
  if 0x100 ≤ n ∧ n < 0x140 then modGang s g (fun x => writeBHalf x n w)
  else
    match crewIdOf g with
    | none => s
    | some c =>
      if 0x208 ≤ n ∧ n ≤ 0x20F then modCrew s c (fun cr => { cr with qcfg := Tab.set 0#32 cr.qcfg (n - 0x208) (qcfgWritten w) })
      else if n = 0x210 then modCrew s c (fun cr => { cr with mxctl := BitVec.ofNat 32 (w % 2) })
      else s

/-- WRSYS: what a user or the supervisor may write is written; every other write is ignored (R124). -/
def sysWriteReg (s : State) (g : GRef) (n w : Nat) : State :=
  match g with
  | .user _ _ => writeScoped s g n w
  | .sup c =>
    if n = 0x308 then vmargWrite s c w
    else if n = 0x401 then beatPut s w
    else if n = 0x402 then claimtoPut s w
    else if n = 0x403 then tickPut s w
    else if 0x800 ≤ n ∧ n < 0xC00 then writeCounter s n (counterUnit n c) w
    else writeScoped s g n w

end Sys2Proof.Machine
end

