-- ==== Sys2Proof/Machine/System.lean ====
section
/-!
DEFINITION. Traps, the supervisor's access to trapped gangs, system registers, bank modes, self-test and core retirement
(spec/15_ordered_system.md R312 to R325; spec/25_prog_emulate.md R407), majors 0xC0 to 0xCC.
-/

namespace Sys2Proof.Machine

/-! ### TRAP (R313) -/

def execTrap (code : Opd) (s : State) : Out := issue (.trap code) s (fun s is => .request s 1 (rdU s is code % 2 ^ 16))

/-! ### Requests (R314, R315) -/

def requestIn (s : State) (core slot : Nat) : Option Request := (core? s core).bind (fun x => Tab.find? x.mbox slot)

def modRequest (s : State) (core slot : Nat) (f : Request → Request) : State :=
  modCore s core (fun x => { x with mbox := Tab.upd x.mbox slot f })

def dropRequest (s : State) (core slot : Nat) : State := modCore s core (fun x => { x with mbox := Tab.erase x.mbox slot })

/-- The request the six instructions of R407 act on: taken, and not abandoned. -/
def actOn (s : State) (core slot : Nat) : Option Request :=
  (requestIn s core slot).bind (fun r => if r.taken && !r.cancel then some r else none)

/-- A 64-bit word of a request (Table 15-8). -/
def requestWord (r : Request) (slot n : Nat) : Nat :=
  let code := leNat (r.insn.take 16)
  match n with
  | 0 => r.cls + 2 ^ 8 * r.cause + 2 ^ 16 * slot + 2 ^ 24 * (b2n r.cancel + 2 * b2n r.sep + 4 * b2n r.answ) + 2 ^ 32 * r.seq
  | 1 => r.pc
  | 2 => code % 2 ^ 64
  | 3 => code / 2 ^ 64
  | 4 => r.lanes.toNat
  | 5 => r.active.toNat
  | 6 => r.crewLin + 2 ^ 32 * r.gang + 2 ^ 48 * r.gw
  | 7 => r.ctx + 2 ^ 32 * r.info
  | _ => 0

/-- The slot of the oldest request that has not been taken (R274). -/
def oldestRequest (x : Core) : Option Nat :=
  (x.mbox.foldl (fun (best : Option (Nat × Nat)) p =>
    if p.2.taken then best
    else
      match best with
      | some b => if b.2 ≤ p.2.order then some b else some (p.1, p.2.order)
      | none => some (p.1, p.2.order)) none).map (fun b => b.1)

/-- MBXRD.NEXT: the oldest request is taken; an abandoned one is removed by it (R315, R321). -/
def execMbxrdNext (d : Opd) (s : State) : Out :=
  issue (.mbxrdNext d) s (fun s is =>
    let c := coreOf s is.ref
    match (core? s c).bind oldestRequest with
    | none => writeScalar s is d (2 ^ 64 - 1)
    | some slot =>
      let dead := ((requestIn s c slot).map (fun r => r.cancel)).getD false
      let s := if dead then dropRequest s c slot else modRequest s c slot (fun r => { r with taken := true })
      writeScalar s is d slot)

def execMbxrdWord (d slot word : Opd) (s : State) : Out :=
  issue (.mbxrdWord d slot word) s (fun s is =>
    let k := rdU s is slot
    match requestIn s (coreOf s is.ref) k with
    | some r => writeScalar s is d (requestWord r k (rdU s is word))
    | none => writeScalar s is d 0)

/-! ### The registers of a trapped gang (R316 to R318) -/

/-- Names of write-set entries: vector registers and 640 by number, the others beyond. -/
def scalarKey (num : Nat) : Nat := 0x10000 + num

/-- The predicate word of a lane: bit 0 reads 1 (R316). -/
def predWord (x : Gang) (l : Nat) : Nat := (Tab.get 0#16 x.pr l).toNat / 2 * 2 + 1

/-- A vector register of a trapped gang as RDXV reads it: one of the backing store by a spill read of its core, unless what was written last
has not gone to the spill path yet (R114, R115, R345). From a lost line RDXV reads the bytes that are there and throws nothing: R115 has the
instruction throw that reads an operand, and the supervisor's operands are its own: DESIGN CHOICE, notes/assumptions/86. -/
def spillRead (s : State) (g : GRef) (x : Gang) (reg l : Nat) : Nat :=
  let a := spillAddr x (64 * reg + l)
  let byte := fun (a : Nat) => ((coreCopy? s (coreOf s g) a).map (fun c => c.val)).getD (homeRead s a)
  if spilledReg x reg && !x.unhomed.contains (64 * reg + l) then leNat ((List.range 4).map (fun i => byte (a + i)))
  else rdV x reg l

/-- RDXV's value in lane `l` of the trapped gang, the write set laid over it. -/
def readXv (s : State) (r : Request) (x : Gang) (reg l : Nat) : Nat :=
  if l ≥ x.width then 0
  else
    match (Tab.find? r.writes reg).bind (fun t => Tab.find? t l) with
    | some w => if reg = 640 then w.toNat / 2 * 2 + 1 else w.toNat
    | none =>
      if reg < 640 then (if reg < x.n then spillRead s r.gref x reg l else 0)
      else if reg = 640 then predWord x l
      else if reg = 641 then counterOf x l
      else 0

/-- The group a request names. -/
def requestGroup (x : Gang) (r : Request) : Option QGroup := x.groups.find? (fun q => q.quads == r.quads)

/-- RDXS's value, the write set laid over it (Table 15-9). -/
def readXs (s : State) (r : Request) (x : Gang) (num : Nat) : Nat :=
  match (Tab.find? r.writes (scalarKey num)).bind (fun t => Tab.find? t 0) with
  | some w => if 0x208 ≤ num ∧ num ≤ 0x20F then qcfgRead s r.gref (BitVec.ofNat 32 w.toNat) else w.toNat
  | none =>
    if gangScope num then gangReg x num
    else if crewScoped num then crewReg s r.gref num
    else if num < 0x1000 then 0
    else if num < 0x1080 then rdS x (num - 0x1000)
    else if num = 0x1080 then x.c.toNat
    else if num = 0x1081 then x.lr.toNat
    else if num = 0x1082 then r.pc
    else if num = 0x1083 then ((requestGroup x r).map (exmOf x)).getD 0
    else if 0x1090 ≤ num ∧ num < 0x10A0 then rdF x (num - 0x1090)
    else 0

/-- The bits WRXS writes of an item; none for an item it cannot write. -/
def writeXsBits (num w : Nat) : Option Nat :=
  if 0x100 ≤ num ∧ num < 0x140 then some (w % 2 ^ 64)
  else if 0x208 ≤ num ∧ num ≤ 0x20F then some (qcfgWritten w).toNat
  else if num = 0x210 then some (w % 2)
  else if 0x1000 ≤ num ∧ num < 0x1080 then some (w % 2 ^ 64)
  else if num = 0x1080 then some (w % 2 ^ 16)
  else if num = 0x1081 then some (w % 2 ^ 64)
  else if 0x1090 ≤ num ∧ num < 0x10A0 then some (w % 2 ^ 32)
  else none

/-- The state with lanes of a register in the write set of a request. -/
def withWrites (s : State) (core slot : Nat) (r : Request) (key : Nat) (ls : List (Nat × W64)) : State :=
  let t := ls.foldl (fun t p => Tab.put t p.1 p.2) (Tab.get [] r.writes key)
  modRequest s core slot (fun r => { r with writes := Tab.put r.writes key t })

/-- Has a write set room for a register: one it holds already, or one of 32 (R318)? -/
def writesFit (r : Request) (key : Nat) : Bool := (Tab.find? r.writes key).isSome || decide (r.writes.length < 32)

/-- Put lanes of a register into a request's write set, or fault on a 33rd register (R318). -/
def addWrites (s : State) (is : Iss) (slot key : Nat) (ls : List (Nat × W64)) : Res :=
  let c := coreOf s is.ref
  match actOn s c slot with
  | none => .done s
  | some r =>
    if ls.isEmpty then .done s
    else if !writesFit r key then .stay (supFault s c 6 0 0 is.q.pc)
    else .done (withWrites s c slot r key ls)

/-- One register of a write set reaches the gang (R318). -/
def applyWrite (s : State) (g : GRef) (key : Nat) (ls : Tab W64) : State :=
  if key < 640 then modGang s g (fun x => ls.foldl (fun x p => wrV x key p.1 p.2.toNat) x)
  else if key = 640 then
    modGang s g (fun x => ls.foldl (fun x p => { x with pr := Tab.set 0#16 x.pr p.1 (BitVec.ofNat 16 (p.2.toNat / 2 * 2)) }) x)
  else
    let num := key - 0x10000
    let w := (Tab.get 0#64 ls 0).toNat
    if num < 0x1000 then writeScoped s g num w
    else if num < 0x1080 then modGang s g (fun x => wrS x (num - 0x1000) w)
    else if num = 0x1080 then modGang s g (fun x => { x with c := BitVec.ofNat 16 w })
    else if num = 0x1081 then modGang s g (fun x => { x with lr := BitVec.ofNat 64 w })
    else modGang s g (fun x => wrF x (num - 0x1090) w)

/-- The flight of an instruction that writes its destination later (R345), with what it will write. -/
def sysLaunched (s : State) (is : Iss) (k : FlightKind) (d : Opd) (value : Nat) (lanes : List (Nat × W32)) : State :=
  launchFlight s is (fun id =>
    { flightFor is k id with scope := .gang, size := (match d with | .v _ => .b32 | _ => .b64), dst := d, ctr := clauseCounter is.q
                             value := BitVec.ofNat 64 value, lanes := lanes })

/-- The end of an instruction that writes its destination later. -/
def sysFlight (s : State) (is : Iss) (k : FlightKind) (d : Opd) (value : Nat) (lanes : List (Nat × W32)) : Res :=
  .done (sysLaunched s is k d value lanes)

/-- The words RDXV gives the selected lanes; 0 where the slot names no request (R316, R407). -/
def xvWords (s : State) (is : Iss) (g : Guard) (slot reg : Nat) (hi : Bool) : List (Nat × W32) :=
  let r := actOn s (coreOf s is.ref) slot
  let x := r.bind (fun r => gang? s r.gref)
  let val := fun l => match r, x with
    | some r, some x => readXv s r x reg (l + 32 * b2n hi)
    | _, _ => 0
  (selOf is g).map (fun l => (l, BitVec.ofNat 32 (val l)))

def execRdxv (g : Guard) (d slot : Opd) (reg : Nat) (hi : Bool) (s : State) : Out :=
  issue (.rdxv g d slot reg hi) s (fun s is => sysFlight s is .sysread d 0 (xvWords s is g (rdU s is slot) reg hi))

/-- The lanes and words that WRXV writes to a trapped gang: valid lanes of a register it has, or predicates (R317). -/
def xvWritten (s : State) (is : Iss) (g : Guard) (x : Gang) (data : Opd) (reg : Nat) (hi : Bool) : List (Nat × W64) :=
  (selOf is g).filterMap (fun l =>
    let t := l + 32 * b2n hi
    let w := rdSrc s is ⟨data, .u32, []⟩ l
    if laneValid x t && decide (t < x.width) && (decide (reg < min x.n 640) || reg == 640) then
      some (t, BitVec.ofNat 64 (if reg = 640 then w % 2 ^ 16 else w))
    else none)

def execWrxv (g : Guard) (slot data : Opd) (reg : Nat) (hi : Bool) (s : State) : Out :=
  issue (.wrxv g slot data reg hi) s (fun s is =>
    let k := rdU s is slot
    match (actOn s (coreOf s is.ref) k).bind (fun r => gang? s r.gref) with
    | none => .done s
    | some x => addWrites s is k reg (xvWritten s is g x data reg hi))

/-- What RDXS reads; 0 where the slot names no request (R316, R407). -/
def xsValue (s : State) (is : Iss) (slot num : Nat) : Nat :=
  let r := actOn s (coreOf s is.ref) slot
  match r, r.bind (fun r => gang? s r.gref) with
  | some r, some x => readXs s r x num
  | _, _ => 0

def execRdxs (d slot : Opd) (num : Nat) (s : State) : Out :=
  issue (.rdxs d slot num) s (fun s is => sysFlight s is .sysread d (xsValue s is (rdU s is slot) num) [])

def execWrxs (slot data : Opd) (num : Nat) (s : State) : Out :=
  issue (.wrxs slot data num) s (fun s is =>
    match writeXsBits num (rdU s is data) with
    | some w => addWrites s is (rdU s is slot) (scalarKey num) [(0, BitVec.ofNat 64 w)]
    | none => .done s)

/-! ### Answers (R319 to R321) -/

/-- Remove a request and apply its write set. The gang may issue again, but for a class-4 notice: there it goes on waiting for the host
(R319). -/
def answerRequest (s : State) (core slot : Nat) (r : Request) : State :=
  let s := r.writes.foldl (fun s p => applyWrite s r.gref p.1 p.2) (dropRequest s core slot)
  modGang s r.gref (fun x => if r.cls = 4 then { x with noticed := false } else { x with trapped := none })

/-- An abandoned request whose slot is named is removed (R321). -/
def dropAbandoned (s : State) (core slot : Nat) : State :=
  if ((requestIn s core slot).map (fun r => r.cancel)).getD false then dropRequest s core slot else s

/-- The state with a request answered by SVRET, from the state its gang's supervisor has released: a notice of class 4 is removed;
any other lets its group go on `adv` words behind the trap, with the acquire of its gang (R319). -/
def returned (s : State) (core slot : Nat) (r : Request) (adv : Nat) : State :=
  let s := answerRequest s core slot r
  if r.cls = 4 then s
  else
    let s := modGang s r.gref (fun x => { x with groups := x.groups.map (fun q =>
      if q.quads = r.quads then { q with pc := (r.pc + 4 * adv) % 2 ^ 57, hdr := q.hdr && adv == 0 } else q) })
    acquire s r.gref .dev

/-- SVRET (R319). -/
def execSvret (slot : Opd) (adv : Nat) (s : State) : Out :=
  issue (.svret slot adv) s (fun s is =>
    let c := coreOf s is.ref
    let k := rdU s is slot
    match actOn s c k with
    | none => .done (dropAbandoned s c k)
    | some r => afterRelease is s (release s is.ref .dev) (fun s => .done (returned s c k r adv)))

/-- The state with a request answered by SVTHROW: the active lanes of its group, or with none its lowest valid lane, throw 0x800D
at the trap, and the code goes to the record (R320). R52 says every active lane of the trapped gang; in a separated gang the lanes of the
trapping group alone throw, as R320 has it: DESIGN CHOICE, notes/assumptions/61. -/
def thrownAt (s : State) (core slot : Nat) (r : Request) (code : Nat) : State :=
  let s := answerRequest s core slot r
  match gang? s r.gref with
  | none => s
  | some x =>
    let active := ((requestGroup x r).map (activeLanes x)).getD []
    let low := ((requestGroup x r).map (groupLanes x)).getD []
    let ls := if active.isEmpty then low.take 1 else active
    throwLanes s r.gref r.pc (ls.map (fun l => (l, 0x800D))) false (some (code % 2 ^ 15))

/-- SVTHROW (R320). -/
def execSvthrow (slot code : Opd) (s : State) : Out :=
  issue (.svthrow slot code) s (fun s is =>
    let c := coreOf s is.ref
    let k := rdU s is slot
    match actOn s c k with
    | none => .done (dropAbandoned s c k)
    | some r => .done (thrownAt s c k r (rdU s is code)))

/-! ### System registers (R322) -/

/-- How RDSYS reads a register: a counter is read as it stands at the end of the cycle (R353). -/
def sysKind (num : Nat) : FlightKind := if 0x800 ≤ num ∧ num < 0xC00 then .ctread num else .sysread

def execRdsys (d : Opd) (num : Nat) (s : State) : Out :=
  issue (.rdsys d num) s (fun s is => sysFlight s is (sysKind num) d (sysRead s is.ref is.gang num) [])

def execWrsys (data : Opd) (num : Nat) (s : State) : Out :=
  issue (.wrsys data num) s (fun s is => .done (sysWriteReg s is.ref num (rdU s is data)))

/-! ### Bank modes (R195 to R197, R323) -/

def modeCode : BankMode → Nat
  | .cache => 0 | .scratch => 1 | .fifo => 2

/-- The crews resident on a core, with the side each has there. -/
def crewsAt (s : State) (core : Nat) : List (Nat × Nat) :=
  s.crews.filterMap (fun p =>
    if p.2.phase = .resident ∧ p.2.core = core then some (p.1, 0)
    else if p.2.phase = .resident ∧ isPair s p.2 ∧ p.2.core + 1 = core then some (p.1, 1)
    else none)

/-- Does a FIFO bank group of one side of a crew take in a bank? -/
def ringOver (side b : Nat) (f : Nat × Fifo) : Bool :=
  f.1 / 32 == side && decide (f.1 % 32 ≤ b) && decide (b < f.1 % 32 + f.2.nb)

/-- Is a bank in FIFO mode, in a group that holds an entry (Table 10-3)? -/
def fifoHolds (s : State) (core b : Nat) : Bool :=
  ((core? s core).map (fun x => bankModeOf x b == 2)).getD false
    && (crewsAt s core).any (fun c => match crew? s c.1 with
      | some cr => cr.fifos.any (fun f => ringOver c.2 b f && !f.2.entries.isEmpty)
      | none => false)

/-- Write back and invalidate what a bank held as cache. Which lines it held is free, but a core without a cache-mode bank holds
none (R193). -/
def flushBank (s : State) (core b : Nat) : State :=
  match core? s core with
  | none => s
  | some x =>
    let last := (List.range 32).all (fun k => k == b || bankModeOf x k != 0)
    let lines := (x.cp.map (fun p => p.1 / 128)).eraseDups
    let gone := lines.filter (fun l =>
      last || (Config.freeValue (s.fresh + (lines.findIdx (fun m => m == l)))).getLsbD 0)
    let s := { s with fresh := s.fresh + lines.length }
    let s := gone.foldl (fun s l => coreLineHome s core l) s
    modCore s core (fun x =>
      { x with cp := x.cp.filter (fun p => !gone.contains (p.1 / 128))
               lostCp := x.lostCp.filter (fun p => !gone.contains p.1) })

/-- Lines beyond what a core's cache-mode banks hold leave the core point; which go is free (R191, R193). -/
def coreTrim (core : Nat) : Nat → State → State
  | 0, s => s
  | n + 1, s =>
    match core? s core with
    | none => s
    | some x =>
      let ls := tabLines x.cp
      if ls.length ≤ cacheLines x then s
      else
        match ls[(Config.freeValue s.fresh).toNat % ls.length]? with
        | some l => coreTrim core n (coreEvict (freshen s) core l)
        | none => s

/-- The scratchpad contents that lie in a bank are discarded. -/
def dropBankBytes (s : State) (core b : Nat) : State :=
  (crewsAt s core).foldl (fun s c =>
    match crew? s c.1 with
    | some cr =>
      let here := fun o => scrBank s cr o == some (core, b)
      modCrew s c.1 (fun cr => { cr with scr := cr.scr.filter (fun p => !here p.1)
                                         lostScr := cr.lostScr.filter (fun p => !here (128 * p.1)) })
    | none => s) s

/-- The marks of a FIFO bank's lines go as it switches (R199). -/
def clearRings (s : State) (core b : Nat) : State :=
  (crewsAt s core).foldl (fun s c =>
    let clear := fun (k : Nat) (q : Fifo) => { q with lost := q.lost.filter (fun l => !(k / 32 == c.2 && k % 32 + l.1 / 128 == b)) }
    modCrew s c.1 (fun cr =>
      { cr with fifos := (Tab.mapVals clear cr.fifos).filter (fun f => !(f.2.entries.isEmpty && f.2.lost.isEmpty)) })) s

/-- A FIFO is empty as a bank of it enters FIFO mode (Table 10-3). -/
def emptyRings (s : State) (core b : Nat) : State :=
  (crewsAt s core).foldl (fun s c => modCrew s c.1 (fun cr => { cr with fifos := cr.fifos.filter (fun f => !ringOver c.2 b f) })) s

/-- Switch one bank (Table 10-3). -/
def switchBank (s : State) (core b mode : Nat) : State :=
  match core? s core with
  | none => s
  | some x =>
    let old := bankModeOf x b
    if old = mode then s
    else
      let s := match old with
        | 0 => flushBank s core b
        | 1 => dropBankBytes s core b
        | _ => clearRings s core b
      let s := if mode = 2 then emptyRings s core b else s
      let s := modCore s core (fun x => { x with modes := BitVec.ofNat 64 (x.modes.toNat - old * 4 ^ b + mode * 4 ^ b) })
      if old = 0 then coreTrim core x.cp.length s else s

/-- The banks that the issuer may switch: its crew's on its core, or for the supervisor all (R323). -/
def ownBanks (s : State) (is : Iss) : BitVec 32 :=
  match crewOf? s is.ref with
  | some cr => (banksOf cr (sideOf s is.ref)).all
  | none => BitVec.allOnes 32

/-- The banks of a mask that are not in a mode yet. -/
def banksLeft (x : Core) (m : BitVec 32) (mode : BankMode) : List Nat := (bankList m).filter (fun b => bankModeOf x b != modeCode mode)

/-- BANKSET (R323): all of its banks or none; BANK_SWITCH_APPLY switches them one by one. -/
def execBankset (mask : Opd) (mode : BankMode) (s : State) : Out :=
  issue (.bankset mask mode) s (fun s is =>
    let c := coreOf s is.ref
    match is.q.waiting, core? s c with
    | .banks [] _, _ => .done (modGroup s is.ref is.grp (fun q => { q with waiting := .none }))
    | .banks _ _, _ => .wait s .sync
    | _, none => .done s
    | _, some x =>
      let m := BitVec.ofNat 32 (rdU s is mask)
      let left := banksLeft x m mode
      if m &&& ~~~(ownBanks s is) != 0#32 then throwAllOrNop s is 0x8007
      else if left.any (fifoHolds s c) then throwAllOrNop s is 0x8007
      else if left.isEmpty then .done s
      else .wait (modGroup s is.ref is.grp (fun q => { q with waiting := .banks left mode })) .sync)

/-! ### Self-test (R324, R394) -/

/-- BIST: an unknown array or pattern and a busy core are answered at once; BIST_COMPLETE ends a test. -/
def execBist (d arr pat : Opd) (s : State) : Out :=
  issue (.bist d arr pat) s (fun s is =>
    let c := coreOf s is.ref
    match is.q.waiting with
    | .bist (some r) => writeScalar (modGroup s is.ref is.grp (fun q => { q with waiting := .none })) is d r.toNat
    | .bist none => .wait s .sync
    | _ =>
      let a := rdU s is arr
      let p := rdU s is pat % 16
      if a > 4 ∨ p > 3 then writeScalar s is d 3
      else if !(crewsAt s c).isEmpty then writeScalar s is d 2
      else
        let s := modCore s c (fun x => { x with bist := some (a, p) })
        .wait (modGroup s is.ref is.grp (fun q => { q with waiting := .bist none })) .sync)

/-! ### Core retirement (R325, R387, R389) -/

/-- The shadow word of a retired core: KIND 0001b, die, physical core. -/
def retiredWord (s : State) (core : Nat) : W32 :=
  let d := dieOf core
  let phys := ((Tab.get Die.reset s.dies d).enabled[core % 160]?).getD 0
  BitVec.ofNat 32 (2 ^ 28 + d * 2 ^ 26 + phys * 2 ^ 18)

/-- Halt every crew of a core (R325), to be saved, and with a crew of a cooperative launch all of the launch: its crews run together or
not at all (R42). -/
def haltCrews (s : State) (core : Nat) : State :=
  let here := (crewsAt s core).filterMap (fun c => crew? s c.1)
  let coop := fun (k : Nat) => ((launch? s k).map (fun l => l.coop)).getD false
  let halts := fun (c : Nat) (cr : Crew) => cr.phase == .resident && ((crewsAt s core).any (fun d => d.1 == c)
    || (coop cr.launch && here.any (fun d => d.launch == cr.launch)))
  { s with crews := Tab.mapVals (fun c cr => if halts c cr then { cr with halting := true } else cr) s.crews }

/-- Retire a core in service: recorded in the shadow while it has room; its crews are halted (R12, R325). -/
def retireCore (s : State) (core : Nat) : State × Nat :=
  let room := decide (s.shadow.length < 256)
  let s := if room then { s with shadow := s.shadow ++ [retiredWord s core], start := { s.start with shchg := true } } else s
  let s := raiseEvent (modCore s core (fun x => { x with retired := true })) 5 core
  (haltCrews s core, if room then 0 else 3)

/-- CORERET: it completes when the crews have been saved. The result for a number that no enabled core has is free. -/
def execCoreret (d core : Opd) (s : State) : Out :=
  issue (.coreret d core) s (fun s is =>
    let n := rdU s is core
    match is.q.waiting with
    | .coreret c r =>
      if (crewsAt s c).isEmpty then writeScalar (modGroup s is.ref is.grp (fun q => { q with waiting := .none })) is d r
      else .wait s .sync
    | _ =>
      if n > 639 then writeScalar s is d 2
      else
        match core? s n with
        | none => writeScalar (freshen s) is d (Config.freeValue s.fresh).toNat
        | some x =>
          if x.retired then writeScalar s is d 1
          else
            let r := retireCore s n
            if (crewsAt r.1 n).isEmpty then writeScalar r.1 is d r.2
            else .wait (modGroup r.1 is.ref is.grp (fun q => { q with waiting := .coreret n r.2 })) .sync)

end Sys2Proof.Machine
end

