-- ==== Sys2Proof/Machine/MemEvents.lean ====
section
/-!
DEFINITION. The events of memory and the engines (the event rows of spec/opcode_table.json from LOAD_DATA_RETURN to
ICINV_COMPLETE, WAITA_POLL, SYS_STORE_COMPLETE and the accesses of the host, of peers and of ECC). An event whose subject is not
there, or is not ready for it, changes nothing.
-/

namespace Sys2Proof.Machine

/-! ### Loads, atomics and the other instructions in flight -/

def flightOf? (s : State) (g : GRef) (id : Nat) : Option (Gang × Flight) :=
  (gang? s g).bind (fun x => (x.flights.find? (fun f => f.id == id)).map (fun f => (x, f)))

/-- An element that throws is taken out of its flight: it writes nothing (R239). -/
def dropElem (s : State) (g : GRef) (id lane : Nat) : State :=
  modGang s g (fun x => pruneMarks (modFlight x id (fun f => { f with elems := f.elems.filter (fun e => e.lane != lane) })))

/-- Is an atomic element applied in a window at H(x) (R224)? Elsewhere it is applied in one go. -/
def windowed (s : State) (g : GRef) (f : Flight) (e : Elem) : Bool :=
  match f.kind, e.place with
  | .atomic _, .phys pa => regionOf pa != .regs && atPoint s (coreOf s g) (pointOf (gangPair s g) f.scope) == .home
  | _, _ => false

/-- Is the place of an element inside a window that another atomic holds open? -/
def windowHeld (s : State) (g : GRef) (f : Flight) (e : Elem) : Bool :=
  match f.kind, e.place with
  | .atomic _, .phys pa =>
    atPoint s (coreOf s g) (pointOf (gangPair s g) f.scope) != .core && inWindow s pa f.size.bytes
  | _, _ => false

/-- The scratchpad bank of an element has left scratchpad mode (R197). -/
def bankGone (s : State) (g : GRef) (e : Elem) : Bool :=
  match e.place, crewOf? s g with
  | .scr o, some cr => !scrMode s cr o
  | _, _ => false

/-- Is a gang on its core? What it has outstanding while it is saved is requested again at its resumption (R43). -/
def onCore (s : State) (g : GRef) : Bool :=
  match g with
  | .sup _ => true
  | .user _ _ => ((crewOf? s g).map (fun cr => cr.phase == .resident)).getD false

/-- Does an element need the way to host or peer memory while it is down (R356, R369)? -/
def cutOff (s : State) (g : GRef) (x : Gang) (f : Flight) (e : Elem) : Bool := cutOffAt s g x f.seq f.scope e.place f.size.bytes

/-- Data of one lane returns: the element is performed, its window opened, or it throws (R197, R199, R356). -/
def laneReturn (g : GRef) (id : Nat) (acc : State × List (Nat × Nat × Nat)) (lane : Nat) : State × List (Nat × Nat × Nat) :=
  match flightOf? acc.1 g id with
  | none => acc
  | some (x, f) =>
    match f.elems.find? (fun e => e.lane == lane) with
    | none => acc
    | some e =>
      if !onCore acc.1 g || e.win.isSome || !elemReady acc.1 g x f e || windowHeld acc.1 g f e then acc
      else if bankGone acc.1 g e || cutOff acc.1 g x f e then (dropElem acc.1 g id lane, acc.2 ++ [(lane, f.pc, 0x8007)])
      else
        let r := if windowed acc.1 g f e then openWindow acc.1 g f e else performElem acc.1 g f e
        if r.2 then (dropElem r.1 g id lane, acc.2 ++ [(lane, f.pc, 0x800B)]) else (r.1, acc.2)

/-- An instruction in flight without memory elements writes its destination and leaves. -/
def finishRead (s : State) (g : GRef) (f : Flight) : State :=
  modGang s g (fun x =>
    let x := match f.dst with
      | .s n => wrS x n f.value.toNat
      | .v n => f.lanes.foldl (fun (x : Gang) (p : Nat × W32) => wrV x n p.1 p.2.toNat) x
      | _ => x
    pruneMarks (lowerK { x with flights := x.flights.filter (fun y => y.id ≠ f.id) } f.ctr))

/-- An RDXV that selects no lane: its counter falls in the next cycle (R345). -/
def laneless (f : Flight) : Bool := match f.dst with | .v _ => f.lanes.isEmpty | _ => false

/-- A load or an atomic whose queue register lost its mapping before its data came: nothing is pushed, and every active lane of its group
throws 0x8007 at the instruction (R122; notes/assumptions/19). -/
def strandedPush (s : State) (g : GRef) (f : Flight) : List (Nat × Nat × Nat) :=
  match f.dst with
  | .q n =>
    if qcfgUsable s g (qCfg s g n) then []
    else ((List.range 64).filter (fun l => f.active.getLsbD l)).map (fun l => (l, f.pc, 0x8007))
  | _ => []

/-- What of a flight ends before its entry can be pushed: path 2 once every lane's access has been performed at its bank, and the counter of
a load that selects no lane in the cycle behind its issue (R345, R347). -/
def lowerEarly (s : State) (g : GRef) (f : Flight) : State :=
  if f.elems.all (fun e => e.done) then
    let ctr := if f.elems.isEmpty then f.ctr else none
    let bank := f.path == some 2
    modGang s g (fun x =>
      let x := lowerK (if bank then lowerPath x 2 f.id else x) ctr
      modFlight x f.id (fun f => { f with ctr := if f.elems.isEmpty then none else f.ctr, path := if bank then none else f.path }))
  else s

/-- A push of a stopped gang that still waits for room is abandoned with its load, which is the next instruction of the groups that issued it
(R56, R400; notes/assumptions/74). -/
def dropPush (s : State) (g : GRef) (f : Flight) : State :=
  modGang s g (fun x =>
    let x := lowerK { x with flights := x.flights.filter (fun y => y.id ≠ f.id)
                             groups := x.groups.map (fun q => if !q.ended && q.quads &&& f.quads != 0#16 then { q with pc := f.pc } else q) } f.ctr
    match f.path with | some p => lowerPath x p f.id | none => x)

/-- A flight whose last element is performed writes its destinations and leaves (R242). -/
def settleFlight (s : State) (g : GRef) (id : Nat) : State :=
  match flightOf? s g id with
  | some (x, f) =>
    match f.kind with
    | .load _ | .atomic _ =>
      if !onCore s g then s
      else if flightReady s g x f then throwMany (finishFlight s g f 0#64) g (strandedPush s g f)
      else if x.stopped.isSome && f.elems.all (fun e => e.done) then dropPush s g f
      else lowerEarly s g f
    | .sysread => if laneless f then finishRead s g f else s
    | _ => s
  | none => s

/-- LOAD_DATA_RETURN: data of some lanes of a load or atomic arrives. -/
def execLoadDataReturn (g : GRef) (op : Nat) (lanes : Mask) (s : State) : Out :=
  let r := ((List.range 64).filter (fun l => lanes.getLsbD l)).foldl (laneReturn g op) (s, [])
  .next (throwMany (settleFlight r.1 g op) g r.2)

/-- The state with the write of a DEV atomic applied, its window closed and its element performed; `v` is what it read. -/
def windowClosedAt (s : State) (g : GRef) (f : Flight) (e : Elem) (a : AtomOp) (v : Nat) : State :=
  let s := match e.place with
    | .phys pa => raceGang s g f.pc pa f.scope true true
    | _ => s
  let s := atomWrite s g f.scope e.place f.size.bytes (atomValue a (8 * f.size.bytes) v e.data e.cmp)
  modGang s g (fun x => pruneMarks (modFlight x f.id (fun f => modElem f e.lane
    (fun e => { e with win := none, done := true, result := v }))))

/-- ATOMIC_COMPLETE: the write of a DEV atomic is applied at H(x), which closes its window (R224). -/
def execAtomicComplete (g : GRef) (op lane : Nat) (s : State) : Out :=
  .next (match flightOf? s g op with
    | none => s
    | some (_, f) =>
      match f.elems.find? (fun e => e.lane == lane), f.kind with
      | some e, .atomic a =>
        match e.win with
        | none => s
        | some v => settleFlight (windowClosedAt s g f e a v) g op
      | _, _ => s)

/-- The lanes of a register of the backing store that have nothing on the spill path (R114). -/
def homedLanes (x : Gang) (reg : Nat) : List Nat := (laneIds x).filter (fun l => !x.unhomed.contains (64 * reg + l))

/-- The lanes of them whose word lies on a line that is lost to the core (R115, R199). -/
def spillLost (s : State) (c : Nat) (x : Gang) (reg : Nat) : Mask :=
  BitVec.ofNat 64 (maskOf ((homedLanes x reg).filter (fun l => lostAt s c .core (spillAddr x (64 * reg + l)))))

/-- Words of the backing store reach a gang: by its core's banks in cache mode, or without any from level two (R115). -/
def spillFetched (s : State) (g : GRef) (x : Gang) (reg : Nat) : State :=
  let c := coreOf s g
  let s := countSpill s c (((homedLanes x reg).map (fun l => spillAddr x (64 * reg + l) / 128)).eraseDups)
  (homedLanes x reg).foldl (fun s l =>
    let r := spillWord s c (spillAddr x (64 * reg + l))
    modGang r.1 g (fun x => { x with v := Tab.set 0#32 x.v (64 * reg + l) r.2 })) s

/-- SPILL_READ_RETURN: an operand of the backing store arrives for the gang's next instruction; `bad` lanes are uncorrectable
(R115, counter 0x80E). -/
def execSpillReadReturn (g : GRef) (reg : Nat) (bad : Mask) (s : State) : Out :=
  .next (match gang? s g with
    | none => s
    | some x =>
      if x.vbound - x.vbase ≤ reg ∧ reg < x.n ∧ !x.spilled.any (fun e => e.1 == reg) then
        let mask := (bad ||| spillLost s (coreOf s g) x reg) &&& BitVec.ofNat 64 (maskOf (homedLanes x reg))
        modGang (spillFetched s g x reg) g (fun x => { x with spilled := x.spilled ++ [(reg, some mask)] })
      else s)

/-- SYSREAD_COMPLETE: RDXV, RDXS or RDSYS writes its destination (R345). -/
def execSysreadComplete (g : GRef) (op : Nat) (s : State) : Out :=
  .next (match flightOf? s g op with
    | some (_, f) => if f.kind = .sysread then finishRead s g f else s
    | none => s)

/-- The fence status word (Table 11-5). -/
def fenceWord (a : FailAcc) : Nat :=
  b2n (a.count != 0) + 2 * b2n a.table + 4 * b2n a.host + 8 * b2n a.link + 2 ^ 8 * a.first + 2 ^ 16 * a.count

/-- What a fence's release asks for: FENCE.GANG waits for no drain (R218). -/
def fenceRelease (s : State) (g : GRef) (x : Gang) (f : Flight) : Option (State × List (Nat × Nat × Nat)) :=
  match f.scope with
  | .gang => if loadsPerformed x f.seq then some (s, []) else none
  | sc => releaseTo s g sc f.seq f.born

/-- The state with a fence at its end, whose release has been made: its status word written, the accumulator cleared, the acquire
made. -/
def fenceEnded (s : State) (g : GRef) (f : Flight) : State :=
  let w := fenceWord (((gang? s g).map (fun x => x.fail)).getD FailAcc.zero)
  let s := finishRead s g { f with value := BitVec.ofNat 64 w }
  acquire (modGang s g (fun x => { x with fail := FailAcc.zero })) g f.scope

/-- FENCE_COMPLETE: once its release is complete, the status word is written, the accumulator cleared and the acquire made. -/
def execFenceComplete (g : GRef) (op : Nat) (s : State) : Out :=
  .next (match flightOf? s g op with
    | some (x, f) =>
      if f.kind ≠ .fence then s
      else
        match fenceRelease s g x f with
        | none => s
        | some (s, t :: ts) => throwMany s g (t :: ts)
        | some (s, []) => fenceEnded s g f
    | none => s)

/-! ### Stores -/

/-- The entries of an instruction of which one may leave now: no earlier one of the instruction lies on their bytes (R212, R221). -/
def drainChoices (s : State) (g : GRef) (x : Gang) (seq : Nat) : List StoreEnt :=
  let own := x.buf.filter (fun e => e.seq == seq)
  (own.zipIdx.filter (fun e => drainable s g x e.1
    && !(own.take e.2).any (fun o => overlaps o.place o.bytes.length e.1.place e.1.bytes.length))).map (fun e => e.1)

/-- BUF_DRAIN: one entry of an instruction leaves the scope buffer; its lanes are unordered, so which is free (R212, R221). -/
def execBufDrain (g : GRef) (seq : Nat) (s : State) : Out :=
  .next (match gang? s g with
    | none => s
    | some x =>
      let es := drainChoices s g x seq
      match es[if es.length = 1 then 0 else (Config.freeValue s.fresh).toNat % es.length]? with
      | none => s
      | some e =>
        let r := drainEntry (if es.length = 1 then s else freshen s) g e
        throwMany r.1 g r.2)

/-- SYS_STORE_COMPLETE: a store on its way to host or peer memory reaches Y(x) or fails (R212, R220). -/
def execSysStoreComplete (g : GRef) (seq : Nat) (s : State) : Out :=
  .next (match (gang? s g).bind (fun x => x.sysq.find? (fun e => e.seq == seq)) with
    | some e => sysArrive s g e
    | none => s)

/-! ### Copies of lines (R199, R204, R214) -/

/-- Can a line be read or written back over its port or link now? -/
def reachable (s : State) (pa : Nat) : Bool := (wayDown s pa).isNone

/-- Has a gang of a core written a word of the backing store that has not gone to the spill path yet? -/
def spillPending (s : State) (c pa : Nat) : Bool :=
  (gangsOn s c).any (fun g => ((gang? s g).map (fun x => x.unhomed.any (fun k => spillAddr x k / 4 == pa / 4))).getD false)

/-- CORE_WRITE_BACK: a dirty byte, with those of its element, from a core point to H or from a home point to Y (R209, R214); a word of the
backing store onto the spill path (R115); or a line of level two to its channel (R204). -/
def execCoreWriteBack (core : Option Nat) (pa : Nat) (s : State) : Out :=
  .next (match core with
    | some c =>
      if spillPending s c pa then spillsHome s c (fun a => a / 4 == pa / 4)
      else if ((coreCopy? s c pa).map (fun v => v.dirty)).getD false then coreWriteBack (countHome s c pa) c pa
      else s
    | none =>
      if homeIsMem s pa then l2WriteBack s (pa / 128)
      else if reachable s pa then homeWriteBack s pa else s)

/-- COPY_DISCARD: a clean byte goes from a core point or a home point (R214); or a clean line leaves level two. -/
def execCopyDiscard (core : Option Nat) (pa : Nat) (s : State) : Out :=
  let keep := fun p : Nat × Copied => p.2.dirty || p.1 != pa
  .next (match core with
    | some c => modCore s c (fun x => { x with cp := x.cp.filter keep })
    | none =>
      let s := if ((Tab.find? s.l2 (pa / 128)).map (fun l => l.dirty)).getD true then s else l2Evict s (pa / 128)
      let s := { s with hcopy := s.hcopy.filter keep }
      if farZero s (pa / 128) then s else setZeroFar s (pa / 128) false)

/-- Is a line of an address one that copies may be made of: memory, not registers or nothing? -/
def copyable (s : State) (pa : Nat) : Bool :=
  match regionOf pa with
  | .regs | .reserved => false
  | _ => reachable s pa

/-- COPY_FETCH: a clean copy of a byte that has none, into its home point, or into a core point from there (R214). -/
def execCopyFetch (core : Option Nat) (pa : Nat) (s : State) : Out :=
  .next (if !copyable s pa then s
    else
      match core with
      | some c => if atPoint s c .core = .core ∧ coreCopy? s c pa = none then coreFill (homeFill s pa [pa]) c pa [pa] else s
      | none => homeFill s pa [pa])

/-- A line marked lost at its home point: event class 4 (R199, R204). -/
def markLost (s : State) (pa : Nat) : State :=
  raiseEvent { s with lost := Tab.put s.lost (pa / 128) (BitVec.allOnes 128) } 4 (pa / 128 * 128)

/-- The lines that a word of a channel's zero map covers: GDDR-7 lines, all of one channel of one die (R204). -/
def mapLines (ls : List Nat) : List Nat :=
  match ls with
  | [] => []
  | l :: _ => ls.filter (fun k => regionOf (128 * k) == .gddr && homeDie (128 * k) == homeDie (128 * l)
      && channelOf (128 * k) == channelOf (128 * l))

/-- How many banks the ring at a key spans: as its entries were pushed, or without entries as the crew's queue registers name it. -/
def ringBanks (cr : Crew) (key : Nat) : Nat :=
  let q := Tab.get Fifo.empty cr.fifos key
  if q.entries.isEmpty then
    ((List.range 8).filterMap (fun n =>
      let b := qcfgBanks (qcfgOf cr n)
      if b.1 = key % 32 then some b.2 else none)).foldl max 1
  else q.nb

/-- Is the first bank of a ring the crew's and in FIFO mode? -/
def ringInUse (s : State) (cr : Crew) (key : Nat) : Bool :=
  (banksOf cr (key / 32)).all.getLsbD (key % 32) && ((core? s (cr.core + key / 32)).map (fun x => bankModeOf x (key % 32) == 2)).getD false

/-- ECC_UNCORRECTABLE, by where the error lies (R199, R200, R204). A clean line is fetched again and nobody sees it. -/
def execEccUncorrectable (site : EccSite) (s : State) : Out :=
  .next (match site with
    | .memLine pa => markLost s pa
    | .mapWord ls => (mapLines ls).foldl (fun s l => markLost s (128 * l)) s
    | .codeLine c pa => modCore s c (fun x => { x with icache := Tab.upd x.icache (pa / 128) (fun l => { l with bad := true }) })
    | .cacheLine c pa =>
      let held := ((core? s c).map (fun x => x.cp.filter (fun p => p.1 / 128 == pa / 128))).getD []
      if held.isEmpty then s
      else if held.any (fun p => p.2.dirty) then
        raiseEvent (modCore s c (fun x => { x with lostCp := Tab.put x.lostCp (pa / 128) (BitVec.allOnes 128) })) 4
          (pa / 128 * 128)
      else modCore s c (fun x => { x with cp := x.cp.filter (fun p => p.1 / 128 != pa / 128) })
    | .scratchLine c off =>
      match crew? s c with
      | some cr =>
        if scrMode s cr off then
          modCrew s c (fun cr => { cr with lostScr := Tab.put cr.lostScr (off / 128) (BitVec.allOnes 128) })
        else s
      | none => s
    | .fifoLine c key line =>
      match crew? s c with
      | some cr =>
        if line < 128 * ringBanks cr key && ringInUse s cr key then
          let q := Tab.get Fifo.empty cr.fifos key
          modCrew s c (fun cr =>
            { cr with fifos := Tab.set Fifo.empty cr.fifos key { q with lost := Tab.put q.lost line (BitVec.allOnes 128) } })
        else s
      | none => s)

/-! ### The engines (R267, R284, R285, R289) -/

def copyAt? (s : State) (core idx : Nat) : Option CopyCmd := (core? s core).bind (fun x => x.copyQ[idx]?)

/-- COPY_SEGMENT_START: one of the commands that may start a segment now does; which of them is free (R267). -/
def execCopySegmentStart (core : Nat) (s : State) : Out :=
  .next (match core? s core with
    | none => s
    | some x =>
      let is := startable x.copyQ
      match is[(Config.freeValue s.fresh).toNat % is.length]? with
      | none => s
      | some i =>
        modCore (freshen s) core (fun x => { x with copyQ := x.copyQ.modify i (fun m => { m with segs := m.segs + 1 }) }))

/-- COPY_PIECE_WRITTEN: what of one piece of a started segment can be moved (R226, R285). -/
def execCopyPieceWritten (core idx piece : Nat) (s : State) : Out :=
  .next (match copyAt? s core idx with
    | some m => if pieceOpen m piece then copyPiece s core idx m piece else s
    | none => s)

/-- COPY_COMPLETE: every piece is written (R284). -/
def execCopyComplete (core idx : Nat) (s : State) : Out :=
  .next (match copyAt? s core idx with
    | some m => if (List.range (copyPieces m)).all m.done.contains then copyDone s core idx m else s
    | none => s)

def execMatrixCommandStart (core : Nat) (s : State) : Out := .next (startMx s core)
def execMatrixCommandComplete (core : Nat) (s : State) : Out := .next (endMx s core)

/-! ### Bank switches, PERSIST, ICINV.DEV (R197, R247, R253) -/

/-- The scratchpad ranges of its crew that a copy command names. -/
def copyRanges (m : CopyCmd) : List (Nat × Nat) :=
  let r := cutRec m.rc
  let dense := (m.off, copyTotal m)
  match m.kind with
  | .msel fw src dst sa sm =>
    let w := (aFmt fw.toNat).bits
    [(src, 64 * w * 64), (dst, 32 * w * 64), (sm, 4096)] ++ (if (aFmt fw.toNat).scale then [(sa, 1024)] else [])
  | .indexed list =>
    [dense, (list, 4 * m.count)] ++ (if r.spad then (List.range r.extent).map (fun i => (recAddr r i, r.esz)) else [])
  | _ => dense :: (if r.spad then (List.range m.count).map (fun i => (recAddr r (m.first + i), r.esz)) else [])

/-- The scratchpad ranges of its crew that a matrix command names. -/
def mxRanges (m : MxCmd) : List (Nat × Nat) :=
  match m.kind with
  | .accdr off tgt => [(off, 4096 * (tgt.width / 8))]
  | k => mxReads k

/-- Does a range of a crew's scratchpad lie in a bank, in part? -/
def rangeInBank (s : State) (c : Nat) (core b : Nat) (r : Nat × Nat) : Bool :=
  match crew? s c with
  | some cr => decide (0 < r.2) && (List.range ((r.1 + r.2 - 1) / 128 - r.1 / 128 + 1)).any (fun i =>
      scrBank s cr (128 * (r.1 / 128 + i)) == some (core, b))
  | none => false

/-- Does an engine command of the core name a bank (R197)? A multicast names the banks of the crews that it is delivered to. -/
def engineNames (s : State) (core b : Nat) : Bool :=
  match core? s core with
  | none => false
  | some x =>
    x.copyQ.any (fun m =>
      let crews := match m.kind with
        | .multicast mask => (mcTargets s core (((crew? s m.crew).map (fun (cr : Crew) => cr.launch)).getD 0) mask).map (fun (t : Nat × Nat) => t.2)
        | _ => [m.crew]
      crews.any (fun c => (copyRanges m).any (rangeInBank s c core b)))
    || x.mxQ.any (fun m => (mxRanges m).any (rangeInBank s m.crew core b))

/-- The group of a gang that waits to switch a bank, and to which mode. -/
def switching (s : State) (g : GRef) (bank : Nat) : Option BankMode :=
  (gang? s g).bind (fun x => x.groups.findSome? (fun q => match q.waiting with
    | .banks left m => if left.contains bank then some m else none
    | _ => none))

/-- The state with a bank switched and struck from the list of the group that waits. -/
def bankSwitched (s : State) (g : GRef) (bank : Nat) (mode : BankMode) : State :=
  modGang (switchBank s (coreOf s g) bank (modeCode mode)) g (fun x => { x with groups := x.groups.map (fun r =>
    match r.waiting with
    | .banks left m => { r with waiting := .banks (left.filter (fun b => b != bank)) m }
    | _ => r) })

/-- BANK_SWITCH_APPLY: one bank that a BANKSET of the gang names switches, once every engine command that names it has
finished with it (R197), and the entries that a FIFO bank holds have been popped: DESIGN CHOICE, notes/assumptions/75. -/
def execBankSwitchApply (g : GRef) (bank : Nat) (s : State) : Out :=
  .next (match switching s g bank with
    | none => s
    | some mode => if engineNames s (coreOf s g) bank || fifoHolds s (coreOf s g) bank then s else bankSwitched s g bank mode)

/-- The issue number of the PERSIST of a gang that is in progress. -/
def persistOf (x : Gang) : Option Nat := (x.groups.flatMap (fun q => q.persists)).head?

/-- The lines of the ICINV.DEV of a gang that is in progress. -/
def icinvOf (x : Gang) : Option (List (Nat × Nat)) := x.groups.findSome? (fun q => match q.waiting with
  | .icinv rs false => some rs
  | _ => none)

/-- A PERSIST of a gang is complete. -/
def persisted (s : State) (g : GRef) (n : Nat) : State :=
  modGang s g (fun x => { x with groups := x.groups.map (fun q => { q with persists := q.persists.filter (fun m => m != n) }) })

/-- A wait of a gang's groups replaced by another. -/
def waitDone (s : State) (g : GRef) (was now : Waiting) : State :=
  modGang s g (fun x => { x with groups := x.groups.map (fun q => if q.waiting = was then { q with waiting := now } else q) })

/-- PERSIST_COMPLETE: the host has acknowledged; the release at SYS is complete and durable (R206, R247). -/
def execPersistComplete (g : GRef) (s : State) : Out :=
  .next (match (gang? s g).bind persistOf with
    | none => s
    | some n =>
      match releaseTo s g .sys n s.cycle.toNat with
      | none => s
      | some (s, ts) => throwMany (persisted s g n) g ts)

/-- ICINV_COMPLETE: released at DEV, and every core has invalidated the lines (R232, R253). -/
def execIcinvComplete (g : GRef) (s : State) : Out :=
  .next (match (gang? s g).bind icinvOf with
    | none => s
    | some rs =>
      match release s g .dev with
      | none => s
      | some (s, ts) =>
        let s := { s with cores := Tab.mapVals (fun _ c => dropLines rs c) s.cores }
        throwMany (waitDone s g (.icinv rs false) (.icinv rs true)) g ts)

/-- WAITA_POLL: a WAITA without a watch entry is to load its word again (R248). -/
def execWaitaPoll (g : GRef) (grp : Nat) (s : State) : Out :=
  .next (modGroup s g grp (fun q =>
    { q with watch := q.watch.map (fun w => if w.held then w else { w with due := true }) }))

/-! ### The host and peers (R206, R214, R234, R257, R358, R359) -/

/-- A line of the host's leaves its home point, its dirty bytes written back first. Core points are not coherent with the host and
keep their copies (R206, R214). -/
def snoopLine (s : State) (pa : Nat) : State := farDrop ((lineAddrs pa).foldl homeWriteBack s) (pa / 128)

/-- The lines that a range of bytes touches. -/
def linesTouched (pa n : Nat) : List Nat := (List.range ((pa + n - 1) / 128 - pa / 128 + 1)).map (fun i => pa / 128 + i)

/-- An access of the host or a peer crosses its port (0x900 to 0x903), `out` for a read, and meets device memory at the home slices
(R206, R351). -/
def outerAccess (s : State) (port pa n : Nat) (out : Bool) : State :=
  (linesTouched pa (max 1 n)).foldl (fun s l =>
    let s := countWire s port out
    if !isDeviceMem (128 * l) then s
    else
      let s := countSlice s (128 * l)
      if out && homeIsMem s (128 * l) then l2Fill s l else s) s

/-- The lines of a range leave their home points as the host takes them. -/
def snoopRange (s : State) (pa n : Nat) : State := (linesTouched pa (max 1 n)).foldl (fun s l => snoopLine s (128 * l)) s

/-- Bytes written at Y(x) by the host or a peer. -/
def sysWriteFrom (s : State) (pa : Nat) (bs : List Byte) : State := (bs.zipIdx).foldl (fun s p => sysWrite s (pa + p.2) p.1) s

/-- Record a host copy of a line in the directory of its home slice; a full one evicts its oldest entry (R358). -/
def recordHost (s : State) (line : Nat) : State :=
  if s.hostDir.contains line then s
  else
    let own := s.hostDir.filter (fun l => homeSlice (128 * l) == homeSlice (128 * line))
    let dir := match own with
      | old :: _ => if own.length ≥ 16384 then s.hostDir.filter (fun l => l != old) else s.hostDir
      | [] => s.hostDir
    { s with hostDir := dir ++ [line] }

/-- Is an address of the host's own memory, or of a block that it owns (R359)? -/
def hostHolds (s : State) (pa : Nat) : Bool := regionOf pa == .host || (isDeviceMem pa && !homeIsMem s pa)

/-- HOST_SNOOP: the host takes a line of its memory that the device holds and, with bytes, writes it; tail reads and WAITAs of the line
follow (R248, R257). A block that it owns is held as its memory is (R359). -/
def execHostSnoop (pa : Nat) (write : List Byte) (s : State) : Out :=
  .next (if !hostHolds s pa || s.hostPortDown then s
    else sysWriteFrom (snoopRange (countWire s 0x900 false) pa write.length) pa write)

/-- Is the device stopped: every clock by the thermal trip (R16, R396), or by a start that has failed (R385)? -/
def deviceStopped (s : State) : Bool := s.stoppedClock || s.start.state == 2

/-- Does a physical address lie in START, the one register that a stopped device takes (notes/assumptions/54)? -/
def inStart (pa : Nat) : Bool := pa / 16 == (regBase + 0x9000) / 16

/-- HOST_MEM_ACCESS: a host access to device memory or to the register block, judged by the HOST field (R334, R358, R359). A
write of the host's own keeps the record of its copy. In a stopped device the host reaches only the register that starts it again (R16,
R385; notes/assumptions/54). -/
def execHostMemAccess (pa ctx : Nat) (write : Option (List Byte)) (len : Nat) (s : State) : Out :=
  let k := if write.isSome then AKind.write else AKind.read
  .next (if s.hostPortDown || (refusalOf s .host ctx pa k).isSome || (deviceStopped s && !inStart pa) then s
    else
      let s := outerAccess s 0x900 pa ((write.map (fun bs => bs.length)).getD len) write.isNone
      match regionOf pa, write with
      | .regs, some bs => regWrite s true pa bs
      | .regs, none => (regRead s pa len).1
      | .gddr, w | .lpddr, w =>
        if s.hostOwned.contains (pa / 4096) then
          match w with
          | some bs => sysWriteFrom (snoopRange s pa bs.length) pa bs
          | none =>
            let s := snoopRange s pa len
            if s.ownreq.dir ∧ s.ownreq.marked = some (pa / 4096) then (linesTouched pa (max 1 len)).foldl recordHost s else s
        else
          match w with
          | some bs =>
            let dir := s.hostDir
            { homeWriteN s pa bs with hostDir := dir }
          | none => (linesTouched pa (max 1 len)).foldl recordHost s
      | _, _ => s)

/-- Bytes that a peer writes to its own memory: Y(x) takes them, and those who poll it see them (R210, R248). -/
def peerOwnWrite (s : State) (pa : Nat) (bs : List Byte) : State :=
  bs.zipIdx.foldl (fun s p => fireWatch { s with mem := s.mem.write (pa + p.2) p.1 } ((pa + p.2) / 128) false) s

/-- PEER_MEM_ACCESS: an access from another module, judged by the PEER field and performed at the system point (R234), which for a block
that the host owns lies behind the home point's copies (R359); or a write that a peer makes to its own memory, at Y(x) of this module's
window on it, where the copies at H(x) stay as they are (R210, Table 11-2). -/
def execPeerMemAccess (pa ctx : Nat) (write : Option (List Byte)) (len : Nat) (s : State) : Out :=
  let k := if write.isSome then AKind.write else AKind.read
  .next (if len = 0 ∧ write = none then s
    else if regionOf pa = .peer then peerOwnWrite s pa (write.getD [])
    else if !isDeviceMem pa || (refusalOf s .peer ctx pa k).isSome then s
    else
      let s := outerAccess s 0x902 pa ((write.map (fun bs => bs.length)).getD len) write.isNone
      match write with
      | some bs => sysWriteFrom ((List.range bs.length).foldl (fun s i => homeWriteBack s (pa + i)) s) pa bs
      | none => (List.range len).foldl (fun s i => homeWriteBack s (pa + i)) s)

/-- BACK_INVALIDATE_RESPONSE: the host gives up a line it held; its dirty bytes come to H first (R358). -/
def execBackInvalidateResponse (pa : Nat) (dirty : Option (List Byte)) (s : State) : Out :=
  .next (if s.hostDir.contains (pa / 128) then
      let s := countWire s 0x900 false
      let s := match dirty with
        | some bs => homeWriteN s (pa / 128 * 128) (bs.take 128)
        | none => s
      { s with hostDir := s.hostDir.filter (fun l => l != pa / 128) }
    else s)

end Sys2Proof.Machine
end

