-- ==== Sys2Proof/Machine/Unwinding.lean ====
section
/-!
DEFINITION. What an unwind does once its members have stopped (spec/03_unwinding.md R56 to R66; the merged record of
spec/16_tables.md R340 to R343): cancel, release, record, steer; and the end of a launch that no region saves.
-/

namespace Sys2Proof.Machine

/-! ### The merge window (R56, step 1; R59) -/

/-- The crews of an unwind's group, by table number. -/
def crewsOf (s : State) (u : Unwind) : List Nat :=
  if u.level ≤ 1 then [u.crew] else (s.crews.filter (fun p => p.2.launch == u.launch && p.2.phase != .ended)).map (fun p => p.1)

/-- Is every crew of the group on its cores, and not about to be saved? Steps 3 to 5 of a saved crew wait for its resumption (R47). -/
def crewsHere (s : State) (u : Unwind) : Bool :=
  (crewsOf s u).all (fun c => ((crew? s c).map (fun cr => cr.phase == .resident && !cr.halting)).getD true)

/-- Does an unwind stop the crews of other modules too (R370)? -/
def spanWide (s : State) (u : Unwind) : Bool :=
  decide (2 ≤ u.level) && ((launch? s u.launch).map (fun l => l.span.isSome)).getD false

/-- Has every member stopped: every load has completed or been abandoned, and every crew is resident? A member that an earlier unwind
still holds has not, nor have the members on other modules of a span until they have told of it (R370). -/
def windowDone (s : State) (k : Nat) (u : Unwind) : Bool :=
  crewsHere s u && (!spanWide s u || u.heard)
    && (membersOf s u).all (fun g => ((gang? s g).map (fun x =>
      x.ended.isSome || (x.stopped == some k && x.flights.isEmpty))).getD true)

/-- At the end of a cycle a member's request, and its loads that wait on pages, are abandoned: those too that it made in the cycle of
the first throw (R56, step 1). -/
def stopAgain (k : Nat) (s : State) (g : GRef) : State :=
  match gang? s g with
  | some x => if x.ended.isNone && x.stopped == some k then abandonLoads (abandonRequest s g) g else s
  | none => s

/-- The scratchpad stores of a gang whose bank has left scratchpad mode: they throw while the window is open (R197, R59). -/
def goneStores (s : State) (g : GRef) : State :=
  match gang? s g, crewOf? s g with
  | some x, some cr =>
    (x.buf.filter (fun e => match e.place with | .scr o => !scrMode s cr o | _ => false)).foldl (fun s e =>
      let r := drainEntry s g e
      throwMany r.1 g r.2) s
  | _, _ => s

/-- The end of a cycle for one unwind: its members stop, and with the last of them its merge window closes (R59). -/
def settleUnwind (s : State) (k : Nat) : State :=
  match Tab.find? s.unwinds k with
  | none => s
  | some u =>
    if u.closed then s
    else
      let s := (membersOf s u).foldl goneStores ((membersOf s u).foldl (stopAgain k) s)
      match Tab.find? s.unwinds k with
      | none => s
      | some u => if windowDone s k u then { s with unwinds := Tab.put s.unwinds k { u with closed := true } } else s

/-! ### Cancel (R57, Table 3-3) -/

/-- The cores of a crew. -/
def crewCores (s : State) (c : Nat) : List Nat :=
  match crew? s c with
  | some cr => if isPair s cr then [cr.core, cr.core + 1] else [cr.core]
  | none => []

/-- Is a gang of a crew in the group? -/
def inUnwind (u : Unwind) (c n : Nat) (crews : List Nat) : Bool :=
  if u.level = 0 then c == u.crew && n == u.gang else crews.contains c

/-- A member's transactions and page requests end: its open body as by OTEND, once its stores to the tiles are at H, its tickets
withdrawn. The flag tells whether no body holds its grants any more. -/
def cancelTransactions (s : State) (c n : Nat) : State × Bool :=
  let g := GRef.user c n
  let s := breakBody s g
  let s := ((gang? s g).map (fun x => x.tickets)).getD [] |>.foldl (fun s t => withdrawTicket s c n t.op) s
  let s := match crew? s c with
    | some cr => cr.ops.foldl (fun s e =>
        if e.2.kind = .pagereq ∧ e.2.gang = n ∧ e.2.st = .unresolved then cancelPagereq s c (tokenOf e.1 e.2.gen) else s) s
    | none => s
  (s, ((gang? s g).map (fun x => x.ending.isEmpty)).getD true)

/-- Barrier counts of a crew set to zero; phases and error flags stay. -/
def zeroBars (s : State) (c : Nat) : State :=
  modCrew s c (fun cr => { cr with bars := Tab.mapVals (fun _ b => { b with arr := 0, byt := 0 }) cr.bars })

/-- The unresolved operations of crews. -/
def openOps (s : State) (cs : List Nat) : List (Nat × Nat) :=
  cs.flatMap (fun c => match crew? s c with
    | some cr => cr.ops.filterMap (fun e => if e.2.st = .unresolved then some (c, tokenOf e.1 e.2.gen) else none)
    | none => [])

/-- Step 2: everything the members have in flight is cancelled; the operations it cancels are noted. The flag tells whether every open
body is closed. -/
def cancelWork (s : State) (k : Nat) (u : Unwind) : State × Bool :=
  let cs := crewsOf s u
  let was := openOps s cs
  let s := cs.foldl (fun s c => (crewCores s c).foldl (fun s core =>
    let n := ((core? s core).map (fun x => x.copyQ.length + x.mxQ.length)).getD 0
    cancelMxAll (cancelCopies s core (fun m => m.crew == c && inUnwind u m.crew m.gang cs) n) core
      (fun m => m.crew == c && inUnwind u m.crew m.gang cs) n) s) s
  let r := (membersOf s u).foldl (fun (acc : State × Bool) g =>
    match g with
    | .user c n =>
      let t := cancelTransactions acc.1 c n
      (modGang t.1 g (fun x => { x with lbar := none }), acc.2 && t.2)
    | .sup _ => acc) (s, true)
  let s := if u.level = 0 then r.1 else cs.foldl zeroBars r.1
  let s := if u.level < 2 then s else modLaunch s u.launch (fun l => { l with lbars := [], spanArr := [] })
  let now := openOps s cs
  let gone := was.filter (fun t => !now.contains t)
  ({ s with unwinds := Tab.upd s.unwinds k (fun u => { u with cancelled := u.cancelled ++ gone }) }, r.2)

/-! ### Release (R56, step 3; Table 3-1) -/

/-- The scope of an unwind for a member. -/
def unwindScope (s : State) (u : Unwind) (g : GRef) : Scope :=
  match u.level with
  | 0 => .gang
  | 1 => crewScope s g
  | _ => if spanWide s u then .sys else .dev

/-- Release every member's stores; none while one of them cannot be drained yet. -/
def releaseMembers (s : State) (u : Unwind) : List GRef → Option (State × List (GRef × (Nat × Nat × Nat)))
  | [] => some (s, [])
  | g :: gs =>
    match release s g (unwindScope s u g) with
    | none => none
    | some r => (releaseMembers r.1 u gs).map (fun t => (t.1, r.2.map (fun e => (g, e)) ++ t.2))

/-! ### The record (R60 to R62, R65, R340 to R342) -/

/-- A throw with what its order depends on. -/
structure Thrown where
  crew : Nat
  lin : Nat
  gang : Nat
  lane : Nat
  code : Nat
  deriving DecidableEq, Repr

/-- The place of a throw in R60's order. -/
def Thrown.rank (t : Thrown) : Nat :=
  (if t.code ≥ 0x8000 then 0 else 1) * 2 ^ 64 + t.lin * 2 ^ 20 + t.gang * 2 ^ 10 + t.lane

def insertThrown (t : Thrown) : List Thrown → List Thrown
  | [] => [t]
  | u :: us => if t.rank < u.rank then t :: u :: us else u :: insertThrown t us

/-- A name, apart from the numbers of this module's crews, of the crew with an index on another module (R370). -/
def remoteCrew (lin : Nat) : Nat := 2 ^ 64 + lin

/-- The throws of an unwind in R60's order, those on other modules of a span among them. -/
def throwsOf (s : State) (u : Unwind) : List Thrown :=
  ((u.throws.map (fun t => Thrown.mk t.1 (((crew? s t.1).map (fun cr => cr.index)).getD 0) t.2.1 t.2.2.1 t.2.2.2))
    ++ u.remote.map (fun t => Thrown.mk (remoteCrew t.1) t.1 t.2.1 t.2.2.1 t.2.2.2)).foldl (fun ts t => insertThrown t ts) []

/-- An entry of the code list (R342). -/
def codeEntry (t : Thrown) : Nat := t.code + t.gang * 2 ^ 16 + t.lane * 2 ^ 24 + t.lin * 2 ^ 32

/-- The code list: earlier entries, then each new code once, up to 24; the flag tells of a twenty-fifth. -/
def codeList (old : List Nat) (ts : List Thrown) (ovf : Bool) : List Nat × Bool :=
  ts.foldl (fun acc t =>
    if acc.1.any (fun e => e % 2 ^ 16 == t.code) then acc
    else if acc.1.length < 24 then (acc.1 ++ [codeEntry t], acc.2) else (acc.1, true)) (old, ovf)

/-- The name under which a record counts the crew of a throw: its linear index, apart from those of other modules. -/
def Thrown.name (t : Thrown) : Nat := if remoteCrew 0 ≤ t.crew then t.crew else t.lin

/-- The parts of a record that are equal in every crew of the group (words 0 to 5, and the code list), and the crews it counts. -/
structure Header where
  w0 : Nat
  w1 : Nat
  w2 : Nat
  w3 : Nat
  codes : List Nat
  threw : List Nat
  deriving DecidableEq, Repr

def wordAt (r : Tab W64) (i : Nat) : Nat := (Tab.get 0#64 r i).toNat

/-- Distinct throwing lanes. -/
def laneCount (ts : List Thrown) : Nat := (ts.map (fun t => (t.crew, t.gang, t.lane))).eraseDups.length

/-- The gangs of a crew that an unwind stops. -/
def stoppedGangs (u : Unwind) (cr : Crew) : List Nat :=
  (cr.gangs.filter (fun p => p.2.ended.isNone && (decide (1 ≤ u.level) || p.1 == u.gang))).map (fun p => p.1)

/-- GMASK, the same in every crew of the group (R61, R340): the gangs stopped in every crew of which a gang was stopped, so that a gang
that had ended in one of them has its bit clear (R56): DESIGN CHOICE, notes/assumptions/62. -/
def gangMask (s : State) (u : Unwind) : Nat :=
  match (((crewsOf s u).filterMap (crew? s)).map (stoppedGangs u)).filter (fun ms => !ms.isEmpty) with
  | [] => 0
  | ms :: rest => maskOf (ms.filter (fun g => rest.all (fun ns => ns.contains g)))

/-- Bits 47:32 of word 3: the supervisor's code where the primary exception is 0x800D (R320). The code of an SVTHROW on another module
is free. -/
def svField (s : State) (u : Unwind) (t : Thrown) : Nat :=
  if t.code ≠ 0x800D then 0
  else if remoteCrew 0 ≤ t.crew then 2 ^ 15 + (Config.freeValue s.fresh).toNat % 2 ^ 15
  else
    match u.svcodes.find? (fun e => e.1 == t.crew && e.2.1 == t.gang) with
    | some e => 2 ^ 15 + e.2.2 % 2 ^ 15
    | none => 0

/-- The header of an unwind's record; a RETHROW keeps an earlier one (R65). -/
def headerOf (s : State) (u : Unwind) (ts : List Thrown) : Header :=
  let old := u.kept.map (fun k => k.rcd)
  let cov := (old.map (fun r => bit (wordAt r 1) 24)).getD false
  let oldCodes := match old with
    | some r => (List.range (bits (wordAt r 2) 39 32)).map (fun j => wordAt r (72 + j))
    | none => []
  let cl := codeList oldCodes ts cov
  let total := min (laneCount ts + ((old.map (fun r => wordAt r 2 % 2 ^ 32)).getD 0)) (2 ^ 32 - 1)
  let threw := (((u.kept.map (fun k => k.threw)).getD []) ++ ts.map Thrown.name).eraseDups
  let place := b2n cl.2 * 2 ^ 24 + u.depth * 2 ^ 20 + u.level * 2 ^ 16 + threw.length * 2 ^ 32
  let head := match old, ts with
    | some r, _ => (wordAt r 0, wordAt r 1 % 2 ^ 16, bits (wordAt r 3) 47 32)
    | none, t :: _ => (t.code + t.lin * 2 ^ 32, t.gang + t.lane * 2 ^ 8, svField s u t)
    | none, [] => (0, 0, 0)
  { w0 := head.1, w1 := place + head.2.1, w2 := total + cl.1.length * 2 ^ 32, w3 := gangMask s u + head.2.2 * 2 ^ 32
    codes := cl.1, threw := threw }

/-- The address of a gang's stop (R62). -/
def stopAddress (u : Unwind) (c : Nat) (x : Gang) : Nat :=
  match u.stops.find? (fun e => e.1 == c && e.2.1 == x.num) with
  | some e => e.2.2
  | none =>
    match x.ended with
    | some pc => pc
    | none =>
      ((x.groups.foldl (fun (best : Option (Nat × Nat)) q =>
        if q.ended then best
        else
          match best with
          | some b => if b.1 ≤ lowQuad q then some b else some (lowQuad q, q.pc)
          | none => some (lowQuad q, q.pc)) none).map (fun b => b.2)).getD 0

/-- A gang's stop entry (Table 16-11). -/
def stopEntry (u : Unwind) (c code : Nat) (x : Gang) : Nat :=
  let threw := u.throws.any (fun t => t.1 == c && t.2.1 == x.num)
  let cfut := maskOf ((List.range 16).filter (fun n => rdF x n != 0 && u.cancelled.contains (c, rdF x n)))
  stopOffset code (stopAddress u c x) + cfut * 2 ^ 32 + b2n threw * 2 ^ 48 + b2n (separated x) * 2 ^ 49
    + b2n x.abandoned * 2 ^ 50 + b2n x.ended.isSome * 2 ^ 51

/-- Write the record of one crew: the header and the code list, and its own lane masks and stop entries. -/
def writeRecord (s : State) (u : Unwind) (h : Header) (ts : List Thrown) (c : Nat) : State :=
  match crew? s c, launch? s u.launch with
  | some cr, some l =>
    let before := (u.kept.bind (fun k => Tab.find? k.areas c)).getD []
    let mask := fun g => Nat.lor (maskOf ((ts.filter (fun t => t.crew == c && t.gang == g)).map (fun t => t.lane))) (wordAt before (8 + g))
    let word := fun i =>
      if i = 0 then h.w0
      else if i = 1 then h.w1
      else if i = 2 then h.w2
      else if i = 3 then h.w3
      else if i = 4 then u.launch
      else if i = 5 then u.cycle
      else if i = 7 then cr.recSeq + 1
      else if 8 ≤ i ∧ i < 40 then mask (i - 8)
      else if 40 ≤ i ∧ i < 72 then ((Tab.find? cr.gangs (i - 40)).map (stopEntry u c l.code)).getD 0
      else if 72 ≤ i then (h.codes[i - 72]?).getD 0
      else 0
    modCrew s c (fun cr =>
      { cr with recSeq := (cr.recSeq + 1) % 2 ^ 64, rcdThrew := h.threw
                rcd := (List.range 96).foldl (fun t i => Tab.set 0#64 t i (BitVec.ofNat 64 (word i))) [] })
  | _, _ => s

/-! ### Steer (R56, step 5) -/

/-- Keep the oldest `d` of the regions of one kind. -/
def keepEntered (b : Bool) (d : Nat) (es : List Bool) : List Bool :=
  (es.reverse.foldl (fun (acc : List Bool × Nat) e =>
    if e == b then (if acc.2 < d then (e :: acc.1, acc.2 + 1) else acc) else (e :: acc.1, acc.2)) ([], 0)).1

/-- A member at the catch: one quad group, every counter zero, the caught region and what was opened inside it closed. Only the depths of
the caught region's own kind are lowered: crew regions that were entered inside a caught launch region stay, and so the other way round
(R56 speaks of "every crew depth or launch depth at or above it"): DESIGN CHOICE, notes/assumptions/63. A fence or a join goes on holding what
is issued behind the catch while a store from before it is on its way (R216). -/
def steerGang (level d pc : Nat) (x : Gang) : Gang :=
  let quads := BitVec.ofNat 16 (2 ^ (x.width / 4) - 1)
  { x with
    groups := [QGroup.start quads pc], cnt := [], k := [], paths := [], stopped := none, trapped := none, trapReq := none, noticed := false
    abandoned := false, lbar := none, marks := x.marks.filter (olderPending x), spilled := []
    stack := (match level with
      | 0 => x.stack.drop 1
      | 1 => x.stack.filter (fun e => decide (e.cd < d))
      | _ => x.stack.filter (fun e => decide (e.ld < d)))
    entered := (match level with
      | 0 => x.entered
      | 1 => keepEntered true (d - 1) x.entered
      | _ => keepEntered false (d - 1) x.entered) }

/-- Every member goes to the catch, with an acquire at the region's scope. -/
def steer (s : State) (u : Unwind) : State :=
  let d := u.depth
  let s := match u.level with
    | 1 => modCrew s u.crew (fun cr => { cr with stack := cr.stack.take (d - 1) })
    | 2 => modLaunch s u.launch (fun l => { l with stack := l.stack.take (d - 1) })
    | _ => s
  let s := (membersOf s u).foldl (fun s g =>
    match gang? s g with
    | some x =>
      if x.ended.isSome then s
      else acquire (modGang s g (steerGang u.level d u.catchPc)) g (unwindScope s u g)
    | none => s) s
  (membersOf s u).head?.elim s (closeRegions s)

/-! ### The end of a launch (R66) -/

/-- Every gang of a launch ends where it stopped. -/
def endGangs (s : State) (launch : Nat) (u : Unwind) : State :=
  let stop := fun (c : Nat) (x : Gang) =>
    if x.ended.isSome then x
    else { x with ended := some (stopAddress u c x), exitRel := false, stopped := none, groups := x.groups.map (fun q => { q with ended := true })
                  stack := [], entered := [] }
  { s with crews := Tab.mapVals (fun c cr =>
      if cr.launch = launch then { cr with gangs := Tab.mapVals (fun _ x => stop c x) cr.gangs } else cr) s.crews }

/-- The crew whose record goes into the completion entry: the lowest-indexed that threw, or with no thrower on this module the
lowest-indexed placed one. -/
def recordCrew (s : State) (u : Unwind) (ts : List Thrown) : Option Nat :=
  let lin := fun c => ((crew? s c).map (fun cr => cr.index)).getD 0
  let own := (ts.map (fun t => t.crew)).filter (fun c => (crew? s c).isSome)
  let cs := if own.isEmpty then crewsOf s u else own
  cs.foldl (fun (best : Option Nat) c =>
    match best with
    | some b => if lin b ≤ lin c then some b else some c
    | none => some c) none

/-- An uncaught exception ends its launch: nothing more is placed, status EXCEPTION, the record kept for the completion
entry (R66). -/
def endLaunch (s : State) (u : Unwind) (ts : List Thrown) : State :=
  let rc := recordCrew s u ts
  let rcd := ((rc.bind (crew? s)).map (fun cr => cr.rcd)).getD []
  let s := modLaunch s u.launch (fun l => { l with status := 2, stopping := true, record := rcd, recCrew := rc.getD 0, event := true })
  endGangs ((membersOf s u).foldl countUnreported s) u.launch u

/-! ### The whole (R56) -/

/-- Each core that holds a member counts the unwind (0x810). -/
def countUnwind (s : State) (u : Unwind) : State :=
  (((membersOf s u).map (coreOf s)).eraseDups).foldl (fun s c => countCore s c 0x810 1) s

/-- Throws met while members' stores are released, each at its own address. -/
def throwEach (s : State) (ts : List (GRef × (Nat × Nat × Nat))) : State :=
  ts.foldl (fun s t => throwMany s t.1 [t.2]) s

/-- Step 4: the record of every crew of the group, the count on its cores, and the unwind is no longer open. -/
def recorded (s : State) (k : Nat) (u : Unwind) : State :=
  let ts := throwsOf s u
  let h := headerOf s u ts
  let s := if u.remote.isEmpty then s else freshen s
  let s := countUnwind ((crewsOf s u).foldl (fun s c => writeRecord s u h ts c) s) u
  { s with unwinds := Tab.erase s.unwinds k }

/-- Steps 4 and 5: the record, then the catch, or the end of a launch that no region saves. -/
def unwound (s : State) (k : Nat) (u : Unwind) : State :=
  if u.level = 3 then endLaunch (recorded s k u) u (throwsOf s u) else steer (recorded s k u) u

/-- Members that have been steered are stopped at the catch, before they issue anything, by the unwinds that began meanwhile and wait for
them (R59). -/
def stopSteered (s : State) : State :=
  (s.unwinds.filter (fun p => !p.2.closed)).foldl (fun s p =>
    let late := (membersOf s p.2).filter (fun g => ((gang? s g).map (fun x => x.stopped.isNone && x.ended.isNone)).getD false)
    late.foldl (stopGang p.1) { s with unwinds := Tab.upd s.unwinds p.1 (fun u => { u with steered := u.steered ++ late }) }) s

/-- UNWIND_COMPLETE: once the window is closed, steps 2 to 5, as soon as every open body and every store can be released. A throw that the
release itself brings (R197) comes behind the window: it begins a new unwind at the catch (R59). -/
def execUnwindComplete (k : Nat) (s : State) : Out :=
  .next (match Tab.find? s.unwinds k with
    | none => s
    | some u =>
      if !u.closed || !crewsHere s u then s
      else
        let r := cancelWork s k u
        match Tab.find? r.1.unwinds k, r.2 with
        | some u, true =>
          (match releaseMembers r.1 u (membersOf r.1 u) with
          | none => r.1
          | some t => throwEach (stopSteered (unwound t.1 k u)) t.2)
        | _, _ => r.1)

/-- A code that an RK480 throws: a software code, or one of Table 3-2 (R53). -/
def thrownCode (v : Nat) : Nat := if v % 0x800D < 0x8000 then v % 0x800D else v % 0x800D + 1

/-- The throws that the exchange between the modules of a span brings: how many from `least` on, and what each is, is free (R370). -/
def remoteThrows (s : State) (least : Nat) : List (Nat × Nat × Nat × Nat) :=
  let f := fun i => (Config.freeValue (s.fresh + 1 + i)).toNat
  (List.range (least + (Config.freeValue s.fresh).toNat % 4096)).map (fun i =>
    (f i % 2 ^ 32, f i / 2 ^ 32 % 32, f i / 2 ^ 37 % 64, thrownCode (f i / 2 ^ 43)))

/-- SPAN_LAUNCH_UNWIND: the exchange between the modules of a span launch that unwinds (R370). It brings the unwind of another module to
this one, or to one that has begun here the throws of the others, which have stopped. -/
def execSpanLaunchUnwind (launch : Nat) (s : State) : Out :=
  .next (match launch? s launch with
    | none => s
    | some l =>
      if l.span.isNone then s
      else
        let t := { s with fresh := s.fresh + 4097 }
        match (s.unwinds.filter (fun p => !p.2.closed && spanWide s p.2 && p.2.launch == launch)).head? with
        | some (k, u) =>
          if u.heard then s
          else { t with unwinds := Tab.put t.unwinds k { u with heard := true, remote := u.remote ++ remoteThrows s 0 } }
        | none =>
          beginUnwind t
            { level := if l.stack.isEmpty then 3 else 2, crew := 0, gang := 0, launch := launch, catchPc := l.stack.getLast?.getD 0
              depth := l.stack.length, throws := [], cycle := s.cycle.toNat, svcodes := [], kept := none, stops := [], cancelled := []
              closed := false, remote := remoteThrows s 1, heard := true, steered := [] })

end Sys2Proof.Machine
end

