-- ==== Sys2Proof/Machine/Distributor.lean ====
section
/-!
DEFINITION. Crews come and go: placement (spec/02_execution.md R22 to R24, R33 to R36; spec/13_queues.md R264), pre-emption and
resumption (R43 to R47, R233, R268), the end of a crew (spec/22_prog_ring.md R401), and the two timers of the issue choice
(R40, spec/25_prog_emulate.md R406). Which free slots, banks, register blocks and backing stores a crew gets is free
(notes/assumptions/30).
-/

namespace Sys2Proof.Machine

/-! ### What is free on a core (Table 2-4) -/

/-- Gangs of a launch's crew that go to side 0 or 1 (R35). -/
def sideGangs (pair : Bool) (n side : Nat) : List Nat :=
  (List.range n).filter (fun g => if pair then g % 2 == side else side == 0)

/-- The gangs placed on a core. -/
def gangsAt (s : State) (core : Nat) : List Gang :=
  (crewsAt s core).flatMap (fun c => match crew? s c.1 with
    | some cr => (cr.gangs.filter (fun p => !isPair s cr || p.1 % 2 == c.2)).map (fun p => p.2)
    | none => [])

/-- Put an interval into a list ordered by first address. -/
def insertGap (a : Nat × Nat) : List (Nat × Nat) → List (Nat × Nat)
  | [] => [a]
  | b :: bs => if a.1 ≤ b.1 then a :: b :: bs else b :: insertGap a bs

/-- What intervals, ordered by first address, leave free between two bounds. -/
def gapsFrom (hi : Nat) : Nat → List (Nat × Nat) → List (Nat × Nat)
  | lo, [] => if lo < hi then [(lo, hi)] else []
  | lo, u :: us => (if lo < u.1 then [(lo, u.1)] else []) ++ gapsFrom hi (max lo u.2) us

def gaps (lo hi : Nat) (used : List (Nat × Nat)) : List (Nat × Nat) := gapsFrom hi lo (used.foldl (fun t a => insertGap a t) [])

/-- The first of the places of a gap where an aligned block fits, and how many places there are. -/
def placesIn (align size : Nat) (g : Nat × Nat) : Option (Nat × Nat) :=
  let a := (g.1 + align - 1) / align * align
  if a + size ≤ g.2 then some (a, (g.2 - size - a) / align + 1) else none

/-- Blocks of one size for `n` owners: each at any of the places left, which is free, or with `pack` at the lowest. -/
def blocksAt (pack : Bool) (k lo hi align size : Nat) : Nat → List (Nat × Nat) → Option (List Nat)
  | 0, _ => some []
  | n + 1, used =>
    let cs := (gaps lo hi used).filterMap (placesIn align size)
    let f := fun (i : Nat) => if pack then 0 else (Config.freeValue (k + 2 * n + i)).toNat
    match cs[f 0 % cs.length]? with
    | some c =>
      let a := c.1 + align * (f 1 % c.2)
      (blocksAt pack k lo hi align size n ((a, a + size) :: used)).map (fun as => a :: as)
    | none => none

/-- Blocks where nothing fixes their places; where a free choice leaves no room for the last of them, they lie packed. -/
def blocksFor (pack : Bool) (k lo hi align size n : Nat) (used : List (Nat × Nat)) : Option (List Nat) :=
  (blocksAt pack k lo hi align size n used).or (blocksAt true k lo hi align size n used)

/-- Does a gang of a crew still hold its slot and registers: it has not ended, or accesses, stores, grants or commands of it are left (R146)? -/
def gangHolds (s : State) (c : Nat) (x : Gang) : Bool :=
  let mine := fun (crew gang : Nat) => crew == c && gang == x.num
  x.ended.isNone || x.exitRel || !x.flights.isEmpty || !x.buf.isEmpty || !x.sysq.isEmpty || !x.ending.isEmpty
    || s.cores.any (fun p => p.2.copyQ.any (fun m => mine m.crew m.gang) || p.2.mxQ.any (fun m => mine m.crew m.gang))

/-- The gangs of a core that hold a slot and registers. -/
def holdersAt (s : State) (core : Nat) : List Gang :=
  (crewsAt s core).flatMap (fun c => match crew? s c.1 with
    | some cr => ((cr.gangs.filter (fun p => !isPair s cr || p.1 % 2 == c.2)).map (fun p => p.2)).filter (gangHolds s c.1)
    | none => [])

/-- The register file's blocks in bytes (R114). -/
def regBlocks (s : State) (core : Nat) : List (Nat × Nat) :=
  (holdersAt s core).map (fun x => (x.vbase * x.width * 4, x.vbound * x.width * 4))

def freeSlots (s : State) (core : Nat) : List Nat :=
  (List.range 47).filter (fun i => !(holdersAt s core).any (fun x => x.slot == i))

def freeBanks (s : State) (core : Nat) : List Nat :=
  (List.range 32).filter (fun b => !(crewsAt s core).any (fun c => match crew? s c.1 with
    | some cr => (banksOf cr c.2).all.getLsbD b
    | none => false))

def launchesAt (s : State) (core : Nat) : List Launch :=
  (crewsAt s core).filterMap (fun c => (crew? s c.1).bind (fun cr => launch? s cr.launch))

def bankMask (bs : List Nat) : BitVec 32 := BitVec.ofNat 32 (maskOf bs)

/-- The `k` lowest banks of a mask. -/
def lowestBanks (k : Nat) (m : BitVec 32) : BitVec 32 := bankMask ((bankList m).take k)

/-- What a crew gets on one core. -/
structure Seat where
  slots : List Nat
  bases : List Nat
  banks : Banks
  deriving DecidableEq, Repr

/-- A seat for the gangs of one side, with `c` physical registers each, if the core has it; `want` gives the banks of a crew
that resumes (R194). -/
def seatOn (s : State) (pack : Bool) (core side : Nat) (l : Launch) (c : Nat) (want : Option Banks) : Option Seat :=
  let n := (sideGangs l.pair l.gangs side).length
  let div := if l.pair then 2 else 1
  let ls := launchesAt s core
  let k := s.fresh + 256 * side
  let slots := (freeOrder k (fun i => i) (freeSlots s core)).take n
  let free := freeBanks s core
  let nb := (l.spb + l.ffb) / div
  let banks : Option Banks := match want with
    | some w => if (bankList w.all).all free.contains then some w else none
    | none =>
      let m := bankMask ((freeOrder (k + 64) (fun i => i) free).take nb)
      if nb ≤ free.length then some ⟨m, lowestBanks (l.spb / div) m⟩ else none
  let u := 4 * l.width
  match banks, blocksFor pack (k + 96) 0 (2 ^ 20) u (c * u) n (regBlocks s core) with
  | some bs, some as =>
    if slots.length = n ∧ (ls.map (fun x => x.bars)).sum + l.bars ≤ 64 ∧ (ls.map (fun x => x.acct)).sum + l.acct ≤ 4 then
      some ⟨slots, as.map (fun a => a / u), bs⟩
    else none
  | _, _ => none

/-- The cores that could hold a crew of a launch: not retired, and for a pair even with a whole partner (R12, R35, R264). A core whose
self-test runs may get a crew, whose banks the end of the test finds as it finds any: DESIGN CHOICE, notes/assumptions/88. -/
def seatable (s : State) (l : Launch) (core : Nat) : Bool :=
  let up := fun c => match core? s c with | some x => !x.retired | none => false
  up core && (!l.pair || (core % 2 == 0 && up (core + 1)))

/-- The largest physical count, a multiple of 8 from P to N, with which the crew fits (R34), and its seats. -/
def seatsWith (s : State) (pack : Bool) (core : Nat) (l : Launch) (want : Option (Banks × Banks)) : List Nat → Option (Nat × List Seat)
  | [] => none
  | c :: cs =>
    match seatOn s pack core 0 l c (want.map (fun w => w.1)) with
    | none => seatsWith s pack core l want cs
    | some a =>
      if !l.pair then some (c, [a])
      else
        match seatOn s pack (core + 1) 1 l c (want.map (fun w => w.2)) with
        | some b => some (c, [a, b])
        | none => seatsWith s pack core l want cs

/-- The physical counts up to a bound, largest first (R34). -/
def physCounts (l : Launch) (cap : Nat) : List Nat :=
  ((List.range ((l.nreg - l.preg) / 8 + 1)).map (fun i => l.nreg - 8 * i)).filter (fun c => decide (c ≤ cap))

def seats (s : State) (pack : Bool) (cap core : Nat) (l : Launch) (want : Option (Banks × Banks)) : Option (Nat × List Seat) :=
  if seatable s l core then seatsWith s pack core l want (physCounts l cap) else none

/-- The backing stores in use (R114). -/
def storesUsed (s : State) : List (Nat × Nat) :=
  s.crews.flatMap (fun p => if p.2.phase = .ended then []
    else p.2.gangs.map (fun x => (x.2.spill, x.2.spill + 4 * x.2.n * x.2.width)))

/-- Backing stores of region 15 for every gang of a crew (R114); none where they find no room. -/
def backing (s : State) (pack : Bool) (l : Launch) : Option (List Nat) :=
  let r := Tab.get (0#64, 0#64) s.regions 15
  if !r.1.getLsbD 0 then none
  else
    blocksFor pack (s.fresh + 512) (bits r.1.toNat 51 16 * 2 ^ 16) ((bits r.2.toNat 51 16 + 1) * 2 ^ 16) 128 (4 * l.nreg * l.width)
      l.gangs (storesUsed s)

/-- A range of device memory zeroed with zero tags, so that no data is written (R114, R203). -/
def zeroRange (s : State) (a n : Nat) : State :=
  let out := fun (b : Nat) => decide (b < a) || decide (a + n ≤ b)
  let s := { s with mem := s.mem.filter (fun p => out p.1), lost := s.lost.filter (fun p => out (128 * p.1)) }
  (List.range (n / 128)).foldl (fun s i => l2Zero (dropHostCopy s (a + 128 * i)) (a / 128 + i)) s

/-! ### Placement (R264) -/

/-- User gangs bound to a core. -/
def boundGangs (s : State) (core : Nat) : Nat := ((gangsAt s core).filter (fun x => x.ended.isNone)).length

/-- Placement cost of a crew on a core (R264). -/
def placeCost (s : State) (l : Launch) (core : Nat) : Nat :=
  if l.acct = 0 then boundGangs s core
  else matrixBacklog s core + 4 * (((launchesAt s core).filter (fun x => decide (0 < x.acct))).map (fun x => x.wprod)).sum

/-- The core of least cost where a crew of the launch fits, the lowest-numbered on a tie. -/
def bestSeat (s : State) (pack : Bool) (cap : Nat) (l : Launch) : Option (Nat × Nat × List Seat) :=
  (s.cores.foldl (fun (best : Option (Nat × Nat × Nat × List Seat)) p =>
    let cost := placeCost s l p.1
    if (match best with | some b => decide (b.1 ≤ cost) | none => false) then best
    else match seats s pack cap p.1 l none with
      | some t => some (cost, p.1, t)
      | none => best) none).map (fun b => b.2)

/-- The pipe with the fewest bound gangs, the lowest-numbered on a tie (R24). -/
def fewest (bound : List Nat) : Nat := ([0, 1, 2, 3].foldl (fun (b : Nat × Nat) p =>
  let n := bound.count p
  if n < b.2 then (p, n) else b) (0, bound.count 0)).1

/-- Pipes for `n` gangs, one after another. -/
def bindPipes (bound : List Nat) : Nat → List Nat
  | 0 => []
  | n + 1 => fewest bound :: bindPipes (fewest bound :: bound) n

def pipesFor (s : State) (core n : Nat) : List Nat :=
  bindPipes (((gangsAt s core).filter (fun x => x.ended.isNone)).map (fun x => x.pipe)) n

/-- b0 and b1 at placement (R119). -/
def record0 (l : Launch) : BitVec 128 :=
  BitVec.ofNat 128 (l.args % 2 ^ 57 + 3 * 2 ^ 61 + 8 * 2 ^ 64 + (l.argsz + 7) / 8 * 2 ^ 96)
def record1 (l : Launch) : BitVec 128 := BitVec.ofNat 128 (2 ^ 57 + 2 ^ 64 + l.spb * 16384 * 2 ^ 96)

/-- A gang at its start (Tables 6-1 and 6-2). -/
def gangStart (l : Launch) (num vbase count spill slot pipe : Nat) : Gang :=
  let quads := BitVec.ofNat 16 (2 ^ (l.width / 4) - 1)
  { num := num, width := l.width, valid := min l.width (l.validN - num * l.width), n := l.nreg, p := l.preg
    vbase := vbase, vbound := vbase + count, spill := spill, slot := slot, pipe := pipe
    v := [], pr := [], cnt := [], s := [], c := 0#16
    b := Tab.set 0#128 (Tab.set 0#128 [] 0 (record0 l)) 1 (record1 l)
    f := [], k := [], paths := [], lr := 0#64, groups := [QGroup.start quads l.code], stack := [], entered := []
    fail := FailAcc.zero, buf := [], sysq := [], flights := [], marks := [], seq := 0, spilled := [], unhomed := [], round := 0
    tickets := [], body := none, ending := [], trapped := none, trapReq := none, noticed := false, stopped := none, halted := false, abandoned := false
    ended := none, exitRel := false, lbar := none }

/-- The gangs of a crew with the seats it got. -/
def gangsOf (s : State) (core : Nat) (l : Launch) (count : Nat) (ss : List Seat) (spills : List Nat) : Tab Gang :=
  (List.range l.gangs).map (fun g =>
    let side := if l.pair then g % 2 else 0
    let i := if l.pair then g / 2 else g
    let seat := ss[side]?
    let pipes := pipesFor s (core + side) (i + 1)
    (g, gangStart l g (((seat.bind (fun x => x.bases[i]?))).getD 0) count ((spills[g]?).getD 0)
      (((seat.bind (fun x => x.slots[i]?))).getD 0) ((pipes[i]?).getD 0)))

def noBanks : Banks := ⟨0#32, 0#32⟩

/-- Banks of a crew go to the modes the descriptor declares (R195). -/
def setModes (s : State) (core : Nat) (b : Banks) : State :=
  (bankList b.all).foldl (fun s k => switchBank s core k (if b.scr.getLsbD k then 1 else 2)) s

/-- The first accesses of a crew come after an acquire (R233, R234). -/
def acquireCrew (s : State) (c : Nat) (sys : Bool) : State :=
  let s := (crewCores s c).foldl coreDiscardClean s
  raceAcquire (if sys then peerDiscardClean s else s) c

/-- Place one crew on a core with the seats found (R62, R113 to R119, R195, R340). -/
def placeAt (s : State) (k : Nat) (l : Launch) (core count : Nat) (ss : List Seat) (spills : List Nat) : State :=
  let b0 := ((ss[0]?).map (fun x => x.banks)).getD noBanks
  let b1 := ((ss[1]?).map (fun x => x.banks)).getD noBanks
  let c := s.nextCrew
  let cr : Crew :=
    { launch := k, index := l.next, core := core, phase := .resident, halting := false
      gangs := gangsOf s core l count ss spills, banks0 := b0, banks1 := b1, scr := [], lostScr := [], fifos := [], qcfg := []
      mxctl := 0#32, bars := [], tiles := [], wds := [], ops := [], rcd := [], rcdThrew := [], recSeq := 0, stack := [], half := []
      savedCopies := [], savedMx := [], race := { RaceClock.zero with v := if l.debug then [(l.next, 1)] else [] } }
  let s := setModes (setModes s core b0) (core + 1) b1
  let s := { s with crews := Tab.put s.crews c cr, nextCrew := c + 1, fresh := s.fresh + 640 }
  let s := spills.foldl (fun s a => zeroRange s a (4 * l.nreg * l.width)) s
  let s := modLaunch s k (fun l => { l with start := if l.next = 0 then s.cycle.toNat else l.start, next := l.next + 1 })
  acquireCrew s c true

/-- Place the next crew of a launch if it fits, with at most `cap` physical registers a gang. -/
def placeNext (s : State) (pack : Bool) (cap k : Nat) : Option State :=
  match launch? s k with
  | none => none
  | some l =>
    match bestSeat s pack cap l, backing s pack l with
    | some b, some sp => some (placeAt s k l b.1 b.2.1 b.2.2 sp)
    | _, _ => none

/-- A launch with crews left to place. -/
def unplaced (l : Launch) : Bool := !l.stopping && l.status == 0 && decide (l.next < l.x * l.y * l.z)

/-- The PRIO level below or at which a waiting cooperative launch, at the head of a queue other than `but`, holds placement back
(R261). -/
def heldLevel (s : State) (but : Option Nat) : Option Nat :=
  s.queues.foldl (fun m q => if q.2.en && q.2.hold && but != some q.1 then some (max (m.getD 0) q.2.prio) else m) none

/-- Does no waiting cooperative launch hold back the placement of a launch of a level (R261)? -/
def placeable (s : State) (but : Option Nat) (prio : Nat) : Bool :=
  match heldLevel s but with
  | some p => decide (p < prio)
  | none => true

/-- Is an unwind of a launch in progress that stops the crews of all of it? No crew of it is placed meanwhile; of one that no region
catches none ever is (R56, R66; notes/assumptions/64). -/
def unwindingAll (s : State) (k : Nat) : Bool := s.unwinds.any (fun u => u.2.launch == k && decide (2 ≤ u.2.level))

/-- May the distributor place crews of a launch (R37, R261)? -/
def mayPlace (s : State) (k : Nat) (l : Launch) : Bool :=
  unplaced l && !l.coop && !unwindingAll s k && placeable s none (queueOf s l.queue).prio

/-- CREW_PLACE: the next crew of the oldest launch for which there is room (R36, R264). -/
def execCrewPlace (s : State) : Out :=
  .next (((s.launches.filter (fun p => mayPlace s p.1 p.2)).findSome? (fun p => placeNext s false p.2.nreg p.1)).getD s)

/-! ### Notices (R313, R319) -/

/-- The bytes of the instruction at an address, as a notice carries them. -/
def peekInsn (s : State) (g : GRef) (pc : Nat) : List Byte :=
  match fetchInsn s g 0 [] pc with
  | .ok _ bs | .trap _ _ bs => bs
  | .wait _ => []

/-- Does a gang's slot of the mailbox hold a request that is neither answered nor cancelled? -/
def slotLive (s : State) (g : GRef) (x : Gang) : Bool :=
  match requestIn s (coreOf s g) x.slot with
  | some r => !r.cancel
  | none => false

/-- The trap of a gang whose miss has been sent to the host (R313, R319): a class-4 notice, which follows the loads and stores before the
access as any request follows them. A slot that holds a live request, or a notice still to be written, keeps it: DESIGN CHOICE,
notes/assumptions/66. In the supervisor gang the trap is a supervisor fault (R312). -/
def postNotice (s : State) (g : GRef) (grp pc tag : Nat) : State :=
  match g, issuerOf? s g grp with
  | .sup c, _ => supFault s c 4 0 0 pc
  | .user _ _, some is =>
    if slotLive s g is.gang || is.gang.trapReq.isSome || !onCore s g then s
    else
      let r := { requestOf s is 4 0 tag (peekInsn s g pc) (activeLanes is.gang is.q) with pc := pc }
      let s := modCore s (coreOf s g) (fun c => { c with mboxOrder := c.mboxOrder + 1 })
      postTrap (modGang s g (fun x => { x with trapReq := some r })) g
  | .user _ _, none => s

/-- The group of a gang that a waiter names, by its lowest quad. -/
def groupAt (x : Gang) (quad : Nat) : Option Nat := x.groups.findIdx? (fun q => !q.ended && q.quads.getLsbD quad)

/-- The notices of one request's waiters. -/
def noticeFor (tag : Nat) (s : State) (w : Waiter) : State :=
  match w with
  | .group g quad _ =>
    match gang? s g with
    | some x =>
      match groupAt x quad with
      | some k => postNotice s g k (((x.groups[k]?).map (fun q => q.pc)).getD 0) tag
      | none => s
    | none => s
  | .flight g op =>
    match gang? s g with
    | some x =>
      let k := (x.groups.findIdx? (fun q => !q.ended)).getD 0
      postNotice s g k (((x.flights.find? (fun f => f.id == op)).map (fun f => f.pc)).getD 0) tag
    | none => s
  | _ => s

/-! ### The end of a crew (R146, R195, R401) -/

/-- The banks of a crew on its cores go to cache mode with their contents discarded (R195). -/
def freeBanksOf (s : State) (cr : Crew) : State :=
  let one := fun (s : State) (core : Nat) (b : Banks) => (bankList b.all).foldl (fun s k => switchBank s core k 0) s
  let s := one s cr.core cr.banks0
  if isPair s cr then one s (cr.core + 1) cr.banks1 else s

/-- Does an engine hold a command of a crew? -/
def engineBusy (s : State) (c : Nat) : Bool :=
  s.cores.any (fun p => p.2.copyQ.any (fun m => m.crew == c) || p.2.mxQ.any (fun m => m.crew == c))

/-- May a crew end: its gangs ended, their accesses done, its engine commands completed (R401)? -/
def crewOver (s : State) (c : Nat) (cr : Crew) : Bool :=
  cr.phase == .resident && cr.gangs.all (fun p => p.2.ended.isSome && p.2.flights.isEmpty && p.2.sysq.isEmpty && p.2.ending.isEmpty)
    && !engineBusy s c

/-- What is left in the scope buffers of a crew drains (R225); none while an entry cannot. -/
def drainCrew (s : State) (c : Nat) (gs : List Nat) : Option State :=
  gs.foldl (fun (acc : Option State) g =>
    acc.bind (fun s =>
      let r := drainAll s (.user c g)
      if ((gang? r.1 (.user c g)).map (fun x => x.buf.isEmpty)).getD true then some r.1 else none)) (some s)

/-- Every dirty copy of a crew's core points goes to H (R225, R233). -/
def writeBackCrew (s : State) (c : Nat) : State := (crewCores s c).foldl coreWriteBackAll s

/-- The state with a crew ended whose stores have drained: its copies at H, its banks free, its launch told. -/
def crewGone (s : State) (crew : Nat) (cr : Crew) : State :=
  let s := modCrew (writeBackCrew s crew) crew (fun cr => { cr with phase := .ended })
  let s := freeBanksOf s cr
  let s := modLaunch s cr.launch (fun l =>
    { l with endedCrews := l.endedCrews + 1, finish := s.cycle.toNat
             lbars := Tab.mapVals (fun _ cs => cs.filter (fun i => i != cr.index)) l.lbars })
  [0, 1, 2, 3].foldl (fun s n => lbarRelease s cr.launch n) s

/-- Has a crew stores on their way to host or peer memory? -/
def onSysWay (s : State) (crew : Nat) : Bool := ((crew? s crew).map (fun cr => cr.gangs.any (fun p => !p.2.sysq.isEmpty))).getD false

/-- CREW_END. -/
def execCrewEnd (crew : Nat) (s : State) : Out :=
  .next (match crew? s crew with
    | none => s
    | some cr =>
      if !crewOver s crew cr then s
      else
        match drainCrew s crew (cr.gangs.map (fun p => p.1)) with
        | none => s
        | some s => if onSysWay s crew then s else crewGone s crew cr)

/-! ### Pre-emption (R20, R43 to R45, R47, R233, R268) -/

/-- A crew is to halt if it is resident and of a context. -/
def haltIn (s : State) (ctx : Nat) (cr : Crew) : Crew :=
  if cr.phase = .resident ∧ ((launch? s cr.launch).map (fun l => l.ctx)) = some ctx then { cr with halting := true } else cr

/-- PREEMPT_REQUEST: every resident crew of a context halts at instruction boundaries. -/
def execPreemptRequest (ctx : Nat) (s : State) : Out := .next { s with crews := Tab.mapVals (fun _ cr => haltIn s ctx cr) s.crews }

/-- Memory whose loads may be saved while they are outstanding (R43). -/
def slowMemory (pa : Nat) : Bool := match regionOf pa with | .host | .peer | .lpddr => true | _ => false

/-- Does an element wait on a block that is closing (R361)? -/
def waitsOnBlock (s : State) (ctx va : Nat) : Bool :=
  match (translate s ctx va).2 with
  | .ok x => closingBlock s (xlatPa x va)
  | _ => false

/-- May an instruction in flight be saved as it stands (R43)? An element that waits on a declared tile that has not been granted has not
issued by R41, and is saved outstanding to be made at resumption: DEDUCED, notes/assumptions/25. -/
def savable (s : State) (g : GRef) (f : Flight) : Bool :=
  let load := match f.kind with | .load _ => true | _ => false
  (match f.kind with | .sysread | .ctread _ => false | _ => true)
    && f.elems.all (fun e => e.done || f.storing || (e.win.isNone && (match e.place with
      | .page _ _ _ _ => true
      | .held va => !waitsOnBlock s (ctxOf s g) va
      | .phys pa => load && slowMemory pa
      | .scr _ => false)))

/-- An MMA.P that waits for its partner blocks the commands behind it; they are saved with it (R43). -/
def mxSavable (s : State) (c : Nat) : Bool :=
  s.cores.all (fun p => match p.2.mxQ.find? (fun m => m.crew == c) with
    | none => true
    | some m => !m.paired && isMmaP c m)

/-- The unwinds that a crew is in. -/
def unwindsOf (s : State) (c : Nat) : List (Nat × Unwind) := s.unwinds.filter (fun p => (crewsOf s p.2).contains c)

/-- R47: steps 1 and 2 of an unwind come before the save. The flag tells whether step 2 is done. -/
def settleUnwinds (s : State) (c : Nat) : State × Bool :=
  (unwindsOf s c).foldl (fun acc p =>
    let r := cancelWork ((membersOf acc.1 p.2).foldl (stopAgain p.1) acc.1) p.1 p.2
    (r.1, acc.2 && r.2)) (s, true)

/-- Has a gang a notice, written or to be written, that is not answered (R319)? -/
def hasNotice (x : Gang) : Bool := x.noticed || ((x.trapReq.map (fun r => r.cls == 4)).getD false)

/-- A gang as it is saved: its request abandoned, its promotion counts zero, what it waits for to be asked again (R44, R45). That it had a
notice is kept, for the new one at its resumption (R321). -/
def saveGang (notice : Bool) (x : Gang) : Gang :=
  { x with spilled := [], noticed := notice
           groups := x.groups.map (fun q =>
             { q with passed := 0, promoted := false, watch := q.watch.map (fun w => { w with due := true, held := false })
                      waiting := match q.waiting with | .banks _ _ => .none | w => w }) }

/-- Write what can be written of the started segments of a crew's copies on one core (R43). -/
def finishCopies (s : State) (c core : Nat) : State :=
  (List.range (((core? s core).map (fun x => x.copyQ.length)).getD 0)).foldl (fun s i =>
    match copyAt? s core i with
    | some m => if m.crew = c then finishSegments s core i (List.range (copyPieces m)) else s
    | none => s) s

/-- Must an element of a started segment still move before its crew is saved: it waits neither for a page, nor for a grant, nor for an MMA.P
half that is saved with its crew (R43)? -/
def elemDue (s : State) (core : Nat) (m : CopyCmd) (k : Nat) : Bool :=
  match (planElem s core m k).2 with
  | .wait .page | .wait .grant => false
  | .wait .matrix =>
    (match m.kind with
      | .multicast _ => (elemTargets s core m k []).any (fun t =>
          heldByMatrix s t.2.1 (m.off + k * copyEsz m) (copyEsz m) && !mxSavable s t.2.1)
      | _ => !mxSavable s m.crew)
  | _ => true

/-- Have the started segments of a crew's copies on one core finished, but for what is saved as outstanding? -/
def copiesSavable (s : State) (c core : Nat) : Bool :=
  ((core? s core).map (fun x => x.copyQ.all (fun m => m.crew != c
    || ((List.range (copyPieces m)).filter (pieceOpen m)).all (fun p =>
        ((pieceElems m p).filter (fun k => !m.moved.contains k)).all (fun k => !elemDue s core m k))))).getD true

/-- Take the commands of a crew's copies out of a core's queue: those that are complete complete, and the others are recorded (R43, R268). -/
def saveCopies (c core : Nat) : Nat → State → State
  | 0, s => s
  | n + 1, s =>
    match core? s core with
    | none => s
    | some x =>
      match x.copyQ.findIdx? (fun m => m.crew == c) with
      | none => s
      | some i =>
        match copyAt? s core i with
        | none => s
        | some m =>
          if decide (0 < m.segs) && (List.range (copyPieces m)).all m.done.contains then saveCopies c core n (copyDone s core i m)
          else
            let s := dropCopy s core i
            saveCopies c core n (modCrew s c (fun cr => { cr with savedCopies := cr.savedCopies ++ [{ m with segs := 0 }] }))

/-- The matrix commands a save takes along. -/
def saveMx (s : State) (c core : Nat) : State :=
  let ms := (mxQueue s core).filter (fun m => m.crew == c)
  let s := modCore s core (fun x => { x with mxQ := x.mxQ.filter (fun m => m.crew != c) })
  modCrew s c (fun cr => { cr with savedMx := cr.savedMx ++ ms })

/-- Has a gang no instruction in progress that must finish before it is saved: no access that cannot be saved (R43), no ICINV.DEV that
other cores have yet to answer (R253), no ended body that holds grants (R308)? -/
def gangSavable (s : State) (g : GRef) (x : Gang) : Bool := x.flights.all (savable s g) && (icinvOf x).isNone && x.ending.isEmpty

/-- Is the work that a halted crew has in flight such as may be saved (R43)? -/
def crewSavable (s : State) (crew : Nat) : Bool :=
  ((crew? s crew).map (fun cr => cr.gangs.all (fun p => gangSavable s (.user crew p.1) p.2))).getD false && mxSavable s crew

/-- The state with a crew saved whose stores have drained: its commands taken along, its requests abandoned, its resources free. The marks of
lost lines of its scratchpad and its FIFOs are saved with their contents, which R44 names and R195 restores: DESIGN CHOICE,
notes/assumptions/89. -/
def crewSaved (s : State) (crew : Nat) (cr : Crew) : State :=
  let gs := cr.gangs.map (fun p => p.1)
  let s := (crewCores s crew).foldl (fun s k => saveMx (saveCopies crew k 17 s) crew k) s
  let s := gs.foldl (fun s g =>
    let notice := ((gang? s (.user crew g)).map hasNotice).getD false
    modGang (abandonRequest s (.user crew g)) (.user crew g) (saveGang notice)) s
  let s := modCrew (writeBackCrew s crew) crew (fun cr => { cr with phase := .saved, halting := false })
  freeBanksOf s cr

/-- CREW_SAVE: a halted crew whose work in flight is settled is saved, and its resources freed. -/
def execCrewSave (crew : Nat) (s : State) : Out :=
  .next (match crew? s crew with
    | none => s
    | some cr =>
      if !(cr.halting && cr.phase == .resident) then s
      else
        let r := settleUnwinds s crew
        let s := r.1
        if !r.2 || !crewSavable s crew then s
        else
          let s := (crewCores s crew).foldl (fun s k => finishCopies s crew k) s
          if !(crewCores s crew).all (copiesSavable s crew) then s else
          match drainCrew s crew (cr.gangs.map (fun p => p.1)) with
          | none => s
          | some s => crewSaved s crew cr)

/-- The registers of a gang between two physical counts change their place: those that were in the backing store are read from there, and
those that go there are on their way home (R34, R46, R114). One that was on a lost line of the backing store becomes what the line reads
as, and the mark does not follow it; R116 is silent: DESIGN CHOICE, notes/assumptions/58. -/
def moveRegs (s : State) (count : Nat) (x : Gang) : Gang :=
  let old := x.vbound - x.vbase
  let keys := fun (a b : Nat) => ((List.range (min b x.n - a)).flatMap (fun i => (laneIds x).map (fun l => 64 * (a + i) + l)))
  let back := keys old count
  { x with v := (back.filter (fun k => !x.unhomed.contains k)).foldl (fun t k => Tab.set 0#32 t k
             (BitVec.ofNat 32 (leNat ((List.range 4).map (fun i => homeRead s (spillAddr x k + i)))))) x.v
           unhomed := x.unhomed.filter (fun k => !back.contains k) ++ keys count old }

/-- A gang bound afresh (R46). -/
def resumeGang (s : State) (count : Nat) (base slot pipe : Nat) (x : Gang) : Gang :=
  { moveRegs s count x with vbase := base, vbound := base + count, slot := slot, pipe := pipe }

/-- Have the queues of a core room for the commands that a crew's save took along, those of one side (R13, R268)? -/
def queueRoom (s : State) (core side : Nat) (cr : Crew) : Bool :=
  match core? s core with
  | some x => decide (x.copyQ.length + (cr.savedCopies.filter (fun m => m.side == side)).length ≤ 16)
      && decide (x.mxQ.length + (cr.savedMx.filter (fun m => m.side == side)).length ≤ 4)
  | none => false

/-- The gangs of a crew that are bound to a pipe of one side's core. -/
def boundOf (pair : Bool) (side : Nat) (cr : Crew) : List Nat :=
  (cr.gangs.filter (fun p => p.2.ended.isNone && (!pair || p.1 % 2 == side))).map (fun p => p.1)

/-- The FIFOs of a crew whose banks are all in FIFO mode by its launch's declaration. The entries of a bank that BANKSET had made FIFO go as
the bank takes its declared mode (R195, Table 10-3): DESIGN CHOICE, notes/assumptions/32. -/
def declaredRings (cr : Crew) : Tab Fifo :=
  cr.fifos.filter (fun f => (List.range f.2.nb).all (fun i => !(banksOf cr (f.1 / 32)).scr.getLsbD (f.1 % 32 + i)))

/-- The notices of gangs that a save abandoned are raised again, for requests that the host has not answered yet (R321). -/
def noticeAgain (s : State) (gs : List GRef) : State :=
  let of := fun (w : Waiter) => match w with
    | .group g _ _ | .flight g _ => gs.contains g
    | _ => false
  s.pageReqs.foldl (fun s r =>
    match r.tag, r.answer with
    | some t, none => (r.waiters.filter of).foldl (noticeFor t) s
    | _, _ => s) s

/-- The state with a saved crew on a core, in the seats found for it. Its live gangs are bound to pipes in their order (R24, R46). -/
def crewResumed (s : State) (crew core : Nat) (cr : Crew) (l : Launch) (count : Nat) (ss : List Seat) : State :=
  let bind := fun (g : Nat) (x : Gang) =>
    let side := if l.pair then g % 2 else 0
    let i := if l.pair then g / 2 else g
    let seat := ss[side]?
    let bound := boundOf l.pair side cr
    resumeGang s count ((seat.bind (fun y => y.bases[i]?)).getD 0) ((seat.bind (fun y => y.slots[i]?)).getD 0)
      (((pipesFor s (core + side) bound.length)[bound.idxOf g]?).getD x.pipe) x
  let s := setModes s core cr.banks0
  let s := if l.pair then setModes s (core + 1) cr.banks1 else s
  let put := fun (s : State) (k side : Nat) => modCore s k (fun x =>
    { x with copyQ := x.copyQ ++ cr.savedCopies.filter (fun m => m.side == side)
             mxQ := x.mxQ ++ cr.savedMx.filter (fun m => m.side == side) })
  let s := put (put s core 0) (core + 1) 1
  let s := modCrew s crew (fun cr =>
    { cr with core := core, phase := .resident, gangs := Tab.mapVals (fun g x => { bind g x with noticed := false }) cr.gangs
              fifos := declaredRings cr, savedCopies := [], savedMx := [] })
  noticeAgain (acquireCrew { s with fresh := s.fresh + 640 } crew false)
    ((cr.gangs.filter (fun p => p.2.noticed)).map (fun p => GRef.user crew p.1))

/-- A saved crew takes its place on a core that has the resources, its own bank numbers among them, and room in its queues, with at most
`cap` physical registers a gang. -/
def resumeAt (s : State) (pack : Bool) (cap crew core : Nat) : Option State :=
  match crew? s crew with
  | none => none
  | some cr =>
    match launch? s cr.launch with
    | none => none
    | some l =>
      if cr.phase ≠ .saved || !queueRoom s core 0 cr || (l.pair && !queueRoom s (core + 1) 1 cr) then none
      else (seats s pack cap core l (some (cr.banks0, cr.banks1))).map (fun r => crewResumed s crew core cr l r.1 r.2)

/-- Saved crews resume one after another, on any cores that take them all. -/
def resumeEach (pack : Bool) (cap : Nat) (cores : List Nat) : List Nat → State → Option State
  | [], s => some s
  | c :: cs, s => cores.findSome? (fun k => (resumeAt s pack cap c k).bind (resumeEach pack cap cores cs))

/-- A crew of a cooperative launch resumes on a core and every other on some core, all of them or none (R37, R42): with the largest bound on
the physical counts for which a choice of cores takes them all (R34). -/
def resumeAll (s : State) (l : Launch) (crew core : Nat) : Option State :=
  let k := ((crew? s crew).map (fun cr => cr.launch)).getD 0
  let rest := (s.crews.filter (fun p => p.2.launch == k && p.1 != crew && p.2.phase != .ended)).map (fun p => p.1)
  let cores := s.cores.map (fun p => p.1)
  let attempt := fun (pack : Bool) (cap : Nat) => (resumeAt s pack cap crew core).bind (resumeEach pack cap cores rest)
  ((physCounts l l.nreg).findSome? (attempt false)).or (attempt true l.preg)

/-- CREW_RESUME: a saved crew resumes on a core, and with a crew of a cooperative launch every other of the launch (R37, R42, R46, R194,
R195, R233, R268). -/
def execCrewResume (crew core : Nat) (s : State) : Out :=
  .next ((match launchOf? s (.user crew 0) with
    | some l => if l.coop then resumeAll s l crew core else resumeAt s false l.nreg crew core
    | none => none).getD s)

/-! ### Timers (R40, R406) -/

/-- CANDIDATE_PROMOTE: ready and not chosen for 4,096 cycles. -/
def execCandidatePromote (g : GRef) (grp : Nat) (s : State) : Out :=
  .next (modGroup s g grp (fun q => if q.passed ≥ 4096 then { q with promoted := true } else q))

/-- SVYIELD_TIMEOUT: 4,096 cycles after the header a supervisor group is ready again. -/
def execSvyieldTimeout (core : Nat) (s : State) : Out :=
  .next (modGang s (.sup core) (fun x => { x with groups := x.groups.map (fun q =>
    match q.yieldAt with
    | some t => if t + 4096 ≤ s.cycle.toNat then { q with yieldAt := none } else q
    | none => q) }))

end Sys2Proof.Machine
end

