-- ==== Sys2Proof/Machine/Emulation.lean ====
section
/-!
DEFINITION. The emulation space (spec/05_encoding.md R109 to R112). The hardware executes none of these instructions: with a
lane selected each takes the emulation trap, and otherwise completes as a NOP (`issue`). The effect that R110 and R111 fix
for the supervisor to carry out is given as functions of the operands.
-/

namespace Sys2Proof.Machine

/-- Quotient and remainder of R110, `n` bits wide. -/
def emuDivide (signed : Bool) (n a b : Nat) : Nat × Nat :=
  let x : Int := if signed then sext a n else zext a n
  let y : Int := if signed then sext b n else zext b n
  if y = 0 then (low (-1) n, low x n)
  else if signed ∧ x = -(2 ^ (n - 1) : Nat) ∧ y = -1 then (low x n, 0)
  else (low (Int.tdiv x y) n, low (x - Int.tdiv x y * y) n)

/-- A value toward zero as a saturated INT32, NaN giving 0 (R111). -/
def truncS32 : FVal → Int
  | .nan => 0
  | .inf neg => if neg then -(2 ^ 31) else 2 ^ 31 - 1
  | .fin neg m e => clampInt (if neg then -(truncAt m e 0 : Int) else truncAt m e 0) (-(2 ^ 31)) (2 ^ 31 - 1)

/-- The conversions of DCVT by form (R111). -/
def emuConvert (form a : Nat) : Nat :=
  match form with
  | 0 => FSpec.f64.round (FSpec.f32.decode a)
  | 1 => FSpec.f32.round (FSpec.f64.decode a)
  | 2 => FSpec.f64.round (FVal.ofInt (sext a 32))
  | _ => low (truncS32 (FSpec.f64.decode a)) 32

/-- The result of Table 5-9 in one lane, from its operands; EMU's is system software's own. -/
def emuResult (i : Instr) (a b c : Nat) : Option Nat :=
  match i with
  | .idivU32 _ => some (emuDivide false 32 a b).1
  | .iremU32 _ => some (emuDivide false 32 a b).2
  | .idivU64 _ => some (emuDivide false 64 a b).1
  | .iremU64 _ => some (emuDivide false 64 a b).2
  | .idivS32 _ => some (emuDivide true 32 a b).1
  | .iremS32 _ => some (emuDivide true 32 a b).2
  | .idivS64 _ => some (emuDivide true 64 a b).1
  | .iremS64 _ => some (emuDivide true 64 a b).2
  | .fdivF32 _ => some (FSpec.f32.round ((FSpec.f32.decode a).div (FSpec.f32.decode b)))
  | .dadd _ => some (FSpec.f64.round ((FSpec.f64.decode a).add (FSpec.f64.decode b)))
  | .dmul _ => some (FSpec.f64.round ((FSpec.f64.decode a).mul (FSpec.f64.decode b)))
  | .dfma _ _ => some (FSpec.f64.round (((FSpec.f64.decode a).mul (FSpec.f64.decode b)).add (FSpec.f64.decode c)))
  | .ddiv _ => some (FSpec.f64.round ((FSpec.f64.decode a).div (FSpec.f64.decode b)))
  | .dsqrt _ _ _ => some (FSpec.f64.round (FSpec.f64.decode a).sqrt)
  | .dcvt _ f _ _ => some (emuConvert f a)
  | _ => none

def execIdivU32 (x : Emu) (s : State) : Out := issue (.idivU32 x) s (fun s _ => .done s)
def execIremU32 (x : Emu) (s : State) : Out := issue (.iremU32 x) s (fun s _ => .done s)
def execIdivU64 (x : Emu) (s : State) : Out := issue (.idivU64 x) s (fun s _ => .done s)
def execIremU64 (x : Emu) (s : State) : Out := issue (.iremU64 x) s (fun s _ => .done s)
def execIdivS32 (x : Emu) (s : State) : Out := issue (.idivS32 x) s (fun s _ => .done s)
def execIremS32 (x : Emu) (s : State) : Out := issue (.iremS32 x) s (fun s _ => .done s)
def execIdivS64 (x : Emu) (s : State) : Out := issue (.idivS64 x) s (fun s _ => .done s)
def execIremS64 (x : Emu) (s : State) : Out := issue (.iremS64 x) s (fun s _ => .done s)
def execFdivF32 (x : Emu) (s : State) : Out := issue (.fdivF32 x) s (fun s _ => .done s)
def execDadd (x : Emu) (s : State) : Out := issue (.dadd x) s (fun s _ => .done s)
def execDmul (x : Emu) (s : State) : Out := issue (.dmul x) s (fun s _ => .done s)
def execDfma (x : Emu) (c : Opd) (s : State) : Out := issue (.dfma x c) s (fun s _ => .done s)
def execDdiv (x : Emu) (s : State) : Out := issue (.ddiv x) s (fun s _ => .done s)
def execDsqrt (g : Guard) (d a : Opd) (s : State) : Out := issue (.dsqrt g d a) s (fun s _ => .done s)
def execDcvt (g : Guard) (form : Nat) (d a : Opd) (s : State) : Out := issue (.dcvt g form d a) s (fun s _ => .done s)
def execEmu (x : Emu) (s : State) : Out := issue (.emu x) s (fun s _ => .done s)

end Sys2Proof.Machine
end

