-- ==== Sys2Proof/Machine/Float.lean ====
section
/-!
DEFINITION. The floating-point and conversion instructions (spec/09_float.md R175 to R190), majors 0x50 to 0x65.
-/

namespace Sys2Proof.Machine

def execFadd (x : Bin) (s : State) : Out := issue (.fadd x) s (fun s is => binOp s is x (faddWord x.ty x.sat))
def execFsub (x : Bin) (s : State) : Out := issue (.fsub x) s (fun s is => binOp s is x (fsubWord x.ty x.sat))
def execFmul (x : Bin) (s : State) : Out := issue (.fmul x) s (fun s is => binOp s is x (fmulWord x.ty x.sat))
def execFma (x : Ter) (s : State) : Out := issue (.fma x) s (fun s is => terOp s is x (fmaWord x.ty x.sat))
def execFmin (nan : Bool) (x : Bin) (s : State) : Out :=
  issue (.fmin nan x) s (fun s is => binOp s is x (fminWord x.ty false nan))
def execFmax (nan : Bool) (x : Bin) (s : State) : Out :=
  issue (.fmax nan x) s (fun s is => binOp s is x (fminWord x.ty true nan))
def execFabs (x : Un) (s : State) : Out := issue (.fabs x) s (fun s is => unOp s is x (fabsWord x.ty))
def execFneg (x : Un) (s : State) : Out := issue (.fneg x) s (fun s is => unOp s is x (fnegWord x.ty))

/-- The integer type B of FSCALE is read by: a constant gives the same exponent to every element (R180). -/
def scaleType (ty : Ety) : Ety :=
  match ty with
  | .f32 => .s32
  | _ => .s16x2

def execFscale (x : Bin) (s : State) : Out :=
  issue (.fscale x) s (fun s is =>
    laneOp s is x.g x.d x.ty [(x.a, x.ty), (x.b, scaleType x.ty)]
      (fun _ vs => match vs with | [a, b] => fscaleWord x.ty x.sat a b | _ => 0))

def execFcmp (g : Guard) (c : FCond) (pd : Nat) (a b : Opd) (s : State) : Out :=
  issue (.fcmp g c pd a b) s (fun s is =>
    predOp s is g pd [(a, .f32), (b, .f32)] (fun _ vs => match vs with | [x, y] => fcmpHolds c x y | _ => false))

def execFcmpc (c : FCond) (cd : Nat) (a b : Opd) (s : State) : Out :=
  issue (.fcmpc c cd a b) s (fun s is => condOp s is cd .f32 a b (fcmpHolds c))

def execFclass (g : Guard) (pd : Nat) (a : Opd) (mask : BitVec 10) (s : State) : Out :=
  issue (.fclass g pd a mask) s (fun s is =>
    predOp s is g pd [(a, .f32)] (fun _ vs => match vs with | [x] => mask.getLsbD (fclassBit x) | _ => false))

/-! ### Approximated functions (R184) -/

/-- One lane word of an approximated function: the free value of Config stands wherever it is within the bound. -/
def approxWord (fn : ApproxFn) (major : Nat) (ty : Ety) : Nat → Nat :=
  lane1 ty (fun a => fn.result (etySpec ty) a
    ((Config.approx major ty (BitVec.ofNat 32 a)).toNat % 2 ^ etyBits ty))

def execFrcp (x : Un) (s : State) : Out := issue (.frcp x) s (fun s is => unOp s is x (approxWord .rcp 0x5A x.ty))
def execFrsq (x : Un) (s : State) : Out := issue (.frsq x) s (fun s is => unOp s is x (approxWord .rsq 0x5B x.ty))
def execFsqrt (x : Un) (s : State) : Out := issue (.fsqrt x) s (fun s is => unOp s is x (approxWord .sqrt 0x5C x.ty))
def execFexp2 (x : Un) (s : State) : Out := issue (.fexp2 x) s (fun s is => unOp s is x (approxWord .exp2 0x5D x.ty))
def execFlog2 (x : Un) (s : State) : Out := issue (.flog2 x) s (fun s is => unOp s is x (approxWord .log2 0x5E x.ty))
def execFsin (x : Un) (s : State) : Out := issue (.fsin x) s (fun s is => unOp s is x (approxWord .sin 0x5F x.ty))
def execFcos (x : Un) (s : State) : Out := issue (.fcos x) s (fun s is => unOp s is x (approxWord .cos 0x60 x.ty))
def execFtanh (x : Un) (s : State) : Out := issue (.ftanh x) s (fun s is => unOp s is x (approxWord .tanh 0x61 x.ty))

/-! ### Conversion (R185 to R189) -/

/-- A word with element `di` of width `n` replaced; a 32-bit element replaces the whole word (R186). -/
def putElem (n d di y : Nat) : Nat :=
  if n = 32 then y else d % 2 ^ (n * di) + y % 2 ^ n * 2 ^ (n * di) + d / 2 ^ (n * (di + 1)) * 2 ^ (n * (di + 1))

/-- How CVT reads an operand of a source format: a constant is the integer, converted for F32 (R101, R185). -/
def cvtRead (src : Fmt) : Ety :=
  match src with
  | .f32 => .f32
  | _ => .u32

/-- The word a destination register holds before the instruction, a scalar one's in its low half (R186). A queue register holds none: the
bits of a pushed word that the instruction leaves unchanged are free, R186 being silent (notes/assumptions/77). -/
def dstWord (s : State) (is : Iss) (d : Opd) (l : Nat) : Nat :=
  match d with
  | .v n => rdV is.gang n l
  | .s n => rdS is.gang n % 2 ^ 32
  | .lr => is.gang.lr.toNat % 2 ^ 32
  | .exm => exmOf is.gang is.q % 2 ^ 32
  | .q _ => (Config.pushRest s.cycle.toNat (4 * coreOf s is.ref + is.gang.pipe) l).toNat
  | _ => 0

def execCvt (g : Guard) (tgt src : Fmt) (sat : Bool) (d a : Opd) (si di : Nat) (s : State) : Out :=
  issue (.cvt g tgt src sat d a si di) s (fun s is =>
    laneOp s is g d .u32 [(a, cvtRead src)] (fun l vs => match vs with
      | [x] => putElem tgt.width (dstWord s is d l) di (cvtElem tgt src sat (elem src.width x si))
      | _ => 0))

/-- CVTMX's formats: E4M3 and E2M1 (R189). -/
def mxElemSpec (f : Fmt) : FSpec := if f = .e4m3 then .e4m3 else .e2m1

def execCvtmx (g : Guard) (fmt : Fmt) (d a b : Opd) (di : Nat) (s : State) : Out :=
  issue (.cvtmx g fmt d a b di) s (fun s is =>
    laneOp s is g d .u32 [(a, .f32), (b, .u32)] (fun l vs => match vs with
      | [x, sc] => putElem fmt.width (dstWord s is d l) di (cvtmxElem (mxElemSpec fmt) x (sc % 256))
      | _ => 0))

def execCvtmxScale (g : Guard) (fmt : Fmt) (d a : Opd) (s : State) : Out :=
  issue (.cvtmxScale g fmt d a) s (fun s is =>
    laneOp s is g d .u32 [(a, .f32)] (fun _ vs => match vs with
      | [x] => cvtmxScaleOf (if fmt = .e4m3 then 8 else 2) x
      | _ => 0))

end Sys2Proof.Machine
end

