-- ==== Sys2Proof/Machine/Headframe.lean ====
section
/-!
DEFINITION. The headframes (spec/13_queues.md R256 to R263, R269 to R272; spec/18_host.md R364, R370): tail reads, acceptance,
completion entries, beats and the merged order, heartbeats.
-/

namespace Sys2Proof.Machine

/-! ### Headframe accesses (R234, R257, R334) -/

/-- What a headframe access comes to. -/
inductive HfRes (α : Type) where
  | ok (s : State) (x : α)
  | bad (s : State)
  | wait (s : State)

/-- The lines of a headframe access, each as one at its home slice and, where it goes on from there, at its port (Table 17-7). -/
def countFrame (s : State) (pa n : Nat) (out : Bool) : State :=
  (linesTouched pa n).foldl (fun s l => countPort (countSlice s (128 * l)) (128 * l) out) s

/-- Bytes at the system point; dirty bytes of host and peer lines are written back first. -/
def sysReadN (s : State) (pa n : Nat) : State × List Byte :=
  let s := countFrame ((List.range n).foldl (fun s i => homeWriteBack s (pa + i)) s) pa n false
  let s := (linesTouched pa n).foldl (fun s l => if homeIsMem s (128 * l) then l2Fill s l else s) s
  (s, s.mem.readN pa n)

def sysWriteN (s : State) (pa : Nat) (bs : List Byte) : State :=
  (bs.zipIdx).foldl (fun s p => sysWrite s (pa + p.2) p.1) (countFrame s pa bs.length true)

/-- Does any byte of a range lie on a lost line? -/
def anyLost (s : State) (pa n : Nat) : Bool := (List.range n).any (fun i => isLost s.lost (pa + i))

/-- Read bytes at a physical address, judged by the HF field alone. -/
def hfReadPhys (s : State) (ctx pa n : Nat) : HfRes (List Byte) :=
  if closingBlock s pa then .wait s
  else if (barredOf s .hf ctx pa .read).isSome || anyLost s pa n then .bad s
  else
    let r := sysReadN s pa n
    .ok r.1 r.2

/-- Locate a range that may cross pages for a headframe: physical pieces, each with its length (R331). A page that has been asked for is
waited for until the host replies (R366, R367); `launch` is the launch whose completion entry is to be written. -/
def hfLocate (s : State) (q ctx : Nat) (launch : Option Nat) (write : Bool) : List (Nat × Nat) → HfRes (List (Nat × Nat))
  | [] => .ok s []
  | p :: ps =>
    let k := if write then AKind.write else AKind.read
    let me := Waiter.headframe q (p.1 / 65536) launch
    if awaits s (fun w => w == me) then .wait s else
    match translate s ctx p.1 with
    | (s, .miss fn g tb) => .wait (requestPage s fn g ctx (if tb then 3 else b2n write) 1 me)
    | (s, .ok x) =>
      let pa := xlatPa x p.1
      if !xlatPresent x || !leafPermits x.bits k then .bad s
      else if closingBlock s pa then .wait s
      else if (barredOf s .hf ctx pa k).isSome || anyLost s pa p.2 then .bad s
      else
        match hfLocate s q ctx launch write ps with
        | .ok s rs => .ok s ((pa, p.2) :: rs)
        | r => r

/-- Read bytes at a virtual address in a queue's context. -/
def hfRead (s : State) (q ctx va n : Nat) : HfRes (List Byte) :=
  match hfLocate s q ctx none false (pagePieces va n) with
  | .ok s rs =>
    let r := rs.foldl (fun (acc : State × List Byte) p =>
      let t := sysReadN acc.1 p.1 p.2
      (t.1, acc.2 ++ t.2)) (s, [])
    .ok r.1 r.2
  | .bad s => .bad s
  | .wait s => .wait s

/-- A queue stops on an error (R257). -/
def queueError (s : State) (q : Nat) : State := raiseEvent (modQueue s q (fun x => { x with state := 2, depOk := false, hold := false })) 1 q

/-! ### Entries (R258, R259, Table 13-3) -/

def field (bs : List Byte) (o n : Nat) : Nat := leNat ((bs.drop o).take n)

def cutEntry (bs : List Byte) : LEntry :=
  { desc := field bs 0 8, compl := field bs 8 8, waddr := field bs 0x10 8, wval := field bs 0x18 8, flags := field bs 0x20 4
    corr := field bs 0x28 8, zero := field bs 0x24 4 + field bs 0x30 16 }

def LEntry.malformed (e : LEntry) : Bool :=
  e.desc % 256 != 0 || e.compl % 128 != 0 || (bit e.flags 0 && e.waddr % 8 != 0) || decide (e.flags ≥ 32) || e.zero != 0

/-- Conditions of Table 12-6 by code. -/
def wCondOf (c : Nat) : WCond :=
  match c with | 0 => .ne | 1 => .eq | 2 => .geu | _ => .ltu

/-- The entries that lie before the head word are done with; where software has set the head elsewhere none that was read stands. -/
def syncHead (s : State) (q head : Nat) : State :=
  let x := queueOf s q
  let d := (head + 2 ^ 64 - x.first) % 2 ^ 64
  modQueue s q (fun x => { x with first := head, entries := if d ≤ x.entries.length then x.entries.drop d else [] })

/-- Read the entries that the tail covers and that have not been read; a malformed or unreadable one stops the queue, wherever in it it
lies (R257, R258). -/
def readEntries (q : Nat) : Nat → State → State
  | 0, s => s
  | n + 1, s =>
    let x := queueOf s q
    let k := (x.first + x.entries.length) % 2 ^ 64
    if k = x.tail then s
    else
      match hfReadPhys s x.ctx (x.base + 64 * (k % 2 ^ x.log2)) 64 with
      | .bad s => queueError s q
      | .wait s => s
      | .ok s bs =>
        if (cutEntry bs).malformed then queueError s q
        else readEntries q n (modQueue s q (fun x => { x with entries := x.entries ++ [cutEntry bs] }))

/-- The head word of a queue, and the entry there as it has been read. -/
def headEntry (s : State) (q : Nat) : HfRes (Nat × LEntry) :=
  match hfReadPhys s (queueOf s q).ctx ((queueOf s q).ctl + 128) 8 with
  | .bad s => .bad s
  | .wait s => .wait s
  | .ok s hb =>
    let s := readEntries q (2 ^ (queueOf s q).log2) (syncHead s q (leNat hb))
    match (queueOf s q).state, (queueOf s q).entries with
    | 1, e :: _ => .ok s (leNat hb, e)
    | _, _ => .wait s

/-- Is there a pending entry: the head word is behind the tail? -/
def pending (s : State) (q : Nat) : Bool :=
  let x := queueOf s q
  x.en && x.state == 1 && (sysReadN s (x.ctl + 128) 8).2 != toLE 8 x.tail

/-- Is SERIAL met for the head entry of a queue: its previous launch has written its completion entry (R259)? -/
def serialMet (s : State) (q : Nat) (e : LEntry) : Bool := !bit e.flags 3 || (queueOf s q).prev.isNone

/-- Look at the head entry of a queue: its dependence word is read at SYS once SERIAL is met, and whether it satisfies its condition is
noted (R257 to R259). -/
def lookHead (s : State) (q : Nat) : State :=
  if !pending s q then s
  else
    match headEntry s q with
    | .bad s => queueError s q
    | .wait s => s
    | .ok s (_, e) =>
      let note := fun (s : State) (b : Bool) => modQueue s q (fun x => { x with depOk := b })
      if !bit e.flags 0 then note s true
      else if !serialMet s q e then note s false
      else
        match hfRead s q (queueOf s q).ctx e.waddr 8 with
        | .bad s => queueError s q
        | .wait s => note s false
        | .ok s ws => note s (wCond (wCondOf (bits e.flags 2 1)) (leNat ws) e.wval)

/-- Read the tail word of a queue and check it against the head word (R257). -/
def readTail (s : State) (q : Nat) : State :=
  let x := queueOf s q
  if !x.en || x.state != 1 then s
  else
    match hfReadPhys s x.ctx x.ctl 8 with
    | .bad s => queueError s q
    | .wait s => s
    | .ok s tb =>
      match hfReadPhys s x.ctx (x.ctl + 128) 8 with
      | .bad s => queueError s q
      | .wait s => s
      | .ok s hb =>
        let tail := leNat tb
        let s := modQueue s q (fun x => { x with tail := tail, lastPoll := s.cycle.toNat })
        if (tail + 2 ^ 64 - leNat hb) % 2 ^ 64 > 2 ^ x.log2 then queueError s q else lookHead s q

/-- TAIL_READ. -/
def execTailRead (q : Nat) (s : State) : Out := .next (readTail s q)

/-- TAIL_POLL_TIMER: the tail word is read again 65,536 cycles after the last time (R257). -/
def execTailPollTimer (q : Nat) (s : State) : Out :=
  .next (if s.cycle.toNat ≥ (queueOf s q).lastPoll + 65536 then readTail s q else s)

/-- DEPENDENCE_WATCH: the dependence word of the head entry is read again (R259). -/
def execDependenceWatch (q : Nat) (s : State) : Out := .next (lookHead s q)

/-! ### Descriptors (R262, Table 13-4) -/

/-- The launch that an entry and a descriptor describe. -/
def mkLaunch (s : State) (q : Nat) (e : LEntry) (d : List Byte) : Launch :=
  let flags := field d 0x14 4
  let grp := (Tab.get 0#64 s.spanGroup q).toNat
  { queue := q, compl := e.compl, corr := BitVec.ofNat 64 e.corr, event := bit e.flags 4, code := field d 0 8
    args := field d 8 8, argsz := field d 0x10 4, width := (match flags % 4 with | 0 => 16 | 1 => 32 | _ => 64)
    coop := bit flags 2, pair := bit flags 3, x := field d 0x18 4, y := field d 0x1C 4, z := field d 0x20 4
    gangs := field d 0x24 2, validN := field d 0x28 4, nreg := field d 0x2C 2, preg := field d 0x2E 2
    spb := field d 0x30 1, ffb := field d 0x31 1, bars := field d 0x32 1, acct := field d 0x33 1, wprod := field d 0x34 2
    ctx := (queueOf s q).ctx, prio := (queueOf s q).prio, next := 0, endedCrews := 0, stack := [], lbars := [], status := 0
    fails := 0, first := 0, start := 0, finish := 0, record := [], recCrew := 0, stopping := false
    debug := s.dbgEn && s.dbgCtx == (queueOf s q).ctx
    span := if bit grp 63 then some (grp % 2 ^ 32) else none, spanArr := [] }

/-- Does the descriptor break a limit of Table 13-4 (R262)? -/
def badDesc (d : List Byte) (l : Launch) : Bool :=
  let flags := field d 0x14 4
  l.code % 32 != 0 || decide (flags ≥ 16) || flags % 4 == 3
    || l.x == 0 || l.y == 0 || l.z == 0 || decide (l.x * l.y * l.z > 2 ^ 32)
    || l.gangs == 0 || decide (l.gangs > 32) || l.validN == 0 || decide (l.validN > l.gangs * l.width)
    || l.nreg % 8 != 0 || decide (l.nreg < 8) || decide (l.nreg > 640)
    || l.preg % 8 != 0 || decide (l.preg < 8) || decide (l.preg > l.nreg)
    || decide (l.spb > 32) || decide (l.ffb > 32)
    || (if l.pair then l.spb % 2 == 1 || l.ffb % 2 == 1 else decide (l.spb + l.ffb > 32))
    || decide (l.bars > 32) || decide (l.acct > 4)
    || (if l.acct = 0 then l.wprod != 0 else l.wprod == 0 || decide (l.wprod > 256))
    || field d 0x38 2 != l.ctx || field d 0x26 2 != 0 || field d 0x36 2 != 0 || field d 0x3A 198 != 0

/-! ### Acceptance (R37, R260, R261) -/

/-- The device without its crews. -/
def idle (s : State) : State := { s with crews := [], cores := Tab.mapVals (fun _ x => { x with mxQ := [], copyQ := [] }) s.cores }

/-- Place crews of a launch until none is left or one does not fit; at most one crew per gang slot of the device fits. -/
def placeMany (pack : Bool) (cap k : Nat) : Nat → State → Option State
  | 0, _ => none
  | n + 1, s =>
    match launch? s k with
    | none => none
    | some l => if unplaced l then (placeNext s pack cap k).bind (placeMany pack cap k n) else some s

/-- More crews than the device can ever hold at once. -/
def placeFuel : Nat := 640 * 47 + 1

/-- All crews of a cooperative launch at once, with the largest physical count with which all of them fit, the least of them packed (R34,
R37). -/
def placeAll (s : State) (k : Nat) (l : Launch) : Option State :=
  ((physCounts l l.nreg).findSome? (fun c => placeMany false c k placeFuel s)).or (placeMany true l.preg k placeFuel s)

/-- Could the launch be placed on an idle device: one crew, or all of a cooperative launch at once (R37, R262)? -/
def everFits (s : State) (k : Nat) (l : Launch) : Bool :=
  let s := { idle s with launches := Tab.put [] k l }
  if l.coop then (placeMany true l.preg k placeFuel s).isSome else (placeNext s true l.preg k).isSome

/-- Append a launch with the next acceptance number, and move the head word (R260). -/
def enlist (s : State) (q head : Nat) (l : Launch) : State :=
  let k := s.accept
  let s := { s with launches := Tab.put s.launches k l, accept := k + 1, lastQ := Tab.put s.lastQ l.prio q }
  let s := countDev (sysWriteN s ((queueOf s q).ctl + 128) (toLE 8 ((head + 1) % 2 ^ 64))) 0x904 1
  let s := modQueue s q (fun x => { x with prev := some k, depOk := false, hold := false })
  let s := if l.debug && decide (l.x * l.y * l.z > 64) then raceNoStamp s s.lead l else s
  lookHead s q

/-- What trying to accept the head entry of a queue comes to: done, or, for a cooperative launch without room, not now. -/
inductive Accept where
  | done (s : State)
  | held (s : State)

/-- Accept the head entry of a ready queue. A descriptor that cannot be read or breaks a limit is refused (R261, R262); a
cooperative launch is placed whole at once, or waits (R37); one that another waiting cooperative launch holds back waits without holding
back others itself (R261; notes/assumptions/29). A queue whose head word may not be written stops, and nothing of it is accepted (R334,
R335; notes/assumptions/29). -/
def acceptHead (s : State) (q : Nat) : Accept :=
  match headEntry s q with
  | .bad s => .done (queueError s q)
  | .wait s => .done s
  | .ok s (head, e) =>
    if (barredOf s .hf (queueOf s q).ctx ((queueOf s q).ctl + 128) .write).isSome then .done (queueError s q) else
    let refuse := fun (s : State) (l : Launch) (st : Nat) => Accept.done (enlist s q head { l with status := st, stopping := true })
    match hfRead s q (queueOf s q).ctx e.desc 256 with
    | .wait s => .done s
    | .bad s => refuse s (mkLaunch s q e []) 4
    | .ok s d =>
      let l := mkLaunch s q e d
      if badDesc d l then refuse s l 4
      else if !everFits s s.accept l then refuse s l 3
      else if l.coop then
        if !placeable s (some q) l.prio then .held s
        else
          match placeAll { s with launches := Tab.put s.launches s.accept l } s.accept l with
          | none => .held (modQueue s q (fun x => { x with hold := true }))
          | some t =>
            match launch? t s.accept with
            | some l' => .done (enlist t q head l')
            | none => .done s
      else .done (enlist s q head l)

/-- May a queue's head entry be accepted: its dependence satisfied, and under SERIAL its previous launch's entry written? -/
def ready (s : State) (q : Nat) : Bool :=
  let x := queueOf s q
  pending s q && x.depOk && (match headEntry s q with
    | .ok _ (_, e) => serialMet s q e
    | _ => false)

/-- Ready queues in the order the lead tries them: highest PRIO first, and within a level round from the last one served. -/
def serveOrder (s : State) (qs : List Nat) : List Nat :=
  (List.range 8).flatMap (fun i =>
    let level := 7 - i
    let from_ := Tab.get 63 s.lastQ level + 1
    ((List.range 64).map (fun k => (from_ + k) % 64)).filter (fun q => qs.contains q && (queueOf s q).prio == level))

/-- Try the ready queues in turn. -/
def acceptFrom : List Nat → State → State
  | [], s => s
  | q :: qs, s =>
    match acceptHead s q with
    | .done s => s
    | .held s => acceptFrom qs s

/-- The queues for which a test holds. -/
def queuesWith (s : State) (f : Nat → Bool) : List Nat := (s.queues.map (fun p => p.1)).filter f

/-- Every queue with a pending entry looks at it. -/
def lookAll (s : State) : State := (queuesWith s (pending s)).foldl lookHead s

/-- LAUNCH_ACCEPT: the lead accepts one launch, if the list of 256 has room (R260). -/
def execLaunchAccept (s : State) : Out :=
  .next (if s.launches.length ≥ 256 then s
    else
      let s := lookAll s
      acceptFrom (serveOrder s (queuesWith s (ready s))) s)

/-! ### Completion (R66, R234, R263, Table 13-5) -/

/-- Is a launch over: refused, or stopped or fully placed with every crew ended, and no unwind of it open? -/
def launchOver (s : State) (k : Nat) (l : Launch) : Bool :=
  decide (3 ≤ l.status)
    || (s.crews.all (fun p => p.2.launch != k || p.2.phase == .ended)
        && (l.stopping || decide (l.next ≥ l.x * l.y * l.z)) && s.unwinds.all (fun u => u.2.launch != k))

/-- The entry's bytes from 4 on. -/
def completionBytes (k : Nat) (l : Launch) : List Byte :=
  toLE 4 l.first ++ toLE 8 (min l.fails (2 ^ 64 - 1)) ++ toLE 8 k ++ toLE 8 l.corr.toNat ++ toLE 8 l.start ++ toLE 8 l.finish
    ++ List.replicate 208 0#8
    ++ (if l.status = 2 then (List.range 96).flatMap (fun i => toLE 8 (wordAt l.record i)) else List.replicate 768 0#8)

/-- Write pieces of bytes one after another. -/
def writePieces (s : State) : List (Nat × Nat) → List Byte → State
  | [], _ => s
  | p :: ps, bs => writePieces (sysWriteN s p.1 (bs.take p.2)) ps (bs.drop p.2)

/-- The pieces of a completion entry without its STATUS. -/
def pastStatus : List (Nat × Nat) → List (Nat × Nat)
  | [] => []
  | p :: ps => (p.1 + 4, p.2 - 4) :: ps

/-- The launch leaves the list, with its crews. -/
def dropLaunch (s : State) (k : Nat) : State :=
  { s with launches := Tab.erase s.launches k, crews := s.crews.filter (fun p => p.2.launch != k) }

/-- STATUS of a completion entry (Table 13-5). -/
def entryStatus (l : Launch) : Nat := if l.status = 0 then 1 else l.status

/-- The state with a launch's completion entry written at its pieces, and the launch gone. -/
def entryWritten (s : State) (launch : Nat) (l : Launch) (ps : List (Nat × Nat)) : State :=
  let s := writePieces s (pastStatus ps) (completionBytes launch { l with status := entryStatus l })
  let s := sysWriteN s ((ps.head?.map (fun p => p.1)).getD 0) (toLE 4 (entryStatus l))
  let s := dropLaunch s launch
  let s := modQueue s l.queue (fun x => { x with prev := if x.prev = some launch then none else x.prev })
  if l.event then raiseEvent s 0 (l.queue + l.corr.toNat % 2 ^ 32 * 2 ^ 32) else s

/-- The state with an entry that cannot be written: its first page may be written, the queue stops, the launch is gone. -/
def entryLost (s : State) (launch : Nat) (l : Launch) : State :=
  let bs := completionBytes launch { l with status := entryStatus l }
  let s := match hfLocate s l.queue l.ctx (some launch) true ((pagePieces l.compl 1024).take 1), (Config.freeValue s.fresh).getLsbD 0 with
    | .ok s ((pa, n) :: _), true => sysWriteN (freshen s) (pa + 4) (bs.take (n - 4))
    | _, _ => freshen s
  queueError (dropLaunch s launch) l.queue

/-- COMPLETION_WRITE: the bytes, then STATUS, then the event. An entry that cannot be written stops the queue; whether its first
page was written all the same is free (R263). -/
def execCompletionWrite (launch : Nat) (s : State) : Out :=
  .next (match launch? s launch with
    | none => s
    | some l =>
      if !launchOver s launch l then s
      else
        let s := settleHome s
        let l := (launch? s launch).getD l
        match hfLocate s l.queue l.ctx (some launch) true (pagePieces l.compl 1024) with
        | .wait s => s
        | .bad s => entryLost s launch l
        | .ok s ps => entryWritten s launch l ps)

/-! ### Beats and the merged order (R269 to R272) -/

/-- One die's batch: carried declarations, then new ones, 1,024 at most; the rest carry (R270). -/
def closeBatch (s : State) (die : Nat) : State :=
  let d := Tab.get Die.reset s.dies die
  let beat := (d.decls.filter (fun x => x.carried)) ++ d.decls.filter (fun x => !x.carried && !x.roundMode)
  let left := (beat.drop 1024).map (fun x => { x with carried := true })
  let s := modDie s die (fun d => { d with batch := d.batch ++ beat.take 1024
                                           decls := left ++ d.decls.filter (fun x => x.roundMode) })
  if left.isEmpty then s else countDie s die 0x88A left.length

/-- Has every gang of every crew of a launch arrived for a round (R271)? -/
def roundArrived (s : State) (k : Nat) (l : Launch) (n : Nat) : Bool :=
  decide (l.next ≥ l.x * l.y * l.z) && s.crews.all (fun p => p.2.launch != k || p.2.phase == .ended
    || p.2.gangs.all (fun g => g.2.ended.isSome || decide (g.2.round ≥ n)))

/-- Put a number into an ascending list that does not hold it. -/
def insertOnce (n : Nat) : List Nat → List Nat
  | [] => [n]
  | m :: ms => if n < m then n :: m :: ms else if n = m then m :: ms else m :: insertOnce n ms

/-- The rounds of held declarations that close now, launch by launch, in ascending order. Of a launch that is over every gang has ended,
and so has arrived for every round (R271). -/
def closingRounds (s : State) : List (Nat × Nat) :=
  let held := s.dies.flatMap (fun p => (p.2.decls.filter (fun d => d.roundMode)).map (fun d => (d.launch, d.round)))
  (held.foldl (fun t h => insertOnce h.1 t) []).flatMap (fun k =>
    let rs := (held.filter (fun h => h.1 == k)).foldl (fun t h => insertOnce h.2 t) []
    let arrived := fun r => match launch? s k with
      | some l => roundArrived s k l r
      | none => true
    (rs.filter arrived).map (fun r => (k, r)))

/-- The state with every die's batch closed and the exchange begun. -/
def batchesClosed (s : State) : State :=
  let s := [0, 1, 2, 3].foldl closeBatch s
  { s with closing := closingRounds s, exchanging := true, mergeBy := s.cycle.toNat + 256 }

/-- BEAT_WRITE: the new length of a beat holds from this beat end on (R127). -/
def execBeatWrite (s : State) : Out :=
  .next (match s.beatNext with
    | some b => if s.cycle.toNat % 2 ^ s.beat.toNat = 0 then { s with beat := b, beatNext := none } else s
    | none => s)

/-- Does one transaction of a round come before another (R270)? -/
def declBefore (a b : Decl) : Bool :=
  let k := fun (d : Decl) => ((d.key * 4 + d.die) * 2 ^ 32 + d.index) * 32 + d.gang
  decide (k a < k b)

def insertDecl (d : Decl) : List Decl → List Decl
  | [] => [d]
  | e :: es => if declBefore d e then d :: e :: es else e :: insertDecl d es

/-- The tile entries of a declaration. -/
def entriesOf (d : Decl) : List GrantEnt := d.tiles.map (fun t => ⟨t.1, t.2, d.crew, d.gang, d.op, false, false⟩)

/-- Entries of one transaction at the head of the merged order, and the rest. -/
def splitTx : List GrantEnt → List GrantEnt × List GrantEnt
  | [] => ([], [])
  | e :: es =>
    let same := fun (x : GrantEnt) => x.crew == e.crew && x.gang == e.gang && x.op == e.op
    (e :: es.takeWhile same, es.dropWhile same)

/-- Do the entries of a transaction fit into their slices, of 8,192 entries each (R272)? -/
def slicesFit (qs tx : List GrantEnt) : Bool :=
  tx.all (fun e => decide ((qs.filter (fun o => homeSlice (256 * o.tile) == homeSlice (256 * e.tile))).length
    + (tx.filter (fun o => homeSlice (256 * o.tile) == homeSlice (256 * e.tile))).length ≤ 8192))

/-- Send the merged order to the grant queues, up to the last transaction that fits. -/
def sendOrder : Nat → List GrantEnt → List GrantEnt → List GrantEnt × List GrantEnt
  | 0, qs, es => (qs, es)
  | n + 1, qs, es =>
    match es with
    | [] => (qs, [])
    | _ =>
      let r := splitTx es
      if slicesFit qs r.1 then sendOrder n (qs ++ r.1) r.2 else (qs, es)

/-- The transactions of an exchange in the merged order: the beat's die by die, then the closing rounds'. -/
def exchanged (s : State) : List Decl :=
  let beat := [0, 1, 2, 3].flatMap (fun d => (Tab.get Die.reset s.dies d).batch)
  let held := s.dies.flatMap (fun p => p.2.decls.filter (fun d => d.roundMode))
  beat ++ s.closing.flatMap (fun r => (held.filter (fun d => d.launch == r.1 && d.round == r.2)).foldl (fun t d => insertDecl d t) [])

/-- The state with an exchange merged, its tickets resolved and its entries in the grant queues. -/
def mergedState (s : State) : State :=
  let ds := exchanged s
  let stays := fun (d : Decl) => !(d.roundMode && s.closing.contains (d.launch, d.round))
  let order := s.merged ++ ds.flatMap entriesOf
  let sent := sendOrder order.length s.grants order
  let s := { s with dies := Tab.mapVals (fun _ d => { d with batch := [], decls := d.decls.filter stays }) s.dies
                    closing := [], exchanging := false, grants := sent.1, merged := sent.2 }
  serveGrants (ds.foldl (fun s d => resolveOp s d.crew d.op .ok 0) s)

/-- MERGE_COMPLETE: the merged order is built, its tickets resolve, and its entries reach the grant queues (R270 to R272). -/
def execMergeComplete (s : State) : Out := .next (if s.exchanging then mergedState s else s)

/-- BEAT_END: an exchange that is still under way is complete by now, batches close and the next one begins; a write of SY.BEAT takes
effect (R127, R270). -/
def execBeatEnd (s : State) : Out :=
  .next (if s.cycle.toNat % 2 ^ s.beat.toNat ≠ 0 then s
    else
      let s := batchesClosed (if s.exchanging then mergedState s else s)
      if s.beatNext.isSome then soon s .beatWrite else s)

/-! ### Spans, heartbeats and failover (R364, R370) -/

/-- LBAR_COUNT_EXCHANGE: how many modules of the span have arrived at a launch barrier. -/
def execLbarCountExchange (launch n modules : Nat) (s : State) : Out :=
  .next (match launch? s launch with
    | some l =>
      if l.span.isSome ∧ n < 4 then
        lbarRelease (modLaunch s launch (fun l => { l with spanArr := Tab.set 0 l.spanArr n modules })) launch n
      else s
    | none => s)

/-- A die's heartbeats missed in a row; a headframe that misses four has failed. -/
def beatMissed (missed : BitVec 4) (lead d : Nat) (x : Die) : Die :=
  let n := if missed.getLsbD d then x.missed + 1 else 0
  { x with missed := n, failed := x.failed || (decide (4 ≤ n) && d != lead) }

/-- HEARTBEAT: misses in a row are counted; the lead's fourth is a failover (R364). -/
def execHeartbeat (missed : BitVec 4) (s : State) : Out :=
  let t := [0, 1, 2, 3].foldl (fun t d => modDie t d (beatMissed missed s.lead d)) s
  .next (if missed.getLsbD s.lead then
      let t := { t with missed := s.missed + 1 }
      if t.missed ≥ 4 then soon t .failover else t
    else { t with missed := 0 })

/-- The entries that a failed headframe has read and not placed are read again by the lead (R15). -/
def rereadEntries (s : State) : State :=
  { s with queues := Tab.mapVals (fun q (x : LQueue) =>
      if (Tab.get Die.reset s.dies (q % 4)).failed then { x with entries := [], depOk := false } else x) s.queues }

/-- FAILOVER: the next die in order that has not failed takes the lead, and event class 7 is raised (R15, R364). The spec does not say
what follows when the headframes of all four dies have failed: the lead stays where it is, its miss count starts again, and no event is
raised. It gives the lead only the queues of a failed headframe (R260) and does not say who places the crews and serves the sequencer of
its die: both go on as before. DESIGN CHOICE, notes/assumptions/65. -/
def execFailover (s : State) : Out :=
  .next (if s.missed < 4 then s
    else
      let s := modDie s s.lead (fun d => { d with failed := true })
      match [0, 1, 2, 3].find? (fun d => !(Tab.get Die.reset s.dies d).failed) with
      | some d => raiseEvent (rereadEntries { s with lead := d, missed := (Tab.get Die.reset s.dies d).missed }) 7 d
      | none => { s with missed := 0 })

end Sys2Proof.Machine
end

