-- ==== Sys2Proof/Machine/Crypto.lean ====
section
/-!
DEFINITION. SHA-512 and ECDSA over P-521, by which a start verifies the firmware image and the device attests it
(spec/20_bringup.md R390 to R392). The manual names both and takes them from their public standards
(notes/assumptions/52).
-/

namespace Sys2Proof.Machine

/-! ### SHA-512 -/

/-- Whole `k`-th root of `n` where it is below 2^68, its bits tried from the highest down. -/
def wholeRoot (k n : Nat) : Nat :=
  (List.range 68).foldl (fun r i => if (r + 2 ^ (67 - i)) ^ k ≤ n then r + 2 ^ (67 - i) else r) 0

/-- The first 80 primes. -/
def primes80 : List Nat := (List.range 410).filter (fun p => 2 ≤ p && (List.range p).all (fun d => d < 2 || p % d != 0))

/-- The round constants: 64 bits of the fraction of the primes' cube roots. -/
def shaRounds : List W64 := primes80.map (fun p => BitVec.ofNat 64 (wholeRoot 3 (p * 2 ^ 192)))

/-- The first hash value: 64 bits of the fraction of the first eight primes' square roots. -/
def shaStart : List W64 := (primes80.take 8).map (fun p => BitVec.ofNat 64 (wholeRoot 2 (p * 2 ^ 128)))

/-- Value of a list of bytes, most significant first. -/
def beNat (bs : List Byte) : Nat := bs.foldl (fun n b => n * 256 + b.toNat) 0

/-- The `n` low bytes of a value, most significant first. -/
def toBE (n x : Nat) : List Byte := (List.range n).map (fun i => BitVec.ofNat 8 (x / 256 ^ (n - 1 - i)))

/-- A message with its padding: a one bit, zeros, and its length in bits, to whole blocks of 128 bytes. -/
def shaPadded (bs : List Byte) : List Byte :=
  bs ++ 0x80#8 :: List.replicate ((239 - bs.length % 128) % 128) 0#8 ++ toBE 16 (8 * bs.length)

/-- One round: the working values `h` and the next sixteen words `w` of the schedule. -/
def shaRound (x : List W64 × List W64) (k : W64) : List W64 × List W64 :=
  match x with
  | ([a, b, c, d, e, f, g, h], w) =>
    let at' := fun (i : Nat) => (w[i]?).getD 0#64
    let t := h + (e.rotateRight 14 ^^^ e.rotateRight 18 ^^^ e.rotateRight 41) + ((e &&& f) ^^^ (~~~e &&& g)) + k + at' 0
    let u := (a.rotateRight 28 ^^^ a.rotateRight 34 ^^^ a.rotateRight 39) + ((a &&& b) ^^^ (a &&& c) ^^^ (b &&& c))
    let s0 := (at' 1).rotateRight 1 ^^^ (at' 1).rotateRight 8 ^^^ (at' 1 >>> 7)
    let s1 := (at' 14).rotateRight 19 ^^^ (at' 14).rotateRight 61 ^^^ (at' 14 >>> 6)
    ([t + u, a, b, c, d + t, e, f, g], w.drop 1 ++ [s1 + at' 9 + s0 + at' 0])
  | _ => x

/-- One block of 128 bytes into the hash. -/
def shaBlock (h : List W64) (block : List Byte) : List W64 :=
  let w := (List.range 16).map (fun i => BitVec.ofNat 64 (beNat ((block.drop (8 * i)).take 8)))
  List.zipWith (· + ·) h (shaRounds.foldl shaRound (h, w)).1

/-- The 64 bytes of the SHA-512 of a message. -/
def sha512 (bs : List Byte) : List Byte :=
  let m := shaPadded bs
  let h := (List.range (m.length / 128)).foldl (fun h i => shaBlock h ((m.drop (128 * i)).take 128)) shaStart
  h.flatMap (fun w => toBE 8 w.toNat)

/-! ### P-521 -/

def curveP : Nat := 2 ^ 521 - 1
def curveB : Nat :=
  0x0051953EB9618E1C9A1F929A21A0B68540EEA2DA725B99B315F3B8B489918EF109E156193951EC7E937B1652C0BD3BB1BF073573DF883D2C34F1EF451FD46B503F00
def curveN : Nat :=
  0x01FFFFFFFFFFFFFFFFFFFFFFFFFFFFFFFFFFFFFFFFFFFFFFFFFFFFFFFFFFFFFFFFFA51868783BF2F966B7FCC0148F709A5D03BB5C9B8899C47AEBB6FB71E91386409
def curveG : Nat × Nat :=
  (0x00C6858E06B70404E9CD9E3ECB662395B4429C648139053FB521F828AF606B4D3DBAA14B5E77EFE75928FE1DC127A2FFA8DE3348B3C1856A429BF97E7E31C2E5BD66,
   0x011839296A789A3BC0045C8A5FB42C7D1BD998F54449579B446817AFBD17273E662C97EE72995EF42640C550B9013FAD0761353C7086A272C24088BE94769FD16650)

/-- `b` to the power `e` modulo `m`, for an exponent of at most 521 bits. -/
def powMod (b e m : Nat) : Nat :=
  (List.range 521).foldl (fun r i => let q := r * r % m; if e.testBit (520 - i) then q * b % m else q) 1

/-- The inverse modulo a prime. -/
def invMod (x m : Nat) : Nat := powMod x (m - 2) m

/-- A difference modulo `m` of residues. -/
def subMod (a b m : Nat) : Nat := (a + m - b) % m

/-- The sum of two points; none is the point at infinity. -/
def curveAdd : Option (Nat × Nat) → Option (Nat × Nat) → Option (Nat × Nat)
  | none, q => q
  | p, none => p
  | some (x, y), some (u, v) =>
    if x = u ∧ (y + v) % curveP = 0 then none
    else
      let l := if x = u then subMod (3 * x * x % curveP) 3 curveP * invMod (2 * y % curveP) curveP % curveP
        else subMod v y curveP * invMod (subMod u x curveP) curveP % curveP
      let z := subMod (subMod (l * l % curveP) x curveP) u curveP
      some (z, subMod (l * subMod x z curveP % curveP) y curveP)

/-- A multiple of a point. -/
def curveMul (k : Nat) (p : Option (Nat × Nat)) : Option (Nat × Nat) :=
  (List.range 521).foldl (fun r i => let q := curveAdd r r; if k.testBit (520 - i) then curveAdd q p else q) none

def onCurve (p : Nat × Nat) : Bool :=
  p.1 < curveP && p.2 < curveP && p.2 * p.2 % curveP == subMod ((p.1 * p.1 * p.1 + curveB) % curveP) (3 * p.1 % curveP) curveP

/-- Does the signature (r, s) over a message of this hash verify under the key? -/
def ecdsaVerifies (hash : List Byte) (key : Nat × Nat) (r s : Nat) : Bool :=
  if onCurve key && 0 < r && r < curveN && 0 < s && s < curveN then
    let w := invMod s curveN
    match curveAdd (curveMul (beNat hash * w % curveN) (some curveG)) (curveMul (r * w % curveN) (some key)) with
    | none => false
    | some (x, _) => x % curveN == r
  else false

end Sys2Proof.Machine
end

