-- ==== Sys2Proof/Machine/HostEvents.lean ====
section
/-!
DEFINITION. The events of claims, translation, ownership, page requests, functions, register writes, links, power and self-test
(spec/16_tables.md R332, R337 to R339; spec/17_counters.md R350 to R355; spec/18_host.md R356 to R369; spec/20_bringup.md R392 to
R396; spec/01_device.md R19).
-/

namespace Sys2Proof.Machine

/-! ### Events and their claims (R338, R339, R363) -/

/-- CLAIM_DEADLINE. -/
def execClaimDeadline (e : Nat) (s : State) : Out :=
  .next (if (claim s e).state = 1 ∧ (claim s e).deadline ≤ s.cycle.toNat then deliverClaim s e true false 2 else s)

def execEvnext (s : State) : Out := .next (takeOffer s)
def execEvans (e : Nat) (forward : Bool) (s : State) : Out := .next (answerClaim s e forward)
def execEvack (e : Nat) (s : State) : Out := .next (ackClaim s e)

/-- A host address as the device reaches it (Table 10-2). -/
def hostPa (a : Nat) : Nat := a % 2 ^ 51 + 2 ^ 51

/-- The two words of a host event record (Table 18-5). -/
def eventRecord (e : Nat) (c : Claim) : List Nat :=
  [e + 2 ^ 8 * b2n c.timedOut + 2 ^ 9 * b2n c.fwd + 2 ^ 16 * c.pend, c.payload.toNat]

/-- The state with the delivery of an event in the ring and its vector sent. -/
def eventWritten (s : State) (e : Nat) (es : List Nat) : State :=
  let r := s.ring
  let s := sysWriteN s (hostPa (r.base + 16 * (r.tail % 2 ^ r.log2))) ((eventRecord e (claim s e)).flatMap (toLE 8))
  { s with ring := { r with tail := (r.tail + 1) % 2 ^ 64, waiting := es
                            msix := Tab.set 0 r.msix (e % 8) (Tab.get 0 r.msix (e % 8) + 1) } }

/-- May a delivery be written: the ring is on, reachable and not full (R363)? -/
def eventRingOpen (s : State) : Bool :=
  let r := s.ring
  r.en && !s.hostPortDown && (r.tail + 2 ^ 64 - r.head) % 2 ^ 64 != 2 ^ r.log2

/-- EVENT_RING_WRITE: the oldest waiting delivery is written to the ring, then its vector is sent (R363). -/
def execEventRingWrite (s : State) : Out :=
  .next (match s.ring.waiting with
    | [] => s
    | e :: es =>
      if eventRingOpen s then eventWritten s e es else s)

/-! ### Translation invalidation (R332) -/

/-- Does a page of 64 KiB meet the range of a TINV? -/
def tinvMeets (t : Tinv) (page n : Nat) : Bool :=
  t.len.toNat == 0 || (decide (page * 65536 < t.start.toNat + t.len.toNat) && decide (t.start.toNat < (page + n) * 65536))

/-- Does the invalidation cover a cached translation: by its context and virtual range, or by its function and
a run of guest pages that it rests on, be it that of a stage-one table (R332)? -/
def tinvDrops (t : Tinv) (x : Xlat) : Bool :=
  if t.s2 then x.s2 && x.fn == t.fn && x.gpages.any (fun g => tinvMeets t g.1 g.2)
  else x.ctx == t.ctx && tinvMeets t x.vpage (2 ^ x.run)

def execTinvGo (s : State) : Out := .next (if s.tinv.busy then s else tinvStart s)

/-- The gangs of the machine. -/
def allGangs (s : State) : List (GRef × Gang) :=
  s.crews.flatMap (fun c => c.2.gangs.map (fun g => (GRef.user c.1 g.1, g.2)))
    ++ s.cores.filterMap (fun c => c.2.sup.map (fun x => (GRef.sup c.1, x)))

/-- Has a gang an access on its way to physical memory that lies in a test? -/
def onTheWay (x : Gang) (p : Nat → Bool) : Bool :=
  let at_ := fun (q : Place) => match q with | .phys pa => p pa | _ => false
  x.buf.any (fun e => at_ e.place) || x.sysq.any (fun e => p e.pa)
    || x.flights.any (fun f => f.elems.any (fun e => !e.done && at_ e.place))

/-- Has a copy engine an element part of which may be written, to a place that a test on its context and address picks (R226)? -/
def copyOnTheWay (s : State) (p : Nat → Nat → Bool) : Bool :=
  s.cores.any (fun c => c.2.copyQ.any (fun m => m.placed.any (fun e => (e.2.2.filter (fun x => !x.scr)).any (fun x =>
    p m.ctx x.at_ || p m.ctx (x.at_ + x.len - 1)))))

/-- Does a physical address lie in a translation's frames? -/
def xlatHolds (x : Xlat) (pa : Nat) : Bool := decide (x.frame ≤ pa / 65536) && decide (pa / 65536 < x.frame + 2 ^ x.run)

/-- The translations that a test picks are dropped from what waiting instructions of a gang have kept (R368). -/
def dropPages (s : State) (g : GRef) (p : Xlat → Bool) : State :=
  modGang s g (fun x => { x with groups := x.groups.map (fun q => { q with pages := q.pages.filter (fun e => !p e.2.1) }) })

/-- TINV_DONE: every covered translation is dropped, once every access made through one of them has been performed (R332). -/
def execTinvDone (s : State) : Out :=
  .next (if !s.tinv.busy then s
    else
      let gone := s.xlats.filter (tinvDrops s.tinv)
      let held := fun (ctx pa : Nat) => gone.any (fun x => x.ctx == ctx && xlatHolds x pa)
      if (allGangs s).any (fun g => onTheWay g.2 (held (ctxOf s g.1))) || copyOnTheWay s held then s
      else
        let s := (allGangs s).foldl (fun s g => dropPages s g.1 (tinvDrops s.tinv)) s
        { s with xlats := s.xlats.filter (fun x => !tinvDrops s.tinv x), tinv := { s.tinv with busy := false } })

/-! ### Ownership (R357, R360 to R362) -/

def execOwnreqGo (s : State) : Out := .next (ownreqStart s)

def inBlock (block pa : Nat) : Bool := pa / 4096 == block

/-- The next block of the request, or its end. -/
def ownNext (s : State) : State :=
  let left := s.ownreq.left.drop 1
  { s with ownreq := { s.ownreq with left := left, marked := left.head?, busy := !left.isEmpty } }

/-- The lines of an ownership block. -/
def blockLines (block : Nat) : List Nat := (List.range 32).map (fun i => 32 * block + i)

/-- Every core point writes back and discards its copies of a block, backing stores included; then level two writes its lines of the
block to memory and drops them (R361). -/
def flushBlock (s : State) (block : Nat) : State :=
  let s := s.cores.foldl (fun s c =>
    let s := spillsHome s c.1 (inBlock block)
    let held := tabLines (((core? s c.1).map (fun x => x.cp)).getD [])
    (held.filter (fun l => l / 32 == block)).foldl (fun s l => coreEvict s c.1 l) s) s
  (blockLines block).foldl l2Evict s

/-- OWN_TO_HOST_FLIP: once the accesses translated before the mark are done, the copies are written back and discarded, the
directory entries dropped, and the owner bit flips (R361). -/
def execOwnToHostFlip (block : Nat) (s : State) : Out :=
  .next (if s.ownreq.dir || s.ownreq.marked != some block || (allGangs s).any (fun g => onTheWay g.2 (inBlock block))
      || copyOnTheWay s (fun _ pa => inBlock block pa) then s
    else
      let s := flushBlock s block
      ownNext { s with hostDir := s.hostDir.filter (fun l => l / 32 != block), hostOwned := s.hostOwned ++ [block] })

/-- OWN_TO_DEVICE_FLIP: the host's dirty bytes of the block come back, and the owner bit flips (R362). -/
def execOwnToDeviceFlip (block : Nat) (dirty : List (Nat × Byte)) (s : State) : Out :=
  .next (if !s.ownreq.dir || s.ownreq.marked != some block then s
    else
      let s := (s.hcopy.filter (fun p => inBlock block p.1)).foldl (fun s p => homeWriteBack s p.1) s
      let s := (blockLines block).foldl farDrop s
      let s := (dirty.filter (fun p => inBlock block p.1)).foldl (fun s p => sysWrite s p.1 p.2) s
      ownNext { s with hostOwned := s.hostOwned.filter (fun b => b != block) })

/-! ### Page requests (R273, R319, R366 to R368) -/

/-- The two words of a page request (Table 18-7). -/
def pageRecord (r : PageReq) (tag : Nat) : List Nat :=
  [r.page * 65536 % 2 ^ 57, tag + 2 ^ 8 * r.fn + 2 ^ 16 * r.stage + 2 ^ 17 * r.kind + 2 ^ 32 * r.ctx, 0, 0]

def freeTags (s : State) (fn : Nat) : List Nat :=
  (List.range 256).filter (fun t => !s.pageReqs.any (fun r => r.fn == fn && r.tag == some t))

/-- The state with a page request in its ring: the tail moves, event class 3, and the notices of the gangs that wait. -/
def pageWritten (s : State) (fn : Nat) (r : PageReq) (tag : Nat) : State :=
  let p := pageRegsOf s fn
  let s := sysWriteN s (hostPa (p.base + 32 * (p.tail % 256))) ((pageRecord r tag).flatMap (toLE 8))
  let s := modPageRegs s fn (fun p => { p with tail := (p.tail + 1) % 2 ^ 64 })
  let s := { s with pageReqs := s.pageReqs.map (fun q => if q = r then { q with tag := some tag } else q) }
  let s := raiseEvent s 3 (fn + 2 ^ 8 * tag)
  r.waiters.foldl (noticeFor tag) s

/-- May a page request be written: the ring is on, reachable and not full (R366)? -/
def pageRingOpen (s : State) (fn : Nat) : Bool :=
  let p := pageRegsOf s fn
  p.en && !s.hostPortDown && decide ((p.tail + 2 ^ 64 - p.head) % 2 ^ 64 < 256)

/-- PAGE_REQUEST_WRITE: the oldest request of a function that waits is written to its ring, with a free tag (R366). -/
def execPageRequestWrite (fn : Nat) (s : State) : Out :=
  .next (match s.pageReqs.find? (fun r => r.fn == fn && r.tag.isNone && r.answer.isNone) with
    | none => s
    | some r =>
      let tags := freeTags s fn
      match tags[(Config.freeValue s.fresh).toNat % tags.length]? with
      | none => s
      | some tag =>
        if !pageRingOpen s fn then s
        else
          pageWritten (freshen s) fn r tag)

def setPlace (s : State) (g : GRef) (op lane : Nat) (h : Elem → Elem) : State :=
  modGang s g (fun x => modFlight x op (fun f => modElem f lane h))

/-- What an element of a flight does at its place. -/
def elemKind (f : Flight) : AKind :=
  match f.kind with
  | .atomic _ => .atomic
  | .store | .zfill => .write
  | _ => .read

/-- The checks of an element of a flight once more, at its virtual address. -/
def chkAgain (r : Trail) (g : GRef) (x : Gang) (f : Flight) (e : Elem) (va : Nat) : Trail × Chk :=
  let is : Iss := ⟨g, 0, x, QGroup.start 0#16 0, 0#64⟩
  if f.kind == .zfill then chkZero r is va e.data else chkGlobal r is va f.size.bytes (elemKind f)

/-- The state with an element of a flight judged again: it has its place, waits for another page or on a closing block, or reads as
absent for a residency flag; or the code that its lane throws (R238, R361, R367, R368). -/
def judged (r : Trail) (g : GRef) (x : Gang) (f : Flight) (e : Elem) (va : Nat) : Trail × Option Nat :=
  let put := fun (t : Trail) (h : Elem → Elem) => (setPlace t.1 g f.id e.lane h, t.2)
  match chkAgain r g x f e va with
  | (t, .ok (.page fn p _ tb) _) =>
    let u := put t (fun e => { e with place := .page fn p va tb })
    ((requestPage u.1 fn p (ctxOf u.1 g) (if tb then 3 else kindCode (elemKind f)) 1 (.flight g f.id), u.2), none)
  | (t, .ok pl lw) => (put t (fun e => { e with place := pl, cmp := if f.kind == .store then b2n lw else e.cmp }), none)
  | (t, .hold) => (put t (fun e => { e with place := .held va }), none)
  | (t, .absent) =>
    if f.rp.isSome then (put t (fun e => { e with absent := true, done := true, result := 0 }), none) else (t, some 0x8002)
  | (t, .code c) => (t, some c)

/-- The virtual address of an element that still wants its translation. -/
def awaitedVa (p : Place) : Option Nat :=
  match p with
  | .page _ _ va _ | .held va => some va
  | _ => none

/-- A lane that throws leaves its load or atomic; a store goes whole, once every lane has been judged (R368). -/
def laneThrows (s : State) (g : GRef) (f : Flight) (lane : Nat) : State :=
  if f.storing then setPlace s g f.id lane (fun e => { e with done := true }) else dropElem s g f.id lane

/-- The lanes in which an element of a flight throws a code: its own, or every active lane for a piece of a ZFILL, and once (R238, R250). -/
def replayThrows (f : Flight) (lane code : Nat) (before : List (Nat × Nat × Nat)) : List (Nat × Nat × Nat) :=
  if f.kind == .zfill then
    (if before.isEmpty then ((List.range 64).filter (fun l => f.active.getLsbD l)).map (fun l => (l, f.pc, code)) else before)
  else before ++ [(lane, f.pc, code)]

/-- Judge again those elements of a flight whose place passes a test, each line translated once (R240); `failed` tells that the host
answered that the page failed. -/
def replayLane (g : GRef) (op : Nat) (hit : Place → Bool) (failed : Bool) (acc : Trail × List (Nat × Nat × Nat)) (lane : Nat) :
    Trail × List (Nat × Nat × Nat) :=
  match flightOf? acc.1.1 g op with
  | none => acc
  | some (x, f) =>
    match f.elems.find? (fun e => e.lane == lane && !e.done && hit e.place) with
    | none => acc
    | some e =>
      match awaitedVa e.place with
      | none => acc
      | some va =>
        let r := if failed then (acc.1, some 0x8002) else judged acc.1 g x f e va
        match r with
        | (t, none) => (t, acc.2)
        | (t, some c) => ((laneThrows t.1 g f lane, t.2), replayThrows f lane c acc.2)

/-- A store of which a lane has thrown is not performed at all (R368). -/
def dropStore (s : State) (g : GRef) (op : Nat) : State :=
  storeDone (modGang s g (fun x => { x with flights := x.flights.filter (fun y => y.id ≠ op) })) g op

/-- Judge the waiting elements of a flight again, and let what has become complete of it go on. An access that the open body does not
declare ends the transaction (R308). -/
def replayFlight (s : State) (g : GRef) (op : Nat) (hit : Place → Bool) (failed : Bool) : State :=
  match flightOf? s g op with
  | none => s
  | some (x, f) =>
    let r := (f.elems.map (fun e => e.lane)).foldl (replayLane g op hit failed) ((s, []), [])
    let t := r.1.1
    let t := if x.body.isSome && r.2.any (fun e => e.2.2 == 0x8003) then breakBody t g else t
    let t :=
      if f.storing then
        (match r.2, flightOf? t g op with
          | [], some (_, h) => settleStore t g h
          | _, _ => dropStore t g op)
      else settleFlight t g op
    throwMany t g r.2

/-- Is a place on a page of a function? -/
def onPage (fn page : Nat) (p : Place) : Bool :=
  match p with
  | .page fn' page' _ _ => fn' == fn && page' == page
  | _ => false

/-- Is it stalled in translation? -/
def inTranslation (p : Place) : Bool :=
  match p with
  | .held _ => true
  | _ => false

/-- Elements stalled in translation try again: their block has changed its owner, or their tile is granted (R308, R361). -/
def retryHeld (s : State) (g : GRef) (x : Gang) : State :=
  (x.flights.filter (fun f => f.elems.any (fun e => !e.done && inTranslation e.place))).foldl
    (fun s f => replayFlight s g f.id inTranslation false) s

def copyCmdOf (core : Nat) (c op : Nat) (f : CopyCmd → CopyCmd) (s : State) : State :=
  modCore s core (fun x => { x with copyQ := x.copyQ.map (fun m => if m.crew = c ∧ m.op = op then f m else m) })

/-- Change the record of a PAGEREQ in progress. -/
def modPageOp (s : State) (c op : Nat) (h : PageOp → PageOp) : State :=
  { s with pageOps := s.pageOps.map (fun o => if o.crew = c ∧ o.op = op then h o else o) }

/-- What a reply to a request does for the virtual page of a PAGEREQ that waits for it (R251, R367): it is resident, it fails, or it waits for
another request, which may be one of stage one for a page that software has backed (R331). -/
def answerPage (c op v : Nat) (r : PageReq) (failed : Bool) (s : State) : State :=
  let done := fun (s : State) (bad : Bool) =>
    modPageOp s c op (fun q => { q with pages := q.pages.filter (fun x => x != v), fault := q.fault || bad })
  match s.pageOps.find? (fun p => p.crew == c && p.op == op) with
  | none => s
  | some p =>
    if !p.pages.contains v then s
    else if failed then done s true
    else
      match translate s p.ctx (v * 65536) with
      | (s, .miss fn g tb) => requestPage s fn g p.ctx (if tb then 3 else 4) 1 (.pagereq c op v)
      | (s, .ok x) =>
        if xlatPresent x then done s false
        else if r.stage == 0 || !xlatBacked x then done s true
        else requestPage s x.fn v p.ctx 4 0 (.pagereq c op v)

/-- What a reply does for one waiter. -/
def replyTo (r : PageReq) (failed : Bool) (s : State) (w : Waiter) : State :=
  match w with
  | .group g quad v =>
    if failed then modGang s g (fun x => { x with groups := x.groups.map (fun q =>
      if !q.ended && q.quads.getLsbD quad then { q with pageFail := q.pageFail ++ [v] } else q) })
    else s
  | .flight g op => replayFlight s g op (onPage r.fn r.page) failed
  | .copy core c op k =>
    if failed then
      let fail := fun (m : CopyCmd) => { m with failed := m.failed ++ [k] }
      let s := (s.cores.map (fun p => p.1)).foldl (fun s i => copyCmdOf i c op fail s) (copyCmdOf core c op id s)
      modCrew s c (fun cr => { cr with savedCopies := cr.savedCopies.map (fun m => if m.op = op then fail m else m) })
    else s
  | .headframe q _ none => if failed then queueError s q else soon s (.dependenceWatch q)
  | .headframe _ _ (some k) =>
    (match failed, launch? s k with
      | true, some l => entryLost s k l
      | _, _ => s)
  | .pagereq c op v => answerPage c op v r failed s

/-- The reply answers a class-4 notice: ANSW and CANCEL are set, and the gang has no request any more (R319). A notice that was not
written yet is not written: DESIGN CHOICE, notes/assumptions/66. -/
def noticeOff (tag : Nat) (s : State) (g : GRef) : State :=
  let mine := fun r : Request => decide (r.gref = g) && r.cls == 4 && r.info == tag
  let on := (s.cores.any (fun c => c.2.mbox.any (fun r => mine r.2 && !r.2.cancel)))
  let s := modCore s (coreOf s g) (fun c =>
    { c with mbox := Tab.mapVals (fun _ (r : Request) => if mine r then { r with answ := true, cancel := true } else r) c.mbox })
  modGang s g (fun x => { x with trapReq := if (x.trapReq.map mine).getD false then none else x.trapReq, noticed := x.noticed && !on })

def answerNotice (tag : Nat) (s : State) (w : Waiter) : State :=
  match w with
  | .group (.user c n) _ _ | .flight (.user c n) _ => noticeOff tag s (.user c n)
  | _ => s

/-- Must an answer wait for a crew that is saved (R368)? -/
def answerWaits (s : State) (w : Waiter) : Bool :=
  match w with
  | .flight (.user c _) _ => ((crew? s c).map (fun cr => cr.phase == .saved)).getD false
  | _ => false

/-- The state with a request answered: its waiters go on, but for those whose crew is saved, for which the answer is kept. -/
def answered (s : State) (r : PageReq) (failed : Bool) : State :=
  let kept := r.waiters.filter (answerWaits s)
  let s := { s with pageReqs := s.pageReqs.filter (fun q => q ≠ r)
      ++ (if kept.isEmpty then [] else [{ r with tag := none, waiters := kept, answer := some failed }]) }
  (r.waiters.filter (fun w => !kept.contains w)).foldl (replyTo r failed) s

/-- Answers that were kept reach the crews that have been resumed (R368). -/
def keptAnswers (s : State) : State :=
  (s.pageReqs.filter (fun r => r.answer.isSome && r.waiters.any (fun w => !answerWaits s w))).foldl
    (fun s r => answered s r (r.answer == some true)) s

/-- PAGE_REPLY: the host's answer for a tag (R367). -/
def execPageReply (fn tag stat : Nat) (s : State) : Out :=
  .next (if stat > 1 then s
    else
      match s.pageReqs.find? (fun r => r.fn == fn && r.tag == some tag) with
      | none => { s with late := s.late ++ [.replyBad fn] }
      | some r => answered (r.waiters.foldl (answerNotice tag) s) r (stat == 1))

/-- PAGEREQ_RESOLVE: every page of a PAGEREQ has been answered (R251). -/
def execPagereqResolve (crew op : Nat) (s : State) : Out :=
  .next (match s.pageOps.find? (fun p => p.crew == crew && p.op == op) with
    | none => s
    | some p =>
      if !p.pages.isEmpty then s
      else
        let s := { s with pageOps := s.pageOps.filter (fun o => !(o.crew == crew && o.op == op)) }
        if p.fault then resolveOp s crew op .faulted (0x8002 * 2 ^ 16) else resolveOp s crew op .ok 0)

/-! ### Function-level reset (R365) -/

/-- The ended bodies of a gang that is discarded give up their grants as it goes (R309, R365). -/
def dropEnding (c : Nat) (s : State) (g : Nat) : State :=
  ((((gang? s (.user c g)).map (fun x => x.ending)).getD [])).foldl (fun s t => endTicket s c g t) s

/-- Discard a crew: its stores drain, its commands and transactions are cancelled, its requests abandoned, its banks freed. -/
def discardCrew (s : State) (c : Nat) : State :=
  match crew? s c with
  | none => s
  | some cr =>
    let gs := cr.gangs.map (fun p => p.1)
    let s := gs.foldl (fun s g => (drainAll s (.user c g)).1) s
    let s := if cr.phase = .resident then writeBackCrew s c else s
    let s := (crewCores s c).foldl (fun s core =>
      modCore s core (fun x => { x with copyQ := x.copyQ.filter (fun m => m.crew != c), mxQ := x.mxQ.filter (fun m => m.crew != c) })) s
    let s := gs.foldl (fun s g => dropEnding c (cancelTransactions (abandonRequest s (.user c g)) c g).1 g) s
    let was := cr.phase
    let s := modCrew s c (fun cr => { cr with phase := .ended })
    let s := if was = .resident then freeBanksOf s cr else s
    { s with crews := Tab.erase s.crews c, pageOps := s.pageOps.filter (fun p => p.crew != c) }

/-- Is a context of a function? -/
def ctxOfFn (s : State) (fn ctx : Nat) : Bool := match ctxEntry? s ctx with | some e => e.s2 && e.fn == fn | none => false

/-- The launches of a function. -/
def launchesOf (s : State) (fn : Nat) : List Nat := (s.launches.filter (fun p => ctxOfFn s fn p.2.ctx)).map (fun p => p.1)

/-- The state with a function reset: its crews discarded, its launches ended with status 5, its queues off, its requests gone. -/
def functionReset (s : State) (fn : Nat) : State :=
  let ls := launchesOf s fn
  let cs := (s.crews.filter (fun p => ls.contains p.2.launch)).map (fun p => p.1)
  let t := cs.foldl discardCrew s
  let t := ls.foldl (fun t k => modLaunch t k (fun l => { l with status := 5, stopping := true, finish := t.cycle.toNat })) t
  let t := { t with unwinds := t.unwinds.filter (fun u => !ls.contains u.2.launch) }
  let t := { t with queues := Tab.mapVals (fun _ (x : LQueue) =>
    if ctxOfFn s fn x.ctx then { x with en := false, state := 0, depOk := false, hold := false, entries := [] } else x) t.queues }
  { t with pageReqs := t.pageReqs.filter (fun r => r.fn != fn) }

/-- FUNCTION_LEVEL_RESET. -/
def execFunctionLevelReset (fn : Nat) (s : State) : Out := .next (if fn < 1 ∨ fn > 16 then s else functionReset s fn)

/-! ### Register writes with an event of their own -/

def execLqConfigWrite (q word : Nat) (val : W64) (s : State) : Out := .next (if q < 64 then lqPut s q word val.toNat else s)

def execAccessTableWrite (target ctx : Nat) (val : BitVec 16) (s : State) : Out := .next (accessPut s target ctx val.toNat)

/-- REGISTER_WRITE: the host writes a word of the register block, or, with its function above bit 52, of a virtual function's
BAR0 (R365). -/
def execRegisterWrite (pa : Nat) (val : W64) (s : State) : Out :=
  .next (if s.hostPortDown || (deviceStopped s && !inStart pa) then s
    else if pa ≥ 2 ^ 52 then vfPut s (pa / 2 ^ 52) (pa % 2 ^ 52 / 8 * 8) val.toNat
    else if regionOf pa = .regs then regPut s true ((pa - regBase) / 8 * 8) val.toNat else s)

/-- QCFG_WRITE: VALID is a view of the mapping as it stands (R122), so evaluating it again changes no state. -/
def execQcfgWrite (_crew _n : Nat) (s : State) : Out := .next s

/-! ### Ticks (R350, R353 to R355) -/

/-- The CORR values of the three oldest launches with a crew on a die (R354). -/
def dieCorr (s : State) (die : Nat) : List Nat :=
  let on := fun (k : Nat) => s.crews.any (fun p => p.2.launch == k && p.2.phase == .resident
    && (crewCores s p.1).any (fun c => dieOf c == die))
  let cs := ((s.launches.filter (fun p => on p.1)).map (fun p => p.2.corr.toNat)).take 3
  cs ++ List.replicate (3 - cs.length) 0

def counterWords (t : Tab W64) (n k : Nat) : List Nat := (List.range k).map (fun i => (Tab.get 0#64 t (n + i)).toNat)

/-- One die's tick record (R354). -/
def tickRecord (s : State) (die : Nat) : List Nat :=
  [1 + die * 2 ^ 8 + s.tick.tnum.toNat * 2 ^ 32, s.cycle.toNat] ++ dieCorr s die ++ [0, 0, 0]
    ++ (if die = 0 then counterWords s.latch 0x900 16 else List.replicate 16 0)
    ++ counterWords (Tab.get Die.reset s.dies die).latch 0x880 32
    ++ (List.range 160).flatMap (fun c => match core? s (160 * die + c) with
        | some x => counterWords x.latch 0x800 32
        | none => List.replicate 32 0)

/-- Every latch takes its live counter. -/
def latchAll (s : State) : State :=
  { s with latch := s.live, dies := Tab.mapVals (fun _ (d : Die) => { d with latch := d.live }) s.dies
           cores := Tab.mapVals (fun _ (c : Core) => { c with latch := c.live }) s.cores }

/-- Is the cycle a tick edge? -/
def atEdge (s : State) : Bool := s.cycle.toNat % 2 ^ s.tick.klog == 0

/-- The state with the counters of a tick latched and recorded. -/
def ticked (s : State) : State :=
  let s := latchAll s
  let s := { s with tick := { s.tick with tnum := s.tick.tnum + 1 } }
  [0, 1, 2, 3].foldl (fun s d => traceRecord s (tickRecord s d)) s

/-- TICK_EDGE: with EN, counters are latched, TNUM rises and every die writes its record; then a pending clear and pending
settings take effect. -/
def execTickEdge (s : State) : Out :=
  .next (if !atEdge s then s
    else
      let s := if s.tick.en then ticked s else s
      let s := if s.tick.next.isSome then soon s .tickConfigWrite else s
      if s.tick.clr then soon s .tickClear else s)

/-- TICK_CONFIG_WRITE: the settings written take effect at the edge. -/
def execTickConfigWrite (s : State) : Out :=
  .next (match s.tick.next with
    | some (en, k) => if atEdge s then { s with tick := { s.tick with en := en, klog := k, next := none } } else s
    | none => s)

/-- Every live counter of the module (Table 17-7). -/
def allCounters (s : State) : List Nat :=
  (s.cores.flatMap (fun c => (List.range 17).map (fun i => counterKey (0x800 + i) c.1)))
    ++ [0, 1, 2, 3].flatMap (fun d => (List.range 12).map (fun i => counterKey (0x880 + i) d))
    ++ (List.range 6).map (fun i => counterKey (0x900 + i) 0)

/-- TICK_CLEAR: a write of zero to every live counter, which wins over the cycle's increments (R353). -/
def execTickClear (s : State) : Out :=
  .next (if !s.tick.clr || !atEdge s then s
    else { s with tick := { s.tick with clr := false }, live := [], wrote := s.wrote ++ allCounters s
                  dies := Tab.mapVals (fun _ (d : Die) => { d with live := [] }) s.dies
                  cores := Tab.mapVals (fun _ (c : Core) => { c with live := [] }) s.cores })

/-- CURRENT_SAMPLE: five rails of each die, in milliamperes (R355). -/
def execCurrentSample (milliamps : List W32) (s : State) : Out :=
  let a := fun (d i : Nat) => ((milliamps[5 * d + i]?).map (fun w => w.toNat)).getD 0
  .next (if !s.tick.en || s.cycle.toNat % 1250 ≠ 0 then s
    else [0, 1, 2, 3].foldl (fun s d => traceRecord s
      ([2 + d * 2 ^ 8, s.cycle.toNat, a d 0 + a d 1 * 2 ^ 32, a d 2 + a d 3 * 2 ^ 32, a d 4] ++ dieCorr s d)) s)

/-! ### Power and cooling (R19, R396) -/

/-- The limit in force, in milliwatts. -/
def powerLimitNow (s : State) : Nat := 1000 * (if s.coldPlate.isEmpty then s.powlim else min 1000 s.powlim)

/-- POWER_LIMIT: measured power reaches the limit; event class 8 is raised as the limit engages. -/
def execPowerLimit (milliwatts : Nat) (s : State) : Out :=
  .next (if milliwatts < powerLimitNow s then s
    else
      let on := s.powerEngaged
      let s := { s with power := milliwatts, powerEngaged := true }
      if on then s else raiseEvent s 8 milliwatts)

/-- POWER_BELOW_LIMIT: what is measured now is free below the limit. -/
def execPowerBelowLimit (s : State) : Out :=
  .next { freshen s with power := (Config.freeValue s.fresh).toNat % powerLimitNow s, powerEngaged := false }

def execColdPlateLimit (sensor : Nat) (s : State) : Out :=
  .next (if s.coldPlate.contains sensor then s else raiseEvent { s with coldPlate := s.coldPlate ++ [sensor] } 12 sensor)

def execColdPlateInRange (sensor : Nat) (s : State) : Out :=
  .next { s with coldPlate := s.coldPlate.filter (fun x => x != sensor) }

/-- JUNCTION_TRIP: every clock stops until a cold start (R349, R396). -/
def execJunctionTrip (sensor : Nat) (s : State) : Out := .next (raiseEvent { s with stoppedClock := true } 12 sensor)

/-! ### Links (R356, R369) -/

/-- LINK_LANE_FAIL: the lane is retired and event class 6 raised; a link without lanes is down. -/
def execLinkLaneFail (port lane : Nat) (s : State) : Out :=
  .next (if port ≥ 18 ∨ lane ≥ 8 ∨ !trained s port ∨ (portOf s port).retired.getLsbD lane then s
    else
      let x := portOf s port
      let x := { x with retired := x.retired ||| BitVec.ofNat 16 (2 ^ lane) }
      let s := raiseEvent { s with ports := Tab.upd s.ports port (fun _ => x) } 6 (port + lane * 2 ^ 8)
      if (List.range 8).all (fun i => x.retired.getLsbD i) then soon s (.linkDown port) else s)

def execLinkDown (port : Nat) (s : State) : Out :=
  .next (if port ≥ 18 ∨ !trained s port ∨ (portOf s port).down then s
    else raiseEvent { s with ports := Tab.upd s.ports port (fun x => { x with down := true }) } 6 port)

def execHostPortDown (s : State) : Out := .next { s with hostPortDown := true }
def execHostPortUp (s : State) : Out := .next { s with hostPortDown := false }

/-! ### Self-test, margining, attestation, the supervisor's restart (R324, R392, R393, R395, R408) -/

/-- The result word of a self-test. -/
def bistWord (failRows firstRow : Nat) : Nat :=
  if failRows = 0 then 0 else 1 + min failRows 255 * 2 ^ 8 + firstRow % 2 ^ 32 * 2 ^ 16

/-- The array that was tested is in its cold-start state; dirty lines of the banks were written back first (R225). -/
def testedArray (s : State) (core arr : Nat) : State :=
  match arr with
  | 1 => modCore (coreWriteBackAll s core) core (fun x => { x with cp := [], lostCp := [], modes := 0#64 })
  | 3 => modCore s core (fun x => { x with icache := [] })
  | _ => s

/-- BIST_COMPLETE. -/
def execBistComplete (core failRows firstRow : Nat) (s : State) : Out :=
  .next (match core? s core with
    | none => s
    | some x =>
      match x.bist with
      | none => s
      | some (arr, pat) =>
        let w := bistWord failRows firstRow
        let s := testedArray s core arr
        let s := modCore s core (fun x =>
          { x with bist := none, bistres := BitVec.ofNat 64 (w % 2 ^ 48 + arr % 8 * 2 ^ 48 + pat % 16 * 2 ^ 52) })
        let s := modGang s (.sup core) (fun g => { g with groups := g.groups.map (fun q =>
          if q.waiting = .bist none then { q with waiting := .bist (some (BitVec.ofNat 64 w)) } else q) })
        raiseEvent s 11 core)

def execLmargGo (port : Nat) (s : State) : Out := .next (if port ≤ 18 then lmargStart s port else s)

def execLmargScanDone (port errors : Nat) (s : State) : Out :=
  let x := lmargOf s port
  .next (if x.scan.isNone then s
    else { s with lmarg := Tab.set Lmarg.reset s.lmarg port { x with scan := none, errors := min errors (2 ^ 32 - 1) }
                  late := s.late ++ [.scanDone port] })

def execAttestGo (s : State) : Out := .next (attestStart s)

/-- ATTEST_DONE: the report holds the nonce, the hashes of the accepted header and of the defect map, SERIAL and a signature,
in this order (R392); the signature, made with a fused key, is free. -/
def execAttestDone (s : State) : Out :=
  .next (if !s.attestGo then s
    else
      let free := fun (i : Nat) => BitVec.ofNat 8 (Config.freeValue (s.fresh + i)).toNat
      let map := sha512 ((List.range 0x1000).map (fuseByte s))
      let byte := fun (i : Nat) =>
        if i < 64 then Tab.get 0#8 s.attest i
        else if i < 128 then (s.headerHash[i - 64]?).getD 0#8
        else if i < 192 then (map[i - 128]?).getD 0#8
        else if i < 200 then fuseByte s (0x10 + (i - 192))
        else free i
      { s with attest := (List.range 320).foldl (fun t i => Tab.set 0#8 t (0x100 + i) (byte i)) s.attest
               attestGo := false, attestDone := true, fresh := s.fresh + 320 })

/-- The supervisor gang at its entry: every register 0, 32 valid lanes, 640 registers (R408). -/
def supGang (entry : Nat) : Gang :=
  { num := 0, width := 32, valid := 32, n := 640, p := 640, vbase := 0, vbound := 640, spill := 0, slot := 0, pipe := 0
    v := [], pr := [], cnt := [], s := [], c := 0#16, b := [], f := [], k := [], paths := [], lr := 0#64
    groups := [QGroup.start 0xFF#16 entry], stack := [], entered := [], fail := FailAcc.zero, buf := [], sysq := [], flights := []
    marks := [], seq := 0, spilled := [], unhomed := [], round := 0, tickets := [], body := none, ending := [], trapped := none, trapReq := none, noticed := false
    stopped := none, halted := false, abandoned := false, ended := none, exitRel := false, lbar := none }

/-- What a restart leaves of the old gang's accesses: its stores drain, and its atomics are performed, with nothing to write back. -/
def supAgain (entry : Nat) (old : Gang) : Gang :=
  { supGang entry with
    buf := old.buf, sysq := old.sysq, marks := old.marks, seq := old.seq
    flights := old.flights.filterMap (fun f => (remainder f).map (fun f => { f with ctr := none, path := none })) }

/-- The supervisor gang of a core waits for no page any more. -/
def supForgets (s : State) (core : Nat) : State :=
  let keeps := fun w : Waiter => match w with
    | .group h _ _ | .flight h _ => h != .sup core
    | _ => true
  { s with pageReqs := s.pageReqs.map (fun r => { r with waiters := r.waiters.filter keeps }) }

/-- SUPERVISOR_RESTART: FLT is cleared and the gang starts at SY.SVENTRY (R393); ignored while FLT is 0. -/
def execSupervisorRestart (core : Nat) (s : State) : Out :=
  .next (match core? s core with
    | some x =>
      if x.svflt then
        modCore (supForgets s core) core (fun x =>
          { x with svflt := false, sup := some ((x.sup.map (supAgain x.sventry)).getD (supGang x.sventry)) })
      else s
    | none => s)

end Sys2Proof.Machine
end

