-- ==== Sys2Proof/Machine/Integer.lean ====
section
/-!
DEFINITION. The integer, scalar, predicate and cross-lane instructions (spec/08_integer.md R151 to R174), majors 0x20 to
0x45. APPEND's counter word lies in the scratchpad.
-/

namespace Sys2Proof.Machine

/-! ### Arithmetic (R156) -/

def execIadd (x : Bin) (s : State) : Out :=
  issue (.iadd x) s (fun s is => binOp s is x (exact2 x.ty x.sat (fun a b => a + b)))
def execIsub (x : Bin) (s : State) : Out :=
  issue (.isub x) s (fun s is => binOp s is x (exact2 x.ty x.sat (fun a b => a - b)))
def execImul (x : Bin) (s : State) : Out :=
  issue (.imul x) s (fun s is => binOp s is x (exact2 x.ty x.sat (fun a b => a * b)))
def execImulh (x : Bin) (s : State) : Out :=
  issue (.imulh x) s (fun s is => binOp s is x (exact2 x.ty false (mulHigh x.ty)))
def execImad (x : Ter) (s : State) : Out :=
  issue (.imad x) s (fun s is => terOp s is x (exact3 x.ty x.sat (fun a b c => a * b + c)))
def execIabs (x : Un) (s : State) : Out :=
  issue (.iabs x) s (fun s is => unOp s is x (exact1 x.ty x.sat absInt))
def execIneg (x : Un) (s : State) : Out :=
  issue (.ineg x) s (fun s is => unOp s is x (exact1 x.ty x.sat (fun a => -a)))
def execImin (x : Bin) (s : State) : Out :=
  issue (.imin x) s (fun s is => binOp s is x (exact2 x.ty false min))
def execImax (x : Bin) (s : State) : Out :=
  issue (.imax x) s (fun s is => binOp s is x (exact2 x.ty false max))

/-- R157: A and D follow the type, B is a 32-bit operand. -/
def execLea (x : Bin) (sh : Nat) (s : State) : Out :=
  issue (.lea x sh) s (fun s is =>
    laneOp s is x.g x.d x.ty [(x.a, x.ty), (x.b, .u32)]
      (fun _ vs => match vs with | [a, b] => leaWord x.ty sh a b | _ => 0))

/-! ### Logic, shifts, bit fields, counts (R158 to R161) -/

def execAnd (x : Bin) (s : State) : Out := issue (.and x) s (fun s is => binOp s is x Nat.land)
def execOr (x : Bin) (s : State) : Out := issue (.or x) s (fun s is => binOp s is x Nat.lor)
def execXor (x : Bin) (s : State) : Out := issue (.xor x) s (fun s is => binOp s is x Nat.xor)
def execNot (x : Un) (s : State) : Out := issue (.not x) s (fun s is => unOp s is x (notWord x.ty))
def execShl (x : Bin) (s : State) : Out := issue (.shl x) s (fun s is => binOp s is x (lane2 x.ty (shlElem x.ty x.sat)))
def execShr (x : Bin) (s : State) : Out := issue (.shr x) s (fun s is => binOp s is x (lane2 x.ty (shrElem x.ty)))
def execSar (x : Bin) (s : State) : Out := issue (.sar x) s (fun s is => binOp s is x (lane2 x.ty (sarElem x.ty)))
def execRot (x : Bin) (s : State) : Out := issue (.rot x) s (fun s is => binOp s is x (lane2 x.ty (rotElem x.ty)))

/-- R160: the control word is a 32-bit operand or the immediate word. -/
def execBfx (x : Un) (ctl : Opd) (s : State) : Out :=
  issue (.bfx x ctl) s (fun s is =>
    laneOp s is x.g x.d x.ty [(x.a, x.ty), (ctl, .u32)]
      (fun _ vs => match vs with | [a, k] => bfxWord x.ty a k | _ => 0))
def execBfi (x : Bin) (ctl : Opd) (s : State) : Out :=
  issue (.bfi x ctl) s (fun s is =>
    laneOp s is x.g x.d x.ty [(x.a, x.ty), (x.b, x.ty), (ctl, .u32)]
      (fun _ vs => match vs with | [a, b, k] => bfiWord x.ty a b k | _ => 0))

def execPopc (x : Un) (s : State) : Out :=
  issue (.popc x) s (fun s is => unOp s is x (lane1 x.ty (popcount (etyBits x.ty))))
def execClz (x : Un) (s : State) : Out :=
  issue (.clz x) s (fun s is => unOp s is x (lane1 x.ty (clzElem (etyBits x.ty))))
def execCtz (x : Un) (s : State) : Out :=
  issue (.ctz x) s (fun s is => unOp s is x (lane1 x.ty (ctzElem (etyBits x.ty))))
def execBrev (x : Un) (s : State) : Out :=
  issue (.brev x) s (fun s is => unOp s is x (lane1 x.ty (brevElem (etyBits x.ty))))

/-! ### Moves and selects (R162 to R164) -/

def execMov (x : Un) (s : State) : Out := issue (.mov x) s (fun s is => unOp s is x (fun a => a))

/-- The value of MOVI's immediate by type and length (R163). -/
def moviValue (ty : Ety) (imm : MoviImm) : Nat :=
  match imm with
  | .word w => (match ty with | .s64 => low (sext w.toNat 32) 64 | _ => w.toNat)
  | .ext w => w.toNat

def execMovi (g : Guard) (ty : Ety) (d : Opd) (imm : MoviImm) (s : State) : Out :=
  issue (.movi g ty d imm) s (fun s is => laneOp s is g d ty [] (fun _ _ => moviValue ty imm))

/-- R164: a predicate per lane, or a condition bit in the scalar form. -/
def execSel (x : Bin) (pi : Nat) (neg : Bool) (s : State) : Out :=
  issue (.sel x pi neg) s (fun s is =>
    laneOp s is x.g x.d x.ty [(x.a, x.ty), (x.b, x.ty)]
      (fun l vs => match vs with
        | [a, b] => if (if x.d.isScalarDst then rdC is.gang pi else rdP is.gang pi l) != neg then a else b
        | _ => 0))

/-! ### Predicates and condition bits (R165 to R167) -/

def execIcmp (g : Guard) (c : Cond) (ty : Ety) (pd : Nat) (a b : Opd) (s : State) : Out :=
  issue (.icmp g c ty pd a b) s (fun s is =>
    predOp s is g pd [(a, ty), (b, ty)] (fun _ vs => match vs with | [x, y] => icmpHolds c ty x y | _ => false))

def execIcmpc (c : Cond) (ty : Ety) (cd : Nat) (a b : Opd) (s : State) : Out :=
  issue (.icmpc c ty cd a b) s (fun s is => condOp s is cd ty a b (icmpHolds c ty))

def execPlop (g : Guard) (d a b : Nat) (tt : BitVec 4) (s : State) : Out :=
  issue (.plop g d a b tt) s (fun s is =>
    predOp s is g d [] (fun l _ => tableBit tt (rdP is.gang a l) (rdP is.gang b l)))

def execClop (d a b : Nat) (tt : BitVec 4) (s : State) : Out :=
  issue (.clop d a b tt) s (fun s is =>
    .done (modGang s is.ref (fun g => wrC g d (tableBit tt (rdC is.gang a) (rdC is.gang b)))))

/-- PMOV (R167). The bit form reads its operand as 64 bits, so a negative constant is one whose bits 32 to 63 are ones too, for which R101
and R153 give no rule: DESIGN CHOICE, notes/assumptions/78. -/
def execPmov (g : Guard) (m : PmovForm) (s : State) : Out :=
  issue (.pmov g m) s (fun s is =>
    match m with
    | .toPred p a => predOp s is g p [(a, .u32)] (fun _ vs => match vs with | [x] => x != 0 | _ => false)
    | .fromPred d p => laneOp s is g d .u32 [] (fun l _ => b2n (rdP is.gang p l))
    | .bit p a => predOp s is g p [(a, .u64)] (fun l vs => match vs with | [x] => x.testBit l | _ => false))

/-! ### Between lanes (R168 to R174) -/

/-- The source lane of SHFL (R169); outside the gang it is the lane itself. -/
def shflSource (m : ShflMode) (w l b : Nat) : Nat :=
  let src := match m with
    | .idx => b
    | .up => if b ≤ l then l - b else w
    | .down => l + b
    | .xor => Nat.xor l b
  if src < w then src else l

/-- The number of the register a vector operand names. -/
def vnum : Opd → Nat
  | .v n => n
  | _ => 0

def execShfl (g : Guard) (m : ShflMode) (ty : Ety) (d a b : Opd) (s : State) : Out :=
  issue (.shfl g m ty d a b) s (fun s is =>
    writeLanes s is (selOf is g) d ty.is64
      (fun l => rdVw is.gang (vnum a) (shflSource m is.gang.width l (rdSrc s is ⟨b, .u32, []⟩ l)) ty.is64))

def execBcast (g : Guard) (ty : Ety) (d a b : Opd) (s : State) : Out :=
  issue (.bcast g ty d a b) s (fun s is =>
    writeLanes s is (selOf is g) d ty.is64
      (fun l => rdVw is.gang (vnum a) (shflSource .idx is.gang.width l (rdSrc s is ⟨b, .u32, []⟩ l)) ty.is64))

/-- R170: the mask of the selected lanes of the group where the predicate is true. -/
def execBallot (g : Guard) (d : Opd) (p : Nat) (s : State) : Out :=
  issue (.ballot g d p) s (fun s is =>
    writeScalar s is d (maskOf ((selOf is g).filter (rdP is.gang p))))

/-- R172: fold over the selected lanes before each lane, itself included for .INC. -/
def execPscan (g : Guard) (op : ScanOp) (incl : Bool) (ty : Ety) (sat : Bool) (d a : Opd) (s : State) : Out :=
  issue (.pscan g op incl ty sat d a) s (fun s is =>
    withQueues s is [(a, ty)] d (fun s' is xs =>
      let ls := selOf is g
      let val := fun m => match xs with | [x] => rdSrc s is x m | _ => 0
      writeLanes s' is ls d false (fun l =>
        finish ty sat (scanFold op ty ((ls.filter (fun m => decide (m < l) || (incl && m == l))).map val)))))

/-- R171: fold over the selected lanes of the group into a scalar register. -/
def execRed (g : Guard) (op : RedOp) (ty : Ety) (sat : Bool) (d : Opd) (va : Nat) (s : State) : Out :=
  issue (.red g op ty sat d va) s (fun s is =>
    writeScalar s is d (scalarResult ty
      (finish ty sat (redFold op ty ((selOf is g).map (fun l => rdVw is.gang va l ty.is64))))))

end Sys2Proof.Machine
end

