-- ==== Sys2Proof/Machine/Ordered.lean ====
section
/-!
DEFINITION. Order-first transactions (spec/15_ordered_system.md R303 to R311), majors 0xB0 to 0xB3.
-/

namespace Sys2Proof.Machine

/-! ### The declaration block (R303, R305) -/

/-- An entry of a block: its tiles by virtual address, and W. -/
structure BlockEnt where
  va : Nat
  tiles : Nat
  w : Bool
  ok : Bool
  deriving DecidableEq, Repr

/-- Table 15-2. -/
def blockEnt (w : Nat) : BlockEnt :=
  let va := bits w 56 8 * 256
  let n := bits w 3 0 + 1
  { va := va, tiles := n, w := bit w 4
    ok := bits w 63 57 == 0 && bits w 7 5 == 0 && decide (va / 65536 = (va + 256 * n - 1) / 65536) }

/-- Is a block well-formed (check 4 of R305)? `h` is the header of Table 15-1. -/
def blockOk (h : Nat) (es : List BlockEnt) : Bool :=
  let mode := bits h 23 16
  decide (1 ≤ bits h 15 0) && decide (bits h 15 0 ≤ 32) && decide (mode ≤ 1) && bits h 31 24 == 0 && bits h 127 96 == 0
    && (mode == 1 || bits h 95 32 == 0) && es.all (fun e => e.ok)
    && decide ((es.map (fun e => e.tiles)).foldl (fun a b => a + b) 0 ≤ 64)

/-- The scratchpad checks of a block's bytes, but for lost lines: bounds, then bank mode (R241, R305). -/
def blockCheck (s : State) (g : GRef) (o n : Nat) : Option Nat :=
  if o + n > scrSize s g then some 0x8001
  else
    match crewOf? s g with
    | some cr => if (List.range (n / 8)).all (fun i => scrMode s cr (o + 8 * i)) then none else some 0x8007
    | none => some 0x8001

/-- What the walk over a block's tiles finds. -/
inductive TileRes where
  | ok (tiles : List (Nat × Bool))
  | code (c : Nat)
  | wait

/-- A physical tile named again adds only its W (R306). -/
def addTile (ts : List (Nat × Bool)) (t : Nat) (w : Bool) : List (Nat × Bool) :=
  if ts.any (fun e => e.1 == t) then ts.map (fun e => if e.1 = t then (t, e.2 || w) else e) else ts ++ [(t, w)]

/-- One tile (check 6 of R305). Its translation is kept while the instruction waits for the pages of others (R368). -/
def tileCheck (s : State) (is : Iss) (va : Nat) (w : Bool) : State × TileRes :=
  let ctx := ctxOf s is.ref
  let key := 2 * (va / 256) + b2n w
  let took := fun (x : Xlat) (may : Bool) => if may then TileRes.ok [(tileOf (xlatPa x va), w)] else .code 0x8007
  if is.q.pageFail.contains (va / 65536) then (s, .code 0x8002)
  else
  match Tab.find? is.q.pages key with
  | some (x, may) => (s, took x may)
  | none =>
  match translate s ctx va with
  | (s, .miss fn p tb) => (requestPage s fn p ctx (if tb then 3 else 0) 1 (groupWaits is (va / 65536)), .wait)
  | (s, .ok x) =>
    if !xlatPresent x then (s, .code 0x8002)
    else
      let pa := xlatPa x va
      let allows := fun k => leafPermits x.bits k && (refusalOf s (classOf is.ref) ctx pa k).isNone
      let may := allows .read && (!w || allows .write)
      (modGroup s is.ref is.grp (fun q => { q with pages := Tab.put q.pages key (x, may) }), took x may)

/-- Every tile in block order; the first that fails or waits ends the walk. -/
def tilesCheck (s : State) (is : Iss) (acc : List (Nat × Bool)) : List (Nat × Bool) → State × TileRes
  | [] => (s, .ok acc)
  | (va, w) :: rest =>
    match tileCheck s is va w with
    | (s, .ok ts) => tilesCheck s is (ts.foldl (fun a t => addTile a t.1 t.2) acc) rest
    | r => r

/-- Room in the sequencer of a die (R269). -/
def sequencerRoom (s : State) (die : Nat) : Bool := decide ((Tab.get Die.reset s.dies die).decls.length < 8192)

/-- The state with a declaration submitted: its ticket, its token in f[D], its place in the sequencer of its die. -/
def submitted (s : State) (is : Iss) (c n f h : Nat) (cr : Crew) (tiles : List (Nat × Bool)) (tok : Nat) : State :=
  let die := dieOf (coreOf s is.ref)
  let rnd := bits h 23 16 == 1
  let s := modGang s is.ref (fun x => wrF { x with tickets := x.tickets ++ [⟨tok, rnd, bits h 63 32, tiles⟩] } f tok)
  let d : Decl := { die := die, crew := c, gang := n, op := tok, launch := cr.launch, index := cr.index, roundMode := rnd
                    round := bits h 63 32, key := bits h 95 64, tiles := tiles, carried := false }
  countDie (modDie s die (fun x => { x with decls := x.decls ++ [d] })) die 0x889 1

/-- Submit a declaration: a ticket, its token in f[D], its place in the sequencer (R269, R305). -/
def submit (s : State) (is : Iss) (c n f h : Nat) (tiles : List (Nat × Bool)) : Res :=
  if !sequencerRoom s (dieOf (coreOf s is.ref)) then .wait s .sync
  else
    match newOp s c n .ticket, crewOf? s is.ref with
    | some (s, tok), some cr => .done (submitted s is c n f h cr tiles tok)
    | _, _ => .wait s .sync

/-- What reading a declaration block comes to: a code, a wait for older accesses, or its header and entries. -/
inductive DeclRes where
  | code (k : Nat)
  | hold
  | ok (h : Nat) (es : List BlockEnt)

/-- Read and check the block at an offset, checks 1 to 5 of R305. -/
def readBlock (s : State) (is : Iss) (o : Nat) : DeclRes :=
  if o % 16 ≠ 0 then .code 0x8008
  else
    match blockCheck s is.ref o 16 with
    | some k => .code k
    | none =>
      if !placeFree is.gang (.scr o) 16 then .hold
      else
        let h := loadBytes s is.ref is.gang.seq .crew (.scr o) 16
        let hw := leNat h.2.1
        let count := bits hw 15 0
        if h.2.2 then .code 0x800B
        else
          match blockCheck s is.ref o (16 + 8 * count) with
          | some k => .code k
          | none =>
            if !placeFree is.gang (.scr o) (16 + 8 * count) then .hold
            else
              let b := loadBytes s is.ref is.gang.seq .crew (.scr (o + 16)) (8 * count)
              let es := (List.range count).map (fun i => blockEnt (leNat ((b.2.1.drop (8 * i)).take 8)))
              if b.2.2 then .code 0x800B
              else if !blockOk hw es then .code 0x8003
              else if bits hw 23 16 = 1 ∧ bits hw 63 32 ≤ is.gang.round then .code 0x8003
              else .ok hw es

/-- The tiles that the entries of a block name, in block order. -/
def blockTiles (es : List BlockEnt) : List (Nat × Bool) :=
  es.flatMap (fun e => (List.range e.tiles).map (fun i => (e.va + 256 * i, e.w)))

/-- OTDECL (R305): its block is read as an LDS at this point would read it (R404). -/
def execOtdecl (f : Nat) (off : Opd) (s : State) : Out :=
  issue (.otdecl f off) s (fun s is =>
    match is.ref with
    | .sup _ => .done s
    | .user c n =>
      match readBlock s is (rdU s is off % 2 ^ 32) with
      | .code k => throwAllOrNop s is k
      | .hold => .wait s .sync
      | .ok h es =>
        match tilesCheck s is [] (blockTiles es) with
        | (s, .code k) => throwAllOrNop s is k
        | (s, .wait) => .wait s .sync
        | (s, .ok ts) => submit (modGang s is.ref nextSeq) is c n f h ts)

/-- OTBEGIN (R307). -/
def execOtbegin (f : Nat) (s : State) : Out :=
  issue (.otbegin f) s (fun s is =>
    let tok := rdF is.gang f
    match crewOf? s is.ref with
    | none => .done s
    | some cr =>
      if is.gang.body.isSome then throwAllOrNop s is 0x800C
      else
        match is.gang.tickets, opOf cr tok with
        | t :: _, some e =>
          if t.op ≠ tok ∨ (t.roundMode ∧ t.round > is.gang.round) then throwAllOrNop s is 0x8003
          else
            match e.st with
            | .unresolved => .wait s .sync
            | .ok => .done (modGang s is.ref (fun x => { x with tickets := x.tickets.drop 1, body := some t }))
            | _ => throwAllOrNop s is 0x8003
        | _, _ => throwAllOrNop s is 0x8003)

/-- OTEND (R309). -/
def execOtend (s : State) : Out :=
  issue .otend s (fun s is =>
    match bodyEnd s is.ref with
    | (s, [], true) => .done s
    | (s, ts, _) => .wait (throwMany s is.ref ts) .sync)

/-- OTROUND (R310). -/
def execOtround (a : Opd) (s : State) : Out :=
  issue (.otround a) s (fun s is =>
    let n := rdU s is a % 2 ^ 32
    .done (modGang s is.ref (fun x => { x with round := max x.round n })))

end Sys2Proof.Machine
end

