-- ==== Sys2Proof/Machine/Start.lean ====
section
/-!
DEFINITION. Power-on and the two kinds of start (spec/20_bringup.md R384 to R389; Tables 10-1, 16-1 and 20-2). What the
manual does not let one compute of the steps (self-test, training) is decided by the event's operands.
-/

namespace Sys2Proof.Machine

/-! ### What a start ends and keeps -/

/-- A claim entry after a warm start: kept, but for its offer, which ends (R326, R338). -/
def warmClaim (c : Claim) : Claim := { c with state := 0, pend := 0, taken := true, deadline := 0 }

/-- A start ends every launch, empties every queue but the launch queues, and leaves banks, caches and level two empty (R384,
R255, Table 10-1); translations and the race report's clocks go with them. What the cores held is kept for the next start that
brings them up (R128). A byte of LPDDR-6 that was dirty in level two is in memory as before the start, one that was dirty at a core point only is gone:
DESIGN CHOICE, notes/assumptions/76. -/
def endAllWork (s : State) : State :=
  { s with crews := [], launches := [], unwinds := [], cores := [], keptCores := s.cores.foldl (fun t p => Tab.put t p.1 p.2) s.keptCores
           zeroFar := [], storers := [], hcopy := [], l2 := [], zmap := [], lost := s.lost.filter (fun p => regionOf (128 * p.1) == .lpddr)
           xlats := [], tinv := { s.tinv with busy := false }, lastQ := [], closing := [], merged := [], grants := []
           exchanging := false, mergeBy := 0, pageReqs := [], pageOps := [], hostOwned := [], hostDir := [], counts := [], wrote := [], late := []
           pageRegs := Tab.mapVals (fun _ (p : PageRegs) => { p with head := p.tail }) s.pageRegs
           ring := { s.ring with waiting := [] }, trace := { s.trace with written := 0, taken := 0 }
           ownreq := { s.ownreq with busy := false, left := [], marked := none }
           dies := Tab.mapVals (fun _ (d : Die) => { d with decls := [], batch := [] }) s.dies
           lineClock := [], lineAcc := [], cur := none, blocked := none }

/-- What a warm start keeps: LPDDR-6, host and peer memory, system registers, tables, launch-queue blocks, counters (R385,
R128, R256, R336, R352). -/
def warmKeep (s : State) : State :=
  let s := endAllWork s
  { s with mem := s.mem.filter (fun p => regionOf p.1 != .gddr), claims := Tab.mapVals (fun _ c => warmClaim c) s.claims
           queues := Tab.mapVals (fun _ (q : LQueue) => { q with prev := none, hold := false, depOk := false, entries := [] }) s.queues }

/-- What a cold start keeps: the shadow, host and peer memory, the state of START, what lies outside, and the model's own
fields. Every register has its reset value and the cycle counter is 0 (R128, R349, R385). -/
def coldKeep (s : State) : State :=
  { State.reset with
    mem := s.mem.filter (fun p => !isDeviceMem p.1), shadow := s.shadow, start := s.start, coldPlate := s.coldPlate, power := s.power
    agenda := s.agenda, fresh := s.fresh }

/-! ### Choosing cores (R387, R389) -/

/-- Has a shadow word retired a core? -/
def shadowRetired (s : State) (die p : Nat) : Bool :=
  s.shadow.any (fun w => bits w.toNat 31 28 == 1 && bits w.toNat 27 26 == die && bits w.toNat 25 18 == p)

/-- COREMAP: bit p of a die's 32 bytes. -/
def coreGood (die p : Nat) : Bool := (Config.fuse (0x80 + 32 * die + p / 8)).getLsbD (p % 8)

/-- A word of SPARES (Table 20-3). -/
def sparesWord (i : Nat) : Nat := leNat ((List.range 4).map (fun j => Config.fuse (0x100 + 4 * i + j)))

/-- The spare rows of an array of a core that SPARES words use. -/
def sparesUsed (die p arr : Nat) : List Nat :=
  ((List.range 448).map sparesWord).filterMap (fun w =>
    if w ≠ 0 ∧ bits w 31 30 = die ∧ bits w 29 22 = p ∧ bits w 21 19 = arr then some (bits w 7 0) else none)

/-- How many failing rows of an array of a core the shadow names (KIND 0010b). -/
def shadowRows (s : State) (die p arr : Nat) : Nat :=
  (s.shadow.filter (fun w => bits w.toNat 31 28 == 2 && bits w.toNat 27 26 == die && bits w.toNat 25 18 == p
    && bits w.toNat 17 15 == arr)).length

/-- Failing rows get the lowest spare rows that nothing has used, of as many as the array has; none where they run out (R387). -/
def assignSpares (count : Nat) : Nat → List Nat → Option (List Nat)
  | 0, used => some used
  | n + 1, used =>
    match (List.range count).find? (fun r => !used.contains r) with
    | some r => assignSpares count n (r :: used)
    | none => none

/-- Has every failing row of a core that the shadow names a spare row? How many an array has is not in the spec. -/
def rowsSpared (s : State) (die p : Nat) : Bool :=
  (List.range 8).all (fun arr => (assignSpares (Config.spareRows arr) (shadowRows s die p arr) (sparesUsed die p arr)).isSome)

/-- The physical numbers of the cores a die takes at step 1, by logical index: the good ones without a retirement, at most 160 (R389). -/
def chooseCores (s : State) (die : Nat) : List Nat :=
  ((List.range 168).filter (fun p => coreGood die p && !shadowRetired s die p)).take 160

/-- The cores of a die by logical index. Between cold starts a core keeps its number, so a warm start leaves the choice of the last cold
start as it is and only takes retired cores out of service (R12). -/
def coresTaken (s : State) (warm : Bool) (die : Nat) : List Nat :=
  let was := (Tab.get Die.reset s.dies die).enabled
  if warm && !was.isEmpty then was else chooseCores s die

/-- A core that step 1 or 2 leaves out is recorded as retired while the shadow has room (R385, R387). -/
def recordBad (s : State) (b : Nat) : State :=
  if s.shadow.length < 256 ∧ b < 1024 ∧ !shadowRetired s (b / 256) (b % 256) then
    { s with shadow := s.shadow ++ [BitVec.ofNat 32 (2 ^ 28 + b / 256 * 2 ^ 26 + b % 256 * 2 ^ 18)] }
  else s

/-! ### Links and firmware -/

/-- Lanes of a port that the shadow retires (KIND 0011b). -/
def shadowLanes (s : State) (p : Nat) : Nat :=
  s.shadow.foldl (fun m w => if w.toNat / 2 ^ 28 = 3 ∧ w.toNat / 2 ^ 18 % 256 = p then m ||| (w.toNat % 2 ^ portLanes p) else m) 0

/-- Step 5: the CXL link trains with the lanes that are left; the map's and others that fail are retired, never all of them, for the link
would have failed. -/
def trainHost (s : State) : State :=
  let lanes := shadowLanes s 18
  let gone := lanes ||| (Config.freeValue s.fresh).toNat % 2 ^ 16
  { freshen s with hostPortDown := false
                   ports := Tab.put s.ports 18 ⟨false, BitVec.ofNat 16 (if gone = 2 ^ 16 - 1 then lanes else gone), 0⟩ }

/-- Step 5: each Brilyn link trains to its peer; a lane that fails training, or that the map names, is retired (R369, R385).
Which lanes those are beyond the shadow's is free. -/
def trainPort (s : State) (p : Nat) : State :=
  match Config.peerModule p with
  | none => { s with ports := Tab.erase s.ports p }
  | some m =>
    let gone := shadowLanes s p ||| (Config.freeValue s.fresh).toNat % 256
    { freshen s with ports := Tab.put s.ports p ⟨gone == 255, BitVec.ofNat 16 gone, m⟩ }

/-- `n` bytes of the firmware image (R390): a header of 256 bytes, the signature of 132, the payload. -/
def imageBytes (o n : Nat) : List Byte := (List.range n).map (fun i => Config.flash (o + i))

def imageHeader : List Byte := imageBytes 0 256

/-- R391 without the version: the key is the one of KEYHASH, the signature verifies, the payload's hash matches. The
numbers of the key and of the signature are little-endian as every record's (R3). -/
def imageVerified (s : State) : Bool :=
  let key := imageBytes 72 133
  sha512 key == (List.range 64).map (fun i => fuseByte s (0x40 + i))
  && key.head? == some 4#8
  && ecdsaVerifies (sha512 imageHeader) (leNat (imageBytes 73 66), leNat (imageBytes 139 66)) (leNat (imageBytes 256 66))
    (leNat (imageBytes 322 66))
  && sha512 (imageBytes 388 (leNat (imageBytes 4 4))) == imageBytes 8 64

/-- The code with which step 6 refuses the image: 6 for a version below MINVER, 5 for every other failure (R391). -/
def firmwareCode (s : State) : Option Nat :=
  if leNat (imageBytes 0 4) < leNat ((List.range 4).map (fun i => fuseByte s (0xC + i))) then some 6
  else if imageVerified s then none else some 5

/-- The zero-map bit of a line of GDDR-7 that has been written says whether it is zero (R204). -/
def unmapZero (s : State) (line : Nat) : State :=
  if regionOf (128 * line) = .gddr then { s with zmap := Tab.set true s.zmap line (lineZero s line) } else s

/-- Step 6: an accepted payload is written to device memory; its words of the register block (the initial tables and what
Yarvex sets) follow a cold start, for a warm one keeps the registers (R385, R391). -/
def loadFirmware (s : State) (cold : Bool) : State :=
  let f := Config.firmware
  let ps := f.1.filter (fun p => isDeviceMem p.1)
  let s := { s with mem := ps.foldl (fun m (p : Nat × Byte) => m.write p.1 p.2) s.mem, headerHash := sha512 imageHeader }
  let s := (tabLines ps).foldl unmapZero s
  if cold then f.2.1.foldl (fun s (p : Nat × Nat) => regPut s true (p.1 / 8 * 8) p.2) s else s

/-- SY.SVENTRY as the payload gives it, a multiple of 32. -/
def firmwareEntry : Nat := Config.firmware.2.2 * 32 % 2 ^ 57

/-- Step 7: a core with its supervisor gang started. What a warm start keeps of the core is in `old`. -/
def startedCore (old : Option Core) : Core :=
  let o := old.getD Core.reset
  { Core.reset with
    mboxSeq := o.mboxSeq, bistres := o.bistres, svfpc := o.svfpc, svfcause := o.svfcause, live := o.live, latch := o.latch
    sventry := firmwareEntry, sup := some (supGang firmwareEntry) }

/-- A core that was retired in service, after a warm start: it keeps its number, and nothing runs on it (R12, R389). -/
def restingCore (old : Core) : Core := { startedCore (some old) with sup := none, retired := true }

/-- One core of a die: started; kept as a number where it has been retired in service; or left out. -/
def startCore (kept : Tab Core) (out : List Nat) (die : Nat) (s : State) (e : Nat × Nat) : State :=
  let k := 160 * die + e.2
  if out.contains (256 * die + e.1) then s
  else if shadowRetired s die e.1 then
    (match Tab.find? kept k with
      | some c => { s with cores := Tab.put s.cores k (restingCore c) }
      | none => s)
  else { s with cores := Tab.put s.cores k (startedCore (Tab.find? kept k)) }

/-- The cores of a die with their logical numbers. -/
def startDie (kept : Tab Core) (out : List Nat) (s : State) (d : Nat × List Nat) : State :=
  let s := modDie s d.1 (fun x => { x with enabled := d.2 })
  d.2.zipIdx.foldl (startCore kept out d.1) s

/-! ### The outcome (R385) -/

/-- The failures that Table 20-2 gives the steps before the firmware's, but for step 2, which fails by the cores it finds. -/
def legalFailure (cold : Bool) (f : Nat × Nat) : Bool :=
  [(1, 1), (3, 3), (5, 4)].contains f || (!cold && f == (3, 7))

/-- A failed start: STATE 10b with its step and code; a failed warm start raises WFAIL. -/
def failStart (s : State) (warm : Bool) (f : Nat × Nat) : State :=
  { s with start := { s.start with state := 2, step := f.1, code := f.2, pending := none
                                   wfail := if warm then min (s.start.wfail + 1) 3 else s.start.wfail } }

/-- Steps 3 to 7, with the cores that are left out (Table 20-2). -/
def laterSteps (s : State) (warm : Bool) (chosen : List (Nat × List Nat)) (out : List Nat) : State :=
  if shadowLanes s 18 = 2 ^ 16 - 1 then failStart s warm (5, 4) else
  let s := trainHost ((List.range 18).foldl trainPort s)
  match firmwareCode s with
  | some c => failStart s warm (6, c)
  | none =>
    let s := loadFirmware s (!warm)
    let s := chosen.foldl (startDie s.keptCores out) s
    { s with keptCores := s.keptCores.filter (fun p => (core? s p.1).isNone), start := { s.start with state := 0, wfail := 0, pending := none } }

/-- The steps of Table 20-2 on what the start keeps of the machine. Step 1 leaves out cores whose failing rows find
no spare, step 2 those that keep a failing row; a die with none left fails step 2. -/
def startSteps (s : State) (warm : Bool) (failed : Option (Nat × Nat)) (badCores : List Nat) : State :=
  match failed.filter (legalFailure (!warm)) with
  | some (1, c) => failStart s warm (1, c)
  | failed =>
    let tested := !warm || s.start.shchg
    let chosen := [0, 1, 2, 3].map (fun d => (d, coresTaken s warm d))
    let taken := chosen.flatMap (fun d => d.2.map (fun p => 256 * d.1 + p))
    let out := taken.filter (fun b => (!shadowRetired s (b / 256) (b % 256) && !rowsSpared s (b / 256) (b % 256))
      || (tested && badCores.contains b))
    let bare := chosen.any (fun d => d.2.all (fun p => out.contains (256 * d.1 + p) || shadowRetired s d.1 p))
    let s := out.foldl recordBad s
    if bare then failStart s warm (2, 2)
    else
      let s := if tested then { s with start := { s.start with shchg := false } } else s
      match failed with
      | some f => failStart s warm f
      | none => laterSteps s warm chosen out

/-- POWER_ON: requests a cold start (R384). -/
def execPowerOn (s : State) : Out :=
  .next { s with start := { s.start with kind := 0, state := 1, pending := some false } }

/-- START_COLD: performs a cold start that is requested, or a warm one requested while WFAIL is 3. -/
def execStartCold (failed : Option (Nat × Nat)) (badCores : List Nat) (s : State) : Out :=
  .next (if s.start.pending = some false ∨ (s.start.pending = some true ∧ s.start.wfail = 3) then
      startSteps (coldKeep s) false failed badCores
    else s)

/-- START_WARM: performs a warm start that is requested. Clocks that the thermal trip stopped stay stopped (R396). -/
def execStartWarm (failed : Option (Nat × Nat)) (badCores : List Nat) (s : State) : Out :=
  .next (if s.start.pending = some true ∧ s.start.wfail ≠ 3 then startSteps (warmKeep s) true failed badCores else s)

end Sys2Proof.Machine
end

