-- ==== Sys2Proof/Machine/Schedule.lean ====
section
/-!
DEFINITION. Whose turn it is: issue by pipes (spec/02_execution.md R39 to R42, R24), the clock-driven events of a cycle, and the
end of a cycle (spec/17_counters.md R349, R352, R353). A cycle is one agenda: its clock events, what outside parties and
background steps do in it (`Config.happenings`), the attempts to issue in R39's order, and the clock (notes/assumptions/1).
-/

namespace Sys2Proof.Machine

/-! ### The order of candidates (R39) -/

/-- Age of a quad group of a user gang: launch acceptance, crew index, gang, lowest quad. -/
def ageOf (s : State) (g : GRef) (q : QGroup) : Nat :=
  match crewOf? s g, gang? s g with
  | some cr, some x => ((cr.launch * 2 ^ 32 + cr.index) * 32 + x.num) * 16 + lowQuad q
  | _, _ => lowQuad q

/-- The rank of a group on its pipe: supervisor, promoted, last to have issued, the others. -/
def rankOf (s : State) (g : GRef) (x : Gang) (q : QGroup) : Nat :=
  match g with
  | .sup _ => 0
  | .user _ _ =>
    if q.promoted then 1
    else if (core? s (coreOf s g)).bind (fun c => Tab.find? c.last x.pipe) = some (g, q.quads) then 2
    else 3

/-- The place of a candidate's pipe, core and rank in the order of a cycle: pipe by pipe, so that the updates of a crew's barriers come in pipe
order (R299). On one pipe number the cores come in ascending order, in a pair crew the even core first: DESIGN CHOICE,
notes/assumptions/84. -/
def slotOf (s : State) (g : GRef) (x : Gang) (q : QGroup) : Nat := (x.pipe * 2 ^ 16 + coreOf s g) * 4 + rankOf s g x q

/-- A candidate: its slot, its age, its turn. -/
structure Cand where
  slot : Nat
  age : Nat
  turn : Turn
  deriving DecidableEq, Repr

def candBefore (a b : Cand) : Bool := decide (a.slot < b.slot) || (a.slot == b.slot && decide (a.age ≤ b.age))

def insertCand (c : Cand) : List Cand → List Cand
  | [] => [c]
  | d :: ds => if candBefore c d then c :: d :: ds else d :: insertCand c ds

/-- Every live quad group with its place in the order. -/
def candidates (s : State) : List Cand :=
  (allGangs s).flatMap (fun p =>
    if p.2.ended.isSome ∨ ((crewOf? s p.1).map (fun c => c.phase != .resident)).getD false then []
    else (p.2.groups.zipIdx).filterMap (fun q =>
      if q.1.ended then none
      else some ⟨slotOf s p.1 p.2 q.1, ageOf s p.1 q.1, .issue p.1 q.2⟩))

/-- Where a turn of issue stands in the order now. -/
def candOf (s : State) (t : Turn) : Option Cand :=
  match t with
  | .issue g k =>
    match issuerOf? s g k with
    | some is => some ⟨slotOf s g is.gang is.q, ageOf s g is.q, t⟩
    | none => none
  | _ => none

/-- Is a turn one of issue? -/
def isIssue : Turn → Bool
  | .issue _ _ => true
  | _ => false

/-- A candidate takes its place among the turns of issue that are left in the cycle. -/
def rejoin (s : State) (c : Cand) : List Turn → List Turn
  | [] => [c.turn]
  | t :: ts =>
    match candOf s t with
    | some d => if candBefore c d then c.turn :: t :: ts else t :: rejoin s c ts
    | none => if ts.any isIssue then t :: rejoin s c ts else c.turn :: t :: ts

/-- The attempts of a cycle, pipe by pipe in R39's order. -/
def issueTurns (s : State) : List Turn := ((candidates s).foldr insertCand []).map (fun c => c.turn)

/-! ### One attempt -/

/-- Has what a YLD header waits for come: a request that is not taken yet, or an offer to the supervisor (R406)? -/
def yieldOver (s : State) (core : Nat) : Bool :=
  ((core? s core).map (fun c => c.mbox.any (fun r => !r.2.taken))).getD false || s.claims.any (fun c => c.2.state == 1)

/-- Is a supervisor group waiting under a YLD header (R406)? -/
def yielding (s : State) (core : Nat) (q : QGroup) : Bool := q.yieldAt.isSome && !yieldOver s core

/-- The wait of R406 is over for good, for every group of the supervisor gang, once the test of a cycle has found it to be: it is made before
any of them acts. -/
def releaseYield (s : State) (g : GRef) : State :=
  match g with
  | .sup c =>
    if yieldOver s c then modGang s g (fun x => { x with groups := x.groups.map (fun q => { q with yieldAt := none }) }) else s
  | .user _ _ => s

/-- The trap of bytes that are no instruction. A third long-latency instruction and a MIN value that the launch leaves undefined
come in Table 5-8's order with the causes that the words alone show (R98, R108). -/
def badWordCause (s : State) (is : Iss) (bs : List Byte) (c : Cause) : Cause :=
  let w := leNat (bs.take 8)
  match (Raw.ofWord w (leNat (bs.drop 8))).parse with
  | none => c
  | some p =>
    if w % 4 ≠ 0 ∧ c.order > 5 ∧ p.ins.longLatency ∧ !is.q.idle ∧ is.q.llc ≥ 2 then .illegalClause
    else if w % 4 ≠ 0 ∧ c.order > 8 ∧ dynMinor s is.ref p.ins then .undefinedMinor
    else c

/-- A trap met at the fetch or in the words of an instruction; the request of a fetch cause carries no bytes (Table 15-8). -/
def wordTrap (s : State) (is : Iss) (c : Cause) (bs : List Byte) : State :=
  let bytes := match c with | .misalignedFetch | .fetchFault => [] | _ => bs
  { noteIssue (takeTrap s is 2 c.code 0 bytes (activeLanes is.gang is.q)) is .nop with blocked := none }

/-- Do words that are no instruction name a target all the same? A header names none, nor do words of a length or with operands that their
major does not permit, for those say nothing of where it goes (R92, R95, R103). -/
def namesTarget (w : Nat) (p : Parsed) : Bool := w % 4 != 0 && p.len && p.cls

/-- Bytes that are no instruction trap with the first cause of Table 5-8 that applies: those of the words, and that of the target which
they name all the same (R108, R130). -/
def badWord (s : State) (is : Iss) (bs : List Byte) (c : Cause) : Out :=
  let c := badWordCause s is bs c
  match (Raw.ofWord (leNat (bs.take 8)) (leNat (bs.drop 8))).parse with
  | none => .next (wordTrap s is c bs)
  | some p =>
    if !namesTarget (leNat (bs.take 8)) p then .next (wordTrap s is c bs) else
    match targetCheck s is p.ins with
    | .ok s => .next (wordTrap s is c bs)
    | .trap s d => .next (wordTrap s is (firstCause d c) bs)
    | .wait s => .next { s with blocked := some .sync }

/-- Must the word at the program counter be a clause header: the launch entry, before any header (R93)? -/
def entryNeedsHeader (s : State) (is : Iss) : Bool :=
  is.q.clause.isNone && ((launchOf? s is.ref).map (fun l => l.code == is.q.pc)).getD false

/-- A clause header takes no issue cycle: the group that took it tries again in the same cycle, with YLD in the place that R39 gives it
without its having issued last (R97). -/
def afterHeader (i : Instr) (g : GRef) (k : Nat) (o : Out) : Out :=
  match i, o with
  | .clauseHeader yld .., .next s =>
    if s.blocked.isNone && ((issuerOf? s g k).map (fun is => is.q.hdr && !is.gang.trapped.isSome)).getD false then
      .next { s with agenda := (match yld, candOf s (.issue g k) with
        | true, some c => rejoin s c s.agenda
        | _, _ => .issue g k :: s.agenda) }
    else o
  | _, _ => o

/-- An idle group that has passed over an instruction passes over the rest of its fetch block in the same cycle (R132). -/
def afterPass (is : Iss) (i : Instr) (o : Out) : Out :=
  match o with
  | .next s =>
    if passedOver is i && s.blocked.isNone
        && ((issuerOf? s is.ref is.grp).map (fun j => j.q.idle && j.q.pc / 32 == is.q.pc / 32 && j.q.pc != is.q.pc)).getD false then
      .next { s with agenda := .pass is.ref is.grp :: s.agenda }
    else o
  | _ => o

/-- What a group of a gang does with the bytes at its program counter: a trap, or the instruction they decode to. -/
def runWord (run : Instr → State → Out) (g : GRef) (k : Nat) (is : Iss) (bs : List Byte) (s : State) : Out :=
  if entryNeedsHeader s is && leNat (bs.take 8) % 4 != 0 then .next (wordTrap s is .targetNotHeader bs)
  else
    match decode bs with
    | .error c => badWord s is bs c
    | .ok (i, _) => afterPass is i (afterHeader i g k (run i s))

/-- A further instruction that an idle group passes over: one that it may issue, and that neither acts nor traps (R132). -/
def passTurn (run : Instr → State → Out) (g : GRef) (k : Nat) (s : State) : Out :=
  match issuerOf? s g k with
  | none => .next s
  | some is =>
    if s.stoppedClock || !is.q.idle || is.q.ended || suspended s g is.gang || groupHeld s is then .next s
    else
      match fetchInsn { s with cur := some (g, k), blocked := none } g (lowQuad is.q) is.q.pageFail is.q.pc with
      | .ok t bs =>
        match decode bs with
        | .ok (i, _) => if passedOver is i && (screen t is i).isNone then afterPass is i (run i t) else .next s
        | .error _ => .next s
      | _ => .next s

/-- One attempt of a quad group to issue. `run` is the meaning of instructions. -/
def attempt (run : Instr → State → Out) (g : GRef) (k : Nat) (s : State) : Out :=
  let s := releaseYield { s with cur := some (g, k), blocked := none } g
  match issuerOf? s g k with
  | none => .next s
  | some is =>
    if suspended s g is.gang || groupHeld s is || (match g with | .sup c => yielding s c is.q | .user _ _ => false) then
      .next { s with blocked := some .sync }
    else
      match fetchInsn s g (lowQuad is.q) is.q.pageFail is.q.pc with
      | .wait s => .next { s with blocked := some .sync }
      | .trap s c bs => .next (wordTrap s is c bs)
      | .ok s bs => runWord run g k is bs s

/-! ### A turn of issue -/

def Stall.number : Stall → Nat
  | .operand => 0x804 | .wait => 0x805 | .sync => 0x806 | .backlog => 0x807 | .spill => 0x808

/-- Note why a group did not issue; the oldest candidate's reason counts (R352). -/
def noteStall (s : State) (g : GRef) (k : Nat) (why : Stall) : State :=
  match g, issuerOf? s g k with
  | .user _ _, some is =>
    let w := ageOf s g is.q * 8 + (why.number - 0x804)
    modCore s (coreOf s g) (fun c =>
      match Tab.find? c.stalls is.gang.pipe with
      | some v => if v ≤ w then c else { c with stalls := Tab.put c.stalls is.gang.pipe w }
      | none => { c with stalls := Tab.put c.stalls is.gang.pipe w })
  | _, _ => s

/-- Has the pipe of a gang issued in this cycle, or is it held by an instruction of several cycles (R24)? -/
def pipeTaken (s : State) (g : GRef) (x : Gang) : Bool :=
  ((core? s (coreOf s g)).map (fun c => c.issued.getLsbD x.pipe)).getD false

/-- Has a group just taken a clause header, so that the instruction behind it says whether it is ready (R97)? -/
def behindHeader (s : State) (g : GRef) (k : Nat) : Bool :=
  ((issuerOf? s g k).map (fun is => is.q.hdr && is.gang.trapped.isNone)).getD false

/-- Is a candidate ready: could it issue now, be it behind a header that it takes first (R40, R41, R97)? -/
def readyNow (run : Instr → State → Out) (g : GRef) (k : Nat) : Nat → State → Bool
  | 0, _ => false
  | n + 1, s =>
    match attempt run g k s with
    | .next t => t.blocked.isNone && (!behindHeader t g k || readyNow run g k n t)
    | _ => false

/-- A candidate that is ready and not chosen counts the cycle; at 4,096 it is promoted (R40). -/
def passOver (run : Instr → State → Out) (g : GRef) (k : Nat) (is : Iss) (s : State) : State :=
  let ready := readyNow run g k 8 s
  let s := modGroup (releaseYield s g) g k (fun q => { q with passed := if ready then q.passed + 1 else 0 })
  if ready ∧ is.q.passed + 1 ≥ 4096 ∧ !is.q.promoted then soon s (.candidatePromote g k) else s

/-- The turn of a quad group in a cycle. -/
def issueTurn (run : Instr → State → Out) (g : GRef) (k : Nat) (s : State) : Out :=
  if s.stoppedClock then .next s
  else
    match issuerOf? s g k with
    | none => .next s
    | some is =>
      if is.q.ended then .next s
      else if pipeTaken s g is.gang then .next (passOver run g k is s)
      else
        match attempt run g k s with
        | .next t =>
          match t.blocked with
          | some why => .next (modGroup (noteStall t g k why) g k (fun q => { q with passed := 0 }))
          | none => .next t
        | o => o

/-! ### What a cycle holds -/

/-- Is the event one that an outside party or a background step may bring about at any time? Instructions, and the events
that the clock alone brings, are not. -/
def outside : Instr → Bool
  | .loadDataReturn .. | .spillReadReturn .. | .sysreadComplete .. | .fenceComplete .. | .bufDrain .. | .coreWriteBack ..
  | .copyDiscard .. | .copyFetch .. | .atomicComplete .. | .copySegmentStart .. | .copyPieceWritten .. | .copyComplete ..
  | .matrixCommandStart .. | .matrixCommandComplete .. | .bankSwitchApply .. | .persistComplete .. | .icinvComplete ..
  | .unwindComplete .. | .waitaPoll .. | .preemptRequest .. | .crewSave .. | .crewResume .. | .crewPlace | .crewEnd ..
  | .tailRead .. | .dependenceWatch .. | .launchAccept | .completionWrite .. | .mergeComplete | .lbarCountExchange ..
  | .evack .. | .eventRingWrite | .tinvGo | .tinvDone | .ownreqGo | .ownToHostFlip .. | .ownToDeviceFlip ..
  | .hostMemAccess .. | .hostSnoop .. | .pageRequestWrite .. | .pageReply .. | .pagereqResolve .. | .functionLevelReset ..
  | .powerOn | .attestGo | .attestDone | .lmargGo .. | .lmargScanDone .. | .supervisorRestart .. | .qcfgWrite ..
  | .lqConfigWrite .. | .accessTableWrite .. | .registerWrite .. | .powerLimit .. | .coldPlateLimit .. | .junctionTrip ..
  | .linkLaneFail .. | .linkDown .. | .hostPortDown | .eccUncorrectable .. | .powerBelowLimit | .coldPlateInRange ..
  | .hostPortUp | .peerMemAccess .. | .sysStoreComplete .. | .backInvalidateResponse .. | .bistComplete ..
  | .spanLaunchUnwind .. => true
  | _ => false

/-- The events that the cycle number or a timer brings about. -/
def clockEvents (s : State) : List Instr :=
  let t := s.cycle.toNat
  let free := fun (i : Nat) => BitVec.ofNat 32 (Config.freeValue (s.fresh + i)).toNat
  (if t % 2 ^ s.beat.toNat = 0 then [.beatEnd] else [])
    ++ (if atEdge s then [.tickEdge] else [])
    ++ (if t % 1250 = 0 ∧ s.tick.en then [.currentSample ((List.range 20).map free)] else [])
    ++ (if t % 4096 = 0 then [.heartbeat (BitVec.ofNat 4 (free 20).toNat)] else [])
    ++ (s.queues.filter (fun q => q.2.en && decide (q.2.lastPoll + 65536 ≤ t))).map (fun q => .tailPollTimer q.1)
    ++ (s.cores.filter (fun c => (c.2.sup.map (fun x => x.groups.any (fun q =>
        (q.yieldAt.map (fun y => decide (y + 4096 ≤ t))).getD false))).getD false)).map (fun c => .svyieldTimeout c.1)

/-- Claims whose deadline is reached; an answer in the same cycle comes first (R339). -/
def deadlines (s : State) : List Instr :=
  (s.claims.filter (fun c => c.2.state == 1 && decide (c.2.deadline ≤ s.cycle.toNat))).map (fun c => .claimDeadline c.1)

/-! ### The order of a cycle's events (R6, R215, R299; notes/assumptions/68) -/

/-- Where a request of a gang to a bank stands among those of one cycle: its pipe, or behind the pipes over the pair link (R215). -/
def bankPhase (s : State) (g : GRef) (x : Gang) (o : Nat) : Nat :=
  match (crewOf? s g).bind (fun cr => scrBank s cr o) with
  | some b => if b.1 = coreOf s g then x.pipe else 4
  | none => x.pipe

/-- The phase of an access at a place: of registers reads come first and writes last (R6), requests to banks come in R215's order. -/
def placePhase (s : State) (g : GRef) (x : Gang) (write : Bool) (p : Place) : Nat :=
  match p with
  | .phys _ => if inRegs p then (if write then 14 else 0) else 2
  | .scr o => 5 + bankPhase s g x o
  | _ => 2

/-- Does a command of a copy engine reach its scratchpad over the pair link? -/
def copyOverLink (s : State) (core idx : Nat) : Bool :=
  match (core? s core).bind (fun c => c.copyQ[idx]?) with
  | some m => (((crew? s m.crew).bind (fun cr => scrBank s cr m.off)).map (fun b => b.1 != core)).getD false
  | none => false

/-- Does a buffer of the gang's core, which a release of the gang drains, hold a store to a register? -/
def drainsRegs (s : State) (g : GRef) : Bool :=
  (allGangs s).any (fun p => coreOf s p.1 == coreOf s g && p.2.buf.any (fun e => inRegs e.place))

/-- The phase of an event that happens in a cycle: reads of registers, a function's reset, then what the clock brings, other happenings, bank
switches and issues, requests to banks in R215's order, writes of registers, those of atomics and of releases among them. -/
def phaseOf (s : State) (i : Instr) : Nat :=
  match i with
  | .loadDataReturn g op _ =>
    (match flightOf? s g op with
      | some (x, f) => ((f.elems.find? (fun e => !e.done)).map (fun e => placePhase s g x false e.place)).getD 2
      | none => 2)
  | .atomicComplete g op _ =>
    (match flightOf? s g op with
      | some (x, f) => ((f.elems.find? (fun e => !e.done)).map (fun e => placePhase s g x true e.place)).getD 2
      | none => 2)
  | .functionLevelReset _ => 1
  | .bufDrain g seq =>
    (match gang? s g with
      | some x => ((x.buf.find? (fun e => e.seq == seq)).map (fun e => placePhase s g x true e.place)).getD 2
      | none => 2)
  | .fenceComplete g _ | .persistComplete g | .icinvComplete g => if drainsRegs s g then 14 else 2
  | .hostMemAccess pa _ w _ => if regionOf pa = .regs then (if w.isSome then 14 else 0) else 2
  | .copyPieceWritten core idx _ => if copyOverLink s core idx then 10 else 11
  | .copySegmentStart _ | .copyComplete _ _ => 11
  | .matrixCommandStart _ | .matrixCommandComplete _ => 12
  | .lqConfigWrite .. | .accessTableWrite .. | .registerWrite .. | .evack .. | .tinvGo | .ownreqGo | .attestGo | .lmargGo ..
  | .pageReply .. => 14
  | _ => 2

/-- The happenings of some phases, phase by phase. -/
def inPhases (s : State) (is : List Instr) (ps : List Nat) : List Turn :=
  ps.flatMap (fun p => (is.filter (fun i => phaseOf s i == p)).map Turn.event)

/-- A bank switch takes effect before any access that issues after its BANKSET (R197, R198). -/
def bankSwitches (s : State) : List Turn :=
  (allGangs s).flatMap (fun p => p.2.groups.flatMap (fun q => match q.waiting with
    | .banks left _ => left.map (fun b => Turn.event (.bankSwitchApply p.1 b))
    | _ => []))

/-- An exchange is complete at the latest 256 cycles after its beat end (R270). -/
def mergeDue (s : State) : List Turn :=
  if s.exchanging && decide (s.mergeBy ≤ s.cycle.toNat) then [.event .mergeComplete] else []

/-- What happens to a stopped device: the world outside, and the access that starts it again (R16, R385, R396). -/
def reachesStoppedDevice : Instr → Bool
  | .powerOn | .hostMemAccess .. | .registerWrite .. | .hostPortDown | .hostPortUp | .arithmeticClockCycle => true
  | _ => false

/-- Does the device do nothing but wait for a start? -/
def deviceIdle (s : State) : Bool := s.stoppedClock || s.start.state != 0

/-- The turns of the next cycle. -/
def nextCycle (s : State) : List Turn :=
  let world := (Config.happenings s.fresh).filter outside
  if deviceIdle s then (world.filter reachesStoppedDevice).map Turn.event ++ [.event .arithmeticClockCycle]
  else
    inPhases s world [0, 1] ++ mergeDue s ++ (clockEvents s).map Turn.event ++ inPhases s world [2] ++ bankSwitches s ++ issueTurns s
      ++ inPhases s world [5, 6, 7, 8, 9, 10, 11, 12, 14] ++ (deadlines s).map Turn.event ++ [.event .arithmeticClockCycle]

/-! ### The end of a cycle -/

/-- The issue counters and the stall counters of one core (R352, Table 17-7). -/
def countPipes (s : State) (c : Nat × Core) : State :=
  [0, 1, 2, 3].foldl (fun s p =>
    if c.2.issued.getLsbD p then countCore s c.1 (0x800 + p) 1
    else if (allGangs s).any (fun g => (match g.1 with | .user _ _ => true | .sup _ => false)
        && coreOf s g.1 == c.1 && g.2.pipe == p && g.2.ended.isNone
        && ((crewOf? s g.1).map (fun r => r.phase == .resident)).getD false) then
      countCore s c.1 (match Tab.find? c.2.stalls p with | some w => 0x804 + w % 8 | none => 0x806) 1
    else s) s

/-- An RDSYS of a counter has the counter's value at the end of its cycle (R353). -/
def latchReads (s : State) (p : GRef × Gang) : State :=
  let unit := fun (n : Nat) => if n < 0x880 then coreOf s p.1 else if n < 0x900 then dieOf (coreOf s p.1) else 0
  if p.2.flights.any (fun f => match f.kind with | .ctread _ => true | _ => false) then
    modGang s p.1 (fun x => { x with flights := x.flights.map (fun f =>
      match f.kind with
      | .ctread n => { f with kind := .sysread, value := Tab.get 0#64 (liveOf s n (unit n)) n }
      | _ => f) })
  else s

/-- What a gang does at the end of a cycle: elements that are stalled in translation try again, accesses without elements complete, a
request whose gang has become quiet is posted, ended bodies give up their grants, and a gang that has ended makes its release (R98, R146,
R308, R313, R361). -/
def settleGang (s : State) (p : GRef × Gang) : State :=
  let s := if onCore s p.1 then retryHeld s p.1 p.2 else s
  let s := (p.2.flights.filter (fun f => f.elems.isEmpty)).foldl (fun s f => settleFlight s p.1 f.id) s
  let s := if p.2.trapReq.isSome then postTrap s p.1 else s
  let s := settleEnding s p.1
  if p.2.exitRel then exitRelease s p.1 else s

/-- What the engines of a core do in every cycle. -/
def engineCycle (s : State) (c : Nat × Core) : State := moveAllEarly (mxTick s c.1) c.1

/-- Is a word one that records a spared row or a retired lane, with the bits that its kind leaves zero (R387)? -/
def rowOrLane (w : W32) : Bool :=
  let n := w.toNat
  match bits n 31 28 with
  | 2 => decide (bits n 25 18 < 168 ∧ bits n 17 15 ≤ 4 ∧ bits n 3 0 = 0)
  | 3 => decide (bits n 27 26 = 0 ∧ bits n 25 18 ≤ 18 ∧ bits n 17 0 < 2 ^ portLanes (bits n 25 18))
  | _ => false

/-- Words that service calls of the firmware have added to the shadow (R387, R394): once a microsecond, which ones is free. -/
def fieldAdds (s : State) : State :=
  if s.cycle.toNat % 1250 ≠ 0 then s
  else
    let ws := ((Config.fieldWords s.fresh).filter rowOrLane).take (256 - s.shadow.length)
    if ws.isEmpty then freshen s
    else { freshen s with shadow := s.shadow ++ ws, start := { s.start with shchg := true } }

/-- Power measured over the last microsecond, below the limit unless it is engaged (R396). -/
def measurePower (s : State) : State :=
  if s.cycle.toNat % 1250 ≠ 0 then s
  else
    let v := (Config.freeValue s.fresh).toNat
    { freshen s with power := if s.powerEngaged then v % 2 ^ 22 else v % powerLimitNow s }

/-- What the end of a cycle of a started device does: barriers flip, unwinds and gangs settle, engines go on, counters take the cycle's
increments and the reads of the cycle are answered (R59, R299, R352, R353). -/
def cycleSettled (s : State) : State :=
  let s := flipBars s
  let s := keptAnswers ((s.unwinds.map (fun p => p.1)).foldl settleUnwind s)
  let s := (allGangs s).foldl settleGang s
  let s := s.cores.foldl engineCycle s
  let s := s.cores.foldl countPipes s
  let s := applyLates (applyCounts s)
  let s := (allGangs s).foldl latchReads s
  fieldAdds (measurePower s)

/-- The pipes that an instruction in progress holds in the next cycle. -/
def heldPipes (c : Core) : BitVec 4 := c.hold.foldl (fun m p => if p.2 = 0 then m else m ||| BitVec.ofNat 4 (2 ^ p.1)) 0#4

/-- A core at the start of the next cycle: every pipe is free but those that an instruction still holds (R24). -/
def pipesFreed (c : Core) : Core :=
  { c with issued := heldPipes c, hold := (c.hold.filter (fun p => decide (1 < p.2))).map (fun p => (p.1, p.2 - 1)), stalls := [] }

/-- The next cycle number (R349). -/
def cycleCounted (s : State) : State :=
  { s with cycle := s.cycle + 1, cores := Tab.mapVals (fun _ c => pipesFreed c) s.cores }

/-- ARITHMETIC_CLOCK_CYCLE: barriers flip, counters take the cycle's increments, and the cycle counter rises by one (R299, R349,
R352, R353). Counters stop while a start is performed. -/
def execArithmeticClockCycle (s : State) : Out :=
  .next (if s.stoppedClock then s else cycleCounted (if s.start.state = 0 then cycleSettled s else s))

/-! ### A step -/

/-- The event that performs the start that is requested, its outcome taken from outside (R385). -/
def startEvent (s : State) (warm : Bool) : Instr :=
  let o := Config.startOutcome s.fresh
  if warm ∧ s.start.wfail ≠ 3 then .startWarm o.1 o.2 else .startCold o.1 o.2

/-- One step: the next turn of the cycle; when the cycle has none left, a requested start is performed, or the turns of the next
cycle are laid out. -/
def turnStep (run : Instr → State → Out) (s : State) : Out :=
  match s.agenda with
  | .event i :: ts =>
    if deviceIdle s && !reachesStoppedDevice i then .next { s with agenda := ts } else run i { s with agenda := ts }
  | .pass g k :: ts => passTurn run g k { s with agenda := ts }
  | .issue g k :: ts => issueTurn run g k { s with agenda := ts }
  | [] =>
    match s.start.pending with
    | some warm => run (startEvent s warm) (freshen s)
    | none => .next { s with agenda := nextCycle s, fresh := s.fresh + 32 }

/-! ### Placing one instruction -/

/-- The physical addresses of a small translation: the context table, a pointer table and a leaf table. -/
def seedCtx : Nat := 0x30000
def seedTop : Nat := 0x10000
def seedLeaf : Nat := 0x20000
/-- The virtual address that it maps to physical address 0. -/
def seedPc : Nat := 0x2000000

/-- Code at physical address 0, and context 1 with one page that maps to it with every permission. -/
def seedMem (m : Memory) (code : List Byte) : Memory :=
  let m := m.writeN 0 code
  let m := m.writeN (seedCtx + 32) (toLE 8 (seedTop + 1) ++ toLE 8 0 ++ toLE 16 0)
  let m := m.writeN seedTop (toLE 8 (seedTop + 1) ++ toLE 8 (seedLeaf + 1))
  m.writeN seedLeaf (toLE 8 0x1F)

def seedLaunch : Launch :=
  { queue := 0, compl := 0, corr := 0, event := false, code := seedPc, args := 0, argsz := 0, width := 32, coop := false
    pair := false, x := 1, y := 1, z := 1, gangs := 1, validN := 32, nreg := 640, preg := 640, spb := 0, ffb := 0, bars := 32
    acct := 4, wprod := 1, ctx := 1, prio := 0, next := 1, endedCrews := 0, stack := [], lbars := [], status := 0, fails := 0
    first := 0, start := 0, finish := 0, record := [], recCrew := 0, stopping := false, debug := false, span := none
    spanArr := [] }

/-- A gang at its start, with a clause in progress, so that the next word may be any instruction. -/
def seedGang : Gang :=
  { gangStart seedLaunch 0 0 640 0 0 0 with
    groups := [{ QGroup.start 0xFF#16 seedPc with clause := some ⟨15, 15⟩ }] }

def seedCrew : Crew :=
  { launch := 0, index := 0, core := 0, phase := .resident, halting := false, gangs := [(0, seedGang)], banks0 := noBanks
    banks1 := noBanks, scr := [], lostScr := [], fifos := [], qcfg := [], mxctl := 0#32, bars := [], tiles := [], wds := []
    ops := [], rcd := [], rcdThrew := [], recSeq := 0, stack := [], half := [], savedCopies := [], savedMx := [], race := RaceClock.zero }

/-- A running machine whose next turn is the issue of the instruction in `code`. -/
def seedState (s : State) (code : List Byte) : State :=
  { s with
    mem := seedMem s.mem code, ctxbase := seedCtx, xlats := [], hostOwned := [], lost := [], ownreq := { s.ownreq with marked := none }
    regions := Tab.set (0#64, 0#64) s.regions 0 (1#64, 0x1FF7FF0000#64), access := Tab.set 0xC0#16 s.access 1 0x3FFF#16
    cores := Tab.put s.cores 0 Core.reset, launches := Tab.put s.launches 0 seedLaunch, crews := Tab.put s.crews 0 seedCrew
    nextCrew := max s.nextCrew 1, accept := max s.accept 1
    start := { s.start with state := 0, pending := none }, stoppedClock := false, pageReqs := [], unwinds := []
    agenda := [.issue (.user 0 0) 0] }

end Sys2Proof.Machine
end

