-- ==== Sys2Proof/Machine/Dispatch.lean ====
section
/-!
DEFINITION. Which meaning each instruction and event of spec/opcode_table.json has: one arm per constructor of `Instr`.
-/

namespace Sys2Proof.Machine

def exec (i : Instr) (s : State) : Host.Outcome State Fault Refusal :=
  match i with
  | .clauseHeader yld setb seta wait => Sys2Proof.Machine.execClauseHeader yld setb seta wait s
  | .nop => Sys2Proof.Machine.execNop s
  | .bra t => Sys2Proof.Machine.execBra t s
  | .brc sense c off => Sys2Proof.Machine.execBrc sense c off s
  | .call g t => Sys2Proof.Machine.execCall g t s
  | .callv g a b => Sys2Proof.Machine.execCallv g a b s
  | .ret => Sys2Proof.Machine.execRet s
  | .ifI g elseD endD => Sys2Proof.Machine.execIf g elseD endD s
  | .elseI => Sys2Proof.Machine.execElse s
  | .endif => Sys2Proof.Machine.execEndif s
  | .loop => Sys2Proof.Machine.execLoop s
  | .brk g => Sys2Proof.Machine.execBrk g s
  | .cont g => Sys2Proof.Machine.execCont g s
  | .endloop => Sys2Proof.Machine.execEndloop s
  | .gjoin => Sys2Proof.Machine.execGjoin s
  | .exit => Sys2Proof.Machine.execExit s
  | .waitp path t => Sys2Proof.Machine.execWaitp path t s
  | .tryGang off => Sys2Proof.Machine.execTryGang off s
  | .tryCrew off => Sys2Proof.Machine.execTryCrew off s
  | .tryLaunch off => Sys2Proof.Machine.execTryLaunch off s
  | .endtryGang => Sys2Proof.Machine.execEndtryGang s
  | .endtryCrew => Sys2Proof.Machine.execEndtryCrew s
  | .endtryLaunch => Sys2Proof.Machine.execEndtryLaunch s
  | .throw g a => Sys2Proof.Machine.execThrow g a s
  | .rethrow => Sys2Proof.Machine.execRethrow s
  | .rdexr d a => Sys2Proof.Machine.execRdexr d a s
  | .iadd x => Sys2Proof.Machine.execIadd x s
  | .isub x => Sys2Proof.Machine.execIsub x s
  | .imul x => Sys2Proof.Machine.execImul x s
  | .imulh x => Sys2Proof.Machine.execImulh x s
  | .imad x => Sys2Proof.Machine.execImad x s
  | .iabs x => Sys2Proof.Machine.execIabs x s
  | .ineg x => Sys2Proof.Machine.execIneg x s
  | .imin x => Sys2Proof.Machine.execImin x s
  | .imax x => Sys2Proof.Machine.execImax x s
  | .and x => Sys2Proof.Machine.execAnd x s
  | .or x => Sys2Proof.Machine.execOr x s
  | .xor x => Sys2Proof.Machine.execXor x s
  | .not x => Sys2Proof.Machine.execNot x s
  | .shl x => Sys2Proof.Machine.execShl x s
  | .shr x => Sys2Proof.Machine.execShr x s
  | .sar x => Sys2Proof.Machine.execSar x s
  | .rot x => Sys2Proof.Machine.execRot x s
  | .bfx x ctl => Sys2Proof.Machine.execBfx x ctl s
  | .bfi x ctl => Sys2Proof.Machine.execBfi x ctl s
  | .popc x => Sys2Proof.Machine.execPopc x s
  | .clz x => Sys2Proof.Machine.execClz x s
  | .ctz x => Sys2Proof.Machine.execCtz x s
  | .brev x => Sys2Proof.Machine.execBrev x s
  | .icmp g c ty pd a b => Sys2Proof.Machine.execIcmp g c ty pd a b s
  | .icmpc c ty cd a b => Sys2Proof.Machine.execIcmpc c ty cd a b s
  | .sel x pi neg => Sys2Proof.Machine.execSel x pi neg s
  | .mov x => Sys2Proof.Machine.execMov x s
  | .movi g ty d imm => Sys2Proof.Machine.execMovi g ty d imm s
  | .lea x sh => Sys2Proof.Machine.execLea x sh s
  | .plop g d a b tt => Sys2Proof.Machine.execPlop g d a b tt s
  | .clop d a b tt => Sys2Proof.Machine.execClop d a b tt s
  | .pmov g m => Sys2Proof.Machine.execPmov g m s
  | .shfl g m ty d a b => Sys2Proof.Machine.execShfl g m ty d a b s
  | .bcast g ty d a b => Sys2Proof.Machine.execBcast g ty d a b s
  | .ballot g d p => Sys2Proof.Machine.execBallot g d p s
  | .pscan g op incl ty sat d a => Sys2Proof.Machine.execPscan g op incl ty sat d a s
  | .append g d a b => Sys2Proof.Machine.execAppend g d a b s
  | .red g op ty sat d va => Sys2Proof.Machine.execRed g op ty sat d va s
  | .fadd x => Sys2Proof.Machine.execFadd x s
  | .fsub x => Sys2Proof.Machine.execFsub x s
  | .fmul x => Sys2Proof.Machine.execFmul x s
  | .fma x => Sys2Proof.Machine.execFma x s
  | .fmin nan x => Sys2Proof.Machine.execFmin nan x s
  | .fmax nan x => Sys2Proof.Machine.execFmax nan x s
  | .fabs x => Sys2Proof.Machine.execFabs x s
  | .fneg x => Sys2Proof.Machine.execFneg x s
  | .fscale x => Sys2Proof.Machine.execFscale x s
  | .fcmp g c pd a b => Sys2Proof.Machine.execFcmp g c pd a b s
  | .fcmpc c cd a b => Sys2Proof.Machine.execFcmpc c cd a b s
  | .fclass g pd a mask => Sys2Proof.Machine.execFclass g pd a mask s
  | .frcp x => Sys2Proof.Machine.execFrcp x s
  | .frsq x => Sys2Proof.Machine.execFrsq x s
  | .fsqrt x => Sys2Proof.Machine.execFsqrt x s
  | .fexp2 x => Sys2Proof.Machine.execFexp2 x s
  | .flog2 x => Sys2Proof.Machine.execFlog2 x s
  | .fsin x => Sys2Proof.Machine.execFsin x s
  | .fcos x => Sys2Proof.Machine.execFcos x s
  | .ftanh x => Sys2Proof.Machine.execFtanh x s
  | .cvt g tgt src sat d a si di => Sys2Proof.Machine.execCvt g tgt src sat d a si di s
  | .cvtmx g fmt d a b di => Sys2Proof.Machine.execCvtmx g fmt d a b di s
  | .cvtmxScale g fmt d a => Sys2Proof.Machine.execCvtmxScale g fmt d a s
  | .ld m sx d => Sys2Proof.Machine.execLd m sx d s
  | .ldRp m sx d p => Sys2Proof.Machine.execLdRp m sx d p s
  | .st m data => Sys2Proof.Machine.execSt m data s
  | .lds m sx d => Sys2Proof.Machine.execLds m sx d s
  | .sts m data => Sys2Proof.Machine.execSts m data s
  | .atom op m d data => Sys2Proof.Machine.execAtom op m d data s
  | .atoms op m d data => Sys2Proof.Machine.execAtoms op m d data s
  | .fence scope d => Sys2Proof.Machine.execFence scope d s
  | .waita c size scope d idx rc cmp disp => Sys2Proof.Machine.execWaita c size scope d idx rc cmp disp s
  | .wake scope idx rc disp => Sys2Proof.Machine.execWake scope idx rc disp s
  | .persist => Sys2Proof.Machine.execPersist s
  | .zfill r => Sys2Proof.Machine.execZfill r s
  | .pagereq f r => Sys2Proof.Machine.execPagereq f r s
  | .cctlWb scope r => Sys2Proof.Machine.execCctlWb scope r s
  | .cctlDisc scope r => Sys2Proof.Machine.execCctlDisc scope r s
  | .icpf r => Sys2Proof.Machine.execIcpf r s
  | .icpin r => Sys2Proof.Machine.execIcpin r s
  | .icpinUnpin r => Sys2Proof.Machine.execIcpinUnpin r s
  | .icinvCrew r => Sys2Proof.Machine.execIcinvCrew r s
  | .icinvDev r => Sys2Proof.Machine.execIcinvDev r s
  | .qstat full d q c => Sys2Proof.Machine.execQstat full d q c s
  | .cpy x arr dir => Sys2Proof.Machine.execCpy x arr dir s
  | .cpyM x cores => Sys2Proof.Machine.execCpyM x cores s
  | .cpyX x arr dir => Sys2Proof.Machine.execCpyX x arr dir s
  | .mma x => Sys2Proof.Machine.execMma x s
  | .mmaSp x sm => Sys2Proof.Machine.execMmaSp x sm s
  | .mmaP x => Sys2Proof.Machine.execMmaP x s
  | .msel g f a b fw sa sm => Sys2Proof.Machine.execMsel g f a b fw sa sm s
  | .accz g f tile => Sys2Proof.Machine.execAccz g f tile s
  | .accdr g f off tgt tile => Sys2Proof.Machine.execAccdr g f off tgt tile s
  | .wdset g f val tile => Sys2Proof.Machine.execWdset g f val tile s
  | .mfence g f => Sys2Proof.Machine.execMfence g f s
  | .fwait f st => Sys2Proof.Machine.execFwait f st s
  | .ftest f c st => Sys2Proof.Machine.execFtest f c st s
  | .fcancel f => Sys2Proof.Machine.execFcancel f s
  | .fexport f off => Sys2Proof.Machine.execFexport f off s
  | .fimport f off => Sys2Proof.Machine.execFimport f off s
  | .barinit bar e => Sys2Proof.Machine.execBarinit bar e s
  | .bara bar => Sys2Proof.Machine.execBara bar s
  | .barexp bar b => Sys2Proof.Machine.execBarexp bar b s
  | .barw bar phase => Sys2Proof.Machine.execBarw bar phase s
  | .lbar n => Sys2Proof.Machine.execLbar n s
  | .otdecl f off => Sys2Proof.Machine.execOtdecl f off s
  | .otbegin f => Sys2Proof.Machine.execOtbegin f s
  | .otend => Sys2Proof.Machine.execOtend s
  | .otround a => Sys2Proof.Machine.execOtround a s
  | .trap code => Sys2Proof.Machine.execTrap code s
  | .svret slot adv => Sys2Proof.Machine.execSvret slot adv s
  | .svthrow slot code => Sys2Proof.Machine.execSvthrow slot code s
  | .rdxv g d slot reg hi => Sys2Proof.Machine.execRdxv g d slot reg hi s
  | .wrxv g slot data reg hi => Sys2Proof.Machine.execWrxv g slot data reg hi s
  | .rdxs d slot num => Sys2Proof.Machine.execRdxs d slot num s
  | .wrxs slot data num => Sys2Proof.Machine.execWrxs slot data num s
  | .rdsys d num => Sys2Proof.Machine.execRdsys d num s
  | .wrsys data num => Sys2Proof.Machine.execWrsys data num s
  | .bankset mask mode => Sys2Proof.Machine.execBankset mask mode s
  | .bist d arr pat => Sys2Proof.Machine.execBist d arr pat s
  | .mbxrdNext d => Sys2Proof.Machine.execMbxrdNext d s
  | .mbxrdWord d slot word => Sys2Proof.Machine.execMbxrdWord d slot word s
  | .coreret d core => Sys2Proof.Machine.execCoreret d core s
  | .idivU32 x => Sys2Proof.Machine.execIdivU32 x s
  | .iremU32 x => Sys2Proof.Machine.execIremU32 x s
  | .idivU64 x => Sys2Proof.Machine.execIdivU64 x s
  | .iremU64 x => Sys2Proof.Machine.execIremU64 x s
  | .idivS32 x => Sys2Proof.Machine.execIdivS32 x s
  | .iremS32 x => Sys2Proof.Machine.execIremS32 x s
  | .idivS64 x => Sys2Proof.Machine.execIdivS64 x s
  | .iremS64 x => Sys2Proof.Machine.execIremS64 x s
  | .fdivF32 x => Sys2Proof.Machine.execFdivF32 x s
  | .dadd x => Sys2Proof.Machine.execDadd x s
  | .dmul x => Sys2Proof.Machine.execDmul x s
  | .dfma x c => Sys2Proof.Machine.execDfma x c s
  | .ddiv x => Sys2Proof.Machine.execDdiv x s
  | .dsqrt g d a => Sys2Proof.Machine.execDsqrt g d a s
  | .dcvt g form d a => Sys2Proof.Machine.execDcvt g form d a s
  | .emu x => Sys2Proof.Machine.execEmu x s
  | .loadDataReturn g op lanes => Sys2Proof.Machine.execLoadDataReturn g op lanes s
  | .spillReadReturn g reg bad => Sys2Proof.Machine.execSpillReadReturn g reg bad s
  | .sysreadComplete g op => Sys2Proof.Machine.execSysreadComplete g op s
  | .fenceComplete g op => Sys2Proof.Machine.execFenceComplete g op s
  | .bufDrain g seq => Sys2Proof.Machine.execBufDrain g seq s
  | .coreWriteBack core pa => Sys2Proof.Machine.execCoreWriteBack core pa s
  | .copyDiscard core pa => Sys2Proof.Machine.execCopyDiscard core pa s
  | .copyFetch core pa => Sys2Proof.Machine.execCopyFetch core pa s
  | .atomicComplete g op lane => Sys2Proof.Machine.execAtomicComplete g op lane s
  | .copySegmentStart core => Sys2Proof.Machine.execCopySegmentStart core s
  | .copyPieceWritten core idx piece => Sys2Proof.Machine.execCopyPieceWritten core idx piece s
  | .copyComplete core idx => Sys2Proof.Machine.execCopyComplete core idx s
  | .matrixCommandStart core => Sys2Proof.Machine.execMatrixCommandStart core s
  | .matrixCommandComplete core => Sys2Proof.Machine.execMatrixCommandComplete core s
  | .bankSwitchApply g bank => Sys2Proof.Machine.execBankSwitchApply g bank s
  | .persistComplete g => Sys2Proof.Machine.execPersistComplete g s
  | .icinvComplete g => Sys2Proof.Machine.execIcinvComplete g s
  | .unwindComplete u => Sys2Proof.Machine.execUnwindComplete u s
  | .candidatePromote g grp => Sys2Proof.Machine.execCandidatePromote g grp s
  | .svyieldTimeout core => Sys2Proof.Machine.execSvyieldTimeout core s
  | .waitaPoll g grp => Sys2Proof.Machine.execWaitaPoll g grp s
  | .preemptRequest ctx => Sys2Proof.Machine.execPreemptRequest ctx s
  | .crewSave crew => Sys2Proof.Machine.execCrewSave crew s
  | .crewResume crew core => Sys2Proof.Machine.execCrewResume crew core s
  | .crewPlace => Sys2Proof.Machine.execCrewPlace s
  | .crewEnd crew => Sys2Proof.Machine.execCrewEnd crew s
  | .tailRead q => Sys2Proof.Machine.execTailRead q s
  | .tailPollTimer q => Sys2Proof.Machine.execTailPollTimer q s
  | .dependenceWatch q => Sys2Proof.Machine.execDependenceWatch q s
  | .launchAccept => Sys2Proof.Machine.execLaunchAccept s
  | .completionWrite launch => Sys2Proof.Machine.execCompletionWrite launch s
  | .beatEnd => Sys2Proof.Machine.execBeatEnd s
  | .mergeComplete => Sys2Proof.Machine.execMergeComplete s
  | .lbarCountExchange launch n modules => Sys2Proof.Machine.execLbarCountExchange launch n modules s
  | .heartbeat missed => Sys2Proof.Machine.execHeartbeat missed s
  | .failover => Sys2Proof.Machine.execFailover s
  | .claimDeadline e => Sys2Proof.Machine.execClaimDeadline e s
  | .evnext => Sys2Proof.Machine.execEvnext s
  | .evans e forward => Sys2Proof.Machine.execEvans e forward s
  | .evack e => Sys2Proof.Machine.execEvack e s
  | .eventRingWrite => Sys2Proof.Machine.execEventRingWrite s
  | .tinvGo => Sys2Proof.Machine.execTinvGo s
  | .tinvDone => Sys2Proof.Machine.execTinvDone s
  | .ownreqGo => Sys2Proof.Machine.execOwnreqGo s
  | .ownToHostFlip block => Sys2Proof.Machine.execOwnToHostFlip block s
  | .ownToDeviceFlip block dirty => Sys2Proof.Machine.execOwnToDeviceFlip block dirty s
  | .hostMemAccess pa ctx write len => Sys2Proof.Machine.execHostMemAccess pa ctx write len s
  | .hostSnoop pa write => Sys2Proof.Machine.execHostSnoop pa write s
  | .pageRequestWrite fn => Sys2Proof.Machine.execPageRequestWrite fn s
  | .pageReply fn tag stat => Sys2Proof.Machine.execPageReply fn tag stat s
  | .pagereqResolve crew op => Sys2Proof.Machine.execPagereqResolve crew op s
  | .functionLevelReset fn => Sys2Proof.Machine.execFunctionLevelReset fn s
  | .powerOn => Sys2Proof.Machine.execPowerOn s
  | .startCold failed badCores => Sys2Proof.Machine.execStartCold failed badCores s
  | .startWarm failed badCores => Sys2Proof.Machine.execStartWarm failed badCores s
  | .attestGo => Sys2Proof.Machine.execAttestGo s
  | .attestDone => Sys2Proof.Machine.execAttestDone s
  | .lmargGo port => Sys2Proof.Machine.execLmargGo port s
  | .lmargScanDone port errors => Sys2Proof.Machine.execLmargScanDone port errors s
  | .supervisorRestart core => Sys2Proof.Machine.execSupervisorRestart core s
  | .beatWrite => Sys2Proof.Machine.execBeatWrite s
  | .qcfgWrite crew n => Sys2Proof.Machine.execQcfgWrite crew n s
  | .tickConfigWrite => Sys2Proof.Machine.execTickConfigWrite s
  | .tickClear => Sys2Proof.Machine.execTickClear s
  | .tickEdge => Sys2Proof.Machine.execTickEdge s
  | .currentSample milliamps => Sys2Proof.Machine.execCurrentSample milliamps s
  | .lqConfigWrite q word val => Sys2Proof.Machine.execLqConfigWrite q word val s
  | .accessTableWrite target ctx val => Sys2Proof.Machine.execAccessTableWrite target ctx val s
  | .registerWrite pa val => Sys2Proof.Machine.execRegisterWrite pa val s
  | .powerLimit milliwatts => Sys2Proof.Machine.execPowerLimit milliwatts s
  | .coldPlateLimit sensor => Sys2Proof.Machine.execColdPlateLimit sensor s
  | .junctionTrip sensor => Sys2Proof.Machine.execJunctionTrip sensor s
  | .linkLaneFail port lane => Sys2Proof.Machine.execLinkLaneFail port lane s
  | .linkDown port => Sys2Proof.Machine.execLinkDown port s
  | .hostPortDown => Sys2Proof.Machine.execHostPortDown s
  | .eccUncorrectable site => Sys2Proof.Machine.execEccUncorrectable site s
  | .arithmeticClockCycle => Sys2Proof.Machine.execArithmeticClockCycle s
  | .powerBelowLimit => Sys2Proof.Machine.execPowerBelowLimit s
  | .coldPlateInRange sensor => Sys2Proof.Machine.execColdPlateInRange sensor s
  | .hostPortUp => Sys2Proof.Machine.execHostPortUp s
  | .peerMemAccess pa ctx write len => Sys2Proof.Machine.execPeerMemAccess pa ctx write len s
  | .sysStoreComplete g seq => Sys2Proof.Machine.execSysStoreComplete g seq s
  | .backInvalidateResponse pa dirty => Sys2Proof.Machine.execBackInvalidateResponse pa dirty s
  | .bistComplete core failRows firstRow => Sys2Proof.Machine.execBistComplete core failRows firstRow s
  | .spanLaunchUnwind launch => Sys2Proof.Machine.execSpanLaunchUnwind launch s

end Sys2Proof.Machine
end

