-- ==== Sys2Proof/Machine/Step.lean ====
section
/-!
DEFINITION. The step of the machine: the next turn of `State.agenda`, with the meanings of Dispatch.
-/

namespace Sys2Proof.Machine

/-- One step. -/
def step (s : State) : Host.Outcome State Fault Refusal := turnStep exec s

/-- The state with one instruction, numbered as spec/opcode_table.json numbers it, where the next step fetches. The device loads
its programs itself, so this lays a running gang around the instruction (notes/assumptions/12). -/
def State.withFetchWord (s : State) (nbits w : Nat) : State := seedState s (toLE 16 (w % 2 ^ nbits))

end Sys2Proof.Machine
end

