-- ==== Sys2Proof/WellFormed.lean ====
section
/-!
DEFINITION. Which instructions the encoding admits (spec/05_encoding.md R94 to R105 and the encoding tables): the
static part of Table 5-8, said about the instruction instead of its word. Events carry no encoding and are well formed.
-/

namespace Sys2Proof

def Guard.wf (g : Guard) : Bool := g.p < 16

/-- A uniform instruction carries no guard (R96). -/
def Guard.isAll (g : Guard) : Bool := g.p == 0 && !g.neg

/-- Operand codes stay inside Table 5-3, and an immediate word stands only where a form admits one. -/
def Opd.wf (o : Opd) : Bool :=
  match o with
  | .v n => n < 640
  | .s n => n < 128
  | .k z => -32 ≤ z && z ≤ 95
  | .q n => n < 8
  | .imm _ => false
  | _ => true

/-- A source or destination of one of the classes `cs`, an even register where it is a pair. -/
def Opd.fits (o : Opd) (cs : List OC) (is64 : Bool) : Bool := o.wf && o.isOf cs && o.evenIf is64

/-- A B operand, which a 96-bit form takes from its immediate word. -/
def Opd.fitsImm (o : Opd) (cs : List OC) (is64 : Bool) : Bool :=
  match o with
  | .imm _ => true
  | _ => o.fits cs is64

/-- The sources of a form by the class of its destination (R104, R153). -/
def srcOf (d : Opd) : List OC := if d.isScalarDst then ssrc else vsrc

def wfDst (g : Guard) (d : Opd) (is64 : Bool) : Bool :=
  g.wf && d.fits ddst is64 && (!d.isScalarDst || g.isAll)

def wfUn (tys : List Ety) (satOk : Bool) (x : Un) : Bool :=
  tys.contains x.ty && (satOk || !x.sat) && wfDst x.g x.d x.ty.is64 && x.a.fits (srcOf x.d) x.ty.is64

def wfBin (tys : List Ety) (satOk : Bool) (x : Bin) : Bool :=
  tys.contains x.ty && (satOk || !x.sat) && wfDst x.g x.d x.ty.is64 && x.a.fits (srcOf x.d) x.ty.is64
  && x.b.fitsImm (srcOf x.d) x.ty.is64

/-- The forms whose B excludes classes L and E and is 32 bits wide or an integer: LEA and FSCALE. -/
def wfBinNarrow (tys : List Ety) (satOk : Bool) (x : Bin) : Bool :=
  tys.contains x.ty && (satOk || !x.sat) && wfDst x.g x.d x.ty.is64 && x.a.fits (srcOf x.d) x.ty.is64
  && x.b.fitsImm (if x.d.isScalarDst then [.s, .k, .y] else [.v, .s, .k, .x, .q]) false

def wfTer (tys : List Ety) (satOk : Bool) (x : Ter) : Bool :=
  tys.contains x.ty && (satOk || !x.sat) && wfDst x.g x.d x.ty.is64 && x.a.fits (srcOf x.d) x.ty.is64
  && x.b.fits (srcOf x.d) x.ty.is64 && x.c.fits (srcOf x.d) x.ty.is64

def tyInts : List Ety := [.s32, .u32, .s64, .u64, .s16x2, .u16x2, .s8x4, .u8x4]
def tyWords : List Ety := [.s32, .u32, .s64, .u64]
def tyFloats : List Ety := [.f32, .f16x2, .bf16x2]

def wfCtl (d : Opd) (ctl : Opd) : Bool :=
  ctl.fitsImm (if d.isScalarDst then [.s, .k, .y] else [.v, .s, .k, .x, .q]) false

def laneCls : List OC := [.v, .s, .k, .x]
def sk : List OC := [.s, .k]

def wfGMem (m : GMem) : Bool := m.g.wf && m.idx.fits laneCls false && m.rc < 32
def wfSMem (m : SMem) : Bool :=
  m.g.wf && m.base.fits sk false && m.off.fits laneCls false && (m.scope == .gang || m.scope == .crew)
def wfRange (r : Range) : Bool := r.idx.fits sk false && r.len.fits sk false && r.rc < 32
def wfCopy (x : Copy) : Bool :=
  x.g.wf && x.f < 16 && x.a.fits sk false && x.b.fits sk false && x.c.fits sk false && x.rc < 32
  && (match x.bar with | some b => b < 32 | none => true)
def wfMma (x : MmaArgs) : Bool :=
  x.g.wf && x.f < 16 && x.a.fits sk false && x.b.fits sk false && x.fw < 640 && x.tile < 4 && x.sa < 2 ^ 20
  && x.sb < 2 ^ 20
def wfEmu (d64 s64 : Bool) (x : Emu) : Bool :=
  x.g.wf && x.d.fits [.v] d64 && x.a.fits [.v, .s, .k] s64 && x.b.fits [.v, .s, .k] s64

/-- LD and LDS destinations: class Q only below 64 bits (R242). -/
def wfLoadDst (sz : Size) (sx : Bool) (d : Opd) : Bool :=
  d.fits (if sz.is64 then [.v] else [.v, .q]) sz.is64 && (!sx || sz == .b8 || sz == .b16)

def wfAtom (op : AtomOp) (sz : Size) : Bool :=
  (sz == .b32 || sz == .b64) && (op != .fadd || sz == .b32)

/-- Is the instruction one that some word of the encoding names? -/
def Instr.wf : Instr → Bool
  | .clauseHeader _ setb seta _ =>
    setb < 16 && seta < 16 && !(12 ≤ setb && setb ≤ 14) && !(12 ≤ seta && seta ≤ 14)
  | .nop | .ret | .elseI | .endif | .loop | .endloop | .gjoin | .exit | .endtryGang | .endtryCrew | .endtryLaunch
  | .rethrow | .tryGang _ | .tryCrew _ | .tryLaunch _ | .persist | .otend => true
  | .bra t => match t with | .off _ => true | .reg n => n < 128
  | .brc _ c _ => c < 16
  | .call g t => g.wf && (match t with | .off _ => true | .reg n => n < 128)
  | .callv g a b => g.wf && a < 640 && b < 128
  | .ifI g e n => g.wf && 0 < n && n < 2 ^ 16 && (e == 0 || e < n)
  | .brk g | .cont g => g.wf
  | .waitp n t => n < 4 && t < 1024
  | .throw g a => g.wf && a.fits [.v, .s, .k] false
  | .rdexr d a => d.fits [.s] false && a.fits sk false
  | .iadd x | .isub x | .imul x | .shl x => wfBin tyInts true x
  | .imulh x => wfBin tyWords false x
  | .imin x | .imax x | .and x | .or x | .xor x | .shr x | .sar x | .rot x => wfBin tyInts false x
  | .imad x => wfTer tyInts true x
  | .iabs x | .ineg x => wfUn tyInts true x
  | .not x | .popc x | .clz x | .ctz x | .brev x => wfUn tyInts false x
  | .bfx x ctl => wfUn tyWords false x && wfCtl x.d ctl
  | .bfi x ctl => wfBin [.u32, .u64] false x && x.b.wf && wfCtl x.d ctl
  | .icmp g _ ty pd a b => g.wf && tyWords.contains ty && pd < 16 && a.fits vsrc ty.is64 && b.fitsImm vsrc ty.is64
  | .icmpc _ ty cd a b => tyWords.contains ty && cd < 16 && a.fits ssrc ty.is64 && b.fitsImm ssrc ty.is64
  | .sel x pi _ => wfBin [.u32, .u64] false x && pi < 16
  | .mov x => wfUn [.u32, .u64] false x
  | .movi g ty d imm => g.wf && d.fits [.v, .s, .l, .e] ty.is64 && (!d.isScalarDst || g.isAll)
    && (match imm with
        | .word _ => ty == .u32 || ty == .s64 || ty == .u64
        | .ext _ => ty == .s64 || ty == .u64)
  | .lea x sh => wfBinNarrow tyWords false x && sh < 16
  | .plop g d a b _ => g.wf && d < 16 && a < 16 && b < 16
  | .clop d a b _ => d < 16 && a < 16 && b < 16
  | .pmov g m => g.wf && (match m with
      | .toPred p a => p < 16 && a.fits [.v, .s, .k, .x, .q] false
      | .fromPred d p => p < 16 && d.fits [.v] false
      | .bit p a => p < 16 && a.fits [.s, .k, .y, .l, .e] false)
  | .shfl g _ ty d a b =>
    g.wf && (ty == .u32 || ty == .u64) && d.fits [.v] ty.is64 && a.fits [.v] ty.is64 && b.fits laneCls false
  | .bcast g ty d a b =>
    g.wf && (ty == .u32 || ty == .u64) && d.fits [.v] ty.is64 && a.fits [.v] ty.is64 && b.fits [.s, .k, .y] false
  | .ballot g d p => g.wf && d.fits [.s] false && p < 16
  | .pscan g op _ ty sat d a =>
    g.wf && (ty == .s32 || ty == .u32) && (!sat || op == .add) && d.fits [.v] false && a.fits [.v] false
  | .append g d a b => g.wf && d.fits [.v] false && a.fits [.s] false && b.fits sk false
  | .red g op ty sat d va =>
    g.wf && tyWords.contains ty && (!sat || op == .add) && d.fits [.s] false && va < 1024 && (!ty.is64 || va % 2 == 0)
  | .fadd x | .fsub x | .fmul x => wfBin tyFloats true x
  | .fma x => wfTer tyFloats true x
  | .fmin _ x | .fmax _ x => wfBin tyFloats false x
  | .fabs x | .fneg x | .frcp x | .frsq x | .fsqrt x | .fexp2 x | .flog2 x | .fsin x | .fcos x | .ftanh x =>
    wfUn tyFloats false x
  | .fscale x => wfBinNarrow tyFloats true x
  | .fcmp g _ pd a b => g.wf && pd < 16 && a.fits vsrc false && b.fitsImm vsrc false
  | .fcmpc _ cd a b => cd < 16 && a.fits ssrc false && b.fitsImm ssrc false
  | .fclass g pd a _ => g.wf && pd < 16 && a.fits vsrc false
  | .cvt g tgt src _ d a si di =>
    tgt != src && wfDst g d false && a.fits (srcOf d) false && si < 32 / src.width && di < 32 / tgt.width
    && si < 8 && di < 8 && (src == .s32 || src == .u32 || src == .f32 || !a.isOf [.k])
  | .cvtmx g fmt d a b di =>
    (fmt == .e4m3 || fmt == .e2m1) && wfDst g d false && a.fits (srcOf d) false
    && b.fits (if d.isScalarDst then [.s, .k, .y] else [.v, .s, .k, .x, .q]) false
    && di < (if fmt == .e4m3 then 4 else 8)
  | .cvtmxScale g fmt d a => (fmt == .e4m3 || fmt == .e2m1) && wfDst g d false && a.fits (srcOf d) false
  | .ld m sx d => wfGMem m && wfLoadDst m.size sx d
  | .ldRp m sx d p => wfGMem m && wfLoadDst m.size sx d && 0 < p && p < 16
  | .st m data => wfGMem m && data.fits [.v, .s, .k, .x, .q] m.size.is64
  | .lds m sx d => wfSMem m && wfLoadDst m.size sx d
  | .sts m data => wfSMem m && data.fits [.v, .s, .k, .x, .q] m.size.is64
  | .atom op m d data =>
    wfGMem m && wfAtom op m.size && d.fits [.v] m.size.is64 && data.fits laneCls m.size.is64
  | .atoms op m d data =>
    wfSMem m && wfAtom op m.size && d.fits [.v] m.size.is64 && data.fits laneCls m.size.is64
  | .fence _ d => d.fits [.s] false
  | .waita _ sz sc d idx rc cmp _ =>
    (sz == .b32 || sz == .b64) && (sc == .dev || sc == .sys) && d.fits [.s] false && idx.fits sk false
    && cmp.fits sk false && rc < 32
  | .wake sc idx rc _ => (sc == .dev || sc == .sys) && idx.fits sk false && rc < 32
  | .zfill r | .icpf r | .icpin r | .icpinUnpin r | .icinvCrew r | .icinvDev r => wfRange r
  | .pagereq f r => f < 16 && wfRange r
  | .cctlWb sc r | .cctlDisc sc r => sc != .sys && wfRange r
  | .qstat _ d q c => d.fits [.s] false && q < 8 && c < 16
  | .cpy x arr _ | .cpyX x arr _ => wfCopy x && (!arr || x.bar.isSome)
  | .cpyM x _ => wfCopy x
  | .mma x | .mmaP x => wfMma x
  | .mmaSp x sm => wfMma x && sm < 2 ^ 20
  | .msel g f a b fw sa sm => wfMma ⟨g, f, a, b, fw, 0, sa, 0⟩ && sm < 2 ^ 20
  | .accz g f t => g.wf && f < 16 && t < 4
  | .accdr g f off tgt t => g.wf && f < 16 && off.fits sk false && t < 4
    && [Fmt.s32, .f32, .f16, .bf16, .e4m3, .e5m2].contains tgt
  | .wdset g f val t => g.wf && f < 16 && val.fits sk false && t < 4
  | .mfence g f => g.wf && f < 16
  | .fwait f w => f < 16 && (match w with | some n => n < 128 | none => true)
  | .ftest f c w => f < 16 && c < 16 && (match w with | some n => n < 128 | none => true)
  | .fcancel f => f < 16
  | .fexport f off | .fimport f off => f < 16 && off.fits sk false
  | .barinit b e | .barexp b e => b < 32 && e.fits sk false
  | .bara b | .barw b _ => b < 32
  | .lbar n => n < 4
  | .otdecl f off => f < 16 && off.fits sk false
  | .otbegin f => f < 16
  | .otround a => a.fits sk false
  | .trap code => match code with | .imm w => w.toNat < 2 ^ 16 | _ => code.fits sk false
  | .svret slot n => slot.fits sk false && n < 1024
  | .svthrow slot code => slot.fits sk false && code.fits sk false
  | .rdxv g d slot reg _ => g.wf && d.fits [.v] false && slot.fits sk false && reg < 1024
  | .wrxv g slot data reg _ => g.wf && slot.fits sk false && data.fits [.v, .s, .k] false && reg < 1024
  | .rdxs d slot num => d.fits [.s] false && slot.fits sk false && num < 2 ^ 13
  | .wrxs slot data num => slot.fits sk false && data.fits sk false && num < 2 ^ 13
  | .rdsys d num => d.fits [.s] false && num < 2 ^ 12 && sysNumDefined num
  | .wrsys data num => data.fits sk false && num < 2 ^ 12 && sysNumDefined num
  | .bankset m _ => m.fits sk false
  | .bist d arr pat => d.fits [.s] false && arr.fits sk false && pat.fits sk false
  | .mbxrdNext d => d.fits [.s] false
  | .mbxrdWord d slot w => d.fits [.s] false && slot.fits sk false && w.fits sk false
  | .coreret d core => d.fits [.s] false && core.fits sk false
  | .idivU32 x | .iremU32 x | .idivS32 x | .iremS32 x | .fdivF32 x | .emu x => wfEmu false false x
  | .idivU64 x | .iremU64 x | .idivS64 x | .iremS64 x | .dadd x | .dmul x | .ddiv x => wfEmu true true x
  | .dfma x c => wfEmu true true x && c.fits [.v] true
  | .dsqrt g d a => g.wf && d.fits [.v] true && a.fits [.v, .s, .k] true
  | .dcvt g f d a => g.wf && f < 4 && d.fits [.v] (f % 2 == 0) && a.fits [.v, .s, .k] (f % 2 == 1)
  | .loadDataReturn .. | .spillReadReturn .. | .sysreadComplete .. | .fenceComplete .. | .bufDrain ..
  | .coreWriteBack .. | .copyDiscard .. | .copyFetch .. | .atomicComplete .. | .copySegmentStart ..
  | .copyPieceWritten .. | .copyComplete .. | .matrixCommandStart .. | .matrixCommandComplete ..
  | .bankSwitchApply .. | .persistComplete .. | .icinvComplete .. | .unwindComplete .. | .candidatePromote ..
  | .svyieldTimeout .. | .waitaPoll .. | .preemptRequest .. | .crewSave .. | .crewResume .. | .crewPlace
  | .crewEnd .. | .tailRead .. | .tailPollTimer .. | .dependenceWatch .. | .launchAccept | .completionWrite ..
  | .beatEnd | .mergeComplete | .lbarCountExchange .. | .heartbeat .. | .failover | .claimDeadline .. | .evnext
  | .evans .. | .evack .. | .eventRingWrite | .tinvGo | .tinvDone | .ownreqGo | .ownToHostFlip ..
  | .ownToDeviceFlip .. | .hostMemAccess .. | .hostSnoop .. | .pageRequestWrite .. | .pageReply ..
  | .pagereqResolve .. | .functionLevelReset .. | .powerOn | .startCold .. | .startWarm .. | .attestGo | .attestDone
  | .lmargGo .. | .lmargScanDone .. | .supervisorRestart .. | .beatWrite | .qcfgWrite .. | .tickConfigWrite
  | .tickClear | .tickEdge | .currentSample .. | .lqConfigWrite .. | .accessTableWrite .. | .registerWrite ..
  | .powerLimit .. | .coldPlateLimit .. | .junctionTrip .. | .linkLaneFail .. | .linkDown .. | .hostPortDown
  | .eccUncorrectable .. | .arithmeticClockCycle | .powerBelowLimit | .coldPlateInRange .. | .hostPortUp
  | .peerMemAccess .. | .sysStoreComplete .. | .backInvalidateResponse .. | .bistComplete .. | .spanLaunchUnwind ..
    => true

/-- Does the instruction have words (R92), or is it an event? -/
def Instr.hasWords (i : Instr) : Bool := (encode i).isSome

end Sys2Proof
end

