-- ==== Sys2Proof/Safety.lean ====
section
/-!
DEFINITION. What counts as a safe state and a safe run, and the terms the statements use: when the issuing group may execute an
instruction, what the operands of a form give it, and what an instruction leaves alone.
-/

namespace Sys2Proof.Machine

/-- Device, host and peer memory is in its canonical form. -/
def State.MemOk (s : State) : Prop := s.mem.wf = true

/-- No instruction stands in the agenda as an event: an instruction runs only where a group fetches it. -/
def State.AgendaOk (s : State) : Prop := ∀ i, Turn.event i ∈ s.agenda → i.hasWords = false

/-- The invariant of the machine. -/
def State.Inv (s : State) : Prop := s.MemOk ∧ s.AgendaOk

/-- No step from a state stops: it answers a next state. -/
def State.Goes (s : State) : Prop := ∃ t, step s = .next t

/-! ### When an instruction executes normally -/

/-- The group that `State.cur` names may execute the instruction now: it lives and is not suspended, no trap of Table 5-8 meets it,
it is not passed over, its operands and counters are ready (R41, R115), the gang is whole where the instruction is collective (R28), and no
fetched operand was lost (R115). -/
def mayRun (s : State) (is : Iss) (i : Instr) : Bool :=
  decide (issuer? s = some is) && !is.q.ended && !suspended s is.ref is.gang && !groupHeld s is && (screen s is i).isNone
    && !i.emulated && !passedOver is i && (notReady is i).isNone && (unfetched is.gang i).isEmpty
    && !(i.collective && separated is.gang) && spillBad is.gang i == 0#64

/-- The same but for the gang's being whole. -/
def mayIssue (s : State) (is : Iss) (i : Instr) : Bool :=
  decide (issuer? s = some is) && !is.q.ended && !suspended s is.ref is.gang && !groupHeld s is && (screen s is i).isNone
    && !i.emulated && !passedOver is i && (notReady is i).isNone && (unfetched is.gang i).isEmpty && spillBad is.gang i == 0#64

/-- The collective instructions that have a trap of their own: of a target or a catch address, or of a try that does not match. -/
def trapsItself : Instr → Bool
  | .call .. | .callv .. | .ret | .tryGang _ | .tryCrew _ | .tryLaunch _ | .endtryGang | .endtryCrew | .endtryLaunch => true
  | _ => false

/-! ### Operands and results of the lane-wise forms -/

/-- What the sources of a form give it: the state with the popped entries gone, and the sources; none where a queue it names is
unusable, empty or full, or a popped word is lost (R122, R199). -/
def feeds (s : State) (is : Iss) (srcs : List (Opd × Ety)) (d : Opd) : Option (State × List Src) :=
  if (queueNames srcs d).all (fun n => qcfgUsable s is.ref (qCfg s is.ref n)) then
    match popAll s is.ref srcs with
    | some (s', xs, bad) =>
      if bad == 0#64 && d.qreg.all (fun n => decide ((qFifo s' is.ref n).entries.length < qCap s' is.ref n is.gang.width))
      then some (s', xs) else none
    | none => none
  else none

/-- The values of a form's sources in a lane. -/
def valuesAt (s : State) (is : Iss) (xs : List Src) (l : Nat) : List Nat := xs.map (fun x => rdSrc s is x l)

/-- The effect of a form with one result per lane, or one for the gang where its destination is scalar (R152, R153). `s'` is the
state with the popped entries gone. -/
def laneEffect (s s' : State) (is : Iss) (g : Guard) (d : Opd) (ty : Ety) (xs : List Src) (f : Nat → List Nat → Nat) : State :=
  if d.isScalarDst then
    modGang s' is.ref (fun y => (wrScalar y is.q d (scalarResult ty (f 0 (valuesAt s is xs 0)))).1)
  else landed s' is (selOf is g) d ty.is64 (fun l => f l (valuesAt s is xs l))

/-- A write of exm overflows no nesting counter, and other writes cannot (R32). -/
def noOverflow (is : Iss) (d : Opd) (x : Nat) : Bool := (wrScalar is.gang is.q d x).2.isEmpty

/-- An instruction answers the next state that holds a result per lane, from the values of its sources. -/
def LaneAnswers (i : Instr) (s : State) (is : Iss) (g : Guard) (d : Opd) (ty : Ety) (srcs : List (Opd × Ety))
    (f : Nat → List Nat → Nat) : Prop :=
  ∀ s' xs, mayRun s is i = true → feeds s is srcs d = some (s', xs) →
    (d.isScalarDst = true → noOverflow is d (scalarResult ty (f 0 (valuesAt s is xs 0))) = true) →
    exec i s = .next (past (laneEffect s s' is g d ty xs f) is i)

/-- An instruction answers the next state that holds a predicate per selected lane. -/
def PredAnswers (i : Instr) (s : State) (is : Iss) (g : Guard) (p : Nat) (srcs : List (Opd × Ety))
    (f : Nat → List Nat → Bool) : Prop :=
  ∀ s' xs, mayRun s is i = true → feeds s is srcs .exm = some (s', xs) →
    exec i s = .next (past (modGang s' is.ref (fun y => (selOf is g).foldl (fun y l => wrP y p l (f l (valuesAt s is xs l))) y)) is i)

/-- An instruction that may run answers a next state: past itself with its effect. -/
def Answers (i : Instr) (s : State) (is : Iss) (eff : State) : Prop := mayRun s is i = true → exec i s = .next (past eff is i)

/-- An instruction that may run goes on at an address. -/
def Jumps (i : Instr) (s : State) (is : Iss) (eff : State) (pc : Nat) : Prop :=
  mayRun s is i = true → exec i s = .next (movedTo eff is i pc)

/-- An instruction that may run has its whole effect, program counters included, in a state. -/
def Settles (i : Instr) (s : State) (is : Iss) (eff : State) : Prop := mayRun s is i = true → exec i s = .next (issued eff is i)

/-- An instruction that may run throws codes by lane at its own address, after an effect. -/
def Throws (i : Instr) (s : State) (is : Iss) (eff : State) (ts : List (Nat × Nat)) : Prop :=
  mayRun s is i = true → exec i s = .next (issued (throwLanes eff is.ref is.q.pc ts false none) is i)

/-- The same code in every active lane. -/
def everyActive (is : Iss) (code : Nat) : List (Nat × Nat) := (activeLanes is.gang is.q).map (fun l => (l, code))

/-- An instruction that may run takes the illegal-instruction trap, in the state its target check left. -/
def Traps (i : Instr) (s : State) (is : Iss) (eff : State) (c : Cause) : Prop :=
  mayRun s is i = true → exec i s = .next (issued (takeTrap eff is 2 c.code 0 (trapBytes c i) (activeLanes is.gang is.q)) is i)

/-- The group is not ready, and the note says what holds it back. -/
def Waits (i : Instr) (s : State) (is : Iss) (eff : State) (why : Stall) : Prop :=
  mayRun s is i = true → exec i s = .next { eff with blocked := some why }

/-- An instruction of a target: with a clause header at it, the effect given; otherwise the trap of R130 at the instruction, or the
wait for a page of R368. -/
def GoesTo (i : Instr) (s : State) (is : Iss) (t : Nat) (goes : State → Prop) : Prop :=
  (∀ s', headerAt s is t = .ok s' → goes s') ∧ (∀ s' c, headerAt s is t = .trap s' c → Traps i s is s' c)
  ∧ ∀ s', headerAt s is t = .wait s' → Waits i s is s' .sync

/-- Counters put back, or, where some passed 255, the throws of R32 as well. -/
def CountersOr (i : Instr) (s : State) (is : Iss) (r : Gang × List Nat) (eff : State) (goes : Prop) : Prop :=
  (r.2 = [] → goes) ∧ (r.2 ≠ [] → Throws i s is eff (r.2.map (fun l => (l, 0x8004))))

/-! ### What is left alone -/

/-- The machine but for crews, cores and the note of what held an issue back. -/
def State.bare (s : State) : State := { s with crews := [], cores := [], blocked := none }

/-- A crew but for its gangs. -/
def Crew.bare (c : Crew) : Crew := { c with gangs := [] }

/-- A core but for its supervisor gang and the issue bookkeeping of its pipes. -/
def Core.bare (x : Core) : Core := { x with sup := none, issued := 0, hold := [], last := [] }

/-- Nothing changes outside one gang but the bookkeeping of the issue: memory, scratchpads, caches, queues, tiles, barriers,
launches, special registers and every other gang are as they were. -/
structure OnlyGang (s t : State) (g : GRef) : Prop where
  rest : t.bare = s.bare
  crews : ∀ c, (crew? t c).map Crew.bare = (crew? s c).map Crew.bare
  cores : ∀ c, (core? t c).map Core.bare = (core? s c).map Core.bare
  gangs : ∀ h, h ≠ g → gang? t h = gang? s h

/-- A gang but for the state of its groups and operands fetched ahead: its registers, flags, counters and buffers. -/
def Gang.regs (x : Gang) : Gang := { x with groups := [], spilled := [] }

/-! ### The computing forms: majors 0x20 to 0x6F but APPEND -/

/-- Instructions whose whole effect is a result in registers, predicates, condition bits or queues. -/
def computes : Instr → Bool
  | .iadd _ | .isub _ | .imul _ | .imulh _ | .imad _ | .iabs _ | .ineg _ | .imin _ | .imax _ | .and _ | .or _ | .xor _ | .not _
  | .shl _ | .shr _ | .sar _ | .rot _ | .bfx _ _ | .bfi _ _ | .popc _ | .clz _ | .ctz _ | .brev _ | .icmp .. | .icmpc ..
  | .sel .. | .mov _ | .movi .. | .lea .. | .plop .. | .clop .. | .pmov .. | .shfl .. | .bcast .. | .ballot .. | .pscan ..
  | .red .. | .fadd _ | .fsub _ | .fmul _ | .fma _ | .fmin .. | .fmax .. | .fabs _ | .fneg _ | .fscale _ | .fcmp .. | .fcmpc ..
  | .fclass .. | .frcp _ | .frsq _ | .fsqrt _ | .fexp2 _ | .flog2 _ | .fsin _ | .fcos _ | .ftanh _ | .cvt .. | .cvtmx ..
  | .cvtmxScale .. => true
  | _ => false

/-- The predicate a computing form writes. -/
def predWritten : Instr → Option Nat
  | .icmp _ _ _ p _ _ | .fcmp _ _ p _ _ | .fclass _ p _ _ | .plop _ p _ _ _ | .pmov _ (.toPred p _) | .pmov _ (.bit p _) => some p
  | _ => none

/-- The condition bit a computing form writes. -/
def condWritten : Instr → Option Nat
  | .icmpc _ _ c _ _ | .fcmpc _ c _ _ | .clop c _ _ _ => some c
  | _ => none

/-- Is a word of a vector register among those a computing form writes: of its destination, in a selected lane? -/
def wordWritten (is : Iss) (i : Instr) (n l : Nat) : Bool :=
  (match i.dst with | some d => (d.1.vregs d.2).contains n | none => false) && (selOf is (guardOf i)).contains l

/-- The source operands of a computing form, in the order in which they are popped. -/
def operandsRead : Instr → List Opd
  | .cvt _ _ _ _ _ a _ _ => [a]
  | .cvtmx _ _ _ a b _ => [a, b]
  | i => i.srcs.map (fun p => p.1)

/-- The queue registers a form names. -/
def queuesOf (i : Instr) : List Nat :=
  i.srcs.flatMap (fun p => p.1.qreg) ++ (match i.dst with | some d => d.1.qreg | none => [])

/-- Nothing changes outside one gang and the FIFOs of its crew that an instruction names. -/
structure OnlyGangAndQueues (s t : State) (g : GRef) (qs : List Nat) : Prop where
  rest : t.bare = s.bare
  crews : ∀ c, (crew? t c).map (fun cr => { cr.bare with fifos := [] }) = (crew? s c).map (fun cr => { cr.bare with fifos := [] })
  cores : ∀ c, (core? t c).map Core.bare = (core? s c).map Core.bare
  gangs : ∀ h, h ≠ g → gang? t h = gang? s h
  fifos : ∀ c k, (crewIdOf g = some c → ∀ n ∈ qs, k ≠ qKey s g n) →
    (crew? t c).map (fun cr => Tab.find? cr.fifos k) = (crew? s c).map (fun cr => Tab.find? cr.fifos k)

/-! ### The record of an unwind (R60 to R62, R65, R340 to R342) -/

/-- The throws of an unwind that begins no rethrow, in R60's order. -/
def throwsFresh (s : State) (u : Unwind) (ts : List Thrown) : Prop := u.kept = none ∧ throwsOf s u = ts

/-- The words of the record `r` that an unwind writes into the area of crew `c`: the primary exception, the caught region and the counts of
the header; the lane masks and stop entries of the crew's own gangs; and the code list. After a RETHROW the primary exception of the earlier
record stands (R65). -/
structure RecordSays (s : State) (u : Unwind) (c : Nat) (cr : Crew) (l : Launch) (r : Tab W64) : Prop where
  primary : ∀ t ts, throwsFresh s u (t :: ts) → (∀ o ∈ ts, t.rank ≤ o.rank) ∧ bits (wordAt r 0) 15 0 = t.code ∧ bits (wordAt r 0) 63 32 = t.lin
    ∧ bits (wordAt r 1) 7 0 = t.gang ∧ bits (wordAt r 1) 15 8 = t.lane
  supervisor : ∀ t ts, throwsFresh s u (t :: ts) → (t.code ≠ 0x800D → bits (wordAt r 3) 47 32 = 0)
    ∧ ∀ e, t.code = 0x800D → t.crew < remoteCrew 0 → u.svcodes.find? (fun e => e.1 == t.crew && e.2.1 == t.gang) = some e →
      bits (wordAt r 3) 47 32 = 2 ^ 15 + e.2.2 % 2 ^ 15
  rethrown : ∀ k, u.kept = some k → wordAt r 0 = wordAt k.rcd 0 ∧ bits (wordAt r 1) 15 0 = bits (wordAt k.rcd 1) 15 0
    ∧ bits (wordAt r 3) 47 32 = bits (wordAt k.rcd 3) 47 32
  region : bits (wordAt r 1) 17 16 = u.level ∧ bits (wordAt r 1) 23 20 = u.depth
  counts : ∀ ts, throwsFresh s u ts → bits (wordAt r 2) 31 0 = min (laneCount ts) (2 ^ 32 - 1)
    ∧ bits (wordAt r 1) 63 32 = (ts.map Thrown.name).eraseDups.length % 2 ^ 32
  stamps : bits (wordAt r 3) 31 0 = gangMask s u ∧ wordAt r 4 = u.launch % 2 ^ 64 ∧ wordAt r 5 = u.cycle % 2 ^ 64 ∧ wordAt r 6 = 0
    ∧ wordAt r 7 = (cr.recSeq + 1) % 2 ^ 64
  lanes : ∀ g n, g < 32 → n < 64 → ((wordAt r (8 + g)).testBit n = true ↔
    (∃ t ∈ throwsOf s u, t.crew = c ∧ t.gang = g ∧ t.lane = n)
      ∨ (wordAt ((u.kept.bind (fun k => Tab.find? k.areas c)).getD []) (8 + g)).testBit n = true)
  stops : ∀ g x, g < 32 → Tab.find? cr.gangs g = some x → bits (wordAt r (40 + g)) 31 0 = stopOffset l.code (stopAddress u c x)
    ∧ bit (wordAt r (40 + g)) 48 = u.throws.any (fun t => t.1 == c && t.2.1 == x.num) ∧ bit (wordAt r (40 + g)) 49 = separated x
    ∧ bit (wordAt r (40 + g)) 50 = x.abandoned ∧ bit (wordAt r (40 + g)) 51 = x.ended.isSome
  absent : ∀ g, g < 32 → Tab.find? cr.gangs g = none → wordAt r (40 + g) = 0
  codes : ∀ ts, throwsFresh s u ts → ∃ cs : List Thrown, cs.Sublist ts ∧ cs.length ≤ 24 ∧ (cs.map (fun t => t.code)).Nodup
    ∧ (∀ t ∈ cs, ts.find? (fun o => o.code == t.code) = some t) ∧ bits (wordAt r 2) 39 32 = cs.length
    ∧ (∀ j, j < 24 → wordAt r (72 + j) = ((cs[j]?).map codeEntry).getD 0)
    ∧ ∀ t ∈ ts, t.code ∈ cs.map (fun t => t.code) ∨ bit (wordAt r 1) 24 = true

end Sys2Proof.Machine
end

