-- ==== Sys2Proof/Certificates/Slice0/Obligations.lean ====
section
/-!
DEFINITION. The statements of this slice for the provers.
-/

open Sys2Proof Sys2Proof.Machine

/-! ### The code, the step and reset -/

/-- Words that the manual writes out (R92 to R104 and the worked examples of 05_encoding, 07_control, 08_integer, 09_float,
12_memory_ops, 14_engines, 15_ordered_system and 17_counters) decode to the instructions it gives them. -/
def Obligations.WrittenWords : Prop :=
  decodeTableWord 64 0x3FC000 = some (.clauseHeader false 15 15 0#12)
  ∧ decodeTableWord 64 0x0000190808020081 = some (.iadd ⟨Guard.all, .s32, false, .v 4, .v 4, .k 1⟩)
  ∧ decodeTableWord 64 0x0000005814060791 = some (.idivS32 ⟨⟨1, false⟩, .v 12, .v 10, .v 11⟩)
  ∧ decodeTableWord 128 (0x01800000014280EF + 0x100000000 * 2 ^ 64) = some (.movi Guard.all .u64 (.s 5) (.ext 0x100000000#64))
  ∧ decodeTableWord 96 (0x81A + 0x00050000 * 2 ^ 64) = some (.ifI ⟨2, false⟩ 0 5)
  ∧ decodeTableWord 64 0x0000141028000011 = some (.callv Guard.all 20 2)
  ∧ decodeTableWord 64 0x0080142D08040911 = some (.append ⟨2, false⟩ (.v 8) (.s 4) (.s 5))
  ∧ decodeTableWord 64 0x050080180400814D = some (.fma ⟨Guard.all, .bf16x2, false, .v 1, .v 2, .v 3, .v 4⟩)
  ∧ decodeTableWord 64 0xBC0200000606018D = some (.cvt Guard.all .e4m3 .f32 true (.v 12) (.v 3) 0 2)
  ∧ decodeTableWord 96 (0x151860000E0201C2 + 2 * 2 ^ 64)
      = some (.ldRp ⟨Guard.all, .b32, .dev, .v 7, 3, some 2#32⟩ false (.v 4) 6)
  ∧ decodeTableWord 128 (0x0002943D0C01024F + 0x0000000420004000 * 2 ^ 64)
      = some (.mma ⟨Guard.all, 2, .s 6, .s 7, 20, 0, 0x4000, 0x4200⟩)
  ∧ decodeTableWord 128 (0x616C142D08008243 + 3 * 2 ^ 64) = some (.cpy ⟨Guard.all, 1, .s 4, .s 5, .k 64, 3, some 2⟩ true false)
  ∧ decodeTableWord 64 0x0000400528000305 = some (.svret (.s 20) 2)
  ∧ decodeTableWord 64 0x018020000000003D = some (.waitp 3 1)
  ∧ decodeTableWord 64 0x61 = none

/-- Decode and encode agree: every well-formed instruction that has words encodes, in as many bytes as `Instr.bytes` says, and
whatever follows those bytes, they decode to it. -/
def Obligations.DecodeAfterEncode : Prop :=
  ∀ (i : Instr) (rest : List Byte), i.wf = true → i.hasWords = true →
    ∃ bs, encodeBytes i = some bs ∧ bs.length = i.bytes ∧ decode (bs ++ rest) = .ok (i, i.bytes)

/-- The other way: bytes that decode are the encoding of the well-formed instruction they decode to, so that no instruction has a
second spelling and no bit of a word goes unread. -/
def Obligations.EncodeAfterDecode : Prop :=
  ∀ (i : Instr) (bs : List Byte) (n : Nat), decode bs = .ok (i, n) → i.wf = true ∧ i.bytes = n ∧ encodeBytes i = some (bs.take n)

/-- What a step does (R40, R97, R105, R108, R132, R349, R385, R396; notes/assumptions/1, 23, 39 and 54). The next turn of the
agenda: an event has its effect, but in a device that waits for a start or whose clocks stand still (entries 54 and 39); a group whose pipe is free fetches at its program counter, and
what it fetches runs if it decodes and traps if not, for the earlier of the causes that the words and the target they name show, and
where a launch enters its code only a header runs (entry 23); a group that does not issue leaves a note; a header goes on at once, with YLD in the place the issue rule gives it; an idle group that passes an
instruction may pass the next. With no turn left, a start that is requested is performed, or the turns of the next cycle are laid
out. -/
def Obligations.StepRunsTheAgenda : Prop :=
  ∀ (s s' t : State) (ts : List Turn) (e : Instr) (g : GRef) (k n : Nat) (is : Iss) (i : Instr) (bs : List Byte) (warm : Bool)
    (why : Stall) (c : Cause),
    let u := releaseYield { s with agenda := ts, cur := some (g, k), blocked := none } g
    let fetched := fetchInsn u g (lowQuad is.q) is.q.pageFail is.q.pc
    let turn := s.agenda = .issue g k :: ts ∧ s.stoppedClock = false
      ∧ (∃ was, issuerOf? s g k = some was ∧ was.q.ended = false ∧ pipeTaken s g was.gang = false) ∧ issuerOf? u g k = some is
    let may := turn ∧ suspended u g is.gang = false ∧ groupHeld u is = false ∧ (∀ c, g = .sup c → yielding u c is.q = false)
    let stays := fun (t : State) (why : Stall) =>
      step s = .next (modGroup (noteStall t g k why) g k (fun q => { q with passed := 0 }))
    let word := may ∧ fetched = .ok s' bs ∧ (entryNeedsHeader s' is = false ∨ leNat (bs.take 8) % 4 = 0)
    let runs := word ∧ decode bs = .ok (i, n)
    let header := ∃ y a b w, i = .clauseHeader y a b w
    let cause := badWordCause s' is bs c
    let named := (Raw.ofWord (leNat (bs.take 8)) (leNat (bs.drop 8))).parse
    (runs → exec i s' = .next t → t.blocked = none → ¬header → passedOver is i = false → step s = .next t)
    ∧ (runs → exec i s' = .next t → t.blocked = some why → stays t why)
    ∧ (∀ y a b w is' d, i = .clauseHeader y a b w → runs → exec i s' = .next t → t.blocked = none → issuerOf? t g k = some is' →
        candOf t (.issue g k) = some d → step s = .next (if is'.q.hdr = true ∧ is'.gang.trapped = none
          then { t with agenda := if y then rejoin t d t.agenda else .issue g k :: t.agenda } else t))
    ∧ (∀ is', runs → exec i s' = .next t → t.blocked = none → passedOver is i = true → issuerOf? t is.ref is.grp = some is' →
        step s = .next (if is'.q.idle = true ∧ is'.q.pc / 32 = is.q.pc / 32 ∧ is'.q.pc ≠ is.q.pc
          then { t with agenda := .pass is.ref is.grp :: t.agenda } else t))
    ∧ (word → decode bs = .error c → named = none → step s = .next (wordTrap s' is cause bs))
    ∧ (∀ p, word → decode bs = .error c → named = some p → namesTarget (leNat (bs.take 8)) p = false →
        step s = .next (wordTrap s' is cause bs))
    ∧ (∀ p v, word → decode bs = .error c → named = some p → namesTarget (leNat (bs.take 8)) p = true → targetCheck s' is p.ins = .ok v →
        step s = .next (wordTrap v is cause bs))
    ∧ (∀ p v d, word → decode bs = .error c → named = some p → namesTarget (leNat (bs.take 8)) p = true → targetCheck s' is p.ins = .trap v d →
        step s = .next (wordTrap v is (firstCause d cause) bs))
    ∧ (may → fetched = .ok s' bs → entryNeedsHeader s' is = true → leNat (bs.take 8) % 4 ≠ 0 →
        step s = .next (wordTrap s' is .targetNotHeader bs))
    ∧ (may → fetched = .trap s' c bs → step s = .next (wordTrap s' is c bs))
    ∧ (may → fetched = .wait s' → stays { s' with blocked := some .sync } .sync)
    ∧ (turn → ((suspended u g is.gang || groupHeld u is) = true ∨ ∃ c, g = .sup c ∧ yielding u c is.q = true) → stays { u with blocked := some .sync } .sync)
    ∧ (s.agenda = .issue g k :: ts → s.stoppedClock = true → step s = .next { s with agenda := ts })
    ∧ (s.agenda = .issue g k :: ts → s.stoppedClock = false → issuerOf? s g k = some is → is.q.ended = false →
        pipeTaken s g is.gang = true → step s = .next (passOver exec g k is { s with agenda := ts }))
    ∧ (s.agenda = .event e :: ts → (deviceIdle s && !reachesStoppedDevice e) = false → step s = exec e { s with agenda := ts })
    ∧ (s.agenda = .event e :: ts → (deviceIdle s && !reachesStoppedDevice e) = true → step s = .next { s with agenda := ts })
    ∧ (s.agenda = [] → s.start.pending = some warm → step s = exec (startEvent s warm) (freshen s))
    ∧ (s.agenda = [] → s.start.pending = none → step s = .next { s with agenda := nextCycle s, fresh := s.fresh + 32 })

/-- Nothing stops the machine: every event answers a next state, and every instruction that a live group issues; no instruction is
refused; and every step of a state whose agenda holds no instruction as an event answers a next state. -/
def Obligations.EveryStepAnswers : Prop :=
  (∀ s : State, s.AgendaOk → s.Goes)
  ∧ ∀ (i : Instr) (s : State), (∀ r, exec i s ≠ .refused r) ∧ (i.hasWords = false → ∃ t, exec i s = .next t)
    ∧ (∀ is, i.hasWords = true → issuer? s = some is → is.q.ended = false → ∃ t, exec i s = .next t)

/-- What reset leaves where the manual gives a value (R127, R191, R195, R334, R336, R349, R384, R396 and the tables of registers), and what a
gang's registers hold at its start (R113, R117, R119). Every register whose reset value the manual does not give is left out. -/
def Obligations.ResetValues : Prop :=
  let s := State.reset
  (s.cycle = 0 ∧ s.start.state = 1 ∧ s.start.pending = some false ∧ s.start.kind = 0 ∧ s.start.wfail = 0 ∧ s.beat = 10 ∧ s.claimto = 50
    ∧ s.tick = ⟨0, false, 16, none, false⟩ ∧ s.powlim = 2000 ∧ s.stoppedClock = false ∧ s.crews = [] ∧ s.launches = []
    ∧ (∀ target ctx, accessEntry s target ctx = 0xC0) ∧ (∀ q, queueOf s q = LQueue.reset) ∧ (∀ e, claim s e = Claim.reset) ∧ s.ring.log2 = 4
    ∧ (∀ a, regionOf a = .gddr → s.mem.read a = 0#8))
  ∧ s.Inv
  ∧ ∀ (l : Launch) (num base count spill slot pipe n lane : Nat), let x := gangStart l num base count spill slot pipe
    rdV x n lane = 0 ∧ rdP x n lane = (n == 0) ∧ counterOf x lane = 0 ∧ rdS x n = 0 ∧ rdC x n = false ∧ rdF x n = 0 ∧ x.lr = 0
    ∧ rdK x n = 0 ∧ pathCount x n = 0 ∧ rdB x n = (if n = 0 then record0 l else if n = 1 then record1 l else 0#128)
    ∧ x.groups = [QGroup.start (BitVec.ofNat 16 (2 ^ (l.width / 4) - 1)) l.code] ∧ x.stack = [] ∧ x.body = none

/-- An invariant that every step keeps, from every state that has it: memory is in its canonical form (addresses strictly rising, no
byte listed that equals what an unlisted address reads as), and no instruction stands in the agenda as an event. -/
def Obligations.StepKeepsTheInvariant : Prop := ∀ (s t : State), s.Inv → step s = .next t → t.Inv

/-! ### Lane-wise and scalar forms -/

/-- The integer forms with one result per lane (R152 to R164): each that may run and whose operands are at hand answers the state
with its result in the selected lanes of its destination, pushed to its queue, or once in its scalar destination. The log says what the
manual leaves open of packed constants in scalar forms (notes/assumptions/18), of 64-bit types with a queue operand (19), of a queue that is
read and written by one instruction (57), and of MOV.U32 of a negative constant into a scalar register, where R153 and R162 differ (59). -/
def Obligations.IntegerFormsAnswer : Prop :=
  ∀ (s : State) (is : Iss) (x : Bin) (u : Un) (y : Ter) (ctl : Opd) (sh pi : Nat) (neg : Bool) (g : Guard) (ty : Ety) (d : Opd)
    (imm : MoviImm),
    let two := fun (f : Nat → Nat → Nat) (_ : Nat) (vs : List Nat) => match vs with | [a, b] => f a b | _ => 0
    let one := fun (f : Nat → Nat) (_ : Nat) (vs : List Nat) => match vs with | [a] => f a | _ => 0
    let bin := fun (i : Instr) (f : Nat → Nat → Nat) => LaneAnswers i s is x.g x.d x.ty [(x.a, x.ty), (x.b, x.ty)] (two f)
    let un := fun (i : Instr) (f : Nat → Nat) => LaneAnswers i s is u.g u.d u.ty [(u.a, u.ty)] (one f)
    bin (.iadd x) (exact2 x.ty x.sat (fun a b => a + b)) ∧ bin (.isub x) (exact2 x.ty x.sat (fun a b => a - b))
    ∧ bin (.imul x) (exact2 x.ty x.sat (fun a b => a * b)) ∧ bin (.imulh x) (exact2 x.ty false (mulHigh x.ty))
    ∧ LaneAnswers (.imad y) s is y.g y.d y.ty [(y.a, y.ty), (y.b, y.ty), (y.c, y.ty)]
        (fun _ vs => match vs with | [a, b, c] => exact3 y.ty y.sat (fun a b c => a * b + c) a b c | _ => 0)
    ∧ un (.iabs u) (exact1 u.ty u.sat absInt) ∧ un (.ineg u) (exact1 u.ty u.sat (fun a => -a))
    ∧ bin (.imin x) (exact2 x.ty false min) ∧ bin (.imax x) (exact2 x.ty false max)
    ∧ bin (.and x) Nat.land ∧ bin (.or x) Nat.lor ∧ bin (.xor x) Nat.xor ∧ un (.not u) (notWord u.ty)
    ∧ bin (.shl x) (lane2 x.ty (shlElem x.ty x.sat)) ∧ bin (.shr x) (lane2 x.ty (shrElem x.ty))
    ∧ bin (.sar x) (lane2 x.ty (sarElem x.ty)) ∧ bin (.rot x) (lane2 x.ty (rotElem x.ty))
    ∧ LaneAnswers (.bfx u ctl) s is u.g u.d u.ty [(u.a, u.ty), (ctl, .u32)] (two (bfxWord u.ty))
    ∧ LaneAnswers (.bfi x ctl) s is x.g x.d x.ty [(x.a, x.ty), (x.b, x.ty), (ctl, .u32)]
        (fun _ vs => match vs with | [a, b, k] => bfiWord x.ty a b k | _ => 0)
    ∧ un (.popc u) (lane1 u.ty (popcount (etyBits u.ty))) ∧ un (.clz u) (lane1 u.ty (clzElem (etyBits u.ty)))
    ∧ un (.ctz u) (lane1 u.ty (ctzElem (etyBits u.ty))) ∧ un (.brev u) (lane1 u.ty (brevElem (etyBits u.ty)))
    ∧ un (.mov u) (fun a => a)
    ∧ LaneAnswers (.movi g ty d imm) s is g d ty [] (fun _ _ => moviValue ty imm)
    ∧ LaneAnswers (.sel x pi neg) s is x.g x.d x.ty [(x.a, x.ty), (x.b, x.ty)]
        (fun l vs => match vs with
          | [a, b] => if (if x.d.isScalarDst then rdC is.gang pi else rdP is.gang pi l) != neg then a else b
          | _ => 0)
    ∧ LaneAnswers (.lea x sh) s is x.g x.d x.ty [(x.a, x.ty), (x.b, .u32)] (two (leaWord x.ty sh))

/-- The floating-point and conversion forms with one result per lane (R175 to R190). These are the model's choices: an approximated
function gives the free value of `Config.approx` wherever it lies within the bound of R184, and otherwise the rounded reference
(notes/assumptions/4); E2M1 has a code for 4.0, where R189 and R70 differ (33); packed constants in scalar forms (18); a queue that is read
and written by one instruction (57); and what a narrow CVT pushes besides its element, `Config.pushRest` (77). -/
def Obligations.FloatFormsAnswer : Prop :=
  ∀ (s : State) (is : Iss) (x : Bin) (u : Un) (y : Ter) (nan sat : Bool) (g : Guard) (tgt src : Fmt) (d a b : Opd) (si di : Nat),
    let two := fun (f : Nat → Nat → Nat) (_ : Nat) (vs : List Nat) => match vs with | [a, b] => f a b | _ => 0
    let one := fun (f : Nat → Nat) (_ : Nat) (vs : List Nat) => match vs with | [a] => f a | _ => 0
    let bin := fun (i : Instr) (f : Nat → Nat → Nat) => LaneAnswers i s is x.g x.d x.ty [(x.a, x.ty), (x.b, x.ty)] (two f)
    let un := fun (i : Instr) (f : Nat → Nat) => LaneAnswers i s is u.g u.d u.ty [(u.a, u.ty)] (one f)
    bin (.fadd x) (faddWord x.ty x.sat) ∧ bin (.fsub x) (fsubWord x.ty x.sat) ∧ bin (.fmul x) (fmulWord x.ty x.sat)
    ∧ LaneAnswers (.fma y) s is y.g y.d y.ty [(y.a, y.ty), (y.b, y.ty), (y.c, y.ty)]
        (fun _ vs => match vs with | [a, b, c] => fmaWord y.ty y.sat a b c | _ => 0)
    ∧ bin (.fmin nan x) (fminWord x.ty false nan) ∧ bin (.fmax nan x) (fminWord x.ty true nan)
    ∧ un (.fabs u) (fabsWord u.ty) ∧ un (.fneg u) (fnegWord u.ty)
    ∧ LaneAnswers (.fscale x) s is x.g x.d x.ty [(x.a, x.ty), (x.b, scaleType x.ty)] (two (fscaleWord x.ty x.sat))
    ∧ un (.frcp u) (approxWord .rcp 0x5A u.ty) ∧ un (.frsq u) (approxWord .rsq 0x5B u.ty)
    ∧ un (.fsqrt u) (approxWord .sqrt 0x5C u.ty) ∧ un (.fexp2 u) (approxWord .exp2 0x5D u.ty)
    ∧ un (.flog2 u) (approxWord .log2 0x5E u.ty) ∧ un (.fsin u) (approxWord .sin 0x5F u.ty)
    ∧ un (.fcos u) (approxWord .cos 0x60 u.ty) ∧ un (.ftanh u) (approxWord .tanh 0x61 u.ty)
    ∧ LaneAnswers (.cvt g tgt src sat d a si di) s is g d .u32 [(a, cvtRead src)]
        (fun l vs => match vs with
          | [v] => putElem tgt.width (dstWord s is d l) di (cvtElem tgt src sat (elem src.width v si))
          | _ => 0)
    ∧ LaneAnswers (.cvtmx g tgt d a b di) s is g d .u32 [(a, .f32), (b, .u32)]
        (fun l vs => match vs with
          | [v, sc] => putElem tgt.width (dstWord s is d l) di (cvtmxElem (mxElemSpec tgt) v (sc % 256))
          | _ => 0)
    ∧ LaneAnswers (.cvtmxScale g tgt d a) s is g d .u32 [(a, .f32)] (one (cvtmxScaleOf (if tgt = .e4m3 then 8 else 2)))

/-- The forms with a predicate per selected lane (R165, R166, R167, R182, R183). PMOV.BIT reads a negative constant as the 64 bits that
its sign extends to, where R101 and R167 differ: the model's choice, notes/assumptions/78. -/
def Obligations.PredicateFormsAnswer : Prop :=
  ∀ (s : State) (is : Iss) (g : Guard) (c : Cond) (fc : FCond) (ty : Ety) (p pa pb : Nat) (a b d : Opd) (tt : BitVec 4)
    (mask : BitVec 10),
    let two := fun (f : Nat → Nat → Bool) (_ : Nat) (vs : List Nat) => match vs with | [v, w] => f v w | _ => false
    PredAnswers (.icmp g c ty p a b) s is g p [(a, ty), (b, ty)] (two (icmpHolds c ty))
    ∧ PredAnswers (.fcmp g fc p a b) s is g p [(a, .f32), (b, .f32)] (two (fcmpHolds fc))
    ∧ PredAnswers (.fclass g p a mask) s is g p [(a, .f32)]
        (fun _ vs => match vs with | [v] => mask.getLsbD (fclassBit v) | _ => false)
    ∧ PredAnswers (.plop g p pa pb tt) s is g p [] (fun l _ => tableBit tt (rdP is.gang pa l) (rdP is.gang pb l))
    ∧ PredAnswers (.pmov g (.toPred p a)) s is g p [(a, .u32)] (fun _ vs => match vs with | [v] => v != 0 | _ => false)
    ∧ PredAnswers (.pmov g (.bit p a)) s is g p [(a, .u64)] (fun l vs => match vs with | [v] => v.testBit l | _ => false)
    ∧ LaneAnswers (.pmov g (.fromPred d p)) s is g d .u32 [] (fun l _ => b2n (rdP is.gang p l))

/-- The forms that write a condition bit once for the gang (R165, R166, R182). -/
def Obligations.ConditionFormsAnswer : Prop :=
  ∀ (s : State) (is : Iss) (c : Cond) (fc : FCond) (ty : Ety) (cd ca cb : Nat) (a b : Opd) (tt : BitVec 4),
    let val := fun (o : Opd) (ty : Ety) => rdSrc s is ⟨o, ty, []⟩ 0
    let put := fun (x : Bool) => modGang s is.ref (fun y => wrC y cd x)
    Answers (.icmpc c ty cd a b) s is (put (icmpHolds c ty (val a ty) (val b ty)))
    ∧ Answers (.fcmpc fc cd a b) s is (put (fcmpHolds fc (val a .f32) (val b .f32)))
    ∧ Answers (.clop cd ca cb tt) s is (put (tableBit tt (rdC is.gang ca) (rdC is.gang cb)))

/-- The forms that work between lanes (R168 to R172): the source lane of a shuffle, a mask of lanes, a fold over lanes. -/
def Obligations.CrossLaneFormsAnswer : Prop :=
  ∀ (s : State) (is : Iss) (g : Guard) (m : ShflMode) (ty : Ety) (a b : Opd) (n va p : Nat) (rop : RedOp) (sop : ScanOp)
    (incl sat : Bool),
    let own := fun (l : Nat) => rdSrc s is ⟨b, .u32, []⟩ l
    let moved := fun (m : ShflMode) => landed s is (selOf is g) (.v n) ty.is64
      (fun l => rdVw is.gang va (shflSource m is.gang.width l (own l)) ty.is64)
    let scalar := fun (x : Nat) => modGang s is.ref (fun y => wrS y n x)
    Answers (.shfl g m ty (.v n) (.v va) b) s is (moved m)
    ∧ Answers (.bcast g ty (.v n) (.v va) b) s is (moved .idx)
    ∧ Answers (.ballot g (.s n) p) s is (scalar (maskOf ((selOf is g).filter (rdP is.gang p))))
    ∧ Answers (.red g rop ty sat (.s n) va) s is (scalar (scalarResult ty
        (finish ty sat (redFold rop ty ((selOf is g).map (fun l => rdVw is.gang va l ty.is64))))))
    ∧ ∀ s' src, mayRun s is (.pscan g sop incl ty sat (.v n) a) = true → feeds s is [(a, ty)] (.v n) = some (s', [src]) →
        exec (.pscan g sop incl ty sat (.v n) a) s = .next (past (landed s' is (selOf is g) (.v n) false (fun l =>
          finish ty sat (scanFold sop ty (((selOf is g).filter (fun k => decide (k < l) || (incl && k == l))).map (rdSrc s is src)))))
          is (.pscan g sop incl ty sat (.v n) a))


/-- What the computing forms leave alone: with operands at hand and no counter about to overflow, nothing outside the issuing gang
but the queues the form names; within the gang, every word outside the selected lanes of the destination registers, every scalar but
the destination, every predicate and condition bit but the one written, the counters unless exm is written, lr unless it is the
destination, the spilled words on their way to the backing store but those written, and every other register and buffer. Memory reads as
before. -/
def Obligations.ComputingFormsFrame : Prop :=
  ∀ (s t s' : State) (is : Iss) (i : Instr) (srcs : List (Opd × Ety)) (xs : List Src), i.wf = true → computes i = true →
    mayRun s is i = true → srcs.map (fun p => p.1) = operandsRead i →
    feeds s is srcs ((i.dst.map (fun d => d.1)).getD .exm) = some (s', xs) →
    (i.dst.map (fun d => d.1) = some .exm → ∀ l ∈ groupLanes is.gang is.q, counterOf is.gang l < 255) → exec i s = .next t →
    OnlyGangAndQueues s t is.ref (queuesOf i)
    ∧ ∃ y, gang? t is.ref = some y
      ∧ (∀ n l, l < 64 → wordWritten is i n l = false → rdV y n l = rdV is.gang n l)
      ∧ (∀ n, i.dst.map (fun d => d.1) ≠ some (.s n) → rdS y n = rdS is.gang n)
      ∧ (∀ p l, p < 16 → ¬(predWritten i = some p ∧ l ∈ selOf is (guardOf i)) → rdP y p l = rdP is.gang p l)
      ∧ (∀ c, c < 16 → condWritten i ≠ some c → rdC y c = rdC is.gang c)
      ∧ (i.dst.map (fun d => d.1) ≠ some .lr → y.lr = is.gang.lr)
      ∧ (i.dst.map (fun d => d.1) ≠ some .exm → y.cnt = is.gang.cnt)
      ∧ (∀ n l, l < 64 → wordWritten is i n l = false → (64 * n + l ∈ y.unhomed ↔ 64 * n + l ∈ is.gang.unhomed))
      ∧ { y.regs with v := [], s := [], pr := [], c := 0, lr := 0, cnt := [], unhomed := [] }
        = { is.gang.regs with v := [], s := [], pr := [], c := 0, lr := 0, cnt := [], unhomed := [] }
      ∧ ∀ a, t.mem.read a = s.mem.read a

/-- R30: exm as an operand. A move of exm into a scalar register completes, and bit L of what it writes is 1 exactly when lane L is
active and of the issuing group; bits of other groups and at or above W are 0. -/
def Obligations.ExmReads : Prop :=
  ∀ (s : State) (is : Iss) (n : Nat), let i := Instr.mov ⟨Guard.all, .u64, false, .s n, .exm⟩
    mayRun s is i = true → ∃ t y, exec i s = .next t ∧ gang? t is.ref = some y ∧ ∀ l, l < 64 →
      ((rdS y n).testBit l = true ↔ l < is.gang.width ∧ laneValid is.gang l = true ∧ inGroup is.q l = true ∧ counterOf is.gang l = 0)

/-- R31 and R32: a write of m to exm. With no counter of the group at 255 the move completes, each valid lane of the issuing group
whose bit of m is 0 is parked one deeper, whether it was active or parked, and every other counter is unchanged. -/
def Obligations.ExmWrites : Prop :=
  ∀ (s : State) (is : Iss) (n : Nat), let i := Instr.mov ⟨Guard.all, .u64, false, .exm, .s n⟩
    mayRun s is i = true → (∀ l ∈ groupLanes is.gang is.q, counterOf is.gang l < 255) → ∃ t y, exec i s = .next t ∧ gang? t is.ref = some y ∧ ∀ l,
      counterOf y l = if l < min is.gang.width 64 ∧ laneValid is.gang l = true ∧ inGroup is.q l = true ∧ (rdS is.gang n).testBit l = false
        then counterOf is.gang l + 1 else counterOf is.gang l

/-- R32: a write of exm that would take counters past 255 leaves them at 255 and the lanes concerned throw 0x8004 at the instruction; for
the other lanes it completes, so that each valid lane of the group whose bit is 0 and whose counter is lower is parked one deeper, and every
counter else is as it was. -/
def Obligations.ExmOverflowThrows : Prop :=
  ∀ (s : State) (is : Iss) (n : Nat), let i := Instr.mov ⟨Guard.all, .u64, false, .exm, .s n⟩
    let full := (groupLanes is.gang is.q).filter (fun l => !(rdS is.gang n).testBit l && counterOf is.gang l == 255)
    full ≠ [] → Throws i s is (modGang s is.ref (fun y => (wrScalar y is.q .exm (rdS is.gang n)).1)) (full.map (fun l => (l, 0x8004)))
      ∧ ∀ l, counterOf (wrScalar is.gang is.q .exm (rdS is.gang n)).1 l ≤ 255
        ∧ ((l ∈ full ∨ l ∉ groupLanes is.gang is.q ∨ (rdS is.gang n).testBit l = true) →
          counterOf (wrScalar is.gang is.q .exm (rdS is.gang n)).1 l = counterOf is.gang l)
        ∧ (l ∈ groupLanes is.gang is.q → (rdS is.gang n).testBit l = false → counterOf is.gang l < 255 →
          counterOf (wrScalar is.gang is.q .exm (rdS is.gang n)).1 l = counterOf is.gang l + 1)

/-- R170: BALLOT. It completes, and bit L of the destination is 1 exactly when lane L is selected and its predicate true; bits at or
above W are 0. -/
def Obligations.BallotMask : Prop :=
  ∀ (s : State) (is : Iss) (g : Guard) (n p : Nat), mayRun s is (.ballot g (.s n) p) = true →
    ∃ t y, exec (.ballot g (.s n) p) s = .next t ∧ gang? t is.ref = some y
      ∧ rdS y n < 2 ^ (min is.gang.width 64)
      ∧ ∀ l, l < 64 → ((rdS y n).testBit l = true ↔ l ∈ selOf is g ∧ rdP is.gang p l = true)

/-- R154: an exact integer result is clamped by SAT to the bounds of its type, and otherwise wraps: its low n bits are written. Sums,
differences and products follow it at the width of the element, and the elements of a packed word do not affect one another. -/
def Obligations.IntegerValues : Prop :=
  (∀ (ty : Ety) (t : Int), etyFloat ty = false → let n := etyBits ty
      finish ty false t = (t % 2 ^ n).toNat
      ∧ (etySigned ty = true → finish ty true t = (min (max t (-(2 ^ (n - 1)))) (2 ^ (n - 1) - 1) % 2 ^ n).toNat)
      ∧ (etySigned ty = false → finish ty true t = (min (max t 0) (2 ^ n - 1)).toNat))
  ∧ (∀ (a b : BitVec 32) (ty : Ety), ty = .s32 ∨ ty = .u32 →
      exact2 ty false (fun a b => a + b) a.toNat b.toNat = (a + b).toNat
      ∧ exact2 ty false (fun a b => a - b) a.toNat b.toNat = (a - b).toNat
      ∧ exact2 ty false (fun a b => a * b) a.toNat b.toNat = (a * b).toNat)
  ∧ (∀ (a b : BitVec 64) (ty : Ety), ty = .s64 ∨ ty = .u64 →
      exact2 ty false (fun a b => a + b) a.toNat b.toNat = (a + b).toNat
      ∧ exact2 ty false (fun a b => a - b) a.toNat b.toNat = (a - b).toNat
      ∧ exact2 ty false (fun a b => a * b) a.toNat b.toNat = (a * b).toNat)
  ∧ (∀ (a b : BitVec 32), exact2 .s32 true (fun a b => a + b) a.toNat b.toNat
      = (if a.toInt + b.toInt < -(2 ^ 31) then 2 ^ 31 else if 2 ^ 31 ≤ a.toInt + b.toInt then 2 ^ 31 - 1 else (a + b).toNat))
  ∧ (∀ (a b : BitVec 32), exact2 .u32 true (fun a b => a - b) a.toNat b.toNat = a.toNat - b.toNat)
  ∧ (∀ (a b e : Nat) (sat : Bool) (f : Int → Int → Int) (ty : Ety), e < etyCount ty →
      elem (etyBits ty) (exact2 ty sat f a b) e
        = finish ty sat (f (readElem ty (elem (etyBits ty) a e)) (readElem ty (elem (etyBits ty) b e))))

/-- R122: a queue register as a source takes the oldest entry of its FIFO, which leaves; as a destination it appends one entry with
the words of the selected lanes. A queue whose mapping is not usable throws in every active lane; with none active the instruction goes on,
which the manual does not say (notes/assumptions/19). -/
def Obligations.QueueExchange : Prop :=
  ∀ (s : State) (is : Iss) (g : Guard) (n m : Nat) (e : FifoEnt) (es : List FifoEnt), (∃ c, crewOf? s is.ref = some c) →
    (qcfgUsable s is.ref (qCfg s is.ref n) = true → (qFifo s is.ref n).entries = e :: es → headBad (qFifo s is.ref n) (qcfgBanks (qCfg s is.ref n)).2 (ringWidth s is.ref) = 0#64 →
      mayRun s is (.mov ⟨g, .u32, false, .v m, .q n⟩) = true →
      ∃ t y, exec (.mov ⟨g, .u32, false, .v m, .q n⟩) s = .next t ∧ gang? t is.ref = some y ∧ (qFifo t is.ref n).entries = es
        ∧ ∀ l ∈ selOf is g, rdV y m l = (Tab.get 0#32 e.words l).toNat)
    ∧ (qcfgUsable s is.ref (qCfg s is.ref n) = true → (qFifo s is.ref n).entries.length < qCap s is.ref n is.gang.width →
      mayRun s is (.mov ⟨g, .u32, false, .q n, .v m⟩) = true →
      ∃ t x, exec (.mov ⟨g, .u32, false, .q n, .v m⟩) s = .next t
        ∧ (qFifo t is.ref n).entries = (qFifo s is.ref n).entries ++ [x]
        ∧ ∀ l ∈ selOf is g, (Tab.get 0#32 x.words l).toNat = rdV is.gang m l)
    ∧ (qcfgUsable s is.ref (qCfg s is.ref n) = false → everyActive is 0x8007 ≠ [] →
      Throws (.mov ⟨g, .u32, false, .v m, .q n⟩) s is s (everyActive is 0x8007))
    ∧ (qcfgUsable s is.ref (qCfg s is.ref n) = false → everyActive is 0x8007 = [] → Answers (.mov ⟨g, .u32, false, .v m, .q n⟩) s is s)

/-! ### Control -/

/-- Clause headers, NOP, branches, calls and WAITP (R97, R98, R130, R140, R141, R145): where each goes on, and the header's and
WAITP's wait. Targets are judged by R130: an address that is not a multiple of 4 is cause misaligned fetch; where the eight bytes can be
fetched, a word whose LEN is 00b is a clause header, and any other is cause target not a header. -/
def Obligations.FlowFormsAnswer : Prop :=
  ∀ (s : State) (is : Iss) (yld sense : Bool) (setb seta a b c path n : Nat) (w : BitVec 12) (off : W32) (t : Target) (g : Guard),
    let hd := Instr.clauseHeader yld setb seta w
    let put := fun (s' : State) (r : Gang × List Nat) => modGang s' is.ref (fun _ => r.1)
    (is.q.hdr = false → countersClear is.gang w = true → Settles hd s is (headerState s is yld setb seta))
    ∧ (is.q.hdr = false → countersClear is.gang w = false → Waits hd s is s .wait)
    ∧ (is.q.hdr = true → Traps hd s is s .illegalClause)
    ∧ Answers .nop s is s
    ∧ GoesTo (.bra t) s is (targetOf is t) (fun s' => Jumps (.bra t) s is s' (targetOf is t))
    ∧ (rdC is.gang c = sense → GoesTo (.brc sense c off) s is (targetOf is (.off off))
        (fun s' => Jumps (.brc sense c off) s is s' (targetOf is (.off off))))
    ∧ (rdC is.gang c ≠ sense → Answers (.brc sense c off) s is s)
    ∧ (selOf is g = [] → Answers (.call g t) s is s)
    ∧ (selOf is g ≠ [] → GoesTo (.call g t) s is (targetOf is t) (fun s' =>
        let r := callGang is g t
        CountersOr (.call g t) s is r (put s' r) (Jumps (.call g t) s is (put s' r) (targetOf is t))))
    ∧ (callvRest is g a b = [] → Answers (.callv g a b) s is (modGroup s is.ref is.grp (fun q => { q with resume := 0 })))
    ∧ (∀ f fs, callvRest is g a b = f :: fs → GoesTo (.callv g a b) s is (callvTarget is a b f) (fun s' =>
        let r := callvGang is f (f :: fs) ((f :: fs).filter (fun l => callvTarget is a b l == callvTarget is a b f))
        CountersOr (.callv g a b) s is r (put s' r) (Jumps (.callv g a b) s is (put s' r) (callvTarget is a b f))))
    ∧ (pathCount is.gang path ≤ n → Answers (.waitp path n) s is s)
    ∧ (n < pathCount is.gang path → Waits (.waitp path n) s is s .wait)
    ∧ (∀ a, a % 4 ≠ 0 → headerAt s is a = .trap s .misalignedFetch)
    ∧ ∀ a s' bs, a % 4 = 0 → fetchSpan s is.ref (lowQuad is.q) is.q.pageFail a 8 = .ok s' bs →
        (leNat bs % 4 = 0 → headerAt s is a = .ok s') ∧ (leNat bs % 4 ≠ 0 → headerAt s is a = .trap s' .targetNotHeader)

/-- R142: RET. With a clause header at the address lr holds it goes there; where lr bit 0 is 1, each valid lane of its group that is
parked comes one level nearer, and where lr bit 1 is 1, the resume index of the group becomes lr bits 63:57. A bad return address
traps at the RET without effect. -/
def Obligations.RetReturns : Prop :=
  ∀ (s : State) (is : Iss), let a := is.gang.lr.toNat % 2 ^ 57 / 4 * 4
    (∀ s', headerAt s is a = .ok s' → mayRun s is .ret = true →
      ∃ t y q, exec .ret s = .next t ∧ gang? t is.ref = some y ∧ y.groups[is.grp]? = some q ∧ q.pc = a
        ∧ q.resume = (if is.gang.lr.getLsbD 1 then is.gang.lr.toNat / 2 ^ 57 else is.q.resume)
        ∧ ∀ l, counterOf y l = if is.gang.lr.getLsbD 0 ∧ l ∈ groupLanes is.gang is.q then counterOf is.gang l - 1
            else counterOf is.gang l)
    ∧ (∀ s' c, headerAt s is a = .trap s' c → Traps .ret s is s' c)
    ∧ ∀ s', headerAt s is a = .wait s' → Waits .ret s is s' .sync

/-- The structured instructions (R25, R26, R133 to R137): IF with and without a split, ELSE, ENDIF with and without a join, the loop
forms and GJOIN. Where a counter would pass 255 the lanes concerned throw 0x8004 (R32). -/
def Obligations.StructuredFormsAnswer : Prop :=
  ∀ (s : State) (is : Iss) (gd : Guard) (e n : Nat),
    let run := fun (i : Instr) (r : Gang × List Nat) (q : QGroup) (sets : Bool) (pc : Nat) =>
      CountersOr i s is r (structuredState s is r.1 q sets pc) (Settles i s is (structuredState s is r.1 q sets pc))
    let split := ifGroups is.gang is.q gd e n
    let deep := everyActive is 0x8004
    let set := fun (y : Gang) => modGang s is.ref (fun _ => y)
    (255 ≤ is.q.sd → deep ≠ [] → Throws (.ifI gd e n) s is s deep) ∧ (255 ≤ is.q.sd → deep = [] → Answers (.ifI gd e n) s is s)
    ∧ (is.q.sd < 255 → ifSplits is.gang is.q gd = false →
        run (.ifI gd e n) (ifCounters is.gang is.q gd) { is.q with sd := is.q.sd + 1 } true (is.q.pc + 12))
    ∧ (is.q.sd < 255 → ifSplits is.gang is.q gd = true →
        let r := ifCounters is.gang is.q gd
        run (.ifI gd e n) ({ r.1 with groups := r.1.groups ++ [split.2] }, r.2) split.1 true (is.q.pc + 12))
    ∧ run .elseI (elseCounters is) is.q true (is.q.pc + 8)
    ∧ ((∀ m js, is.q.joins ≠ (is.q.pc, m) :: js) → Settles .endif s is (set (endifGang is)))
    ∧ (∀ m js y, is.q.joins = (is.q.pc, m) :: js → allArrived is m = true → joinedGang is m js = some y → Settles .endif s is (joinedState s is y))
    ∧ (is.q.sd < 255 → is.q.loops.length < 16 → run .loop (loopCounters is)
        { is.q with sd := is.q.sd + 1, loops := (is.q.pc + 8, is.q.sd + 1) :: is.q.loops } false (is.q.pc + 8))
    ∧ (255 ≤ is.q.sd ∨ 16 ≤ is.q.loops.length → deep ≠ [] → Throws .loop s is s deep)
    ∧ run (.brk gd) (leaveCounters is gd 2) is.q true (is.q.pc + 8)
    ∧ run (.cont gd) (leaveCounters is gd 1) is.q true (is.q.pc + 8)
    ∧ (∀ h d ls, is.q.loops = (h, d) :: ls → (activeLanes (endloopBack is) is.q).isEmpty = false →
        Settles .endloop s is (structuredState s is (endloopBack is) is.q false h))
    ∧ (is.q.loops = [] ∨ (activeLanes (endloopBack is) is.q).isEmpty = true → run .endloop (endloopOut is)
        { is.q with loops := is.q.loops.drop 1, sd := is.q.sd - 1 } false (is.q.pc + 8))
    ∧ ((liveGroups is.gang).length ≤ 1 → is.q.arrived = none → Answers .gjoin s is s)
    ∧ (∀ y, 1 < (liveGroups is.gang).length ∨ is.q.arrived ≠ none → (liveGroups (arrive is true)).all (fun q => waitsAt q is.q.pc true) = true →
        gjoinedGang is = some y → Settles .gjoin s is (joinedState s is y))

/-- The nesting counters behind the structured instructions, lane by lane (R133 to R135): in the lanes of the issuing group as the
pseudocode says, held at 255, and in every other lane as before. Where an IF splits, the lanes of the else-group's quads keep counter 0. -/
def Obligations.StructuredCounters : Prop :=
  ∀ (is : Iss) (gd : Guard) (l : Nat),
    let c := counterOf is.gang l
    let mine := fun (y : Gang) (x : Nat) => counterOf y l = if l ∈ groupLanes is.gang is.q then min x 255 else c
    mine (elseCounters is).1 (if c = 0 then 1 else if c = 1 then 0 else c)
    ∧ mine (loopCounters is).1 (if 1 ≤ c then c + 2 else c)
    ∧ (ifSplits is.gang is.q gd = false →
        mine (ifCounters is.gang is.q gd).1 (if 1 ≤ c then c + 1 else if condAt is.gang gd l then 0 else 1))
    ∧ (ifSplits is.gang is.q gd = true →
        mine (ifCounters is.gang is.q gd).1
          (if 1 ≤ c then c + 1 else if condAt is.gang gd l || quadElse is.gang is.q gd (l / 4) then 0 else 1))
    ∧ mine (endifGang is) (c - 1)
    ∧ counterOf (leaveCounters is gd 2).1 l
        = (if l ∈ activeLanes is.gang is.q ∧ condAt is.gang gd l = true then min (leaveCount is.q 2) 255 else c)
    ∧ counterOf (leaveCounters is gd 1).1 l
        = (if l ∈ activeLanes is.gang is.q ∧ condAt is.gang gd l = true then min (leaveCount is.q 1) 255 else c)
    ∧ mine (endloopBack is) (if c = 1 then 0 else c)
    ∧ mine (endloopOut is).1 (if c ≤ 2 then 0 else c - 2)

/-- R28: a gang-collective instruction of a group that is one of several does not execute. Every active lane of the issuing group
throws 0x8006 at it, and with none active it has no effect; where the instruction's own trap (a target, a try region that does not
match) applies, that comes first (R108), in the state that the fetch of the target left. -/
def Obligations.CollectiveDivergence : Prop :=
  ∀ (s : State) (is : Iss) (i : Instr), mayIssue s is i = true → i.collective = true → separated is.gang = true →
    let ts := everyActive is 0x8006
    (trapsItself i = true ∧ ∃ (s' : State) (c : Cause),
        ((∃ a, namedTarget is i = some a ∧ headerAt s is a = .trap s' c) ∨ (s' = s ∧ c = .tryMismatch))
        ∧ exec i s = .next (issued (takeTrap s' is 2 c.code 0 (trapBytes c i) (activeLanes is.gang is.q)) is i))
    ∨ (ts ≠ [] ∧ exec i s = .next (issued (throwLanes s is.ref is.q.pc ts false none) is i))
    ∨ (ts = [] ∧ exec i s = .next (past s is i))

/-- The try forms and EXIT (R49 to R51, R55, R146, R147, R309). A ninth gang region, a fifth crew or launch region, or a catch address that
is not the one of the entry already open throws in every active lane, and opens nothing. The last EXIT of a gang ends it once its open body
is closed. -/
def Obligations.RegionFormsAnswer : Prop :=
  ∀ (s : State) (is : Iss) (off : W32) (c n : Nat),
    let a := catchOf is off
    let fails := fun (i : Instr) (code : Nat) => (everyActive is code ≠ [] → Throws i s is s (everyActive is code))
      ∧ (everyActive is code = [] → Answers i s is s)
    let full := fun (i : Instr) (stack : List Nat) (d : Nat) => (4 ≤ d → fails i 0x8004)
      ∧ (∀ b, d < 4 → stack[d]? = some b → b ≠ a → fails i 0x8006)
    let leave := closeRegions (modGang s is.ref (fun g => { g with entered := g.entered.drop 1 })) is.ref
    GoesTo (.tryGang off) s is a (fun s' =>
        (is.gang.stack.length < 8 → Answers (.tryGang off) s is
          (modGang s' is.ref (fun g => { g with stack := ⟨a, crewDepth g, launchDepth g⟩ :: g.stack })))
        ∧ (8 ≤ is.gang.stack.length → fails (.tryGang off) 0x8004))
    ∧ (is.ref = .user c n → GoesTo (.tryCrew off) s is a (fun s' => ∀ cr, crewOf? s' is.ref = some cr →
        (∀ st, enterRegion cr.stack (crewDepth is.gang) a = .ok st → Answers (.tryCrew off) s is
          (modGang (modCrew s' c (fun cr => { cr with stack := st })) is.ref (fun g => { g with entered := true :: g.entered })))
        ∧ full (.tryCrew off) cr.stack (crewDepth is.gang)))
    ∧ GoesTo (.tryLaunch off) s is a (fun s' => ∀ cr ln, crewOf? s' is.ref = some cr → launchOf? s' is.ref = some ln →
        (∀ st, enterRegion ln.stack (launchDepth is.gang) a = .ok st → Answers (.tryLaunch off) s is
          (modGang (modLaunch s' cr.launch (fun l => { l with stack := st })) is.ref
            (fun g => { g with entered := false :: g.entered })))
        ∧ full (.tryLaunch off) ln.stack (launchDepth is.gang))
    ∧ (innermost is.gang = some 0 →
        Answers .endtryGang s is (modGang s is.ref (fun g => { g with stack := g.stack.drop 1 })))
    ∧ (innermost is.gang ≠ some 0 → Traps .endtryGang s is s .tryMismatch)
    ∧ (innermost is.gang = some 1 → Answers .endtryCrew s is leave) ∧ (innermost is.gang ≠ some 1 → Traps .endtryCrew s is s .tryMismatch)
    ∧ (innermost is.gang = some 2 → Answers .endtryLaunch s is leave) ∧ (innermost is.gang ≠ some 2 → Traps .endtryLaunch s is s .tryMismatch)
    ∧ (is.ref = .sup c → Answers .exit s is s)
    ∧ (∀ u, is.ref = .user c n → (liveGroups is.gang).length ≤ 1 → bodyEnd s is.ref = (u, [], true) →
        Settles .exit s is (endGang (groupEnded u is) is.ref is.q.pc))
    ∧ (∀ u ts, is.ref = .user c n → (liveGroups is.gang).length ≤ 1 → bodyEnd s is.ref = (u, ts, false) →
        Waits .exit s is (throwMany u is.ref ts) .sync)
    ∧ (is.ref = .user c n → 1 < (liveGroups is.gang).length → Settles .exit s is (groupEnded s is))

/-- THROW, RETHROW and RDEXR (R148 to R150): the code of each thrower lane is the low 15 bits of its operand; RETHROW raises the
record's primary code in every active lane; RDEXR reads a word of the record, and 0 beyond it. -/
def Obligations.ThrowFormsAnswer : Prop :=
  ∀ (s : State) (is : Iss) (g : Guard) (a : Opd) (n : Nat),
    (selOf is g = [] → Answers (.throw g a) s is s)
    ∧ (selOf is g ≠ [] →
        Throws (.throw g a) s is s ((selOf is g).map (fun l => (l, rdSrc s is ⟨a, .u32, []⟩ l % 2 ^ 15))))
    ∧ (activeLanes is.gang is.q = [] → Answers .rethrow s is s)
    ∧ (activeLanes is.gang is.q ≠ [] → mayRun s is .rethrow = true → exec .rethrow s = .next (issued
        (throwLanes s is.ref is.q.pc (everyActive is (recordWord s is 0 % 2 ^ 16)) true none) is .rethrow))
    ∧ Answers (.rdexr (.s n) a) s is (modGang s is.ref (fun y => wrS y n (if rdU s is a < 96 then recordWord s is (rdU s is a) else 0)))

/-! ### Memory -/

/-- Loads and atomics (R237 to R245). Where the selected lanes pass their checks the instruction enters flight at once, its elements
and completion counter noted, and its group goes on; elements whose page stage two lacks ask for it and wait in flight. Where lanes fail,
exactly those throw; an access inside a body to a tile that it does not declare ends the body first (R308). -/
def Obligations.LoadsEnterFlight : Prop :=
  ∀ (s : State) (is : Iss) (m : GMem) (b : SMem) (sx : Bool) (d data : Opd) (p : Nat) (op : AtomOp),
    let zero := fun (_ : Nat) => 0
    let usable := d.qreg.all (fun n => qcfgUsable s is.ref (qCfg s is.ref n)) = true
    let go := fun (i : Instr) (r : State × List (Nat × Chk)) (rp : Option Nat) (kind path : Nat) (fk : FlightKind) (sc : Scope)
        (z : Size) (data cmp : Nat → Nat) =>
      let ts := chkCodes rp.isSome r.2
      (ts = [] → anyHold r.2 = false → Answers i s is (launched r is rp kind path fk sc z d data cmp))
      ∧ (ts ≠ [] → (is.gang.body = none ∨ ∀ t ∈ ts, t.2 ≠ 0x8003) → Throws i s is r.1 ts)
      ∧ (is.gang.body ≠ none → (∃ t ∈ ts, t.2 = 0x8003) → Throws i s is (breakBody r.1 is.ref) ts)
      ∧ (ts = [] → anyHold r.2 = true → Waits i s is r.1 .sync)
    (usable → go (.ld m sx d) (gChecks s is m .read) none 0 0 (.load sx) m.scope m.size zero zero)
    ∧ (usable → go (.ldRp m sx d p) (gChecks s is m .read) (some p) 0 0 (.load sx) m.scope m.size zero zero)
    ∧ (usable → go (.lds b sx d) (sChecks s is b) none 0 2 (.load sx) b.scope b.size zero zero)
    ∧ go (.atom op m d data) (gChecks s is m .atomic) none 1 0 (.atomic op) m.scope m.size
        (fun l => rdSrc s is ⟨data, atomTy op m.size, []⟩ l) (priorD is d m.size)
    ∧ go (.atoms op b d data) (sChecks s is b) none 1 2 (.atomic op) b.scope b.size
        (fun l => rdSrc s is ⟨data, atomTy op b.size, []⟩ l) (priorD is d b.size)

/-- Stores (R239, R244, R368). With the data at hand and every check passed the stores of the selected lanes enter the scope buffer
of the gang, or wait there for the pages that some of them lack, the group goes on, and no byte of memory, no scratchpad byte and no
core-point copy changes at the issue. -/
def Obligations.StoresEnterTheBuffer : Prop :=
  ∀ (s : State) (is : Iss) (m : GMem) (b : SMem) (data : Opd) (u v s' : State) (xs : List Src) (x : Src) (bad : Mask),
    let go := fun (i : Instr) (r : State × List (Nat × Chk)) (sc : Scope) (z : Size) (path : Nat) =>
      let d := fun l => rdSrc s' is x l
      feeds s is [(data, sizeTy z)] .exm = some (u, xs) → chkCodes false r.2 = [] → anyHold r.2 = false →
      popAll r.1 is.ref [(data, sizeTy z)] = some (s', [x], bad) →
        (anyPage r.2 = false → Answers i s is (enterStores s' is r.2 sc z.bytes d path))
        ∧ (anyPage r.2 = true → Answers i s is (askPages (awaitStore s' is r.2 sc z d path)
            (ctxOf s' is.ref) 1 (fun _ => .flight is.ref is.gang.seq) (placesOf r.2)))
        ∧ (mayRun s is i = true → exec i s = .next v → (∀ a, v.mem.read a = s.mem.read a)
            ∧ (∀ c, (crew? v c).map (fun y => y.scr) = (crew? s c).map (fun y => y.scr))
            ∧ (∀ c, (core? v c).map (fun y => y.cp) = (core? s c).map (fun y => y.cp)))
    go (.st m data) (gChecks s is m .write) m.scope m.size 1 ∧ go (.sts b data) (sChecks s is b) b.scope b.size 2

/-- The checks of an access (R239, R241): through a record, the index against the record's extent first, then the alignment of the
address; in the scratchpad, alignment first, then the bounds of the crew's allocation, then the mode of the bank; a record of a
scratchpad is checked as the scratchpad. -/
def Obligations.AccessChecks : Prop :=
  ∀ (s : State) (is : Iss) (cr : Crew) (r : BRec) (i o : Int) (n : Nat) (k : AKind), crewOf? s is.ref = some cr → 0 < n →
    (o % (n : Int) ≠ 0 → chkScr s is.ref o n = .code 0x8008)
    ∧ (o % (n : Int) = 0 → (o < 0 ∨ (scrSize s is.ref : Int) < o + n) → chkScr s is.ref o n = .code 0x8001)
    ∧ (o % (n : Int) = 0 → 0 ≤ o → o + n ≤ (scrSize s is.ref : Int) →
        chkScr s is.ref o n = if scrMode s cr o.toNat then .ok (.scr o.toNat) true else .code 0x8007)
    ∧ ((i < 0 ∨ (recExtent r : Int) ≤ i) → (chkRec (s, []) is r i n k).2 = .code 0x8001)
    ∧ (0 ≤ i → i < (recExtent r : Int) → r.spad = false → recAddr r i.toNat % n ≠ 0 → (chkRec (s, []) is r i n k).2 = .code 0x8008)
    ∧ (0 ≤ i → i < (recExtent r : Int) → r.spad = true → (chkRec (s, []) is r i n k).2 = chkScr s is.ref (recAddr r i.toNat) n)

/-- FENCE, PERSIST, WAITA, WAKE and QSTAT (R246 to R249, R254). A WAITA reads its record and operands once: its group then waits
on the address it found until its watch falls due, and loads the word again (that it is translated and checked anew then is notes/assumptions/85);
a load with no way to its word throws (R356, R369). -/
def Obligations.OrderFormsAnswer : Prop :=
  ∀ (s : State) (is : Iss) (sc : Scope) (o idx cmp : Opd) (c : WCond) (z : Size) (rc q k n : Nat) (disp : Option W32) (full : Bool),
    let wa := Instr.waita c z sc (.s n) idx rc cmp disp
    let wk := Instr.wake sc idx rc disp
    let rec' := recOf is rc
    let e := recIndex (rdSrc s is ⟨idx, .u32, []⟩ 0) disp
    let active := (activeLanes is.gang is.q).isEmpty = false
    let loads := fun (spad : Bool) (a b : Nat) => ∀ s' p w, alone (chkAt (s, []) is spad a z.bytes .read) = (s', .ok p w) →
      (∀ f g v t, p ≠ .page f g v t) → placeFree is.gang p z.bytes = true →
        let r := waitLoad s' is z sc p
        let met := wCond c r.2.1 b || wokenAt is p
        let cut := cutOffAt s' is.ref is.gang is.gang.seq sc p z.bytes
        (cut = true → is.gang.body = none → Throws wa s is (setWatch s' is none) (everyActive is 0x8007))
        ∧ (cut = false → r.2.2 = false → (met = true → Answers wa s is (modGang (waitedAt r.1 is sc p) is.ref (fun y => wrS y n r.2.1)))
          ∧ (met = false → Waits wa s is (setWatch r.1 is (some (watchOf a b p))) .sync))
    Answers (.fence sc o) s is (launchFlight (modGang s is.ref mark) is (fenceFlight is sc o))
    ∧ Answers .persist s is (modGang (modGroup s is.ref is.grp (fun q => { q with persists := q.persists ++ [is.gang.seq] })) is.ref nextSeq)
    ∧ (active ∨ Answers wa s is s) ∧ (active ∨ Answers wk s is s)
    ∧ (∀ w, active → is.q.watch = some w → w.due = false → Waits wa s is s .sync)
    ∧ (∀ w, active → is.q.watch = some w → w.due = true → loads w.scr w.addr w.cmp)
    ∧ (active → is.q.watch = none → 0 ≤ e → e < (recExtent rec' : Int) →
        loads rec'.spad (recAddr rec' e.toNat) (rdSrc s is ⟨cmp, sizeTy z, []⟩ 0))
    ∧ (active → is.q.watch = none → e < 0 ∨ (recExtent rec' : Int) ≤ e → is.gang.body = none → Throws wa s is s (everyActive is 0x8001))
    ∧ (∀ s' p w, active → alone (chkRec (s, []) (outOfBody is) rec' e 1 .read) = (s', .ok p w) → (∀ f g v t, p ≠ .page f g v t) →
        (wakeHeld is p = false → Answers wk s is (wokenState s' is p)) ∧ (wakeHeld is p = true → Waits wk s is s' .sync))
    ∧ (qcfgUsable s is.ref (qCfg s is.ref q) = true →
        let n' := (qFifo s is.ref q).entries.length
        let cap := qCap s is.ref q is.gang.width
        Answers (.qstat full (.s n) q k) s is (modGang (modGang s is.ref (fun g => wrC g k (if full then decide (n' ≥ cap) else n' == 0)))
          is.ref (fun y => wrS y n (n' + cap * 2 ^ 16 + 2 ^ 32))))
    ∧ (qcfgUsable s is.ref (qCfg s is.ref q) = false → Answers (.qstat full (.s n) q k) s is
        (modGang (modGang s is.ref (fun g => wrC g k false)) is.ref (fun y => wrS y n 0)))

/-- APPEND (R173, R174): with its word free and readable, the lanes below the limit get consecutive numbers in ascending order, the
others all ones, and the word is raised by how many were granted. -/
def Obligations.AppendAnswers : Prop :=
  ∀ (s : State) (is : Iss) (g : Guard) (n o : Nat) (a b : Opd) (w : Bool),
    let i := Instr.append g (.v n) a b
    let ls := selOf is g
    let p := Place.scr o
    let r := loadBytes s is.ref is.gang.seq .crew p 4
    let old := leNat r.2.1
    let k := min ls.length (rdSrc s is ⟨b, .u32, []⟩ 0 - old)
    (ls = [] → Answers i s is s)
    ∧ (ls ≠ [] → chkScr s is.ref (sext (rdU s is a) 64) 4 = .ok p w → placeFree is.gang p 4 = true →
        is.gang.buf.any (fun e => overlaps e.place e.bytes.length p 4) = false →
        (∀ c, crewIdOf is.ref = some c → heldByMatrix s c o 4 = false) → r.2.2 = false →
        Answers i s is (landed (atomWrite r.1 is.ref .crew p 4 (old + k)) is ls (.v n) false (fun l =>
          let at' := (ls.filter (fun m => decide (m < l))).length
          if at' < k then old + at' else 0xFFFFFFFF)))

/-- The forms over a range (R250 to R253): no effect without an active lane or a byte; 0x8001 where the limits break; otherwise
ZFILL's stores of zero, at once or once the pages that stage two lacks are there, PAGEREQ's operation, the write-back of CCTL and the
changes of the instruction cache, on the pages that are there, once no page of the range is awaited. Through a scratchpad record PAGEREQ
makes an operation with no page to ask for, and ICPF, ICPIN and ICINV find no line; the manual says neither (notes/assumptions/73). The permission that each form is judged by, where the manual does
not name it (CCTL and PAGEREQ by read, the IC forms by fetch), is the reading of notes/assumptions/23, and the wait of CCTL and the IC forms
for an awaited page that of notes/assumptions/25. -/
def Obligations.RangeFormsAnswer : Prop :=
  ∀ (s : State) (is : Iss) (r : Range) (sc : Scope) (f c n : Nat) (x : RangeAt),
    let all := [Instr.zfill r, .pagereq f r, .cctlWb sc r, .cctlDisc sc r, .icpf r, .icpin r, .icpinUnpin r, .icinvCrew r]
    let none' := (activeLanes is.gang is.q).isEmpty || rangeEmpty s is r
    let own := fun (u : State) (h : Core → Core) => modCore u (coreOf u is.ref) h
    let z := zChecks s is x
    let ns := pageNeeds s is (pagePieces x.a x.len)
    (none' = true → ∀ i ∈ all, Answers i s is s)
    ∧ (none' = false → rangeOf s is r = none → is.gang.body = none → ∀ i ∈ all, Throws i s is s (everyActive is 0x8001))
    ∧ (none' = false → rangeOf s is r = some x →
      (x.rc.spad = false → rangeCode z.2 = none → anyHold z.2 = false → anyPage z.2 = false →
          Answers (.zfill r) s is (bufferStores z.1 is.ref (zeros is z.1.cycle.toNat .phys (zRanges x z.2)) 1))
      ∧ (x.rc.spad = false → rangeCode z.2 = none → anyHold z.2 = false → anyPage z.2 = true → Answers (.zfill r) s is (awaitZfill z.1 is x z.2))
      ∧ (∀ cr, x.rc.spad = true → x.a + x.len ≤ scrSize s is.ref → crewOf? s is.ref = some cr →
          (linePieces x.a x.len).all (fun p => scrMode s cr p.1) = true →
          Answers (.zfill r) s is (bufferStores s is.ref (zeros is s.cycle.toNat .scr [(x.a, x.len)]) 1))
      ∧ (∀ u tok, is.ref = .user c n → x.rc.spad = false → anyRefused ns.2 = false → newOp ns.1 c n .pagereq = some (u, tok) →
          Answers (.pagereq f r) s is (pagesAsked u is f c tok ns.2))
      ∧ (∀ u tok, is.ref = .user c n → x.rc.spad = true → newOp s c n .pagereq = some (u, tok) →
          Answers (.pagereq f r) s is (pagesAsked u is f c tok []))
      ∧ (x.rc.spad = true → (∀ i ∈ [Instr.cctlWb sc r, .cctlDisc sc r, .icpf r, .icpin r], Answers i s is s)
          ∧ Answers (.icpinUnpin r) s is (own s (unpinLines [])) ∧ Answers (.icinvCrew r) s is (own s (dropLines [])))
      ∧ (x.rc.spad = false →
        (∀ t rs, coveredRanges s is (classOf is.ref) .read x.a x.len = (t, some rs) →
          Answers (.cctlWb sc r) s is (cctl t is rs (sc == .dev) false) ∧ Answers (.cctlDisc sc r) s is (cctl t is rs (sc == .dev) true))
        ∧ (∀ t, coveredRanges s is (classOf is.ref) .read x.a x.len = (t, none) →
          Waits (.cctlWb sc r) s is t .sync ∧ Waits (.cctlDisc sc r) s is t .sync)
        ∧ (∀ t rs, coveredRanges s is .fetch .fetch x.a x.len = (t, some rs) →
          Answers (.icpf r) s is (fillLines t (coreOf t is.ref) rs false)
          ∧ Answers (.icpin r) s is (fillLines t (coreOf t is.ref) rs true)
          ∧ Answers (.icpinUnpin r) s is (own t (unpinLines rs)) ∧ Answers (.icinvCrew r) s is (own t (dropLines rs)))
        ∧ ∀ t, coveredRanges s is .fetch .fetch x.a x.len = (t, none) → ∀ i ∈ all.drop 4, Waits i s is t .sync))

/-- ICINV.DEV (R253): it waits from its issue until every core has invalidated the lines, and then completes. -/
def Obligations.IcinvDevWaits : Prop :=
  ∀ (s : State) (is : Iss) (r : Range) (x : RangeAt) (rs : List (Nat × Nat)),
    let i := Instr.icinvDev r
    let waits := fun (q : QGroup) (rs : List (Nat × Nat)) (b : Bool) => q.waiting = .icinv rs b
    let fresh := (∀ rs b, ¬waits is.q rs b) ∧ (activeLanes is.gang is.q).isEmpty = false ∧ rangeEmpty s is r = false
      ∧ rangeOf s is r = some x
    (waits is.q rs true → Answers i s is (modGroup s is.ref is.grp (fun q => { q with waiting := .none })))
    ∧ (waits is.q rs false → Waits i s is s .sync)
    ∧ (fresh → ∀ t rs, codeRanges s is x = (t, some rs) →
        Waits i s is (modGroup t is.ref is.grp (fun q => { q with waiting := .icinv rs false })) .sync)
    ∧ (fresh → ∀ t, codeRanges s is x = (t, none) → Waits i s is t .sync)
    ∧ ((∀ rs b, ¬waits is.q rs b) → ((activeLanes is.gang is.q).isEmpty || rangeEmpty s is r) = true → Answers i s is s)


/-! ### Engine commands, futures, barriers, transactions -/

/-- Engine commands (R277, R280, R281): with no lane selected each writes the null token and has no other effect. -/
def Obligations.CommandsWithoutLanes : Prop :=
  ∀ (s : State) (is : Iss) (x : Copy) (y : MmaArgs) (arr dir : Bool) (cores : BitVec 8) (g : Guard) (f fw sa sm tile c n : Nat)
    (a b : Opd) (tgt : Fmt) (cr : Crew), is.ref = .user c n → crewOf? s is.ref = some cr →
    let skip := fun (i : Instr) (g : Guard) (f : Nat) => selOf is g = [] → Answers i s is (modGang s is.ref (fun x => wrF x f 0))
    skip (.cpy x arr dir) x.g x.f ∧ skip (.cpyM x cores) x.g x.f ∧ skip (.cpyX x arr dir) x.g x.f ∧ skip (.mma y) y.g y.f
    ∧ skip (.mmaSp y sm) y.g y.f ∧ skip (.mmaP y) y.g y.f ∧ skip (.msel g f a b fw sa sm) g f ∧ skip (.accz g f tile) g f
    ∧ skip (.accdr g f a tgt tile) g f ∧ skip (.wdset g f a tile) g f ∧ skip (.mfence g f) g f

/-- Copies and MSEL (R283 to R287, R291). With a lane selected, every check passed, room in the queue, the scratchpad stores of the
gang released and an operation entry free, the command is in the queue of its core and its token in f[D]; a check that fails throws
in every active lane. In the body of a transaction a CPY or CPY.X is accepted once every tile it names is granted. -/
def Obligations.CopiesAreAccepted : Prop :=
  ∀ (s : State) (is : Iss) (x : Copy) (arr dir : Bool) (cores : BitVec 8) (g : Guard) (f fw sa sm c n tok : Nat) (a b : Opd) (w : W32)
    (cr : Crew) (u v : State), is.ref = .user c n → crewOf? s is.ref = some cr →
    let body := bodyOfCopy s is (cutRec (rdB is.gang x.rc)) (rdE s is x.a) (copyCount s is x) dir
    let go := fun (i : Instr) (s₁ : State) (f : Nat) (bar : Option Nat) (arr empty : Bool) (mk : Nat → CopyCmd) =>
      copyRoom s₁ is bar arr empty = true → releaseScr s₁ is.ref = some (u, []) → newOp u c n .copy = some (v, tok) →
      Answers i s is (copyAccepted (modGang v is.ref (fun y => wrF y f tok)) is (coreOf s₁ is.ref) c bar arr empty (mk tok) tok)
    let fails := fun (i : Instr) (cs : List (Bool × Nat)) => ∀ e, cs.find? (fun e => e.1) = some e → Throws i s is s (everyActive is e.2)
    let passes := fun (cs : List (Bool × Nat)) => cs.find? (fun e => e.1) = none
    let clear := fun (cs : List (Nat × Chk)) => anyHold cs = false ∧ anyPage cs = false
    (selOf is x.g ≠ [] →
      fails (.cpy x arr dir) (copyChecks s is x false) ∧ fails (.cpyM x cores) (copyChecks s is x true)
      ∧ fails (.cpyX x arr dir) (indexedChecks s is x)
      ∧ (passes (copyChecks s is x false) → bodyRefuses body.2 = false → clear body.2 →
          go (.cpy x arr dir) body.1 x.f x.bar arr (rdE s is x.c == 0) (copyCommand s body.1 is c n x .cpy dir))
      ∧ (passes (copyChecks s is x true) → dir = false → bodyRefuses body.2 = false → clear body.2 →
          go (.cpyM x cores) body.1 x.f x.bar false (rdE s is x.c == 0) (copyCommand s body.1 is c n x (.multicast cores) false))
      ∧ (passes (indexedChecks s is x) → is.gang.body = none →
          go (.cpyX x arr dir) s x.f x.bar arr (rdE s is x.c == 0) (indexedCommand s is c n x dir))
      ∧ (∀ s₁ cr', passes (indexedChecks s is x) → is.gang.body ≠ none → releaseScr s is.ref = some (s₁, []) →
          crewOf? s₁ is.ref = some cr' →
          let b := bodyOfIndexed s₁ is cr' (cutRec (rdB is.gang x.rc)) (rdE s₁ is x.a) (rdE s₁ is x.c) dir
          clear b.2 → go (.cpyX x arr dir) b.1 x.f x.bar arr (rdE s₁ is x.c == 0) (indexedCommand s₁ is c n x dir)))
    ∧ (selOf is g ≠ [] → vote is fw = some w →
      fails (.msel g f a b fw sa sm) (mselChecks s is (rdE s is a) (rdE s is b) w sa sm)
      ∧ (passes (mselChecks s is (rdE s is a) (rdE s is b) w sa sm) →
          go (.msel g f a b fw sa sm) s f none false false
            (mkCopy s is c n (.msel w (rdE s is a) (rdE s is b) sa sm) 0 0 4096 (rdE s is b) false none)))
    ∧ (selOf is g ≠ [] → vote is fw = none → Throws (.msel g f a b fw sa sm) s is s (everyActive is 0x8005))

/-- Matrix commands (R76, R87, R288 to R293). With a lane selected and every check passed, no backlog, room in the queue, the
scratchpad stores released and an operation entry free, the command is in the matrix queue of its core and its token in f[D]; over the backlog limit an
MMA form is not ready. Lanes that disagree on the format word, a bad word, a tile of the other mode, and bad ranges throw. -/
def Obligations.MatrixCommandsAreAccepted : Prop :=
  ∀ (s : State) (is : Iss) (x : MmaArgs) (g : Guard) (f sm tile c n tok : Nat) (a : Opd) (tgt : Fmt) (fw : W32) (cr : Crew)
    (u v : State), is.ref = .user c n → crewOf? s is.ref = some cr →
    let plain := fun (i : Instr) (kind : MxKind) (tile : Nat) => mxRoom s (coreOf s is.ref) = true →
      releaseScr s is.ref = some (u, []) → newOp u c n .matrix = some (v, tok) →
      Answers i s is (acceptMx (modGang v is.ref (fun y => wrF y f tok)) (coreOf s is.ref)
        (mxCommand (modGang v is.ref (fun y => wrF y f tok)) is c n tile kind false false tok))
    let mma := fun (i : Instr) (kind : MxKind) (extra : List (Bool × Nat)) (paired : Bool) (k : State → State) =>
      (∀ e, (mmaChecks s is x c cr fw kind extra).find? (fun e => e.1) = some e → Throws i s is s (everyActive is e.2))
      ∧ ((mmaChecks s is x c cr fw kind extra).find? (fun e => e.1) = none → backlogged s (coreOf s is.ref) = true →
        Waits i s is s .backlog)
      ∧ ((mmaChecks s is x c cr fw kind extra).find? (fun e => e.1) = none → backlogged s (coreOf s is.ref) = false →
        mxRoom s (coreOf s is.ref) = true → releaseScr s is.ref = some (u, []) → newOp u c n .matrix = some (v, tok) →
        Answers i s is (k (acceptMx (modGang v is.ref (fun y => wrF y x.f tok)) (coreOf s is.ref)
          (mxCommand (modGang v is.ref (fun y => wrF y x.f tok)) is c n x.tile kind (cr.mxctl.getLsbD 0) paired tok))))
    let ka := rdE s is x.a
    let kb := rdE s is x.b
    (selOf is g ≠ [] →
      plain (.accz g f tile) .accz tile
      ∧ plain (.wdset g f a tile) (.wdset (BitVec.ofNat 32 (rdE s is a))) tile ∧ plain (.mfence g f) .mfence 0
      ∧ ((rangeChecks s is [(rdE s is a, 4096 * (tgt.width / 8))]).find? (fun e => e.1) = none →
          plain (.accdr g f a tgt tile) (.accdr (rdE s is a) tgt) tile)
      ∧ ∀ e, (rangeChecks s is [(rdE s is a, 4096 * (tgt.width / 8))]).find? (fun e => e.1) = some e →
          Throws (.accdr g f a tgt tile) s is s (everyActive is e.2))
    ∧ (selOf is x.g ≠ [] → vote is x.fw = none → ∀ i ∈ [Instr.mma x, .mmaSp x sm, .mmaP x], Throws i s is s (everyActive is 0x8005))
    ∧ (selOf is x.g ≠ [] → vote is x.fw = some fw →
      mma (.mma x) (.mma ka kb x.sa x.sb fw) [] false (fun t => t)
      ∧ mma (.mmaSp x sm) (.mmaSp ka kb x.sa x.sb sm fw) [] false (fun t => t)
      ∧ mma (.mmaP x) (.mmaP ka kb x.sa x.sb fw)
          (pairChecks s is x cr (widthNext s (coreOf s is.ref) c (sideOf s is.ref) x.tile) (.mmaP ka kb x.sa x.sb fw))
          (secondHalf s is cr) (fun t => halfIssued s is x cr (.mmaP ka kb x.sa x.sb fw) t tok))

/-- The forms over a range and the matrix commands run to their ends (R250 to R253, R288 to R293): with a lane active or selected,
the limits of the range or the operand checks of the command passed, and neither a page, a tile, the backlog, the queue, a store of
the gang nor the operation table in the way, the instruction answers a next state in which it no longer waits. -/
def Obligations.RangeAndMatrixFormsComplete : Prop :=
  ∀ (s : State) (is : Iss) (r : Range) (sc : Scope) (f c n sm tile : Nat) (at' : RangeAt) (x : MmaArgs) (g : Guard) (a : Opd)
    (tgt : Fmt) (fw : W32) (cr : Crew), is.ref = .user c n → crewOf? s is.ref = some cr →
    let done := fun (i : Instr) => mayRun s is i = true → ∃ t, exec i s = .next t ∧ t.blocked = none
    let free := fun (k : OpKind) (s : State) => (newOp s c n k).isSome = true
    let pages := fun (k : AKind) (cls : AClass) => (coveredRanges s is cls k at'.a at'.len).2 ≠ none
    let ns := pageNeeds s is (pagePieces at'.a at'.len)
    let z := zChecks s is at'
    let room := mxRoom s (coreOf s is.ref) = true ∧ ∃ u, releaseScr s is.ref = some (u, []) ∧ free .matrix u
    let mma := fun (i : Instr) (kind : MxKind) (extra : List (Bool × Nat)) =>
      (mmaChecks s is x c cr fw kind extra).find? (fun e => e.1) = none → backlogged s (coreOf s is.ref) = false → done i
    ((activeLanes is.gang is.q).isEmpty = false → rangeEmpty s is r = false → rangeOf s is r = some at' → at'.rc.spad = false →
      (rangeCode z.2 = none → anyHold z.2 = false → anyPage z.2 = false → done (.zfill r))
      ∧ (anyRefused ns.2 = false → free .pagereq ns.1 → done (.pagereq f r))
      ∧ (pages .read (classOf is.ref) → done (.cctlWb sc r) ∧ done (.cctlDisc sc r))
      ∧ (pages .fetch .fetch → done (.icpf r) ∧ done (.icpin r) ∧ done (.icpinUnpin r) ∧ done (.icinvCrew r)))
    ∧ (selOf is g ≠ [] → room → done (.accz g f tile) ∧ done (.wdset g f a tile) ∧ done (.mfence g f)
        ∧ ((rangeChecks s is [(rdE s is a, 4096 * (tgt.width / 8))]).find? (fun e => e.1) = none → done (.accdr g f a tgt tile)))
    ∧ (selOf is x.g ≠ [] → vote is x.fw = some fw → room →
        mma (.mma x) (.mma (rdE s is x.a) (rdE s is x.b) x.sa x.sb fw) []
        ∧ mma (.mmaSp x sm) (.mmaSp (rdE s is x.a) (rdE s is x.b) x.sa x.sb sm fw) []
        ∧ (let kind := MxKind.mmaP (rdE s is x.a) (rdE s is x.b) x.sa x.sb fw
           mma (.mmaP x) kind (pairChecks s is x cr (widthNext s (coreOf s is.ref) c (sideOf s is.ref) x.tile) kind)))

/-- Futures (R294 to R297): FWAIT waits for its operation, throws the code of a fault that nobody has reported yet, and otherwise
acquires at DEV and goes on; FTEST tests; FCANCEL cancels; FEXPORT and FIMPORT move a token through the scratchpad. -/
def Obligations.FutureFormsAnswer : Prop :=
  ∀ (s : State) (is : Iss) (f k c n : Nat) (st : Option Nat) (cr : Crew) (e : OpEnt) (off : Opd) (o : Nat) (w : Bool),
    is.ref = .user c n → crewOf? s is.ref = some cr →
    let tok := rdF is.gang f
    let quiet := fun (e : OpEnt) => (e.st == .faulted && !e.reported && !(activeLanes is.gang is.q).isEmpty) = false
    let here := chkScr s is.ref (sext (rdU s is off) 64) 4 = .ok (.scr o) w
    let r := loadBytes s is.ref is.gang.seq .crew (.scr o) 4
    (opResolved cr tok = false → Waits (.fwait f st) s is s .sync)
    ∧ (opResolved cr tok = true → (∀ e, opOf cr tok = some e → quiet e) →
        Answers (.fwait f st) s is (writeStatus (acquire s is.ref .dev) is st (statusOf cr tok)))
    ∧ (opOf cr tok = some e → e.st = .faulted → e.reported = false → activeLanes is.gang is.q ≠ [] →
        Throws (.fwait f st) s is (modCrew s c (fun cr => { cr with ops := Tab.put cr.ops (tok % 1024) { e with reported := true } }))
          (everyActive is (bits e.word.toNat 31 16)))
    ∧ Answers (.ftest f k st) s is
        (writeStatus (modGang (if opResolved cr tok then acquire s is.ref .dev else s) is.ref (fun y => wrC y k (opResolved cr tok)))
          is st (statusOf cr tok))
    ∧ Answers (.fcancel f) s is (cancelOp s c tok)
    ∧ (here → Answers (.fexport f off) s is (tokenStored s is f (.scr o)))
    ∧ (here → placeFree is.gang (.scr o) 4 = true → r.2.2 = false →
        Answers (.fimport f off) s is (modGang r.1 is.ref (fun y => wrF (nextSeq y) f (leNat r.2.1))))

/-- Barriers (R298 to R302). -/
def Obligations.BarrierFormsAnswer : Prop :=
  ∀ (s : State) (is : Iss) (b c n k : Nat) (o : Opd) (ph : Bool) (cr : Crew) (u : State), is.ref = .user c n →
    crewOf? s is.ref = some cr →
    let x := rdU s is o
    let bad := everyActive is 0x8001
    let tooMany := 2 ^ 23 - 1 < x ∨ 2 ^ 23 - 1 < (barOf cr b).byt + (x : Int)
    (1 ≤ x → x ≤ 4095 → Answers (.barinit b o) s is (modBar s c b (fun y => { y with exp := x, arr := 0, byt := 0, err := false })))
    ∧ (x < 1 ∨ 4095 < x → bad ≠ [] → Throws (.barinit b o) s is s bad)
    ∧ ((barOf cr b).arr = (barOf cr b).exp → Waits (.bara b) s is s .sync)
    ∧ ((barOf cr b).arr ≠ (barOf cr b).exp → release s is.ref (crewScope s is.ref) = some (u, []) → Answers (.bara b) s is (barArrive u c b))
    ∧ (¬tooMany → Answers (.barexp b o) s is (modBar s c b (fun y => { y with byt := y.byt + (x : Int) })))
    ∧ (tooMany → bad ≠ [] → Throws (.barexp b o) s is s bad)
    ∧ ((barOf cr b).phase = ph → Answers (.barw b ph) s is (acquire s is.ref (crewScope s is.ref)))
    ∧ ((barOf cr b).phase ≠ ph → Waits (.barw b ph) s is s .sync)
    ∧ (is.gang.lbar = none → release s is.ref (lbarScope s is) = some (u, []) →
        Waits (.lbar k) s is (lbarArrive (modGang u is.ref (fun y => { y with lbar := some k })) c) .sync)
    ∧ (∀ j, is.gang.lbar = some j → j < 4 → Waits (.lbar k) s is s .sync)
    ∧ (∀ j, is.gang.lbar = some j → 4 ≤ j →
        Answers (.lbar k) s is (acquire (modGang s is.ref (fun y => { y with lbar := none })) is.ref (lbarScope s is)))

/-- Transactions (R303 to R310): a declaration whose block and tiles pass is submitted; a granted ticket at the head begins; the body
ends once its commands and loads are done and its stores settled; OTROUND raises the round. -/
def Obligations.TransactionFormsAnswer : Prop :=
  ∀ (s : State) (is : Iss) (f c n h tok : Nat) (off a : Opd) (es : List BlockEnt) (ts : List (Nat × Bool)) (t : Ticket)
    (rest : List Ticket) (e : OpEnt) (cr cr' : Crew) (s₁ u : State), is.ref = .user c n → crewOf? s is.ref = some cr →
    let o := rdU s is off % 2 ^ 32
    let bad := everyActive is 0x8003
    let notMine := t.op ≠ rdF is.gang f ∨ (t.roundMode = true ∧ is.gang.round < t.round)
    (∀ k, readBlock s is o = .code k → everyActive is k ≠ [] → Throws (.otdecl f off) s is s (everyActive is k))
    ∧ (readBlock s is o = .ok h es → tilesCheck s is [] (blockTiles es) = (s₁, .ok ts) →
        sequencerRoom (modGang s₁ is.ref nextSeq) (dieOf (coreOf (modGang s₁ is.ref nextSeq) is.ref)) = true →
        newOp (modGang s₁ is.ref nextSeq) c n .ticket = some (u, tok) → crewOf? (modGang s₁ is.ref nextSeq) is.ref = some cr' →
        Answers (.otdecl f off) s is (submitted u is c n f h cr' ts tok))
    ∧ (is.gang.body ≠ none → everyActive is 0x800C ≠ [] → Throws (.otbegin f) s is s (everyActive is 0x800C))
    ∧ (is.gang.body = none → is.gang.tickets = t :: rest → opOf cr (rdF is.gang f) = some e → ¬notMine →
        (e.st = .ok → Answers (.otbegin f) s is (modGang s is.ref (fun y => { y with tickets := y.tickets.drop 1, body := some t })))
        ∧ (e.st = .unresolved → Waits (.otbegin f) s is s .sync))
    ∧ (is.gang.body = none → is.gang.tickets = t :: rest → opOf cr (rdF is.gang f) = some e → notMine → bad ≠ [] →
        Throws (.otbegin f) s is s bad)
    ∧ (is.gang.body = none → Answers .otend s is s)
    ∧ (is.gang.body = some t → bodyCommandsDone s c n t.op = true → bodyLoadsDone is.gang t = true →
        (settleBody s is.ref).2.1 = [] → (settleBody s is.ref).2.2 = true →
        Answers .otend s is (closeBody (settleBody s is.ref).1 is.ref))
    ∧ Answers (.otround a) s is (modGang s is.ref (fun y => { y with round := max y.round (rdU s is a % 2 ^ 32) }))

/-! ### Traps, exceptions and the system instructions -/

/-- R107, R108, R106: a trap that the gang and the instruction come to by Table 5-8 (a third long-latency instruction of its clause,
an undefined value, a register beyond the gang's count, a privileged instruction) is taken before any effect, whatever the guard and
the active lanes; where the instruction's own target has an earlier cause, that one is taken, and where its page is awaited, the group
waits. A supervisor-only instruction of a user gang with no earlier cause traps as privileged. -/
def Obligations.CausesComeFirst : Prop :=
  ∀ (s : State) (is : Iss) (i : Instr), i.hasWords = true → issuer? s = some is → is.q.ended = false →
    suspended s is.ref is.gang = false → groupHeld s is = false →
    let traps := fun (t : State) (c : Cause) =>
      exec i s = .next (issued (takeTrap t is 2 c.code 0 (trapBytes c i) (activeLanes is.gang is.q)) is i)
    (∀ c, screen s is i = some c →
      (∀ t, targetCheck s is i = .ok t → traps t c) ∧ (∀ t d, targetCheck s is i = .trap t d → traps t (firstCause d c))
      ∧ ∀ t, targetCheck s is i = .wait t → exec i s = .next { t with blocked := some .sync })
    ∧ (∀ c n, is.ref = .user c n → i.supervisorOnly = true → i.longLatency = false ∨ is.q.llc < 2 ∨ is.q.idle = true →
        dynMinor s is.ref i = false → beyondCount is.gang i = false → screen s is i = some .privileged)
    ∧ (∀ c, is.ref = .sup c → i.userOnly = true → i.longLatency = false ∨ is.q.llc < 2 ∨ is.q.idle = true →
        beyondCount is.gang i = false → screen s is i = some .privileged)

/-- R313: taking a trap suspends the gang of the trapping group and leaves every register, counter and program counter of it and all
memory as they were. With no load outstanding and no store or spilled register on its way on the core, the request is in the mailbox
slot of the gang at once, with the class, cause, address and bytes of the instruction, its lanes and the lanes active; with a load
outstanding it waits. -/
def Obligations.TrapsSuspendTheGang : Prop :=
  ∀ (s : State) (is : Iss) (c n cls cause info : Nat) (insn : List Byte) (lanes : List Nat) (core : Core), is.ref = .user c n →
    gang? s is.ref = some is.gang → core? s (coreOf s is.ref) = some core → cls ≠ 4 →
    let t := takeTrap s is cls cause info insn lanes
    let quiet := ∀ h y, gang? s h = some y → coreOf s h = coreOf s is.ref → y.buf = [] ∧ y.unhomed = []
    let rest := fun (y : Gang) => { y.regs with trapped := none, trapReq := none, noticed := false }
    ((∃ f ∈ is.gang.flights, f.elems ≠ []) → t = modGang (modCore s (coreOf s is.ref)
      (fun c => { c with mboxOrder := c.mboxOrder + 1 })) is.ref (fun y =>
        { y with trapped := some is.q.quads, trapReq := some (requestOf s is cls cause info insn lanes) }))
    ∧ ((∀ f ∈ is.gang.flights, f.elems = []) → quiet → (∀ p ∈ core.cp, p.2.dirty = false) →
      (∃ y, gang? t is.ref = some y ∧ y.trapped = some is.q.quads ∧ y.trapReq = none ∧ rest y = rest is.gang
        ∧ y.groups = is.gang.groups)
      ∧ (∃ r, (core? t (coreOf s is.ref)).bind (fun x => Tab.find? x.mbox is.gang.slot) = some r ∧ r.cls = cls ∧ r.cause = cause
        ∧ r.pc = is.q.pc ∧ r.insn = insn ∧ r.info = info ∧ r.lanes.toNat = maskOf lanes % 2 ^ 64
        ∧ r.active.toNat = exmOf is.gang is.q ∧ r.gref = is.ref ∧ r.quads = is.q.quads ∧ r.cancel = false ∧ r.taken = false)
      ∧ ∀ a, t.mem.read a = s.mem.read a)

/-- R312: a trap or an exception of the supervisor gang is a supervisor fault. The gang halts, its program counter and cause are
latched in the core control registers, and no user gang changes. -/
def Obligations.SupervisorFaults : Prop :=
  ∀ (s : State) (is : Iss) (c cls cause info : Nat) (insn : List Byte) (lanes : List Nat) (x : Gang), is.ref = .sup c →
    gang? s is.ref = some x →
    let t := takeTrap s is cls cause info insn lanes
    let u := throwLanes s (.sup c) is.q.pc [(0, cause)] false none
    gang? t (.sup c) = some { x with halted := true } ∧ gang? u (.sup c) = some { x with halted := true }
    ∧ (∃ y, core? t c = some y ∧ y.svflt = true ∧ y.svfpc = is.q.pc ∧ y.svfcause = BitVec.ofNat 32 (cls + cause * 256))
    ∧ (∃ y, core? u c = some y ∧ y.svflt = true ∧ y.svfpc = is.q.pc ∧ y.svfcause = BitVec.ofNat 32 (5 + cause * 65536))
    ∧ ∀ a b, gang? t (.user a b) = gang? s (.user a b) ∧ gang? u (.user a b) = gang? s (.user a b)

/-- R52, R55, R56: lanes that throw begin an unwind of the group that the throwing gang's position chooses, with each lane, its code
and the address of the throw; every live gang of the group is stopped by it, no other gang changes, and no byte of memory changes. -/
def Obligations.ThrowsBeginAnUnwind : Prop :=
  ∀ (s : State) (c n pc l code : Nat) (ts : List (Nat × Nat)) (x : Gang) (cr : Crew) (ln : Launch), s.unwinds = [] →
    gang? s (.user c n) = some x → crew? s c = some cr → launch? s cr.launch = some ln → x.ended = none →
    let t := throwLanes s (.user c n) pc ((l, code) :: ts) false none
    ∃ u, t.unwinds = [(s.nextUnwind, u)] ∧ u.level = catchLevel x cr ln ∧ u.crew = c ∧ u.gang = n ∧ u.launch = cr.launch
      ∧ u.throws = ((l, code) :: ts).map (fun e => (c, n, e.1, e.2)) ∧ u.stops = [(c, n, pc)]
      ∧ (∀ g ∈ membersOf s u, ∀ y, gang? s g = some y → y.ended = none →
          (gang? t g).map (fun z => z.stopped) = some (some s.nextUnwind))
      ∧ (∀ g, g ∉ membersOf s u → gang? t g = gang? s g)
      ∧ ∀ a, t.mem.read a = s.mem.read a

/-- R55: where a throw is caught. A gang region opened at the present depths catches it; otherwise the region entered most recently
decides, and with none entered the crew's and then the launch's open regions; with no open region it is uncaught. While a partner of
a crew's MMA.P waits for the others, its throw passes over gang regions: the crew's, else the launch's, open region catches it
(notes/assumptions/22). -/
def Obligations.CatchLevels : Prop :=
  ∀ (x : Gang) (cr : Crew) (l : Launch),
    let launch := if l.stack = [] then 3 else 2
    (cr.half ≠ [] → (cr.stack ≠ [] → catchLevel x cr l = 1) ∧ (cr.stack = [] → catchLevel x cr l = launch))
    ∧ (cr.half = [] → (∀ e es, x.stack = e :: es → e.cd = crewDepth x → e.ld = launchDepth x → catchLevel x cr l = 0))
    ∧ (cr.half = [] → (∀ e es, x.stack = e :: es → e.cd ≠ crewDepth x ∨ e.ld ≠ launchDepth x) →
      (∀ es, x.entered = true :: es → catchLevel x cr l = 1)
      ∧ (∀ es, x.entered = false :: es → catchLevel x cr l = launch)
      ∧ (x.entered = [] → cr.stack ≠ [] → catchLevel x cr l = 1)
      ∧ (x.entered = [] → cr.stack = [] → catchLevel x cr l = launch))

/-- R109: an instruction of the emulation space that passes the checks of Table 5-8 waits for what it reads (R112); then it completes as a
NOP where its guard and the active lanes select no lane, and otherwise takes the emulation trap with the lanes selected. Lanes whose
operand in the backing store was uncorrectable throw instead (notes/assumptions/58 for the request that is then not made). -/
def Obligations.EmulationTraps : Prop :=
  ∀ (s : State) (is : Iss) (x : Emu) (c d a : Opd) (g : Guard) (form : Nat),
    let all := [Instr.idivU32 x, .iremU32 x, .idivU64 x, .iremU64 x, .idivS32 x, .iremS32 x, .idivS64 x, .iremS64 x, .fdivF32 x,
      .dadd x, .dmul x, .dfma x c, .ddiv x, .dsqrt g d a, .dcvt g form d a, .emu x]
    ∀ i ∈ all, issuer? s = some is → is.q.ended = false → suspended s is.ref is.gang = false → groupHeld s is = false →
      screen s is i = none →
      let ls := selLanes is.gang is.q (guardOf i)
      let bad := ls.filter (fun l => (spillBad is.gang i).getLsbD l)
      ((is.q.idle = true ∨ (ls = [] ∧ notReady is i = none)) → exec i s = .next (past s is i))
      ∧ (∀ why, is.q.idle = false → notReady is i = some why → exec i s = .next { s with blocked := some why })
      ∧ (is.q.idle = false → ls ≠ [] → notReady is i = none → (unfetched is.gang i).isEmpty = true →
          (bad = [] → exec i s = .next (issued (takeTrap s is 3 0 0 (insnBytes i) ls) is i))
          ∧ (bad ≠ [] → exec i s = .next (issued (throwLanes s is.ref is.q.pc (bad.map (fun l => (l, 0x800B))) false none) is i)))

/-- TRAP and the supervisor's instructions on requests (R313, R315 to R321). Two clauses are the model's choices: SVTHROW throws in the
trapping quad group only, where R320 and R52 differ (notes/assumptions/61), and an instruction that names an abandoned or an absent
request goes on as notes/assumptions/34 has it. -/
def Obligations.RequestFormsAnswer : Prop :=
  ∀ (s : State) (is : Iss) (a b data : Opd) (g : Guard) (n reg num adv k : Nat) (hi : Bool) (r : Request) (x : Gang) (core : Core)
    (u : State) (v : Nat),
    let c := coreOf s is.ref
    let sl := rdU s is a
    let put := fun (t : State) (x : Nat) => modGang t is.ref (fun y => wrS y n x)
    let onGang := actOn s c sl = some r ∧ gang? s r.gref = some x
    (mayRun s is (.trap a) = true → exec (.trap a) s = .next (issued
      (takeTrap s is 1 0 (sl % 2 ^ 16) (insnBytes (.trap a)) (activeLanes is.gang is.q)) is (.trap a)))
    ∧ (core? s c = some core → oldestRequest core = none → Answers (.mbxrdNext (.s n)) s is (put s (2 ^ 64 - 1)))
    ∧ (core? s c = some core → oldestRequest core = some k → requestIn s c k = some r →
        Answers (.mbxrdNext (.s n)) s is (put (if r.cancel then dropRequest s c k
          else modRequest s c k (fun r => { r with taken := true })) k))
    ∧ (requestIn s c sl = some r → Answers (.mbxrdWord (.s n) a b) s is (put s (requestWord r sl (rdU s is b))))
    ∧ (requestIn s c sl = none → Answers (.mbxrdWord (.s n) a b) s is (put s 0))
    ∧ Answers (.rdxv g (.v n) a reg hi) s is (sysLaunched s is .sysread (.v n) 0 (xvWords s is g sl reg hi))
    ∧ Answers (.rdxs (.s n) a num) s is (sysLaunched s is .sysread (.s n) (xsValue s is sl num) [])
    ∧ (onGang → writesFit r reg = true → xvWritten s is g x data reg hi ≠ [] →
        Answers (.wrxv g a data reg hi) s is (withWrites s c sl r reg (xvWritten s is g x data reg hi)))
    ∧ (onGang → xvWritten s is g x data reg hi = [] → Answers (.wrxv g a data reg hi) s is s)
    ∧ (actOn s c sl = none → Answers (.wrxv g a data reg hi) s is s ∧ Answers (.wrxs a b num) s is s
        ∧ Answers (.svret a adv) s is (dropAbandoned s c sl) ∧ Answers (.svthrow a b) s is (dropAbandoned s c sl))
    ∧ (actOn s c sl = some r → writeXsBits num (rdU s is b) = some v → writesFit r (scalarKey num) = true →
        Answers (.wrxs a b num) s is (withWrites s c sl r (scalarKey num) [(0, BitVec.ofNat 64 v)]))
    ∧ (actOn s c sl = some r → writeXsBits num (rdU s is b) = some v → writesFit r (scalarKey num) = false →
        Settles (.wrxs a b num) s is (supFault s c 6 0 0 is.q.pc))
    ∧ (actOn s c sl = some r → release s is.ref .dev = some (u, []) → Answers (.svret a adv) s is (returned u c sl r adv))
    ∧ (actOn s c sl = some r → Answers (.svthrow a b) s is (thrownAt s c sl r (rdU s is b)))

/-- R318: what WRXV and WRXS have put into the write set is what RDXV and RDXS of the same request read until it is answered. -/
def Obligations.WriteSetsReadBack : Prop :=
  ∀ (s : State) (r : Request) (x : Gang) (reg l num : Nat) (w : W64) (t : Tab W64), l < x.width → reg < 640 →
    readXv s { r with writes := Tab.put r.writes reg (Tab.put t l w) } x reg l = w.toNat
    ∧ (reg ≠ num → (Tab.find? r.writes num).isNone = true → num < x.n → num < 640 → spilledReg x num = false →
        readXv s { r with writes := Tab.put r.writes reg t } x num l = rdV x num l)
    ∧ (0x1000 ≤ num → num < 0x1080 →
        readXs s { r with writes := Tab.put r.writes (scalarKey num) [(0, w)] } x num = w.toNat)

/-- The system registers, bank modes, self-test and core retirement (R322 to R325): RDSYS enters flight with the register's value,
WRSYS writes; BANKSET, BIST and CORERET complete at once where nothing is left to do, and otherwise wait for their events. CORERET of a number with no
enabled core gives a free result, and a BIST that is refused leaves SY.BISTRES as it was (notes/assumptions/34). -/
def Obligations.SystemFormsAnswer : Prop :=
  ∀ (s : State) (is : Iss) (a b d : Opd) (n num c k : Nat) (mode : BankMode) (core : Core) (w : W64) (m : BankMode),
    let here := coreOf s is.ref
    let put := fun (t : State) (x : Nat) => modGang t is.ref (fun y => wrS y n x)
    let free := fun (t : State) => modGroup t is.ref is.grp (fun q => { q with waiting := .none })
    let hold := fun (t : State) (w : Waiting) => modGroup t is.ref is.grp (fun q => { q with waiting := w })
    let idle := is.q.waiting = .none
    let mask := BitVec.ofNat 32 (rdU s is a)
    let left := banksLeft core mask mode
    let arr := rdU s is a
    let pat := rdU s is b % 16
    Answers (.rdsys (.s n) num) s is (sysLaunched s is (sysKind num) (.s n) (sysRead s is.ref is.gang num) [])
    ∧ Answers (.wrsys d num) s is (sysWriteReg s is.ref num (rdU s is d))
    ∧ (is.q.waiting = .banks [] m → Answers (.bankset a mode) s is (free s))
    ∧ (idle → core? s here = some core → mask &&& ~~~(ownBanks s is) = 0 →
        left.any (fifoHolds s here) = false →
        (left = [] → Answers (.bankset a mode) s is s)
        ∧ (left ≠ [] → Waits (.bankset a mode) s is (hold s (.banks left mode)) .sync))
    ∧ (idle → core? s here = some core → mask &&& ~~~(ownBanks s is) ≠ 0 → activeLanes is.gang is.q ≠ [] →
        Throws (.bankset a mode) s is s (everyActive is 0x8007))
    ∧ (is.q.waiting = .bist (some w) → Answers (.bist (.s n) a b) s is (put (free s) w.toNat))
    ∧ (idle → (4 < arr ∨ 3 < pat) → Answers (.bist (.s n) a b) s is (put s 3))
    ∧ (idle → arr ≤ 4 → pat ≤ 3 → crewsAt s here ≠ [] → Answers (.bist (.s n) a b) s is (put s 2))
    ∧ (idle → arr ≤ 4 → pat ≤ 3 → crewsAt s here = [] → Waits (.bist (.s n) a b) s is
        (hold (modCore s here (fun x => { x with bist := some (arr, pat) })) (.bist none)) .sync)
    ∧ (is.q.waiting = .coreret c k → crewsAt s c = [] → Answers (.coreret (.s n) a) s is (put (free s) k))
    ∧ (idle → 639 < arr → Answers (.coreret (.s n) a) s is (put s 2))
    ∧ (idle → arr ≤ 639 → core? s arr = none →
        Answers (.coreret (.s n) a) s is (put (freshen s) (Config.freeValue s.fresh).toNat))
    ∧ (idle → arr ≤ 639 → core? s arr = some core → core.retired = true → Answers (.coreret (.s n) a) s is (put s 1))
    ∧ (idle → arr ≤ 639 → core? s arr = some core → core.retired = false →
        (crewsAt (retireCore s arr).1 arr = [] → Answers (.coreret (.s n) a) s is (put (retireCore s arr).1 (retireCore s arr).2))
        ∧ (crewsAt (retireCore s arr).1 arr ≠ [] →
            Waits (.coreret (.s n) a) s is (hold (retireCore s arr).1 (.coreret arr (retireCore s arr).2)) .sync))

/-! ### Events: the steps that no instruction makes -/

/-- The ends of instructions in flight (R114, R115, R197, R199, R212, R218, R220, R224, R239, R242, R345, R356): one lane of a load or
atomic returns and is performed, or opens its window, or throws; a window closes with the write; RDSYS and its kin write their destinations; a fence
ends once its release is made; a spilled operand arrives; of the entries of a store that may leave the scope buffer one is written where
it belongs, which of several is free; and a store on its way to host or peer memory arrives. -/
def Obligations.FlightEvents : Prop :=
  ∀ (s : State) (g : GRef) (op l v n : Nat) (x : Gang) (f : Flight) (e : Elem) (a : AtomOp) (u : State) (bad : Mask)
    (b : StoreEnt) (m : SysEnt), gang? s g = some x →
    let ready := drainChoices s g x n
    (ready = [b] → exec (.bufDrain g n) s = .next (throwMany (drainEntry s g b).1 g (drainEntry s g b).2))
    ∧ (1 < ready.length → ready[(Config.freeValue s.fresh).toNat % ready.length]? = some b →
        exec (.bufDrain g n) s = .next (throwMany (drainEntry (freshen s) g b).1 g (drainEntry (freshen s) g b).2))
    ∧ (ready = [] → exec (.bufDrain g n) s = .next s)
    ∧ (x.sysq.find? (fun b => b.seq == n) = some m → exec (.sysStoreComplete g n) s = .next (sysArrive s g m))
    ∧ (x.vbound - x.vbase ≤ n → n < x.n → (∀ p ∈ x.spilled, p.1 ≠ n) →
        let mask := (bad ||| spillLost s (coreOf s g) x n) &&& BitVec.ofNat 64 (maskOf (homedLanes x n))
        exec (.spillReadReturn g n bad) s
          = .next (modGang (spillFetched s g x n) g (fun y => { y with spilled := y.spilled ++ [(n, some mask)] })))
    ∧ (flightOf? s g op = some (x, f) →
    let ret := fun (t : State) => exec (.loadDataReturn g op (BitVec.ofNat 64 (2 ^ l))) s = .next t
    let lane := l < 64 ∧ f.elems.find? (fun e => e.lane == l) = some e
    let may := lane ∧ onCore s g = true ∧ e.win = none ∧ elemReady s g x f e = true ∧ windowHeld s g f e = false
    let clear := may ∧ bankGone s g e = false ∧ cutOff s g x f e = false
    let once := clear ∧ windowed s g f e = false
    (once → (performElem s g f e).2 = false → ret (settleFlight (performElem s g f e).1 g op))
    ∧ (once → (performElem s g f e).2 = true →
        ret (throwMany (settleFlight (dropElem (performElem s g f e).1 g op l) g op) g [(l, f.pc, 0x800B)]))
    ∧ (clear → windowed s g f e = true → (openWindow s g f e).2 = false →
        ret (settleFlight (openWindow s g f e).1 g op))
    ∧ (may → (bankGone s g e = true ∨ cutOff s g x f e = true) → ret (throwMany (settleFlight (dropElem s g op l) g op) g [(l, f.pc, 0x8007)]))
    ∧ (lane → f.kind = .atomic a → e.win = some v →
        exec (.atomicComplete g op l) s = .next (settleFlight (windowClosedAt s g f e a v) g op))
    ∧ (f.kind = .sysread → exec (.sysreadComplete g op) s = .next (finishRead s g f))
    ∧ (f.kind = .fence → fenceRelease s g x f = some (u, []) → exec (.fenceComplete g op) s = .next (fenceEnded u g f)))

/-- R242 and R243: a load whose elements are all performed writes what each lane received to its destination register, both halves of a
pair, and to the predicate of LD.RP whether the lane's page was there; lanes it does not name keep theirs, and its completion counter is
one lower. With a queue register it pushes one entry, 0 in the lanes it does not name (R122). -/
def Obligations.LoadsWriteTheirDestinations : Prop :=
  ∀ (s : State) (g : GRef) (x : Gang) (f : Flight) (n : Nat), gang? s g = some x →
    (f.elems.map (fun e => e.lane)).Nodup → (∀ e ∈ f.elems, e.lane < 64) →
    let w := if f.size.is64 then 64 else 32
    let idle := fun (l : Nat) => ∀ e ∈ f.elems, e.lane ≠ l
    ∃ y, gang? (finishFlight s g f 0) g = some y
      ∧ (f.dst = .v n → (∀ e ∈ f.elems, rdVw y n e.lane f.size.is64 = laneResult f e % 2 ^ w)
        ∧ (∀ m l, l < 64 → ((m ≠ n ∧ (f.size.is64 = true → m ≠ n + 1)) ∨ idle l) → rdV y m l = rdV x m l))
      ∧ (∀ q, f.dst = .q q → (∀ m l, rdV y m l = rdV x m l) ∧ (qcfgUsable s g (qCfg s g q) = true → (crewOf? s g).isSome = true →
          ∃ e, (qFifo (finishFlight s g f 0) g q).entries = (qFifo s g q).entries ++ [e]
            ∧ (∀ o ∈ f.elems, Tab.get 0#32 e.words o.lane = BitVec.ofNat 32 (laneResult f o)) ∧ ∀ l, idle l → Tab.get 0#32 e.words l = 0))
      ∧ (∀ p, 0 < p → p < 16 → f.rp = some p → ∀ e ∈ f.elems, rdP y p e.lane = !e.absent)
      ∧ (∀ p l, p < 16 → (p = 0 ∨ f.rp ≠ some p ∨ idle l) → rdP y p l = rdP x p l)
      ∧ (∀ k, rdK y k = if f.ctr = some k then rdK x k - 1 else rdK x k)
      ∧ (∀ h ∈ y.flights, h.id ≠ f.id) ∧ y.s = x.s ∧ y.cnt = x.cnt ∧ y.c = x.c

/-- A store that leaves the buffer writes its bytes and no other: in the scratchpad of its crew; in device memory at the home point,
where it is released at DEV or SYS and the core holds no older dirty copy of them (to make room there a slice may write dirty bytes of host
or peer lines back, those alone); or in the copies of its core, dirty, with memory as before, where the core has room for them. In a whole element every byte but the
first is tied there to the one before it, with which it goes to H in one step (R209). -/
def Obligations.StoresWriteTheirBytes : Prop :=
  ∀ (s : State) (g : GRef) (e : StoreEnt) (o pa c : Nat) (cr : Crew),
    let t := (drainEntry s g e).1
    let k := e.bytes.length
    let put := fun (a b : Nat) (old : Byte) => if a ≤ b ∧ b < a + k then (e.bytes[b - a]?).getD 0 else old
    let pt := atPoint s (coreOf s g) (pointOf (gangPair s g) e.scope)
    let may := e.place = .phys pa ∧ e.leafW = true ∧ refusalOf s (classOf g) (ctxOf s g) pa .write = none ∧ regionOf pa ≠ .regs
      ∧ ∀ c, crewIdOf g = some c → stamped s c = none
    let clean := ∀ i v, i < k → coreCopy? s (coreOf s g) (pa + i) = some v → v.dirty = false
    let was := fun (b : Nat) => (core? s (coreOf s g)).bind (fun y => Tab.find? y.cp b)
    (e.place = .scr o → crewIdOf g = some c → crew? s c = some cr → scrMode s cr o = true → 0 < k →
      (∀ b, (crew? t c).map (fun y => y.scr.read b) = some (put o b (cr.scr.read b))) ∧ ∀ b, t.mem.read b = s.mem.read b)
    ∧ (may → pt = .home → clean → (∀ i, i < k → homeIsMem s (pa + i) = true) →
        ∀ b, (∀ v, Tab.find? s.hcopy b = some v → v.dirty = false) → t.mem.read b = put pa b (s.mem.read b))
    ∧ (may → pt = .core → e.scope ≠ .sys → (∃ y, core? s (coreOf s g) = some y ∧ y.cp.length + k ≤ cacheLines y) → (∀ b, t.mem.read b = s.mem.read b)
        ∧ ∀ b, (core? t (coreOf s g)).bind (fun y => Tab.find? y.cp b)
          = if pa ≤ b ∧ b < pa + k then some ⟨(e.bytes[b - pa]?).getD 0, true, (wholeElem pa k && decide (pa < b)) || stillTied (was b)⟩ else was b)

/-- Copies of lines and accesses from outside (R199, R200, R204, R206, R210, R214, R234, R257, R334, R358, R359): write-backs, discards and
fetches, each of one byte, but that the dirty bytes of one element are written back together (R209); words of the backing store among them
(R115); uncorrectable errors; the host's snoops, accesses and answers, which count at its port (R351); accesses of peers, to device memory
and to their own. That a block which the host owns is reached as its own memory is, so that the host's accesses snoop the line at its
home point, is the model's reading (notes/assumptions/37). -/
def Obligations.LineEvents : Prop :=
  ∀ (s : State) (c pa ctx n : Nat) (bs : List Byte) (ls : List Nat) (x : Core) (cr : Crew),
    let w := fun (b : Option (List Byte)) => if b.isSome then AKind.write else .read
    let keep := fun (p : Nat × Copied) => p.2.dirty || p.1 != pa
    let hosted := fun (k : AKind) (len : Nat) => outerAccess s 0x900 pa len (k == .read)
    let wired := countWire s 0x900 false
    let owned := s.hostOwned.contains (pa / 4096)
    let dropped := fun (t : State) =>
      let t := { t with hcopy := t.hcopy.filter keep }
      if farZero t (pa / 128) then t else setZeroFar t (pa / 128) false
    let mine := fun (k : AKind) => s.hostPortDown = false ∧ refusalOf s .host ctx pa k = none ∧ deviceStopped s = false ∧ isDeviceMem pa = true
    (spillPending s c pa = true → exec (.coreWriteBack (some c) pa) s = .next (spillsHome s c (fun a => a / 4 == pa / 4)))
    ∧ (∀ v, spillPending s c pa = false → coreCopy? s c pa = some v → v.dirty = true →
        exec (.coreWriteBack (some c) pa) s = .next (coreWriteBack (countHome s c pa) c pa))
    ∧ (spillPending s c pa = false → (∀ v, coreCopy? s c pa = some v → v.dirty = false) → exec (.coreWriteBack (some c) pa) s = .next s)
    ∧ (homeIsMem s pa = true → exec (.coreWriteBack none pa) s = .next (l2WriteBack s (pa / 128)))
    ∧ (homeIsMem s pa = false → reachable s pa = true → exec (.coreWriteBack none pa) s = .next (homeWriteBack s pa))
    ∧ exec (.copyDiscard (some c) pa) s = .next (modCore s c (fun y => { y with cp := y.cp.filter keep }))
    ∧ (Tab.find? s.l2 (pa / 128) = none → exec (.copyDiscard none pa) s = .next (dropped s))
    ∧ (∀ l, Tab.find? s.l2 (pa / 128) = some l → l.dirty = false →
        exec (.copyDiscard none pa) s = .next (dropped (l2Evict s (pa / 128))))
    ∧ (copyable s pa = true → exec (.copyFetch none pa) s = .next (homeFill s pa [pa]))
    ∧ (copyable s pa = true → atPoint s c .core = .core → coreCopy? s c pa = none →
        exec (.copyFetch (some c) pa) s = .next (coreFill (homeFill s pa [pa]) c pa [pa]))
    ∧ exec (.eccUncorrectable (.memLine pa)) s = .next (markLost s pa)
    ∧ exec (.eccUncorrectable (.mapWord ls)) s = .next ((mapLines ls).foldl (fun s l => markLost s (128 * l)) s)
    ∧ exec (.eccUncorrectable (.codeLine c pa)) s
        = .next (modCore s c (fun y => { y with icache := Tab.upd y.icache (pa / 128) (fun l => { l with bad := true }) }))
    ∧ (crew? s c = some cr → scrMode s cr pa = true → exec (.eccUncorrectable (.scratchLine c pa)) s
        = .next (modCrew s c (fun cr => { cr with lostScr := Tab.put cr.lostScr (pa / 128) (BitVec.allOnes 128) })))
    ∧ (core? s c = some x → (∀ p ∈ x.cp, p.1 / 128 = pa / 128 → p.2.dirty = false) → (∃ p ∈ x.cp, p.1 / 128 = pa / 128) →
        exec (.eccUncorrectable (.cacheLine c pa)) s
          = .next (modCore s c (fun y => { y with cp := y.cp.filter (fun p => p.1 / 128 != pa / 128) })))
    ∧ (hostHolds s pa = true → s.hostPortDown = false →
        exec (.hostSnoop pa bs) s = .next (sysWriteFrom (snoopRange wired pa bs.length) pa bs))
    ∧ (∀ b, mine (w b) → owned = false → exec (.hostMemAccess pa ctx b n) s = .next (match b with
          | some bs => { homeWriteN (hosted .write bs.length) pa bs with hostDir := s.hostDir }
          | none => (linesTouched pa (max 1 n)).foldl recordHost (hosted .read n)))
    ∧ (mine .write → owned = true →
        exec (.hostMemAccess pa ctx (some bs) n) s = .next (sysWriteFrom (snoopRange (hosted .write bs.length) pa bs.length) pa bs))
    ∧ (mine .read → owned = true → (s.ownreq.dir = false ∨ s.ownreq.marked ≠ some (pa / 4096)) →
        exec (.hostMemAccess pa ctx none n) s = .next (snoopRange (hosted .read n) pa n))
    ∧ (∀ b, s.hostPortDown = true ∨ (refusalOf s .host ctx pa (w b)).isSome = true → exec (.hostMemAccess pa ctx b n) s = .next s)
    ∧ (isDeviceMem pa = true → refusalOf s .peer ctx pa .write = none → exec (.peerMemAccess pa ctx (some bs) n) s
        = .next (sysWriteFrom ((List.range bs.length).foldl (fun s i => homeWriteBack s (pa + i))
            (outerAccess s 0x902 pa bs.length false)) pa bs))
    ∧ (regionOf pa = .peer → exec (.peerMemAccess pa ctx (some bs) n) s = .next (peerOwnWrite s pa bs))
    ∧ (s.hostDir.contains (pa / 128) = true → exec (.backInvalidateResponse pa none) s
        = .next { wired with hostDir := wired.hostDir.filter (fun l => l != pa / 128) })

/-- The engines and the waits of R197, R206, R247, R248, R253: a copy segment starts, what of
a piece can move is moved (notes/assumptions/36), a copy completes; a matrix
command starts and ends; a bank switches; PERSIST, ICINV.DEV and WAITA go on. -/
def Obligations.EngineEvents : Prop :=
  ∀ (s : State) (g : GRef) (core idx i p bank n grp : Nat) (x : Core) (m : CopyCmd) (mode : BankMode) (y : Gang)
    (rs : List (Nat × Nat)) (u : State),
    (core? s core = some x → (startable x.copyQ)[(Config.freeValue s.fresh).toNat % (startable x.copyQ).length]? = some i →
      exec (.copySegmentStart core) s = .next (modCore (freshen s) core (fun x =>
        { x with copyQ := x.copyQ.modify i (fun m => { m with segs := m.segs + 1 }) })))
    ∧ (core? s core = some x → startable x.copyQ = [] → exec (.copySegmentStart core) s = .next s)
    ∧ (copyAt? s core idx = some m → pieceOpen m p = true → exec (.copyPieceWritten core idx p) s = .next (copyPiece s core idx m p))
    ∧ (copyAt? s core idx = some m → (∀ k, k < copyPieces m → k ∈ m.done) →
        exec (.copyComplete core idx) s = .next (copyDone s core idx m))
    ∧ exec (.matrixCommandStart core) s = .next (startMx s core)
    ∧ exec (.matrixCommandComplete core) s = .next (endMx s core)
    ∧ (switching s g bank = some mode → engineNames s (coreOf s g) bank = false → fifoHolds s (coreOf s g) bank = false →
        exec (.bankSwitchApply g bank) s = .next (bankSwitched s g bank mode))
    ∧ (gang? s g = some y → persistOf y = some n → releaseTo s g .sys n s.cycle.toNat = some (u, []) →
        exec (.persistComplete g) s = .next (throwMany (persisted u g n) g []))
    ∧ (gang? s g = some y → icinvOf y = some rs → release s g .dev = some (u, []) → exec (.icinvComplete g) s
        = .next (waitDone { u with cores := Tab.mapVals (fun _ c => dropLines rs c) u.cores } g (.icinv rs false) (.icinv rs true)))
    ∧ exec (.waitaPoll g grp) s = .next (modGroup s g grp (fun q =>
        { q with watch := q.watch.map (fun w => if w.held then w else { w with due := true }) }))

/-- Unwinds end and crews come and go (R36, R37, R40, R42 to R47, R56, R59, R146, R264, R370, R401, R406), and what an unwind that ends
writes into the record of each crew (R60 to R62, R65, R340 to R342). These are the model's choices: when SPAN_LAUNCH_UNWIND begins or joins an
unwind, and that what other modules threw is free (notes/assumptions/21); the room in the queues that a resumption waits for, and that the
crews of a cooperative launch resume together (32); no placement during an unwind of the launch (64); marks of lost lines
that are saved with a crew (89); GMASK over several crews (62). -/
def Obligations.CrewEvents : Prop :=
  ∀ (s s₁ s₂ t : State) (k c core ctx grp launch count : Nat) (u w : Unwind) (cr : Crew) (l : Launch) (g : GRef) (ss : List Seat)
    (fs : List (GRef × (Nat × Nat × Nat))),
    let placed := (s.launches.filter (fun p => mayPlace s p.1 p.2)).findSome? (fun p => placeNext s false p.2.nreg p.1)
    let own := { s with fresh := s.fresh + 4097 }
    let begun := s.unwinds.filter (fun p => !p.2.closed && spanWide s p.2 && p.2.launch == launch)
    (Tab.find? s.unwinds k = some u → u.closed = true → crewsHere s u = true → cancelWork s k u = (s₁, true) →
        Tab.find? s₁.unwinds k = some w → releaseMembers s₁ w (membersOf s₁ w) = some (s₂, fs) →
        exec (.unwindComplete k) s = .next (throwEach (stopSteered (unwound s₂ k w)) fs))
    ∧ (c ∈ crewsOf s u → (crewsOf s u).Nodup → crew? s c = some cr → launch? s u.launch = some l → u.level < 4 → u.depth < 16 →
        gangMask s u < 2 ^ 32 → (∀ t ∈ throwsOf s u, t.code < 2 ^ 16 ∧ t.gang < 32 ∧ t.lane < 64 ∧ t.lin < 2 ^ 32) →
        ∃ y, crew? (unwound s k u) c = some y ∧ RecordSays s u c cr l y.rcd)
    ∧ (Tab.find? s.unwinds k = some u → u.closed = true → crewsHere s u = true → cancelWork s k u = (s₁, false) →
        exec (.unwindComplete k) s = .next s₁)
    ∧ (Tab.find? s.unwinds k = some u → u.closed = false ∨ crewsHere s u = false → exec (.unwindComplete k) s = .next s)
    ∧ (launch? s launch = some l → l.span ≠ none → begun = [] → exec (.spanLaunchUnwind launch) s = .next (beginUnwind own
        { level := if l.stack.isEmpty then 3 else 2, crew := 0, gang := 0, launch := launch, catchPc := l.stack.getLast?.getD 0
          depth := l.stack.length, throws := [], cycle := s.cycle.toNat, svcodes := [], kept := none, stops := [], cancelled := []
          closed := false, remote := remoteThrows s 1, heard := true, steered := [] }))
    ∧ (∀ us, launch? s launch = some l → l.span ≠ none → begun = (k, u) :: us →
        exec (.spanLaunchUnwind launch) s = .next (if u.heard then s
          else { own with unwinds := Tab.put s.unwinds k { u with heard := true, remote := u.remote ++ remoteThrows s 0 } }))
    ∧ exec (.candidatePromote g grp) s = .next (modGroup s g grp (fun q => if q.passed ≥ 4096 then { q with promoted := true } else q))
    ∧ exec (.svyieldTimeout core) s = .next (modGang s (.sup core) (fun x => { x with groups := x.groups.map (fun q =>
        match q.yieldAt with
        | some t => if t + 4096 ≤ s.cycle.toNat then { q with yieldAt := none } else q
        | none => q) }))
    ∧ exec (.preemptRequest ctx) s = .next { s with crews := Tab.mapVals (fun _ cr => haltIn s ctx cr) s.crews }
    ∧ (crew? s c = some cr → cr.halting = true → cr.phase = .resident → settleUnwinds s c = (s₁, true) → crewSavable s₁ c = true →
        let cut := (crewCores s₁ c).foldl (fun s k => finishCopies s c k) s₁
        (crewCores cut c).all (copiesSavable cut c) = true → drainCrew cut c (cr.gangs.map (fun p => p.1)) = some t →
        exec (.crewSave c) s = .next (crewSaved t c cr))
    ∧ (crew? s c = some cr → launch? s cr.launch = some l → launchOf? s (.user c 0) = some l → l.coop = false → cr.phase = .saved →
        queueRoom s core 0 cr = true → (l.pair = true → queueRoom s (core + 1) 1 cr = true) →
        seats s false l.nreg core l (some (cr.banks0, cr.banks1)) = some (count, ss) →
        exec (.crewResume c core) s = .next (crewResumed s c core cr l count ss))
    ∧ (launchOf? s (.user c 0) = some l → l.coop = true → resumeAll s l c core = some t → exec (.crewResume c core) s = .next t)
    ∧ (launchOf? s (.user c 0) = some l → (if l.coop then resumeAll s l c core else resumeAt s false l.nreg c core) = none →
        exec (.crewResume c core) s = .next s)
    ∧ (placed = some t → exec .crewPlace s = .next t) ∧ (placed = none → exec .crewPlace s = .next s)
    ∧ (crew? s c = some cr → crewOver s c cr = true → drainCrew s c (cr.gangs.map (fun p => p.1)) = some t → onSysWay t c = false →
        exec (.crewEnd c) s = .next (crewGone t c cr))

/-- Launch queues, completion, beats, spans and the lead (R15, R127, R257 to R263, R269 to R272, R364, R370). Two clauses are the model's
choices: the heartbeats of all four headframes are looked at together, with a mask of those that missed, where R364 speaks of the lead
(notes/assumptions/39); and the exchange of a launch barrier's count with other modules (notes/assumptions/41). -/
def Obligations.QueueEvents : Prop :=
  ∀ (s t : State) (q k n modules d : Nat) (l l' : Launch) (ps : List (Nat × Nat)) (missed : BitVec 4) (b : W32),
    let home := settleHome s
    let put := hfLocate home l'.queue l'.ctx (some k) true (pagePieces l'.compl 1024)
    let beats := [0, 1, 2, 3].foldl (fun t d => modDie t d (beatMissed missed s.lead d)) s
    let gone := modDie s s.lead (fun d => { d with failed := true })
    exec (.tailRead q) s = .next (readTail s q) ∧ exec (.dependenceWatch q) s = .next (lookHead s q)
    ∧ exec (.tailPollTimer q) s = .next (if s.cycle.toNat ≥ (queueOf s q).lastPoll + 65536 then readTail s q else s)
    ∧ (s.launches.length < 256 → exec .launchAccept s
        = .next (acceptFrom (serveOrder (lookAll s) (queuesWith (lookAll s) (ready (lookAll s)))) (lookAll s)))
    ∧ (256 ≤ s.launches.length → exec .launchAccept s = .next s)
    ∧ (launch? s k = some l → launchOver s k l = false → exec (.completionWrite k) s = .next s)
    ∧ (launch? s k = some l → launchOver s k l = true → launch? home k = some l' → put = .ok t ps →
        exec (.completionWrite k) s = .next (entryWritten t k l' ps))
    ∧ (launch? s k = some l → launchOver s k l = true → launch? home k = some l' → put = .bad t →
        exec (.completionWrite k) s = .next (entryLost t k l'))
    ∧ (s.cycle.toNat % 2 ^ s.beat.toNat = 0 → let v := batchesClosed (if s.exchanging then mergedState s else s)
        exec .beatEnd s = .next (if v.beatNext.isSome then soon v .beatWrite else v))
    ∧ (s.beatNext = some b → s.cycle.toNat % 2 ^ s.beat.toNat = 0 → exec .beatWrite s = .next { s with beat := b, beatNext := none })
    ∧ (s.exchanging = true → exec .mergeComplete s = .next (mergedState s))
    ∧ (launch? s k = some l → l.span ≠ none → n < 4 → exec (.lbarCountExchange k n modules) s
        = .next (lbarRelease (modLaunch s k (fun l => { l with spanArr := Tab.set 0 l.spanArr n modules })) k n))
    ∧ (missed.getLsbD s.lead = false → exec (.heartbeat missed) s = .next { beats with missed := 0 })
    ∧ (missed.getLsbD s.lead = true → s.missed < 3 → exec (.heartbeat missed) s = .next { beats with missed := s.missed + 1 })
    ∧ (missed.getLsbD s.lead = true → 3 ≤ s.missed → exec (.heartbeat missed) s
        = .next (soon { beats with missed := s.missed + 1 } .failover))
    ∧ (4 ≤ s.missed → [0, 1, 2, 3].find? (fun d => !(Tab.get Die.reset gone.dies d).failed) = some d →
        exec .failover s = .next (raiseEvent (rereadEntries { gone with lead := d, missed := (Tab.get Die.reset gone.dies d).missed }) 7 d))

/-- Claims, translation, ownership and page requests (R332, R338, R339, R357, R360 to R363, R366, R367). -/
def Obligations.HostEvents : Prop :=
  ∀ (s : State) (e block fn tag stat c op : Nat) (es : List Nat) (fwd : Bool) (dirty : List (Nat × Byte)) (r : PageReq) (p : PageOp),
    let quiet := fun (f : GRef → Nat → Bool) => (allGangs s).any (fun g => onTheWay g.2 (f g.1)) = false
    let gone := s.xlats.filter (tinvDrops s.tinv)
    let fls := flushBlock s block
    let dev := (blockLines block).foldl farDrop ((s.hcopy.filter (fun p => inBlock block p.1)).foldl (fun s p => homeWriteBack s p.1) s)
    let done := { s with pageOps := s.pageOps.filter (fun o => !(o.crew == c && o.op == op)) }
    let held := fun (ctx pa : Nat) => gone.any (fun x => x.ctx == ctx && xlatHolds x pa)
    let kept := (allGangs s).foldl (fun s g => dropPages s g.1 (tinvDrops s.tinv)) s
    ((claim s e).state = 1 → (claim s e).deadline ≤ s.cycle.toNat → exec (.claimDeadline e) s = .next (deliverClaim s e true false 2))
    ∧ exec .evnext s = .next (takeOffer s) ∧ exec (.evans e fwd) s = .next (answerClaim s e fwd)
    ∧ exec (.evack e) s = .next (ackClaim s e)
    ∧ (s.ring.waiting = e :: es → eventRingOpen s = true → exec .eventRingWrite s = .next (eventWritten s e es))
    ∧ (s.tinv.busy = false → exec .tinvGo s = .next (tinvStart s))
    ∧ (s.tinv.busy = true → quiet (fun g pa => held (ctxOf s g) pa) → copyOnTheWay s held = false → exec .tinvDone s
        = .next { kept with xlats := kept.xlats.filter (fun x => !tinvDrops kept.tinv x), tinv := { kept.tinv with busy := false } })
    ∧ exec .ownreqGo s = .next (ownreqStart s)
    ∧ (s.ownreq.dir = false → s.ownreq.marked = some block → quiet (fun _ => inBlock block) →
        copyOnTheWay s (fun _ pa => inBlock block pa) = false → exec (.ownToHostFlip block) s
        = .next (ownNext { fls with hostDir := fls.hostDir.filter (fun l => l / 32 != block), hostOwned := fls.hostOwned ++ [block] }))
    ∧ (s.ownreq.dir = true → s.ownreq.marked = some block →
        let back := (dirty.filter (fun p => inBlock block p.1)).foldl (fun s p => sysWrite s p.1 p.2) dev
        exec (.ownToDeviceFlip block dirty) s = .next (ownNext { back with hostOwned := back.hostOwned.filter (fun b => b != block) }))
    ∧ (s.pageReqs.find? (fun r => r.fn == fn && r.tag.isNone && r.answer.isNone) = some r → pageRingOpen s fn = true →
        (freeTags s fn)[(Config.freeValue s.fresh).toNat % (freeTags s fn).length]? = some tag →
        exec (.pageRequestWrite fn) s = .next (pageWritten (freshen s) fn r tag))
    ∧ (stat ≤ 1 → s.pageReqs.find? (fun r => r.fn == fn && r.tag == some tag) = some r → exec (.pageReply fn tag stat) s
        = .next (answered (r.waiters.foldl (answerNotice tag) s) r (stat == 1)))
    ∧ (s.pageReqs.find? (fun r => r.fn == fn && r.tag == some tag) = none → stat ≤ 1 → exec (.pageReply fn tag stat) s
        = .next { s with late := s.late ++ [.replyBad fn] })
    ∧ (s.pageOps.find? (fun p => p.crew == c && p.op == op) = some p → p.pages = [] → exec (.pagereqResolve c op) s
        = .next (if p.fault then resolveOp done c op .faulted (0x8002 * 2 ^ 16) else resolveOp done c op .ok 0))

/-- Starts, resets, attestation, margining, self-test and the supervisor (R324, R365, R384 to R395, R408). The report's
fields stand in the order R392 lists them, the nonce first (notes/assumptions/52). -/
def Obligations.StartEvents : Prop :=
  ∀ (s : State) (fn core port errors rows row arr pat : Nat) (f : Option (Nat × Nat)) (bad : List Nat) (x : Core),
    let w := bistWord rows row
    let scanned := { lmargOf s port with scan := none, errors := min errors (2 ^ 32 - 1) }
    (1 ≤ fn → fn ≤ 16 → exec (.functionLevelReset fn) s = .next (functionReset s fn))
    ∧ exec .powerOn s = .next { s with start := { s.start with kind := 0, state := 1, pending := some false } }
    ∧ (s.start.pending = some false → exec (.startCold f bad) s = .next (startSteps (coldKeep s) false f bad))
    ∧ (s.start.pending = some true → s.start.wfail ≠ 3 → exec (.startWarm f bad) s = .next (startSteps (warmKeep s) true f bad))
    ∧ exec .attestGo s = .next (attestStart s)
    ∧ (s.attestGo = true → ∃ t, exec .attestDone s = .next t ∧ t.attestGo = false ∧ t.attestDone = true ∧ t.mem = s.mem
        ∧ ∀ i, i < 64 → Tab.get 0#8 t.attest (0x100 + i) = Tab.get 0#8 s.attest i)
    ∧ (port ≤ 18 → exec (.lmargGo port) s = .next (lmargStart s port))
    ∧ ((lmargOf s port).scan ≠ none → exec (.lmargScanDone port errors) s
        = .next { s with lmarg := Tab.set Lmarg.reset s.lmarg port scanned, late := s.late ++ [.scanDone port] })
    ∧ (core? s core = some x → x.svflt = true → exec (.supervisorRestart core) s
        = .next (modCore (supForgets s core) core (fun x =>
            { x with svflt := false, sup := some ((x.sup.map (supAgain x.sventry)).getD (supGang x.sventry)) })))
    ∧ (core? s core = some x → x.bist = some (arr, pat) → exec (.bistComplete core rows row) s
        = .next (raiseEvent (modGang (modCore (testedArray s core arr) core (fun x =>
            { x with bist := none, bistres := BitVec.ofNat 64 (w % 2 ^ 48 + arr % 8 * 2 ^ 48 + pat % 16 * 2 ^ 52) })) (.sup core)
            (fun g => { g with groups := g.groups.map (fun q =>
              if q.waiting = .bist none then { q with waiting := .bist (some (BitVec.ofNat 64 w)) } else q) })) 11 core))

/-- Register writes and ticks (R122, R334, R350, R353 to R355, R365). Two points of a tick are the model's choices: the order of its events,
latch, records, clear and new settings (notes/assumptions/14), and that CLR clears at an edge with EN 0 too (notes/assumptions/40). -/
def Obligations.RegisterEvents : Prop :=
  ∀ (s : State) (c n q word target ctx pa : Nat) (val : W64) (v : BitVec 16) (en : Bool) (k : Nat) (ma : List W32),
    let a := fun (d i : Nat) => ((ma[5 * d + i]?).map (fun w => w.toNat)).getD 0
    exec (.qcfgWrite c n) s = .next s
    ∧ (q < 64 → exec (.lqConfigWrite q word val) s = .next (lqPut s q word val.toNat))
    ∧ exec (.accessTableWrite target ctx v) s = .next (accessPut s target ctx v.toNat)
    ∧ (s.hostPortDown = false → deviceStopped s = false → pa < 2 ^ 52 → regionOf pa = .regs →
        exec (.registerWrite pa val) s = .next (regPut s true ((pa - regBase) / 8 * 8) val.toNat))
    ∧ (s.hostPortDown = false → deviceStopped s = false → 2 ^ 52 ≤ pa →
        exec (.registerWrite pa val) s = .next (vfPut s (pa / 2 ^ 52) (pa % 2 ^ 52 / 8 * 8) val.toNat))
    ∧ (s.tick.next = some (en, k) → atEdge s = true → exec .tickConfigWrite s
        = .next { s with tick := { s.tick with en := en, klog := k, next := none } })
    ∧ (s.tick.clr = true → atEdge s = true → exec .tickClear s = .next { s with
        tick := { s.tick with clr := false }, live := [], wrote := s.wrote ++ allCounters s
        dies := Tab.mapVals (fun _ (d : Die) => { d with live := [] }) s.dies
        cores := Tab.mapVals (fun _ (c : Core) => { c with live := [] }) s.cores })
    ∧ (atEdge s = true →
        let t := if s.tick.en then ticked s else s
        let t := if t.tick.next.isSome then soon t .tickConfigWrite else t
        exec .tickEdge s = .next (if t.tick.clr then soon t .tickClear else t))
    ∧ (s.tick.en = true → s.cycle.toNat % 1250 = 0 → exec (.currentSample ma) s = .next ([0, 1, 2, 3].foldl (fun s d => traceRecord s
        ([2 + d * 2 ^ 8, s.cycle.toNat, a d 0 + a d 1 * 2 ^ 32, a d 2 + a d 3 * 2 ^ 32, a d 4] ++ dieCorr s d)) s))

/-- Power, cooling, links and the clock (R19, R299, R349, R352, R356, R369, R396). -/
def Obligations.PowerEvents : Prop :=
  ∀ (s : State) (mw sensor port lane : Nat),
    let x := { portOf s port with retired := (portOf s port).retired ||| BitVec.ofNat 16 (2 ^ lane) }
    let hot := { s with power := mw, powerEngaged := true }
    let cut := raiseEvent { s with ports := Tab.upd s.ports port (fun _ => x) } 6 (port + lane * 2 ^ 8)
    (powerLimitNow s ≤ mw → s.powerEngaged = false → exec (.powerLimit mw) s = .next (raiseEvent hot 8 mw))
    ∧ (powerLimitNow s ≤ mw → s.powerEngaged = true → exec (.powerLimit mw) s = .next hot)
    ∧ (mw < powerLimitNow s → exec (.powerLimit mw) s = .next s)
    ∧ (0 < powerLimitNow s → ∃ t, exec .powerBelowLimit s = .next t ∧ t.power < powerLimitNow s ∧ t.powerEngaged = false ∧ t.mem = s.mem)
    ∧ (s.coldPlate.contains sensor = false →
        exec (.coldPlateLimit sensor) s = .next (raiseEvent { s with coldPlate := s.coldPlate ++ [sensor] } 12 sensor))
    ∧ exec (.coldPlateInRange sensor) s = .next { s with coldPlate := s.coldPlate.filter (fun x => x != sensor) }
    ∧ exec (.junctionTrip sensor) s = .next (raiseEvent { s with stoppedClock := true } 12 sensor)
    ∧ (port < 18 → lane < 8 → trained s port = true → (portOf s port).retired.getLsbD lane = false → exec (.linkLaneFail port lane) s
        = .next (if (List.range 8).all (fun i => x.retired.getLsbD i) then soon cut (.linkDown port) else cut))
    ∧ (port < 18 → trained s port = true → (portOf s port).down = false → exec (.linkDown port) s
        = .next (raiseEvent { s with ports := Tab.upd s.ports port (fun x => { x with down := true }) } 6 port))
    ∧ exec .hostPortDown s = .next { s with hostPortDown := true } ∧ exec .hostPortUp s = .next { s with hostPortDown := false }
    ∧ (s.stoppedClock = true → exec .arithmeticClockCycle s = .next s)
    ∧ (s.stoppedClock = false → exec .arithmeticClockCycle s = .next (cycleCounted (if s.start.state = 0 then cycleSettled s else s)))
end

