-- ==== Sys2Proof/Laws/Dispatch.lean ====
section
/-!
SUPPORT. Which meaning the dispatch gives each instruction and event, one equation per constructor.
-/

namespace Sys2Proof.Machine

theorem exec_clauseHeader (yld : Bool) (setb seta : Nat) (wait : BitVec 12) (s₀ : State) : exec (.clauseHeader yld setb seta wait) s₀ = execClauseHeader yld setb seta wait s₀ := rfl
theorem exec_nop (s₀ : State) : exec (.nop) s₀ = execNop s₀ := rfl
theorem exec_bra (t : Target) (s₀ : State) : exec (.bra t) s₀ = execBra t s₀ := rfl
theorem exec_brc (sense : Bool) (c : Nat) (off : W32) (s₀ : State) : exec (.brc sense c off) s₀ = execBrc sense c off s₀ := rfl
theorem exec_call (g : Guard) (t : Target) (s₀ : State) : exec (.call g t) s₀ = execCall g t s₀ := rfl
theorem exec_callv (g : Guard) (a b : Nat) (s₀ : State) : exec (.callv g a b) s₀ = execCallv g a b s₀ := rfl
theorem exec_ret (s₀ : State) : exec (.ret) s₀ = execRet s₀ := rfl
theorem exec_ifI (g : Guard) (elseD endD : Nat) (s₀ : State) : exec (.ifI g elseD endD) s₀ = execIf g elseD endD s₀ := rfl
theorem exec_elseI (s₀ : State) : exec (.elseI) s₀ = execElse s₀ := rfl
theorem exec_endif (s₀ : State) : exec (.endif) s₀ = execEndif s₀ := rfl
theorem exec_loop (s₀ : State) : exec (.loop) s₀ = execLoop s₀ := rfl
theorem exec_brk (g : Guard) (s₀ : State) : exec (.brk g) s₀ = execBrk g s₀ := rfl
theorem exec_cont (g : Guard) (s₀ : State) : exec (.cont g) s₀ = execCont g s₀ := rfl
theorem exec_endloop (s₀ : State) : exec (.endloop) s₀ = execEndloop s₀ := rfl
theorem exec_gjoin (s₀ : State) : exec (.gjoin) s₀ = execGjoin s₀ := rfl
theorem exec_exit (s₀ : State) : exec (.exit) s₀ = execExit s₀ := rfl
theorem exec_waitp (path t : Nat) (s₀ : State) : exec (.waitp path t) s₀ = execWaitp path t s₀ := rfl
theorem exec_tryGang (off : W32) (s₀ : State) : exec (.tryGang off) s₀ = execTryGang off s₀ := rfl
theorem exec_tryCrew (off : W32) (s₀ : State) : exec (.tryCrew off) s₀ = execTryCrew off s₀ := rfl
theorem exec_tryLaunch (off : W32) (s₀ : State) : exec (.tryLaunch off) s₀ = execTryLaunch off s₀ := rfl
theorem exec_endtryGang (s₀ : State) : exec (.endtryGang) s₀ = execEndtryGang s₀ := rfl
theorem exec_endtryCrew (s₀ : State) : exec (.endtryCrew) s₀ = execEndtryCrew s₀ := rfl
theorem exec_endtryLaunch (s₀ : State) : exec (.endtryLaunch) s₀ = execEndtryLaunch s₀ := rfl
theorem exec_throw (g : Guard) (a : Opd) (s₀ : State) : exec (.throw g a) s₀ = execThrow g a s₀ := rfl
theorem exec_rethrow (s₀ : State) : exec (.rethrow) s₀ = execRethrow s₀ := rfl
theorem exec_rdexr (d : Opd) (a : Opd) (s₀ : State) : exec (.rdexr d a) s₀ = execRdexr d a s₀ := rfl
theorem exec_iadd (x : Bin) (s₀ : State) : exec (.iadd x) s₀ = execIadd x s₀ := rfl
theorem exec_isub (x : Bin) (s₀ : State) : exec (.isub x) s₀ = execIsub x s₀ := rfl
theorem exec_imul (x : Bin) (s₀ : State) : exec (.imul x) s₀ = execImul x s₀ := rfl
theorem exec_imulh (x : Bin) (s₀ : State) : exec (.imulh x) s₀ = execImulh x s₀ := rfl
theorem exec_imad (x : Ter) (s₀ : State) : exec (.imad x) s₀ = execImad x s₀ := rfl
theorem exec_iabs (x : Un) (s₀ : State) : exec (.iabs x) s₀ = execIabs x s₀ := rfl
theorem exec_ineg (x : Un) (s₀ : State) : exec (.ineg x) s₀ = execIneg x s₀ := rfl
theorem exec_imin (x : Bin) (s₀ : State) : exec (.imin x) s₀ = execImin x s₀ := rfl
theorem exec_imax (x : Bin) (s₀ : State) : exec (.imax x) s₀ = execImax x s₀ := rfl
theorem exec_and (x : Bin) (s₀ : State) : exec (.and x) s₀ = execAnd x s₀ := rfl
theorem exec_or (x : Bin) (s₀ : State) : exec (.or x) s₀ = execOr x s₀ := rfl
theorem exec_xor (x : Bin) (s₀ : State) : exec (.xor x) s₀ = execXor x s₀ := rfl
theorem exec_not (x : Un) (s₀ : State) : exec (.not x) s₀ = execNot x s₀ := rfl
theorem exec_shl (x : Bin) (s₀ : State) : exec (.shl x) s₀ = execShl x s₀ := rfl
theorem exec_shr (x : Bin) (s₀ : State) : exec (.shr x) s₀ = execShr x s₀ := rfl
theorem exec_sar (x : Bin) (s₀ : State) : exec (.sar x) s₀ = execSar x s₀ := rfl
theorem exec_rot (x : Bin) (s₀ : State) : exec (.rot x) s₀ = execRot x s₀ := rfl
theorem exec_bfx (x : Un) (ctl : Opd) (s₀ : State) : exec (.bfx x ctl) s₀ = execBfx x ctl s₀ := rfl
theorem exec_bfi (x : Bin) (ctl : Opd) (s₀ : State) : exec (.bfi x ctl) s₀ = execBfi x ctl s₀ := rfl
theorem exec_popc (x : Un) (s₀ : State) : exec (.popc x) s₀ = execPopc x s₀ := rfl
theorem exec_clz (x : Un) (s₀ : State) : exec (.clz x) s₀ = execClz x s₀ := rfl
theorem exec_ctz (x : Un) (s₀ : State) : exec (.ctz x) s₀ = execCtz x s₀ := rfl
theorem exec_brev (x : Un) (s₀ : State) : exec (.brev x) s₀ = execBrev x s₀ := rfl
theorem exec_icmp (g : Guard) (c : Cond) (ty : Ety) (pd : Nat) (a b : Opd) (s₀ : State) : exec (.icmp g c ty pd a b) s₀ = execIcmp g c ty pd a b s₀ := rfl
theorem exec_icmpc (c : Cond) (ty : Ety) (cd : Nat) (a b : Opd) (s₀ : State) : exec (.icmpc c ty cd a b) s₀ = execIcmpc c ty cd a b s₀ := rfl
theorem exec_sel (x : Bin) (pi : Nat) (neg : Bool) (s₀ : State) : exec (.sel x pi neg) s₀ = execSel x pi neg s₀ := rfl
theorem exec_mov (x : Un) (s₀ : State) : exec (.mov x) s₀ = execMov x s₀ := rfl
theorem exec_movi (g : Guard) (ty : Ety) (d : Opd) (imm : MoviImm) (s₀ : State) : exec (.movi g ty d imm) s₀ = execMovi g ty d imm s₀ := rfl
theorem exec_lea (x : Bin) (sh : Nat) (s₀ : State) : exec (.lea x sh) s₀ = execLea x sh s₀ := rfl
theorem exec_plop (g : Guard) (d a b : Nat) (tt : BitVec 4) (s₀ : State) : exec (.plop g d a b tt) s₀ = execPlop g d a b tt s₀ := rfl
theorem exec_clop (d a b : Nat) (tt : BitVec 4) (s₀ : State) : exec (.clop d a b tt) s₀ = execClop d a b tt s₀ := rfl
theorem exec_pmov (g : Guard) (m : PmovForm) (s₀ : State) : exec (.pmov g m) s₀ = execPmov g m s₀ := rfl
theorem exec_shfl (g : Guard) (m : ShflMode) (ty : Ety) (d a b : Opd) (s₀ : State) : exec (.shfl g m ty d a b) s₀ = execShfl g m ty d a b s₀ := rfl
theorem exec_bcast (g : Guard) (ty : Ety) (d a b : Opd) (s₀ : State) : exec (.bcast g ty d a b) s₀ = execBcast g ty d a b s₀ := rfl
theorem exec_ballot (g : Guard) (d : Opd) (p : Nat) (s₀ : State) : exec (.ballot g d p) s₀ = execBallot g d p s₀ := rfl
theorem exec_pscan (g : Guard) (op : ScanOp) (incl : Bool) (ty : Ety) (sat : Bool) (d a : Opd) (s₀ : State) : exec (.pscan g op incl ty sat d a) s₀ = execPscan g op incl ty sat d a s₀ := rfl
theorem exec_append (g : Guard) (d a b : Opd) (s₀ : State) : exec (.append g d a b) s₀ = execAppend g d a b s₀ := rfl
theorem exec_red (g : Guard) (op : RedOp) (ty : Ety) (sat : Bool) (d : Opd) (va : Nat) (s₀ : State) : exec (.red g op ty sat d va) s₀ = execRed g op ty sat d va s₀ := rfl
theorem exec_fadd (x : Bin) (s₀ : State) : exec (.fadd x) s₀ = execFadd x s₀ := rfl
theorem exec_fsub (x : Bin) (s₀ : State) : exec (.fsub x) s₀ = execFsub x s₀ := rfl
theorem exec_fmul (x : Bin) (s₀ : State) : exec (.fmul x) s₀ = execFmul x s₀ := rfl
theorem exec_fma (x : Ter) (s₀ : State) : exec (.fma x) s₀ = execFma x s₀ := rfl
theorem exec_fmin (nan : Bool) (x : Bin) (s₀ : State) : exec (.fmin nan x) s₀ = execFmin nan x s₀ := rfl
theorem exec_fmax (nan : Bool) (x : Bin) (s₀ : State) : exec (.fmax nan x) s₀ = execFmax nan x s₀ := rfl
theorem exec_fabs (x : Un) (s₀ : State) : exec (.fabs x) s₀ = execFabs x s₀ := rfl
theorem exec_fneg (x : Un) (s₀ : State) : exec (.fneg x) s₀ = execFneg x s₀ := rfl
theorem exec_fscale (x : Bin) (s₀ : State) : exec (.fscale x) s₀ = execFscale x s₀ := rfl
theorem exec_fcmp (g : Guard) (c : FCond) (pd : Nat) (a b : Opd) (s₀ : State) : exec (.fcmp g c pd a b) s₀ = execFcmp g c pd a b s₀ := rfl
theorem exec_fcmpc (c : FCond) (cd : Nat) (a b : Opd) (s₀ : State) : exec (.fcmpc c cd a b) s₀ = execFcmpc c cd a b s₀ := rfl
theorem exec_fclass (g : Guard) (pd : Nat) (a : Opd) (mask : BitVec 10) (s₀ : State) : exec (.fclass g pd a mask) s₀ = execFclass g pd a mask s₀ := rfl
theorem exec_frcp (x : Un) (s₀ : State) : exec (.frcp x) s₀ = execFrcp x s₀ := rfl
theorem exec_frsq (x : Un) (s₀ : State) : exec (.frsq x) s₀ = execFrsq x s₀ := rfl
theorem exec_fsqrt (x : Un) (s₀ : State) : exec (.fsqrt x) s₀ = execFsqrt x s₀ := rfl
theorem exec_fexp2 (x : Un) (s₀ : State) : exec (.fexp2 x) s₀ = execFexp2 x s₀ := rfl
theorem exec_flog2 (x : Un) (s₀ : State) : exec (.flog2 x) s₀ = execFlog2 x s₀ := rfl
theorem exec_fsin (x : Un) (s₀ : State) : exec (.fsin x) s₀ = execFsin x s₀ := rfl
theorem exec_fcos (x : Un) (s₀ : State) : exec (.fcos x) s₀ = execFcos x s₀ := rfl
theorem exec_ftanh (x : Un) (s₀ : State) : exec (.ftanh x) s₀ = execFtanh x s₀ := rfl
theorem exec_cvt (g : Guard) (tgt src : Fmt) (sat : Bool) (d a : Opd) (si di : Nat) (s₀ : State) : exec (.cvt g tgt src sat d a si di) s₀ = execCvt g tgt src sat d a si di s₀ := rfl
theorem exec_cvtmx (g : Guard) (fmt : Fmt) (d a b : Opd) (di : Nat) (s₀ : State) : exec (.cvtmx g fmt d a b di) s₀ = execCvtmx g fmt d a b di s₀ := rfl
theorem exec_cvtmxScale (g : Guard) (fmt : Fmt) (d a : Opd) (s₀ : State) : exec (.cvtmxScale g fmt d a) s₀ = execCvtmxScale g fmt d a s₀ := rfl
theorem exec_ld (m : GMem) (sx : Bool) (d : Opd) (s₀ : State) : exec (.ld m sx d) s₀ = execLd m sx d s₀ := rfl
theorem exec_ldRp (m : GMem) (sx : Bool) (d : Opd) (p : Nat) (s₀ : State) : exec (.ldRp m sx d p) s₀ = execLdRp m sx d p s₀ := rfl
theorem exec_st (m : GMem) (data : Opd) (s₀ : State) : exec (.st m data) s₀ = execSt m data s₀ := rfl
theorem exec_lds (m : SMem) (sx : Bool) (d : Opd) (s₀ : State) : exec (.lds m sx d) s₀ = execLds m sx d s₀ := rfl
theorem exec_sts (m : SMem) (data : Opd) (s₀ : State) : exec (.sts m data) s₀ = execSts m data s₀ := rfl
theorem exec_atom (op : AtomOp) (m : GMem) (d data : Opd) (s₀ : State) : exec (.atom op m d data) s₀ = execAtom op m d data s₀ := rfl
theorem exec_atoms (op : AtomOp) (m : SMem) (d data : Opd) (s₀ : State) : exec (.atoms op m d data) s₀ = execAtoms op m d data s₀ := rfl
theorem exec_fence (scope : Scope) (d : Opd) (s₀ : State) : exec (.fence scope d) s₀ = execFence scope d s₀ := rfl
theorem exec_waita (c : WCond) (size : Size) (scope : Scope) (d idx : Opd) (rc : Nat) (cmp : Opd) (disp : Option W32) (s₀ : State) : exec (.waita c size scope d idx rc cmp disp) s₀ = execWaita c size scope d idx rc cmp disp s₀ := rfl
theorem exec_wake (scope : Scope) (idx : Opd) (rc : Nat) (disp : Option W32) (s₀ : State) : exec (.wake scope idx rc disp) s₀ = execWake scope idx rc disp s₀ := rfl
theorem exec_persist (s₀ : State) : exec (.persist) s₀ = execPersist s₀ := rfl
theorem exec_zfill (r : Range) (s₀ : State) : exec (.zfill r) s₀ = execZfill r s₀ := rfl
theorem exec_pagereq (f : Nat) (r : Range) (s₀ : State) : exec (.pagereq f r) s₀ = execPagereq f r s₀ := rfl
theorem exec_cctlWb (scope : Scope) (r : Range) (s₀ : State) : exec (.cctlWb scope r) s₀ = execCctlWb scope r s₀ := rfl
theorem exec_cctlDisc (scope : Scope) (r : Range) (s₀ : State) : exec (.cctlDisc scope r) s₀ = execCctlDisc scope r s₀ := rfl
theorem exec_icpf (r : Range) (s₀ : State) : exec (.icpf r) s₀ = execIcpf r s₀ := rfl
theorem exec_icpin (r : Range) (s₀ : State) : exec (.icpin r) s₀ = execIcpin r s₀ := rfl
theorem exec_icpinUnpin (r : Range) (s₀ : State) : exec (.icpinUnpin r) s₀ = execIcpinUnpin r s₀ := rfl
theorem exec_icinvCrew (r : Range) (s₀ : State) : exec (.icinvCrew r) s₀ = execIcinvCrew r s₀ := rfl
theorem exec_icinvDev (r : Range) (s₀ : State) : exec (.icinvDev r) s₀ = execIcinvDev r s₀ := rfl
theorem exec_qstat (full : Bool) (d : Opd) (q c : Nat) (s₀ : State) : exec (.qstat full d q c) s₀ = execQstat full d q c s₀ := rfl
theorem exec_cpy (x : Copy) (arr dir : Bool) (s₀ : State) : exec (.cpy x arr dir) s₀ = execCpy x arr dir s₀ := rfl
theorem exec_cpyM (x : Copy) (cores : BitVec 8) (s₀ : State) : exec (.cpyM x cores) s₀ = execCpyM x cores s₀ := rfl
theorem exec_cpyX (x : Copy) (arr dir : Bool) (s₀ : State) : exec (.cpyX x arr dir) s₀ = execCpyX x arr dir s₀ := rfl
theorem exec_mma (x : MmaArgs) (s₀ : State) : exec (.mma x) s₀ = execMma x s₀ := rfl
theorem exec_mmaSp (x : MmaArgs) (sm : Nat) (s₀ : State) : exec (.mmaSp x sm) s₀ = execMmaSp x sm s₀ := rfl
theorem exec_mmaP (x : MmaArgs) (s₀ : State) : exec (.mmaP x) s₀ = execMmaP x s₀ := rfl
theorem exec_msel (g : Guard) (f : Nat) (a b : Opd) (fw sa sm : Nat) (s₀ : State) : exec (.msel g f a b fw sa sm) s₀ = execMsel g f a b fw sa sm s₀ := rfl
theorem exec_accz (g : Guard) (f tile : Nat) (s₀ : State) : exec (.accz g f tile) s₀ = execAccz g f tile s₀ := rfl
theorem exec_accdr (g : Guard) (f : Nat) (off : Opd) (tgt : Fmt) (tile : Nat) (s₀ : State) : exec (.accdr g f off tgt tile) s₀ = execAccdr g f off tgt tile s₀ := rfl
theorem exec_wdset (g : Guard) (f : Nat) (val : Opd) (tile : Nat) (s₀ : State) : exec (.wdset g f val tile) s₀ = execWdset g f val tile s₀ := rfl
theorem exec_mfence (g : Guard) (f : Nat) (s₀ : State) : exec (.mfence g f) s₀ = execMfence g f s₀ := rfl
theorem exec_fwait (f : Nat) (st : Option Nat) (s₀ : State) : exec (.fwait f st) s₀ = execFwait f st s₀ := rfl
theorem exec_ftest (f c : Nat) (st : Option Nat) (s₀ : State) : exec (.ftest f c st) s₀ = execFtest f c st s₀ := rfl
theorem exec_fcancel (f : Nat) (s₀ : State) : exec (.fcancel f) s₀ = execFcancel f s₀ := rfl
theorem exec_fexport (f : Nat) (off : Opd) (s₀ : State) : exec (.fexport f off) s₀ = execFexport f off s₀ := rfl
theorem exec_fimport (f : Nat) (off : Opd) (s₀ : State) : exec (.fimport f off) s₀ = execFimport f off s₀ := rfl
theorem exec_barinit (bar : Nat) (e : Opd) (s₀ : State) : exec (.barinit bar e) s₀ = execBarinit bar e s₀ := rfl
theorem exec_bara (bar : Nat) (s₀ : State) : exec (.bara bar) s₀ = execBara bar s₀ := rfl
theorem exec_barexp (bar : Nat) (b : Opd) (s₀ : State) : exec (.barexp bar b) s₀ = execBarexp bar b s₀ := rfl
theorem exec_barw (bar : Nat) (phase : Bool) (s₀ : State) : exec (.barw bar phase) s₀ = execBarw bar phase s₀ := rfl
theorem exec_lbar (n : Nat) (s₀ : State) : exec (.lbar n) s₀ = execLbar n s₀ := rfl
theorem exec_otdecl (f : Nat) (off : Opd) (s₀ : State) : exec (.otdecl f off) s₀ = execOtdecl f off s₀ := rfl
theorem exec_otbegin (f : Nat) (s₀ : State) : exec (.otbegin f) s₀ = execOtbegin f s₀ := rfl
theorem exec_otend (s₀ : State) : exec (.otend) s₀ = execOtend s₀ := rfl
theorem exec_otround (a : Opd) (s₀ : State) : exec (.otround a) s₀ = execOtround a s₀ := rfl
theorem exec_trap (code : Opd) (s₀ : State) : exec (.trap code) s₀ = execTrap code s₀ := rfl
theorem exec_svret (slot : Opd) (adv : Nat) (s₀ : State) : exec (.svret slot adv) s₀ = execSvret slot adv s₀ := rfl
theorem exec_svthrow (slot code : Opd) (s₀ : State) : exec (.svthrow slot code) s₀ = execSvthrow slot code s₀ := rfl
theorem exec_rdxv (g : Guard) (d slot : Opd) (reg : Nat) (hi : Bool) (s₀ : State) : exec (.rdxv g d slot reg hi) s₀ = execRdxv g d slot reg hi s₀ := rfl
theorem exec_wrxv (g : Guard) (slot data : Opd) (reg : Nat) (hi : Bool) (s₀ : State) : exec (.wrxv g slot data reg hi) s₀ = execWrxv g slot data reg hi s₀ := rfl
theorem exec_rdxs (d slot : Opd) (num : Nat) (s₀ : State) : exec (.rdxs d slot num) s₀ = execRdxs d slot num s₀ := rfl
theorem exec_wrxs (slot data : Opd) (num : Nat) (s₀ : State) : exec (.wrxs slot data num) s₀ = execWrxs slot data num s₀ := rfl
theorem exec_rdsys (d : Opd) (num : Nat) (s₀ : State) : exec (.rdsys d num) s₀ = execRdsys d num s₀ := rfl
theorem exec_wrsys (data : Opd) (num : Nat) (s₀ : State) : exec (.wrsys data num) s₀ = execWrsys data num s₀ := rfl
theorem exec_bankset (mask : Opd) (mode : BankMode) (s₀ : State) : exec (.bankset mask mode) s₀ = execBankset mask mode s₀ := rfl
theorem exec_bist (d arr pat : Opd) (s₀ : State) : exec (.bist d arr pat) s₀ = execBist d arr pat s₀ := rfl
theorem exec_mbxrdNext (d : Opd) (s₀ : State) : exec (.mbxrdNext d) s₀ = execMbxrdNext d s₀ := rfl
theorem exec_mbxrdWord (d slot word : Opd) (s₀ : State) : exec (.mbxrdWord d slot word) s₀ = execMbxrdWord d slot word s₀ := rfl
theorem exec_coreret (d core : Opd) (s₀ : State) : exec (.coreret d core) s₀ = execCoreret d core s₀ := rfl
theorem exec_idivU32 (x : Emu) (s₀ : State) : exec (.idivU32 x) s₀ = execIdivU32 x s₀ := rfl
theorem exec_iremU32 (x : Emu) (s₀ : State) : exec (.iremU32 x) s₀ = execIremU32 x s₀ := rfl
theorem exec_idivU64 (x : Emu) (s₀ : State) : exec (.idivU64 x) s₀ = execIdivU64 x s₀ := rfl
theorem exec_iremU64 (x : Emu) (s₀ : State) : exec (.iremU64 x) s₀ = execIremU64 x s₀ := rfl
theorem exec_idivS32 (x : Emu) (s₀ : State) : exec (.idivS32 x) s₀ = execIdivS32 x s₀ := rfl
theorem exec_iremS32 (x : Emu) (s₀ : State) : exec (.iremS32 x) s₀ = execIremS32 x s₀ := rfl
theorem exec_idivS64 (x : Emu) (s₀ : State) : exec (.idivS64 x) s₀ = execIdivS64 x s₀ := rfl
theorem exec_iremS64 (x : Emu) (s₀ : State) : exec (.iremS64 x) s₀ = execIremS64 x s₀ := rfl
theorem exec_fdivF32 (x : Emu) (s₀ : State) : exec (.fdivF32 x) s₀ = execFdivF32 x s₀ := rfl
theorem exec_dadd (x : Emu) (s₀ : State) : exec (.dadd x) s₀ = execDadd x s₀ := rfl
theorem exec_dmul (x : Emu) (s₀ : State) : exec (.dmul x) s₀ = execDmul x s₀ := rfl
theorem exec_dfma (x : Emu) (c : Opd) (s₀ : State) : exec (.dfma x c) s₀ = execDfma x c s₀ := rfl
theorem exec_ddiv (x : Emu) (s₀ : State) : exec (.ddiv x) s₀ = execDdiv x s₀ := rfl
theorem exec_dsqrt (g : Guard) (d a : Opd) (s₀ : State) : exec (.dsqrt g d a) s₀ = execDsqrt g d a s₀ := rfl
theorem exec_dcvt (g : Guard) (form : Nat) (d a : Opd) (s₀ : State) : exec (.dcvt g form d a) s₀ = execDcvt g form d a s₀ := rfl
theorem exec_emu (x : Emu) (s₀ : State) : exec (.emu x) s₀ = execEmu x s₀ := rfl
theorem exec_loadDataReturn (g : GRef) (op : Nat) (lanes : Mask) (s₀ : State) : exec (.loadDataReturn g op lanes) s₀ = execLoadDataReturn g op lanes s₀ := rfl
theorem exec_spillReadReturn (g : GRef) (reg : Nat) (bad : Mask) (s₀ : State) : exec (.spillReadReturn g reg bad) s₀ = execSpillReadReturn g reg bad s₀ := rfl
theorem exec_sysreadComplete (g : GRef) (op : Nat) (s₀ : State) : exec (.sysreadComplete g op) s₀ = execSysreadComplete g op s₀ := rfl
theorem exec_fenceComplete (g : GRef) (op : Nat) (s₀ : State) : exec (.fenceComplete g op) s₀ = execFenceComplete g op s₀ := rfl
theorem exec_bufDrain (g : GRef) (seq : Nat) (s₀ : State) : exec (.bufDrain g seq) s₀ = execBufDrain g seq s₀ := rfl
theorem exec_coreWriteBack (core : Option Nat) (pa : Nat) (s₀ : State) : exec (.coreWriteBack core pa) s₀ = execCoreWriteBack core pa s₀ := rfl
theorem exec_copyDiscard (core : Option Nat) (pa : Nat) (s₀ : State) : exec (.copyDiscard core pa) s₀ = execCopyDiscard core pa s₀ := rfl
theorem exec_copyFetch (core : Option Nat) (pa : Nat) (s₀ : State) : exec (.copyFetch core pa) s₀ = execCopyFetch core pa s₀ := rfl
theorem exec_atomicComplete (g : GRef) (op lane : Nat) (s₀ : State) : exec (.atomicComplete g op lane) s₀ = execAtomicComplete g op lane s₀ := rfl
theorem exec_copySegmentStart (core : Nat) (s₀ : State) : exec (.copySegmentStart core) s₀ = execCopySegmentStart core s₀ := rfl
theorem exec_copyPieceWritten (core idx piece : Nat) (s₀ : State) : exec (.copyPieceWritten core idx piece) s₀ = execCopyPieceWritten core idx piece s₀ := rfl
theorem exec_copyComplete (core idx : Nat) (s₀ : State) : exec (.copyComplete core idx) s₀ = execCopyComplete core idx s₀ := rfl
theorem exec_matrixCommandStart (core : Nat) (s₀ : State) : exec (.matrixCommandStart core) s₀ = execMatrixCommandStart core s₀ := rfl
theorem exec_matrixCommandComplete (core : Nat) (s₀ : State) : exec (.matrixCommandComplete core) s₀ = execMatrixCommandComplete core s₀ := rfl
theorem exec_bankSwitchApply (g : GRef) (bank : Nat) (s₀ : State) : exec (.bankSwitchApply g bank) s₀ = execBankSwitchApply g bank s₀ := rfl
theorem exec_persistComplete (g : GRef) (s₀ : State) : exec (.persistComplete g) s₀ = execPersistComplete g s₀ := rfl
theorem exec_icinvComplete (g : GRef) (s₀ : State) : exec (.icinvComplete g) s₀ = execIcinvComplete g s₀ := rfl
theorem exec_unwindComplete (u : Nat) (s₀ : State) : exec (.unwindComplete u) s₀ = execUnwindComplete u s₀ := rfl
theorem exec_candidatePromote (g : GRef) (grp : Nat) (s₀ : State) : exec (.candidatePromote g grp) s₀ = execCandidatePromote g grp s₀ := rfl
theorem exec_svyieldTimeout (core : Nat) (s₀ : State) : exec (.svyieldTimeout core) s₀ = execSvyieldTimeout core s₀ := rfl
theorem exec_waitaPoll (g : GRef) (grp : Nat) (s₀ : State) : exec (.waitaPoll g grp) s₀ = execWaitaPoll g grp s₀ := rfl
theorem exec_preemptRequest (ctx : Nat) (s₀ : State) : exec (.preemptRequest ctx) s₀ = execPreemptRequest ctx s₀ := rfl
theorem exec_crewSave (crew : Nat) (s₀ : State) : exec (.crewSave crew) s₀ = execCrewSave crew s₀ := rfl
theorem exec_crewResume (crew core : Nat) (s₀ : State) : exec (.crewResume crew core) s₀ = execCrewResume crew core s₀ := rfl
theorem exec_crewPlace (s₀ : State) : exec (.crewPlace) s₀ = execCrewPlace s₀ := rfl
theorem exec_crewEnd (crew : Nat) (s₀ : State) : exec (.crewEnd crew) s₀ = execCrewEnd crew s₀ := rfl
theorem exec_tailRead (q : Nat) (s₀ : State) : exec (.tailRead q) s₀ = execTailRead q s₀ := rfl
theorem exec_tailPollTimer (q : Nat) (s₀ : State) : exec (.tailPollTimer q) s₀ = execTailPollTimer q s₀ := rfl
theorem exec_dependenceWatch (q : Nat) (s₀ : State) : exec (.dependenceWatch q) s₀ = execDependenceWatch q s₀ := rfl
theorem exec_launchAccept (s₀ : State) : exec (.launchAccept) s₀ = execLaunchAccept s₀ := rfl
theorem exec_completionWrite (launch : Nat) (s₀ : State) : exec (.completionWrite launch) s₀ = execCompletionWrite launch s₀ := rfl
theorem exec_beatEnd (s₀ : State) : exec (.beatEnd) s₀ = execBeatEnd s₀ := rfl
theorem exec_mergeComplete (s₀ : State) : exec (.mergeComplete) s₀ = execMergeComplete s₀ := rfl
theorem exec_lbarCountExchange (launch n modules : Nat) (s₀ : State) : exec (.lbarCountExchange launch n modules) s₀ = execLbarCountExchange launch n modules s₀ := rfl
theorem exec_heartbeat (missed : BitVec 4) (s₀ : State) : exec (.heartbeat missed) s₀ = execHeartbeat missed s₀ := rfl
theorem exec_failover (s₀ : State) : exec (.failover) s₀ = execFailover s₀ := rfl
theorem exec_claimDeadline (e : Nat) (s₀ : State) : exec (.claimDeadline e) s₀ = execClaimDeadline e s₀ := rfl
theorem exec_evnext (s₀ : State) : exec (.evnext) s₀ = execEvnext s₀ := rfl
theorem exec_evans (e : Nat) (forward : Bool) (s₀ : State) : exec (.evans e forward) s₀ = execEvans e forward s₀ := rfl
theorem exec_evack (e : Nat) (s₀ : State) : exec (.evack e) s₀ = execEvack e s₀ := rfl
theorem exec_eventRingWrite (s₀ : State) : exec (.eventRingWrite) s₀ = execEventRingWrite s₀ := rfl
theorem exec_tinvGo (s₀ : State) : exec (.tinvGo) s₀ = execTinvGo s₀ := rfl
theorem exec_tinvDone (s₀ : State) : exec (.tinvDone) s₀ = execTinvDone s₀ := rfl
theorem exec_ownreqGo (s₀ : State) : exec (.ownreqGo) s₀ = execOwnreqGo s₀ := rfl
theorem exec_ownToHostFlip (block : Nat) (s₀ : State) : exec (.ownToHostFlip block) s₀ = execOwnToHostFlip block s₀ := rfl
theorem exec_ownToDeviceFlip (block : Nat) (dirty : List (Nat × Byte)) (s₀ : State) : exec (.ownToDeviceFlip block dirty) s₀ = execOwnToDeviceFlip block dirty s₀ := rfl
theorem exec_hostMemAccess (pa : Nat) (ctx : Nat) (write : Option (List Byte)) (len : Nat) (s₀ : State) : exec (.hostMemAccess pa ctx write len) s₀ = execHostMemAccess pa ctx write len s₀ := rfl
theorem exec_hostSnoop (pa : Nat) (write : List Byte) (s₀ : State) : exec (.hostSnoop pa write) s₀ = execHostSnoop pa write s₀ := rfl
theorem exec_pageRequestWrite (fn : Nat) (s₀ : State) : exec (.pageRequestWrite fn) s₀ = execPageRequestWrite fn s₀ := rfl
theorem exec_pageReply (fn tag stat : Nat) (s₀ : State) : exec (.pageReply fn tag stat) s₀ = execPageReply fn tag stat s₀ := rfl
theorem exec_pagereqResolve (crew op : Nat) (s₀ : State) : exec (.pagereqResolve crew op) s₀ = execPagereqResolve crew op s₀ := rfl
theorem exec_functionLevelReset (fn : Nat) (s₀ : State) : exec (.functionLevelReset fn) s₀ = execFunctionLevelReset fn s₀ := rfl
theorem exec_powerOn (s₀ : State) : exec (.powerOn) s₀ = execPowerOn s₀ := rfl
theorem exec_startCold (failed : Option (Nat × Nat)) (badCores : List Nat) (s₀ : State) : exec (.startCold failed badCores) s₀ = execStartCold failed badCores s₀ := rfl
theorem exec_startWarm (failed : Option (Nat × Nat)) (badCores : List Nat) (s₀ : State) : exec (.startWarm failed badCores) s₀ = execStartWarm failed badCores s₀ := rfl
theorem exec_attestGo (s₀ : State) : exec (.attestGo) s₀ = execAttestGo s₀ := rfl
theorem exec_attestDone (s₀ : State) : exec (.attestDone) s₀ = execAttestDone s₀ := rfl
theorem exec_lmargGo (port : Nat) (s₀ : State) : exec (.lmargGo port) s₀ = execLmargGo port s₀ := rfl
theorem exec_lmargScanDone (port errors : Nat) (s₀ : State) : exec (.lmargScanDone port errors) s₀ = execLmargScanDone port errors s₀ := rfl
theorem exec_supervisorRestart (core : Nat) (s₀ : State) : exec (.supervisorRestart core) s₀ = execSupervisorRestart core s₀ := rfl
theorem exec_beatWrite (s₀ : State) : exec (.beatWrite) s₀ = execBeatWrite s₀ := rfl
theorem exec_qcfgWrite (crew n : Nat) (s₀ : State) : exec (.qcfgWrite crew n) s₀ = execQcfgWrite crew n s₀ := rfl
theorem exec_tickConfigWrite (s₀ : State) : exec (.tickConfigWrite) s₀ = execTickConfigWrite s₀ := rfl
theorem exec_tickClear (s₀ : State) : exec (.tickClear) s₀ = execTickClear s₀ := rfl
theorem exec_tickEdge (s₀ : State) : exec (.tickEdge) s₀ = execTickEdge s₀ := rfl
theorem exec_currentSample (milliamps : List W32) (s₀ : State) : exec (.currentSample milliamps) s₀ = execCurrentSample milliamps s₀ := rfl
theorem exec_lqConfigWrite (q word : Nat) (val : W64) (s₀ : State) : exec (.lqConfigWrite q word val) s₀ = execLqConfigWrite q word val s₀ := rfl
theorem exec_accessTableWrite (target ctx : Nat) (val : BitVec 16) (s₀ : State) : exec (.accessTableWrite target ctx val) s₀ = execAccessTableWrite target ctx val s₀ := rfl
theorem exec_registerWrite (pa : Nat) (val : W64) (s₀ : State) : exec (.registerWrite pa val) s₀ = execRegisterWrite pa val s₀ := rfl
theorem exec_powerLimit (milliwatts : Nat) (s₀ : State) : exec (.powerLimit milliwatts) s₀ = execPowerLimit milliwatts s₀ := rfl
theorem exec_coldPlateLimit (sensor : Nat) (s₀ : State) : exec (.coldPlateLimit sensor) s₀ = execColdPlateLimit sensor s₀ := rfl
theorem exec_junctionTrip (sensor : Nat) (s₀ : State) : exec (.junctionTrip sensor) s₀ = execJunctionTrip sensor s₀ := rfl
theorem exec_linkLaneFail (port lane : Nat) (s₀ : State) : exec (.linkLaneFail port lane) s₀ = execLinkLaneFail port lane s₀ := rfl
theorem exec_linkDown (port : Nat) (s₀ : State) : exec (.linkDown port) s₀ = execLinkDown port s₀ := rfl
theorem exec_hostPortDown (s₀ : State) : exec (.hostPortDown) s₀ = execHostPortDown s₀ := rfl
theorem exec_eccUncorrectable (site : EccSite) (s₀ : State) : exec (.eccUncorrectable site) s₀ = execEccUncorrectable site s₀ := rfl
theorem exec_arithmeticClockCycle (s₀ : State) : exec (.arithmeticClockCycle) s₀ = execArithmeticClockCycle s₀ := rfl
theorem exec_powerBelowLimit (s₀ : State) : exec (.powerBelowLimit) s₀ = execPowerBelowLimit s₀ := rfl
theorem exec_coldPlateInRange (sensor : Nat) (s₀ : State) : exec (.coldPlateInRange sensor) s₀ = execColdPlateInRange sensor s₀ := rfl
theorem exec_hostPortUp (s₀ : State) : exec (.hostPortUp) s₀ = execHostPortUp s₀ := rfl
theorem exec_peerMemAccess (pa ctx : Nat) (write : Option (List Byte)) (len : Nat) (s₀ : State) : exec (.peerMemAccess pa ctx write len) s₀ = execPeerMemAccess pa ctx write len s₀ := rfl
theorem exec_sysStoreComplete (g : GRef) (seq : Nat) (s₀ : State) : exec (.sysStoreComplete g seq) s₀ = execSysStoreComplete g seq s₀ := rfl
theorem exec_backInvalidateResponse (pa : Nat) (dirty : Option (List Byte)) (s₀ : State) : exec (.backInvalidateResponse pa dirty) s₀ = execBackInvalidateResponse pa dirty s₀ := rfl
theorem exec_bistComplete (core : Nat) (failRows firstRow : Nat) (s₀ : State) : exec (.bistComplete core failRows firstRow) s₀ = execBistComplete core failRows firstRow s₀ := rfl
theorem exec_spanLaunchUnwind (launch : Nat) (s₀ : State) : exec (.spanLaunchUnwind launch) s₀ = execSpanLaunchUnwind launch s₀ := rfl

end Sys2Proof.Machine
end

