-- ==== Sys2Proof/Laws/State.lean ====
section
/-!
SUPPORT. What the named updates of the state and of a gang leave alone: one lemma per update and field, so that no later proof
unfolds a record update.
-/

namespace Sys2Proof.Machine


/-! ### `modCrew` -/

@[simp] theorem modCrew_cycle (s : State) (c : Nat) (f : Crew → Crew) : (modCrew s c f).cycle = s.cycle := rfl
@[simp] theorem modCrew_mem (s : State) (c : Nat) (f : Crew → Crew) : (modCrew s c f).mem = s.mem := rfl
@[simp] theorem modCrew_hcopy (s : State) (c : Nat) (f : Crew → Crew) : (modCrew s c f).hcopy = s.hcopy := rfl
@[simp] theorem modCrew_zeroFar (s : State) (c : Nat) (f : Crew → Crew) : (modCrew s c f).zeroFar = s.zeroFar := rfl
@[simp] theorem modCrew_storers (s : State) (c : Nat) (f : Crew → Crew) : (modCrew s c f).storers = s.storers := rfl
@[simp] theorem modCrew_l2 (s : State) (c : Nat) (f : Crew → Crew) : (modCrew s c f).l2 = s.l2 := rfl
@[simp] theorem modCrew_zmap (s : State) (c : Nat) (f : Crew → Crew) : (modCrew s c f).zmap = s.zmap := rfl
@[simp] theorem modCrew_lost (s : State) (c : Nat) (f : Crew → Crew) : (modCrew s c f).lost = s.lost := rfl
@[simp] theorem modCrew_cores (s : State) (c : Nat) (f : Crew → Crew) : (modCrew s c f).cores = s.cores := rfl
@[simp] theorem modCrew_keptCores (s : State) (c : Nat) (f : Crew → Crew) : (modCrew s c f).keptCores = s.keptCores := rfl
@[simp] theorem modCrew_dies (s : State) (c : Nat) (f : Crew → Crew) : (modCrew s c f).dies = s.dies := rfl
@[simp] theorem modCrew_launches (s : State) (c : Nat) (f : Crew → Crew) : (modCrew s c f).launches = s.launches := rfl
@[simp] theorem modCrew_nextCrew (s : State) (c : Nat) (f : Crew → Crew) : (modCrew s c f).nextCrew = s.nextCrew := rfl
@[simp] theorem modCrew_accept (s : State) (c : Nat) (f : Crew → Crew) : (modCrew s c f).accept = s.accept := rfl
@[simp] theorem modCrew_unwinds (s : State) (c : Nat) (f : Crew → Crew) : (modCrew s c f).unwinds = s.unwinds := rfl
@[simp] theorem modCrew_nextUnwind (s : State) (c : Nat) (f : Crew → Crew) : (modCrew s c f).nextUnwind = s.nextUnwind := rfl
@[simp] theorem modCrew_ctxbase (s : State) (c : Nat) (f : Crew → Crew) : (modCrew s c f).ctxbase = s.ctxbase := rfl
@[simp] theorem modCrew_xlats (s : State) (c : Nat) (f : Crew → Crew) : (modCrew s c f).xlats = s.xlats := rfl
@[simp] theorem modCrew_tinv (s : State) (c : Nat) (f : Crew → Crew) : (modCrew s c f).tinv = s.tinv := rfl
@[simp] theorem modCrew_regions (s : State) (c : Nat) (f : Crew → Crew) : (modCrew s c f).regions = s.regions := rfl
@[simp] theorem modCrew_access (s : State) (c : Nat) (f : Crew → Crew) : (modCrew s c f).access = s.access := rfl
@[simp] theorem modCrew_queues (s : State) (c : Nat) (f : Crew → Crew) : (modCrew s c f).queues = s.queues := rfl
@[simp] theorem modCrew_lastQ (s : State) (c : Nat) (f : Crew → Crew) : (modCrew s c f).lastQ = s.lastQ := rfl
@[simp] theorem modCrew_closing (s : State) (c : Nat) (f : Crew → Crew) : (modCrew s c f).closing = s.closing := rfl
@[simp] theorem modCrew_merged (s : State) (c : Nat) (f : Crew → Crew) : (modCrew s c f).merged = s.merged := rfl
@[simp] theorem modCrew_grants (s : State) (c : Nat) (f : Crew → Crew) : (modCrew s c f).grants = s.grants := rfl
@[simp] theorem modCrew_exchanging (s : State) (c : Nat) (f : Crew → Crew) : (modCrew s c f).exchanging = s.exchanging := rfl
@[simp] theorem modCrew_mergeBy (s : State) (c : Nat) (f : Crew → Crew) : (modCrew s c f).mergeBy = s.mergeBy := rfl
@[simp] theorem modCrew_claims (s : State) (c : Nat) (f : Crew → Crew) : (modCrew s c f).claims = s.claims := rfl
@[simp] theorem modCrew_claimOrder (s : State) (c : Nat) (f : Crew → Crew) : (modCrew s c f).claimOrder = s.claimOrder := rfl
@[simp] theorem modCrew_ring (s : State) (c : Nat) (f : Crew → Crew) : (modCrew s c f).ring = s.ring := rfl
@[simp] theorem modCrew_pageRegs (s : State) (c : Nat) (f : Crew → Crew) : (modCrew s c f).pageRegs = s.pageRegs := rfl
@[simp] theorem modCrew_pageReqs (s : State) (c : Nat) (f : Crew → Crew) : (modCrew s c f).pageReqs = s.pageReqs := rfl
@[simp] theorem modCrew_pageOps (s : State) (c : Nat) (f : Crew → Crew) : (modCrew s c f).pageOps = s.pageOps := rfl
@[simp] theorem modCrew_ownreq (s : State) (c : Nat) (f : Crew → Crew) : (modCrew s c f).ownreq = s.ownreq := rfl
@[simp] theorem modCrew_hostOwned (s : State) (c : Nat) (f : Crew → Crew) : (modCrew s c f).hostOwned = s.hostOwned := rfl
@[simp] theorem modCrew_hostDir (s : State) (c : Nat) (f : Crew → Crew) : (modCrew s c f).hostDir = s.hostDir := rfl
@[simp] theorem modCrew_hostPortDown (s : State) (c : Nat) (f : Crew → Crew) : (modCrew s c f).hostPortDown = s.hostPortDown := rfl
@[simp] theorem modCrew_beat (s : State) (c : Nat) (f : Crew → Crew) : (modCrew s c f).beat = s.beat := rfl
@[simp] theorem modCrew_beatNext (s : State) (c : Nat) (f : Crew → Crew) : (modCrew s c f).beatNext = s.beatNext := rfl
@[simp] theorem modCrew_claimto (s : State) (c : Nat) (f : Crew → Crew) : (modCrew s c f).claimto = s.claimto := rfl
@[simp] theorem modCrew_tick (s : State) (c : Nat) (f : Crew → Crew) : (modCrew s c f).tick = s.tick := rfl
@[simp] theorem modCrew_live (s : State) (c : Nat) (f : Crew → Crew) : (modCrew s c f).live = s.live := rfl
@[simp] theorem modCrew_latch (s : State) (c : Nat) (f : Crew → Crew) : (modCrew s c f).latch = s.latch := rfl
@[simp] theorem modCrew_counts (s : State) (c : Nat) (f : Crew → Crew) : (modCrew s c f).counts = s.counts := rfl
@[simp] theorem modCrew_wrote (s : State) (c : Nat) (f : Crew → Crew) : (modCrew s c f).wrote = s.wrote := rfl
@[simp] theorem modCrew_late (s : State) (c : Nat) (f : Crew → Crew) : (modCrew s c f).late = s.late := rfl
@[simp] theorem modCrew_trace (s : State) (c : Nat) (f : Crew → Crew) : (modCrew s c f).trace = s.trace := rfl
@[simp] theorem modCrew_start (s : State) (c : Nat) (f : Crew → Crew) : (modCrew s c f).start = s.start := rfl
@[simp] theorem modCrew_shadow (s : State) (c : Nat) (f : Crew → Crew) : (modCrew s c f).shadow = s.shadow := rfl
@[simp] theorem modCrew_stoppedClock (s : State) (c : Nat) (f : Crew → Crew) : (modCrew s c f).stoppedClock = s.stoppedClock := rfl
@[simp] theorem modCrew_attest (s : State) (c : Nat) (f : Crew → Crew) : (modCrew s c f).attest = s.attest := rfl
@[simp] theorem modCrew_attestGo (s : State) (c : Nat) (f : Crew → Crew) : (modCrew s c f).attestGo = s.attestGo := rfl
@[simp] theorem modCrew_attestDone (s : State) (c : Nat) (f : Crew → Crew) : (modCrew s c f).attestDone = s.attestDone := rfl
@[simp] theorem modCrew_lmarg (s : State) (c : Nat) (f : Crew → Crew) : (modCrew s c f).lmarg = s.lmarg := rfl
@[simp] theorem modCrew_ports (s : State) (c : Nat) (f : Crew → Crew) : (modCrew s c f).ports = s.ports := rfl
@[simp] theorem modCrew_powlim (s : State) (c : Nat) (f : Crew → Crew) : (modCrew s c f).powlim = s.powlim := rfl
@[simp] theorem modCrew_power (s : State) (c : Nat) (f : Crew → Crew) : (modCrew s c f).power = s.power := rfl
@[simp] theorem modCrew_powerEngaged (s : State) (c : Nat) (f : Crew → Crew) : (modCrew s c f).powerEngaged = s.powerEngaged := rfl
@[simp] theorem modCrew_coldPlate (s : State) (c : Nat) (f : Crew → Crew) : (modCrew s c f).coldPlate = s.coldPlate := rfl
@[simp] theorem modCrew_dbgEn (s : State) (c : Nat) (f : Crew → Crew) : (modCrew s c f).dbgEn = s.dbgEn := rfl
@[simp] theorem modCrew_dbgCtx (s : State) (c : Nat) (f : Crew → Crew) : (modCrew s c f).dbgCtx = s.dbgCtx := rfl
@[simp] theorem modCrew_spanid (s : State) (c : Nat) (f : Crew → Crew) : (modCrew s c f).spanid = s.spanid := rfl
@[simp] theorem modCrew_route (s : State) (c : Nat) (f : Crew → Crew) : (modCrew s c f).route = s.route := rfl
@[simp] theorem modCrew_spanGroup (s : State) (c : Nat) (f : Crew → Crew) : (modCrew s c f).spanGroup = s.spanGroup := rfl
@[simp] theorem modCrew_lead (s : State) (c : Nat) (f : Crew → Crew) : (modCrew s c f).lead = s.lead := rfl
@[simp] theorem modCrew_missed (s : State) (c : Nat) (f : Crew → Crew) : (modCrew s c f).missed = s.missed := rfl
@[simp] theorem modCrew_headerHash (s : State) (c : Nat) (f : Crew → Crew) : (modCrew s c f).headerHash = s.headerHash := rfl
@[simp] theorem modCrew_lineClock (s : State) (c : Nat) (f : Crew → Crew) : (modCrew s c f).lineClock = s.lineClock := rfl
@[simp] theorem modCrew_lineAcc (s : State) (c : Nat) (f : Crew → Crew) : (modCrew s c f).lineAcc = s.lineAcc := rfl
@[simp] theorem modCrew_agenda (s : State) (c : Nat) (f : Crew → Crew) : (modCrew s c f).agenda = s.agenda := rfl
@[simp] theorem modCrew_cur (s : State) (c : Nat) (f : Crew → Crew) : (modCrew s c f).cur = s.cur := rfl
@[simp] theorem modCrew_blocked (s : State) (c : Nat) (f : Crew → Crew) : (modCrew s c f).blocked = s.blocked := rfl
@[simp] theorem modCrew_fresh (s : State) (c : Nat) (f : Crew → Crew) : (modCrew s c f).fresh = s.fresh := rfl

/-! ### `modLaunch` -/

@[simp] theorem modLaunch_cycle (s : State) (l : Nat) (f : Launch → Launch) : (modLaunch s l f).cycle = s.cycle := rfl
@[simp] theorem modLaunch_mem (s : State) (l : Nat) (f : Launch → Launch) : (modLaunch s l f).mem = s.mem := rfl
@[simp] theorem modLaunch_hcopy (s : State) (l : Nat) (f : Launch → Launch) : (modLaunch s l f).hcopy = s.hcopy := rfl
@[simp] theorem modLaunch_zeroFar (s : State) (l : Nat) (f : Launch → Launch) : (modLaunch s l f).zeroFar = s.zeroFar := rfl
@[simp] theorem modLaunch_storers (s : State) (l : Nat) (f : Launch → Launch) : (modLaunch s l f).storers = s.storers := rfl
@[simp] theorem modLaunch_l2 (s : State) (l : Nat) (f : Launch → Launch) : (modLaunch s l f).l2 = s.l2 := rfl
@[simp] theorem modLaunch_zmap (s : State) (l : Nat) (f : Launch → Launch) : (modLaunch s l f).zmap = s.zmap := rfl
@[simp] theorem modLaunch_lost (s : State) (l : Nat) (f : Launch → Launch) : (modLaunch s l f).lost = s.lost := rfl
@[simp] theorem modLaunch_cores (s : State) (l : Nat) (f : Launch → Launch) : (modLaunch s l f).cores = s.cores := rfl
@[simp] theorem modLaunch_keptCores (s : State) (l : Nat) (f : Launch → Launch) : (modLaunch s l f).keptCores = s.keptCores := rfl
@[simp] theorem modLaunch_dies (s : State) (l : Nat) (f : Launch → Launch) : (modLaunch s l f).dies = s.dies := rfl
@[simp] theorem modLaunch_crews (s : State) (l : Nat) (f : Launch → Launch) : (modLaunch s l f).crews = s.crews := rfl
@[simp] theorem modLaunch_nextCrew (s : State) (l : Nat) (f : Launch → Launch) : (modLaunch s l f).nextCrew = s.nextCrew := rfl
@[simp] theorem modLaunch_accept (s : State) (l : Nat) (f : Launch → Launch) : (modLaunch s l f).accept = s.accept := rfl
@[simp] theorem modLaunch_unwinds (s : State) (l : Nat) (f : Launch → Launch) : (modLaunch s l f).unwinds = s.unwinds := rfl
@[simp] theorem modLaunch_nextUnwind (s : State) (l : Nat) (f : Launch → Launch) : (modLaunch s l f).nextUnwind = s.nextUnwind := rfl
@[simp] theorem modLaunch_ctxbase (s : State) (l : Nat) (f : Launch → Launch) : (modLaunch s l f).ctxbase = s.ctxbase := rfl
@[simp] theorem modLaunch_xlats (s : State) (l : Nat) (f : Launch → Launch) : (modLaunch s l f).xlats = s.xlats := rfl
@[simp] theorem modLaunch_tinv (s : State) (l : Nat) (f : Launch → Launch) : (modLaunch s l f).tinv = s.tinv := rfl
@[simp] theorem modLaunch_regions (s : State) (l : Nat) (f : Launch → Launch) : (modLaunch s l f).regions = s.regions := rfl
@[simp] theorem modLaunch_access (s : State) (l : Nat) (f : Launch → Launch) : (modLaunch s l f).access = s.access := rfl
@[simp] theorem modLaunch_queues (s : State) (l : Nat) (f : Launch → Launch) : (modLaunch s l f).queues = s.queues := rfl
@[simp] theorem modLaunch_lastQ (s : State) (l : Nat) (f : Launch → Launch) : (modLaunch s l f).lastQ = s.lastQ := rfl
@[simp] theorem modLaunch_closing (s : State) (l : Nat) (f : Launch → Launch) : (modLaunch s l f).closing = s.closing := rfl
@[simp] theorem modLaunch_merged (s : State) (l : Nat) (f : Launch → Launch) : (modLaunch s l f).merged = s.merged := rfl
@[simp] theorem modLaunch_grants (s : State) (l : Nat) (f : Launch → Launch) : (modLaunch s l f).grants = s.grants := rfl
@[simp] theorem modLaunch_exchanging (s : State) (l : Nat) (f : Launch → Launch) : (modLaunch s l f).exchanging = s.exchanging := rfl
@[simp] theorem modLaunch_mergeBy (s : State) (l : Nat) (f : Launch → Launch) : (modLaunch s l f).mergeBy = s.mergeBy := rfl
@[simp] theorem modLaunch_claims (s : State) (l : Nat) (f : Launch → Launch) : (modLaunch s l f).claims = s.claims := rfl
@[simp] theorem modLaunch_claimOrder (s : State) (l : Nat) (f : Launch → Launch) : (modLaunch s l f).claimOrder = s.claimOrder := rfl
@[simp] theorem modLaunch_ring (s : State) (l : Nat) (f : Launch → Launch) : (modLaunch s l f).ring = s.ring := rfl
@[simp] theorem modLaunch_pageRegs (s : State) (l : Nat) (f : Launch → Launch) : (modLaunch s l f).pageRegs = s.pageRegs := rfl
@[simp] theorem modLaunch_pageReqs (s : State) (l : Nat) (f : Launch → Launch) : (modLaunch s l f).pageReqs = s.pageReqs := rfl
@[simp] theorem modLaunch_pageOps (s : State) (l : Nat) (f : Launch → Launch) : (modLaunch s l f).pageOps = s.pageOps := rfl
@[simp] theorem modLaunch_ownreq (s : State) (l : Nat) (f : Launch → Launch) : (modLaunch s l f).ownreq = s.ownreq := rfl
@[simp] theorem modLaunch_hostOwned (s : State) (l : Nat) (f : Launch → Launch) : (modLaunch s l f).hostOwned = s.hostOwned := rfl
@[simp] theorem modLaunch_hostDir (s : State) (l : Nat) (f : Launch → Launch) : (modLaunch s l f).hostDir = s.hostDir := rfl
@[simp] theorem modLaunch_hostPortDown (s : State) (l : Nat) (f : Launch → Launch) : (modLaunch s l f).hostPortDown = s.hostPortDown := rfl
@[simp] theorem modLaunch_beat (s : State) (l : Nat) (f : Launch → Launch) : (modLaunch s l f).beat = s.beat := rfl
@[simp] theorem modLaunch_beatNext (s : State) (l : Nat) (f : Launch → Launch) : (modLaunch s l f).beatNext = s.beatNext := rfl
@[simp] theorem modLaunch_claimto (s : State) (l : Nat) (f : Launch → Launch) : (modLaunch s l f).claimto = s.claimto := rfl
@[simp] theorem modLaunch_tick (s : State) (l : Nat) (f : Launch → Launch) : (modLaunch s l f).tick = s.tick := rfl
@[simp] theorem modLaunch_live (s : State) (l : Nat) (f : Launch → Launch) : (modLaunch s l f).live = s.live := rfl
@[simp] theorem modLaunch_latch (s : State) (l : Nat) (f : Launch → Launch) : (modLaunch s l f).latch = s.latch := rfl
@[simp] theorem modLaunch_counts (s : State) (l : Nat) (f : Launch → Launch) : (modLaunch s l f).counts = s.counts := rfl
@[simp] theorem modLaunch_wrote (s : State) (l : Nat) (f : Launch → Launch) : (modLaunch s l f).wrote = s.wrote := rfl
@[simp] theorem modLaunch_late (s : State) (l : Nat) (f : Launch → Launch) : (modLaunch s l f).late = s.late := rfl
@[simp] theorem modLaunch_trace (s : State) (l : Nat) (f : Launch → Launch) : (modLaunch s l f).trace = s.trace := rfl
@[simp] theorem modLaunch_start (s : State) (l : Nat) (f : Launch → Launch) : (modLaunch s l f).start = s.start := rfl
@[simp] theorem modLaunch_shadow (s : State) (l : Nat) (f : Launch → Launch) : (modLaunch s l f).shadow = s.shadow := rfl
@[simp] theorem modLaunch_stoppedClock (s : State) (l : Nat) (f : Launch → Launch) : (modLaunch s l f).stoppedClock = s.stoppedClock := rfl
@[simp] theorem modLaunch_attest (s : State) (l : Nat) (f : Launch → Launch) : (modLaunch s l f).attest = s.attest := rfl
@[simp] theorem modLaunch_attestGo (s : State) (l : Nat) (f : Launch → Launch) : (modLaunch s l f).attestGo = s.attestGo := rfl
@[simp] theorem modLaunch_attestDone (s : State) (l : Nat) (f : Launch → Launch) : (modLaunch s l f).attestDone = s.attestDone := rfl
@[simp] theorem modLaunch_lmarg (s : State) (l : Nat) (f : Launch → Launch) : (modLaunch s l f).lmarg = s.lmarg := rfl
@[simp] theorem modLaunch_ports (s : State) (l : Nat) (f : Launch → Launch) : (modLaunch s l f).ports = s.ports := rfl
@[simp] theorem modLaunch_powlim (s : State) (l : Nat) (f : Launch → Launch) : (modLaunch s l f).powlim = s.powlim := rfl
@[simp] theorem modLaunch_power (s : State) (l : Nat) (f : Launch → Launch) : (modLaunch s l f).power = s.power := rfl
@[simp] theorem modLaunch_powerEngaged (s : State) (l : Nat) (f : Launch → Launch) : (modLaunch s l f).powerEngaged = s.powerEngaged := rfl
@[simp] theorem modLaunch_coldPlate (s : State) (l : Nat) (f : Launch → Launch) : (modLaunch s l f).coldPlate = s.coldPlate := rfl
@[simp] theorem modLaunch_dbgEn (s : State) (l : Nat) (f : Launch → Launch) : (modLaunch s l f).dbgEn = s.dbgEn := rfl
@[simp] theorem modLaunch_dbgCtx (s : State) (l : Nat) (f : Launch → Launch) : (modLaunch s l f).dbgCtx = s.dbgCtx := rfl
@[simp] theorem modLaunch_spanid (s : State) (l : Nat) (f : Launch → Launch) : (modLaunch s l f).spanid = s.spanid := rfl
@[simp] theorem modLaunch_route (s : State) (l : Nat) (f : Launch → Launch) : (modLaunch s l f).route = s.route := rfl
@[simp] theorem modLaunch_spanGroup (s : State) (l : Nat) (f : Launch → Launch) : (modLaunch s l f).spanGroup = s.spanGroup := rfl
@[simp] theorem modLaunch_lead (s : State) (l : Nat) (f : Launch → Launch) : (modLaunch s l f).lead = s.lead := rfl
@[simp] theorem modLaunch_missed (s : State) (l : Nat) (f : Launch → Launch) : (modLaunch s l f).missed = s.missed := rfl
@[simp] theorem modLaunch_headerHash (s : State) (l : Nat) (f : Launch → Launch) : (modLaunch s l f).headerHash = s.headerHash := rfl
@[simp] theorem modLaunch_lineClock (s : State) (l : Nat) (f : Launch → Launch) : (modLaunch s l f).lineClock = s.lineClock := rfl
@[simp] theorem modLaunch_lineAcc (s : State) (l : Nat) (f : Launch → Launch) : (modLaunch s l f).lineAcc = s.lineAcc := rfl
@[simp] theorem modLaunch_agenda (s : State) (l : Nat) (f : Launch → Launch) : (modLaunch s l f).agenda = s.agenda := rfl
@[simp] theorem modLaunch_cur (s : State) (l : Nat) (f : Launch → Launch) : (modLaunch s l f).cur = s.cur := rfl
@[simp] theorem modLaunch_blocked (s : State) (l : Nat) (f : Launch → Launch) : (modLaunch s l f).blocked = s.blocked := rfl
@[simp] theorem modLaunch_fresh (s : State) (l : Nat) (f : Launch → Launch) : (modLaunch s l f).fresh = s.fresh := rfl

/-! ### `modCore` -/

@[simp] theorem modCore_cycle (s : State) (c : Nat) (f : Core → Core) : (modCore s c f).cycle = s.cycle := rfl
@[simp] theorem modCore_mem (s : State) (c : Nat) (f : Core → Core) : (modCore s c f).mem = s.mem := rfl
@[simp] theorem modCore_hcopy (s : State) (c : Nat) (f : Core → Core) : (modCore s c f).hcopy = s.hcopy := rfl
@[simp] theorem modCore_zeroFar (s : State) (c : Nat) (f : Core → Core) : (modCore s c f).zeroFar = s.zeroFar := rfl
@[simp] theorem modCore_storers (s : State) (c : Nat) (f : Core → Core) : (modCore s c f).storers = s.storers := rfl
@[simp] theorem modCore_l2 (s : State) (c : Nat) (f : Core → Core) : (modCore s c f).l2 = s.l2 := rfl
@[simp] theorem modCore_zmap (s : State) (c : Nat) (f : Core → Core) : (modCore s c f).zmap = s.zmap := rfl
@[simp] theorem modCore_lost (s : State) (c : Nat) (f : Core → Core) : (modCore s c f).lost = s.lost := rfl
@[simp] theorem modCore_keptCores (s : State) (c : Nat) (f : Core → Core) : (modCore s c f).keptCores = s.keptCores := rfl
@[simp] theorem modCore_dies (s : State) (c : Nat) (f : Core → Core) : (modCore s c f).dies = s.dies := rfl
@[simp] theorem modCore_crews (s : State) (c : Nat) (f : Core → Core) : (modCore s c f).crews = s.crews := rfl
@[simp] theorem modCore_launches (s : State) (c : Nat) (f : Core → Core) : (modCore s c f).launches = s.launches := rfl
@[simp] theorem modCore_nextCrew (s : State) (c : Nat) (f : Core → Core) : (modCore s c f).nextCrew = s.nextCrew := rfl
@[simp] theorem modCore_accept (s : State) (c : Nat) (f : Core → Core) : (modCore s c f).accept = s.accept := rfl
@[simp] theorem modCore_unwinds (s : State) (c : Nat) (f : Core → Core) : (modCore s c f).unwinds = s.unwinds := rfl
@[simp] theorem modCore_nextUnwind (s : State) (c : Nat) (f : Core → Core) : (modCore s c f).nextUnwind = s.nextUnwind := rfl
@[simp] theorem modCore_ctxbase (s : State) (c : Nat) (f : Core → Core) : (modCore s c f).ctxbase = s.ctxbase := rfl
@[simp] theorem modCore_xlats (s : State) (c : Nat) (f : Core → Core) : (modCore s c f).xlats = s.xlats := rfl
@[simp] theorem modCore_tinv (s : State) (c : Nat) (f : Core → Core) : (modCore s c f).tinv = s.tinv := rfl
@[simp] theorem modCore_regions (s : State) (c : Nat) (f : Core → Core) : (modCore s c f).regions = s.regions := rfl
@[simp] theorem modCore_access (s : State) (c : Nat) (f : Core → Core) : (modCore s c f).access = s.access := rfl
@[simp] theorem modCore_queues (s : State) (c : Nat) (f : Core → Core) : (modCore s c f).queues = s.queues := rfl
@[simp] theorem modCore_lastQ (s : State) (c : Nat) (f : Core → Core) : (modCore s c f).lastQ = s.lastQ := rfl
@[simp] theorem modCore_closing (s : State) (c : Nat) (f : Core → Core) : (modCore s c f).closing = s.closing := rfl
@[simp] theorem modCore_merged (s : State) (c : Nat) (f : Core → Core) : (modCore s c f).merged = s.merged := rfl
@[simp] theorem modCore_grants (s : State) (c : Nat) (f : Core → Core) : (modCore s c f).grants = s.grants := rfl
@[simp] theorem modCore_exchanging (s : State) (c : Nat) (f : Core → Core) : (modCore s c f).exchanging = s.exchanging := rfl
@[simp] theorem modCore_mergeBy (s : State) (c : Nat) (f : Core → Core) : (modCore s c f).mergeBy = s.mergeBy := rfl
@[simp] theorem modCore_claims (s : State) (c : Nat) (f : Core → Core) : (modCore s c f).claims = s.claims := rfl
@[simp] theorem modCore_claimOrder (s : State) (c : Nat) (f : Core → Core) : (modCore s c f).claimOrder = s.claimOrder := rfl
@[simp] theorem modCore_ring (s : State) (c : Nat) (f : Core → Core) : (modCore s c f).ring = s.ring := rfl
@[simp] theorem modCore_pageRegs (s : State) (c : Nat) (f : Core → Core) : (modCore s c f).pageRegs = s.pageRegs := rfl
@[simp] theorem modCore_pageReqs (s : State) (c : Nat) (f : Core → Core) : (modCore s c f).pageReqs = s.pageReqs := rfl
@[simp] theorem modCore_pageOps (s : State) (c : Nat) (f : Core → Core) : (modCore s c f).pageOps = s.pageOps := rfl
@[simp] theorem modCore_ownreq (s : State) (c : Nat) (f : Core → Core) : (modCore s c f).ownreq = s.ownreq := rfl
@[simp] theorem modCore_hostOwned (s : State) (c : Nat) (f : Core → Core) : (modCore s c f).hostOwned = s.hostOwned := rfl
@[simp] theorem modCore_hostDir (s : State) (c : Nat) (f : Core → Core) : (modCore s c f).hostDir = s.hostDir := rfl
@[simp] theorem modCore_hostPortDown (s : State) (c : Nat) (f : Core → Core) : (modCore s c f).hostPortDown = s.hostPortDown := rfl
@[simp] theorem modCore_beat (s : State) (c : Nat) (f : Core → Core) : (modCore s c f).beat = s.beat := rfl
@[simp] theorem modCore_beatNext (s : State) (c : Nat) (f : Core → Core) : (modCore s c f).beatNext = s.beatNext := rfl
@[simp] theorem modCore_claimto (s : State) (c : Nat) (f : Core → Core) : (modCore s c f).claimto = s.claimto := rfl
@[simp] theorem modCore_tick (s : State) (c : Nat) (f : Core → Core) : (modCore s c f).tick = s.tick := rfl
@[simp] theorem modCore_live (s : State) (c : Nat) (f : Core → Core) : (modCore s c f).live = s.live := rfl
@[simp] theorem modCore_latch (s : State) (c : Nat) (f : Core → Core) : (modCore s c f).latch = s.latch := rfl
@[simp] theorem modCore_counts (s : State) (c : Nat) (f : Core → Core) : (modCore s c f).counts = s.counts := rfl
@[simp] theorem modCore_wrote (s : State) (c : Nat) (f : Core → Core) : (modCore s c f).wrote = s.wrote := rfl
@[simp] theorem modCore_late (s : State) (c : Nat) (f : Core → Core) : (modCore s c f).late = s.late := rfl
@[simp] theorem modCore_trace (s : State) (c : Nat) (f : Core → Core) : (modCore s c f).trace = s.trace := rfl
@[simp] theorem modCore_start (s : State) (c : Nat) (f : Core → Core) : (modCore s c f).start = s.start := rfl
@[simp] theorem modCore_shadow (s : State) (c : Nat) (f : Core → Core) : (modCore s c f).shadow = s.shadow := rfl
@[simp] theorem modCore_stoppedClock (s : State) (c : Nat) (f : Core → Core) : (modCore s c f).stoppedClock = s.stoppedClock := rfl
@[simp] theorem modCore_attest (s : State) (c : Nat) (f : Core → Core) : (modCore s c f).attest = s.attest := rfl
@[simp] theorem modCore_attestGo (s : State) (c : Nat) (f : Core → Core) : (modCore s c f).attestGo = s.attestGo := rfl
@[simp] theorem modCore_attestDone (s : State) (c : Nat) (f : Core → Core) : (modCore s c f).attestDone = s.attestDone := rfl
@[simp] theorem modCore_lmarg (s : State) (c : Nat) (f : Core → Core) : (modCore s c f).lmarg = s.lmarg := rfl
@[simp] theorem modCore_ports (s : State) (c : Nat) (f : Core → Core) : (modCore s c f).ports = s.ports := rfl
@[simp] theorem modCore_powlim (s : State) (c : Nat) (f : Core → Core) : (modCore s c f).powlim = s.powlim := rfl
@[simp] theorem modCore_power (s : State) (c : Nat) (f : Core → Core) : (modCore s c f).power = s.power := rfl
@[simp] theorem modCore_powerEngaged (s : State) (c : Nat) (f : Core → Core) : (modCore s c f).powerEngaged = s.powerEngaged := rfl
@[simp] theorem modCore_coldPlate (s : State) (c : Nat) (f : Core → Core) : (modCore s c f).coldPlate = s.coldPlate := rfl
@[simp] theorem modCore_dbgEn (s : State) (c : Nat) (f : Core → Core) : (modCore s c f).dbgEn = s.dbgEn := rfl
@[simp] theorem modCore_dbgCtx (s : State) (c : Nat) (f : Core → Core) : (modCore s c f).dbgCtx = s.dbgCtx := rfl
@[simp] theorem modCore_spanid (s : State) (c : Nat) (f : Core → Core) : (modCore s c f).spanid = s.spanid := rfl
@[simp] theorem modCore_route (s : State) (c : Nat) (f : Core → Core) : (modCore s c f).route = s.route := rfl
@[simp] theorem modCore_spanGroup (s : State) (c : Nat) (f : Core → Core) : (modCore s c f).spanGroup = s.spanGroup := rfl
@[simp] theorem modCore_lead (s : State) (c : Nat) (f : Core → Core) : (modCore s c f).lead = s.lead := rfl
@[simp] theorem modCore_missed (s : State) (c : Nat) (f : Core → Core) : (modCore s c f).missed = s.missed := rfl
@[simp] theorem modCore_headerHash (s : State) (c : Nat) (f : Core → Core) : (modCore s c f).headerHash = s.headerHash := rfl
@[simp] theorem modCore_lineClock (s : State) (c : Nat) (f : Core → Core) : (modCore s c f).lineClock = s.lineClock := rfl
@[simp] theorem modCore_lineAcc (s : State) (c : Nat) (f : Core → Core) : (modCore s c f).lineAcc = s.lineAcc := rfl
@[simp] theorem modCore_agenda (s : State) (c : Nat) (f : Core → Core) : (modCore s c f).agenda = s.agenda := rfl
@[simp] theorem modCore_cur (s : State) (c : Nat) (f : Core → Core) : (modCore s c f).cur = s.cur := rfl
@[simp] theorem modCore_blocked (s : State) (c : Nat) (f : Core → Core) : (modCore s c f).blocked = s.blocked := rfl
@[simp] theorem modCore_fresh (s : State) (c : Nat) (f : Core → Core) : (modCore s c f).fresh = s.fresh := rfl

/-! ### `modDie` -/

@[simp] theorem modDie_cycle (s : State) (d : Nat) (f : Die → Die) : (modDie s d f).cycle = s.cycle := rfl
@[simp] theorem modDie_mem (s : State) (d : Nat) (f : Die → Die) : (modDie s d f).mem = s.mem := rfl
@[simp] theorem modDie_hcopy (s : State) (d : Nat) (f : Die → Die) : (modDie s d f).hcopy = s.hcopy := rfl
@[simp] theorem modDie_zeroFar (s : State) (d : Nat) (f : Die → Die) : (modDie s d f).zeroFar = s.zeroFar := rfl
@[simp] theorem modDie_storers (s : State) (d : Nat) (f : Die → Die) : (modDie s d f).storers = s.storers := rfl
@[simp] theorem modDie_l2 (s : State) (d : Nat) (f : Die → Die) : (modDie s d f).l2 = s.l2 := rfl
@[simp] theorem modDie_zmap (s : State) (d : Nat) (f : Die → Die) : (modDie s d f).zmap = s.zmap := rfl
@[simp] theorem modDie_lost (s : State) (d : Nat) (f : Die → Die) : (modDie s d f).lost = s.lost := rfl
@[simp] theorem modDie_cores (s : State) (d : Nat) (f : Die → Die) : (modDie s d f).cores = s.cores := rfl
@[simp] theorem modDie_keptCores (s : State) (d : Nat) (f : Die → Die) : (modDie s d f).keptCores = s.keptCores := rfl
@[simp] theorem modDie_crews (s : State) (d : Nat) (f : Die → Die) : (modDie s d f).crews = s.crews := rfl
@[simp] theorem modDie_launches (s : State) (d : Nat) (f : Die → Die) : (modDie s d f).launches = s.launches := rfl
@[simp] theorem modDie_nextCrew (s : State) (d : Nat) (f : Die → Die) : (modDie s d f).nextCrew = s.nextCrew := rfl
@[simp] theorem modDie_accept (s : State) (d : Nat) (f : Die → Die) : (modDie s d f).accept = s.accept := rfl
@[simp] theorem modDie_unwinds (s : State) (d : Nat) (f : Die → Die) : (modDie s d f).unwinds = s.unwinds := rfl
@[simp] theorem modDie_nextUnwind (s : State) (d : Nat) (f : Die → Die) : (modDie s d f).nextUnwind = s.nextUnwind := rfl
@[simp] theorem modDie_ctxbase (s : State) (d : Nat) (f : Die → Die) : (modDie s d f).ctxbase = s.ctxbase := rfl
@[simp] theorem modDie_xlats (s : State) (d : Nat) (f : Die → Die) : (modDie s d f).xlats = s.xlats := rfl
@[simp] theorem modDie_tinv (s : State) (d : Nat) (f : Die → Die) : (modDie s d f).tinv = s.tinv := rfl
@[simp] theorem modDie_regions (s : State) (d : Nat) (f : Die → Die) : (modDie s d f).regions = s.regions := rfl
@[simp] theorem modDie_access (s : State) (d : Nat) (f : Die → Die) : (modDie s d f).access = s.access := rfl
@[simp] theorem modDie_queues (s : State) (d : Nat) (f : Die → Die) : (modDie s d f).queues = s.queues := rfl
@[simp] theorem modDie_lastQ (s : State) (d : Nat) (f : Die → Die) : (modDie s d f).lastQ = s.lastQ := rfl
@[simp] theorem modDie_closing (s : State) (d : Nat) (f : Die → Die) : (modDie s d f).closing = s.closing := rfl
@[simp] theorem modDie_merged (s : State) (d : Nat) (f : Die → Die) : (modDie s d f).merged = s.merged := rfl
@[simp] theorem modDie_grants (s : State) (d : Nat) (f : Die → Die) : (modDie s d f).grants = s.grants := rfl
@[simp] theorem modDie_exchanging (s : State) (d : Nat) (f : Die → Die) : (modDie s d f).exchanging = s.exchanging := rfl
@[simp] theorem modDie_mergeBy (s : State) (d : Nat) (f : Die → Die) : (modDie s d f).mergeBy = s.mergeBy := rfl
@[simp] theorem modDie_claims (s : State) (d : Nat) (f : Die → Die) : (modDie s d f).claims = s.claims := rfl
@[simp] theorem modDie_claimOrder (s : State) (d : Nat) (f : Die → Die) : (modDie s d f).claimOrder = s.claimOrder := rfl
@[simp] theorem modDie_ring (s : State) (d : Nat) (f : Die → Die) : (modDie s d f).ring = s.ring := rfl
@[simp] theorem modDie_pageRegs (s : State) (d : Nat) (f : Die → Die) : (modDie s d f).pageRegs = s.pageRegs := rfl
@[simp] theorem modDie_pageReqs (s : State) (d : Nat) (f : Die → Die) : (modDie s d f).pageReqs = s.pageReqs := rfl
@[simp] theorem modDie_pageOps (s : State) (d : Nat) (f : Die → Die) : (modDie s d f).pageOps = s.pageOps := rfl
@[simp] theorem modDie_ownreq (s : State) (d : Nat) (f : Die → Die) : (modDie s d f).ownreq = s.ownreq := rfl
@[simp] theorem modDie_hostOwned (s : State) (d : Nat) (f : Die → Die) : (modDie s d f).hostOwned = s.hostOwned := rfl
@[simp] theorem modDie_hostDir (s : State) (d : Nat) (f : Die → Die) : (modDie s d f).hostDir = s.hostDir := rfl
@[simp] theorem modDie_hostPortDown (s : State) (d : Nat) (f : Die → Die) : (modDie s d f).hostPortDown = s.hostPortDown := rfl
@[simp] theorem modDie_beat (s : State) (d : Nat) (f : Die → Die) : (modDie s d f).beat = s.beat := rfl
@[simp] theorem modDie_beatNext (s : State) (d : Nat) (f : Die → Die) : (modDie s d f).beatNext = s.beatNext := rfl
@[simp] theorem modDie_claimto (s : State) (d : Nat) (f : Die → Die) : (modDie s d f).claimto = s.claimto := rfl
@[simp] theorem modDie_tick (s : State) (d : Nat) (f : Die → Die) : (modDie s d f).tick = s.tick := rfl
@[simp] theorem modDie_live (s : State) (d : Nat) (f : Die → Die) : (modDie s d f).live = s.live := rfl
@[simp] theorem modDie_latch (s : State) (d : Nat) (f : Die → Die) : (modDie s d f).latch = s.latch := rfl
@[simp] theorem modDie_counts (s : State) (d : Nat) (f : Die → Die) : (modDie s d f).counts = s.counts := rfl
@[simp] theorem modDie_wrote (s : State) (d : Nat) (f : Die → Die) : (modDie s d f).wrote = s.wrote := rfl
@[simp] theorem modDie_late (s : State) (d : Nat) (f : Die → Die) : (modDie s d f).late = s.late := rfl
@[simp] theorem modDie_trace (s : State) (d : Nat) (f : Die → Die) : (modDie s d f).trace = s.trace := rfl
@[simp] theorem modDie_start (s : State) (d : Nat) (f : Die → Die) : (modDie s d f).start = s.start := rfl
@[simp] theorem modDie_shadow (s : State) (d : Nat) (f : Die → Die) : (modDie s d f).shadow = s.shadow := rfl
@[simp] theorem modDie_stoppedClock (s : State) (d : Nat) (f : Die → Die) : (modDie s d f).stoppedClock = s.stoppedClock := rfl
@[simp] theorem modDie_attest (s : State) (d : Nat) (f : Die → Die) : (modDie s d f).attest = s.attest := rfl
@[simp] theorem modDie_attestGo (s : State) (d : Nat) (f : Die → Die) : (modDie s d f).attestGo = s.attestGo := rfl
@[simp] theorem modDie_attestDone (s : State) (d : Nat) (f : Die → Die) : (modDie s d f).attestDone = s.attestDone := rfl
@[simp] theorem modDie_lmarg (s : State) (d : Nat) (f : Die → Die) : (modDie s d f).lmarg = s.lmarg := rfl
@[simp] theorem modDie_ports (s : State) (d : Nat) (f : Die → Die) : (modDie s d f).ports = s.ports := rfl
@[simp] theorem modDie_powlim (s : State) (d : Nat) (f : Die → Die) : (modDie s d f).powlim = s.powlim := rfl
@[simp] theorem modDie_power (s : State) (d : Nat) (f : Die → Die) : (modDie s d f).power = s.power := rfl
@[simp] theorem modDie_powerEngaged (s : State) (d : Nat) (f : Die → Die) : (modDie s d f).powerEngaged = s.powerEngaged := rfl
@[simp] theorem modDie_coldPlate (s : State) (d : Nat) (f : Die → Die) : (modDie s d f).coldPlate = s.coldPlate := rfl
@[simp] theorem modDie_dbgEn (s : State) (d : Nat) (f : Die → Die) : (modDie s d f).dbgEn = s.dbgEn := rfl
@[simp] theorem modDie_dbgCtx (s : State) (d : Nat) (f : Die → Die) : (modDie s d f).dbgCtx = s.dbgCtx := rfl
@[simp] theorem modDie_spanid (s : State) (d : Nat) (f : Die → Die) : (modDie s d f).spanid = s.spanid := rfl
@[simp] theorem modDie_route (s : State) (d : Nat) (f : Die → Die) : (modDie s d f).route = s.route := rfl
@[simp] theorem modDie_spanGroup (s : State) (d : Nat) (f : Die → Die) : (modDie s d f).spanGroup = s.spanGroup := rfl
@[simp] theorem modDie_lead (s : State) (d : Nat) (f : Die → Die) : (modDie s d f).lead = s.lead := rfl
@[simp] theorem modDie_missed (s : State) (d : Nat) (f : Die → Die) : (modDie s d f).missed = s.missed := rfl
@[simp] theorem modDie_headerHash (s : State) (d : Nat) (f : Die → Die) : (modDie s d f).headerHash = s.headerHash := rfl
@[simp] theorem modDie_lineClock (s : State) (d : Nat) (f : Die → Die) : (modDie s d f).lineClock = s.lineClock := rfl
@[simp] theorem modDie_lineAcc (s : State) (d : Nat) (f : Die → Die) : (modDie s d f).lineAcc = s.lineAcc := rfl
@[simp] theorem modDie_agenda (s : State) (d : Nat) (f : Die → Die) : (modDie s d f).agenda = s.agenda := rfl
@[simp] theorem modDie_cur (s : State) (d : Nat) (f : Die → Die) : (modDie s d f).cur = s.cur := rfl
@[simp] theorem modDie_blocked (s : State) (d : Nat) (f : Die → Die) : (modDie s d f).blocked = s.blocked := rfl
@[simp] theorem modDie_fresh (s : State) (d : Nat) (f : Die → Die) : (modDie s d f).fresh = s.fresh := rfl

/-! ### `setClaim` -/

@[simp] theorem setClaim_cycle (s : State) (e : Nat) (c : Claim) : (setClaim s e c).cycle = s.cycle := rfl
@[simp] theorem setClaim_mem (s : State) (e : Nat) (c : Claim) : (setClaim s e c).mem = s.mem := rfl
@[simp] theorem setClaim_hcopy (s : State) (e : Nat) (c : Claim) : (setClaim s e c).hcopy = s.hcopy := rfl
@[simp] theorem setClaim_zeroFar (s : State) (e : Nat) (c : Claim) : (setClaim s e c).zeroFar = s.zeroFar := rfl
@[simp] theorem setClaim_storers (s : State) (e : Nat) (c : Claim) : (setClaim s e c).storers = s.storers := rfl
@[simp] theorem setClaim_l2 (s : State) (e : Nat) (c : Claim) : (setClaim s e c).l2 = s.l2 := rfl
@[simp] theorem setClaim_zmap (s : State) (e : Nat) (c : Claim) : (setClaim s e c).zmap = s.zmap := rfl
@[simp] theorem setClaim_lost (s : State) (e : Nat) (c : Claim) : (setClaim s e c).lost = s.lost := rfl
@[simp] theorem setClaim_cores (s : State) (e : Nat) (c : Claim) : (setClaim s e c).cores = s.cores := rfl
@[simp] theorem setClaim_keptCores (s : State) (e : Nat) (c : Claim) : (setClaim s e c).keptCores = s.keptCores := rfl
@[simp] theorem setClaim_dies (s : State) (e : Nat) (c : Claim) : (setClaim s e c).dies = s.dies := rfl
@[simp] theorem setClaim_crews (s : State) (e : Nat) (c : Claim) : (setClaim s e c).crews = s.crews := rfl
@[simp] theorem setClaim_launches (s : State) (e : Nat) (c : Claim) : (setClaim s e c).launches = s.launches := rfl
@[simp] theorem setClaim_nextCrew (s : State) (e : Nat) (c : Claim) : (setClaim s e c).nextCrew = s.nextCrew := rfl
@[simp] theorem setClaim_accept (s : State) (e : Nat) (c : Claim) : (setClaim s e c).accept = s.accept := rfl
@[simp] theorem setClaim_unwinds (s : State) (e : Nat) (c : Claim) : (setClaim s e c).unwinds = s.unwinds := rfl
@[simp] theorem setClaim_nextUnwind (s : State) (e : Nat) (c : Claim) : (setClaim s e c).nextUnwind = s.nextUnwind := rfl
@[simp] theorem setClaim_ctxbase (s : State) (e : Nat) (c : Claim) : (setClaim s e c).ctxbase = s.ctxbase := rfl
@[simp] theorem setClaim_xlats (s : State) (e : Nat) (c : Claim) : (setClaim s e c).xlats = s.xlats := rfl
@[simp] theorem setClaim_tinv (s : State) (e : Nat) (c : Claim) : (setClaim s e c).tinv = s.tinv := rfl
@[simp] theorem setClaim_regions (s : State) (e : Nat) (c : Claim) : (setClaim s e c).regions = s.regions := rfl
@[simp] theorem setClaim_access (s : State) (e : Nat) (c : Claim) : (setClaim s e c).access = s.access := rfl
@[simp] theorem setClaim_queues (s : State) (e : Nat) (c : Claim) : (setClaim s e c).queues = s.queues := rfl
@[simp] theorem setClaim_lastQ (s : State) (e : Nat) (c : Claim) : (setClaim s e c).lastQ = s.lastQ := rfl
@[simp] theorem setClaim_closing (s : State) (e : Nat) (c : Claim) : (setClaim s e c).closing = s.closing := rfl
@[simp] theorem setClaim_merged (s : State) (e : Nat) (c : Claim) : (setClaim s e c).merged = s.merged := rfl
@[simp] theorem setClaim_grants (s : State) (e : Nat) (c : Claim) : (setClaim s e c).grants = s.grants := rfl
@[simp] theorem setClaim_exchanging (s : State) (e : Nat) (c : Claim) : (setClaim s e c).exchanging = s.exchanging := rfl
@[simp] theorem setClaim_mergeBy (s : State) (e : Nat) (c : Claim) : (setClaim s e c).mergeBy = s.mergeBy := rfl
@[simp] theorem setClaim_claimOrder (s : State) (e : Nat) (c : Claim) : (setClaim s e c).claimOrder = s.claimOrder := rfl
@[simp] theorem setClaim_ring (s : State) (e : Nat) (c : Claim) : (setClaim s e c).ring = s.ring := rfl
@[simp] theorem setClaim_pageRegs (s : State) (e : Nat) (c : Claim) : (setClaim s e c).pageRegs = s.pageRegs := rfl
@[simp] theorem setClaim_pageReqs (s : State) (e : Nat) (c : Claim) : (setClaim s e c).pageReqs = s.pageReqs := rfl
@[simp] theorem setClaim_pageOps (s : State) (e : Nat) (c : Claim) : (setClaim s e c).pageOps = s.pageOps := rfl
@[simp] theorem setClaim_ownreq (s : State) (e : Nat) (c : Claim) : (setClaim s e c).ownreq = s.ownreq := rfl
@[simp] theorem setClaim_hostOwned (s : State) (e : Nat) (c : Claim) : (setClaim s e c).hostOwned = s.hostOwned := rfl
@[simp] theorem setClaim_hostDir (s : State) (e : Nat) (c : Claim) : (setClaim s e c).hostDir = s.hostDir := rfl
@[simp] theorem setClaim_hostPortDown (s : State) (e : Nat) (c : Claim) : (setClaim s e c).hostPortDown = s.hostPortDown := rfl
@[simp] theorem setClaim_beat (s : State) (e : Nat) (c : Claim) : (setClaim s e c).beat = s.beat := rfl
@[simp] theorem setClaim_beatNext (s : State) (e : Nat) (c : Claim) : (setClaim s e c).beatNext = s.beatNext := rfl
@[simp] theorem setClaim_claimto (s : State) (e : Nat) (c : Claim) : (setClaim s e c).claimto = s.claimto := rfl
@[simp] theorem setClaim_tick (s : State) (e : Nat) (c : Claim) : (setClaim s e c).tick = s.tick := rfl
@[simp] theorem setClaim_live (s : State) (e : Nat) (c : Claim) : (setClaim s e c).live = s.live := rfl
@[simp] theorem setClaim_latch (s : State) (e : Nat) (c : Claim) : (setClaim s e c).latch = s.latch := rfl
@[simp] theorem setClaim_counts (s : State) (e : Nat) (c : Claim) : (setClaim s e c).counts = s.counts := rfl
@[simp] theorem setClaim_wrote (s : State) (e : Nat) (c : Claim) : (setClaim s e c).wrote = s.wrote := rfl
@[simp] theorem setClaim_late (s : State) (e : Nat) (c : Claim) : (setClaim s e c).late = s.late := rfl
@[simp] theorem setClaim_trace (s : State) (e : Nat) (c : Claim) : (setClaim s e c).trace = s.trace := rfl
@[simp] theorem setClaim_start (s : State) (e : Nat) (c : Claim) : (setClaim s e c).start = s.start := rfl
@[simp] theorem setClaim_shadow (s : State) (e : Nat) (c : Claim) : (setClaim s e c).shadow = s.shadow := rfl
@[simp] theorem setClaim_stoppedClock (s : State) (e : Nat) (c : Claim) : (setClaim s e c).stoppedClock = s.stoppedClock := rfl
@[simp] theorem setClaim_attest (s : State) (e : Nat) (c : Claim) : (setClaim s e c).attest = s.attest := rfl
@[simp] theorem setClaim_attestGo (s : State) (e : Nat) (c : Claim) : (setClaim s e c).attestGo = s.attestGo := rfl
@[simp] theorem setClaim_attestDone (s : State) (e : Nat) (c : Claim) : (setClaim s e c).attestDone = s.attestDone := rfl
@[simp] theorem setClaim_lmarg (s : State) (e : Nat) (c : Claim) : (setClaim s e c).lmarg = s.lmarg := rfl
@[simp] theorem setClaim_ports (s : State) (e : Nat) (c : Claim) : (setClaim s e c).ports = s.ports := rfl
@[simp] theorem setClaim_powlim (s : State) (e : Nat) (c : Claim) : (setClaim s e c).powlim = s.powlim := rfl
@[simp] theorem setClaim_power (s : State) (e : Nat) (c : Claim) : (setClaim s e c).power = s.power := rfl
@[simp] theorem setClaim_powerEngaged (s : State) (e : Nat) (c : Claim) : (setClaim s e c).powerEngaged = s.powerEngaged := rfl
@[simp] theorem setClaim_coldPlate (s : State) (e : Nat) (c : Claim) : (setClaim s e c).coldPlate = s.coldPlate := rfl
@[simp] theorem setClaim_dbgEn (s : State) (e : Nat) (c : Claim) : (setClaim s e c).dbgEn = s.dbgEn := rfl
@[simp] theorem setClaim_dbgCtx (s : State) (e : Nat) (c : Claim) : (setClaim s e c).dbgCtx = s.dbgCtx := rfl
@[simp] theorem setClaim_spanid (s : State) (e : Nat) (c : Claim) : (setClaim s e c).spanid = s.spanid := rfl
@[simp] theorem setClaim_route (s : State) (e : Nat) (c : Claim) : (setClaim s e c).route = s.route := rfl
@[simp] theorem setClaim_spanGroup (s : State) (e : Nat) (c : Claim) : (setClaim s e c).spanGroup = s.spanGroup := rfl
@[simp] theorem setClaim_lead (s : State) (e : Nat) (c : Claim) : (setClaim s e c).lead = s.lead := rfl
@[simp] theorem setClaim_missed (s : State) (e : Nat) (c : Claim) : (setClaim s e c).missed = s.missed := rfl
@[simp] theorem setClaim_headerHash (s : State) (e : Nat) (c : Claim) : (setClaim s e c).headerHash = s.headerHash := rfl
@[simp] theorem setClaim_lineClock (s : State) (e : Nat) (c : Claim) : (setClaim s e c).lineClock = s.lineClock := rfl
@[simp] theorem setClaim_lineAcc (s : State) (e : Nat) (c : Claim) : (setClaim s e c).lineAcc = s.lineAcc := rfl
@[simp] theorem setClaim_agenda (s : State) (e : Nat) (c : Claim) : (setClaim s e c).agenda = s.agenda := rfl
@[simp] theorem setClaim_cur (s : State) (e : Nat) (c : Claim) : (setClaim s e c).cur = s.cur := rfl
@[simp] theorem setClaim_blocked (s : State) (e : Nat) (c : Claim) : (setClaim s e c).blocked = s.blocked := rfl
@[simp] theorem setClaim_fresh (s : State) (e : Nat) (c : Claim) : (setClaim s e c).fresh = s.fresh := rfl

/-! ### `countAt` -/

@[simp] theorem countAt_cycle (s : State) (n u k : Nat) : (countAt s n u k).cycle = s.cycle := rfl
@[simp] theorem countAt_mem (s : State) (n u k : Nat) : (countAt s n u k).mem = s.mem := rfl
@[simp] theorem countAt_hcopy (s : State) (n u k : Nat) : (countAt s n u k).hcopy = s.hcopy := rfl
@[simp] theorem countAt_zeroFar (s : State) (n u k : Nat) : (countAt s n u k).zeroFar = s.zeroFar := rfl
@[simp] theorem countAt_storers (s : State) (n u k : Nat) : (countAt s n u k).storers = s.storers := rfl
@[simp] theorem countAt_l2 (s : State) (n u k : Nat) : (countAt s n u k).l2 = s.l2 := rfl
@[simp] theorem countAt_zmap (s : State) (n u k : Nat) : (countAt s n u k).zmap = s.zmap := rfl
@[simp] theorem countAt_lost (s : State) (n u k : Nat) : (countAt s n u k).lost = s.lost := rfl
@[simp] theorem countAt_cores (s : State) (n u k : Nat) : (countAt s n u k).cores = s.cores := rfl
@[simp] theorem countAt_keptCores (s : State) (n u k : Nat) : (countAt s n u k).keptCores = s.keptCores := rfl
@[simp] theorem countAt_dies (s : State) (n u k : Nat) : (countAt s n u k).dies = s.dies := rfl
@[simp] theorem countAt_crews (s : State) (n u k : Nat) : (countAt s n u k).crews = s.crews := rfl
@[simp] theorem countAt_launches (s : State) (n u k : Nat) : (countAt s n u k).launches = s.launches := rfl
@[simp] theorem countAt_nextCrew (s : State) (n u k : Nat) : (countAt s n u k).nextCrew = s.nextCrew := rfl
@[simp] theorem countAt_accept (s : State) (n u k : Nat) : (countAt s n u k).accept = s.accept := rfl
@[simp] theorem countAt_unwinds (s : State) (n u k : Nat) : (countAt s n u k).unwinds = s.unwinds := rfl
@[simp] theorem countAt_nextUnwind (s : State) (n u k : Nat) : (countAt s n u k).nextUnwind = s.nextUnwind := rfl
@[simp] theorem countAt_ctxbase (s : State) (n u k : Nat) : (countAt s n u k).ctxbase = s.ctxbase := rfl
@[simp] theorem countAt_xlats (s : State) (n u k : Nat) : (countAt s n u k).xlats = s.xlats := rfl
@[simp] theorem countAt_tinv (s : State) (n u k : Nat) : (countAt s n u k).tinv = s.tinv := rfl
@[simp] theorem countAt_regions (s : State) (n u k : Nat) : (countAt s n u k).regions = s.regions := rfl
@[simp] theorem countAt_access (s : State) (n u k : Nat) : (countAt s n u k).access = s.access := rfl
@[simp] theorem countAt_queues (s : State) (n u k : Nat) : (countAt s n u k).queues = s.queues := rfl
@[simp] theorem countAt_lastQ (s : State) (n u k : Nat) : (countAt s n u k).lastQ = s.lastQ := rfl
@[simp] theorem countAt_closing (s : State) (n u k : Nat) : (countAt s n u k).closing = s.closing := rfl
@[simp] theorem countAt_merged (s : State) (n u k : Nat) : (countAt s n u k).merged = s.merged := rfl
@[simp] theorem countAt_grants (s : State) (n u k : Nat) : (countAt s n u k).grants = s.grants := rfl
@[simp] theorem countAt_exchanging (s : State) (n u k : Nat) : (countAt s n u k).exchanging = s.exchanging := rfl
@[simp] theorem countAt_mergeBy (s : State) (n u k : Nat) : (countAt s n u k).mergeBy = s.mergeBy := rfl
@[simp] theorem countAt_claims (s : State) (n u k : Nat) : (countAt s n u k).claims = s.claims := rfl
@[simp] theorem countAt_claimOrder (s : State) (n u k : Nat) : (countAt s n u k).claimOrder = s.claimOrder := rfl
@[simp] theorem countAt_ring (s : State) (n u k : Nat) : (countAt s n u k).ring = s.ring := rfl
@[simp] theorem countAt_pageRegs (s : State) (n u k : Nat) : (countAt s n u k).pageRegs = s.pageRegs := rfl
@[simp] theorem countAt_pageReqs (s : State) (n u k : Nat) : (countAt s n u k).pageReqs = s.pageReqs := rfl
@[simp] theorem countAt_pageOps (s : State) (n u k : Nat) : (countAt s n u k).pageOps = s.pageOps := rfl
@[simp] theorem countAt_ownreq (s : State) (n u k : Nat) : (countAt s n u k).ownreq = s.ownreq := rfl
@[simp] theorem countAt_hostOwned (s : State) (n u k : Nat) : (countAt s n u k).hostOwned = s.hostOwned := rfl
@[simp] theorem countAt_hostDir (s : State) (n u k : Nat) : (countAt s n u k).hostDir = s.hostDir := rfl
@[simp] theorem countAt_hostPortDown (s : State) (n u k : Nat) : (countAt s n u k).hostPortDown = s.hostPortDown := rfl
@[simp] theorem countAt_beat (s : State) (n u k : Nat) : (countAt s n u k).beat = s.beat := rfl
@[simp] theorem countAt_beatNext (s : State) (n u k : Nat) : (countAt s n u k).beatNext = s.beatNext := rfl
@[simp] theorem countAt_claimto (s : State) (n u k : Nat) : (countAt s n u k).claimto = s.claimto := rfl
@[simp] theorem countAt_tick (s : State) (n u k : Nat) : (countAt s n u k).tick = s.tick := rfl
@[simp] theorem countAt_live (s : State) (n u k : Nat) : (countAt s n u k).live = s.live := rfl
@[simp] theorem countAt_latch (s : State) (n u k : Nat) : (countAt s n u k).latch = s.latch := rfl
@[simp] theorem countAt_wrote (s : State) (n u k : Nat) : (countAt s n u k).wrote = s.wrote := rfl
@[simp] theorem countAt_late (s : State) (n u k : Nat) : (countAt s n u k).late = s.late := rfl
@[simp] theorem countAt_trace (s : State) (n u k : Nat) : (countAt s n u k).trace = s.trace := rfl
@[simp] theorem countAt_start (s : State) (n u k : Nat) : (countAt s n u k).start = s.start := rfl
@[simp] theorem countAt_shadow (s : State) (n u k : Nat) : (countAt s n u k).shadow = s.shadow := rfl
@[simp] theorem countAt_stoppedClock (s : State) (n u k : Nat) : (countAt s n u k).stoppedClock = s.stoppedClock := rfl
@[simp] theorem countAt_attest (s : State) (n u k : Nat) : (countAt s n u k).attest = s.attest := rfl
@[simp] theorem countAt_attestGo (s : State) (n u k : Nat) : (countAt s n u k).attestGo = s.attestGo := rfl
@[simp] theorem countAt_attestDone (s : State) (n u k : Nat) : (countAt s n u k).attestDone = s.attestDone := rfl
@[simp] theorem countAt_lmarg (s : State) (n u k : Nat) : (countAt s n u k).lmarg = s.lmarg := rfl
@[simp] theorem countAt_ports (s : State) (n u k : Nat) : (countAt s n u k).ports = s.ports := rfl
@[simp] theorem countAt_powlim (s : State) (n u k : Nat) : (countAt s n u k).powlim = s.powlim := rfl
@[simp] theorem countAt_power (s : State) (n u k : Nat) : (countAt s n u k).power = s.power := rfl
@[simp] theorem countAt_powerEngaged (s : State) (n u k : Nat) : (countAt s n u k).powerEngaged = s.powerEngaged := rfl
@[simp] theorem countAt_coldPlate (s : State) (n u k : Nat) : (countAt s n u k).coldPlate = s.coldPlate := rfl
@[simp] theorem countAt_dbgEn (s : State) (n u k : Nat) : (countAt s n u k).dbgEn = s.dbgEn := rfl
@[simp] theorem countAt_dbgCtx (s : State) (n u k : Nat) : (countAt s n u k).dbgCtx = s.dbgCtx := rfl
@[simp] theorem countAt_spanid (s : State) (n u k : Nat) : (countAt s n u k).spanid = s.spanid := rfl
@[simp] theorem countAt_route (s : State) (n u k : Nat) : (countAt s n u k).route = s.route := rfl
@[simp] theorem countAt_spanGroup (s : State) (n u k : Nat) : (countAt s n u k).spanGroup = s.spanGroup := rfl
@[simp] theorem countAt_lead (s : State) (n u k : Nat) : (countAt s n u k).lead = s.lead := rfl
@[simp] theorem countAt_missed (s : State) (n u k : Nat) : (countAt s n u k).missed = s.missed := rfl
@[simp] theorem countAt_headerHash (s : State) (n u k : Nat) : (countAt s n u k).headerHash = s.headerHash := rfl
@[simp] theorem countAt_lineClock (s : State) (n u k : Nat) : (countAt s n u k).lineClock = s.lineClock := rfl
@[simp] theorem countAt_lineAcc (s : State) (n u k : Nat) : (countAt s n u k).lineAcc = s.lineAcc := rfl
@[simp] theorem countAt_agenda (s : State) (n u k : Nat) : (countAt s n u k).agenda = s.agenda := rfl
@[simp] theorem countAt_cur (s : State) (n u k : Nat) : (countAt s n u k).cur = s.cur := rfl
@[simp] theorem countAt_blocked (s : State) (n u k : Nat) : (countAt s n u k).blocked = s.blocked := rfl
@[simp] theorem countAt_fresh (s : State) (n u k : Nat) : (countAt s n u k).fresh = s.fresh := rfl

/-! ### `freshen` -/

@[simp] theorem freshen_cycle (s : State) : (freshen s ).cycle = s.cycle := rfl
@[simp] theorem freshen_mem (s : State) : (freshen s ).mem = s.mem := rfl
@[simp] theorem freshen_hcopy (s : State) : (freshen s ).hcopy = s.hcopy := rfl
@[simp] theorem freshen_zeroFar (s : State) : (freshen s ).zeroFar = s.zeroFar := rfl
@[simp] theorem freshen_storers (s : State) : (freshen s ).storers = s.storers := rfl
@[simp] theorem freshen_l2 (s : State) : (freshen s ).l2 = s.l2 := rfl
@[simp] theorem freshen_zmap (s : State) : (freshen s ).zmap = s.zmap := rfl
@[simp] theorem freshen_lost (s : State) : (freshen s ).lost = s.lost := rfl
@[simp] theorem freshen_cores (s : State) : (freshen s ).cores = s.cores := rfl
@[simp] theorem freshen_keptCores (s : State) : (freshen s ).keptCores = s.keptCores := rfl
@[simp] theorem freshen_dies (s : State) : (freshen s ).dies = s.dies := rfl
@[simp] theorem freshen_crews (s : State) : (freshen s ).crews = s.crews := rfl
@[simp] theorem freshen_launches (s : State) : (freshen s ).launches = s.launches := rfl
@[simp] theorem freshen_nextCrew (s : State) : (freshen s ).nextCrew = s.nextCrew := rfl
@[simp] theorem freshen_accept (s : State) : (freshen s ).accept = s.accept := rfl
@[simp] theorem freshen_unwinds (s : State) : (freshen s ).unwinds = s.unwinds := rfl
@[simp] theorem freshen_nextUnwind (s : State) : (freshen s ).nextUnwind = s.nextUnwind := rfl
@[simp] theorem freshen_ctxbase (s : State) : (freshen s ).ctxbase = s.ctxbase := rfl
@[simp] theorem freshen_xlats (s : State) : (freshen s ).xlats = s.xlats := rfl
@[simp] theorem freshen_tinv (s : State) : (freshen s ).tinv = s.tinv := rfl
@[simp] theorem freshen_regions (s : State) : (freshen s ).regions = s.regions := rfl
@[simp] theorem freshen_access (s : State) : (freshen s ).access = s.access := rfl
@[simp] theorem freshen_queues (s : State) : (freshen s ).queues = s.queues := rfl
@[simp] theorem freshen_lastQ (s : State) : (freshen s ).lastQ = s.lastQ := rfl
@[simp] theorem freshen_closing (s : State) : (freshen s ).closing = s.closing := rfl
@[simp] theorem freshen_merged (s : State) : (freshen s ).merged = s.merged := rfl
@[simp] theorem freshen_grants (s : State) : (freshen s ).grants = s.grants := rfl
@[simp] theorem freshen_exchanging (s : State) : (freshen s ).exchanging = s.exchanging := rfl
@[simp] theorem freshen_mergeBy (s : State) : (freshen s ).mergeBy = s.mergeBy := rfl
@[simp] theorem freshen_claims (s : State) : (freshen s ).claims = s.claims := rfl
@[simp] theorem freshen_claimOrder (s : State) : (freshen s ).claimOrder = s.claimOrder := rfl
@[simp] theorem freshen_ring (s : State) : (freshen s ).ring = s.ring := rfl
@[simp] theorem freshen_pageRegs (s : State) : (freshen s ).pageRegs = s.pageRegs := rfl
@[simp] theorem freshen_pageReqs (s : State) : (freshen s ).pageReqs = s.pageReqs := rfl
@[simp] theorem freshen_pageOps (s : State) : (freshen s ).pageOps = s.pageOps := rfl
@[simp] theorem freshen_ownreq (s : State) : (freshen s ).ownreq = s.ownreq := rfl
@[simp] theorem freshen_hostOwned (s : State) : (freshen s ).hostOwned = s.hostOwned := rfl
@[simp] theorem freshen_hostDir (s : State) : (freshen s ).hostDir = s.hostDir := rfl
@[simp] theorem freshen_hostPortDown (s : State) : (freshen s ).hostPortDown = s.hostPortDown := rfl
@[simp] theorem freshen_beat (s : State) : (freshen s ).beat = s.beat := rfl
@[simp] theorem freshen_beatNext (s : State) : (freshen s ).beatNext = s.beatNext := rfl
@[simp] theorem freshen_claimto (s : State) : (freshen s ).claimto = s.claimto := rfl
@[simp] theorem freshen_tick (s : State) : (freshen s ).tick = s.tick := rfl
@[simp] theorem freshen_live (s : State) : (freshen s ).live = s.live := rfl
@[simp] theorem freshen_latch (s : State) : (freshen s ).latch = s.latch := rfl
@[simp] theorem freshen_counts (s : State) : (freshen s ).counts = s.counts := rfl
@[simp] theorem freshen_wrote (s : State) : (freshen s ).wrote = s.wrote := rfl
@[simp] theorem freshen_late (s : State) : (freshen s ).late = s.late := rfl
@[simp] theorem freshen_trace (s : State) : (freshen s ).trace = s.trace := rfl
@[simp] theorem freshen_start (s : State) : (freshen s ).start = s.start := rfl
@[simp] theorem freshen_shadow (s : State) : (freshen s ).shadow = s.shadow := rfl
@[simp] theorem freshen_stoppedClock (s : State) : (freshen s ).stoppedClock = s.stoppedClock := rfl
@[simp] theorem freshen_attest (s : State) : (freshen s ).attest = s.attest := rfl
@[simp] theorem freshen_attestGo (s : State) : (freshen s ).attestGo = s.attestGo := rfl
@[simp] theorem freshen_attestDone (s : State) : (freshen s ).attestDone = s.attestDone := rfl
@[simp] theorem freshen_lmarg (s : State) : (freshen s ).lmarg = s.lmarg := rfl
@[simp] theorem freshen_ports (s : State) : (freshen s ).ports = s.ports := rfl
@[simp] theorem freshen_powlim (s : State) : (freshen s ).powlim = s.powlim := rfl
@[simp] theorem freshen_power (s : State) : (freshen s ).power = s.power := rfl
@[simp] theorem freshen_powerEngaged (s : State) : (freshen s ).powerEngaged = s.powerEngaged := rfl
@[simp] theorem freshen_coldPlate (s : State) : (freshen s ).coldPlate = s.coldPlate := rfl
@[simp] theorem freshen_dbgEn (s : State) : (freshen s ).dbgEn = s.dbgEn := rfl
@[simp] theorem freshen_dbgCtx (s : State) : (freshen s ).dbgCtx = s.dbgCtx := rfl
@[simp] theorem freshen_spanid (s : State) : (freshen s ).spanid = s.spanid := rfl
@[simp] theorem freshen_route (s : State) : (freshen s ).route = s.route := rfl
@[simp] theorem freshen_spanGroup (s : State) : (freshen s ).spanGroup = s.spanGroup := rfl
@[simp] theorem freshen_lead (s : State) : (freshen s ).lead = s.lead := rfl
@[simp] theorem freshen_missed (s : State) : (freshen s ).missed = s.missed := rfl
@[simp] theorem freshen_headerHash (s : State) : (freshen s ).headerHash = s.headerHash := rfl
@[simp] theorem freshen_lineClock (s : State) : (freshen s ).lineClock = s.lineClock := rfl
@[simp] theorem freshen_lineAcc (s : State) : (freshen s ).lineAcc = s.lineAcc := rfl
@[simp] theorem freshen_agenda (s : State) : (freshen s ).agenda = s.agenda := rfl
@[simp] theorem freshen_cur (s : State) : (freshen s ).cur = s.cur := rfl
@[simp] theorem freshen_blocked (s : State) : (freshen s ).blocked = s.blocked := rfl

/-! ### `modGang` -/

@[simp] theorem modGang_cycle (s : State) (g : GRef) (f : Gang → Gang) : (modGang s g f).cycle = s.cycle := by cases g <;> rfl
@[simp] theorem modGang_mem (s : State) (g : GRef) (f : Gang → Gang) : (modGang s g f).mem = s.mem := by cases g <;> rfl
@[simp] theorem modGang_hcopy (s : State) (g : GRef) (f : Gang → Gang) : (modGang s g f).hcopy = s.hcopy := by cases g <;> rfl
@[simp] theorem modGang_zeroFar (s : State) (g : GRef) (f : Gang → Gang) : (modGang s g f).zeroFar = s.zeroFar := by cases g <;> rfl
@[simp] theorem modGang_storers (s : State) (g : GRef) (f : Gang → Gang) : (modGang s g f).storers = s.storers := by cases g <;> rfl
@[simp] theorem modGang_l2 (s : State) (g : GRef) (f : Gang → Gang) : (modGang s g f).l2 = s.l2 := by cases g <;> rfl
@[simp] theorem modGang_zmap (s : State) (g : GRef) (f : Gang → Gang) : (modGang s g f).zmap = s.zmap := by cases g <;> rfl
@[simp] theorem modGang_lost (s : State) (g : GRef) (f : Gang → Gang) : (modGang s g f).lost = s.lost := by cases g <;> rfl
@[simp] theorem modGang_keptCores (s : State) (g : GRef) (f : Gang → Gang) : (modGang s g f).keptCores = s.keptCores := by cases g <;> rfl
@[simp] theorem modGang_dies (s : State) (g : GRef) (f : Gang → Gang) : (modGang s g f).dies = s.dies := by cases g <;> rfl
@[simp] theorem modGang_launches (s : State) (g : GRef) (f : Gang → Gang) : (modGang s g f).launches = s.launches := by cases g <;> rfl
@[simp] theorem modGang_nextCrew (s : State) (g : GRef) (f : Gang → Gang) : (modGang s g f).nextCrew = s.nextCrew := by cases g <;> rfl
@[simp] theorem modGang_accept (s : State) (g : GRef) (f : Gang → Gang) : (modGang s g f).accept = s.accept := by cases g <;> rfl
@[simp] theorem modGang_unwinds (s : State) (g : GRef) (f : Gang → Gang) : (modGang s g f).unwinds = s.unwinds := by cases g <;> rfl
@[simp] theorem modGang_nextUnwind (s : State) (g : GRef) (f : Gang → Gang) : (modGang s g f).nextUnwind = s.nextUnwind := by cases g <;> rfl
@[simp] theorem modGang_ctxbase (s : State) (g : GRef) (f : Gang → Gang) : (modGang s g f).ctxbase = s.ctxbase := by cases g <;> rfl
@[simp] theorem modGang_xlats (s : State) (g : GRef) (f : Gang → Gang) : (modGang s g f).xlats = s.xlats := by cases g <;> rfl
@[simp] theorem modGang_tinv (s : State) (g : GRef) (f : Gang → Gang) : (modGang s g f).tinv = s.tinv := by cases g <;> rfl
@[simp] theorem modGang_regions (s : State) (g : GRef) (f : Gang → Gang) : (modGang s g f).regions = s.regions := by cases g <;> rfl
@[simp] theorem modGang_access (s : State) (g : GRef) (f : Gang → Gang) : (modGang s g f).access = s.access := by cases g <;> rfl
@[simp] theorem modGang_queues (s : State) (g : GRef) (f : Gang → Gang) : (modGang s g f).queues = s.queues := by cases g <;> rfl
@[simp] theorem modGang_lastQ (s : State) (g : GRef) (f : Gang → Gang) : (modGang s g f).lastQ = s.lastQ := by cases g <;> rfl
@[simp] theorem modGang_closing (s : State) (g : GRef) (f : Gang → Gang) : (modGang s g f).closing = s.closing := by cases g <;> rfl
@[simp] theorem modGang_merged (s : State) (g : GRef) (f : Gang → Gang) : (modGang s g f).merged = s.merged := by cases g <;> rfl
@[simp] theorem modGang_grants (s : State) (g : GRef) (f : Gang → Gang) : (modGang s g f).grants = s.grants := by cases g <;> rfl
@[simp] theorem modGang_exchanging (s : State) (g : GRef) (f : Gang → Gang) : (modGang s g f).exchanging = s.exchanging := by cases g <;> rfl
@[simp] theorem modGang_mergeBy (s : State) (g : GRef) (f : Gang → Gang) : (modGang s g f).mergeBy = s.mergeBy := by cases g <;> rfl
@[simp] theorem modGang_claims (s : State) (g : GRef) (f : Gang → Gang) : (modGang s g f).claims = s.claims := by cases g <;> rfl
@[simp] theorem modGang_claimOrder (s : State) (g : GRef) (f : Gang → Gang) : (modGang s g f).claimOrder = s.claimOrder := by cases g <;> rfl
@[simp] theorem modGang_ring (s : State) (g : GRef) (f : Gang → Gang) : (modGang s g f).ring = s.ring := by cases g <;> rfl
@[simp] theorem modGang_pageRegs (s : State) (g : GRef) (f : Gang → Gang) : (modGang s g f).pageRegs = s.pageRegs := by cases g <;> rfl
@[simp] theorem modGang_pageReqs (s : State) (g : GRef) (f : Gang → Gang) : (modGang s g f).pageReqs = s.pageReqs := by cases g <;> rfl
@[simp] theorem modGang_pageOps (s : State) (g : GRef) (f : Gang → Gang) : (modGang s g f).pageOps = s.pageOps := by cases g <;> rfl
@[simp] theorem modGang_ownreq (s : State) (g : GRef) (f : Gang → Gang) : (modGang s g f).ownreq = s.ownreq := by cases g <;> rfl
@[simp] theorem modGang_hostOwned (s : State) (g : GRef) (f : Gang → Gang) : (modGang s g f).hostOwned = s.hostOwned := by cases g <;> rfl
@[simp] theorem modGang_hostDir (s : State) (g : GRef) (f : Gang → Gang) : (modGang s g f).hostDir = s.hostDir := by cases g <;> rfl
@[simp] theorem modGang_hostPortDown (s : State) (g : GRef) (f : Gang → Gang) : (modGang s g f).hostPortDown = s.hostPortDown := by cases g <;> rfl
@[simp] theorem modGang_beat (s : State) (g : GRef) (f : Gang → Gang) : (modGang s g f).beat = s.beat := by cases g <;> rfl
@[simp] theorem modGang_beatNext (s : State) (g : GRef) (f : Gang → Gang) : (modGang s g f).beatNext = s.beatNext := by cases g <;> rfl
@[simp] theorem modGang_claimto (s : State) (g : GRef) (f : Gang → Gang) : (modGang s g f).claimto = s.claimto := by cases g <;> rfl
@[simp] theorem modGang_tick (s : State) (g : GRef) (f : Gang → Gang) : (modGang s g f).tick = s.tick := by cases g <;> rfl
@[simp] theorem modGang_live (s : State) (g : GRef) (f : Gang → Gang) : (modGang s g f).live = s.live := by cases g <;> rfl
@[simp] theorem modGang_latch (s : State) (g : GRef) (f : Gang → Gang) : (modGang s g f).latch = s.latch := by cases g <;> rfl
@[simp] theorem modGang_counts (s : State) (g : GRef) (f : Gang → Gang) : (modGang s g f).counts = s.counts := by cases g <;> rfl
@[simp] theorem modGang_wrote (s : State) (g : GRef) (f : Gang → Gang) : (modGang s g f).wrote = s.wrote := by cases g <;> rfl
@[simp] theorem modGang_late (s : State) (g : GRef) (f : Gang → Gang) : (modGang s g f).late = s.late := by cases g <;> rfl
@[simp] theorem modGang_trace (s : State) (g : GRef) (f : Gang → Gang) : (modGang s g f).trace = s.trace := by cases g <;> rfl
@[simp] theorem modGang_start (s : State) (g : GRef) (f : Gang → Gang) : (modGang s g f).start = s.start := by cases g <;> rfl
@[simp] theorem modGang_shadow (s : State) (g : GRef) (f : Gang → Gang) : (modGang s g f).shadow = s.shadow := by cases g <;> rfl
@[simp] theorem modGang_stoppedClock (s : State) (g : GRef) (f : Gang → Gang) : (modGang s g f).stoppedClock = s.stoppedClock := by cases g <;> rfl
@[simp] theorem modGang_attest (s : State) (g : GRef) (f : Gang → Gang) : (modGang s g f).attest = s.attest := by cases g <;> rfl
@[simp] theorem modGang_attestGo (s : State) (g : GRef) (f : Gang → Gang) : (modGang s g f).attestGo = s.attestGo := by cases g <;> rfl
@[simp] theorem modGang_attestDone (s : State) (g : GRef) (f : Gang → Gang) : (modGang s g f).attestDone = s.attestDone := by cases g <;> rfl
@[simp] theorem modGang_lmarg (s : State) (g : GRef) (f : Gang → Gang) : (modGang s g f).lmarg = s.lmarg := by cases g <;> rfl
@[simp] theorem modGang_ports (s : State) (g : GRef) (f : Gang → Gang) : (modGang s g f).ports = s.ports := by cases g <;> rfl
@[simp] theorem modGang_powlim (s : State) (g : GRef) (f : Gang → Gang) : (modGang s g f).powlim = s.powlim := by cases g <;> rfl
@[simp] theorem modGang_power (s : State) (g : GRef) (f : Gang → Gang) : (modGang s g f).power = s.power := by cases g <;> rfl
@[simp] theorem modGang_powerEngaged (s : State) (g : GRef) (f : Gang → Gang) : (modGang s g f).powerEngaged = s.powerEngaged := by cases g <;> rfl
@[simp] theorem modGang_coldPlate (s : State) (g : GRef) (f : Gang → Gang) : (modGang s g f).coldPlate = s.coldPlate := by cases g <;> rfl
@[simp] theorem modGang_dbgEn (s : State) (g : GRef) (f : Gang → Gang) : (modGang s g f).dbgEn = s.dbgEn := by cases g <;> rfl
@[simp] theorem modGang_dbgCtx (s : State) (g : GRef) (f : Gang → Gang) : (modGang s g f).dbgCtx = s.dbgCtx := by cases g <;> rfl
@[simp] theorem modGang_spanid (s : State) (g : GRef) (f : Gang → Gang) : (modGang s g f).spanid = s.spanid := by cases g <;> rfl
@[simp] theorem modGang_route (s : State) (g : GRef) (f : Gang → Gang) : (modGang s g f).route = s.route := by cases g <;> rfl
@[simp] theorem modGang_spanGroup (s : State) (g : GRef) (f : Gang → Gang) : (modGang s g f).spanGroup = s.spanGroup := by cases g <;> rfl
@[simp] theorem modGang_lead (s : State) (g : GRef) (f : Gang → Gang) : (modGang s g f).lead = s.lead := by cases g <;> rfl
@[simp] theorem modGang_missed (s : State) (g : GRef) (f : Gang → Gang) : (modGang s g f).missed = s.missed := by cases g <;> rfl
@[simp] theorem modGang_headerHash (s : State) (g : GRef) (f : Gang → Gang) : (modGang s g f).headerHash = s.headerHash := by cases g <;> rfl
@[simp] theorem modGang_lineClock (s : State) (g : GRef) (f : Gang → Gang) : (modGang s g f).lineClock = s.lineClock := by cases g <;> rfl
@[simp] theorem modGang_lineAcc (s : State) (g : GRef) (f : Gang → Gang) : (modGang s g f).lineAcc = s.lineAcc := by cases g <;> rfl
@[simp] theorem modGang_agenda (s : State) (g : GRef) (f : Gang → Gang) : (modGang s g f).agenda = s.agenda := by cases g <;> rfl
@[simp] theorem modGang_cur (s : State) (g : GRef) (f : Gang → Gang) : (modGang s g f).cur = s.cur := by cases g <;> rfl
@[simp] theorem modGang_blocked (s : State) (g : GRef) (f : Gang → Gang) : (modGang s g f).blocked = s.blocked := by cases g <;> rfl
@[simp] theorem modGang_fresh (s : State) (g : GRef) (f : Gang → Gang) : (modGang s g f).fresh = s.fresh := by cases g <;> rfl

/-! ### `modGroup` -/

@[simp] theorem modGroup_cycle (s : State) (g : GRef) (k : Nat) (f : QGroup → QGroup) : (modGroup s g k f).cycle = s.cycle := by cases g <;> rfl
@[simp] theorem modGroup_mem (s : State) (g : GRef) (k : Nat) (f : QGroup → QGroup) : (modGroup s g k f).mem = s.mem := by cases g <;> rfl
@[simp] theorem modGroup_hcopy (s : State) (g : GRef) (k : Nat) (f : QGroup → QGroup) : (modGroup s g k f).hcopy = s.hcopy := by cases g <;> rfl
@[simp] theorem modGroup_zeroFar (s : State) (g : GRef) (k : Nat) (f : QGroup → QGroup) : (modGroup s g k f).zeroFar = s.zeroFar := by cases g <;> rfl
@[simp] theorem modGroup_storers (s : State) (g : GRef) (k : Nat) (f : QGroup → QGroup) : (modGroup s g k f).storers = s.storers := by cases g <;> rfl
@[simp] theorem modGroup_l2 (s : State) (g : GRef) (k : Nat) (f : QGroup → QGroup) : (modGroup s g k f).l2 = s.l2 := by cases g <;> rfl
@[simp] theorem modGroup_zmap (s : State) (g : GRef) (k : Nat) (f : QGroup → QGroup) : (modGroup s g k f).zmap = s.zmap := by cases g <;> rfl
@[simp] theorem modGroup_lost (s : State) (g : GRef) (k : Nat) (f : QGroup → QGroup) : (modGroup s g k f).lost = s.lost := by cases g <;> rfl
@[simp] theorem modGroup_keptCores (s : State) (g : GRef) (k : Nat) (f : QGroup → QGroup) : (modGroup s g k f).keptCores = s.keptCores := by cases g <;> rfl
@[simp] theorem modGroup_dies (s : State) (g : GRef) (k : Nat) (f : QGroup → QGroup) : (modGroup s g k f).dies = s.dies := by cases g <;> rfl
@[simp] theorem modGroup_launches (s : State) (g : GRef) (k : Nat) (f : QGroup → QGroup) : (modGroup s g k f).launches = s.launches := by cases g <;> rfl
@[simp] theorem modGroup_nextCrew (s : State) (g : GRef) (k : Nat) (f : QGroup → QGroup) : (modGroup s g k f).nextCrew = s.nextCrew := by cases g <;> rfl
@[simp] theorem modGroup_accept (s : State) (g : GRef) (k : Nat) (f : QGroup → QGroup) : (modGroup s g k f).accept = s.accept := by cases g <;> rfl
@[simp] theorem modGroup_unwinds (s : State) (g : GRef) (k : Nat) (f : QGroup → QGroup) : (modGroup s g k f).unwinds = s.unwinds := by cases g <;> rfl
@[simp] theorem modGroup_nextUnwind (s : State) (g : GRef) (k : Nat) (f : QGroup → QGroup) : (modGroup s g k f).nextUnwind = s.nextUnwind := by cases g <;> rfl
@[simp] theorem modGroup_ctxbase (s : State) (g : GRef) (k : Nat) (f : QGroup → QGroup) : (modGroup s g k f).ctxbase = s.ctxbase := by cases g <;> rfl
@[simp] theorem modGroup_xlats (s : State) (g : GRef) (k : Nat) (f : QGroup → QGroup) : (modGroup s g k f).xlats = s.xlats := by cases g <;> rfl
@[simp] theorem modGroup_tinv (s : State) (g : GRef) (k : Nat) (f : QGroup → QGroup) : (modGroup s g k f).tinv = s.tinv := by cases g <;> rfl
@[simp] theorem modGroup_regions (s : State) (g : GRef) (k : Nat) (f : QGroup → QGroup) : (modGroup s g k f).regions = s.regions := by cases g <;> rfl
@[simp] theorem modGroup_access (s : State) (g : GRef) (k : Nat) (f : QGroup → QGroup) : (modGroup s g k f).access = s.access := by cases g <;> rfl
@[simp] theorem modGroup_queues (s : State) (g : GRef) (k : Nat) (f : QGroup → QGroup) : (modGroup s g k f).queues = s.queues := by cases g <;> rfl
@[simp] theorem modGroup_lastQ (s : State) (g : GRef) (k : Nat) (f : QGroup → QGroup) : (modGroup s g k f).lastQ = s.lastQ := by cases g <;> rfl
@[simp] theorem modGroup_closing (s : State) (g : GRef) (k : Nat) (f : QGroup → QGroup) : (modGroup s g k f).closing = s.closing := by cases g <;> rfl
@[simp] theorem modGroup_merged (s : State) (g : GRef) (k : Nat) (f : QGroup → QGroup) : (modGroup s g k f).merged = s.merged := by cases g <;> rfl
@[simp] theorem modGroup_grants (s : State) (g : GRef) (k : Nat) (f : QGroup → QGroup) : (modGroup s g k f).grants = s.grants := by cases g <;> rfl
@[simp] theorem modGroup_exchanging (s : State) (g : GRef) (k : Nat) (f : QGroup → QGroup) : (modGroup s g k f).exchanging = s.exchanging := by cases g <;> rfl
@[simp] theorem modGroup_mergeBy (s : State) (g : GRef) (k : Nat) (f : QGroup → QGroup) : (modGroup s g k f).mergeBy = s.mergeBy := by cases g <;> rfl
@[simp] theorem modGroup_claims (s : State) (g : GRef) (k : Nat) (f : QGroup → QGroup) : (modGroup s g k f).claims = s.claims := by cases g <;> rfl
@[simp] theorem modGroup_claimOrder (s : State) (g : GRef) (k : Nat) (f : QGroup → QGroup) : (modGroup s g k f).claimOrder = s.claimOrder := by cases g <;> rfl
@[simp] theorem modGroup_ring (s : State) (g : GRef) (k : Nat) (f : QGroup → QGroup) : (modGroup s g k f).ring = s.ring := by cases g <;> rfl
@[simp] theorem modGroup_pageRegs (s : State) (g : GRef) (k : Nat) (f : QGroup → QGroup) : (modGroup s g k f).pageRegs = s.pageRegs := by cases g <;> rfl
@[simp] theorem modGroup_pageReqs (s : State) (g : GRef) (k : Nat) (f : QGroup → QGroup) : (modGroup s g k f).pageReqs = s.pageReqs := by cases g <;> rfl
@[simp] theorem modGroup_pageOps (s : State) (g : GRef) (k : Nat) (f : QGroup → QGroup) : (modGroup s g k f).pageOps = s.pageOps := by cases g <;> rfl
@[simp] theorem modGroup_ownreq (s : State) (g : GRef) (k : Nat) (f : QGroup → QGroup) : (modGroup s g k f).ownreq = s.ownreq := by cases g <;> rfl
@[simp] theorem modGroup_hostOwned (s : State) (g : GRef) (k : Nat) (f : QGroup → QGroup) : (modGroup s g k f).hostOwned = s.hostOwned := by cases g <;> rfl
@[simp] theorem modGroup_hostDir (s : State) (g : GRef) (k : Nat) (f : QGroup → QGroup) : (modGroup s g k f).hostDir = s.hostDir := by cases g <;> rfl
@[simp] theorem modGroup_hostPortDown (s : State) (g : GRef) (k : Nat) (f : QGroup → QGroup) : (modGroup s g k f).hostPortDown = s.hostPortDown := by cases g <;> rfl
@[simp] theorem modGroup_beat (s : State) (g : GRef) (k : Nat) (f : QGroup → QGroup) : (modGroup s g k f).beat = s.beat := by cases g <;> rfl
@[simp] theorem modGroup_beatNext (s : State) (g : GRef) (k : Nat) (f : QGroup → QGroup) : (modGroup s g k f).beatNext = s.beatNext := by cases g <;> rfl
@[simp] theorem modGroup_claimto (s : State) (g : GRef) (k : Nat) (f : QGroup → QGroup) : (modGroup s g k f).claimto = s.claimto := by cases g <;> rfl
@[simp] theorem modGroup_tick (s : State) (g : GRef) (k : Nat) (f : QGroup → QGroup) : (modGroup s g k f).tick = s.tick := by cases g <;> rfl
@[simp] theorem modGroup_live (s : State) (g : GRef) (k : Nat) (f : QGroup → QGroup) : (modGroup s g k f).live = s.live := by cases g <;> rfl
@[simp] theorem modGroup_latch (s : State) (g : GRef) (k : Nat) (f : QGroup → QGroup) : (modGroup s g k f).latch = s.latch := by cases g <;> rfl
@[simp] theorem modGroup_counts (s : State) (g : GRef) (k : Nat) (f : QGroup → QGroup) : (modGroup s g k f).counts = s.counts := by cases g <;> rfl
@[simp] theorem modGroup_wrote (s : State) (g : GRef) (k : Nat) (f : QGroup → QGroup) : (modGroup s g k f).wrote = s.wrote := by cases g <;> rfl
@[simp] theorem modGroup_late (s : State) (g : GRef) (k : Nat) (f : QGroup → QGroup) : (modGroup s g k f).late = s.late := by cases g <;> rfl
@[simp] theorem modGroup_trace (s : State) (g : GRef) (k : Nat) (f : QGroup → QGroup) : (modGroup s g k f).trace = s.trace := by cases g <;> rfl
@[simp] theorem modGroup_start (s : State) (g : GRef) (k : Nat) (f : QGroup → QGroup) : (modGroup s g k f).start = s.start := by cases g <;> rfl
@[simp] theorem modGroup_shadow (s : State) (g : GRef) (k : Nat) (f : QGroup → QGroup) : (modGroup s g k f).shadow = s.shadow := by cases g <;> rfl
@[simp] theorem modGroup_stoppedClock (s : State) (g : GRef) (k : Nat) (f : QGroup → QGroup) : (modGroup s g k f).stoppedClock = s.stoppedClock := by cases g <;> rfl
@[simp] theorem modGroup_attest (s : State) (g : GRef) (k : Nat) (f : QGroup → QGroup) : (modGroup s g k f).attest = s.attest := by cases g <;> rfl
@[simp] theorem modGroup_attestGo (s : State) (g : GRef) (k : Nat) (f : QGroup → QGroup) : (modGroup s g k f).attestGo = s.attestGo := by cases g <;> rfl
@[simp] theorem modGroup_attestDone (s : State) (g : GRef) (k : Nat) (f : QGroup → QGroup) : (modGroup s g k f).attestDone = s.attestDone := by cases g <;> rfl
@[simp] theorem modGroup_lmarg (s : State) (g : GRef) (k : Nat) (f : QGroup → QGroup) : (modGroup s g k f).lmarg = s.lmarg := by cases g <;> rfl
@[simp] theorem modGroup_ports (s : State) (g : GRef) (k : Nat) (f : QGroup → QGroup) : (modGroup s g k f).ports = s.ports := by cases g <;> rfl
@[simp] theorem modGroup_powlim (s : State) (g : GRef) (k : Nat) (f : QGroup → QGroup) : (modGroup s g k f).powlim = s.powlim := by cases g <;> rfl
@[simp] theorem modGroup_power (s : State) (g : GRef) (k : Nat) (f : QGroup → QGroup) : (modGroup s g k f).power = s.power := by cases g <;> rfl
@[simp] theorem modGroup_powerEngaged (s : State) (g : GRef) (k : Nat) (f : QGroup → QGroup) : (modGroup s g k f).powerEngaged = s.powerEngaged := by cases g <;> rfl
@[simp] theorem modGroup_coldPlate (s : State) (g : GRef) (k : Nat) (f : QGroup → QGroup) : (modGroup s g k f).coldPlate = s.coldPlate := by cases g <;> rfl
@[simp] theorem modGroup_dbgEn (s : State) (g : GRef) (k : Nat) (f : QGroup → QGroup) : (modGroup s g k f).dbgEn = s.dbgEn := by cases g <;> rfl
@[simp] theorem modGroup_dbgCtx (s : State) (g : GRef) (k : Nat) (f : QGroup → QGroup) : (modGroup s g k f).dbgCtx = s.dbgCtx := by cases g <;> rfl
@[simp] theorem modGroup_spanid (s : State) (g : GRef) (k : Nat) (f : QGroup → QGroup) : (modGroup s g k f).spanid = s.spanid := by cases g <;> rfl
@[simp] theorem modGroup_route (s : State) (g : GRef) (k : Nat) (f : QGroup → QGroup) : (modGroup s g k f).route = s.route := by cases g <;> rfl
@[simp] theorem modGroup_spanGroup (s : State) (g : GRef) (k : Nat) (f : QGroup → QGroup) : (modGroup s g k f).spanGroup = s.spanGroup := by cases g <;> rfl
@[simp] theorem modGroup_lead (s : State) (g : GRef) (k : Nat) (f : QGroup → QGroup) : (modGroup s g k f).lead = s.lead := by cases g <;> rfl
@[simp] theorem modGroup_missed (s : State) (g : GRef) (k : Nat) (f : QGroup → QGroup) : (modGroup s g k f).missed = s.missed := by cases g <;> rfl
@[simp] theorem modGroup_headerHash (s : State) (g : GRef) (k : Nat) (f : QGroup → QGroup) : (modGroup s g k f).headerHash = s.headerHash := by cases g <;> rfl
@[simp] theorem modGroup_lineClock (s : State) (g : GRef) (k : Nat) (f : QGroup → QGroup) : (modGroup s g k f).lineClock = s.lineClock := by cases g <;> rfl
@[simp] theorem modGroup_lineAcc (s : State) (g : GRef) (k : Nat) (f : QGroup → QGroup) : (modGroup s g k f).lineAcc = s.lineAcc := by cases g <;> rfl
@[simp] theorem modGroup_agenda (s : State) (g : GRef) (k : Nat) (f : QGroup → QGroup) : (modGroup s g k f).agenda = s.agenda := by cases g <;> rfl
@[simp] theorem modGroup_cur (s : State) (g : GRef) (k : Nat) (f : QGroup → QGroup) : (modGroup s g k f).cur = s.cur := by cases g <;> rfl
@[simp] theorem modGroup_blocked (s : State) (g : GRef) (k : Nat) (f : QGroup → QGroup) : (modGroup s g k f).blocked = s.blocked := by cases g <;> rfl
@[simp] theorem modGroup_fresh (s : State) (g : GRef) (k : Nat) (f : QGroup → QGroup) : (modGroup s g k f).fresh = s.fresh := by cases g <;> rfl

/-! ### `wrV` -/

@[simp] theorem wrV_num (g : Gang) (n l x : Nat) : (wrV g n l x).num = g.num := rfl
@[simp] theorem wrV_width (g : Gang) (n l x : Nat) : (wrV g n l x).width = g.width := rfl
@[simp] theorem wrV_valid (g : Gang) (n l x : Nat) : (wrV g n l x).valid = g.valid := rfl
@[simp] theorem wrV_n (g : Gang) (n l x : Nat) : (wrV g n l x).n = g.n := rfl
@[simp] theorem wrV_p (g : Gang) (n l x : Nat) : (wrV g n l x).p = g.p := rfl
@[simp] theorem wrV_vbase (g : Gang) (n l x : Nat) : (wrV g n l x).vbase = g.vbase := rfl
@[simp] theorem wrV_vbound (g : Gang) (n l x : Nat) : (wrV g n l x).vbound = g.vbound := rfl
@[simp] theorem wrV_spill (g : Gang) (n l x : Nat) : (wrV g n l x).spill = g.spill := rfl
@[simp] theorem wrV_slot (g : Gang) (n l x : Nat) : (wrV g n l x).slot = g.slot := rfl
@[simp] theorem wrV_pipe (g : Gang) (n l x : Nat) : (wrV g n l x).pipe = g.pipe := rfl
@[simp] theorem wrV_pr (g : Gang) (n l x : Nat) : (wrV g n l x).pr = g.pr := rfl
@[simp] theorem wrV_cnt (g : Gang) (n l x : Nat) : (wrV g n l x).cnt = g.cnt := rfl
@[simp] theorem wrV_s (g : Gang) (n l x : Nat) : (wrV g n l x).s = g.s := rfl
@[simp] theorem wrV_c (g : Gang) (n l x : Nat) : (wrV g n l x).c = g.c := rfl
@[simp] theorem wrV_b (g : Gang) (n l x : Nat) : (wrV g n l x).b = g.b := rfl
@[simp] theorem wrV_f (g : Gang) (n l x : Nat) : (wrV g n l x).f = g.f := rfl
@[simp] theorem wrV_k (g : Gang) (n l x : Nat) : (wrV g n l x).k = g.k := rfl
@[simp] theorem wrV_paths (g : Gang) (n l x : Nat) : (wrV g n l x).paths = g.paths := rfl
@[simp] theorem wrV_lr (g : Gang) (n l x : Nat) : (wrV g n l x).lr = g.lr := rfl
@[simp] theorem wrV_groups (g : Gang) (n l x : Nat) : (wrV g n l x).groups = g.groups := rfl
@[simp] theorem wrV_stack (g : Gang) (n l x : Nat) : (wrV g n l x).stack = g.stack := rfl
@[simp] theorem wrV_entered (g : Gang) (n l x : Nat) : (wrV g n l x).entered = g.entered := rfl
@[simp] theorem wrV_fail (g : Gang) (n l x : Nat) : (wrV g n l x).fail = g.fail := rfl
@[simp] theorem wrV_buf (g : Gang) (n l x : Nat) : (wrV g n l x).buf = g.buf := rfl
@[simp] theorem wrV_sysq (g : Gang) (n l x : Nat) : (wrV g n l x).sysq = g.sysq := rfl
@[simp] theorem wrV_flights (g : Gang) (n l x : Nat) : (wrV g n l x).flights = g.flights := rfl
@[simp] theorem wrV_marks (g : Gang) (n l x : Nat) : (wrV g n l x).marks = g.marks := rfl
@[simp] theorem wrV_seq (g : Gang) (n l x : Nat) : (wrV g n l x).seq = g.seq := rfl
@[simp] theorem wrV_round (g : Gang) (n l x : Nat) : (wrV g n l x).round = g.round := rfl
@[simp] theorem wrV_tickets (g : Gang) (n l x : Nat) : (wrV g n l x).tickets = g.tickets := rfl
@[simp] theorem wrV_body (g : Gang) (n l x : Nat) : (wrV g n l x).body = g.body := rfl
@[simp] theorem wrV_ending (g : Gang) (n l x : Nat) : (wrV g n l x).ending = g.ending := rfl
@[simp] theorem wrV_trapped (g : Gang) (n l x : Nat) : (wrV g n l x).trapped = g.trapped := rfl
@[simp] theorem wrV_trapReq (g : Gang) (n l x : Nat) : (wrV g n l x).trapReq = g.trapReq := rfl
@[simp] theorem wrV_noticed (g : Gang) (n l x : Nat) : (wrV g n l x).noticed = g.noticed := rfl
@[simp] theorem wrV_stopped (g : Gang) (n l x : Nat) : (wrV g n l x).stopped = g.stopped := rfl
@[simp] theorem wrV_halted (g : Gang) (n l x : Nat) : (wrV g n l x).halted = g.halted := rfl
@[simp] theorem wrV_abandoned (g : Gang) (n l x : Nat) : (wrV g n l x).abandoned = g.abandoned := rfl
@[simp] theorem wrV_ended (g : Gang) (n l x : Nat) : (wrV g n l x).ended = g.ended := rfl
@[simp] theorem wrV_exitRel (g : Gang) (n l x : Nat) : (wrV g n l x).exitRel = g.exitRel := rfl
@[simp] theorem wrV_lbar (g : Gang) (n l x : Nat) : (wrV g n l x).lbar = g.lbar := rfl

/-! ### `wrVw` -/

@[simp] theorem wrVw_num (g : Gang) (n l : Nat) (w : Bool) (x : Nat) : (wrVw g n l w x).num = g.num := by unfold wrVw; split <;> rfl
@[simp] theorem wrVw_width (g : Gang) (n l : Nat) (w : Bool) (x : Nat) : (wrVw g n l w x).width = g.width := by unfold wrVw; split <;> rfl
@[simp] theorem wrVw_valid (g : Gang) (n l : Nat) (w : Bool) (x : Nat) : (wrVw g n l w x).valid = g.valid := by unfold wrVw; split <;> rfl
@[simp] theorem wrVw_n (g : Gang) (n l : Nat) (w : Bool) (x : Nat) : (wrVw g n l w x).n = g.n := by unfold wrVw; split <;> rfl
@[simp] theorem wrVw_p (g : Gang) (n l : Nat) (w : Bool) (x : Nat) : (wrVw g n l w x).p = g.p := by unfold wrVw; split <;> rfl
@[simp] theorem wrVw_vbase (g : Gang) (n l : Nat) (w : Bool) (x : Nat) : (wrVw g n l w x).vbase = g.vbase := by unfold wrVw; split <;> rfl
@[simp] theorem wrVw_vbound (g : Gang) (n l : Nat) (w : Bool) (x : Nat) : (wrVw g n l w x).vbound = g.vbound := by unfold wrVw; split <;> rfl
@[simp] theorem wrVw_spill (g : Gang) (n l : Nat) (w : Bool) (x : Nat) : (wrVw g n l w x).spill = g.spill := by unfold wrVw; split <;> rfl
@[simp] theorem wrVw_slot (g : Gang) (n l : Nat) (w : Bool) (x : Nat) : (wrVw g n l w x).slot = g.slot := by unfold wrVw; split <;> rfl
@[simp] theorem wrVw_pipe (g : Gang) (n l : Nat) (w : Bool) (x : Nat) : (wrVw g n l w x).pipe = g.pipe := by unfold wrVw; split <;> rfl
@[simp] theorem wrVw_pr (g : Gang) (n l : Nat) (w : Bool) (x : Nat) : (wrVw g n l w x).pr = g.pr := by unfold wrVw; split <;> rfl
@[simp] theorem wrVw_cnt (g : Gang) (n l : Nat) (w : Bool) (x : Nat) : (wrVw g n l w x).cnt = g.cnt := by unfold wrVw; split <;> rfl
@[simp] theorem wrVw_s (g : Gang) (n l : Nat) (w : Bool) (x : Nat) : (wrVw g n l w x).s = g.s := by unfold wrVw; split <;> rfl
@[simp] theorem wrVw_c (g : Gang) (n l : Nat) (w : Bool) (x : Nat) : (wrVw g n l w x).c = g.c := by unfold wrVw; split <;> rfl
@[simp] theorem wrVw_b (g : Gang) (n l : Nat) (w : Bool) (x : Nat) : (wrVw g n l w x).b = g.b := by unfold wrVw; split <;> rfl
@[simp] theorem wrVw_f (g : Gang) (n l : Nat) (w : Bool) (x : Nat) : (wrVw g n l w x).f = g.f := by unfold wrVw; split <;> rfl
@[simp] theorem wrVw_k (g : Gang) (n l : Nat) (w : Bool) (x : Nat) : (wrVw g n l w x).k = g.k := by unfold wrVw; split <;> rfl
@[simp] theorem wrVw_paths (g : Gang) (n l : Nat) (w : Bool) (x : Nat) : (wrVw g n l w x).paths = g.paths := by unfold wrVw; split <;> rfl
@[simp] theorem wrVw_lr (g : Gang) (n l : Nat) (w : Bool) (x : Nat) : (wrVw g n l w x).lr = g.lr := by unfold wrVw; split <;> rfl
@[simp] theorem wrVw_groups (g : Gang) (n l : Nat) (w : Bool) (x : Nat) : (wrVw g n l w x).groups = g.groups := by unfold wrVw; split <;> rfl
@[simp] theorem wrVw_stack (g : Gang) (n l : Nat) (w : Bool) (x : Nat) : (wrVw g n l w x).stack = g.stack := by unfold wrVw; split <;> rfl
@[simp] theorem wrVw_entered (g : Gang) (n l : Nat) (w : Bool) (x : Nat) : (wrVw g n l w x).entered = g.entered := by unfold wrVw; split <;> rfl
@[simp] theorem wrVw_fail (g : Gang) (n l : Nat) (w : Bool) (x : Nat) : (wrVw g n l w x).fail = g.fail := by unfold wrVw; split <;> rfl
@[simp] theorem wrVw_buf (g : Gang) (n l : Nat) (w : Bool) (x : Nat) : (wrVw g n l w x).buf = g.buf := by unfold wrVw; split <;> rfl
@[simp] theorem wrVw_sysq (g : Gang) (n l : Nat) (w : Bool) (x : Nat) : (wrVw g n l w x).sysq = g.sysq := by unfold wrVw; split <;> rfl
@[simp] theorem wrVw_flights (g : Gang) (n l : Nat) (w : Bool) (x : Nat) : (wrVw g n l w x).flights = g.flights := by unfold wrVw; split <;> rfl
@[simp] theorem wrVw_marks (g : Gang) (n l : Nat) (w : Bool) (x : Nat) : (wrVw g n l w x).marks = g.marks := by unfold wrVw; split <;> rfl
@[simp] theorem wrVw_seq (g : Gang) (n l : Nat) (w : Bool) (x : Nat) : (wrVw g n l w x).seq = g.seq := by unfold wrVw; split <;> rfl
@[simp] theorem wrVw_round (g : Gang) (n l : Nat) (w : Bool) (x : Nat) : (wrVw g n l w x).round = g.round := by unfold wrVw; split <;> rfl
@[simp] theorem wrVw_tickets (g : Gang) (n l : Nat) (w : Bool) (x : Nat) : (wrVw g n l w x).tickets = g.tickets := by unfold wrVw; split <;> rfl
@[simp] theorem wrVw_body (g : Gang) (n l : Nat) (w : Bool) (x : Nat) : (wrVw g n l w x).body = g.body := by unfold wrVw; split <;> rfl
@[simp] theorem wrVw_ending (g : Gang) (n l : Nat) (w : Bool) (x : Nat) : (wrVw g n l w x).ending = g.ending := by unfold wrVw; split <;> rfl
@[simp] theorem wrVw_trapped (g : Gang) (n l : Nat) (w : Bool) (x : Nat) : (wrVw g n l w x).trapped = g.trapped := by unfold wrVw; split <;> rfl
@[simp] theorem wrVw_trapReq (g : Gang) (n l : Nat) (w : Bool) (x : Nat) : (wrVw g n l w x).trapReq = g.trapReq := by unfold wrVw; split <;> rfl
@[simp] theorem wrVw_noticed (g : Gang) (n l : Nat) (w : Bool) (x : Nat) : (wrVw g n l w x).noticed = g.noticed := by unfold wrVw; split <;> rfl
@[simp] theorem wrVw_stopped (g : Gang) (n l : Nat) (w : Bool) (x : Nat) : (wrVw g n l w x).stopped = g.stopped := by unfold wrVw; split <;> rfl
@[simp] theorem wrVw_halted (g : Gang) (n l : Nat) (w : Bool) (x : Nat) : (wrVw g n l w x).halted = g.halted := by unfold wrVw; split <;> rfl
@[simp] theorem wrVw_abandoned (g : Gang) (n l : Nat) (w : Bool) (x : Nat) : (wrVw g n l w x).abandoned = g.abandoned := by unfold wrVw; split <;> rfl
@[simp] theorem wrVw_ended (g : Gang) (n l : Nat) (w : Bool) (x : Nat) : (wrVw g n l w x).ended = g.ended := by unfold wrVw; split <;> rfl
@[simp] theorem wrVw_exitRel (g : Gang) (n l : Nat) (w : Bool) (x : Nat) : (wrVw g n l w x).exitRel = g.exitRel := by unfold wrVw; split <;> rfl
@[simp] theorem wrVw_lbar (g : Gang) (n l : Nat) (w : Bool) (x : Nat) : (wrVw g n l w x).lbar = g.lbar := by unfold wrVw; split <;> rfl

/-! ### `wrS` -/

@[simp] theorem wrS_num (g : Gang) (n x : Nat) : (wrS g n x).num = g.num := rfl
@[simp] theorem wrS_width (g : Gang) (n x : Nat) : (wrS g n x).width = g.width := rfl
@[simp] theorem wrS_valid (g : Gang) (n x : Nat) : (wrS g n x).valid = g.valid := rfl
@[simp] theorem wrS_n (g : Gang) (n x : Nat) : (wrS g n x).n = g.n := rfl
@[simp] theorem wrS_p (g : Gang) (n x : Nat) : (wrS g n x).p = g.p := rfl
@[simp] theorem wrS_vbase (g : Gang) (n x : Nat) : (wrS g n x).vbase = g.vbase := rfl
@[simp] theorem wrS_vbound (g : Gang) (n x : Nat) : (wrS g n x).vbound = g.vbound := rfl
@[simp] theorem wrS_spill (g : Gang) (n x : Nat) : (wrS g n x).spill = g.spill := rfl
@[simp] theorem wrS_slot (g : Gang) (n x : Nat) : (wrS g n x).slot = g.slot := rfl
@[simp] theorem wrS_pipe (g : Gang) (n x : Nat) : (wrS g n x).pipe = g.pipe := rfl
@[simp] theorem wrS_v (g : Gang) (n x : Nat) : (wrS g n x).v = g.v := rfl
@[simp] theorem wrS_pr (g : Gang) (n x : Nat) : (wrS g n x).pr = g.pr := rfl
@[simp] theorem wrS_cnt (g : Gang) (n x : Nat) : (wrS g n x).cnt = g.cnt := rfl
@[simp] theorem wrS_c (g : Gang) (n x : Nat) : (wrS g n x).c = g.c := rfl
@[simp] theorem wrS_b (g : Gang) (n x : Nat) : (wrS g n x).b = g.b := rfl
@[simp] theorem wrS_f (g : Gang) (n x : Nat) : (wrS g n x).f = g.f := rfl
@[simp] theorem wrS_k (g : Gang) (n x : Nat) : (wrS g n x).k = g.k := rfl
@[simp] theorem wrS_paths (g : Gang) (n x : Nat) : (wrS g n x).paths = g.paths := rfl
@[simp] theorem wrS_lr (g : Gang) (n x : Nat) : (wrS g n x).lr = g.lr := rfl
@[simp] theorem wrS_groups (g : Gang) (n x : Nat) : (wrS g n x).groups = g.groups := rfl
@[simp] theorem wrS_stack (g : Gang) (n x : Nat) : (wrS g n x).stack = g.stack := rfl
@[simp] theorem wrS_entered (g : Gang) (n x : Nat) : (wrS g n x).entered = g.entered := rfl
@[simp] theorem wrS_fail (g : Gang) (n x : Nat) : (wrS g n x).fail = g.fail := rfl
@[simp] theorem wrS_buf (g : Gang) (n x : Nat) : (wrS g n x).buf = g.buf := rfl
@[simp] theorem wrS_sysq (g : Gang) (n x : Nat) : (wrS g n x).sysq = g.sysq := rfl
@[simp] theorem wrS_flights (g : Gang) (n x : Nat) : (wrS g n x).flights = g.flights := rfl
@[simp] theorem wrS_marks (g : Gang) (n x : Nat) : (wrS g n x).marks = g.marks := rfl
@[simp] theorem wrS_seq (g : Gang) (n x : Nat) : (wrS g n x).seq = g.seq := rfl
@[simp] theorem wrS_spilled (g : Gang) (n x : Nat) : (wrS g n x).spilled = g.spilled := rfl
@[simp] theorem wrS_unhomed (g : Gang) (n x : Nat) : (wrS g n x).unhomed = g.unhomed := rfl
@[simp] theorem wrS_round (g : Gang) (n x : Nat) : (wrS g n x).round = g.round := rfl
@[simp] theorem wrS_tickets (g : Gang) (n x : Nat) : (wrS g n x).tickets = g.tickets := rfl
@[simp] theorem wrS_body (g : Gang) (n x : Nat) : (wrS g n x).body = g.body := rfl
@[simp] theorem wrS_ending (g : Gang) (n x : Nat) : (wrS g n x).ending = g.ending := rfl
@[simp] theorem wrS_trapped (g : Gang) (n x : Nat) : (wrS g n x).trapped = g.trapped := rfl
@[simp] theorem wrS_trapReq (g : Gang) (n x : Nat) : (wrS g n x).trapReq = g.trapReq := rfl
@[simp] theorem wrS_noticed (g : Gang) (n x : Nat) : (wrS g n x).noticed = g.noticed := rfl
@[simp] theorem wrS_stopped (g : Gang) (n x : Nat) : (wrS g n x).stopped = g.stopped := rfl
@[simp] theorem wrS_halted (g : Gang) (n x : Nat) : (wrS g n x).halted = g.halted := rfl
@[simp] theorem wrS_abandoned (g : Gang) (n x : Nat) : (wrS g n x).abandoned = g.abandoned := rfl
@[simp] theorem wrS_ended (g : Gang) (n x : Nat) : (wrS g n x).ended = g.ended := rfl
@[simp] theorem wrS_exitRel (g : Gang) (n x : Nat) : (wrS g n x).exitRel = g.exitRel := rfl
@[simp] theorem wrS_lbar (g : Gang) (n x : Nat) : (wrS g n x).lbar = g.lbar := rfl

/-! ### `wrC` -/

@[simp] theorem wrC_num (g : Gang) (n : Nat) (x : Bool) : (wrC g n x).num = g.num := rfl
@[simp] theorem wrC_width (g : Gang) (n : Nat) (x : Bool) : (wrC g n x).width = g.width := rfl
@[simp] theorem wrC_valid (g : Gang) (n : Nat) (x : Bool) : (wrC g n x).valid = g.valid := rfl
@[simp] theorem wrC_n (g : Gang) (n : Nat) (x : Bool) : (wrC g n x).n = g.n := rfl
@[simp] theorem wrC_p (g : Gang) (n : Nat) (x : Bool) : (wrC g n x).p = g.p := rfl
@[simp] theorem wrC_vbase (g : Gang) (n : Nat) (x : Bool) : (wrC g n x).vbase = g.vbase := rfl
@[simp] theorem wrC_vbound (g : Gang) (n : Nat) (x : Bool) : (wrC g n x).vbound = g.vbound := rfl
@[simp] theorem wrC_spill (g : Gang) (n : Nat) (x : Bool) : (wrC g n x).spill = g.spill := rfl
@[simp] theorem wrC_slot (g : Gang) (n : Nat) (x : Bool) : (wrC g n x).slot = g.slot := rfl
@[simp] theorem wrC_pipe (g : Gang) (n : Nat) (x : Bool) : (wrC g n x).pipe = g.pipe := rfl
@[simp] theorem wrC_v (g : Gang) (n : Nat) (x : Bool) : (wrC g n x).v = g.v := rfl
@[simp] theorem wrC_pr (g : Gang) (n : Nat) (x : Bool) : (wrC g n x).pr = g.pr := rfl
@[simp] theorem wrC_cnt (g : Gang) (n : Nat) (x : Bool) : (wrC g n x).cnt = g.cnt := rfl
@[simp] theorem wrC_s (g : Gang) (n : Nat) (x : Bool) : (wrC g n x).s = g.s := rfl
@[simp] theorem wrC_b (g : Gang) (n : Nat) (x : Bool) : (wrC g n x).b = g.b := rfl
@[simp] theorem wrC_f (g : Gang) (n : Nat) (x : Bool) : (wrC g n x).f = g.f := rfl
@[simp] theorem wrC_k (g : Gang) (n : Nat) (x : Bool) : (wrC g n x).k = g.k := rfl
@[simp] theorem wrC_paths (g : Gang) (n : Nat) (x : Bool) : (wrC g n x).paths = g.paths := rfl
@[simp] theorem wrC_lr (g : Gang) (n : Nat) (x : Bool) : (wrC g n x).lr = g.lr := rfl
@[simp] theorem wrC_groups (g : Gang) (n : Nat) (x : Bool) : (wrC g n x).groups = g.groups := rfl
@[simp] theorem wrC_stack (g : Gang) (n : Nat) (x : Bool) : (wrC g n x).stack = g.stack := rfl
@[simp] theorem wrC_entered (g : Gang) (n : Nat) (x : Bool) : (wrC g n x).entered = g.entered := rfl
@[simp] theorem wrC_fail (g : Gang) (n : Nat) (x : Bool) : (wrC g n x).fail = g.fail := rfl
@[simp] theorem wrC_buf (g : Gang) (n : Nat) (x : Bool) : (wrC g n x).buf = g.buf := rfl
@[simp] theorem wrC_sysq (g : Gang) (n : Nat) (x : Bool) : (wrC g n x).sysq = g.sysq := rfl
@[simp] theorem wrC_flights (g : Gang) (n : Nat) (x : Bool) : (wrC g n x).flights = g.flights := rfl
@[simp] theorem wrC_marks (g : Gang) (n : Nat) (x : Bool) : (wrC g n x).marks = g.marks := rfl
@[simp] theorem wrC_seq (g : Gang) (n : Nat) (x : Bool) : (wrC g n x).seq = g.seq := rfl
@[simp] theorem wrC_spilled (g : Gang) (n : Nat) (x : Bool) : (wrC g n x).spilled = g.spilled := rfl
@[simp] theorem wrC_unhomed (g : Gang) (n : Nat) (x : Bool) : (wrC g n x).unhomed = g.unhomed := rfl
@[simp] theorem wrC_round (g : Gang) (n : Nat) (x : Bool) : (wrC g n x).round = g.round := rfl
@[simp] theorem wrC_tickets (g : Gang) (n : Nat) (x : Bool) : (wrC g n x).tickets = g.tickets := rfl
@[simp] theorem wrC_body (g : Gang) (n : Nat) (x : Bool) : (wrC g n x).body = g.body := rfl
@[simp] theorem wrC_ending (g : Gang) (n : Nat) (x : Bool) : (wrC g n x).ending = g.ending := rfl
@[simp] theorem wrC_trapped (g : Gang) (n : Nat) (x : Bool) : (wrC g n x).trapped = g.trapped := rfl
@[simp] theorem wrC_trapReq (g : Gang) (n : Nat) (x : Bool) : (wrC g n x).trapReq = g.trapReq := rfl
@[simp] theorem wrC_noticed (g : Gang) (n : Nat) (x : Bool) : (wrC g n x).noticed = g.noticed := rfl
@[simp] theorem wrC_stopped (g : Gang) (n : Nat) (x : Bool) : (wrC g n x).stopped = g.stopped := rfl
@[simp] theorem wrC_halted (g : Gang) (n : Nat) (x : Bool) : (wrC g n x).halted = g.halted := rfl
@[simp] theorem wrC_abandoned (g : Gang) (n : Nat) (x : Bool) : (wrC g n x).abandoned = g.abandoned := rfl
@[simp] theorem wrC_ended (g : Gang) (n : Nat) (x : Bool) : (wrC g n x).ended = g.ended := rfl
@[simp] theorem wrC_exitRel (g : Gang) (n : Nat) (x : Bool) : (wrC g n x).exitRel = g.exitRel := rfl
@[simp] theorem wrC_lbar (g : Gang) (n : Nat) (x : Bool) : (wrC g n x).lbar = g.lbar := rfl

/-! ### `wrF` -/

@[simp] theorem wrF_num (g : Gang) (n x : Nat) : (wrF g n x).num = g.num := rfl
@[simp] theorem wrF_width (g : Gang) (n x : Nat) : (wrF g n x).width = g.width := rfl
@[simp] theorem wrF_valid (g : Gang) (n x : Nat) : (wrF g n x).valid = g.valid := rfl
@[simp] theorem wrF_n (g : Gang) (n x : Nat) : (wrF g n x).n = g.n := rfl
@[simp] theorem wrF_p (g : Gang) (n x : Nat) : (wrF g n x).p = g.p := rfl
@[simp] theorem wrF_vbase (g : Gang) (n x : Nat) : (wrF g n x).vbase = g.vbase := rfl
@[simp] theorem wrF_vbound (g : Gang) (n x : Nat) : (wrF g n x).vbound = g.vbound := rfl
@[simp] theorem wrF_spill (g : Gang) (n x : Nat) : (wrF g n x).spill = g.spill := rfl
@[simp] theorem wrF_slot (g : Gang) (n x : Nat) : (wrF g n x).slot = g.slot := rfl
@[simp] theorem wrF_pipe (g : Gang) (n x : Nat) : (wrF g n x).pipe = g.pipe := rfl
@[simp] theorem wrF_v (g : Gang) (n x : Nat) : (wrF g n x).v = g.v := rfl
@[simp] theorem wrF_pr (g : Gang) (n x : Nat) : (wrF g n x).pr = g.pr := rfl
@[simp] theorem wrF_cnt (g : Gang) (n x : Nat) : (wrF g n x).cnt = g.cnt := rfl
@[simp] theorem wrF_s (g : Gang) (n x : Nat) : (wrF g n x).s = g.s := rfl
@[simp] theorem wrF_c (g : Gang) (n x : Nat) : (wrF g n x).c = g.c := rfl
@[simp] theorem wrF_b (g : Gang) (n x : Nat) : (wrF g n x).b = g.b := rfl
@[simp] theorem wrF_k (g : Gang) (n x : Nat) : (wrF g n x).k = g.k := rfl
@[simp] theorem wrF_paths (g : Gang) (n x : Nat) : (wrF g n x).paths = g.paths := rfl
@[simp] theorem wrF_lr (g : Gang) (n x : Nat) : (wrF g n x).lr = g.lr := rfl
@[simp] theorem wrF_groups (g : Gang) (n x : Nat) : (wrF g n x).groups = g.groups := rfl
@[simp] theorem wrF_stack (g : Gang) (n x : Nat) : (wrF g n x).stack = g.stack := rfl
@[simp] theorem wrF_entered (g : Gang) (n x : Nat) : (wrF g n x).entered = g.entered := rfl
@[simp] theorem wrF_fail (g : Gang) (n x : Nat) : (wrF g n x).fail = g.fail := rfl
@[simp] theorem wrF_buf (g : Gang) (n x : Nat) : (wrF g n x).buf = g.buf := rfl
@[simp] theorem wrF_sysq (g : Gang) (n x : Nat) : (wrF g n x).sysq = g.sysq := rfl
@[simp] theorem wrF_flights (g : Gang) (n x : Nat) : (wrF g n x).flights = g.flights := rfl
@[simp] theorem wrF_marks (g : Gang) (n x : Nat) : (wrF g n x).marks = g.marks := rfl
@[simp] theorem wrF_seq (g : Gang) (n x : Nat) : (wrF g n x).seq = g.seq := rfl
@[simp] theorem wrF_spilled (g : Gang) (n x : Nat) : (wrF g n x).spilled = g.spilled := rfl
@[simp] theorem wrF_unhomed (g : Gang) (n x : Nat) : (wrF g n x).unhomed = g.unhomed := rfl
@[simp] theorem wrF_round (g : Gang) (n x : Nat) : (wrF g n x).round = g.round := rfl
@[simp] theorem wrF_tickets (g : Gang) (n x : Nat) : (wrF g n x).tickets = g.tickets := rfl
@[simp] theorem wrF_body (g : Gang) (n x : Nat) : (wrF g n x).body = g.body := rfl
@[simp] theorem wrF_ending (g : Gang) (n x : Nat) : (wrF g n x).ending = g.ending := rfl
@[simp] theorem wrF_trapped (g : Gang) (n x : Nat) : (wrF g n x).trapped = g.trapped := rfl
@[simp] theorem wrF_trapReq (g : Gang) (n x : Nat) : (wrF g n x).trapReq = g.trapReq := rfl
@[simp] theorem wrF_noticed (g : Gang) (n x : Nat) : (wrF g n x).noticed = g.noticed := rfl
@[simp] theorem wrF_stopped (g : Gang) (n x : Nat) : (wrF g n x).stopped = g.stopped := rfl
@[simp] theorem wrF_halted (g : Gang) (n x : Nat) : (wrF g n x).halted = g.halted := rfl
@[simp] theorem wrF_abandoned (g : Gang) (n x : Nat) : (wrF g n x).abandoned = g.abandoned := rfl
@[simp] theorem wrF_ended (g : Gang) (n x : Nat) : (wrF g n x).ended = g.ended := rfl
@[simp] theorem wrF_exitRel (g : Gang) (n x : Nat) : (wrF g n x).exitRel = g.exitRel := rfl
@[simp] theorem wrF_lbar (g : Gang) (n x : Nat) : (wrF g n x).lbar = g.lbar := rfl

/-! ### `wrP` -/

@[simp] theorem wrP_num (g : Gang) (p l : Nat) (x : Bool) : (wrP g p l x).num = g.num := by unfold wrP; split <;> rfl
@[simp] theorem wrP_width (g : Gang) (p l : Nat) (x : Bool) : (wrP g p l x).width = g.width := by unfold wrP; split <;> rfl
@[simp] theorem wrP_valid (g : Gang) (p l : Nat) (x : Bool) : (wrP g p l x).valid = g.valid := by unfold wrP; split <;> rfl
@[simp] theorem wrP_n (g : Gang) (p l : Nat) (x : Bool) : (wrP g p l x).n = g.n := by unfold wrP; split <;> rfl
@[simp] theorem wrP_p (g : Gang) (p l : Nat) (x : Bool) : (wrP g p l x).p = g.p := by unfold wrP; split <;> rfl
@[simp] theorem wrP_vbase (g : Gang) (p l : Nat) (x : Bool) : (wrP g p l x).vbase = g.vbase := by unfold wrP; split <;> rfl
@[simp] theorem wrP_vbound (g : Gang) (p l : Nat) (x : Bool) : (wrP g p l x).vbound = g.vbound := by unfold wrP; split <;> rfl
@[simp] theorem wrP_spill (g : Gang) (p l : Nat) (x : Bool) : (wrP g p l x).spill = g.spill := by unfold wrP; split <;> rfl
@[simp] theorem wrP_slot (g : Gang) (p l : Nat) (x : Bool) : (wrP g p l x).slot = g.slot := by unfold wrP; split <;> rfl
@[simp] theorem wrP_pipe (g : Gang) (p l : Nat) (x : Bool) : (wrP g p l x).pipe = g.pipe := by unfold wrP; split <;> rfl
@[simp] theorem wrP_v (g : Gang) (p l : Nat) (x : Bool) : (wrP g p l x).v = g.v := by unfold wrP; split <;> rfl
@[simp] theorem wrP_cnt (g : Gang) (p l : Nat) (x : Bool) : (wrP g p l x).cnt = g.cnt := by unfold wrP; split <;> rfl
@[simp] theorem wrP_s (g : Gang) (p l : Nat) (x : Bool) : (wrP g p l x).s = g.s := by unfold wrP; split <;> rfl
@[simp] theorem wrP_c (g : Gang) (p l : Nat) (x : Bool) : (wrP g p l x).c = g.c := by unfold wrP; split <;> rfl
@[simp] theorem wrP_b (g : Gang) (p l : Nat) (x : Bool) : (wrP g p l x).b = g.b := by unfold wrP; split <;> rfl
@[simp] theorem wrP_f (g : Gang) (p l : Nat) (x : Bool) : (wrP g p l x).f = g.f := by unfold wrP; split <;> rfl
@[simp] theorem wrP_k (g : Gang) (p l : Nat) (x : Bool) : (wrP g p l x).k = g.k := by unfold wrP; split <;> rfl
@[simp] theorem wrP_paths (g : Gang) (p l : Nat) (x : Bool) : (wrP g p l x).paths = g.paths := by unfold wrP; split <;> rfl
@[simp] theorem wrP_lr (g : Gang) (p l : Nat) (x : Bool) : (wrP g p l x).lr = g.lr := by unfold wrP; split <;> rfl
@[simp] theorem wrP_groups (g : Gang) (p l : Nat) (x : Bool) : (wrP g p l x).groups = g.groups := by unfold wrP; split <;> rfl
@[simp] theorem wrP_stack (g : Gang) (p l : Nat) (x : Bool) : (wrP g p l x).stack = g.stack := by unfold wrP; split <;> rfl
@[simp] theorem wrP_entered (g : Gang) (p l : Nat) (x : Bool) : (wrP g p l x).entered = g.entered := by unfold wrP; split <;> rfl
@[simp] theorem wrP_fail (g : Gang) (p l : Nat) (x : Bool) : (wrP g p l x).fail = g.fail := by unfold wrP; split <;> rfl
@[simp] theorem wrP_buf (g : Gang) (p l : Nat) (x : Bool) : (wrP g p l x).buf = g.buf := by unfold wrP; split <;> rfl
@[simp] theorem wrP_sysq (g : Gang) (p l : Nat) (x : Bool) : (wrP g p l x).sysq = g.sysq := by unfold wrP; split <;> rfl
@[simp] theorem wrP_flights (g : Gang) (p l : Nat) (x : Bool) : (wrP g p l x).flights = g.flights := by unfold wrP; split <;> rfl
@[simp] theorem wrP_marks (g : Gang) (p l : Nat) (x : Bool) : (wrP g p l x).marks = g.marks := by unfold wrP; split <;> rfl
@[simp] theorem wrP_seq (g : Gang) (p l : Nat) (x : Bool) : (wrP g p l x).seq = g.seq := by unfold wrP; split <;> rfl
@[simp] theorem wrP_spilled (g : Gang) (p l : Nat) (x : Bool) : (wrP g p l x).spilled = g.spilled := by unfold wrP; split <;> rfl
@[simp] theorem wrP_unhomed (g : Gang) (p l : Nat) (x : Bool) : (wrP g p l x).unhomed = g.unhomed := by unfold wrP; split <;> rfl
@[simp] theorem wrP_round (g : Gang) (p l : Nat) (x : Bool) : (wrP g p l x).round = g.round := by unfold wrP; split <;> rfl
@[simp] theorem wrP_tickets (g : Gang) (p l : Nat) (x : Bool) : (wrP g p l x).tickets = g.tickets := by unfold wrP; split <;> rfl
@[simp] theorem wrP_body (g : Gang) (p l : Nat) (x : Bool) : (wrP g p l x).body = g.body := by unfold wrP; split <;> rfl
@[simp] theorem wrP_ending (g : Gang) (p l : Nat) (x : Bool) : (wrP g p l x).ending = g.ending := by unfold wrP; split <;> rfl
@[simp] theorem wrP_trapped (g : Gang) (p l : Nat) (x : Bool) : (wrP g p l x).trapped = g.trapped := by unfold wrP; split <;> rfl
@[simp] theorem wrP_trapReq (g : Gang) (p l : Nat) (x : Bool) : (wrP g p l x).trapReq = g.trapReq := by unfold wrP; split <;> rfl
@[simp] theorem wrP_noticed (g : Gang) (p l : Nat) (x : Bool) : (wrP g p l x).noticed = g.noticed := by unfold wrP; split <;> rfl
@[simp] theorem wrP_stopped (g : Gang) (p l : Nat) (x : Bool) : (wrP g p l x).stopped = g.stopped := by unfold wrP; split <;> rfl
@[simp] theorem wrP_halted (g : Gang) (p l : Nat) (x : Bool) : (wrP g p l x).halted = g.halted := by unfold wrP; split <;> rfl
@[simp] theorem wrP_abandoned (g : Gang) (p l : Nat) (x : Bool) : (wrP g p l x).abandoned = g.abandoned := by unfold wrP; split <;> rfl
@[simp] theorem wrP_ended (g : Gang) (p l : Nat) (x : Bool) : (wrP g p l x).ended = g.ended := by unfold wrP; split <;> rfl
@[simp] theorem wrP_exitRel (g : Gang) (p l : Nat) (x : Bool) : (wrP g p l x).exitRel = g.exitRel := by unfold wrP; split <;> rfl
@[simp] theorem wrP_lbar (g : Gang) (p l : Nat) (x : Bool) : (wrP g p l x).lbar = g.lbar := by unfold wrP; split <;> rfl

end Sys2Proof.Machine
end

