-- ==== Sys2Proof/Laws/Tab.lean ====
section
/-!
SUPPORT. The laws of sparse tables and of memory: a read after a write, and the canonical form kept by every operation.
-/

namespace Sys2Proof.Machine

variable {α : Type}

/-! ### Reading after writing -/

@[simp] theorem Tab.find?_nil (k : Nat) : Tab.find? ([] : Tab α) k = none := rfl

theorem Tab.find?_cons (j : Nat) (x : α) (t : Tab α) (k : Nat) :
    Tab.find? ((j, x) :: t) k = if j = k then some x else Tab.find? t k := rfl

/-- What a key reads as behind each change of a table. -/
theorem Tab.find?_put (t : Tab α) (k l : Nat) (x : α) :
    Tab.find? (Tab.put t k x) l = if l = k then some x else Tab.find? t l := by
  fun_induction Tab.put t k x <;> grind [Tab.find?]

theorem Tab.find?_erase (t : Tab α) (k l : Nat) : Tab.find? (Tab.erase t k) l = if l = k then none else Tab.find? t l := by
  fun_induction Tab.erase t k <;> grind [Tab.find?]

@[simp] theorem Tab.find?_put_same (t : Tab α) (k : Nat) (x : α) : Tab.find? (Tab.put t k x) k = some x := by simp [Tab.find?_put]

theorem Tab.find?_put_ne (t : Tab α) (k l : Nat) (x : α) (h : l ≠ k) : Tab.find? (Tab.put t k x) l = Tab.find? t l := by
  simp [Tab.find?_put, h]

@[simp] theorem Tab.find?_erase_same (t : Tab α) (k : Nat) : Tab.find? (Tab.erase t k) k = none := by simp [Tab.find?_erase]

theorem Tab.find?_upd (t : Tab α) (k l : Nat) (f : α → α) :
    Tab.find? (Tab.upd t k f) l = if l = k then (Tab.find? t k).map f else Tab.find? t l := by
  grind [Tab.upd, Tab.find?_put]

theorem Tab.find?_mapVals {β : Type} (f : Nat → α → β) (t : Tab α) (k : Nat) :
    Tab.find? (Tab.mapVals f t) k = (Tab.find? t k).map (f k) := by
  fun_induction Tab.find? t k <;> grind [Tab.find?, Tab.mapVals]

@[simp] theorem Tab.get_nil (d : α) (k : Nat) : Tab.get d [] k = d := rfl

theorem Tab.get_set [DecidableEq α] (d : α) (t : Tab α) (k l : Nat) (x : α) :
    Tab.get d (Tab.set d t k x) l = if l = k then x else Tab.get d t l := by
  grind [Tab.get, Tab.set, Tab.find?_put, Tab.find?_erase]

@[simp] theorem Tab.get_set_same [DecidableEq α] (d : α) (t : Tab α) (k : Nat) (x : α) : Tab.get d (Tab.set d t k x) k = x := by
  simp [Tab.get_set]

theorem Tab.get_set_ne [DecidableEq α] (d : α) (t : Tab α) (k l : Nat) (x : α) (h : l ≠ k) :
    Tab.get d (Tab.set d t k x) l = Tab.get d t l := by simp [Tab.get_set, h]

/-! ### The canonical form -/

theorem Tab.sortedFrom_mono {b c : Nat} (h : b ≤ c) (t : Tab α) (hs : Tab.sortedFrom c t = true) : Tab.sortedFrom b t = true := by
  cases t <;> grind [Tab.sortedFrom]

theorem Tab.sortedFrom_tail (b : Nat) (p : Nat × α) (t : Tab α) (hs : Tab.sortedFrom b (p :: t) = true) : Tab.sortedFrom b t = true := by
  have key : b ≤ p.1 ∧ Tab.sortedFrom (p.1 + 1) t = true := by grind [Tab.sortedFrom]
  exact Tab.sortedFrom_mono (Nat.le_succ_of_le key.1) t key.2

theorem Tab.sortedFrom_put (t : Tab α) (b k : Nat) (x : α) (hb : b ≤ k) (hs : Tab.sortedFrom b t = true) :
    Tab.sortedFrom b (Tab.put t k x) = true := by
  fun_induction Tab.put t k x generalizing b <;> grind [Tab.sortedFrom]

theorem Tab.sortedFrom_erase (t : Tab α) (b k : Nat) (hs : Tab.sortedFrom b t = true) : Tab.sortedFrom b (Tab.erase t k) = true := by
  fun_induction Tab.erase t k generalizing b <;> grind [Tab.sortedFrom, Tab.sortedFrom_tail]

theorem Tab.sortedFrom_filter (t : Tab α) (b : Nat) (f : Nat × α → Bool) (hs : Tab.sortedFrom b t = true) :
    Tab.sortedFrom b (t.filter f) = true := by
  induction t generalizing b <;> grind [Tab.sortedFrom, Tab.sortedFrom_tail]

theorem Tab.mem_put (t : Tab α) (k : Nat) (x : α) (p : Nat × α) (h : p ∈ Tab.put t k x) : p = (k, x) ∨ p ∈ t := by
  fun_induction Tab.put t k x <;> grind

theorem Tab.mem_erase (t : Tab α) (k : Nat) (p : Nat × α) (h : p ∈ Tab.erase t k) : p ∈ t := by
  fun_induction Tab.erase t k <;> grind

theorem Tab.wf_iff [DecidableEq α] (d : α) (t : Tab α) :
    Tab.wf d t = true ↔ Tab.sortedFrom 0 t = true ∧ ∀ p ∈ t, p.2 ≠ d := by
  simp [Tab.wf]

@[simp] theorem Tab.wf_nil [DecidableEq α] (d : α) : Tab.wf d ([] : Tab α) = true := rfl

theorem Tab.wf_set [DecidableEq α] (d : α) (t : Tab α) (k : Nat) (x : α) (h : Tab.wf d t = true) :
    Tab.wf d (Tab.set d t k x) = true := by
  rw [Tab.wf_iff] at h ⊢
  unfold Tab.set
  split
  · exact ⟨Tab.sortedFrom_erase _ _ _ h.1, fun p hp => h.2 p (Tab.mem_erase _ _ _ hp)⟩
  · refine ⟨Tab.sortedFrom_put _ _ _ _ (Nat.zero_le _) h.1, fun p hp => ?_⟩
    rcases Tab.mem_put _ _ _ _ hp with rfl | hp
    · assumption
    · exact h.2 p hp

theorem Tab.wf_filter [DecidableEq α] (d : α) (t : Tab α) (f : Nat × α → Bool) (h : Tab.wf d t = true) :
    Tab.wf d (t.filter f) = true := by
  rw [Tab.wf_iff] at h ⊢
  exact ⟨Tab.sortedFrom_filter _ _ _ h.1, fun p hp => h.2 p (List.mem_filter.1 hp).1⟩

/-! ### Memory -/

@[simp] theorem Memory.read_write_same (m : Memory) (a : Nat) (b : Byte) : (m.write a b).read a = b := Tab.get_set_same _ _ _ _

theorem Memory.read_write_ne (m : Memory) (a c : Nat) (b : Byte) (h : c ≠ a) : (m.write a b).read c = m.read c :=
  Tab.get_set_ne _ _ _ _ _ h

theorem Memory.read_write (m : Memory) (a c : Nat) (b : Byte) : (m.write a b).read c = if c = a then b else m.read c :=
  Tab.get_set _ _ _ _ _

theorem Memory.wf_write (m : Memory) (a : Nat) (b : Byte) (h : m.wf = true) : (m.write a b).wf = true := Tab.wf_set _ _ _ _ h

theorem Memory.wf_filter (m : Memory) (f : Nat × Byte → Bool) (h : m.wf = true) : Memory.wf (m.filter f) = true :=
  Tab.wf_filter _ _ _ h

theorem Memory.wf_writeN (m : Memory) (a : Nat) (bs : List Byte) (h : m.wf = true) : (m.writeN a bs).wf = true := by
  induction bs generalizing m a with
  | nil => exact h
  | cons b bs ih => exact ih _ _ (Memory.wf_write _ _ _ h)

/-- A write of consecutive bytes leaves every other byte. -/
theorem Memory.read_writeN_outside (m : Memory) (a c : Nat) (bs : List Byte) (h : c < a ∨ a + bs.length ≤ c) :
    (m.writeN a bs).read c = m.read c := by
  induction bs generalizing m a with
  | nil => rfl
  | cons b bs ih =>
    simp only [List.length_cons] at h
    rw [Memory.writeN, ih _ _ (by omega), Memory.read_write_ne _ _ _ _ (by omega)]

/-- Each byte of a write of consecutive bytes reads back. -/
theorem Memory.read_writeN_inside (m : Memory) (a : Nat) (bs : List Byte) (i : Nat) (h : i < bs.length) :
    (m.writeN a bs).read (a + i) = bs[i] := by
  induction bs generalizing m a i with
  | nil => simp at h
  | cons b bs ih =>
    rw [Memory.writeN]
    cases i with
    | zero => rw [Memory.read_writeN_outside _ _ _ _ (by omega)]; simp
    | succ i =>
      have := ih (m.write a b) (a + 1) i (by simpa using h)
      rw [show a + (i + 1) = a + 1 + i by omega, this]; rfl

/-- Consecutive bytes read back as they were written. -/
theorem Memory.readN_writeN (m : Memory) (a : Nat) (bs : List Byte) : (m.writeN a bs).readN a bs.length = bs := by
  induction bs generalizing m a with
  | nil => rfl
  | cons b bs ih =>
    rw [List.length_cons, Memory.readN, Memory.writeN, ih]
    rw [Memory.read_writeN_outside _ _ _ _ (by omega)]
    simp

end Sys2Proof.Machine
end

