-- ==== Sys2Proof/Laws/Gang.lean ====
section
/-!
SUPPORT. What the named updates do to the parts of the state, each law once, and the registers of a gang read back.
-/

namespace Sys2Proof.Machine

/-! ### Finding parts after changing them -/

theorem crew?_modCrew (s : State) (c d : Nat) (f : Crew → Crew) :
    crew? (modCrew s c f) d = if d = c then (crew? s c).map f else crew? s d := Tab.find?_upd _ _ _ _

theorem launch?_modLaunch (s : State) (c d : Nat) (f : Launch → Launch) :
    launch? (modLaunch s c f) d = if d = c then (launch? s c).map f else launch? s d := Tab.find?_upd _ _ _ _

theorem core?_modCore (s : State) (c d : Nat) (f : Core → Core) :
    core? (modCore s c f) d = if d = c then (core? s c).map f else core? s d := Tab.find?_upd _ _ _ _

@[simp] theorem crew?_modCore (s : State) (c d : Nat) (f : Core → Core) : crew? (modCore s c f) d = crew? s d := rfl
@[simp] theorem crew?_modLaunch (s : State) (c d : Nat) (f : Launch → Launch) : crew? (modLaunch s c f) d = crew? s d := rfl
@[simp] theorem core?_modCrew (s : State) (c d : Nat) (f : Crew → Crew) : core? (modCrew s c f) d = core? s d := rfl
@[simp] theorem core?_modLaunch (s : State) (c d : Nat) (f : Launch → Launch) : core? (modLaunch s c f) d = core? s d := rfl
@[simp] theorem launch?_modCrew (s : State) (c d : Nat) (f : Crew → Crew) : launch? (modCrew s c f) d = launch? s d := rfl
@[simp] theorem launch?_modCore (s : State) (c d : Nat) (f : Core → Core) : launch? (modCore s c f) d = launch? s d := rfl
@[simp] theorem gang?_modLaunch (s : State) (c : Nat) (f : Launch → Launch) (h : GRef) : gang? (modLaunch s c f) h = gang? s h := by
  cases h <;> rfl

@[simp] theorem launch?_modGang (s : State) (g : GRef) (f : Gang → Gang) (d : Nat) : launch? (modGang s g f) d = launch? s d := by
  cases g <;> rfl

/-- A gang after a change of one gang. -/
theorem gang?_modGang (s : State) (g h : GRef) (f : Gang → Gang) :
    gang? (modGang s g f) h = if h = g then (gang? s g).map f else gang? s h := by
  cases g <;> cases h <;> simp only [gang?, modGang, crew?_modCrew, core?_modCore, crew?_modCore, core?_modCrew]
  all_goals grind [Tab.find?_upd]

@[simp] theorem gang?_modGang_same (s : State) (g : GRef) (f : Gang → Gang) : gang? (modGang s g f) g = (gang? s g).map f := by
  simp [gang?_modGang]

theorem gang?_modGang_ne (s : State) (g h : GRef) (f : Gang → Gang) (n : h ≠ g) : gang? (modGang s g f) h = gang? s h := by
  simp [gang?_modGang, n]

/-- A change of one gang leaves every crew as it was but for its gangs, and every core but for its supervisor. -/
theorem crew?_modGang_bare (s : State) (g : GRef) (f : Gang → Gang) (d : Nat) :
    (crew? (modGang s g f) d).map (fun c => { c with gangs := [] }) = (crew? s d).map (fun c => { c with gangs := [] }) := by
  cases g <;> simp only [modGang, crew?_modCrew, crew?_modCore]
  split
  · subst_vars; rw [Option.map_map]; rfl
  · rfl

theorem core?_modGang_bare (s : State) (g : GRef) (f : Gang → Gang) (d : Nat) :
    (core? (modGang s g f) d).map (fun x => { x with sup := none }) = (core? s d).map (fun x => { x with sup := none }) := by
  cases g <;> simp only [modGang, core?_modCore, core?_modCrew]
  split
  · subst_vars; rw [Option.map_map]; rfl
  · rfl

/-- A change of a core that leaves its supervisor gang leaves every gang. -/
theorem gang?_modCore (s : State) (c : Nat) (f : Core → Core) (h : GRef) (hf : ∀ x, (f x).sup = x.sup) :
    gang? (modCore s c f) h = gang? s h := by
  cases h <;> simp only [gang?, crew?_modCore, core?_modCore]
  grind

theorem gang?_modGroup (s : State) (g h : GRef) (k : Nat) (f : QGroup → QGroup) :
    gang? (modGroup s g k f) h = if h = g then (gang? s g).map (fun x => { x with groups := x.groups.modify k f }) else gang? s h :=
  gang?_modGang _ _ _ _

/-- The core a gang runs on does not depend on what gangs hold. -/
@[simp] theorem coreOf_modGang (s : State) (g h : GRef) (f : Gang → Gang) : coreOf (modGang s g f) h = coreOf s h := by
  cases g <;> cases h <;> first | rfl | skip
  simp only [coreOf, modGang, crew?_modCrew]
  grind [isPair, launch?_modCrew]

@[simp] theorem coreOf_modGroup (s : State) (g h : GRef) (k : Nat) (f : QGroup → QGroup) :
    coreOf (modGroup s g k f) h = coreOf s h := coreOf_modGang _ _ _ _

/-! ### Registers read back -/

theorem rdV_wrV (g : Gang) (n l x m k : Nat) (hl : l < 64) (hk : k < 64) :
    rdV (wrV g n l x) m k = if m = n ∧ k = l then x % 2 ^ 32 else rdV g m k := by
  unfold rdV wrV
  simp only [Tab.get_set]
  by_cases h : m = n ∧ k = l
  · obtain ⟨rfl, rfl⟩ := h; simp
  · rw [if_neg h, if_neg (by omega)]

theorem rdS_wrS (g : Gang) (n x m : Nat) : rdS (wrS g n x) m = if m = n then x % 2 ^ 64 else rdS g m := by
  unfold rdS wrS
  simp only [Tab.get_set]
  split <;> simp

theorem rdF_wrF (g : Gang) (n x m : Nat) : rdF (wrF g n x) m = if m = n then x % 2 ^ 32 else rdF g m := by
  unfold rdF wrF
  simp only [Tab.get_set]
  split <;> simp

/-- The word with one bit set. -/
theorem getLsbD_two_pow (n m : Nat) (hm : m < 16) : (BitVec.ofNat 16 (2 ^ n)).getLsbD m = decide (n = m) := by
  rw [BitVec.getLsbD_ofNat, Nat.testBit_two_pow]; simp [hm]

/-- Setting or clearing one bit of a word of 16 bits. -/
theorem getLsbD_putBit (w : BitVec 16) (n m : Nat) (x : Bool) (hm : m < 16) :
    (if x then w ||| BitVec.ofNat 16 (2 ^ n) else w &&& ~~~(BitVec.ofNat 16 (2 ^ n))).getLsbD m
      = if m = n then x else w.getLsbD m := by
  have h := getLsbD_two_pow n m hm
  generalize BitVec.ofNat 16 (2 ^ n) = b at h
  by_cases e : m = n
  · subst e
    simp only [decide_true] at h
    cases x
    · simp only [Bool.false_eq_true, if_false, if_true, BitVec.getLsbD_and, BitVec.getLsbD_not, h]; simp
    · simp only [if_true, BitVec.getLsbD_or, h, Bool.or_true]
  · simp only [decide_eq_false (Ne.symm e)] at h
    cases x
    · simp only [Bool.false_eq_true, if_false, BitVec.getLsbD_and, BitVec.getLsbD_not, h, e]; simp [hm]
    · simp only [if_true, BitVec.getLsbD_or, h, Bool.or_false, e, if_false]

theorem rdC_wrC (g : Gang) (n m : Nat) (x : Bool) (hm : m < 16) :
    rdC (wrC g n x) m = if m = n then x else rdC g m := getLsbD_putBit g.c n m x hm

theorem rdP_wrP (g : Gang) (p l q k : Nat) (x : Bool) (hq : q < 16) :
    rdP (wrP g p l x) q k = if q = p ∧ k = l ∧ p ≠ 0 then x else rdP g q k := by
  unfold rdP wrP
  by_cases h0 : p = 0
  · simp [h0]
  · simp only [h0, if_false, Tab.get_set]
    by_cases hk : k = l
    · subst hk
      simp only [if_true, getLsbD_putBit _ p q x hq]
      by_cases hq0 : q = 0
      · subst hq0; simp [Ne.symm h0]
      · by_cases e : q = p <;> simp [e, h0]
    · simp [hk]

end Sys2Proof.Machine
end

