-- ==== Sys2Proof/Laws/Issue.lean ====
section
/-!
SUPPORT. The frame of every instruction, said once: an instruction that may run comes to its own effect, and what the bookkeeping
of an issue leaves alone.
-/

namespace Sys2Proof.Machine

/-! ### An instruction that may run -/

theorem withDead_zero (is : Iss) (k : Iss → Res) : withDead is 0#64 k = k is := by
  simp [withDead, addThrows]

/-- Everything that `mayRun` says. -/
theorem mayRun_iff (s : State) (is : Iss) (i : Instr) : mayRun s is i = true ↔
    issuer? s = some is ∧ is.q.ended = false ∧ suspended s is.ref is.gang = false ∧ groupHeld s is = false ∧ screen s is i = none
      ∧ i.emulated = false ∧ passedOver is i = false ∧ notReady is i = none ∧ (unfetched is.gang i).isEmpty = true
      ∧ (i.collective && separated is.gang) = false ∧ spillBad is.gang i = 0#64 := by
  simp only [mayRun, Bool.and_eq_true, decide_eq_true_eq, Bool.not_eq_true', Option.isNone_iff_eq_none, beq_iff_eq, and_assoc]

/-- An instruction that may run comes to what its meaning gives. -/
theorem issue_runs (i : Instr) (s : State) (f : State → Iss → Res) (is : Iss) (h : mayRun s is i = true) :
    issue i s f = conclude is i (f s is) := by
  have facts := (mayRun_iff s is i).1 h
  simp [issue, unlessSeparated, facts, withDead_zero]

/-- The operands of a form that are fed to it. -/
theorem withQueues_of_feeds (s : State) (is : Iss) (srcs : List (Opd × Ety)) (d : Opd) (k : State → Iss → List Src → Res)
    (s' : State) (xs : List Src) (h : feeds s is srcs d = some (s', xs)) : withQueues s is srcs d k = k s' is xs := by
  grind [feeds, withQueues, withDead_zero]

/-- A form that pops and pushes nothing is always fed. -/
theorem feeds_nil (s : State) (is : Iss) (d : Opd) (h : d.qreg = []) : feeds s is [] d = some (s, []) := by
  simp [feeds, queueNames, popAll, h]

/-- What a form with one result per lane comes to. -/
theorem laneOp_of_feeds (s s' : State) (is : Iss) (g : Guard) (d : Opd) (ty : Ety) (srcs : List (Opd × Ety)) (xs : List Src)
    (f : Nat → List Nat → Nat) (h : feeds s is srcs d = some (s', xs))
    (ho : d.isScalarDst = true → noOverflow is d (scalarResult ty (f 0 (valuesAt s is xs 0))) = true) :
    laneOp s is g d ty srcs f = .done (laneEffect s s' is g d ty xs f) := by
  unfold laneOp
  rw [withQueues_of_feeds _ _ _ _ _ _ _ h]
  unfold laneEffect
  cases hd : d.isScalarDst with
  | true =>
    have := ho hd
    simp only [noOverflow, List.isEmpty_iff, valuesAt] at this
    simp only [if_true, writeScalar, this, valuesAt]
  | false => simp [writeLanes, valuesAt]

theorem predOp_of_feeds (s s' : State) (is : Iss) (g : Guard) (p : Nat) (srcs : List (Opd × Ety)) (xs : List Src)
    (f : Nat → List Nat → Bool) (h : feeds s is srcs .exm = some (s', xs)) :
    predOp s is g p srcs f
      = .done (modGang s' is.ref (fun y => (selOf is g).foldl (fun y l => wrP y p l (f l (valuesAt s is xs l))) y)) := by
  unfold predOp
  rw [withQueues_of_feeds _ _ _ _ _ _ _ h]
  rfl

/-- A lane-wise instruction answers as soon as its meaning is the common shape. -/
theorem laneAnswers_of (i : Instr) (s : State) (is : Iss) (g : Guard) (d : Opd) (ty : Ety) (srcs : List (Opd × Ety))
    (f : Nat → List Nat → Nat) (m : State → Iss → Res) (hi : exec i s = issue i s m) (hm : m s is = laneOp s is g d ty srcs f) :
    LaneAnswers i s is g d ty srcs f := by
  intro s' xs hr hf ho
  rw [hi, issue_runs _ _ _ _ hr, hm, laneOp_of_feeds _ _ _ _ _ _ _ _ _ hf ho]
  rfl

theorem predAnswers_of (i : Instr) (s : State) (is : Iss) (g : Guard) (p : Nat) (srcs : List (Opd × Ety))
    (f : Nat → List Nat → Bool) (m : State → Iss → Res) (hi : exec i s = issue i s m) (hm : m s is = predOp s is g p srcs f) :
    PredAnswers i s is g p srcs f := by
  intro s' xs hr hf
  rw [hi, issue_runs _ _ _ _ hr, hm, predOp_of_feeds _ _ _ _ _ _ _ _ hf]
  rfl

theorem answers_of (i : Instr) (s : State) (is : Iss) (eff : State) (m : State → Iss → Res) (hi : exec i s = issue i s m)
    (hm : m s is = .done eff) : Answers i s is eff := by
  intro hr
  rw [hi, issue_runs _ _ _ _ hr, hm]
  rfl

/-! ### What the bookkeeping of an issue leaves alone -/

theorem OnlyGang.refl (s : State) (g : GRef) : OnlyGang s s g := ⟨rfl, fun _ => rfl, fun _ => rfl, fun _ _ => rfl⟩

theorem OnlyGang.trans {s t u : State} {g : GRef} (a : OnlyGang s t g) (b : OnlyGang t u g) : OnlyGang s u g :=
  ⟨b.rest.trans a.rest, fun c => (b.crews c).trans (a.crews c), fun c => (b.cores c).trans (a.cores c),
    fun h n => (b.gangs h n).trans (a.gangs h n)⟩

theorem onlyGang_modGang (s : State) (g : GRef) (f : Gang → Gang) : OnlyGang s (modGang s g f) g where
  rest := by cases g <;> rfl
  crews c := crew?_modGang_bare s g f c
  cores c := by
    have seen : ∀ o : Option Core, o.map Core.bare
        = (o.map (fun x => { x with sup := none })).map (fun x => { x with issued := 0, hold := [], last := [] }) := by
      intro o; cases o <;> rfl
    rw [seen, seen, core?_modGang_bare]
  gangs h n := gang?_modGang_ne s g h f n

theorem onlyGang_modGroup (s : State) (g : GRef) (k : Nat) (f : QGroup → QGroup) : OnlyGang s (modGroup s g k f) g :=
  onlyGang_modGang s g _

/-- A change of a core that touches the issue bookkeeping only. -/
theorem onlyGang_modCore (s : State) (g : GRef) (c : Nat) (f : Core → Core) (hf : ∀ x, Core.bare (f x) = Core.bare x)
    (hs : ∀ x, (f x).sup = x.sup) : OnlyGang s (modCore s c f) g := by
  refine ⟨rfl, fun _ => rfl, fun d => ?_, fun h _ => gang?_modCore s c f h hs⟩
  rw [core?_modCore]
  by_cases e : d = c
  · subst e; cases hc : core? s d <;> simp [hf]
  · simp [e]

theorem onlyGang_noteIssue (s : State) (is : Iss) (i : Instr) : OnlyGang s (noteIssue s is i) is.ref := by
  unfold noteIssue
  split
  · exact onlyGang_modGang s is.ref _
  · exact (onlyGang_modGang s is.ref _).trans (onlyGang_modCore _ _ _ _ (fun _ => rfl) (fun _ => rfl))

theorem onlyGang_dropSpilled (s : State) (is : Iss) (i : Instr) : OnlyGang s (dropSpilled s is i) is.ref := by
  unfold dropSpilled
  split
  · exact OnlyGang.refl s is.ref
  · exact onlyGang_modGang s is.ref _

theorem onlyGang_issued (s : State) (is : Iss) (i : Instr) : OnlyGang s (issued s is i) is.ref := by
  have a := (onlyGang_dropSpilled s is i).trans (onlyGang_noteIssue _ is i)
  exact ⟨a.rest, a.crews, a.cores, fun h n => by
    have := a.gangs h n
    cases h <;> exact this⟩

theorem onlyGang_movedTo (s : State) (is : Iss) (i : Instr) (pc : Nat) : OnlyGang s (movedTo s is i pc) is.ref :=
  (onlyGang_modGroup s is.ref is.grp _).trans (onlyGang_issued _ is i)

theorem onlyGang_past (s : State) (is : Iss) (i : Instr) : OnlyGang s (past s is i) is.ref := onlyGang_movedTo s is i _

/-- Memory reads as before. -/
theorem OnlyGang.mem {s t : State} {g : GRef} (a : OnlyGang s t g) : t.mem = s.mem := by
  have h := congrArg State.mem a.rest
  exact h

/-- The registers of the issuing gang through the bookkeeping of an issue. -/
theorem gang?_issued_regs (s : State) (is : Iss) (i : Instr) :
    (gang? (issued s is i) is.ref).map Gang.regs = (gang? s is.ref).map Gang.regs := by
  have h0 : ∀ u : State, gang? { u with blocked := none } is.ref = gang? u is.ref := fun u => by cases is.ref <;> rfl
  have h1 : ∀ u : State, (gang? (noteIssue u is i) is.ref).map Gang.regs = (gang? u is.ref).map Gang.regs := by
    intro u
    unfold noteIssue
    split
    · rw [gang?_modGang_same]; cases gang? u is.ref <;> rfl
    · dsimp only
      rw [gang?_modCore]
      · rw [gang?_modGang_same]; cases gang? u is.ref <;> rfl
      · intro x; rfl
  unfold issued
  rw [h0, h1]
  unfold dropSpilled
  split
  · rfl
  · rw [gang?_modGang_same]; cases gang? s is.ref <;> rfl

theorem gang?_movedTo_regs (s : State) (is : Iss) (i : Instr) (pc : Nat) :
    (gang? (movedTo s is i pc) is.ref).map Gang.regs = (gang? s is.ref).map Gang.regs := by
  unfold movedTo
  rw [gang?_issued_regs, goOn, gang?_modGroup, if_pos rfl]
  cases gang? s is.ref <;> rfl

theorem gang?_past_regs (s : State) (is : Iss) (i : Instr) :
    (gang? (past s is i) is.ref).map Gang.regs = (gang? s is.ref).map Gang.regs := gang?_movedTo_regs _ _ _ _

/-- The issuer of a state is one of its gangs. -/
theorem issuer?_gang (s : State) (is : Iss) (h : issuer? s = some is) : gang? s is.ref = some is.gang := by
  unfold issuer? at h
  cases hc : s.cur with
  | none => simp [hc] at h
  | some p =>
    simp only [hc, Option.bind_some, issuerOf?] at h
    cases hg : gang? s p.1 with
    | none => simp [hg] at h
    | some x =>
      simp only [hg, Option.bind_some, Option.map_eq_some_iff] at h
      obtain ⟨q, -, rfl⟩ := h
      exact hg

theorem mayRun_gang (s : State) (is : Iss) (i : Instr) (h : mayRun s is i = true) : gang? s is.ref = some is.gang :=
  issuer?_gang s is ((mayRun_iff s is i).1 h).1

end Sys2Proof.Machine
end

