-- ==== Sys2Proof/Laws/Lanes.lean ====
section
/-!
SUPPORT. The lanes of a quad group: masks and lists of lanes read back, what raising and lowering nesting counters does to
every lane, and the registers of a gang after its instruction has been issued.
-/

namespace Sys2Proof.Machine

/-- Bit `l` of a mask built from a list of lanes says that the list holds `l`. -/
theorem maskOf_bit (ls : List Nat) (l : Nat) : (maskOf ls).testBit l = true ↔ l ∈ ls := by
  have : ∀ (ls : List Nat) (m : Nat), (ls.foldl (fun m l => m ||| 2 ^ l) m).testBit l = true ↔ m.testBit l = true ∨ l ∈ ls := by
    intro ls
    induction ls with
    | nil => intro m; simp
    | cons a t ih => intro m; simp only [List.foldl, ih, Nat.testBit_or, Bool.or_eq_true, Nat.testBit_two_pow, decide_eq_true_eq, List.mem_cons]; tauto
  simpa [maskOf] using this ls 0

theorem maskOf_lt (ls : List Nat) (n : Nat) (h : ∀ l ∈ ls, l < n) : maskOf ls < 2 ^ n := by
  apply Nat.lt_pow_two_of_testBit
  intro i hi
  by_contra hc
  have := h i ((maskOf_bit ls i).1 (by simpa using hc))
  omega

/-- The active lanes of a group (R27). -/
theorem mem_activeLanes (g : Gang) (q : QGroup) (l : Nat) : l ∈ activeLanes g q ↔ l < 64 ∧ laneActive g q l = true := by
  simp [activeLanes, laneIds, laneActive]; omega

theorem mem_groupLanes (g : Gang) (q : QGroup) (l : Nat) :
    l ∈ groupLanes g q ↔ l < min g.width 64 ∧ laneValid g l = true ∧ inGroup q l = true := by
  simp [groupLanes, laneIds]

theorem nodup_laneIds (g : Gang) : (laneIds g).Nodup := List.nodup_range
theorem nodup_groupLanes (g : Gang) (q : QGroup) : (groupLanes g q).Nodup := (nodup_laneIds g).filter _

/-- A nesting counter never exceeds 255 (R32). -/
theorem counterOf_le (g : Gang) (l : Nat) : counterOf g l ≤ 255 := by unfold counterOf; omega

theorem counterOf_setCounter (g : Gang) (l m v : Nat) : counterOf (setCounter g l v).1 m = if m = l then min v 255 else counterOf g m := by
  unfold setCounter counterOf
  simp only [Tab.get_set]
  split
  · rw [BitVec.toNat_ofNat, Nat.mod_eq_of_lt]; omega
  · rfl

/-- Changing the counters of a list of lanes changes those lanes' counters, saturating at 255, and names the lanes that would
have passed it (R32). -/
theorem setCounters_spec (ls : List Nat) (f : Nat → Nat → Nat) (hnd : ls.Nodup) (g : Gang) :
    (∀ l, counterOf (setCounters g ls f).1 l = if l ∈ ls then min (f l (counterOf g l)) 255 else counterOf g l)
    ∧ (setCounters g ls f).2 = ls.filter (fun l => decide (f l (counterOf g l) > 255)) := by
  have key : ∀ (ls : List Nat) (g : Gang) (acc : List Nat), ls.Nodup →
      let r := ls.foldl (fun acc l =>
        let r := setCounter acc.1 l (f l (counterOf acc.1 l))
        (r.1, if r.2 then acc.2 ++ [l] else acc.2)) (g, acc)
      (∀ l, counterOf r.1 l = if l ∈ ls then min (f l (counterOf g l)) 255 else counterOf g l)
      ∧ r.2 = acc ++ ls.filter (fun l => decide (f l (counterOf g l) > 255)) := by
    intro ls
    induction ls with
    | nil => intro g acc _; simp
    | cons a t ih =>
      intro g acc hnd
      obtain ⟨ha, ht⟩ := List.nodup_cons.1 hnd
      obtain ⟨h1, h2⟩ := ih (setCounter g a (f a (counterOf g a))).1
        (if (setCounter g a (f a (counterOf g a))).2 then acc ++ [a] else acc) ht
      refine ⟨?_, ?_⟩
      · intro l
        simp only [List.foldl]
        rw [h1 l, counterOf_setCounter]
        by_cases e : l = a
        · subst e; simp [ha]
        · simp [e]
      · simp only [List.foldl]
        rw [h2]
        have : t.filter (fun l => decide (f l (counterOf (setCounter g a (f a (counterOf g a))).1 l) > 255))
            = t.filter (fun l => decide (f l (counterOf g l) > 255)) := by
          apply List.filter_congr
          intro x hx
          rw [counterOf_setCounter, if_neg]
          rintro rfl; exact ha hx
        rw [this]
        by_cases e : f a (counterOf g a) > 255
        · simp [setCounter, e]
        · simp [setCounter, e]
  simpa [setCounters] using key ls g [] hnd

/-! ### The issuing gang after its instruction -/

/-- The gang after the effect `f` and the bookkeeping of the issue: it holds the registers that `f` leaves. -/
theorem gang_past (s : State) (is : Iss) (i : Instr) (f : Gang → Gang) (h : gang? s is.ref = some is.gang) :
    ∃ y, gang? (past (modGang s is.ref f) is i) is.ref = some y ∧ y.regs = (f is.gang).regs := by
  have := gang?_past_regs (modGang s is.ref f) is i
  rw [gang?_modGang_same, h] at this
  cases hg : gang? (past (modGang s is.ref f) is i) is.ref with
  | none => rw [hg] at this; cases this
  | some y => rw [hg] at this; exact ⟨y, rfl, by simpa using this⟩

/-- Gangs with the same registers read the same scalar registers and counters. -/
theorem regs_s {x y : Gang} (h : x.regs = y.regs) (n : Nat) : rdS x n = rdS y n := by
  have : x.regs.s = y.regs.s := by rw [h]
  have : x.s = y.s := this
  simp [rdS, this]

theorem regs_cnt {x y : Gang} (h : x.regs = y.regs) (n : Nat) : counterOf x n = counterOf y n := by
  have : x.regs.cnt = y.regs.cnt := by rw [h]
  have : x.cnt = y.cnt := this
  simp [counterOf, this]

/-- An instruction that may run comes to the result its meaning computes. -/
theorem comes_to {i : Instr} {s : State} {is : Iss} (m : State → Iss → Res) (r : Res) (h1 : exec i s = issue i s m) (h2 : m s is = r)
    (hr : mayRun s is i = true) : exec i s = conclude is i r := by rw [h1, issue_runs _ _ _ _ hr, h2]

/-- A transfer to an address, judged by the header at its target (R93): the three cases of `headerAt`. -/
theorem goesTo_of (i : Instr) (s : State) (is : Iss) (t : Nat) (goes : State → Prop) (eff : State → Res) (m : State → Iss → Res)
    (hi : exec i s = issue i s m) (hm : m s is = goTo s is t eff)
    (h : ∀ s', headerAt s is t = .ok s' → (mayRun s is i = true → exec i s = conclude is i (eff s')) → goes s') : GoesTo i s is t goes := by
  refine ⟨?_, ?_, ?_⟩
  · intro s' hs; exact h s' hs (fun hr => by rw [hi, issue_runs _ _ _ _ hr, hm, goTo, hs])
  · intro s' c hs hr; rw [hi, issue_runs _ _ _ _ hr, hm, goTo, hs]; rfl
  · intro s' hs hr; rw [hi, issue_runs _ _ _ _ hr, hm, goTo, hs]; rfl

end Sys2Proof.Machine
end

