-- ==== Sys2Proof/Laws/PerInstr.lean ====
section
/-!
SUPPORT. The family `Fields`: every field that the encoder gives a well-formed instruction lies inside its place in the
word of Table 5-1 (one lemma per constructor of `Instr`), and fields that do are read back from the word they make. A
proof about `decode` and `encode` cites the two together and then has to look at the fields only.
-/

namespace Sys2Proof.Laws

/-- The fields of an instruction lie inside their places in its words (R92 to R95, Table 5-1). -/
structure InPlace (r : Raw) : Prop where
  len : r.len = 1 ∧ r.ext = 0 ∨ r.len = 2 ∧ r.ext < 2 ^ 32 ∨ r.len = 3 ∧ r.ext < 2 ^ 64
  maj : r.maj < 256
  gp : r.gp < 16
  d : r.d < 1024
  a : r.a < 1024
  b : r.b < 1024
  c : r.c < 1024
  min : r.min < 512

/-- A field of the word is read back from it. -/
theorem bits_eq (w hi lo : Nat) : bits w hi lo = w / 2 ^ lo % 2 ^ (hi + 1 - lo) := by
  simp [bits]

/-- Fields inside their places are read back from the word they make. -/
theorem ofWord_word {r : Raw} (h : InPlace r) : Raw.ofWord r.word r.ext = r := by
  have hl : r.len < 4 := by have := h.len; omega
  have flag : ∀ w : Nat, w.testBit 14 = decide (w / 2 ^ 14 % 2 = 1) := fun w => Nat.testBit_eq_decide_div_mod_eq
  have := h.maj; have := h.gp; have := h.d; have := h.a; have := h.b; have := h.c; have := h.min
  obtain ⟨len, maj, gp, gn, d, a, b, c, min, ext⟩ := r
  dsimp only at *
  cases gn
  all_goals
    simp only [Raw.ofWord, Raw.word, bits_eq, flag, Raw.mk.injEq, b2n, if_true, if_false, Bool.false_eq_true, and_true]
    and_intros
  all_goals first | omega | (rw [decide_eq_true_iff]; omega) | (rw [decide_eq_false_iff_not]; omega)

theorem b2n_lt (x : Bool) : b2n x < 2 := by cases x <;> decide

/-- An operand that is no immediate word has a code of the operand space (Table 5-3). -/
theorem code_lt {o : Opd} (h : o.wf = true) : o.code < 1024 := by
  cases o with
  | x sp => cases sp <;> decide
  | _ => simp_all [Opd.wf, Opd.code] <;> omega

theorem fits_code {o : Opd} {cs : List OC} {w : Bool} (h : o.fits cs w = true) : o.code < 1024 := by
  simp only [Opd.fits, Bool.and_eq_true] at h; exact code_lt h.1.1

/-- A B operand has a code, and an immediate word exactly in a 96-bit form (R95). -/
theorem fitsImm_code {o : Opd} {cs : List OC} {w : Bool} (h : o.fitsImm cs w = true) :
    o.code < 1024 ∧ (o.lenB = 1 ∧ o.ext = 0 ∨ o.lenB = 2 ∧ o.ext < 2 ^ 32) := by
  cases o with
  | imm x => exact ⟨by simp [Opd.code], .inr ⟨rfl, x.isLt⟩⟩
  | _ => exact ⟨fits_code (by simpa [Opd.fitsImm] using h), .inl ⟨rfl, rfl⟩⟩

theorem disp_len (d : Option W32) : dispLen d = 1 ∧ dispExt d = 0 ∨ dispLen d = 2 ∧ dispExt d < 2 ^ 32 := by
  cases d with
  | none => exact .inl ⟨rfl, rfl⟩
  | some x => exact .inr ⟨rfl, x.isLt⟩

theorem guard_p {g : Guard} (h : g.wf = true) : g.p < 16 := by simpa [Guard.wf] using h

theorem ety_code (t : Ety) : t.code < 11 := by cases t <;> decide
theorem fmt_code (t : Fmt) : t.code < 16 := by cases t <;> decide
theorem size_code (t : Size) : t.code < 4 := by cases t <;> decide
theorem scope_code (t : Scope) : t.code < 4 := by cases t <;> decide
theorem cond_code (t : Cond) : t.code < 8 := by cases t <;> decide
theorem fcond_code (t : FCond) : t.code < 8 := by cases t <;> decide
theorem shfl_code (t : ShflMode) : t.code < 4 := by cases t <;> decide
theorem red_code (t : RedOp) : t.code < 8 := by cases t <;> decide
theorem scan_code (t : ScanOp) : t.code < 4 := by cases t <;> decide
theorem atom_code (t : AtomOp) : t.code < 16 := by cases t <;> decide
theorem wcond_code (t : WCond) : t.code < 4 := by cases t <;> decide
theorem bank_code (t : BankMode) : t.code < 4 := by cases t <;> decide

theorem wfDst_code {g : Guard} {d : Opd} {w : Bool} (h : wfDst g d w = true) : g.p < 16 ∧ d.code < 1024 := by
  simp only [wfDst, Bool.and_eq_true] at h; exact ⟨guard_p h.1.1, fits_code h.1.2⟩

theorem un_inPlace {maj sub : Nat} {x : Un} {tys : List Ety} {so : Bool} (h : wfUn tys so x = true)
    (hm : maj < 256 := by decide) (hs : sub < 16 := by decide) : InPlace (encUn maj sub x) := by
  simp only [wfUn, Bool.and_eq_true] at h
  have h1 := wfDst_code h.1.2; have h2 := fits_code h.2; have h3 := ety_code x.ty; have h4 := b2n_lt x.sat
  exact ⟨.inl ⟨rfl, rfl⟩, hm, h1.1, h1.2, h2, by simp [encUn], by simp [encUn], by simp only [encUn, encMin]; omega⟩

theorem bin_inPlace' {maj sub c : Nat} {x : Bin} (h1 : x.g.p < 16 ∧ x.d.code < 1024) (h2 : x.a.code < 1024)
    (h5 : x.b.code < 1024 ∧ (x.b.lenB = 1 ∧ x.b.ext = 0 ∨ x.b.lenB = 2 ∧ x.b.ext < 2 ^ 32)) (hm : maj < 256)
    (hs : sub < 16) (hc : c < 1024) : InPlace (encBin maj sub c x) := by
  have h3 := ety_code x.ty; have h4 := b2n_lt x.sat
  exact ⟨h5.2.elim .inl (fun q => .inr (.inl q)), hm, h1.1, h1.2, h2, h5.1, hc, by simp only [encBin, encMin]; omega⟩

theorem bin_inPlace {maj sub c : Nat} {x : Bin} {tys : List Ety} {so : Bool} (h : wfBin tys so x = true)
    (hm : maj < 256 := by decide) (hs : sub < 16 := by decide) (hc : c < 1024 := by decide) :
    InPlace (encBin maj sub c x) := by
  simp only [wfBin, Bool.and_eq_true] at h
  exact bin_inPlace' (wfDst_code h.1.1.2) (fits_code h.1.2) (fitsImm_code h.2) hm hs hc

theorem narrow_inPlace {maj sub : Nat} {x : Bin} {tys : List Ety} {so : Bool} (h : wfBinNarrow tys so x = true)
    (hm : maj < 256 := by decide) (hs : sub < 16 := by decide) : InPlace (encBin maj sub 0 x) := by
  simp only [wfBinNarrow, Bool.and_eq_true] at h
  exact bin_inPlace' (wfDst_code h.1.1.2) (fits_code h.1.2) (fitsImm_code h.2) hm hs (by decide)

theorem ter_inPlace {maj : Nat} {x : Ter} {tys : List Ety} {so : Bool} (h : wfTer tys so x = true)
    (hm : maj < 256 := by decide) : InPlace (encTer maj x) := by
  simp only [wfTer, Bool.and_eq_true] at h
  have h1 := wfDst_code h.1.1.1.2; have h3 := ety_code x.ty; have h4 := b2n_lt x.sat
  exact ⟨.inl ⟨rfl, rfl⟩, hm, h1.1, h1.2, fits_code h.1.1.2, fits_code h.1.2, fits_code h.2,
    by simp only [encTer, encMin]; omega⟩

theorem memMin_lt {sub : Nat} (hs : sub < 16) (sz : Size) (sc : Scope) : memMin sub sz sc < 512 := by
  have h1 := size_code sz; have h2 := scope_code sc; simp only [memMin]; omega

theorem gmem_inPlace {maj sub d b p : Nat} {m : GMem} (h : wfGMem m = true) (hd : d < 1024) (hb : b < 1024)
    (hs : sub < 16) (hm : maj < 256 := by decide) (hp : p < 16 := by decide) : InPlace (encGMem maj sub m d b p) := by
  simp only [wfGMem, Bool.and_eq_true, decide_eq_true_eq] at h
  exact ⟨(disp_len m.disp).elim .inl (fun q => .inr (.inl q)), hm, guard_p h.1.1, hd, fits_code h.1.2, hb,
    by simp only [encGMem]; omega, memMin_lt hs _ _⟩

theorem smem_inPlace {maj sub d c : Nat} {m : SMem} (h : wfSMem m = true) (hd : d < 1024) (hc : c < 1024)
    (hs : sub < 16) (hm : maj < 256 := by decide) : InPlace (encSMem maj sub m d c) := by
  simp only [wfSMem, Bool.and_eq_true] at h
  exact ⟨(disp_len m.disp).elim .inl (fun q => .inr (.inl q)), hm, guard_p h.1.1.1, hd, fits_code h.1.1.2,
    fits_code h.1.2, hc, memMin_lt hs _ _⟩

theorem range_inPlace {maj sub sc d : Nat} {r : Range} (h : wfRange r = true) (hm : maj < 256 := by decide)
    (hs : sub * 32 + sc < 512 := by decide) (hd : d < 1024 := by decide) : InPlace (encRange maj sub sc d r) := by
  simp only [wfRange, Bool.and_eq_true, decide_eq_true_eq] at h
  exact ⟨(disp_len r.disp).elim .inl (fun q => .inr (.inl q)), hm, by simp [encRange], hd, fits_code h.1.1,
    fits_code h.1.2, by simp only [encRange]; omega, hs⟩

theorem copy_inPlace {maj hi : Nat} {arr dir : Bool} {x : Copy} (h : wfCopy x = true) (hm : maj < 256 := by decide)
    (hh : hi < 2 ^ 16 := by decide) : InPlace (encCopy maj arr dir hi x) := by
  simp only [wfCopy, Bool.and_eq_true, decide_eq_true_eq] at h
  have h1 := b2n_lt arr; have h2 := b2n_lt dir; have h3 := b2n_lt x.bar.isSome
  have hb : x.bar.getD 0 < 32 := by cases hx : x.bar <;> simp_all
  exact ⟨.inr (.inr ⟨rfl, by simp only [encCopy]; omega⟩), hm, guard_p h.1.1.1.1.1.1,
    by simp only [encCopy]; omega, fits_code h.1.1.1.1.2, fits_code h.1.1.1.2, fits_code h.1.1.2,
    by simp only [encCopy]; omega⟩

theorem mma_inPlace {maj sm : Nat} {x : MmaArgs} (h : wfMma x = true) (hs : sm < 2 ^ 20 := by decide)
    (hm : maj < 256 := by decide) : InPlace (encMma maj sm x) := by
  simp only [wfMma, Bool.and_eq_true, decide_eq_true_eq] at h
  exact ⟨.inr (.inr ⟨rfl, by simp only [encMma]; omega⟩), hm, guard_p h.1.1.1.1.1.1.1,
    by simp only [encMma]; omega, fits_code h.1.1.1.1.1.2, fits_code h.1.1.1.1.2, by simp only [encMma]; omega,
    by simp only [encMma]; omega⟩

theorem emu_inPlace {maj : Nat} {w1 w2 : Bool} {x : Emu} (h : wfEmu w1 w2 x = true) (hm : maj < 256 := by decide) :
    InPlace (encEmu maj x) := by
  simp only [wfEmu, Bool.and_eq_true] at h
  exact ⟨.inl ⟨rfl, rfl⟩, hm, guard_p h.1.1.1, fits_code h.1.1.2, fits_code h.1.2, fits_code h.2, by simp [encEmu, encG],
    by simp [encEmu, encG]⟩

theorem cmp_inPlace {maj sub ty c : Nat} {g : Guard} {a b : Opd} {cs : List OC} {w : Bool} (hg : g.p < 16)
    (hb : b.fitsImm cs w = true) (ha : a.code < 1024) (hs : sub < 8) (ht : ty < 16) (hc : c < 16)
    (hm : maj < 256 := by decide) : InPlace (encCmp maj sub ty c g a b) := by
  have h := fitsImm_code hb
  exact ⟨h.2.elim .inl (fun q => .inr (.inl q)), hm, hg, by simp [encCmp], ha, h.1, by simp only [encCmp]; omega,
    by simp only [encCmp, encMin, b2n]; simp; omega⟩

/-- Any form, field by field. -/
theorem raw_inPlace {len maj gp d a b c min e : Nat} {gn : Bool}
    (hl : len = 1 ∧ e = 0 ∨ len = 2 ∧ e < 2 ^ 32 ∨ len = 3 ∧ e < 2 ^ 64) (hg : gp < 16 := by decide)
    (hd : d < 1024 := by decide) (ha : a < 1024 := by decide) (hb : b < 1024 := by decide)
    (hc : c < 1024 := by decide) (hn : min < 512 := by decide) (hm : maj < 256 := by decide) :
    InPlace ⟨len, maj, gp, gn, d, a, b, c, min, e⟩ :=
  ⟨hl, hm, hg, hd, ha, hb, hc, hn⟩

/-- A 64-bit form without a guard. -/
theorem u_inPlace {maj d a b c min : Nat} (hd : d < 1024 := by decide) (ha : a < 1024 := by decide)
    (hb : b < 1024 := by decide) (hc : c < 1024 := by decide) (hn : min < 512 := by decide)
    (hm : maj < 256 := by decide) : InPlace (encU maj d a b c min) :=
  ⟨.inl ⟨rfl, rfl⟩, hm, by simp [encU], hd, ha, hb, hc, hn⟩

/-- A 64-bit form with a guard. -/
theorem g_inPlace {maj d a b c min : Nat} {g : Guard} (hg : g.p < 16) (hd : d < 1024 := by decide)
    (ha : a < 1024 := by decide) (hb : b < 1024 := by decide) (hc : c < 1024 := by decide)
    (hn : min < 512 := by decide) (hm : maj < 256 := by decide) : InPlace (encG maj g d a b c min) :=
  ⟨.inl ⟨rfl, rfl⟩, hm, hg, hd, ha, hb, hc, hn⟩

/-- A 96-bit form. -/
theorem w_inPlace {maj d a b c min e : Nat} {g : Guard} (hg : g.p < 16) (he : e < 2 ^ 32)
    (hd : d < 1024 := by decide) (ha : a < 1024 := by decide) (hb : b < 1024 := by decide)
    (hc : c < 1024 := by decide) (hn : min < 512 := by decide) (hm : maj < 256 := by decide) :
    InPlace (encW maj g d a b c min e) :=
  ⟨.inr (.inl ⟨rfl, he⟩), hm, hg, hd, ha, hb, hc, hn⟩

theorem encMin_lt {sub ty : Nat} (hs : sub < 16) (ht : ty < 16) (sat : Bool) : encMin sub sat ty < 512 := by
  have h := b2n_lt sat; simp only [encMin]; omega

theorem load_code {sz : Size} {sx : Bool} {d : Opd} (h : wfLoadDst sz sx d = true) : d.code < 1024 := by
  simp only [wfLoadDst, Bool.and_eq_true] at h; exact fits_code h.1

namespace Fields

set_option Elab.async false
set_option linter.unusedSimpArgs false

/-- Every field the encoder gives `i` is in its place. Events and the clause header, which have no such fields, meet it
with nothing to show. -/
def Statement (i : Instr) : Prop := i.wf = true → ∀ r, enc i = some r → InPlace r

theorem of_enc {i : Instr} {q : Raw} (e : enc i = some q) (h : i.wf = true → InPlace q) : Statement i := by
  intro hw r hr
  rw [e] at hr
  exact Option.some.inj hr ▸ h hw

theorem of_none {i : Instr} (e : enc i = none) : Statement i := by
  intro _ r hr
  rw [e] at hr
  cases hr

theorem clauseHeader (yld : Bool) (setb seta : Nat) (wait : BitVec 12) : Statement (.clauseHeader yld setb seta wait) := of_none rfl
theorem nop : Statement (.nop) := of_enc rfl fun _ => u_inPlace
theorem bra (t : Target) : Statement (.bra t) := by
  cases t with
  | off w => exact of_enc rfl fun _ => w_inPlace (by decide) w.isLt
  | reg n => exact of_enc rfl fun h => by simp only [Instr.wf, decide_eq_true_eq] at h; exact u_inPlace (ha := by omega)
theorem brc (sense : Bool) (c : Nat) (off : W32) : Statement (.brc sense c off) := of_enc rfl fun h => by
  simp only [Instr.wf, Bool.and_eq_true, decide_eq_true_eq] at h
  exact w_inPlace (by decide) off.isLt (hn := by have := b2n_lt sense; omega)
theorem call (g : Guard) (t : Target) : Statement (.call g t) := by
  cases t with
  | off w =>
    exact of_enc rfl fun h => by
      simp only [Instr.wf, Bool.and_eq_true] at h; exact w_inPlace (guard_p h.1) w.isLt
  | reg n =>
    exact of_enc rfl fun h => by
      simp only [Instr.wf, Bool.and_eq_true, decide_eq_true_eq] at h; exact g_inPlace (guard_p h.1) (ha := by omega)
theorem callv (g : Guard) (a b : Nat) : Statement (.callv g a b) := of_enc rfl fun h => by
  simp only [Instr.wf, Bool.and_eq_true, decide_eq_true_eq] at h
  exact g_inPlace (guard_p h.1.1) (ha := by omega) (hb := by omega)
theorem ret : Statement (.ret) := of_enc rfl fun _ => u_inPlace
theorem ifI (g : Guard) (elseD endD : Nat) : Statement (.ifI g elseD endD) := of_enc rfl fun h => by
  simp only [Instr.wf, Bool.and_eq_true, decide_eq_true_eq] at h
  exact w_inPlace (guard_p h.1.1.1) (by simp only [Bool.or_eq_true, beq_iff_eq, decide_eq_true_eq] at h; omega)
theorem elseI : Statement (.elseI) := of_enc rfl fun _ => u_inPlace
theorem endif : Statement (.endif) := of_enc rfl fun _ => u_inPlace
theorem loop : Statement (.loop) := of_enc rfl fun _ => u_inPlace
theorem brk (g : Guard) : Statement (.brk g) := of_enc rfl fun h => g_inPlace (guard_p h)
theorem cont (g : Guard) : Statement (.cont g) := of_enc rfl fun h => g_inPlace (guard_p h)
theorem endloop : Statement (.endloop) := of_enc rfl fun _ => u_inPlace
theorem gjoin : Statement (.gjoin) := of_enc rfl fun _ => u_inPlace
theorem exit : Statement (.exit) := of_enc rfl fun _ => u_inPlace
theorem waitp (path t : Nat) : Statement (.waitp path t) := of_enc rfl fun h => by
  simp only [Instr.wf, Bool.and_eq_true, decide_eq_true_eq] at h
  exact u_inPlace (hc := by omega) (hn := by omega)
theorem tryGang (off : W32) : Statement (.tryGang off) := of_enc rfl fun _ => w_inPlace (by decide) off.isLt
theorem tryCrew (off : W32) : Statement (.tryCrew off) := of_enc rfl fun _ => w_inPlace (by decide) off.isLt
theorem tryLaunch (off : W32) : Statement (.tryLaunch off) := of_enc rfl fun _ => w_inPlace (by decide) off.isLt
theorem endtryGang : Statement (.endtryGang) := of_enc rfl fun _ => u_inPlace
theorem endtryCrew : Statement (.endtryCrew) := of_enc rfl fun _ => u_inPlace
theorem endtryLaunch : Statement (.endtryLaunch) := of_enc rfl fun _ => u_inPlace
theorem throw (g : Guard) (a : Opd) : Statement (.throw g a) := of_enc rfl fun h => by
  simp only [Instr.wf, Bool.and_eq_true, decide_eq_true_eq] at h
  exact g_inPlace (guard_p h.1) (ha := fits_code h.2)
theorem rethrow : Statement (.rethrow) := of_enc rfl fun _ => u_inPlace
theorem rdexr (d : Opd) (a : Opd) : Statement (.rdexr d a) := of_enc rfl fun h => by
  simp only [Instr.wf, Bool.and_eq_true, decide_eq_true_eq] at h
  exact u_inPlace (fits_code h.1) (fits_code h.2)
theorem iadd (x : Bin) : Statement (.iadd x) := of_enc rfl fun h => bin_inPlace h
theorem isub (x : Bin) : Statement (.isub x) := of_enc rfl fun h => bin_inPlace h
theorem imul (x : Bin) : Statement (.imul x) := of_enc rfl fun h => bin_inPlace h
theorem imulh (x : Bin) : Statement (.imulh x) := of_enc rfl fun h => bin_inPlace h
theorem imad (x : Ter) : Statement (.imad x) := of_enc rfl fun h => ter_inPlace h
theorem iabs (x : Un) : Statement (.iabs x) := of_enc rfl fun h => un_inPlace h
theorem ineg (x : Un) : Statement (.ineg x) := of_enc rfl fun h => un_inPlace h
theorem imin (x : Bin) : Statement (.imin x) := of_enc rfl fun h => bin_inPlace h
theorem imax (x : Bin) : Statement (.imax x) := of_enc rfl fun h => bin_inPlace h
theorem and (x : Bin) : Statement (.and x) := of_enc rfl fun h => bin_inPlace h
theorem or (x : Bin) : Statement (.or x) := of_enc rfl fun h => bin_inPlace h
theorem xor (x : Bin) : Statement (.xor x) := of_enc rfl fun h => bin_inPlace h
theorem not (x : Un) : Statement (.not x) := of_enc rfl fun h => un_inPlace h
theorem shl (x : Bin) : Statement (.shl x) := of_enc rfl fun h => bin_inPlace h
theorem shr (x : Bin) : Statement (.shr x) := of_enc rfl fun h => bin_inPlace h
theorem sar (x : Bin) : Statement (.sar x) := of_enc rfl fun h => bin_inPlace h
theorem rot (x : Bin) : Statement (.rot x) := of_enc rfl fun h => bin_inPlace h
theorem bfx (x : Un) (ctl : Opd) : Statement (.bfx x ctl) := by
  have hc : (Instr.bfx x ctl).wf = true → InPlace (encW 0x31 x.g x.d.code x.a.code 0 0 (encMin 0 x.sat x.ty.code) ctl.ext)
      ∧ InPlace (encG 0x31 x.g x.d.code x.a.code 0 ctl.code (encMin 0 x.sat x.ty.code)) := fun h => by
    simp only [Instr.wf, wfUn, wfCtl, Bool.and_eq_true] at h
    have h1 := wfDst_code h.1.1.2; have h2 := fits_code h.1.2; have h3 := fitsImm_code h.2
    have h4 := encMin_lt (sub := 0) (by decide) (ty := x.ty.code) (by have := ety_code x.ty; omega) x.sat
    exact ⟨w_inPlace h1.1 (by omega) h1.2 h2 (hn := h4), g_inPlace h1.1 h1.2 h2 (hc := h3.1) (hn := h4)⟩
  cases ctl with
  | imm w => exact of_enc rfl fun h => (hc h).1
  | _ => exact of_enc rfl fun h => (hc h).2
theorem bfi (x : Bin) (ctl : Opd) : Statement (.bfi x ctl) := by
  have hc : (Instr.bfi x ctl).wf = true →
      InPlace (encW 0x32 x.g x.d.code x.a.code x.b.code 0 (encMin 0 x.sat x.ty.code) ctl.ext)
      ∧ InPlace (encG 0x32 x.g x.d.code x.a.code x.b.code ctl.code (encMin 0 x.sat x.ty.code)) := fun h => by
    simp only [Instr.wf, wfBin, wfCtl, Bool.and_eq_true] at h
    have h1 := wfDst_code h.1.1.1.1.2; have h2 := fits_code h.1.1.1.2; have h3 := fitsImm_code h.2
    have h4 := encMin_lt (sub := 0) (by decide) (ty := x.ty.code) (by have := ety_code x.ty; omega) x.sat
    have h5 := code_lt h.1.2
    exact ⟨w_inPlace h1.1 (by omega) h1.2 h2 h5 (hn := h4), g_inPlace h1.1 h1.2 h2 h5 h3.1 (hn := h4)⟩
  cases ctl with
  | imm w => exact of_enc rfl fun h => (hc h).1
  | _ => exact of_enc rfl fun h => (hc h).2
theorem popc (x : Un) : Statement (.popc x) := of_enc rfl fun h => un_inPlace h
theorem clz (x : Un) : Statement (.clz x) := of_enc rfl fun h => un_inPlace h
theorem ctz (x : Un) : Statement (.ctz x) := of_enc rfl fun h => un_inPlace h
theorem brev (x : Un) : Statement (.brev x) := of_enc rfl fun h => un_inPlace h
theorem icmp (g : Guard) (c : Cond) (ty : Ety) (pd : Nat) (a b : Opd) : Statement (.icmp g c ty pd a b) := of_enc rfl fun h => by
  simp only [Instr.wf, Bool.and_eq_true, decide_eq_true_eq] at h
  exact cmp_inPlace (guard_p h.1.1.1.1) h.2 (fits_code h.1.2) (cond_code c) (by have := ety_code ty; omega) h.1.1.2
theorem icmpc (c : Cond) (ty : Ety) (cd : Nat) (a b : Opd) : Statement (.icmpc c ty cd a b) := of_enc rfl fun h => by
  simp only [Instr.wf, Bool.and_eq_true, decide_eq_true_eq] at h
  exact cmp_inPlace (by decide) h.2 (fits_code h.1.2) (cond_code c) (by have := ety_code ty; omega) h.1.1.2
theorem sel (x : Bin) (pi : Nat) (neg : Bool) : Statement (.sel x pi neg) := of_enc rfl fun h => by
  simp only [Instr.wf, Bool.and_eq_true, decide_eq_true_eq] at h
  exact bin_inPlace h.1 (hc := by have := b2n_lt neg; omega)
theorem mov (x : Un) : Statement (.mov x) := of_enc rfl fun h => un_inPlace h
theorem movi (g : Guard) (ty : Ety) (d : Opd) (imm : MoviImm) : Statement (.movi g ty d imm) := by
  cases imm with
  | word w =>
    exact of_enc rfl fun h => by
      simp only [Instr.wf, Bool.and_eq_true] at h
      exact w_inPlace (guard_p h.1.1.1) w.isLt (fits_code h.1.1.2) (hn := by have := ety_code ty; omega)
  | ext w =>
    exact of_enc rfl fun h => by
      simp only [Instr.wf, Bool.and_eq_true] at h
      exact raw_inPlace (.inr (.inr ⟨rfl, w.isLt⟩)) (guard_p h.1.1.1) (fits_code h.1.1.2)
        (hn := Nat.lt_trans (ety_code ty) (by decide))
theorem lea (x : Bin) (sh : Nat) : Statement (.lea x sh) := of_enc rfl fun h => by
  simp only [Instr.wf, Bool.and_eq_true, decide_eq_true_eq] at h
  exact narrow_inPlace h.1 (hs := h.2)
theorem plop (g : Guard) (d a b : Nat) (tt : BitVec 4) : Statement (.plop g d a b tt) := of_enc rfl fun h => by
  simp only [Instr.wf, Bool.and_eq_true, decide_eq_true_eq] at h
  exact w_inPlace (guard_p h.1.1.1) (by have := tt.isLt; omega)
theorem clop (d a b : Nat) (tt : BitVec 4) : Statement (.clop d a b tt) := of_enc rfl fun h => by
  simp only [Instr.wf, Bool.and_eq_true, decide_eq_true_eq] at h
  exact w_inPlace (by decide) (by have := tt.isLt; omega)
theorem pmov (g : Guard) (m : PmovForm) : Statement (.pmov g m) := by
  cases m with
  | toPred p a =>
    exact of_enc rfl fun h => by
      simp only [Instr.wf, Bool.and_eq_true, decide_eq_true_eq] at h
      exact g_inPlace (guard_p h.1) (ha := fits_code h.2.2) (hc := by omega)
  | fromPred d p =>
    exact of_enc rfl fun h => by
      simp only [Instr.wf, Bool.and_eq_true, decide_eq_true_eq] at h
      exact g_inPlace (guard_p h.1) (hd := fits_code h.2.2) (hc := by omega)
  | bit p a =>
    exact of_enc rfl fun h => by
      simp only [Instr.wf, Bool.and_eq_true, decide_eq_true_eq] at h
      exact g_inPlace (guard_p h.1) (ha := fits_code h.2.2) (hc := by omega)
theorem shfl (g : Guard) (m : ShflMode) (ty : Ety) (d a b : Opd) : Statement (.shfl g m ty d a b) := of_enc rfl fun h => by
  simp only [Instr.wf, Bool.and_eq_true, decide_eq_true_eq] at h
  exact g_inPlace (guard_p h.1.1.1.1) (fits_code h.1.1.2) (fits_code h.1.2) (fits_code h.2) (hn := encMin_lt (by have := shfl_code m; omega) (by have := ety_code ty; omega) _)
theorem bcast (g : Guard) (ty : Ety) (d a b : Opd) : Statement (.bcast g ty d a b) := of_enc rfl fun h => by
  simp only [Instr.wf, Bool.and_eq_true, decide_eq_true_eq] at h
  exact g_inPlace (guard_p h.1.1.1.1) (fits_code h.1.1.2) (fits_code h.1.2) (fits_code h.2) (hn := by have := ety_code ty; omega)
theorem ballot (g : Guard) (d : Opd) (p : Nat) : Statement (.ballot g d p) := of_enc rfl fun h => by
  simp only [Instr.wf, Bool.and_eq_true, decide_eq_true_eq] at h
  exact g_inPlace (guard_p h.1.1) (fits_code h.1.2) (hc := by omega)
theorem pscan (g : Guard) (op : ScanOp) (incl : Bool) (ty : Ety) (sat : Bool) (d a : Opd) : Statement (.pscan g op incl ty sat d a) := of_enc rfl fun h => by
  simp only [Instr.wf, Bool.and_eq_true, decide_eq_true_eq] at h
  exact g_inPlace (guard_p h.1.1.1.1) (fits_code h.1.2) (fits_code h.2) (hn := encMin_lt (by have := scan_code op; have := b2n_lt incl; omega) (by have := ety_code ty; omega) _)
theorem append (g : Guard) (d a b : Opd) : Statement (.append g d a b) := of_enc rfl fun h => by
  simp only [Instr.wf, Bool.and_eq_true, decide_eq_true_eq] at h
  exact g_inPlace (guard_p h.1.1.1) (fits_code h.1.1.2) (fits_code h.1.2) (fits_code h.2)
theorem red (g : Guard) (op : RedOp) (ty : Ety) (sat : Bool) (d : Opd) (va : Nat) : Statement (.red g op ty sat d va) := of_enc rfl fun h => by
  simp only [Instr.wf, Bool.and_eq_true, decide_eq_true_eq] at h
  exact w_inPlace (guard_p h.1.1.1.1.1) (by omega) (fits_code h.1.1.2) (hn := encMin_lt (by have := red_code op; omega) (by have := ety_code ty; omega) _)
theorem fadd (x : Bin) : Statement (.fadd x) := of_enc rfl fun h => bin_inPlace h
theorem fsub (x : Bin) : Statement (.fsub x) := of_enc rfl fun h => bin_inPlace h
theorem fmul (x : Bin) : Statement (.fmul x) := of_enc rfl fun h => bin_inPlace h
theorem fma (x : Ter) : Statement (.fma x) := of_enc rfl fun h => ter_inPlace h
theorem fmin (nan : Bool) (x : Bin) : Statement (.fmin nan x) :=
  of_enc rfl fun h => bin_inPlace h (hs := by have := b2n_lt nan; omega)
theorem fmax (nan : Bool) (x : Bin) : Statement (.fmax nan x) :=
  of_enc rfl fun h => bin_inPlace h (hs := by have := b2n_lt nan; omega)
theorem fabs (x : Un) : Statement (.fabs x) := of_enc rfl fun h => un_inPlace h
theorem fneg (x : Un) : Statement (.fneg x) := of_enc rfl fun h => un_inPlace h
theorem fscale (x : Bin) : Statement (.fscale x) := of_enc rfl fun h => narrow_inPlace h
theorem fcmp (g : Guard) (c : FCond) (pd : Nat) (a b : Opd) : Statement (.fcmp g c pd a b) := of_enc rfl fun h => by
  simp only [Instr.wf, Bool.and_eq_true, decide_eq_true_eq] at h
  exact cmp_inPlace (guard_p h.1.1.1) h.2 (fits_code h.1.2) (fcond_code c) (by decide) h.1.1.2
theorem fcmpc (c : FCond) (cd : Nat) (a b : Opd) : Statement (.fcmpc c cd a b) := of_enc rfl fun h => by
  simp only [Instr.wf, Bool.and_eq_true, decide_eq_true_eq] at h
  exact cmp_inPlace (by decide) h.2 (fits_code h.1.2) (fcond_code c) (by decide) h.1.1
theorem fclass (g : Guard) (pd : Nat) (a : Opd) (mask : BitVec 10) : Statement (.fclass g pd a mask) := of_enc rfl fun h => by
  simp only [Instr.wf, Bool.and_eq_true, decide_eq_true_eq] at h
  exact w_inPlace (guard_p h.1.1) (by have := mask.isLt; omega) (ha := fits_code h.2) (hc := by omega)
theorem frcp (x : Un) : Statement (.frcp x) := of_enc rfl fun h => un_inPlace h
theorem frsq (x : Un) : Statement (.frsq x) := of_enc rfl fun h => un_inPlace h
theorem fsqrt (x : Un) : Statement (.fsqrt x) := of_enc rfl fun h => un_inPlace h
theorem fexp2 (x : Un) : Statement (.fexp2 x) := of_enc rfl fun h => un_inPlace h
theorem flog2 (x : Un) : Statement (.flog2 x) := of_enc rfl fun h => un_inPlace h
theorem fsin (x : Un) : Statement (.fsin x) := of_enc rfl fun h => un_inPlace h
theorem fcos (x : Un) : Statement (.fcos x) := of_enc rfl fun h => un_inPlace h
theorem ftanh (x : Un) : Statement (.ftanh x) := of_enc rfl fun h => un_inPlace h
theorem cvt (g : Guard) (tgt src : Fmt) (sat : Bool) (d a : Opd) (si di : Nat) : Statement (.cvt g tgt src sat d a si di) := of_enc rfl fun h => by
  simp only [Instr.wf, Bool.and_eq_true, decide_eq_true_eq] at h
  exact g_inPlace (wfDst_code h.1.1.1.1.1.1.2).1 (wfDst_code h.1.1.1.1.1.1.2).2 (fits_code h.1.1.1.1.1.2) (hc := by omega) (hn := encMin_lt (fmt_code tgt) (fmt_code src) _)
theorem cvtmx (g : Guard) (fmt : Fmt) (d a b : Opd) (di : Nat) : Statement (.cvtmx g fmt d a b di) := of_enc rfl fun h => by
  simp only [Instr.wf, Bool.and_eq_true, decide_eq_true_eq] at h
  exact g_inPlace (wfDst_code h.1.1.1.2).1 (wfDst_code h.1.1.1.2).2 (fits_code h.1.1.2) (fits_code h.1.2) (by have := h.2; split at this <;> omega) (by have := fmt_code fmt; omega)
theorem cvtmxScale (g : Guard) (fmt : Fmt) (d a : Opd) : Statement (.cvtmxScale g fmt d a) := of_enc rfl fun h => by
  simp only [Instr.wf, Bool.and_eq_true, decide_eq_true_eq] at h
  exact g_inPlace (wfDst_code h.1.2).1 (wfDst_code h.1.2).2 (fits_code h.2) (hn := by have := fmt_code fmt; omega)
theorem ld (m : GMem) (sx : Bool) (d : Opd) : Statement (.ld m sx d) := of_enc rfl fun h => by
  simp only [Instr.wf, Bool.and_eq_true, decide_eq_true_eq] at h
  exact gmem_inPlace h.1 (load_code h.2) (by decide) (by have := b2n_lt sx; omega)
theorem ldRp (m : GMem) (sx : Bool) (d : Opd) (p : Nat) : Statement (.ldRp m sx d p) := of_enc rfl fun h => by
  simp only [Instr.wf, Bool.and_eq_true, decide_eq_true_eq] at h
  exact gmem_inPlace h.1.1.1 (load_code h.1.1.2) (by decide) (by have := b2n_lt sx; omega) (hp := h.2)
theorem st (m : GMem) (data : Opd) : Statement (.st m data) := of_enc rfl fun h => by
  simp only [Instr.wf, Bool.and_eq_true, decide_eq_true_eq] at h
  exact gmem_inPlace h.1 (by decide) (fits_code h.2) (by decide)
theorem lds (m : SMem) (sx : Bool) (d : Opd) : Statement (.lds m sx d) := of_enc rfl fun h => by
  simp only [Instr.wf, Bool.and_eq_true, decide_eq_true_eq] at h
  exact smem_inPlace h.1 (load_code h.2) (by decide) (by have := b2n_lt sx; omega)
theorem sts (m : SMem) (data : Opd) : Statement (.sts m data) := of_enc rfl fun h => by
  simp only [Instr.wf, Bool.and_eq_true, decide_eq_true_eq] at h
  exact smem_inPlace h.1 (by decide) (fits_code h.2) (by decide)
theorem atom (op : AtomOp) (m : GMem) (d data : Opd) : Statement (.atom op m d data) := of_enc rfl fun h => by
  simp only [Instr.wf, Bool.and_eq_true, decide_eq_true_eq] at h
  exact gmem_inPlace h.1.1.1 (fits_code h.1.2) (fits_code h.2) (atom_code op)
theorem atoms (op : AtomOp) (m : SMem) (d data : Opd) : Statement (.atoms op m d data) := of_enc rfl fun h => by
  simp only [Instr.wf, Bool.and_eq_true, decide_eq_true_eq] at h
  exact smem_inPlace h.1.1.1 (fits_code h.1.2) (fits_code h.2) (atom_code op)
theorem fence (scope : Scope) (d : Opd) : Statement (.fence scope d) := of_enc rfl fun h => by
  simp only [Instr.wf, Bool.and_eq_true, decide_eq_true_eq] at h
  exact u_inPlace (fits_code h) (hn := by have := scope_code scope; omega)
theorem waita (c : WCond) (size : Size) (scope : Scope) (d idx : Opd) (rc : Nat) (cmp : Opd) (disp : Option W32) : Statement (.waita c size scope d idx rc cmp disp) := of_enc rfl fun h => by
  simp only [Instr.wf, Bool.and_eq_true, decide_eq_true_eq] at h
  exact raw_inPlace ((disp_len disp).elim .inl (fun q => .inr (.inl q))) (hd := fits_code h.1.1.1.2) (ha := fits_code h.1.1.2) (hb := fits_code h.1.2) (hc := Nat.lt_trans h.2 (by decide)) (hn := memMin_lt (by have := wcond_code c; omega) _ _)
theorem wake (scope : Scope) (idx : Opd) (rc : Nat) (disp : Option W32) : Statement (.wake scope idx rc disp) := of_enc rfl fun h => by
  simp only [Instr.wf, Bool.and_eq_true, decide_eq_true_eq] at h
  exact raw_inPlace ((disp_len disp).elim .inl (fun q => .inr (.inl q))) (ha := fits_code h.1.2) (hc := Nat.lt_trans h.2 (by decide)) (hn := Nat.lt_trans (scope_code scope) (by decide))
theorem persist : Statement (.persist) := of_enc rfl fun _ => u_inPlace
theorem zfill (r : Range) : Statement (.zfill r) := of_enc rfl fun h => range_inPlace h
theorem pagereq (f : Nat) (r : Range) : Statement (.pagereq f r) := of_enc rfl fun h => by
  simp only [Instr.wf, Bool.and_eq_true, decide_eq_true_eq] at h
  exact range_inPlace h.2 (hd := by omega)
theorem cctlWb (scope : Scope) (r : Range) : Statement (.cctlWb scope r) := of_enc rfl fun h => by
  simp only [Instr.wf, Bool.and_eq_true, decide_eq_true_eq] at h
  exact range_inPlace h.2 (hs := by have := scope_code scope; omega)
theorem cctlDisc (scope : Scope) (r : Range) : Statement (.cctlDisc scope r) := of_enc rfl fun h => by
  simp only [Instr.wf, Bool.and_eq_true, decide_eq_true_eq] at h
  exact range_inPlace h.2 (hs := by have := scope_code scope; omega)
theorem icpf (r : Range) : Statement (.icpf r) := of_enc rfl fun h => range_inPlace h
theorem icpin (r : Range) : Statement (.icpin r) := of_enc rfl fun h => range_inPlace h
theorem icpinUnpin (r : Range) : Statement (.icpinUnpin r) := of_enc rfl fun h => range_inPlace h
theorem icinvCrew (r : Range) : Statement (.icinvCrew r) := of_enc rfl fun h => range_inPlace h
theorem icinvDev (r : Range) : Statement (.icinvDev r) := of_enc rfl fun h => range_inPlace h
theorem qstat (full : Bool) (d : Opd) (q c : Nat) : Statement (.qstat full d q c) := of_enc rfl fun h => by
  simp only [Instr.wf, Bool.and_eq_true, decide_eq_true_eq] at h
  exact u_inPlace (fits_code h.1.1) (by omega) (hc := by omega) (hn := by have := b2n_lt full; omega)
theorem cpy (x : Copy) (arr dir : Bool) : Statement (.cpy x arr dir) := of_enc rfl fun h => by
  simp only [Instr.wf, Bool.and_eq_true, decide_eq_true_eq] at h
  exact copy_inPlace h.1
theorem cpyM (x : Copy) (cores : BitVec 8) : Statement (.cpyM x cores) :=
  of_enc rfl fun h => copy_inPlace h (hh := by have := cores.isLt; omega)
theorem cpyX (x : Copy) (arr dir : Bool) : Statement (.cpyX x arr dir) := of_enc rfl fun h => by
  simp only [Instr.wf, Bool.and_eq_true, decide_eq_true_eq] at h
  exact copy_inPlace h.1
theorem mma (x : MmaArgs) : Statement (.mma x) := of_enc rfl fun h => mma_inPlace h
theorem mmaSp (x : MmaArgs) (sm : Nat) : Statement (.mmaSp x sm) := of_enc rfl fun h => by
  simp only [Instr.wf, Bool.and_eq_true, decide_eq_true_eq] at h
  exact mma_inPlace h.1 h.2
theorem mmaP (x : MmaArgs) : Statement (.mmaP x) := of_enc rfl fun h => mma_inPlace h
theorem msel (g : Guard) (f : Nat) (a b : Opd) (fw sa sm : Nat) : Statement (.msel g f a b fw sa sm) := of_enc rfl fun h => by
  simp only [Instr.wf, Bool.and_eq_true, decide_eq_true_eq] at h
  exact mma_inPlace h.1 h.2
theorem accz (g : Guard) (f tile : Nat) : Statement (.accz g f tile) := of_enc rfl fun h => by
  simp only [Instr.wf, Bool.and_eq_true, decide_eq_true_eq] at h
  exact g_inPlace (guard_p h.1.1) (by omega) (hn := by omega)
theorem accdr (g : Guard) (f : Nat) (off : Opd) (tgt : Fmt) (tile : Nat) : Statement (.accdr g f off tgt tile) := of_enc rfl fun h => by
  simp only [Instr.wf, Bool.and_eq_true, decide_eq_true_eq] at h
  exact g_inPlace (guard_p h.1.1.1.1) (by omega) (fits_code h.1.1.2) (hn := by have := fmt_code tgt; omega)
theorem wdset (g : Guard) (f : Nat) (val : Opd) (tile : Nat) : Statement (.wdset g f val tile) := of_enc rfl fun h => by
  simp only [Instr.wf, Bool.and_eq_true, decide_eq_true_eq] at h
  exact g_inPlace (guard_p h.1.1.1) (by omega) (fits_code h.1.2) (hn := by omega)
theorem mfence (g : Guard) (f : Nat) : Statement (.mfence g f) := of_enc rfl fun h => by
  simp only [Instr.wf, Bool.and_eq_true, decide_eq_true_eq] at h
  exact g_inPlace (guard_p h.1) (by omega)
theorem fwait (f : Nat) (st : Option Nat) : Statement (.fwait f st) := by
  cases st with
  | none =>
    exact of_enc rfl fun h => by
      simp only [Instr.wf, Bool.and_eq_true, decide_eq_true_eq] at h; exact u_inPlace (hc := by omega)
  | some n =>
    exact of_enc rfl fun h => by
      simp only [Instr.wf, Bool.and_eq_true, decide_eq_true_eq] at h; exact u_inPlace (hd := by omega) (hc := by omega)
theorem ftest (f c : Nat) (st : Option Nat) : Statement (.ftest f c st) := by
  cases st with
  | none =>
    exact of_enc rfl fun h => by
      simp only [Instr.wf, Bool.and_eq_true, decide_eq_true_eq] at h
      exact u_inPlace (hc := by omega) (hn := by omega)
  | some n =>
    exact of_enc rfl fun h => by
      simp only [Instr.wf, Bool.and_eq_true, decide_eq_true_eq] at h
      exact u_inPlace (hd := by omega) (hc := by omega) (hn := by omega)
theorem fcancel (f : Nat) : Statement (.fcancel f) := of_enc rfl fun h => by
  simp only [Instr.wf, Bool.and_eq_true, decide_eq_true_eq] at h
  exact u_inPlace (hc := by omega)
theorem fexport (f : Nat) (off : Opd) : Statement (.fexport f off) := of_enc rfl fun h => by
  simp only [Instr.wf, Bool.and_eq_true, decide_eq_true_eq] at h
  exact u_inPlace (ha := fits_code h.2) (hc := by omega)
theorem fimport (f : Nat) (off : Opd) : Statement (.fimport f off) := of_enc rfl fun h => by
  simp only [Instr.wf, Bool.and_eq_true, decide_eq_true_eq] at h
  exact u_inPlace (hd := by omega) (ha := fits_code h.2)
theorem barinit (bar : Nat) (e : Opd) : Statement (.barinit bar e) := of_enc rfl fun h => by
  simp only [Instr.wf, Bool.and_eq_true, decide_eq_true_eq] at h
  exact u_inPlace (ha := fits_code h.2) (hn := by omega)
theorem bara (bar : Nat) : Statement (.bara bar) := of_enc rfl fun h => by
  simp only [Instr.wf, Bool.and_eq_true, decide_eq_true_eq] at h
  exact u_inPlace (hn := by omega)
theorem barexp (bar : Nat) (b : Opd) : Statement (.barexp bar b) := of_enc rfl fun h => by
  simp only [Instr.wf, Bool.and_eq_true, decide_eq_true_eq] at h
  exact u_inPlace (ha := fits_code h.2) (hn := by omega)
theorem barw (bar : Nat) (phase : Bool) : Statement (.barw bar phase) := of_enc rfl fun h => by
  simp only [Instr.wf, Bool.and_eq_true, decide_eq_true_eq] at h
  exact u_inPlace (hn := by have := b2n_lt phase; omega)
theorem lbar (n : Nat) : Statement (.lbar n) := of_enc rfl fun h => by
  simp only [Instr.wf, Bool.and_eq_true, decide_eq_true_eq] at h
  exact u_inPlace (hn := by omega)
theorem otdecl (f : Nat) (off : Opd) : Statement (.otdecl f off) := of_enc rfl fun h => by
  simp only [Instr.wf, Bool.and_eq_true, decide_eq_true_eq] at h
  exact u_inPlace (hd := by omega) (ha := fits_code h.2)
theorem otbegin (f : Nat) : Statement (.otbegin f) := of_enc rfl fun h => by
  simp only [Instr.wf, Bool.and_eq_true, decide_eq_true_eq] at h
  exact u_inPlace (hc := by omega)
theorem otend : Statement (.otend) := of_enc rfl fun _ => u_inPlace
theorem otround (a : Opd) : Statement (.otround a) := of_enc rfl fun h => by
  simp only [Instr.wf, Bool.and_eq_true, decide_eq_true_eq] at h
  exact u_inPlace (ha := fits_code h)
theorem trap (code : Opd) : Statement (.trap code) := by
  cases code with
  | imm w => exact of_enc rfl fun _ => w_inPlace (by decide) w.isLt
  | _ => exact of_enc rfl fun h => by simp only [Instr.wf] at h; exact u_inPlace (ha := fits_code h)
theorem svret (slot : Opd) (adv : Nat) : Statement (.svret slot adv) := of_enc rfl fun h => by
  simp only [Instr.wf, Bool.and_eq_true, decide_eq_true_eq] at h
  exact u_inPlace (ha := fits_code h.1) (hc := h.2)
theorem svthrow (slot code : Opd) : Statement (.svthrow slot code) := of_enc rfl fun h => by
  simp only [Instr.wf, Bool.and_eq_true, decide_eq_true_eq] at h
  exact u_inPlace (ha := fits_code h.1) (hb := fits_code h.2)
theorem rdxv (g : Guard) (d slot : Opd) (reg : Nat) (hi : Bool) : Statement (.rdxv g d slot reg hi) := of_enc rfl fun h => by
  simp only [Instr.wf, Bool.and_eq_true, decide_eq_true_eq] at h
  exact w_inPlace (guard_p h.1.1.1) (by have := b2n_lt hi; omega) (fits_code h.1.1.2) (fits_code h.1.2)
theorem wrxv (g : Guard) (slot data : Opd) (reg : Nat) (hi : Bool) : Statement (.wrxv g slot data reg hi) := of_enc rfl fun h => by
  simp only [Instr.wf, Bool.and_eq_true, decide_eq_true_eq] at h
  exact w_inPlace (guard_p h.1.1.1) (by have := b2n_lt hi; omega) (ha := fits_code h.1.1.2) (hb := fits_code h.1.2)
theorem rdxs (d slot : Opd) (num : Nat) : Statement (.rdxs d slot num) := of_enc rfl fun h => by
  simp only [Instr.wf, Bool.and_eq_true, decide_eq_true_eq] at h
  exact w_inPlace (by decide) (by omega) (fits_code h.1.1) (fits_code h.1.2)
theorem wrxs (slot data : Opd) (num : Nat) : Statement (.wrxs slot data num) := of_enc rfl fun h => by
  simp only [Instr.wf, Bool.and_eq_true, decide_eq_true_eq] at h
  exact w_inPlace (by decide) (by omega) (ha := fits_code h.1.1) (hb := fits_code h.1.2)
theorem rdsys (d : Opd) (num : Nat) : Statement (.rdsys d num) := of_enc rfl fun h => by
  simp only [Instr.wf, Bool.and_eq_true, decide_eq_true_eq] at h
  exact w_inPlace (by decide) (by omega) (fits_code h.1.1)
theorem wrsys (data : Opd) (num : Nat) : Statement (.wrsys data num) := of_enc rfl fun h => by
  simp only [Instr.wf, Bool.and_eq_true, decide_eq_true_eq] at h
  exact w_inPlace (by decide) (by omega) (ha := fits_code h.1.1)
theorem bankset (mask : Opd) (mode : BankMode) : Statement (.bankset mask mode) := of_enc rfl fun h => by
  simp only [Instr.wf, Bool.and_eq_true, decide_eq_true_eq] at h
  exact u_inPlace (ha := fits_code h) (hn := Nat.lt_trans (bank_code mode) (by decide))
theorem bist (d arr pat : Opd) : Statement (.bist d arr pat) := of_enc rfl fun h => by
  simp only [Instr.wf, Bool.and_eq_true, decide_eq_true_eq] at h
  exact u_inPlace (fits_code h.1.1) (fits_code h.1.2) (fits_code h.2)
theorem mbxrdNext (d : Opd) : Statement (.mbxrdNext d) := of_enc rfl fun h => by
  simp only [Instr.wf, Bool.and_eq_true, decide_eq_true_eq] at h
  exact u_inPlace (fits_code h)
theorem mbxrdWord (d slot word : Opd) : Statement (.mbxrdWord d slot word) := of_enc rfl fun h => by
  simp only [Instr.wf, Bool.and_eq_true, decide_eq_true_eq] at h
  exact u_inPlace (fits_code h.1.1) (fits_code h.1.2) (fits_code h.2)
theorem coreret (d core : Opd) : Statement (.coreret d core) := of_enc rfl fun h => by
  simp only [Instr.wf, Bool.and_eq_true, decide_eq_true_eq] at h
  exact u_inPlace (fits_code h.1) (fits_code h.2)
theorem idivU32 (x : Emu) : Statement (.idivU32 x) := of_enc rfl fun h => emu_inPlace h
theorem iremU32 (x : Emu) : Statement (.iremU32 x) := of_enc rfl fun h => emu_inPlace h
theorem idivU64 (x : Emu) : Statement (.idivU64 x) := of_enc rfl fun h => emu_inPlace h
theorem iremU64 (x : Emu) : Statement (.iremU64 x) := of_enc rfl fun h => emu_inPlace h
theorem idivS32 (x : Emu) : Statement (.idivS32 x) := of_enc rfl fun h => emu_inPlace h
theorem iremS32 (x : Emu) : Statement (.iremS32 x) := of_enc rfl fun h => emu_inPlace h
theorem idivS64 (x : Emu) : Statement (.idivS64 x) := of_enc rfl fun h => emu_inPlace h
theorem iremS64 (x : Emu) : Statement (.iremS64 x) := of_enc rfl fun h => emu_inPlace h
theorem fdivF32 (x : Emu) : Statement (.fdivF32 x) := of_enc rfl fun h => emu_inPlace h
theorem dadd (x : Emu) : Statement (.dadd x) := of_enc rfl fun h => emu_inPlace h
theorem dmul (x : Emu) : Statement (.dmul x) := of_enc rfl fun h => emu_inPlace h
theorem dfma (x : Emu) (c : Opd) : Statement (.dfma x c) := of_enc rfl fun h => by
  simp only [Instr.wf, wfEmu, Bool.and_eq_true] at h
  exact g_inPlace (guard_p h.1.1.1.1) (fits_code h.1.1.1.2) (fits_code h.1.1.2) (fits_code h.1.2) (fits_code h.2)
theorem ddiv (x : Emu) : Statement (.ddiv x) := of_enc rfl fun h => emu_inPlace h
theorem dsqrt (g : Guard) (d a : Opd) : Statement (.dsqrt g d a) := of_enc rfl fun h => by
  simp only [Instr.wf, Bool.and_eq_true, decide_eq_true_eq] at h
  exact g_inPlace (guard_p h.1.1) (fits_code h.1.2) (fits_code h.2)
theorem dcvt (g : Guard) (form : Nat) (d a : Opd) : Statement (.dcvt g form d a) := of_enc rfl fun h => by
  simp only [Instr.wf, Bool.and_eq_true, decide_eq_true_eq] at h
  exact g_inPlace (guard_p h.1.1.1) (fits_code h.1.2) (fits_code h.2) (hn := by omega)
theorem emu (x : Emu) : Statement (.emu x) := of_enc rfl fun h => emu_inPlace h
theorem loadDataReturn (g : GRef) (op : Nat) (lanes : Mask) : Statement (.loadDataReturn g op lanes) := of_none rfl
theorem spillReadReturn (g : GRef) (reg : Nat) (bad : Mask) : Statement (.spillReadReturn g reg bad) := of_none rfl
theorem sysreadComplete (g : GRef) (op : Nat) : Statement (.sysreadComplete g op) := of_none rfl
theorem fenceComplete (g : GRef) (op : Nat) : Statement (.fenceComplete g op) := of_none rfl
theorem bufDrain (g : GRef) (seq : Nat) : Statement (.bufDrain g seq) := of_none rfl
theorem coreWriteBack (core : Option Nat) (pa : Nat) : Statement (.coreWriteBack core pa) := of_none rfl
theorem copyDiscard (core : Option Nat) (pa : Nat) : Statement (.copyDiscard core pa) := of_none rfl
theorem copyFetch (core : Option Nat) (pa : Nat) : Statement (.copyFetch core pa) := of_none rfl
theorem atomicComplete (g : GRef) (op lane : Nat) : Statement (.atomicComplete g op lane) := of_none rfl
theorem copySegmentStart (core : Nat) : Statement (.copySegmentStart core) := of_none rfl
theorem copyPieceWritten (core idx piece : Nat) : Statement (.copyPieceWritten core idx piece) := of_none rfl
theorem copyComplete (core idx : Nat) : Statement (.copyComplete core idx) := of_none rfl
theorem matrixCommandStart (core : Nat) : Statement (.matrixCommandStart core) := of_none rfl
theorem matrixCommandComplete (core : Nat) : Statement (.matrixCommandComplete core) := of_none rfl
theorem bankSwitchApply (g : GRef) (bank : Nat) : Statement (.bankSwitchApply g bank) := of_none rfl
theorem persistComplete (g : GRef) : Statement (.persistComplete g) := of_none rfl
theorem icinvComplete (g : GRef) : Statement (.icinvComplete g) := of_none rfl
theorem unwindComplete (u : Nat) : Statement (.unwindComplete u) := of_none rfl
theorem candidatePromote (g : GRef) (grp : Nat) : Statement (.candidatePromote g grp) := of_none rfl
theorem svyieldTimeout (core : Nat) : Statement (.svyieldTimeout core) := of_none rfl
theorem waitaPoll (g : GRef) (grp : Nat) : Statement (.waitaPoll g grp) := of_none rfl
theorem preemptRequest (ctx : Nat) : Statement (.preemptRequest ctx) := of_none rfl
theorem crewSave (crew : Nat) : Statement (.crewSave crew) := of_none rfl
theorem crewResume (crew core : Nat) : Statement (.crewResume crew core) := of_none rfl
theorem crewPlace : Statement (.crewPlace) := of_none rfl
theorem crewEnd (crew : Nat) : Statement (.crewEnd crew) := of_none rfl
theorem tailRead (q : Nat) : Statement (.tailRead q) := of_none rfl
theorem tailPollTimer (q : Nat) : Statement (.tailPollTimer q) := of_none rfl
theorem dependenceWatch (q : Nat) : Statement (.dependenceWatch q) := of_none rfl
theorem launchAccept : Statement (.launchAccept) := of_none rfl
theorem completionWrite (launch : Nat) : Statement (.completionWrite launch) := of_none rfl
theorem beatEnd : Statement (.beatEnd) := of_none rfl
theorem mergeComplete : Statement (.mergeComplete) := of_none rfl
theorem lbarCountExchange (launch n modules : Nat) : Statement (.lbarCountExchange launch n modules) := of_none rfl
theorem heartbeat (missed : BitVec 4) : Statement (.heartbeat missed) := of_none rfl
theorem failover : Statement (.failover) := of_none rfl
theorem claimDeadline (e : Nat) : Statement (.claimDeadline e) := of_none rfl
theorem evnext : Statement (.evnext) := of_none rfl
theorem evans (e : Nat) (forward : Bool) : Statement (.evans e forward) := of_none rfl
theorem evack (e : Nat) : Statement (.evack e) := of_none rfl
theorem eventRingWrite : Statement (.eventRingWrite) := of_none rfl
theorem tinvGo : Statement (.tinvGo) := of_none rfl
theorem tinvDone : Statement (.tinvDone) := of_none rfl
theorem ownreqGo : Statement (.ownreqGo) := of_none rfl
theorem ownToHostFlip (block : Nat) : Statement (.ownToHostFlip block) := of_none rfl
theorem ownToDeviceFlip (block : Nat) (dirty : List (Nat × Byte)) : Statement (.ownToDeviceFlip block dirty) := of_none rfl
theorem hostMemAccess (pa : Nat) (ctx : Nat) (write : Option (List Byte)) (len : Nat) : Statement (.hostMemAccess pa ctx write len) := of_none rfl
theorem hostSnoop (pa : Nat) (write : List Byte) : Statement (.hostSnoop pa write) := of_none rfl
theorem pageRequestWrite (fn : Nat) : Statement (.pageRequestWrite fn) := of_none rfl
theorem pageReply (fn tag stat : Nat) : Statement (.pageReply fn tag stat) := of_none rfl
theorem pagereqResolve (crew op : Nat) : Statement (.pagereqResolve crew op) := of_none rfl
theorem functionLevelReset (fn : Nat) : Statement (.functionLevelReset fn) := of_none rfl
theorem powerOn : Statement (.powerOn) := of_none rfl
theorem startCold (failed : Option (Nat × Nat)) (badCores : List Nat) : Statement (.startCold failed badCores) := of_none rfl
theorem startWarm (failed : Option (Nat × Nat)) (badCores : List Nat) : Statement (.startWarm failed badCores) := of_none rfl
theorem attestGo : Statement (.attestGo) := of_none rfl
theorem attestDone : Statement (.attestDone) := of_none rfl
theorem lmargGo (port : Nat) : Statement (.lmargGo port) := of_none rfl
theorem lmargScanDone (port errors : Nat) : Statement (.lmargScanDone port errors) := of_none rfl
theorem supervisorRestart (core : Nat) : Statement (.supervisorRestart core) := of_none rfl
theorem beatWrite : Statement (.beatWrite) := of_none rfl
theorem qcfgWrite (crew n : Nat) : Statement (.qcfgWrite crew n) := of_none rfl
theorem tickConfigWrite : Statement (.tickConfigWrite) := of_none rfl
theorem tickClear : Statement (.tickClear) := of_none rfl
theorem tickEdge : Statement (.tickEdge) := of_none rfl
theorem currentSample (milliamps : List W32) : Statement (.currentSample milliamps) := of_none rfl
theorem lqConfigWrite (q word : Nat) (val : W64) : Statement (.lqConfigWrite q word val) := of_none rfl
theorem accessTableWrite (target ctx : Nat) (val : BitVec 16) : Statement (.accessTableWrite target ctx val) := of_none rfl
theorem registerWrite (pa : Nat) (val : W64) : Statement (.registerWrite pa val) := of_none rfl
theorem powerLimit (milliwatts : Nat) : Statement (.powerLimit milliwatts) := of_none rfl
theorem coldPlateLimit (sensor : Nat) : Statement (.coldPlateLimit sensor) := of_none rfl
theorem junctionTrip (sensor : Nat) : Statement (.junctionTrip sensor) := of_none rfl
theorem linkLaneFail (port lane : Nat) : Statement (.linkLaneFail port lane) := of_none rfl
theorem linkDown (port : Nat) : Statement (.linkDown port) := of_none rfl
theorem hostPortDown : Statement (.hostPortDown) := of_none rfl
theorem eccUncorrectable (site : EccSite) : Statement (.eccUncorrectable site) := of_none rfl
theorem arithmeticClockCycle : Statement (.arithmeticClockCycle) := of_none rfl
theorem powerBelowLimit : Statement (.powerBelowLimit) := of_none rfl
theorem coldPlateInRange (sensor : Nat) : Statement (.coldPlateInRange sensor) := of_none rfl
theorem hostPortUp : Statement (.hostPortUp) := of_none rfl
theorem peerMemAccess (pa ctx : Nat) (write : Option (List Byte)) (len : Nat) : Statement (.peerMemAccess pa ctx write len) := of_none rfl
theorem sysStoreComplete (g : GRef) (seq : Nat) : Statement (.sysStoreComplete g seq) := of_none rfl
theorem backInvalidateResponse (pa : Nat) (dirty : Option (List Byte)) : Statement (.backInvalidateResponse pa dirty) := of_none rfl
theorem bistComplete (core : Nat) (failRows firstRow : Nat) : Statement (.bistComplete core failRows firstRow) := of_none rfl
theorem spanLaunchUnwind (launch : Nat) : Statement (.spanLaunchUnwind launch) := of_none rfl

end Fields

end Sys2Proof.Laws
end

