-- ==== Sys2Proof/Laws/Record.lean ====
section
/-!
SUPPORT. The record of an unwind (R60 to R62, R340 to R342): what the steps around it leave of a crew's record area, and the words that are
written into it.
-/

namespace Sys2Proof.Machine

/-! ### The area of a crew -/

/-- Two states agree on the record areas of all crews. -/
def SameRecords (s t : State) : Prop := ∀ c, (crew? t c).map (fun y => y.rcd) = (crew? s c).map (fun y => y.rcd)

theorem SameRecords.refl (s : State) : SameRecords s s := fun _ => rfl
theorem SameRecords.trans {s t u : State} (a : SameRecords s t) (b : SameRecords t u) : SameRecords s u := fun c => (b c).trans (a c)
theorem SameRecords.of_crews {s t : State} (h : t.crews = s.crews) : SameRecords s t := fun c => by simp only [crew?, h]

theorem SameRecords.foldl {α : Type} (f : State → α → State) (h : ∀ s a, SameRecords s (f s a)) (as : List α) (s : State) :
    SameRecords s (as.foldl f s) := by
  induction as generalizing s with
  | nil => exact .refl s
  | cons a as ih => exact (h s a).trans (ih (f s a))

theorem sameRecords_modCrew (s : State) (d : Nat) (f : Crew → Crew) (h : ∀ y, (f y).rcd = y.rcd) : SameRecords s (modCrew s d f) := by
  intro c
  rw [crew?_modCrew]
  split
  · subst_vars; rw [Option.map_map]; exact congrArg (fun g => Option.map g _) (funext h)
  · rfl

theorem sameRecords_modGang (s : State) (g : GRef) (f : Gang → Gang) : SameRecords s (modGang s g f) := by
  cases g with
  | user c n => exact sameRecords_modCrew s c _ (fun _ => rfl)
  | sup c => exact .of_crews rfl

theorem sameRecords_countCore (s : State) (c n k : Nat) : SameRecords s (countCore s c n k) := .of_crews rfl

theorem sameRecords_countUnreported (s : State) (g : GRef) : SameRecords s (countUnreported s g) := by
  unfold countUnreported
  split
  · split
    · exact .refl s
    · exact (sameRecords_modGang s g _).trans (.of_crews (by rfl))
  · exact .refl s

theorem sameRecords_acquire (s : State) (g : GRef) (sc : Scope) : SameRecords s (acquire s g sc) := by
  have r : ∀ t : State, SameRecords t (raceAcq t g) := by
    intro t
    unfold raceAcq raceAcquire
    split
    · split
      · exact .refl t
      · exact sameRecords_modCrew t _ _ (fun _ => rfl)
    · exact .refl t
  cases sc with
  | gang => exact .refl s
  | crew => exact .refl s
  | dev => exact SameRecords.trans (.of_crews rfl) (r _)
  | sys => exact SameRecords.trans (.of_crews rfl) (r _)

theorem sameRecords_closeRegions (s : State) (g : GRef) : SameRecords s (closeRegions s g) := by
  unfold closeRegions
  cases g with
  | sup c => exact .refl s
  | user c n =>
    dsimp only
    split
    · exact .refl s
    · refine (sameRecords_modCrew s c _ ?_).trans (.of_crews rfl)
      intro _; rfl

theorem sameRecords_steer (s : State) (u : Unwind) : SameRecords s (steer s u) := by
  have r : ∀ t : State, SameRecords t ((membersOf t u).foldl (fun s g =>
      match gang? s g with
      | some x =>
        if x.ended.isSome then s
        else acquire (modGang s g (steerGang u.level u.depth u.catchPc)) g (unwindScope s u g)
      | none => s) t) := by
    intro t
    refine .foldl _ (fun s g => ?_) _ t
    split
    · split
      · exact .refl s
      · exact (sameRecords_modGang s g _).trans (sameRecords_acquire _ _ _)
    · exact .refl s
  have q : ∀ t : State, SameRecords t ((membersOf t u).head?.elim t (closeRegions t)) := by
    intro t
    cases (membersOf t u).head? with
    | none => exact .refl t
    | some g => exact sameRecords_closeRegions t g
  unfold steer
  refine SameRecords.trans ?_ ((r _).trans (q _))
  split
  · exact sameRecords_modCrew s _ _ (fun _ => rfl)
  · exact .of_crews rfl
  · exact .refl s

theorem sameRecords_endLaunch (s : State) (u : Unwind) (ts : List Thrown) : SameRecords s (endLaunch s u ts) := by
  have r : ∀ t : State, SameRecords t (endGangs t u.launch u) := by
    intro t c
    simp only [crew?, endGangs, Tab.find?_mapVals, Option.map_map]
    refine congrArg (fun g => Option.map g _) (funext fun y => ?_)
    simp only [Function.comp_apply]; split <;> rfl
  unfold endLaunch
  refine SameRecords.trans ?_ (r _)
  refine SameRecords.trans ?_ (SameRecords.foldl _ sameRecords_countUnreported _ _)
  exact .of_crews rfl

/-- Steps 4 and 5: what step 4 has written stands. -/
theorem sameRecords_unwound (s : State) (k : Nat) (u : Unwind) : SameRecords (recorded s k u) (unwound s k u) := by
  unfold unwound
  split
  · exact sameRecords_endLaunch _ _ _
  · exact sameRecords_steer _ _

/-! ### The words -/

/-- A word of an area that is written whole. -/
theorem wordAt_written (word : Nat → Nat) (n i : Nat) (h : i < n) :
    wordAt ((List.range n).foldl (fun t i => Tab.set 0#64 t i (BitVec.ofNat 64 (word i))) []) i = word i % 2 ^ 64 := by
  induction n with
  | zero => omega
  | succ n ih =>
    rw [List.range_succ, List.foldl_append]
    simp only [List.foldl_cons, List.foldl_nil, wordAt, Tab.get_set]
    split
    · subst_vars; simp
    · exact ih (by omega)

/-- The area that an unwind writes for a crew. -/
def recordOf (u : Unwind) (h : Header) (ts : List Thrown) (c : Nat) (cr : Crew) (l : Launch) (i : Nat) : Nat :=
  let before := (u.kept.bind (fun k => Tab.find? k.areas c)).getD []
  if i = 0 then h.w0
  else if i = 1 then h.w1
  else if i = 2 then h.w2
  else if i = 3 then h.w3
  else if i = 4 then u.launch
  else if i = 5 then u.cycle
  else if i = 7 then cr.recSeq + 1
  else if 8 ≤ i ∧ i < 40 then
    Nat.lor (maskOf ((ts.filter (fun t => t.crew == c && t.gang == i - 8)).map (fun t => t.lane))) (wordAt before (8 + (i - 8)))
  else if 40 ≤ i ∧ i < 72 then ((Tab.find? cr.gangs (i - 40)).map (stopEntry u c l.code)).getD 0
  else if 72 ≤ i then (h.codes[i - 72]?).getD 0
  else 0

/-- Words 8 to 39: the lanes of a gang that threw. -/
theorem recordOf_lanes (u : Unwind) (h : Header) (ts : List Thrown) (c : Nat) (cr : Crew) (l : Launch) (i g : Nat) (hi : i = 8 + g) (hg : g < 32) :
    recordOf u h ts c cr l i = Nat.lor (maskOf ((ts.filter (fun t => t.crew == c && t.gang == g)).map (fun t => t.lane)))
      (wordAt ((u.kept.bind (fun k => Tab.find? k.areas c)).getD []) (8 + g)) := by
  have e : i - 8 = g := by omega
  unfold recordOf
  rw [if_neg (by omega), if_neg (by omega), if_neg (by omega), if_neg (by omega), if_neg (by omega), if_neg (by omega), if_neg (by omega),
    if_pos (by omega), e]

/-- Words 40 to 71: the stop entry of a gang. -/
theorem recordOf_stop (u : Unwind) (h : Header) (ts : List Thrown) (c : Nat) (cr : Crew) (l : Launch) (i g : Nat) (hi : i = 40 + g) (hg : g < 32) :
    recordOf u h ts c cr l i = ((Tab.find? cr.gangs g).map (stopEntry u c l.code)).getD 0 := by
  have e : i - 40 = g := by omega
  unfold recordOf
  rw [if_neg (by omega), if_neg (by omega), if_neg (by omega), if_neg (by omega), if_neg (by omega), if_neg (by omega), if_neg (by omega),
    if_neg (by omega), if_pos (by omega), e]

/-- Words 72 to 95: the code list. -/
theorem recordOf_code (u : Unwind) (h : Header) (ts : List Thrown) (c : Nat) (cr : Crew) (l : Launch) (i j : Nat) (hi : i = 72 + j) :
    recordOf u h ts c cr l i = (h.codes[j]?).getD 0 := by
  have e : i - 72 = j := by omega
  unfold recordOf
  rw [if_neg (by omega), if_neg (by omega), if_neg (by omega), if_neg (by omega), if_neg (by omega), if_neg (by omega), if_neg (by omega),
    if_neg (by omega), if_neg (by omega), if_pos (by omega), e]

theorem crew?_writeRecord (s : State) (u : Unwind) (h : Header) (ts : List Thrown) (c d : Nat) (cr : Crew) (l : Launch)
    (hc : crew? s c = some cr) (hl : launch? s u.launch = some l) :
    crew? (writeRecord s u h ts c) d = (if d = c then some { cr with
        recSeq := (cr.recSeq + 1) % 2 ^ 64
        rcdThrew := h.threw
        rcd := (List.range 96).foldl (fun t i => Tab.set 0#64 t i (BitVec.ofNat 64 (recordOf u h ts c cr l i))) [] }
      else crew? s d) := by
  unfold writeRecord
  simp only [hc, hl, crew?_modCrew, Option.map_some]
  rfl

theorem launch?_writeRecord (s : State) (u : Unwind) (h : Header) (ts : List Thrown) (c k : Nat) :
    launch? (writeRecord s u h ts c) k = launch? s k := by
  unfold writeRecord; split <;> simp

theorem crew?_writeRecord_ne (s : State) (u : Unwind) (h : Header) (ts : List Thrown) (c d : Nat) (hd : d ≠ c) :
    crew? (writeRecord s u h ts c) d = crew? s d := by
  unfold writeRecord
  split
  · rw [crew?_modCrew, if_neg hd]
  · rfl

/-- Each crew of a list without repeats has its own area written once. -/
theorem crew?_writeRecords (u : Unwind) (h : Header) (ts : List Thrown) (c : Nat) (cr : Crew) (l : Launch) (cs : List Nat) :
    ∀ s : State, c ∈ cs → cs.Nodup → crew? s c = some cr → launch? s u.launch = some l →
    ∃ y, crew? (cs.foldl (fun s c => writeRecord s u h ts c) s) c = some y ∧ ∀ i, i < 96 → wordAt y.rcd i = recordOf u h ts c cr l i % 2 ^ 64 := by
  have keep : ∀ (cs : List Nat) (s : State), c ∉ cs → crew? (cs.foldl (fun s c => writeRecord s u h ts c) s) c = crew? s c := by
    intro cs
    induction cs with
    | nil => intro s _; rfl
    | cons d cs ih =>
      intro s hn
      rw [List.foldl_cons, ih _ (fun h => hn (List.mem_cons_of_mem _ h))]
      exact crew?_writeRecord_ne _ _ _ _ _ _ (fun h => hn (h ▸ List.mem_cons_self))
  induction cs with
  | nil => intro s hm; exact absurd hm List.not_mem_nil
  | cons d cs ih =>
    intro s hm hn hc hl
    rw [List.foldl_cons]
    by_cases e : c = d
    · subst e
      rw [keep _ _ (List.nodup_cons.1 hn).1, crew?_writeRecord s u h ts c c cr l hc hl, if_pos rfl]
      exact ⟨_, rfl, fun i hi => wordAt_written _ 96 i hi⟩
    · refine ih _ ?_ (List.nodup_cons.1 hn).2 ?_ ?_
      · rcases List.mem_cons.1 hm with h | h
        · exact absurd h e
        · exact h
      · rw [crew?_writeRecord_ne _ _ _ _ _ _ e]; exact hc
      · rw [launch?_writeRecord]; exact hl

/-- What an unwind leaves in the record area of a crew of its group. -/
theorem recordArea (s : State) (k : Nat) (u : Unwind) (c : Nat) (cr : Crew) (l : Launch) (hm : c ∈ crewsOf s u) (hn : (crewsOf s u).Nodup)
    (hc : crew? s c = some cr) (hl : launch? s u.launch = some l) :
    ∃ y, crew? (unwound s k u) c = some y ∧ ∀ i, i < 96 →
      wordAt y.rcd i = recordOf u (headerOf s u (throwsOf s u)) (throwsOf s u) c cr l i % 2 ^ 64 := by
  let s0 := if u.remote.isEmpty then s else freshen s
  have e : s0.crews = s.crews ∧ s0.launches = s.launches := by simp only [s0]; split <;> exact ⟨rfl, rfl⟩
  have e1 : crewsOf s0 u = crewsOf s u := by simp only [crewsOf, e.1]
  obtain ⟨y, hy, hw⟩ := crew?_writeRecords u (headerOf s u (throwsOf s u)) (throwsOf s u) c cr l (crewsOf s0 u) s0 (e1 ▸ hm) (e1 ▸ hn)
    (by simp only [crew?, e.1]; exact hc) (by simp only [launch?, e.2]; exact hl)
  have same := sameRecords_unwound s k u c
  have cnt : ∀ (t : State), SameRecords t (countUnwind t u) := fun t => .foldl _ (fun s c => sameRecords_countCore s c _ _) _ t
  have r : (crew? (recorded s k u) c).map (fun y => y.rcd) = some y.rcd := by
    have := cnt ((crewsOf s0 u).foldl (fun s' c => writeRecord s' u (headerOf s u (throwsOf s u)) (throwsOf s u) c) s0) c
    rw [hy] at this
    exact this
  rw [r] at same
  obtain ⟨z, hz, hzr⟩ := Option.map_eq_some_iff.1 same
  exact ⟨z, hz, fun i hi => hzr ▸ hw i hi⟩

end Sys2Proof.Machine
end

