-- ==== Sys2Proof/Laws/Turn.lean ====
section
/-!
SUPPORT. One turn of a quad group: what an attempt to issue comes to once nothing holds it back.
-/

namespace Sys2Proof.Machine

/-- Only a clause header leaves the mark that R98 reads. -/
theorem afterHeader_other (i : Instr) (g : GRef) (k : Nat) (o : Out) (h : ¬∃ y a b w, i = .clauseHeader y a b w) : afterHeader i g k o = o := by
  cases i <;> first | rfl | exact absurd ⟨_, _, _, _, rfl⟩ h

/-- An attempt that nothing suspends fetches the word at the group's pc and runs it. -/
theorem attempt_runs (g : GRef) (k : Nat) (s u : State) (is : Iss) (hu : u = releaseYield { s with cur := some (g, k), blocked := none } g)
    (h3 : issuerOf? u g k = some is) (h6 : suspended u g is.gang = false) (h7 : groupHeld u is = false)
    (h8 : ∀ c, g = .sup c → yielding u c is.q = false) :
    attempt exec g k s = (match fetchInsn u g (lowQuad is.q) is.q.pageFail is.q.pc with
      | .wait s => .next { s with blocked := some .sync }
      | .trap s c bs => .next (wordTrap s is c bs)
      | .ok s bs => runWord exec g k is bs s) := by
  unfold attempt
  rw [← hu]
  simp only [h3, h6, h7, Bool.or_self, Bool.false_or]
  cases g with
  | sup c => exact if_neg (by simp [h8 c rfl])
  | user c n => rfl

end Sys2Proof.Machine
end

