-- ==== Sys2Proof/Tests/Slice0.lean ====
section
/-!
SUPPORT. Tests of this slice: words written out from the encoding tables, ill-formed terms, one witness for the hypotheses of each
statement, and small values of the manual's worked examples.
-/

open Sys2Proof Sys2Proof.Machine

section Slice0Tests

/- One theorem after the other: each is one evaluation by the kernel. -/
set_option Elab.async false

/-! ### Decoding: every instruction's word, laid out by Table 5-1 from the fields its encoding table gives -/

section TestWords

/-- A base word by Table 5-1, its fields in ascending order of bits: LEN, MAJ, GP, GN, D, A, B, C, MIN. -/
def Tests.w (len maj gp gn d a b c min : Nat) : Nat :=
  len + 2 ^ 2 * maj + 2 ^ 10 * gp + 2 ^ 14 * gn + 2 ^ 15 * d + 2 ^ 25 * a + 2 ^ 35 * b + 2 ^ 45 * c + 2 ^ 55 * min

/-- The word of a 64-bit instruction is read as `i`. -/
abbrev Tests.short (w : Nat) (i : Instr) : Prop := decodeTableWord 64 w = some i

/-- The word of a 96-bit instruction with its immediate word is read as `i`. -/
abbrev Tests.mid (w imm : Nat) (i : Instr) : Prop := decodeTableWord 96 (w + 2 ^ 64 * imm) = some i

/-- The word of a 128-bit instruction with its extension word is read as `i`. -/
abbrev Tests.long (w ext : Nat) (i : Instr) : Prop := decodeTableWord 128 (w + 2 ^ 64 * ext) = some i

open Tests (w short mid long)

/-- Table 5-2 and Table 7-1. -/
theorem test_decode_control :
    short (2 ^ 22 + 2 ^ 18 * 3 + 2 ^ 14 * 11 + 2 ^ 2 * 0x801) (.clauseHeader true 3 11 0x801#12)
    ∧ short (w 1 0x00 0 0 0 0 0 0 0) .nop
    ∧ mid (w 2 0x01 0 0 0 0 0 0 0) 0xFFFFFFFE (.bra (.off 0xFFFFFFFE#32))
    ∧ short (w 1 0x01 0 0 0 650 0 0 0) (.bra (.reg 10))
    ∧ mid (w 2 0x02 0 0 0 0 0 0 (16 + 7)) 0x40 (.brc true 7 0x40#32)
    ∧ mid (w 2 0x02 0 0 0 0 0 0 9) 1 (.brc false 9 1#32)
    ∧ mid (w 2 0x03 4 1 0 0 0 0 0) 8 (.call ⟨4, true⟩ (.off 8#32))
    ∧ short (w 1 0x03 4 0 0 767 0 0 0) (.call ⟨4, false⟩ (.reg 127))
    ∧ short (w 1 0x04 1 1 0 639 640 0 0) (.callv ⟨1, true⟩ 639 0)
    ∧ short (w 1 0x05 0 0 0 0 0 0 0) .ret
    ∧ mid (w 2 0x06 2 1 0 0 0 0 0) (0x0005 + 2 ^ 16 * 0x0009) (.ifI ⟨2, true⟩ 5 9)
    ∧ short (w 1 0x07 0 0 0 0 0 0 0) .elseI ∧ short (w 1 0x08 0 0 0 0 0 0 0) .endif ∧ short (w 1 0x09 0 0 0 0 0 0 0) .loop
    ∧ short (w 1 0x0A 5 1 0 0 0 0 0) (.brk ⟨5, true⟩) ∧ short (w 1 0x0B 15 0 0 0 0 0 0) (.cont ⟨15, false⟩)
    ∧ short (w 1 0x0C 0 0 0 0 0 0 0) .endloop ∧ short (w 1 0x0D 0 0 0 0 0 0 0) .gjoin ∧ short (w 1 0x0E 0 0 0 0 0 0 0) .exit
    ∧ short (w 1 0x0F 0 0 0 0 0 1023 2) (.waitp 2 1023)
    ∧ mid (w 2 0x10 0 0 0 0 0 0 0) 12 (.tryGang 12#32) ∧ mid (w 2 0x10 0 0 0 0 0 0 1) 12 (.tryCrew 12#32)
    ∧ mid (w 2 0x10 0 0 0 0 0 0 2) 12 (.tryLaunch 12#32)
    ∧ short (w 1 0x11 0 0 0 0 0 0 0) .endtryGang ∧ short (w 1 0x11 0 0 0 0 0 0 1) .endtryCrew
    ∧ short (w 1 0x11 0 0 0 0 0 0 2) .endtryLaunch
    ∧ short (w 1 0x12 3 0 0 20 0 0 0) (.throw ⟨3, false⟩ (.v 20)) ∧ short (w 1 0x13 0 0 0 0 0 0 0) .rethrow
    ∧ short (w 1 0x14 0 0 642 799 0 0 0) (.rdexr (.s 2) (.k (-1))) := by
  decide

/-- Table 8-2 and R157 to R164. -/
theorem test_decode_integer :
    short (w 1 0x20 0 0 4 5 6 0 (16 + 4)) (.iadd ⟨Guard.all, .s16x2, true, .v 4, .v 5, .v 6⟩)
    ∧ mid (w 2 0x21 3 1 4 5 0 0 0) 0x80000000 (.isub ⟨⟨3, true⟩, .s32, false, .v 4, .v 5, .imm 0x80000000#32⟩)
    ∧ short (w 1 0x22 0 0 640 641 895 0 3) (.imul ⟨Guard.all, .u64, false, .s 0, .s 1, .k 95⟩)
    ∧ short (w 1 0x23 0 0 2 4 6 0 2) (.imulh ⟨Guard.all, .s64, false, .v 2, .v 4, .v 6⟩)
    ∧ short (w 1 0x24 0 0 1 2 3 4 7) (.imad ⟨Guard.all, .u8x4, false, .v 1, .v 2, .v 3, .v 4⟩)
    ∧ short (w 1 0x25 0 0 1 2 0 0 (16 + 6)) (.iabs ⟨Guard.all, .s8x4, true, .v 1, .v 2⟩)
    ∧ short (w 1 0x26 0 0 1 2 0 0 5) (.ineg ⟨Guard.all, .u16x2, false, .v 1, .v 2⟩)
    ∧ short (w 1 0x27 0 0 1 2 896 0 0) (.imin ⟨Guard.all, .s32, false, .v 1, .v 2, .x .laneid⟩)
    ∧ short (w 1 0x28 0 0 1016 1023 3 0 1) (.imax ⟨Guard.all, .u32, false, .q 0, .q 7, .v 3⟩)
    ∧ short (w 1 0x29 0 0 640 1014 1015 0 3) (.and ⟨Guard.all, .u64, false, .s 0, .lr, .exm⟩)
    ∧ short (w 1 0x2A 0 0 1 2 3 0 1) (.or ⟨Guard.all, .u32, false, .v 1, .v 2, .v 3⟩)
    ∧ short (w 1 0x2B 0 0 1 2 3 0 1) (.xor ⟨Guard.all, .u32, false, .v 1, .v 2, .v 3⟩)
    ∧ short (w 1 0x2C 0 0 1015 640 0 0 3) (.not ⟨Guard.all, .u64, false, .exm, .s 0⟩)
    ∧ short (w 1 0x2D 0 0 1 2 3 0 (16 + 0)) (.shl ⟨Guard.all, .s32, true, .v 1, .v 2, .v 3⟩)
    ∧ short (w 1 0x2E 0 0 1 2 3 0 1) (.shr ⟨Guard.all, .u32, false, .v 1, .v 2, .v 3⟩)
    ∧ short (w 1 0x2F 0 0 1 2 3 0 0) (.sar ⟨Guard.all, .s32, false, .v 1, .v 2, .v 3⟩)
    ∧ short (w 1 0x30 0 0 1 2 3 0 1) (.rot ⟨Guard.all, .u32, false, .v 1, .v 2, .v 3⟩)
    ∧ mid (w 2 0x31 0 0 4 5 0 0 0) 0xC1C (.bfx ⟨Guard.all, .s32, false, .v 4, .v 5⟩ (.imm 0xC1C#32))
    ∧ short (w 1 0x31 0 0 4 6 0 7 3) (.bfx ⟨Guard.all, .u64, false, .v 4, .v 6⟩ (.v 7))
    ∧ short (w 1 0x32 0 0 4 5 6 643 1) (.bfi ⟨Guard.all, .u32, false, .v 4, .v 5, .v 6⟩ (.s 3))
    ∧ short (w 1 0x33 0 0 1 2 0 0 1) (.popc ⟨Guard.all, .u32, false, .v 1, .v 2⟩)
    ∧ short (w 1 0x34 0 0 1 2 0 0 4) (.clz ⟨Guard.all, .s16x2, false, .v 1, .v 2⟩)
    ∧ short (w 1 0x35 0 0 1 2 0 0 7) (.ctz ⟨Guard.all, .u8x4, false, .v 1, .v 2⟩)
    ∧ short (w 1 0x36 0 0 2 4 0 0 3) (.brev ⟨Guard.all, .u64, false, .v 2, .v 4⟩)
    ∧ short (w 1 0x37 2 0 0 1 2 3 (32 * 2)) (.icmp ⟨2, false⟩ .lt .s32 3 (.v 1) (.v 2))
    ∧ short (w 1 0x38 0 0 0 640 800 15 (32 * 5 + 3)) (.icmpc .ge .u64 15 (.s 0) (.k 0))
    ∧ short (w 1 0x39 0 0 1 2 3 (16 + 5) 1) (.sel ⟨Guard.all, .u32, false, .v 1, .v 2, .v 3⟩ 5 true)
    ∧ short (w 1 0x3A 0 0 6 649 0 0 3) (.mov ⟨Guard.all, .u64, false, .v 6, .s 9⟩)
    ∧ mid (w 2 0x3B 0 0 640 0 0 0 2) 0xFFFFFFFF (.movi Guard.all .s64 (.s 0) (.word 0xFFFFFFFF#32))
    ∧ long (w 3 0x3B 0 0 6 0 0 0 3) 0x123456789 (.movi Guard.all .u64 (.v 6) (.ext 0x123456789#64))
    ∧ short (w 1 0x3C 0 0 8 8 3 0 (32 * 2 + 3)) (.lea ⟨Guard.all, .u64, false, .v 8, .v 8, .v 3⟩ 2) := by
  decide

/-- R165 to R173. -/
theorem test_decode_predicate_and_lanes :
    mid (w 2 0x3D 0 0 0 0 0 0 0) 0x4213 (.plop Guard.all 3 1 2 0x4#4)
    ∧ mid (w 2 0x3F 0 0 0 0 0 0 0) 0xE9AF (.clop 15 10 9 0xE#4)
    ∧ short (w 1 0x3E 0 0 0 1 0 4 1) (.pmov Guard.all (.toPred 4 (.v 1)))
    ∧ short (w 1 0x3E 0 0 1 0 0 4 (32 * 1 + 1)) (.pmov Guard.all (.fromPred (.v 1) 4))
    ∧ short (w 1 0x3E 0 0 0 641 0 4 (32 * 2 + 1)) (.pmov Guard.all (.bit 4 (.s 1)))
    ∧ short (w 1 0x40 0 0 2 1 801 0 (32 * 3 + 1)) (.shfl Guard.all .xor .u32 (.v 2) (.v 1) (.k 1))
    ∧ short (w 1 0x41 0 0 2 4 641 0 3) (.bcast Guard.all .u64 (.v 2) (.v 4) (.s 1))
    ∧ short (w 1 0x42 6 1 641 0 0 3 0) (.ballot ⟨6, true⟩ (.s 1) 3)
    ∧ short (w 1 0x43 0 0 2 1 0 0 (32 * 5)) (.pscan Guard.all .max true .s32 false (.v 2) (.v 1))
    ∧ short (w 1 0x44 2 0 8 644 645 0 1) (.append ⟨2, false⟩ (.v 8) (.s 4) (.s 5))
    ∧ mid (w 2 0x45 1 0 642 0 0 0 (32 * 5 + 1)) 9 (.red ⟨1, false⟩ .xor .u32 false (.s 2) 9) := by
  decide

/-- Table 9-2 and R181 to R189. -/
theorem test_decode_float :
    short (w 1 0x50 0 0 1 2 3 0 (16 + 8)) (.fadd ⟨Guard.all, .f32, true, .v 1, .v 2, .v 3⟩)
    ∧ mid (w 2 0x51 0 0 1 2 0 0 8) 0x3F800000 (.fsub ⟨Guard.all, .f32, false, .v 1, .v 2, .imm 0x3F800000#32⟩)
    ∧ short (w 1 0x52 0 0 1 2 3 0 9) (.fmul ⟨Guard.all, .f16x2, false, .v 1, .v 2, .v 3⟩)
    ∧ short (w 1 0x53 0 0 1 2 3 4 0xA) (.fma ⟨Guard.all, .bf16x2, false, .v 1, .v 2, .v 3, .v 4⟩)
    ∧ short (w 1 0x54 0 0 1 2 3 0 (32 * 1 + 8)) (.fmin true ⟨Guard.all, .f32, false, .v 1, .v 2, .v 3⟩)
    ∧ short (w 1 0x55 0 0 1 2 3 0 8) (.fmax false ⟨Guard.all, .f32, false, .v 1, .v 2, .v 3⟩)
    ∧ short (w 1 0x56 0 0 1 2 0 0 8) (.fabs ⟨Guard.all, .f32, false, .v 1, .v 2⟩)
    ∧ short (w 1 0x57 0 0 1 2 0 0 9) (.fneg ⟨Guard.all, .f16x2, false, .v 1, .v 2⟩)
    ∧ short (w 1 0x58 0 0 0 1 2 3 (32 * 7 + 8)) (.fcmp Guard.all .ord 3 (.v 1) (.v 2))
    ∧ short (w 1 0x59 0 0 0 644 800 2 (32 * 5 + 8)) (.fcmpc .ge 2 (.s 4) (.k 0))
    ∧ short (w 1 0x5A 0 0 1 2 0 0 8) (.frcp ⟨Guard.all, .f32, false, .v 1, .v 2⟩)
    ∧ short (w 1 0x5B 0 0 1 2 0 0 8) (.frsq ⟨Guard.all, .f32, false, .v 1, .v 2⟩)
    ∧ short (w 1 0x5C 0 0 1 2 0 0 8) (.fsqrt ⟨Guard.all, .f32, false, .v 1, .v 2⟩)
    ∧ short (w 1 0x5D 0 0 1 2 0 0 8) (.fexp2 ⟨Guard.all, .f32, false, .v 1, .v 2⟩)
    ∧ short (w 1 0x5E 0 0 1 2 0 0 8) (.flog2 ⟨Guard.all, .f32, false, .v 1, .v 2⟩)
    ∧ short (w 1 0x5F 0 0 1 2 0 0 8) (.fsin ⟨Guard.all, .f32, false, .v 1, .v 2⟩)
    ∧ short (w 1 0x60 0 0 1 2 0 0 8) (.fcos ⟨Guard.all, .f32, false, .v 1, .v 2⟩)
    ∧ short (w 1 0x61 0 0 1 2 0 0 8) (.ftanh ⟨Guard.all, .f32, false, .v 1, .v 2⟩)
    ∧ mid (w 2 0x62 0 0 0 2 0 3 8) 0x381 (.fclass Guard.all 3 (.v 2) 0x381#10)
    ∧ short (w 1 0x63 0 0 12 3 0 (0 + 8 * 2) (32 * 0xB + 16 + 8)) (.cvt Guard.all .e4m3 .f32 true (.v 12) (.v 3) 0 2)
    ∧ short (w 1 0x63 0 0 12 3 0 (3 + 8 * 0) (32 * 8 + 6)) (.cvt Guard.all .f32 .s8 false (.v 12) (.v 3) 3 0)
    ∧ short (w 1 0x64 0 0 1 2 3 7 0xD) (.cvtmx Guard.all .e2m1 (.v 1) (.v 2) (.v 3) 7)
    ∧ short (w 1 0x64 0 0 1 2 0 0 (32 * 1 + 0xB)) (.cvtmxScale Guard.all .e4m3 (.v 1) (.v 2))
    ∧ short (w 1 0x65 0 0 1 2 3 0 8) (.fscale ⟨Guard.all, .f32, false, .v 1, .v 2, .v 3⟩) := by
  decide

/-- Tables 12-1 and 12-2. -/
theorem test_decode_memory :
    short (w 1 0x70 0 0 4 7 0 3 (32 * 2 + 4 * 1 + 2)) (.ld ⟨Guard.all, .b16, .dev, .v 7, 3, none⟩ true (.v 4))
    ∧ mid (w 2 0x70 1 1 4 7 0 (3 + 32 * 6) (32 * 1 + 4 * 3 + 3)) 0xFFFFFFF8
        (.ldRp ⟨⟨1, true⟩, .b64, .sys, .v 7, 3, some 0xFFFFFFF8#32⟩ false (.v 4) 6)
    ∧ short (w 1 0x71 0 0 0 1 6 0 (4 * 2 + 1)) (.st ⟨Guard.all, .b32, .crew, .v 1, 0, none⟩ (.v 6))
    ∧ mid (w 2 0x72 0 0 1016 645 896 0 (32 * 2)) 0x3C (.lds ⟨Guard.all, .b8, .gang, .s 5, .x .laneid, some 0x3C#32⟩ true (.q 0))
    ∧ short (w 1 0x73 0 0 0 645 2 4 (4 * 3 + 1)) (.sts ⟨Guard.all, .b64, .crew, .s 5, .v 2, none⟩ (.v 4))
    ∧ short (w 1 0x74 0 0 4 1 6 31 (32 * 9 + 4 * 2 + 2)) (.atom .cas ⟨Guard.all, .b32, .dev, .v 1, 31, none⟩ (.v 4) (.v 6))
    ∧ short (w 1 0x75 0 0 4 645 2 6 (32 * 10 + 4 * 2 + 1)) (.atoms .fadd ⟨Guard.all, .b32, .crew, .s 5, .v 2, none⟩ (.v 4) (.v 6))
    ∧ short (w 1 0x76 0 0 648 0 0 0 3) (.fence .sys (.s 8))
    ∧ short (w 1 0x77 0 0 646 640 800 3 (32 * 2 + 4 * 2 + 2)) (.waita .geu .b32 .dev (.s 6) (.s 0) 3 (.k 0) none)
    ∧ mid (w 2 0x78 0 0 0 640 0 3 3) 64 (.wake .sys (.s 0) 3 (some 64#32))
    ∧ short (w 1 0x79 0 0 0 0 0 0 0) .persist
    ∧ short (w 1 0x7A 0 0 0 640 641 3 2) (.zfill ⟨.s 0, 3, .s 1, none⟩)
    ∧ mid (w 2 0x7B 0 0 7 640 641 3 0) 256 (.pagereq 7 ⟨.s 0, 3, .s 1, some 256#32⟩)
    ∧ short (w 1 0x7C 0 0 0 640 641 3 1) (.cctlWb .crew ⟨.s 0, 3, .s 1, none⟩)
    ∧ short (w 1 0x7C 0 0 0 640 641 3 (32 * 1 + 2)) (.cctlDisc .dev ⟨.s 0, 3, .s 1, none⟩)
    ∧ short (w 1 0x7D 0 0 0 640 641 3 0) (.icpf ⟨.s 0, 3, .s 1, none⟩)
    ∧ short (w 1 0x7E 0 0 0 640 641 3 0) (.icpin ⟨.s 0, 3, .s 1, none⟩)
    ∧ short (w 1 0x7E 0 0 0 640 641 3 (32 * 1)) (.icpinUnpin ⟨.s 0, 3, .s 1, none⟩)
    ∧ short (w 1 0x7F 0 0 0 640 641 3 1) (.icinvCrew ⟨.s 0, 3, .s 1, none⟩)
    ∧ short (w 1 0x7F 0 0 0 640 641 3 2) (.icinvDev ⟨.s 0, 3, .s 1, none⟩)
    ∧ short (w 1 0x80 0 0 642 1019 0 9 (32 * 1)) (.qstat true (.s 2) 3 9) := by
  decide

/-- Tables 14-2 and 14-5. -/
theorem test_decode_engines :
    long (w 3 0x90 0 0 1 644 645 864 (128 + 64 + 2)) 3 (.cpy ⟨Guard.all, 1, .s 4, .s 5, .k 64, 3, some 2⟩ true false)
    ∧ long (w 3 0x91 1 1 2 644 645 646 (64 + 31)) (4 + 2 ^ 8 * 0xA5)
        (.cpyM ⟨⟨1, true⟩, 2, .s 4, .s 5, .s 6, 4, some 31⟩ 0xA5#8)
    ∧ long (w 3 0x92 0 0 15 644 645 646 32) 31 (.cpyX ⟨Guard.all, 15, .s 4, .s 5, .s 6, 31, none⟩ false true)
    ∧ long (w 3 0x93 0 0 2 646 647 20 1) (0x4000 + 2 ^ 20 * 0x4200) (.mma ⟨Guard.all, 2, .s 6, .s 7, 20, 1, 0x4000, 0x4200⟩)
    ∧ long (w 3 0x94 0 0 2 646 647 20 3) (0x4000 + 2 ^ 20 * 0x4200 + 2 ^ 40 * 0xFFFFF)
        (.mmaSp ⟨Guard.all, 2, .s 6, .s 7, 20, 3, 0x4000, 0x4200⟩ 0xFFFFF)
    ∧ long (w 3 0x95 0 0 2 646 647 20 2) (0x4000 + 2 ^ 20 * 0x4200) (.mmaP ⟨Guard.all, 2, .s 6, .s 7, 20, 2, 0x4000, 0x4200⟩)
    ∧ long (w 3 0x96 0 0 2 646 647 20 0) (0x400 + 2 ^ 40 * 0x800) (.msel Guard.all 2 (.s 6) (.s 7) 20 0x400 0x800)
    ∧ short (w 1 0x97 3 0 2 0 0 0 3) (.accz ⟨3, false⟩ 2 3)
    ∧ short (w 1 0x98 0 0 2 646 0 0 (32 * 8 + 1)) (.accdr Guard.all 2 (.s 6) .f32 1)
    ∧ short (w 1 0x99 0 0 2 816 0 0 2) (.wdset Guard.all 2 (.k 16) 2)
    ∧ short (w 1 0x9A 0 0 2 0 0 0 0) (.mfence Guard.all 2)
    ∧ short (w 1 0x9B 0 0 0 0 0 2 0) (.fwait 2 none) ∧ short (w 1 0x9B 0 0 648 0 0 2 32) (.fwait 2 (some 8))
    ∧ short (w 1 0x9C 0 0 648 0 0 2 (32 + 5)) (.ftest 2 5 (some 8))
    ∧ short (w 1 0x9D 0 0 0 0 0 15 0) (.fcancel 15)
    ∧ short (w 1 0x9E 0 0 0 640 0 2 0) (.fexport 2 (.s 0)) ∧ short (w 1 0x9F 0 0 2 640 0 0 0) (.fimport 2 (.s 0))
    ∧ short (w 1 0xA0 0 0 0 804 0 0 31) (.barinit 31 (.k 4)) ∧ short (w 1 0xA1 0 0 0 0 0 0 2) (.bara 2)
    ∧ short (w 1 0xA2 0 0 0 864 0 0 2) (.barexp 2 (.k 64)) ∧ short (w 1 0xA3 0 0 0 0 0 0 (32 + 2)) (.barw 2 true)
    ∧ short (w 1 0xA4 0 0 0 0 0 0 3) (.lbar 3) := by
  decide

/-- Tables 15-3 and 15-7. -/
theorem test_decode_system :
    short (w 1 0xB0 0 0 4 646 0 0 0) (.otdecl 4 (.s 6)) ∧ short (w 1 0xB1 0 0 0 0 0 4 0) (.otbegin 4)
    ∧ short (w 1 0xB2 0 0 0 0 0 0 0) .otend ∧ short (w 1 0xB3 0 0 0 647 0 0 0) (.otround (.s 7))
    ∧ mid (w 2 0xC0 0 0 0 0 0 0 0) 0xBEEF (.trap (.imm 0xBEEF#32)) ∧ short (w 1 0xC0 0 0 0 640 0 0 0) (.trap (.s 0))
    ∧ short (w 1 0xC1 0 0 0 660 0 2 0) (.svret (.s 20) 2) ∧ short (w 1 0xC2 0 0 0 660 661 0 0) (.svthrow (.s 20) (.s 21))
    ∧ mid (w 2 0xC3 3 1 8 660 0 0 0) (639 + 2 ^ 16) (.rdxv ⟨3, true⟩ (.v 8) (.s 20) 639 true)
    ∧ mid (w 2 0xC4 0 0 0 660 8 0 0) 5 (.wrxv Guard.all (.s 20) (.v 8) 5 false)
    ∧ mid (w 2 0xC5 0 0 642 660 0 0 0) 0x1081 (.rdxs (.s 2) (.s 20) 0x1081)
    ∧ mid (w 2 0xC6 0 0 0 660 642 0 0) 0x1005 (.wrxs (.s 20) (.s 2) 0x1005)
    ∧ mid (w 2 0xC7 0 0 642 0 0 0 0) 0x208 (.rdsys (.s 2) 0x208) ∧ mid (w 2 0xC8 0 0 0 642 0 0 0) 0x300 (.wrsys (.s 2) 0x300)
    ∧ short (w 1 0xC9 0 0 0 640 0 0 2) (.bankset (.s 0) .fifo)
    ∧ short (w 1 0xCA 0 0 642 801 803 0 0) (.bist (.s 2) (.k 1) (.k 3))
    ∧ short (w 1 0xCB 0 0 642 0 0 0 0) (.mbxrdNext (.s 2)) ∧ short (w 1 0xCB 0 0 642 660 801 0 32) (.mbxrdWord (.s 2) (.s 20) (.k 1))
    ∧ short (w 1 0xCC 0 0 642 640 0 0 0) (.coreret (.s 2) (.s 0)) := by
  decide

/-- Table 5-9. -/
theorem test_decode_emulation :
    let e : Emu := ⟨⟨1, false⟩, .v 12, .v 10, .s 3⟩
    let f := fun maj => w 1 maj 1 0 12 10 643 0 0
    short (f 0xE0) (.idivU32 e) ∧ short (f 0xE1) (.iremU32 e) ∧ short (f 0xE2) (.idivU64 e) ∧ short (f 0xE3) (.iremU64 e)
    ∧ short (f 0xE4) (.idivS32 e) ∧ short (f 0xE5) (.iremS32 e) ∧ short (f 0xE6) (.idivS64 e) ∧ short (f 0xE7) (.iremS64 e)
    ∧ short (f 0xE8) (.fdivF32 e) ∧ short (f 0xE9) (.dadd e) ∧ short (f 0xEA) (.dmul e) ∧ short (f 0xEC) (.ddiv e)
    ∧ short (f 0xEF) (.emu e) ∧ short (w 1 0xEB 1 0 12 10 643 14 0) (.dfma e (.v 14))
    ∧ short (w 1 0xED 1 0 12 10 0 0 0) (.dsqrt ⟨1, false⟩ (.v 12) (.v 10))
    ∧ short (w 1 0xEE 1 0 12 11 0 0 2) (.dcvt ⟨1, false⟩ 2 (.v 12) (.v 11)) := by
  decide

/-! ### Ill-formed terms, one for each check, and words that are no instruction -/

/-- R94 to R103 and the limits of the encoding tables: none of these is an instruction. -/
theorem test_ill_formed :
    let b : Bin := ⟨Guard.all, .s32, false, .v 1, .v 2, .v 3⟩
    let m : GMem := ⟨Guard.all, .b32, .dev, .v 1, 3, none⟩
    let n : SMem := ⟨Guard.all, .b32, .crew, .s 1, .v 1, none⟩
    let r : Range := ⟨.s 0, 3, .s 1, none⟩
    let c : Copy := ⟨Guard.all, 1, .s 4, .s 5, .s 6, 3, none⟩
    let a : MmaArgs := ⟨Guard.all, 2, .s 6, .s 7, 20, 0, 0, 0⟩
    let e : Emu := ⟨Guard.all, .v 2, .v 4, .v 6⟩
    ([.iadd { b with g := ⟨16, false⟩ }, .iadd { b with d := .v 640 }, .iadd { b with a := .s 128 }, .iadd { b with b := .k 96 },
      .iadd { b with b := .k (-33) }, .iadd { b with a := .q 8 }, .iadd { b with a := .imm 1#32 }, .iadd { b with d := .k 0 },
      .iadd { b with d := .s 0 }, .iadd { b with d := .s 0, a := .s 0, b := .s 0, g := ⟨1, false⟩ }, .iadd { b with ty := .f32 },
      .iadd { b with ty := .s64 }, .imin { b with sat := true }, .imulh { b with ty := .s16x2 },
      .imad ⟨Guard.all, .s32, false, .v 1, .v 2, .v 3, .imm 1#32⟩, .not ⟨Guard.all, .u32, true, .v 1, .v 2⟩,
      .bfx ⟨Guard.all, .s16x2, false, .v 1, .v 2⟩ (.v 3), .bfi { b with ty := .s32 } (.v 4), .icmp Guard.all .eq .s32 16 (.v 1) (.v 2),
      .icmpc .eq .s32 0 (.v 1) (.s 2), .sel { b with ty := .u32 } 16 false, .mov ⟨Guard.all, .s32, false, .v 1, .v 2⟩,
      .movi Guard.all .u32 (.v 1) (.ext 1#64), .movi Guard.all .u32 (.q 1) (.word 1#32), .lea b 16,
      .plop Guard.all 16 0 0 0#4, .clop 0 16 0 0#4, .pmov Guard.all (.fromPred (.s 1) 0), .shfl Guard.all .idx .s32 (.v 1) (.v 2) (.v 3),
      .bcast Guard.all .u32 (.v 1) (.v 2) (.v 3), .ballot Guard.all (.v 1) 0, .pscan Guard.all .min true .s32 true (.v 1) (.v 2),
      .append Guard.all (.s 8) (.s 4) (.s 5), .red Guard.all .min .s32 true (.s 1) 0, .red Guard.all .add .s64 false (.s 1) 3,
      .fadd b, .fmin false { b with ty := .f32, sat := true }, .fcmp Guard.all .eq 16 (.v 1) (.v 2), .fcmpc .eq 0 (.q 1) (.s 2),
      .fclass Guard.all 16 (.v 1) 0#10, .frcp ⟨Guard.all, .s32, false, .v 1, .v 2⟩, .cvt Guard.all .s8 .s8 false (.v 1) (.v 2) 0 0,
      .cvt Guard.all .s8 .f32 false (.v 1) (.v 2) 1 0, .cvt Guard.all .s16 .f32 false (.v 1) (.v 2) 0 2,
      .cvt Guard.all .f32 .s8 false (.v 1) (.k 2) 0 0, .cvtmx Guard.all .e4m3 (.v 1) (.v 2) (.v 3) 4,
      .cvtmx Guard.all .f16 (.v 1) (.v 2) (.v 3) 0, .cvtmxScale Guard.all .e5m2 (.v 1) (.v 2)] : List Instr).all (fun i => !i.wf) = true
    ∧ ([.clauseHeader false 12 15 0#12, .clauseHeader false 15 14 0#12, .bra (.reg 128), .brc true 16 0#32, .call ⟨16, false⟩ (.off 0#32),
      .callv Guard.all 640 0, .ifI Guard.all 5 5, .ifI Guard.all 0 0, .ifI Guard.all 0 65536, .brk ⟨16, true⟩, .waitp 4 0, .waitp 0 1024,
      .throw Guard.all (.lr), .rdexr (.v 1) (.s 1), .ld { m with rc := 32 } false (.v 1), .ld { m with idx := .lr } false (.v 1),
      .ld { m with size := .b64 } false (.q 0), .ld m true (.v 1), .ldRp m false (.v 1) 0, .ldRp m false (.v 1) 16, .st m .exm,
      .lds { n with scope := .dev } false (.v 1), .lds { n with base := .v 1 } false (.v 1), .sts { n with size := .b64 } (.v 1),
      .atom .add { m with size := .b8 } (.v 1) (.v 2), .atom .fadd { m with size := .b64 } (.v 2) (.v 4), .atoms .add n (.v 1) (.q 1),
      .fence .gang (.v 1), .waita .ne .b32 .gang (.s 1) (.s 2) 0 (.s 3) none, .waita .ne .b16 .dev (.s 1) (.s 2) 0 (.s 3) none,
      .wake .crew (.s 1) 0 none, .zfill { r with rc := 32 }, .zfill { r with len := .v 1 }, .pagereq 16 r, .cctlWb .sys r,
      .cctlDisc .sys r, .icpf { r with idx := .x .laneid }, .qstat true (.s 1) 8 0, .qstat true (.s 1) 0 16] : List Instr).all
        (fun i => !i.wf) = true
    ∧ ([.cpy { c with f := 16 } false false, .cpy c true false, .cpy { c with bar := some 32 } false false, .cpyM { c with rc := 32 } 0#8,
      .cpyX { c with a := .v 1 } false false, .mma { a with fw := 640 }, .mma { a with tile := 4 }, .mma { a with sa := 2 ^ 20 },
      .mmaSp a (2 ^ 20), .mmaP { a with sb := 2 ^ 20 }, .msel Guard.all 16 (.s 1) (.s 2) 0 0 0, .accz Guard.all 0 4,
      .accdr Guard.all 0 (.s 1) .u8 0, .wdset Guard.all 0 (.v 1) 0, .mfence Guard.all 16, .fwait 0 (some 128), .ftest 0 16 none,
      .fcancel 16, .fexport 0 (.v 0), .fimport 16 (.s 0), .barinit 32 (.s 0), .bara 32, .barexp 0 (.v 0), .barw 32 true, .lbar 4,
      .otdecl 16 (.s 0), .otbegin 16, .otround (.v 0), .trap (.imm 0x10000#32), .trap (.v 0), .svret (.s 0) 1024, .svthrow (.s 0) (.v 0),
      .rdxv Guard.all (.s 0) (.s 0) 0 false, .wrxv Guard.all (.s 0) (.q 0) 0 false, .rdxs (.s 0) (.s 0) 0x2000, .wrxs (.s 0) (.s 0) 0x2000,
      .rdsys (.s 0) 5, .wrsys (.s 0) 0xFFF, .bankset (.v 0) .cache, .bist (.v 0) (.s 0) (.s 0), .mbxrdNext (.v 0),
      .mbxrdWord (.s 0) (.v 0) (.s 0), .coreret (.v 0) (.s 0), .idivU64 { e with d := .v 3 }, .idivU32 { e with d := .s 0 },
      .idivU32 { e with a := .q 0 }, .dfma e (.v 7), .dsqrt Guard.all (.v 2) (.v 5), .dcvt Guard.all 4 (.v 2) (.v 4),
      .dcvt Guard.all 0 (.v 3) (.v 4), .dcvt Guard.all 1 (.v 3) (.v 5)] : List Instr).all (fun i => !i.wf) = true := by
  decide +kernel

/-- Table 5-8, the causes that the words themselves give, each by a word in which nothing earlier in the table's order is wrong. -/
theorem test_decode_refuses :
    let cause := fun (w : Nat) => match decode (toLE 16 w) with | .error c => some c | .ok _ => none
    cause 0 = none ∧ cause (2 ^ 23) = some .illegalClause ∧ cause (2 ^ 14 * 0xC) = some .illegalClause
    ∧ cause (w 1 0x15 0 0 0 0 0 0 0) = some .reservedMajor ∧ cause (w 1 0xDF 0 0 0 0 0 0 0) = some .reservedMajor
    ∧ cause (w 2 0x00 0 0 0 0 0 0 0) = some .length ∧ cause (w 1 0x45 0 0 640 0 0 0 1) = some .length
    ∧ cause (w 1 0x3B 0 0 1 0 0 0 1) = some .length ∧ cause (w 1 0xE0 0 0 1 2 3 0 1) = some .undefinedMinor
    ∧ cause (w 1 0x20 0 0 1 2 3 0 11) = some .undefinedMinor ∧ cause (w 1 0x27 0 0 1 2 3 0 16) = some .undefinedMinor
    ∧ cause (w 1 0x63 0 0 1 2 0 0 (32 * 8 + 8)) = some .undefinedMinor ∧ cause (w 1 0x00 1 0 0 0 0 0 0) = some .reservedField
    ∧ cause (w 1 0x63 0 0 1 2 0 8 (32 * 8 + 0)) = some .reservedField ∧ cause (w 2 0x20 0 0 1 2 3 0 0) = some .reservedField
    ∧ cause (w 1 0x58 0 0 640 1 2 3 8) = some .reservedField ∧ cause (w 1 0x20 0 0 1 911 3 0 0) = some .operandClass
    ∧ cause (w 1 0x20 0 0 640 896 641 0 0) = some .operandClass ∧ cause (w 1 0x40 0 0 640 1 2 0 1) = some .operandClass
    ∧ cause (w 1 0x20 0 0 1 2 4 0 2) = some .oddPair ∧ cause (w 1 0xE9 0 0 2 4 7 0 0) = some .oddPair := by
  decide

end TestWords

/-! ### A small running machine -/

/-- One crew of one gang of 32 lanes, four scratchpad banks and one queue bank; its queue 0 holds one entry, record 3 maps the page of
the code and record 1 the scratchpad; scalar register 1 holds 1. -/
def Tests.gang : Gang :=
  { seedGang with
    b := [(1, BitVec.ofNat 128 (2 ^ 57 + 2 ^ 64 + 65536 * 2 ^ 96)), (3, BitVec.ofNat 128 (seedPc + 4 * 2 ^ 64 + 64 * 2 ^ 96))]
    s := [(1, 1#64)] }

def Tests.base : State :=
  let s := modCrew { seedState State.reset [] with cur := some (.user 0 0, 0) } 0 (fun cr =>
    { cr with
      scr := Memory.writeN [] 0x300 (toLE 8 0x2 ++ toLE 8 0 ++ toLE 8 (seedPc + 0x11) ++ toLE 8 (seedPc + 0x400))
      banks0 := ⟨0x1F#32, 0xF#32⟩, qcfg := [(0, 0x8004#32)]
      fifos := [(4, ⟨1, [⟨[(0, 7#32)]⟩], 0, []⟩)], gangs := [(0, Tests.gang)] })
  let s := modLaunch s 0 (fun l => { l with spb := 4, ffb := 1 })
  modCore s 0 (fun x => { x with modes := 0x255#64 })

/-- The crew as a pair crew, its gang on the even core. -/
def Tests.paired (s : State) : State :=
  { modLaunch (modCrew s 0 (fun cr => { cr with banks1 := cr.banks0 })) 0 (fun l => { l with pair := true }) with
    cores := Tab.put s.cores 1 { Core.reset with modes := 0x255#64 } }

/-- The machine with its gang changed. -/
def Tests.st (f : Gang → Gang) : State := modGang Tests.base (.user 0 0) f

/-- The group that issues in it. -/
def Tests.iss (s : State) : Iss := (issuer? s).getD ⟨.user 0 0, 0, Tests.gang, QGroup.start 0#16 0, 0#64⟩

/-- A supervisor gang with a clause in progress. -/
def Tests.supGang : Gang :=
  { Sys2Proof.Machine.supGang 0 with groups := [{ QGroup.start 0xF#16 seedPc with clause := some ⟨15, 15⟩ }] }

/-- The supervisor's machine: core 0 with a supervisor gang that issues. -/
def Tests.supBase : State :=
  let s := modCore Tests.base 0 (fun x => { x with sup := some Tests.supGang })
  { s with cur := some (.sup 0, 0) }

/-- All of the instructions may run in the machine. -/
def Tests.allRun (s : State) (is : List Instr) : Bool := is.all (fun i => mayRun s (Tests.iss s) i)


/-- The machine with a stage two for its context that holds no page. -/
def Tests.missing (s : State) : State := { s with mem := s.mem.writeN (seedCtx + 40) (toLE 8 0x50001) }

/-- The machine with a transaction body open that holds tile 0. -/
def Tests.inBody (s : State) : State :=
  { modGang s (.user 0 0) (fun x => { x with body := some ⟨0x402, false, 0, [(0, true)]⟩ }) with
    grants := [⟨0, true, 0, 0, 0x402, true, false⟩] }

/-- A list that holds something answers at a free index. -/
theorem Tests.free_index {α : Type} (l : List α) (v : Nat) (h : l ≠ []) : ∃ i, l[v % l.length]? = some i :=
  ⟨_, List.getElem?_eq_getElem (Nat.mod_lt _ (List.length_pos_iff.mpr h))⟩

/-- A flight of one element in lane 3 of the user gang. -/
def Tests.flight (k : FlightKind) (p : Place) (w : Option Nat) : Flight :=
  ⟨9, seedPc, k, 0, .dev, .b32, .v 4, none, [⟨3, p, 5, 0, w, false, false, 0⟩], some 2, some 0, true, 0, [], 0xFF#16, 0xFFFFFFFF#64, 0⟩

/-- The machine with that flight. -/
def Tests.flying (k : FlightKind) (p : Place) (w : Option Nat) : State := Tests.st (fun x => { x with flights := [Tests.flight k p w], seq := 1 })

/-! ### Witnesses: for every statement with hypotheses, states and operands that meet them -/

/-- The integer forms may run, with their operands at hand: register, immediate, queue and scalar forms. -/
theorem witness_IntegerFormsAnswer :
    let s := Tests.base
    let x : Bin := ⟨⟨0, true⟩, .s32, true, .v 1, .v 2, .imm 5#32⟩
    let q : Bin := ⟨Guard.all, .u32, false, .v 1, .q 0, .v 2⟩
    let d : Bin := ⟨Guard.all, .u64, false, .s 3, .s 1, .k 95⟩
    let u : Un := ⟨Guard.all, .u32, false, .q 0, .v 2⟩
    (∀ b ∈ [x, q, d], Tests.allRun s [.iadd b, .isub b, .imul b, .imulh b, .imin b, .imax b, .and b, .or b, .xor b, .shl b, .shr b,
        .sar b, .rot b, .bfi b (.v 3), .sel b 5 true, .lea b 15] = true
      ∧ (feeds s (Tests.iss s) [(b.a, b.ty), (b.b, b.ty)] b.d).isSome = true)
    ∧ Tests.allRun s [.iabs u, .ineg u, .not u, .popc u, .clz u, .ctz u, .brev u, .mov u, .bfx u (.imm 0xC1C#32),
        .imad ⟨Guard.all, .s32, false, .v 1, .v 2, .v 3, .k 1⟩, .movi Guard.all .u64 (.s 3) (.ext 1#64)] = true
    ∧ (feeds s (Tests.iss s) [(u.a, u.ty)] u.d).isSome = true
    ∧ noOverflow (Tests.iss s) (.s 3) 7 = true ∧ noOverflow (Tests.iss s) .exm 0 = true := by
  decide +kernel

theorem witness_FloatFormsAnswer :
    let s := Tests.base
    let x : Bin := ⟨Guard.all, .bf16x2, false, .v 1, .v 2, .v 3⟩
    let u : Un := ⟨Guard.all, .f32, false, .s 3, .s 1⟩
    Tests.allRun s [.fadd x, .fsub x, .fmul x, .fma ⟨Guard.all, .f32, true, .v 1, .v 2, .v 3, .q 0⟩, .fmin true x, .fmax false x,
      .fabs u, .fneg u, .fscale x, .frcp u, .frsq u, .fsqrt u, .fexp2 u, .flog2 u, .fsin u, .fcos u, .ftanh u,
      .cvt Guard.all .e4m3 .f32 true (.v 12) (.v 3) 0 2, .cvtmx Guard.all .e2m1 (.v 1) (.v 2) (.v 3) 7,
      .cvtmxScale Guard.all .e4m3 (.v 1) (.v 2)] = true
    ∧ (feeds s (Tests.iss s) [(.v 2, .bf16x2), (.v 3, .bf16x2)] (.v 1)).isSome = true
    ∧ (feeds s (Tests.iss s) [(.v 2, .f32), (.v 3, .f32), (.q 0, .f32)] (.v 1)).isSome = true
    ∧ noOverflow (Tests.iss s) (.s 3) 0 = true := by
  decide +kernel

theorem witness_PredicateFormsAnswer :
    let s := Tests.base
    Tests.allRun s [.icmp Guard.all .lt .s32 3 (.v 1) (.q 0), .fcmp Guard.all .ord 15 (.v 1) (.k 0),
      .fclass Guard.all 0 (.v 1) 0x381#10, .plop Guard.all 3 1 2 4#4, .pmov Guard.all (.toPred 4 (.v 1)),
      .pmov Guard.all (.bit 4 (.s 1)), .pmov Guard.all (.fromPred (.v 1) 4)] = true
    ∧ (feeds s (Tests.iss s) [(.v 1, .s32), (.q 0, .s32)] .exm).isSome = true
    ∧ (feeds s (Tests.iss s) [] (.v 1)).isSome = true := by
  decide +kernel

theorem witness_ConditionFormsAnswer :
    Tests.allRun Tests.base [.icmpc .ge .u64 15 (.s 0) (.k 0), .fcmpc .un 2 (.s 4) .lr, .clop 0 1 2 0xE#4] = true
    ∧ Tests.allRun Tests.supBase [.icmpc .ge .u64 15 (.s 0) (.k 0)] = true := by
  decide +kernel

theorem witness_CrossLaneFormsAnswer :
    let s := Tests.base
    Tests.allRun s [.shfl Guard.all .xor .u32 (.v 2) (.v 1) (.k 1), .bcast Guard.all .u64 (.v 2) (.v 4) (.s 1),
      .ballot ⟨6, true⟩ (.s 1) 3, .red ⟨1, false⟩ .xor .u32 false (.s 2) 639, .pscan Guard.all .add true .s32 true (.v 2) (.v 1)] = true
    ∧ (feeds s (Tests.iss s) [(.v 1, .s32)] (.v 2)).isSome = true := by
  decide +kernel

/-- A form of each shape: a vector destination, a queue, a scalar, exm with counters below 255. -/
theorem witness_ComputingFormsFrame :
    let s := Tests.base
    let is := Tests.iss s
    ∀ p ∈ ([(.iadd ⟨⟨1, true⟩, .s32, false, .v 1, .q 0, .k 1⟩, [(.q 0, .s32), (.k 1, .s32)]),
        (.mov ⟨Guard.all, .u32, false, .q 0, .v 4⟩, [(.v 4, .u32)]), (.mov ⟨Guard.all, .u64, false, .s 3, .exm⟩, [(.exm, .u64)]),
        (.mov ⟨Guard.all, .u64, false, .exm, .s 3⟩, [(.s 3, .u64)]), (.mov ⟨Guard.all, .u64, false, .lr, .s 3⟩, [(.s 3, .u64)]),
        (.icmp Guard.all .eq .s32 5 (.v 1) (.v 2), [(.v 1, .s32), (.v 2, .s32)])] : List (Instr × List (Opd × Ety))),
      p.1.wf = true ∧ computes p.1 = true ∧ mayRun s is p.1 = true ∧ p.2.map (fun q => q.1) = operandsRead p.1
      ∧ (feeds s is p.2 ((p.1.dst.map (fun d => d.1)).getD .exm)).isSome = true
      ∧ (∀ l ∈ groupLanes is.gang is.q, counterOf is.gang l < 255)
      ∧ (match exec p.1 s with | .next _ => true | _ => false) = true := by
  decide +kernel

theorem witness_ExmReads : Tests.allRun Tests.base [.mov ⟨Guard.all, .u64, false, .s 127, .exm⟩] = true := by decide +kernel

theorem witness_ExmWrites :
    let is := Tests.iss Tests.base
    Tests.allRun Tests.base [.mov ⟨Guard.all, .u64, false, .exm, .s 1⟩] = true
    ∧ (∀ l ∈ groupLanes is.gang is.q, counterOf is.gang l < 255) ∧ groupLanes is.gang is.q ≠ [] := by
  decide +kernel

theorem witness_ExmOverflowThrows :
    let s := Tests.st (fun x => { x with cnt := [(2, 255#8)] })
    let is := Tests.iss s
    mayRun s is (.mov ⟨Guard.all, .u64, false, .exm, .s 1⟩) = true
    ∧ (groupLanes is.gang is.q).filter (fun l => !(rdS is.gang 1).testBit l && counterOf is.gang l == 255) = [2]
    ∧ 1 ∈ groupLanes is.gang is.q ∧ (rdS is.gang 1).testBit 1 = false ∧ counterOf is.gang 1 < 255 := by
  decide +kernel

theorem witness_BallotMask : Tests.allRun Tests.base [.ballot ⟨3, true⟩ (.s 127) 15] = true := by decide +kernel

/-- Each clause: a signed and an unsigned type. -/
theorem witness_IntegerValues :
    etyFloat .s32 = false ∧ etySigned .s32 = true ∧ etyFloat .u8x4 = false ∧ etySigned .u8x4 = false ∧ 3 < etyCount .u8x4 := by
  decide

theorem witness_QueueExchange :
    let s := Tests.base
    let parked := Tests.st (fun x => { x with cnt := (List.range 32).map (fun l => (l, 1#8)) })
    let g : GRef := .user 0 0
    (crewOf? s g).isSome = true ∧ qcfgUsable s g (qCfg s g 0) = true ∧ (qFifo s g 0).entries = [⟨[(0, 7#32)]⟩]
    ∧ Tests.allRun s [.mov ⟨⟨2, true⟩, .u32, false, .v 5, .q 0⟩, .mov ⟨⟨2, true⟩, .u32, false, .q 0, .v 5⟩,
        .mov ⟨Guard.all, .u32, false, .v 5, .q 1⟩] = true
    ∧ headBad (qFifo s g 0) (qcfgBanks (qCfg s g 0)).2 (ringWidth s g) = 0#64
    ∧ (qFifo s g 0).entries.length < qCap s g 0 32 ∧ qcfgUsable s g (qCfg s g 1) = false ∧ everyActive (Tests.iss s) 0x8007 ≠ []
    ∧ everyActive (Tests.iss parked) 0x8007 = [] ∧ Tests.allRun parked [.mov ⟨⟨2, true⟩, .u32, false, .v 5, .q 1⟩] = true := by
  decide +kernel

/-- Where the check of a target comes out: 0 a clause header, 1 a trap, 2 a wait. -/
def Tests.target (s : State) (a : Nat) : Nat := match headerAt s (Tests.iss s) a with | .ok _ => 0 | .trap _ _ => 1 | .wait _ => 2

/-- The machine while the 4 KiB block of its code changes owner, so that a fetch waits. -/
def Tests.closing : State := { Tests.base with ownreq := { Tests.base.ownreq with marked := some 0 } }

/-- The machine with its only quad group changed. -/
def Tests.grp (f : QGroup → QGroup) : State := modGroup Tests.base (.user 0 0) 0 f

/-- A target at hand, a misaligned one, one that waits, and a word that is no header; counters that block and do not; lanes
selected and none; the last lane of a CALLV served. -/
theorem witness_FlowFormsAnswer :
    let s := Tests.base
    let is := Tests.iss s
    let busy := Tests.st (fun x => { x with k := [(11, 1)], paths := [(3, [(0, false)])] })
    let full := Tests.st (fun x => { x with cnt := (List.range 32).map (fun l => (l, if l = 0 then 0#8 else 255#8)) })
    let nop := { s with mem := s.mem.writeN 64 [1#8] }
    Tests.allRun s [.clauseHeader true 3 11 0x800#12, .nop, .bra (.off 16#32), .bra (.reg 1), .brc true 7 16#32, .brc false 7 16#32,
      .call ⟨2, false⟩ (.off 16#32), .call Guard.all (.off 16#32), .callv ⟨2, false⟩ 5 1, .callv Guard.all 5 1, .waitp 3 0] = true
    ∧ is.q.hdr = false ∧ countersClear is.gang 0x800#12 = true ∧ countersClear (Tests.iss busy).gang 0x800#12 = false
    ∧ Tests.allRun busy [.clauseHeader true 3 11 0x800#12, .waitp 3 0, .waitp 3 1] = true
    ∧ (Tests.iss (Tests.grp (fun q => { q with hdr := true }))).q.hdr = true
    ∧ Tests.allRun (Tests.grp (fun q => { q with hdr := true })) [.clauseHeader true 3 11 0x800#12] = true
    ∧ Tests.target s (seedPc + 64) = 0 ∧ targetOf is (.off 16#32) = seedPc + 64 ∧ targetOf is (.reg 1) = 1 ∧ Tests.target s 1 = 1
    ∧ Tests.target nop (seedPc + 64) = 1
    ∧ Tests.target Tests.closing (seedPc + 64) = 2 ∧ Tests.allRun Tests.closing [.bra (.off 16#32), .call Guard.all (.off 16#32)] = true
    ∧ selOf is ⟨2, false⟩ = [] ∧ selOf is Guard.all ≠ [] ∧ (callGang is Guard.all (.off 16#32)).2 = []
    ∧ rdC is.gang 7 = false ∧ callvRest is ⟨2, false⟩ 5 1 = [] ∧ callvRest is Guard.all 5 1 ≠ []
    ∧ (callvGang is 0 [0, 1] [0]).2 = []
    ∧ (callvGang (Tests.iss full) 0 [0] [0]).2 ≠ [] ∧ callvRest (Tests.iss full) Guard.all 5 1 = [0]
    ∧ pathCount is.gang 3 = 0 ∧ pathCount (Tests.iss busy).gang 3 = 1 := by
  decide +kernel

theorem witness_RetReturns :
    let s := Tests.st (fun x => { x with lr := BitVec.ofNat 64 (seedPc + 64 + 3 + 5 * 2 ^ 57), cnt := [(1, 2#8)] })
    Tests.allRun s [.ret] = true ∧ Tests.target s ((Tests.iss s).gang.lr.toNat % 2 ^ 57 / 4 * 4) = 0
    ∧ Tests.allRun Tests.base [.ret] = true ∧ Tests.target Tests.base 0 = 1
    ∧ Tests.target { s with ownreq := { s.ownreq with marked := some 0 } } (seedPc + 64) = 2 := by
  decide +kernel

/-- Every clause: split and no split, depths at 254 and 255, loop stacks of 15 and 16, a join that waits for nothing and one of two
groups, a loop that goes back and one that ends. -/
theorem witness_StructuredFormsAnswer :
    let p := Tests.st (fun x => { x with pr := [(0, 4#16)], cnt := [(5, 255#8)] })
    let q := Tests.st (fun x => { x with pr := [(0, 4#16)] })
    let deep := Tests.grp (fun q => { q with sd := 255, loops := List.replicate 16 (0, 0) })
    let edge := Tests.grp (fun q => { q with sd := 254, loops := List.replicate 15 (0, 0) })
    let join := Tests.grp (fun q => { q with joins := [(seedPc, 0xFF#16)] })
    let two := Tests.st (fun x => { x with groups := x.groups.map (fun q => { q with quads := 0xF#16 })
      ++ [{ QGroup.start 0xF0#16 seedPc with arrived := some (0, true) }] })
    let all := [Instr.ifI ⟨2, false⟩ 5 9, .elseI, .endif, .loop, .brk ⟨2, false⟩, .cont ⟨2, false⟩, .endloop, .gjoin]
    Tests.allRun p all = true ∧ Tests.allRun deep all = true ∧ Tests.allRun edge all = true
    ∧ everyActive (Tests.iss deep) 0x8004 ≠ [] ∧ (Tests.iss deep).q.sd = 255
    ∧ (Tests.iss edge).q.sd = 254 ∧ (Tests.iss edge).q.loops.length = 15
    ∧ ifSplits (Tests.iss q).gang (Tests.iss q).q ⟨2, false⟩ = true ∧ ifSplits (Tests.iss edge).gang (Tests.iss edge).q ⟨2, false⟩ = false
    ∧ (ifCounters (Tests.iss q).gang (Tests.iss q).q ⟨2, false⟩).2 = [] ∧ (ifCounters (Tests.iss p).gang (Tests.iss p).q ⟨2, false⟩).2 = [5]
    ∧ (Tests.iss edge).q.joins = [] ∧ Tests.allRun join [.endif] = true ∧ allArrived (Tests.iss join) 0xFF#16 = true
    ∧ (joinedGang (Tests.iss join) 0xFF#16 []).isSome = true
    ∧ (activeLanes (endloopBack (Tests.iss edge)) (Tests.iss edge).q).isEmpty = false ∧ (Tests.iss q).q.loops = []
    ∧ (liveGroups (Tests.iss q).gang).length = 1
    ∧ Tests.allRun two [.gjoin] = true ∧ (liveGroups (Tests.iss two).gang).length = 2
    ∧ (liveGroups (arrive (Tests.iss two) true)).all (fun q => waitsAt q (Tests.iss two).q.pc true) = true
    ∧ (gjoinedGang (Tests.iss two)).isSome = true := by
  decide +kernel

/-- An IF without a split and one that splits. -/
theorem witness_StructuredCounters :
    let q := Tests.st (fun x => { x with pr := [(0, 4#16)] })
    ifSplits (Tests.iss Tests.base).gang (Tests.iss Tests.base).q ⟨2, false⟩ = false
    ∧ ifSplits (Tests.iss q).gang (Tests.iss q).q ⟨2, false⟩ = true := by
  decide +kernel

/-- A separated gang at a collective instruction: with and without active lanes, and at a CALL whose target is bad. -/
theorem witness_CollectiveDivergence :
    let two := fun (c : Tab (BitVec 8)) => Tests.st (fun x => { x with
      cnt := c, groups := x.groups.map (fun q => { q with quads := 1#16 }) ++ [QGroup.start 0xFE#16 seedPc] })
    let parked := [(0, 1#8), (1, 1#8), (2, 1#8), (3, 1#8)]
    (∀ c ∈ [[], parked], ∀ i ∈ [Instr.shfl Guard.all .idx .u32 (.v 2) (.v 1) (.k 1), .call Guard.all (.reg 1)],
      mayIssue (two c) (Tests.iss (two c)) i = true ∧ i.collective = true ∧ separated (Tests.iss (two c)).gang = true)
    ∧ everyActive (Tests.iss (two [])) 0x8006 ≠ [] ∧ everyActive (Tests.iss (two parked)) 0x8006 = [] := by
  decide +kernel

theorem witness_RegionFormsAnswer :
    let s := Tests.base
    let three := Tests.st (fun x => { x with stack := List.replicate 7 ⟨0, 0, 0⟩ })
    let crew := Tests.st (fun x => { x with entered := [true] })
    let launch := Tests.st (fun x => { x with entered := [false, true] })
    let two := Tests.st (fun x => { x with groups := x.groups.map (fun q => { q with quads := 1#16 }) ++ [QGroup.start 0xFE#16 seedPc] })
    Tests.allRun s [.tryGang 16#32, .tryCrew 16#32, .tryLaunch 16#32, .endtryGang, .endtryCrew, .endtryLaunch, .exit] = true
    ∧ catchOf (Tests.iss s) 16#32 = seedPc + 64 ∧ Tests.target s (seedPc + 64) = 0
    ∧ Tests.allRun three [.tryGang 16#32, .endtryGang] = true ∧ (Tests.iss three).gang.stack.length = 7
    ∧ innermost (Tests.iss three).gang = some 0 ∧ innermost (Tests.iss s).gang = none
    ∧ (match enterRegion [] 0 (seedPc + 64) with | .ok st => st == [seedPc + 64] | .error _ => false) = true
    ∧ (match enterRegion [1, 2, 3] 3 (seedPc + 64) with | .ok _ => true | .error _ => false) = true
    ∧ Tests.allRun crew [.endtryCrew] = true ∧ innermost (Tests.iss crew).gang = some 1
    ∧ Tests.allRun launch [.endtryLaunch] = true ∧ innermost (Tests.iss launch).gang = some 2
    ∧ Tests.allRun Tests.supBase [.exit] = true ∧ (Tests.iss Tests.supBase).ref = .sup 0
    ∧ Tests.allRun two [.exit] = true ∧ (liveGroups (Tests.iss two).gang).length = 2 ∧ (Tests.iss two).ref = .user 0 0 := by
  decide +kernel

/-- Eight gang regions, four crew and launch regions, and entries of another catch address, with active lanes and without. -/
theorem witness_RegionFormsAnswer_fails :
    let parked := (List.range 32).map (fun l => (l, 1#8))
    let full := fun (c : Tab (BitVec 8)) => modLaunch (modCrew (Tests.st (fun x => { x with
      cnt := c, stack := List.replicate 8 ⟨0, 0, 0⟩, entered := List.replicate 4 true ++ List.replicate 4 false })) 0
        (fun cr => { cr with stack := [1, 2, 3, 4] })) 0 (fun l => { l with stack := [1, 2, 3, 4] })
    let other := fun (c : Tab (BitVec 8)) => modLaunch (modCrew (Tests.st (fun x => { x with cnt := c })) 0
        (fun cr => { cr with stack := [1] })) 0 (fun l => { l with stack := [1] })
    let forms := [Instr.tryGang 16#32, .tryCrew 16#32, .tryLaunch 16#32]
    (∀ c ∈ [[], parked], Tests.allRun (full c) forms = true ∧ Tests.allRun (other c) forms = true)
    ∧ (Tests.iss (full [])).gang.stack.length = 8 ∧ crewDepth (Tests.iss (full [])).gang = 4 ∧ launchDepth (Tests.iss (full [])).gang = 4
    ∧ Tests.target (full []) (seedPc + 64) = 0 ∧ Tests.target (other []) (seedPc + 64) = 0 ∧ crewDepth (Tests.iss (other [])).gang = 0
    ∧ (crewOf? (other []) (.user 0 0)).map (fun cr => cr.stack[0]?) = some (some 1)
    ∧ (launchOf? (other []) (.user 0 0)).map (fun l => l.stack[0]?) = some (some 1) ∧ catchOf (Tests.iss (other [])) 16#32 = seedPc + 64
    ∧ everyActive (Tests.iss (full [])) 0x8004 ≠ [] ∧ everyActive (Tests.iss (full parked)) 0x8004 = [] := by
  decide +kernel

theorem witness_ThrowFormsAnswer :
    let s := Tests.base
    let parked := Tests.st (fun x => { x with cnt := (List.range 32).map (fun l => (l, 1#8)) })
    Tests.allRun s [.throw ⟨2, false⟩ (.v 1), .throw Guard.all (.s 1), .rethrow, .rdexr (.s 2) (.k 95)] = true
    ∧ selOf (Tests.iss s) ⟨2, false⟩ = [] ∧ selOf (Tests.iss s) Guard.all ≠ [] ∧ activeLanes (Tests.iss s).gang (Tests.iss s).q ≠ []
    ∧ Tests.allRun parked [.rethrow] = true ∧ activeLanes (Tests.iss parked).gang (Tests.iss parked).q = [] := by
  decide +kernel

/-- The machine where predicate 2 is true in lane 0 only. -/
def Tests.one : State := Tests.st (fun x => { x with pr := [(0, 4#16)] })

/-- Did a check pass? -/
def Tests.passed : Chk → Bool
  | .ok p _ => match p with | .page _ _ _ _ => false | _ => true
  | _ => false

/-- Each clause: checks passed, a lane that fails (index 64 of a record of 64 elements), a block that is closing, and a body that does not
declare what is read. -/
theorem witness_LoadsEnterFlight :
    let s := Tests.one
    let is := Tests.iss s
    let m : GMem := ⟨⟨2, false⟩, .b32, .dev, .k 63, 3, none⟩
    let far : GMem := { m with disp := some 1#32 }
    let b : SMem := ⟨⟨2, false⟩, .b32, .crew, .k 0, .v 1, none⟩
    let out : SMem := { b with off := .imm 0#32, base := .k (-4) }
    let shut := { s with ownreq := { s.ownreq with marked := some 0 } }
    let lack := modGang (Tests.inBody s) (.user 0 0) (fun x => { x with body := some ⟨0x402, false, 0, [(1, true)]⟩ })
    Tests.allRun s [.ld m true (.q 0), .ldRp m false (.v 4) 1, .ldRp m false (.v 4) 15, .lds b false (.q 0), .atom .cas m (.v 4) (.v 6),
      .atoms .fadd b (.v 4) (.v 6), .ld far false (.v 4)] = true
    ∧ qcfgUsable s is.ref (qCfg s is.ref 0) = true
    ∧ chkCodes false (gChecks s is m .read).2 = [] ∧ anyHold (gChecks s is m .read).2 = false
    ∧ chkCodes true (gChecks s is m .read).2 = [] ∧ (gChecks s is m .read).2.length = 1
    ∧ chkCodes false (gChecks s is m .atomic).2 = [] ∧ anyHold (gChecks s is m .atomic).2 = false
    ∧ chkCodes false (sChecks s is b).2 = [] ∧ anyHold (sChecks s is b).2 = false
    ∧ chkCodes false (gChecks s is far .read).2 = [(0, 0x8001)] ∧ is.gang.body = none
    ∧ chkCodes false (sChecks s is out).2 = [(0, 0x8001)]
    ∧ Tests.allRun shut [.ld m false (.v 4)] = true ∧ anyHold (gChecks shut (Tests.iss shut) m .read).2 = true
    ∧ chkCodes false (gChecks shut (Tests.iss shut) m .read).2 = []
    ∧ Tests.allRun lack [.ld m false (.v 4)] = true ∧ (Tests.iss lack).gang.body.isSome = true
    ∧ chkCodes false (gChecks lack (Tests.iss lack) m .read).2 = [(0, 0x8003)] := by
  decide +kernel

/-- A store whose page is there, one to the scratchpad, and one whose page stage two lacks. -/
theorem witness_StoresEnterTheBuffer :
    let s := Tests.one
    let is := Tests.iss s
    let lack := Tests.missing s
    let m : GMem := ⟨⟨2, false⟩, .b32, .sys, .k 63, 3, none⟩
    let b : SMem := ⟨⟨2, false⟩, .b32, .gang, .k 0, .v 1, none⟩
    Tests.allRun s [.st m (.q 0), .sts b (.q 0)] = true
    ∧ (feeds s is [(.q 0, sizeTy .b32)] .exm).isSome = true
    ∧ (∀ r ∈ [gChecks s is m .write, sChecks s is b], chkCodes false r.2 = [] ∧ anyHold r.2 = false ∧ anyPage r.2 = false
      ∧ (popAll r.1 is.ref [(.q 0, sizeTy .b32)]).isSome = true)
    ∧ (match exec (.st m (.q 0)) s with | .next _ => true | _ => false) = true
    ∧ Tests.allRun lack [.st m (.q 0)] = true ∧ (Tests.iss lack).gang.body = none
    ∧ (let r := gChecks lack (Tests.iss lack) m .write
       chkCodes false r.2 = [] ∧ anyHold r.2 = false ∧ anyPage r.2 = true ∧ (popAll r.1 is.ref [(.q 0, sizeTy .b32)]).isSome = true) := by
  decide +kernel

/-- Offsets −4, 0, 65,532 and 65,536 of an allocation of 64 KiB; indices −1, 0, 63 and 64 of a record of 64 elements. -/
theorem witness_AccessChecks :
    let s := Tests.base
    let g : GRef := .user 0 0
    let r := recOf (Tests.iss s) 3
    (crewOf? s g).isSome = true ∧ scrSize s g = 65536 ∧ (2 : Int) % 4 ≠ 0 ∧ (-4 : Int) % 4 = 0 ∧ (-4 : Int) < 0
    ∧ (65536 : Int) < 65532 + 8 ∧ (65532 : Int) + 4 ≤ 65536 ∧ (0 : Int) + 4 ≤ 65536
    ∧ recExtent r = 64 ∧ r.spad = false ∧ recAddr r 0 % 4 = 0 ∧ recAddr r 63 % 8 ≠ 0 ∧ (recOf (Tests.iss s) 1).spad = true
    ∧ recExtent (recOf (Tests.iss s) 1) = 65536 := by
  decide +kernel

/-- No active lane; a watch that is not due and one that is; an index in the record, at its end and below it; a word that meets the
condition and one that does not; a WAKE with nothing before it and one behind a store; a queue that is valid and one that is not. -/
theorem witness_OrderFormsAnswer :
    let s := Tests.base
    let is := Tests.iss s
    let parked := Tests.st (fun x => { x with cnt := (List.range 32).map (fun l => (l, 1#8)) })
    let watch := fun due => Tests.grp (fun q => { q with watch := some ⟨seedPc, 1, 0, false, false, due, false⟩ })
    let held := Tests.st (fun x => { x with buf := [⟨0, 0, 0, seedPc, .phys 0, [0#8], .dev, true, false, 0⟩] })
    let wa := fun c i => Instr.waita c .b32 .dev (.s 6) (.k i) 3 (.s 1) none
    let at' := fun s => chkAt (s, []) (Tests.iss s) false seedPc 4 .read
    let e := fun i => recIndex (rdSrc s is ⟨.k i, .u32, []⟩ 0) none
    (Tests.allRun s [.fence .sys (.s 8), .persist, wa .ne 0, wa .eq 63, wa .eq 64, .wake .dev (.k 0) 3 none, .qstat true (.s 2) 0 15,
      .qstat false (.s 2) 7 0] = true
    ∧ Tests.allRun parked [wa .ne 0, .wake .dev (.k 0) 3 none] = true ∧ activeLanes (Tests.iss parked).gang (Tests.iss parked).q = []
    ∧ (activeLanes is.gang is.q).isEmpty = false)
    ∧ (∀ due ∈ [true, false], Tests.allRun (watch due) [wa .ne 0] = true
      ∧ (Tests.iss (watch due)).q.watch.map (fun w => w.due) = some due ∧ (activeLanes (Tests.iss (watch due)).gang (Tests.iss (watch due)).q).isEmpty = false
      ∧ Tests.passed (at' (watch due)).2 = true)
    ∧ (is.q.watch = none ∧ is.gang.body = none ∧ e 0 = 0 ∧ e 63 = 63 ∧ (recExtent (recOf is 3) : Int) ≤ e 64 ∧ recIndex 0 (some 0xFFFFFFFF#32) = -1 ∧ everyActive is 0x8001 ≠ []
      ∧ recAddr (recOf is 3) 0 = seedPc ∧ Tests.passed (at' s).2 = true)
    ∧ (placeFree is.gang (.phys 0) 4 = true ∧ (waitLoad s is .b32 .dev (.phys 0)).2 = (0, false) ∧ wCond .ne 0 1 = true ∧ wCond .eq 0 1 = false
      ∧ wokenAt is (.phys 0) = false ∧ cutOffAt s is.ref is.gang is.gang.seq .dev (.phys 0) 4 = false
      ∧ cutOffAt { s with hostPortDown := true } is.ref is.gang is.gang.seq .dev (.phys (2 ^ 51)) 4 = true)
    ∧ (Tests.passed (chkRec (s, []) (outOfBody is) (recOf is 3) 0 1 .read).2 = true ∧ wakeHeld is (.phys 0) = false
      ∧ wakeHeld (Tests.iss held) (.phys 0) = true ∧ Tests.allRun held [.wake .dev (.k 0) 3 none] = true)
    ∧ qcfgUsable s is.ref (qCfg s is.ref 0) = true ∧ qcfgUsable s is.ref (qCfg s is.ref 7) = false := by
  decide +kernel

theorem witness_AppendAnswers :
    let s := Tests.one
    let is := Tests.iss s
    Tests.allRun s [.append ⟨3, false⟩ (.v 8) (.s 4) (.s 5), .append ⟨2, false⟩ (.v 8) (.s 4) (.s 5)] = true
    ∧ selOf is ⟨3, false⟩ = [] ∧ selOf is ⟨2, false⟩ = [0] ∧ Tests.passed (chkScr s is.ref (sext (rdU s is (.s 4)) 64) 4) = true
    ∧ placeFree is.gang (.scr 0) 4 = true ∧ is.gang.buf = [] ∧ heldByMatrix s 0 0 4 = false
    ∧ (loadBytes s is.ref is.gang.seq .crew (.scr 0) 4).2.2 = false := by
  decide +kernel

/-- A length of 0, one byte, the last byte of the record, and one byte beyond it; a scratchpad record. -/
theorem witness_RangeFormsAnswer :
    let s := Tests.base
    let is := Tests.iss s
    let ok : Range := ⟨.k 62, 3, .k 8, none⟩
    let far : Range := ⟨.k 64, 3, .k 8, none⟩
    let none' : Range := ⟨.k 0, 3, .k 0, none⟩
    let pad : Range := ⟨.k 0, 1, .s 1, none⟩
    let forms := fun (r : Range) => [Instr.zfill r, .pagereq 7 r, .cctlWb .crew r, .cctlDisc .dev r, .icpf r, .icpin r, .icpinUnpin r, .icinvCrew r]
    Tests.allRun s (forms ok ++ forms far ++ forms none' ++ forms pad) = true
    ∧ (activeLanes is.gang is.q).isEmpty = false ∧ is.gang.body = none
    ∧ rangeEmpty s is none' = true ∧ rangeEmpty s is ok = false ∧ rangeEmpty s is far = false ∧ rangeOf s is far = none
    ∧ (match rangeOf s is ok with
       | some x => !x.rc.spad && rangeCode (zChecks s is x).2 == none && !anyHold (zChecks s is x).2 && !anyPage (zChecks s is x).2
           && !anyRefused (pageNeeds s is (pagePieces x.a x.len)).2
           && (newOp (pageNeeds s is (pagePieces x.a x.len)).1 0 0 .pagereq).isSome
       | none => false) = true
    ∧ (match rangeOf s is pad, crewOf? s is.ref with
       | some x, some cr => x.rc.spad && decide (x.a + x.len ≤ scrSize s is.ref) && (linePieces x.a x.len).all (fun p => scrMode s cr p.1)
       | _, _ => false) = true := by
  decide +kernel

/-- A ZFILL whose page is awaited, and a PAGEREQ through a record of the scratchpad. -/
theorem witness_RangeFormsAnswer_zfill :
    let s := Tests.missing Tests.base
    let x := rangeOf s (Tests.iss s) ⟨.k 62, 3, .k 8, none⟩
    Tests.allRun s [.zfill ⟨.k 62, 3, .k 8, none⟩] = true
    ∧ x.map (fun x => !x.rc.spad && rangeCode (zChecks s (Tests.iss s) x).2 == none && !anyHold (zChecks s (Tests.iss s) x).2
        && anyPage (zChecks s (Tests.iss s) x).2) = some true
    ∧ (newOp Tests.base 0 0 .pagereq).isSome = true := by
  decide +kernel

/-- The pages of a range at hand, and awaited. -/
theorem witness_RangeFormsAnswer_pages :
    let x := fun s => (rangeOf s (Tests.iss s) ⟨.k 62, 3, .k 8, none⟩).getD ⟨recOf (Tests.iss s) 3, 0, 0⟩
    let see := fun s c k => (coveredRanges s (Tests.iss s) c k (x s).a (x s).len).2
    let lack := Tests.missing Tests.base
    see Tests.base .user .read = some [(248, 8)] ∧ see Tests.base .fetch .fetch = some [(248, 8)]
    ∧ see lack .user .read = none ∧ see lack .fetch .fetch = none ∧ rangeEmpty lack (Tests.iss lack) ⟨.k 62, 3, .k 8, none⟩ = false
    ∧ Tests.allRun lack [.cctlWb .crew ⟨.k 62, 3, .k 8, none⟩] = true := by
  decide +kernel

theorem witness_IcinvDevWaits :
    let s := Tests.base
    let r : Range := ⟨.k 62, 3, .k 8, none⟩
    let st := fun w => Tests.grp (fun q => { q with waiting := w })
    Tests.allRun s [.icinvDev r] = true ∧ Tests.allRun (st (.icinv [(0, 8)] true)) [.icinvDev r] = true
    ∧ Tests.allRun (st (.icinv [(0, 8)] false)) [.icinvDev r] = true ∧ (Tests.iss s).q.waiting = .none
    ∧ (activeLanes (Tests.iss s).gang (Tests.iss s).q).isEmpty = false ∧ rangeEmpty s (Tests.iss s) r = false
    ∧ (rangeOf s (Tests.iss s) r).isSome = true ∧ rangeEmpty s (Tests.iss s) { r with len := .k 0 } = true := by
  decide +kernel

theorem witness_CommandsWithoutLanes :
    let s := Tests.base
    let g : Guard := ⟨2, false⟩
    let x : Copy := ⟨g, 1, .s 4, .s 5, .k 64, 3, none⟩
    let y : MmaArgs := ⟨g, 2, .s 6, .s 7, 20, 0, 0, 0⟩
    Tests.allRun s [.cpy x false false, .cpyM x 1#8, .cpyX x false true, .mma y, .mmaSp y 0, .msel g 1 (.s 6) (.s 7) 20 0 0,
      .accz g 1 3, .accdr g 15 (.s 6) .f32 0, .wdset g 0 (.k 8) 0, .mfence g 0] = true
    ∧ Tests.allRun (Tests.paired s) [.mmaP y] = true
    ∧ selOf (Tests.iss s) g = [] ∧ (Tests.iss s).ref = .user 0 0 ∧ (crewOf? s (.user 0 0)).isSome = true := by
  decide +kernel

/-- A copy of 16 and one of 0 bytes accepted, one with a bad length, copies of tile 0 in a body that holds it; packing with a good and a
bad word, and lanes that differ. -/
theorem witness_CopiesAreAccepted :
    let s := Tests.st (fun x => { x with v := (List.range 32).map (fun l => (64 * 20 + l, 0x202#32)) ++ [(64 * 21, 1#32)] })
    let is := Tests.iss s
    let x : Copy := ⟨Guard.all, 1, .k 4, .k 64, .k 16, 3, some 2⟩
    let bad : Copy := { x with b := .s 127, c := .k (-1) }
    let body := bodyOfCopy s is (cutRec (rdB is.gang 3)) 4 16 false
    let ms := Instr.msel Guard.all 1 (.k 0) (.s 0) 20 0 0
    let b := Tests.inBody s
    let bi := Tests.iss b
    let rc := cutRec (rdB is.gang 3)
    Tests.allRun s [.cpy x true false, .cpyM { x with bar := none } 3#8, .cpyX { x with c := .k 2 } true true, .cpy bad true false,
      .cpyX bad false false, ms, .msel Guard.all 1 (.k 1) (.s 0) 20 0 0, .msel Guard.all 1 (.k 0) (.s 0) 21 0 0] = true
    ∧ (copyChecks s is x false).find? (fun e => e.1) = none ∧ (copyChecks s is x true).find? (fun e => e.1) = none
    ∧ (indexedChecks s is { x with c := .k 2 }).find? (fun e => e.1) = none
    ∧ ((copyChecks s is bad false).find? (fun e => e.1)).isSome = true ∧ ((indexedChecks s is bad).find? (fun e => e.1)).isSome = true
    ∧ bodyRefuses body.2 = false ∧ anyHold body.2 = false
    ∧ copyRoom s is (some 2) true false = true ∧ copyRoom s is none false true = true
    ∧ (match releaseScr s is.ref with | some (u, ts) => ts.isEmpty && (newOp u 0 0 .copy).isSome | none => false) = true
    ∧ Tests.allRun b [.cpy x true false, .cpyX { x with c := .k 2 } true true] = true
    ∧ (copyChecks b bi x false).find? (fun e => e.1) = none ∧ (indexedChecks b bi { x with c := .k 2 }).find? (fun e => e.1) = none
    ∧ (let w := bodyOfCopy b bi rc 4 16 false
       bodyRefuses w.2 = false ∧ anyHold w.2 = false ∧ anyPage w.2 = false ∧ copyRoom w.1 bi (some 2) true false = true
       ∧ (match releaseScr w.1 is.ref with | some (u, ts) => ts.isEmpty && (newOp u 0 0 .copy).isSome | none => false) = true)
    ∧ (match releaseScr b is.ref with
       | some (s₁, []) => (match crewOf? s₁ is.ref with
         | some cr => let w := bodyOfIndexed s₁ bi cr rc 4 2 true
           !anyHold w.2 && !anyPage w.2 && copyRoom w.1 bi (some 2) true false
             && (match releaseScr w.1 is.ref with | some (u, ts) => ts.isEmpty && (newOp u 0 0 .copy).isSome | none => false)
         | none => false)
       | _ => false) = true
    ∧ selOf is Guard.all ≠ [] ∧ vote is 20 = some 0x202#32 ∧ vote is 21 = none
    ∧ (mselChecks s is 0 0 0x202#32 0 0).find? (fun e => e.1) = none
    ∧ (mselChecks s is 1 0 0x202#32 0 0).find? (fun e => e.1) = some (true, 0x8008) := by
  decide +kernel

/-- Both halves of a pair, a bad word, lanes that differ, a good and a bad range. -/
theorem witness_MatrixCommandsAreAccepted :
    let s := Tests.st (fun x => { x with v := (List.range 32).map (fun l => (64 * 20 + l, 0x1222#32)) ++ [(64 * 21, 1#32)] })
    let s := Tests.paired s
    let is := Tests.iss s
    let t := modCrew s 0 (fun cr => { cr with half := [⟨1, 0, 0x1222#32, 0, 0, 0x808#32, 1, 1024⟩] })
    let x : MmaArgs := ⟨Guard.all, 2, .k 0, .k 0, 20, 0, 0, 0⟩
    let fw := 0x1222#32
    let busy := modCore s 0 (fun y => { y with mxQ := [{ mxCommand s is 0 0 1 (.mma 0 0 0 0 fw) false false 0x402 with running := true, left := 1025 }] })
    let checks := fun (s : State) (kind : MxKind) (extra : Crew → List (Bool × Nat)) =>
      (crewOf? s (.user 0 0)).map (fun cr => ((mmaChecks s is x 0 cr fw kind (extra cr)).find? (fun e => e.1)).isSome)
    let pair := fun s cr => pairChecks s is x cr (widthNext s 0 0 0 0) (.mmaP 0 0 0 0 fw)
    Tests.allRun s [.mma x, .mmaSp x 0, .mmaP x, .accz Guard.all 0 3, .accdr Guard.all 0 (.k 0) .f32 0, .wdset Guard.all 0 (.k 8) 0,
      .mfence Guard.all 0, .mma { x with fw := 21 }, .mmaSp { x with fw := 21 } 0, .mmaP { x with fw := 21 }] = true
    ∧ Tests.allRun t [.mmaP x] = true
    ∧ selOf is Guard.all ≠ [] ∧ vote is 20 = some fw ∧ vote is 21 = none
    ∧ checks s (.mma 0 0 0 0 fw) (fun _ => []) = some false ∧ checks s (.mmaSp 0 0 0 0 0 fw) (fun _ => []) = some false
    ∧ checks s (.mma 1 0 0 0 fw) (fun _ => []) = some true ∧ checks s (.mmaP 0 0 0 0 fw) (pair s) = some false
    ∧ checks t (.mmaP 0 0 0 0 fw) (pair t) = some false ∧ (crewOf? t (.user 0 0)).map (secondHalf t is) = some true
    ∧ backlogged s 0 = false ∧ mxRoom s 0 = true ∧ backlogged busy 0 = true
    ∧ checks busy (.mma 0 0 0 0 fw) (fun _ => []) = some false ∧ Tests.allRun busy [.mma x, .mmaSp x 0] = true
    ∧ (rangeChecks s is [(0, 4096 * (Fmt.f32.width / 8))]).find? (fun e => e.1) = none
    ∧ (match releaseScr s is.ref with | some (u, ts) => ts.isEmpty && (newOp u 0 0 .matrix).isSome | none => false) = true := by
  decide +kernel

/-- A range, and matrix commands of each kind, with all they wait for at hand. -/
theorem witness_RangeAndMatrixFormsComplete :
    let s := Tests.paired (Tests.st (fun x => { x with v := (List.range 32).map (fun l => (64 * 20 + l, 0x1222#32)) }))
    let is := Tests.iss s
    let r : Range := ⟨.k 62, 3, .k 8, none⟩
    let x : MmaArgs := ⟨Guard.all, 2, .k 0, .k 0, 20, 0, 0, 0⟩
    let fw := 0x1222#32
    let free := fun (cs : List (Bool × Nat)) => (cs.find? (fun e => e.1)).isNone
    (is.ref = .user 0 0 ∧ (activeLanes is.gang is.q).isEmpty = false ∧ rangeEmpty s is r = false
      ∧ Tests.allRun s [.zfill r, .pagereq 7 r, .cctlWb .crew r, .cctlDisc .dev r, .icpf r, .icpin r, .icpinUnpin r, .icinvCrew r, .mma x, .mmaSp x 0,
        .mmaP x, .accz Guard.all 0 3, .accdr Guard.all 0 (.k 0) .f32 0, .wdset Guard.all 0 (.k 8) 0, .mfence Guard.all 0] = true)
    ∧ (match rangeOf s is r with
       | some y => let z := zChecks s is y
         let ns := pageNeeds s is (pagePieces y.a y.len)
         !y.rc.spad && (rangeCode z.2).isNone && !anyHold z.2 && !anyPage z.2 && !anyRefused ns.2 && (newOp ns.1 0 0 .pagereq).isSome
           && (coveredRanges s is (classOf is.ref) .read y.a y.len).2.isSome && (coveredRanges s is .fetch .fetch y.a y.len).2.isSome
       | none => false) = true
    ∧ (selOf is Guard.all ≠ [] ∧ vote is 20 = some fw ∧ mxRoom s 0 = true ∧ backlogged s 0 = false
      ∧ (rangeChecks s is [(0, 4096 * (Fmt.f32.width / 8))]).find? (fun e => e.1) = none
      ∧ (match releaseScr s is.ref with | some (u, ts) => ts.isEmpty && (newOp u 0 0 .matrix).isSome | none => false) = true)
    ∧ (match crewOf? s is.ref with
       | some cr => free (mmaChecks s is x 0 cr fw (.mma 0 0 0 0 fw) []) && free (mmaChecks s is x 0 cr fw (.mmaSp 0 0 0 0 0 fw) [])
           && (let k := MxKind.mmaP 0 0 0 0 fw
               free (mmaChecks s is x 0 cr fw k (pairChecks s is x cr (widthNext s 0 0 0 0) k)))
       | none => false) = true := by
  decide +kernel

/-- An unresolved, a resolved and a faulted operation, and the null token. -/
theorem witness_FutureFormsAnswer :
    let st := fun (o : OpStatus) => modCrew (Tests.st (fun x => { x with f := [(2, 0x402#32)] })) 0 (fun cr =>
      { cr with ops := [(2, ⟨1, true, o, 0x80020004#64, false, .copy, 0⟩)] })
    let s := st .unresolved
    let is := Tests.iss s
    Tests.allRun s [.fwait 2 none, .ftest 2 15 (some 127), .fcancel 2, .fexport 2 (.k 4), .fimport 2 (.k 4), .fwait 0 (some 3)] = true
    ∧ Tests.allRun (st .faulted) [.fwait 2 none] = true ∧ Tests.allRun (st .ok) [.fwait 2 (some 1)] = true
    ∧ is.ref = .user 0 0 ∧ rdF is.gang 2 = 0x402 ∧ (crewOf? s is.ref).map (fun cr => opResolved cr 0x402) = some false
    ∧ (crewOf? (st .ok) is.ref).map (fun cr => opResolved cr 0x402) = some true ∧ (crewOf? s is.ref).map (fun cr => opResolved cr 0) = some true
    ∧ (crewOf? (st .ok) is.ref).map (fun cr => (opOf cr 0x402).map (fun e => e.st)) = some (some .ok)
    ∧ (crewOf? (st .faulted) is.ref).map (fun cr => (opOf cr 0x402).map (fun e => (e.st, e.reported))) = some (some (.faulted, false))
    ∧ activeLanes is.gang is.q ≠ [] ∧ (chkScr s is.ref (sext (rdU s is (.k 4)) 64) 4) = .ok (.scr 4) true
    ∧ placeFree is.gang (.scr 4) 4 = true ∧ (loadBytes s is.ref is.gang.seq .crew (.scr 4) 4).2.2 = false := by
  decide +kernel

/-- Expected counts 0, 1, 4,095 and 4,096; byte counts at 2^23 − 1 and beyond; a barrier full and not; LBAR fresh, waiting, released. -/
theorem witness_BarrierFormsAnswer :
    let st := fun (x : Nat) => Tests.st (fun g => { g with s := [(1, BitVec.ofNat 64 x)] })
    let full := modBar Tests.base 0 2 (fun y => { y with exp := 1, arr := 1, byt := 1, phase := true })
    let lbar := fun (j : Option Nat) => modLaunch (Tests.st (fun g => { g with lbar := j })) 0 (fun l => { l with coop := true })
    let bar := fun (s : State) => (crewOf? s (.user 0 0)).map (fun cr => barOf cr 2)
    (∀ x ∈ [0, 1, 4095, 4096, 2 ^ 23 - 1, 2 ^ 23], Tests.allRun (st x) [.barinit 2 (.s 1), .barexp 2 (.s 1)] = true
      ∧ rdU (st x) (Tests.iss (st x)) (.s 1) = x ∧ everyActive (Tests.iss (st x)) 0x8001 ≠ [])
    ∧ bar Tests.base = some Bar.init ∧ (bar full).map (fun b => (b.arr, b.exp, b.phase)) = some (1, 1, true)
    ∧ Tests.allRun full [.bara 2, .barw 2 true, .barw 2 false, .barexp 2 (.k 4)] = true
    ∧ Tests.allRun Tests.base [.bara 2, .barw 2 false] = true
    ∧ (match release Tests.base (.user 0 0) (crewScope Tests.base (.user 0 0)) with | some (_, ts) => ts.isEmpty | none => false) = true
    ∧ (match release Tests.base (.user 0 0) (lbarScope Tests.base (Tests.iss Tests.base)) with | some (_, ts) => ts.isEmpty | none => false) = true
    ∧ Tests.allRun (lbar none) [.lbar 3] = true ∧ Tests.allRun (lbar (some 3)) [.lbar 3] = true
    ∧ Tests.allRun (lbar (some 7)) [.lbar 3] = true ∧ (Tests.iss (lbar (some 3))).gang.lbar = some 3
    ∧ (Tests.iss (lbar (some 7))).gang.lbar = some 7 ∧ (Tests.iss (lbar none)).gang.lbar = none := by
  decide +kernel

/-- The block of two entries at offset 0x300, a misaligned block, tickets at the head and not, granted and not, and a body. -/
theorem witness_TransactionFormsAnswer :
    let s := Tests.base
    let is := Tests.iss s
    let tk : Ticket := ⟨0x402, false, 0, [(0, true)]⟩
    let st := fun (o : OpStatus) (f : Nat) (b : Option Ticket) => modCrew (Tests.st (fun x => { x with
        f := [(2, BitVec.ofNat 32 f)], tickets := [tk], body := b })) 0
      (fun cr => { cr with ops := [(2, ⟨1, true, o, 0#64, false, .ticket, 0⟩)] })
    let open' := st .ok 0x402 (some tk)
    (match readBlock s is 0x300 with
     | .ok h es => decide (h % 2 ^ 16 = 2) && (blockTiles es == [(seedPc, true), (seedPc + 256, true), (seedPc + 0x400, false)])
       && (match tilesCheck s is [] (blockTiles es) with
           | (s₁, .ok ts) => (ts == [(0, true), (1, true), (4, false)]) && sequencerRoom (modGang s₁ is.ref nextSeq) 0
             && (match newOp (modGang s₁ is.ref nextSeq) 0 0 .ticket with | some (u, _) => (crewOf? u is.ref).isSome | none => false)
           | _ => false)
     | _ => false) = true
    ∧ (match readBlock s is 1 with | .code k => k == 0x8008 | _ => false) = true ∧ everyActive is 0x8008 ≠ []
    ∧ Tests.allRun s [.otdecl 4 (.s 6), .otbegin 2, .otend, .otround (.k 3)] = true ∧ is.gang.body = none
    ∧ (∀ o ∈ [OpStatus.ok, .unresolved], ∀ f ∈ [0x402, 0x403], Tests.allRun (st o f none) [.otbegin 2] = true
      ∧ (Tests.iss (st o f none)).gang.tickets = [tk] ∧ rdF (Tests.iss (st o f none)).gang 2 = f)
    ∧ (crewOf? (st .ok 0x402 none) is.ref).map (fun cr => (opOf cr 0x402).map (fun e => e.st)) = some (some .ok)
    ∧ (crewOf? (st .unresolved 0x402 none) is.ref).map (fun cr => (opOf cr 0x402).map (fun e => e.st)) = some (some .unresolved)
    ∧ Tests.allRun open' [.otbegin 2, .otend] = true ∧ (Tests.iss open').gang.body = some tk
    ∧ bodyCommandsDone open' 0 0 0x402 = true ∧ bodyLoadsDone (Tests.iss open').gang tk = true
    ∧ (settleBody open' is.ref).2.1 = [] ∧ (settleBody open' is.ref).2.2 = true := by
  decide +kernel

/-- The request of a trap that the user gang has taken. -/
def Tests.request : Request := requestOf Tests.base (Tests.iss Tests.base) 1 0 5 [1#8] [0]

/-- The supervisor's machine with a request in slot 0, taken or not, abandoned or not, with that many registers in its write set. -/
def Tests.asked (taken cancel : Bool) (n : Nat) : State :=
  modCore Tests.supBase 0 (fun x => { x with
    mbox := [(0, { Tests.request with taken := taken, cancel := cancel, writes := (List.range n).map (fun i => (i, [(0, 0#64)])) })] })

/-- A third long-latency load, a register beyond a count of 8, and a supervisor's form in a user gang; a user's form in the
supervisor gang. -/
theorem witness_CausesComeFirst :
    let m : GMem := ⟨Guard.all, .b32, .dev, .v 1, 3, none⟩
    let third := Tests.grp (fun q => { q with llc := 2 })
    let small := Tests.st (fun x => { x with n := 8 })
    let rd := Instr.mbxrdNext (.s 2)
    (∀ p ∈ [(third, Instr.ld m false (.v 4)), (small, .mov ⟨Guard.all, .u32, false, .v 8, .v 7⟩), (Tests.base, rd), (third, rd),
        (Tests.supBase, .exit), (Tests.supBase, .otend)],
      p.2.hasWords = true ∧ issuer? p.1 = some (Tests.iss p.1) ∧ (Tests.iss p.1).q.ended = false
      ∧ suspended p.1 (Tests.iss p.1).ref (Tests.iss p.1).gang = false ∧ groupHeld p.1 (Tests.iss p.1) = false)
    ∧ screen third (Tests.iss third) (.ld m false (.v 4)) = some .illegalClause
    ∧ screen small (Tests.iss small) (.mov ⟨Guard.all, .u32, false, .v 8, .v 7⟩) = some .beyondCount
    ∧ rd.supervisorOnly = true ∧ rd.longLatency = false ∧ dynMinor Tests.base (.user 0 0) rd = false
    ∧ beyondCount (Tests.iss Tests.base).gang rd = false ∧ (Tests.iss Tests.supBase).ref = .sup 0
    ∧ (Instr.otend).userOnly = true ∧ (Instr.otend).longLatency = false ∧ beyondCount (Tests.iss Tests.supBase).gang .otend = false := by
  decide +kernel

/-- The supervisor's machine with its own context mapped as the user's is. -/
def Tests.supMapped : State :=
  { Tests.supBase with
    mem := Tests.supBase.mem.writeN seedCtx (toLE 8 (seedTop + 1) ++ toLE 8 0 ++ toLE 16 0)
    access := Tab.set 0xC0#16 Tests.supBase.access 0 0x3FFF#16 }

/-- What the check of the target says of a TRY of the machine's group: 0 it passes, 1 it traps, 2 it waits. -/
def Tests.judged (s : State) : Nat := match targetCheck s (Tests.iss s) (.tryCrew 16#32) with | .ok _ => 0 | .trap _ _ => 1 | .wait _ => 2

/-- A privileged TRY whose catch is good, is no header, and is awaited. -/
theorem witness_CausesComeFirst_targets :
    let s := Tests.supMapped
    let bad := { s with mem := s.mem.writeN 64 [1#8] }
    let shut := { s with ownreq := { s.ownreq with marked := some 0 } }
    Tests.judged s = 0 ∧ Tests.judged bad = 1 ∧ Tests.judged shut = 2
    ∧ ∀ u ∈ [s, bad, shut], screen u (Tests.iss u) (.tryCrew 16#32) = some .privileged ∧ issuer? u = some (Tests.iss u)
      ∧ (Tests.iss u).q.ended = false ∧ suspended u (.sup 0) (Tests.iss u).gang = false ∧ groupHeld u (Tests.iss u) = false := by
  decide +kernel

/-- A gang with nothing outstanding on its core, and one with a load in flight. -/
theorem witness_TrapsSuspendTheGang :
    let s := Tests.base
    let is := Tests.iss s
    let f := Tests.flight (.load false) (.phys 0) none
    let busy := Tests.st (fun x => { x with flights := [f] })
    is.ref = .user 0 0 ∧ gang? s is.ref = some is.gang ∧ (core? s (coreOf s is.ref)).map (fun c => c.cp.all (fun p => !p.2.dirty)) = some true
    ∧ is.gang.flights = [] ∧ ((allGangs s).all (fun g => g.2.buf.isEmpty && g.2.unhomed.isEmpty)) = true
    ∧ (Tests.iss busy).gang.flights = [f] ∧ f.elems ≠ [] ∧ gang? busy is.ref = some (Tests.iss busy).gang := by
  decide +kernel

theorem witness_SupervisorFaults :
    (Tests.iss Tests.supBase).ref = .sup 0 ∧ gang? Tests.supBase (.sup 0) = some Tests.supGang := by
  decide +kernel

theorem witness_ThrowsBeginAnUnwind :
    let s := Tests.base
    s.unwinds = [] ∧ gang? s (.user 0 0) = some Tests.gang ∧ (crew? s 0).map (fun cr => cr.launch) = some 0
    ∧ (launch? s 0).isSome = true ∧ Tests.gang.ended = none := by
  decide +kernel

/-- A gang region at the present depths, one of an outer crew region, and none; crew and launch regions open and not. -/
theorem witness_CatchLevels :
    let own : Gang := { Tests.gang with stack := [⟨seedPc, 1, 0⟩], entered := [true] }
    let outer : Gang := { Tests.gang with stack := [⟨seedPc, 0, 0⟩], entered := [true] }
    let launch : Gang := { Tests.gang with entered := [false] }
    crewDepth own = 1 ∧ launchDepth own = 0 ∧ crewDepth outer = 1 ∧ outer.entered = [true] ∧ launch.entered = [false]
    ∧ launch.stack = [] ∧ Tests.gang.stack = [] ∧ Tests.gang.entered = []
    ∧ (crewOf? Tests.base (.user 0 0)).map (fun cr => (cr.half == [], cr.stack == [])) = some (true, true)
    ∧ (∀ st ∈ [[], [seedPc]], { seedCrew with half := [⟨0, 0, 0#32, 0, 0, 0#32, 0, 0⟩], stack := st }.half ≠ []) := by
  decide +kernel

/-- Lanes selected and none, an idle group, and a spilled operand that was lost in lane 1. -/
theorem witness_EmulationTraps :
    let idle := Tests.grp (fun q => { q with idle := true })
    let x : Emu := ⟨Guard.all, .v 2, .v 4, .v 6⟩
    let n : Emu := ⟨⟨2, false⟩, .v 2, .v 4, .v 6⟩
    let lost := Tests.st (fun x => { x with vbound := 4, vbase := 0, spilled := [(4, some 2#64), (5, some 0#64), (6, some 0#64), (7, some 0#64)] })
    (∀ s ∈ [Tests.base, idle], ∀ i ∈ [Instr.idivU32 x, .ddiv n, .dfma x (.v 8), .dsqrt Guard.all (.v 2) (.k 4), .dcvt Guard.all 3 (.v 3) (.v 4),
        .emu x],
      let is := Tests.iss s
      issuer? s = some is ∧ is.q.ended = false ∧ suspended s is.ref is.gang = false ∧ groupHeld s is = false ∧ screen s is i = none
      ∧ notReady is i = none)
    ∧ (let is := Tests.iss lost
       screen lost is (.emu x) = none ∧ notReady is (.emu x) = none ∧ (unfetched is.gang (.emu x)).isEmpty = true
       ∧ (selLanes is.gang is.q Guard.all).filter (fun l => (spillBad is.gang (.emu x)).getLsbD l) = [1])
    ∧ (unfetched (Tests.iss Tests.base).gang (.emu x)).isEmpty = true ∧ spillBad (Tests.iss Tests.base).gang (.emu x) = 0
    ∧ selLanes (Tests.iss Tests.base).gang (Tests.iss Tests.base).q ⟨2, false⟩ = []
    ∧ selLanes (Tests.iss Tests.base).gang (Tests.iss Tests.base).q Guard.all ≠ []
    ∧ (Tests.iss idle).q.idle = true ∧ (Tests.iss Tests.base).q.idle = false
    ∧ (let reads := Tests.st (fun y => { y with flights := [{ Tests.flight (.load false) (.phys 0) none with dst := .v 4 }] })
       issuer? reads = some (Tests.iss reads) ∧ screen reads (Tests.iss reads) (.emu x) = none
       ∧ (notReady (Tests.iss reads) (.emu x)).isSome = true) := by
  decide +kernel

/-- No request, a fresh one, an abandoned one, one in hand; 31 and 32 registers in its write set. -/
theorem witness_RequestFormsAnswer :
    let s := Tests.asked true false 31
    let is := Tests.iss s
    let full := Tests.asked true false 32
    let forms := [Instr.mbxrdNext (.s 2), .mbxrdWord (.s 2) (.s 20) (.k 1), .rdxv ⟨3, true⟩ (.v 8) (.s 20) 639 true,
      .wrxv Guard.all (.s 20) (.v 8) 5 false, .wrxv ⟨3, false⟩ (.s 20) (.v 8) 5 false, .rdxs (.s 2) (.s 20) 0x1081,
      .wrxs (.s 20) (.s 2) 0x1005, .svret (.s 20) 2, .svthrow (.s 20) (.s 21)]
    (∀ t ∈ [Tests.supBase, Tests.asked false false 0, Tests.asked true true 0, s, full], Tests.allRun t forms = true)
    ∧ Tests.allRun Tests.base [.trap (.imm 5#32), .trap (.s 1)] = true
    ∧ (core? Tests.supBase 0).map oldestRequest = some none ∧ (core? (Tests.asked false false 0) 0).map oldestRequest = some (some 0)
    ∧ (requestIn (Tests.asked false false 0) 0 0).isSome = true ∧ requestIn Tests.supBase 0 0 = none
    ∧ (match actOn s 0 (rdU s is (.s 20)) with
       | some r => writesFit r 40 && (gang? s r.gref == some Tests.gang)
         && decide (xvWritten s is Guard.all Tests.gang (.v 8) 40 false ≠ []) && (xvWritten s is ⟨3, false⟩ Tests.gang (.v 8) 40 false == [])
       | none => false) = true
    ∧ actOn (Tests.asked false false 0) 0 0 = none ∧ writeXsBits 0x1005 7 = some 7
    ∧ (actOn full 0 0).map (fun r => writesFit r (scalarKey 0x1005)) = some false
    ∧ (match release s is.ref .dev with | some (_, ts) => ts.isEmpty | none => false) = true := by
  decide +kernel

/-- Lanes 0 and 31, registers 0 and 639, scalars 0x1000 and 0x107F. -/
theorem witness_WriteSetsReadBack :
    (31 : Nat) < Tests.gang.width ∧ (639 : Nat) < 640 ∧ (0 : Nat) ≠ 639 ∧ (Tab.find? Tests.request.writes 0).isNone = true
    ∧ (0 : Nat) < Tests.gang.n ∧ (0x1000 : Nat) ≤ 0x107F ∧ (0x107F : Nat) < 0x1080 := by
  decide +kernel

/-- Nothing to switch and something, banks of another; self-tests of array 4 and 5, with crews resident and without; cores 639, 640,
one that is not there, one retired and one that is not. -/
theorem witness_SystemFormsAnswer :
    let s := Tests.base
    let st := fun (w : Waiting) (x : Nat) => modGroup (Tests.st (fun g => { g with s := [(1, BitVec.ofNat 64 x)] })) (.user 0 0) 0
      (fun q => { q with waiting := w })
    let sp := fun (w : Waiting) (x : Nat) => modGroup (modGang { Tests.supBase with crews := [] } (.sup 0) (fun g =>
      { g with s := [(1, BitVec.ofNat 64 x)] })) (.sup 0) 0 (fun q => { q with waiting := w })
    let gone := modCore (sp .none 0) 0 (fun x => { x with retired := true })
    let bs := Instr.bankset (.s 1) .scratch
    let bi := Instr.bist (.s 2) (.s 1) (.k 3)
    let cr := Instr.coreret (.s 2) (.s 1)
    Tests.allRun s [.rdsys (.s 2) 0x210, .wrsys (.s 2) 0x210] = true ∧ Tests.allRun Tests.supBase [bs, bi, cr] = true
    ∧ Tests.allRun (st .none 1) [bs] = true ∧ Tests.allRun (st .none 0x20) [bs] = true ∧ Tests.allRun (st (.banks [] .scratch) 1) [bs] = true
    ∧ (core? s 0).map (fun x => (banksLeft x 1#32 .scratch, banksLeft x 1#32 .cache)) = some ([], [0])
    ∧ ownBanks s (Tests.iss s) = 0x1F#32 ∧ fifoHolds s 0 0 = false ∧ activeLanes (Tests.iss s).gang (Tests.iss s).q ≠ []
    ∧ (∀ w ∈ [Waiting.none, .bist none, .bist (some 1#64)], ∀ x ∈ [4, 5], Tests.allRun (sp w x) [bi] = true)
    ∧ (∀ x ∈ [0, 1, 639, 640], Tests.allRun (sp .none x) [cr] = true ∧ rdU (sp .none x) (Tests.iss (sp .none x)) (.s 1) = x)
    ∧ Tests.allRun (sp (.coreret 0 0) 0) [cr] = true ∧ crewsAt (sp .none 0) 0 = [] ∧ crewsAt Tests.supBase 0 ≠ []
    ∧ core? s 639 = none ∧ (core? s 0).map (fun x => x.retired) = some false ∧ (core? gone 0).map (fun x => x.retired) = some true
    ∧ crewsAt (retireCore (sp .none 0) 0).1 0 = [] ∧ crewsAt (retireCore Tests.supBase 0).1 0 ≠ [] := by
  decide +kernel

/-- One lane of a load from memory, from a lost byte, from a bank that is gone and from host memory with the port down; of an atomic that opens a window and one whose
window closes; the reads and fences; a spilled operand; a store that may leave and none; a store on its way. -/
theorem witness_FlightEvents :
    let g : GRef := .user 0 0
    let ld := Tests.flying (.load false) (.phys 0) none
    let lost := { ld with lost := [(0, 1#128)] }
    let gone := modCore (Tests.flying (.load false) (.scr 0) none) 0 (fun x => { x with modes := 0#64 })
    let at' := Tests.flying (.atomic .add) (.phys 0) none
    let st := Tests.st (fun x => { x with buf := [⟨7, 7, 0, seedPc, .phys 0, [1#8], .dev, true, false, 0⟩], n := 640, vbase := 0, vbound := 8 })
    let way := Tests.st (fun x => { x with sysq := [⟨7, 7, 0, [1#8]⟩] })
    let ok := fun (s : State) => match flightOf? s g 9 with
      | some (x, f) => onCore s g && f.elems.all (fun e => e.lane == 3 && e.win.isNone && elemReady s g x f e && !windowHeld s g f e)
      | none => false
    let cut := { Tests.flying (.load false) (.phys (2 ^ 51)) none with hostPortDown := true }
    let off := fun (s : State) => (flightOf? s g 9).map (fun p => p.2.elems.map (cutOff s g p.1 p.2))
    let see := fun (s : State) => (flightOf? s g 9).map (fun p => p.2.elems.map (fun e =>
      (bankGone s g e, windowed s g p.2 e, (performElem s g p.2 e).2, (openWindow s g p.2 e).2)))
    (∀ s ∈ [ld, lost, gone, at', cut], ok s = true)
    ∧ (∀ s ∈ [ld, lost, at'], off s = some [false]) ∧ off cut = some [true] ∧ regionOf (2 ^ 51) = .host
    ∧ see ld = some [(false, false, false, false)] ∧ (see lost).map (fun l => l.map (fun e => (e.1, e.2.1, e.2.2.1))) = some [(false, false, true)]
    ∧ (see gone).map (fun l => l.map (fun e => e.1)) = some [true] ∧ (see at').map (fun l => l.map (fun e => (e.1, e.2.1, e.2.2.2))) = some [(false, true, false)]
    ∧ (flightOf? (Tests.flying (.atomic .add) (.phys 0) (some 5)) g 9).map (fun p => p.2.elems.map (fun e => e.win)) = some [some 5]
    ∧ (flightOf? (Tests.flying .sysread (.phys 0) none) g 9).map (fun p => p.2.kind) = some .sysread
    ∧ (match flightOf? (Tests.st (fun x => { x with flights := [{ Tests.flight .fence (.phys 0) none with elems := [] }] })) g 9 with
       | some (x, f) => (match fenceRelease (Tests.st (fun x => { x with flights := [f] })) g x f with | some (_, ts) => ts.isEmpty | none => false)
       | none => false) = true
    ∧ (gang? st g).map (fun x => (x.vbound - x.vbase, x.spilled == [])) = some (8, true)
    ∧ (gang? st g).map (fun x => ((drainChoices st g x 7).length, (drainChoices st g x 6).length)) = some (1, 0)
    ∧ (gang? way g).map (fun x => (x.sysq.find? (fun b => b.seq == 7)).isSome) = some true := by
  decide +kernel

/-- Two lanes of one store that may leave in either order. -/
theorem witness_FlightEvents_lanes :
    let s := Tests.st (fun x => { x with buf := [0, 1].map (fun l => ⟨7, 7, l, seedPc, .phys (8 * l), [1#8], .dev, true, false, 0⟩) })
    ∃ x b, gang? s (.user 0 0) = some x ∧ 1 < (drainChoices s (.user 0 0) x 7).length
      ∧ (drainChoices s (.user 0 0) x 7)[(Config.freeValue s.fresh).toNat % (drainChoices s (.user 0 0) x 7).length]? = some b := by
  intro s
  have h : (gang? s (.user 0 0)).map (fun x => (drainChoices s (.user 0 0) x 7).length) = some 2 := by decide +kernel
  obtain ⟨x, hx, hl⟩ := Option.map_eq_some_iff.mp h
  obtain ⟨b, hb⟩ := Tests.free_index (drainChoices s (.user 0 0) x 7) (Config.freeValue s.fresh).toNat (List.ne_nil_of_length_pos (by omega))
  exact ⟨x, b, hx, by omega, hb⟩

/-- A load of one lane into a register, into a pair with a predicate, and into a queue register. -/
theorem witness_LoadsWriteTheirDestinations :
    let s := Tests.flying (.load false) (.phys 0) none
    let f := Tests.flight (.load false) (.phys 0) none
    let fs := [f, { f with size := .b64, rp := some 15 }, { f with dst := .q 0 }]
    (gang? s (.user 0 0)).isSome = true ∧ (∀ f ∈ fs, (f.elems.map (fun e => e.lane)).Nodup ∧ ∀ e ∈ f.elems, e.lane < 64)
    ∧ fs.map (fun f => (f.dst, f.size.is64, f.rp)) = [(.v 4, false, none), (.v 4, true, some 15), (.q 0, false, none)]
    ∧ qcfgUsable s (.user 0 0) (qCfg s (.user 0 0) 0) = true ∧ (crewOf? s (.user 0 0)).isSome = true := by
  decide +kernel

/-- A scratchpad store, one released at DEV to device memory, and one that stays in the copies of a core with a bank of cache. -/
theorem witness_StoresWriteTheirBytes :
    let s := Tests.base
    let g : GRef := .user 0 0
    let cached := modCore s 0 (fun x => { x with modes := 0x55#64 })
    (crew? s 0).map (fun cr => scrMode s cr 5) = some true
    ∧ [s, cached].all (fun s => (refusalOf s (classOf g) (ctxOf s g) 0 .write).isNone && (stamped s 0).isNone) = true ∧ (regionOf 0 != .regs) = true
    ∧ atPoint s (coreOf s g) (pointOf (gangPair s g) .dev) = .home ∧ [0, 1, 2, 3].all (fun i => homeIsMem s (0 + i)) = true
    ∧ (List.range 4).all (fun i => ((coreCopy? s (coreOf s g) (0 + i)).map (fun v => v.dirty)).getD false == false) = true
    ∧ atPoint cached (coreOf cached g) (pointOf (gangPair cached g) .crew) = .core
    ∧ (core? cached (coreOf cached g)).map (fun y => decide (y.cp.length + 4 ≤ cacheLines y)) = some true := by
  decide +kernel

/-- A line at home, one of host memory, one that level two holds clean and one that it does not hold; a copy at a core point, dirty and
clean. -/
theorem witness_LineEvents :
    let s := Tests.base
    let cached := fun d => modCore s 0 (fun x => { x with modes := 0x55#64, cp := [(3, ⟨1#8, d, false⟩)] })
    let held := { s with l2 := [(0, ⟨false, false⟩)] }
    let see := fun d => (spillPending (cached d) 0 3, (coreCopy? (cached d) 0 3).map (fun v => v.dirty))
    let spilt := Tests.st (fun x => { x with n := 640, vbase := 0, vbound := 8, unhomed := [64 * 8 + 1] })
    (homeIsMem s 0 = true ∧ homeIsMem s (2 ^ 51) = false ∧ reachable s (2 ^ 51) = true ∧ copyable s 0 = true ∧ atPoint (cached false) 0 .core = .core
      ∧ Tab.find? s.l2 (5 / 128) = none ∧ (Tab.find? held.l2 (5 / 128)).map (fun l => l.dirty) = some false)
    ∧ see true = (false, some true) ∧ see false = (false, some false) ∧ coreCopy? (cached false) 0 0 = none
    ∧ (gang? spilt (.user 0 0)).map (fun x => spillPending spilt 0 (spillAddr x (64 * 8 + 1))) = some true
    ∧ (crew? s 0).map (fun cr => scrMode s cr 5) = some true
    ∧ (core? (cached false) 0).map (fun x => x.cp.all (fun p => !p.2.dirty) && x.cp.any (fun p => p.1 / 128 == 0)) = some true := by
  decide +kernel

/-- The host at its memory, at device memory that it owns and does not own, refused and with the port down; a peer at device memory and at
its own; a line the host has read. -/
theorem witness_LineEvents_outside :
    let s := Tests.base
    let owned := { s with hostOwned := [0] }
    (hostHolds s (2 ^ 51) = true ∧ hostHolds owned 0 = true ∧ isDeviceMem 0 = true)
    ∧ [s, owned].all (fun s => !s.hostPortDown && !deviceStopped s && refusalOf s .host 1 0 .write == none && refusalOf s .host 1 0 .read == none) = true
    ∧ s.hostOwned.contains (0 / 4096) = false ∧ owned.hostOwned.contains (0 / 4096) = true ∧ owned.ownreq.dir = false
    ∧ { s with hostPortDown := true }.hostPortDown = true
    ∧ (refusalOf s .host 0 0 .write).isSome = true
    ∧ refusalOf s .peer 1 0 .write = none ∧ regionOf (2 ^ 50) = .peer
    ∧ { s with hostDir := [0] }.hostDir.contains (5 / 128) = true := by
  decide +kernel

/-- A copy command as CPY puts it into the queue. -/
def Tests.copy (segs : Nat) (done : List Nat) : CopyCmd :=
  { mkCopy Tests.base (Tests.iss Tests.base) 0 0 .cpy (rdB Tests.gang 3) 0 4 0 false none 0x402 with segs := segs, done := done }

theorem witness_EngineEvents :
    let st := fun (q : List CopyCmd) => modCore Tests.base 0 (fun x => { x with copyQ := q })
    let wait := fun (w : Waiting) => Tests.grp (fun q => { q with waiting := w })
    let held := Tests.grp (fun q => { q with persists := [0] })
    let g : GRef := .user 0 0
    (∃ i, (startable [Tests.copy 0 []])[(Config.freeValue (st [Tests.copy 0 []]).fresh).toNat % (startable [Tests.copy 0 []]).length]? = some i)
    ∧ (core? (st [Tests.copy 0 []]) 0).map (fun x => x.copyQ) = some [Tests.copy 0 []] ∧ startable [] = []
    ∧ (copyAt? (st [Tests.copy 1 []]) 0 0).map (fun m => (pieceOpen m 0, copyPieces m)) = some (true, 1)
    ∧ (copyAt? (st [Tests.copy 1 [0]]) 0 0).map (fun m => (List.range (copyPieces m)).all (fun k => m.done.contains k)) = some true
    ∧ switching (wait (.banks [0] .cache)) g 0 = some .cache ∧ engineNames (wait (.banks [0] .cache)) 0 0 = false
    ∧ fifoHolds (wait (.banks [0] .cache)) 0 0 = false
    ∧ (gang? held g).map persistOf = some (some 0)
    ∧ (match releaseTo held g .sys 0 held.cycle.toNat with | some (_, ts) => ts.isEmpty | none => false) = true
    ∧ (gang? (wait (.icinv [(0, 8)] false)) g).map icinvOf = some (some [(0, 8)])
    ∧ (match release (wait (.icinv [(0, 8)] false)) g .dev with | some (_, ts) => ts.isEmpty | none => false) = true :=
  ⟨Tests.free_index _ _ (by decide +kernel), by decide +kernel⟩

/-- A free order keeps every entry. -/
theorem Tests.insertFree_length {α : Type} (k : Nat) (key : α → Nat) (e : α) (os : List α) : (insertFree k key e os).length = os.length + 1 := by
  induction os with
  | nil => rfl
  | cons o os ih => simp only [insertFree]; split <;> simp [ih]

theorem Tests.freeOrder_length {α : Type} (k : Nat) (key : α → Nat) (es : List α) : (freeOrder k key es).length = es.length := by
  have h : ∀ (es os : List α), (es.foldl (fun os e => insertFree k key e os) os).length = os.length + es.length := by
    intro es
    induction es with
    | nil => intro os; rfl
    | cons e es ih => intro os; simp [ih, Tests.insertFree_length]; omega
  exact (h es []).trans (Nat.zero_add _)

/-- Blocks find room where they do packed. -/
theorem Tests.blocksFor_some (pack : Bool) (k lo hi align size n : Nat) (used : List (Nat × Nat))
    (h : (blocksAt true k lo hi align size n used).isSome = true) : (blocksFor pack k lo hi align size n used).isSome = true := by
  unfold blocksFor
  cases blocksAt pack k lo hi align size n used with
  | none => exact h
  | some _ => rfl

/-- A seat is found where there are slots, banks, room for the registers and no limit in the way. -/
theorem Tests.seatOn_some (s : State) (pack : Bool) (core side : Nat) (l : Launch) (c : Nat) (want : Option Banks)
    (hs : (sideGangs l.pair l.gangs side).length ≤ (freeSlots s core).length)
    (hb : (match want with
      | some w => (bankList w.all).all (freeBanks s core).contains
      | none => decide ((l.spb + l.ffb) / (if l.pair then 2 else 1) ≤ (freeBanks s core).length)) = true)
    (hr : (blocksAt true (s.fresh + 256 * side + 96) 0 (2 ^ 20) (4 * l.width) (c * (4 * l.width)) (sideGangs l.pair l.gangs side).length
      (regBlocks s core)).isSome = true)
    (hl : ((launchesAt s core).map (fun x => x.bars)).sum + l.bars ≤ 64 ∧ ((launchesAt s core).map (fun x => x.acct)).sum + l.acct ≤ 4) :
    (seatOn s pack core side l c want).isSome = true := by
  have hlen : ((freeOrder (s.fresh + 256 * side) (fun i => i) (freeSlots s core)).take (sideGangs l.pair l.gangs side).length).length
      = (sideGangs l.pair l.gangs side).length := by
    rw [List.length_take, Tests.freeOrder_length]; omega
  obtain ⟨as, ha⟩ := Option.isSome_iff_exists.mp (Tests.blocksFor_some pack _ _ _ _ _ _ _ hr)
  unfold seatOn
  cases want with
  | some w => simp only at hb; simp only [hb, ha, hlen, hl, if_true, and_self, Option.isSome_some]
  | none => simp only [decide_eq_true_eq] at hb; simp only [hb, ha, hlen, hl, if_true, and_self, Option.isSome_some]

/-- A crew of one side has a seat where its first count finds one. -/
theorem Tests.seats_some (s : State) (pack : Bool) (cap core c : Nat) (cs : List Nat) (l : Launch) (want : Option (Banks × Banks))
    (hu : seatable s l core = true) (hc : physCounts l cap = c :: cs) (hp : l.pair = false)
    (h : (seatOn s pack core 0 l c (want.map (fun w => w.1))).isSome = true) : (seats s pack cap core l want).isSome = true := by
  obtain ⟨a, ha⟩ := Option.isSome_iff_exists.mp h
  simp [seats, hu, hc, seatsWith, ha, hp]

theorem Tests.placeNext_some (s : State) (pack : Bool) (cap k : Nat) (l : Launch) (a : Nat × List Seat) (sp : List Nat) (core : Nat)
    (hl : launch? s k = some l) (ha : bestSeat s pack cap l = some (core, a)) (hb : backing s pack l = some sp) :
    placeNext s pack cap k = some (placeAt s k l core a.1 a.2 sp) := by
  simp [placeNext, hl, ha, hb]

/-- A machine with one core and a launch of one crew, to be placed or among the crews. -/
def Tests.unseated (coop : Bool) : Launch := { seedLaunch with spb := 4, ffb := 1, next := 0, coop := coop }
def Tests.placing (coop : Bool) (crews : Tab Crew) : State :=
  { Tests.base with
    regions := Tab.set (0#64, 0#64) Tests.base.regions 15 (1#64, 0x1FF7FF0000#64), crews := crews, cores := [(0, Core.reset)]
    launches := [(0, Tests.unseated coop)] }
def Tests.savedCrew : Crew := { seedCrew with phase := .saved, gangs := [(0, Tests.gang)], banks0 := ⟨0x1F#32, 0xF#32⟩ }

/-- Room to place a crew. -/
theorem witness_CrewEvents_place :
    ∃ t, ((Tests.placing false []).launches.filter (fun p => mayPlace (Tests.placing false []) p.1 p.2)).findSome?
      (fun p => placeNext (Tests.placing false []) false p.2.nreg p.1) = some t := by
  let s := Tests.placing false []
  have hs : (seats s false 640 0 (Tests.unseated false) none).isSome = true :=
    Tests.seats_some s false 640 0 640 [] (Tests.unseated false) none (by decide +kernel) (by decide +kernel) rfl
      (Tests.seatOn_some s false 0 0 (Tests.unseated false) 640 none (by decide +kernel) (by decide +kernel) (by decide +kernel) (by decide +kernel))
  have hf : s.launches.filter (fun p => mayPlace s p.1 p.2) = [(0, (Tests.unseated false))] := by decide +kernel
  have hb : (backing s false (Tests.unseated false)).isSome = true :=
    (congrArg Option.isSome (if_neg (by decide +kernel : ¬(!(Tab.get (0#64, 0#64) s.regions 15).1.getLsbD 0) = true))).trans
      (Tests.blocksFor_some false _ _ _ _ _ _ _ (by decide +kernel))
  obtain ⟨a, ha⟩ := Option.isSome_iff_exists.mp hs
  obtain ⟨b, hb⟩ := Option.isSome_iff_exists.mp hb
  have hbest : bestSeat s false 640 (Tests.unseated false) = some (0, a) := by
    show (([(0, Core.reset)] : Tab Core).foldl _ none).map _ = _
    simp [ha]
  show ∃ t, (s.launches.filter (fun p => mayPlace s p.1 p.2)).findSome? (fun p => placeNext s false p.2.nreg p.1) = some t
  rw [hf]
  have hp := Tests.placeNext_some s false 640 0 (Tests.unseated false) a b 0 (by decide +kernel) hbest hb
  refine ⟨placeAt s 0 (Tests.unseated false) 0 a.1 a.2 b, ?_⟩
  change placeNext s false (Tests.unseated false).nreg 0 = _ at hp
  simp only [List.findSome?_cons]
  rw [hp]

/-- A saved crew with room to resume. -/
theorem Tests.resumes (coop : Bool) : (resumeAt (Tests.placing coop [(0, Tests.savedCrew)]) false 640 0 0).isSome = true := by
  have hs : (seats (Tests.placing coop [(0, Tests.savedCrew)]) false 640 0 (Tests.unseated coop)
      (some (Tests.savedCrew.banks0, Tests.savedCrew.banks1))).isSome = true := by
    cases coop <;> exact
      Tests.seats_some _ false 640 0 640 [] _ _ (by decide +kernel) (by decide +kernel) rfl
        (Tests.seatOn_some _ false 0 0 _ 640 _ (by decide +kernel) (by decide +kernel) (by decide +kernel) (by decide +kernel))
  have hq : (queueRoom (Tests.placing coop [(0, Tests.savedCrew)]) 0 0 Tests.savedCrew) = true := by cases coop <;> decide +kernel
  obtain ⟨a, ha⟩ := Option.isSome_iff_exists.mp hs
  simp only [resumeAt, (by cases coop <;> decide +kernel : crew? (Tests.placing coop [(0, Tests.savedCrew)]) 0 = some Tests.savedCrew),
    (by cases coop <;> decide +kernel : launch? (Tests.placing coop [(0, Tests.savedCrew)]) Tests.savedCrew.launch = some (Tests.unseated coop)), hq, ha]
  rfl

theorem witness_CrewEvents_resume : ∃ t, resumeAt (Tests.placing false [(0, Tests.savedCrew)]) false 640 0 0 = some t :=
  Option.isSome_iff_exists.mp (Tests.resumes false)

/-- The one crew of a cooperative launch. -/
theorem witness_CrewEvents_resumeAll : ∃ t, resumeAll (Tests.placing true [(0, Tests.savedCrew)]) (Tests.unseated true) 0 0 = some t := by
  obtain ⟨t, ht⟩ := Option.isSome_iff_exists.mp (Tests.resumes true)
  refine ⟨t, ?_⟩
  simp only [resumeAll, (by decide +kernel : physCounts (Tests.unseated true) (Tests.unseated true).nreg = [640]), List.findSome?_cons, ht,
    (by decide +kernel : ((Tests.placing true [(0, Tests.savedCrew)]).crews.filter (fun p => p.2.launch ==
      ((crew? (Tests.placing true [(0, Tests.savedCrew)]) 0).map (fun cr => cr.launch)).getD 0 && p.1 != 0 && p.2.phase != .ended)).map (fun p => p.1) = [])]
  rfl

/-- An unwind that may complete, one whose work is not yet done and one in the cycle of its throw. -/
theorem witness_CrewEvents_unwinds :
    let s := Tests.base
    let t := throwLanes s (.user 0 0) seedPc [(0, 5)] false none
    let late := fun (s : State) => { s with cycle := 1#64, unwinds := s.unwinds.map (fun p => (p.1, { p.2 with closed := true })) }
    let busy := throwLanes (Tests.inBody (Tests.st (fun x => { x with sysq := [⟨0, 0, 2 ^ 51, [1#8]⟩], marks := [1], seq := 2, buf := [⟨1, 1, 0, seedPc, .phys 0, [0#8], .dev, true, false, 0⟩] })))
      (.user 0 0) seedPc [(0, 5)] false none
    let span := fun (s : State) => modLaunch s 0 (fun l => { l with span := some 1 })
    (Tab.find? t.unwinds 0).map (fun u => u.closed) = some false
    ∧ (match Tab.find? (late t).unwinds 0 with
       | some u => u.closed && crewsHere (late t) u && (match cancelWork (late t) 0 u with
         | (s₁, true) => (match Tab.find? s₁.unwinds 0 with
           | some w => (match releaseMembers s₁ w (membersOf s₁ w) with | some (_, []) => true | _ => false)
           | none => false)
         | _ => false)
       | none => false) = true
    ∧ (match Tab.find? (late busy).unwinds 0 with
       | some u => u.closed && crewsHere (late busy) u && !(cancelWork (late busy) 0 u).2
       | none => false) = true
    ∧ (launch? (span s) 0).map (fun l => l.span) = some (some 1) ∧ (span s).unwinds = []
    ∧ ((span t).unwinds.filter (fun p => !p.2.closed && spanWide (span t) p.2 && p.2.launch == 0)).length = 1 := by
  decide +kernel

/-- An unwind whose record is to be written: of its crew, with the throw of one lane. -/
theorem witness_CrewEvents_record :
    let t := throwLanes Tests.base (.user 0 0) seedPc [(0, 5)] false none
    (match Tab.find? t.unwinds 0 with
     | some u => (crewsOf t u == [0]) && (crew? t 0).isSome && (launch? t u.launch).isSome && decide (u.level < 4) && decide (u.depth < 16)
         && decide (gangMask t u < 2 ^ 32) && (throwsOf t u == [⟨0, 0, 0, 0, 5⟩])
     | none => false) = true := by
  decide +kernel

/-- Its words by R340 to R342: code 5, the region of a launch that no region saves, one throwing lane of one crew, SEQ 1, lane 0 of gang 0, and
the code list's one entry. -/
theorem test_record_words :
    let t := throwLanes Tests.base (.user 0 0) seedPc [(0, 5)] false none
    ((Tab.find? t.unwinds 0).bind (fun u => crew? (unwound t 0 u) 0)).map (fun cr => [0, 1, 2, 7, 8, 9, 72, 73].map (wordAt cr.rcd))
      = some [5, 0x100030000, 0x100000001, 1, 1, 0, 5, 0] := by
  decide +kernel

/-- A crew halted, one at its end, a saved one that a core cannot take, and no room to place. -/
theorem witness_CrewEvents :
    let s := Tests.base
    let halt := modCrew s 0 (fun cr => { cr with halting := true })
    let saved := Tests.placing false [(0, Tests.savedCrew)]
    let ended := modGang s (.user 0 0) (fun x => { x with ended := some 0 })
    (crew? halt 0).map (fun cr => (cr.halting, cr.phase == .resident)) = some (true, true)
    ∧ (settleUnwinds halt 0).2 = true ∧ crewSavable (settleUnwinds halt 0).1 0 = true
    ∧ (let cut := (crewCores (settleUnwinds halt 0).1 0).foldl (fun s k => finishCopies s 0 k) (settleUnwinds halt 0).1
       (crewCores cut 0).all (copiesSavable cut 0) && (drainCrew cut 0 [0]).isSome) = true
    ∧ crew? saved 0 = some Tests.savedCrew ∧ Tests.savedCrew.phase = .saved ∧ launch? saved 0 = some (Tests.unseated false)
    ∧ launchOf? saved (.user 0 0) = some (Tests.unseated false) ∧ queueRoom saved 0 0 Tests.savedCrew = true ∧ (resumeAt saved false 640 0 7).isSome = false
    ∧ (match crew? ended 0 with | some cr => crewOver ended 0 cr && (drainCrew ended 0 [0]).isSome && !onSysWay ended 0 | none => false) = true
    ∧ (s.launches.filter (fun p => mayPlace s p.1 p.2)) = [] := by
  decide +kernel

theorem witness_QueueEvents :
    let s := Tests.base
    let ended := { modLaunch s 0 (fun l => { l with stopping := true, compl := seedPc }) with crews := [], access := Tab.set 0xC0#16 s.access 0 0x3FFF#16 }
    let span := modLaunch s 0 (fun l => { l with span := some 1 })
    let home := settleHome ended
    let full := { s with launches := (List.range 256).map (fun k => (k, seedLaunch)), missed := 3, beatNext := some 9#32, exchanging := true }
    s.launches.length = 1 ∧ (launch? s 0).map (fun l => launchOver s 0 l) = some false
    ∧ (launch? ended 0).map (fun l => launchOver ended 0 l) = some true ∧ (launch? home 0).isSome = true
    ∧ (match launch? home 0 with | some l => (match hfLocate home l.queue l.ctx (some 0) true (pagePieces l.compl 1024) with | .ok _ _ => true | _ => false) | none => false) = true
    ∧ (match launch? home 0 with | some l => (match hfLocate home l.queue l.ctx (some 0) true (pagePieces 0 1024) with | .bad _ => true | _ => false) | none => false) = true
    ∧ s.exchanging = false ∧ s.cycle.toNat % 2 ^ s.beat.toNat = 0 ∧ (launch? span 0).map (fun l => l.span) = some (some 1)
    ∧ full.launches.length = 256 ∧ full.beatNext = some 9#32 ∧ full.exchanging = true ∧ full.cycle.toNat % 2 ^ full.beat.toNat = 0
    ∧ (1#4).getLsbD s.lead = true ∧ (14#4).getLsbD s.lead = false ∧ s.missed < 3 ∧ 3 ≤ full.missed ∧ 4 ≤ { s with missed := 4 }.missed
    ∧ [0, 1, 2, 3].find? (fun d => !(Tab.get Die.reset (modDie s s.lead (fun d => { d with failed := true })).dies d).failed) = some 1 := by
  decide +kernel

theorem witness_HostEvents :
    let s := Tests.base
    let claimed := { s with claims := Tab.set Claim.reset s.claims 5 { Claim.reset with state := 1 } }
    let ring := { s with ring := { s.ring with en := true, waiting := [5] } }
    let tinv := { s with tinv := { s.tinv with busy := true } }
    let own := fun d => { s with ownreq := { s.ownreq with marked := some 3, dir := d } }
    let r : PageReq := ⟨1, 7, 1, 0, 1, none, [], none⟩
    let p : PageOp := ⟨0, 0x402, 1, [], true⟩
    let asked := { s with pageReqs := [r], pageRegs := Tab.set PageRegs.reset s.pageRegs 1 { PageRegs.reset with en := true }, pageOps := [p] }
    (claim claimed 5).state = 1 ∧ (claim claimed 5).deadline ≤ claimed.cycle.toNat ∧ eventRingOpen ring = true ∧ ring.ring.waiting = [5]
    ∧ s.tinv.busy = false ∧ tinv.tinv.busy = true ∧ (allGangs s).any (fun g => onTheWay g.2 (inBlock 3)) = false
    ∧ (allGangs tinv).any (fun g => onTheWay g.2 (fun pa => (s.xlats.filter (tinvDrops s.tinv)).any (fun x => x.ctx == ctxOf s g.1 && xlatHolds x pa))) = false
    ∧ copyOnTheWay tinv (fun ctx pa => (s.xlats.filter (tinvDrops s.tinv)).any (fun x => x.ctx == ctx && xlatHolds x pa)) = false
    ∧ copyOnTheWay (own false) (fun _ pa => inBlock 3 pa) = false
    ∧ (own false).ownreq.marked = some 3 ∧ (own false).ownreq.dir = false ∧ (own true).ownreq.dir = true
    ∧ asked.pageReqs.find? (fun r => r.fn == 1 && r.tag.isNone && r.answer.isNone) = some r ∧ pageRingOpen asked 1 = true
    ∧ (∃ tag, (freeTags asked 1)[(Config.freeValue asked.fresh).toNat % (freeTags asked 1).length]? = some tag)
    ∧ { asked with pageReqs := [{ r with tag := some 8 }] }.pageReqs.find? (fun r => r.fn == 1 && r.tag == some 8) = some { r with tag := some 8 }
    ∧ asked.pageReqs.find? (fun r => r.fn == 1 && r.tag == some 9) = none
    ∧ asked.pageOps.find? (fun p => p.crew == 0 && p.op == 0x402) = some p ∧ p.pages = [] :=
  by repeat' first | apply And.intro | exact Tests.free_index _ _ (by decide +kernel) | decide +kernel

theorem witness_StartEvents :
    let s := State.reset
    let warm := { s with start := { s.start with pending := some true } }
    let core := modCore Tests.base 0 (fun x => { x with svflt := true, bist := some (4, 3) })
    s.start.pending = some false ∧ warm.start.pending = some true ∧ warm.start.wfail ≠ 3 ∧ { s with attestGo := true }.attestGo = true
    ∧ (lmargOf { s with lmarg := Tab.set Lmarg.reset s.lmarg 18 { Lmarg.reset with scan := some 0 } } 18).scan ≠ none
    ∧ (core? core 0).map (fun x => (x.svflt, x.bist)) = some (true, some (4, 3)) := by
  decide +kernel

theorem witness_RegisterEvents :
    let s := Tests.base
    let t := { s with tick := ⟨0, true, 16, some (true, 4), true⟩ }
    s.hostPortDown = false ∧ deviceStopped s = false ∧ regionOf regBase = .regs ∧ regBase < 2 ^ 52 ∧ t.tick.next = some (true, 4) ∧ atEdge t = true ∧ t.tick.clr = true
    ∧ t.tick.en = true ∧ t.cycle.toNat % 1250 = 0 := by
  decide +kernel

theorem witness_PowerEvents :
    let s := Tests.base
    let up := { s with ports := [(17, ⟨false, 0#16, 4⟩)] }
    powerLimitNow s = 2000000 ∧ s.powerEngaged = false ∧ { s with powerEngaged := true }.powerEngaged = true
    ∧ s.coldPlate.contains 3 = false ∧ trained up 17 = true ∧ (portOf up 17).retired.getLsbD 7 = false ∧ (portOf up 17).down = false
    ∧ s.stoppedClock = false ∧ { s with stoppedClock := true }.stoppedClock = true := by
  decide +kernel

theorem witness_DecodeAfterEncode :
    (Instr.iadd ⟨⟨3, true⟩, .s16x2, true, .v 639, .imm 7#32, .k (-32)⟩).hasWords = true
    ∧ ∀ i ∈ [Instr.iadd ⟨⟨3, true⟩, .s16x2, true, .v 639, .k 95, .imm 7#32⟩, .mmaSp ⟨⟨15, false⟩, 15, .s 127, .k (-32), 639, 3, 0xFFFFF, 0⟩ 1,
        .clauseHeader true 15 11 0xFFF#12], i.wf = true ∧ i.hasWords = true := by
  decide +kernel

theorem witness_EncodeAfterDecode :
    (match decode [0x81#8, 0x00#8, 0x02#8, 0x08#8, 0x08#8, 0x19#8, 0#8, 0#8, 0xFF#8] with | .ok p => p.2 | .error _ => 0) = 8 := by
  decide +kernel

/-- The machine with code at its program counter. -/
def Tests.code (w : Nat) : State := { Tests.base with mem := Tests.base.mem.writeN 0 (toLE 16 w), blocked := none }

/-- A fetch: 0 bytes that decode, 1 bytes that do not, 2 a trap, 3 a wait. -/
def Tests.fetched (s : State) : Nat :=
  match fetchInsn (releaseYield { s with agenda := [], blocked := none } (.user 0 0)) (.user 0 0) (lowQuad (Tests.iss s).q) (Tests.iss s).q.pageFail
      (Tests.iss s).q.pc with
  | .ok _ bs => match decode bs with | .ok _ => 0 | .error _ => 1
  | .trap _ _ _ => 2
  | .wait _ => 3

/-- A turn that runs an instruction, one that is blocked, one that is a header, an illegal word, a fetch that traps and one that waits,
an entry that is no header, a suspended gang, a supervisor that yields, a stopped clock, a taken pipe, an event, and no turn left. -/
theorem witness_StepRunsTheAgenda :
    let g : GRef := .user 0 0
    let turn := fun (s : State) => s.agenda == [.issue g 0] && !s.stoppedClock && (issuerOf? s g 0 == some (Tests.iss s))
      && !(Tests.iss s).q.ended && !pipeTaken s g (Tests.iss s).gang
    let may := fun (s : State) => turn s && !suspended s g (Tests.iss s).gang && !groupHeld s (Tests.iss s)
    let fresh := modGang { Tests.code 1 with agenda := [.issue g 0] } g (fun x => { x with groups := [QGroup.start 0xFF#16 seedPc] })
    let odd := modGroup (Tests.code 1) g 0 (fun q => { q with pc := seedPc + 2 })
    let shut := { Tests.closing with cores := Tab.put Tests.base.cores 0 { Core.reset with modes := 0x255#64 } }
    let held := modGang (Tests.code 1) g (fun x => { x with halted := true })
    let y := modGroup Tests.supBase (.sup 0) 0 (fun q => { q with yieldAt := some 0 })
    let taken := modCore (Tests.code 1) 0 (fun x => { x with issued := 15#4 })
    (may (Tests.code 1) = true ∧ Tests.fetched (Tests.code 1) = 0) ∧ (may (Tests.code 0) = true ∧ Tests.fetched (Tests.code 0) = 0)
    ∧ (may (Tests.code 0x61) = true ∧ Tests.fetched (Tests.code 0x61) = 1) ∧ (may odd = true ∧ Tests.fetched odd = 2)
    ∧ (may shut = true ∧ Tests.fetched shut = 3) ∧ (may fresh = true ∧ entryNeedsHeader fresh (Tests.iss fresh) = true)
    ∧ (turn held = true ∧ suspended held g (Tests.iss held).gang = true)
    ∧ yielding y 0 (Tests.iss y).q = true ∧ pipeTaken taken g (Tests.iss taken).gang = true
    ∧ (match exec (.nop) (Tests.code 1) with | .next t => t.blocked.isNone | _ => false) = true
    ∧ (match exec (.bara 2) (modBar Tests.base 0 2 (fun y => { y with exp := 1, arr := 1 })) with | .next t => t.blocked.isSome | _ => false) = true
    ∧ (match exec (.clauseHeader false 15 15 0#12) (Tests.code 0) with | .next t => t.blocked.isNone && (issuerOf? t g 0).isSome | _ => false) = true
    ∧ State.reset.agenda = [] ∧ State.reset.start.pending = some false ∧ { Tests.base with agenda := [] }.start.pending = none := by
  decide +kernel

/-- An idle group that passes an instruction; illegal words that name no target, a target that is good and one that is bad; a header's
place among the turns; an event in a device that waits for its start and one that reaches it. -/
theorem witness_StepRunsTheAgenda_words :
    let idle := modGroup (Tests.code 1) (.user 0 0) 0 (fun q => { q with idle := true })
    let judged := fun (ext : Nat) => let s := Tests.code (0x406 + ext * 2 ^ 64)
      (Tests.fetched s, ((Raw.ofWord 0x406 ext).parse).map (fun p => match targetCheck s (Tests.iss s) p.ins with | .ok _ => 0 | .trap _ _ => 1 | .wait _ => 2))
    passedOver (Tests.iss idle) (.bara 2) = true ∧ Tests.fetched idle = 0
    ∧ (match exec (.bara 2) idle with | .next t => t.blocked.isNone && (issuerOf? t (.user 0 0) 0).isSome | _ => false) = true
    ∧ (match decode (toLE 8 0x61) with | .error _ => true | .ok _ => false) = true ∧ (Raw.ofWord 0x61 0).parse = none
    ∧ judged 16 = (1, some 0) ∧ judged 2 = (1, some 1)
    ∧ (match exec (.clauseHeader true 15 15 0#12) (Tests.code 0) with
       | .next t => t.blocked.isNone && (issuerOf? t (.user 0 0) 0).isSome && (candOf t (.issue (.user 0 0) 0)).isSome
       | _ => false) = true
    ∧ deviceIdle State.reset = true ∧ reachesStoppedDevice .beatEnd = false ∧ reachesStoppedDevice .powerOn = true
    ∧ deviceIdle Tests.base = false := by
  decide +kernel

theorem witness_EveryStepAnswers : State.reset.AgendaOk ∧ Tests.base.AgendaOk ∧ (Instr.nop).hasWords = true
    ∧ issuer? Tests.base = some (Tests.iss Tests.base) ∧ (Tests.iss Tests.base).q.ended = false ∧ (Instr.beatEnd).hasWords = false := by
  refine ⟨fun i h => ?_, fun i h => ?_, by decide +kernel⟩
  · cases h
  · cases h with | tail _ h => cases h

theorem witness_StepKeepsTheInvariant :
    Tests.base.Inv ∧ (match step Tests.base with | .next _ => true | _ => false) = true := by
  refine ⟨⟨?_, fun i h => ?_⟩, by decide +kernel⟩
  · show Tests.base.mem.wf = true
    decide +kernel
  · cases h with | tail _ h => cases h

theorem witness_ResetValues : regionOf 0 = .gddr ∧ regionOf 0x1FF7FFFFFF = .gddr := by decide

/-! ### Values: the manual's worked examples, and small sums done by hand from its rules -/

/-- What an instruction leaves of the issuing gang. -/
def Tests.after (i : Instr) (s : State) : Option Gang := match exec i s with | .next t => gang? t (.user 0 0) | _ => none

/-- Words in lane 0 of vector registers. -/
def Tests.words (vs : List (Nat × Nat)) (x : Gang) : Gang := vs.foldl (fun x p => wrV x p.1 0 p.2) x

/-- Lane 0 of v1 after an instruction on words of lane 0. -/
def Tests.lane0 (i : Instr) (vs : List (Nat × Nat)) : Option Nat := (Tests.after i (Tests.st (Tests.words vs))).map (fun x => rdV x 1 0)

/-- A two-operand form on v2 and v3, a one-operand form on v2, both into v1. -/
def Tests.bin (ty : Ety) (sat : Bool) : Bin := ⟨Guard.all, ty, sat, .v 1, .v 2, .v 3⟩
def Tests.un (ty : Ety) (sat : Bool) : Un := ⟨Guard.all, ty, sat, .v 1, .v 2⟩

/-- R156 to R161: the examples of IADD, IMULH, SHL and BFX are the manual's. -/
theorem test_integer_values :
    Tests.lane0 (.iadd (Tests.bin .s16x2 true)) [(2, 0x7FF00010), (3, 0x0020FFF0)] = some 0x7FFF0000
    ∧ Tests.lane0 (.isub (Tests.bin .u32 true)) [(2, 3), (3, 5)] = some 0
    ∧ Tests.lane0 (.isub (Tests.bin .u8x4 false)) [(2, 0x00000100), (3, 0x00000001)] = some 0x000001FF
    ∧ Tests.lane0 (.imul (Tests.bin .s32 false)) [(2, 0xFFFFFFFF), (3, 2)] = some 0xFFFFFFFE
    ∧ Tests.lane0 (.imulh (Tests.bin .u32 false)) [(2, 0xFFFFFFFF), (3, 2)] = some 1
    ∧ Tests.lane0 (.imulh (Tests.bin .s32 false)) [(2, 0xFFFFFFFF), (3, 2)] = some 0xFFFFFFFF
    ∧ Tests.lane0 (.imad ⟨Guard.all, .s32, false, .v 1, .v 2, .v 3, .v 4⟩) [(2, 3), (3, 0xFFFFFFFC), (4, 5)] = some 0xFFFFFFF9
    ∧ Tests.lane0 (.iabs (Tests.un .s32 true)) [(2, 0x80000000)] = some 0x7FFFFFFF
    ∧ Tests.lane0 (.ineg (Tests.un .u32 true)) [(2, 5)] = some 0
    ∧ Tests.lane0 (.imin (Tests.bin .s32 false)) [(2, 0xFFFFFFFF), (3, 1)] = some 0xFFFFFFFF
    ∧ Tests.lane0 (.imax (Tests.bin .u32 false)) [(2, 0xFFFFFFFF), (3, 1)] = some 0xFFFFFFFF
    ∧ Tests.lane0 (.and (Tests.bin .u32 false)) [(2, 0xF0F0), (3, 0xFF00)] = some 0xF000
    ∧ Tests.lane0 (.or (Tests.bin .u32 false)) [(2, 0xF0F0), (3, 0xFF00)] = some 0xFFF0
    ∧ Tests.lane0 (.xor (Tests.bin .u32 false)) [(2, 0xF0F0), (3, 0xFF00)] = some 0x0FF0
    ∧ Tests.lane0 (.not (Tests.un .u32 false)) [(2, 0xF0F0)] = some 0xFFFF0F0F
    ∧ Tests.lane0 (.shl (Tests.bin .s32 true)) [(2, 0xC0000000), (3, 2)] = some 0x80000000
    ∧ Tests.lane0 (.shl (Tests.bin .s32 false)) [(2, 0xC0000000), (3, 2)] = some 0
    ∧ Tests.lane0 (.shr (Tests.bin .u32 false)) [(2, 0xFFFFFFFF), (3, 32)] = some 0
    ∧ Tests.lane0 (.sar (Tests.bin .s32 false)) [(2, 0x80000000), (3, 40)] = some 0xFFFFFFFF
    ∧ Tests.lane0 (.rot (Tests.bin .u32 false)) [(2, 0x80000001), (3, 33)] = some 3
    ∧ Tests.lane0 (.bfx (Tests.un .s32 false) (.imm 0xC1C#32)) [(2, 0xA0000000)] = some 0xFFFFFFFA
    ∧ Tests.lane0 (.bfi (Tests.bin .u32 false) (.imm 0x808#32)) [(2, 0xFF), (3, 0x12345678)] = some 0x1234FF78
    ∧ Tests.lane0 (.popc (Tests.un .u32 false)) [(2, 0xF0F0)] = some 8
    ∧ Tests.lane0 (.clz (Tests.un .s16x2 false)) [(2, 0x00010100)] = some 0x000F0007
    ∧ Tests.lane0 (.ctz (Tests.un .u8x4 false)) [(2, 0x80000110)] = some 0x07080004
    ∧ Tests.lane0 (.brev (Tests.un .u32 false)) [(2, 1)] = some 0x80000000 := by
  decide +kernel

/-- R157, R162 to R167: a pair moved from a scalar, a pointer 4 × 1 past 0xFFFF_FFFF, immediates, a choice, predicates and conditions. -/
theorem test_move_values :
    (Tests.after (.mov ⟨Guard.all, .u64, false, .v 6, .s 9⟩) (Tests.st (fun x => wrS x 9 0x1122334455667788))).map (fun x => (rdV x 6 31, rdV x 7 31))
      = some (0x55667788, 0x11223344)
    ∧ (Tests.after (.mov ⟨Guard.all, .u64, false, .s 2, .k (-1)⟩) Tests.base).map (fun x => rdS x 2) = some 0xFFFFFFFFFFFFFFFF
    ∧ (Tests.after (.lea ⟨Guard.all, .u64, false, .v 8, .v 8, .v 3⟩ 2) (Tests.st (Tests.words [(8, 0xFFFFFFFF), (3, 1)]))).map
      (fun x => (rdV x 8 0, rdV x 9 0)) = some (3, 1)
    ∧ (Tests.after (.movi Guard.all .s64 (.s 2) (.word 0x80000000#32)) Tests.base).map (fun x => rdS x 2) = some 0xFFFFFFFF80000000
    ∧ (Tests.after (.movi Guard.all .u64 (.s 2) (.word 0x80000000#32)) Tests.base).map (fun x => rdS x 2) = some 0x80000000
    ∧ Tests.lane0 (.sel (Tests.bin .u32 false) 5 true) [(2, 1), (3, 2)] = some 1
    ∧ Tests.lane0 (.sel (Tests.bin .u32 false) 5 false) [(2, 1), (3, 2)] = some 2
    ∧ (Tests.after (.icmp Guard.all .lt .s32 3 (.v 2) (.v 3)) (Tests.st (Tests.words [(2, 0xFFFFFFFF), (3, 1)]))).map (fun x => (rdP x 3 0, rdP x 3 1))
      = some (true, false)
    ∧ (Tests.after (.icmpc .gt .u64 7 (.s 1) (.k 0)) Tests.base).map (fun x => x.c) = some 0x80#16
    ∧ (Tests.after (.plop Guard.all 3 1 2 0x4#4) (Tests.st (fun x => { x with pr := [(0, 2#16), (1, 6#16)] }))).map (fun x => (rdP x 3 0, rdP x 3 1))
      = some (true, false)
    ∧ (Tests.after (.clop 0 1 2 0xE#4) (Tests.st (fun x => { x with c := 4#16 }))).map (fun x => x.c) = some 5#16
    ∧ (Tests.after (.pmov Guard.all (.bit 4 (.s 1))) Tests.base).map (fun x => (rdP x 4 0, rdP x 4 1)) = some (true, false)
    ∧ (Tests.after (.pmov Guard.all (.fromPred (.v 1) 0)) Tests.base).map (fun x => rdV x 1 7) = some 1 := by
  decide +kernel

/-- R168 to R174: neighbours swapped, the exclusive scan of R172 and the appended slots of Table 8-3, whose word then holds 15. -/
theorem test_lane_values :
    let four := fun (p : Nat) (ls : List Nat) => Tests.st (fun x => ls.foldl (fun x l => wrV (wrP x p l true) 1 l 1) { x with s := [(4, 0x100#64), (5, 24#64)] })
    let some' := four 2 [2, 3, 7, 12]
    let five := four 2 [1, 4, 6, 9, 14]
    let queue := modCrew five 0 (fun cr => { cr with scr := Memory.writeN [] 0x100 (toLE 4 10) })
    (Tests.after (.shfl Guard.all .xor .u32 (.v 2) (.v 1) (.k 1)) some').map (fun x => (rdV x 2 6, rdV x 2 7, rdV x 2 13)) = some (1, 0, 1)
    ∧ (Tests.after (.shfl Guard.all .up .u32 (.v 2) (.v 1) (.k 32)) some').map (fun x => (rdV x 2 2, rdV x 2 1)) = some (1, 0)
    ∧ (Tests.after (.bcast Guard.all .u32 (.v 2) (.v 1) (.k 12)) some').map (fun x => rdV x 2 31) = some 1
    ∧ (Tests.after (.ballot Guard.all (.s 1) 2) some').map (fun x => rdS x 1) = some 0x108C
    ∧ (Tests.after (.red ⟨2, false⟩ .add .u32 false (.s 1) 1) some').map (fun x => rdS x 1) = some 4
    ∧ (Tests.after (.red ⟨5, false⟩ .min .s32 false (.s 1) 1) some').map (fun x => rdS x 1) = some 0x7FFFFFFF
    ∧ (Tests.after (.pscan ⟨2, false⟩ .add false .u32 false (.v 3) (.v 1)) some').map (fun x => [2, 3, 7, 12, 13].map (rdV x 3)) = some [0, 1, 2, 3, 0]
    ∧ (Tests.after (.append ⟨2, false⟩ (.v 8) (.s 4) (.s 5)) queue).map (fun x => [1, 4, 6, 9, 14, 0].map (rdV x 8)) = some [10, 11, 12, 13, 14, 0]
    ∧ (match exec (.append ⟨2, false⟩ (.v 8) (.s 4) (.s 5)) queue with
       | .next t => (crew? t 0).map (fun cr => leNat (cr.scr.readN 0x100 4))
       | _ => none) = some 15 := by
  decide +kernel

/-- R177 to R184: Table 9-3 with and without SAT, signed zeros, NaN rules, and the exact cases of the approximated functions. -/
theorem test_float_values :
    let fma := fun (sat : Bool) => Tests.lane0 (.fma ⟨Guard.all, .bf16x2, sat, .v 1, .v 2, .v 3, .v 4⟩) [(2, 0x40003F81), (3, 0x40403F7E), (4, 0x3F00BF80)]
    let un := fun (i : Un → Instr) (x : Nat) => Tests.lane0 (i (Tests.un .f32 false)) [(2, x)]
    let bin := fun (i : Bin → Instr) (x y : Nat) => Tests.lane0 (i (Tests.bin .f32 false)) [(2, x), (3, y)]
    fma false = some 0x40D0B880 ∧ fma true = some 0x3F800000
    ∧ bin .fadd 0x3F800000 0x3F800000 = some 0x40000000 ∧ bin .fadd 0x7F7FFFFF 0x7F7FFFFF = some 0x7F800000
    ∧ bin .fsub 0x3F800000 0x3F800000 = some 0 ∧ bin .fmul 0x80000000 0x40000000 = some 0x80000000
    ∧ bin .fmul 0x7F800000 0 = some 0x7FC00000 ∧ bin (.fmin false) 0x7F800001 0x3F800000 = some 0x3F800000
    ∧ bin (.fmin true) 0x7F800001 0x3F800000 = some 0x7FC00000 ∧ bin (.fmax false) 0x80000000 0 = some 0
    ∧ un .fabs 0xFF800001 = some 0x7F800001 ∧ un .fneg 0 = some 0x80000000 ∧ bin .fscale 0x3F800000 3 = some 0x41000000
    ∧ un .frcp 0x80000000 = some 0xFF800000 ∧ un .frsq 0x7F800000 = some 0 ∧ un .fsqrt 0x40800000 = some 0x40000000
    ∧ un .fsqrt 0xBF800000 = some 0x7FC00000 ∧ un .fexp2 0x40400000 = some 0x41000000 ∧ un .flog2 0x41000000 = some 0x40400000
    ∧ un .fsin 0x3F000000 = some 0x3F800000 ∧ un .fcos 0x3F800000 = some 0xBF800000 ∧ un .ftanh 0xFF800000 = some 0xBF800000
    ∧ (Tests.after (.fcmp Guard.all .ne 3 (.v 2) (.v 2)) (Tests.st (Tests.words [(2, 0x7FC00000)]))).map (fun x => (rdP x 3 0, rdP x 3 1)) = some (true, false)
    ∧ (Tests.after (.fcmpc .eq 2 (.s 2) (.k 0)) (Tests.st (fun x => wrS x 2 0x80000000))).map (fun x => rdC x 2) = some true
    ∧ (Tests.after (.fclass Guard.all 3 (.v 2) 0x381#10) (Tests.st (Tests.words [(2, 0x7F800001)]))).map (fun x => (rdP x 3 0, rdP x 3 1)) = some (true, false) := by
  decide +kernel

/-- R185 to R189: the manual's conversions. 5.0 becomes the E2M1 value 4, whose code is 6 by R70 (notes/assumptions/33). -/
theorem test_conversion_values :
    let cvt := fun (t f : Fmt) (sat : Bool) (si di x : Nat) => Tests.lane0 (.cvt Guard.all t f sat (.v 1) (.v 3) si di) [(1, 0x11223344), (3, x)]
    let mx := fun (x : Nat) => Tests.lane0 (.cvtmx Guard.all .e2m1 (.v 1) (.v 3) (.v 4) 0) [(3, x), (4, 127)]
    cvt .e4m3 .f32 true 0 2 0x43FA0000 = some 0x117E3344 ∧ cvt .e4m3 .f32 false 0 2 0x43FA0000 = some 0x117F3344
    ∧ cvt .f32 .s32 false 0 0 16777217 = some 0x4B800000 ∧ cvt .bf16 .f32 false 0 0 0x3F808000 = some 0x11223F80
    ∧ cvt .bf16 .f32 false 0 0 0x3F818000 = some 0x11223F82 ∧ cvt .s32 .f32 false 0 0 0x40200000 = some 2
    ∧ cvt .s32 .f32 false 0 0 0xC0600000 = some 0xFFFFFFFC ∧ cvt .u32 .s8 false 3 0 0xFF000000 = some 0xFFFFFFFF
    ∧ cvt .u32 .s8 true 3 0 0xFF000000 = some 0
    ∧ mx 0x40A00000 = some 6 ∧ mx 0xBFA00000 = some 0xA ∧ mx 0x3E4CCCCD = some 0
    ∧ Tests.lane0 (.cvtmxScale Guard.all .e2m1 (.v 1) (.v 3)) [(3, 0x40A00000)] = some 127 := by
  decide +kernel

/-- Counters of lanes 0 to 3 and SD behind an instruction, before which they are as given (with p2, p3 and p5 as Table 7-3 has them). -/
def Tests.loop (i : Instr) (cs : List Nat) (sd : Nat) : Option (List Nat × Nat) :=
  let s := Tests.st (fun x => { x with
    cnt := (List.range 32).map (fun l => (l, BitVec.ofNat 8 (cs.getD l 1))), pr := [(0, 0#16), (1, 0xC#16), (2, 0x24#16)]
    groups := x.groups.map (fun q => { q with sd := sd, loops := if sd = 0 then [] else [(seedPc + 64, 1)] }) })
  (Tests.after i s).map (fun x => ([0, 1, 2, 3].map (counterOf x), (x.groups.map (fun q => q.sd)).headD 99))

/-- Table 7-3, step by step. -/
theorem test_loop_steps :
    Tests.loop .loop [0, 0, 0, 1] 0 = some ([0, 0, 0, 3], 1) ∧ Tests.loop (.cont ⟨5, false⟩) [0, 0, 0, 3] 1 = some ([0, 0, 1, 3], 1)
    ∧ Tests.loop (.ifI ⟨2, false⟩ 0 9) [0, 0, 1, 3] 1 = some ([1, 0, 2, 4], 2)
    ∧ Tests.loop (.brk ⟨3, false⟩) [1, 0, 2, 4] 2 = some ([1, 3, 2, 4], 2) ∧ Tests.loop .endif [1, 3, 2, 4] 2 = some ([0, 2, 1, 3], 1)
    ∧ Tests.loop .endloop [0, 2, 1, 3] 1 = some ([0, 2, 0, 3], 1) ∧ Tests.loop .elseI [0, 1, 2, 4] 2 = some ([1, 0, 2, 4], 2) := by
  decide +kernel

/-- Where the first group of the gang is behind an instruction, and lr. -/
def Tests.goes (i : Instr) (s : State) : Option (Nat × Nat) := (Tests.after i s).map (fun x => ((x.groups.map (fun q => q.pc)).headD 0, x.lr.toNat))

/-- R130, R140 to R142: offsets count four bytes from the instruction; CALL notes the address behind it, with PK where it was guarded;
CALLV calls the lowest lane's target first, comes back to the header before it and resumes behind lane 0. -/
theorem test_flow_values :
    let s := Tests.one
    let back := Tests.st (fun x => { x with lr := BitVec.ofNat 64 (seedPc + 0x40 + 3 + 5 * 2 ^ 57), cnt := [(1, 1#8)] })
    let v := Tests.st (fun x => { wrV x 5 1 0x80 with s := [(1, BitVec.ofNat 64 (seedPc + 0x100))] })
    Tests.goes .nop s = some (seedPc + 8, 0) ∧ Tests.goes (.bra (.off 0x10#32)) s = some (seedPc + 0x40, 0)
    ∧ Tests.goes (.brc false 3 0x10#32) s = some (seedPc + 0x40, 0) ∧ Tests.goes (.brc true 3 0x10#32) s = some (seedPc + 12, 0)
    ∧ Tests.goes (.call Guard.all (.off 0x10#32)) s = some (seedPc + 0x40, seedPc + 12)
    ∧ Tests.goes (.call ⟨2, false⟩ (.off 0x10#32)) s = some (seedPc + 0x40, seedPc + 12 + 1)
    ∧ Tests.goes (.callv Guard.all 5 1) v = some (seedPc + 0x100, seedPc - 8 + 3 + 2 ^ 57)
    ∧ (Tests.after .ret back).map (fun x => (x.groups.map (fun q => (q.pc, q.resume)), counterOf x 1)) = some ([(seedPc + 0x40, 5)], 0)
    ∧ Tests.goes (.waitp 3 0) s = some (seedPc + 8, 0)
    ∧ (Tests.after (.clauseHeader false 3 11 0x800#12) s).map (fun x => x.groups.map (fun q => (q.clause, q.llc, q.hdr))) = some [(some ⟨11, 3⟩, 0, true)]
    ∧ (Tests.after .gjoin s).map (fun x => x.groups.map (fun q => q.pc)) = some [seedPc + 8]
    ∧ (Tests.after .exit s).map (fun x => x.ended) = some (some seedPc) := by
  decide +kernel

/-- R48 to R51, R148 to R150. -/
theorem test_region_values :
    let s := Tests.base
    let crew := fun (i : Instr) (s : State) => match exec i s with | .next t => (crew? t 0).map (fun cr => cr.stack) | _ => none
    let launch := fun (i : Instr) (s : State) => match exec i s with | .next t => (launch? t 0).map (fun l => l.stack) | _ => none
    let opened := modLaunch (modCrew (Tests.st (fun x => { x with entered := [true, false] })) 0 (fun cr => { cr with stack := [8] })) 0
      (fun l => { l with stack := [16] })
    let thrown := fun (i : Instr) (s : State) => match exec i s with | .next t => t.unwinds.map (fun p => p.2.throws) | _ => []
    (Tests.after (.tryGang 0x10#32) s).map (fun x => x.stack) = some [⟨seedPc + 0x40, 0, 0⟩]
    ∧ (Tests.after .endtryGang (Tests.st (fun x => { x with stack := [⟨0, 0, 0⟩] }))).map (fun x => x.stack) = some []
    ∧ crew (.tryCrew 0x10#32) s = some [seedPc + 0x40] ∧ launch (.tryLaunch 0x10#32) s = some [seedPc + 0x40]
    ∧ crew .endtryCrew opened = some [] ∧ (Tests.after .endtryLaunch (Tests.st (fun x => { x with entered := [false] }))).map (fun x => x.entered) = some []
    ∧ thrown (.throw ⟨2, false⟩ (.k (-1))) Tests.one = [[(0, 0, 0, 0x7FFF)]]
    ∧ (thrown .rethrow (modCrew s 0 (fun cr => { cr with rcd := [(0, 0x8001#64)] }))).map (fun l => l.take 1) = [[(0, 0, 0, 0x8001)]]
    ∧ (Tests.after (.rdexr (.s 2) (.k 0)) (modCrew s 0 (fun cr => { cr with rcd := [(0, 7#64)] }))).map (fun x => rdS x 2) = some 7
    ∧ (Tests.after (.trap (.imm 0xBEEF#32)) s).map (fun x => x.trapped) = some (some 0xFF#16) := by
  decide +kernel

/-- R237 to R249, R254: what the issue of each memory form leaves. The watch of WAITA is on line 0. -/
theorem test_memory_values :
    let s := Tests.one
    let g : Guard := ⟨2, false⟩
    let m : GMem := ⟨g, .b32, .dev, .k 2, 3, some 1#32⟩
    let b : SMem := ⟨g, .b32, .crew, .k 64, .v 1, some 4#32⟩
    let flight := fun (i : Instr) (p : List Place) => match Tests.after i s with
      | some x => x.flights.map (fun f => f.elems.map (fun e => e.place)) == [p] && x.flights.all (fun f => f.elems.all (fun e => e.lane == 0))
      | none => false
    let stored := fun (i : Instr) (p : Place) (bs : List Byte) => match Tests.after i s with
      | some x => x.buf.map (fun e => e.place) == [p] && x.buf.map (fun e => e.bytes) == [bs]
      | none => false
    flight (.ld m false (.v 4)) [.phys 12] = true ∧ flight (.ldRp m false (.v 4) 1) [.phys 12] = true
    ∧ flight (.lds b false (.v 4)) [.scr 68] = true ∧ flight (.atom .add m (.v 4) (.k 1)) [.phys 12] = true
    ∧ flight (.atoms .add b (.v 4) (.k 1)) [.scr 68] = true ∧ flight (.fence .dev (.s 8)) [] = true
    ∧ stored (.st m (.k (-2))) (.phys 12) [0xFE#8, 0xFF#8, 0xFF#8, 0xFF#8] = true
    ∧ stored (.sts { b with size := .b16, base := .k 6, disp := none } (.k 1)) (.scr 6) [1#8, 0#8] = true := by
  decide +kernel

theorem test_order_values :
    let s := Tests.one
    (Tests.after (.waita .ne .b32 .dev (.s 6) (.k 0) 3 (.s 1) none) s).map (fun x => rdS x 6) = some 0
    ∧ (Tests.after (.waita .eq .b32 .dev (.s 6) (.k 0) 3 (.s 1) none) s).map (fun x => x.groups.map (fun q => q.watch.map (fun w => w.line))) = some [some 0]
    ∧ (Tests.after .persist s).map (fun x => x.groups.map (fun q => q.persists)) = some [[0]]
    ∧ (Tests.after (.qstat false (.s 2) 0 9) s).map (fun x => (rdS x 2, x.c)) = some (1 + 128 * 2 ^ 16 + 2 ^ 32, 0#16)
    ∧ (Tests.after (.mov ⟨⟨2, false⟩, .u32, false, .v 5, .q 0⟩) s).map (fun x => rdV x 5 0) = some 7 := by
  decide +kernel

/-- A load's data, R242: bytes F0 FF of an element of 16 bits, with and without SX. The completion counter falls by one. -/
theorem test_load_returns :
    let f := fun (sx : Bool) => { Tests.flight (.load sx) (.phys 0) none with size := .b16 }
    let s := fun sx => { Tests.st (fun x => { x with flights := [f sx], k := [(2, 1)], seq := 1 }) with
      mem := Tests.base.mem.writeN 0 [0xF0#8, 0xFF#8] }
    let r := fun sx => (Tests.after (.loadDataReturn (.user 0 0) 9 8#64) (s sx)).map (fun x => (rdV x 4 3, rdK x 2))
    r true = some (0xFFFFFFF0, 0) ∧ r false = some (0xFFF0, 0) := by
  decide +kernel

/-- R243 to R245: an atomic add in the scratchpad of 5 to 7 gives the old value and leaves 12; CAS leaves the word where it differs. -/
theorem test_atomic_returns :
    let s := fun (op : AtomOp) => modCrew (Tests.st (fun x => { x with
      flights := [{ Tests.flight (.atomic op) (.scr 0) none with scope := .crew }], seq := 1 })) 0 (fun cr => { cr with scr := Memory.writeN [] 0 [7#8] })
    let r := fun op => match exec (.loadDataReturn (.user 0 0) 9 8#64) (s op) with
      | .next t => (gang? t (.user 0 0)).map (fun x => (rdV x 4 3, (crew? t 0).map (fun cr => leNat (cr.scr.readN 0 4))))
      | _ => none
    r .add = some (7, some 12) ∧ r .cas = some (7, some 7) ∧ r .umax = some (7, some 7) ∧ r .xchg = some (7, some 5) := by
  decide +kernel

/-- The state behind an instruction, read by a function; nothing where it does not answer a next state. -/
def Tests.reads {α : Type} (i : Instr) (s : State) (f : State → α) : Option α := match exec i s with | .next t => some (f t) | _ => none

/-- R280 to R302: commands in the queues of the core with tokens, futures, and barriers. -/
theorem test_engine_values :
    let s := Tests.one
    let x : Copy := ⟨Guard.all, 1, .k 4, .k 64, .k 16, 3, some 2⟩
    let copies := fun (i : Instr) => match exec i s with
      | .next t => ((core? t 0).map (fun c => c.copyQ.map (fun m => (m.first, m.count, m.off)))).getD []
      | _ => []
    let matrix := fun (i : Instr) => match exec i s with | .next t => ((core? t 0).map (fun c => c.mxQ.length)).getD 0 | _ => 0
    copies (.cpy x false false) = [(4, 16, 64)] ∧ copies (.cpyM { x with bar := none } 3#8) = [(4, 16, 64)]
    ∧ copies (.cpyX { x with c := .k 2 } false true) = [(0, 2, 64)] ∧ matrix (.accz Guard.all 1 2) = 1
    ∧ matrix (.wdset Guard.all 1 (.k 4) 0) = 1 ∧ matrix (.mfence Guard.all 1) = 1 ∧ matrix (.accdr Guard.all 1 (.k 0) .f32 0) = 1 := by
  decide +kernel

theorem test_future_values :
    let s := Tests.one
    let fut := fun (o : OpStatus) => modCrew (Tests.st (fun x => { x with f := [(2, 0x402#32)] })) 0 (fun cr =>
      { cr with ops := [(2, ⟨1, true, o, 1#64, false, .copy, 0⟩)] })
    (Tests.after (.ftest 2 5 none) (fut .ok)).map (fun x => rdC x 5) = some true
    ∧ (Tests.after (.ftest 2 5 none) (fut .unresolved)).map (fun x => rdC x 5) = some false
    ∧ Tests.reads (.fwait 2 none) (fut .unresolved) (fun t => t.blocked) = some (some .sync)
    ∧ (Tests.after (.fwait 2 (some 3)) (fut .ok)).map (fun x => rdS x 3) = some 1
    ∧ (Tests.after (.fimport 4 (.k 32)) (modCrew s 0 (fun cr => { cr with scr := Memory.writeN [] 32 (toLE 4 0x402) }))).map (fun x => rdF x 4) = some 0x402 := by
  decide +kernel

theorem test_barrier_values :
    let s := Tests.one
    let bar := fun (i : Instr) (b : Bar) => Tests.reads i (modBar s 0 2 (fun _ => b)) (fun t => (crew? t 0).map (fun cr => barOf cr 2))
    bar (.barinit 2 (.k 3)) ⟨1, 1, 5, true, true⟩ = some (some ⟨3, 0, 0, true, false⟩)
    ∧ bar (.bara 2) ⟨1, 0, 0, false, false⟩ = some (some ⟨1, 1, 0, false, false⟩)
    ∧ bar (.barexp 2 (.k 64)) ⟨1, 0, 0, false, false⟩ = some (some ⟨1, 0, 64, false, false⟩)
    ∧ (Tests.reads (.barw 2 true) s (fun t => t.blocked)) = some (some .sync) := by
  decide +kernel

/-- R305 to R310. -/
theorem test_transaction_values :
    let s := Tests.base
    let tk : Ticket := ⟨0x402, false, 0, [(0, true)]⟩
    let granted := modCrew (Tests.st (fun x => { x with f := [(2, 0x402#32)], tickets := [tk] })) 0 (fun cr =>
      { cr with ops := [(2, ⟨1, true, .ok, 0#64, false, .ticket, 0⟩)] })
    (Tests.after (.otdecl 4 (.k 0)) (modCrew s 0 (fun cr => { cr with scr := Memory.writeN [] 0 (toLE 8 1 ++ toLE 8 0 ++ toLE 8 (seedPc + 0x11)) }))).map
      (fun x => x.tickets.map (fun t => t.tiles)) = some [[(0, true), (1, true)]]
    ∧ (Tests.after (.otbegin 2) granted).map (fun x => (x.body, x.tickets)) = some (some tk, [])
    ∧ (Tests.after .otend (Tests.st (fun x => { x with body := some tk }))).map (fun x => x.body) = some none
    ∧ (Tests.after (.otround (.k 3)) s).map (fun x => x.round) = some 3 := by
  decide +kernel

/-- R312 to R325: the request of a trap is read by its supervisor, its write set answers its reads, and SVRET puts it into the gang; SVTHROW throws 0x800D. -/
theorem test_system_values :
    let s := Tests.asked true false 0
    let sup := fun (t : State) => gang? t (.sup 0)
    Tests.reads (.mbxrdNext (.s 2)) (Tests.asked false false 0) (fun t => (sup t).map (fun x => rdS x 2)) = some (some 0)
    ∧ Tests.reads (.mbxrdNext (.s 2)) Tests.supBase (fun t => (sup t).map (fun x => rdS x 2)) = some (some (2 ^ 64 - 1))
    ∧ Tests.reads (.mbxrdWord (.s 2) (.k 0) (.k 1)) s (fun t => (sup t).map (fun x => rdS x 2)) = some (some seedPc) := by
  decide +kernel

theorem test_request_values :
    let s := Tests.asked true false 0
    let wrote := modRequest s 0 0 (fun r => { r with writes := [(5, [(0, 77#64)])] })
    Tests.reads (.wrxv Guard.all (.k 0) (.k 9) 5 false) s (fun t => (requestIn t 0 0).map (fun r => readXv t r Tests.gang 5 3)) = some (some 9)
    ∧ Tests.reads (.wrxs (.k 0) (.k 9) 0x1005) s (fun t => (requestIn t 0 0).map (fun r => readXs t r Tests.gang 0x1005)) = some (some 9)
    ∧ (Tests.after (.svret (.k 0) 2) wrote).map (fun x => rdV x 5 0) = some 77
    ∧ (Tests.after (.svret (.k 0) 2) wrote).map (fun x => x.groups.map (fun q => q.pc)) = some [seedPc + 8]
    ∧ (Tests.after (.svret (.k 0) 2) wrote).map (fun x => x.trapped) = some none
    ∧ Tests.reads (.svthrow (.k 0) (.k 5)) s (fun t => t.unwinds.map (fun p => p.2.throws.take 1)) = some [[(0, 0, 0, 0x800D)]] := by
  decide +kernel

theorem test_supervisor_values :
    let s := Tests.asked true false 0
    let sup := fun (t : State) => gang? t (.sup 0)
    Tests.reads (.idivU32 ⟨⟨2, false⟩, .v 2, .v 4, .v 6⟩) Tests.one (fun t => (requestIn t 0 0).map (fun r => (r.cls, r.lanes))) = some (some (3, 1#64))
    ∧ Tests.reads (.bankset (.k 1) .scratch) s (fun t => t.blocked) = some none
    ∧ Tests.reads (.bist (.s 2) (.k 5) (.k 0)) s (fun t => (sup t).map (fun x => rdS x 2)) = some (some 3) := by
  decide +kernel

theorem test_core_values :
    let s := Tests.asked true false 0
    let sup := fun (t : State) => gang? t (.sup 0)
    Tests.reads (.coreret (.s 2) (.k 0)) { s with crews := [] } (fun t => ((sup t).map (fun x => rdS x 2), (core? t 0).map (fun c => c.retired)))
        = some (some 0, some true)
    ∧ Tests.reads (.wrsys (.k 3) 0x210) Tests.base (fun t => (crew? t 0).map (fun cr => cr.mxctl)) = some (some 1#32)
    ∧ Tests.reads (.iadd (Tests.bin .s32 false)) (modGang Tests.base (.user 0 0) (fun x => { x with n := 3 })) (fun t =>
        (requestIn t 0 0).map (fun r => (r.cls, r.cause))) = some (some (2, 8)) := by
  decide +kernel

/-- Some events: a write-back, a store that drains, a heartbeat, a claim, an access table, a link, the power limit. -/
theorem test_event_values :
    let s := Tests.base
    let dirty := modCore s 0 (fun x => { x with modes := 0x55#64, cp := [(3, ⟨9#8, true, false⟩)] })
    let st := Tests.st (fun x => { x with buf := [⟨7, 7, 0, seedPc, .phys 5, [1#8, 2#8], .dev, true, false, 0⟩] })
    Tests.reads (.coreWriteBack (some 0) 3) dirty (fun t => (t.mem.read 3, (core? t 0).map (fun c => c.cp.map (fun p => p.2.dirty)))) = some (9#8, some [false])
    ∧ Tests.reads (.bufDrain (.user 0 0) 7) st (fun t => (t.mem.read 5, t.mem.read 6, t.mem.read 7)) = some (1#8, 2#8, 0#8)
    ∧ Tests.reads (.heartbeat 1#4) { s with missed := 3 } (fun t => (t.missed, t.agenda.length)) = some (4, 2)
    ∧ Tests.reads .failover { s with missed := 4 } (fun t => (t.lead, t.missed)) = some (1, 0)
    ∧ Tests.reads (.accessTableWrite 0 3 0x3FFF#16) s (fun t => accessEntry t 0 3) = some 0x3FFF
    ∧ Tests.reads (.powerLimit 2000000) s (fun t => (t.power, t.powerEngaged)) = some (2000000, true)
    ∧ Tests.reads (.linkDown 4) { s with ports := [(4, ⟨false, 0#16, 1⟩)] } (fun t => (portOf t 4).down) = some true
    ∧ Tests.reads .hostPortDown s (fun t => t.hostPortDown) = some true
    ∧ Tests.reads (.functionLevelReset 1) s (fun t => t.crews.length) = some 1
    ∧ Tests.reads .powerOn s (fun t => t.start.pending) = some (some false)
    ∧ Tests.reads .beatWrite { s with beatNext := some 20#32 } (fun t => (t.beat, t.beatNext)) = some (20#32, none) := by
  decide +kernel


/-- R391 names SHA-512; the example "abc" of its standard, first eight bytes. -/
theorem test_sha512 : (sha512 [0x61#8, 0x62#8, 0x63#8]).take 8 = [0xdd#8, 0xaf#8, 0x35#8, 0xa1#8, 0x93#8, 0x61#8, 0x7a#8, 0xba#8] := by
  decide +kernel
end Slice0Tests
end

section
/-!
# Every step keeps the invariant (O7)

Memory changes in few places: by `Memory.write` at the home and the system point, at a peer's own write and as the firmware is loaded, and by
filters where a backing store or a start drops bytes. The agenda changes in few places too: the next cycle is laid out, a turn is added or
taken, the turns of a gang are renumbered. Every other function leaves both as they are. There is one rule for every function of the model
that makes a state, named `inv_` and the function's name: from a state that has the invariant it makes one that has it. The rules stand
in the order of the definitions, and each proof follows the branches of its function.

The proofs are elaborated one by one (`Elab.async false`): so many short ones, each waiting for the kernel in a thread of its own, would run out of
threads.
-/

namespace Sys2Proof.Machine
variable {s t : State}
set_option Elab.async false

/-- The invariant speaks of memory and of the agenda alone. -/
theorem State.Inv.frame (hm : t.mem = s.mem := by with_reducible rfl) (ha : t.agenda = s.agenda := by with_reducible rfl)
    (h : s.Inv) : t.Inv := by
  unfold State.Inv State.MemOk State.AgendaOk at *
  rw [hm, ha]; exact h

/-- A write of one byte keeps memory canonical (`Memory.wf_write`). -/
theorem State.Inv.memWrite {a : Nat} {b : Byte} (hm : t.mem = s.mem.write a b := by with_reducible rfl)
    (ha : t.agenda = s.agenda := by with_reducible rfl) (h : s.Inv) : t.Inv := by
  unfold State.Inv State.MemOk State.AgendaOk at *
  rw [hm, ha]; exact ⟨Memory.wf_write _ _ _ h.1, h.2⟩

theorem inv_ite {c : Prop} [Decidable c] (hs : s.Inv) (ht : t.Inv) : (if c then s else t).Inv := by
  split
  · exact hs
  · exact ht

theorem inv_foldl {α : Type} {f : State → α → State} {as : List α} (hs : s.Inv) (hf : ∀ t a, t.Inv → (f t a).Inv) :
    (as.foldl f s).Inv :=
  List.foldlRecOn as f hs (fun t ht a _ => hf t a ht)

theorem inv_foldl_fst {α β : Type} {f : State × β → α → State × β} {as : List α} {p : State × β} (hp : p.1.Inv)
    (hf : ∀ p a, p.1.Inv → (f p a).1.Inv) : (as.foldl f p).1.Inv :=
  List.foldlRecOn (motive := fun p => p.1.Inv) as f hp (fun p hp a _ => hf p a hp)

/-- The invariant holds of the next state, if there is one. -/
def OutInv : Out → Prop
  | .next s => s.Inv
  | _ => True

/-- The invariant holds of the state that an instruction's meaning answers with, however the instruction ends. -/
def Res.Inv : Res → Prop
  | .done s | .jump s _ | .stay s | .wait s _ | .trap s _ | .request s _ _ | .throw s _ | .throwAt s _ _ _ => s.Inv

/-! The same for the other answers that carry a state; an equation that a match brings gives back the state's invariant (`of_ok` and so on). -/

def Fetched.Inv : Fetched → Prop
  | .ok s _ | .bad s | .wait s => s.Inv
def Insn.Inv : Insn → Prop
  | .ok s _ | .trap s _ _ | .wait s => s.Inv
def HdrRes.Inv : HdrRes → Prop
  | .ok s | .trap s _ | .wait s => s.Inv
def HfRes.Inv {α : Type} : HfRes α → Prop
  | .ok s _ | .bad s | .wait s => s.Inv
def Accept.Inv : Accept → Prop
  | .done s | .held s => s.Inv

theorem Fetched.Inv.of_ok {r : Fetched} {bs} (h : r.Inv) (e : r = .ok t bs) : t.Inv := by subst e; exact h
theorem Fetched.Inv.of_bad {r : Fetched} (h : r.Inv) (e : r = .bad t) : t.Inv := by subst e; exact h
theorem Fetched.Inv.of_wait {r : Fetched} (h : r.Inv) (e : r = .wait t) : t.Inv := by subst e; exact h
theorem Insn.Inv.of_ok {r : Insn} {bs} (h : r.Inv) (e : r = .ok t bs) : t.Inv := by subst e; exact h
theorem Insn.Inv.of_trap {r : Insn} {c bs} (h : r.Inv) (e : r = .trap t c bs) : t.Inv := by subst e; exact h
theorem Insn.Inv.of_wait {r : Insn} (h : r.Inv) (e : r = .wait t) : t.Inv := by subst e; exact h
theorem HdrRes.Inv.of_ok {r : HdrRes} (h : r.Inv) (e : r = .ok t) : t.Inv := by subst e; exact h
theorem HdrRes.Inv.of_trap {r : HdrRes} {c} (h : r.Inv) (e : r = .trap t c) : t.Inv := by subst e; exact h
theorem HdrRes.Inv.of_wait {r : HdrRes} (h : r.Inv) (e : r = .wait t) : t.Inv := by subst e; exact h
theorem HfRes.Inv.of_ok {α : Type} {r : HfRes α} {x} (h : r.Inv) (e : r = .ok t x) : t.Inv := by subst e; exact h
theorem HfRes.Inv.of_bad {α : Type} {r : HfRes α} (h : r.Inv) (e : r = .bad t) : t.Inv := by subst e; exact h
theorem HfRes.Inv.of_wait {α : Type} {r : HfRes α} (h : r.Inv) (e : r = .wait t) : t.Inv := by subst e; exact h
theorem Accept.Inv.of_done {r : Accept} (h : r.Inv) (e : r = .done t) : t.Inv := by subst e; exact h
theorem Accept.Inv.of_held {r : Accept} (h : r.Inv) (e : r = .held t) : t.Inv := by subst e; exact h
theorem OutInv.of_next {r : Out} (h : OutInv r) (e : r = .next t) : t.Inv := by subst e; exact h

/-! What a match on a pair, or on a trail with its check, binds. -/

theorem inv_fst {α : Type} {p : State × α} {a : α} (h : p.1.Inv) (e : p = (t, a)) : t.Inv := by subst e; exact h

theorem inv_ite_fst {α : Type} {c : Prop} [Decidable c] {p q : State × α} (hp : p.1.Inv) (hq : q.1.Inv) :
    (if c then p else q).1.Inv := by
  split
  · exact hp
  · exact hq

theorem inv_ite_trail {α β : Type} {c : Prop} [Decidable c] {p q : (State × α) × β} (hp : p.1.1.Inv) (hq : q.1.1.Inv) :
    (if c then p else q).1.1.Inv := by
  split
  · exact hp
  · exact hq

theorem inv_trail {α β : Type} {p : (State × α) × β} {r : State × α} {b : β} (h : p.1.1.Inv) (e : p = (r, b)) : r.1.Inv := by
  subst e; exact h

end Sys2Proof.Machine
end

section
/-!
## Events, gangs, operands and the memory points

Raising events, the writes to gangs, crews and launches, the operands of an issue, and the bytes at the core and home points: of these
only the write at the home point and the one at the system point change memory, each byte by `Memory.write`.
-/

namespace Sys2Proof.Machine
variable {s t : State}
set_option Elab.async false

theorem inv_setClaim {e c} (hs : s.Inv) : (setClaim s e c).Inv := by
  unfold setClaim
  exact hs.frame

theorem inv_offerClaim {e} (hs : s.Inv) : (offerClaim s e).Inv := by
  unfold offerClaim
  exact .frame (h := inv_setClaim hs)

theorem inv_deliverClaim {e a b n} (hs : s.Inv) : (deliverClaim s e a b n).Inv := by
  induction n generalizing s e a b with
  | zero => exact hs
  | succ n ih =>
    unfold deliverClaim
    dsimp only
    split
    · exact .frame (h := inv_setClaim hs)
    · split
      · exact inv_setClaim hs.frame
      · split
        · exact inv_offerClaim (inv_setClaim hs.frame)
        · exact ih (inv_setClaim hs.frame)

theorem inv_countAt {n unit k} (hs : s.Inv) : (countAt s n unit k).Inv := by
  unfold countAt
  exact hs.frame

theorem inv_raiseClaim {e payload} (hs : s.Inv) : (raiseClaim s e payload).Inv :=
  inv_ite (inv_setClaim hs) (inv_ite (inv_offerClaim (inv_setClaim hs)) (inv_deliverClaim (inv_setClaim hs)))

theorem inv_finishClaim {e} (hs : s.Inv) : (finishClaim s e).Inv :=
  inv_ite (inv_setClaim hs) (inv_raiseClaim (inv_setClaim hs))

theorem inv_countDev {n k} (hs : s.Inv) : (countDev s n k).Inv :=
  inv_countAt hs

theorem inv_countCore {c n k} (hs : s.Inv) : (countCore s c n k).Inv :=
  inv_countAt hs

theorem inv_countDie {d n k} (hs : s.Inv) : (countDie s d n k).Inv :=
  inv_countAt hs

theorem inv_raiseEvent {e payload} (hs : s.Inv) : (raiseEvent s e payload).Inv :=
  inv_raiseClaim (inv_countDev hs)

theorem inv_modCore {c f} (hs : s.Inv) : (modCore s c f).Inv := by
  unfold modCore
  exact hs.frame

theorem inv_modDie {d f} (hs : s.Inv) : (modDie s d f).Inv := by
  unfold modDie
  exact hs.frame

theorem inv_modLive {n unit f} (hs : s.Inv) : (modLive s n unit f).Inv := by
  unfold modLive
  exact inv_ite (inv_modCore hs) (inv_ite (inv_modDie hs) hs.frame)

theorem inv_writeCounter {n unit w} (hs : s.Inv) : (writeCounter s n unit w).Inv := by
  unfold writeCounter
  exact .frame (h := inv_modLive hs)

theorem inv_applyCount {p} (hs : s.Inv) : (applyCount s p).Inv :=
  inv_ite (inv_raiseEvent (inv_modLive hs)) (inv_modLive hs)

theorem inv_applyEvents (hs : s.Inv) : (applyEvents s).Inv := by
  unfold applyEvents
  exact inv_applyCount (.frame (h := inv_applyCount hs.frame))

theorem inv_applyCounts (hs : s.Inv) : (applyCounts s).Inv := by
  unfold applyCounts
  extract_lets ev cs t u
  have ht : t.Inv := inv_foldl hs.frame fun _ _ hu => inv_applyCount hu
  have hu : u.Inv := by
    unfold u
    split
    · exact ht
    · exact inv_applyEvents ht
  exact hu.frame

theorem inv_modCrew {c f} (hs : s.Inv) : (modCrew s c f).Inv := by
  unfold modCrew
  exact hs.frame

theorem inv_modLaunch {l f} (hs : s.Inv) : (modLaunch s l f).Inv := by
  unfold modLaunch
  exact hs.frame

theorem inv_modGang {g f} (hs : s.Inv) : (modGang s g f).Inv := by
  unfold modGang
  split
  · exact inv_modCrew hs
  · exact inv_modCore hs

theorem inv_modGroup {g k f} (hs : s.Inv) : (modGroup s g k f).Inv :=
  inv_modGang hs

theorem inv_freshen (hs : s.Inv) : (freshen s).Inv := by
  unfold freshen
  exact hs.frame

theorem inv_throwAll {is code} (hs : s.Inv) : (throwAll s is code).Inv :=
  hs

theorem inv_throwAllOrNop {is code} (hs : s.Inv) : (throwAllOrNop s is code).Inv := by
  unfold throwAllOrNop
  split
  · exact hs
  · exact inv_throwAll hs

theorem inv_setFifo {g n q} (hs : s.Inv) : (setFifo s g n q).Inv := by
  unfold setFifo
  split
  · exact hs
  · exact inv_modCrew hs

theorem inv_popped {g n es} (hs : s.Inv) : (popped s g n es).Inv :=
  inv_setFifo hs

theorem inv_pushed {g n e} (hs : s.Inv) : (pushed s g n e).Inv :=
  inv_setFifo hs

theorem inv_popAll {g srcs xs bad} (hs : s.Inv) (e : popAll s g srcs = some (t, xs, bad)) : t.Inv := by
  induction s, srcs using popAll.induct (g := g) generalizing t xs bad with
  | case1 s => cases e; exact hs
  | case2 s n ty srcs heq => simp [popAll, heq] at e
  | case3 s n ty srcs f es heq ih =>
    simp only [popAll, heq] at e
    obtain ⟨r, hr, e⟩ := Option.map_eq_some_iff.1 e
    cases e
    exact ih (inv_popped hs) hr
  | case4 s o ty srcs hq ih =>
    simp only [popAll] at e
    obtain ⟨r, hr, e⟩ := Option.map_eq_some_iff.1 e
    cases e
    exact ih hs hr

theorem inv_addThrows {r ts} (hr : r.Inv) : (addThrows r ts).Inv := by
  unfold addThrows
  split
  · exact hr
  · cases r <;> exact hr

theorem inv_withDead {is bad k} (hk : ∀ is, (k is).Inv) : (withDead is bad k).Inv :=
  inv_addThrows (hk _)

theorem inv_withQueues {is srcs d k} (hs : s.Inv) (hk : ∀ t is xs, t.Inv → (k t is xs).Inv) :
    (withQueues s is srcs d k).Inv := by
  unfold withQueues
  split
  · split
    · exact hs
    · split
      · exact inv_withDead fun _ => hk _ _ _ (inv_popAll hs ‹_›)
      · exact hs
  · exact inv_throwAllOrNop hs

theorem inv_writeScalar {is d x} (hs : s.Inv) : (writeScalar s is d x).Inv := by
  unfold writeScalar
  dsimp only
  split <;> exact inv_modGang hs

theorem inv_landed {is ls d is64 f} (hs : s.Inv) : (landed s is ls d is64 f).Inv := by
  unfold landed
  split
  · exact inv_modGang hs
  · exact inv_pushed hs
  · exact hs

theorem inv_writeLanes {is ls d is64 f} (hs : s.Inv) : (writeLanes s is ls d is64 f).Inv :=
  inv_landed hs

theorem inv_laneOp {is gd d ty srcs f} (hs : s.Inv) : (laneOp s is gd d ty srcs f).Inv := by
  unfold laneOp
  refine inv_withQueues hs fun _ _ _ ht => ?_
  split
  · exact inv_writeScalar ht
  · exact inv_writeLanes ht

theorem inv_unOp {is x f} (hs : s.Inv) : (unOp s is x f).Inv :=
  inv_laneOp hs

theorem inv_binOp {is x f} (hs : s.Inv) : (binOp s is x f).Inv :=
  inv_laneOp hs

theorem inv_terOp {is x f} (hs : s.Inv) : (terOp s is x f).Inv :=
  inv_laneOp hs

theorem inv_predOp {is gd p srcs f} (hs : s.Inv) : (predOp s is gd p srcs f).Inv :=
  inv_withQueues hs fun _ _ _ ht => inv_modGang ht

theorem inv_condOp {is c ty a b f} (hs : s.Inv) : (condOp s is c ty a b f).Inv :=
  inv_modGang hs

theorem inv_failLaunch {k cause} (hs : s.Inv) : (failLaunch s k cause).Inv :=
  inv_modLaunch hs

theorem event_of_mem_tailReads {line i} (h : Turn.event i ∈ tailReads s line) : ∃ q, i = .tailRead q := by
  obtain ⟨q, _, e⟩ := List.mem_map.1 h
  cases e
  exact ⟨_, rfl⟩

theorem inv_fireWatch {line woken} (hs : s.Inv) : (fireWatch s line woken).Inv := by
  refine ⟨hs.1, fun i hi => ?_⟩
  rcases List.mem_append.1 hi with h | h
  · obtain ⟨q, rfl⟩ := event_of_mem_tailReads h
    rfl
  · exact hs.2 i h

theorem inv_fireScr {c line woken} (hs : s.Inv) : (fireScr s c line woken).Inv :=
  inv_modCrew hs

theorem inv_fillCount {line} (hs : s.Inv) : (fillCount s line).Inv := by
  unfold fillCount
  split
  · exact inv_countDie hs
  · exact inv_countDie hs
  · exact hs

theorem inv_l2WriteBack {line} (hs : s.Inv) : (l2WriteBack s line).Inv := by
  unfold l2WriteBack
  split
  · dsimp only
    split <;> exact inv_countDie hs.frame
  · exact hs

theorem inv_l2Evict {line} (hs : s.Inv) : (l2Evict s line).Inv := by
  unfold l2Evict
  exact .frame (h := inv_l2WriteBack hs)

theorem inv_countWire {n out} (hs : s.Inv) : (countWire s n out).Inv :=
  inv_freshen (inv_countDev (inv_countDev hs))

theorem inv_countPort {pa out} (hs : s.Inv) : (countPort s pa out).Inv := by
  unfold countPort
  split
  · exact inv_countWire hs
  · exact inv_countWire hs
  · exact inv_ite hs (inv_countWire hs)
  · exact inv_ite hs (inv_countWire hs)
  · exact hs

theorem inv_setStorer {k pa n} (hs : s.Inv) : (setStorer s k pa n).Inv := by
  unfold setStorer
  exact hs.frame

theorem inv_setZeroFar {line on} (hs : s.Inv) : (setZeroFar s line on).Inv := by
  unfold setZeroFar
  exact hs.frame

theorem inv_unflagFar {pa b} (hs : s.Inv) : (unflagFar s pa b).Inv :=
  inv_ite (inv_setZeroFar hs) hs

theorem inv_farPut {pa b} (hs : s.Inv) : (farPut s pa b).Inv := by
  unfold farPut
  extract_lets t u
  have ht : t.Inv := inv_unflagFar hs.memWrite
  have hu : u.Inv := by
    unfold u
    split
    · exact ht.frame
    · exact ht
  exact inv_fireWatch hu.frame

theorem inv_farWrite {pa b} (hs : s.Inv) : (farWrite s pa b).Inv := by
  unfold farWrite
  exact inv_farPut hs.frame

theorem inv_homeWriteBack {pa} (hs : s.Inv) : (homeWriteBack s pa).Inv := by
  unfold homeWriteBack
  split
  · dsimp only
    split
    · refine inv_setZeroFar ?_
      refine inv_foldl (inv_countPort hs) fun _ _ ht => ?_
      split
      · exact inv_farPut ht
      · exact ht
    · refine inv_foldl (inv_countPort hs) fun _ _ ht => ?_
      split
      · exact inv_farPut ht
      · exact ht
  · exact hs

theorem inv_farDrop {line} (hs : s.Inv) : (farDrop s line).Inv := by
  unfold farDrop
  exact inv_setZeroFar hs.frame

theorem inv_farLost {line cause} (hs : s.Inv) : (farLost s line cause).Inv :=
  inv_foldl (inv_farDrop hs) fun _ _ ht => inv_failLaunch ht

theorem inv_farSettle {line} (hs : s.Inv) : (farSettle s line).Inv := by
  unfold farSettle
  split
  · exact inv_farLost hs
  · exact inv_foldl hs fun _ _ ht => inv_homeWriteBack ht

theorem inv_farEvict {line} (hs : s.Inv) : (farEvict s line).Inv :=
  inv_farDrop (inv_ite (inv_farSettle hs) hs)

theorem inv_homeRoom {line} (hs : s.Inv) : (homeRoom s line).Inv := by
  unfold homeRoom
  split
  · exact hs
  · dsimp only
    split
    · exact hs
    · split
      · exact inv_farEvict (inv_l2Evict (inv_freshen hs))
      · exact hs

theorem inv_l2Fill {line} (hs : s.Inv) : (l2Fill s line).Inv := by
  unfold l2Fill
  exact inv_ite hs (.frame (h := inv_fillCount (inv_homeRoom hs)))

theorem inv_l2Dirty {line} (hs : s.Inv) : (l2Dirty s line).Inv := by
  unfold l2Dirty
  split
  · exact hs
  · exact hs.frame
  · exact .frame (h := inv_homeRoom hs)

theorem inv_l2Zero {line} (hs : s.Inv) : (l2Zero s line).Inv := by
  unfold l2Zero
  exact .frame (h := inv_homeRoom hs)

theorem inv_homeFill {pa as} (hs : s.Inv) : (homeFill s pa as).Inv := by
  unfold homeFill
  exact inv_ite (inv_l2Fill hs) (inv_ite hs (.frame (h := inv_countPort (inv_homeRoom hs))))

theorem inv_homeFetch {pa} (hs : s.Inv) : (homeFetch s pa).Inv :=
  inv_homeFill hs

theorem inv_dropHostCopy {pa} (hs : s.Inv) : (dropHostCopy s pa).Inv := by
  unfold dropHostCopy
  exact inv_ite hs.frame hs

theorem inv_homePut {pa b tied} (hs : s.Inv) : (homePut s pa b tied).Inv := by
  unfold homePut
  extract_lets t
  have ht : t.Inv := inv_dropHostCopy hs.frame
  exact inv_fireWatch (inv_ite (.memWrite (h := inv_l2Dirty ht)) (.frame (h := inv_setZeroFar (inv_homeRoom ht))))

theorem inv_homeWrite {pa b} (hs : s.Inv) : (homeWrite s pa b).Inv :=
  inv_homePut hs

theorem inv_sysWrite {pa b} (hs : s.Inv) : (sysWrite s pa b).Inv :=
  inv_ite (inv_homeWrite hs) (inv_farWrite hs)

theorem inv_countSlice {pa} (hs : s.Inv) : (countSlice s pa).Inv :=
  inv_countDie hs

theorem inv_countHome {c pa} (hs : s.Inv) : (countHome s c pa).Inv :=
  inv_ite (inv_countSlice hs) (inv_freshen (inv_countDie (inv_countDie (inv_countSlice hs))))

theorem inv_coreByteHome {c keep a} (hs : s.Inv) : (coreByteHome s c keep a).Inv := by
  unfold coreByteHome
  split
  · exact inv_homePut (inv_modCore hs)
  · exact hs

theorem inv_coreWriteBack {c pa} (hs : s.Inv) : (coreWriteBack s c pa).Inv := by
  unfold coreWriteBack
  split
  · extract_lets m t
    have ht : t.Inv := inv_foldl hs fun _ _ ht => inv_coreByteHome ht
    exact inv_ite ht (inv_modCore ht.frame)
  · exact hs

theorem inv_coreLineHome {c line} (hs : s.Inv) : (coreLineHome s c line).Inv :=
  inv_ite (inv_foldl (inv_countHome hs) (fun _ _ ht => inv_coreWriteBack ht)) hs

theorem inv_coreEvict {c line} (hs : s.Inv) : (coreEvict s c line).Inv :=
  inv_modCore (inv_coreLineHome hs)

theorem inv_coreRoom {c pa} (hs : s.Inv) : (coreRoom s c pa).Inv := by
  unfold coreRoom
  split
  · exact hs
  · split
    · exact hs
    · dsimp only
      split
      · exact hs
      · split
        · exact inv_coreEvict (inv_freshen hs)
        · exact hs

theorem inv_coreFill {c pa as} (hs : s.Inv) : (coreFill s c pa as).Inv :=
  inv_ite hs (inv_modCore (inv_coreRoom hs))

theorem inv_coreFetch {c pa} (hs : s.Inv) : (coreFetch s c pa).Inv :=
  inv_coreFill hs

theorem inv_coreDirty {c pa b tied} (hs : s.Inv) : (coreDirty s c pa b tied).Inv :=
  inv_modCore (inv_coreRoom hs)

theorem inv_coreDiscardClean {c} (hs : s.Inv) : (coreDiscardClean s c).Inv :=
  inv_modCore hs

theorem inv_peerDiscardClean (hs : s.Inv) : (peerDiscardClean s).Inv := by
  unfold peerDiscardClean
  exact hs.frame

theorem inv_readAt {c p pa} (hs : s.Inv) : (readAt s c p pa).1.Inv := by
  unfold readAt
  split
  · split
    · exact hs
    · exact inv_coreFetch (inv_homeFetch hs)
  · exact inv_homeFetch (inv_coreWriteBack hs)
  · exact inv_ite (inv_l2Fill (inv_homeWriteBack (inv_coreWriteBack hs))) (inv_countPort (inv_homeWriteBack
      (inv_coreWriteBack hs)))

theorem inv_coreClean {c pa b} (hs : s.Inv) : (coreClean s c pa b).Inv :=
  inv_modCore hs

theorem inv_writeAt {c p pa b tied} (hs : s.Inv) : (writeAt s c p pa b tied).Inv := by
  unfold writeAt
  split
  · exact inv_coreDirty hs
  · exact inv_coreClean (inv_homePut (inv_coreWriteBack hs))
  · exact inv_coreClean (inv_sysWrite (inv_homeWriteBack (inv_coreWriteBack hs)))

theorem inv_gather {c p as} (hs : s.Inv) : (gather s c p as).Inv := by
  unfold gather
  dsimp only
  split
  · split
    · refine inv_coreFetch ?_
      refine inv_homeFetch ?_
      split
      · exact inv_ite hs (inv_homeFetch hs)
      · exact hs
    · exact hs
  · split
    · exact inv_ite hs (inv_homeFetch hs)
    · exact hs
  · exact hs

theorem inv_writeAtN {c p pa bs} (hs : s.Inv) : (writeAtN s c p pa bs).Inv :=
  inv_foldl hs fun _ _ ht => inv_writeAt ht

theorem inv_homeWriteN {pa bs} (hs : s.Inv) : (homeWriteN s pa bs).Inv :=
  inv_foldl hs fun _ _ ht => inv_homeWrite ht

theorem inv_countAccess {c p pa} (hs : s.Inv) : (countAccess s c p pa).Inv := by
  unfold countAccess
  split
  · exact inv_ite (inv_countCore hs) (inv_countHome (inv_countCore hs))
  · exact inv_countHome hs

theorem inv_countSpill {c lines} (hs : s.Inv) : (countSpill s c lines).Inv :=
  inv_foldl hs fun _ _ ht => inv_countAccess (inv_countCore ht)

theorem inv_spillHome {g p} (hs : s.Inv) : (spillHome s g p).Inv := by
  unfold spillHome
  split
  · exact hs
  · exact inv_ite hs (inv_foldl (inv_countSpill (inv_modGang hs)) (fun _ _ ht => inv_writeAtN ht))

theorem inv_spillWord {c a} (hs : s.Inv) : (spillWord s c a).1.Inv := by
  unfold spillWord
  exact inv_foldl_fst (inv_gather hs) fun _ _ ht => inv_readAt ht

theorem inv_spillsHome {c p} (hs : s.Inv) : (spillsHome s c p).Inv :=
  inv_foldl hs fun _ _ ht => inv_spillHome ht

theorem inv_coreWriteBackAll {c} (hs : s.Inv) : (coreWriteBackAll s c).Inv := by
  unfold coreWriteBackAll
  split
  · exact hs
  · exact inv_modCore (inv_foldl (inv_spillsHome hs) (fun _ _ ht => inv_coreLineHome ht))

theorem inv_scrWrite {c off bs} (hs : s.Inv) : (scrWrite s c off bs).Inv :=
  inv_ite (inv_fireScr (inv_modCrew hs)) (inv_fireScr (inv_fireScr (inv_modCrew hs)))

end Sys2Proof.Machine
end

section
/-!
## Races, translation and the register block

The race report, the walks of the translation tables, and the reads and writes of the register block. An event that one of them puts on
the agenda has no words (`inv_soon`).
-/

namespace Sys2Proof.Machine
variable {s t : State}
set_option Elab.async false

theorem inv_traceRecord {ws} (hs : s.Inv) : (traceRecord s ws).Inv := by
  unfold traceRecord
  exact inv_ite (.frame (h := inv_foldl hs (fun _ _ ht => inv_homeWrite (inv_setStorer ht)))) (inv_raiseEvent hs.frame)

theorem inv_raceRelease {c} (hs : s.Inv) : (raceRelease s c).Inv := by
  unfold raceRelease
  split
  · exact hs
  · exact inv_modCrew hs

theorem inv_raceAcquire {c} (hs : s.Inv) : (raceAcquire s c).Inv := by
  unfold raceAcquire
  split
  · exact hs
  · exact inv_modCrew hs

theorem inv_raceGrant {c tile} (hs : s.Inv) : (raceGrant s c tile).Inv := by
  unfold raceGrant
  split
  · exact hs
  · exact inv_foldl hs fun _ _ ht => inv_modCrew ht

theorem inv_raceTile {c tile} (hs : s.Inv) : (raceTile s c tile).Inv := by
  unfold raceTile
  split
  · exact hs
  · exact inv_foldl hs fun _ _ ht => ht.frame

theorem inv_raceReport {l core pa old new} (hs : s.Inv) : (raceReport s l core pa old new).Inv :=
  inv_traceRecord hs

theorem inv_raceNoStamp {die l} (hs : s.Inv) : (raceNoStamp s die l).Inv :=
  inv_traceRecord hs

theorem inv_raceAccess {c gang core pc pa write sync wide kind} (hs : s.Inv) :
    (raceAccess s c gang core pc pa write sync wide kind).Inv := by
  unfold raceAccess
  split
  · exact hs
  · extract_lets _ _ _ t _ u v
    have ht : t.Inv := inv_foldl hs fun _ _ ht => inv_ite (inv_raceReport ht) ht
    have hu : u.Inv := ht.frame
    have hv : v.Inv := inv_ite (inv_ite (inv_modCrew hu) hu) hu
    split
    · exact hv.frame
    · exact hv

theorem inv_raceGang {g pc pa sc write sync} (hs : s.Inv) : (raceGang s g pc pa sc write sync).Inv := by
  unfold raceGang
  split
  · exact hs
  · exact inv_raceAccess hs

theorem inv_raceBarrier {launch} (hs : s.Inv) : (raceBarrier s launch).Inv := by
  unfold raceBarrier
  dsimp only
  split
  · exact inv_ite hs.frame hs
  · exact hs

theorem inv_malformed {pa} (hs : s.Inv) : (malformed s pa).Inv :=
  inv_raiseEvent hs

theorem inv_walkFrom {entry : EntryAt} {va levels base} (he : ∀ t a, t.Inv → (entry t a).1.Inv) (hs : s.Inv) :
    (walkFrom entry va levels s base).1.Inv := by
  induction levels generalizing s base with
  | nil =>
    unfold walkFrom
    split
    · exact inv_fst (he _ _ hs) ‹_›
    · dsimp only
      split
      · exact inv_fst (he _ _ hs) ‹_›
      · exact inv_malformed (inv_fst (he _ _ hs) ‹_›)
  | cons l levels ih =>
    unfold walkFrom
    split
    · exact inv_fst (he _ _ hs) ‹_›
    · dsimp only
      split
      · exact inv_malformed (inv_fst (he _ _ hs) ‹_›)
      · split
        · exact ih (inv_fst (he _ _ hs) ‹_›)
        · exact inv_fst (he _ _ hs) ‹_›

theorem inv_directEntry {a} (hs : s.Inv) : (directEntry s a).1.Inv := hs

theorem inv_walk2 {root gpa} (hs : s.Inv) : (walk2 s root gpa).1.Inv := by
  unfold walk2
  split <;> exact inv_fst (inv_walkFrom (fun _ _ ht => inv_directEntry ht) hs) ‹_›

theorem inv_guestEntry {root a} (hs : s.Inv) : (guestEntry root s a).1.Inv := by
  unfold guestEntry
  split <;> exact inv_fst (inv_walk2 hs) ‹_›

theorem inv_walkFresh {ctx va} (hs : s.Inv) : (walkFresh s ctx va).1.Inv := by
  unfold walkFresh
  extract_lets page
  split
  · exact hs
  · next ce _ =>
    extract_lets entry
    have he : ∀ t a, t.Inv → (entry t a).1.Inv := by
      unfold entry
      intro t a ht
      split
      · exact inv_guestEntry ht
      · exact inv_directEntry ht
    split
    · next e => exact inv_fst (inv_walkFrom he hs) e
    · next e =>
      have ht := inv_fst (inv_walkFrom he hs) e
      extract_lets x
      split
      · split
        · next e => exact inv_fst (inv_walk2 ht) e
        · next e => exact inv_fst (inv_walk2 ht) e
      · exact ht

theorem inv_translate {ctx va} (hs : s.Inv) : (translate s ctx va).1.Inv := by
  unfold translate
  dsimp only
  split
  · exact inv_walkFresh hs
  · split
    · exact inv_freshen hs
    · exact inv_freshen (inv_walkFresh hs)
  · split
    · exact hs
    · exact .frame (h := inv_walkFresh hs)
  · split
    · split
      · exact inv_freshen hs
      · exact inv_freshen (.frame (h := inv_walkFresh hs))
    · exact inv_walkFresh hs

theorem inv_soon {i} (hs : s.Inv) (hi : i.hasWords = false := by rfl) : (soon s i).Inv := by
  refine ⟨hs.1, fun j hj => ?_⟩
  rcases List.mem_cons.1 hj with h | h
  · cases h
    exact hi
  · exact hs.2 j h

theorem inv_modQueue {q f} (hs : s.Inv) : (modQueue s q f).Inv := by
  unfold modQueue
  exact hs.frame

theorem inv_forgetReads {q} (hs : s.Inv) : (forgetReads s q).Inv := by
  unfold forgetReads
  exact hs.frame

theorem inv_lqPut {q word w} (hs : s.Inv) : (lqPut s q word w).Inv := by
  unfold lqPut
  dsimp only
  split
  · exact inv_ite hs (inv_modQueue hs)
  · exact inv_ite hs (inv_modQueue hs)
  · exact inv_ite hs (inv_ite hs (inv_ite (inv_soon (inv_modQueue hs)) (inv_forgetReads (inv_modQueue hs))))
  · exact hs

theorem inv_vmargWrite {c w} (hs : s.Inv) : (vmargWrite s c w).Inv :=
  inv_ite (inv_modDie hs) hs

theorem inv_coreControlPut {host c n w} (hs : s.Inv) : (coreControlPut s host c n w).Inv := by
  unfold coreControlPut
  split
  · exact inv_ite (inv_soon hs) hs
  · exact inv_ite (inv_modCore hs) hs
  · exact inv_vmargWrite hs
  · exact hs

theorem inv_beatPut {w} (hs : s.Inv) : (beatPut s w).Inv := by
  unfold beatPut
  exact inv_ite hs.frame hs

theorem inv_claimtoPut {w} (hs : s.Inv) : (claimtoPut s w).Inv := by
  unfold claimtoPut
  exact hs.frame

theorem inv_tickPut {w} (hs : s.Inv) : (tickPut s w).Inv := by
  unfold tickPut
  exact inv_ite hs hs.frame

theorem inv_accessPut {target ctx v} (hs : s.Inv) : (accessPut s target ctx v).Inv := by
  unfold accessPut
  exact inv_ite hs.frame hs

theorem inv_takeOffer (hs : s.Inv) : (takeOffer s).Inv := by
  unfold takeOffer
  split
  · exact inv_setClaim hs
  · exact hs

theorem inv_answerClaim {e forward} (hs : s.Inv) : (answerClaim s e forward).Inv :=
  inv_ite (inv_ite (inv_deliverClaim hs) (inv_finishClaim hs)) hs

theorem inv_ackClaim {e} (hs : s.Inv) : (ackClaim s e).Inv :=
  inv_ite (inv_finishClaim hs) hs

theorem inv_ringPut {word w} (hs : s.Inv) : (ringPut s word w).Inv := by
  unfold ringPut
  split
  · exact inv_ite hs.frame hs
  · exact hs.frame
  · exact inv_ite (inv_ackClaim hs.frame) hs.frame
  · exact hs

theorem inv_tinvStart (hs : s.Inv) : (tinvStart s).Inv := by
  unfold tinvStart
  exact hs.frame

theorem inv_tinvPut {word w} (hs : s.Inv) : (tinvPut s word w).Inv := by
  unfold tinvPut
  split
  · exact hs.frame
  · exact hs.frame
  · exact hs.frame
  · exact inv_ite (inv_tinvStart hs) hs

theorem inv_ownreqStart (hs : s.Inv) : (ownreqStart s).Inv := by
  unfold ownreqStart
  exact inv_ite hs (inv_ite hs.frame hs.frame)

theorem inv_ownreqPut {word w} (hs : s.Inv) : (ownreqPut s word w).Inv := by
  unfold ownreqPut
  split
  · exact hs.frame
  · exact inv_ite hs (inv_ite (inv_ownreqStart hs.frame) hs.frame)

theorem inv_modPageRegs {f h} (hs : s.Inv) : (modPageRegs s f h).Inv := by
  unfold modPageRegs
  exact hs.frame

theorem inv_pageRegsPut {f word w} (hs : s.Inv) : (pageRegsPut s f word w).Inv := by
  unfold pageRegsPut
  split
  · exact inv_modPageRegs hs
  · exact inv_modPageRegs hs
  · extract_lets t u
    have ht : t.Inv := inv_modPageRegs hs
    have hu : u.Inv := inv_ite ht.frame ht
    exact inv_ite hs (inv_ite (inv_soon hu) hu)
  · exact hs

theorem inv_startPut {w} (hs : s.Inv) : (startPut s w).Inv := by
  unfold startPut
  exact inv_ite (inv_ite hs (inv_ite hs.frame hs.frame)) hs.frame

theorem inv_powlimPut {w} (hs : s.Inv) : (powlimPut s w).Inv := by
  unfold powlimPut
  exact inv_ite hs.frame hs

theorem inv_lmargStart {p} (hs : s.Inv) : (lmargStart s p).Inv := by
  unfold lmargStart
  exact inv_ite hs hs.frame

theorem inv_lmargPut {p w} (hs : s.Inv) : (lmargPut s p w).Inv := by
  unfold lmargPut
  exact inv_ite (inv_lmargStart hs.frame) hs.frame

theorem inv_attestStart (hs : s.Inv) : (attestStart s).Inv := by
  unfold attestStart
  exact hs.frame

theorem inv_unplacedPut {host o w} (hs : s.Inv) : (unplacedPut s host o w).Inv := by
  unfold unplacedPut
  split
  · exact hs.frame
  · exact hs.frame
  · exact hs.frame
  · exact inv_ite (inv_claimtoPut hs) hs
  · exact hs

theorem inv_applyLate {all u} (hs : s.Inv) : (applyLate all s u).Inv := by
  unfold applyLate
  split
  · exact inv_setClaim hs
  · exact hs.frame
  · exact inv_ite hs (inv_modPageRegs hs)
  · exact inv_ite hs hs.frame
  · exact hs
  · exact hs
  · exact hs

theorem inv_applyLates (hs : s.Inv) : (applyLates s).Inv := by
  unfold applyLates
  exact inv_foldl hs.frame fun _ _ ht => inv_applyLate ht

theorem inv_regPut {host o w} (hs : s.Inv) : (regPut s host o w).Inv := by
  unfold regPut
  refine inv_ite (inv_foldl hs fun _ _ ht => inv_accessPut ht) ?_
  refine inv_ite (inv_ite (inv_coreControlPut hs) hs) ?_
  refine inv_ite hs (inv_ite (inv_ite (inv_lqPut hs) hs) ?_)
  refine inv_ite hs.frame (inv_ite (inv_ite hs (inv_tinvPut hs)) ?_)
  refine inv_ite (inv_ite (inv_setClaim hs) hs) (inv_ite hs (inv_ite (inv_answerClaim hs) ?_))
  refine inv_ite hs.frame (inv_ite (inv_ringPut hs) ?_)
  refine inv_ite (inv_ownreqPut hs) (inv_ite (inv_ownreqPut hs) ?_)
  refine inv_ite (inv_ite (inv_pageRegsPut hs) hs) ?_
  refine inv_ite hs.frame (inv_ite hs.frame (inv_ite hs.frame ?_))
  refine inv_ite (inv_startPut hs) (inv_ite hs ?_)
  refine inv_ite (inv_ite (inv_attestStart hs) hs) (inv_ite (inv_ite hs.frame hs) ?_)
  refine inv_ite (inv_powlimPut hs) (inv_ite (inv_ite (inv_lmargPut hs) hs) ?_)
  exact inv_ite hs.frame (inv_unplacedPut hs)

theorem inv_regWriteWords {host n o bs} (hs : s.Inv) : (regWriteWords s host n o bs).Inv := by
  induction n generalizing s o bs with
  | zero => exact hs
  | succ n ih =>
    unfold regWriteWords
    split
    · exact hs
    · exact ih (inv_regPut hs)

theorem inv_regTouched {o lo hi} (hs : s.Inv) : (regTouched s o lo hi).Inv := by
  unfold regTouched
  exact inv_ite (inv_takeOffer hs) (inv_ite (inv_setClaim hs) (inv_ite hs.frame hs))

theorem inv_regWrite {host pa bs} (hs : s.Inv) : (regWrite s host pa bs).Inv :=
  inv_regWriteWords hs

theorem inv_regReadWords {m o n} (hs : s.Inv) : (regReadWords s m o n).1.Inv := by
  induction m generalizing s o n with
  | zero => exact hs
  | succ m ih =>
    unfold regReadWords
    split
    · exact hs
    · exact ih (inv_regTouched hs)

theorem inv_regRead {pa n} (hs : s.Inv) : (regRead s pa n).1.Inv :=
  inv_regReadWords hs

theorem inv_vfPut {f o w} (hs : s.Inv) : (vfPut s f o w).Inv :=
  inv_ite (inv_ite (inv_lqPut hs) hs) (inv_ite (inv_pageRegsPut hs) hs)

end Sys2Proof.Machine
end

section
/-!
## Accesses, releases and fetches

The checks of an element, the scope buffers and their releases, what an operation leaves at its end, and the fetch of a word.
-/

namespace Sys2Proof.Machine
variable {s t : State}
set_option Elab.async false

theorem inv_requestPage {fn page ctx kind stage w} (hs : s.Inv) : (requestPage s fn page ctx kind stage w).Inv := by
  unfold requestPage
  exact inv_ite hs.frame hs.frame

theorem inv_translateOnce {r ctx va} (hr : r.1.Inv) : (translateOnce r ctx va).1.1.Inv := by
  unfold translateOnce
  split
  · exact hr
  · exact inv_translate hr

theorem inv_chkGlobal {r is va n k} (hr : r.1.Inv) : (chkGlobal r is va n k).1.1.Inv := by
  unfold chkGlobal
  extract_lets ctx
  refine inv_ite_trail hr ?_
  split
  · next e => exact inv_trail (inv_translateOnce hr) e
  · next e =>
    have ht := inv_trail (inv_translateOnce hr) e
    exact inv_ite_trail ht (inv_ite_trail ht (inv_ite_trail ht (inv_ite_trail ht (inv_ite_trail ht ht))))

theorem inv_chkZero {r is va n} (hr : r.1.Inv) : (chkZero r is va n).1.1.Inv := by
  unfold chkZero
  split
  · split <;> exact inv_trail (inv_chkGlobal hr) ‹_›
  · exact inv_chkGlobal hr

theorem inv_chkAt {r is spad a n k} (hr : r.1.Inv) : (chkAt r is spad a n k).1.1.Inv := by
  unfold chkAt
  split
  · exact hr
  · split
    · exact hr
    · exact inv_chkGlobal hr

theorem inv_chkRec {r is b i n k} (hr : r.1.Inv) : (chkRec r is b i n k).1.1.Inv := by
  unfold chkRec
  split
  · exact hr
  · exact inv_chkAt hr

theorem inv_alone {r} (hr : r.1.1.Inv) : (alone r).1.Inv :=
  hr

theorem inv_chkEach {f ls r} (hr : r.1.Inv) (hf : ∀ r l, r.1.Inv → (f r l).1.1.Inv) : (chkEach f ls r).1.1.Inv := by
  induction ls generalizing r with
  | nil => exact hr
  | cons l ls ih => exact ih (hf _ _ hr)

theorem inv_chkLanes {f ls} (hs : s.Inv) (hf : ∀ r l, r.1.Inv → (f r l).1.1.Inv) : (chkLanes s f ls).1.Inv :=
  inv_chkEach hs hf

theorem inv_failStore {g cause} (hs : s.Inv) : (failStore s g cause).Inv := by
  unfold failStore
  split
  · split
    · split
      · exact inv_modLaunch hs
      · exact hs
    · exact inv_modGang hs
  · exact hs

theorem inv_countUnreported {g} (hs : s.Inv) : (countUnreported s g).Inv := by
  unfold countUnreported
  split
  · exact inv_ite hs (inv_modLaunch (inv_modGang hs))
  · exact hs

theorem inv_storeDone {g op} (hs : s.Inv) : (storeDone s g op).Inv :=
  inv_modGang hs

theorem inv_askLine {g e pa} (hs : s.Inv) : (askLine s g e pa).Inv :=
  inv_ite hs (inv_modGang (inv_countAccess hs))

theorem inv_storeAt {g p pa bs} (hs : s.Inv) : (storeAt s g p pa bs).Inv :=
  inv_writeAtN (inv_ite hs (inv_setStorer hs))

theorem inv_flagZero {pa} (hs : s.Inv) : (flagZero s pa).Inv :=
  inv_ite (inv_l2Zero hs) (inv_ite (inv_setZeroFar hs) hs)

theorem inv_drainEntry {g e} (hs : s.Inv) : (drainEntry s g e).1.Inv := by
  unfold drainEntry
  extract_lets t
  have ht : t.Inv := inv_modGang hs
  split
  · split
    · exact inv_ite_fst (inv_storeDone (inv_scrWrite ht)) (inv_storeDone ht)
    · exact ht
  · extract_lets u
    have hu : u.Inv := inv_askLine ht
    split
    · exact inv_storeDone (inv_failStore hu)
    · refine inv_ite_fst (inv_storeDone (inv_regWrite hu)) ?_
      have hv {pc p pa bs} : (storeAt (raceGang u g pc pa e.scope true false) g p pa bs).Inv := inv_storeAt (inv_raceGang hu)
      split
      · exact inv_ite_fst (inv_storeDone hv) (inv_modGang hv)
      · exact inv_storeDone (inv_ite (inv_flagZero hv) hv)
  · exact ht
  · exact ht

theorem inv_homeClean {k pa bs} (hs : s.Inv) : (homeClean s k pa bs).Inv := by
  unfold homeClean
  exact hs.frame

theorem inv_sysArrive {g e} (hs : s.Inv) : (sysArrive s g e).Inv := by
  unfold sysArrive
  dsimp only
  refine inv_storeDone ?_
  split
  · exact inv_homeClean (inv_failStore (inv_modGang hs))
  · exact inv_foldl (inv_modGang hs) fun _ _ ht => inv_homeWriteBack ht

theorem inv_settleHome (hs : s.Inv) : (settleHome s).Inv :=
  inv_foldl hs fun _ _ ht => inv_farSettle ht

theorem inv_drainSome {g n} (hs : s.Inv) : (drainSome g n s).1.Inv := by
  induction n generalizing s with
  | zero => exact hs
  | succ n ih =>
    unfold drainSome
    split
    · exact hs
    · split
      · exact hs
      · exact ih (inv_drainEntry hs)

theorem inv_drainAll {g} (hs : s.Inv) : (drainAll s g).1.Inv :=
  inv_drainSome hs

theorem inv_sysAll {g} (hs : s.Inv) : (sysAll s g).Inv := by
  unfold sysAll
  split
  · exact hs
  · exact inv_settleHome (inv_foldl hs (fun _ _ ht => inv_sysArrive ht))

theorem inv_drainQuiet {g n} (hs : s.Inv) : (drainQuiet g n s).Inv := by
  induction n generalizing s with
  | zero => exact hs
  | succ n ih =>
    unfold drainQuiet
    split
    · exact hs
    · split
      · exact hs
      · exact ih (inv_drainEntry hs)

theorem inv_drainOthers {g} (hs : s.Inv) : (drainOthers s g).Inv :=
  inv_foldl hs fun _ _ ht => inv_drainQuiet ht

theorem inv_raceRel {g} (hs : s.Inv) : (raceRel s g).Inv := by
  unfold raceRel
  split
  · exact inv_raceRelease hs
  · exact hs

theorem inv_raceAcq {g} (hs : s.Inv) : (raceAcq s g).Inv := by
  unfold raceAcq
  split
  · exact inv_raceAcquire hs
  · exact hs

theorem inv_releaseTo {g sc seq upTo ts} (hs : s.Inv) (e : releaseTo s g sc seq upTo = some (t, ts)) : t.Inv := by
  have hr : (drainAll s g).1.Inv := inv_drainAll hs
  have hw : (drainOthers (drainAll s g).1 g).Inv := inv_drainOthers hr
  unfold releaseTo at e
  dsimp only at e
  split at e
  · cases e; exact hs
  · split at e
    · cases e
    · split at e
      · split at e
        · exact inv_fst hr (Option.some.inj e)
        · exact inv_fst hr (Option.some.inj e)
        · split at e
          · cases e
          · cases e; exact inv_raceRel (inv_coreWriteBackAll hw)
        · split at e
          · cases e
          · cases e; exact inv_raceRel (inv_sysAll (inv_coreWriteBackAll hw))
      · cases e

theorem inv_release {g sc ts} (hs : s.Inv) (e : release s g sc = some (t, ts)) : t.Inv := inv_releaseTo hs e

theorem inv_releaseScr {g ts} (hs : s.Inv) (e : releaseScr s g = some (t, ts)) : t.Inv := by
  unfold releaseScr at e
  extract_lets isScr r at e
  have hr : r.1.Inv := by
    refine inv_foldl_fst hs fun p a hp => ?_
    split
    · split
      · exact inv_drainEntry hp
      · exact hp
    · exact hp
  split at e
  · cases e
  · exact inv_fst hr (Option.some.inj e)

theorem inv_acquire {g sc} (hs : s.Inv) : (acquire s g sc).Inv := by
  unfold acquire
  split
  · exact hs
  · exact hs
  · exact inv_raceAcq (inv_coreDiscardClean hs)
  · exact inv_raceAcq (inv_peerDiscardClean (inv_coreDiscardClean hs))

theorem inv_loadBytes {g seq sc p n} (hs : s.Inv) : (loadBytes s g seq sc p n).1.Inv := by
  unfold loadBytes
  split
  · exact hs
  · split
    · split
      · exact inv_regRead hs
      · dsimp only
        refine inv_foldl_fst (inv_gather hs) fun _ _ ht => ?_
        split
        · exact ht
        · exact inv_readAt ht
    · split <;> exact hs
    · exact hs
    · exact hs

theorem inv_atomWrite {g sc p n x} (hs : s.Inv) : (atomWrite s g sc p n x).Inv := by
  unfold atomWrite
  split
  · exact inv_ite (inv_regWrite hs) (inv_storeAt hs)
  · split
    · exact inv_scrWrite hs
    · exact hs
  · exact hs
  · exact hs

theorem inv_countElem {g f e} (hs : s.Inv) : (countElem s g f e).Inv := by
  unfold countElem
  split
  · exact inv_ite hs (inv_countAccess hs)
  · exact hs

theorem inv_performElem {g f e} (hs : s.Inv) : (performElem s g f e).1.Inv := by
  unfold performElem
  dsimp only
  refine inv_modGang ?_
  split
  · split
    · split
      · exact inv_raceGang (inv_loadBytes (inv_countElem hs))
      · exact inv_loadBytes (inv_countElem hs)
    · refine inv_atomWrite ?_
      split
      · exact inv_raceGang (inv_loadBytes (inv_countElem hs))
      · exact inv_loadBytes (inv_countElem hs)
  · split
    · exact inv_raceGang (inv_loadBytes (inv_countElem hs))
    · exact inv_loadBytes (inv_countElem hs)

theorem inv_openWindow {g f e} (hs : s.Inv) : (openWindow s g f e).1.Inv :=
  inv_modGang (inv_loadBytes (inv_countElem hs))

theorem inv_finishFlight {g f bad} (hs : s.Inv) : (finishFlight s g f bad).Inv := by
  unfold finishFlight
  dsimp only
  refine inv_modGang ?_
  split
  · exact inv_ite (inv_pushed hs) hs
  · exact hs

theorem inv_launchFlight {is mk} (hs : s.Inv) : (launchFlight s is mk).Inv :=
  inv_modGang hs

theorem inv_askPages {ctx kind w es} (hs : s.Inv) : (askPages s ctx kind w es).Inv := by
  unfold askPages
  refine inv_foldl hs fun _ _ ht => ?_
  split
  · exact inv_requestPage ht
  · exact ht

theorem inv_laneOrder {es} (hs : s.Inv) : (laneOrder s es).1.Inv := by
  unfold laneOrder
  split
  · exact hs.frame
  · exact hs

theorem inv_bufferStores {g es path} (hs : s.Inv) : (bufferStores s g es path).Inv :=
  inv_modGang hs

theorem inv_settleStore {g f} (hs : s.Inv) : (settleStore s g f).Inv :=
  inv_ite hs (inv_modGang (inv_laneOrder hs))

theorem inv_awaitFlight {is f path} (hs : s.Inv) : (awaitFlight s is f path).Inv :=
  inv_modGang hs

theorem inv_awaitStore {is cs sc sz data path} (hs : s.Inv) : (awaitStore s is cs sc sz data path).Inv :=
  inv_awaitFlight hs

theorem inv_enterStores {is cs sc n data path} (hs : s.Inv) : (enterStores s is cs sc n data path).Inv :=
  inv_bufferStores (inv_laneOrder hs)

theorem inv_newOp {c gang k tok} (hs : s.Inv) (e : newOp s c gang k = some (t, tok)) : t.Inv := by
  unfold newOp at e
  split at e
  · cases e
  · split at e
    · cases e
    · cases e; exact inv_modCrew (inv_freshen hs)

theorem inv_resolveOp {c tok st word} (hs : s.Inv) : (resolveOp s c tok st word).Inv := by
  unfold resolveOp
  split
  · exact inv_ite (inv_ite (inv_modGang (inv_modCrew hs)) (inv_modCrew hs)) hs
  · exact hs

theorem inv_takeGrant {e} (hs : s.Inv) : (takeGrant s e).Inv :=
  inv_raceGrant (inv_countDie (inv_modCore hs))

theorem inv_serveGrants (hs : s.Inv) : (serveGrants s).Inv := by
  unfold serveGrants
  exact inv_foldl hs fun _ _ ht => inv_foldl ht.frame (fun _ _ hu => inv_takeGrant hu)

theorem inv_releaseGrants {c gang op} (hs : s.Inv) : (releaseGrants s c gang op).Inv := by
  unfold releaseGrants
  exact inv_serveGrants hs.frame

theorem inv_endTicket {c n t0} (hs : s.Inv) : (endTicket s c n t0).Inv :=
  inv_releaseGrants (inv_foldl (inv_raceRel hs) (fun _ _ ht => inv_ite (inv_raceTile ht) ht))

theorem inv_closeBody {g} (hs : s.Inv) : (closeBody s g).Inv := by
  unfold closeBody
  split
  · split
    · exact inv_endTicket (inv_modGang hs)
    · exact hs
  · exact hs

theorem inv_writeBackTiles {c t0} (hs : s.Inv) : (writeBackTiles s c t0).Inv := by
  unfold writeBackTiles
  split
  · exact hs
  · exact inv_foldl hs fun _ _ ht => inv_coreLineHome ht

theorem inv_settleBody {g} (hs : s.Inv) : (settleBody s g).1.Inv := by
  unfold settleBody
  split
  · exact hs
  · exact inv_writeBackTiles (inv_drainAll hs)

theorem inv_bodyEnd {g} (hs : s.Inv) : (bodyEnd s g).1.Inv := by
  unfold bodyEnd
  split
  · split
    · exact hs
    · split
      · exact hs
      · dsimp only
        split
        · exact inv_closeBody (inv_settleBody hs)
        · exact inv_settleBody hs
  · exact hs

theorem inv_endingStep {c n t0} (hs : s.Inv) : (endingStep c n s t0).Inv := by
  unfold endingStep
  dsimp only
  split
  · exact hs
  · exact inv_ite hs (inv_ite (inv_writeBackTiles (inv_drainQuiet hs)) (inv_endTicket (inv_modGang
      (inv_writeBackTiles (inv_drainQuiet hs)))))

theorem inv_settleEnding {g} (hs : s.Inv) : (settleEnding s g).Inv := by
  unfold settleEnding
  split
  · exact inv_foldl hs fun _ _ ht => inv_endingStep ht
  · exact hs

theorem inv_breakBody {g} (hs : s.Inv) : (breakBody s g).Inv :=
  inv_settleEnding (inv_modGang hs)

theorem inv_withdrawTicket {c gang op} (hs : s.Inv) : (withdrawTicket s c gang op).Inv := by
  unfold withdrawTicket
  exact inv_resolveOp (inv_releaseGrants (inv_modGang hs.frame))

theorem inv_closeRegions {g} (hs : s.Inv) : (closeRegions s g).Inv := by
  unfold closeRegions
  split
  · exact hs
  · split
    · exact hs
    · exact inv_modLaunch (inv_modCrew hs)

theorem inv_lbarRelease {launch n} (hs : s.Inv) : (lbarRelease s launch n).Inv := by
  unfold lbarRelease
  split
  · exact hs
  · exact inv_ite (inv_raceBarrier (.frame (h := inv_modLaunch hs))) hs

theorem inv_lbarArrive {c} (hs : s.Inv) : (lbarArrive s c).Inv := by
  unfold lbarArrive
  split
  · exact hs
  · split
    · exact hs
    · split
      · exact inv_ite (inv_lbarRelease (inv_modLaunch hs)) hs
      · exact hs

theorem inv_exitRelease {g} (hs : s.Inv) : (exitRelease s g).Inv := by
  unfold exitRelease
  split
  · exact inv_modGang (inv_release hs ‹_›)
  · exact hs

theorem inv_endGang {g pc} (hs : s.Inv) : (endGang s g pc).Inv := by
  unfold endGang
  dsimp only
  split
  · exact inv_lbarArrive (inv_exitRelease (inv_closeRegions (inv_modGang (inv_countUnreported hs))))
  · exact inv_exitRelease (inv_closeRegions (inv_modGang (inv_countUnreported hs)))

theorem inv_lineBytes {line} (hs : s.Inv) : (lineBytes s line).1.Inv :=
  inv_ite (inv_l2Fill hs) (inv_foldl hs (fun _ _ ht => inv_homeFetch ht))

theorem inv_icacheRoom {c line} (hs : s.Inv) : (icacheRoom s c line).Inv := by
  unfold icacheRoom
  split
  · exact hs
  · split
    · exact hs
    · dsimp only
      split
      · exact inv_modCore (inv_freshen hs)
      · exact hs

theorem inv_icacheFill {c line bs pin} (hs : s.Inv) : (icacheFill s c line bs pin).Inv :=
  inv_modCore (inv_icacheRoom hs)

theorem inv_fetchPiece {g quad fail a n} (hs : s.Inv) : (fetchPiece s g quad fail a n).Inv := by
  unfold fetchPiece
  dsimp only
  split
  · exact hs
  · split
    · exact inv_requestPage (inv_fst (inv_translate hs) ‹_›)
    · have ht := inv_fst (inv_translate hs) ‹_›
      split
      · exact ht
      · split
        · exact ht
        · split
          · split
            · split
              · exact inv_icacheFill (inv_lineBytes (inv_countHome ht))
              · exact ht
            · split
              · exact ht
              · split
                · exact ht
                · split
                  · exact inv_freshen ht
                  · split
                    · exact inv_icacheFill (inv_lineBytes (inv_countHome (inv_freshen ht)))
                    · exact inv_freshen ht
          · split
            · exact inv_icacheFill (inv_lineBytes (inv_countHome ht))
            · exact ht

theorem inv_fetchSpan {g quad fail a n} (hs : s.Inv) : (fetchSpan s g quad fail a n).Inv := by
  unfold fetchSpan
  dsimp only
  split
  · exact inv_fetchPiece hs
  · split
    · next e1 =>
        have ht := (inv_fetchPiece hs).of_ok e1
        split
        · next e2 => exact (inv_fetchPiece ht).of_ok e2
        · exact inv_fetchPiece ht
    · exact inv_fetchPiece hs

theorem inv_fetchInsn {g quad fail pc} (hs : s.Inv) : (fetchInsn s g quad fail pc).Inv := by
  unfold fetchInsn
  split
  · exact hs
  · split
    · next e1 => exact (inv_fetchSpan hs).of_bad e1
    · next e1 => exact (inv_fetchSpan hs).of_wait e1
    · next e1 =>
        have ht := (inv_fetchSpan hs).of_ok e1
        dsimp only
        split
        · next e2 => exact (inv_fetchSpan ht).of_bad e2
        · next e2 => exact (inv_fetchSpan ht).of_wait e2
        · next e2 => split <;> exact (inv_fetchSpan ht).of_ok e2

theorem inv_headerAt {is t0} (hs : s.Inv) : (headerAt s is t0).Inv := by
  unfold headerAt
  split
  · exact hs
  · split
    · next e1 => exact (inv_fetchSpan hs).of_bad e1
    · next e1 => exact (inv_fetchSpan hs).of_wait e1
    · next e1 => split <;> exact (inv_fetchSpan hs).of_ok e1

end Sys2Proof.Machine
end

section
/-!
## The frame of an instruction

What `issue` does around the meaning of an instruction (R40, R108, R313), so that an instruction needs a rule for its meaning alone.
-/

namespace Sys2Proof.Machine
variable {s t : State}
set_option Elab.async false

theorem inv_targetCheck {is i} (hs : s.Inv) : (targetCheck s is i).Inv := by
  unfold targetCheck
  split
  · exact hs
  · split
    · exact inv_headerAt hs
    · exact hs

theorem inv_abandonRequest {g} (hs : s.Inv) : (abandonRequest s g).Inv := by
  unfold abandonRequest
  split
  · exact hs
  · exact inv_ite (inv_modGang (inv_modCore hs)) (inv_modCore hs)

theorem inv_freeDst {g f l} (hs : s.Inv) : (freeDst g f s l).Inv :=
  inv_modGang (inv_freshen hs)

theorem inv_abandonFlight {g f} (hs : s.Inv) : (abandonFlight g s f).Inv :=
  inv_modGang (inv_ite hs (inv_foldl hs (fun _ _ ht => inv_freeDst ht)))

theorem inv_abandonLoads {g} (hs : s.Inv) : (abandonLoads s g).Inv := by
  unfold abandonLoads
  split
  · exact hs
  · exact .frame (h := inv_foldl hs (fun _ _ ht => inv_abandonFlight ht))

theorem inv_supFault {core cls cause code pc} (hs : s.Inv) : (supFault s core cls cause code pc).Inv :=
  inv_raiseEvent (inv_modCore hs)

theorem inv_postRequest {r} (hs : s.Inv) : (postRequest s r).Inv := by
  unfold postRequest
  split
  · exact hs
  · exact inv_countCore (inv_modCore hs)

theorem inv_postTrap {g} (hs : s.Inv) : (postTrap s g).Inv := by
  unfold postTrap
  split
  · exact hs
  · split
    · exact hs
    · split
      · exact hs
      · split
        · exact hs
        · exact inv_postRequest (inv_modGang (inv_releaseTo hs ‹_›))

theorem inv_takeTrap {is cls cause info insn lanes} (hs : s.Inv) : (takeTrap s is cls cause info insn lanes).Inv := by
  unfold takeTrap
  split
  · exact inv_supFault hs
  · exact inv_postTrap (inv_modGang (inv_modCore hs))

theorem inv_stopGang {u g} (hs : s.Inv) : (stopGang u s g).Inv := by
  unfold stopGang
  split
  · exact hs
  · exact inv_ite hs (inv_modGang (inv_abandonLoads (inv_abandonRequest hs)))

theorem inv_beginUnwind {u} (hs : s.Inv) : (beginUnwind s u).Inv := by
  unfold beginUnwind
  dsimp only
  split <;> exact inv_foldl hs.frame fun _ _ ht => inv_stopGang ht

theorem inv_throwLanes {g pc ts re sv} (hs : s.Inv) : (throwLanes s g pc ts re sv).Inv := by
  unfold throwLanes
  split
  · exact hs
  · split
    · exact inv_supFault hs
    · split
      · exact inv_ite hs (inv_beginUnwind hs)
      · exact hs

theorem inv_throwMany {g ts} (hs : s.Inv) : (throwMany s g ts).Inv :=
  inv_foldl hs fun _ _ ht => inv_throwLanes ht

theorem inv_noteIssue {is i} (hs : s.Inv) : (noteIssue s is i).Inv := by
  unfold noteIssue
  dsimp only
  split
  · exact inv_modGang hs
  · exact inv_modCore (inv_modGang hs)

theorem inv_goOn {is pc} (hs : s.Inv) : (goOn s is pc).Inv :=
  inv_modGroup hs

theorem inv_dropSpilled {is i} (hs : s.Inv) : (dropSpilled s is i).Inv :=
  inv_ite hs (inv_modGang hs)

theorem inv_issued {is i} (hs : s.Inv) : (issued s is i).Inv := by
  unfold issued
  exact .frame (h := inv_noteIssue (inv_dropSpilled hs))

theorem inv_movedTo {is i pc} (hs : s.Inv) : (movedTo s is i pc).Inv :=
  inv_issued (inv_goOn hs)

theorem inv_past {is i} (hs : s.Inv) : (past s is i).Inv :=
  inv_movedTo hs

theorem inv_conclude {is i r} (hr : r.Inv) : OutInv (conclude is i r) := by
  unfold conclude
  cases r with
  | done s => exact inv_past hr
  | jump s pc => exact inv_movedTo hr
  | stay s => exact inv_issued hr
  | wait s why => exact State.Inv.frame (h := hr)
  | trap s c => exact inv_issued (inv_takeTrap hr)
  | request s cls info => exact inv_issued (inv_takeTrap hr)
  | throw s ts => exact inv_issued (inv_throwLanes hr)
  | throwAt s pc ts re => exact inv_issued (inv_throwLanes hr)

theorem inv_unlessSeparated {is i r} (hs : s.Inv) (hr : r.Inv) : (unlessSeparated s is i r).Inv := by
  unfold unlessSeparated
  split
  · split
    · exact hr
    · exact inv_throwAllOrNop hs
  · exact hr

theorem inv_screened {is i c} (hs : s.Inv) : OutInv (screened s is i c) := by
  unfold screened
  split
  · next e => exact inv_conclude ((inv_targetCheck hs).of_ok e)
  · next e => exact inv_conclude ((inv_targetCheck hs).of_trap e)
  · next e => exact State.Inv.frame (h := (inv_targetCheck hs).of_wait e)

theorem inv_spillWait {r} (hs : s.Inv) : OutInv (spillWait s r) := by
  unfold spillWait
  exact State.Inv.frame (h := hs)

theorem inv_emulate {is i} (hs : s.Inv) : OutInv (emulate s is i) := by
  unfold emulate
  dsimp only
  split
  · exact inv_issued (inv_takeTrap hs)
  · exact inv_conclude hs

theorem inv_issue {i f} (hs : s.Inv) (hf : ∀ t is, t.Inv → (f t is).Inv) : OutInv (issue i s f) := by
  have hb : ∀ why, OutInv (.next { s with blocked := why }) := fun why => State.Inv.frame (h := hs)
  unfold issue
  split
  · trivial
  · next is _ =>
    split
    · trivial
    · split
      · exact hb _
      · split
        · exact inv_screened hs
        · split
          · split
            · exact inv_conclude hs
            · split
              · exact hb _
              · split
                · exact inv_conclude hs
                · split
                  · exact inv_emulate hs
                  · exact hb _
          · split
            · exact inv_conclude hs
            · split
              · exact hb _
              · split
                · exact inv_conclude (inv_unlessSeparated hs (inv_withDead fun _ => hf _ _ hs))
                · exact inv_spillWait hs

end Sys2Proof.Machine
end

section
/-!
## Control flow

Majors 0x00 to 0x1F. `sameTurns` renumbers the turns of a gang whose groups split or join: events stay as they are.
-/

namespace Sys2Proof.Machine
variable {s t : State}
set_option Elab.async false

theorem inv_headerState {is yld setb seta} (hs : s.Inv) : (headerState s is yld setb seta).Inv :=
  inv_ite (inv_modCore (inv_modGroup hs)) (inv_modGroup hs)

theorem inv_execClauseHeader {yld setb seta wait} (hs : s.Inv) : OutInv (execClauseHeader yld setb seta wait s) := by
  unfold execClauseHeader
  refine inv_issue hs fun _ _ ht => ?_
  split
  · exact ht
  · split
    · exact inv_headerState ht
    · exact ht

theorem inv_execNop (hs : s.Inv) : OutInv (execNop s) :=
  inv_issue hs fun _ _ ht => ht

theorem inv_goTo {is a k} (hs : s.Inv) (hk : ∀ t, t.Inv → (k t).Inv) : (goTo s is a k).Inv := by
  unfold goTo
  split
  · next e => exact hk _ ((inv_headerAt hs).of_ok e)
  · next e => exact (inv_headerAt hs).of_trap e
  · next e => exact (inv_headerAt hs).of_wait e

theorem inv_execBra {t0} (hs : s.Inv) : OutInv (execBra t0 s) :=
  inv_issue hs fun _ _ ht => inv_goTo ht (fun _ hu => hu)

theorem inv_execBrc {sense c off} (hs : s.Inv) : OutInv (execBrc sense c off s) := by
  unfold execBrc
  refine inv_issue hs fun _ _ ht => ?_
  split
  · exact inv_goTo ht fun _ hu => hu
  · exact ht

theorem inv_putAndGo {is g pc} (hs : s.Inv) : (putAndGo s is g pc).Inv := by
  unfold putAndGo
  dsimp only
  split <;> exact inv_modGang hs

theorem inv_execCall {g t0} (hs : s.Inv) : OutInv (execCall g t0 s) := by
  unfold execCall
  refine inv_issue hs fun _ _ ht => ?_
  split
  · exact ht
  · exact inv_goTo ht fun _ hu => inv_putAndGo hu

theorem inv_execCallv {g a b} (hs : s.Inv) : OutInv (execCallv g a b s) := by
  unfold execCallv
  refine inv_issue hs fun _ _ ht => ?_
  dsimp only
  split
  · exact inv_modGroup ht
  · exact inv_goTo ht fun _ hu => inv_putAndGo hu

theorem inv_execRet (hs : s.Inv) : OutInv (execRet s) :=
  inv_issue hs fun _ _ ht => inv_goTo ht (fun _ hu => inv_modGang hu)

theorem inv_structuredState {is g q sets pc} (hs : s.Inv) : (structuredState s is g q sets pc).Inv :=
  inv_modGang hs

theorem inv_structured {is g q sets pc} (hs : s.Inv) : (structured s is g q sets pc).Inv := by
  unfold structured
  dsimp only
  split <;> exact inv_structuredState hs

theorem inv_execIf {gd elseD endD} (hs : s.Inv) : OutInv (execIf gd elseD endD s) := by
  unfold execIf
  refine inv_issue hs fun _ _ ht => ?_
  split
  · exact inv_throwAllOrNop ht
  · dsimp only
    split <;> exact inv_structured ht

theorem inv_execElse (hs : s.Inv) : OutInv (execElse s) :=
  inv_issue hs fun _ _ ht => inv_structured ht

theorem inv_waitAtJoin {is g} (hs : s.Inv) : (waitAtJoin s is g).Inv := by
  unfold waitAtJoin
  dsimp only
  split
  · split <;> exact inv_modGang hs
  · exact inv_modGang hs

theorem event_of_mem_sameTurns {g old new i} (h : Turn.event i ∈ (sameTurns s g old new).agenda) :
    Turn.event i ∈ s.agenda := by
  obtain ⟨t, ht, e⟩ := List.mem_filterMap.1 h
  cases t with
  | event j => cases e; exact ht
  | pass h k => cases e
  | issue h k =>
    dsimp only at e
    split at e
    · obtain ⟨q, _, e⟩ := Option.bind_eq_some_iff.1 e
      obtain ⟨j, _, e⟩ := Option.map_eq_some_iff.1 e
      cases e
    · cases e

theorem inv_sameTurns {g old new} (hs : s.Inv) : (sameTurns s g old new).Inv :=
  ⟨hs.1, fun i hi => hs.2 i (event_of_mem_sameTurns hi)⟩

theorem inv_joinedState {is g} (hs : s.Inv) : (joinedState s is g).Inv :=
  inv_sameTurns (inv_modGang hs)

theorem inv_execEndif (hs : s.Inv) : OutInv (execEndif s) := by
  unfold execEndif
  refine inv_issue hs fun _ _ ht => ?_
  split
  · split
    · split
      · split
        · exact inv_joinedState ht
        · exact ht
      · exact inv_waitAtJoin ht
    · exact inv_modGang ht
  · exact inv_modGang ht

theorem inv_execGjoin (hs : s.Inv) : OutInv (execGjoin s) := by
  unfold execGjoin
  refine inv_issue hs fun _ _ ht => ?_
  split
  · exact ht
  · split
    · split
      · exact inv_joinedState ht
      · exact ht
    · exact inv_waitAtJoin ht

theorem inv_execLoop (hs : s.Inv) : OutInv (execLoop s) := by
  unfold execLoop
  refine inv_issue hs fun _ _ ht => ?_
  split
  · exact inv_throwAllOrNop ht
  · exact inv_structured ht

theorem inv_leave {is gd k} (hs : s.Inv) : (leave s is gd k).Inv :=
  inv_structured hs

theorem inv_execBrk {gd} (hs : s.Inv) : OutInv (execBrk gd s) :=
  inv_issue hs fun _ _ ht => inv_leave ht

theorem inv_execCont {gd} (hs : s.Inv) : OutInv (execCont gd s) :=
  inv_issue hs fun _ _ ht => inv_leave ht

theorem inv_execEndloop (hs : s.Inv) : OutInv (execEndloop s) := by
  unfold execEndloop
  refine inv_issue hs fun _ _ ht => ?_
  split <;> exact inv_structured ht

theorem inv_execWaitp {path t0} (hs : s.Inv) : OutInv (execWaitp path t0 s) := by
  unfold execWaitp
  refine inv_issue hs fun _ _ ht => ?_
  split <;> exact ht

theorem inv_groupEnded {is} (hs : s.Inv) : (groupEnded s is).Inv :=
  inv_modGroup hs

theorem inv_lastExit {is} (hs : s.Inv) : (lastExit s is).Inv := by
  unfold lastExit
  split
  · exact inv_endGang (inv_groupEnded (inv_fst (inv_bodyEnd hs) ‹_›))
  · exact inv_throwMany (inv_fst (inv_bodyEnd hs) ‹_›)

theorem inv_execExit (hs : s.Inv) : OutInv (execExit s) := by
  unfold execExit
  refine inv_issue hs fun _ _ ht => ?_
  split
  · exact ht
  · split
    · exact inv_lastExit ht
    · exact inv_groupEnded ht

theorem inv_execTryGang {off} (hs : s.Inv) : OutInv (execTryGang off s) := by
  unfold execTryGang
  refine inv_issue hs fun _ _ ht => ?_
  refine inv_goTo ht fun _ hu => ?_
  split
  · exact inv_throwAllOrNop ht
  · exact inv_modGang hu

theorem inv_execTryCrew {off} (hs : s.Inv) : OutInv (execTryCrew off s) := by
  unfold execTryCrew
  refine inv_issue hs fun _ _ ht => ?_
  refine inv_goTo ht fun _ hu => ?_
  split
  · split
    · exact inv_throwAllOrNop ht
    · exact inv_modGang (inv_modCrew hu)
  · exact ht

theorem inv_execTryLaunch {off} (hs : s.Inv) : OutInv (execTryLaunch off s) := by
  unfold execTryLaunch
  refine inv_issue hs fun _ _ ht => ?_
  refine inv_goTo ht fun _ hu => ?_
  split
  · split
    · exact inv_throwAllOrNop ht
    · exact inv_modGang (inv_modLaunch hu)
  · exact ht

theorem inv_execEndtryGang (hs : s.Inv) : OutInv (execEndtryGang s) := by
  unfold execEndtryGang
  refine inv_issue hs fun _ _ ht => ?_
  split
  · exact inv_modGang ht
  · exact ht

theorem inv_endtryOuter {is level} (hs : s.Inv) : (endtryOuter s is level).Inv := by
  unfold endtryOuter
  split
  · exact inv_closeRegions (inv_modGang hs)
  · exact hs

theorem inv_execEndtryCrew (hs : s.Inv) : OutInv (execEndtryCrew s) :=
  inv_issue hs fun _ _ ht => inv_endtryOuter ht

theorem inv_execEndtryLaunch (hs : s.Inv) : OutInv (execEndtryLaunch s) :=
  inv_issue hs fun _ _ ht => inv_endtryOuter ht

theorem inv_execThrow {gd a} (hs : s.Inv) : OutInv (execThrow gd a s) := by
  unfold execThrow
  refine inv_issue hs fun _ _ ht => ?_
  split <;> exact ht

theorem inv_execRethrow (hs : s.Inv) : OutInv (execRethrow s) := by
  unfold execRethrow
  refine inv_issue hs fun _ _ ht => ?_
  dsimp only
  split <;> exact ht

theorem inv_execRdexr {d a} (hs : s.Inv) : OutInv (execRdexr d a s) :=
  inv_issue hs fun _ _ ht => inv_writeScalar ht

end Sys2Proof.Machine
end

section
/-!
## The copy engine

Commands of the copy engine, piece by piece (R283 to R287).
-/

namespace Sys2Proof.Machine
variable {s t : State}
set_option Elab.async false

theorem inv_modBar {c n f} (hs : s.Inv) : (modBar s c n f).Inv :=
  inv_modCrew hs

theorem inv_barLower {c n k} (hs : s.Inv) : (barLower s c n k).Inv :=
  inv_modBar hs

theorem inv_barArrive {c n} (hs : s.Inv) : (barArrive s c n).Inv :=
  inv_modBar hs

theorem inv_flipBars (hs : s.Inv) : (flipBars s).Inv := by
  unfold flipBars
  exact hs.frame

theorem inv_engRead {pa n} (hs : s.Inv) : (engRead s pa n).1.Inv := by
  unfold engRead
  split
  · exact inv_foldl hs fun _ _ ht => inv_homeFetch ht
  · exact hs

theorem inv_locPage {core m k va n write} (hs : s.Inv) : (locPage s core m k va n write).1.Inv := by
  unfold locPage
  extract_lets body mine
  refine inv_ite_fst hs (inv_ite_fst hs ?_)
  split
  · next e => exact inv_requestPage (inv_fst (inv_translate hs) e)
  · next e =>
    have ht := inv_fst (inv_translate hs) e
    exact inv_ite_fst ht (inv_ite_fst ht (inv_ite_fst ht (inv_ite_fst ht (inv_ite_fst ht (inv_ite_fst ht ht)))))

theorem inv_locGlobal {core m k va n write} (hs : s.Inv) : (locGlobal s core m k va n write).1.Inv := by
  unfold locGlobal
  dsimp only
  split
  · exact inv_locPage hs
  · split
    · have ht := inv_fst (inv_locPage hs) ‹_›
      split
      · exact inv_fst (inv_locPage ht) ‹_›
      · exact inv_locPage ht
    · exact inv_locPage hs

theorem inv_planElem {core m k} (hs : s.Inv) : (planElem s core m k).1.Inv := by
  unfold planElem
  split
  · exact hs
  · exact hs
  · extract_lets r o
    split
    · exact hs
    · exact hs
    · extract_lets a record source dest
      have hrec : ∀ t w, t.Inv → (record t w).1.Inv := by
        intro t w ht
        unfold record
        split
        · exact ht
        · exact inv_locGlobal ht
      have hsource : (source s).1.Inv := by
        unfold source
        split
        · exact hs
        · split
          · exact hs
          · exact hrec _ _ hs
      have hdest : ∀ t, t.Inv → (dest t).1.Inv := by
        intro t ht
        unfold dest
        split
        · exact ht
        · exact ht
        · split
          · exact hrec _ _ ht
          · exact ht
      split
      · next e => exact inv_fst hsource e
      · next e => exact inv_fst hsource e
      · next e =>
        have ht := inv_fst hsource e
        split
        · next e' => exact inv_fst (hdest _ ht) e'
        · next e' => exact inv_fst (hdest _ ht) e'
        · next e' => exact inv_fst (hdest _ ht) e'

theorem inv_planAll {core m ks} (hs : s.Inv) : (planAll s core m ks).1.Inv := by
  induction ks generalizing s with
  | nil => exact hs
  | cons k ks ih => exact ih (inv_planElem hs)

theorem inv_raceStretches {m core write xs} (hs : s.Inv) : (raceStretches s m core write xs).Inv :=
  inv_foldl hs fun _ _ ht => inv_foldl ht (fun _ _ hu => inv_raceAccess hu)

theorem inv_readStretches {m xs} (hs : s.Inv) : (readStretches s m xs).1.Inv := by
  induction xs generalizing s with
  | nil => exact hs
  | cons x xs ih =>
    refine ih ?_
    split
    · exact hs
    · exact inv_engRead hs

theorem inv_putOut {core crew p dst out} (hs : s.Inv) : (putOut s core crew p dst out).Inv :=
  inv_foldl (inv_countCore hs) fun _ _ ht => inv_ite (inv_scrWrite ht) (inv_sysWrite ht)

theorem inv_putMoved {core m p k crew dst out} (hs : s.Inv) : (putMoved s core m p k crew dst out).1.Inv :=
  inv_putOut hs

theorem inv_deliver {core m p k out} (hs : s.Inv) : (deliver s core m p k out).1.Inv := by
  refine List.foldlRecOn (motive := fun acc : (State × CopyCmd) × List Nat => acc.1.1.Inv) _ _ hs fun acc ha tgt _ => ?_
  dsimp only
  split
  · exact ha
  · split
    · exact ha
    · split
      · exact ha
      · exact inv_putMoved ha

theorem inv_elemSource {core m k src dst} (hs : s.Inv) : (elemSource s core m k src dst).1.Inv := by
  unfold elemSource
  split
  · exact hs
  · exact inv_raceStretches (inv_readStretches (inv_raceStretches hs))

theorem inv_moveElem {core p acc e} (hacc : acc.1.Inv) : (moveElem core p acc e).1.Inv := by
  unfold moveElem
  split
  · split
    · exact hacc
    · exact hacc
    · exact hacc
    · dsimp only
      split
      · exact inv_deliver (inv_elemSource hacc)
      · exact inv_putMoved (inv_elemSource hacc)

theorem inv_countLines {core es} (hs : s.Inv) : (countLines s core es).Inv :=
  inv_foldl hs fun _ _ ht => inv_countPort (inv_countHome ht)

theorem inv_putCopy {core idx m} (hs : s.Inv) : (putCopy s core idx m).Inv :=
  inv_modCore hs

theorem inv_payDue {m f} (hs : s.Inv) : (payDue s m f).Inv := by
  unfold payDue
  split
  · exact hs
  · exact inv_foldl hs fun _ _ ht => inv_ite (inv_barLower ht) ht

theorem inv_copyPiece {core idx m p} (hs : s.Inv) : (copyPiece s core idx m p).Inv := by
  unfold copyPiece
  extract_lets ks r es _ u v
  have hr : r.1.Inv := inv_planAll hs
  have hu : u.Inv := inv_countLines hr.frame
  have hv : v.1.Inv := inv_foldl_fst hu fun _ _ ht => inv_moveElem ht
  exact inv_ite (inv_putCopy (inv_payDue hv)) (inv_putCopy hv)

theorem inv_placeElem {core m k src dst} (hs : s.Inv) : (placeElem s core m k src dst).1.Inv :=
  inv_elemSource hs

theorem inv_preWrite {core k0 n m k src dst} (hs : s.Inv) : (preWrite s core k0 n m k src dst).1.Inv :=
  inv_foldl_fst hs fun _ _ ht => inv_putOut ht

theorem inv_moveEarly {core idx m} (hs : s.Inv) : (moveEarly s core idx m).Inv := by
  unfold moveEarly
  dsimp only
  refine inv_putCopy ?_
  refine inv_foldl_fst hs.frame fun _ _ ht => ?_
  split
  · split
    · split
      · split
        · exact inv_preWrite (inv_placeElem (inv_planElem ht))
        · exact inv_placeElem (inv_planElem ht)
      · exact inv_preWrite (inv_planElem ht)
    · split
      · split
        · exact inv_preWrite (inv_placeElem (inv_planElem ht))
        · exact inv_placeElem (inv_planElem ht)
      · split
        · exact inv_preWrite (inv_planElem ht)
        · exact inv_planElem ht
  · exact inv_planElem ht

theorem inv_moveAllEarly {core} (hs : s.Inv) : (moveAllEarly s core).Inv := by
  unfold moveAllEarly
  refine inv_foldl hs fun _ _ ht => ?_
  split
  · exact inv_ite ht (inv_moveEarly ht)
  · exact ht

theorem inv_dropCopy {core idx} (hs : s.Inv) : (dropCopy s core idx).Inv :=
  inv_modCore hs

theorem inv_forgetCopy {m} (hs : s.Inv) : (forgetCopy s m).Inv := by
  unfold forgetCopy
  exact hs.frame

theorem inv_copyDone {core idx m} (hs : s.Inv) : (copyDone s core idx m).Inv := by
  unfold copyDone
  dsimp only
  refine inv_resolveOp ?_
  split
  · exact inv_forgetCopy (inv_dropCopy hs)
  · exact inv_barLower (inv_forgetCopy (inv_dropCopy hs))
  · exact inv_forgetCopy (inv_dropCopy hs)

theorem inv_copyCancelled {core m} (hs : s.Inv) : (copyCancelled s core m).Inv := by
  unfold copyCancelled
  dsimp only
  refine inv_resolveOp ?_
  split
  · exact inv_ite (inv_barLower (inv_payDue (inv_forgetCopy hs))) (inv_payDue (inv_forgetCopy hs))
  · exact inv_payDue (inv_forgetCopy hs)

theorem inv_cancelCopies {core p n} (hs : s.Inv) : (cancelCopies s core p n).Inv := by
  induction n generalizing s with
  | zero => exact hs
  | succ n ih =>
    unfold cancelCopies
    split
    · exact hs
    · split
      · exact hs
      · split
        · exact hs
        · exact ih (inv_copyCancelled (inv_dropCopy hs))

theorem inv_finishSegments {core idx ps} (hs : s.Inv) : (finishSegments s core idx ps).Inv := by
  induction ps generalizing s with
  | nil => exact hs
  | cons p ps ih =>
    unfold finishSegments
    split
    · exact hs
    · exact ih (inv_ite (inv_copyPiece hs) hs)

end Sys2Proof.Machine
end

section
/-!
## The matrix engine

Commands of the matrix engine (R288 to R293).
-/

namespace Sys2Proof.Machine
variable {s t : State}
set_option Elab.async false

theorem inv_modTile {c k f} (hs : s.Inv) : (modTile s c k f).Inv :=
  inv_modCrew hs

theorem inv_acceptMx {core m} (hs : s.Inv) : (acceptMx s core m).Inv := by
  unfold acceptMx
  dsimp only
  split
  · exact inv_modTile (inv_modCore hs)
  · exact inv_modTile (inv_modCore hs)
  · exact inv_modTile (inv_modCore hs)
  · exact inv_modTile (inv_modCore hs)
  · exact inv_modCore hs

theorem inv_invalidate {m later} (hs : s.Inv) : (invalidate s m later).Inv := by
  unfold invalidate
  exact inv_modTile hs

theorem inv_resolveMx {m code flags} (hs : s.Inv) : (resolveMx s m code flags).Inv := by
  unfold resolveMx
  split <;> exact inv_resolveOp hs

theorem inv_applyStep {m el} (hs : s.Inv) : (applyStep s m el).Inv :=
  inv_modTile hs

theorem inv_readAhead {core m o bs} (hs : s.Inv) : (readAhead s core m o bs).Inv := by
  unfold readAhead
  split
  · exact hs
  · exact inv_ite (.frame (h := inv_modCore hs)) hs

theorem inv_drainAhead {core front p} (hs : s.Inv) : (drainAhead core front s p).Inv := by
  unfold drainAhead
  split
  · exact inv_modCore (inv_foldl hs.frame (fun _ _ ht => inv_scrWrite ht))
  · exact hs

theorem inv_drainsAhead {core front} (hs : s.Inv) : (drainsAhead s core front).Inv :=
  inv_foldl hs fun _ _ ht => inv_drainAhead ht

theorem inv_runDrain {core m o tgt} (hs : s.Inv) : (runDrain s core m o tgt).Inv := by
  unfold runDrain
  split
  · exact hs
  · dsimp only
    refine inv_resolveMx ?_
    refine inv_foldl (inv_readAhead hs) fun _ _ ht => ?_
    split
    · exact ht
    · split
      · exact inv_scrWrite ht
      · refine inv_foldl ht fun _ _ hu => ?_
        split
        · exact inv_ite hu (inv_scrWrite hu)
        · exact hu

theorem inv_partialDrain {m o tgt} (hs : s.Inv) : (partialDrain s m o tgt).Inv := by
  unfold partialDrain
  split
  · exact hs
  · exact inv_foldl hs.frame fun _ _ ht => inv_ite (inv_scrWrite ht) ht

theorem inv_removeMx {core idx} (hs : s.Inv) : (removeMx s core idx).Inv := by
  unfold removeMx
  dsimp only
  split
  · exact hs
  · refine inv_resolveOp ?_
    refine inv_modCrew ?_
    split
    · exact inv_invalidate (inv_modCore hs)
    · exact inv_invalidate (inv_modCore hs)
    · exact inv_invalidate (inv_modCore hs)
    · exact inv_invalidate (inv_modCore hs)
    · exact inv_ite (inv_partialDrain (inv_modCore hs)) (inv_modCore hs)
    · exact inv_modCore hs

theorem inv_cancelMx {core idx} (hs : s.Inv) : (cancelMx s core idx).Inv := by
  unfold cancelMx
  split
  · exact hs
  · split
    · exact inv_removeMx (inv_removeMx hs)
    · exact inv_removeMx hs

theorem inv_cancelMxAll {core p n} (hs : s.Inv) : (cancelMxAll s core p n).Inv := by
  induction n generalizing s with
  | zero => exact hs
  | succ n ih =>
    unfold cancelMxAll
    split
    · exact hs
    · exact ih (inv_cancelMx hs)

theorem inv_runMx {core m} (hs : s.Inv) : (runMx s core m).Inv := by
  unfold runMx
  split
  · exact hs
  · split
    · split
      · exact inv_resolveMx (inv_applyStep hs)
      · exact inv_resolveMx hs
    · split
      · exact inv_resolveMx (inv_applyStep hs)
      · exact inv_resolveMx hs
    · split
      · exact inv_resolveMx (inv_applyStep hs)
      · exact inv_resolveMx hs
    · exact inv_resolveMx (inv_modTile hs)
    · exact inv_runDrain hs
    · exact inv_resolveMx (inv_modCrew hs)
    · exact inv_resolveMx hs

theorem inv_runPair {m p} (hs : s.Inv) : (runPair s m p).Inv := by
  unfold runPair
  split
  · exact hs
  · split
    · exact inv_resolveMx (inv_resolveMx (inv_applyStep (inv_applyStep hs)))
    · exact inv_resolveMx (inv_resolveMx hs)
    · exact inv_ite (inv_resolveMx (inv_resolveMx (inv_applyStep hs))) (inv_resolveMx (inv_resolveMx hs))
    · exact inv_ite (inv_resolveMx (inv_resolveMx (inv_applyStep hs))) (inv_resolveMx (inv_resolveMx hs))

theorem inv_beginFront {core} (hs : s.Inv) : (beginFront s core).Inv := by
  unfold beginFront
  split
  · exact hs
  · exact inv_modCore hs

theorem inv_runSet {core m} (hs : s.Inv) : (runSet s core m).Inv :=
  inv_modCore (inv_runMx hs)

theorem inv_startMx {core} (hs : s.Inv) : (startMx s core).Inv := by
  unfold startMx
  split
  · exact hs
  · split
    · exact hs
    · split
      · exact inv_runSet hs
      · exact inv_beginFront (inv_beginFront hs)
      · exact inv_beginFront hs

theorem inv_leaveMx {core m} (hs : s.Inv) : (leaveMx s core m).Inv :=
  inv_modCore hs

theorem inv_endMx {core} (hs : s.Inv) : (endMx s core).Inv := by
  unfold endMx
  split
  · exact hs
  · split
    · exact hs
    · split
      · split
        · split
          · exact inv_ite hs (inv_leaveMx (inv_leaveMx (inv_runPair (inv_drainsAhead (inv_drainsAhead hs)))))
          · exact hs
        · exact hs
      · exact inv_leaveMx (inv_runMx (inv_drainsAhead hs))

theorem inv_mxTick {core} (hs : s.Inv) : (mxTick s core).Inv := by
  unfold mxTick
  dsimp only
  split
  · exact inv_modCore hs
  · exact inv_ite (inv_ite (inv_countCore (inv_modCore hs)) (inv_modCore hs)) (inv_ite (inv_modCore (inv_countCore
      (inv_freshen hs))) (inv_modCore hs))

end Sys2Proof.Machine
end

section
/-!
## Memory instructions

Loads, stores, atomics and the range forms (majors 0x70 to 0x8F).
-/

namespace Sys2Proof.Machine
variable {s t : State}
set_option Elab.async false

theorem inv_memThrow {is ts} (hs : s.Inv) : (memThrow s is ts).Inv :=
  inv_ite (inv_breakBody hs) hs

theorem inv_uniThrow {is code} (hs : s.Inv) : (uniThrow s is code).Inv :=
  inv_memThrow hs

theorem inv_gChecks {is m k} (hs : s.Inv) : (gChecks s is m k).1.Inv :=
  inv_chkLanes hs fun _ _ ht => inv_chkRec ht

theorem inv_sChecks {is m} (hs : s.Inv) : (sChecks s is m).1.Inv :=
  inv_chkLanes hs fun _ _ ht => ht

theorem inv_launched {r is rp kind path fk sc sz d data cmp} (hr : r.1.Inv) :
    (launched r is rp kind path fk sc sz d data cmp).Inv :=
  inv_askPages (inv_launchFlight hr)

theorem inv_launch {r is rp kind path fk sc sz d data cmp} (hr : r.1.Inv) :
    (launch r is rp kind path fk sc sz d data cmp).Inv := by
  unfold launch
  split
  · exact inv_memThrow hr
  · split
    · exact hr
    · exact inv_launched hr

theorem inv_queueDst {is d r} (hs : s.Inv) (hr : r.Inv) : (queueDst s is d r).Inv := by
  unfold queueDst
  split
  · exact hr
  · exact inv_throwAllOrNop hs

theorem inv_stored {is cs sc sz data path} (hs : s.Inv) : (stored s is cs sc sz data path).Inv :=
  inv_ite (inv_askPages (inv_awaitStore hs)) (inv_enterStores hs)

theorem inv_store {is sz sc data path chk} (hs : s.Inv) (hk : ∀ t is, t.Inv → (chk t is).1.Inv) :
    (store s is sz sc data path chk).Inv := by
  unfold store
  refine inv_withQueues hs fun t is _ ht => ?_
  have hc : (chk s is).1.Inv := hk _ _ hs
  dsimp only
  split
  · exact inv_memThrow hc
  · split
    · exact hc
    · split
      · exact inv_stored (inv_popAll hc ‹_›)
      · exact hc

theorem inv_onCovered {c f} (hc : c.1.Inv) (hf : ∀ t rs, t.Inv → (f t rs).Inv) : (onCovered c f).Inv := by
  unfold onCovered
  split
  · exact hf _ _ hc
  · exact hc

theorem inv_onRange {is r f} (hs : s.Inv) (hf : ∀ x, (f x).Inv) : (onRange s is r f).Inv := by
  unfold onRange
  split
  · exact hs
  · split
    · exact inv_uniThrow hs
    · exact hf _

theorem inv_execLd {m sx d} (hs : s.Inv) : OutInv (execLd m sx d s) :=
  inv_issue hs fun _ _ ht => inv_queueDst ht (inv_launch (inv_gChecks ht))

theorem inv_execLdRp {m sx d p} (hs : s.Inv) : OutInv (execLdRp m sx d p s) :=
  inv_issue hs fun _ _ ht => inv_queueDst ht (inv_launch (inv_gChecks ht))

theorem inv_execSt {m data} (hs : s.Inv) : OutInv (execSt m data s) :=
  inv_issue hs fun _ _ ht => inv_store ht (fun _ _ hu => inv_gChecks hu)

theorem inv_execLds {m sx d} (hs : s.Inv) : OutInv (execLds m sx d s) :=
  inv_issue hs fun _ _ ht => inv_queueDst ht (inv_launch (inv_sChecks ht))

theorem inv_execSts {m data} (hs : s.Inv) : OutInv (execSts m data s) :=
  inv_issue hs fun _ _ ht => inv_store ht (fun _ _ hu => inv_sChecks hu)

theorem inv_execAtom {op m d data} (hs : s.Inv) : OutInv (execAtom op m d data s) :=
  inv_issue hs fun _ _ ht => inv_launch (inv_gChecks ht)

theorem inv_execAtoms {op m d data} (hs : s.Inv) : OutInv (execAtoms op m d data s) :=
  inv_issue hs fun _ _ ht => inv_launch (inv_sChecks ht)

theorem inv_execFence {sc d} (hs : s.Inv) : OutInv (execFence sc d s) :=
  inv_issue hs fun _ _ ht => inv_launchFlight (inv_modGang ht)

theorem inv_execPersist (hs : s.Inv) : OutInv (execPersist s) :=
  inv_issue hs fun _ _ ht => inv_modGang (inv_modGroup ht)

theorem inv_setWatch {is w} (hs : s.Inv) : (setWatch s is w).Inv :=
  inv_modGroup hs

theorem inv_waitLoad {is z sc p} (hs : s.Inv) : (waitLoad s is z sc p).1.Inv := by
  unfold waitLoad
  dsimp only
  split
  · refine inv_raceGang ?_
    refine inv_loadBytes ?_
    split <;> exact inv_ite hs (inv_countAccess hs)
  · refine inv_loadBytes ?_
    split
    · exact inv_ite hs (inv_countAccess hs)
    · exact hs

theorem inv_waitedAt {is sc p} (hs : s.Inv) : (waitedAt s is sc p).Inv :=
  inv_modGang (inv_ite (inv_setWatch hs) (inv_acquire (inv_setWatch hs)))

theorem inv_waitOn {is c z sc d p a b} (hs : s.Inv) : (waitOn s is c z sc d p a b).Inv := by
  unfold waitOn
  split
  · exact inv_setWatch hs
  · dsimp only
    split
    · exact inv_uniThrow (inv_setWatch hs)
    · split
      · exact inv_uniThrow (inv_setWatch (inv_waitLoad hs))
      · split
        · exact inv_writeScalar (inv_waitedAt (inv_waitLoad hs))
        · exact inv_setWatch (inv_waitLoad hs)

theorem inv_waitAt {is c size sc d spad a b} (hs : s.Inv) : (waitAt s is c size sc d spad a b).Inv := by
  unfold waitAt
  split
  · exact inv_uniThrow (inv_setWatch (inv_fst (inv_alone (inv_chkAt hs)) ‹_›))
  · exact inv_uniThrow (inv_setWatch (inv_fst (inv_alone (inv_chkAt hs)) ‹_›))
  · exact inv_fst (inv_alone (inv_chkAt hs)) ‹_›
  · exact inv_askPages (inv_fst (inv_alone (inv_chkAt hs)) ‹_›)
  · exact inv_waitOn (inv_fst (inv_alone (inv_chkAt hs)) ‹_›)

theorem inv_execWaita {c size sc d idx rc cmp disp} (hs : s.Inv) : OutInv (execWaita c size sc d idx rc cmp disp s) := by
  unfold execWaita
  refine inv_issue hs fun _ _ ht => ?_
  split
  · exact ht
  · split
    · split
      · exact inv_waitAt ht
      · exact ht
    · dsimp only
      split
      · exact inv_uniThrow ht
      · exact inv_waitAt ht

theorem inv_wokenState {is p} (hs : s.Inv) : (wokenState s is p).Inv := by
  unfold wokenState
  split
  · exact inv_fireScr hs
  · exact hs
  · exact inv_fireWatch hs

theorem inv_execWake {sc idx rc disp} (hs : s.Inv) : OutInv (execWake sc idx rc disp s) := by
  unfold execWake
  refine inv_issue hs fun _ _ ht => ?_
  split
  · exact ht
  · dsimp only
    split
    · exact inv_uniThrow (inv_fst (inv_alone (inv_chkRec ht)) ‹_›)
    · exact inv_uniThrow (inv_fst (inv_alone (inv_chkRec ht)) ‹_›)
    · exact inv_fst (inv_alone (inv_chkRec ht)) ‹_›
    · exact inv_askPages (inv_fst (inv_alone (inv_chkRec ht)) ‹_›)
    · have hu := inv_fst (inv_alone (inv_chkRec ht)) ‹_›
      split
      · exact hu
      · exact inv_wokenState hu

theorem inv_coverPiece {is ctx cls k acc p} (hacc : acc.1.Inv) : (coverPiece is ctx cls k acc p).1.Inv := by
  unfold coverPiece
  split
  · dsimp only
    split
    · exact hacc
    · split
      · split <;> exact hacc
      · split
        · exact inv_requestPage (inv_fst (inv_translate hacc) ‹_›)
        · split <;> exact inv_fst (inv_translate hacc) ‹_›

theorem inv_coveredRanges {is cls k a n} (hs : s.Inv) : (coveredRanges s is cls k a n).1.Inv :=
  inv_ite (inv_modGroup (inv_foldl_fst hs (fun _ _ ht => inv_coverPiece ht))) (inv_foldl_fst hs
    (fun _ _ ht => inv_coverPiece ht))

theorem inv_zChecks {is x} (hs : s.Inv) : (zChecks s is x).1.Inv := by
  unfold zChecks
  refine inv_chkLanes hs fun r k hr => ?_
  cases (pagePieces x.a x.len)[k]? with
  | none => exact hr
  | some p => exact inv_chkZero hr

theorem inv_zfillScr {is x} (hs : s.Inv) : (zfillScr s is x).Inv := by
  unfold zfillScr
  split
  · exact inv_uniThrow hs
  · split
    · exact inv_uniThrow hs
    · split
      · exact inv_bufferStores hs
      · exact inv_uniThrow hs

theorem inv_awaitZfill {is x cs} (hs : s.Inv) : (awaitZfill s is x cs).Inv :=
  inv_askPages (inv_awaitFlight hs)

theorem inv_execZfill {r} (hs : s.Inv) : OutInv (execZfill r s) := by
  unfold execZfill
  refine inv_issue hs fun _ _ ht => ?_
  refine inv_onRange ht fun _ => ?_
  split
  · exact inv_zfillScr ht
  · dsimp only
    split
    · exact inv_uniThrow (inv_zChecks ht)
    · split
      · exact inv_zChecks ht
      · split
        · exact inv_awaitZfill (inv_zChecks ht)
        · exact inv_bufferStores (inv_zChecks ht)

theorem inv_pageNeed {is va} (hs : s.Inv) : (pageNeed s is va).1.Inv := by
  unfold pageNeed
  dsimp only
  split
  · exact inv_fst (inv_translate hs) ‹_›
  · split <;> split <;> exact inv_fst (inv_translate hs) ‹_›

theorem inv_pageNeeds {is ps} (hs : s.Inv) : (pageNeeds s is ps).1.Inv := by
  induction ps generalizing s with
  | nil => exact hs
  | cons p ps ih => exact ih (inv_pageNeed hs)

theorem inv_pagesAsked {is f c tok ns} (hs : s.Inv) : (pagesAsked s is f c tok ns).Inv := by
  unfold pagesAsked
  extract_lets t _ u _ _
  have ht : t.Inv := inv_modGang hs
  have hu : u.Inv := by
    unfold u
    refine inv_foldl ht fun _ _ hu => ?_
    split
    · exact inv_requestPage hu
    · exact hu
  exact ‹_›

theorem inv_execPagereq {f r} (hs : s.Inv) : OutInv (execPagereq f r s) := by
  unfold execPagereq
  refine inv_issue hs fun _ _ ht => ?_
  refine inv_onRange ht fun _ => ?_
  split
  · exact ht
  · dsimp only
    split
    · split
      · exact inv_uniThrow ht
      · split
        · exact ht
        · exact inv_pagesAsked (inv_newOp ht ‹_›)
    · split
      · exact inv_uniThrow (inv_pageNeeds ht)
      · split
        · exact inv_pageNeeds ht
        · exact inv_pagesAsked (inv_newOp (inv_pageNeeds ht) ‹_›)

theorem inv_cctl {is rs dev disc} (hs : s.Inv) : (cctl s is rs dev disc).Inv := by
  unfold cctl
  extract_lets c own t u v
  have ht : t.Inv := inv_foldl hs fun _ _ ht => inv_coreLineHome ht
  have hu : u.Inv := inv_ite (inv_foldl ht fun _ _ ht => inv_homeWriteBack ht) ht
  have hv : v.Inv := inv_modCore hu
  exact inv_ite (inv_ite hv.frame hv) hu

theorem inv_cctlOp {is sc r disc} (hs : s.Inv) : (cctlOp s is sc r disc).Inv := by
  unfold cctlOp
  refine inv_onRange hs fun _ => ?_
  split
  · exact hs
  · exact inv_onCovered (inv_coveredRanges hs) fun _ _ ht => inv_cctl ht

theorem inv_execCctlWb {sc r} (hs : s.Inv) : OutInv (execCctlWb sc r s) :=
  inv_issue hs fun _ _ ht => inv_cctlOp ht

theorem inv_execCctlDisc {sc r} (hs : s.Inv) : OutInv (execCctlDisc sc r s) :=
  inv_issue hs fun _ _ ht => inv_cctlOp ht

theorem inv_codeRanges {is x} (hs : s.Inv) : (codeRanges s is x).1.Inv := by
  unfold codeRanges
  split
  · exact hs
  · exact inv_coveredRanges hs

theorem inv_fillLines {c rs pin} (hs : s.Inv) : (fillLines s c rs pin).Inv :=
  inv_foldl hs fun _ _ ht => inv_ite ht (inv_icacheFill (inv_lineBytes (inv_countHome ht)))

theorem inv_icFill {is r pin} (hs : s.Inv) : (icFill s is r pin).Inv :=
  inv_onRange hs fun _ => inv_onCovered (inv_codeRanges hs) (fun _ _ ht => inv_fillLines ht)

theorem inv_execIcpf {r} (hs : s.Inv) : OutInv (execIcpf r s) :=
  inv_issue hs fun _ _ ht => inv_icFill ht

theorem inv_execIcpin {r} (hs : s.Inv) : OutInv (execIcpin r s) :=
  inv_issue hs fun _ _ ht => inv_icFill ht

theorem inv_execIcpinUnpin {r} (hs : s.Inv) : OutInv (execIcpinUnpin r s) :=
  inv_issue hs fun _ _ ht => inv_onRange ht (fun _ => inv_onCovered (inv_codeRanges ht) (fun _ _ hu => inv_modCore hu))

theorem inv_execIcinvCrew {r} (hs : s.Inv) : OutInv (execIcinvCrew r s) :=
  inv_issue hs fun _ _ ht => inv_onRange ht (fun _ => inv_onCovered (inv_codeRanges ht) (fun _ _ hu => inv_modCore hu))

theorem inv_execIcinvDev {r} (hs : s.Inv) : OutInv (execIcinvDev r s) := by
  unfold execIcinvDev
  refine inv_issue hs fun _ _ ht => ?_
  split
  · exact inv_modGroup ht
  · exact ht
  · exact inv_onRange ht fun _ => inv_onCovered (inv_codeRanges ht) (fun _ _ hu => inv_modGroup hu)

theorem inv_execQstat {full d q c} (hs : s.Inv) : OutInv (execQstat full d q c s) := by
  unfold execQstat
  refine inv_issue hs fun _ _ ht => ?_
  split <;> exact inv_writeScalar (inv_modGang ht)

theorem inv_execAppend {gd d a b} (hs : s.Inv) : OutInv (execAppend gd d a b s) := by
  unfold execAppend
  refine inv_issue hs fun _ _ ht => ?_
  extract_lets ls
  split
  · exact ht
  · split
    · extract_lets p held
      split
      · exact ht
      · split
        · exact inv_throwAll ht
        · exact inv_writeLanes (inv_atomWrite (inv_loadBytes ht))
    · exact inv_throwAll ht
    · exact ht

end Sys2Proof.Machine
end

section
/-!
## Engine commands, futures and barriers

Majors 0x90 to 0xA4.
-/

namespace Sys2Proof.Machine
variable {s t : State}
set_option Elab.async false

theorem inv_command {is g f k} (hs : s.Inv) (hk : ∀ c n cr, (k c n cr).Inv) : (command s is g f k).Inv := by
  unfold command
  split
  · split
    · exact inv_modGang hs
    · exact hk _ _ _
  · exact hs

theorem inv_checked {is cs k} (hs : s.Inv) (hk : k.Inv) : (checked s is cs k).Inv := by
  unfold checked
  split
  · exact inv_throwAll hs
  · exact hk

theorem inv_afterRelease {is r k} (hs : s.Inv) (hr : ∀ t ts, r = some (t, ts) → t.Inv) (hk : ∀ t, t.Inv → (k t).Inv) :
    (afterRelease is s r k).Inv := by
  unfold afterRelease
  split
  · exact hs
  · exact hk _ (hr _ _ rfl)
  · exact inv_throwMany (hr _ _ rfl)

theorem inv_withOp {is c n f kind k} (hs : s.Inv) (hk : ∀ t tok, t.Inv → (k t tok).Inv) :
    (withOp s is c n f kind k).Inv := by
  unfold withOp
  split
  · exact hs
  · next e => exact hk _ _ (inv_modGang (inv_newOp hs e))

theorem inv_bodyOfCopy {is r i count writes} (hs : s.Inv) : (bodyOfCopy s is r i count writes).1.Inv := by
  unfold bodyOfCopy
  split
  · exact hs
  · exact inv_chkLanes hs fun _ _ ht => inv_chkGlobal ht

theorem inv_copyAccepted {is core c bar arr empty m tok} (hs : s.Inv) :
    (copyAccepted s is core c bar arr empty m tok).Inv := by
  unfold copyAccepted
  dsimp only
  split
  · refine inv_resolveOp ?_
    refine inv_modGang ?_
    split
    · exact inv_barArrive hs
    · exact hs
  · refine inv_modCore ?_
    refine inv_modGang ?_
    split
    · exact inv_barArrive hs
    · exact hs

theorem inv_acceptCopy {is c n f bar arr empty mk} (hs : s.Inv) : (acceptCopy s is c n f bar arr empty mk).Inv := by
  unfold acceptCopy
  dsimp only
  split
  · exact inv_afterRelease hs (fun _ _ ht => inv_releaseScr hs ‹_›) fun _ ht => inv_withOp ht
      (fun _ _ hu => inv_copyAccepted hu)
  · exact hs

theorem inv_awaitPages {r is kind} (hr : r.1.Inv) : (awaitPages r is kind).Inv :=
  inv_askPages hr

theorem inv_copyOp {is x kind arr dir} (hs : s.Inv) : (copyOp s is x kind arr dir).Inv := by
  unfold copyOp
  refine inv_command hs fun _ _ _ => ?_
  dsimp only
  refine inv_checked hs ?_
  split
  · exact inv_uniThrow (inv_bodyOfCopy hs)
  · split
    · exact inv_bodyOfCopy hs
    · split
      · exact inv_awaitPages (inv_bodyOfCopy hs)
      · exact inv_acceptCopy (inv_bodyOfCopy hs)

theorem inv_execCpy {x arr dir} (hs : s.Inv) : OutInv (execCpy x arr dir s) :=
  inv_issue hs fun _ _ ht => inv_copyOp ht

theorem inv_execCpyM {x cores} (hs : s.Inv) : OutInv (execCpyM x cores s) :=
  inv_issue hs fun _ _ ht => inv_copyOp ht

theorem inv_bodyOfIndexed {is cr r list count writes} (hs : s.Inv) : (bodyOfIndexed s is cr r list count writes).1.Inv := by
  unfold bodyOfIndexed
  split
  · exact hs
  · dsimp only
    refine inv_chkLanes hs fun _ _ ht => ?_
    split
    · exact inv_chkGlobal ht
    · exact ht

theorem inv_acceptIndexed {is c n x arr dir} (hs : s.Inv) : (acceptIndexed s is c n x arr dir).Inv := by
  unfold acceptIndexed
  refine inv_afterRelease hs (fun _ _ ht => inv_releaseScr hs ‹_›) fun _ ht => ?_
  split
  · exact ht
  · dsimp only
    split
    · exact inv_bodyOfIndexed ht
    · split
      · exact inv_awaitPages (inv_bodyOfIndexed ht)
      · exact inv_acceptCopy (inv_bodyOfIndexed ht)

theorem inv_execCpyX {x arr dir} (hs : s.Inv) : OutInv (execCpyX x arr dir s) := by
  unfold execCpyX
  refine inv_issue hs fun _ _ ht => ?_
  refine inv_command ht fun _ _ _ => ?_
  refine inv_checked ht ?_
  split
  · exact inv_acceptIndexed ht
  · exact inv_acceptCopy ht

theorem inv_acceptMatrix {is c n f tile kind trapspec paired k} (hs : s.Inv) (hk : ∀ t tok, t.Inv → (k t tok).Inv) :
    (acceptMatrix s is c n f tile kind trapspec paired k).Inv := by
  unfold acceptMatrix
  dsimp only
  split
  · exact inv_afterRelease hs (fun _ _ => inv_releaseScr hs) fun _ ht =>
      inv_withOp ht fun _ _ hu => hk _ _ (inv_acceptMx hu)
  · exact hs

theorem inv_mmaOp {is x extra mk paired k} (hs : s.Inv) (hk : ∀ cr kind t tok, t.Inv → (k cr kind t tok).Inv) :
    (mmaOp s is x extra mk paired k).Inv := by
  unfold mmaOp
  refine inv_command hs fun c n cr => ?_
  dsimp only
  split
  · exact inv_throwAll hs
  · refine inv_checked hs ?_
    split
    · exact hs
    · exact inv_acceptMatrix hs (hk _ _)

theorem inv_halfIssued {s₀ is x cr kind tok} (hs : s.Inv) : (halfIssued s₀ is x cr kind s tok).Inv := by
  unfold halfIssued
  dsimp only
  split
  · exact inv_ite (inv_modCore (inv_modCrew hs)) (inv_modCrew hs)
  · exact hs

theorem inv_execMma {x} (hs : s.Inv) : OutInv (execMma x s) :=
  inv_issue hs fun _ _ ht => inv_mmaOp ht (fun _ _ _ _ hu => hu)

theorem inv_execMmaSp {x sm} (hs : s.Inv) : OutInv (execMmaSp x sm s) :=
  inv_issue hs fun _ _ ht => inv_mmaOp ht (fun _ _ _ _ hu => hu)

theorem inv_execMmaP {x} (hs : s.Inv) : OutInv (execMmaP x s) :=
  inv_issue hs fun _ _ ht => inv_mmaOp ht (fun _ _ _ _ hu => inv_halfIssued hu)

theorem inv_execMsel {g f a b fw sa sm} (hs : s.Inv) : OutInv (execMsel g f a b fw sa sm s) := by
  unfold execMsel
  refine inv_issue hs fun _ _ ht => ?_
  refine inv_command ht fun _ _ _ => ?_
  split
  · exact inv_throwAll ht
  · exact inv_checked ht (inv_acceptCopy ht)

theorem inv_execAccz {g f tile} (hs : s.Inv) : OutInv (execAccz g f tile s) :=
  inv_issue hs fun _ _ ht => inv_command ht (fun _ _ _ => inv_acceptMatrix ht (fun _ _ hu => hu))

theorem inv_execAccdr {g f off tgt tile} (hs : s.Inv) : OutInv (execAccdr g f off tgt tile s) :=
  inv_issue hs fun _ _ ht => inv_command ht (fun _ _ _ => inv_checked ht (inv_acceptMatrix ht (fun _ _ hu => hu)))

theorem inv_execWdset {g f val tile} (hs : s.Inv) : OutInv (execWdset g f val tile s) :=
  inv_issue hs fun _ _ ht => inv_command ht (fun _ _ _ => inv_acceptMatrix ht (fun _ _ hu => hu))

theorem inv_execMfence {g f} (hs : s.Inv) : OutInv (execMfence g f s) :=
  inv_issue hs fun _ _ ht => inv_command ht (fun _ _ _ => inv_acceptMatrix ht (fun _ _ hu => hu))

theorem inv_writeStatus {is st w} (hs : s.Inv) : (writeStatus s is st w).Inv := by
  unfold writeStatus
  split
  · exact inv_modGang hs
  · exact hs

theorem inv_execFwait {f st} (hs : s.Inv) : OutInv (execFwait f st s) := by
  unfold execFwait
  refine inv_issue hs fun _ _ ht => ?_
  split
  · dsimp only
    split
    · exact ht
    · split
      · split
        · exact inv_modCrew ht
        · exact inv_writeStatus (inv_acquire ht)
      · exact inv_writeStatus (inv_acquire ht)
  · exact ht

theorem inv_execFtest {f c st} (hs : s.Inv) : OutInv (execFtest f c st s) := by
  unfold execFtest
  refine inv_issue hs fun _ _ ht => ?_
  split
  · exact ht
  · exact inv_writeStatus (inv_modGang (inv_ite (inv_acquire ht) ht))

theorem inv_cancelPagereq {c tok} (hs : s.Inv) : (cancelPagereq s c tok).Inv := by
  unfold cancelPagereq
  exact inv_resolveOp hs.frame

theorem inv_cancelOp {c tok} (hs : s.Inv) : (cancelOp s c tok).Inv := by
  unfold cancelOp
  split
  · exact hs
  · split
    · exact hs
    · dsimp only
      split
      · exact inv_foldl hs fun _ _ ht => inv_cancelCopies ht
      · exact inv_foldl hs fun _ _ ht => inv_cancelMxAll ht
      · exact inv_withdrawTicket hs
      · exact inv_cancelPagereq hs

theorem inv_execFcancel {f} (hs : s.Inv) : OutInv (execFcancel f s) := by
  unfold execFcancel
  refine inv_issue hs fun _ _ ht => ?_
  split
  · exact inv_cancelOp ht
  · exact ht

theorem inv_tokenStored {is f p} (hs : s.Inv) : (tokenStored s is f p).Inv :=
  inv_modGang hs

theorem inv_execFexport {f off} (hs : s.Inv) : OutInv (execFexport f off s) := by
  unfold execFexport
  refine inv_issue hs fun _ _ ht => ?_
  split
  · exact inv_throwAllOrNop ht
  · exact inv_tokenStored ht
  · exact ht

theorem inv_execFimport {f off} (hs : s.Inv) : OutInv (execFimport f off s) := by
  unfold execFimport
  refine inv_issue hs fun _ _ ht => ?_
  split
  · exact inv_throwAllOrNop ht
  · split
    · exact ht
    · dsimp only
      split
      · exact inv_throwAllOrNop ht
      · exact inv_modGang (inv_loadBytes ht)
  · exact ht

theorem inv_execBarinit {bar e} (hs : s.Inv) : OutInv (execBarinit bar e s) := by
  unfold execBarinit
  refine inv_issue hs fun _ _ ht => ?_
  dsimp only
  split
  · exact inv_throwAllOrNop ht
  · split
    · exact inv_modBar ht
    · exact ht

theorem inv_execBara {bar} (hs : s.Inv) : OutInv (execBara bar s) := by
  unfold execBara
  refine inv_issue hs fun _ _ ht => ?_
  split
  · split
    · exact ht
    · exact inv_afterRelease ht (fun _ _ hu => inv_release ht ‹_›) fun _ hu => inv_barArrive hu
  · exact ht

theorem inv_execBarexp {bar b} (hs : s.Inv) : OutInv (execBarexp bar b s) := by
  unfold execBarexp
  refine inv_issue hs fun _ _ ht => ?_
  split
  · dsimp only
    split
    · exact inv_throwAllOrNop ht
    · exact inv_modBar ht
  · exact ht

theorem inv_execBarw {bar phase} (hs : s.Inv) : OutInv (execBarw bar phase s) := by
  unfold execBarw
  refine inv_issue hs fun _ _ ht => ?_
  split
  · split
    · exact inv_acquire ht
    · exact ht
  · exact ht

theorem inv_execLbar {n} (hs : s.Inv) : OutInv (execLbar n s) := by
  unfold execLbar
  refine inv_issue hs fun _ _ ht => ?_
  dsimp only
  split
  · split
    · exact inv_acquire (inv_modGang ht)
    · exact ht
  · exact inv_afterRelease ht (fun _ _ hu => inv_release ht ‹_›) fun _ hu => inv_lbarArrive (inv_modGang hu)
  · exact ht

end Sys2Proof.Machine
end

section
/-!
## System registers and the supervisor

System registers, requests, bank modes, self-test and core retirement (R312 to R325).
-/

namespace Sys2Proof.Machine
variable {s t : State}
set_option Elab.async false

theorem inv_writeScoped {g n w} (hs : s.Inv) : (writeScoped s g n w).Inv := by
  unfold writeScoped
  split
  · exact inv_modGang hs
  · split
    · exact hs
    · exact inv_ite (inv_modCrew hs) (inv_ite (inv_modCrew hs) hs)

theorem inv_sysWriteReg {g n w} (hs : s.Inv) : (sysWriteReg s g n w).Inv := by
  unfold sysWriteReg
  split
  · exact inv_writeScoped hs
  · exact inv_ite (inv_vmargWrite hs) (inv_ite (inv_beatPut hs) (inv_ite (inv_claimtoPut hs) (inv_ite
      (inv_tickPut hs) (inv_ite (inv_writeCounter hs) (inv_writeScoped hs)))))

theorem inv_execTrap {code} (hs : s.Inv) : OutInv (execTrap code s) :=
  inv_issue hs fun _ _ ht => ht

theorem inv_modRequest {core slot f} (hs : s.Inv) : (modRequest s core slot f).Inv :=
  inv_modCore hs

theorem inv_dropRequest {core slot} (hs : s.Inv) : (dropRequest s core slot).Inv :=
  inv_modCore hs

theorem inv_execMbxrdNext {d} (hs : s.Inv) : OutInv (execMbxrdNext d s) := by
  unfold execMbxrdNext
  refine inv_issue hs fun _ _ ht => ?_
  dsimp only
  split
  · exact inv_writeScalar ht
  · exact inv_writeScalar (inv_ite (inv_dropRequest ht) (inv_modRequest ht))

theorem inv_execMbxrdWord {d slot word} (hs : s.Inv) : OutInv (execMbxrdWord d slot word s) := by
  unfold execMbxrdWord
  refine inv_issue hs fun _ _ ht => ?_
  dsimp only
  split <;> exact inv_writeScalar ht

theorem inv_withWrites {core slot r key ls} (hs : s.Inv) : (withWrites s core slot r key ls).Inv :=
  inv_modRequest hs

theorem inv_addWrites {is slot key ls} (hs : s.Inv) : (addWrites s is slot key ls).Inv := by
  unfold addWrites
  dsimp only
  split
  · exact hs
  · split
    · exact hs
    · split
      · exact inv_supFault hs
      · exact inv_withWrites hs

theorem inv_applyWrite {g key ls} (hs : s.Inv) : (applyWrite s g key ls).Inv :=
  inv_ite (inv_modGang hs) (inv_ite (inv_modGang hs) (inv_ite (inv_writeScoped hs) (inv_ite (inv_modGang hs)
    (inv_ite (inv_modGang hs) (inv_ite (inv_modGang hs) (inv_modGang hs))))))

theorem inv_sysLaunched {is k d value lanes} (hs : s.Inv) : (sysLaunched s is k d value lanes).Inv :=
  inv_launchFlight hs

theorem inv_sysFlight {is k d value lanes} (hs : s.Inv) : (sysFlight s is k d value lanes).Inv :=
  inv_sysLaunched hs

theorem inv_execRdxv {g d slot reg hi} (hs : s.Inv) : OutInv (execRdxv g d slot reg hi s) :=
  inv_issue hs fun _ _ ht => inv_sysFlight ht

theorem inv_execWrxv {g slot data reg hi} (hs : s.Inv) : OutInv (execWrxv g slot data reg hi s) := by
  unfold execWrxv
  refine inv_issue hs fun _ _ ht => ?_
  dsimp only
  split
  · exact ht
  · exact inv_addWrites ht

theorem inv_execRdxs {d slot num} (hs : s.Inv) : OutInv (execRdxs d slot num s) :=
  inv_issue hs fun _ _ ht => inv_sysFlight ht

theorem inv_execWrxs {slot data num} (hs : s.Inv) : OutInv (execWrxs slot data num s) := by
  unfold execWrxs
  refine inv_issue hs fun _ _ ht => ?_
  split
  · exact inv_addWrites ht
  · exact ht

theorem inv_answerRequest {core slot r} (hs : s.Inv) : (answerRequest s core slot r).Inv :=
  inv_modGang (inv_foldl (inv_dropRequest hs) (fun _ _ ht => inv_applyWrite ht))

theorem inv_dropAbandoned {core slot} (hs : s.Inv) : (dropAbandoned s core slot).Inv :=
  inv_ite (inv_dropRequest hs) hs

theorem inv_returned {core slot r adv} (hs : s.Inv) : (returned s core slot r adv).Inv :=
  inv_ite (inv_answerRequest hs) (inv_acquire (inv_modGang (inv_answerRequest hs)))

theorem inv_execSvret {slot adv} (hs : s.Inv) : OutInv (execSvret slot adv s) := by
  unfold execSvret
  refine inv_issue hs fun _ _ ht => ?_
  dsimp only
  split
  · exact inv_dropAbandoned ht
  · exact inv_afterRelease ht (fun _ _ hu => inv_release ht ‹_›) fun _ hu => inv_returned hu

theorem inv_thrownAt {core slot r code} (hs : s.Inv) : (thrownAt s core slot r code).Inv := by
  unfold thrownAt
  dsimp only
  split
  · exact inv_answerRequest hs
  · exact inv_throwLanes (inv_answerRequest hs)

theorem inv_execSvthrow {slot code} (hs : s.Inv) : OutInv (execSvthrow slot code s) := by
  unfold execSvthrow
  refine inv_issue hs fun _ _ ht => ?_
  dsimp only
  split
  · exact inv_dropAbandoned ht
  · exact inv_thrownAt ht

theorem inv_execRdsys {d num} (hs : s.Inv) : OutInv (execRdsys d num s) :=
  inv_issue hs fun _ _ ht => inv_sysFlight ht

theorem inv_execWrsys {data num} (hs : s.Inv) : OutInv (execWrsys data num s) :=
  inv_issue hs fun _ _ ht => inv_sysWriteReg ht

theorem inv_flushBank {core b} (hs : s.Inv) : (flushBank s core b).Inv := by
  unfold flushBank
  split
  · exact hs
  · exact inv_modCore (inv_foldl hs.frame (fun _ _ ht => inv_coreLineHome ht))

theorem inv_coreTrim {core n} (hs : s.Inv) : (coreTrim core n s).Inv := by
  induction n generalizing s with
  | zero => exact hs
  | succ n ih =>
    unfold coreTrim
    split
    · exact hs
    · dsimp only
      split
      · exact hs
      · split
        · exact ih (inv_coreEvict (inv_freshen hs))
        · exact hs

theorem inv_dropBankBytes {core b} (hs : s.Inv) : (dropBankBytes s core b).Inv := by
  unfold dropBankBytes
  refine inv_foldl hs fun _ _ ht => ?_
  split
  · exact inv_modCrew ht
  · exact ht

theorem inv_clearRings {core b} (hs : s.Inv) : (clearRings s core b).Inv :=
  inv_foldl hs fun _ _ ht => inv_modCrew ht

theorem inv_emptyRings {core b} (hs : s.Inv) : (emptyRings s core b).Inv :=
  inv_foldl hs fun _ _ ht => inv_modCrew ht

theorem inv_switchBank {core b mode} (hs : s.Inv) : (switchBank s core b mode).Inv := by
  unfold switchBank
  split
  · exact hs
  · extract_lets old t u v
    have ht : t.Inv := by
      unfold t
      generalize old = k
      split
      · exact inv_flushBank hs
      · exact inv_dropBankBytes hs
      · exact inv_clearRings hs
    have hu : u.Inv := inv_ite (inv_emptyRings ht) ht
    have hv : v.Inv := inv_modCore hu
    exact inv_ite hs (inv_ite (inv_coreTrim hv) hv)

theorem inv_execBankset {mask mode} (hs : s.Inv) : OutInv (execBankset mask mode s) := by
  unfold execBankset
  refine inv_issue hs fun _ _ ht => ?_
  dsimp only
  split
  · exact inv_modGroup ht
  · exact ht
  · exact ht
  · split
    · exact inv_throwAllOrNop ht
    · split
      · exact inv_throwAllOrNop ht
      · split
        · exact ht
        · exact inv_modGroup ht

theorem inv_execBist {d arr pat} (hs : s.Inv) : OutInv (execBist d arr pat s) := by
  unfold execBist
  refine inv_issue hs fun t is ht => ?_
  cases is.q.waiting with
  | bist r =>
    cases r with
    | none => exact ht
    | some r => exact inv_writeScalar (inv_modGroup ht)
  | _ =>
    dsimp only
    split
    · exact inv_writeScalar ht
    · split
      · exact inv_writeScalar ht
      · exact inv_modGroup (inv_modCore ht)

theorem inv_haltCrews {core} (hs : s.Inv) : (haltCrews s core).Inv := by
  unfold haltCrews
  exact hs.frame

theorem inv_retireCore {core} (hs : s.Inv) : (retireCore s core).1.Inv := by
  unfold retireCore
  exact inv_haltCrews (inv_raiseEvent (inv_modCore (inv_ite hs.frame hs)))

theorem inv_execCoreret {d core} (hs : s.Inv) : OutInv (execCoreret d core s) := by
  unfold execCoreret
  refine inv_issue hs fun _ _ ht => ?_
  dsimp only
  split
  · split
    · exact inv_writeScalar (inv_modGroup ht)
    · exact ht
  · split
    · exact inv_writeScalar ht
    · split
      · exact inv_writeScalar (inv_freshen ht)
      · split
        · exact inv_writeScalar ht
        · split
          · exact inv_writeScalar (inv_retireCore ht)
          · exact inv_modGroup (inv_retireCore ht)

end Sys2Proof.Machine
end

section
/-!
## Events of memory and the engines

The background steps of memory and the accesses from outside.
-/

namespace Sys2Proof.Machine
variable {s t : State}
set_option Elab.async false

theorem inv_dropElem {g id lane} (hs : s.Inv) : (dropElem s g id lane).Inv :=
  inv_modGang hs

theorem inv_laneReturn {g id acc lane} (hacc : acc.1.Inv) : (laneReturn g id acc lane).1.Inv := by
  unfold laneReturn
  split
  · exact hacc
  · split
    · exact hacc
    · split
      · exact hacc
      · split
        · exact inv_dropElem hacc
        · dsimp only
          split
          · split
            · exact inv_dropElem (inv_openWindow hacc)
            · exact inv_openWindow hacc
          · split
            · exact inv_dropElem (inv_performElem hacc)
            · exact inv_performElem hacc

theorem inv_finishRead {g f} (hs : s.Inv) : (finishRead s g f).Inv :=
  inv_modGang hs

theorem inv_lowerEarly {g f} (hs : s.Inv) : (lowerEarly s g f).Inv :=
  inv_ite (inv_modGang hs) hs

theorem inv_dropPush {g f} (hs : s.Inv) : (dropPush s g f).Inv :=
  inv_modGang hs

theorem inv_settleFlight {g id} (hs : s.Inv) : (settleFlight s g id).Inv := by
  unfold settleFlight
  split
  · split
    · exact inv_ite hs (inv_ite (inv_throwMany (inv_finishFlight hs)) (inv_ite (inv_dropPush hs) (inv_lowerEarly hs)))
    · exact inv_ite hs (inv_ite (inv_throwMany (inv_finishFlight hs)) (inv_ite (inv_dropPush hs) (inv_lowerEarly hs)))
    · exact inv_ite (inv_finishRead hs) hs
    · exact hs
  · exact hs

theorem inv_execLoadDataReturn {g op lanes} (hs : s.Inv) : OutInv (execLoadDataReturn g op lanes s) :=
  inv_throwMany (inv_settleFlight (inv_foldl_fst hs (fun _ _ ht => inv_laneReturn ht)))

theorem inv_windowClosedAt {g f e a v} (hs : s.Inv) : (windowClosedAt s g f e a v).Inv := by
  unfold windowClosedAt
  dsimp only
  refine inv_modGang ?_
  refine inv_atomWrite ?_
  split
  · exact inv_raceGang hs
  · exact hs

theorem inv_execAtomicComplete {g op lane} (hs : s.Inv) : OutInv (execAtomicComplete g op lane s) := by
  unfold execAtomicComplete
  split
  · exact hs
  · split
    · split
      · exact hs
      · exact inv_settleFlight (inv_windowClosedAt hs)
    · exact hs

theorem inv_spillFetched {g x reg} (hs : s.Inv) : (spillFetched s g x reg).Inv :=
  inv_foldl (inv_countSpill hs) fun _ _ ht => inv_modGang (inv_spillWord ht)

theorem inv_execSpillReadReturn {g reg bad} (hs : s.Inv) : OutInv (execSpillReadReturn g reg bad s) := by
  unfold execSpillReadReturn
  split
  · exact hs
  · exact inv_ite (inv_modGang (inv_spillFetched hs)) hs

theorem inv_execSysreadComplete {g op} (hs : s.Inv) : OutInv (execSysreadComplete g op s) := by
  unfold execSysreadComplete
  split
  · exact inv_ite (inv_finishRead hs) hs
  · exact hs

theorem inv_fenceRelease {g x f ts} (hs : s.Inv) (e : fenceRelease s g x f = some (t, ts)) : t.Inv := by
  unfold fenceRelease at e
  split at e
  · split at e
    · cases e; exact hs
    · cases e
  · exact inv_releaseTo hs e

theorem inv_fenceEnded {g f} (hs : s.Inv) : (fenceEnded s g f).Inv :=
  inv_acquire (inv_modGang (inv_finishRead hs))

theorem inv_execFenceComplete {g op} (hs : s.Inv) : OutInv (execFenceComplete g op s) := by
  unfold execFenceComplete
  split
  · split
    · exact hs
    · split
      · exact hs
      · exact inv_throwMany (inv_fenceRelease hs ‹_›)
      · exact inv_fenceEnded (inv_fenceRelease hs ‹_›)
  · exact hs

theorem inv_execBufDrain {g seq} (hs : s.Inv) : OutInv (execBufDrain g seq s) := by
  unfold execBufDrain
  split
  · exact hs
  · dsimp only
    split
    · exact hs
    · exact inv_throwMany (inv_drainEntry (inv_ite hs (inv_freshen hs)))

theorem inv_execSysStoreComplete {g seq} (hs : s.Inv) : OutInv (execSysStoreComplete g seq s) := by
  unfold execSysStoreComplete
  split
  · exact inv_sysArrive hs
  · exact hs

theorem inv_execCoreWriteBack {core pa} (hs : s.Inv) : OutInv (execCoreWriteBack core pa s) := by
  unfold execCoreWriteBack
  split
  · exact inv_ite (inv_spillsHome hs) (inv_ite (inv_coreWriteBack (inv_countHome hs)) hs)
  · exact inv_ite (inv_l2WriteBack hs) (inv_ite (inv_homeWriteBack hs) hs)

theorem inv_execCopyDiscard {core pa} (hs : s.Inv) : OutInv (execCopyDiscard core pa s) := by
  unfold execCopyDiscard
  dsimp only
  split
  · exact inv_modCore hs
  · exact inv_ite (.frame (h := inv_ite hs (inv_l2Evict hs))) (inv_setZeroFar (.frame (h := inv_ite hs (inv_l2Evict hs))))

theorem inv_execCopyFetch {core pa} (hs : s.Inv) : OutInv (execCopyFetch core pa s) := by
  unfold execCopyFetch
  split
  · exact hs
  · split
    · exact inv_ite (inv_coreFill (inv_homeFill hs)) hs
    · exact inv_homeFill hs

theorem inv_markLost {pa} (hs : s.Inv) : (markLost s pa).Inv := by
  unfold markLost
  exact inv_raiseEvent hs.frame

theorem inv_execEccUncorrectable {site} (hs : s.Inv) : OutInv (execEccUncorrectable site s) := by
  unfold execEccUncorrectable
  split
  · exact inv_markLost hs
  · exact inv_foldl hs fun _ _ ht => inv_markLost ht
  · exact inv_modCore hs
  · exact inv_ite hs (inv_ite (inv_raiseEvent (inv_modCore hs)) (inv_modCore hs))
  · split
    · exact inv_ite (inv_modCrew hs) hs
    · exact hs
  · split
    · exact inv_ite (inv_modCrew hs) hs
    · exact hs

theorem inv_execCopySegmentStart {core} (hs : s.Inv) : OutInv (execCopySegmentStart core s) := by
  unfold execCopySegmentStart
  split
  · exact hs
  · dsimp only
    split
    · exact hs
    · exact inv_modCore (inv_freshen hs)

theorem inv_execCopyPieceWritten {core idx piece} (hs : s.Inv) : OutInv (execCopyPieceWritten core idx piece s) := by
  unfold execCopyPieceWritten
  split
  · exact inv_ite (inv_copyPiece hs) hs
  · exact hs

theorem inv_execCopyComplete {core idx} (hs : s.Inv) : OutInv (execCopyComplete core idx s) := by
  unfold execCopyComplete
  split
  · exact inv_ite (inv_copyDone hs) hs
  · exact hs

theorem inv_execMatrixCommandStart {core} (hs : s.Inv) : OutInv (execMatrixCommandStart core s) :=
  inv_startMx hs

theorem inv_execMatrixCommandComplete {core} (hs : s.Inv) : OutInv (execMatrixCommandComplete core s) :=
  inv_endMx hs

theorem inv_bankSwitched {g bank mode} (hs : s.Inv) : (bankSwitched s g bank mode).Inv :=
  inv_modGang (inv_switchBank hs)

theorem inv_execBankSwitchApply {g bank} (hs : s.Inv) : OutInv (execBankSwitchApply g bank s) := by
  unfold execBankSwitchApply
  split
  · exact hs
  · exact inv_ite hs (inv_bankSwitched hs)

theorem inv_persisted {g n} (hs : s.Inv) : (persisted s g n).Inv :=
  inv_modGang hs

theorem inv_waitDone {g was now} (hs : s.Inv) : (waitDone s g was now).Inv :=
  inv_modGang hs

theorem inv_execPersistComplete {g} (hs : s.Inv) : OutInv (execPersistComplete g s) := by
  unfold execPersistComplete
  split
  · exact hs
  · split
    · exact hs
    · exact inv_throwMany (inv_persisted (inv_releaseTo hs ‹_›))

theorem inv_execIcinvComplete {g} (hs : s.Inv) : OutInv (execIcinvComplete g s) := by
  unfold execIcinvComplete
  split
  · exact hs
  · split
    · exact hs
    · exact inv_throwMany (inv_waitDone (inv_release hs ‹_›).frame)

theorem inv_execWaitaPoll {g grp} (hs : s.Inv) : OutInv (execWaitaPoll g grp s) :=
  inv_modGroup hs

theorem inv_snoopLine {pa} (hs : s.Inv) : (snoopLine s pa).Inv :=
  inv_farDrop (inv_foldl hs (fun _ _ ht => inv_homeWriteBack ht))

theorem inv_outerAccess {port pa n out} (hs : s.Inv) : (outerAccess s port pa n out).Inv :=
  inv_foldl hs fun _ _ ht =>
    have hu := inv_countWire ht
    inv_ite hu (inv_ite (inv_l2Fill (inv_countSlice hu)) (inv_countSlice hu))

theorem inv_snoopRange {pa n} (hs : s.Inv) : (snoopRange s pa n).Inv :=
  inv_foldl hs fun _ _ ht => inv_snoopLine ht

theorem inv_sysWriteFrom {pa bs} (hs : s.Inv) : (sysWriteFrom s pa bs).Inv :=
  inv_foldl hs fun _ _ ht => inv_sysWrite ht

theorem inv_recordHost {line} (hs : s.Inv) : (recordHost s line).Inv := by
  unfold recordHost
  exact inv_ite hs hs.frame

theorem inv_execHostSnoop {pa write} (hs : s.Inv) : OutInv (execHostSnoop pa write s) :=
  inv_ite hs (inv_sysWriteFrom (inv_snoopRange (inv_countWire hs)))

theorem inv_execHostMemAccess {pa ctx write len} (hs : s.Inv) : OutInv (execHostMemAccess pa ctx write len s) := by
  unfold execHostMemAccess
  refine inv_ite hs ?_
  have ho {n out} : (outerAccess s 0x900 pa n out).Inv := inv_outerAccess hs
  have hd {t : State} {ls : List Nat} (ht : t.Inv) : (ls.foldl recordHost t).Inv :=
    inv_foldl ht fun _ _ hu => inv_recordHost hu
  dsimp only
  split
  · exact inv_regWrite ho
  · exact inv_regRead ho
  iterate 2
    · split
      · split
        · exact inv_sysWriteFrom (inv_snoopRange ho)
        · exact inv_ite (hd (inv_snoopRange ho)) (inv_snoopRange ho)
      · split
        · exact .frame (h := inv_homeWriteN ho)
        · exact hd ho
  · exact ho

theorem inv_peerOwnWrite {pa bs} (hs : s.Inv) : (peerOwnWrite s pa bs).Inv :=
  inv_foldl hs fun _ _ ht => inv_fireWatch ht.memWrite

theorem inv_execPeerMemAccess {pa ctx write len} (hs : s.Inv) : OutInv (execPeerMemAccess pa ctx write len s) := by
  unfold execPeerMemAccess
  refine inv_ite hs (inv_ite (inv_peerOwnWrite hs) (inv_ite hs ?_))
  have ho {n out} : (outerAccess s 0x902 pa n out).Inv := inv_outerAccess hs
  split
  · exact inv_sysWriteFrom (inv_foldl ho fun _ _ ht => inv_homeWriteBack ht)
  · exact inv_foldl ho fun _ _ ht => inv_homeWriteBack ht

theorem inv_execBackInvalidateResponse {pa dirty} (hs : s.Inv) : OutInv (execBackInvalidateResponse pa dirty s) := by
  unfold execBackInvalidateResponse
  refine inv_ite ?_ hs
  extract_lets t u
  have ht : t.Inv := inv_countWire hs
  have hu : u.Inv := by
    unfold u
    split
    · exact inv_homeWriteN ht
    · exact ht
  exact hu.frame

end Sys2Proof.Machine
end

section
/-!
## Unwinding

The steps of an unwind (R56 to R66).
-/

namespace Sys2Proof.Machine
variable {s t : State}
set_option Elab.async false

theorem inv_stopAgain {k g} (hs : s.Inv) : (stopAgain k s g).Inv := by
  unfold stopAgain
  split
  · exact inv_ite (inv_abandonLoads (inv_abandonRequest hs)) hs
  · exact hs

theorem inv_goneStores {g} (hs : s.Inv) : (goneStores s g).Inv := by
  unfold goneStores
  split
  · exact inv_foldl hs fun _ _ ht => inv_throwMany (inv_drainEntry ht)
  · exact hs

theorem inv_settleUnwind {k} (hs : s.Inv) : (settleUnwind s k).Inv := by
  have hg {ms : List GRef} : (ms.foldl goneStores (ms.foldl (stopAgain k) s)).Inv :=
    inv_foldl (inv_foldl hs fun _ _ ht => inv_stopAgain ht) fun _ _ ht => inv_goneStores ht
  unfold settleUnwind
  split
  · exact hs
  · refine inv_ite hs ?_
    dsimp only
    split
    · exact hg
    · exact inv_ite (.frame (h := hg)) hg

theorem inv_cancelTransactions {c n} (hs : s.Inv) : (cancelTransactions s c n).1.Inv := by
  unfold cancelTransactions
  dsimp only
  split
  · exact inv_foldl (inv_foldl (inv_breakBody hs) (fun _ _ ht => inv_withdrawTicket ht)) fun _ _ ht => inv_ite
      (inv_cancelPagereq ht) ht
  · exact inv_foldl (inv_breakBody hs) fun _ _ ht => inv_withdrawTicket ht

theorem inv_zeroBars {c} (hs : s.Inv) : (zeroBars s c).Inv :=
  inv_modCrew hs

theorem inv_cancelWork {k u} (hs : s.Inv) : (cancelWork s k u).1.Inv := by
  unfold cancelWork
  extract_lets cs was t r v w now gone
  have ht : t.Inv := inv_foldl hs fun _ _ ht => inv_foldl ht fun _ _ hu => inv_cancelMxAll (inv_cancelCopies hu)
  have hr : r.1.Inv := inv_foldl_fst ht fun p g hp => by
    split
    · exact inv_modGang (inv_cancelTransactions hp)
    · exact hp
  have hv : v.Inv := inv_ite hr (inv_foldl hr fun _ _ hu => inv_zeroBars hu)
  have hw : w.Inv := inv_ite hv (inv_modLaunch hv)
  exact hw.frame

theorem inv_releaseMembers {u gs ts} (hs : s.Inv) (e : releaseMembers s u gs = some (t, ts)) : t.Inv := by
  induction gs generalizing s ts with
  | nil => cases e; exact hs
  | cons g gs ih =>
    unfold releaseMembers at e
    split at e
    · cases e
    · next r hr =>
      obtain ⟨p, hp, e⟩ := Option.map_eq_some_iff.1 e
      cases e
      exact ih (inv_release hs hr) hp

theorem inv_writeRecord {u h ts c} (hs : s.Inv) : (writeRecord s u h ts c).Inv := by
  unfold writeRecord
  split
  · exact inv_modCrew hs
  · exact hs

theorem inv_closedRegions {g : Option GRef} (hs : s.Inv) : (g.elim s (closeRegions s)).Inv := by
  cases g with
  | none => exact hs
  | some g => exact inv_closeRegions hs

theorem inv_steer {u} (hs : s.Inv) : (steer s u).Inv := by
  unfold steer
  extract_lets d t v
  have ht : t.Inv := by
    unfold t
    split
    · exact inv_modCrew hs
    · exact inv_modLaunch hs
    · exact hs
  have hv : v.Inv := inv_foldl ht fun _ g hu => by
    split
    · exact inv_ite hu (inv_acquire (inv_modGang hu))
    · exact hu
  exact inv_closedRegions hv

theorem inv_endGangs {launch u} (hs : s.Inv) : (endGangs s launch u).Inv := by
  unfold endGangs
  exact hs.frame

theorem inv_endLaunch {u ts} (hs : s.Inv) : (endLaunch s u ts).Inv :=
  inv_endGangs (inv_foldl (inv_modLaunch hs) (fun _ _ ht => inv_countUnreported ht))

theorem inv_countUnwind {u} (hs : s.Inv) : (countUnwind s u).Inv :=
  inv_foldl hs fun _ _ ht => inv_countCore ht

theorem inv_throwEach {ts} (hs : s.Inv) : (throwEach s ts).Inv :=
  inv_foldl hs fun _ _ ht => inv_throwMany ht

theorem inv_recorded {k u} (hs : s.Inv) : (recorded s k u).Inv := by
  unfold recorded
  exact .frame (h := inv_countUnwind (inv_foldl (inv_ite hs (inv_freshen hs)) (fun _ _ ht => inv_writeRecord ht)))

theorem inv_unwound {k u} (hs : s.Inv) : (unwound s k u).Inv :=
  inv_ite (inv_endLaunch (inv_recorded hs)) (inv_steer (inv_recorded hs))

theorem inv_stopSteered (hs : s.Inv) : (stopSteered s).Inv := by
  unfold stopSteered
  exact inv_foldl hs fun _ _ ht => inv_foldl ht.frame (fun _ _ hu => inv_stopGang hu)

theorem inv_execUnwindComplete {k} (hs : s.Inv) : OutInv (execUnwindComplete k s) := by
  unfold execUnwindComplete
  split
  · exact hs
  · refine inv_ite hs ?_
    dsimp only
    split
    · split
      · exact inv_cancelWork hs
      · next e => exact inv_throwEach (inv_stopSteered (inv_unwound (inv_releaseMembers (inv_cancelWork hs) e)))
    · exact inv_cancelWork hs

theorem inv_execSpanLaunchUnwind {launch} (hs : s.Inv) : OutInv (execSpanLaunchUnwind launch s) := by
  unfold execSpanLaunchUnwind
  split
  · exact hs
  · split
    · exact hs
    · dsimp only
      split
      · exact inv_ite hs hs.frame
      · exact inv_beginUnwind hs.frame

end Sys2Proof.Machine
end

section
/-!
## Placement, pre-emption, and the computing forms of the emulation and floating-point majors

Crews come and go (R36, R43 to R47, R264): a function that may find no place is said to keep the invariant in what it answers with, if
it answers. A fresh backing store drops bytes from memory.
-/

namespace Sys2Proof.Machine
variable {s t : State}
set_option Elab.async false

theorem inv_zeroRange {a n} (hs : s.Inv) : (zeroRange s a n).Inv := by
  unfold zeroRange
  extract_lets out u
  have hu : u.Inv := ⟨Memory.wf_filter _ _ hs.1, hs.2⟩
  exact inv_foldl hu fun _ _ ht => inv_l2Zero (inv_dropHostCopy ht)

theorem inv_setModes {core b} (hs : s.Inv) : (setModes s core b).Inv :=
  inv_foldl hs fun _ _ ht => inv_switchBank ht

theorem inv_acquireCrew {c sys} (hs : s.Inv) : (acquireCrew s c sys).Inv := by
  unfold acquireCrew
  extract_lets t
  have ht : t.Inv := inv_foldl hs fun _ _ ht => inv_coreDiscardClean ht
  exact inv_raceAcquire (inv_ite (inv_peerDiscardClean ht) ht)

theorem inv_placeAt {k l core count ss spills} (hs : s.Inv) : (placeAt s k l core count ss spills).Inv := by
  unfold placeAt
  exact inv_acquireCrew (inv_modLaunch (inv_foldl (.frame (h := inv_setModes (inv_setModes hs)))
    (fun _ _ ht => inv_zeroRange ht)))

theorem inv_placeNext {pack cap k} (hs : s.Inv) (e : placeNext s pack cap k = some t) : t.Inv := by
  unfold placeNext at e
  split at e
  · cases e
  · split at e
    · cases e; exact inv_placeAt hs
    · cases e

theorem inv_getD {o : Option State} (hs : s.Inv) (ho : ∀ t, o = some t → t.Inv) : (o.getD s).Inv := by
  cases o with
  | none => exact hs
  | some t => exact ho t rfl

theorem inv_execCrewPlace (hs : s.Inv) : OutInv (execCrewPlace s) :=
  inv_getD hs fun _ e =>
    have ⟨_, _, e⟩ := List.exists_of_findSome?_eq_some e
    inv_placeNext hs e

theorem inv_postNotice {g grp pc tag} (hs : s.Inv) : (postNotice s g grp pc tag).Inv := by
  unfold postNotice
  split
  · exact inv_supFault hs
  · exact inv_ite hs (inv_postTrap (inv_modGang (inv_modCore hs)))
  · exact hs

theorem inv_noticeFor {tag w} (hs : s.Inv) : (noticeFor tag s w).Inv := by
  unfold noticeFor
  split
  · split
    · split
      · exact inv_postNotice hs
      · exact hs
    · exact hs
  · split
    · exact inv_postNotice hs
    · exact hs
  · exact hs

theorem inv_freeBanksOf {cr} (hs : s.Inv) : (freeBanksOf s cr).Inv := by
  unfold freeBanksOf
  extract_lets one t
  have hone : ∀ u core b, u.Inv → (one u core b).Inv := fun _ _ _ hu => inv_foldl hu fun _ _ ht => inv_switchBank ht
  have ht : t.Inv := hone _ _ _ hs
  exact inv_ite (hone _ _ _ ht) ht

theorem inv_drainCrew {c gs} (hs : s.Inv) (e : drainCrew s c gs = some t) : t.Inv := by
  unfold drainCrew at e
  refine List.foldlRecOn (motive := fun o => ∀ t, o = some t → t.Inv) gs _ (fun t e => ?_) (fun o ho g _ t e => ?_) t e
  · cases e; exact hs
  · obtain ⟨u, hu, e⟩ := Option.bind_eq_some_iff.1 e
    dsimp only at e
    split at e
    · cases e; exact inv_drainAll (ho u hu)
    · cases e

theorem inv_writeBackCrew {c} (hs : s.Inv) : (writeBackCrew s c).Inv :=
  inv_foldl hs fun _ _ ht => inv_coreWriteBackAll ht

theorem inv_crewGone {crew cr} (hs : s.Inv) : (crewGone s crew cr).Inv :=
  inv_foldl (inv_modLaunch (inv_freeBanksOf (inv_modCrew (inv_writeBackCrew hs)))) fun _ _ ht => inv_lbarRelease ht

theorem inv_execCrewEnd {crew} (hs : s.Inv) : OutInv (execCrewEnd crew s) := by
  unfold execCrewEnd
  split
  · exact hs
  · split
    · exact hs
    · split
      · exact hs
      · have ht := inv_drainCrew hs ‹_›
        exact inv_ite ht (inv_crewGone ht)

theorem inv_execPreemptRequest {ctx} (hs : s.Inv) : OutInv (execPreemptRequest ctx s) := by
  unfold execPreemptRequest
  exact hs.frame

theorem inv_settleUnwinds {c} (hs : s.Inv) : (settleUnwinds s c).1.Inv :=
  inv_foldl_fst hs fun _ _ ht => inv_cancelWork (inv_foldl ht (fun _ _ hu => inv_stopAgain hu))

theorem inv_finishCopies {c core} (hs : s.Inv) : (finishCopies s c core).Inv := by
  unfold finishCopies
  refine inv_foldl hs fun _ _ ht => ?_
  split
  · exact inv_ite (inv_finishSegments ht) ht
  · exact ht

theorem inv_saveCopies {c core n} (hs : s.Inv) : (saveCopies c core n s).Inv := by
  induction n generalizing s with
  | zero => exact hs
  | succ n ih =>
    unfold saveCopies
    split
    · exact hs
    · split
      · exact hs
      · split
        · exact hs
        · split
          · exact ih (inv_copyDone hs)
          · exact ih (inv_modCrew (inv_dropCopy hs))

theorem inv_saveMx {c core} (hs : s.Inv) : (saveMx s c core).Inv :=
  inv_modCrew (inv_modCore hs)

theorem inv_crewSaved {crew cr} (hs : s.Inv) : (crewSaved s crew cr).Inv := by
  unfold crewSaved
  extract_lets gs t u v
  have ht : t.Inv := inv_foldl hs fun _ _ ht => inv_saveMx (inv_saveCopies ht)
  have hu : u.Inv := inv_foldl ht fun _ _ ht => inv_modGang (inv_abandonRequest ht)
  have hv : v.Inv := inv_modCrew (inv_writeBackCrew hu)
  exact inv_freeBanksOf hv

theorem inv_execCrewSave {crew} (hs : s.Inv) : OutInv (execCrewSave crew s) := by
  unfold execCrewSave
  split
  · exact hs
  · split
    · exact hs
    · dsimp only
      split
      · exact inv_settleUnwinds hs
      · split
        · exact inv_foldl (inv_settleUnwinds hs) fun _ _ ht => inv_finishCopies ht
        · split
          · exact inv_foldl (inv_settleUnwinds hs) fun _ _ ht => inv_finishCopies ht
          · exact inv_crewSaved (inv_drainCrew (inv_foldl (inv_settleUnwinds hs) (fun _ _ ht => inv_finishCopies ht)) ‹_›)

theorem inv_noticeAgain {gs} (hs : s.Inv) : (noticeAgain s gs).Inv := by
  unfold noticeAgain
  dsimp only
  refine inv_foldl hs fun _ _ ht => ?_
  split
  · exact inv_foldl ht fun _ _ hu => inv_noticeFor hu
  · exact ht

theorem inv_crewResumed {crew core cr l count ss} (hs : s.Inv) : (crewResumed s crew core cr l count ss).Inv := by
  unfold crewResumed
  extract_lets bind t u put v w
  have ht : t.Inv := inv_setModes hs
  have hu : u.Inv := inv_ite (inv_setModes ht) ht
  have hw : w.Inv := inv_modCrew (inv_modCore (inv_modCore hu))
  exact inv_noticeAgain (inv_acquireCrew hw.frame)

theorem inv_resumeAt {pack cap crew core} (hs : s.Inv) (e : resumeAt s pack cap crew core = some t) : t.Inv := by
  unfold resumeAt at e
  split at e
  · cases e
  · split at e
    · cases e
    · split at e
      · cases e
      · obtain ⟨r, _, e⟩ := Option.map_eq_some_iff.1 e
        cases e
        exact inv_crewResumed hs

theorem inv_resumeEach {pack cap cores cs} (hs : s.Inv) (e : resumeEach pack cap cores cs s = some t) : t.Inv := by
  induction cs generalizing s with
  | nil => cases e; exact hs
  | cons c cs ih =>
    obtain ⟨k, _, e⟩ := List.exists_of_findSome?_eq_some e
    obtain ⟨u, hu, e⟩ := Option.bind_eq_some_iff.1 e
    exact ih (inv_resumeAt hs hu) e

theorem inv_resumeAll {l crew core} (hs : s.Inv) (e : resumeAll s l crew core = some t) : t.Inv := by
  unfold resumeAll at e
  extract_lets k rest cores attempt at e
  have ha {pack cap} (e : attempt pack cap = some t) : t.Inv :=
    have ⟨_, hu, e⟩ := Option.bind_eq_some_iff.1 e
    inv_resumeEach (inv_resumeAt hs hu) e
  rcases Option.or_eq_some_iff.1 e with e | ⟨_, e⟩
  · obtain ⟨_, _, e⟩ := List.exists_of_findSome?_eq_some e
    exact ha e
  · exact ha e

theorem inv_execCrewResume {crew core} (hs : s.Inv) : OutInv (execCrewResume crew core s) :=
  inv_getD hs fun t e => by
    split at e
    · split at e
      · exact inv_resumeAll hs e
      · exact inv_resumeAt hs e
    · cases e

theorem inv_execCandidatePromote {g grp} (hs : s.Inv) : OutInv (execCandidatePromote g grp s) :=
  inv_modGroup hs

theorem inv_execSvyieldTimeout {core} (hs : s.Inv) : OutInv (execSvyieldTimeout core s) :=
  inv_modGang hs

theorem inv_execIdivU32 {x} (hs : s.Inv) : OutInv (execIdivU32 x s) :=
  inv_issue hs fun _ _ ht => ht

theorem inv_execIremU32 {x} (hs : s.Inv) : OutInv (execIremU32 x s) :=
  inv_issue hs fun _ _ ht => ht

theorem inv_execIdivU64 {x} (hs : s.Inv) : OutInv (execIdivU64 x s) :=
  inv_issue hs fun _ _ ht => ht

theorem inv_execIremU64 {x} (hs : s.Inv) : OutInv (execIremU64 x s) :=
  inv_issue hs fun _ _ ht => ht

theorem inv_execIdivS32 {x} (hs : s.Inv) : OutInv (execIdivS32 x s) :=
  inv_issue hs fun _ _ ht => ht

theorem inv_execIremS32 {x} (hs : s.Inv) : OutInv (execIremS32 x s) :=
  inv_issue hs fun _ _ ht => ht

theorem inv_execIdivS64 {x} (hs : s.Inv) : OutInv (execIdivS64 x s) :=
  inv_issue hs fun _ _ ht => ht

theorem inv_execIremS64 {x} (hs : s.Inv) : OutInv (execIremS64 x s) :=
  inv_issue hs fun _ _ ht => ht

theorem inv_execFdivF32 {x} (hs : s.Inv) : OutInv (execFdivF32 x s) :=
  inv_issue hs fun _ _ ht => ht

theorem inv_execDadd {x} (hs : s.Inv) : OutInv (execDadd x s) :=
  inv_issue hs fun _ _ ht => ht

theorem inv_execDmul {x} (hs : s.Inv) : OutInv (execDmul x s) :=
  inv_issue hs fun _ _ ht => ht

theorem inv_execDfma {x c} (hs : s.Inv) : OutInv (execDfma x c s) :=
  inv_issue hs fun _ _ ht => ht

theorem inv_execDdiv {x} (hs : s.Inv) : OutInv (execDdiv x s) :=
  inv_issue hs fun _ _ ht => ht

theorem inv_execDsqrt {g d a} (hs : s.Inv) : OutInv (execDsqrt g d a s) :=
  inv_issue hs fun _ _ ht => ht

theorem inv_execDcvt {g form d a} (hs : s.Inv) : OutInv (execDcvt g form d a s) :=
  inv_issue hs fun _ _ ht => ht

theorem inv_execEmu {x} (hs : s.Inv) : OutInv (execEmu x s) :=
  inv_issue hs fun _ _ ht => ht

theorem inv_execFadd {x} (hs : s.Inv) : OutInv (execFadd x s) :=
  inv_issue hs fun _ _ ht => inv_binOp ht

theorem inv_execFsub {x} (hs : s.Inv) : OutInv (execFsub x s) :=
  inv_issue hs fun _ _ ht => inv_binOp ht

theorem inv_execFmul {x} (hs : s.Inv) : OutInv (execFmul x s) :=
  inv_issue hs fun _ _ ht => inv_binOp ht

theorem inv_execFma {x} (hs : s.Inv) : OutInv (execFma x s) :=
  inv_issue hs fun _ _ ht => inv_terOp ht

theorem inv_execFmin {nan x} (hs : s.Inv) : OutInv (execFmin nan x s) :=
  inv_issue hs fun _ _ ht => inv_binOp ht

theorem inv_execFmax {nan x} (hs : s.Inv) : OutInv (execFmax nan x s) :=
  inv_issue hs fun _ _ ht => inv_binOp ht

theorem inv_execFabs {x} (hs : s.Inv) : OutInv (execFabs x s) :=
  inv_issue hs fun _ _ ht => inv_unOp ht

theorem inv_execFneg {x} (hs : s.Inv) : OutInv (execFneg x s) :=
  inv_issue hs fun _ _ ht => inv_unOp ht

theorem inv_execFscale {x} (hs : s.Inv) : OutInv (execFscale x s) :=
  inv_issue hs fun _ _ ht => inv_laneOp ht

theorem inv_execFcmp {g c pd a b} (hs : s.Inv) : OutInv (execFcmp g c pd a b s) :=
  inv_issue hs fun _ _ ht => inv_predOp ht

theorem inv_execFcmpc {c cd a b} (hs : s.Inv) : OutInv (execFcmpc c cd a b s) :=
  inv_issue hs fun _ _ ht => inv_condOp ht

theorem inv_execFclass {g pd a mask} (hs : s.Inv) : OutInv (execFclass g pd a mask s) :=
  inv_issue hs fun _ _ ht => inv_predOp ht

theorem inv_execFrcp {x} (hs : s.Inv) : OutInv (execFrcp x s) :=
  inv_issue hs fun _ _ ht => inv_unOp ht

theorem inv_execFrsq {x} (hs : s.Inv) : OutInv (execFrsq x s) :=
  inv_issue hs fun _ _ ht => inv_unOp ht

theorem inv_execFsqrt {x} (hs : s.Inv) : OutInv (execFsqrt x s) :=
  inv_issue hs fun _ _ ht => inv_unOp ht

theorem inv_execFexp2 {x} (hs : s.Inv) : OutInv (execFexp2 x s) :=
  inv_issue hs fun _ _ ht => inv_unOp ht

theorem inv_execFlog2 {x} (hs : s.Inv) : OutInv (execFlog2 x s) :=
  inv_issue hs fun _ _ ht => inv_unOp ht

theorem inv_execFsin {x} (hs : s.Inv) : OutInv (execFsin x s) :=
  inv_issue hs fun _ _ ht => inv_unOp ht

theorem inv_execFcos {x} (hs : s.Inv) : OutInv (execFcos x s) :=
  inv_issue hs fun _ _ ht => inv_unOp ht

theorem inv_execFtanh {x} (hs : s.Inv) : OutInv (execFtanh x s) :=
  inv_issue hs fun _ _ ht => inv_unOp ht

theorem inv_execCvt {g tgt src sat d a si di} (hs : s.Inv) : OutInv (execCvt g tgt src sat d a si di s) :=
  inv_issue hs fun _ _ ht => inv_laneOp ht

theorem inv_execCvtmx {g fmt d a b di} (hs : s.Inv) : OutInv (execCvtmx g fmt d a b di s) :=
  inv_issue hs fun _ _ ht => inv_laneOp ht

theorem inv_execCvtmxScale {g fmt d a} (hs : s.Inv) : OutInv (execCvtmxScale g fmt d a s) :=
  inv_issue hs fun _ _ ht => inv_laneOp ht

end Sys2Proof.Machine
end

section
/-!
## Launch queues, completion, beats and failover

The headframes (R257 to R272, R364).
-/

namespace Sys2Proof.Machine
variable {s t : State}
set_option Elab.async false

theorem inv_countFrame {pa n out} (hs : s.Inv) : (countFrame s pa n out).Inv :=
  inv_foldl hs fun _ _ ht => inv_countPort (inv_countSlice ht)

theorem inv_sysReadN {pa n} (hs : s.Inv) : (sysReadN s pa n).1.Inv :=
  inv_foldl (inv_countFrame (inv_foldl hs (fun _ _ ht => inv_homeWriteBack ht))) fun _ _ ht => inv_ite (inv_l2Fill ht) ht

theorem inv_sysWriteN {pa bs} (hs : s.Inv) : (sysWriteN s pa bs).Inv :=
  inv_foldl (inv_countFrame hs) fun _ _ ht => inv_sysWrite ht

theorem inv_hfReadPhys {ctx pa n} (hs : s.Inv) : (hfReadPhys s ctx pa n).Inv := by
  unfold hfReadPhys
  split
  · exact hs
  · split
    · exact hs
    · exact inv_sysReadN hs

theorem inv_hfLocate {q ctx launch write ps} (hs : s.Inv) : (hfLocate s q ctx launch write ps).Inv := by
  induction ps generalizing s with
  | nil => exact hs
  | cons p ps ih =>
    unfold hfLocate
    extract_lets k me
    split
    · exact hs
    · split
      · next e => exact inv_requestPage (inv_fst (inv_translate hs) e)
      · next e =>
        have ht := inv_fst (inv_translate hs) e
        dsimp only
        split
        · exact ht
        · split
          · exact ht
          · split
            · exact ht
            · split
              · next e => exact (ih ht).of_ok e
              · exact ih ht

theorem inv_hfRead {q ctx va n} (hs : s.Inv) : (hfRead s q ctx va n).Inv := by
  unfold hfRead
  split
  · next e1 => exact inv_foldl_fst ((inv_hfLocate hs).of_ok e1) fun _ _ hu => inv_sysReadN hu
  · next e1 => exact (inv_hfLocate hs).of_bad e1
  · next e1 => exact (inv_hfLocate hs).of_wait e1

theorem inv_queueError {q} (hs : s.Inv) : (queueError s q).Inv :=
  inv_raiseEvent (inv_modQueue hs)

theorem inv_syncHead {q head} (hs : s.Inv) : (syncHead s q head).Inv :=
  inv_modQueue hs

theorem inv_readEntries {q n} (hs : s.Inv) : (readEntries q n s).Inv := by
  induction n generalizing s with
  | zero => exact hs
  | succ n ih =>
    unfold readEntries
    dsimp only
    split
    · exact hs
    · split
      · next e => exact inv_queueError ((inv_hfReadPhys hs).of_bad e)
      · next e => exact (inv_hfReadPhys hs).of_wait e
      · next e =>
        have ht := (inv_hfReadPhys hs).of_ok e
        exact inv_ite (inv_queueError ht) (ih (inv_modQueue ht))

theorem inv_headEntry {q} (hs : s.Inv) : (headEntry s q).Inv := by
  unfold headEntry
  split
  · next e1 => exact (inv_hfReadPhys hs).of_bad e1
  · next e1 => exact (inv_hfReadPhys hs).of_wait e1
  · next e1 =>
      dsimp only
      split <;> exact inv_readEntries (inv_syncHead ((inv_hfReadPhys hs).of_ok e1))

theorem inv_lookHead {q} (hs : s.Inv) : (lookHead s q).Inv := by
  unfold lookHead
  split
  · exact hs
  · split
    · next e1 => exact inv_queueError ((inv_headEntry hs).of_bad e1)
    · next e1 => exact (inv_headEntry hs).of_wait e1
    · next e1 =>
        have ht := (inv_headEntry hs).of_ok e1
        dsimp only
        split
        · exact inv_modQueue ht
        · split
          · exact inv_modQueue ht
          · split
            · next e2 => exact inv_queueError ((inv_hfRead ht).of_bad e2)
            · next e2 => exact inv_modQueue ((inv_hfRead ht).of_wait e2)
            · next e2 => exact inv_modQueue ((inv_hfRead ht).of_ok e2)

theorem inv_readTail {q} (hs : s.Inv) : (readTail s q).Inv := by
  unfold readTail
  dsimp only
  split
  · exact hs
  · split
    · next e1 => exact inv_queueError ((inv_hfReadPhys hs).of_bad e1)
    · next e1 => exact (inv_hfReadPhys hs).of_wait e1
    · next e1 =>
        have ht := (inv_hfReadPhys hs).of_ok e1
        split
        · next e2 => exact inv_queueError ((inv_hfReadPhys ht).of_bad e2)
        · next e2 => exact (inv_hfReadPhys ht).of_wait e2
        · next e2 =>
            have hu := (inv_hfReadPhys ht).of_ok e2
            exact inv_ite (inv_queueError (inv_modQueue hu)) (inv_lookHead (inv_modQueue hu))

theorem inv_execTailRead {q} (hs : s.Inv) : OutInv (execTailRead q s) :=
  inv_readTail hs

theorem inv_execTailPollTimer {q} (hs : s.Inv) : OutInv (execTailPollTimer q s) :=
  inv_ite (inv_readTail hs) hs

theorem inv_execDependenceWatch {q} (hs : s.Inv) : OutInv (execDependenceWatch q s) :=
  inv_lookHead hs

theorem inv_placeMany {pack cap k n} (hs : s.Inv) (e : placeMany pack cap k n s = some t) : t.Inv := by
  induction n generalizing s with
  | zero => cases e
  | succ n ih =>
    unfold placeMany at e
    split at e
    · cases e
    · split at e
      · obtain ⟨u, hu, e⟩ := Option.bind_eq_some_iff.1 e
        exact ih (inv_placeNext hs hu) e
      · cases e; exact hs

theorem inv_placeAll {k l} (hs : s.Inv) (e : placeAll s k l = some t) : t.Inv := by
  rcases Option.or_eq_some_iff.1 e with e | ⟨_, e⟩
  · obtain ⟨_, _, e⟩ := List.exists_of_findSome?_eq_some e
    exact inv_placeMany hs e
  · exact inv_placeMany hs e

theorem inv_enlist {q head l} (hs : s.Inv) : (enlist s q head l).Inv := by
  unfold enlist
  extract_lets k t u v w
  have ht : t.Inv := hs.frame
  have hv : v.Inv := inv_modQueue (inv_countDev (inv_sysWriteN ht))
  exact inv_lookHead (inv_ite (inv_raceNoStamp hv) hv)

theorem inv_acceptHead {q} (hs : s.Inv) : (acceptHead s q).Inv := by
  unfold acceptHead
  split
  · next e => exact inv_queueError ((inv_headEntry hs).of_bad e)
  · next e => exact (inv_headEntry hs).of_wait e
  · next e =>
    have ht := (inv_headEntry hs).of_ok e
    split
    · exact inv_queueError ht
    · dsimp only
      split
      · next e => exact (inv_hfRead ht).of_wait e
      · next e => exact inv_enlist ((inv_hfRead ht).of_bad e)
      · next e =>
        have hu := (inv_hfRead ht).of_ok e
        split
        · exact inv_enlist hu
        · split
          · exact inv_enlist hu
          · split
            · split
              · exact hu
              · split
                · exact inv_modQueue hu
                · next e =>
                  split
                  · exact inv_enlist (inv_placeAll (.frame (h := hu)) e)
                  · exact hu
            · exact inv_enlist hu

theorem inv_acceptFrom {qs} (hs : s.Inv) : (acceptFrom qs s).Inv := by
  induction qs generalizing s with
  | nil => exact hs
  | cons q qs ih =>
    unfold acceptFrom
    split
    · next e => exact (inv_acceptHead hs).of_done e
    · next e => exact ih ((inv_acceptHead hs).of_held e)

theorem inv_lookAll (hs : s.Inv) : (lookAll s).Inv :=
  inv_foldl hs fun _ _ ht => inv_lookHead ht

theorem inv_execLaunchAccept (hs : s.Inv) : OutInv (execLaunchAccept s) :=
  inv_ite hs (inv_acceptFrom (inv_lookAll hs))

theorem inv_writePieces {ps bs} (hs : s.Inv) : (writePieces s ps bs).Inv := by
  induction ps generalizing s bs with
  | nil => exact hs
  | cons p ps ih => exact ih (inv_sysWriteN hs)

theorem inv_dropLaunch {k} (hs : s.Inv) : (dropLaunch s k).Inv := by
  unfold dropLaunch
  exact hs.frame

theorem inv_entryWritten {launch l ps} (hs : s.Inv) : (entryWritten s launch l ps).Inv := by
  unfold entryWritten
  extract_lets t u v w
  have hu : u.Inv := inv_sysWriteN (inv_writePieces hs)
  have hw : w.Inv := inv_modQueue (inv_dropLaunch hu)
  exact inv_ite (inv_raiseEvent hw) hw

theorem inv_entryLost {launch l} (hs : s.Inv) : (entryLost s launch l).Inv := by
  unfold entryLost
  dsimp only
  refine inv_queueError ?_
  refine inv_dropLaunch ?_
  split
  · exact inv_sysWriteN (inv_freshen ((inv_hfLocate hs).of_ok ‹_›))
  · exact inv_freshen hs

theorem inv_execCompletionWrite {launch} (hs : s.Inv) : OutInv (execCompletionWrite launch s) := by
  unfold execCompletionWrite
  split
  · exact hs
  · split
    · exact hs
    · dsimp only
      split
      · next e1 => exact (inv_hfLocate (inv_settleHome hs)).of_wait e1
      · next e1 => exact inv_entryLost ((inv_hfLocate (inv_settleHome hs)).of_bad e1)
      · next e1 => exact inv_entryWritten ((inv_hfLocate (inv_settleHome hs)).of_ok e1)

theorem inv_closeBatch {die} (hs : s.Inv) : (closeBatch s die).Inv :=
  inv_ite (inv_modDie hs) (inv_countDie (inv_modDie hs))

theorem inv_batchesClosed (hs : s.Inv) : (batchesClosed s).Inv := by
  unfold batchesClosed
  exact .frame (h := inv_foldl hs (fun _ _ ht => inv_closeBatch ht))

theorem inv_execBeatWrite (hs : s.Inv) : OutInv (execBeatWrite s) := by
  unfold execBeatWrite
  split
  · exact inv_ite hs.frame hs
  · exact hs

theorem inv_mergedState (hs : s.Inv) : (mergedState s).Inv := by
  unfold mergedState
  exact inv_serveGrants (inv_foldl hs.frame (fun _ _ ht => inv_resolveOp ht))

theorem inv_execMergeComplete (hs : s.Inv) : OutInv (execMergeComplete s) :=
  inv_ite (inv_mergedState hs) hs

theorem inv_execBeatEnd (hs : s.Inv) : OutInv (execBeatEnd s) := by
  unfold execBeatEnd
  extract_lets t
  have ht : t.Inv := inv_batchesClosed (inv_ite (inv_mergedState hs) hs)
  exact inv_ite hs (inv_ite (inv_soon ht) ht)

theorem inv_execLbarCountExchange {launch n modules} (hs : s.Inv) : OutInv (execLbarCountExchange launch n modules s) := by
  unfold execLbarCountExchange
  split
  · exact inv_ite (inv_lbarRelease (inv_modLaunch hs)) hs
  · exact hs

theorem inv_execHeartbeat {missed} (hs : s.Inv) : OutInv (execHeartbeat missed s) := by
  unfold execHeartbeat
  extract_lets t u
  have ht : t.Inv := inv_foldl hs fun _ _ ht => inv_modDie ht
  exact inv_ite (inv_ite (inv_soon ht.frame) ht.frame) ht.frame

theorem inv_rereadEntries (hs : s.Inv) : (rereadEntries s).Inv := by
  unfold rereadEntries
  exact hs.frame

theorem inv_execFailover (hs : s.Inv) : OutInv (execFailover s) := by
  unfold execFailover
  split
  · exact hs
  · dsimp only
    split
    · exact inv_raiseEvent (inv_rereadEntries (.frame (h := inv_modDie hs)))
    · exact .frame (h := inv_modDie hs)

end Sys2Proof.Machine
end

section
/-!
## The host's events

Claims, translation invalidation, ownership, page requests, functions, power and self-test. Two one-field rules, `inv_withRing` and
`inv_withPageReqs`, speak of a variable state, so that the kernel compares no two states field by field.
-/

namespace Sys2Proof.Machine
variable {s t : State}
set_option Elab.async false

theorem inv_execClaimDeadline {e} (hs : s.Inv) : OutInv (execClaimDeadline e s) :=
  inv_ite (inv_deliverClaim hs) hs

theorem inv_execEvnext (hs : s.Inv) : OutInv (execEvnext s) :=
  inv_takeOffer hs

theorem inv_execEvans {e forward} (hs : s.Inv) : OutInv (execEvans e forward s) :=
  inv_answerClaim hs

theorem inv_execEvack {e} (hs : s.Inv) : OutInv (execEvack e s) :=
  inv_ackClaim hs

theorem inv_withRing {r} (hs : s.Inv) : State.Inv { s with ring := r } := hs.frame

theorem inv_eventWritten {e es} (hs : s.Inv) : (eventWritten s e es).Inv :=
  inv_withRing (inv_sysWriteN hs)

theorem inv_execEventRingWrite (hs : s.Inv) : OutInv (execEventRingWrite s) := by
  unfold execEventRingWrite
  split
  · exact hs
  · exact inv_ite (inv_eventWritten hs) hs

theorem inv_execTinvGo (hs : s.Inv) : OutInv (execTinvGo s) :=
  inv_ite hs (inv_tinvStart hs)

theorem inv_dropPages {g p} (hs : s.Inv) : (dropPages s g p).Inv :=
  inv_modGang hs

theorem inv_execTinvDone (hs : s.Inv) : OutInv (execTinvDone s) := by
  unfold execTinvDone
  exact inv_ite hs (inv_ite hs (.frame (h := inv_foldl hs (fun _ _ ht => inv_dropPages ht))))

theorem inv_execOwnreqGo (hs : s.Inv) : OutInv (execOwnreqGo s) :=
  inv_ownreqStart hs

theorem inv_ownNext (hs : s.Inv) : (ownNext s).Inv := by
  unfold ownNext
  exact hs.frame

theorem inv_flushBlock {block} (hs : s.Inv) : (flushBlock s block).Inv :=
  inv_foldl (inv_foldl hs (fun _ _ ht => inv_foldl (inv_spillsHome ht)
    (fun _ _ hu => inv_coreEvict hu))) fun _ _ ht => inv_l2Evict ht

theorem inv_execOwnToHostFlip {block} (hs : s.Inv) : OutInv (execOwnToHostFlip block s) := by
  unfold execOwnToHostFlip
  exact inv_ite hs (inv_ownNext (.frame (h := inv_flushBlock hs)))

theorem inv_execOwnToDeviceFlip {block dirty} (hs : s.Inv) : OutInv (execOwnToDeviceFlip block dirty s) := by
  unfold execOwnToDeviceFlip
  extract_lets t u v
  have ht : t.Inv := inv_foldl hs fun _ _ ht => inv_homeWriteBack ht
  have hu : u.Inv := inv_foldl ht fun _ _ ht => inv_farDrop ht
  have hv : v.Inv := inv_foldl hu fun _ _ ht => inv_sysWrite ht
  exact inv_ite hs (inv_ownNext hv.frame)

theorem inv_withPageReqs {rs} (hs : s.Inv) : State.Inv { s with pageReqs := rs } := hs.frame

theorem inv_pageWritten {fn r tag} (hs : s.Inv) : (pageWritten s fn r tag).Inv :=
  inv_foldl (inv_raiseEvent (inv_withPageReqs (inv_modPageRegs (inv_sysWriteN hs)))) fun _ _ ht => inv_noticeFor ht

theorem inv_execPageRequestWrite {fn} (hs : s.Inv) : OutInv (execPageRequestWrite fn s) := by
  unfold execPageRequestWrite
  split
  · exact hs
  · dsimp only
    split
    · exact hs
    · exact inv_ite hs (inv_pageWritten (inv_freshen hs))

theorem inv_setPlace {g op lane h} (hs : s.Inv) : (setPlace s g op lane h).Inv :=
  inv_modGang hs

theorem inv_chkAgain {r g x f e va} (hr : r.1.Inv) : (chkAgain r g x f e va).1.1.Inv := by
  unfold chkAgain
  dsimp only
  split
  · exact inv_chkZero hr
  · exact inv_chkGlobal hr

theorem inv_judged {r g x f e va} (hr : r.1.Inv) : (judged r g x f e va).1.1.Inv := by
  unfold judged
  dsimp only
  split
  · exact inv_requestPage (inv_setPlace (inv_trail (inv_chkAgain hr) ‹_›))
  · exact inv_setPlace (inv_trail (inv_chkAgain hr) ‹_›)
  · exact inv_setPlace (inv_trail (inv_chkAgain hr) ‹_›)
  · split
    · exact inv_setPlace (inv_trail (inv_chkAgain hr) ‹_›)
    · exact inv_trail (inv_chkAgain hr) ‹_›
  · exact inv_trail (inv_chkAgain hr) ‹_›

theorem inv_laneThrows {g f lane} (hs : s.Inv) : (laneThrows s g f lane).Inv :=
  inv_ite (inv_setPlace hs) (inv_dropElem hs)

theorem inv_replayLane {g op hit failed acc lane} (ha : acc.1.1.Inv) : (replayLane g op hit failed acc lane).1.1.Inv := by
  unfold replayLane
  split
  · exact ha
  · split
    · exact ha
    · split
      · exact ha
      · extract_lets r
        have hr : r.1.1.Inv := by
          unfold r
          split
          · exact ha
          · exact inv_judged ha
        clear_value r
        obtain ⟨t, o⟩ := r
        cases o with
        | none => exact hr
        | some c => exact inv_laneThrows hr

theorem inv_dropStore {g op} (hs : s.Inv) : (dropStore s g op).Inv :=
  inv_storeDone (inv_modGang hs)

theorem inv_replayFlight {g op hit failed} (hs : s.Inv) : (replayFlight s g op hit failed).Inv := by
  unfold replayFlight
  split
  · exact hs
  · next x f _ =>
    extract_lets r t u v
    have ht : t.Inv := List.foldlRecOn (motive := fun acc => acc.1.1.Inv) _ (replayLane g op hit failed) hs
      fun _ ha _ _ => inv_replayLane ha
    have hu : u.Inv := inv_ite (inv_breakBody ht) ht
    have hv : v.Inv := by
      unfold v
      split
      · split
        · exact inv_settleStore hu
        · exact inv_dropStore hu
      · exact inv_settleFlight hu
    exact inv_throwMany hv

theorem inv_retryHeld {g x} (hs : s.Inv) : (retryHeld s g x).Inv :=
  inv_foldl hs fun _ _ ht => inv_replayFlight ht

theorem inv_copyCmdOf {core c op f} (hs : s.Inv) : (copyCmdOf core c op f s).Inv :=
  inv_modCore hs

theorem inv_modPageOp {c op h} (hs : s.Inv) : (modPageOp s c op h).Inv := by
  unfold modPageOp
  exact hs.frame

theorem inv_answerPage {c op v r failed} (hs : s.Inv) : (answerPage c op v r failed s).Inv := by
  unfold answerPage
  dsimp only
  split
  · exact hs
  · split
    · exact hs
    · split
      · exact inv_modPageOp hs
      · split
        · exact inv_requestPage (inv_fst (inv_translate hs) ‹_›)
        · have ht := inv_fst (inv_translate hs) ‹_›
          exact inv_ite (inv_modPageOp ht) (inv_ite (inv_modPageOp ht) (inv_requestPage ht))

theorem inv_replyTo {r failed w} (hs : s.Inv) : (replyTo r failed s w).Inv := by
  unfold replyTo
  split
  · exact inv_ite (inv_modGang hs) hs
  · exact inv_replayFlight hs
  · exact inv_ite (inv_modCrew (inv_foldl (inv_copyCmdOf hs) (fun _ _ ht => inv_copyCmdOf ht))) hs
  · exact inv_ite (inv_queueError hs) (inv_soon hs)
  · split
    · exact inv_entryLost hs
    · exact hs
  · exact inv_answerPage hs

theorem inv_noticeOff {tag g} (hs : s.Inv) : (noticeOff tag s g).Inv :=
  inv_modGang (inv_modCore hs)

theorem inv_answerNotice {tag w} (hs : s.Inv) : (answerNotice tag s w).Inv := by
  unfold answerNotice
  split
  · exact inv_noticeOff hs
  · exact inv_noticeOff hs
  · exact hs

theorem inv_answered {r failed} (hs : s.Inv) : (answered s r failed).Inv :=
  inv_foldl (inv_withPageReqs hs) fun _ _ ht => inv_replyTo ht

theorem inv_keptAnswers (hs : s.Inv) : (keptAnswers s).Inv :=
  inv_foldl hs fun _ _ ht => inv_answered ht

theorem inv_execPageReply {fn tag stat} (hs : s.Inv) : OutInv (execPageReply fn tag stat s) := by
  unfold execPageReply
  split
  · exact hs
  · split
    · exact hs.frame
    · exact inv_answered (inv_foldl hs (fun _ _ ht => inv_answerNotice ht))

theorem inv_execPagereqResolve {crew op} (hs : s.Inv) : OutInv (execPagereqResolve crew op s) := by
  unfold execPagereqResolve
  split
  · exact hs
  · exact inv_ite hs (inv_ite (inv_resolveOp hs.frame) (inv_resolveOp hs.frame))

theorem inv_dropEnding {c g} (hs : s.Inv) : (dropEnding c s g).Inv :=
  inv_foldl hs fun _ _ ht => inv_endTicket ht

theorem inv_discardCrew {c} (hs : s.Inv) : (discardCrew s c).Inv := by
  unfold discardCrew
  split
  · exact hs
  · extract_lets gs t u v w was x y
    have ht : t.Inv := inv_foldl hs fun _ _ ht => inv_drainAll ht
    have hu : u.Inv := inv_ite (inv_writeBackCrew ht) ht
    have hv : v.Inv := inv_foldl hu fun _ _ ht => inv_modCore ht
    have hw : w.Inv := inv_foldl hv fun _ _ ht => inv_dropEnding (inv_cancelTransactions (inv_abandonRequest ht))
    have hx : x.Inv := inv_modCrew hw
    have hy : y.Inv := inv_ite (inv_freeBanksOf hx) hx
    exact hy.frame

theorem inv_functionReset {fn} (hs : s.Inv) : (functionReset s fn).Inv := by
  unfold functionReset
  exact inv_withPageReqs (.frame (h := inv_foldl (inv_foldl hs (fun _ _ ht => inv_discardCrew ht))
    (fun _ _ ht => inv_modLaunch ht)))

theorem inv_execFunctionLevelReset {fn} (hs : s.Inv) : OutInv (execFunctionLevelReset fn s) :=
  inv_ite hs (inv_functionReset hs)

theorem inv_execLqConfigWrite {q word val} (hs : s.Inv) : OutInv (execLqConfigWrite q word val s) :=
  inv_ite (inv_lqPut hs) hs

theorem inv_execAccessTableWrite {target ctx val} (hs : s.Inv) : OutInv (execAccessTableWrite target ctx val s) :=
  inv_accessPut hs

theorem inv_execRegisterWrite {pa val} (hs : s.Inv) : OutInv (execRegisterWrite pa val s) :=
  inv_ite hs (inv_ite (inv_vfPut hs) (inv_ite (inv_regPut hs) hs))

theorem inv_latchAll (hs : s.Inv) : (latchAll s).Inv := by
  unfold latchAll
  exact hs.frame

theorem inv_ticked (hs : s.Inv) : (ticked s).Inv := by
  unfold ticked
  exact inv_foldl (.frame (h := inv_latchAll hs)) fun _ _ ht => inv_traceRecord ht

theorem inv_execTickEdge (hs : s.Inv) : OutInv (execTickEdge s) := by
  unfold execTickEdge
  extract_lets t u
  have ht : t.Inv := inv_ite (inv_ticked hs) hs
  have hu : u.Inv := inv_ite (inv_soon ht) ht
  exact inv_ite hs (inv_ite (inv_soon hu) hu)

theorem inv_execTickConfigWrite (hs : s.Inv) : OutInv (execTickConfigWrite s) := by
  unfold execTickConfigWrite
  split
  · exact inv_ite hs.frame hs
  · exact hs

theorem inv_execTickClear (hs : s.Inv) : OutInv (execTickClear s) := by
  unfold execTickClear
  exact inv_ite hs hs.frame

theorem inv_execCurrentSample {milliamps} (hs : s.Inv) : OutInv (execCurrentSample milliamps s) :=
  inv_ite hs (inv_foldl hs (fun _ _ ht => inv_traceRecord ht))

theorem inv_execPowerLimit {milliwatts} (hs : s.Inv) : OutInv (execPowerLimit milliwatts s) := by
  unfold execPowerLimit
  exact inv_ite hs (inv_ite hs.frame (inv_raiseEvent hs.frame))

theorem inv_execPowerBelowLimit (hs : s.Inv) : OutInv (execPowerBelowLimit s) := by
  unfold execPowerBelowLimit
  exact .frame (h := inv_freshen hs)

theorem inv_execColdPlateLimit {sensor} (hs : s.Inv) : OutInv (execColdPlateLimit sensor s) := by
  unfold execColdPlateLimit
  exact inv_ite hs (inv_raiseEvent hs.frame)

theorem inv_execColdPlateInRange {sensor} (hs : s.Inv) : OutInv (execColdPlateInRange sensor s) := by
  unfold execColdPlateInRange
  exact hs.frame

theorem inv_execJunctionTrip {sensor} (hs : s.Inv) : OutInv (execJunctionTrip sensor s) := by
  unfold execJunctionTrip
  exact inv_raiseEvent hs.frame

theorem inv_execLinkLaneFail {port lane} (hs : s.Inv) : OutInv (execLinkLaneFail port lane s) := by
  unfold execLinkLaneFail
  exact inv_ite hs (inv_ite (inv_soon (inv_raiseEvent hs.frame)) (inv_raiseEvent hs.frame))

theorem inv_execLinkDown {port} (hs : s.Inv) : OutInv (execLinkDown port s) := by
  unfold execLinkDown
  exact inv_ite hs (inv_raiseEvent hs.frame)

theorem inv_execHostPortDown (hs : s.Inv) : OutInv (execHostPortDown s) := by
  unfold execHostPortDown
  exact hs.frame

theorem inv_execHostPortUp (hs : s.Inv) : OutInv (execHostPortUp s) := by
  unfold execHostPortUp
  exact hs.frame

theorem inv_testedArray {core arr} (hs : s.Inv) : (testedArray s core arr).Inv := by
  unfold testedArray
  split
  · exact inv_modCore (inv_coreWriteBackAll hs)
  · exact inv_modCore hs
  · exact hs

theorem inv_execBistComplete {core failRows firstRow} (hs : s.Inv) : OutInv (execBistComplete core failRows firstRow s) := by
  unfold execBistComplete
  split
  · exact hs
  · split
    · exact hs
    · exact inv_raiseEvent (inv_modGang (inv_modCore (inv_testedArray hs)))

theorem inv_execLmargGo {port} (hs : s.Inv) : OutInv (execLmargGo port s) :=
  inv_ite (inv_lmargStart hs) hs

theorem inv_execLmargScanDone {port errors} (hs : s.Inv) : OutInv (execLmargScanDone port errors s) := by
  unfold execLmargScanDone
  exact inv_ite hs hs.frame

theorem inv_execAttestGo (hs : s.Inv) : OutInv (execAttestGo s) :=
  inv_attestStart hs

theorem inv_execAttestDone (hs : s.Inv) : OutInv (execAttestDone s) := by
  unfold execAttestDone
  exact inv_ite hs hs.frame

theorem inv_supForgets {core} (hs : s.Inv) : (supForgets s core).Inv :=
  inv_withPageReqs hs

theorem inv_execSupervisorRestart {core} (hs : s.Inv) : OutInv (execSupervisorRestart core s) := by
  unfold execSupervisorRestart
  split
  · exact inv_ite (inv_modCore (inv_supForgets hs)) hs
  · exact hs

end Sys2Proof.Machine
end

section
/-!
## Integer and ordered instructions, and the start

A start drops bytes from memory, and the firmware's are written one by one (R385, R391).
-/

namespace Sys2Proof.Machine
variable {s t : State}
set_option Elab.async false

theorem inv_execIadd {x} (hs : s.Inv) : OutInv (execIadd x s) :=
  inv_issue hs fun _ _ ht => inv_binOp ht

theorem inv_execIsub {x} (hs : s.Inv) : OutInv (execIsub x s) :=
  inv_issue hs fun _ _ ht => inv_binOp ht

theorem inv_execImul {x} (hs : s.Inv) : OutInv (execImul x s) :=
  inv_issue hs fun _ _ ht => inv_binOp ht

theorem inv_execImulh {x} (hs : s.Inv) : OutInv (execImulh x s) :=
  inv_issue hs fun _ _ ht => inv_binOp ht

theorem inv_execImad {x} (hs : s.Inv) : OutInv (execImad x s) :=
  inv_issue hs fun _ _ ht => inv_terOp ht

theorem inv_execIabs {x} (hs : s.Inv) : OutInv (execIabs x s) :=
  inv_issue hs fun _ _ ht => inv_unOp ht

theorem inv_execIneg {x} (hs : s.Inv) : OutInv (execIneg x s) :=
  inv_issue hs fun _ _ ht => inv_unOp ht

theorem inv_execImin {x} (hs : s.Inv) : OutInv (execImin x s) :=
  inv_issue hs fun _ _ ht => inv_binOp ht

theorem inv_execImax {x} (hs : s.Inv) : OutInv (execImax x s) :=
  inv_issue hs fun _ _ ht => inv_binOp ht

theorem inv_execLea {x sh} (hs : s.Inv) : OutInv (execLea x sh s) :=
  inv_issue hs fun _ _ ht => inv_laneOp ht

theorem inv_execAnd {x} (hs : s.Inv) : OutInv (execAnd x s) :=
  inv_issue hs fun _ _ ht => inv_binOp ht

theorem inv_execOr {x} (hs : s.Inv) : OutInv (execOr x s) :=
  inv_issue hs fun _ _ ht => inv_binOp ht

theorem inv_execXor {x} (hs : s.Inv) : OutInv (execXor x s) :=
  inv_issue hs fun _ _ ht => inv_binOp ht

theorem inv_execNot {x} (hs : s.Inv) : OutInv (execNot x s) :=
  inv_issue hs fun _ _ ht => inv_unOp ht

theorem inv_execShl {x} (hs : s.Inv) : OutInv (execShl x s) :=
  inv_issue hs fun _ _ ht => inv_binOp ht

theorem inv_execShr {x} (hs : s.Inv) : OutInv (execShr x s) :=
  inv_issue hs fun _ _ ht => inv_binOp ht

theorem inv_execSar {x} (hs : s.Inv) : OutInv (execSar x s) :=
  inv_issue hs fun _ _ ht => inv_binOp ht

theorem inv_execRot {x} (hs : s.Inv) : OutInv (execRot x s) :=
  inv_issue hs fun _ _ ht => inv_binOp ht

theorem inv_execBfx {x ctl} (hs : s.Inv) : OutInv (execBfx x ctl s) :=
  inv_issue hs fun _ _ ht => inv_laneOp ht

theorem inv_execBfi {x ctl} (hs : s.Inv) : OutInv (execBfi x ctl s) :=
  inv_issue hs fun _ _ ht => inv_laneOp ht

theorem inv_execPopc {x} (hs : s.Inv) : OutInv (execPopc x s) :=
  inv_issue hs fun _ _ ht => inv_unOp ht

theorem inv_execClz {x} (hs : s.Inv) : OutInv (execClz x s) :=
  inv_issue hs fun _ _ ht => inv_unOp ht

theorem inv_execCtz {x} (hs : s.Inv) : OutInv (execCtz x s) :=
  inv_issue hs fun _ _ ht => inv_unOp ht

theorem inv_execBrev {x} (hs : s.Inv) : OutInv (execBrev x s) :=
  inv_issue hs fun _ _ ht => inv_unOp ht

theorem inv_execMov {x} (hs : s.Inv) : OutInv (execMov x s) :=
  inv_issue hs fun _ _ ht => inv_unOp ht

theorem inv_execMovi {g ty d imm} (hs : s.Inv) : OutInv (execMovi g ty d imm s) :=
  inv_issue hs fun _ _ ht => inv_laneOp ht

theorem inv_execSel {x pi neg} (hs : s.Inv) : OutInv (execSel x pi neg s) :=
  inv_issue hs fun _ _ ht => inv_laneOp ht

theorem inv_execIcmp {g c ty pd a b} (hs : s.Inv) : OutInv (execIcmp g c ty pd a b s) :=
  inv_issue hs fun _ _ ht => inv_predOp ht

theorem inv_execIcmpc {c ty cd a b} (hs : s.Inv) : OutInv (execIcmpc c ty cd a b s) :=
  inv_issue hs fun _ _ ht => inv_condOp ht

theorem inv_execPlop {g d a b tt} (hs : s.Inv) : OutInv (execPlop g d a b tt s) :=
  inv_issue hs fun _ _ ht => inv_predOp ht

theorem inv_execClop {d a b tt} (hs : s.Inv) : OutInv (execClop d a b tt s) :=
  inv_issue hs fun _ _ ht => inv_modGang ht

theorem inv_execPmov {g m} (hs : s.Inv) : OutInv (execPmov g m s) := by
  unfold execPmov
  refine inv_issue hs fun _ _ ht => ?_
  split
  · exact inv_predOp ht
  · exact inv_laneOp ht
  · exact inv_predOp ht

theorem inv_execShfl {g m ty d a b} (hs : s.Inv) : OutInv (execShfl g m ty d a b s) :=
  inv_issue hs fun _ _ ht => inv_writeLanes ht

theorem inv_execBcast {g ty d a b} (hs : s.Inv) : OutInv (execBcast g ty d a b s) :=
  inv_issue hs fun _ _ ht => inv_writeLanes ht

theorem inv_execBallot {g d p} (hs : s.Inv) : OutInv (execBallot g d p s) :=
  inv_issue hs fun _ _ ht => inv_writeScalar ht

theorem inv_execPscan {g op incl ty sat d a} (hs : s.Inv) : OutInv (execPscan g op incl ty sat d a s) :=
  inv_issue hs fun _ _ ht => inv_withQueues ht (fun _ _ _ hu => inv_writeLanes hu)

theorem inv_execRed {g op ty sat d va} (hs : s.Inv) : OutInv (execRed g op ty sat d va s) :=
  inv_issue hs fun _ _ ht => inv_writeScalar ht

theorem inv_tileCheck {is va w} (hs : s.Inv) : (tileCheck s is va w).1.Inv := by
  unfold tileCheck
  dsimp only
  split
  · exact hs
  · split
    · exact hs
    · split
      · exact inv_requestPage (inv_fst (inv_translate hs) ‹_›)
      · have ht := inv_fst (inv_translate hs) ‹_›
        split
        · exact ht
        · exact inv_modGroup ht

theorem inv_tilesCheck {is acc ts} (hs : s.Inv) : (tilesCheck s is acc ts).1.Inv := by
  induction ts generalizing s acc with
  | nil => exact hs
  | cons p ts ih =>
    unfold tilesCheck
    split
    · next e => exact ih (inv_fst (inv_tileCheck hs) e)
    · exact inv_tileCheck hs

theorem inv_submitted {is c n f h cr tiles tok} (hs : s.Inv) : (submitted s is c n f h cr tiles tok).Inv :=
  inv_countDie (inv_modDie (inv_modGang hs))

theorem inv_submit {is c n f h tiles} (hs : s.Inv) : (submit s is c n f h tiles).Inv := by
  unfold submit
  split
  · exact hs
  · split
    · exact inv_submitted (inv_newOp hs ‹_›)
    · exact hs

theorem inv_execOtdecl {f off} (hs : s.Inv) : OutInv (execOtdecl f off s) := by
  unfold execOtdecl
  refine inv_issue hs fun _ _ ht => ?_
  split
  · exact ht
  · split
    · exact inv_throwAllOrNop ht
    · exact ht
    · split
      · exact inv_throwAllOrNop (inv_fst (inv_tilesCheck ht) ‹_›)
      · exact inv_fst (inv_tilesCheck ht) ‹_›
      · exact inv_submit (inv_modGang (inv_fst (inv_tilesCheck ht) ‹_›))

theorem inv_execOtbegin {f} (hs : s.Inv) : OutInv (execOtbegin f s) := by
  unfold execOtbegin
  refine inv_issue hs fun _ _ ht => ?_
  dsimp only
  split
  · exact ht
  · split
    · exact inv_throwAllOrNop ht
    · split
      · split
        · exact inv_throwAllOrNop ht
        · split
          · exact ht
          · exact inv_modGang ht
          · exact inv_throwAllOrNop ht
      · exact inv_throwAllOrNop ht

theorem inv_execOtend (hs : s.Inv) : OutInv (execOtend s) := by
  unfold execOtend
  refine inv_issue hs fun _ _ ht => ?_
  split
  · exact inv_fst (inv_bodyEnd ht) ‹_›
  · exact inv_throwMany (inv_fst (inv_bodyEnd ht) ‹_›)

theorem inv_execOtround {a} (hs : s.Inv) : OutInv (execOtround a s) :=
  inv_issue hs fun _ _ ht => inv_modGang ht

theorem inv_endAllWork (hs : s.Inv) : (endAllWork s).Inv := by
  unfold endAllWork
  exact hs.frame

theorem inv_warmKeep (hs : s.Inv) : (warmKeep s).Inv :=
  have hu : (endAllWork s).Inv := inv_endAllWork hs
  ⟨Memory.wf_filter _ _ hu.1, hu.2⟩

theorem inv_coldKeep (hs : s.Inv) : (coldKeep s).Inv :=
  ⟨Memory.wf_filter _ _ hs.1, hs.2⟩

theorem inv_recordBad {b} (hs : s.Inv) : (recordBad s b).Inv := by
  unfold recordBad
  exact inv_ite hs.frame hs

theorem inv_trainHost (hs : s.Inv) : (trainHost s).Inv := by
  unfold trainHost
  exact .frame (h := inv_freshen hs)

theorem inv_trainPort {p} (hs : s.Inv) : (trainPort s p).Inv := by
  unfold trainPort
  split
  · exact hs.frame
  · exact .frame (h := inv_freshen hs)

theorem inv_unmapZero {line} (hs : s.Inv) : (unmapZero s line).Inv := by
  unfold unmapZero
  exact inv_ite hs.frame hs

theorem inv_loadFirmware {cold} (hs : s.Inv) : (loadFirmware s cold).Inv := by
  unfold loadFirmware
  extract_lets f ps t u
  have ht : t.Inv := ⟨List.foldlRecOn (motive := fun m : Memory => m.wf = true) ps _ hs.1
    fun m hm p _ => Memory.wf_write m p.1 p.2 hm, hs.2⟩
  have hu : u.Inv := inv_foldl ht fun _ _ ht => inv_unmapZero ht
  exact inv_ite (inv_foldl hu fun _ _ ht => inv_regPut ht) hu

theorem inv_startCore {kept out die e} (hs : s.Inv) : (startCore kept out die s e).Inv := by
  unfold startCore
  dsimp only
  split
  · exact hs
  · split
    · split
      · exact hs.frame
      · exact hs
    · exact hs.frame

theorem inv_startDie {kept out d} (hs : s.Inv) : (startDie kept out s d).Inv :=
  inv_foldl (inv_modDie hs) fun _ _ ht => inv_startCore ht

theorem inv_failStart {warm f} (hs : s.Inv) : (failStart s warm f).Inv := by
  unfold failStart
  exact hs.frame

theorem inv_laterSteps {warm chosen out} (hs : s.Inv) : (laterSteps s warm chosen out).Inv := by
  unfold laterSteps
  refine inv_ite (inv_failStart hs) ?_
  extract_lets t u v
  have ht : t.Inv := inv_trainHost (inv_foldl hs fun _ _ ht => inv_trainPort ht)
  have hu : u.Inv := inv_loadFirmware ht
  have hv : v.Inv := inv_foldl hu fun _ _ ht => inv_startDie ht
  split
  · exact inv_failStart ht
  · exact hv.frame

theorem inv_startSteps {warm failed badCores} (hs : s.Inv) : (startSteps s warm failed badCores).Inv := by
  unfold startSteps
  split
  · exact inv_failStart hs
  · extract_lets tested chosen taken out bare t _ u
    have ht : t.Inv := inv_foldl hs fun _ _ ht => inv_recordBad ht
    have hu : u.Inv := inv_ite ht.frame ht
    refine inv_ite (inv_failStart ht) ?_
    split
    · exact inv_failStart hu
    · exact inv_laterSteps hu

theorem inv_execPowerOn (hs : s.Inv) : OutInv (execPowerOn s) := by
  unfold execPowerOn
  exact hs.frame

theorem inv_execStartCold {failed badCores} (hs : s.Inv) : OutInv (execStartCold failed badCores s) :=
  inv_ite (inv_startSteps (inv_coldKeep hs)) hs

theorem inv_execStartWarm {failed badCores} (hs : s.Inv) : OutInv (execStartWarm failed badCores s) :=
  inv_ite (inv_startSteps (inv_warmKeep hs)) hs

end Sys2Proof.Machine
end

section
/-!
## Turns and cycles

The agenda of a cycle holds no instruction as an event, and a turn keeps the invariant if the meanings of instructions do.
-/

namespace Sys2Proof.Machine
variable {s t : State}
set_option Elab.async false

/-! ### The agenda -/

/-- No instruction stands among turns as an event. -/
def EventsWordless (ts : List Turn) : Prop := ∀ i, Turn.event i ∈ ts → i.hasWords = false

theorem inv_withAgenda {ts} (hs : s.Inv) (ht : EventsWordless ts) : State.Inv { s with agenda := ts } := ⟨hs.1, ht⟩

theorem eventsWordless_nil : EventsWordless [] := fun _ h => nomatch h

theorem eventsWordless_append {ts us} : EventsWordless (ts ++ us) ↔ EventsWordless ts ∧ EventsWordless us :=
  ⟨fun h => ⟨fun i hi => h i (List.mem_append_left _ hi), fun i hi => h i (List.mem_append_right _ hi)⟩,
    fun h i hi => (List.mem_append.1 hi).elim (h.1 i) (h.2 i)⟩

theorem eventsWordless_map {is : List Instr} (h : ∀ i ∈ is, i.hasWords = false) : EventsWordless (is.map Turn.event) := by
  intro i hi
  obtain ⟨j, hj, e⟩ := List.mem_map.1 hi
  cases e
  exact h i hj

theorem eventsWordless_event {i} (h : i.hasWords = false) : EventsWordless [.event i] :=
  eventsWordless_map (is := [i]) fun _ hj => List.mem_singleton.1 hj ▸ h

theorem eventsWordless_cons {t : Turn} {ts} (ht : ∀ i, t ≠ .event i) (hts : EventsWordless ts) : EventsWordless (t :: ts) :=
  fun i h => (List.mem_cons.1 h).elim (fun e => absurd e.symm (ht i)) (hts i)

theorem eventsWordless_issue_cons {g k ts} (h : EventsWordless ts) : EventsWordless (.issue g k :: ts) :=
  eventsWordless_cons (fun _ e => nomatch e) h

theorem eventsWordless_pass_cons {g k ts} (h : EventsWordless ts) : EventsWordless (.pass g k :: ts) :=
  eventsWordless_cons (fun _ e => nomatch e) h

theorem eventsWordless_tail {t : Turn} {ts} (h : EventsWordless (t :: ts)) : EventsWordless ts :=
  fun i hi => h i (List.mem_cons_of_mem _ hi)

/-- A candidate takes its place among turns without becoming an event. -/
theorem eventsWordless_rejoin {c : Cand} {ts} (hc : ∀ i, c.turn ≠ .event i) (h : EventsWordless ts) :
    EventsWordless (rejoin s c ts) := by
  induction ts with
  | nil => exact eventsWordless_cons hc h
  | cons t ts ih =>
    have hr : EventsWordless (t :: rejoin s c ts) := fun i hi =>
      (List.mem_cons.1 hi).elim (fun e => h i (e ▸ List.mem_cons_self)) (ih (eventsWordless_tail h) i)
    unfold rejoin
    split
    · split
      · exact eventsWordless_cons hc h
      · exact hr
    · split
      · exact hr
      · exact eventsWordless_cons hc h

theorem candOf_turn_ne_event {t : Turn} {c} (h : candOf s t = some c) (i) : c.turn ≠ .event i := by
  unfold candOf at h
  split at h
  · split at h
    · cases h; exact nofun
    · cases h
  · cases h

/-! ### What the next cycle lays out -/

theorem hasWords_of_outside {i : Instr} (h : outside i = true) : i.hasWords = false := by
  unfold outside at h
  split at h
  rotate_right
  · cases h
  all_goals rfl

theorem eventsWordless_inPhases {is : List Instr} {ps} (h : ∀ i ∈ is, i.hasWords = false) :
    EventsWordless (inPhases s is ps) := by
  intro i hi
  obtain ⟨p, _, hi⟩ := List.mem_flatMap.1 hi
  exact eventsWordless_map (fun j hj => h j (List.mem_filter.1 hj).1) i hi

theorem hasWords_of_mem_ite {p : Prop} [Decidable p] {i : Instr} (h : i.hasWords = false) :
    ∀ j ∈ (if p then [i] else []), j.hasWords = false := by
  intro j hj
  obtain ⟨_, hj⟩ := List.mem_ite_nil_right.1 hj
  exact List.mem_singleton.1 hj ▸ h

theorem hasWords_of_mem_clockEvents : ∀ i ∈ clockEvents s, i.hasWords = false := by
  simp only [clockEvents, List.forall_mem_append, List.forall_mem_map]
  exact ⟨⟨⟨⟨⟨hasWords_of_mem_ite rfl, hasWords_of_mem_ite rfl⟩, hasWords_of_mem_ite rfl⟩, hasWords_of_mem_ite rfl⟩,
    fun _ _ => rfl⟩, fun _ _ => rfl⟩

theorem hasWords_of_mem_deadlines : ∀ i ∈ deadlines s, i.hasWords = false := by
  intro i h
  obtain ⟨_, _, rfl⟩ := List.mem_map.1 h
  rfl

theorem eventsWordless_bankSwitches : EventsWordless (bankSwitches s) := by
  intro i hi
  obtain ⟨_, _, hi⟩ := List.mem_flatMap.1 hi
  obtain ⟨_, _, hi⟩ := List.mem_flatMap.1 hi
  split at hi
  · obtain ⟨_, _, e⟩ := List.mem_map.1 hi
    cases e; rfl
  · cases hi

theorem eventsWordless_mergeDue : EventsWordless (mergeDue s) := by
  unfold mergeDue
  split
  · exact eventsWordless_event rfl
  · exact eventsWordless_nil

theorem mem_insertCand {c d : Cand} {ds} : d ∈ insertCand c ds → d = c ∨ d ∈ ds := by
  induction ds with
  | nil => exact fun h => List.mem_cons.1 h
  | cons e ds ih =>
    unfold insertCand
    split
    · exact List.mem_cons.1
    · intro h
      rcases List.mem_cons.1 h with rfl | h
      · exact .inr List.mem_cons_self
      · exact (ih h).imp_right (List.mem_cons_of_mem _)

theorem mem_foldr_insertCand {c : Cand} {cs : List Cand} : c ∈ cs.foldr insertCand [] → c ∈ cs := by
  induction cs with
  | nil => exact id
  | cons d cs ih =>
    intro h
    exact (mem_insertCand h).elim (fun e => e ▸ List.mem_cons_self) fun h => List.mem_cons_of_mem _ (ih h)

theorem turn_ne_event_of_mem_candidates {c} (h : c ∈ candidates s) (i) : c.turn ≠ .event i := by
  obtain ⟨_, _, h⟩ := List.mem_flatMap.1 h
  split at h
  · cases h
  · obtain ⟨_, _, e⟩ := List.mem_filterMap.1 h
    split at e
    · cases e
    · cases e; exact nofun

theorem eventsWordless_issueTurns : EventsWordless (issueTurns s) := by
  intro i hi
  obtain ⟨c, hc, e⟩ := List.mem_map.1 hi
  exact absurd e (turn_ne_event_of_mem_candidates (mem_foldr_insertCand hc) i)

theorem eventsWordless_nextCycle : EventsWordless (nextCycle s) := by
  have hw : ∀ i ∈ (Config.happenings s.fresh).filter outside, i.hasWords = false := fun i hi =>
    hasWords_of_outside (List.mem_filter.1 hi).2
  have hend : EventsWordless [.event .arithmeticClockCycle] := eventsWordless_event rfl
  unfold nextCycle
  extract_lets world
  split
  · exact eventsWordless_append.2 ⟨eventsWordless_map fun i hi => hw i (List.mem_filter.1 hi).1, hend⟩
  · simp only [eventsWordless_append]
    exact ⟨⟨⟨⟨⟨⟨⟨⟨eventsWordless_inPhases hw, eventsWordless_mergeDue⟩, eventsWordless_map hasWords_of_mem_clockEvents⟩,
      eventsWordless_inPhases hw⟩, eventsWordless_bankSwitches⟩, eventsWordless_issueTurns⟩, eventsWordless_inPhases hw⟩,
      eventsWordless_map hasWords_of_mem_deadlines⟩, hend⟩

theorem inv_releaseYield {g} (hs : s.Inv) : (releaseYield s g).Inv := by
  unfold releaseYield
  split
  · exact inv_ite (inv_modGang hs) hs
  · exact hs

theorem inv_wordTrap {is c bs} (hs : s.Inv) : (wordTrap s is c bs).Inv := by
  unfold wordTrap
  exact .frame (h := inv_noteIssue (inv_takeTrap hs))

theorem inv_badWord {is bs c} (hs : s.Inv) : OutInv (badWord s is bs c) := by
  unfold badWord
  dsimp only
  split
  · exact inv_wordTrap hs
  · split
    · exact inv_wordTrap hs
    · split
      · next e1 => exact inv_wordTrap ((inv_targetCheck hs).of_ok e1)
      · next e1 => exact inv_wordTrap ((inv_targetCheck hs).of_trap e1)
      · next e1 => exact ((inv_targetCheck hs).of_wait e1).frame

theorem eventsWordless_agenda (hs : s.Inv) : EventsWordless s.agenda := hs.2

theorem outInv_ite {c : Prop} [Decidable c] {o p : Out} (ho : OutInv o) (hp : OutInv p) : OutInv (if c then o else p) := by
  split
  · exact ho
  · exact hp

theorem inv_afterHeader {i g k o} (ho : OutInv o) : OutInv (afterHeader i g k o) := by
  unfold afterHeader
  split
  · next s =>
    have hs : s.Inv := ho
    split
    · refine inv_withAgenda hs ?_
      split
      · next e => exact eventsWordless_rejoin (candOf_turn_ne_event e) (eventsWordless_agenda hs)
      · exact eventsWordless_issue_cons (eventsWordless_agenda hs)
    · exact hs
  · exact ho

theorem inv_afterPass {is i o} (ho : OutInv o) : OutInv (afterPass is i o) := by
  unfold afterPass
  split
  · next s =>
    have hs : s.Inv := ho
    split
    · exact inv_withAgenda hs (eventsWordless_pass_cons (eventsWordless_agenda hs))
    · exact hs
  · exact ho

section
variable {run : Instr → State → Out} (hr : ∀ i t, t.Inv → OutInv (run i t))
include hr

theorem inv_runWord {g k is bs} (hs : s.Inv) : OutInv (runWord run g k is bs s) := by
  unfold runWord
  split
  · exact inv_wordTrap hs
  · split
    · exact inv_badWord hs
    · exact inv_afterPass (inv_afterHeader (hr _ _ hs))

theorem inv_passTurn {g k} (hs : s.Inv) : OutInv (passTurn run g k s) := by
  unfold passTurn
  split
  · exact hs
  · split
    · exact hs
    · split
      · next e =>
        have ht := (inv_fetchInsn (.frame (h := hs))).of_ok e
        split
        · split
          · exact inv_afterPass (hr _ _ ht)
          · exact hs
        · exact hs
      · exact hs

theorem inv_attempt {g k} (hs : s.Inv) : OutInv (attempt run g k s) := by
  unfold attempt
  extract_lets t
  have ht : t.Inv := inv_releaseYield (.frame (h := hs))
  split
  · exact ht
  · refine outInv_ite ht.frame ?_
    split
    · next e => exact ((inv_fetchInsn ht).of_wait e).frame
    · next e => exact inv_wordTrap ((inv_fetchInsn ht).of_trap e)
    · next e => exact inv_runWord hr ((inv_fetchInsn ht).of_ok e)

end

theorem inv_noteStall {g k why} (hs : s.Inv) : (noteStall s g k why).Inv := by
  unfold noteStall
  split
  · exact inv_modCore hs
  · exact hs

theorem inv_passOver {run g k is} (hs : s.Inv) : (passOver run g k is s).Inv := by
  have hp {f} : (modGroup (releaseYield s g) g k f).Inv := inv_modGroup (inv_releaseYield hs)
  exact inv_ite (inv_soon hp) hp

theorem inv_issueTurn {run : Instr → State → Out} {g k} (hr : ∀ i t, t.Inv → OutInv (run i t)) (hs : s.Inv) :
    OutInv (issueTurn run g k s) := by
  have ha : OutInv (attempt run g k s) := inv_attempt hr hs
  unfold issueTurn
  split
  · exact hs
  · split
    · exact hs
    · split
      · exact hs
      · split
        · exact inv_passOver hs
        · split
          · next e =>
            have ht := ha.of_next e
            split
            · exact inv_modGroup (inv_noteStall ht)
            · exact ht
          · exact ha

theorem inv_countPipes {c} (hs : s.Inv) : (countPipes s c).Inv :=
  inv_foldl hs fun _ _ ht => inv_ite (inv_countCore ht) (inv_ite (inv_countCore ht) ht)

theorem inv_latchReads {p} (hs : s.Inv) : (latchReads s p).Inv :=
  inv_ite (inv_modGang hs) hs

theorem inv_settleGang {p} (hs : s.Inv) : (settleGang s p).Inv := by
  unfold settleGang
  extract_lets t u v w
  have ht : t.Inv := inv_ite (inv_retryHeld hs) hs
  have hu : u.Inv := inv_foldl ht fun _ _ h => inv_settleFlight h
  have hv : v.Inv := inv_ite (inv_postTrap hu) hu
  have hw : w.Inv := inv_settleEnding hv
  exact inv_ite (inv_exitRelease hw) hw

theorem inv_engineCycle {c} (hs : s.Inv) : (engineCycle s c).Inv :=
  inv_moveAllEarly (inv_mxTick hs)

theorem inv_fieldAdds (hs : s.Inv) : (fieldAdds s).Inv := by
  unfold fieldAdds
  exact inv_ite hs (inv_ite (inv_freshen hs) (.frame (h := inv_freshen hs)))

theorem inv_measurePower (hs : s.Inv) : (measurePower s).Inv := by
  unfold measurePower
  exact inv_ite hs (.frame (h := inv_freshen hs))

theorem inv_cycleSettled (hs : s.Inv) : (cycleSettled s).Inv := by
  unfold cycleSettled
  extract_lets t u v w x y z
  have ht : t.Inv := inv_flipBars hs
  have hu : u.Inv := inv_keptAnswers (inv_foldl ht fun _ _ h => inv_settleUnwind h)
  have hv : v.Inv := inv_foldl hu fun _ _ h => inv_settleGang h
  have hw : w.Inv := inv_foldl hv fun _ _ h => inv_engineCycle h
  have hx : x.Inv := inv_foldl hw fun _ _ h => inv_countPipes h
  have hy : y.Inv := inv_applyLates (inv_applyCounts hx)
  have hz : z.Inv := inv_foldl hy fun _ _ h => inv_latchReads h
  exact inv_fieldAdds (inv_measurePower hz)

theorem inv_cycleCounted (hs : s.Inv) : (cycleCounted s).Inv := by
  unfold cycleCounted
  exact hs.frame

theorem inv_execArithmeticClockCycle (hs : s.Inv) : OutInv (execArithmeticClockCycle s) :=
  inv_ite hs (inv_cycleCounted (inv_ite (inv_cycleSettled hs) hs))

theorem inv_turnStep {run : Instr → State → Out} (hr : ∀ i t, t.Inv → OutInv (run i t)) (hs : s.Inv) :
    OutInv (turnStep run s) := by
  have ht {t ts} (e : s.agenda = t :: ts) : State.Inv { s with agenda := ts } :=
    inv_withAgenda hs (eventsWordless_tail (e ▸ eventsWordless_agenda hs))
  unfold turnStep
  split
  · next e =>
    split
    · exact ht e
    · exact hr _ _ (ht e)
  · next e => exact inv_passTurn hr (ht e)
  · next e => exact inv_issueTurn hr (ht e)
  · split
    · exact hr _ _ (inv_freshen hs)
    · exact (inv_withAgenda hs eventsWordless_nextCycle).frame

end Sys2Proof.Machine
end

section
/-!
## Every step

One rule for every constructor of `Instr`, and the step.
-/

namespace Sys2Proof.Machine
variable {s t : State}
set_option Elab.async false

theorem inv_exec {i} (hs : s.Inv) : OutInv (exec i s) := by
  cases i with
  | clauseHeader => exact inv_execClauseHeader hs
  | nop => exact inv_execNop hs
  | bra => exact inv_execBra hs
  | brc => exact inv_execBrc hs
  | call => exact inv_execCall hs
  | callv => exact inv_execCallv hs
  | ret => exact inv_execRet hs
  | ifI => exact inv_execIf hs
  | elseI => exact inv_execElse hs
  | endif => exact inv_execEndif hs
  | loop => exact inv_execLoop hs
  | brk => exact inv_execBrk hs
  | cont => exact inv_execCont hs
  | endloop => exact inv_execEndloop hs
  | gjoin => exact inv_execGjoin hs
  | exit => exact inv_execExit hs
  | waitp => exact inv_execWaitp hs
  | tryGang => exact inv_execTryGang hs
  | tryCrew => exact inv_execTryCrew hs
  | tryLaunch => exact inv_execTryLaunch hs
  | endtryGang => exact inv_execEndtryGang hs
  | endtryCrew => exact inv_execEndtryCrew hs
  | endtryLaunch => exact inv_execEndtryLaunch hs
  | throw => exact inv_execThrow hs
  | rethrow => exact inv_execRethrow hs
  | rdexr => exact inv_execRdexr hs
  | iadd => exact inv_execIadd hs
  | isub => exact inv_execIsub hs
  | imul => exact inv_execImul hs
  | imulh => exact inv_execImulh hs
  | imad => exact inv_execImad hs
  | iabs => exact inv_execIabs hs
  | ineg => exact inv_execIneg hs
  | imin => exact inv_execImin hs
  | imax => exact inv_execImax hs
  | and => exact inv_execAnd hs
  | or => exact inv_execOr hs
  | xor => exact inv_execXor hs
  | not => exact inv_execNot hs
  | shl => exact inv_execShl hs
  | shr => exact inv_execShr hs
  | sar => exact inv_execSar hs
  | rot => exact inv_execRot hs
  | bfx => exact inv_execBfx hs
  | bfi => exact inv_execBfi hs
  | popc => exact inv_execPopc hs
  | clz => exact inv_execClz hs
  | ctz => exact inv_execCtz hs
  | brev => exact inv_execBrev hs
  | icmp => exact inv_execIcmp hs
  | icmpc => exact inv_execIcmpc hs
  | sel => exact inv_execSel hs
  | mov => exact inv_execMov hs
  | movi => exact inv_execMovi hs
  | lea => exact inv_execLea hs
  | plop => exact inv_execPlop hs
  | clop => exact inv_execClop hs
  | pmov => exact inv_execPmov hs
  | shfl => exact inv_execShfl hs
  | bcast => exact inv_execBcast hs
  | ballot => exact inv_execBallot hs
  | pscan => exact inv_execPscan hs
  | append => exact inv_execAppend hs
  | red => exact inv_execRed hs
  | fadd => exact inv_execFadd hs
  | fsub => exact inv_execFsub hs
  | fmul => exact inv_execFmul hs
  | fma => exact inv_execFma hs
  | fmin => exact inv_execFmin hs
  | fmax => exact inv_execFmax hs
  | fabs => exact inv_execFabs hs
  | fneg => exact inv_execFneg hs
  | fscale => exact inv_execFscale hs
  | fcmp => exact inv_execFcmp hs
  | fcmpc => exact inv_execFcmpc hs
  | fclass => exact inv_execFclass hs
  | frcp => exact inv_execFrcp hs
  | frsq => exact inv_execFrsq hs
  | fsqrt => exact inv_execFsqrt hs
  | fexp2 => exact inv_execFexp2 hs
  | flog2 => exact inv_execFlog2 hs
  | fsin => exact inv_execFsin hs
  | fcos => exact inv_execFcos hs
  | ftanh => exact inv_execFtanh hs
  | cvt => exact inv_execCvt hs
  | cvtmx => exact inv_execCvtmx hs
  | cvtmxScale => exact inv_execCvtmxScale hs
  | ld => exact inv_execLd hs
  | ldRp => exact inv_execLdRp hs
  | st => exact inv_execSt hs
  | lds => exact inv_execLds hs
  | sts => exact inv_execSts hs
  | atom => exact inv_execAtom hs
  | atoms => exact inv_execAtoms hs
  | fence => exact inv_execFence hs
  | waita => exact inv_execWaita hs
  | wake => exact inv_execWake hs
  | persist => exact inv_execPersist hs
  | zfill => exact inv_execZfill hs
  | pagereq => exact inv_execPagereq hs
  | cctlWb => exact inv_execCctlWb hs
  | cctlDisc => exact inv_execCctlDisc hs
  | icpf => exact inv_execIcpf hs
  | icpin => exact inv_execIcpin hs
  | icpinUnpin => exact inv_execIcpinUnpin hs
  | icinvCrew => exact inv_execIcinvCrew hs
  | icinvDev => exact inv_execIcinvDev hs
  | qstat => exact inv_execQstat hs
  | cpy => exact inv_execCpy hs
  | cpyM => exact inv_execCpyM hs
  | cpyX => exact inv_execCpyX hs
  | mma => exact inv_execMma hs
  | mmaSp => exact inv_execMmaSp hs
  | mmaP => exact inv_execMmaP hs
  | msel => exact inv_execMsel hs
  | accz => exact inv_execAccz hs
  | accdr => exact inv_execAccdr hs
  | wdset => exact inv_execWdset hs
  | mfence => exact inv_execMfence hs
  | fwait => exact inv_execFwait hs
  | ftest => exact inv_execFtest hs
  | fcancel => exact inv_execFcancel hs
  | fexport => exact inv_execFexport hs
  | fimport => exact inv_execFimport hs
  | barinit => exact inv_execBarinit hs
  | bara => exact inv_execBara hs
  | barexp => exact inv_execBarexp hs
  | barw => exact inv_execBarw hs
  | lbar => exact inv_execLbar hs
  | otdecl => exact inv_execOtdecl hs
  | otbegin => exact inv_execOtbegin hs
  | otend => exact inv_execOtend hs
  | otround => exact inv_execOtround hs
  | trap => exact inv_execTrap hs
  | svret => exact inv_execSvret hs
  | svthrow => exact inv_execSvthrow hs
  | rdxv => exact inv_execRdxv hs
  | wrxv => exact inv_execWrxv hs
  | rdxs => exact inv_execRdxs hs
  | wrxs => exact inv_execWrxs hs
  | rdsys => exact inv_execRdsys hs
  | wrsys => exact inv_execWrsys hs
  | bankset => exact inv_execBankset hs
  | bist => exact inv_execBist hs
  | mbxrdNext => exact inv_execMbxrdNext hs
  | mbxrdWord => exact inv_execMbxrdWord hs
  | coreret => exact inv_execCoreret hs
  | idivU32 => exact inv_execIdivU32 hs
  | iremU32 => exact inv_execIremU32 hs
  | idivU64 => exact inv_execIdivU64 hs
  | iremU64 => exact inv_execIremU64 hs
  | idivS32 => exact inv_execIdivS32 hs
  | iremS32 => exact inv_execIremS32 hs
  | idivS64 => exact inv_execIdivS64 hs
  | iremS64 => exact inv_execIremS64 hs
  | fdivF32 => exact inv_execFdivF32 hs
  | dadd => exact inv_execDadd hs
  | dmul => exact inv_execDmul hs
  | dfma => exact inv_execDfma hs
  | ddiv => exact inv_execDdiv hs
  | dsqrt => exact inv_execDsqrt hs
  | dcvt => exact inv_execDcvt hs
  | emu => exact inv_execEmu hs
  | loadDataReturn => exact inv_execLoadDataReturn hs
  | spillReadReturn => exact inv_execSpillReadReturn hs
  | sysreadComplete => exact inv_execSysreadComplete hs
  | fenceComplete => exact inv_execFenceComplete hs
  | bufDrain => exact inv_execBufDrain hs
  | coreWriteBack => exact inv_execCoreWriteBack hs
  | copyDiscard => exact inv_execCopyDiscard hs
  | copyFetch => exact inv_execCopyFetch hs
  | atomicComplete => exact inv_execAtomicComplete hs
  | copySegmentStart => exact inv_execCopySegmentStart hs
  | copyPieceWritten => exact inv_execCopyPieceWritten hs
  | copyComplete => exact inv_execCopyComplete hs
  | matrixCommandStart => exact inv_execMatrixCommandStart hs
  | matrixCommandComplete => exact inv_execMatrixCommandComplete hs
  | bankSwitchApply => exact inv_execBankSwitchApply hs
  | persistComplete => exact inv_execPersistComplete hs
  | icinvComplete => exact inv_execIcinvComplete hs
  | unwindComplete => exact inv_execUnwindComplete hs
  | candidatePromote => exact inv_execCandidatePromote hs
  | svyieldTimeout => exact inv_execSvyieldTimeout hs
  | waitaPoll => exact inv_execWaitaPoll hs
  | preemptRequest => exact inv_execPreemptRequest hs
  | crewSave => exact inv_execCrewSave hs
  | crewResume => exact inv_execCrewResume hs
  | crewPlace => exact inv_execCrewPlace hs
  | crewEnd => exact inv_execCrewEnd hs
  | tailRead => exact inv_execTailRead hs
  | tailPollTimer => exact inv_execTailPollTimer hs
  | dependenceWatch => exact inv_execDependenceWatch hs
  | launchAccept => exact inv_execLaunchAccept hs
  | completionWrite => exact inv_execCompletionWrite hs
  | beatEnd => exact inv_execBeatEnd hs
  | mergeComplete => exact inv_execMergeComplete hs
  | lbarCountExchange => exact inv_execLbarCountExchange hs
  | heartbeat => exact inv_execHeartbeat hs
  | failover => exact inv_execFailover hs
  | claimDeadline => exact inv_execClaimDeadline hs
  | evnext => exact inv_execEvnext hs
  | evans => exact inv_execEvans hs
  | evack => exact inv_execEvack hs
  | eventRingWrite => exact inv_execEventRingWrite hs
  | tinvGo => exact inv_execTinvGo hs
  | tinvDone => exact inv_execTinvDone hs
  | ownreqGo => exact inv_execOwnreqGo hs
  | ownToHostFlip => exact inv_execOwnToHostFlip hs
  | ownToDeviceFlip => exact inv_execOwnToDeviceFlip hs
  | hostMemAccess => exact inv_execHostMemAccess hs
  | hostSnoop => exact inv_execHostSnoop hs
  | pageRequestWrite => exact inv_execPageRequestWrite hs
  | pageReply => exact inv_execPageReply hs
  | pagereqResolve => exact inv_execPagereqResolve hs
  | functionLevelReset => exact inv_execFunctionLevelReset hs
  | powerOn => exact inv_execPowerOn hs
  | startCold => exact inv_execStartCold hs
  | startWarm => exact inv_execStartWarm hs
  | attestGo => exact inv_execAttestGo hs
  | attestDone => exact inv_execAttestDone hs
  | lmargGo => exact inv_execLmargGo hs
  | lmargScanDone => exact inv_execLmargScanDone hs
  | supervisorRestart => exact inv_execSupervisorRestart hs
  | beatWrite => exact inv_execBeatWrite hs
  | qcfgWrite => exact hs
  | tickConfigWrite => exact inv_execTickConfigWrite hs
  | tickClear => exact inv_execTickClear hs
  | tickEdge => exact inv_execTickEdge hs
  | currentSample => exact inv_execCurrentSample hs
  | lqConfigWrite => exact inv_execLqConfigWrite hs
  | accessTableWrite => exact inv_execAccessTableWrite hs
  | registerWrite => exact inv_execRegisterWrite hs
  | powerLimit => exact inv_execPowerLimit hs
  | coldPlateLimit => exact inv_execColdPlateLimit hs
  | junctionTrip => exact inv_execJunctionTrip hs
  | linkLaneFail => exact inv_execLinkLaneFail hs
  | linkDown => exact inv_execLinkDown hs
  | hostPortDown => exact inv_execHostPortDown hs
  | eccUncorrectable => exact inv_execEccUncorrectable hs
  | arithmeticClockCycle => exact inv_execArithmeticClockCycle hs
  | powerBelowLimit => exact inv_execPowerBelowLimit hs
  | coldPlateInRange => exact inv_execColdPlateInRange hs
  | hostPortUp => exact inv_execHostPortUp hs
  | peerMemAccess => exact inv_execPeerMemAccess hs
  | sysStoreComplete => exact inv_execSysStoreComplete hs
  | backInvalidateResponse => exact inv_execBackInvalidateResponse hs
  | bistComplete => exact inv_execBistComplete hs
  | spanLaunchUnwind => exact inv_execSpanLaunchUnwind hs

/-- Settles O7: every function of the model that makes a next state keeps the invariant, memory because bytes change only by
`Memory.write` and by dropping entries, the agenda because what joins it is a turn of issue, a passed word or an event without words. -/
theorem stepKeepsTheInvariant : Obligations.StepKeepsTheInvariant := by
  unfold Obligations.StepKeepsTheInvariant
  intro s t hs e
  exact (inv_turnStep (fun _ _ => inv_exec) hs).of_next e

end Sys2Proof.Machine
end

section
/-!
# Power, cooling, links and the clock (O60)

One rule for each case of each event: the conditions that its meaning tests, and the next state they lead to.
-/

namespace Sys2Proof.Machine
variable {s : State}

/-! ### The power limit (R19) -/

theorem exec_powerLimit_of_lt {mw : Nat} (h : mw < powerLimitNow s) : exec (.powerLimit mw) s = .next s := by
  rw [exec_powerLimit, execPowerLimit, if_pos h]

/-- At the limit the measured value is kept; the event is raised as the limit engages, and not again while it is engaged. -/
theorem exec_powerLimit_of_le {mw : Nat} (h : powerLimitNow s ≤ mw) :
    exec (.powerLimit mw) s = .next (if s.powerEngaged then { s with power := mw, powerEngaged := true }
      else raiseEvent { s with power := mw, powerEngaged := true } 8 mw) := by
  rw [exec_powerLimit, execPowerLimit, if_neg (Nat.not_lt.mpr h)]

/-- The value measured below the limit is free, and a remainder by the limit is below it. -/
theorem exec_powerBelowLimit_releases (h : 0 < powerLimitNow s) :
    ∃ t, exec .powerBelowLimit s = .next t ∧ t.power < powerLimitNow s ∧ t.powerEngaged = false ∧ t.mem = s.mem :=
  ⟨_, exec_powerBelowLimit s, Nat.mod_lt _ h, rfl, rfl⟩

/-! ### Cooling (R396) -/

theorem exec_coldPlateLimit_of_not_contains {sensor : Nat} (h : s.coldPlate.contains sensor = false) :
    exec (.coldPlateLimit sensor) s = .next (raiseEvent { s with coldPlate := s.coldPlate ++ [sensor] } 12 sensor) := by
  rw [exec_coldPlateLimit, execColdPlateLimit, h, if_neg Bool.false_ne_true]

/-! ### Links (R356, R369) -/

/-- A port with one more lane retired. -/
def Port.retireLane (x : Port) (lane : Nat) : Port := { x with retired := x.retired ||| BitVec.ofNat 16 (2 ^ lane) }

/-- A lane in use of a trained link fails: the lane is retired and counts as an event, and the link goes down with its last lane. -/
theorem exec_linkLaneFail_of_trained {port lane : Nat} (hp : port < 18) (hl : lane < 8) (ht : trained s port = true)
    (hr : (portOf s port).retired.getLsbD lane = false) :
    let x := (portOf s port).retireLane lane
    let cut := raiseEvent { s with ports := Tab.upd s.ports port (fun _ => x) } 6 (port + lane * 2 ^ 8)
    exec (.linkLaneFail port lane) s
      = .next (if (List.range 8).all (fun i => x.retired.getLsbD i) then soon cut (.linkDown port) else cut) := by
  have acts : ¬(port ≥ 18 ∨ lane ≥ 8 ∨ !trained s port ∨ (portOf s port).retired.getLsbD lane) := by
    rintro (h | h | h | h)
    · exact Nat.not_le.mpr hp h
    · exact Nat.not_le.mpr hl h
    · simp [ht] at h
    · simp [hr] at h
  intro x cut
  rw [exec_linkLaneFail, execLinkLaneFail, if_neg acts]
  rfl

theorem exec_linkDown_of_trained {port : Nat} (hp : port < 18) (ht : trained s port = true) (hd : (portOf s port).down = false) :
    exec (.linkDown port) s
      = .next (raiseEvent { s with ports := Tab.upd s.ports port (fun x => { x with down := true }) } 6 port) := by
  have acts : ¬(port ≥ 18 ∨ !trained s port ∨ (portOf s port).down) := by
    rintro (h | h | h)
    · exact Nat.not_le.mpr hp h
    · simp [ht] at h
    · simp [hd] at h
  rw [exec_linkDown, execLinkDown, if_neg acts]

/-! ### The clock (R299, R349, R352) -/

theorem exec_arithmeticClockCycle_of_stopped (h : s.stoppedClock = true) : exec .arithmeticClockCycle s = .next s := by
  rw [exec_arithmeticClockCycle, execArithmeticClockCycle, if_pos h]

theorem exec_arithmeticClockCycle_of_running (h : s.stoppedClock = false) :
    exec .arithmeticClockCycle s = .next (cycleCounted (if s.start.state = 0 then cycleSettled s else s)) := by
  rw [exec_arithmeticClockCycle, execArithmeticClockCycle, h, if_neg Bool.false_ne_true]

/-- Settles O60: each clause is the rule of its event's case; the events without a condition answer by their meaning alone. -/
theorem powerEvents : Obligations.PowerEvents := by
  unfold Obligations.PowerEvents
  intro s mw sensor port lane x hot cut
  refine ⟨fun hle hoff => ?atLimit, fun hle hon => ?stillAtLimit, exec_powerLimit_of_lt, exec_powerBelowLimit_releases,
    exec_coldPlateLimit_of_not_contains, exec_coldPlateInRange sensor s, exec_junctionTrip sensor s,
    exec_linkLaneFail_of_trained, exec_linkDown_of_trained, exec_hostPortDown s, exec_hostPortUp s,
    exec_arithmeticClockCycle_of_stopped, exec_arithmeticClockCycle_of_running⟩
  case atLimit => rw [exec_powerLimit_of_le hle, hoff, if_neg Bool.false_ne_true]
  case stillAtLimit => rw [exec_powerLimit_of_le hle, if_pos hon]

end Sys2Proof.Machine
end

section
/-!
# exm as an operand, and the nesting counters (O14, O15, O16, O23)

A move of exm reads the active lanes of the issuing group (R30); a move into exm parks lanes one deeper (R31, R32). Both are lane-wise forms
with a scalar destination, so the first lemmas say what such a form with one source that is no queue comes to.
-/

namespace Sys2Proof.Machine

/-- A form of one source, neither it nor the destination a queue register, is fed as it stands. -/
theorem feeds_one {s : State} {is : Iss} {o d : Opd} {ty : Ety} (ho : o.qreg = []) (hd : d.qreg = []) :
    feeds s is [(o, ty)] d = some (s, [⟨o, ty, []⟩]) := by
  have names : queueNames [(o, ty)] d = [] := by simp [queueNames, ho, hd]
  have pops : popAll s is.ref [(o, ty)] = some (s, [⟨o, ty, []⟩], 0#64) := by
    cases o with
    | q n => cases ho
    | _ => rfl
  simp [feeds, names, pops, hd]

/-- The meaning of a move of one operand that is no queue into a scalar destination. -/
theorem unOp_move_scalar {s : State} {is : Iss} {o d : Opd} (ho : o.qreg = []) (hd : d.qreg = []) (hs : d.isScalarDst = true) :
    unOp s is ⟨Guard.all, .u64, false, d, o⟩ (fun a => a) = writeScalar s is d (rdSrc s is ⟨o, .u64, []⟩ 0) := by
  have key (k) : withQueues s is [(o, .u64)] d k = k s is [⟨o, .u64, []⟩] := withQueues_of_feeds _ _ _ _ _ _ _ (feeds_one ho hd)
  simp only [unOp, laneOp, key, hs, if_true, List.map, scalarResult]

/-- A 64-bit move into a scalar destination that may run writes the operand's value. -/
theorem exec_move_scalar {s : State} {is : Iss} {o d : Opd} (ho : o.qreg = []) (hd : d.qreg = []) (hs : d.isScalarDst = true)
    (hr : mayRun s is (.mov ⟨Guard.all, .u64, false, d, o⟩) = true) :
    exec (.mov ⟨Guard.all, .u64, false, d, o⟩) s
      = conclude is (.mov ⟨Guard.all, .u64, false, d, o⟩) (writeScalar s is d (rdSrc s is ⟨o, .u64, []⟩ 0)) :=
  comes_to _ _ (exec_mov _ s) (unOp_move_scalar ho hd hs) hr

/-- Bit `l` of exm as the group reads it (R30). -/
theorem testBit_exmOf (g : Gang) (q : QGroup) (l : Nat) : (exmOf g q).testBit l = true ↔ l < 64 ∧ laneActive g q l = true := by
  rw [exmOf, maskOf_bit, mem_activeLanes]

theorem laneActive_iff (g : Gang) (q : QGroup) (l : Nat) :
    laneActive g q l = true ↔ l < g.width ∧ laneValid g l = true ∧ inGroup q l = true ∧ counterOf g l = 0 := by
  simp only [laneActive, Bool.and_eq_true, decide_eq_true_eq, beq_iff_eq, and_assoc]

/-- Settles O14: the value moved is the mask of the active lanes, and the 64 bits of the register keep every bit of it. -/
theorem exmReads : Obligations.ExmReads := by
  unfold Obligations.ExmReads
  intro s is n i hr
  obtain ⟨y, hy, hregs⟩ := gang_past s is i (fun y => wrS y n (exmOf is.gang is.q)) (mayRun_gang s is i hr)
  refine ⟨_, y, exec_move_scalar rfl rfl rfl hr, hy, fun l hl => ?_⟩
  rw [regs_s hregs, rdS_wrS, if_pos rfl, Nat.testBit_mod_two_pow]
  simp only [hl, decide_true, Bool.true_and]
  rw [testBit_exmOf, laneActive_iff]
  exact and_iff_right hl

/-! ### Writing exm (R31, R32) -/

/-- The lanes that a write of `m` to exm parks one deeper: the valid lanes of the group whose bit is 0. -/
theorem mem_parkedBy {g : Gang} {q : QGroup} {m l : Nat} :
    l ∈ (groupLanes g q).filter (fun l => !m.testBit l) ↔ l ∈ groupLanes g q ∧ m.testBit l = false := by
  simp [List.mem_filter]

theorem counterOf_wrExm (g : Gang) (q : QGroup) (m l : Nat) :
    counterOf (wrExm g q m).1 l
      = if l ∈ groupLanes g q ∧ m.testBit l = false then min (counterOf g l + 1) 255 else counterOf g l := by
  have hnd := (nodup_groupLanes g q).filter (fun l => !m.testBit l)
  rw [wrExm, (setCounters_spec _ (fun _ c => c + 1) hnd g).1 l]
  simp only [mem_parkedBy]

/-- The lanes that a write of exm reports: the parked ones whose counter is full. -/
theorem wrExm_overflows (g : Gang) (q : QGroup) (m : Nat) :
    (wrExm g q m).2 = (groupLanes g q).filter (fun l => !m.testBit l && counterOf g l == 255) := by
  have hnd := (nodup_groupLanes g q).filter (fun l => !m.testBit l)
  rw [wrExm, (setCounters_spec _ (fun _ c => c + 1) hnd g).2, List.filter_filter]
  refine List.filter_congr fun l _ => ?_
  have full : decide (counterOf g l + 1 > 255) = (counterOf g l == 255) := by
    have := counterOf_le g l
    rw [Bool.eq_iff_iff, decide_eq_true_eq, beq_iff_eq]
    omega
  rw [full, Bool.and_comm]

/-- Settles O15: with no counter of the group at 255 a write of exm reports no lane, so the move completes with the counters that
`counterOf_wrExm` gives. -/
theorem exmWrites : Obligations.ExmWrites := by
  unfold Obligations.ExmWrites
  intro s is n i hr hlow
  have none_full : (wrScalar is.gang is.q .exm (rdS is.gang n)).2 = [] := by
    rw [wrScalar, wrExm_overflows, List.filter_eq_nil_iff]
    intro l hl
    have := hlow l hl
    simp only [Bool.and_eq_true, beq_iff_eq, not_and]
    omega
  have done : writeScalar s is .exm (rdS is.gang n) = .done (modGang s is.ref (fun g => (wrScalar g is.q .exm (rdS is.gang n)).1)) := by
    simp only [writeScalar, none_full]
  obtain ⟨y, hy, hregs⟩ := gang_past s is i (fun g => (wrScalar g is.q .exm (rdS is.gang n)).1) (mayRun_gang s is i hr)
  refine ⟨_, y, (exec_move_scalar rfl rfl rfl hr).trans (congrArg (conclude is i) done), hy, fun l => ?_⟩
  have value : counterOf y l = _ := (regs_cnt hregs l).trans (counterOf_wrExm is.gang is.q _ l)
  rw [value]
  simp only [mem_groupLanes, and_assoc]
  split
  · next h =>
    have := hlow l ((mem_groupLanes _ _ _).2 ⟨h.1, h.2.1, h.2.2.1⟩)
    omega
  · rfl

/-- Settles O16: the lanes reported are those whose counter is full, they throw behind the write, and `counterOf_wrExm` gives every counter. -/
theorem exmOverflowThrows : Obligations.ExmOverflowThrows := by
  unfold Obligations.ExmOverflowThrows
  intro s is n i full hne
  have reported : (wrScalar is.gang is.q .exm (rdS is.gang n)).2 = full := wrExm_overflows _ _ _
  refine ⟨fun hr => ?throws, fun l => ⟨counterOf_le _ l, fun h => ?kept, fun hl hbit hlow => ?deeper⟩⟩
  case throws =>
    obtain ⟨a, as, hfull⟩ := List.exists_cons_of_ne_nil hne
    refine (exec_move_scalar rfl rfl rfl hr).trans ?_
    show conclude is i (writeScalar s is .exm (rdS is.gang n)) = _
    simp only [writeScalar, reported, hfull, conclude]
  case kept =>
    refine (counterOf_wrExm _ _ _ l).trans ?_
    split
    · next hp =>
      have hfull : l ∈ full := by
        rcases h with h | h | h
        · exact h
        · exact absurd hp.1 h
        · exact absurd hp.2 (ne_false_of_eq_true h)
      have := (List.mem_filter.1 hfull).2
      simp only [Bool.and_eq_true, beq_iff_eq] at this
      omega
    · rfl
  case deeper =>
    refine (counterOf_wrExm _ _ _ l).trans ?_
    rw [if_pos ⟨hl, hbit⟩]
    omega

/-! ### The structured instructions (R133 to R135) -/

/-- A gang but for its nesting counters. -/
def Gang.uncounted (g : Gang) : Gang := { g with cnt := [] }

/-- Setting counters leaves the rest of a gang. -/
theorem setCounters_frame (g : Gang) (ls : List Nat) (f : Nat → Nat → Nat) : (setCounters g ls f).1.uncounted = g.uncounted := by
  unfold setCounters
  exact List.foldlRecOn (motive := fun p : Gang × List Nat => p.1.uncounted = g.uncounted) ls _ rfl (fun _ h _ _ => h)

theorem groupLanes_setCounters (g : Gang) (ls : List Nat) (f : Nat → Nat → Nat) (q : QGroup) :
    groupLanes (setCounters g ls f).1 q = groupLanes g q := by
  have h := congrArg (fun g => groupLanes g q) (setCounters_frame g ls f)
  exact h

theorem counterOf_withGroups (g : Gang) (qs : List QGroup) (l : Nat) : counterOf { g with groups := qs } l = counterOf g l := rfl

/-- Counters set in the valid lanes of a group. -/
theorem counterOf_setGroup (g : Gang) (q : QGroup) (f : Nat → Nat → Nat) (l : Nat) :
    counterOf (setCounters g (groupLanes g q) f).1 l
      = if l ∈ groupLanes g q then min (f l (counterOf g l)) 255 else counterOf g l :=
  (setCounters_spec _ f (nodup_groupLanes g q) g).1 l

theorem counterOf_leave (is : Iss) (gd : Guard) (k l : Nat) :
    counterOf (leaveCounters is gd k).1 l
      = if l ∈ activeLanes is.gang is.q ∧ condAt is.gang gd l = true then min (leaveCount is.q k) 255 else counterOf is.gang l := by
  have hnd := ((nodup_laneIds is.gang).filter (laneActive is.gang is.q)).filter (condAt is.gang gd)
  rw [leaveCounters]
  refine ((setCounters_spec _ (fun _ _ => leaveCount is.q k) hnd is.gang).1 l).trans ?_
  simp only [List.mem_filter, activeLanes]

/-- A quad below 16 is in the mask of a test exactly when the test holds. -/
theorem getLsbD_quadMask (f : Nat → Bool) (k : Nat) (hk : k < 16) : (quadMask f).getLsbD k = f k := by
  rw [Bool.eq_iff_iff, quadMask, BitVec.getLsbD_ofNat]
  simp only [hk, decide_true, Bool.true_and, maskOf_bit, List.mem_filter, List.mem_range, true_and]

/-- Settles O23: each form sets the counters of the group's valid lanes by a function of the lane and its counter, and leaving a loop those of
the active lanes where the condition holds. -/
theorem structuredCounters : Obligations.StructuredCounters := by
  unfold Obligations.StructuredCounters
  intro is gd l c mine
  have group (f) : mine (setCounters is.gang (groupLanes is.gang is.q) f).1 (f l c) := counterOf_setGroup _ _ f l
  refine ⟨group _, group _, fun hns => ?ifWhole, fun hs => ?ifSplit, ?endif, counterOf_leave is gd 2 l, counterOf_leave is gd 1 l,
    group _, ?endloopOut⟩
  case ifWhole =>
    refine (group _).trans ?_
    simp only [hns, Bool.false_and, Bool.not_false, Bool.and_true]
    grind
  case ifSplit =>
    refine (group _).trans (ite_congr rfl (fun hl => ?_) fun _ => rfl)
    have hk : l / 4 < 16 := by have := ((mem_groupLanes _ _ _).1 hl).1; omega
    simp only [hs, Bool.true_and, getLsbD_quadMask _ _ hk]
    grind
  case endif => exact (counterOf_withGroups _ _ l).trans (group _)
  case endloopOut =>
    have back : counterOf (endloopBack is) l = _ := group _
    have lanes : groupLanes (endloopBack is) is.q = groupLanes is.gang is.q := groupLanes_setCounters _ _ _ _
    have := counterOf_le is.gang l
    refine (counterOf_setGroup (endloopBack is) is.q _ l).trans ?_
    rw [lanes, back]
    grind

end Sys2Proof.Machine
end

section
/-!
# The structured instructions (O22)

What each result of a meaning says of an instruction that may run, and then the results of the meanings, branch by branch (R133 to R137).
-/

namespace Sys2Proof.Machine
variable {i : Instr} {s eff : State} {is : Iss} {m : State → Iss → Res} {ts : List (Nat × Nat)} {code : Nat}

/-! ### From the result of a meaning to what the instruction answers -/

theorem settles_of (hi : exec i s = issue i s m) (hm : m s is = .stay eff) : Settles i s is eff := comes_to m _ hi hm

theorem throws_of (hi : exec i s = issue i s m) (hm : m s is = .throw eff ts) : Throws i s is eff ts := comes_to m _ hi hm

theorem throwAllOrNop_of_ne_nil (h : everyActive is code ≠ []) : throwAllOrNop s is code = .throw s (everyActive is code) := by
  have busy : (activeLanes is.gang is.q).isEmpty = false := by
    rw [List.isEmpty_eq_false_iff]
    exact fun e => h (by rw [everyActive, e, List.map_nil])
  rw [throwAllOrNop, busy, if_neg Bool.false_ne_true]
  rfl

theorem throwAllOrNop_of_nil (h : everyActive is code = []) : throwAllOrNop s is code = .done s := by
  rw [throwAllOrNop, List.map_eq_nil_iff.1 h]
  rfl

/-- A structured instruction of one group settles, or throws the overflows of its counters behind its effect (R32). -/
theorem countersOr_of_structured {r : Gang × List Nat} {q : QGroup} {sets : Bool} {pc : Nat} (hi : exec i s = issue i s m)
    (hm : m s is = structured s is r q sets pc) :
    CountersOr i s is r (structuredState s is r.1 q sets pc) (Settles i s is (structuredState s is r.1 q sets pc)) := by
  refine ⟨fun h => settles_of hi (hm.trans ?_), fun h hr => ?_⟩
  · rw [structured, h, List.isEmpty_nil, if_pos rfl]
  · have some_full : r.2.isEmpty = false := List.isEmpty_eq_false_iff.2 h
    rw [comes_to m _ hi hm hr, structured, some_full, if_neg Bool.false_ne_true]
    rfl

/-- Settles O22: each clause is a branch of the instruction's meaning; `countersOr_of_structured` ends the forms that go on in one group. -/
theorem structuredFormsAnswer : Obligations.StructuredFormsAnswer := by
  unfold Obligations.StructuredFormsAnswer
  intro s is gd e n run split deep set
  refine ⟨fun hd hne => ?ifDeep, fun hd hnil => ?ifDeepIdle, fun hd hw => ?ifWhole, fun hd hs => ?ifSplit,
    countersOr_of_structured (exec_elseI s) rfl, fun hj => ?endif, fun m js y hj ha hg => ?endifJoin, fun hd hl => ?loop,
    fun hd hne => ?loopDeep, countersOr_of_structured (exec_brk gd s) rfl, countersOr_of_structured (exec_cont gd s) rfl,
    fun h d ls hl ha => ?back, fun hout => ?out, fun h1 ha => ?gjoinAlone, fun y h1 hall hg => ?gjoin⟩
  case ifDeep => exact throws_of (exec_ifI gd e n s) ((if_pos hd).trans (throwAllOrNop_of_ne_nil hne))
  case ifDeepIdle => exact answers_of _ s is s _ (exec_ifI gd e n s) ((if_pos hd).trans (throwAllOrNop_of_nil hnil))
  case ifWhole =>
    refine countersOr_of_structured (exec_ifI gd e n s) ((if_neg (Nat.not_le.2 hd)).trans ?_)
    simp only [hw, Bool.false_eq_true, if_false]
  case ifSplit =>
    refine countersOr_of_structured (exec_ifI gd e n s) ((if_neg (Nat.not_le.2 hd)).trans ?_)
    simp only [hs, if_true]
    rfl
  case endif =>
    refine settles_of (exec_endif s) ?_
    cases hq : is.q.joins with
    | nil => rfl
    | cons j js =>
      obtain ⟨a, m⟩ := j
      have ha : a ≠ is.q.pc := fun e => hj m js (by rw [hq, e])
      simp only [if_neg ha]
      rfl
  case endifJoin =>
    refine settles_of (exec_endif s) ?_
    simp only [hj, ha, if_true, hg]
  case loop =>
    refine countersOr_of_structured (exec_loop s) (if_neg ?_)
    omega
  case loopDeep => exact throws_of (exec_loop s) ((if_pos hd).trans (throwAllOrNop_of_ne_nil hne))
  case back =>
    have goes := countersOr_of_structured (is := is) (r := (endloopBack is, [])) (q := is.q) (sets := false) (pc := h) (exec_endloop s)
      (by simp only [hl, ha])
    exact goes.1 rfl
  case out =>
    refine countersOr_of_structured (exec_endloop s) ?_
    rcases hout with hl | ha
    · simp only [hl]
    · cases hl : is.q.loops with
      | nil => rfl
      | cons p ls => simp only [ha]
  case gjoinAlone =>
    exact answers_of _ s is s _ (exec_gjoin s) (if_pos ⟨h1, Option.isNone_iff_eq_none.2 ha⟩)
  case gjoin =>
    refine settles_of (exec_gjoin s) ((if_neg ?_).trans ?_)
    · rintro ⟨hle, ha⟩
      rcases h1 with h1 | h1
      · exact Nat.not_lt.2 hle h1
      · exact h1 (Option.isNone_iff_eq_none.1 ha)
    · simp only [hall, if_true, hg]

end Sys2Proof.Machine
end

section
/-!
# Collective instructions of a separated gang (O24)

R28 withholds a collective instruction from a group that is one of several, but a trap of its own comes first (R108). So the proof asks of every
collective instruction whether its meaning can come to a trap: the calls, the returns and the tries can, by their target or by a try that
does not match, and no other can.
-/

namespace Sys2Proof.Machine
variable {s : State} {is : Iss} {i : Instr}

theorem mayIssue_iff : mayIssue s is i = true ↔
    issuer? s = some is ∧ is.q.ended = false ∧ suspended s is.ref is.gang = false ∧ groupHeld s is = false ∧ screen s is i = none
      ∧ i.emulated = false ∧ passedOver is i = false ∧ notReady is i = none ∧ (unfetched is.gang i).isEmpty = true
      ∧ spillBad is.gang i = 0#64 := by
  simp only [mayIssue, Bool.and_eq_true, decide_eq_true_eq, Bool.not_eq_true', Option.isNone_iff_eq_none, beq_iff_eq, and_assoc]

/-- An instruction that may issue comes to what its meaning gives, unless its gang is separated. -/
theorem issue_of_mayIssue {m : State → Iss → Res} (h : mayIssue s is i = true) :
    issue i s m = conclude is i (unlessSeparated s is i (m s is)) := by
  have facts := mayIssue_iff.1 h
  simp [issue, facts, withDead_zero]

/-- The screen lets through only what names no vector register beyond the gang's count. -/
theorem beyondCount_of_screen (h : screen s is i = none) : beyondCount is.gang i = false := by
  rw [← Bool.not_eq_true]
  intro hb
  unfold screen at h
  split_ifs at h

/-! ### Which meanings trap -/

/-- The illegal-instruction trap is not what an instruction comes to. -/
def Res.Untrapped : Res → Prop
  | .trap _ _ => False
  | _ => True

theorem untrapped_ite {p : Prop} [Decidable p] {r r' : Res} (h : r.Untrapped) (h' : r'.Untrapped) :
    (if p then r else r').Untrapped := by
  split
  · exact h
  · exact h'

theorem untrapped_throwAllOrNop {code : Nat} : (throwAllOrNop s is code).Untrapped := by
  unfold throwAllOrNop
  split <;> trivial

theorem untrapped_addThrows {r : Res} {ts : List (Nat × Nat)} (h : r.Untrapped) : (addThrows r ts).Untrapped := by
  cases r with
  | trap => exact h.elim
  | _ => unfold addThrows; split <;> trivial

theorem untrapped_withQueues {srcs : List (Opd × Ety)} {d : Opd} {k : State → Iss → List Src → Res}
    (hk : ∀ t is xs, (k t is xs).Untrapped) : (withQueues s is srcs d k).Untrapped := by
  unfold withQueues
  split
  · split
    · trivial
    · split
      · exact untrapped_addThrows (hk _ _ _)
      · trivial
  · exact untrapped_throwAllOrNop

/-! Engine commands, by the steps of their acceptance (R280 to R293). -/

theorem untrapped_command {g : Guard} {f : Nat} {k : Nat → Nat → Crew → Res} (hk : ∀ c n cr, (k c n cr).Untrapped) :
    (command s is g f k).Untrapped := by
  unfold command
  split
  · split
    · trivial
    · exact hk _ _ _
  · trivial

theorem untrapped_checked {cs : List (Bool × Nat)} {k : Res} (hk : k.Untrapped) : (checked s is cs k).Untrapped := by
  unfold checked
  split
  · trivial
  · exact hk

theorem untrapped_afterRelease {r : Option (State × List (Nat × Nat × Nat))} {k : State → Res} (hk : ∀ t, (k t).Untrapped) :
    (afterRelease is s r k).Untrapped := by
  unfold afterRelease
  split
  · trivial
  · exact hk _
  · trivial

theorem untrapped_withOp {c n f : Nat} {kind : OpKind} {k : State → Nat → Res} (hk : ∀ t tok, (k t tok).Untrapped) :
    (withOp s is c n f kind k).Untrapped := by
  unfold withOp
  split
  · trivial
  · exact hk _ _

theorem untrapped_acceptCopy {c n f : Nat} {bar : Option Nat} {arr empty : Bool} {mk : Nat → CopyCmd} :
    (acceptCopy s is c n f bar arr empty mk).Untrapped := by
  unfold acceptCopy
  dsimp only
  split
  · exact untrapped_afterRelease fun _ => untrapped_withOp fun _ _ => trivial
  · trivial

theorem untrapped_copyOp {x : Copy} {kind : CopyKind} {arr dir : Bool} : (copyOp s is x kind arr dir).Untrapped := by
  refine untrapped_command fun c n _ => untrapped_checked ?_
  dsimp only
  split
  · trivial
  · split
    · trivial
    · split
      · trivial
      · exact untrapped_acceptCopy

theorem untrapped_acceptIndexed {c n : Nat} {x : Copy} {arr dir : Bool} : (acceptIndexed s is c n x arr dir).Untrapped := by
  refine untrapped_afterRelease fun t => ?_
  split
  · trivial
  · dsimp only
    split
    · trivial
    · split
      · trivial
      · exact untrapped_acceptCopy

theorem untrapped_acceptMatrix {c n f tile : Nat} {kind : MxKind} {trapspec paired : Bool} {k : State → Nat → State} :
    (acceptMatrix s is c n f tile kind trapspec paired k).Untrapped := by
  unfold acceptMatrix
  dsimp only
  split
  · exact untrapped_afterRelease fun _ => untrapped_withOp fun _ _ => trivial
  · trivial

theorem untrapped_mmaOp {x : MmaArgs} {extra mk paired k} : (mmaOp s is x extra mk paired k).Untrapped := by
  refine untrapped_command fun c n cr => ?_
  dsimp only
  split
  · trivial
  · refine untrapped_checked ?_
    split
    · trivial
    · exact untrapped_acceptMatrix

theorem untrapped_submit {c n f h : Nat} {tiles : List (Nat × Bool)} : (submit s is c n f h tiles).Untrapped := by
  unfold submit
  split
  · trivial
  · split <;> trivial

/-- What a trap of a collective instruction's own comes from. -/
def OwnTrap (s : State) (is : Iss) (i : Instr) (s' : State) (c : Cause) : Prop :=
  trapsItself i = true ∧ ((∃ a, namedTarget is i = some a ∧ headerAt s is a = .trap s' c) ∨ (s' = s ∧ c = .tryMismatch))

/-- The meaning of an instruction traps only for a reason of its own. -/
def OwnTraps (i : Instr) (s : State) (is : Iss) : Prop :=
  ∃ m, exec i s = issue i s m ∧ ∀ s' c, m s is = .trap s' c → OwnTrap s is i s' c

theorem ownTraps_of_untrapped {m : State → Iss → Res} (hi : exec i s = issue i s m) (h : (m s is).Untrapped) : OwnTraps i s is :=
  ⟨m, hi, fun s' c e => by rw [e] at h; exact h.elim⟩

/-- A transfer traps where its target is no header, if what it does at a good target cannot trap. -/
theorem ownTrap_of_goTo {a : Nat} {eff : State → Res} {s' : State} {c : Cause} (ht : trapsItself i = true)
    (ha : namedTarget is i = some a) (heff : ∀ t, (eff t).Untrapped) (h : goTo s is a eff = .trap s' c) : OwnTrap s is i s' c := by
  unfold goTo at h
  split at h
  · next t _ =>
    have good := heff t
    rw [h] at good
    exact good.elim
  · next e =>
    cases h
    exact ⟨ht, .inl ⟨a, ha, e⟩⟩
  · cases h

theorem untrapped_putAndGo {g : Gang × List Nat} {pc : Nat} : (putAndGo s is g pc).Untrapped := by
  unfold putAndGo
  dsimp only
  split <;> trivial

/-- A mismatching ENDTRY traps in the state as it is (R147). -/
theorem ownTrap_of_endtryOuter {level : Nat} {s' : State} {c : Cause} (ht : trapsItself i = true)
    (h : endtryOuter s is level = .trap s' c) : OwnTrap s is i s' c := by
  unfold endtryOuter at h
  split at h
  · cases h
  · cases h
    exact ⟨ht, .inr ⟨rfl, rfl⟩⟩

theorem ownTraps_of_goTo {a : Nat} {eff : State → Res} {m : State → Iss → Res} (hi : exec i s = issue i s m)
    (hm : m s is = goTo s is a eff) (ht : trapsItself i = true) (ha : namedTarget is i = some a) (heff : ∀ t, (eff t).Untrapped) :
    OwnTraps i s is :=
  ⟨m, hi, fun _ _ e => ownTrap_of_goTo ht ha heff (hm.symm.trans e)⟩

theorem ownTraps_call {g : Guard} {t : Target} : OwnTraps (.call g t) s is := by
  cases hsel : (selOf is g).isEmpty with
  | true => exact ownTraps_of_untrapped (exec_call g t s) (by rw [if_pos hsel]; trivial)
  | false =>
    have hn : ¬(selOf is g).isEmpty = true := by rw [hsel]; exact Bool.false_ne_true
    exact ownTraps_of_goTo (exec_call g t s) (if_neg hn) rfl (if_neg hn) fun _ => untrapped_putAndGo

theorem ownTraps_callv {g : Guard} {a b : Nat} (hb : beyondCount is.gang (.callv g a b) = false) : OwnTraps (.callv g a b) s is := by
  refine ⟨_, exec_callv g a b s, fun s' c e => ?_⟩
  cases hrest : callvRest is g a b with
  | nil =>
    simp only [hrest] at e
    cases e
  | cons f fs =>
    simp only [hrest] at e
    refine ownTrap_of_goTo rfl ?_ (fun _ => untrapped_putAndGo) e
    simp only [namedTarget, hb, Bool.false_eq_true, if_false, hrest, List.head?_cons, Option.map_some]

theorem untrapped_tryGang {off : W32} {t : State} : Res.Untrapped (if is.gang.stack.length ≥ 8 then throwAllOrNop s is 0x8004
    else .done (modGang t is.ref (fun g => { g with stack := ⟨catchOf is off, crewDepth g, launchDepth g⟩ :: g.stack }))) := by
  split
  · exact untrapped_throwAllOrNop
  · trivial

theorem ownTraps_tryCrew {off : W32} : OwnTraps (.tryCrew off) s is := by
  refine ownTraps_of_goTo (exec_tryCrew off s) rfl rfl rfl fun t => ?_
  split
  · split
    · exact untrapped_throwAllOrNop
    · trivial
  · trivial

theorem ownTraps_tryLaunch {off : W32} : OwnTraps (.tryLaunch off) s is := by
  refine ownTraps_of_goTo (exec_tryLaunch off s) rfl rfl rfl fun t => ?_
  split
  · split
    · exact untrapped_throwAllOrNop
    · trivial
  · trivial

theorem ownTraps_endtryGang : OwnTraps .endtryGang s is := by
  refine ⟨_, exec_endtryGang s, fun s' c e => ?_⟩
  split at e
  · cases e
  · cases e
    exact ⟨rfl, .inr ⟨rfl, rfl⟩⟩

/-! The meanings of the barriers, the transactions, APPEND and BANKSET. -/

theorem ownTraps_append {g : Guard} {d a b : Opd} : OwnTraps (.append g d a b) s is := by
  refine ownTraps_of_untrapped (exec_append g d a b s) ?_
  dsimp only
  split
  · trivial
  · split
    · exact untrapped_ite trivial (untrapped_ite trivial trivial)
    · trivial
    · trivial

theorem ownTraps_cpyX {x : Copy} {arr dir : Bool} : OwnTraps (.cpyX x arr dir) s is := by
  refine ownTraps_of_untrapped (exec_cpyX x arr dir s) (untrapped_command fun c n _ => untrapped_checked ?_)
  split
  · exact untrapped_acceptIndexed
  · exact untrapped_acceptCopy

theorem ownTraps_msel {g : Guard} {f : Nat} {a b : Opd} {fw sa sm : Nat} : OwnTraps (.msel g f a b fw sa sm) s is := by
  refine ownTraps_of_untrapped (exec_msel g f a b fw sa sm s) (untrapped_command fun c n _ => ?_)
  split
  · trivial
  · exact untrapped_checked untrapped_acceptCopy

theorem ownTraps_barinit {b : Nat} {e : Opd} : OwnTraps (.barinit b e) s is := by
  refine ownTraps_of_untrapped (exec_barinit b e s) ?_
  dsimp only
  split
  · exact untrapped_throwAllOrNop
  · split <;> trivial

theorem ownTraps_bara {b : Nat} : OwnTraps (.bara b) s is := by
  refine ownTraps_of_untrapped (exec_bara b s) ?_
  split
  · split
    · trivial
    · exact untrapped_afterRelease fun _ => trivial
  · trivial

theorem ownTraps_barexp {b : Nat} {e : Opd} : OwnTraps (.barexp b e) s is := by
  refine ownTraps_of_untrapped (exec_barexp b e s) ?_
  dsimp only
  split
  · split
    · exact untrapped_throwAllOrNop
    · trivial
  · trivial

theorem ownTraps_lbar {n : Nat} : OwnTraps (.lbar n) s is := by
  refine ownTraps_of_untrapped (exec_lbar n s) ?_
  dsimp only
  split
  · split <;> trivial
  · exact untrapped_afterRelease fun _ => trivial
  · trivial

theorem ownTraps_otdecl {f : Nat} {off : Opd} : OwnTraps (.otdecl f off) s is := by
  refine ownTraps_of_untrapped (exec_otdecl f off s) ?_
  split
  · trivial
  · split
    · exact untrapped_throwAllOrNop
    · trivial
    · split
      · exact untrapped_throwAllOrNop
      · trivial
      · exact untrapped_submit

theorem ownTraps_otbegin {f : Nat} : OwnTraps (.otbegin f) s is := by
  refine ownTraps_of_untrapped (exec_otbegin f s) ?_
  dsimp only
  split
  · trivial
  · split
    · exact untrapped_throwAllOrNop
    · split
      · split
        · exact untrapped_throwAllOrNop
        · split
          · trivial
          · trivial
          · exact untrapped_throwAllOrNop
      · exact untrapped_throwAllOrNop

theorem ownTraps_otend : OwnTraps .otend s is := by
  refine ownTraps_of_untrapped (exec_otend s) ?_
  split <;> trivial

theorem ownTraps_bankset {mask : Opd} {mode : BankMode} : OwnTraps (.bankset mask mode) s is := by
  refine ownTraps_of_untrapped (exec_bankset mask mode s) ?_
  dsimp only
  split
  · trivial
  · trivial
  · trivial
  · split
    · exact untrapped_throwAllOrNop
    · split
      · exact untrapped_throwAllOrNop
      · split <;> trivial

/-- A collective instruction traps only by its target or by a try that does not match. -/
theorem ownTraps_of_collective (hc : i.collective = true) (hb : beyondCount is.gang i = false) : OwnTraps i s is := by
  cases i with
  | call g t => exact ownTraps_call
  | callv g a b => exact ownTraps_callv hb
  | ret => exact ownTraps_of_goTo (exec_ret s) rfl rfl rfl fun _ => trivial
  | tryGang off => exact ownTraps_of_goTo (exec_tryGang off s) rfl rfl rfl fun _ => untrapped_tryGang
  | tryCrew off => exact ownTraps_tryCrew
  | tryLaunch off => exact ownTraps_tryLaunch
  | endtryGang => exact ownTraps_endtryGang
  | endtryCrew => exact ⟨_, exec_endtryCrew s, fun _ _ e => ownTrap_of_endtryOuter rfl e⟩
  | endtryLaunch => exact ⟨_, exec_endtryLaunch s, fun _ _ e => ownTrap_of_endtryOuter rfl e⟩
  | pscan g op incl ty sat d a =>
    exact ownTraps_of_untrapped (exec_pscan g op incl ty sat d a s) (untrapped_withQueues fun _ _ _ => trivial)
  | shfl g m ty d a b => exact ownTraps_of_untrapped (exec_shfl g m ty d a b s) trivial
  | bcast g ty d a b => exact ownTraps_of_untrapped (exec_bcast g ty d a b s) trivial
  | append g d a b => exact ownTraps_append
  | cpy x arr dir => exact ownTraps_of_untrapped (exec_cpy x arr dir s) untrapped_copyOp
  | cpyM x cores => exact ownTraps_of_untrapped (exec_cpyM x cores s) untrapped_copyOp
  | cpyX x arr dir => exact ownTraps_cpyX
  | mma x => exact ownTraps_of_untrapped (exec_mma x s) untrapped_mmaOp
  | mmaSp x sm => exact ownTraps_of_untrapped (exec_mmaSp x sm s) untrapped_mmaOp
  | mmaP x => exact ownTraps_of_untrapped (exec_mmaP x s) untrapped_mmaOp
  | msel g f a b fw sa sm => exact ownTraps_msel
  | accz g f t => exact ownTraps_of_untrapped (exec_accz g f t s) (untrapped_command fun _ _ _ => untrapped_acceptMatrix)
  | accdr g f off tgt t =>
    exact ownTraps_of_untrapped (exec_accdr g f off tgt t s)
      (untrapped_command fun _ _ _ => untrapped_checked untrapped_acceptMatrix)
  | wdset g f val t => exact ownTraps_of_untrapped (exec_wdset g f val t s) (untrapped_command fun _ _ _ => untrapped_acceptMatrix)
  | mfence g f => exact ownTraps_of_untrapped (exec_mfence g f s) (untrapped_command fun _ _ _ => untrapped_acceptMatrix)
  | barinit b e => exact ownTraps_barinit
  | bara b => exact ownTraps_bara
  | barexp b e => exact ownTraps_barexp
  | lbar n => exact ownTraps_lbar
  | otdecl f off => exact ownTraps_otdecl
  | otbegin f => exact ownTraps_otbegin
  | otend => exact ownTraps_otend
  | otround a => exact ownTraps_of_untrapped (exec_otround a s) trivial
  | bankset mask mode => exact ownTraps_bankset
  | _ => cases hc

/-- A collective instruction of a separated gang keeps a trap of its own, and anything else becomes the throw of R28. -/
theorem unlessSeparated_cases (hc : i.collective = true) (hs : separated is.gang = true) (r : Res) :
    (∃ s' c, r = .trap s' c ∧ unlessSeparated s is i r = r) ∨ unlessSeparated s is i r = throwAllOrNop s is 0x8006 := by
  have both : (i.collective && separated is.gang) = true := by rw [hc, hs]; rfl
  unfold unlessSeparated
  rw [if_pos both]
  cases r with
  | trap s' c => exact .inl ⟨s', c, rfl, rfl⟩
  | _ => exact .inr rfl

/-- Settles O24: the instruction comes to a trap of its own, which `ownTraps_of_collective` accounts for, or to R28's throw. -/
theorem collectiveDivergence : Obligations.CollectiveDivergence := by
  unfold Obligations.CollectiveDivergence
  intro s is i hr hc hs ts
  have hb : beyondCount is.gang i = false := by
    obtain ⟨-, -, -, -, hscreen, -⟩ := mayIssue_iff.1 hr
    exact beyondCount_of_screen hscreen
  obtain ⟨m, hi, traps⟩ := ownTraps_of_collective (s := s) hc hb
  rw [hi, issue_of_mayIssue hr]
  rcases unlessSeparated_cases (s := s) hc hs (m s is) with ⟨s', c, hm, hu⟩ | hu
  · obtain ⟨ht, why⟩ := traps s' c hm
    refine .inl ⟨ht, s', c, why, ?_⟩
    rw [hu, hm]
    rfl
  · by_cases hts : ts = []
    · exact .inr (.inr ⟨hts, by rw [hu, throwAllOrNop_of_nil hts]; rfl⟩)
    · exact .inr (.inl ⟨hts, by rw [hu, throwAllOrNop_of_ne_nil hts]; rfl⟩)

end Sys2Proof.Machine
end

section
/-!
# A step runs the agenda (O4)

From the outside in: what a step makes of the next turn, what a turn of issue makes of an attempt, what an attempt makes of the words it
fetches, and what those come to.
-/

namespace Sys2Proof.Machine
variable {s s' t : State} {ts : List Turn} {g : GRef} {k n : Nat} {is : Iss} {i : Instr} {bs : List Byte} {why : Stall} {c : Cause}

/-! ### What a step makes of the next turn -/

theorem step_issue (h : s.agenda = .issue g k :: ts) : step s = issueTurn exec g k { s with agenda := ts } := by
  simp only [step, turnStep, h]

theorem step_pass (h : s.agenda = .pass g k :: ts) : step s = passTurn exec g k { s with agenda := ts } := by
  simp only [step, turnStep, h]

theorem step_event_performed {e : Instr} (h : s.agenda = .event e :: ts) (hi : (deviceIdle s && !reachesStoppedDevice e) = false) :
    step s = exec e { s with agenda := ts } := by
  simp only [step, turnStep, h, hi, Bool.false_eq_true, if_false]

theorem step_event_ignored {e : Instr} (h : s.agenda = .event e :: ts) (hi : (deviceIdle s && !reachesStoppedDevice e) = true) :
    step s = .next { s with agenda := ts } := by
  simp only [step, turnStep, h, hi, if_true]

theorem step_start {warm : Bool} (h : s.agenda = []) (hp : s.start.pending = some warm) : step s = exec (startEvent s warm) (freshen s) := by
  simp only [step, turnStep, h, hp]

theorem step_nextCycle (h : s.agenda = []) (hp : s.start.pending = none) :
    step s = .next { s with agenda := nextCycle s, fresh := s.fresh + 32 } := by
  simp only [step, turnStep, h, hp]

/-! ### What a turn of issue makes of an attempt -/

theorem gang?_withAgenda (h : GRef) : gang? { s with agenda := ts } h = gang? s h := by cases h <;> rfl

theorem issuerOf?_withAgenda : issuerOf? { s with agenda := ts } g k = issuerOf? s g k := by
  unfold issuerOf?
  rw [gang?_withAgenda]

theorem pipeTaken_withAgenda {x : Gang} : pipeTaken { s with agenda := ts } g x = pipeTaken s g x := by cases g <;> rfl

/-- The turn of a group that may act: its clock runs, it lives, its pipe is free. -/
def TurnOpen (s : State) (g : GRef) (k : Nat) : Prop :=
  s.stoppedClock = false ∧ ∃ was, issuerOf? s g k = some was ∧ was.q.ended = false ∧ pipeTaken s g was.gang = false

theorem TurnOpen.withAgenda (h : TurnOpen s g k) : TurnOpen { s with agenda := ts } g k := by
  obtain ⟨hclock, was, hwas, hlive, hpipe⟩ := h
  exact ⟨hclock, was, issuerOf?_withAgenda.trans hwas, hlive, pipeTaken_withAgenda.trans hpipe⟩

/-- The state that an attempt leaves a group waiting in, with its note (R352). -/
def stalled (t : State) (g : GRef) (k : Nat) (why : Stall) : State :=
  modGroup (noteStall t g k why) g k (fun q => { q with passed := 0 })

theorem issueTurn_of_issued (h : TurnOpen s g k) (ha : attempt exec g k s = .next t) (hb : t.blocked = none) :
    issueTurn exec g k s = .next t := by
  obtain ⟨hclock, was, hwas, hlive, hpipe⟩ := h
  simp only [issueTurn, hclock, hwas, hlive, hpipe, ha, hb, Bool.false_eq_true, if_false]

theorem issueTurn_of_stalled (h : TurnOpen s g k) (ha : attempt exec g k s = .next t) (hb : t.blocked = some why) :
    issueTurn exec g k s = .next (stalled t g k why) := by
  obtain ⟨hclock, was, hwas, hlive, hpipe⟩ := h
  simp only [issueTurn, hclock, hwas, hlive, hpipe, ha, hb, Bool.false_eq_true, if_false, stalled]

theorem issueTurn_of_pipeTaken (hclock : s.stoppedClock = false) (his : issuerOf? s g k = some is) (hlive : is.q.ended = false)
    (hpipe : pipeTaken s g is.gang = true) : issueTurn exec g k s = .next (passOver exec g k is s) := by
  simp only [issueTurn, hclock, his, hlive, hpipe, Bool.false_eq_true, if_false, if_true]

/-! ### What an attempt comes to -/

/-- The state in which an attempt begins. -/
def attempting (s : State) (g : GRef) (k : Nat) : State := releaseYield { s with cur := some (g, k), blocked := none } g

/-- Does something keep the group from fetching: its gang, a page, or the wait of a YLD header (R41, R406)? -/
def fetchHeld (u : State) (g : GRef) (is : Iss) : Prop :=
  (suspended u g is.gang || groupHeld u is) = true ∨ ∃ c, g = .sup c ∧ yielding u c is.q = true

theorem attempt_held (his : issuerOf? (attempting s g k) g k = some is) (h : fetchHeld (attempting s g k) g is) :
    attempt exec g k s = .next { attempting s g k with blocked := some .sync } := by
  unfold attempting at *
  unfold attempt
  simp only [his]
  refine if_pos ?_
  rcases h with h | ⟨c, rfl, hy⟩
  · simp only [h, Bool.true_or]
  · simp only [hy, Bool.or_true]

/-- A group that nothing keeps from fetching. -/
structure Fetches (s : State) (g : GRef) (k : Nat) (is : Iss) : Prop where
  issuer : issuerOf? (attempting s g k) g k = some is
  going : suspended (attempting s g k) g is.gang = false
  free : groupHeld (attempting s g k) is = false
  awake : ∀ c, g = .sup c → yielding (attempting s g k) c is.q = false

/-- What a group fetches at its program counter. -/
def fetched (s : State) (g : GRef) (k : Nat) (is : Iss) : Insn :=
  fetchInsn (attempting s g k) g (lowQuad is.q) is.q.pageFail is.q.pc

theorem attempt_word (h : Fetches s g k is) (hf : fetched s g k is = .ok s' bs) : attempt exec g k s = runWord exec g k is bs s' := by
  rw [attempt_runs g k s _ is rfl h.issuer h.going h.free h.awake]
  unfold fetched attempting at hf
  rw [hf]

theorem attempt_trap (h : Fetches s g k is) (hf : fetched s g k is = .trap s' c bs) :
    attempt exec g k s = .next (wordTrap s' is c bs) := by
  rw [attempt_runs g k s _ is rfl h.issuer h.going h.free h.awake]
  unfold fetched attempting at hf
  rw [hf]

theorem attempt_wait (h : Fetches s g k is) (hf : fetched s g k is = .wait s') :
    attempt exec g k s = .next { s' with blocked := some .sync } := by
  rw [attempt_runs g k s _ is rfl h.issuer h.going h.free h.awake]
  unfold fetched attempting at hf
  rw [hf]

/-! ### What fetched words come to -/

theorem runWord_entry (he : entryNeedsHeader s is = true) (hw : leNat (bs.take 8) % 4 ≠ 0) :
    runWord exec g k is bs s = .next (wordTrap s is .targetNotHeader bs) := by
  refine if_pos ?_
  simp only [he, Bool.true_and, bne_iff_ne, ne_eq]
  exact hw

/-- Words that the launch entry admits run if they decode, and are judged as a bad word if not. -/
theorem runWord_admitted (hw : entryNeedsHeader s is = false ∨ leNat (bs.take 8) % 4 = 0) :
    runWord exec g k is bs s = (match decode bs with
      | .error c => badWord s is bs c
      | .ok (i, _) => afterPass is i (afterHeader i g k (exec i s))) := by
  have admitted : ¬(entryNeedsHeader s is && leNat (bs.take 8) % 4 != 0) = true := by
    rcases hw with h | h <;> simp [h]
  exact if_neg admitted

theorem runWord_decodes (hw : entryNeedsHeader s is = false ∨ leNat (bs.take 8) % 4 = 0) (hd : decode bs = .ok (i, n)) :
    runWord exec g k is bs s = afterPass is i (afterHeader i g k (exec i s)) := by rw [runWord_admitted hw, hd]

theorem runWord_bad (hw : entryNeedsHeader s is = false ∨ leNat (bs.take 8) % 4 = 0) (hd : decode bs = .error c) :
    runWord exec g k is bs s = badWord s is bs c := by rw [runWord_admitted hw, hd]

theorem afterHeader_of_blocked (hb : t.blocked = some why) : afterHeader i g k (.next t) = .next t := by
  unfold afterHeader
  split
  · next e =>
    cases e
    simp only [hb, Option.isNone_some, Bool.false_and, Bool.false_eq_true, if_false]
  · rfl

theorem afterPass_of_blocked (hb : t.blocked = some why) : afterPass is i (.next t) = .next t := by
  simp only [afterPass, hb, Option.isNone_some, Bool.and_false, Bool.false_and, Bool.false_eq_true, if_false]

theorem afterPass_of_not_passedOver {o : Out} (h : passedOver is i = false) : afterPass is i o = o := by
  unfold afterPass
  split
  · simp only [h, Bool.false_and, Bool.false_eq_true, if_false]
  · rfl

/-- A group goes on behind a header it has taken: at once or, with YLD, in the place the issue rule gives it (R97). -/
theorem afterHeader_of_taken {y : Bool} {a b : Nat} {w : BitVec 12} {is' : Iss} {d : Cand} (hb : t.blocked = none)
    (hi : issuerOf? t g k = some is') (hd : candOf t (.issue g k) = some d) :
    afterHeader (.clauseHeader y a b w) g k (.next t) = .next (if is'.q.hdr = true ∧ is'.gang.trapped = none
      then { t with agenda := if y then rejoin t d t.agenda else .issue g k :: t.agenda } else t) := by
  have taken : (is'.q.hdr && !is'.gang.trapped.isSome) = decide (is'.q.hdr = true ∧ is'.gang.trapped = none) := by
    cases is'.gang.trapped <;> simp
  simp only [afterHeader, hb, hi, hd, Option.isNone_none, Bool.true_and, Option.map_some, Option.getD_some, taken, decide_eq_true_eq]
  split
  · cases y <;> rfl
  · rfl

/-- An idle group that has passed an instruction may pass the next of its fetch block (R132). -/
theorem afterPass_of_passed {is' : Iss} (hp : passedOver is i = true) (hb : t.blocked = none)
    (hi : issuerOf? t is.ref is.grp = some is') :
    afterPass is i (.next t) = .next (if is'.q.idle = true ∧ is'.q.pc / 32 = is.q.pc / 32 ∧ is'.q.pc ≠ is.q.pc
      then { t with agenda := .pass is.ref is.grp :: t.agenda } else t) := by
  simp only [afterPass, hp, hb, hi, Option.isNone_none, Bool.true_and, Option.map_some, Option.getD_some, Bool.and_eq_true, beq_iff_eq,
    bne_iff_ne, and_assoc]
  split <;> rfl

/-- No header is passed over. -/
theorem not_header_of_passedOver (hp : passedOver is i = true) : ¬∃ y a b w, i = .clauseHeader y a b w := by
  rintro ⟨y, a, b, w, rfl⟩
  simp [passedOver] at hp

/-! ### Words that are no instruction -/

/-- The instruction that words name although they are none. -/
def namedBy (bs : List Byte) : Option Parsed := (Raw.ofWord (leNat (bs.take 8)) (leNat (bs.drop 8))).parse

theorem badWord_unnamed (hn : namedBy bs = none) : badWord s is bs c = .next (wordTrap s is (badWordCause s is bs c) bs) := by
  unfold namedBy at hn
  simp only [badWord, hn]

theorem badWord_untargeted {p : Parsed} (hn : namedBy bs = some p) (ht : namesTarget (leNat (bs.take 8)) p = false) :
    badWord s is bs c = .next (wordTrap s is (badWordCause s is bs c) bs) := by
  unfold namedBy at hn
  simp only [badWord, hn, ht, Bool.not_false, if_true]

theorem badWord_targetOk {p : Parsed} (hn : namedBy bs = some p) (ht : namesTarget (leNat (bs.take 8)) p = true)
    (hc : targetCheck s is p.ins = .ok t) : badWord s is bs c = .next (wordTrap t is (badWordCause s is bs c) bs) := by
  unfold namedBy at hn
  simp only [badWord, hn, ht, Bool.not_true, Bool.false_eq_true, if_false, hc]

theorem badWord_targetTrap {p : Parsed} {d : Cause} (hn : namedBy bs = some p) (ht : namesTarget (leNat (bs.take 8)) p = true)
    (hc : targetCheck s is p.ins = .trap t d) :
    badWord s is bs c = .next (wordTrap t is (firstCause d (badWordCause s is bs c)) bs) := by
  unfold namedBy at hn
  simp only [badWord, hn, ht, Bool.not_true, Bool.false_eq_true, if_false, hc]

/-! ### The step -/

theorem step_of_issued (ha : s.agenda = .issue g k :: ts) (h : TurnOpen s g k) (hat : attempt exec g k { s with agenda := ts } = .next t)
    (hb : t.blocked = none) : step s = .next t :=
  (step_issue ha).trans (issueTurn_of_issued h.withAgenda hat hb)

theorem step_of_stalled (ha : s.agenda = .issue g k :: ts) (h : TurnOpen s g k)
    (hat : attempt exec g k { s with agenda := ts } = .next t) (hb : t.blocked = some why) : step s = .next (stalled t g k why) :=
  (step_issue ha).trans (issueTurn_of_stalled h.withAgenda hat hb)

theorem wordTrap_blocked : (wordTrap s is c bs).blocked = none := rfl

/-- Settles O4: the clauses are the branches of a step, in the order of the turns, the attempts and the words above. -/
theorem stepRunsTheAgenda : Obligations.StepRunsTheAgenda := by
  unfold Obligations.StepRunsTheAgenda
  intro s s' t ts e g k n is i bs warm why c u fetch turn may stays word runs header cause named
  have opened : turn → s.agenda = .issue g k :: ts ∧ TurnOpen s g k ∧ issuerOf? (attempting { s with agenda := ts } g k) g k = some is :=
    fun ⟨ha, hclock, hwas, his⟩ => ⟨ha, ⟨hclock, hwas⟩, his⟩
  have fetches : may → s.agenda = .issue g k :: ts ∧ TurnOpen s g k ∧ Fetches { s with agenda := ts } g k is :=
    fun ⟨ht, hgoing, hfree, hawake⟩ => ⟨(opened ht).1, (opened ht).2.1, ⟨(opened ht).2.2, hgoing, hfree, hawake⟩⟩
  -- what an attempt comes to, for words that run and for words that do not decode
  have attemptRuns : runs → attempt exec g k { s with agenda := ts } = afterPass is i (afterHeader i g k (exec i s')) :=
    fun ⟨⟨hm, hf, hw⟩, hd⟩ => (attempt_word (fetches hm).2.2 hf).trans (runWord_decodes hw hd)
  have attemptBad : word → decode bs = .error c → attempt exec g k { s with agenda := ts } = badWord s' is bs c :=
    fun ⟨hm, hf, hw⟩ hd => (attempt_word (fetches hm).2.2 hf).trans (runWord_bad hw hd)
  have issues : may → ∀ {t}, attempt exec g k { s with agenda := ts } = .next t → t.blocked = none → step s = .next t :=
    fun hm _ hat hb => step_of_issued (fetches hm).1 (fetches hm).2.1 hat hb
  have stalls : turn → ∀ {t why}, attempt exec g k { s with agenda := ts } = .next t → t.blocked = some why → stays t why :=
    fun ht _ _ hat hb => step_of_stalled (opened ht).1 (opened ht).2.1 hat hb
  refine ⟨fun hr hx hb hh hp => ?runs, fun hr hx hb => ?blocked, fun y a b w is' d hi hr hx hb his hd => ?header,
    fun is' hr hx hb hp his => ?passed, fun hw hd hn => ?unnamed, fun p hw hd hn ht => ?untargeted, fun p v hw hd hn ht hc => ?targetOk,
    fun p v d hw hd hn ht hc => ?targetTrap, fun hm hf he hw => ?entry, fun hm hf => ?trap, fun hm hf => ?wait, fun ht hh => ?held,
    fun ha hclock => ?stopped, fun ha hclock his hlive hpipe => ?pipe, step_event_performed, step_event_ignored, step_start, step_nextCycle⟩
  case runs =>
    have hat := attemptRuns hr
    rw [hx, afterHeader_other i g k _ hh, afterPass_of_not_passedOver hp] at hat
    exact issues hr.1.1 hat hb
  case blocked =>
    have hat := attemptRuns hr
    rw [hx, afterHeader_of_blocked hb, afterPass_of_blocked hb] at hat
    exact stalls hr.1.1.1 hat hb
  case header =>
    subst hi
    have hat := attemptRuns hr
    rw [hx, afterHeader_of_taken hb his hd, afterPass_of_not_passedOver (by simp [passedOver])] at hat
    refine issues hr.1.1 hat ?_
    split <;> exact hb
  case passed =>
    have hat := attemptRuns hr
    rw [hx, afterHeader_other i g k _ (not_header_of_passedOver hp), afterPass_of_passed hp hb his] at hat
    refine issues hr.1.1 hat ?_
    split <;> exact hb
  case unnamed => exact issues hw.1 ((attemptBad hw hd).trans (badWord_unnamed hn)) wordTrap_blocked
  case untargeted => exact issues hw.1 ((attemptBad hw hd).trans (badWord_untargeted hn ht)) wordTrap_blocked
  case targetOk => exact issues hw.1 ((attemptBad hw hd).trans (badWord_targetOk hn ht hc)) wordTrap_blocked
  case targetTrap => exact issues hw.1 ((attemptBad hw hd).trans (badWord_targetTrap hn ht hc)) wordTrap_blocked
  case entry => exact issues hm ((attempt_word (fetches hm).2.2 hf).trans (runWord_entry he hw)) wordTrap_blocked
  case trap => exact issues hm (attempt_trap (fetches hm).2.2 hf) wordTrap_blocked
  case wait => exact stalls hm.1 (attempt_wait (fetches hm).2.2 hf) rfl
  case held => exact stalls ht (attempt_held (opened ht).2.2 hh) rfl
  case stopped => exact (step_issue ha).trans (if_pos hclock)
  case pipe =>
    exact (step_issue ha).trans
      (issueTurn_of_pipeTaken hclock (issuerOf?_withAgenda.trans his) hlive (pipeTaken_withAgenda.trans hpipe))

end Sys2Proof.Machine
end

section
/-!
# Every step answers (O5)

An event's meaning is a next state by definition, and an instruction's is one wherever a live group issues it: `issue` faults only without
a live issuer, and refuses nothing. So a step could stop only where a turn of issue runs an instruction of a group that is not there or has
ended. The turn looks at the group before it fetches, and the fetch changes caches, counts, claims and page requests, and of the groups no more
than their watches: the issuing group lives on through it. One rule for every function that a fetch calls says so, named `live_` and the
function's name.
-/

namespace Sys2Proof.Machine
variable {s t : State} {is : Iss} {i : Instr} {g : GRef} {k : Nat}

/-! ### An instruction of a live issuer answers -/

/-- The outcome is a next state. -/
def Answered (o : Out) : Prop := ∃ t, o = .next t

theorem answered_next : Answered (.next t) := ⟨t, rfl⟩

theorem answered_ite {c : Prop} [Decidable c] {o p : Out} (ho : Answered o) (hp : Answered p) : Answered (if c then o else p) := by
  split
  · exact ho
  · exact hp

theorem answered_conclude {r : Res} : Answered (conclude is i r) := by
  cases r <;> exact ⟨_, rfl⟩

theorem answered_screened {c : Cause} : Answered (screened s is i c) := by
  unfold screened
  split
  · exact answered_conclude
  · exact answered_conclude
  · exact answered_next

theorem answered_emulate : Answered (emulate s is i) := by
  unfold emulate
  dsimp only
  split
  · exact answered_next
  · exact answered_conclude

/-- The group that issues is there and has not ended. -/
def State.CurLive (s : State) : Prop := ∃ is, issuer? s = some is ∧ is.q.ended = false

theorem answered_issue {f : State → Iss → Res} (h : s.CurLive) : Answered (issue i s f) := by
  obtain ⟨is, his, hlive⟩ := h
  unfold issue
  simp only [his, hlive, Bool.false_eq_true, if_false]
  split
  · exact answered_next
  · split
    · exact answered_screened
    · split
      · split
        · exact answered_conclude
        · split
          · exact answered_next
          · split
            · exact answered_conclude
            · split
              · exact answered_emulate
              · exact answered_next
      · split
        · exact answered_conclude
        · split
          · exact answered_next
          · split
            · exact answered_conclude
            · exact answered_next

/-- Without a live issuer an instruction faults; it is never refused. -/
theorem issue_not_refused {f : State → Iss → Res} (r : Refusal) : issue i s f ≠ .refused r := by
  intro h
  cases his : issuer? s with
  | none =>
    simp only [issue, his] at h
    cases h
  | some is =>
    cases hlive : is.q.ended with
    | true =>
      simp only [issue, his, hlive, if_true] at h
      cases h
    | false =>
      obtain ⟨t, ht⟩ := answered_issue (i := i) (f := f) (s := s) ⟨is, his, hlive⟩
      rw [ht] at h
      cases h

/-- The meaning of an instruction that has words is an issue; that of an event is a next state. -/
theorem exec_shape (i : Instr) (s : State) :
    (i.hasWords = true ∧ ∃ f, exec i s = issue i s f) ∨ (i.hasWords = false ∧ Answered (exec i s)) := by
  cases i with
  | bra t => cases t <;> exact .inl ⟨rfl, by unfold exec; exact ⟨_, rfl⟩⟩
  | call g t => cases t <;> exact .inl ⟨rfl, by unfold exec; exact ⟨_, rfl⟩⟩
  | bfx x ctl => cases ctl <;> exact .inl ⟨rfl, by unfold exec; exact ⟨_, rfl⟩⟩
  | bfi x ctl => cases ctl <;> exact .inl ⟨rfl, by unfold exec; exact ⟨_, rfl⟩⟩
  | movi g ty d imm => cases imm <;> exact .inl ⟨rfl, by unfold exec; exact ⟨_, rfl⟩⟩
  | pmov g m => cases m <;> exact .inl ⟨rfl, by unfold exec; exact ⟨_, rfl⟩⟩
  | fwait f st => cases st <;> exact .inl ⟨rfl, by unfold exec; exact ⟨_, rfl⟩⟩
  | ftest f c st => cases st <;> exact .inl ⟨rfl, by unfold exec; exact ⟨_, rfl⟩⟩
  | trap code => cases code <;> exact .inl ⟨rfl, by unfold exec; exact ⟨_, rfl⟩⟩
  | clauseHeader | nop | brc | callv | ret | ifI | elseI | endif | loop | brk | cont | endloop | gjoin | exit | waitp | tryGang | tryCrew
  | tryLaunch | endtryGang | endtryCrew | endtryLaunch | throw | rethrow | rdexr | iadd | isub | imul | imulh | imad | iabs | ineg | imin
  | imax | and | or | xor | not | shl | shr | sar | rot | popc | clz | ctz | brev | icmp | icmpc | sel | mov | lea | plop | clop | shfl
  | bcast | ballot | pscan | append | red | fadd | fsub | fmul | fma | fmin | fmax | fabs | fneg | fscale | fcmp | fcmpc | fclass | frcp
  | frsq | fsqrt | fexp2 | flog2 | fsin | fcos | ftanh | cvt | cvtmx | cvtmxScale | ld | ldRp | st | lds | sts | atom | atoms | fence
  | waita | wake | persist | zfill | pagereq | cctlWb | cctlDisc | icpf | icpin | icpinUnpin | icinvCrew | icinvDev | qstat | cpy | cpyM
  | cpyX | mma | mmaSp | mmaP | msel | accz | accdr | wdset | mfence | fcancel | fexport | fimport | barinit | bara | barexp | barw | lbar
  | otdecl | otbegin | otend | otround | svret | svthrow | rdxv | wrxv | rdxs | wrxs | rdsys | wrsys | bankset | bist | mbxrdNext
  | mbxrdWord | coreret | idivU32 | iremU32 | idivU64 | iremU64 | idivS32 | iremS32 | idivS64 | iremS64 | fdivF32 | dadd | dmul | dfma
  | ddiv | dsqrt | dcvt | emu => exact .inl ⟨rfl, by unfold exec; exact ⟨_, rfl⟩⟩
  | _ => exact .inr ⟨rfl, _, rfl⟩

theorem answered_exec_event (h : i.hasWords = false) : Answered (exec i s) := by
  rcases exec_shape i s with ⟨hw, -⟩ | ⟨-, ha⟩
  · rw [h] at hw; cases hw
  · exact ha

/-- Whatever it is, what a live group has fetched answers. -/
theorem answered_exec (h : s.CurLive) : Answered (exec i s) := by
  rcases exec_shape i s with ⟨-, f, hf⟩ | ⟨-, ha⟩
  · rw [hf]; exact answered_issue h
  · exact ha

theorem exec_not_refused (r : Refusal) : exec i s ≠ .refused r := by
  rcases exec_shape i s with ⟨-, f, hf⟩ | ⟨-, t, ht⟩
  · rw [hf]; exact issue_not_refused r
  · rw [ht]; exact fun h => by cases h

/-! ### The issuing group lives on through what leaves which groups have ended -/

/-- Which groups of a gang have ended. -/
def Gang.endings (x : Gang) : List Bool := x.groups.map (fun q => q.ended)

theorem issuerOf?_live_iff : (∃ is, issuerOf? s g k = some is ∧ is.q.ended = false) ↔
    ∃ es, (gang? s g).map Gang.endings = some es ∧ es[k]? = some false := by
  unfold issuerOf?
  cases gang? s g with
  | none => simp
  | some x => simp [Gang.endings]

theorem curLive_iff : s.CurLive ↔ ∃ g k, s.cur = some (g, k) ∧ ∃ is, issuerOf? s g k = some is ∧ is.q.ended = false := by
  unfold State.CurLive issuer?
  cases s.cur with
  | none => simp
  | some p => exact ⟨fun h => ⟨p.1, p.2, rfl, h⟩, fun ⟨_, _, e, h⟩ => by cases e; exact h⟩

theorem State.CurLive.of_endings (hc : t.cur = s.cur) (hg : ∀ h, (gang? t h).map Gang.endings = (gang? s h).map Gang.endings)
    (h : s.CurLive) : t.CurLive := by
  obtain ⟨g, k, hcur, hlive⟩ := curLive_iff.1 h
  exact curLive_iff.2 ⟨g, k, hc.trans hcur, issuerOf?_live_iff.2 ((hg g).symm ▸ issuerOf?_live_iff.1 hlive)⟩

theorem gang?_congr (hw : t.crews = s.crews) (hk : t.cores = s.cores) (h : GRef) : gang? t h = gang? s h := by
  cases h
  · simp only [gang?, crew?, hw]
  · simp only [gang?, core?, hk]

/-- Who issues stands in `cur`, the crews and the cores alone. -/
theorem State.CurLive.frame (hc : t.cur = s.cur := by with_reducible rfl) (hw : t.crews = s.crews := by with_reducible rfl)
    (hk : t.cores = s.cores := by with_reducible rfl) (h : s.CurLive) : t.CurLive :=
  h.of_endings hc fun g => by rw [gang?_congr hw hk]

theorem live_ite {c : Prop} [Decidable c] (hs : s.CurLive) (ht : t.CurLive) : (if c then s else t).CurLive := by
  split
  · exact hs
  · exact ht

theorem live_foldl {α : Type} {f : State → α → State} {as : List α} (hs : s.CurLive) (hf : ∀ t a, t.CurLive → (f t a).CurLive) :
    (as.foldl f s).CurLive :=
  List.foldlRecOn as f hs (fun t ht a _ => hf t a ht)

theorem live_fst {α : Type} {p : State × α} {a : α} (h : p.1.CurLive) (e : p = (t, a)) : t.CurLive := by subst e; exact h

theorem live_modGang {f : Gang → Gang} (hf : ∀ x, (f x).endings = x.endings) (hs : s.CurLive) : (modGang s g f).CurLive := by
  refine hs.of_endings (modGang_cur s g f) fun h => ?_
  rw [gang?_modGang]
  split
  · next e =>
    subst e
    rw [Option.map_map]
    exact Option.map_congr fun x _ => hf x
  · rfl

theorem live_modCore {c : Nat} {f : Core → Core} (hf : ∀ x, (f x).sup = x.sup) (hs : s.CurLive) : (modCore s c f).CurLive :=
  State.CurLive.of_endings (s := s) rfl (fun h => by rw [gang?_modCore s c f h hf]) hs

theorem live_freshen (hs : s.CurLive) : (freshen s).CurLive := by
  unfold freshen
  exact hs.frame

/-! ### Claims and counts -/

theorem live_setClaim {e c} (hs : s.CurLive) : (setClaim s e c).CurLive := by
  unfold setClaim
  exact hs.frame

theorem live_countAt {n unit k} (hs : s.CurLive) : (countAt s n unit k).CurLive := by
  unfold countAt
  exact hs.frame

theorem live_offerClaim {e} (hs : s.CurLive) : (offerClaim s e).CurLive := by
  unfold offerClaim
  exact .frame (h := live_setClaim hs)

theorem live_deliverClaim {e a b n} (hs : s.CurLive) : (deliverClaim s e a b n).CurLive := by
  induction n generalizing s e a b with
  | zero => exact hs
  | succ n ih =>
    have lost {l} {c} : (setClaim { s with late := l } e c).CurLive := live_setClaim hs.frame
    exact live_ite (.frame (h := live_setClaim hs)) (live_ite lost (live_ite (live_offerClaim lost) (ih lost)))

theorem live_raiseClaim {e payload} (hs : s.CurLive) : (raiseClaim s e payload).CurLive :=
  live_ite (live_setClaim hs) (live_ite (live_offerClaim (live_setClaim hs)) (live_deliverClaim (live_setClaim hs)))

theorem live_raiseEvent {e payload} (hs : s.CurLive) : (raiseEvent s e payload).CurLive := live_raiseClaim (live_countAt hs)

/-! ### Memory at the home point (R201 to R214) -/

/-- A write to a watched line marks the watches of groups and no more. -/
theorem gang?_fireWatch {line : Nat} {woken : Bool} (h : GRef) :
    gang? (fireWatch s line woken) h = (gang? s h).map (fireGang false line woken) := by
  cases h with
  | user c n =>
    simp only [gang?, crew?, fireWatch, Tab.find?_mapVals]
    cases Tab.find? s.crews c with
    | none => rfl
    | some cr => simp only [Option.map_some, Option.bind_some, Tab.find?_mapVals]
  | sup c =>
    simp only [gang?, core?, fireWatch, Tab.find?_mapVals]
    cases Tab.find? s.cores c <;> rfl

theorem endings_fireGang {scr woken : Bool} {line : Nat} (x : Gang) : (fireGang scr line woken x).endings = x.endings := by
  simp [Gang.endings, fireGang]

theorem live_fireWatch {line woken} (hs : s.CurLive) : (fireWatch s line woken).CurLive := by
  refine State.CurLive.of_endings (s := s) rfl (fun h => ?_) hs
  rw [gang?_fireWatch, Option.map_map]
  exact Option.map_congr fun x _ => endings_fireGang x

theorem live_countWire {n out} (hs : s.CurLive) : (countWire s n out).CurLive := live_freshen (live_countAt (live_countAt hs))

theorem live_countPort {pa out} (hs : s.CurLive) : (countPort s pa out).CurLive := by
  unfold countPort
  split
  · exact live_countWire hs
  · exact live_countWire hs
  · exact live_ite hs (live_countWire hs)
  · exact live_ite hs (live_countWire hs)
  · exact hs

theorem live_setZeroFar {line on} (hs : s.CurLive) : (setZeroFar s line on).CurLive := by
  unfold setZeroFar
  exact hs.frame

theorem live_farPut {pa b} (hs : s.CurLive) : (farPut s pa b).CurLive := by
  unfold farPut
  extract_lets t u
  have ht : t.CurLive := live_ite (live_setZeroFar hs.frame) hs.frame
  have hu : u.CurLive := live_ite ht.frame ht
  exact live_fireWatch hu.frame

theorem live_homeWriteBack {pa} (hs : s.CurLive) : (homeWriteBack s pa).CurLive := by
  unfold homeWriteBack
  split
  · extract_lets t
    have ht : t.CurLive := live_foldl (live_countPort hs) fun u _ hu => by
      split
      · exact live_farPut hu
      · exact hu
    exact live_ite (live_setZeroFar ht) ht
  · exact hs

theorem live_failLaunch {l cause} (hs : s.CurLive) : (failLaunch s l cause).CurLive := by
  unfold failLaunch modLaunch
  exact hs.frame

theorem live_farDrop {line} (hs : s.CurLive) : (farDrop s line).CurLive := live_setZeroFar hs.frame

theorem live_farLost {line cause} (hs : s.CurLive) : (farLost s line cause).CurLive :=
  live_foldl (live_farDrop hs) fun _ _ ht => live_failLaunch ht

theorem live_farSettle {line} (hs : s.CurLive) : (farSettle s line).CurLive := by
  unfold farSettle
  split
  · exact live_farLost hs
  · exact live_foldl hs fun _ _ ht => live_homeWriteBack ht

theorem live_farEvict {line} (hs : s.CurLive) : (farEvict s line).CurLive := live_farDrop (live_ite (live_farSettle hs) hs)

theorem live_l2WriteBack {line} (hs : s.CurLive) : (l2WriteBack s line).CurLive := by
  unfold l2WriteBack
  split
  · dsimp only
    split
    · exact live_countAt hs.frame
    · exact live_countAt hs.frame
  · exact hs

theorem live_l2Evict {line} (hs : s.CurLive) : (l2Evict s line).CurLive := by
  unfold l2Evict
  exact .frame (h := live_l2WriteBack hs)

theorem live_homeRoom {line} (hs : s.CurLive) : (homeRoom s line).CurLive := by
  unfold homeRoom
  dsimp only
  split
  · exact hs
  · split
    · exact hs
    · split
      · exact live_farEvict (live_l2Evict (live_freshen hs))
      · exact hs

theorem live_fillCount {line} (hs : s.CurLive) : (fillCount s line).CurLive := by
  unfold fillCount
  split
  · exact live_countAt hs
  · exact live_countAt hs
  · exact hs

theorem live_l2Fill {line} (hs : s.CurLive) : (l2Fill s line).CurLive := by
  unfold l2Fill
  exact live_ite hs (.frame (h := live_fillCount (live_homeRoom hs)))

theorem live_homeFetch {pa} (hs : s.CurLive) : (homeFetch s pa).CurLive := by
  unfold homeFetch homeFill
  exact live_ite (live_l2Fill hs) (live_ite hs (.frame (h := live_countPort (live_homeRoom hs))))

theorem live_countHome {c pa} (hs : s.CurLive) : (countHome s c pa).CurLive := by
  have slice : (countSlice s pa).CurLive := live_countAt hs
  exact live_ite slice (live_freshen (live_countAt (live_countAt slice)))

theorem live_lineBytes {line} (hs : s.CurLive) : (lineBytes s line).1.CurLive :=
  live_ite (live_l2Fill hs) (live_foldl hs fun _ _ ht => live_homeFetch ht)

/-! ### Translation (R328 to R333) -/

theorem live_walkFrom {entry : EntryAt} {va levels base} (he : ∀ t a, t.CurLive → (entry t a).1.CurLive) (hs : s.CurLive) :
    (walkFrom entry va levels s base).1.CurLive := by
  induction levels generalizing s base with
  | nil =>
    unfold walkFrom
    split
    · exact live_fst (he _ _ hs) ‹_›
    · have ht := live_fst (he _ _ hs) ‹_›
      dsimp only
      split
      · exact ht
      · exact live_raiseEvent ht
  | cons l levels ih =>
    unfold walkFrom
    split
    · exact live_fst (he _ _ hs) ‹_›
    · have ht := live_fst (he _ _ hs) ‹_›
      dsimp only
      split
      · exact live_raiseEvent ht
      · split
        · exact ih ht
        · exact ht

theorem live_walk2 {root gpa} (hs : s.CurLive) : (walk2 s root gpa).1.CurLive := by
  unfold walk2
  split <;> exact live_fst (live_walkFrom (fun _ _ ht => ht) hs) ‹_›

theorem live_guestEntry {root a} (hs : s.CurLive) : (guestEntry root s a).1.CurLive := by
  unfold guestEntry
  split <;> exact live_fst (live_walk2 hs) ‹_›

theorem live_walkFresh {ctx va} (hs : s.CurLive) : (walkFresh s ctx va).1.CurLive := by
  unfold walkFresh
  extract_lets page
  split
  · exact hs
  · next ce _ =>
    extract_lets entry
    have he : ∀ t a, t.CurLive → (entry t a).1.CurLive := by
      unfold entry
      intro t a ht
      split
      · exact live_guestEntry ht
      · exact ht
    split
    · next e => exact live_fst (live_walkFrom he hs) e
    · next e =>
      have ht := live_fst (live_walkFrom he hs) e
      extract_lets x
      split
      · split
        · next e => exact live_fst (live_walk2 ht) e
        · next e => exact live_fst (live_walk2 ht) e
      · exact ht

theorem live_translate {ctx va} (hs : s.CurLive) : (translate s ctx va).1.CurLive := by
  have hw : (walkFresh s ctx va).1.CurLive := live_walkFresh hs
  unfold translate
  dsimp only
  split
  · exact hw
  · split
    · exact live_freshen hs
    · exact live_freshen hw
  · split
    · exact hs
    · exact hw.frame
  · split
    · split
      · exact live_freshen hs
      · exact live_freshen hw.frame
    · exact hw

theorem live_requestPage {fn page ctx kind stage w} (hs : s.CurLive) : (requestPage s fn page ctx kind stage w).CurLive := by
  unfold requestPage
  exact live_ite hs.frame hs.frame

/-! ### Fetching (R92, R130, R200) -/

theorem live_icacheRoom {c line} (hs : s.CurLive) : (icacheRoom s c line).CurLive := by
  unfold icacheRoom
  split
  · exact hs
  · split
    · exact hs
    · dsimp only
      split
      · exact live_modCore (fun _ => rfl) (live_freshen hs)
      · exact hs

theorem live_icacheFill {c line bs pin} (hs : s.CurLive) : (icacheFill s c line bs pin).CurLive :=
  live_modCore (fun _ => rfl) (live_icacheRoom hs)

/-- The issuing group lives in the state that a fetch leaves, however the fetch ends. -/
def Fetched.CurLive : Fetched → Prop
  | .ok s _ | .bad s | .wait s => s.CurLive

theorem live_fetchPiece {quad fail a n} (hs : s.CurLive) : (fetchPiece s g quad fail a n).CurLive := by
  unfold fetchPiece
  extract_lets ctx
  split
  · exact hs
  · split
    · exact live_requestPage (live_fst (live_translate hs) ‹_›)
    · next t x e =>
      have ht : t.CurLive := live_fst (live_translate hs) e
      extract_lets pa c line cut legal fill
      have hfill (u : State) (hu : u.CurLive) : (fill u).CurLive := by
        unfold fill
        split
        · exact live_icacheFill (live_lineBytes (live_countHome hu))
        · exact hu
      split
      · exact ht
      · split
        · exact ht
        · split
          · split
            · exact hfill _ ht
            · split
              · exact ht
              · split
                · exact ht
                · split
                  · exact live_freshen ht
                  · exact hfill _ (live_freshen ht)
          · exact hfill _ ht

theorem live_fetchSpan {quad fail a n} (hs : s.CurLive) : (fetchSpan s g quad fail a n).CurLive := by
  unfold fetchSpan
  extract_lets k
  split
  · exact live_fetchPiece hs
  · have first : (fetchPiece s g quad fail a k).CurLive := live_fetchPiece hs
    split
    · next t bs e =>
      rw [e] at first
      have second : (fetchPiece t g quad fail (a + k) (n - k)).CurLive := live_fetchPiece first
      split
      · next u bs' e' =>
        rw [e'] at second
        exact second
      · exact second
    · exact first

theorem live_fetchInsn {quad fail pc bs} (hs : s.CurLive) (h : fetchInsn s g quad fail pc = .ok t bs) : t.CurLive := by
  unfold fetchInsn at h
  split at h
  · cases h
  · have first : (fetchSpan s g quad fail pc 4).CurLive := live_fetchSpan hs
    split at h
    · cases h
    · cases h
    · next u bs' e =>
      rw [e] at first
      extract_lets n at h
      have second : (fetchSpan u g quad fail pc n).CurLive := live_fetchSpan first
      split at h
      · cases h
      · cases h
      · next v bs'' e' =>
        rw [e'] at second
        split at h
        · cases h; exact second
        · cases h

/-! ### Turns -/

theorem answered_afterHeader {o : Out} (h : Answered o) : Answered (afterHeader i g k o) := by
  unfold afterHeader
  split
  · split
    · exact answered_next
    · exact h
  · exact h

theorem answered_afterPass {o : Out} (h : Answered o) : Answered (afterPass is i o) := by
  unfold afterPass
  split
  · split
    · exact answered_next
    · exact h
  · exact h

theorem answered_badWord {bs : List Byte} {c : Cause} : Answered (badWord s is bs c) := by
  unfold badWord
  extract_lets d
  split
  · exact answered_next
  · split
    · exact answered_next
    · split <;> exact answered_next

theorem answered_runWord {bs : List Byte} (h : s.CurLive) : Answered (runWord exec g k is bs s) := by
  unfold runWord
  split
  · exact answered_next
  · split
    · exact answered_badWord
    · exact answered_afterPass (answered_afterHeader (answered_exec h))

/-- The group of a turn is the issuer while its turn lasts. -/
theorem curLive_of_turn (h : ∃ is, issuerOf? s g k = some is ∧ is.q.ended = false) :
    State.CurLive { s with cur := some (g, k), blocked := none } := by
  have same : gang? { s with cur := some (g, k), blocked := none } g = gang? s g := gang?_congr rfl rfl g
  refine curLive_iff.2 ⟨g, k, rfl, ?_⟩
  unfold issuerOf?
  rw [same]
  exact h

theorem live_releaseYield (hs : s.CurLive) : (releaseYield s g).CurLive := by
  unfold releaseYield
  split
  · exact live_ite (live_modGang (fun x => by simp [Gang.endings]) hs) hs
  · exact hs

theorem answered_attempt (h : ∃ is, issuerOf? s g k = some is ∧ is.q.ended = false) : Answered (attempt exec g k s) := by
  unfold attempt
  extract_lets u
  have hu : u.CurLive := live_releaseYield (curLive_of_turn h)
  split
  · exact answered_next
  · refine answered_ite answered_next ?_
    split
    · exact answered_next
    · exact answered_next
    · next e => exact answered_runWord (live_fetchInsn hu e)

theorem answered_issueTurn : Answered (issueTurn exec g k s) := by
  unfold issueTurn
  split
  · exact answered_next
  · split
    · exact answered_next
    · next is his =>
      split
      · exact answered_next
      · next hlive =>
        split
        · exact answered_next
        · obtain ⟨t, ht⟩ := answered_attempt ⟨is, his, eq_false_of_ne_true hlive⟩
          rw [ht]
          dsimp only
          split <;> exact answered_next

theorem answered_passTurn : Answered (passTurn exec g k s) := by
  unfold passTurn
  split
  · exact answered_next
  · next is his =>
    split
    · exact answered_next
    · next hgo =>
      have hlive : is.q.ended = false := by
        cases he : is.q.ended with
        | false => rfl
        | true => simp [he] at hgo
      split
      · next t bs e =>
        have ht : t.CurLive := live_fetchInsn (curLive_of_turn ⟨is, his, hlive⟩) e
        split
        · split
          · exact answered_afterPass (answered_exec ht)
          · exact answered_next
        · exact answered_next
      · exact answered_next

theorem answered_step (h : s.AgendaOk) : Answered (step s) := by
  cases hts : s.agenda with
  | nil =>
    cases hp : s.start.pending with
    | none =>
      rw [step_nextCycle hts hp]
      exact answered_next
    | some warm =>
      rw [step_start hts hp]
      exact answered_exec_event (by unfold startEvent; dsimp only; split <;> rfl)
  | cons turn ts =>
    cases turn with
    | issue g k => rw [step_issue hts]; exact answered_issueTurn
    | pass g k => rw [step_pass hts]; exact answered_passTurn
    | event e =>
      cases hi : deviceIdle s && !reachesStoppedDevice e with
      | true =>
        rw [step_event_ignored hts hi]
        exact answered_next
      | false =>
        rw [step_event_performed hts hi]
        exact answered_exec_event (h e (by rw [hts]; exact List.mem_cons_self))

/-- Settles O5: events answer by their shape, instructions wherever their issuer lives, and the issuer of a turn lives on through its fetch. -/
theorem everyStepAnswers : Obligations.EveryStepAnswers := by
  unfold Obligations.EveryStepAnswers
  exact ⟨fun s h => answered_step h, fun i s => ⟨exec_not_refused, answered_exec_event,
    fun is _ his hlive => answered_exec ⟨is, his, hlive⟩⟩⟩

end Sys2Proof.Machine
end

section
/-!
# What the computing forms leave alone (O13)

A computing form comes to one of four results: a scalar of the gang, words of the selected lanes or their push, a predicate in the selected
lanes, a condition bit (`ComesTo`). Each constructor of `Instr` is placed under one of them; what a result leaves alone is said once, of the
issuing gang (`FormFrame`) and of the rest of the machine (`OnlyGangAndQueues`).
-/

namespace Sys2Proof.Machine
variable {s t u s' : State} {is : Iss} {i : Instr} {g : GRef}

theorem Tab.find?_set_of_ne {α : Type} [DecidableEq α] {d x : α} {ts : Tab α} {k j : Nat} (h : k ≠ j) :
    Tab.find? (Tab.set d ts j x) k = Tab.find? ts k := by
  unfold Tab.set
  split
  · rw [Tab.find?_erase, if_neg h]
  · rw [Tab.find?_put, if_neg h]

/-! ### Pops and pushes touch only the queues they name (R122) -/

theorem crew?_setFifo_bare (n : Nat) (q : Fifo) (c : Nat) :
    (crew? (setFifo s g n q) c).map (fun cr => { cr with fifos := [] }) = (crew? s c).map (fun cr => { cr with fifos := [] }) := by
  unfold setFifo
  split
  · rfl
  · rw [crew?_modCrew]
    split
    · next e => subst e; rw [Option.map_map]; rfl
    · rfl

theorem gang?_setFifo (n : Nat) (q : Fifo) (h : GRef) : gang? (setFifo s g n q) h = gang? s h := by
  cases h with
  | sup c => unfold setFifo; split <;> rfl
  | user c m =>
    have same := congrArg (fun o : Option Crew => o.bind (fun cr => Tab.find? cr.gangs m)) (crew?_setFifo_bare (s := s) (g := g) n q c)
    simp only [Option.bind_map] at same
    exact same

theorem launch?_setFifo (n : Nat) (q : Fifo) (l : Nat) : launch? (setFifo s g n q) l = launch? s l := by
  unfold setFifo
  split <;> rfl

theorem core?_setFifo (n : Nat) (q : Fifo) (c : Nat) : core? (setFifo s g n q) c = core? s c := by
  unfold setFifo
  split <;> rfl

theorem bare_setFifo (n : Nat) (q : Fifo) : (setFifo s g n q).bare = s.bare := by
  unfold setFifo
  split <;> rfl

/-- The key of a queue register of a gang stands in what a change of its FIFO leaves alone. -/
theorem qKey_setFifo (n : Nat) (q : Fifo) (m : Nat) : qKey (setFifo s g n q) g m = qKey s g m := by
  cases g with
  | sup c => rfl
  | user c k =>
    have crew : crew? (setFifo s (.user c k) n q) c = (crew? s c).map (fun cr => { cr with
        fifos := Tab.set Fifo.empty cr.fifos (qKey s (.user c k) n) (if q.entries.isEmpty && q.lost.isEmpty then Fifo.empty else q) }) := by
      show crew? (modCrew s c _) c = _
      rw [crew?_modCrew, if_pos rfl]
    simp only [qKey, qCfg, crewOf?, crewIdOf, Option.bind_some, sideOf, crew]
    cases crew? s c with
    | none => rfl
    | some cr =>
      simp only [Option.map_some, Option.getD_some, isPair, launch?_setFifo, qcfgOf]
      rfl

/-- A step that moves entries of queues among `qs` and nothing else. -/
structure OnlyQueues (s t : State) (g : GRef) (qs : List Nat) : Prop where
  rest : OnlyGangAndQueues s t g qs
  keys : ∀ n, qKey t g n = qKey s g n
  gang : gang? t g = gang? s g

theorem OnlyGang.andQueues {qs : List Nat} (h : OnlyGang s t g) : OnlyGangAndQueues s t g qs where
  rest := h.rest
  crews c := by
    have := congrArg (fun o : Option Crew => o.map (fun cr => { cr with fifos := [] })) (h.crews c)
    rw [Option.map_map, Option.map_map] at this
    exact this
  cores := h.cores
  gangs := h.gangs
  fifos c k _ := by
    have := congrArg (fun o : Option Crew => o.map (fun cr => Tab.find? cr.fifos k)) (h.crews c)
    rw [Option.map_map, Option.map_map] at this
    exact this

theorem OnlyQueues.refl (s : State) (g : GRef) (qs : List Nat) : OnlyQueues s s g qs :=
  ⟨(OnlyGang.refl s g).andQueues, fun _ => rfl, rfl⟩

/-- What moves queues may be followed by what changes the gang and the same queues. -/
theorem OnlyQueues.then {qs : List Nat} (a : OnlyQueues s t g qs) (b : OnlyGangAndQueues t u g qs) : OnlyGangAndQueues s u g qs where
  rest := b.rest.trans a.rest.rest
  crews c := (b.crews c).trans (a.rest.crews c)
  cores c := (b.cores c).trans (a.rest.cores c)
  gangs h n := (b.gangs h n).trans (a.rest.gangs h n)
  fifos c k h := (b.fifos c k (fun hc n hn => a.keys n ▸ h hc n hn)).trans (a.rest.fifos c k h)

theorem OnlyQueues.trans {qs : List Nat} (a : OnlyQueues s t g qs) (b : OnlyQueues t u g qs) : OnlyQueues s u g qs :=
  ⟨a.then b.rest, fun n => (b.keys n).trans (a.keys n), b.gang.trans a.gang⟩

theorem onlyQueues_setFifo {qs : List Nat} {n : Nat} (hn : n ∈ qs) (q : Fifo) : OnlyQueues s (setFifo s g n q) g qs where
  rest :=
    { rest := bare_setFifo n q
      crews c := by
        have := congrArg (fun o : Option Crew => o.map Crew.bare) (crew?_setFifo_bare (s := s) (g := g) n q c)
        rw [Option.map_map, Option.map_map] at this
        exact this
      cores c := by rw [core?_setFifo]
      gangs h _ := gang?_setFifo n q h
      fifos c k h := by
        unfold setFifo
        cases hc : crewIdOf g with
        | none => rfl
        | some d =>
          simp only [crew?_modCrew]
          split
          · next e =>
            subst e
            have hk : k ≠ qKey s g n := h hc n hn
            rw [Option.map_map]
            exact Option.map_congr fun cr _ => Tab.find?_set_of_ne hk
          · rfl }
  keys m := qKey_setFifo n q m
  gang := gang?_setFifo n q g

theorem onlyQueues_popAll {qs : List Nat} {srcs : List (Opd × Ety)} {xs : List Src} {bad : Mask}
    (hq : ∀ p ∈ srcs, ∀ n ∈ p.1.qreg, n ∈ qs) (h : popAll s g srcs = some (t, xs, bad)) : OnlyQueues s t g qs := by
  fun_induction popAll s g srcs generalizing xs bad with
  | case1 s => cases h; exact .refl _ _ _
  | case2 => cases h
  | case3 =>
    rename_i n _ _ _ _ _ _ ih
    obtain ⟨r, hr, e'⟩ := Option.map_eq_some_iff.1 h
    cases e'
    exact (onlyQueues_setFifo (hq _ List.mem_cons_self n List.mem_cons_self) _).trans
      (ih (fun p hp => hq p (List.mem_cons_of_mem _ hp)) hr)
  | case4 s o ty srcs _ ih =>
    obtain ⟨r, hr, e'⟩ := Option.map_eq_some_iff.1 h
    cases e'
    exact ih (fun p hp => hq p (List.mem_cons_of_mem _ hp)) hr

/-- What the pops come to depends on the operands and not on the types they are read by. -/
theorem popAll_congr {srcs srcs' : List (Opd × Ety)} (h : srcs.map (fun p => p.1) = srcs'.map (fun p => p.1)) :
    (popAll s g srcs').map (fun r => (r.1, r.2.2)) = (popAll s g srcs).map (fun r => (r.1, r.2.2)) := by
  induction srcs generalizing s srcs' with
  | nil =>
    cases srcs' with
    | nil => rfl
    | cons p ps => cases h
  | cons p ps ih =>
    cases srcs' with
    | nil => cases h
    | cons p' ps' =>
      obtain ⟨o, ty⟩ := p
      obtain ⟨o', ty'⟩ := p'
      obtain ⟨rfl, hps⟩ : o = o' ∧ ps.map (fun p => p.1) = ps'.map (fun p => p.1) := by simpa using h
      have tails (v : State) := ih (s := v) hps
      cases o with
      | q n =>
        simp only [popAll]
        split
        · rfl
        · next e es he =>
          have := congrArg (fun r => r.map (fun r : State × Mask =>
            (r.1, r.2 ||| headBad (qFifo s g n) (qcfgBanks (qCfg s g n)).2 (ringWidth s g)))) (tails (popped s g n es))
          simpa only [Option.map_map, Function.comp_def] using this
      | _ => simpa only [popAll, Option.map_map, Function.comp_def] using tails s

theorem feeds_congr {srcs srcs' : List (Opd × Ety)} {d : Opd} {xs : List Src} (h : srcs.map (fun p => p.1) = srcs'.map (fun p => p.1))
    (hf : feeds s is srcs d = some (s', xs)) : ∃ xs', feeds s is srcs' d = some (s', xs') := by
  have names : queueNames srcs' d = queueNames srcs d := by
    have := congrArg (fun l => l.flatMap Opd.qreg ++ d.qreg) h
    simpa only [queueNames, List.flatMap_map] using this.symm
  have pops := popAll_congr (s := s) (g := is.ref) h
  unfold feeds at hf ⊢
  rw [names]
  split at hf
  · rename_i usable
    rw [if_pos usable]
    cases hp : popAll s is.ref srcs with
    | none => simp only [hp] at hf; cases hf
    | some r =>
      cases hp' : popAll s is.ref srcs' with
      | none => rw [hp, hp'] at pops; cases pops
      | some r' =>
        rw [hp, hp', Option.map_some, Option.map_some, Option.some_inj, Prod.mk.injEq] at pops
        obtain ⟨v, ys, bad⟩ := r
        obtain ⟨v', ys', bad'⟩ := r'
        obtain ⟨rfl, rfl⟩ : v' = v ∧ bad' = bad := pops
        simp only [hp] at hf
        split at hf
        · rename_i room
          cases hf
          exact ⟨ys', by simp only [room, if_true]⟩
        · cases hf
  · cases hf

theorem onlyQueues_of_feeds {srcs : List (Opd × Ety)} {d : Opd} {xs : List Src} {qs : List Nat}
    (hq : ∀ p ∈ srcs, ∀ n ∈ p.1.qreg, n ∈ qs) (h : feeds s is srcs d = some (s', xs)) : OnlyQueues s s' is.ref qs := by
  unfold feeds at h
  split at h
  · split at h
    · next hp =>
      split at h
      · cases h; exact onlyQueues_popAll hq hp
      · cases h
    · cases h
  · cases h

/-! ### What a computing form leaves of its gang -/

/-- What no computing form writes: a gang without its registers, predicates, condition bits, counters, lr and words to be spilled. -/
def Gang.unwritten (x : Gang) : Gang := { x.regs with v := [], s := [], pr := [], c := 0, lr := 0, cnt := [], unhomed := [] }

/-- The gang `y` differs from the issuer's only where the form writes. -/
structure FormFrame (is : Iss) (i : Instr) (y : Gang) : Prop where
  words : ∀ n l, l < 64 → wordWritten is i n l = false → rdV y n l = rdV is.gang n l
  scalars : ∀ n, i.dst.map (fun d => d.1) ≠ some (.s n) → rdS y n = rdS is.gang n
  preds : ∀ p l, p < 16 → ¬(predWritten i = some p ∧ l ∈ selOf is (guardOf i)) → rdP y p l = rdP is.gang p l
  conds : ∀ c, c < 16 → condWritten i ≠ some c → rdC y c = rdC is.gang c
  link : i.dst.map (fun d => d.1) ≠ some .lr → y.lr = is.gang.lr
  counters : i.dst.map (fun d => d.1) ≠ some .exm → y.cnt = is.gang.cnt
  homes : ∀ n l, l < 64 → wordWritten is i n l = false → (64 * n + l ∈ y.unhomed ↔ 64 * n + l ∈ is.gang.unhomed)
  unwritten : y.unwritten = is.gang.unwritten

theorem FormFrame.refl (is : Iss) (i : Instr) : FormFrame is i is.gang :=
  ⟨fun _ _ _ _ => rfl, fun _ _ => rfl, fun _ _ _ _ => rfl, fun _ _ _ => rfl, fun _ => rfl, fun _ => rfl, fun _ _ _ _ => Iff.rfl, rfl⟩

/-- The frame speaks of the registers of the gang alone. -/
theorem FormFrame.of_regs {y z : Gang} (h : y.regs = z.regs) (f : FormFrame is i z) : FormFrame is i y := by
  have hv : y.v = z.v := (congrArg Gang.v h :)
  have hpr : y.pr = z.pr := (congrArg Gang.pr h :)
  have hc : y.c = z.c := (congrArg Gang.c h :)
  have hlr : y.lr = z.lr := (congrArg Gang.lr h :)
  have hcnt : y.cnt = z.cnt := (congrArg Gang.cnt h :)
  have hun : y.unhomed = z.unhomed := (congrArg Gang.unhomed h :)
  have hrest : y.unwritten = z.unwritten :=
    (congrArg (fun x : Gang => { x with v := [], s := [], pr := [], c := 0, lr := 0, cnt := [], unhomed := [] }) h :)
  exact {
    words := fun n l hl hw => by rw [← f.words n l hl hw]; unfold rdV; rw [hv]
    scalars := fun n hn => (regs_s h n).trans (f.scalars n hn)
    preds := fun p l hp hw => by rw [← f.preds p l hp hw]; unfold rdP; rw [hpr]
    conds := fun c hb hw => by rw [← f.conds c hb hw]; unfold rdC; rw [hc]
    link := fun hd => hlr.trans (f.link hd)
    counters := fun hd => hcnt.trans (f.counters hd)
    homes := fun n l hl hw => by rw [hun]; exact f.homes n l hl hw
    unwritten := hrest.trans f.unwritten }

theorem FormFrame.wrV {z : Gang} {n l x : Nat} (f : FormFrame is i z) (hl : l < 64) (hw : wordWritten is i n l = true) :
    FormFrame is i (wrV z n l x) := by
  have other : ∀ m k, k < 64 → wordWritten is i m k = false → ¬(m = n ∧ k = l) := by
    rintro m k - hmk ⟨rfl, rfl⟩
    rw [hw] at hmk
    cases hmk
  exact { f with
    words := fun m k hk hmk => by rw [rdV_wrV z n l x m k hl hk, if_neg (other m k hk hmk)]; exact f.words m k hk hmk
    homes := fun m k hk hmk => by
      have hne : 64 * m + k ≠ 64 * n + l := fun e => other m k hk hmk (by omega)
      rw [← f.homes m k hk hmk]
      show _ ∈ (if _ then _ else _) ↔ _
      split
      · simp only [List.mem_append, List.mem_singleton, hne, or_false]
      · rfl }

theorem FormFrame.wrVw {z : Gang} {n l x : Nat} {is64 : Bool} (f : FormFrame is i z) (hd : i.dst = some (.v n, is64)) (hl : l < 64)
    (hs : l ∈ selOf is (guardOf i)) : FormFrame is i (wrVw z n l is64 x) := by
  have hw : ∀ m, m ∈ (Opd.v n).vregs is64 → wordWritten is i m l = true := by
    intro m hm
    simp only [wordWritten, hd, Bool.and_eq_true, List.contains_iff_mem]
    exact ⟨hm, hs⟩
  unfold Machine.wrVw
  split
  · next h =>
    subst h
    exact (f.wrV hl (hw n (by simp [Opd.vregs]))).wrV hl (hw (n + 1) (by simp [Opd.vregs]))
  · next h => exact f.wrV hl (hw n (by simp [Opd.vregs, h]))

theorem FormFrame.wrP {z : Gang} {p l : Nat} {x : Bool} (f : FormFrame is i z) (hp : predWritten i = some p)
    (hs : l ∈ selOf is (guardOf i)) : FormFrame is i (wrP z p l x) := by
  have same : ∃ pr, Machine.wrP z p l x = { z with pr := pr } := by
    unfold Machine.wrP
    split
    · exact ⟨z.pr, rfl⟩
    · exact ⟨_, rfl⟩
  have preds : ∀ q k, q < 16 → ¬(predWritten i = some q ∧ k ∈ selOf is (guardOf i)) →
      rdP (Machine.wrP z p l x) q k = rdP is.gang q k := by
    intro q k hq hn
    rw [rdP_wrP z p l q k x hq, if_neg ?_]
    · exact f.preds q k hq hn
    · rintro ⟨rfl, rfl, -⟩; exact hn ⟨hp, hs⟩
  obtain ⟨pr, e⟩ := same
  rw [e] at preds ⊢
  exact { f with preds := preds }

theorem FormFrame.wrC {z : Gang} {c : Nat} {x : Bool} (f : FormFrame is i z) (hc : condWritten i = some c) :
    FormFrame is i (wrC z c x) :=
  { f with
    conds := fun m hm hn => by
      rw [rdC_wrC z c m x hm, if_neg (fun e => hn (by rw [e, hc]))]
      exact f.conds m hm hn }

theorem FormFrame.wrScalar {d : Opd} {b : Bool} {x : Nat} (hd : i.dst = some (d, b)) : FormFrame is i (wrScalar is.gang is.q d x).1 := by
  have f := FormFrame.refl is i
  have hdst : i.dst.map (fun d => d.1) = some d := by rw [hd]; rfl
  cases d with
  | s n =>
    exact { f with
      scalars := fun m hm => by
        refine (rdS_wrS is.gang n x m).trans (if_neg fun e => hm ?_)
        rw [hdst, e] }
  | lr => exact { f with link := fun h => absurd hdst h }
  | exm =>
    have same : (wrExm is.gang is.q x).1.uncounted = is.gang.uncounted := setCounters_frame _ _ _
    obtain ⟨cnt, e⟩ : ∃ cnt, (wrExm is.gang is.q x).1 = { is.gang with cnt := cnt } :=
      ⟨(wrExm is.gang is.q x).1.cnt, congrArg (fun g : Gang => { g with cnt := (wrExm is.gang is.q x).1.cnt }) same⟩
    show FormFrame is i (wrExm is.gang is.q x).1
    rw [e]
    exact { f with counters := fun h => absurd hdst h }
  | _ => exact f

/-! ### The results of computing forms -/

/-- The effect of a computing form over the state `u` that its pops leave. -/
inductive ComesTo (is : Iss) (i : Instr) (u : State) : State → Prop where
  | scalar {d : Opd} {b : Bool} (x : Nat) (hd : i.dst = some (d, b)) :
      ComesTo is i u (modGang u is.ref (fun y => (wrScalar y is.q d x).1))
  | lanes {d : Opd} {is64 : Bool} (f : Nat → Nat) (hd : i.dst = some (d, is64)) :
      ComesTo is i u (landed u is (selOf is (guardOf i)) d is64 f)
  | preds {p : Nat} (f : Nat → Bool) (hp : predWritten i = some p) :
      ComesTo is i u (modGang u is.ref (fun y => (selOf is (guardOf i)).foldl (fun y l => wrP y p l (f l)) y))
  | cond {c : Nat} (x : Bool) (hc : condWritten i = some c) : ComesTo is i u (modGang u is.ref (fun y => wrC y c x))

theorem lt_of_mem_selOf {gd : Guard} {l : Nat} (h : l ∈ selOf is gd) : l < 64 := by
  have := (List.mem_filter.1 (List.mem_filter.1 h).1).1
  rw [laneIds, List.mem_range] at this
  omega

/-- What a result is of the rest of the machine: of the FIFOs it changes the one that it pushes into. -/
theorem ComesTo.rest {v : State} (h : ComesTo is i u v) : OnlyGangAndQueues u v is.ref (queuesOf i) := by
  cases h with
  | scalar x hd => exact (onlyGang_modGang _ _ _).andQueues
  | preds f hp => exact (onlyGang_modGang _ _ _).andQueues
  | cond x hc => exact (onlyGang_modGang _ _ _).andQueues
  | @lanes d is64 f hd =>
    cases d with
    | v n => exact (onlyGang_modGang _ _ _).andQueues
    | q n => exact (onlyQueues_setFifo (List.mem_append_right _ (by simp [hd, Opd.qreg])) _).rest
    | _ => exact (OnlyGang.refl _ _).andQueues

/-- What a result is of the issuing gang. -/
theorem ComesTo.gang {v : State} (h : ComesTo is i u v) (hu : gang? u is.ref = some is.gang) :
    ∃ z, gang? v is.ref = some z ∧ FormFrame is i z := by
  cases h with
  | scalar x hd => exact ⟨_, by rw [gang?_modGang_same, hu]; rfl, FormFrame.wrScalar hd⟩
  | preds f hp =>
    refine ⟨_, by rw [gang?_modGang_same, hu]; rfl, ?_⟩
    exact List.foldlRecOn _ _ (FormFrame.refl is i) fun _ hy l hl => hy.wrP hp hl
  | cond x hc => exact ⟨_, by rw [gang?_modGang_same, hu]; rfl, (FormFrame.refl is i).wrC hc⟩
  | @lanes d is64 f hd =>
    cases d with
    | v n =>
      refine ⟨_, by rw [landed, gang?_modGang_same, hu]; rfl, ?_⟩
      exact List.foldlRecOn _ _ (FormFrame.refl is i) fun _ hy l hl => hy.wrVw hd (lt_of_mem_selOf hl) hl
    | q n => exact ⟨_, (gang?_setFifo n _ _).trans hu, FormFrame.refl is i⟩
    | _ => exact ⟨_, hu, FormFrame.refl is i⟩

/-! ### What each form comes to -/

/-- The instruction answers behind one of the four results, over the state as it is or as the pops leave it. -/
def Computed (s s' : State) (is : Iss) (i : Instr) : Prop :=
  ∃ u v, (u = s ∨ u = s') ∧ ComesTo is i u v ∧ exec i s = .next (past v is i)

/-- What the hypotheses of O13 give every form: it may run, its operands are at hand, and a write of exm overflows nothing. -/
structure Ready (s s' : State) (is : Iss) (i : Instr) : Prop where
  runs : mayRun s is i = true
  fed : ∀ srcs : List (Opd × Ety), srcs.map (fun p => p.1) = operandsRead i →
    ∃ xs, feeds s is srcs ((i.dst.map (fun d => d.1)).getD .exm) = some (s', xs)
  room : i.dst.map (fun d => d.1) = some .exm → ∀ l ∈ groupLanes is.gang is.q, counterOf is.gang l < 255

section
variable {m : State → Iss → Res} (r : Ready s s' is i)
include r

theorem Ready.noOverflow {d : Opd} {b : Bool} (hd : i.dst = some (d, b)) (x : Nat) : (wrScalar is.gang is.q d x).2 = [] := by
  cases d with
  | exm =>
    rw [wrScalar, wrExm_overflows, List.filter_eq_nil_iff]
    intro l hl
    have := r.room (by rw [hd]; rfl) l hl
    simp only [Bool.and_eq_true, beq_iff_eq, not_and]
    omega
  | _ => rfl

theorem Ready.computed {v : State} (hi : exec i s = issue i s m) (hm : m s is = .done v)
    (hv : ComesTo is i s v ∨ ComesTo is i s' v) : Computed s s' is i := by
  have answers : exec i s = .next (past v is i) := comes_to m _ hi hm r.runs
  rcases hv with hv | hv
  · exact ⟨s, v, .inl rfl, hv, answers⟩
  · exact ⟨s', v, .inr rfl, hv, answers⟩

theorem Ready.writeScalar {d : Opd} {b : Bool} {x : Nat} (hi : exec i s = issue i s m) (hm : m s is = writeScalar s is d x)
    (hd : i.dst = some (d, b)) : Computed s s' is i := by
  refine r.computed hi (hm.trans ?_) (.inl (.scalar x hd))
  simp only [Machine.writeScalar, r.noOverflow hd]

theorem Ready.writeLanes {d : Opd} {is64 : Bool} {gd : Guard} {f : Nat → Nat} (hi : exec i s = issue i s m)
    (hm : m s is = writeLanes s is (selOf is gd) d is64 f) (hd : i.dst = some (d, is64)) (hg : guardOf i = gd) :
    Computed s s' is i := by
  subst hg
  exact r.computed hi hm (.inl (.lanes f hd))

theorem Ready.laneOp {d : Opd} {ty : Ety} {gd : Guard} {srcs : List (Opd × Ety)} {f : Nat → List Nat → Nat}
    (hi : exec i s = issue i s m) (hm : m s is = laneOp s is gd d ty srcs f) (hd : i.dst = some (d, ty.is64)) (hg : guardOf i = gd)
    (hsrc : srcs.map (fun p => p.1) = operandsRead i) : Computed s s' is i := by
  subst hg
  obtain ⟨xs, hf⟩ := r.fed srcs hsrc
  rw [hd] at hf
  have hdone := laneOp_of_feeds s s' is (guardOf i) d ty srcs xs f hf
    (fun _ => List.isEmpty_iff.2 (r.noOverflow hd _))
  refine r.computed hi (hm.trans hdone) (.inr ?_)
  unfold laneEffect
  split
  · exact .scalar _ hd
  · exact .lanes _ hd

theorem Ready.predOp {p : Nat} {gd : Guard} {srcs : List (Opd × Ety)} {f : Nat → List Nat → Bool} (hi : exec i s = issue i s m)
    (hm : m s is = predOp s is gd p srcs f) (hp : predWritten i = some p) (hd : i.dst = none) (hg : guardOf i = gd)
    (hsrc : srcs.map (fun p => p.1) = operandsRead i) : Computed s s' is i := by
  subst hg
  obtain ⟨xs, hf⟩ := r.fed srcs hsrc
  rw [hd] at hf
  exact r.computed hi (hm.trans (predOp_of_feeds s s' is (guardOf i) p srcs xs f hf)) (.inr (.preds _ hp))

theorem Ready.cond {c : Nat} {x : Bool} (hi : exec i s = issue i s m)
    (hm : m s is = .done (modGang s is.ref (fun y => wrC y c x))) (hc : condWritten i = some c) : Computed s s' is i :=
  r.computed hi hm (.inl (.cond x hc))

end

theorem Ready.pscan {g : Guard} {op : ScanOp} {incl : Bool} {ty : Ety} {sat : Bool} {d a : Opd}
    (r : Ready s s' is (.pscan g op incl ty sat d a)) : Computed s s' is (.pscan g op incl ty sat d a) := by
  obtain ⟨xs, hf⟩ := r.fed [(a, ty)] rfl
  exact r.computed (exec_pscan g op incl ty sat d a s) (withQueues_of_feeds _ _ _ _ _ _ _ hf) (.inr (.lanes _ rfl))

theorem Ready.pmov {g : Guard} {m : PmovForm} (r : Ready s s' is (.pmov g m)) : Computed s s' is (.pmov g m) := by
  cases m with
  | toPred p a => exact r.predOp (exec_pmov g _ s) rfl rfl rfl rfl rfl
  | fromPred d p => exact r.laneOp (exec_pmov g _ s) rfl rfl rfl rfl
  | bit p a => exact r.predOp (exec_pmov g _ s) rfl rfl rfl rfl rfl

/-- Every computing form comes to one of the four results. -/
theorem Ready.computes (r : Ready s s' is i) (h : computes i = true) : Computed s s' is i := by
  cases i with
  | iadd x => exact r.laneOp (exec_iadd x s) rfl rfl rfl rfl
  | isub x => exact r.laneOp (exec_isub x s) rfl rfl rfl rfl
  | imul x => exact r.laneOp (exec_imul x s) rfl rfl rfl rfl
  | imulh x => exact r.laneOp (exec_imulh x s) rfl rfl rfl rfl
  | imad x => exact r.laneOp (exec_imad x s) rfl rfl rfl rfl
  | iabs x => exact r.laneOp (exec_iabs x s) rfl rfl rfl rfl
  | ineg x => exact r.laneOp (exec_ineg x s) rfl rfl rfl rfl
  | imin x => exact r.laneOp (exec_imin x s) rfl rfl rfl rfl
  | imax x => exact r.laneOp (exec_imax x s) rfl rfl rfl rfl
  | and x => exact r.laneOp (exec_and x s) rfl rfl rfl rfl
  | or x => exact r.laneOp (exec_or x s) rfl rfl rfl rfl
  | xor x => exact r.laneOp (exec_xor x s) rfl rfl rfl rfl
  | not x => exact r.laneOp (exec_not x s) rfl rfl rfl rfl
  | shl x => exact r.laneOp (exec_shl x s) rfl rfl rfl rfl
  | shr x => exact r.laneOp (exec_shr x s) rfl rfl rfl rfl
  | sar x => exact r.laneOp (exec_sar x s) rfl rfl rfl rfl
  | rot x => exact r.laneOp (exec_rot x s) rfl rfl rfl rfl
  | bfx x ctl => exact r.laneOp (exec_bfx x ctl s) rfl rfl rfl rfl
  | bfi x ctl => exact r.laneOp (exec_bfi x ctl s) rfl rfl rfl rfl
  | popc x => exact r.laneOp (exec_popc x s) rfl rfl rfl rfl
  | clz x => exact r.laneOp (exec_clz x s) rfl rfl rfl rfl
  | ctz x => exact r.laneOp (exec_ctz x s) rfl rfl rfl rfl
  | brev x => exact r.laneOp (exec_brev x s) rfl rfl rfl rfl
  | icmp g c ty p a b => exact r.predOp (exec_icmp g c ty p a b s) rfl rfl rfl rfl rfl
  | icmpc c ty cd a b => exact r.cond (exec_icmpc c ty cd a b s) rfl rfl
  | sel x pi neg => exact r.laneOp (exec_sel x pi neg s) rfl rfl rfl rfl
  | mov x => exact r.laneOp (exec_mov x s) rfl rfl rfl rfl
  | movi g ty d imm => exact r.laneOp (exec_movi g ty d imm s) rfl rfl rfl rfl
  | lea x sh => exact r.laneOp (exec_lea x sh s) rfl rfl rfl rfl
  | plop g p a b tt => exact r.predOp (exec_plop g p a b tt s) rfl rfl rfl rfl rfl
  | clop d a b tt => exact r.cond (exec_clop d a b tt s) rfl rfl
  | pmov g m => exact r.pmov
  | shfl g m ty d a b => exact r.writeLanes (exec_shfl g m ty d a b s) rfl rfl rfl
  | bcast g ty d a b => exact r.writeLanes (exec_bcast g ty d a b s) rfl rfl rfl
  | ballot g d p => exact r.writeScalar (exec_ballot g d p s) rfl rfl
  | pscan g op incl ty sat d a => exact r.pscan
  | red g op ty sat d va => exact r.writeScalar (exec_red g op ty sat d va s) rfl rfl
  | fadd x => exact r.laneOp (exec_fadd x s) rfl rfl rfl rfl
  | fsub x => exact r.laneOp (exec_fsub x s) rfl rfl rfl rfl
  | fmul x => exact r.laneOp (exec_fmul x s) rfl rfl rfl rfl
  | fma x => exact r.laneOp (exec_fma x s) rfl rfl rfl rfl
  | fmin nan x => exact r.laneOp (exec_fmin nan x s) rfl rfl rfl rfl
  | fmax nan x => exact r.laneOp (exec_fmax nan x s) rfl rfl rfl rfl
  | fabs x => exact r.laneOp (exec_fabs x s) rfl rfl rfl rfl
  | fneg x => exact r.laneOp (exec_fneg x s) rfl rfl rfl rfl
  | fscale x => exact r.laneOp (exec_fscale x s) rfl rfl rfl rfl
  | fcmp g c p a b => exact r.predOp (exec_fcmp g c p a b s) rfl rfl rfl rfl rfl
  | fcmpc c cd a b => exact r.cond (exec_fcmpc c cd a b s) rfl rfl
  | fclass g p a mask => exact r.predOp (exec_fclass g p a mask s) rfl rfl rfl rfl rfl
  | frcp x => exact r.laneOp (exec_frcp x s) rfl rfl rfl rfl
  | frsq x => exact r.laneOp (exec_frsq x s) rfl rfl rfl rfl
  | fsqrt x => exact r.laneOp (exec_fsqrt x s) rfl rfl rfl rfl
  | fexp2 x => exact r.laneOp (exec_fexp2 x s) rfl rfl rfl rfl
  | flog2 x => exact r.laneOp (exec_flog2 x s) rfl rfl rfl rfl
  | fsin x => exact r.laneOp (exec_fsin x s) rfl rfl rfl rfl
  | fcos x => exact r.laneOp (exec_fcos x s) rfl rfl rfl rfl
  | ftanh x => exact r.laneOp (exec_ftanh x s) rfl rfl rfl rfl
  | cvt g tgt src sat d a si di => exact r.laneOp (exec_cvt g tgt src sat d a si di s) rfl rfl rfl rfl
  | cvtmx g fmt d a b di => exact r.laneOp (exec_cvtmx g fmt d a b di s) rfl rfl rfl rfl
  | cvtmxScale g fmt d a => exact r.laneOp (exec_cvtmxScale g fmt d a s) rfl rfl rfl rfl
  | _ => cases h

/-- The operands that a form pops are among the queues it names. -/
theorem mem_queuesOf_of_operandsRead {o : Opd} {n : Nat} (ho : o ∈ operandsRead i) (hn : n ∈ o.qreg) : n ∈ queuesOf i := by
  have among : ∀ o ∈ operandsRead i, o ∈ i.srcs.map (fun p => p.1) := by
    unfold operandsRead
    split
    · intro o ho
      exact List.mem_map.2 ⟨(o, false), by rw [List.mem_singleton.1 ho]; exact List.mem_cons_self, rfl⟩
    · intro o ho
      simp only [Instr.srcs, List.map_cons, List.map_nil, List.mem_cons, List.not_mem_nil, or_false] at ho ⊢
      tauto
    · exact fun _ h => h
  obtain ⟨p, hp, rfl⟩ := List.mem_map.1 (among o ho)
  exact List.mem_append_left _ (List.mem_flatMap.2 ⟨p, hp, hn⟩)

/-- The registers of the issuing gang through the end of its issue. -/
theorem gang?_past {v : State} {z : Gang} (h : gang? v is.ref = some z) : ∃ y, gang? (past v is i) is.ref = some y ∧ y.regs = z.regs := by
  have := gang?_past_regs v is i
  rw [h, Option.map_some, Option.map_eq_some_iff] at this
  exact this

/-- Settles O13: the form comes to one of four results, whose frames compose with those of the pops and of the end of the issue. -/
theorem computingFormsFrame : Obligations.ComputingFormsFrame := by
  unfold Obligations.ComputingFormsFrame
  intro s t s' is i srcs xs _ hc hr hsrc hf hroom ht
  have ready : Ready s s' is i := ⟨hr, fun srcs' h' => feeds_congr (hsrc.trans h'.symm) hf, hroom⟩
  obtain ⟨u, v, hu, hv, answers⟩ := ready.computes hc
  have moved : OnlyQueues s u is.ref (queuesOf i) := by
    rcases hu with rfl | rfl
    · exact .refl _ _ _
    · refine onlyQueues_of_feeds (fun p hp n hn => mem_queuesOf_of_operandsRead ?_ hn) hf
      rw [← hsrc]
      exact List.mem_map_of_mem hp
  obtain ⟨z, hz, frame⟩ := hv.gang (moved.gang.trans (mayRun_gang s is i hr))
  obtain ⟨y, hy, hregs⟩ := gang?_past (i := i) hz
  cases answers.symm.trans ht
  have whole : OnlyGangAndQueues s (past v is i) is.ref (queuesOf i) := by
    have ended := (onlyGang_past v is i).andQueues (qs := queuesOf i)
    have effect := hv.rest
    have past_fifos : ∀ c k, (crew? (past v is i) c).map (fun cr => Tab.find? cr.fifos k) = (crew? v c).map (fun cr => Tab.find? cr.fifos k) :=
      fun c k => ((onlyGang_past v is i).andQueues (qs := [])).fifos c k (fun _ _ hn => absurd hn List.not_mem_nil)
    exact moved.then ⟨ended.rest.trans effect.rest, fun c => (ended.crews c).trans (effect.crews c),
      fun c => (ended.cores c).trans (effect.cores c), fun h n => (ended.gangs h n).trans (effect.gangs h n),
      fun c k h => (past_fifos c k).trans (effect.fifos c k h)⟩
  have memory : (past v is i).mem = s.mem := (congrArg State.mem whole.rest :)
  obtain ⟨words, scalars, preds, conds, link, counters, homes, unwritten⟩ := frame.of_regs hregs
  exact ⟨whole, y, hy, words, scalars, preds, conds, link, counters, homes, unwritten, fun a => by rw [memory]⟩

end Sys2Proof.Machine
end

section
/-!
# The record of an unwind says what it should (O55)

The words that an unwind writes (`recordArea`), field by field: numbers packed into a word do not overlap, the throws stand in R60's order,
and the code list holds the first throw of each code until it is full.
-/

namespace Sys2Proof.Machine
variable {s : State} {u : Unwind} {c : Nat} {cr : Crew} {l : Launch} {r : Tab W64}

/-! ### R60's order -/

theorem mem_insertThrown {t o : Thrown} {ts : List Thrown} : o ∈ insertThrown t ts ↔ o = t ∨ o ∈ ts := by
  induction ts with
  | nil => simp only [insertThrown, List.mem_singleton, List.not_mem_nil, or_false]
  | cons a ts ih =>
    simp only [insertThrown]
    split
    · rw [List.mem_cons]
    · rw [List.mem_cons, ih, List.mem_cons, or_left_comm]

theorem insertThrown_sorted {t : Thrown} {ts : List Thrown} (h : ts.Pairwise (fun a b => a.rank ≤ b.rank)) :
    (insertThrown t ts).Pairwise (fun a b => a.rank ≤ b.rank) := by
  induction ts with
  | nil => exact List.pairwise_singleton _ _
  | cons a ts ih =>
    obtain ⟨least, rest⟩ := List.pairwise_cons.1 h
    simp only [insertThrown]
    split
    · next lt =>
      refine List.pairwise_cons.2 ⟨fun o ho => ?_, h⟩
      rcases List.mem_cons.1 ho with rfl | ho
      · exact lt.le
      · exact lt.le.trans (least o ho)
    · next ge =>
      refine List.pairwise_cons.2 ⟨fun o ho => ?_, ih rest⟩
      rcases mem_insertThrown.1 ho with rfl | ho
      · exact not_lt.1 ge
      · exact least o ho

theorem throwsOf_sorted (s : State) (u : Unwind) : (throwsOf s u).Pairwise (fun a b => a.rank ≤ b.rank) := by
  unfold throwsOf
  exact List.foldlRecOn _ _ List.Pairwise.nil fun _ h _ _ => insertThrown_sorted h

/-! ### Fields of words -/

theorem bit_eq_of_div {x i : Nat} {b : Bool} (h : x / 2 ^ i % 2 = b2n b) : bit x i = b := by
  unfold bit
  rw [Nat.testBit_eq_decide_div_mod_eq, h]
  cases b <;> rfl

theorem stopOffset_lt (code pc : Nat) : stopOffset code pc < 2 ^ 32 := by
  unfold stopOffset
  split
  · next h => exact h.2
  · decide

/-! ### The header -/

/-- The primary exception of a record (R60, R65): its word 0, its place in word 1, and the supervisor's code. -/
def primaryOf (s : State) (u : Unwind) (ts : List Thrown) : Nat × Nat × Nat :=
  match u.kept.map (fun k => k.rcd), ts with
  | some r, _ => (wordAt r 0, wordAt r 1 % 2 ^ 16, bits (wordAt r 3) 47 32)
  | none, t :: _ => (t.code + t.lin * 2 ^ 32, t.gang + t.lane * 2 ^ 8, svField s u t)
  | none, [] => (0, 0, 0)

/-- The code list of a record and whether a code found no room in it, with what a RETHROW keeps of an earlier record. -/
def recordCodes (u : Unwind) (ts : List Thrown) : List Nat × Bool :=
  codeList (match u.kept.map (fun k => k.rcd) with
      | some r => (List.range (bits (wordAt r 2) 39 32)).map (fun j => wordAt r (72 + j))
      | none => [])
    ts (((u.kept.map (fun k => k.rcd)).map (fun r => bit (wordAt r 1) 24)).getD false)

theorem headerOf_w0 (s : State) (u : Unwind) (ts : List Thrown) : (headerOf s u ts).w0 = (primaryOf s u ts).1 := rfl

theorem headerOf_w1 (s : State) (u : Unwind) (ts : List Thrown) : (headerOf s u ts).w1 =
    b2n (recordCodes u ts).2 * 2 ^ 24 + u.depth * 2 ^ 20 + u.level * 2 ^ 16 + (headerOf s u ts).threw.length * 2 ^ 32
      + (primaryOf s u ts).2.1 := rfl

theorem headerOf_w3 (s : State) (u : Unwind) (ts : List Thrown) :
    (headerOf s u ts).w3 = gangMask s u + (primaryOf s u ts).2.2 * 2 ^ 32 := rfl

theorem headerOf_codes (s : State) (u : Unwind) (ts : List Thrown) : (headerOf s u ts).codes = (recordCodes u ts).1 := rfl

theorem headerOf_w2_fresh {ts : List Thrown} (hk : u.kept = none) :
    (headerOf s u ts).w2 = min (laneCount ts) (2 ^ 32 - 1) + (recordCodes u ts).1.length * 2 ^ 32 := by
  simp only [headerOf, recordCodes, hk, Option.map_none, Option.getD_none, Nat.add_zero]

theorem headerOf_threw_fresh {ts : List Thrown} (hk : u.kept = none) : (headerOf s u ts).threw = (ts.map Thrown.name).eraseDups := by
  simp only [headerOf, hk, Option.map_none, Option.getD_none, List.nil_append]

theorem recordCodes_fresh {ts : List Thrown} (hk : u.kept = none) : recordCodes u ts = codeList [] ts false := by
  simp only [recordCodes, hk, Option.map_none, Option.getD_none]

theorem primaryOf_fresh {t : Thrown} {ts : List Thrown} (hk : u.kept = none) :
    primaryOf s u (t :: ts) = (t.code + t.lin * 2 ^ 32, t.gang + t.lane * 2 ^ 8, svField s u t) := by
  simp only [primaryOf, hk, Option.map_none]

theorem primaryOf_kept {k : Kept} {ts : List Thrown} (hk : u.kept = some k) :
    primaryOf s u ts = (wordAt k.rcd 0, wordAt k.rcd 1 % 2 ^ 16, bits (wordAt k.rcd 3) 47 32) := by
  simp only [primaryOf, hk, Option.map_some]

theorem svField_lt (s : State) (u : Unwind) (t : Thrown) : svField s u t < 2 ^ 16 := by
  unfold svField
  split
  · decide
  · split
    · omega
    · split
      · omega
      · decide

/-- The bounds on the fields of throws under which they fit their places in a record. -/
def Fits (ts : List Thrown) : Prop := ∀ t ∈ ts, t.code < 2 ^ 16 ∧ t.gang < 32 ∧ t.lane < 64 ∧ t.lin < 2 ^ 32

theorem primaryOf_lt {ts : List Thrown} (fits : Fits ts) : (primaryOf s u ts).2.1 < 2 ^ 16 ∧ (primaryOf s u ts).2.2 < 2 ^ 16 := by
  unfold primaryOf
  split
  · exact ⟨Nat.mod_lt _ (by decide), Nat.mod_lt _ (by decide)⟩
  · next t _ _ =>
    obtain ⟨-, gang, lane, -⟩ := fits t List.mem_cons_self
    exact ⟨show t.gang + t.lane * 2 ^ 8 < 2 ^ 16 by omega, svField_lt s u t⟩
  · exact ⟨by decide, by decide⟩

/-! ### The code list (R342) -/

/-- What a code list says of the throws that it was made from. -/
structure ListsCodes (ts : List Thrown) (codes : List Nat) (ovf : Bool) (cs : List Thrown) : Prop where
  entries : codes = cs.map codeEntry
  among : cs.Sublist ts
  room : cs.length ≤ 24
  once : (cs.map (fun t => t.code)).Nodup
  first : ∀ t ∈ cs, ts.find? (fun o => o.code == t.code) = some t
  all : ∀ t ∈ ts, t.code ∈ cs.map (fun t => t.code) ∨ ovf = true
  full : ovf = true → cs.length = 24

theorem codeEntry_code {t : Thrown} (h : t.code < 2 ^ 16) : codeEntry t % 2 ^ 16 = t.code := by
  unfold codeEntry
  omega

theorem codeEntry_lt {ts : List Thrown} {t : Thrown} (fits : Fits ts) (ht : t ∈ ts) : codeEntry t < 2 ^ 64 := by
  obtain ⟨code, gang, lane, lin⟩ := fits t ht
  unfold codeEntry
  omega

theorem mem_codes_iff {ts cs : List Thrown} {t : Thrown} (fits : Fits ts) (among : cs.Sublist ts) :
    (cs.map codeEntry).any (fun e => e % 2 ^ 16 == t.code) = true ↔ t.code ∈ cs.map (fun t => t.code) := by
  rw [List.any_map, List.any_eq_true, List.mem_map]
  refine exists_congr fun o => and_congr_right fun ho => ?_
  rw [Function.comp_apply, codeEntry_code (fits o (among.subset ho)).1, beq_iff_eq]

theorem codeList_append (old : List Nat) (ts : List Thrown) (t : Thrown) (ovf : Bool) :
    codeList old (ts ++ [t]) ovf =
      if (codeList old ts ovf).1.any (fun e => e % 2 ^ 16 == t.code) then codeList old ts ovf
      else if (codeList old ts ovf).1.length < 24 then ((codeList old ts ovf).1 ++ [codeEntry t], (codeList old ts ovf).2)
      else ((codeList old ts ovf).1, true) := by
  unfold codeList
  rw [List.foldl_append]
  rfl

theorem find?_append_of_some {ts : List Thrown} {t o : Thrown} {p : Thrown → Bool} (h : ts.find? p = some o) :
    (ts ++ [t]).find? p = some o := by
  rw [List.find?_append, h, Option.some_or]

/-- A throw whose code is listed changes nothing. -/
theorem ListsCodes.skip {ts cs : List Thrown} {codes : List Nat} {ovf : Bool} {t : Thrown} (h : ListsCodes ts codes ovf cs)
    (ht : t.code ∈ cs.map (fun t => t.code)) : ListsCodes (ts ++ [t]) codes ovf cs where
  entries := h.entries
  among := h.among.trans (List.sublist_append_left _ _)
  room := h.room
  once := h.once
  first o ho := find?_append_of_some (h.first o ho)
  all o ho := by
    rcases List.mem_append.1 ho with ho | ho
    · exact h.all o ho
    · exact .inl (List.mem_singleton.1 ho ▸ ht)
  full := h.full

/-- A throw with a new code goes to the end of a list that has room: none before it has its code. -/
theorem ListsCodes.push {ts cs : List Thrown} {codes : List Nat} {ovf : Bool} {t : Thrown} (h : ListsCodes ts codes ovf cs)
    (ht : t.code ∉ cs.map (fun t => t.code)) (hl : cs.length < 24) : ListsCodes (ts ++ [t]) (codes ++ [codeEntry t]) ovf (cs ++ [t]) where
  entries := by rw [h.entries, List.map_append, List.map_singleton]
  among := h.among.append (List.Sublist.refl _)
  room := by rw [List.length_append, List.length_singleton]; omega
  once := by
    rw [List.map_append, List.map_singleton]
    exact List.nodup_append.2 ⟨h.once, List.nodup_singleton _, fun a ha b hb e => ht (by rw [← List.mem_singleton.1 hb, ← e]; exact ha)⟩
  first o ho := by
    rcases List.mem_append.1 ho with ho | ho
    · exact find?_append_of_some (h.first o ho)
    · cases List.mem_singleton.1 ho
      have new : ts.find? (fun o => o.code == t.code) = none := by
        refine List.find?_eq_none.2 fun a ha e => ?_
        rcases h.all a ha with listed | isFull
        · exact ht (beq_iff_eq.1 e ▸ listed)
        · exact absurd (h.full isFull) hl.ne
      rw [List.find?_append, new, Option.none_or]
      exact List.find?_cons_of_pos (beq_self_eq_true _)
  all o ho := by
    rw [List.map_append]
    rcases List.mem_append.1 ho with ho | ho
    · exact (h.all o ho).imp_left (List.mem_append_left _)
    · exact .inl (List.mem_append_right _ (List.mem_map_of_mem ho))
  full isFull := absurd (h.full isFull) hl.ne

/-- A throw with a new code and a full list: the flag tells of it. -/
theorem ListsCodes.overflow {ts cs : List Thrown} {codes : List Nat} {ovf : Bool} {t : Thrown} (h : ListsCodes ts codes ovf cs)
    (hl : ¬ cs.length < 24) : ListsCodes (ts ++ [t]) codes true cs where
  entries := h.entries
  among := h.among.trans (List.sublist_append_left _ _)
  room := h.room
  once := h.once
  first o ho := find?_append_of_some (h.first o ho)
  all _ _ := .inr rfl
  full _ := le_antisymm h.room (not_lt.1 hl)

theorem codeList_lists {ts : List Thrown} (fits : Fits ts) : ∃ cs, ListsCodes ts (codeList [] ts false).1 (codeList [] ts false).2 cs := by
  induction ts using List.reverseRecOn with
  | nil =>
    exact ⟨[], rfl, .slnil, by decide, List.nodup_nil, fun _ h => absurd h List.not_mem_nil, fun _ h => absurd h List.not_mem_nil, nofun⟩
  | append_singleton ts t ih =>
    have earlier : Fits ts := fun o ho => fits o (List.mem_append_left _ ho)
    obtain ⟨cs, h⟩ := ih earlier
    have listed := mem_codes_iff (t := t) earlier h.among
    rw [← h.entries] at listed
    have len : (codeList [] ts false).1.length = cs.length := by rw [h.entries, List.length_map]
    rw [codeList_append]
    split
    · next yes => exact ⟨cs, h.skip (listed.1 yes)⟩
    · next no =>
      split
      · next lt => exact ⟨cs ++ [t], h.push (fun yes => no (listed.2 yes)) (len ▸ lt)⟩
      · next ge => exact ⟨cs, h.overflow (len ▸ ge)⟩

/-! ### The record -/

/-- The words of an area are those that an unwind writes for a crew. -/
def RecordWords (s : State) (u : Unwind) (c : Nat) (cr : Crew) (l : Launch) (r : Tab W64) : Prop :=
  ∀ i, i < 96 → wordAt r i = recordOf u (headerOf s u (throwsOf s u)) (throwsOf s u) c cr l i % 2 ^ 64

theorem RecordWords.word0 (h : RecordWords s u c cr l r) : wordAt r 0 = (primaryOf s u (throwsOf s u)).1 % 2 ^ 64 := h 0 (by decide)

theorem RecordWords.word1 (h : RecordWords s u c cr l r) : wordAt r 1 =
    (b2n (recordCodes u (throwsOf s u)).2 * 2 ^ 24 + u.depth * 2 ^ 20 + u.level * 2 ^ 16
      + (headerOf s u (throwsOf s u)).threw.length * 2 ^ 32 + (primaryOf s u (throwsOf s u)).2.1) % 2 ^ 64 := h 1 (by decide)

theorem RecordWords.word2_fresh (h : RecordWords s u c cr l r) (hk : u.kept = none) : wordAt r 2 =
    (min (laneCount (throwsOf s u)) (2 ^ 32 - 1) + (recordCodes u (throwsOf s u)).1.length * 2 ^ 32) % 2 ^ 64 := by
  rw [← headerOf_w2_fresh (s := s) hk]
  exact h 2 (by decide)

theorem RecordWords.word3 (h : RecordWords s u c cr l r) :
    wordAt r 3 = (gangMask s u + (primaryOf s u (throwsOf s u)).2.2 * 2 ^ 32) % 2 ^ 64 := h 3 (by decide)

/-- The fields of word 1 next to each other: the place of the primary exception, the region, the flag and the count of crews. -/
theorem RecordWords.word1_fields (h : RecordWords s u c cr l r) (fits : Fits (throwsOf s u)) (hl : u.level < 4) (hd : u.depth < 16) :
    bits (wordAt r 1) 15 0 = (primaryOf s u (throwsOf s u)).2.1 ∧ bits (wordAt r 1) 17 16 = u.level ∧ bits (wordAt r 1) 23 20 = u.depth
      ∧ bit (wordAt r 1) 24 = (recordCodes u (throwsOf s u)).2
      ∧ bits (wordAt r 1) 63 32 = (headerOf s u (throwsOf s u)).threw.length % 2 ^ 32 := by
  have place := (primaryOf_lt (s := s) (u := u) fits).1
  have flag := Sys2Proof.Laws.b2n_lt (recordCodes u (throwsOf s u)).2
  refine ⟨?_, ?_, ?_, bit_eq_of_div ?_, ?_⟩
  all_goals
    simp only [bits, h.word1]
    omega

theorem RecordWords.word3_fields (h : RecordWords s u c cr l r) (fits : Fits (throwsOf s u)) (hm : gangMask s u < 2 ^ 32) :
    bits (wordAt r 3) 31 0 = gangMask s u ∧ bits (wordAt r 3) 47 32 = (primaryOf s u (throwsOf s u)).2.2 := by
  have code := (primaryOf_lt (s := s) (u := u) fits).2
  constructor
  all_goals
    simp only [bits, h.word3]
    omega

theorem RecordWords.primary (h : RecordWords s u c cr l r) (fits : Fits (throwsOf s u)) (hl : u.level < 4) (hd : u.depth < 16)
    {t : Thrown} {ts : List Thrown} (ht : throwsFresh s u (t :: ts)) :
    (∀ o ∈ ts, t.rank ≤ o.rank) ∧ bits (wordAt r 0) 15 0 = t.code ∧ bits (wordAt r 0) 63 32 = t.lin
      ∧ bits (wordAt r 1) 7 0 = t.gang ∧ bits (wordAt r 1) 15 8 = t.lane := by
  obtain ⟨hk, he⟩ := ht
  obtain ⟨code, gang, lane, lin⟩ := fits t (he ▸ List.mem_cons_self)
  have w0 := h.word0
  have place := (h.word1_fields fits hl hd).1
  rw [he, primaryOf_fresh hk] at w0 place
  have sorted := throwsOf_sorted s u
  rw [he] at sorted
  simp only [bits] at place ⊢
  exact ⟨(List.pairwise_cons.1 sorted).1, by omega, by omega, by omega, by omega⟩

theorem RecordWords.supervisor (h : RecordWords s u c cr l r) (fits : Fits (throwsOf s u)) (hm : gangMask s u < 2 ^ 32)
    {t : Thrown} {ts : List Thrown} (ht : throwsFresh s u (t :: ts)) : (t.code ≠ 0x800D → bits (wordAt r 3) 47 32 = 0)
    ∧ ∀ e, t.code = 0x800D → t.crew < remoteCrew 0 → u.svcodes.find? (fun e => e.1 == t.crew && e.2.1 == t.gang) = some e →
      bits (wordAt r 3) 47 32 = 2 ^ 15 + e.2.2 % 2 ^ 15 := by
  obtain ⟨hk, he⟩ := ht
  have w3 := (h.word3_fields fits hm).2
  rw [he, primaryOf_fresh hk] at w3
  rw [w3]
  refine ⟨fun other => if_pos other, fun e svthrow here found => ?_⟩
  unfold svField
  rw [if_neg (not_not.2 svthrow), if_neg (not_le.2 here), found]

theorem RecordWords.rethrown (h : RecordWords s u c cr l r) (fits : Fits (throwsOf s u)) (hl : u.level < 4) (hd : u.depth < 16)
    (hm : gangMask s u < 2 ^ 32) {k : Kept} (hk : u.kept = some k) : wordAt r 0 = wordAt k.rcd 0
    ∧ bits (wordAt r 1) 15 0 = bits (wordAt k.rcd 1) 15 0 ∧ bits (wordAt r 3) 47 32 = bits (wordAt k.rcd 3) 47 32 := by
  have w0 := h.word0
  have w1 := (h.word1_fields fits hl hd).1
  have w3 := (h.word3_fields fits hm).2
  rw [primaryOf_kept hk] at w0 w1 w3
  refine ⟨w0.trans (Nat.mod_eq_of_lt (Tab.get 0#64 k.rcd 0).isLt), w1.trans ?_, w3⟩
  simp only [bits, Nat.pow_zero, Nat.div_one, Nat.sub_zero]

theorem RecordWords.counts (h : RecordWords s u c cr l r) (fits : Fits (throwsOf s u)) (hl : u.level < 4) (hd : u.depth < 16)
    {ts : List Thrown} (ht : throwsFresh s u ts) : bits (wordAt r 2) 31 0 = min (laneCount ts) (2 ^ 32 - 1)
    ∧ bits (wordAt r 1) 63 32 = (ts.map Thrown.name).eraseDups.length % 2 ^ 32 := by
  obtain ⟨hk, rfl⟩ := ht
  obtain ⟨-, -, -, -, crews⟩ := h.word1_fields fits hl hd
  rw [headerOf_threw_fresh hk] at crews
  refine ⟨?_, crews⟩
  rw [h.word2_fresh hk]
  simp only [bits]
  omega

theorem RecordWords.stamps (h : RecordWords s u c cr l r) (fits : Fits (throwsOf s u)) (hm : gangMask s u < 2 ^ 32) :
    bits (wordAt r 3) 31 0 = gangMask s u ∧ wordAt r 4 = u.launch % 2 ^ 64 ∧ wordAt r 5 = u.cycle % 2 ^ 64 ∧ wordAt r 6 = 0
      ∧ wordAt r 7 = (cr.recSeq + 1) % 2 ^ 64 :=
  ⟨(h.word3_fields fits hm).1, h 4 (by decide), h 5 (by decide), h 6 (by decide), h 7 (by decide)⟩

theorem RecordWords.lanes (h : RecordWords s u c cr l r) {g n : Nat} (hg : g < 32) (hn : n < 64) :
    (wordAt r (8 + g)).testBit n = true ↔ (∃ t ∈ throwsOf s u, t.crew = c ∧ t.gang = g ∧ t.lane = n)
      ∨ (wordAt ((u.kept.bind (fun k => Tab.find? k.areas c)).getD []) (8 + g)).testBit n = true := by
  rw [h (8 + g) (by omega), recordOf_lanes u _ _ c cr l (8 + g) g rfl hg, Nat.testBit_mod_two_pow, decide_eq_true hn, Bool.true_and]
  refine (Bool.eq_iff_iff.1 (Nat.testBit_or _ _ n)).trans ?_
  rw [Bool.or_eq_true, maskOf_bit]
  simp only [List.mem_map, List.mem_filter, Bool.and_eq_true, beq_iff_eq, and_assoc]

/-- The fields of a stop entry next to each other. -/
theorem stopEntry_fields (u : Unwind) (c code : Nat) (x : Gang) :
    bits (stopEntry u c code x % 2 ^ 64) 31 0 = stopOffset code (stopAddress u c x)
      ∧ bit (stopEntry u c code x % 2 ^ 64) 48 = u.throws.any (fun t => t.1 == c && t.2.1 == x.num)
      ∧ bit (stopEntry u c code x % 2 ^ 64) 49 = separated x ∧ bit (stopEntry u c code x % 2 ^ 64) 50 = x.abandoned
      ∧ bit (stopEntry u c code x % 2 ^ 64) 51 = x.ended.isSome := by
  have offset := stopOffset_lt code (stopAddress u c x)
  have threw := Sys2Proof.Laws.b2n_lt (u.throws.any (fun t => t.1 == c && t.2.1 == x.num))
  have split := Sys2Proof.Laws.b2n_lt (separated x)
  have abandoned := Sys2Proof.Laws.b2n_lt x.abandoned
  have ended := Sys2Proof.Laws.b2n_lt x.ended.isSome
  have futures : maskOf ((List.range 16).filter (fun n => rdF x n != 0 && u.cancelled.contains (c, rdF x n))) < 2 ^ 16 :=
    maskOf_lt _ _ fun n hn => List.mem_range.1 (List.mem_filter.1 hn).1
  refine ⟨?_, bit_eq_of_div ?_, bit_eq_of_div ?_, bit_eq_of_div ?_, bit_eq_of_div ?_⟩
  all_goals
    simp only [bits, stopEntry]
    omega

theorem RecordWords.stops (h : RecordWords s u c cr l r) {g : Nat} (hg : g < 32) {x : Gang} (hx : Tab.find? cr.gangs g = some x) :
    wordAt r (40 + g) = stopEntry u c l.code x % 2 ^ 64 := by
  rw [h (40 + g) (by omega), recordOf_stop u _ _ c cr l (40 + g) g rfl hg, hx, Option.map_some, Option.getD_some]

theorem RecordWords.absent (h : RecordWords s u c cr l r) {g : Nat} (hg : g < 32) (hx : Tab.find? cr.gangs g = none) :
    wordAt r (40 + g) = 0 := by
  rw [h (40 + g) (by omega), recordOf_stop u _ _ c cr l (40 + g) g rfl hg, hx]
  rfl

theorem RecordWords.codes (h : RecordWords s u c cr l r) (fits : Fits (throwsOf s u)) (hl : u.level < 4) (hd : u.depth < 16)
    {ts : List Thrown} (ht : throwsFresh s u ts) : ∃ cs : List Thrown, cs.Sublist ts ∧ cs.length ≤ 24 ∧ (cs.map (fun t => t.code)).Nodup
    ∧ (∀ t ∈ cs, ts.find? (fun o => o.code == t.code) = some t) ∧ bits (wordAt r 2) 39 32 = cs.length
    ∧ (∀ j, j < 24 → wordAt r (72 + j) = ((cs[j]?).map codeEntry).getD 0)
    ∧ ∀ t ∈ ts, t.code ∈ cs.map (fun t => t.code) ∨ bit (wordAt r 1) 24 = true := by
  obtain ⟨hk, rfl⟩ := ht
  obtain ⟨-, -, -, flag, -⟩ := h.word1_fields fits hl hd
  obtain ⟨cs, lists⟩ := codeList_lists fits
  rw [← recordCodes_fresh hk] at lists
  refine ⟨cs, lists.among, lists.room, lists.once, lists.first, ?_, fun j hj => ?_, flag ▸ lists.all⟩
  · have room := lists.room
    rw [h.word2_fresh hk, lists.entries, List.length_map]
    simp only [bits]
    omega
  · rw [h (72 + j) (by omega), recordOf_code u _ _ c cr l (72 + j) j rfl, headerOf_codes, lists.entries, List.getElem?_map]
    cases hc : cs[j]? with
    | none => rfl
    | some t =>
      rw [Option.map_some, Option.getD_some]
      exact Nat.mod_eq_of_lt (codeEntry_lt fits (lists.among.subset (List.mem_of_getElem? hc)))

theorem RecordWords.says (h : RecordWords s u c cr l r) (hl : u.level < 4) (hd : u.depth < 16) (hm : gangMask s u < 2 ^ 32)
    (fits : Fits (throwsOf s u)) : RecordSays s u c cr l r where
  primary _ _ ht := h.primary fits hl hd ht
  supervisor _ _ ht := h.supervisor fits hm ht
  rethrown _ hk := h.rethrown fits hl hd hm hk
  region :=
    have fields := h.word1_fields fits hl hd
    ⟨fields.2.1, fields.2.2.1⟩
  counts _ ht := h.counts fits hl hd ht
  stamps := h.stamps fits hm
  lanes _ _ hg hn := h.lanes hg hn
  stops _ x hg hx := h.stops hg hx ▸ stopEntry_fields u c l.code x
  absent _ hg hx := h.absent hg hx
  codes _ ht := h.codes fits hl hd ht

end Sys2Proof.Machine
end

section
/-!
# Unwinds, pre-emption, placement and the end of crews (O55)

What each event comes to where its guards hold, and where they do not.
-/

namespace Sys2Proof.Machine
variable {s s₁ s₂ t : State} {k c core launch count : Nat} {u w : Unwind} {cr : Crew} {l : Launch}

/-! ### UNWIND_COMPLETE -/

theorem execUnwindComplete_releases {fs : List (GRef × (Nat × Nat × Nat))} (hu : Tab.find? s.unwinds k = some u) (closed : u.closed = true)
    (here : crewsHere s u = true) (cancelled : cancelWork s k u = (s₁, true)) (hw : Tab.find? s₁.unwinds k = some w)
    (released : releaseMembers s₁ w (membersOf s₁ w) = some (s₂, fs)) :
    execUnwindComplete k s = .next (throwEach (stopSteered (unwound s₂ k w)) fs) := by
  simp only [execUnwindComplete, hu, closed, here, Bool.not_true, Bool.or_self, Bool.false_eq_true, if_false, cancelled, hw, released]

theorem execUnwindComplete_waits (hu : Tab.find? s.unwinds k = some u) (closed : u.closed = true) (here : crewsHere s u = true)
    (cancelled : cancelWork s k u = (s₁, false)) : execUnwindComplete k s = .next s₁ := by
  simp only [execUnwindComplete, hu, closed, here, Bool.not_true, Bool.or_self, Bool.false_eq_true, if_false, cancelled]
  cases Tab.find? s₁.unwinds k with
  | none => rfl
  | some w => rfl

theorem execUnwindComplete_early (hu : Tab.find? s.unwinds k = some u) (h : u.closed = false ∨ crewsHere s u = false) :
    execUnwindComplete k s = .next s := by
  have early : (!u.closed || !crewsHere s u) = true := by
    rcases h with h | h
    · rw [h]; rfl
    · rw [h]; exact Bool.or_true _
  simp only [execUnwindComplete, hu, early, if_true]

/-! ### SPAN_LAUNCH_UNWIND -/

theorem execSpanLaunchUnwind_begins (hl : launch? s launch = some l) (span : l.span ≠ none)
    (none : s.unwinds.filter (fun p => !p.2.closed && spanWide s p.2 && p.2.launch == launch) = []) :
    execSpanLaunchUnwind launch s = .next (beginUnwind { s with fresh := s.fresh + 4097 }
      { level := if l.stack.isEmpty then 3 else 2, crew := 0, gang := 0, launch := launch, catchPc := l.stack.getLast?.getD 0
        depth := l.stack.length, throws := [], cycle := s.cycle.toNat, svcodes := [], kept := .none, stops := [], cancelled := []
        closed := false, remote := remoteThrows s 1, heard := true, steered := [] }) := by
  have spans : l.span.isNone = false := Option.isNone_eq_false_iff.2 (Option.isSome_iff_ne_none.2 span)
  simp only [execSpanLaunchUnwind, hl, spans, Bool.false_eq_true, if_false, none, List.head?_nil]

theorem execSpanLaunchUnwind_joins {us : List (Nat × Unwind)} (hl : launch? s launch = some l) (span : l.span ≠ none)
    (begun : s.unwinds.filter (fun p => !p.2.closed && spanWide s p.2 && p.2.launch == launch) = (k, u) :: us) :
    execSpanLaunchUnwind launch s = .next (if u.heard then s
      else { s with fresh := s.fresh + 4097
                    unwinds := Tab.put s.unwinds k { u with heard := true, remote := u.remote ++ remoteThrows s 0 } }) := by
  have spans : l.span.isNone = false := Option.isNone_eq_false_iff.2 (Option.isSome_iff_ne_none.2 span)
  simp only [execSpanLaunchUnwind, hl, spans, Bool.false_eq_true, if_false, begun, List.head?_cons]

/-! ### CREW_SAVE, CREW_RESUME and CREW_END -/

theorem execCrewSave_saves (hc : crew? s c = some cr) (halting : cr.halting = true) (resident : cr.phase = .resident)
    (settled : settleUnwinds s c = (s₁, true)) (savable : crewSavable s₁ c = true)
    (copies : (crewCores ((crewCores s₁ c).foldl (fun s k => finishCopies s c k) s₁) c).all
      (copiesSavable ((crewCores s₁ c).foldl (fun s k => finishCopies s c k) s₁) c) = true)
    (drained : drainCrew ((crewCores s₁ c).foldl (fun s k => finishCopies s c k) s₁) c (cr.gangs.map (fun p => p.1)) = some t) :
    execCrewSave c s = .next (crewSaved t c cr) := by
  have halted : (cr.halting && cr.phase == .resident) = true := by rw [halting, resident]; rfl
  simp only [execCrewSave, hc, halted, settled, savable, copies, drained, Bool.not_true, Bool.or_self, Bool.false_eq_true, if_false]

theorem resumeAt_of_seats {ss : List Seat} (hc : crew? s c = some cr) (hl : launch? s cr.launch = some l) (saved : cr.phase = .saved)
    (room : queueRoom s core 0 cr = true) (room' : l.pair = true → queueRoom s (core + 1) 1 cr = true)
    (seated : seats s false l.nreg core l (some (cr.banks0, cr.banks1)) = some (count, ss)) :
    resumeAt s false l.nreg c core = some (crewResumed s c core cr l count ss) := by
  have partner : (l.pair && !queueRoom s (core + 1) 1 cr) = false := by
    cases hp : l.pair with
    | false => rfl
    | true => rw [room' hp]; rfl
  simp only [resumeAt, hc, hl, saved, room, partner, seated, ne_eq, not_true, decide_false, Bool.not_true, Bool.or_self, Bool.false_eq_true,
    if_false, Option.map_some]

theorem execCrewResume_of_launch (hl : launchOf? s (.user c 0) = some l) :
    execCrewResume c core s = .next ((if l.coop then resumeAll s l c core else resumeAt s false l.nreg c core).getD s) := by
  simp only [execCrewResume, hl]

theorem execCrewEnd_ends (hc : crew? s c = some cr) (ended : crewOver s c cr = true)
    (drained : drainCrew s c (cr.gangs.map (fun p => p.1)) = some t) (none : onSysWay t c = false) :
    execCrewEnd c s = .next (crewGone t c cr) := by
  simp only [execCrewEnd, hc, ended, drained, none, Bool.not_true, Bool.false_eq_true, if_false]

/-! ### The obligation -/

/-- Settles O55: an event's meaning has the branch that its guards select, and the area that an unwind writes holds R340's words. -/
theorem crewEvents : Obligations.CrewEvents := by
  unfold Obligations.CrewEvents
  intro s s₁ s₂ t k c core ctx grp launch count u w cr l g ss fs placed own begun
  refine ⟨execUnwindComplete_releases, ?record, execUnwindComplete_waits, execUnwindComplete_early, execSpanLaunchUnwind_begins,
    fun us => execSpanLaunchUnwind_joins, exec_candidatePromote g grp s, exec_svyieldTimeout core s, exec_preemptRequest ctx s,
    execCrewSave_saves, ?seated, ?together, ?unseated, ?placed, ?unplaced, execCrewEnd_ends⟩
  case record =>
    intro member once hc hl level depth mask fits
    obtain ⟨y, hy, words⟩ := recordArea s k u c cr l member once hc hl
    exact ⟨y, hy, RecordWords.says words level depth mask fits⟩
  case seated =>
    intro hc hl hl' alone saved room room' seated
    rw [exec_crewResume, execCrewResume_of_launch hl', alone, resumeAt_of_seats hc hl saved room room' seated]
    rfl
  case together =>
    intro hl coop all
    rw [exec_crewResume, execCrewResume_of_launch hl, coop, if_pos rfl, all]
    rfl
  case unseated =>
    intro hl none
    rw [exec_crewResume, execCrewResume_of_launch hl, none]
    rfl
  case placed =>
    intro h
    rw [exec_crewPlace]
    exact congrArg (fun o => (.next (o.getD s) : Out)) h
  case unplaced =>
    intro h
    rw [exec_crewPlace]
    exact congrArg (fun o => (.next (o.getD s) : Out)) h

end Sys2Proof.Machine
end

section
/-!
# Which region catches a throw (O45)

The level that catches a throw, one equation for each place R55 looks: the regions of the gang, the one entered most recently, and those the crew
and the launch hold open.
-/

namespace Sys2Proof.Machine
variable {x : Gang} {cr : Crew} {l : Launch} {bs : List Bool}

/-- The level of a throw that neither a gang region nor a crew region catches (R55): the launch's, where it holds one open. -/
def launchLevel (l : Launch) : Nat := if l.stack = [] then 3 else 2

/-- The level of a throw that passes over the regions of its gang (R55): the crew's, where it holds one open, else the launch's. -/
def crewLevel (cr : Crew) (l : Launch) : Nat := if cr.stack = [] then launchLevel l else 1

/-- Was the innermost region of a gang opened at its present depths (R55)? -/
def ownRegion (x : Gang) : Prop := ∃ e es, x.stack = e :: es ∧ e.cd = crewDepth x ∧ e.ld = launchDepth x

theorem catchLevel_of_half (h : cr.half ≠ []) : catchLevel x cr l = crewLevel cr l := by
  have waits : cr.half.isEmpty = false := List.isEmpty_eq_false_iff.2 h
  simp only [catchLevel, waits, Bool.not_false, if_true, crewLevel, launchLevel, List.isEmpty_iff]

theorem catchLevel_of_ownRegion (h : cr.half = []) (own : ownRegion x) : catchLevel x cr l = 0 := by
  obtain ⟨e, es, hst, hcd, hld⟩ := own
  simp only [catchLevel, h, hst, hcd, hld, List.isEmpty_nil, Bool.not_true, Bool.false_eq_true, if_false, beq_self_eq_true, Bool.and_self,
    if_true]

/-- Without a region of its own, the regions of a gang do not matter to its throws. -/
theorem catchLevel_of_not_ownRegion (outer : ¬ownRegion x) : catchLevel x cr l = catchLevel { x with stack := [] } cr l := by
  cases hst : x.stack with
  | nil => simp only [catchLevel, hst]
  | cons e es =>
    have passes : (e.cd == crewDepth x && e.ld == launchDepth x) = false := by
      rw [← Bool.not_eq_true, Bool.and_eq_true, beq_iff_eq, beq_iff_eq]
      exact fun same => outer ⟨e, es, hst, same⟩
    simp only [catchLevel, hst, passes]

/-- A throw that passes over the gang's regions goes by the region the gang entered last. -/
theorem catchLevel_of_entered {crew : Bool} (h : cr.half = []) (he : x.entered = crew :: bs) :
    catchLevel { x with stack := [] } cr l = if crew then 1 else launchLevel l := by
  cases crew <;> simp [catchLevel, h, he, launchLevel]

theorem catchLevel_of_entered_nil (h : cr.half = []) (he : x.entered = []) :
    catchLevel { x with stack := [] } cr l = crewLevel cr l := by
  simp [catchLevel, h, he, crewLevel, launchLevel]

/-- Settles O45: a waiting half-pair passes over the gang (`catchLevel_of_half`); otherwise the gang's own region catches, or the region entered
last decides. -/
theorem catchLevels : Obligations.CatchLevels := by
  unfold Obligations.CatchLevels
  intro x cr l launch
  refine ⟨fun half => ⟨fun hcr => ?crewHalf, fun hcr => ?launchHalf⟩, fun whole e es hst hcd hld => ?own, fun whole outer => ?outer⟩
  case crewHalf => rw [catchLevel_of_half half, crewLevel, if_neg hcr]
  case launchHalf => rw [catchLevel_of_half half, crewLevel, if_pos hcr]; rfl
  case own => exact catchLevel_of_ownRegion whole ⟨e, es, hst, hcd, hld⟩
  case outer =>
    have passes : ¬ownRegion x := fun ⟨e, es, hst, hcd, hld⟩ => (outer e es hst).elim (· hcd) (· hld)
    rw [catchLevel_of_not_ownRegion passes]
    exact ⟨fun _ he => catchLevel_of_entered whole he, fun _ he => catchLevel_of_entered whole he,
      fun he hcr => (catchLevel_of_entered_nil whole he).trans (if_neg hcr),
      fun he hcr => (catchLevel_of_entered_nil whole he).trans (if_pos hcr)⟩

end Sys2Proof.Machine
end

section
/-!
# The try forms and EXIT (O25)

The branches of the meanings in `Control.lean`, each once: a try form goes on at its catch address or fails in every active lane, ENDTRY leaves the
innermost region or traps, and EXIT ends a group or its gang.
-/

namespace Sys2Proof.Machine
variable {i : Instr} {s eff : State} {is : Iss} {m : State → Iss → Res} {c : Cause} {why : Stall} {stack : List Nat} {d a b code : Nat}

theorem traps_of (hi : exec i s = issue i s m) (hm : m s is = .trap eff c) : Traps i s is eff c := comes_to m _ hi hm

theorem waits_of (hi : exec i s = issue i s m) (hm : m s is = .wait eff why) : Waits i s is eff why := comes_to m _ hi hm

/-- An instruction throws a code in every active lane, and does nothing where no lane is active. -/
def Fails (i : Instr) (s : State) (is : Iss) (code : Nat) : Prop :=
  (everyActive is code ≠ [] → Throws i s is s (everyActive is code)) ∧ (everyActive is code = [] → Answers i s is s)

theorem fails_of (run : mayRun s is i = true → exec i s = conclude is i (throwAllOrNop s is code)) : Fails i s is code :=
  ⟨fun h hr => (run hr).trans (congrArg (conclude is i) (throwAllOrNop_of_ne_nil h)),
    fun h hr => (run hr).trans (congrArg (conclude is i) (throwAllOrNop_of_nil h))⟩

/-! ### Entering a region of the crew or the launch (R50) -/

theorem enterRegion_full (h : 4 ≤ d) : enterRegion stack d a = .error 0x8004 := if_pos h

theorem enterRegion_mismatch (h : d < 4) (hb : stack[d]? = some b) (hne : b ≠ a) : enterRegion stack d a = .error 0x8006 := by
  simp only [enterRegion, if_neg (Nat.not_le.2 h), hb, if_neg hne]

/-- An instruction that fails with the code for which a region is not entered: of a fifth region, or of another catch address. -/
theorem fails_of_enterRegion (h : ∀ code, enterRegion stack d a = .error code → Fails i s is code) :
    (4 ≤ d → Fails i s is 0x8004) ∧ ∀ b, d < 4 → stack[d]? = some b → b ≠ a → Fails i s is 0x8006 :=
  ⟨fun hd => h _ (enterRegion_full hd), fun _ hd hb hne => h _ (enterRegion_mismatch hd hb hne)⟩

theorem tryGang_goes {off : W32} : GoesTo (.tryGang off) s is (catchOf is off) (fun s' =>
    (is.gang.stack.length < 8 → Answers (.tryGang off) s is
      (modGang s' is.ref (fun g => { g with stack := ⟨catchOf is off, crewDepth g, launchDepth g⟩ :: g.stack })))
    ∧ (8 ≤ is.gang.stack.length → Fails (.tryGang off) s is 0x8004)) := by
  refine goesTo_of _ s is _ _ _ _ (exec_tryGang off s) rfl fun s' _ run => ⟨fun room hr => ?opened, fun full => fails_of fun hr => ?full⟩
  case opened => exact (run hr).trans (congrArg (conclude is _) (if_neg (Nat.not_le.2 room)))
  case full => exact (run hr).trans (congrArg (conclude is _) (if_pos full))

theorem tryCrew_goes {off : W32} {c : Nat} (hc : crewIdOf is.ref = some c) : GoesTo (.tryCrew off) s is (catchOf is off) (fun s' =>
    ∀ cr, crewOf? s' is.ref = some cr →
      (∀ st, enterRegion cr.stack (crewDepth is.gang) (catchOf is off) = .ok st → Answers (.tryCrew off) s is
        (modGang (modCrew s' c (fun cr => { cr with stack := st })) is.ref (fun g => { g with entered := true :: g.entered })))
      ∧ ∀ code, enterRegion cr.stack (crewDepth is.gang) (catchOf is off) = .error code → Fails (.tryCrew off) s is code) := by
  refine goesTo_of _ s is _ _ _ _ (exec_tryCrew off s) rfl fun s' _ run cr hcr =>
    ⟨fun st entered hr => (run hr).trans ?_, fun code refused => fails_of fun hr => (run hr).trans ?_⟩
  · simp only [hc, hcr, entered]
    rfl
  · simp only [hc, hcr, refused]

theorem tryLaunch_goes {off : W32} : GoesTo (.tryLaunch off) s is (catchOf is off) (fun s' =>
    ∀ cr ln, crewOf? s' is.ref = some cr → launchOf? s' is.ref = some ln →
      (∀ st, enterRegion ln.stack (launchDepth is.gang) (catchOf is off) = .ok st → Answers (.tryLaunch off) s is
        (modGang (modLaunch s' cr.launch (fun l => { l with stack := st })) is.ref (fun g => { g with entered := false :: g.entered })))
      ∧ ∀ code, enterRegion ln.stack (launchDepth is.gang) (catchOf is off) = .error code → Fails (.tryLaunch off) s is code) := by
  refine goesTo_of _ s is _ _ _ _ (exec_tryLaunch off s) rfl fun s' _ run cr ln hcr hln =>
    ⟨fun st entered hr => (run hr).trans ?_, fun code refused => fails_of fun hr => (run hr).trans ?_⟩
  · simp only [hcr, hln, entered]
    rfl
  · simp only [hcr, hln, refused]

/-! ### Leaving a region, and the end of a group (R51, R146) -/

theorem endtryOuter_matches {level : Nat} (h : innermost is.gang = some level) : endtryOuter s is level
    = .done (closeRegions (modGang s is.ref (fun g => { g with entered := g.entered.drop 1 })) is.ref) := if_pos h

theorem endtryOuter_mismatch {level : Nat} (h : innermost is.gang ≠ some level) : endtryOuter s is level = .trap s .tryMismatch :=
  if_neg h

theorem lastExit_of_closed {u : State} (h : bodyEnd s is.ref = (u, [], true)) :
    lastExit s is = .stay (endGang (groupEnded u is) is.ref is.q.pc) := by
  simp only [lastExit, h]

theorem lastExit_of_open {u : State} {ts : List (Nat × Nat × Nat)} (h : bodyEnd s is.ref = (u, ts, false)) :
    lastExit s is = .wait (throwMany u is.ref ts) .sync := by
  cases ts <;> simp only [lastExit, h]

/-- Settles O25: a try form answers by the header at its catch address and by `enterRegion`, and EXIT by what its group is to the gang. -/
theorem regionFormsAnswer : Obligations.RegionFormsAnswer := by
  unfold Obligations.RegionFormsAnswer
  intro s is off c n a fails full leave
  refine ⟨tryGang_goes, fun hu => ?tryCrew, ?tryLaunch, fun h => ?ownRegion, fun h => ?noOwnRegion, fun h => ?crewRegion, fun h => ?noCrewRegion,
    fun h => ?launchRegion, fun h => ?noLaunchRegion, fun hs => ?supervisor, fun u hu last closed => ?gangEnds, fun u ts hu last opened => ?bodyOpen,
    fun hu others => ?groupEnds⟩
  case tryCrew =>
    have goes := tryCrew_goes (s := s) (is := is) (off := off) (congrArg crewIdOf hu)
    exact ⟨fun s' hs cr hcr => (goes.1 s' hs cr hcr).imp_right fails_of_enterRegion, goes.2⟩
  case tryLaunch =>
    have goes := tryLaunch_goes (s := s) (is := is) (off := off)
    exact ⟨fun s' hs cr ln hcr hln => (goes.1 s' hs cr ln hcr hln).imp_right fails_of_enterRegion, goes.2⟩
  case ownRegion => exact answers_of _ s is _ _ (exec_endtryGang s) (if_pos h)
  case noOwnRegion => exact traps_of (exec_endtryGang s) (if_neg h)
  case crewRegion => exact answers_of _ s is _ _ (exec_endtryCrew s) (endtryOuter_matches h)
  case noCrewRegion => exact traps_of (exec_endtryCrew s) (endtryOuter_mismatch h)
  case launchRegion => exact answers_of _ s is _ _ (exec_endtryLaunch s) (endtryOuter_matches h)
  case noLaunchRegion => exact traps_of (exec_endtryLaunch s) (endtryOuter_mismatch h)
  case supervisor =>
    refine answers_of _ s is _ _ (exec_exit s) ?_
    simp only [hs]
  case gangEnds =>
    refine settles_of (exec_exit s) (.trans ?_ (lastExit_of_closed closed))
    simp only [hu, if_pos last]
  case bodyOpen =>
    refine waits_of (exec_exit s) (.trans ?_ (lastExit_of_open opened))
    simp only [hu, if_pos last]
  case groupEnds =>
    refine settles_of (exec_exit s) ?_
    simp only [hu, if_neg (Nat.not_le.2 others)]

end Sys2Proof.Machine
end

section
/-!
# Futures (O38)

What FWAIT, FTEST and FCANCEL come to by the operation that the token of the future register names, and where FEXPORT and FIMPORT find their word
in the scratchpad (R294 to R297).
-/

namespace Sys2Proof.Machine
variable {s : State} {is : Iss} {f k c n o tok : Nat} {st : Option Nat} {cr : Crew} {e : OpEnt} {off : Opd} {w : Bool}

/-- A faulted operation is resolved. -/
theorem opResolved_of_faulted (he : opOf cr tok = some e) (hf : e.st = .faulted) : opResolved cr tok = true := by
  simp only [opResolved, he, hf]
  rfl

theorem fwait_waits (hu : is.ref = .user c n) (hcr : crewOf? s is.ref = some cr) (h : opResolved cr (rdF is.gang f) = false) :
    Waits (.fwait f st) s is s .sync := by
  refine waits_of (exec_fwait f st s) ?_
  rw [hu] at hcr
  simp only [hu, hcr, h, Bool.not_false, if_true]

theorem fwait_answers (hu : is.ref = .user c n) (hcr : crewOf? s is.ref = some cr) (resolved : opResolved cr (rdF is.gang f) = true)
    (quiet : ∀ e, opOf cr (rdF is.gang f) = some e → (e.st == .faulted && !e.reported && !(activeLanes is.gang is.q).isEmpty) = false) :
    Answers (.fwait f st) s is (writeStatus (acquire s is.ref .dev) is st (statusOf cr (rdF is.gang f))) := by
  refine answers_of _ s is _ _ (exec_fwait f st s) ?_
  rw [hu] at hcr
  cases he : opOf cr (rdF is.gang f) with
  | none => simp only [hu, hcr, resolved, he, Bool.not_true, Bool.false_eq_true, if_false]
  | some e => simp only [hu, hcr, resolved, he, quiet e he, Bool.not_true, Bool.false_eq_true, if_false]

theorem fwait_throws (hu : is.ref = .user c n) (hcr : crewOf? s is.ref = some cr) (he : opOf cr (rdF is.gang f) = some e)
    (faulted : e.st = .faulted) (unreported : e.reported = false) (active : activeLanes is.gang is.q ≠ []) :
    Throws (.fwait f st) s is
      (modCrew s c (fun cr => { cr with ops := Tab.put cr.ops (rdF is.gang f % 1024) { e with reported := true } }))
      (everyActive is (bits e.word.toNat 31 16)) := by
  refine throws_of (exec_fwait f st s) ?_
  rw [hu] at hcr
  have loud : (e.st == .faulted && !e.reported && !(activeLanes is.gang is.q).isEmpty) = true := by
    rw [faulted, unreported, List.isEmpty_eq_false_iff.2 active]
    rfl
  simp only [hu, hcr, opResolved_of_faulted he faulted, he, loud, Bool.not_true, Bool.false_eq_true, if_false, if_true]
  rfl

theorem fimport_answers (here : chkScr s is.ref (sext (rdU s is off) 64) 4 = .ok (.scr o) w) (free : placeFree is.gang (.scr o) 4 = true)
    (good : (loadBytes s is.ref is.gang.seq .crew (.scr o) 4).2.2 = false) :
    Answers (.fimport f off) s is (modGang (loadBytes s is.ref is.gang.seq .crew (.scr o) 4).1 is.ref (fun y =>
      wrF (nextSeq y) f (leNat (loadBytes s is.ref is.gang.seq .crew (.scr o) 4).2.1))) := by
  refine answers_of _ s is _ _ (exec_fimport f off s) ?_
  simp only [here, free, good, Bool.not_true, Bool.false_eq_true, if_false]

/-- Settles O38: the operation that the future names decides FWAIT, and a scratchpad check that passes decides FEXPORT and FIMPORT. -/
theorem futureFormsAnswer : Obligations.FutureFormsAnswer := by
  unfold Obligations.FutureFormsAnswer
  intro s is f k c n st cr e off o w hu hcr tok quiet here r
  refine ⟨fwait_waits hu hcr, fwait_answers hu hcr, fwait_throws hu hcr, ?ftest, ?fcancel, fun hp => ?fexport, fimport_answers⟩
  case ftest =>
    refine answers_of _ s is _ _ (exec_ftest f k st s) ?_
    simp only [hcr]
    rfl
  case fcancel =>
    refine answers_of _ s is _ _ (exec_fcancel f s) ?_
    simp only [hu]
    rfl
  case fexport =>
    have stored : chkScr s is.ref (sext (rdU s is off) 64) 4 = .ok (.scr o) w := hp
    refine answers_of _ s is _ _ (exec_fexport f off s) ?_
    simp only [stored]

end Sys2Proof.Machine
end

section
/-!
# A throw begins an unwind of the group that catches it (O44)

Stopping a gang abandons what it waits for: each of these steps changes that gang only, does not end it, and leaves memory and the unwinds
(`AbandonsOnly`). So the members of the group are stopped one by one, and every other gang stays.
-/

namespace Sys2Proof.Machine
variable {s t v : State} {g h : GRef} {gs : List GRef} {k : Nat} {u : Unwind} {x y : Gang} {f : Flight} {p : Gang → Gang}

/-- What abandoning the work of a gang leaves: memory, the unwinds and every other gang, and whether the gang has ended. -/
structure AbandonsOnly (s t : State) (g : GRef) : Prop where
  mem : t.mem = s.mem
  unwinds : t.unwinds = s.unwinds
  others : ∀ h, h ≠ g → gang? t h = gang? s h
  ended : (gang? t g).map Gang.ended = (gang? s g).map Gang.ended

namespace AbandonsOnly

theorem refl : AbandonsOnly s s g := ⟨rfl, rfl, fun _ _ => rfl, rfl⟩

theorem trans (a : AbandonsOnly s t g) (b : AbandonsOnly t v g) : AbandonsOnly s v g :=
  ⟨b.mem.trans a.mem, b.unwinds.trans a.unwinds, fun h hne => (b.others h hne).trans (a.others h hne), b.ended.trans a.ended⟩

theorem foldl {α : Type} {xs : List α} {step : State → α → State} (hstep : ∀ t x, AbandonsOnly t (step t x) g) :
    AbandonsOnly s (xs.foldl step s) g :=
  List.foldlRecOn (motive := fun t => AbandonsOnly s t g) xs step refl fun _ ht _ _ => ht.trans (hstep _ _)

theorem of_gangs (hm : t.mem = s.mem) (hu : t.unwinds = s.unwinds) (hg : ∀ h, gang? t h = gang? s h) : AbandonsOnly s t g :=
  ⟨hm, hu, fun h _ => hg h, congrArg _ (hg g)⟩

theorem modCore {c : Nat} {q : Core → Core} (hq : ∀ x, (q x).sup = x.sup) : AbandonsOnly s (modCore s c q) g :=
  .of_gangs rfl rfl fun h => gang?_modCore s c q h hq

theorem modGang (hp : ∀ x, (p x).ended = x.ended) : AbandonsOnly s (modGang s g p) g where
  mem := modGang_mem s g p
  unwinds := modGang_unwinds s g p
  others h hne := gang?_modGang_ne s g h p hne
  ended := by
    rw [gang?_modGang_same, Option.map_map]
    exact congrArg (fun q => Option.map q (gang? s g)) (funext hp)

end AbandonsOnly

theorem lowerPath_ended {n op : Nat} : (lowerPath x n op).ended = x.ended := rfl

theorem abandonsOnly_abandonRequest : AbandonsOnly s (abandonRequest s g) g := by
  unfold abandonRequest
  split
  · exact .refl
  · dsimp only
    split
    · refine .trans (.modCore ?_) (.modGang ?_)
      · exact fun _ => rfl
      · exact fun _ => rfl
    · exact .modCore fun _ => rfl

theorem abandonsOnly_freeDst {l : Nat} : AbandonsOnly s (freeDst g f s l) g := by
  have fresh : AbandonsOnly s (freshen s) g := .of_gangs rfl rfl fun h => by cases h <;> rfl
  refine fresh.trans (.modGang fun x => ?_)
  cases f.dst <;> cases f.rp <;> simp only [wrVw_ended, wrP_ended]

theorem abandonsOnly_abandonFlight : AbandonsOnly s (abandonFlight g s f) g := by
  unfold abandonFlight
  refine .trans (t := if f.storing then s else _) ?freed (.modGang fun x => ?removed)
  case freed =>
    split
    · exact .refl
    · exact .foldl fun _ _ => abandonsOnly_freeDst
  case removed =>
    dsimp only
    split
    · exact lowerPath_ended.trans lowerPath_ended
    · rfl

theorem abandonsOnly_abandonLoads : AbandonsOnly s (abandonLoads s g) g := by
  unfold abandonLoads
  split
  · exact .refl
  · next x _ =>
    have flights : AbandonsOnly s ((x.flights.filter waitsOnPage).foldl (abandonFlight g) s) g :=
      .foldl fun _ _ => abandonsOnly_abandonFlight
    exact flights.trans (.of_gangs rfl rfl fun h => by cases h <;> rfl)

/-- Stopping a gang changes no other gang, and neither ends it nor brings it back. -/
theorem abandonsOnly_stopGang : AbandonsOnly s (stopGang k s g) g := by
  unfold stopGang
  split
  · exact .refl
  · split
    · exact .refl
    · exact (abandonsOnly_abandonRequest.trans abandonsOnly_abandonLoads).trans (.modGang fun _ => rfl)

/-! ### Stopping the members of a group -/

/-- Every unwind of a state has its merge window open. -/
def AllOpen (s : State) : Prop := ∀ j w, Tab.find? s.unwinds j = some w → w.closed = false

theorem inClosed_of_allOpen (open_ : AllOpen s) : inClosed s x = false := by
  unfold inClosed
  cases hw : x.stopped.bind (Tab.find? s.unwinds) with
  | none => rfl
  | some w =>
    obtain ⟨j, -, hj⟩ := Option.bind_eq_some_iff.1 hw
    exact open_ j w hj

/-- A gang that has not ended and is in no closed unwind is stopped, and lives on. -/
theorem stopGang_stops (hx : gang? s g = some x) (live : x.ended = none) (open_ : inClosed s x = false) :
    ∃ y, gang? (stopGang k s g) g = some y ∧ y.ended = none ∧ y.stopped = some k := by
  have abandoned : AbandonsOnly s (abandonLoads (abandonRequest s g) g) g := abandonsOnly_abandonRequest.trans abandonsOnly_abandonLoads
  have still : (gang? (abandonLoads (abandonRequest s g) g) g).map Gang.ended = some none := by
    rw [abandoned.ended, hx, Option.map_some, live]
  obtain ⟨y, hy, ended⟩ := Option.map_eq_some_iff.1 still
  have goes : (x.ended.isSome || inClosed s x) = false := by rw [live, open_]; rfl
  refine ⟨{ y with stopped := some k, trapped := x.trapped }, ?_, ended, rfl⟩
  simp only [stopGang, hx, goes, Bool.false_eq_true, if_false, gang?_modGang_same, hy, Option.map_some]

theorem stopAll_frame : (gs.foldl (stopGang k) s).mem = s.mem ∧ (gs.foldl (stopGang k) s).unwinds = s.unwinds :=
  List.foldlRecOn (motive := fun t : State => t.mem = s.mem ∧ t.unwinds = s.unwinds) gs _ ⟨rfl, rfl⟩ fun _ ht _ _ =>
    ⟨abandonsOnly_stopGang.mem.trans ht.1, abandonsOnly_stopGang.unwinds.trans ht.2⟩

theorem stopAll_others (h : g ∉ gs) : gang? (gs.foldl (stopGang k) s) g = gang? s g := by
  refine List.foldlRecOn (motive := fun t => gang? t g = gang? s g) gs _ rfl fun _ ht a ha => ?_
  have hne : g ≠ a := fun e => h (e ▸ ha)
  exact (abandonsOnly_stopGang.others g hne).trans ht

/-- Every live gang listed is stopped, also where it is listed again later. -/
theorem stopAll_stops (open_ : AllOpen s) (hg : g ∈ gs) (hx : gang? s g = some x) (live : x.ended = none) :
    ∃ y, gang? (gs.foldl (stopGang k) s) g = some y ∧ y.ended = none ∧ y.stopped = some k := by
  induction gs generalizing s x with
  | nil => cases hg
  | cons a gs ih =>
    rw [List.foldl_cons]
    have still_open : AllOpen (stopGang k s a) := by
      unfold AllOpen
      rw [abandonsOnly_stopGang.unwinds]
      exact open_
    by_cases e : g = a
    · subst e
      obtain ⟨y, hy, ended, stopped⟩ := stopGang_stops (k := k) hx live (inClosed_of_allOpen open_)
      by_cases again : g ∈ gs
      · exact ih still_open again hy ended
      · exact ⟨y, (stopAll_others again).trans hy, ended, stopped⟩
    · have kept : gang? (stopGang k s a) g = some x := (abandonsOnly_stopGang.others g e).trans hx
      exact ih still_open ((List.mem_cons.1 hg).resolve_left e) kept live

/-! ### The unwind -/

/-- The state in which an unwind has been entered and its members have not been stopped yet. -/
def withUnwind (s : State) (u : Unwind) : State :=
  { s with unwinds := Tab.put s.unwinds s.nextUnwind u, nextUnwind := s.nextUnwind + 1 }

theorem gang?_withUnwind : gang? (withUnwind s u) g = gang? s g := by cases g <;> rfl

theorem allOpen_withUnwind (quiet : s.unwinds = []) (open_ : u.closed = false) : AllOpen (withUnwind s u) := by
  intro j w hw
  have only : Tab.find? [(s.nextUnwind, u)] j = some w := by
    rw [withUnwind, quiet] at hw
    exact hw
  rw [Tab.find?_cons] at only
  split at only
  · cases only
    exact open_
  · cases only

/-- With no unwind in progress, an unwind begins as the only one. -/
theorem beginUnwind_alone (quiet : s.unwinds = []) :
    beginUnwind s u = (membersOf s u).foldl (stopGang s.nextUnwind) (withUnwind s u) := by
  simp only [beginUnwind, quiet, List.filter_nil, withUnwind]
  rfl

/-- The unwind that the throws of a live user gang begin (R52, R55, R62). -/
def unwindOf (s : State) (c n pc : Nat) (ts : List (Nat × Nat)) (x : Gang) (cr : Crew) (l : Launch) : Unwind :=
  let region := catchEntry (catchLevel x cr l) x cr l
  { level := catchLevel x cr l, crew := c, gang := n, launch := cr.launch, catchPc := region.1, depth := region.2
    throws := ts.map (fun e => (c, n, e.1, e.2)), cycle := s.cycle.toNat, svcodes := [], kept := none, stops := [(c, n, pc)], cancelled := []
    closed := false, remote := [], heard := false, steered := [] }

theorem throwLanes_begins {c n pc : Nat} {e : Nat × Nat} {ts : List (Nat × Nat)} {cr : Crew} {l : Launch} (hx : gang? s (.user c n) = some x)
    (hc : crew? s c = some cr) (hl : launch? s cr.launch = some l) (live : x.ended = none) :
    throwLanes s (.user c n) pc (e :: ts) false none = beginUnwind s (unwindOf s c n pc (e :: ts) x cr l) := by
  have hcr : crewOf? s (.user c n) = some cr := hc
  have hln : launchOf? s (.user c n) = some l := by rw [launchOf?, hcr]; exact hl
  have goes : x.ended.isSome = false := by rw [live]; rfl
  simp only [throwLanes, hx, hcr, hln, goes, Bool.false_eq_true, if_false]
  rfl

/-- Settles O44: the throw enters the one unwind `unwindOf`, and the fold over its members stops the live ones and leaves all else. -/
theorem throwsBeginAnUnwind : Obligations.ThrowsBeginAnUnwind := by
  unfold Obligations.ThrowsBeginAnUnwind
  intro s c n pc l code ts x cr ln quiet hx hc hl live t
  let u := unwindOf s c n pc ((l, code) :: ts) x cr ln
  have ht : t = (membersOf s u).foldl (stopGang s.nextUnwind) (withUnwind s u) :=
    (throwLanes_begins hx hc hl live).trans (beginUnwind_alone quiet)
  obtain ⟨memory, unwinds⟩ := stopAll_frame (gs := membersOf s u) (k := s.nextUnwind) (s := withUnwind s u)
  rw [ht]
  refine ⟨u, ?only, rfl, rfl, rfl, rfl, rfl, rfl, fun g hg y hy alive => ?stopped, fun g hg => ?others, fun a => by rw [memory]; rfl⟩
  case only => rw [unwinds, withUnwind, quiet]; rfl
  case stopped =>
    obtain ⟨z, hz, -, stopped⟩ := stopAll_stops (k := s.nextUnwind) (allOpen_withUnwind (u := u) quiet rfl) hg (gang?_withUnwind.trans hy) alive
    rw [hz, Option.map_some, stopped]
  case others => exact (stopAll_others hg).trans gang?_withUnwind

end Sys2Proof.Machine
end

section
/-!
# Matrix commands (O36)

An engine command of a user gang with a lane selected goes on with its crew; then a check that fails throws, and with room in the queue, the
scratchpad stores released and an entry free the command is accepted (R280, R281, R288). The forms of MMA first agree on their format word
and pass the backlog (R76, R41).
-/

namespace Sys2Proof.Machine
variable {s u v : State} {is : Iss} {i : Instr} {m : State → Iss → Res} {g : Guard} {cr : Crew} {c n f tile tok : Nat} {e : Bool × Nat}
  {cs : List (Bool × Nat)} {kind : MxKind}

/-! ### The parts of a command -/

theorem command_of_selected {k : Nat → Nat → Crew → Res} (hu : is.ref = .user c n) (hcr : crewOf? s is.ref = some cr) (sel : selOf is g ≠ []) :
    command s is g f k = k c n cr := by
  rw [hu] at hcr
  simp only [command, hu, hcr, List.isEmpty_eq_false_iff.2 sel, Bool.false_eq_true, if_false]

theorem checked_of_passes {r : Res} (passes : cs.find? (fun e => e.1) = none) : checked s is cs r = r := by
  rw [checked, passes]

theorem checked_of_fails {r : Res} (fails : cs.find? (fun e => e.1) = some e) : checked s is cs r = .throw s (everyActive is e.2) := by
  rw [checked, fails]
  rfl

theorem afterRelease_of_released {k : State → Res} (released : releaseScr s is.ref = some (u, [])) :
    afterRelease is s (releaseScr s is.ref) k = k u := by
  rw [released]
  rfl

theorem withOp_of_entry {op : OpKind} {k : State → Nat → Res} (entry : newOp s c n op = some (v, tok)) :
    withOp s is c n f op k = k (modGang v is.ref (fun y => wrF y f tok)) tok := by
  rw [withOp, entry]

theorem acceptMatrix_accepts {trapspec paired : Bool} {k : State → Nat → State} (room : mxRoom s (coreOf s is.ref) = true)
    (released : releaseScr s is.ref = some (u, [])) (entry : newOp u c n .matrix = some (v, tok)) :
    acceptMatrix s is c n f tile kind trapspec paired k =
      .done (k (acceptMx (modGang v is.ref (fun y => wrF y f tok)) (coreOf s is.ref)
        (mxCommand (modGang v is.ref (fun y => wrF y f tok)) is c n tile kind trapspec paired tok)) tok) := by
  rw [acceptMatrix, if_pos room, afterRelease_of_released released, withOp_of_entry entry]

theorem throws_of_check {r : Res} (hi : exec i s = issue i s m) (hm : m s is = checked s is cs r)
    (fails : cs.find? (fun e => e.1) = some e) : Throws i s is s (everyActive is e.2) :=
  throws_of hi (hm.trans (checked_of_fails fails))

/-- The command of ACCZ, ACCDR, WDSET and MFENCE, which no backlog holds back (R41). -/
theorem answers_of_acceptMatrix (hi : exec i s = issue i s m)
    (hm : m s is = acceptMatrix s is c n f tile kind false false (fun t _ => t)) (room : mxRoom s (coreOf s is.ref) = true)
    (released : releaseScr s is.ref = some (u, [])) (entry : newOp u c n .matrix = some (v, tok)) :
    Answers i s is (acceptMx (modGang v is.ref (fun y => wrF y f tok)) (coreOf s is.ref)
      (mxCommand (modGang v is.ref (fun y => wrF y f tok)) is c n tile kind false false tok)) :=
  answers_of i s is _ m hi (hm.trans (acceptMatrix_accepts room released entry))

/-! ### The forms of MMA -/

section
variable {x : MmaArgs} {fw : W32} {extra : Crew → W32 → MxKind → List (Bool × Nat)} {mk : Nat → Nat → W32 → MxKind} {paired : Crew → Bool}
  {k : Crew → MxKind → State → Nat → State} (hu : is.ref = .user c n) (hcr : crewOf? s is.ref = some cr) (sel : selOf is x.g ≠ [])
include hu hcr sel

theorem mmaOp_of_disagreement (differ : vote is x.fw = none) :
    mmaOp s is x extra mk paired k = .throw s (everyActive is 0x8005) := by
  simp only [mmaOp, command_of_selected hu hcr sel, differ]
  rfl

/-- With a format word agreed on, an MMA form is checked, waits for the backlog, and is accepted (R76, R41). -/
theorem mmaOp_of_vote (agree : vote is x.fw = some fw) (hkind : mk (rdE s is x.a) (rdE s is x.b) fw = kind)
    (hcs : mmaChecks s is x c cr fw kind (extra cr (widthNext s (coreOf s is.ref) c (sideOf s is.ref) x.tile) kind) = cs) :
    mmaOp s is x extra mk paired k =
      checked s is cs (if backlogged s (coreOf s is.ref) then .wait s .backlog
        else acceptMatrix s is c n x.f x.tile kind (cr.mxctl.getLsbD 0) (paired cr) (k cr kind)) := by
  subst hkind hcs
  simp only [mmaOp, command_of_selected hu hcr sel, agree]

/-- What an MMA form comes to once the lanes agree: the first check that fails throws, the backlog holds it back, or it is accepted. -/
theorem mma_outcomes (hi : exec i s = issue i s m) (hm : m s is = mmaOp s is x extra mk paired k) (agree : vote is x.fw = some fw)
    (hkind : mk (rdE s is x.a) (rdE s is x.b) fw = kind)
    (hcs : mmaChecks s is x c cr fw kind (extra cr (widthNext s (coreOf s is.ref) c (sideOf s is.ref) x.tile) kind) = cs) :
    (∀ e, cs.find? (fun e => e.1) = some e → Throws i s is s (everyActive is e.2))
    ∧ (cs.find? (fun e => e.1) = none → backlogged s (coreOf s is.ref) = true → Waits i s is s .backlog)
    ∧ (cs.find? (fun e => e.1) = none → backlogged s (coreOf s is.ref) = false → mxRoom s (coreOf s is.ref) = true →
      releaseScr s is.ref = some (u, []) → newOp u c n .matrix = some (v, tok) →
      Answers i s is (k cr kind (acceptMx (modGang v is.ref (fun y => wrF y x.f tok)) (coreOf s is.ref)
        (mxCommand (modGang v is.ref (fun y => wrF y x.f tok)) is c n x.tile kind (cr.mxctl.getLsbD 0) (paired cr) tok)) tok)) := by
  have meaning := hm.trans (mmaOp_of_vote hu hcr sel agree hkind hcs)
  refine ⟨fun e fails => throws_of_check hi meaning fails, fun passes busy => ?waits, fun passes clear room released entry => ?accepted⟩
  case waits => exact waits_of hi (by rw [meaning, checked_of_passes passes, if_pos busy])
  case accepted =>
    refine answers_of i s is _ m hi ?_
    rw [meaning, checked_of_passes passes, clear, if_neg Bool.false_ne_true, acceptMatrix_accepts room released entry]

end

/-- Settles O36: a command with a lane selected goes on with its checks and `acceptMatrix_accepts`; `mma_outcomes` adds the vote and the backlog. -/
theorem matrixCommandsAreAccepted : Obligations.MatrixCommandsAreAccepted := by
  unfold Obligations.MatrixCommandsAreAccepted
  intro s is x g f sm tile c n tok a tgt fw cr u v hu hcr plain mma ka kb
  refine ⟨fun sel => ⟨?accz, ?wdset, ?mfence, fun passes => ?accdr, fun e fails => ?accdrFails⟩, fun sel differ i hi => ?differ,
    fun sel agree => ⟨?mma, ?mmaSp, ?mmaP⟩⟩
  case accz => exact answers_of_acceptMatrix (exec_accz g f tile s) (command_of_selected hu hcr sel)
  case wdset => exact answers_of_acceptMatrix (exec_wdset g f a tile s) (command_of_selected hu hcr sel)
  case mfence => exact answers_of_acceptMatrix (exec_mfence g f s) (command_of_selected hu hcr sel)
  case accdr =>
    exact answers_of_acceptMatrix (exec_accdr g f a tgt tile s) ((command_of_selected hu hcr sel).trans (checked_of_passes passes))
  case accdrFails => exact throws_of_check (exec_accdr g f a tgt tile s) (command_of_selected hu hcr sel) fails
  case differ =>
    have throws : ∀ {extra mk paired k}, mmaOp s is x extra mk paired k = .throw s (everyActive is 0x8005) :=
      mmaOp_of_disagreement hu hcr sel differ
    simp only [List.mem_cons, List.not_mem_nil, or_false] at hi
    rcases hi with rfl | rfl | rfl
    · exact throws_of (exec_mma x s) throws
    · exact throws_of (exec_mmaSp x sm s) throws
    · exact throws_of (exec_mmaP x s) throws
  case mma => exact mma_outcomes hu hcr sel (exec_mma x s) rfl agree rfl rfl
  case mmaSp => exact mma_outcomes hu hcr sel (exec_mmaSp x sm s) rfl agree rfl rfl
  case mmaP => exact mma_outcomes hu hcr sel (exec_mmaP x s) rfl agree rfl rfl

end Sys2Proof.Machine
end

section
/-!
# Bytes, words and fields (R3, R92, Table 5-1)

A value of `n` bytes and its little-endian bytes determine each other, and so do an instruction word and the fields it is cut into, as
long as every field keeps inside its width.
-/

namespace Sys2Proof
open Laws (InPlace)

variable {r : Raw} {bs : List Byte} {n x : Nat}

/-! ### Bytes -/

@[simp] theorem length_toLE (n x : Nat) : (toLE n x).length = n := by
  induction n generalizing x with
  | zero => rfl
  | succ n ih => simp [toLE, ih]

theorem leNat_lt (bs : List Byte) : leNat bs < 256 ^ bs.length := by
  induction bs with
  | nil => simp [leNat]
  | cons b bs ih =>
    have hb := b.isLt
    simp only [leNat, List.length_cons, Nat.pow_succ]
    omega

theorem leNat_toLE_of_lt (h : x < 256 ^ n) : leNat (toLE n x) = x := by
  induction n generalizing x with
  | zero => simp_all [toLE, leNat]
  | succ n ih =>
    have hx : x / 256 < 256 ^ n := by
      rw [Nat.pow_succ] at h
      omega
    simp only [toLE, leNat, ih hx, BitVec.toNat_ofNat]
    omega

theorem toLE_leNat (bs : List Byte) : toLE bs.length (leNat bs) = bs := by
  induction bs with
  | nil => rfl
  | cons b bs ih =>
    have hb := b.isLt
    have hdiv : (b.toNat + 256 * leNat bs) / 256 = leNat bs := by omega
    simp only [List.length_cons, toLE, leNat, hdiv, ih, List.cons.injEq, and_true]
    apply BitVec.eq_of_toNat_eq
    simp only [BitVec.toNat_ofNat]
    omega

/-! ### Fields -/

theorem b2n_testBit (x i : Nat) : b2n (x.testBit i) = x / 2 ^ i % 2 := by
  rw [Nat.testBit_eq_decide_div_mod_eq]
  unfold b2n
  split <;> simp_all

theorem eq_of_b2n_mod (b : Bool) : decide (b2n b % 2 = 1) = b := by cases b <;> rfl

theorem Raw.word_ofWord {w e : Nat} (h : w < 2 ^ 64) : (Raw.ofWord w e).word = w := by
  simp only [Raw.ofWord, Raw.word, bits, b2n_testBit]
  omega

theorem Raw.word_lt (h : InPlace r) : r.word < 2 ^ 64 := by
  obtain ⟨hlen, hmaj, hgp, hd, ha, hb, hc, hmin⟩ := h
  have hgn := Laws.b2n_lt r.gn
  simp only [Raw.word]
  omega

theorem Raw.word_mod (h : InPlace r) : r.word % 4 = r.len := congrArg Raw.len (Laws.ofWord_word h)

/-- What follows a base word, cut to the length that LEN gives. -/
def extOf (w ext : Nat) : Nat := if w % 4 == 1 then 0 else if w % 4 == 2 then ext % 2 ^ 32 else ext % 2 ^ 64

theorem ofWord_inPlace {w e : Nat} (hlen : w % 4 ≠ 0) : InPlace (Raw.ofWord w (extOf w e)) := by
  have hext : w % 4 = 1 ∧ extOf w e = 0 ∨ w % 4 = 2 ∧ extOf w e < 2 ^ 32 ∨ w % 4 = 3 ∧ extOf w e < 2 ^ 64 := by
    have : w % 4 = 1 ∨ w % 4 = 2 ∨ w % 4 = 3 := by omega
    rcases this with h | h | h <;> simp [extOf, h, Nat.mod_lt]
  refine ⟨hext, ?_, ?_, ?_, ?_, ?_, ?_, ?_⟩ <;> simp only [Raw.ofWord, bits] <;> omega

theorem Raw.extOf_word (h : InPlace r) : extOf r.word r.ext = r.ext := by
  rw [extOf, Raw.word_mod h]
  rcases h.len with ⟨hl, he⟩ | ⟨hl, he⟩ | ⟨hl, he⟩ <;> simp [hl]
  · exact he.symm
  · exact he
  · exact he

theorem Raw.ext_lt (h : InPlace r) : r.ext < 256 ^ (lenBytes r.len - 8) := by
  rcases h.len with ⟨hl, he⟩ | ⟨hl, he⟩ | ⟨hl, he⟩ <;> rw [hl] <;> simp only [lenBytes] <;> norm_num <;> omega

/-! ### Instructions and their bytes -/

theorem decodeWords_of_len {w e : Nat} (h : w % 4 ≠ 0) : decodeWords w e = (Raw.ofWord w (extOf w e)).check := by
  rw [decodeWords, if_neg (by simpa using h)]
  rfl

theorem decodeWords_word (h : InPlace r) : decodeWords r.word r.ext = r.check := by
  have hlen : r.word % 4 ≠ 0 := by
    have := h.len
    rw [Raw.word_mod h]
    omega
  rw [decodeWords_of_len hlen, Raw.extOf_word h, Laws.ofWord_word h]

theorem lenBytes_ge (l : Nat) : 8 ≤ lenBytes l := by
  unfold lenBytes
  split
  · decide
  · split <;> decide

/-- What `decode` makes of bytes that begin with a word and what follows it. -/
theorem decode_toLE {w e n : Nat} (rest : List Byte) (hw : w < 256 ^ 8) (he : e < 256 ^ (n - 8)) (hn : n = lenBytes (w % 4)) :
    decode (toLE 8 w ++ toLE (n - 8) e ++ rest) = (decodeWords w e).map (fun i => (i, n)) := by
  have hge := lenBytes_ge (w % 4)
  rw [← hn] at hge
  have hbase : leNat ((toLE 8 w ++ toLE (n - 8) e ++ rest).take 8) = w := by
    rw [List.append_assoc, List.take_left' (length_toLE 8 w), leNat_toLE_of_lt hw]
  have htake : (toLE 8 w ++ toLE (n - 8) e ++ rest).take n = toLE 8 w ++ toLE (n - 8) e :=
    List.take_left' (by simp only [List.length_append, length_toLE]; omega)
  have hext : leNat (((toLE 8 w ++ toLE (n - 8) e ++ rest).take n).drop 8) = e := by
    rw [htake, List.drop_left' (length_toLE 8 w), leNat_toLE_of_lt he]
  have hlong : ¬ (toLE 8 w ++ toLE (n - 8) e ++ rest).length < n := by
    simp only [List.length_append, length_toLE]
    omega
  rw [decode, if_neg (by omega)]
  simp only [hbase, ← hn, if_neg hlong, hext]
  cases decodeWords w e <;> rfl

/-- What bytes that decode begin with: a word and what follows it, which decode to the instruction. -/
theorem decode_ok {i : Instr} (h : decode bs = .ok (i, n)) :
    ∃ w e, w < 2 ^ 64 ∧ n = lenBytes (w % 4) ∧ decodeWords w e = .ok i ∧ e < 256 ^ (n - 8) ∧ bs.take n = toLE 8 w ++ toLE (n - 8) e := by
  unfold decode at h
  split at h
  · cases h
  next hbase =>
  extract_lets w m at h
  split at h
  · cases h
  next hlong =>
  split at h
  case h_2 => cases h
  next j hj =>
  obtain ⟨rfl, rfl⟩ : j = i ∧ m = n := by simpa using h
  have hm := lenBytes_ge (w % 4)
  have hw : (bs.take 8).length = 8 := by simp; omega
  have he : ((bs.take m).drop 8).length = m - 8 := by simp; omega
  have hcut : bs.take m = bs.take 8 ++ (bs.take m).drop 8 := by
    conv_lhs => rw [← List.take_append_drop 8 (bs.take m), List.take_take, Nat.min_eq_left hm]
  refine ⟨w, leNat ((bs.take m).drop 8), ?_, rfl, hj, he ▸ leNat_lt _, ?_⟩
  · have := leNat_lt (bs.take 8)
    rwa [hw] at this
  · rw [← he, toLE_leNat, ← hw, toLE_leNat, hw, ← hcut]

end Sys2Proof
end

section
/-!
# What the fields of a word hold (Tables 5-3, 5-6, 5-7 and the codes of 08 to 15)

Every operand inside Table 5-3 is the reading of its own code and of no other, and so is every value of the small enumerations. The minor
opcode of majors 0x20 to 0x8F is a sub-code, the SAT bit and a type code, or a sub-code, a size and a scope.
-/

namespace Sys2Proof
open Laws (InPlace)

variable {r : Raw} {o : Opd} {cs : List OC} {is64 : Bool} {n : Nat}

/-! ### Operands -/

theorem Special.ofCode_code (sp : Special) : Special.ofCode sp.code = some sp := by cases sp <;> rfl

theorem Special.code_of_ofCode {sp : Special} (h : Special.ofCode n = some sp) : sp.code = n := by
  unfold Special.ofCode at h
  split at h <;> cases h <;> rfl

theorem Special.code_bounds (sp : Special) : 896 ≤ sp.code ∧ sp.code < 911 := by cases sp <;> decide

/-- The operand space, range by range (Table 5-3). -/
theorem Opd.wf_iff : o.wf = true ↔ match o with
    | .v n => n < 640
    | .s n => n < 128
    | .k z => -32 ≤ z ∧ z ≤ 95
    | .q n => n < 8
    | .imm _ => False
    | _ => True := by
  cases o <;> simp [Opd.wf]

theorem Opd.ofCode_code (h : o.wf = true) : Opd.ofCode o.code = some o := by
  rw [Opd.wf_iff] at h
  unfold Opd.ofCode
  cases o with
  | v n => rw [Opd.code, if_pos h]
  | s n => rw [Opd.code, if_neg (by omega), if_pos (by omega), Nat.add_sub_cancel]
  | k z =>
    obtain ⟨hlo, hhi⟩ := h
    rw [Opd.code, if_neg (by omega), if_neg (by omega), if_pos (by omega)]
    congr
    omega
  | x sp =>
    obtain ⟨hlo, hhi⟩ := sp.code_bounds
    rw [Opd.code, if_neg (by omega), if_neg (by omega), if_neg (by omega), if_pos (by omega), Special.ofCode_code]
    rfl
  | lr => rfl
  | exm => rfl
  | q n =>
    rw [Opd.code, if_neg (by omega), if_neg (by omega), if_neg (by omega), if_neg (by omega), if_neg (by omega), if_neg (by omega),
      Nat.add_sub_cancel]
  | imm w => exact h.elim

theorem Opd.of_ofCode (hn : n < 1024) (h : Opd.ofCode n = some o) : o.wf = true ∧ o.code = n := by
  unfold Opd.ofCode at h
  rw [Opd.wf_iff]
  split at h
  · next hv => cases h; exact ⟨hv, rfl⟩
  split at h
  · next hv hs => cases h; exact ⟨by dsimp only; omega, by dsimp only [Opd.code]; omega⟩
  split at h
  · next hv hs hk => cases h; exact ⟨by dsimp only; omega, by dsimp only [Opd.code]; omega⟩
  split at h
  · obtain ⟨sp, hsp, rfl⟩ := Option.map_eq_some_iff.1 h
    exact ⟨trivial, Special.code_of_ofCode hsp⟩
  split at h
  · next hlr => cases h; exact ⟨trivial, hlr.symm⟩
  split at h
  · next hexm => cases h; exact ⟨trivial, hexm.symm⟩
  · next hlr hexm => cases h; exact ⟨by dsimp only; omega, by dsimp only [Opd.code]; omega⟩

theorem op_code (h : o.wf = true) : Raw.op o.code = (o, true) := by rw [Raw.op, Opd.ofCode_code h]

theorem of_op (hn : n < 1024) (h : (Raw.op n).2 = true) : (Raw.op n).1.wf = true ∧ (Raw.op n).1.code = n := by
  unfold Raw.op at h ⊢
  split at h
  · next o ho => exact Opd.of_ofCode hn ho
  · cases h

theorem fieldOf_code (h : o.wf = true) : fieldOf o.code cs = o.isOf cs := by simp [fieldOf, op_code h]

theorem fieldOf_iff : fieldOf n cs = true ↔ (Raw.op n).2 = true ∧ (Raw.op n).1.isOf cs = true := by simp [fieldOf]

theorem code_of_fieldOf (hn : n < 1024) (h : fieldOf n cs = true) : (Raw.op n).1.code = n := (of_op hn (fieldOf_iff.1 h).1).2

@[simp] theorem Opd.evenIf_false (o : Opd) : o.evenIf false = true := by cases o <;> rfl

theorem fits_of_fieldOf (hn : n < 1024) (h : fieldOf n cs = true) (he : (Raw.op n).1.evenIf is64 = true) :
    (Raw.op n).1.fits cs is64 = true := by
  obtain ⟨hop, hcs⟩ := fieldOf_iff.1 h
  simp [Opd.fits, (of_op hn hop).1, hcs, he]

theorem fits_iff : o.fits cs is64 = true ↔ o.wf = true ∧ o.isOf cs = true ∧ o.evenIf is64 = true := by simp [Opd.fits, and_assoc]

/-- A field of a position of class S only names a scalar register. -/
theorem scalarField_iff (hn : n < 1024) : fieldOf n [.s] = true ↔ ∃ k, k < 128 ∧ n = k + 640 := by
  constructor
  · intro h
    obtain ⟨hop, hcs⟩ := fieldOf_iff.1 h
    obtain ⟨hwf, hcode⟩ := of_op hn hop
    rw [Opd.wf_iff] at hwf
    rw [← hcode]
    generalize (Raw.op n).1 = o at hcs hwf
    cases o with
    | s k => exact ⟨k, hwf, rfl⟩
    | imm w => exact hwf.elim
    | x sp => cases sp <;> cases hcs
    | _ => cases hcs
  · rintro ⟨k, hk, rfl⟩
    exact fieldOf_code (o := .s k) (Opd.wf_iff.2 hk)

theorem vectorField_iff (hn : n < 1024) : fieldOf n [.v] = true ↔ n < 640 := by
  constructor
  · intro h
    obtain ⟨hop, hcs⟩ := fieldOf_iff.1 h
    obtain ⟨hwf, hcode⟩ := of_op hn hop
    rw [Opd.wf_iff] at hwf
    rw [← hcode]
    generalize (Raw.op n).1 = o at hcs hwf
    cases o with
    | v k => exact hwf
    | imm w => exact hwf.elim
    | x sp => cases sp <;> cases hcs
    | _ => cases hcs
  · intro h
    exact fieldOf_code (o := .v n) (Opd.wf_iff.2 h)

/-! ### The immediate word (R95) -/

theorem lenB_of_wf (h : o.wf = true) : o.lenB = 1 ∧ o.ext = 0 := by
  rw [Opd.wf_iff] at h
  cases o with
  | imm w => exact h.elim
  | _ => exact ⟨rfl, rfl⟩

theorem fitsImm_cases (h : o.fitsImm cs is64 = true) : (∃ w, o = .imm w) ∨ o.fits cs is64 = true := by
  cases o with
  | imm w => exact .inl ⟨w, rfl⟩
  | _ => exact .inr h

theorem fitsImm_of_fits (h : o.fits cs is64 = true) : o.fitsImm cs is64 = true := by
  cases o with
  | imm w => rfl
  | _ => exact h

/-- An operand that its field names, or the immediate word in a 96-bit form. -/
def Raw.immOr (r : Raw) (n : Nat) : Opd × Bool := if r.len == 2 then (.imm r.imm, true) else Raw.op n

theorem of_immOr (hr : InPlace r) (hn : n < 1024) (hl : r.len = 1 ∨ r.len = 2) (hz : (r.len != 2 || n == 0) = true) (h : (r.immOr n).2 = true)
    (hc : (r.immOr n).1.isOf cs = true) (he : (r.immOr n).1.evenIf is64 = true) :
    (r.immOr n).1.fitsImm cs is64 = true ∧ (r.immOr n).1.lenB = r.len ∧ (r.immOr n).1.code = n ∧ (r.immOr n).1.ext = r.ext := by
  rcases hl with hl | hl
  · have hop : r.immOr n = Raw.op n := by simp [Raw.immOr, hl]
    have hext : r.ext = 0 := by have := hr.len; omega
    rw [hop] at h hc he ⊢
    obtain ⟨hwf, hcode⟩ := of_op hn h
    obtain ⟨hlen, hx⟩ := lenB_of_wf hwf
    exact ⟨fitsImm_of_fits (fits_iff.2 ⟨hwf, hc, he⟩), hlen.trans hl.symm, hcode, hx.trans hext.symm⟩
  · have hop : r.immOr n = (.imm r.imm, true) := by simp [Raw.immOr, hl]
    have hb : n = 0 := by simpa [hl] using hz
    have hext : r.ext < 2 ^ 32 := by have := hr.len; omega
    rw [hop]
    refine ⟨rfl, hl.symm, hb.symm, ?_⟩
    simpa [Opd.ext, Raw.imm] using hext

theorem immOr_of_fitsImm (h : o.fitsImm cs is64 = true) (hl : r.len = o.lenB) (hx : r.ext = o.ext) :
    r.immOr o.code = (o, true) ∧ (r.len != 2 || o.code == 0) = true ∧ o.isOf cs = true ∧ o.evenIf is64 = true := by
  rcases fitsImm_cases h with ⟨w, rfl⟩ | h
  · simp_all [Raw.immOr, Raw.imm, Opd.lenB, Opd.ext, Opd.code, Opd.isOf, Opd.evenIf]
  · obtain ⟨hwf, hcs, he⟩ := fits_iff.1 h
    obtain ⟨hlen, -⟩ := lenB_of_wf hwf
    simp [Raw.immOr, hl, hlen, op_code hwf, hcs, he]

theorem of_bOpd (hr : InPlace r) (hl : r.len = 1 ∨ r.len = 2) (hz : r.bZero = true) (h : r.bOpd.2 = true) (hc : r.bOpd.1.isOf cs = true)
    (he : r.bOpd.1.evenIf is64 = true) :
    r.bOpd.1.fitsImm cs is64 = true ∧ r.bOpd.1.lenB = r.len ∧ r.bOpd.1.code = r.b ∧ r.bOpd.1.ext = r.ext :=
  of_immOr hr hr.b hl hz h hc he

theorem bOpd_of_fitsImm (h : o.fitsImm cs is64 = true) (hl : r.len = o.lenB) (hb : r.b = o.code) (hx : r.ext = o.ext) :
    r.bOpd = (o, true) ∧ r.bZero = true ∧ o.isOf cs = true ∧ o.evenIf is64 = true := by
  have := immOr_of_fitsImm h hl hx
  rwa [← hb] at this

/-! ### The displacement word (R235) -/

theorem of_disp (hr : InPlace r) (hl : r.len = 1 ∨ r.len = 2) : dispLen r.disp = r.len ∧ dispExt r.disp = r.ext := by
  have := hr.len
  rcases hl with hl | hl
  · simp [Raw.disp, hl, dispLen, dispExt]
    omega
  · have hext : r.ext < 2 ^ 32 := by omega
    simpa [Raw.disp, hl, dispLen, dispExt, Raw.imm] using hext

theorem disp_of_dispLen {d : Option W32} (hl : r.len = dispLen d) (hx : r.ext = dispExt d) : r.disp = d := by
  cases d <;> simp_all [Raw.disp, Raw.imm, dispLen, dispExt]

/-! ### The minor opcode -/

theorem encMin_fields (m : Nat) : encMin (m / 32) (m.testBit 4) (m % 16) = m := by
  simp only [encMin, b2n_testBit]
  omega

theorem encMin_parts {sub ty : Nat} {sat : Bool} (h : ty < 16) :
    encMin sub sat ty / 32 = sub ∧ (encMin sub sat ty).testBit 4 = sat ∧ encMin sub sat ty % 16 = ty := by
  have hs := Laws.b2n_lt sat
  simp only [encMin]
  refine ⟨by omega, ?_, by omega⟩
  rw [Nat.testBit_eq_decide_div_mod_eq]
  conv_rhs => rw [← eq_of_b2n_mod sat]
  exact decide_eq_decide.2 (by omega)

/-! ### The small enumerations -/

theorem Ety.ofCode_code (t : Ety) : Ety.ofCode t.code = some t := by cases t <;> rfl
theorem Ety.code_lt (t : Ety) : t.code < 16 := Nat.lt_trans (Laws.ety_code t) (by decide)
theorem Fmt.ofCode_code (f : Fmt) : Fmt.ofCode f.code = some f := by cases f <;> rfl
theorem Cond.ofCode_code (c : Cond) : Cond.ofCode c.code = some c := by cases c <;> rfl
theorem Cond.code_lt (c : Cond) : c.code < 6 := by cases c <;> decide
theorem FCond.ofCode_code (c : FCond) : FCond.ofCode c.code = some c := by cases c <;> rfl
theorem ShflMode.ofCode_code (m : ShflMode) : ShflMode.ofCode m.code = some m := by cases m <;> rfl
theorem RedOp.ofCode_code (p : RedOp) : RedOp.ofCode p.code = some p := by cases p <;> rfl
theorem RedOp.code_lt (p : RedOp) : p.code < 6 := by cases p <;> decide
theorem ScanOp.ofCode_code (p : ScanOp) : ScanOp.ofCode p.code = some p := by cases p <;> rfl
theorem ScanOp.code_lt (p : ScanOp) : p.code < 3 := by cases p <;> decide
theorem AtomOp.ofCode_code (p : AtomOp) : AtomOp.ofCode p.code = some p := by cases p <;> rfl
theorem AtomOp.code_lt (p : AtomOp) : p.code < 11 := by cases p <;> decide
theorem BankMode.ofCode_code (m : BankMode) : BankMode.ofCode m.code = some m := by cases m <;> rfl
theorem BankMode.code_lt (m : BankMode) : m.code < 3 := by cases m <;> decide
theorem Scope.ofCode_code (c : Scope) : Scope.ofCode c.code = c := by cases c <;> rfl
theorem Size.ofCode_code (z : Size) : Size.ofCode z.code = z := by cases z <;> rfl
theorem WCond.ofCode_code (c : WCond) : WCond.ofCode c.code = c := by cases c <;> rfl

/-! The other way, a number below the bound is the code of the value it is read as. -/

theorem Cond.code_getD : ∀ k < 6, ((Cond.ofCode k).getD .eq).code = k := by decide
theorem FCond.code_getD : ∀ k < 8, ((FCond.ofCode k).getD .eq).code = k := by decide
theorem ShflMode.code_getD : ∀ k < 4, ((ShflMode.ofCode k).getD .idx).code = k := by decide
theorem RedOp.code_getD : ∀ k < 6, ((RedOp.ofCode k).getD .add).code = k := by decide
theorem ScanOp.code_getD : ∀ k < 3, ((ScanOp.ofCode k).getD .add).code = k := by decide
theorem AtomOp.code_getD : ∀ k < 11, ((AtomOp.ofCode k).getD .add).code = k := by decide
theorem BankMode.code_getD : ∀ k < 3, ((BankMode.ofCode k).getD .cache).code = k := by decide
theorem Scope.code_ofCode : ∀ k < 4, (Scope.ofCode k).code = k := by decide
theorem Size.code_ofCode : ∀ k < 4, (Size.ofCode k).code = k := by decide
theorem WCond.code_ofCode : ∀ k < 4, (WCond.ofCode k).code = k := by decide

theorem Ety.of_contains {tys : List Ety} (h : (tys.map Ety.code).contains n = true) : ∃ t, tys.contains t = true ∧ n = t.code := by
  obtain ⟨t, ht, rfl⟩ := List.mem_map.1 (List.contains_iff_mem.1 h)
  exact ⟨t, List.contains_iff_mem.2 ht, rfl⟩

theorem Ety.contains_code {tys : List Ety} {t : Ety} (h : tys.contains t = true) : (tys.map Ety.code).contains t.code = true :=
  List.contains_iff_mem.2 (List.mem_map.2 ⟨t, List.contains_iff_mem.1 h, rfl⟩)

end Sys2Proof
end

section
/-!
# The shared forms of the encoding

What each shared parser of the encoding tables accepts is the encoding of a well-formed instruction (`Sound`), and what it is given for a
well-formed instruction it accepts and reads back (`Reads`).
-/

namespace Sys2Proof
open Laws (InPlace)

variable {r : Raw} {p : Parsed} {i : Instr} {n m c sub : Nat} {tys : List Ety} {satOk : Bool}

/-- Every static group of Table 5-8 passes. -/
def Parsed.passes (p : Parsed) : Bool := p.len && p.minor && p.resv && p.cls && p.pair

theorem passes_iff : p.passes = true ↔ p.len = true ∧ p.minor = true ∧ p.resv = true ∧ p.cls = true ∧ p.pair = true := by
  simp [Parsed.passes, and_assoc]

theorem check_of_passes (h : r.parse = some p) (hp : p.passes = true) : r.check = .ok p.ins := by
  obtain ⟨hlen, hminor, hresv, hcls, hpair⟩ := passes_iff.1 hp
  simp [Raw.check, h, hlen, hminor, hresv, hcls, hpair]

theorem of_check (h : r.check = .ok i) : ∃ p, r.parse = some p ∧ p.passes = true ∧ p.ins = i := by
  unfold Raw.check at h
  split at h
  · cases h
  next p hparse =>
  refine ⟨p, hparse, ?_⟩
  rw [passes_iff]
  revert h
  cases p.len <;> cases p.minor <;> cases p.resv <;> cases p.cls <;> cases p.pair <;> simp

/-- The fields spell a well-formed instruction. -/
def Spells (r : Raw) (i : Instr) : Prop := i.wf = true ∧ enc i = some r

/-- What passes the checks is the well-formed instruction whose encoding the fields are. -/
def Sound (r : Raw) (p : Parsed) : Prop := p.passes = true → Spells r p.ins

/-- The fields of an instruction pass the checks and are read back as it. -/
def Reads (i : Instr) : Prop := ∀ r, enc i = some r → r.check = .ok i

theorem reads_of_check (he : enc i = some r) (hcheck : r.check = .ok i) : Reads i := by
  rintro r' hr'
  obtain rfl : r = r' := Option.some.inj (he.symm.trans hr')
  exact hcheck

theorem reads_of (he : enc i = some r) (hparse : r.parse = some p) (hp : p.passes = true) (hi : p.ins = i) : Reads i := by
  obtain rfl := hi
  exact reads_of_check he (check_of_passes hparse hp)

/-! ### Guards and destinations (R96, R103, R104) -/

theorem isAll_iff {g : Guard} : g.isAll = true ↔ g = .all := by
  obtain ⟨p, neg⟩ := g
  simp [Guard.isAll, Guard.all]

theorem noGuard_iff : r.noGuard = true ↔ r.guard = .all := by
  rw [← isAll_iff]
  rfl

theorem Raw.guard_wf (h : InPlace r) : r.guard.wf = true := decide_eq_true h.gp

theorem wfDst_iff {g : Guard} {d : Opd} {is64 : Bool} :
    wfDst g d is64 = true ↔ g.p < 16 ∧ d.fits ddst is64 = true ∧ (d.isScalarDst = true → g = .all) := by
  simp only [wfDst, Guard.wf, Bool.and_eq_true, decide_eq_true_eq, Bool.or_eq_true, Bool.not_eq_true', isAll_iff, and_assoc]
  cases d.isScalarDst <;> simp

/-- The SAT, sub-code and type fields together are the minor opcode. -/
theorem encMin_div {ty : Nat} {sat : Bool} (h : ty < 16) : encMin sub sat ty / 32 = sub := (encMin_parts h).1
theorem encMin_sat {ty : Nat} {sat : Bool} (h : ty < 16) : (encMin sub sat ty).testBit 4 = sat := (encMin_parts h).2.1
theorem encMin_mod {ty : Nat} {sat : Bool} (h : ty < 16) : encMin sub sat ty % 16 = ty := (encMin_parts h).2.2

theorem fits_of_op {cs : List OC} {is64 : Bool} (hn : n < 1024) (h : (Raw.op n).2 = true) (hc : (Raw.op n).1.isOf cs = true)
    (he : (Raw.op n).1.evenIf is64 = true) : (Raw.op n).1.fits cs is64 = true :=
  fits_iff.2 ⟨(of_op hn h).1, hc, he⟩

theorem wfDst_of_op {is64 : Bool} (hr : InPlace r) (h : (Raw.op r.d).2 = true) (hc : (Raw.op r.d).1.isOf ddst = true)
    (he : (Raw.op r.d).1.evenIf is64 = true) (hg : (!(Raw.op r.d).1.isScalarDst || r.noGuard) = true) :
    wfDst r.guard (Raw.op r.d).1 is64 = true := by
  refine wfDst_iff.2 ⟨hr.gp, fits_of_op hr.d h hc he, fun hs => noGuard_iff.1 ?_⟩
  simpa [hs] using hg

/-! ### The fields together -/

/-- A word as its fields, with the minor opcode as its parts. -/
theorem Raw.eta_min (r : Raw) : r = ⟨r.len, r.maj, r.gp, r.gn, r.d, r.a, r.b, r.c, encMin r.sub r.sat r.tyc, r.ext⟩ := by
  simp only [Raw.sub, Raw.sat, Raw.tyc, encMin_fields]

theorem Raw.eta (r : Raw) : r = ⟨r.len, r.maj, r.gp, r.gn, r.d, r.a, r.b, r.c, r.min, r.ext⟩ := rfl

theorem Raw.min_eq (r : Raw) : encMin r.sub r.sat r.tyc = r.min := encMin_fields r.min

theorem Raw.ext_of_len (hr : InPlace r) (h : r.len = 1) : r.ext = 0 := by
  have := hr.len
  omega

theorem Raw.imm_toNat (hr : InPlace r) (h : r.len = 2) : r.imm.toNat = r.ext := by
  have := hr.len
  exact Nat.mod_eq_of_lt (by omega)

theorem Raw.ext_of_len2 (hr : InPlace r) (h : r.len = 2) : r.ext < 2 ^ 32 := by
  have := hr.len
  omega

section
variable {d a b c min ext : Nat} (hr : InPlace r) (hm : r.maj = m) (hd : d = r.d) (ha : a = r.a) (hb : b = r.b) (hc : c = r.c) (hmin : min = r.min)
include hr hm hd ha hb hc hmin

/-- The fields that a 64-bit form with a guard has are all there is to its word. -/
theorem encG_eq (hlen : r.len = 1) : encG m r.guard d a b c min = r := by
  subst hm hd ha hb hc hmin
  simp only [encG, Raw.guard, ← hlen, ← r.ext_of_len hr hlen]

theorem encU_eq (hlen : r.len = 1) (hg : r.guard = .all) : encU m d a b c min = r := by
  rw [← encG_eq hr hm hd ha hb hc hmin hlen, hg]
  rfl

omit hr in
theorem encW_eq (hlen : r.len = 2) (hext : ext = r.ext) : encW m r.guard d a b c min ext = r := by
  subst hm hd ha hb hc hmin hext
  simp only [encW, Raw.guard, ← hlen]

end

/-! ### Majors 0x20 to 0x6F -/

theorem un_sound {mk : Un → Instr} (hr : InPlace r) (hm : r.maj = m)
    (spells : ∀ x, wfUn tys satOk x = true → Spells (encUn m 0 x) (mk x)) :
    Sound r (r.un (tys.map Ety.code) satOk (r.sub == 0) (r.c == 0) mk) := by
  intro hp
  simp only [passes_iff, Raw.un, Bool.and_eq_true, beq_iff_eq] at hp
  obtain ⟨hlen, ⟨⟨hty, hsat⟩, hsub⟩, ⟨⟨hb, hc⟩, hg⟩, ⟨⟨⟨hd, ha⟩, hdc⟩, hac⟩, hde, hae⟩ := hp
  obtain ⟨t, ht, hcode⟩ := Ety.of_contains hty
  simp only [Raw.un, hcode, Ety.ofCode_code, Option.getD_some] at hde hae ⊢
  have hw : wfUn tys satOk ⟨r.guard, t, r.sat, (Raw.op r.d).1, (Raw.op r.a).1⟩ = true := by
    simp only [wfUn, ht, hsat, wfDst_of_op hr hd hdc hde hg, Bool.and_true]
    exact fits_of_op hr.a ha hac hae
  have henc : encUn m 0 ⟨r.guard, t, r.sat, (Raw.op r.d).1, (Raw.op r.a).1⟩ = r := by
    refine Eq.trans ?_ r.eta_min.symm
    simp only [encUn, (of_op hr.d hd).2, (of_op hr.a ha).2, Raw.guard, hlen, r.ext_of_len hr hlen, hm, hb, hc, hsub, hcode]
  have hs := spells _ hw
  rwa [henc] at hs

theorem un_reads {mk : Un → Instr} {x : Un} (hw : wfUn tys satOk x = true) (he : enc (mk x) = some (encUn m 0 x))
    (hparse : (encUn m 0 x).parse =
      some ((encUn m 0 x).un (tys.map Ety.code) satOk ((encUn m 0 x).sub == 0) ((encUn m 0 x).c == 0) mk)) :
    Reads (mk x) := by
  simp only [wfUn, Bool.and_eq_true, fits_iff, wfDst_iff] at hw
  obtain ⟨⟨⟨ht, hsat⟩, hg, ⟨hdw, hdc, hde⟩, hall⟩, haw, hac, hae⟩ := hw
  obtain ⟨hsub, hs, hty⟩ := encMin_parts (sub := 0) (sat := x.sat) x.ty.code_lt
  refine reads_of he hparse ?passes ?ins
  case passes =>
    simp only [passes_iff, Raw.un, encUn, Raw.tyc, Raw.sub, Raw.sat, op_code hdw, op_code haw, Ety.contains_code ht,
      Ety.ofCode_code, hty, hs, hsub, Option.getD_some, hsat, hdc, hde, hae]
    cases hsc : x.d.isScalarDst <;> simp_all [srcOf, noGuard_iff, Raw.guard]
  case ins =>
    simp only [Raw.un, encUn, Raw.guard, Raw.sat, Raw.tyc, hs, hty, Ety.ofCode_code, op_code hdw, op_code haw, Option.getD_some]


/-- A well-formed form with operand B, by what the parser is told of B (`wfBin_eq`, `wfBinNarrow_eq`). -/
def wfBinWith (bcls : List OC) (b64 : Bool) (tys : List Ety) (satOk : Bool) (x : Bin) : Bool :=
  tys.contains x.ty && (satOk || !x.sat) && wfDst x.g x.d x.ty.is64 && x.a.fits (srcOf x.d) x.ty.is64
  && x.b.fitsImm (if x.d.isScalarDst then (if bcls.contains .l then ssrc else [.s, .k, .y]) else bcls) (x.ty.is64 && b64)

theorem wfBin_eq (x : Bin) : wfBin tys satOk x = wfBinWith vsrc true tys satOk x := by
  simp only [wfBin, wfBinWith, Bool.and_true]
  rfl

theorem wfBinNarrow_eq (x : Bin) : wfBinNarrow tys satOk x = wfBinWith [.v, .s, .k, .x, .q] false tys satOk x := by
  simp only [wfBinNarrow, wfBinWith, Bool.and_false]
  rfl

/-- No floating-point type is a register pair. -/
theorem wfBinNarrow_floats (x : Bin) : wfBinNarrow tyFloats satOk x = wfBinWith [.v, .s, .k, .x, .q] true tyFloats satOk x := by
  rw [wfBinNarrow_eq]
  obtain ⟨g, ty, sat, d, a, b⟩ := x
  cases ty <;> rfl

theorem bin_sound {mk : Bin → Instr} {subOk cOk b64 : Bool} {bcls : List OC} (hr : InPlace r) (hm : r.maj = m)
    (spells : ∀ x, wfBinWith bcls b64 tys satOk x = true → subOk = true → cOk = true → Spells (encBin m r.sub r.c x) (mk x)) :
    Sound r (r.bin [1, 2] (tys.map Ety.code) satOk subOk cOk bcls b64 mk) := by
  intro hp
  simp only [passes_iff, Raw.bin, Bool.and_eq_true] at hp
  obtain ⟨hlen, ⟨⟨hty, hsat⟩, hsub⟩, ⟨⟨hz, hc⟩, hg⟩, ⟨⟨⟨⟨⟨hd, ha⟩, hb⟩, hdc⟩, hac⟩, hbc⟩, ⟨hde, hae⟩, hbe⟩ := hp
  obtain ⟨t, ht, hcode⟩ := Ety.of_contains hty
  have hlen : r.len = 1 ∨ r.len = 2 := by simpa using hlen
  simp only [Raw.bin, hcode, Ety.ofCode_code, Option.getD_some] at hde hae hbe ⊢
  obtain ⟨hbf, hbl, hbn, hbx⟩ := of_bOpd hr hlen hz hb hbc hbe
  have hw : wfBinWith bcls b64 tys satOk ⟨r.guard, t, r.sat, (Raw.op r.d).1, (Raw.op r.a).1, r.bOpd.1⟩ = true := by
    simp only [wfBinWith, ht, hsat, wfDst_of_op hr hd hdc hde hg, hbf, Bool.and_true]
    exact fits_of_op hr.a ha hac hae
  have henc : encBin m r.sub r.c ⟨r.guard, t, r.sat, (Raw.op r.d).1, (Raw.op r.a).1, r.bOpd.1⟩ = r := by
    refine Eq.trans ?_ r.eta_min.symm
    simp only [encBin, (of_op hr.d hd).2, (of_op hr.a ha).2, Raw.guard, hbl, hbn, hbx, hm, hcode]
  have hs := spells _ hw hsub hc
  rwa [henc] at hs

theorem bin_reads {mk : Bin → Instr} {x : Bin} {subOk cOk b64 : Bool} {bcls : List OC} (hw : wfBinWith bcls b64 tys satOk x = true)
    (he : enc i = some (encBin m sub c x))
    (hparse : (encBin m sub c x).parse = some ((encBin m sub c x).bin [1, 2] (tys.map Ety.code) satOk subOk cOk bcls b64 mk))
    (hi : mk x = i) (hsubOk : subOk = true) (hcOk : cOk = true) : Reads i := by
  simp only [wfBinWith, Bool.and_eq_true, fits_iff, wfDst_iff] at hw
  obtain ⟨⟨⟨⟨ht, hsat⟩, hg, ⟨hdw, hdc, hde⟩, hall⟩, haw, hac, hae⟩, hb⟩ := hw
  obtain ⟨hbo, hbz, hbc, hbe⟩ := bOpd_of_fitsImm (r := encBin m sub c x) hb rfl rfl rfl
  have hty := x.ty.code_lt
  refine reads_of he hparse ?passes (Eq.trans ?ins hi)
  case passes =>
    have hlen : [1, 2].contains (encBin m sub c x).len = true := by
      show [1, 2].contains x.b.lenB = true
      cases x.b <;> rfl
    simp only [passes_iff, Raw.bin, hlen, hbo, hbz, hsubOk, hcOk]
    simp only [encBin, Raw.tyc, Raw.sat, op_code hdw, op_code haw, Ety.contains_code ht, Ety.ofCode_code, encMin_mod hty, encMin_sat hty,
      Option.getD_some, hsat, hdc, hde, hae]
    cases hsc : x.d.isScalarDst <;> simp_all [srcOf, noGuard_iff, Raw.guard]
  case ins =>
    simp only [Raw.bin, hbo]
    simp only [encBin, Raw.guard, Raw.sat, Raw.tyc, encMin_mod hty, encMin_sat hty, Ety.ofCode_code, op_code hdw, op_code haw, Option.getD_some]

theorem ter_sound {mk : Ter → Instr} (hr : InPlace r) (hm : r.maj = m)
    (spells : ∀ x, wfTer tys satOk x = true → Spells (encTer m x) (mk x)) : Sound r (r.ter (tys.map Ety.code) satOk mk) := by
  intro hp
  simp only [passes_iff, Raw.ter, Bool.and_eq_true, beq_iff_eq] at hp
  obtain ⟨hlen, ⟨⟨hty, hsat⟩, hsub⟩, hg, ⟨⟨⟨⟨⟨⟨⟨hd, ha⟩, hb⟩, hc⟩, hdc⟩, hac⟩, hbc⟩, hcc⟩, ⟨⟨hde, hae⟩, hbe⟩, hce⟩ := hp
  obtain ⟨t, ht, hcode⟩ := Ety.of_contains hty
  simp only [Raw.ter, hcode, Ety.ofCode_code, Option.getD_some] at hde hae hbe hce ⊢
  have hw : wfTer tys satOk ⟨r.guard, t, r.sat, (Raw.op r.d).1, (Raw.op r.a).1, (Raw.op r.b).1, (Raw.op r.c).1⟩ = true := by
    simp only [wfTer, ht, hsat, wfDst_of_op hr hd hdc hde hg, Bool.and_true, srcOf, fits_of_op hr.a ha hac hae,
      fits_of_op hr.b hb hbc hbe, fits_of_op hr.c hc hcc hce]
  have henc : encTer m ⟨r.guard, t, r.sat, (Raw.op r.d).1, (Raw.op r.a).1, (Raw.op r.b).1, (Raw.op r.c).1⟩ = r := by
    refine Eq.trans ?_ r.eta_min.symm
    simp only [encTer, (of_op hr.d hd).2, (of_op hr.a ha).2, (of_op hr.b hb).2, (of_op hr.c hc).2, Raw.guard, hlen, r.ext_of_len hr hlen, hm,
      hsub, hcode]
  have hs := spells _ hw
  rwa [henc] at hs

theorem ter_reads {mk : Ter → Instr} {x : Ter} (hw : wfTer tys satOk x = true) (he : enc (mk x) = some (encTer m x))
    (hparse : (encTer m x).parse = some ((encTer m x).ter (tys.map Ety.code) satOk mk)) : Reads (mk x) := by
  simp only [wfTer, Bool.and_eq_true, fits_iff, wfDst_iff] at hw
  obtain ⟨⟨⟨⟨⟨ht, hsat⟩, hg, ⟨hdw, hdc, hde⟩, hall⟩, haw, hac, hae⟩, hbw, hbc, hbe⟩, hcw, hcc, hce⟩ := hw
  have hty := x.ty.code_lt
  refine reads_of he hparse ?passes ?ins
  case passes =>
    simp only [passes_iff, Raw.ter, encTer, Raw.tyc, Raw.sub, Raw.sat, op_code hdw, op_code haw, op_code hbw, op_code hcw, Ety.contains_code ht,
      Ety.ofCode_code, encMin_mod hty, encMin_sat hty, encMin_div hty, Option.getD_some, hsat, hdc, hde, hae, hbe, hce]
    cases hsc : x.d.isScalarDst <;> simp_all [srcOf, noGuard_iff, Raw.guard]
  case ins =>
    simp only [Raw.ter, encTer, Raw.guard, Raw.sat, Raw.tyc, encMin_mod hty, encMin_sat hty, Ety.ofCode_code, op_code hdw, op_code haw,
      op_code hbw, op_code hcw, Option.getD_some]

/-- The compares: a type, a condition in the sub-code, and the result's number in C (R165, R182). -/
theorem cmp_sound {mk : Opd → Opd → Instr} {subMax : Nat} {uni : Bool} (hr : InPlace r) (hm : r.maj = m)
    (spells : ∀ a b t, tys.contains t = true → r.tyc = t.code → r.sub ≤ subMax → r.c < 16 → (uni = true → r.guard = .all) →
      a.fits (if uni then ssrc else vsrc) t.is64 = true → b.fitsImm (if uni then ssrc else vsrc) t.is64 = true →
      Spells (encCmp m r.sub t.code r.c r.guard a b) (mk a b)) :
    Sound r (r.cmp (tys.map Ety.code) subMax uni mk) := by
  intro hp
  simp only [passes_iff, Raw.cmp, Bool.and_eq_true, beq_iff_eq, decide_eq_true_eq, Bool.not_eq_true'] at hp
  obtain ⟨hlen, ⟨⟨hty, hsat⟩, hsub⟩, ⟨⟨⟨hd, hc⟩, hz⟩, hg⟩, ⟨⟨⟨ha, hb⟩, hac⟩, hbc⟩, hae, hbe⟩ := hp
  obtain ⟨t, ht, hcode⟩ := Ety.of_contains hty
  have hlen : r.len = 1 ∨ r.len = 2 := by simpa using hlen
  simp only [Raw.cmp, hcode, Ety.ofCode_code, Option.getD_some] at hae hbe ⊢
  obtain ⟨hbf, hbl, hbn, hbx⟩ := of_bOpd hr hlen hz hb hbc hbe
  have huni : uni = true → r.guard = .all := fun h => noGuard_iff.1 (by simpa [h] using hg)
  have henc : encCmp m r.sub t.code r.c r.guard (Raw.op r.a).1 r.bOpd.1 = r := by
    refine Eq.trans ?_ r.eta_min.symm
    simp only [encCmp, (of_op hr.a ha).2, Raw.guard, hbl, hbn, hbx, hm, hcode, hd, hsat]
  have hs := spells _ _ t ht hcode hsub hc huni (fits_of_op hr.a ha hac hae) hbf
  rwa [henc] at hs

theorem cmp_reads {g : Guard} {a b : Opd} {t : Ety} {mk : Opd → Opd → Instr} {subMax : Nat} {uni : Bool}
    (he : enc i = some (encCmp m sub t.code c g a b))
    (hparse : (encCmp m sub t.code c g a b).parse = some ((encCmp m sub t.code c g a b).cmp (tys.map Ety.code) subMax uni mk))
    (hi : mk a b = i) (ht : tys.contains t = true) (hall : uni = true → g = .all) (ha : a.fits (if uni then ssrc else vsrc) t.is64 = true)
    (hb : b.fitsImm (if uni then ssrc else vsrc) t.is64 = true) (hsub : sub ≤ subMax) (hc : c < 16) :
    Reads i := by
  obtain ⟨haw, hac, hae⟩ := fits_iff.1 ha
  obtain ⟨hbo, hbz, hbc, hbe⟩ := bOpd_of_fitsImm (r := encCmp m sub t.code c g a b) hb rfl rfl rfl
  have hty := t.code_lt
  refine reads_of he hparse ?passes (Eq.trans ?ins hi)
  case passes =>
    have hlen : ((encCmp m sub t.code c g a b).len == 1 || (encCmp m sub t.code c g a b).len == 2) = true := by
      show (b.lenB == 1 || b.lenB == 2) = true
      cases b <;> rfl
    simp only [passes_iff, Raw.cmp, hlen, hbo, hbz]
    simp only [encCmp, Raw.tyc, Raw.sat, Raw.sub, op_code haw, Ety.contains_code ht, Ety.ofCode_code, encMin_mod hty, encMin_sat hty,
      encMin_div hty, Option.getD_some, hac, hae, hbc, hbe]
    cases uni <;> simp_all [noGuard_iff, Raw.guard]
  case ins =>
    simp only [Raw.cmp, hbo]
    simp only [encCmp, op_code haw]

end Sys2Proof
end

section
/-!
# The encodings of 08_integer, majors 0x20 to 0x45
-/

namespace Sys2Proof
open Laws (InPlace)

variable {r : Raw} {p : Parsed} {i : Instr} {n m c sub : Nat} {tys : List Ety} {satOk : Bool}

theorem b2_sound {mk : Bin → Instr} (hr : InPlace r) (hm : r.maj = m)
    (spells : ∀ x, wfBin tys satOk x = true → Spells (encBin m 0 0 x) (mk x)) :
    Sound r (r.bin [1, 2] (tys.map Ety.code) satOk (r.sub == 0) (r.c == 0) vsrc true mk) := by
  refine bin_sound hr hm fun x hw hsub hc => ?_
  rw [eq_of_beq hsub, eq_of_beq hc]
  exact spells x (wfBin_eq x ▸ hw)

theorem b2_reads {mk : Bin → Instr} {x : Bin} (hw : wfBin tys satOk x = true) (he : enc (mk x) = some (encBin m 0 0 x))
    (hparse : (encBin m 0 0 x).parse =
      some ((encBin m 0 0 x).bin [1, 2] (tys.map Ety.code) satOk ((encBin m 0 0 x).sub == 0) ((encBin m 0 0 x).c == 0) vsrc true mk)) :
    Reads (mk x) := by
  refine bin_reads (wfBin_eq x ▸ hw) he hparse rfl ?_ rfl
  simp only [encBin, Raw.sub, encMin_div x.ty.code_lt, beq_self_eq_true]

/-! ### BFX and BFI (R160) -/

/-- The fields of BFX and BFI: the control word is operand C or the immediate word. -/
def encField (maj : Nat) (x : Un) (b : Nat) (ctl : Opd) : Raw :=
  ⟨ctl.lenB, maj, x.g.p, x.g.neg, x.d.code, x.a.code, b, ctl.code, encMin 0 x.sat x.ty.code, ctl.ext⟩

theorem enc_bfx (x : Un) (ctl : Opd) : enc (.bfx x ctl) = some (encField 0x31 x 0 ctl) := by
  cases ctl <;> rfl

theorem enc_bfi (x : Bin) (ctl : Opd) : enc (.bfi x ctl) = some (encField 0x32 ⟨x.g, x.ty, x.sat, x.d, x.a⟩ x.b.code ctl) := by
  cases ctl <;> rfl

theorem encField_len (x : Un) (b : Nat) (ctl : Opd) : ((encField m x b ctl).len == 1 || (encField m x b ctl).len == 2) = true := by
  cases ctl <;> rfl

theorem immOr_eq (r : Raw) (n : Nat) : (if r.len == 2 then (Opd.imm r.imm, true) else Raw.op n) = r.immOr n := rfl

theorem bfx_sound (hr : InPlace r) (hm : r.maj = 0x31) : Sound r (r.bitField (tyWords.map Ety.code) false) := by
  intro hp
  simp only [Raw.bitField, immOr_eq, Bool.false_eq_true, if_false] at hp ⊢
  simp only [passes_iff, Bool.and_eq_true, beq_iff_eq, Bool.not_eq_true', Bool.false_or, Bool.not_false, Bool.true_or, and_true] at hp
  obtain ⟨hlen, ⟨⟨hty, hsat⟩, hsub⟩, ⟨⟨hb, hz⟩, hg⟩, ⟨⟨⟨⟨⟨hd, ha⟩, hx⟩, hdc⟩, hac⟩, hxc⟩, hde, hae⟩ := hp
  obtain ⟨t, ht, hcode⟩ := Ety.of_contains hty
  have hlen : r.len = 1 ∨ r.len = 2 := by simpa using hlen
  obtain ⟨hxf, hxl, hxn, hxx⟩ := of_immOr (is64 := false) hr hr.c hlen hz hx hxc (Opd.evenIf_false _)
  simp only [hcode, Ety.ofCode_code, Option.getD_some] at hde hae ⊢
  constructor
  · simp only [Instr.wf, wfUn, ht, wfDst_of_op hr hd hdc hde hg, srcOf, fits_of_op hr.a ha hac hae, Bool.and_true, Bool.not_false, Bool.or_true]
    exact hxf
  · refine (enc_bfx _ _).trans (congrArg some (Eq.trans ?_ r.eta_min.symm))
    simp only [encField, (of_op hr.d hd).2, (of_op hr.a ha).2, Raw.guard, hm, hcode, hb, hsat, hsub, hxl, hxn, hxx]

theorem bfi_sound (hr : InPlace r) (hm : r.maj = 0x32) : Sound r (r.bitField ([Ety.u32, .u64].map Ety.code) true) := by
  intro hp
  simp only [Raw.bitField, immOr_eq, if_true] at hp ⊢
  simp only [passes_iff, Bool.and_eq_true, beq_iff_eq, Bool.not_eq_true', Bool.false_or, Bool.not_true, Bool.true_or, true_and] at hp
  obtain ⟨hlen, ⟨⟨hty, hsat⟩, hsub⟩, ⟨hz, hg⟩, ⟨⟨⟨⟨⟨⟨⟨hd, ha⟩, hb⟩, hx⟩, hdc⟩, hac⟩, hbc⟩, hxc⟩, ⟨hde, hae⟩, hbe⟩ := hp
  obtain ⟨t, ht, hcode⟩ := Ety.of_contains hty
  have hlen : r.len = 1 ∨ r.len = 2 := by simpa using hlen
  obtain ⟨hxf, hxl, hxn, hxx⟩ := of_immOr (is64 := false) hr hr.c hlen hz hx hxc (Opd.evenIf_false _)
  simp only [hcode, Ety.ofCode_code, Option.getD_some] at hde hae hbe ⊢
  constructor
  · simp only [Instr.wf, wfBin, ht, wfDst_of_op hr hd hdc hde hg, srcOf, fits_of_op hr.a ha hac hae,
      fitsImm_of_fits (fits_of_op hr.b hb hbc hbe), (of_op hr.b hb).1, Bool.and_true, Bool.not_false, Bool.or_true]
    exact hxf
  · refine (enc_bfi _ _).trans (congrArg some (Eq.trans ?_ r.eta_min.symm))
    simp only [encField, (of_op hr.d hd).2, (of_op hr.a ha).2, (of_op hr.b hb).2, Raw.guard, hm, hcode, hsat, hsub, hxl, hxn, hxx]

theorem bfx_reads {x : Un} {ctl : Opd} (hw : (Instr.bfx x ctl).wf = true) : Reads (.bfx x ctl) := by
  obtain ⟨g, ty, sat, d, a⟩ := x
  simp only [Instr.wf, wfUn, Bool.and_eq_true, fits_iff, wfDst_iff, Bool.or_eq_true, Bool.false_eq_true, false_or, Bool.not_eq_true'] at hw
  obtain ⟨⟨⟨⟨ht, rfl⟩, hg, ⟨hdw, hdc, hde⟩, hall⟩, haw, hac, hae⟩, hx⟩ := hw
  obtain ⟨hxo, hxz, hxc, -⟩ := immOr_of_fitsImm (r := encField 0x31 ⟨g, ty, false, d, a⟩ 0 ctl) hx rfl rfl
  have hty := ty.code_lt
  refine reads_of (enc_bfx _ ctl) (p := (encField 0x31 _ 0 ctl).bitField (tyWords.map Ety.code) false) rfl ?passes ?ins
  case passes =>
    simp only [passes_iff, Raw.bitField, immOr_eq, encField_len]
    simp only [encField] at hxo hxz ⊢
    simp only [hxo, hxz, hxc, Raw.tyc, Raw.sat, Raw.sub, op_code hdw, op_code haw, Ety.contains_code ht, Ety.ofCode_code,
      encMin_mod hty, encMin_sat hty, encMin_div hty, Option.getD_some, hdc, hde, hae]
    cases hsc : d.isScalarDst <;> simp_all [srcOf, noGuard_iff, Raw.guard]
  case ins =>
    simp only [Raw.bitField, immOr_eq]
    simp only [encField] at hxo ⊢
    simp [hxo, Raw.tyc, op_code hdw, op_code haw, encMin_mod hty, Ety.ofCode_code, Raw.guard]

theorem bfi_reads {x : Bin} {ctl : Opd} (hw : (Instr.bfi x ctl).wf = true) : Reads (.bfi x ctl) := by
  obtain ⟨g, ty, sat, d, a, b⟩ := x
  simp only [Instr.wf, wfBin, Bool.and_eq_true, fits_iff, wfDst_iff, Bool.or_eq_true, Bool.false_eq_true, false_or, Bool.not_eq_true'] at hw
  obtain ⟨⟨⟨⟨⟨⟨ht, rfl⟩, hg, ⟨hdw, hdc, hde⟩, hall⟩, haw, hac, hae⟩, hb⟩, hbw⟩, hx⟩ := hw
  have hb := (fitsImm_cases hb).resolve_left (by rintro ⟨w, rfl⟩; cases hbw)
  obtain ⟨-, hbc, hbe⟩ := fits_iff.1 hb
  obtain ⟨hxo, hxz, hxc, -⟩ := immOr_of_fitsImm (r := encField 0x32 ⟨g, ty, false, d, a⟩ b.code ctl) hx rfl rfl
  have hty := ty.code_lt
  refine reads_of (enc_bfi _ ctl) (p := (encField 0x32 _ b.code ctl).bitField ([Ety.u32, .u64].map Ety.code) true) rfl ?passes ?ins
  case passes =>
    simp only [passes_iff, Raw.bitField, immOr_eq, encField_len]
    simp only [encField] at hxo hxz ⊢
    simp only [hxo, hxz, hxc, Raw.tyc, Raw.sat, Raw.sub, op_code hdw, op_code haw, op_code hbw, Ety.contains_code ht, Ety.ofCode_code,
      encMin_mod hty, encMin_sat hty, encMin_div hty, Option.getD_some, hdc, hde, hae, hbe]
    cases hsc : d.isScalarDst <;> simp_all [srcOf, noGuard_iff, Raw.guard]
  case ins =>
    simp only [Raw.bitField, immOr_eq]
    simp only [encField] at hxo ⊢
    simp [hxo, Raw.tyc, op_code hdw, op_code haw, op_code hbw, encMin_mod hty, Ety.ofCode_code, Raw.guard]

/-! ### MOVI, PLOP and CLOP (R163, R166) -/

theorem moviLen_iff : r.moviLen = true ↔ r.len = 2 ∧ (r.tyc = 1 ∨ r.tyc = 2 ∨ r.tyc = 3) ∨ r.len = 3 ∧ (r.tyc = 2 ∨ r.tyc = 3) := by
  unfold Raw.moviLen
  split <;> simp_all
  omega

theorem movi_sound (hr : InPlace r) (hm : r.maj = 0x3B) (h : r.parseInt = some p) : Sound r p := by
  simp only [Raw.parseInt, hm, Option.some.injEq] at h
  subst h
  intro hp
  simp only [passes_iff, Bool.and_eq_true, Bool.or_eq_true, Bool.not_eq_true', beq_iff_eq, moviLen_iff] at hp
  obtain ⟨hlen, ⟨hsub, hs⟩, ⟨⟨⟨ha, hb⟩, hc⟩, hg⟩, hd, hde⟩ := hp
  have hmin : r.tyc = r.min := by rw [← r.min_eq, hsub, hs]; simp [encMin, b2n]
  have hfit := fits_of_fieldOf hr.d hd hde
  have hcode := code_of_fieldOf hr.d hd
  have hall : (Raw.op r.d).1.isScalarDst = false ∨ r.guard.isAll = true := hg
  rcases hlen with ⟨hlen, hty⟩ | ⟨hlen, hty⟩
  · obtain ⟨t, ht, hwide⟩ : ∃ t : Ety, r.tyc = t.code ∧ (t = .u32 ∨ t = .s64 ∨ t = .u64) := by
      rcases hty with h | h | h <;> rw [h]
      exacts [⟨.u32, by decide⟩, ⟨.s64, by decide⟩, ⟨.u64, by decide⟩]
    simp only [ht, Ety.ofCode_code, Option.getD_some] at hfit hmin ⊢
    rw [if_neg (by simp [hlen])]
    refine ⟨?word, congrArg some (encW_eq hm hcode ha.symm hb.symm hc.symm hmin hlen (r.imm_toNat hr hlen))⟩
    rcases hwide with rfl | rfl | rfl <;> simp_all [Instr.wf, Raw.guard_wf hr]
  · obtain ⟨t, ht, hwide⟩ : ∃ t : Ety, r.tyc = t.code ∧ (t = .s64 ∨ t = .u64) := by
      rcases hty with h | h <;> rw [h]
      exacts [⟨.s64, by decide⟩, ⟨.u64, by decide⟩]
    have hext : r.ext < 2 ^ 64 := by
      have := hr.len
      omega
    simp only [ht, Ety.ofCode_code, Option.getD_some] at hfit hmin ⊢
    rw [if_pos (by simp [hlen])]
    refine ⟨?ext, congrArg some (Eq.trans ?fields r.eta.symm)⟩
    case ext => rcases hwide with rfl | rfl <;> simp_all [Instr.wf, Raw.guard_wf hr]
    case fields => simp only [hcode, hmin, BitVec.toNat_ofNat, Nat.mod_eq_of_lt hext, Raw.guard, hlen, hm, ha, hb, hc]

theorem movi_reads {g : Guard} {ty : Ety} {d : Opd} {imm : MoviImm} (hw : (Instr.movi g ty d imm).wf = true) : Reads (.movi g ty d imm) := by
  simp only [Instr.wf, Bool.and_eq_true, fits_iff, Guard.wf, decide_eq_true_eq] at hw
  obtain ⟨⟨⟨hg, hdw, hdc, hde⟩, hall⟩, himm⟩ := hw
  have hall : d.isScalarDst = false ∨ (g.p == 0 && !g.neg) = true := by simpa [Guard.isAll] using hall
  have hty := ty.code_lt
  cases imm with
  | word w =>
    simp only [Bool.or_eq_true, beq_iff_eq] at himm
    refine reads_of rfl rfl ?_ ?_
    · rcases himm with (rfl | rfl) | rfl <;>
        simpa [passes_iff, encW, Raw.noGuard, moviLen_iff, Raw.tyc, Raw.sub, Raw.sat, fieldOf_code, op_code, Ety.code, Ety.ofCode, hdw, hdc, hde,
          Nat.testBit] using hall
    · simp [encW, Raw.guard, Raw.imm, op_code hdw, Raw.tyc, Nat.mod_eq_of_lt hty, Ety.ofCode_code]
  | ext w =>
    simp only [Bool.or_eq_true, beq_iff_eq] at himm
    refine reads_of rfl rfl ?_ ?_
    · rcases himm with rfl | rfl <;>
        simpa [passes_iff, Raw.noGuard, moviLen_iff, Raw.tyc, Raw.sub, Raw.sat, fieldOf_code, op_code, Ety.code, Ety.ofCode, hdw, hdc, hde,
          Nat.testBit] using hall
    · simp [Raw.guard, op_code hdw, Raw.tyc, Nat.mod_eq_of_lt hty, Ety.ofCode_code]

theorem plop_sound (hr : InPlace r) (hm : r.maj = 0x3D) (h : r.parseInt = some p) : Sound r p := by
  simp only [Raw.parseInt, hm, Option.some.injEq] at h
  subst h
  intro hp
  simp only [passes_iff, Bool.and_eq_true, beq_iff_eq, decide_eq_true_eq, and_true] at hp
  obtain ⟨hlen, hmin, ⟨⟨⟨hd, ha⟩, hb⟩, hc⟩, hext⟩ := hp
  refine ⟨?wf, congrArg some (encW_eq hm hd.symm ha.symm hb.symm hc.symm hmin.symm hlen ?ext)⟩
  case wf => simp [Instr.wf, Raw.guard_wf hr, Nat.mod_lt]
  case ext =>
    simp only [BitVec.toNat_ofNat]
    omega

theorem clop_sound (hm : r.maj = 0x3F) (h : r.parseInt = some p) : Sound r p := by
  simp only [Raw.parseInt, hm, Option.some.injEq] at h
  subst h
  intro hp
  simp only [passes_iff, Bool.and_eq_true, beq_iff_eq, decide_eq_true_eq, and_true, noGuard_iff] at hp
  obtain ⟨hlen, hmin, ⟨⟨⟨⟨hg, hd⟩, ha⟩, hb⟩, hc⟩, hext⟩ := hp
  refine ⟨?wf, congrArg some (hg ▸ encW_eq hm hd.symm ha.symm hb.symm hc.symm hmin.symm hlen ?ext)⟩
  case wf => simp [Instr.wf, Nat.mod_lt]
  case ext =>
    simp only [BitVec.toNat_ofNat]
    omega

theorem plop_ext_lt {d a b : Nat} {tt : BitVec 4} (hd : d < 16) (ha : a < 16) (hb : b < 16) :
    d + a * 16 + b * 256 + tt.toNat * 4096 < 2 ^ 16 := by
  have := tt.isLt
  omega

theorem plop_parts {d a b : Nat} {tt : BitVec 4} (hd : d < 16) (ha : a < 16) (hb : b < 16) :
    (d + a * 16 + b * 256 + tt.toNat * 4096) % 16 = d ∧ (d + a * 16 + b * 256 + tt.toNat * 4096) / 16 % 16 = a
    ∧ (d + a * 16 + b * 256 + tt.toNat * 4096) / 256 % 16 = b
    ∧ BitVec.ofNat 4 ((d + a * 16 + b * 256 + tt.toNat * 4096) / 4096) = tt := by
  have := tt.isLt
  refine ⟨by omega, by omega, by omega, BitVec.eq_of_toNat_eq ?_⟩
  simp only [BitVec.toNat_ofNat]
  omega

theorem plop_reads {g : Guard} {d a b : Nat} {tt : BitVec 4} (hw : (Instr.plop g d a b tt).wf = true) : Reads (.plop g d a b tt) := by
  simp only [Instr.wf, Bool.and_eq_true, Guard.wf, decide_eq_true_eq] at hw
  obtain ⟨⟨⟨hg, hd⟩, ha⟩, hb⟩ := hw
  have hext := plop_ext_lt (tt := tt) hd ha hb
  obtain ⟨hd', ha', hb', htt⟩ := plop_parts (tt := tt) hd ha hb
  refine reads_of rfl rfl ?_ ?_
  · exact passes_iff.2 ⟨rfl, rfl, decide_eq_true hext, rfl, rfl⟩
  · simp only [encW, Raw.guard, hd', ha', hb', htt]

theorem clop_reads {d a b : Nat} {tt : BitVec 4} (hw : (Instr.clop d a b tt).wf = true) : Reads (.clop d a b tt) := by
  simp only [Instr.wf, Bool.and_eq_true, decide_eq_true_eq] at hw
  obtain ⟨⟨hd, ha⟩, hb⟩ := hw
  have hext := plop_ext_lt (tt := tt) hd ha hb
  obtain ⟨hd', ha', hb', htt⟩ := plop_parts (tt := tt) hd ha hb
  refine reads_of rfl rfl ?_ ?_
  · exact passes_iff.2 ⟨rfl, rfl, decide_eq_true hext, rfl, rfl⟩
  · simp only [encW, hd', ha', hb', htt]

/-! ### PMOV, the cross-lane forms and APPEND (R167 to R173) -/

theorem pmov_sound (hr : InPlace r) (hm : r.maj = 0x3E) (h : r.parseInt = some p) : Sound r p := by
  simp only [Raw.parseInt, hm] at h
  split at h
  all_goals
    rw [Option.some.injEq] at h
    subst h
    intro hp
    simp only [passes_iff, Bool.and_eq_true, Bool.not_eq_true', beq_iff_eq, decide_eq_true_eq, and_true] at hp
    obtain ⟨hlen, ⟨⟨hty, hs⟩, hsub⟩, ⟨⟨hx, hb⟩, hc⟩, ho⟩ := hp
    have hc16 := Nat.mod_eq_of_lt hc
    have hmin := r.min_eq
    rw [hs, hty] at hmin
  case h_1 hs1 =>
    rw [hs1] at hmin
    refine ⟨?_, congrArg some (encG_eq hr hm (code_of_fieldOf hr.d ho) hx.symm hb.symm hc16 hmin hlen)⟩
    simp [Instr.wf, Raw.guard_wf hr, hc16, hc, fits_of_fieldOf hr.d ho]
  case h_2 hs2 =>
    rw [hs2] at hmin
    refine ⟨?_, congrArg some (encG_eq hr hm hx.symm (code_of_fieldOf hr.a ho) hb.symm hc16 hmin hlen)⟩
    simp [Instr.wf, Raw.guard_wf hr, hc16, hc, fits_of_fieldOf hr.a ho]
  case h_3 hs1 hs2 =>
    have hs0 : r.sub = 0 := by
      have : r.sub ≠ 1 := hs1
      have : r.sub ≠ 2 := hs2
      omega
    rw [hs0] at hmin
    refine ⟨?_, congrArg some (encG_eq hr hm hx.symm (code_of_fieldOf hr.a ho) hb.symm hc16 hmin hlen)⟩
    simp [Instr.wf, Raw.guard_wf hr, hc16, hc, fits_of_fieldOf hr.a ho]

theorem pmov_reads {g : Guard} {f : PmovForm} (hw : (Instr.pmov g f).wf = true) : Reads (.pmov g f) := by
  simp only [Instr.wf, Bool.and_eq_true, Guard.wf, decide_eq_true_eq] at hw
  obtain ⟨hg, hw⟩ := hw
  cases f with
  | toPred p a =>
    simp only [Bool.and_eq_true, fits_iff, decide_eq_true_eq] at hw
    refine reads_of_check rfl ?_
    simp [Raw.check, Raw.parse, Raw.parseInt, encG, Raw.guard, Raw.tyc, Raw.sat, Raw.sub, Nat.testBit, fieldOf_code, op_code, Nat.mod_eq_of_lt, *]
  | fromPred d p =>
    simp only [Bool.and_eq_true, fits_iff, decide_eq_true_eq] at hw
    refine reads_of_check rfl ?_
    simp [Raw.check, Raw.parse, Raw.parseInt, encG, Raw.guard, Raw.tyc, Raw.sat, Raw.sub, Nat.testBit, fieldOf_code, op_code, Nat.mod_eq_of_lt, *]
  | bit p a =>
    simp only [Bool.and_eq_true, fits_iff, decide_eq_true_eq] at hw
    refine reads_of_check rfl ?_
    simp [Raw.check, Raw.parse, Raw.parseInt, encG, Raw.guard, Raw.tyc, Raw.sat, Raw.sub, Nat.testBit, fieldOf_code, op_code, Nat.mod_eq_of_lt, *]

/-- The types of SHFL and BCAST. -/
theorem ty_u32_u64 (h : n = 1 ∨ n = 3) : ∃ t : Ety, n = t.code ∧ (t = .u32 ∨ t = .u64) := by
  rcases h with rfl | rfl
  · exact ⟨.u32, rfl, .inl rfl⟩
  · exact ⟨.u64, rfl, .inr rfl⟩

theorem shfl_sound (hr : InPlace r) (hm : r.maj = 0x40) (h : r.parseInt = some p) : Sound r p := by
  simp only [Raw.parseInt, hm, Option.some.injEq] at h
  subst h
  intro hp
  simp only [passes_iff, Bool.and_eq_true, Bool.or_eq_true, Bool.not_eq_true', beq_iff_eq, decide_eq_true_eq] at hp
  obtain ⟨hlen, ⟨⟨hty, hs⟩, hsub⟩, hc, ⟨⟨hd, ha⟩, hb⟩, hde, hae⟩ := hp
  obtain ⟨t, ht, hcls⟩ := ty_u32_u64 hty
  simp only [ht, Ety.ofCode_code, Option.getD_some] at hde hae ⊢
  refine ⟨?wf, congrArg some (encG_eq hr hm (code_of_fieldOf hr.d hd) (code_of_fieldOf hr.a ha) (code_of_fieldOf hr.b hb) hc.symm ?min hlen)⟩
  case wf =>
    simp [Instr.wf, Raw.guard_wf hr, hcls, fits_of_fieldOf hr.d hd hde, fits_of_fieldOf hr.a ha hae, laneCls, fits_of_fieldOf hr.b hb]
  case min => rw [← r.min_eq, hs, ht, ShflMode.code_getD _ hsub]

theorem shfl_reads {g : Guard} {f : ShflMode} {ty : Ety} {d a b : Opd} (hw : (Instr.shfl g f ty d a b).wf = true) :
    Reads (.shfl g f ty d a b) := by
  simp only [Instr.wf, Bool.and_eq_true, Bool.or_eq_true, beq_iff_eq, fits_iff, Guard.wf, decide_eq_true_eq] at hw
  obtain ⟨⟨⟨⟨hg, hty⟩, hdw, hdc, hde⟩, haw, hac, hae⟩, hbw, hbc, -⟩ := hw
  have hf := Laws.shfl_code f
  refine reads_of_check rfl ?_
  rcases hty with rfl | rfl <;>
    simp_all [Raw.check, Raw.parse, Raw.parseInt, encG, Raw.guard, Raw.tyc, Raw.sat, Raw.sub, encMin_div, encMin_sat, encMin_mod, Ety.ofCode,
      ShflMode.ofCode_code, fieldOf_code, op_code, laneCls, Ety.code]

theorem bcast_sound (hr : InPlace r) (hm : r.maj = 0x41) (h : r.parseInt = some p) : Sound r p := by
  simp only [Raw.parseInt, hm, Option.some.injEq] at h
  subst h
  intro hp
  simp only [passes_iff, Bool.and_eq_true, Bool.or_eq_true, Bool.not_eq_true', beq_iff_eq] at hp
  obtain ⟨hlen, ⟨⟨hty, hs⟩, hsub⟩, hc, ⟨⟨hd, ha⟩, hb⟩, hde, hae⟩ := hp
  obtain ⟨t, ht, hcls⟩ := ty_u32_u64 hty
  simp only [ht, Ety.ofCode_code, Option.getD_some] at hde hae ⊢
  refine ⟨?wf, congrArg some (encG_eq hr hm (code_of_fieldOf hr.d hd) (code_of_fieldOf hr.a ha) (code_of_fieldOf hr.b hb) hc.symm ?min hlen)⟩
  case wf => simp [Instr.wf, Raw.guard_wf hr, hcls, fits_of_fieldOf hr.d hd hde, fits_of_fieldOf hr.a ha hae, fits_of_fieldOf hr.b hb]
  case min => rw [← r.min_eq, hs, ht, hsub]; simp [encMin, b2n]

theorem bcast_reads {g : Guard} {ty : Ety} {d a b : Opd} (hw : (Instr.bcast g ty d a b).wf = true) : Reads (.bcast g ty d a b) := by
  simp only [Instr.wf, Bool.and_eq_true, Bool.or_eq_true, beq_iff_eq, fits_iff, Guard.wf, decide_eq_true_eq] at hw
  obtain ⟨⟨⟨⟨hg, hty⟩, hdw, hdc, hde⟩, haw, hac, hae⟩, hbw, hbc, -⟩ := hw
  refine reads_of_check rfl ?_
  rcases hty with rfl | rfl <;>
    simp_all [Raw.check, Raw.parse, Raw.parseInt, encG, Raw.guard, Raw.tyc, Raw.sat, Raw.sub, Nat.testBit, fieldOf_code, op_code, Ety.code, Ety.ofCode]

theorem ballot_sound (hr : InPlace r) (hm : r.maj = 0x42) (h : r.parseInt = some p) : Sound r p := by
  simp only [Raw.parseInt, hm, Option.some.injEq] at h
  subst h
  intro hp
  simp only [passes_iff, Bool.and_eq_true, beq_iff_eq, decide_eq_true_eq, and_true] at hp
  obtain ⟨hlen, hmin, ⟨⟨ha, hb⟩, hc⟩, hd⟩ := hp
  have hc16 := Nat.mod_eq_of_lt hc
  refine ⟨?wf, congrArg some (encG_eq hr hm (code_of_fieldOf hr.d hd) ha.symm hb.symm hc16 hmin.symm hlen)⟩
  case wf => simp [Instr.wf, Raw.guard_wf hr, hc16, hc, fits_of_fieldOf hr.d hd]

theorem ballot_reads {g : Guard} {d : Opd} {k : Nat} (hw : (Instr.ballot g d k).wf = true) : Reads (.ballot g d k) := by
  simp only [Instr.wf, Bool.and_eq_true, fits_iff, Guard.wf, decide_eq_true_eq] at hw
  refine reads_of_check rfl ?_
  simp [Raw.check, Raw.parse, Raw.parseInt, encG, Raw.guard, fieldOf_code, op_code, Nat.mod_eq_of_lt, *]

theorem pscan_sound (hr : InPlace r) (hm : r.maj = 0x43) (h : r.parseInt = some p) : Sound r p := by
  simp only [Raw.parseInt, hm, Option.some.injEq] at h
  subst h
  intro hp
  simp only [passes_iff, Bool.and_eq_true, Bool.or_eq_true, Bool.not_eq_true', beq_iff_eq, decide_eq_true_eq, and_true] at hp
  obtain ⟨hlen, ⟨⟨hty, hop⟩, hsat⟩, ⟨hb, hc⟩, hd, ha⟩ := hp
  obtain ⟨t, ht, hcls⟩ : ∃ t : Ety, r.tyc = t.code ∧ (t = .s32 ∨ t = .u32) := by
    have : r.tyc = 0 ∨ r.tyc = 1 := by omega
    rcases this with h | h <;> rw [h]
    exacts [⟨.s32, by decide⟩, ⟨.u32, by decide⟩]
  simp only [ht, Ety.ofCode_code, Option.getD_some]
  refine ⟨?wf, congrArg some (encG_eq hr hm (code_of_fieldOf hr.d hd) (code_of_fieldOf hr.a ha) hb.symm hc.symm ?min hlen)⟩
  case wf =>
    rcases hsat with hs | h0
    · simp [Instr.wf, Raw.guard_wf hr, hcls, hs, fits_of_fieldOf hr.d hd, fits_of_fieldOf hr.a ha]
    · simp [Instr.wf, Raw.guard_wf hr, hcls, h0, ScanOp.ofCode, fits_of_fieldOf hr.d hd, fits_of_fieldOf hr.a ha]
  case min =>
    rw [← r.min_eq, ht, ScanOp.code_getD _ hop, b2n_testBit]
    congr 1
    omega

theorem pscan_reads {g : Guard} {op : ScanOp} {incl : Bool} {ty : Ety} {sat : Bool} {d a : Opd}
    (hw : (Instr.pscan g op incl ty sat d a).wf = true) : Reads (.pscan g op incl ty sat d a) := by
  simp only [Instr.wf, Bool.and_eq_true, Bool.or_eq_true, Bool.not_eq_true', beq_iff_eq, fits_iff, Guard.wf, decide_eq_true_eq] at hw
  obtain ⟨⟨⟨⟨hg, hty⟩, hsat⟩, hdw, hdc, -⟩, haw, hac, -⟩ := hw
  have hf := op.code_lt
  have hi := Laws.b2n_lt incl
  have hdiv : (op.code * 2 + b2n incl) / 2 = op.code := by omega
  have hbit : (op.code * 2 + b2n incl).testBit 0 = incl := by
    rw [Nat.testBit_eq_decide_div_mod_eq]
    conv_rhs => rw [← eq_of_b2n_mod incl]
    exact decide_eq_decide.2 (by omega)
  refine reads_of_check rfl ?_
  have hsat : sat = false ∨ op.code = 0 := hsat.imp_right (congrArg ScanOp.code)
  have hop := ScanOp.ofCode_code op
  rcases hty with rfl | rfl <;> rcases hsat with rfl | h0 <;>
    simp_all [Raw.check, Raw.parse, Raw.parseInt, encG, Raw.guard, Raw.tyc, Raw.sat, Raw.sub, encMin_div, encMin_sat, encMin_mod, Ety.ofCode,
      fieldOf_code, op_code, Ety.code, Nat.div_eq_of_lt (Laws.b2n_lt incl)]

theorem append_sound (hr : InPlace r) (hm : r.maj = 0x44) (h : r.parseInt = some p) : Sound r p := by
  simp only [Raw.parseInt, hm, Option.some.injEq] at h
  subst h
  intro hp
  simp only [passes_iff, Bool.and_eq_true, beq_iff_eq, and_true] at hp
  obtain ⟨hlen, hmin, hc, ⟨hd, ha⟩, hb⟩ := hp
  refine ⟨?wf, congrArg some (encG_eq hr hm (code_of_fieldOf hr.d hd) (code_of_fieldOf hr.a ha) (code_of_fieldOf hr.b hb) hc.symm hmin.symm hlen)⟩
  case wf => simp [Instr.wf, Raw.guard_wf hr, fits_of_fieldOf hr.d hd, fits_of_fieldOf hr.a ha, sk, fits_of_fieldOf hr.b hb]

theorem append_reads {g : Guard} {d a b : Opd} (hw : (Instr.append g d a b).wf = true) : Reads (.append g d a b) := by
  simp only [Instr.wf, Bool.and_eq_true, fits_iff, Guard.wf, decide_eq_true_eq] at hw
  refine reads_of_check rfl ?_
  simp_all [Raw.check, Raw.parse, Raw.parseInt, encG, Raw.guard, fieldOf_code, op_code, sk]

theorem red_sound (hr : InPlace r) (hm : r.maj = 0x45) (h : r.parseInt = some p) : Sound r p := by
  simp only [Raw.parseInt, hm, Option.some.injEq] at h
  subst h
  intro hp
  simp only [passes_iff, Bool.and_eq_true, Bool.or_eq_true, Bool.not_eq_true', beq_iff_eq, decide_eq_true_eq] at hp
  obtain ⟨hlen, ⟨⟨hty, hop⟩, hsat⟩, ⟨⟨⟨ha, hb⟩, hc⟩, hext⟩, hd, hpair⟩ := hp
  obtain ⟨t, ht, hcls⟩ : ∃ t : Ety, r.tyc = t.code ∧ tyWords.contains t = true := by
    have : r.tyc = 0 ∨ r.tyc = 1 ∨ r.tyc = 2 ∨ r.tyc = 3 := by omega
    rcases this with h | h | h | h <;> rw [h]
    exacts [⟨.s32, by decide⟩, ⟨.u32, by decide⟩, ⟨.s64, by decide⟩, ⟨.u64, by decide⟩]
  have hva := Nat.mod_eq_of_lt hext
  simp only [ht, Ety.ofCode_code, Option.getD_some] at hpair ⊢
  refine ⟨?wf, congrArg some (encW_eq hm (code_of_fieldOf hr.d hd) ha.symm hb.symm hc.symm ?min hlen hva)⟩
  case wf =>
    rcases hsat with hs | h0
    · simp_all [Instr.wf, Raw.guard_wf hr, Nat.mod_lt, fits_of_fieldOf hr.d hd]
    · simp_all [Instr.wf, Raw.guard_wf hr, Nat.mod_lt, RedOp.ofCode, fits_of_fieldOf hr.d hd]
  case min => rw [← r.min_eq, ht, RedOp.code_getD _ hop]

theorem red_reads {g : Guard} {op : RedOp} {ty : Ety} {sat : Bool} {d : Opd} {va : Nat}
    (hw : (Instr.red g op ty sat d va).wf = true) : Reads (.red g op ty sat d va) := by
  simp only [Instr.wf, Bool.and_eq_true, Bool.or_eq_true, Bool.not_eq_true', beq_iff_eq, fits_iff, Guard.wf, decide_eq_true_eq] at hw
  obtain ⟨⟨⟨⟨⟨hg, hty⟩, hsat⟩, hdw, hdc, -⟩, hva⟩, hpair⟩ := hw
  have hf := op.code_lt
  have ht := ty.code_lt
  have hty : ty.code < 4 := by cases ty <;> revert hty <;> decide
  refine reads_of_check rfl ?_
  have hsat : sat = false ∨ op.code = 0 := hsat.imp_right (congrArg RedOp.code)
  have hop := RedOp.ofCode_code op
  rcases hsat with rfl | h0 <;> rcases hpair with hp | hp <;>
    simp_all [Raw.check, Raw.parse, Raw.parseInt, encW, Raw.guard, Raw.tyc, Raw.sat, Raw.sub, encMin_div, encMin_sat, encMin_mod, Ety.ofCode_code,
      fieldOf_code, op_code, Nat.mod_eq_of_lt]

end Sys2Proof
end

section
/-!
# The compares, SEL and LEA, and the rows of 08_integer together
-/

namespace Sys2Proof
open Laws (InPlace)

variable {r : Raw} {p : Parsed} {i : Instr} {n m c sub : Nat} {tys : List Ety} {satOk : Bool}

/-! ### The compares, SEL and LEA (R162, R164, R165) -/

theorem icmp_sound (hr : InPlace r) (hm : r.maj = 0x37) (h : r.parseInt = some p) : Sound r p := by
  simp only [Raw.parseInt, hm, Option.some.injEq] at h
  subst h
  refine cmp_sound (tys := tyWords) hr hm fun a b t ht hty hsub hc _ ha hb => ?_
  simp only [hty, Ety.ofCode_code, Option.getD_some, Nat.mod_eq_of_lt hc]
  refine ⟨?wf, congrArg some ?enc⟩
  case wf => simp only [Instr.wf, Raw.guard_wf hr, ht, decide_eq_true hc]; exact Bool.and_eq_true_iff.2 ⟨ha, hb⟩
  case enc => rw [Cond.code_getD r.sub (Nat.lt_succ_of_le hsub)]

theorem icmpc_sound (hr : InPlace r) (hm : r.maj = 0x38) (h : r.parseInt = some p) : Sound r p := by
  simp only [Raw.parseInt, hm, Option.some.injEq] at h
  subst h
  refine cmp_sound (tys := tyWords) hr hm fun a b t ht hty hsub hc hg ha hb => ?_
  simp only [hty, Ety.ofCode_code, Option.getD_some, Nat.mod_eq_of_lt hc]
  refine ⟨?wf, congrArg some ?enc⟩
  case wf => simp only [Instr.wf, ht, decide_eq_true hc]; exact Bool.and_eq_true_iff.2 ⟨ha, hb⟩
  case enc => rw [Cond.code_getD r.sub (Nat.lt_succ_of_le hsub), hg rfl]

theorem icmp_reads {g : Guard} {f : Cond} {ty : Ety} {k : Nat} {a b : Opd} (hw : (Instr.icmp g f ty k a b).wf = true) :
    Reads (.icmp g f ty k a b) := by
  simp only [Instr.wf, Bool.and_eq_true, Guard.wf, decide_eq_true_eq] at hw
  obtain ⟨⟨⟨⟨hg, ht⟩, hk⟩, ha⟩, hb⟩ := hw
  refine cmp_reads (tys := tyWords) (uni := false) rfl rfl ?_ ht nofun ha hb (Nat.le_of_lt_succ f.code_lt) hk
  simp [encCmp, Raw.guard, Raw.tyc, Raw.sub, encMin_div, encMin_mod, ty.code_lt, Ety.ofCode_code, Cond.ofCode_code, Nat.mod_eq_of_lt hk]

theorem icmpc_reads {f : Cond} {ty : Ety} {k : Nat} {a b : Opd} (hw : (Instr.icmpc f ty k a b).wf = true) : Reads (.icmpc f ty k a b) := by
  simp only [Instr.wf, Bool.and_eq_true, decide_eq_true_eq] at hw
  obtain ⟨⟨⟨ht, hk⟩, ha⟩, hb⟩ := hw
  refine cmp_reads (tys := tyWords) (uni := true) rfl rfl ?_ ht (fun _ => rfl) ha hb (Nat.le_of_lt_succ f.code_lt) hk
  simp [encCmp, Raw.tyc, Raw.sub, encMin_div, encMin_mod, ty.code_lt, Ety.ofCode_code, Cond.ofCode_code, Nat.mod_eq_of_lt hk]

theorem sel_sound (hr : InPlace r) (hm : r.maj = 0x39) (h : r.parseInt = some p) : Sound r p := by
  simp only [Raw.parseInt, hm, Option.some.injEq] at h
  subst h
  refine bin_sound (tys := [.u32, .u64]) hr hm fun x hw hsub hc => ⟨?wf, congrArg some ?enc⟩
  case wf =>
    simp only [Instr.wf, wfBin_eq, hw]
    exact decide_eq_true (Nat.mod_lt _ (by decide))
  case enc =>
    have hc : r.c < 32 := of_decide_eq_true hc
    have : r.c % 16 + b2n (r.c.testBit 4) * 16 = r.c := by
      rw [b2n_testBit]
      omega
    rw [eq_of_beq hsub, this]

theorem sel_reads {x : Bin} {k : Nat} {neg : Bool} (hw : (Instr.sel x k neg).wf = true) : Reads (.sel x k neg) := by
  simp only [Instr.wf, Bool.and_eq_true, decide_eq_true_eq, wfBin_eq] at hw
  obtain ⟨hx, hk⟩ := hw
  have hn := Laws.b2n_lt neg
  have hmod : (k + b2n neg * 16) % 16 = k := by omega
  have hbit : (k + b2n neg * 16).testBit 4 = neg := by
    rw [Nat.testBit_eq_decide_div_mod_eq]
    conv_rhs => rw [← eq_of_b2n_mod neg]
    exact decide_eq_decide.2 (by omega)
  refine bin_reads (tys := [.u32, .u64]) hx rfl rfl ?_ ?_ (decide_eq_true ?_)
  · simp only [encBin, hmod, hbit]
  · simp only [encBin, Raw.sub, encMin_div x.ty.code_lt, beq_self_eq_true]
  · show k + b2n neg * 16 < 32
    omega

theorem Raw.sub_lt (hr : InPlace r) : r.sub < 16 := by
  have := hr.min
  simp only [Raw.sub]
  omega

theorem lea_sound (hr : InPlace r) (hm : r.maj = 0x3C) (h : r.parseInt = some p) : Sound r p := by
  simp only [Raw.parseInt, hm, Option.some.injEq] at h
  subst h
  refine bin_sound (tys := tyWords) hr hm fun x hw _ hc => ⟨?wf, congrArg some ?enc⟩
  case wf =>
    simp only [Instr.wf, wfBinNarrow_eq, hw]
    exact decide_eq_true (r.sub_lt hr)
  case enc => rw [eq_of_beq hc]

theorem lea_reads {x : Bin} {k : Nat} (hw : (Instr.lea x k).wf = true) : Reads (.lea x k) := by
  simp only [Instr.wf, Bool.and_eq_true, decide_eq_true_eq, wfBinNarrow_eq] at hw
  obtain ⟨hx, hk⟩ := hw
  refine bin_reads (tys := tyWords) hx rfl rfl ?_ rfl rfl
  simp only [encBin, Raw.sub, encMin_div x.ty.code_lt]

/-! ### The whole range -/

/-- The rows of 0x20 to 0x45, by their shared form (the cases are numbered from 0x20 on). -/
theorem parseInt_sound (hr : InPlace r) (h : r.parseInt = some p) : Sound r p := by
  have row := h
  unfold Raw.parseInt at h
  extract_lets at h
  split at h
  case h_1 hm | h_2 hm | h_3 hm | h_14 hm => cases h; exact b2_sound (tys := tyInts) hr hm fun _ hw => ⟨hw, rfl⟩
  case h_4 hm => cases h; exact b2_sound (tys := tyWords) hr hm fun _ hw => ⟨hw, rfl⟩
  case h_8 hm | h_9 hm | h_10 hm | h_11 hm | h_12 hm | h_15 hm | h_16 hm | h_17 hm =>
    cases h; exact b2_sound (tys := tyInts) hr hm fun _ hw => ⟨hw, rfl⟩
  case h_5 hm => cases h; exact ter_sound (tys := tyInts) hr hm fun _ hw => ⟨hw, rfl⟩
  case h_6 hm | h_7 hm | h_13 hm | h_20 hm | h_21 hm | h_22 hm | h_23 hm =>
    cases h; exact un_sound (tys := tyInts) hr hm fun _ hw => ⟨hw, rfl⟩
  case h_27 hm => cases h; exact un_sound (tys := [.u32, .u64]) hr hm fun _ hw => ⟨hw, rfl⟩
  case h_18 hm => cases h; exact bfx_sound hr hm
  case h_19 hm => cases h; exact bfi_sound hr hm
  case h_24 hm => exact icmp_sound hr hm row
  case h_25 hm => exact icmpc_sound hr hm row
  case h_26 hm => exact sel_sound hr hm row
  case h_28 hm => exact movi_sound hr hm row
  case h_29 hm => exact lea_sound hr hm row
  case h_30 hm => exact plop_sound hr hm row
  case h_31 hm => exact pmov_sound hr hm row
  case h_32 hm => exact clop_sound hm row
  case h_33 hm => exact shfl_sound hr hm row
  case h_34 hm => exact bcast_sound hr hm row
  case h_35 hm => exact ballot_sound hr hm row
  case h_36 hm => exact pscan_sound hr hm row
  case h_37 hm => exact append_sound hr hm row
  case h_38 hm => exact red_sound hr hm row
  case h_39 => cases h

end Sys2Proof
end

section
/-!
# The encodings of 07_control, majors 0x00 to 0x14
-/

namespace Sys2Proof
open Laws (InPlace)

variable {r : Raw} {p : Parsed} {i : Instr} {g : Guard} {n m c : Nat}

/-- The forms that have no field in use. -/
theorem ctl_sound (hr : InPlace r) (hm : r.maj = m) (spells : Spells (encU m 0 0 0 0 0) i) : Sound r (r.ctl [1] false (r.min == 0) i) := by
  intro hp
  simp only [passes_iff, Raw.ctl, List.contains_cons, List.contains_nil, Bool.or_false, Bool.false_or, Bool.and_eq_true, beq_iff_eq, noGuard_iff,
    and_true] at hp
  obtain ⟨hlen, hmin, ⟨⟨⟨hg, hd⟩, ha⟩, hb⟩, hc⟩ := hp
  rwa [encU_eq hr hm hd.symm ha.symm hb.symm hc.symm hmin.symm hlen hg] at spells

/-- The forms that have a guard and nothing else. -/
theorem ctlG_sound (hr : InPlace r) (hm : r.maj = m) (spells : Spells (encG m r.guard 0 0 0 0 0) i) : Sound r (r.ctl [1] true (r.min == 0) i) := by
  intro hp
  simp only [passes_iff, Raw.ctl, List.contains_cons, List.contains_nil, Bool.or_false, Bool.true_or, Bool.and_eq_true, beq_iff_eq,
    and_true, true_and] at hp
  obtain ⟨hlen, hmin, ⟨⟨hd, ha⟩, hb⟩, hc⟩ := hp
  rwa [encG_eq hr hm hd.symm ha.symm hb.symm hc.symm hmin.symm hlen] at spells

/-! ### Branches and calls (R140, R141) -/

theorem bra_sound (hr : InPlace r) (hm : r.maj = 0x01) (h : r.parseControl = some p) : Sound r p := by
  simp only [Raw.parseControl, hm, Option.some.injEq] at h
  subst h
  intro hp
  simp only [passes_iff, Bool.and_eq_true, Bool.or_eq_true, beq_iff_eq, noGuard_iff, Bool.false_or, and_true] at hp
  obtain ⟨hlen, hmin, ⟨⟨⟨⟨hg, hd⟩, ha⟩, hb⟩, hc⟩, hcls⟩ := hp
  rcases hlen with hlen | hlen
  · obtain ⟨k, hk, hak⟩ := (scalarField_iff hr.a).1 (hcls.resolve_left (by omega))
    simp only [hlen, hak, Nat.add_sub_cancel]
    exact ⟨by simp [Instr.wf, hk], congrArg some (encU_eq hr hm hd.symm hak.symm hb.symm hc.symm hmin.symm hlen hg)⟩
  · have ha : r.a = 0 := ha.resolve_left (by omega)
    simp only [hlen]
    exact ⟨rfl, congrArg some (hg ▸ encW_eq hm hd.symm ha.symm hb.symm hc.symm hmin.symm hlen (r.imm_toNat hr hlen))⟩

theorem call_sound (hr : InPlace r) (hm : r.maj = 0x03) (h : r.parseControl = some p) : Sound r p := by
  simp only [Raw.parseControl, hm, Option.some.injEq] at h
  subst h
  intro hp
  simp only [passes_iff, Bool.and_eq_true, Bool.or_eq_true, beq_iff_eq, Bool.true_or, true_and] at hp
  obtain ⟨hlen, hmin, ⟨⟨⟨hd, ha⟩, hb⟩, hc⟩, hcls, -⟩ := hp
  rcases hlen with hlen | hlen
  · obtain ⟨k, hk, hak⟩ := (scalarField_iff hr.a).1 (hcls.resolve_left (by omega))
    simp only [hlen, hak, Nat.add_sub_cancel]
    exact ⟨by simp [Instr.wf, r.guard_wf hr, hk], congrArg some (encG_eq hr hm hd.symm hak.symm hb.symm hc.symm hmin.symm hlen)⟩
  · have ha : r.a = 0 := ha.resolve_left (by omega)
    simp only [hlen]
    exact ⟨by simp [Instr.wf, r.guard_wf hr], congrArg some (encW_eq hm hd.symm ha.symm hb.symm hc.symm hmin.symm hlen (r.imm_toNat hr hlen))⟩

theorem scalarField_code {k : Nat} (h : k < 128) : fieldOf (k + 640) [.s] = true := (scalarField_iff (by omega)).2 ⟨k, h, rfl⟩

theorem bra_reads {t : Target} (hw : (Instr.bra t).wf = true) : Reads (.bra t) := by
  cases t with
  | off w =>
    refine reads_of_check rfl ?_
    simp [Raw.check, Raw.parse, Raw.parseControl, encW, Raw.noGuard, Guard.all, Raw.imm]
  | reg k =>
    have hk : k < 128 := of_decide_eq_true hw
    refine reads_of_check rfl ?_
    simp [Raw.check, Raw.parse, Raw.parseControl, encU, Raw.noGuard, scalarField_code hk]

theorem call_reads {t : Target} (hw : (Instr.call g t).wf = true) : Reads (.call g t) := by
  obtain ⟨hg, ht⟩ := Bool.and_eq_true_iff.1 hw
  cases t with
  | off w =>
    refine reads_of_check rfl ?_
    simp [Raw.check, Raw.parse, Raw.parseControl, encW, Raw.guard, Raw.imm]
  | reg k =>
    have hk : k < 128 := of_decide_eq_true ht
    refine reads_of_check rfl ?_
    simp [Raw.check, Raw.parse, Raw.parseControl, encG, Raw.guard, scalarField_code hk]

theorem brc_sound (hr : InPlace r) (hm : r.maj = 0x02) (h : r.parseControl = some p) : Sound r p := by
  simp only [Raw.parseControl, hm, Option.some.injEq] at h
  subst h
  intro hp
  simp only [passes_iff, Raw.ctl, List.contains_cons, List.contains_nil, Bool.or_false, Bool.false_or, Bool.and_eq_true, beq_iff_eq, noGuard_iff,
    decide_eq_true_eq, and_true] at hp
  obtain ⟨hlen, hmin, ⟨⟨⟨hg, hd⟩, ha⟩, hb⟩, hc⟩ := hp
  have hmin' : b2n (r.min.testBit 4) * 16 + r.min % 16 = r.min := by
    rw [b2n_testBit]
    omega
  exact ⟨decide_eq_true (Nat.mod_lt _ (by decide)),
    congrArg some (hg ▸ encW_eq hm hd.symm ha.symm hb.symm hc.symm hmin' hlen (r.imm_toNat hr hlen))⟩

/-- A number below 16 beside a flag in bit 4. -/
theorem flag16 {k : Nat} (b : Bool) (h : k < 16) : (b2n b * 16 + k).testBit 4 = b ∧ (b2n b * 16 + k) % 16 = k ∧ b2n b * 16 + k < 32 := by
  have hb := Laws.b2n_lt b
  refine ⟨?_, by omega, by omega⟩
  rw [Nat.testBit_eq_decide_div_mod_eq]
  conv_rhs => rw [← eq_of_b2n_mod b]
  exact decide_eq_decide.2 (by omega)

theorem brc_reads {sense : Bool} {c : Nat} {off : W32} (hw : (Instr.brc sense c off).wf = true) : Reads (.brc sense c off) := by
  have hc : c < 16 := of_decide_eq_true hw
  obtain ⟨hbit, hmod, hlt⟩ := flag16 sense hc
  refine reads_of_check rfl ?_
  simp [Raw.check, Raw.parse, Raw.parseControl, Raw.ctl, encW, Raw.noGuard, Guard.all, Raw.imm, hbit, hmod, hlt]

theorem callv_sound (hr : InPlace r) (hm : r.maj = 0x04) (h : r.parseControl = some p) : Sound r p := by
  simp only [Raw.parseControl, hm, Option.some.injEq] at h
  subst h
  intro hp
  simp only [passes_iff, Bool.and_eq_true, beq_iff_eq, and_true] at hp
  obtain ⟨hlen, hmin, ⟨hd, hc⟩, ha, hb⟩ := hp
  obtain ⟨k, hk, hbk⟩ := (scalarField_iff hr.b).1 hb
  simp only [hbk, Nat.add_sub_cancel]
  refine ⟨?wf, congrArg some (encG_eq hr hm hd.symm rfl hbk.symm hc.symm hmin.symm hlen)⟩
  case wf => simp [Instr.wf, r.guard_wf hr, (vectorField_iff hr.a).1 ha, hk]

theorem callv_reads {a b : Nat} (hw : (Instr.callv g a b).wf = true) : Reads (.callv g a b) := by
  simp only [Instr.wf, Bool.and_eq_true, Guard.wf, decide_eq_true_eq] at hw
  obtain ⟨⟨hg, ha⟩, hb⟩ := hw
  refine reads_of_check rfl ?_
  simp [Raw.check, Raw.parse, Raw.parseControl, encG, Raw.guard, scalarField_code hb, (vectorField_iff (Nat.lt_trans ha (by decide))).2 ha]

/-! ### IF, WAITP, the regions, THROW and RDEXR -/

theorem if_sound (hr : InPlace r) (hm : r.maj = 0x06) (h : r.parseControl = some p) : Sound r p := by
  simp only [Raw.parseControl, hm, Option.some.injEq] at h
  subst h
  intro hp
  simp only [passes_iff, Raw.ctl, List.contains_cons, List.contains_nil, Bool.or_false, Bool.true_or, Bool.and_eq_true, Bool.or_eq_true, beq_iff_eq,
    bne_iff_ne, decide_eq_true_eq, and_true, true_and] at hp
  obtain ⟨hlen, hmin, ⟨⟨⟨⟨hd, ha⟩, hb⟩, hc⟩, hn⟩, he⟩ := hp
  have hx := r.ext_of_len2 hr hlen
  simp only [Raw.ctl]
  refine ⟨?wf, congrArg some (encW_eq hm hd.symm ha.symm hb.symm hc.symm hmin.symm hlen (by omega))⟩
  case wf =>
    simp only [Instr.wf, r.guard_wf hr, Bool.and_eq_true, Bool.or_eq_true, beq_iff_eq, decide_eq_true_eq, true_and]
    exact ⟨⟨Nat.pos_of_ne_zero hn, Nat.mod_lt _ (by decide)⟩, he⟩

theorem if_reads {e n : Nat} (hw : (Instr.ifI g e n).wf = true) : Reads (.ifI g e n) := by
  simp only [Instr.wf, Bool.and_eq_true, Bool.or_eq_true, Guard.wf, decide_eq_true_eq, beq_iff_eq] at hw
  obtain ⟨⟨⟨hg, hn0⟩, hn⟩, he⟩ := hw
  have h1 : (e + n * 2 ^ 16) % 2 ^ 16 = e := by omega
  have h2 : (e + n * 2 ^ 16) / 2 ^ 16 % 2 ^ 16 = n := by omega
  refine reads_of rfl rfl ?_ ?_
  · simp only [passes_iff, Raw.ctl, encW, h1, h2]
    simp [Nat.ne_of_gt hn0, he]
  · simp only [Raw.ctl, encW, h1, h2, Raw.guard]

theorem waitp_sound (hr : InPlace r) (hm : r.maj = 0x0F) (h : r.parseControl = some p) : Sound r p := by
  simp only [Raw.parseControl, hm, Option.some.injEq] at h
  subst h
  intro hp
  simp only [passes_iff, Bool.and_eq_true, beq_iff_eq, noGuard_iff, decide_eq_true_eq, and_true] at hp
  obtain ⟨hlen, hmin, ⟨⟨hg, hd⟩, ha⟩, hb⟩ := hp
  refine ⟨?wf, congrArg some (encU_eq hr hm hd.symm ha.symm hb.symm rfl (Nat.mod_eq_of_lt hmin) hlen hg)⟩
  case wf => simp [Instr.wf, Nat.mod_lt, hr.c]

theorem waitp_reads {k t : Nat} (hw : (Instr.waitp k t).wf = true) : Reads (.waitp k t) := by
  simp only [Instr.wf, Bool.and_eq_true, decide_eq_true_eq] at hw
  obtain ⟨hk, ht⟩ := hw
  refine reads_of_check rfl ?_
  simp [Raw.check, Raw.parse, Raw.parseControl, encU, Raw.noGuard, Nat.mod_eq_of_lt hk, hk]

theorem try_sound (hr : InPlace r) (hm : r.maj = 0x10) (h : r.parseControl = some p) : Sound r p := by
  simp only [Raw.parseControl, hm, Option.some.injEq] at h
  subst h
  intro hp
  simp only [passes_iff, Raw.ctl, List.contains_cons, List.contains_nil, Bool.or_false, Bool.false_or, Bool.and_eq_true, beq_iff_eq, noGuard_iff,
    decide_eq_true_eq, and_true] at hp
  obtain ⟨hlen, hmin, ⟨⟨⟨hg, hd⟩, ha⟩, hb⟩, hc⟩ := hp
  have henc : ∀ k, r.min = k → encW 0x10 .all 0 0 0 0 k r.imm.toNat = r := fun k hk =>
    hg ▸ encW_eq hm hd.symm ha.symm hb.symm hc.symm hk.symm hlen (r.imm_toNat hr hlen)
  have : r.min = 0 ∨ r.min = 1 ∨ r.min = 2 := by omega
  rcases this with h | h | h <;> simp only [Raw.ctl, h] <;> exact ⟨rfl, congrArg some (henc _ h)⟩

theorem endtry_sound (hr : InPlace r) (hm : r.maj = 0x11) (h : r.parseControl = some p) : Sound r p := by
  simp only [Raw.parseControl, hm, Option.some.injEq] at h
  subst h
  intro hp
  simp only [passes_iff, Raw.ctl, List.contains_cons, List.contains_nil, Bool.or_false, Bool.false_or, Bool.and_eq_true, beq_iff_eq, noGuard_iff,
    decide_eq_true_eq, and_true] at hp
  obtain ⟨hlen, hmin, ⟨⟨⟨hg, hd⟩, ha⟩, hb⟩, hc⟩ := hp
  have henc : ∀ k, r.min = k → encU 0x11 0 0 0 0 k = r := fun k hk =>
    encU_eq hr hm hd.symm ha.symm hb.symm hc.symm hk.symm hlen hg
  have : r.min = 0 ∨ r.min = 1 ∨ r.min = 2 := by omega
  rcases this with h | h | h <;> simp only [Raw.ctl, h] <;> exact ⟨rfl, congrArg some (henc _ h)⟩

theorem try_reads {off : W32} : Reads (.tryGang off) ∧ Reads (.tryCrew off) ∧ Reads (.tryLaunch off) := by
  refine ⟨?_, ?_, ?_⟩ <;>
    refine reads_of_check rfl ?_ <;>
    simp [Raw.check, Raw.parse, Raw.parseControl, Raw.ctl, encW, Raw.noGuard, Guard.all, Raw.imm]

theorem throw_sound (hr : InPlace r) (hm : r.maj = 0x12) (h : r.parseControl = some p) : Sound r p := by
  simp only [Raw.parseControl, hm, Option.some.injEq] at h
  subst h
  intro hp
  simp only [passes_iff, Bool.and_eq_true, beq_iff_eq, and_true] at hp
  obtain ⟨hlen, hmin, ⟨⟨hd, hb⟩, hc⟩, ha⟩ := hp
  refine ⟨?wf, congrArg some (encG_eq hr hm hd.symm (code_of_fieldOf hr.a ha) hb.symm hc.symm hmin.symm hlen)⟩
  case wf => simp [Instr.wf, r.guard_wf hr, fits_of_fieldOf hr.a ha]

theorem throw_reads {a : Opd} (hw : (Instr.throw g a).wf = true) : Reads (.throw g a) := by
  simp only [Instr.wf, Bool.and_eq_true, fits_iff, Guard.wf, decide_eq_true_eq] at hw
  obtain ⟨hg, haw, hac, -⟩ := hw
  refine reads_of_check rfl ?_
  simp [Raw.check, Raw.parse, Raw.parseControl, encG, Raw.guard, fieldOf_code, op_code, haw, hac]

theorem rdexr_sound (hr : InPlace r) (hm : r.maj = 0x14) (h : r.parseControl = some p) : Sound r p := by
  simp only [Raw.parseControl, hm, Option.some.injEq] at h
  subst h
  intro hp
  simp only [passes_iff, Bool.and_eq_true, beq_iff_eq, noGuard_iff, and_true] at hp
  obtain ⟨hlen, hmin, ⟨⟨hg, hb⟩, hc⟩, hd, ha⟩ := hp
  refine ⟨?wf, congrArg some (encU_eq hr hm (code_of_fieldOf hr.d hd) (code_of_fieldOf hr.a ha) hb.symm hc.symm hmin.symm hlen hg)⟩
  case wf => simp [Instr.wf, sk, fits_of_fieldOf hr.d hd, fits_of_fieldOf hr.a ha]

theorem rdexr_reads {d a : Opd} (hw : (Instr.rdexr d a).wf = true) : Reads (.rdexr d a) := by
  simp only [Instr.wf, Bool.and_eq_true, fits_iff] at hw
  refine reads_of_check rfl ?_
  simp_all [Raw.check, Raw.parse, Raw.parseControl, encU, Raw.noGuard, fieldOf_code, op_code, sk]

theorem brk_reads : Reads (.brk g) ∧ Reads (.cont g) := by
  constructor <;> exact reads_of_check rfl rfl

/-- The rows of 0x00 to 0x14 (the cases are numbered from 0x00 on). -/
theorem parseControl_sound (hr : InPlace r) (h : r.parseControl = some p) : Sound r p := by
  have row := h
  unfold Raw.parseControl at h
  extract_lets at h
  split at h
  case h_1 hm | h_6 hm | h_8 hm | h_9 hm | h_10 hm | h_13 hm | h_14 hm | h_15 hm | h_20 hm => cases h; exact ctl_sound hr hm ⟨rfl, rfl⟩
  case h_11 hm | h_12 hm => cases h; exact ctlG_sound hr hm ⟨r.guard_wf hr, rfl⟩
  case h_2 hm => exact bra_sound hr hm row
  case h_3 hm => exact brc_sound hr hm row
  case h_4 hm => exact call_sound hr hm row
  case h_5 hm => exact callv_sound hr hm row
  case h_7 hm => exact if_sound hr hm row
  case h_16 hm => exact waitp_sound hr hm row
  case h_17 hm => exact try_sound hr hm row
  case h_18 hm => exact endtry_sound hr hm row
  case h_19 hm => exact throw_sound hr hm row
  case h_21 hm => exact rdexr_sound hr hm row
  case h_22 => cases h

end Sys2Proof
end

section
/-!
# The encodings of 09_float, majors 0x50 to 0x65
-/

namespace Sys2Proof
open Laws (InPlace)

variable {r : Raw} {p : Parsed} {i : Instr} {g : Guard} {n m c : Nat}

theorem fmin_sound {mk : Bool → Bin → Instr} (hr : InPlace r) (hm : r.maj = m)
    (spells : ∀ nan x, wfBin tyFloats false x = true → Spells (encBin m (b2n nan) 0 x) (mk nan x)) :
    Sound r (r.bin [1, 2] (tyFloats.map Ety.code) false (r.sub < 2) (r.c == 0) vsrc true (mk (r.sub == 1))) := by
  refine bin_sound hr hm fun x hw hsub hc => ?_
  have hsub : r.sub < 2 := of_decide_eq_true hsub
  have hnan : b2n (r.sub == 1) = r.sub := by
    have : r.sub = 0 ∨ r.sub = 1 := by omega
    rcases this with h | h <;> rw [h] <;> rfl
  have hs := spells (r.sub == 1) x (wfBin_eq x ▸ hw)
  rwa [hnan, ← eq_of_beq hc] at hs

theorem fmin_reads {mk : Bool → Bin → Instr} {nan : Bool} {x : Bin} (hw : wfBin tyFloats false x = true)
    (he : enc (mk nan x) = some (encBin m (b2n nan) 0 x))
    (hparse : (encBin m (b2n nan) 0 x).parse = some ((encBin m (b2n nan) 0 x).bin [1, 2] (tyFloats.map Ety.code) false
      ((encBin m (b2n nan) 0 x).sub < 2) ((encBin m (b2n nan) 0 x).c == 0) vsrc true (mk ((encBin m (b2n nan) 0 x).sub == 1)))) :
    Reads (mk nan x) := by
  have hn := Laws.b2n_lt nan
  have hsub : (encBin m (b2n nan) 0 x).sub = b2n nan := encMin_div x.ty.code_lt
  refine bin_reads (wfBin_eq x ▸ hw) he hparse ?_ ?_ rfl
  · rw [hsub]
    cases nan <;> rfl
  · rw [hsub]
    exact decide_eq_true hn

theorem fcmp_sound (hr : InPlace r) (hm : r.maj = 0x58) (h : r.parseFloat = some p) : Sound r p := by
  simp only [Raw.parseFloat, hm, Option.some.injEq] at h
  subst h
  refine cmp_sound (tys := [.f32]) hr hm fun a b t ht hty hsub hc _ ha hb => ?_
  obtain rfl : t = .f32 := by simpa using ht
  simp only [Nat.mod_eq_of_lt hc]
  refine ⟨?wf, congrArg some ?enc⟩
  case wf => simp only [Instr.wf, Raw.guard_wf hr, decide_eq_true hc]; exact Bool.and_eq_true_iff.2 ⟨ha, hb⟩
  case enc => rw [FCond.code_getD r.sub (Nat.lt_succ_of_le hsub)]; rfl

theorem fcmpc_sound (hr : InPlace r) (hm : r.maj = 0x59) (h : r.parseFloat = some p) : Sound r p := by
  simp only [Raw.parseFloat, hm, Option.some.injEq] at h
  subst h
  refine cmp_sound (tys := [.f32]) hr hm fun a b t ht hty hsub hc hg ha hb => ?_
  obtain rfl : t = .f32 := by simpa using ht
  simp only [Nat.mod_eq_of_lt hc]
  refine ⟨?wf, congrArg some ?enc⟩
  case wf => simp only [Instr.wf, decide_eq_true hc]; exact Bool.and_eq_true_iff.2 ⟨ha, hb⟩
  case enc => rw [FCond.code_getD r.sub (Nat.lt_succ_of_le hsub), hg rfl]; rfl

theorem fcmp_reads {f : FCond} {k : Nat} {a b : Opd} (hw : (Instr.fcmp g f k a b).wf = true) : Reads (.fcmp g f k a b) := by
  simp only [Instr.wf, Bool.and_eq_true, Guard.wf, decide_eq_true_eq] at hw
  obtain ⟨⟨⟨hg, hk⟩, ha⟩, hb⟩ := hw
  refine cmp_reads (t := .f32) (tys := [.f32]) (uni := false) rfl rfl ?_ rfl nofun ha hb (Nat.le_of_lt_succ (Laws.fcond_code f)) hk
  simp [encCmp, Raw.guard, Raw.sub, encMin_div, Ety.code_lt, FCond.ofCode_code, Nat.mod_eq_of_lt hk]

theorem fcmpc_reads {f : FCond} {k : Nat} {a b : Opd} (hw : (Instr.fcmpc f k a b).wf = true) : Reads (.fcmpc f k a b) := by
  simp only [Instr.wf, Bool.and_eq_true, decide_eq_true_eq] at hw
  obtain ⟨⟨hk, ha⟩, hb⟩ := hw
  refine cmp_reads (t := .f32) (tys := [.f32]) (uni := true) rfl rfl ?_ rfl (fun _ => rfl) ha hb (Nat.le_of_lt_succ (Laws.fcond_code f)) hk
  simp [encCmp, Raw.sub, encMin_div, Ety.code_lt, FCond.ofCode_code, Nat.mod_eq_of_lt hk]

theorem fclass_sound (hr : InPlace r) (hm : r.maj = 0x62) (h : r.parseFloat = some p) : Sound r p := by
  simp only [Raw.parseFloat, hm, Option.some.injEq] at h
  subst h
  intro hp
  simp only [passes_iff, Bool.and_eq_true, Bool.not_eq_true', beq_iff_eq, decide_eq_true_eq, and_true] at hp
  obtain ⟨hlen, ⟨⟨hty, hs⟩, hsub⟩, ⟨⟨⟨hd, hb⟩, hc⟩, hext⟩, ha⟩ := hp
  have hc16 := Nat.mod_eq_of_lt hc
  refine ⟨?wf, congrArg some (encW_eq hm hd.symm (code_of_fieldOf hr.a ha) hb.symm hc16 ?min hlen (Nat.mod_eq_of_lt hext))⟩
  case wf => simp [Instr.wf, Raw.guard_wf hr, hc16, hc, fits_of_fieldOf hr.a ha]
  case min => rw [← r.min_eq, hs, hty, hsub]; rfl

theorem fclass_reads {k : Nat} {a : Opd} {mask : BitVec 10} (hw : (Instr.fclass g k a mask).wf = true) : Reads (.fclass g k a mask) := by
  simp only [Instr.wf, Bool.and_eq_true, fits_iff, Guard.wf, decide_eq_true_eq] at hw
  refine reads_of_check rfl ?_
  simp [Raw.check, Raw.parse, Raw.parseFloat, encW, Raw.guard, Raw.tyc, Raw.sat, Raw.sub, Nat.testBit, fieldOf_code, op_code, Nat.mod_eq_of_lt,
    mask.isLt, *]

/-! ### CVT and CVTMX (R185 to R187) -/

theorem Fmt.code_of_ofCode {f : Fmt} (h : Fmt.ofCode n = some f) : f.code = n := by
  unfold Fmt.ofCode at h
  split at h <;> cases h <;> rfl

theorem fmt_of_isSome (h : (Fmt.ofCode n).isSome = true) : ∃ f : Fmt, Fmt.ofCode n = some f ∧ n = f.code := by
  obtain ⟨f, hf⟩ := Option.isSome_iff_exists.1 h
  exact ⟨f, hf, (Fmt.code_of_ofCode hf).symm⟩

theorem Fmt.code_inj {f f' : Fmt} (h : f.code = f'.code) : f = f' := by
  have := congrArg Fmt.ofCode h
  simpa [Fmt.ofCode_code] using this

/-- CVT takes a constant only from a 32-bit format, by code or by format (R185). -/
theorem cvtConst_iff {f : Fmt} : (f.code = 0 ∨ f.code = 1) ∨ f.code = 8 ↔ (f = .s32 ∨ f = .u32) ∨ f = .f32 := by
  cases f <;> decide

/-- The guard of a destination, as the parsers of CVT and CVTMX check it. -/
theorem wfDst_of_field (hr : InPlace r) (hd : fieldOf r.d ddst = true) (hg : (!(Raw.op r.d).1.isScalarDst || r.noGuard) = true) :
    wfDst r.guard (Raw.op r.d).1 false = true :=
  wfDst_of_op hr (fieldOf_iff.1 hd).1 (fieldOf_iff.1 hd).2 (Opd.evenIf_false _) hg

theorem cvt_sound (hr : InPlace r) (hm : r.maj = 0x63) (h : r.parseFloat = some p) : Sound r p := by
  simp only [Raw.parseFloat, hm, Option.some.injEq] at h
  subst h
  intro hp
  simp only [passes_iff, Bool.and_eq_true, beq_iff_eq, bne_iff_ne, decide_eq_true_eq, and_true] at hp
  obtain ⟨hlen, ⟨⟨hsrc, htgt⟩, hne⟩, ⟨⟨⟨⟨hb, hc⟩, hsi⟩, hdi⟩, hg⟩, ⟨hd, ha⟩, hk⟩ := hp
  obtain ⟨src, hsrc, hsc⟩ := fmt_of_isSome hsrc
  obtain ⟨tgt, htgt, htc⟩ := fmt_of_isSome htgt
  have hne : tgt ≠ src := fun h => hne (by rw [hsc, htc, h])
  simp only [hsrc, htgt, Option.getD_some] at hsi hdi ⊢
  refine ⟨?wf, congrArg some (encG_eq hr hm (code_of_fieldOf hr.d hd) (code_of_fieldOf hr.a ha) hb.symm ?c ?min hlen)⟩
  case wf =>
    have hisK : src = .s32 ∨ src = .u32 ∨ src = .f32 ∨ (Raw.op r.a).1.isOf [.k] = false := by
      have hop := (fieldOf_iff.1 ha).1
      simp only [hsc, fieldOf, hop, Bool.or_eq_true, beq_iff_eq, Bool.not_eq_true', Bool.true_and, cvtConst_iff] at hk
      tauto
    simp [Instr.wf, hne, wfDst_of_field hr hd hg, srcOf, fits_of_fieldOf hr.a ha, hsi, hdi, Nat.mod_lt, or_assoc, hisK]
  case c => omega
  case min => rw [← r.min_eq, ← hsc, ← htc]

theorem cvt_reads {tgt src : Fmt} {sat : Bool} {d a : Opd} {si di : Nat} (hw : (Instr.cvt g tgt src sat d a si di).wf = true) :
    Reads (.cvt g tgt src sat d a si di) := by
  simp only [Instr.wf, Bool.and_eq_true, Bool.or_eq_true, bne_iff_ne, beq_iff_eq, Bool.not_eq_true', decide_eq_true_eq, wfDst_iff, fits_iff] at hw
  obtain ⟨⟨⟨⟨⟨⟨⟨hne, hg, ⟨hdw, hdc, -⟩, hall⟩, haw, hac, -⟩, hsi⟩, hdi⟩, hsi8⟩, hdi8⟩, hk⟩ := hw
  have hs := Laws.fmt_code src
  have hmod : (si + di * 8) % 8 = si := by omega
  have hdiv : (si + di * 8) / 8 % 8 = di := by omega
  have hlt : si + di * 8 < 64 := by omega
  have hcode : src.code ≠ tgt.code := fun h => hne (Fmt.code_inj h).symm
  refine reads_of rfl rfl ?_ ?_
  · simp only [passes_iff, encG, Raw.tyc, Raw.sub, op_code hdw, op_code haw, encMin_div hs, encMin_mod hs, Fmt.ofCode_code, Option.getD_some, hmod,
      hdiv, hlt, fieldOf_code hdw, fieldOf_code haw, hdc, hsi, hdi]
    cases hsc : d.isScalarDst <;> simp_all [srcOf, Raw.noGuard, Guard.all, ← cvtConst_iff]
  · simp only [encG, Raw.tyc, Raw.sub, Raw.sat, Raw.guard, op_code hdw, op_code haw, encMin_div hs, encMin_mod hs, encMin_sat hs, Fmt.ofCode_code,
      Option.getD_some, hmod, hdiv]

/-- The formats of CVTMX, with the number of the last group each has. -/
theorem mxFmt (h : n = 11 ∨ n = 13) : ∃ f : Fmt, Fmt.ofCode n = some f ∧ n = f.code ∧ (f = .e4m3 ∨ f = .e2m1)
    ∧ (if n = 11 then 4 else 8) = if f = .e4m3 then 4 else 8 := by
  rcases h with rfl | rfl
  · exact ⟨.e4m3, rfl, rfl, .inl rfl, rfl⟩
  · exact ⟨.e2m1, rfl, rfl, .inr rfl, rfl⟩

theorem cvtmx_sound (hr : InPlace r) (hm : r.maj = 0x64) (h : r.parseFloat = some p) : Sound r p := by
  simp only [Raw.parseFloat, hm] at h
  split at h <;> rw [Option.some.injEq] at h <;> subst h <;> intro hp
  case isTrue hscale =>
    simp only [passes_iff, Bool.and_eq_true, Bool.or_eq_true (_ == _), Bool.not_eq_true', beq_iff_eq, decide_eq_true_eq, and_true] at hp
    obtain ⟨hlen, ⟨⟨hty, hs⟩, hsub⟩, ⟨⟨hb, hc⟩, hg⟩, hd, ha⟩ := hp
    obtain ⟨f, hf, hfc, hmx, -⟩ := mxFmt hty
    simp only [hf, Option.getD_some]
    refine ⟨?wf, congrArg some (encG_eq hr hm (code_of_fieldOf hr.d hd) (code_of_fieldOf hr.a ha) hb.symm hc.symm ?min hlen)⟩
    case wf => simp [Instr.wf, hmx, wfDst_of_field hr hd hg, srcOf, fits_of_fieldOf hr.a ha]
    case min => rw [← r.min_eq, hs, hfc, eq_of_beq hscale]; simp [encMin, b2n]
  case isFalse hscale =>
    simp only [passes_iff, Bool.and_eq_true, Bool.or_eq_true (_ == _), Bool.not_eq_true', beq_iff_eq, decide_eq_true_eq, and_true] at hp
    obtain ⟨hlen, ⟨⟨hty, hs⟩, hsub⟩, ⟨hc, hg⟩, ⟨hd, ha⟩, hb⟩ := hp
    obtain ⟨f, hf, hfc, hmx, hlim⟩ := mxFmt hty
    have hsub : r.sub = 0 := by
      have : r.sub ≠ 1 := by simpa using hscale
      omega
    rw [hlim] at hc
    have hc8 : r.c % 8 = r.c := Nat.mod_eq_of_lt (Nat.lt_of_lt_of_le hc (by split <;> decide))
    simp only [hf, Option.getD_some, hc8]
    refine ⟨?wf', congrArg some (encG_eq hr hm (code_of_fieldOf hr.d hd) (code_of_fieldOf hr.a ha) (code_of_fieldOf hr.b hb) rfl ?min' hlen)⟩
    case wf' =>
      simp only [Instr.wf, wfDst_of_field hr hd hg, srcOf, fits_of_fieldOf hr.a ha (Opd.evenIf_false _), fits_of_fieldOf hr.b hb (Opd.evenIf_false _)]
      simp [hmx, hc]
    case min' => rw [← r.min_eq, hs, hfc, hsub]; simp [encMin, b2n]

theorem cvtmxScale_reads {f : Fmt} {d a : Opd} (hw : (Instr.cvtmxScale g f d a).wf = true) : Reads (.cvtmxScale g f d a) := by
  simp only [Instr.wf, Bool.and_eq_true, Bool.or_eq_true, beq_iff_eq, wfDst_iff, fits_iff] at hw
  obtain ⟨⟨hmx, hg, ⟨hdw, hdc, -⟩, hall⟩, haw, hac, -⟩ := hw
  refine reads_of_check rfl ?_
  rcases hmx with rfl | rfl <;> cases hsc : d.isScalarDst <;>
    simp_all [Raw.check, Raw.parse, Raw.parseFloat, encG, Raw.guard, Raw.noGuard, Guard.all, Raw.tyc, Raw.sat, Raw.sub, Nat.testBit, fieldOf_code,
      op_code, Fmt.code, Fmt.ofCode, srcOf]

theorem cvtmx_reads {f : Fmt} {d a b : Opd} {di : Nat} (hw : (Instr.cvtmx g f d a b di).wf = true) : Reads (.cvtmx g f d a b di) := by
  simp only [Instr.wf, Bool.and_eq_true, Bool.or_eq_true, beq_iff_eq, wfDst_iff, fits_iff, decide_eq_true_eq] at hw
  obtain ⟨⟨⟨⟨hmx, hg, ⟨hdw, hdc, -⟩, hall⟩, haw, hac, -⟩, hbw, hbc, -⟩, hdi⟩ := hw
  have hdi8 : di < 8 := Nat.lt_of_lt_of_le hdi (by split <;> decide)
  refine reads_of_check rfl ?_
  rcases hmx with rfl | rfl <;> cases hsc : d.isScalarDst <;>
    simp_all [Raw.check, Raw.parse, Raw.parseFloat, encG, Raw.guard, Raw.noGuard, Guard.all, Raw.tyc, Raw.sat, Raw.sub, Nat.testBit, fieldOf_code,
      op_code, Fmt.code, Fmt.ofCode, srcOf, Nat.mod_eq_of_lt]

theorem fscale_sound (hr : InPlace r) (hm : r.maj = 0x65) (h : r.parseFloat = some p) : Sound r p := by
  simp only [Raw.parseFloat, hm, Option.some.injEq] at h
  subst h
  refine bin_sound (tys := tyFloats) hr hm fun x hw hsub hc => ⟨?wf, congrArg some ?enc⟩
  case wf => exact (wfBinNarrow_floats x).trans hw
  case enc => rw [eq_of_beq hsub, eq_of_beq hc]

theorem fscale_reads {x : Bin} (hw : (Instr.fscale x).wf = true) : Reads (.fscale x) := by
  refine bin_reads (tys := tyFloats) ((wfBinNarrow_floats x).symm.trans hw) rfl rfl rfl ?_ rfl
  simp only [encBin, Raw.sub, encMin_div x.ty.code_lt, beq_self_eq_true]

/-- The rows of 0x50 to 0x65, by their shared form (the cases are numbered from 0x50 on). -/
theorem parseFloat_sound (hr : InPlace r) (h : r.parseFloat = some p) : Sound r p := by
  have row := h
  unfold Raw.parseFloat at h
  extract_lets at h
  split at h
  case h_1 hm | h_2 hm | h_3 hm => cases h; exact b2_sound (tys := tyFloats) hr hm fun _ hw => ⟨hw, rfl⟩
  case h_4 hm => cases h; exact ter_sound (tys := tyFloats) hr hm fun _ hw => ⟨hw, rfl⟩
  case h_5 hm | h_6 hm => cases h; exact fmin_sound hr hm fun _ _ hw => ⟨hw, rfl⟩
  case h_7 hm | h_8 hm | h_11 hm | h_12 hm | h_13 hm | h_14 hm | h_15 hm | h_16 hm | h_17 hm | h_18 hm =>
    cases h; exact un_sound (tys := tyFloats) hr hm fun _ hw => ⟨hw, rfl⟩
  case h_9 hm => exact fcmp_sound hr hm row
  case h_10 hm => exact fcmpc_sound hr hm row
  case h_19 hm => exact fclass_sound hr hm row
  case h_20 hm => exact cvt_sound hr hm row
  case h_21 hm => exact cvtmx_sound hr hm row
  case h_22 hm => exact fscale_sound hr hm row
  case h_23 => cases h

end Sys2Proof
end

section
/-!
# The encodings of 12_memory_ops, majors 0x70 to 0x80
-/

namespace Sys2Proof
open Laws (InPlace)

variable {r : Raw} {p : Parsed} {i : Instr} {g : Guard} {n m c sub d b cHi : Nat} {sz : Size} {sc : Scope} {sx : Bool} {o : Opd}

/-! ### Sizes and scopes (Table 5-6) -/

theorem Size.wide_iff : 2 ≤ sz.code ↔ sz = .b32 ∨ sz = .b64 := by cases sz <;> decide
theorem Size.narrow_iff : sz.code < 2 ↔ sz = .b8 ∨ sz = .b16 := by cases sz <;> decide
theorem Scope.wide_iff : 2 ≤ sc.code ↔ sc = .dev ∨ sc = .sys := by cases sc <;> decide
theorem Scope.narrow_iff : sc.code < 2 ↔ sc = .gang ∨ sc = .crew := by cases sc <;> decide

/-- Without SAT the minor opcode is a sub-code, a size and a scope. -/
theorem Raw.size_scope (hs : r.sat = false) :
    ∃ (z : Size) (c : Scope), r.szc = z.code ∧ r.scc = c.code ∧ memMin r.sub z c = r.min := by
  have hz := Size.code_ofCode r.szc (Nat.mod_lt _ (by decide))
  have hc := Scope.code_ofCode r.scc (Nat.mod_lt _ (by decide))
  refine ⟨_, _, hz.symm, hc.symm, ?_⟩
  simp only [Raw.sat, Nat.testBit_eq_decide_div_mod_eq, decide_eq_false_iff_not] at hs
  rw [memMin, hz, hc]
  simp only [Raw.sub, Raw.szc, Raw.scc]
  omega

theorem memMin_parts (sub : Nat) (sz : Size) (sc : Scope) : memMin sub sz sc / 32 = sub ∧ (memMin sub sz sc).testBit 4 = false
    ∧ memMin sub sz sc / 4 % 4 = sz.code ∧ memMin sub sz sc % 4 = sc.code := by
  have := Laws.size_code sz
  have := Laws.scope_code sc
  simp only [memMin, Nat.testBit_eq_decide_div_mod_eq, decide_eq_false_iff_not]
  omega

/-! ### The global and the scratchpad forms -/

section
variable (hr : InPlace r) (hm : r.maj = m) (hl : r.len = 1 ∨ r.len = 2) (hs : r.sat = false)
include hr

theorem gmem_wf (ha : fieldOf r.a laneCls = true) : wfGMem r.gmem = true := by
  simp [wfGMem, Raw.gmem, r.guard_wf hr, fits_of_fieldOf hr.a ha, Nat.mod_lt]

theorem smem_wf (ha : fieldOf r.a sk = true) (hb : fieldOf r.b laneCls = true) (hsc : r.scc < 2) : wfSMem r.smem = true := by
  have hc : (Scope.ofCode r.scc).code = r.scc := Scope.code_ofCode _ (by omega)
  rw [← hc, Scope.narrow_iff] at hsc
  simp only [Raw.scc] at hsc
  simp [wfSMem, Raw.smem, r.guard_wf hr, fits_of_fieldOf hr.a ha, fits_of_fieldOf hr.b hb, hsc]

include hm hl hs

theorem encGMem_eq (hsub : sub = r.sub) (ha : (Raw.op r.a).1.code = r.a) (hd : d = r.d) (hb : b = r.b) (hc : r.c % 32 + cHi * 32 = r.c) :
    encGMem m sub r.gmem d b cHi = r := by
  subst hsub
  obtain ⟨hdl, hdx⟩ := of_disp hr hl
  obtain ⟨z, c, hz, hsc, hmin⟩ := r.size_scope hs
  have hgz : Size.ofCode (r.min / 4 % 4) = z := by rw [← Size.ofCode_code z, ← hz]; rfl
  have hgc : Scope.ofCode (r.min % 4) = c := by rw [← Scope.ofCode_code c, ← hsc]; rfl
  refine Eq.trans ?_ r.eta.symm
  simp only [encGMem, Raw.gmem, Raw.guard, hdl, hdx, hm, hd, ha, hb, hc, hgz, hgc, hmin]

theorem encSMem_eq (hsub : sub = r.sub) (ha : (Raw.op r.a).1.code = r.a) (hb : (Raw.op r.b).1.code = r.b) (hd : d = r.d) (hc : c = r.c) :
    encSMem m sub r.smem d c = r := by
  subst hsub
  obtain ⟨hdl, hdx⟩ := of_disp hr hl
  obtain ⟨z, c, hz, hsc, hmin⟩ := r.size_scope hs
  have hgz : Size.ofCode (r.min / 4 % 4) = z := by rw [← Size.ofCode_code z, ← hz]; rfl
  have hgc : Scope.ofCode (r.min % 4) = c := by rw [← Scope.ofCode_code c, ← hsc]; rfl
  refine Eq.trans ?_ r.eta.symm
  simp only [encSMem, Raw.smem, Raw.guard, hdl, hdx, hm, hd, ha, hb, hc, hgz, hgc, hmin]

end

theorem encGMem_gmem {x : GMem} (hw : wfGMem x = true) : (encGMem m sub x d b cHi).gmem = x := by
  obtain ⟨g, size, scope, idx, rc, disp⟩ := x
  simp only [wfGMem, Bool.and_eq_true, fits_iff, decide_eq_true_eq] at hw
  obtain ⟨⟨hg, hiw, -⟩, hrc⟩ := hw
  obtain ⟨-, -, hz, hc⟩ := memMin_parts sub size scope
  have hdisp := disp_of_dispLen (r := encGMem m sub ⟨g, size, scope, idx, rc, disp⟩ d b cHi) rfl rfl
  have hrc : (rc + cHi * 32) % 32 = rc := by omega
  simp only [Raw.gmem, hdisp]
  simp only [encGMem, Raw.guard, hz, hc, Size.ofCode_code, Scope.ofCode_code, op_code hiw, hrc]

theorem encSMem_smem {x : SMem} (hw : wfSMem x = true) : (encSMem m sub x d c).smem = x := by
  obtain ⟨g, size, scope, base, off, disp⟩ := x
  simp only [wfSMem, Bool.and_eq_true, fits_iff] at hw
  obtain ⟨⟨⟨hg, hbw, -⟩, how, -⟩, -⟩ := hw
  obtain ⟨-, -, hz, hc⟩ := memMin_parts sub size scope
  have hdisp := disp_of_dispLen (r := encSMem m sub ⟨g, size, scope, base, off, disp⟩ d c) rfl rfl
  simp only [Raw.smem, hdisp]
  simp only [encSMem, Raw.guard, hz, hc, Size.ofCode_code, Scope.ofCode_code, op_code hbw, op_code how]

theorem dispLen_cases (x : Option W32) : (dispLen x == 1 || dispLen x == 2) = true := by cases x <;> rfl

/-- What the parser reads of the minor opcode and the length of a global form. -/
theorem encGMem_parts (m sub : Nat) (x : GMem) (d b cHi : Nat) : (encGMem m sub x d b cHi).sub = sub ∧ (encGMem m sub x d b cHi).sat = false
    ∧ (encGMem m sub x d b cHi).szc = x.size.code ∧ (encGMem m sub x d b cHi).scc = x.scope.code
    ∧ ((encGMem m sub x d b cHi).len == 1 || (encGMem m sub x d b cHi).len == 2) = true := by
  obtain ⟨hdiv, hs, hz, hc⟩ := memMin_parts sub x.size x.scope
  exact ⟨hdiv, hs, hz, hc, dispLen_cases x.disp⟩

theorem encSMem_parts (m sub : Nat) (x : SMem) (d c : Nat) : (encSMem m sub x d c).sub = sub ∧ (encSMem m sub x d c).sat = false
    ∧ (encSMem m sub x d c).szc = x.size.code ∧ (encSMem m sub x d c).scc = x.scope.code
    ∧ ((encSMem m sub x d c).len == 1 || (encSMem m sub x d c).len == 2) = true := by
  obtain ⟨hdiv, hs, hz, hc⟩ := memMin_parts sub x.size x.scope
  exact ⟨hdiv, hs, hz, hc, dispLen_cases x.disp⟩

theorem wfGMem_parts {x : GMem} (h : wfGMem x = true) : fieldOf x.idx.code [.v, .s, .k, .x] = true ∧ x.rc < 32 := by
  simp only [wfGMem, Bool.and_eq_true, fits_iff, decide_eq_true_eq] at h
  obtain ⟨⟨-, how, hcls, -⟩, hrc⟩ := h
  exact ⟨(fieldOf_code how).trans hcls, hrc⟩

theorem wfSMem_parts {x : SMem} (h : wfSMem x = true) :
    fieldOf x.base.code [.s, .k] = true ∧ fieldOf x.off.code [.v, .s, .k, .x] = true ∧ x.scope.code < 2 := by
  simp only [wfSMem, Bool.and_eq_true, Bool.or_eq_true, beq_iff_eq, fits_iff] at h
  obtain ⟨⟨⟨-, hbw, hbc, -⟩, how, hoc, -⟩, hsc⟩ := h
  exact ⟨(fieldOf_code hbw).trans hbc, (fieldOf_code how).trans hoc, Scope.narrow_iff.2 hsc⟩

/-! ### Loads (R242) -/

theorem isOf_vq (o : Opd) : o.isOf [.v, .q] = (o.isOf [.v] || o.isOf [.q]) := by
  cases o with
  | x sp => cases sp <;> rfl
  | _ => rfl

/-- A sign extension stands only with a size below 32 bits. -/
theorem extend_iff : (!sx || decide (sz.code < 2)) = true ↔ sx = false ∨ sz = .b8 ∨ sz = .b16 := by
  cases sx <;> cases sz <;> decide

theorem loadDst_of (hr : InPlace r) (hd : (fieldOf r.d [.v, .q] && !(sz.is64 && fieldOf r.d [.q])) = true)
    (he : (Raw.op r.d).1.evenIf sz.is64 = true) (hx : (!sx || decide (sz.code < 2)) = true) : wfLoadDst sz sx (Raw.op r.d).1 = true := by
  have hx := extend_iff.1 hx
  simp only [Bool.and_eq_true, Bool.not_eq_true'] at hd
  obtain ⟨hvq, hq⟩ := hd
  have hop := (fieldOf_iff.1 hvq).1
  have hcls : fieldOf r.d (if sz.is64 then [.v] else [.v, .q]) = true := by
    cases h64 : sz.is64 with
    | false => simpa using hvq
    | true =>
      simp only [h64, fieldOf, hop, isOf_vq, Bool.true_and] at hvq hq
      simpa [fieldOf, hop, hq] using hvq
  simp [wfLoadDst, fits_of_fieldOf hr.d hcls he, or_assoc, hx]

theorem loadDst_parts (h : wfLoadDst sz sx o = true) : o.wf = true ∧ (fieldOf o.code [.v, .q] && !(sz.is64 && fieldOf o.code [.q])) = true
    ∧ o.evenIf sz.is64 = true ∧ (!sx || decide (sz.code < 2)) = true := by
  simp only [wfLoadDst, Bool.and_eq_true, Bool.or_eq_true, Bool.not_eq_true', beq_iff_eq, or_assoc, fits_iff] at h
  obtain ⟨⟨how, hcls, he⟩, hx⟩ := h
  refine ⟨how, ?_, he, extend_iff.2 hx⟩
  cases h64 : sz.is64 with
  | false => simpa [fieldOf_code how, h64] using hcls
  | true =>
    have hv : o.isOf [.v] = true := by simpa [h64] using hcls
    have hq : o.isOf [.q] = false := by
      cases o with
      | v n => rfl
      | imm w => cases how
      | x sp => cases sp <;> cases hv
      | _ => cases hv
    simp [fieldOf_code how, isOf_vq, hv, hq]

/-- The sub-code of a load: sign extension in bit 1, a residency predicate in bit 0. -/
theorem loadSub (h : n < 4) : (n % 2 = 0 → b2n (n / 2 % 2 == 1) * 2 = n) ∧ (n % 2 = 1 → b2n (n / 2 % 2 == 1) * 2 + 1 = n) := by
  have : n = 0 ∨ n = 1 ∨ n = 2 ∨ n = 3 := by omega
  rcases this with rfl | rfl | rfl | rfl <;> decide

theorem ld_sound (hr : InPlace r) (hm : r.maj = 0x70) (h : r.parseMem = some p) : Sound r p := by
  simp only [Raw.parseMem, hm, Option.some.injEq] at h
  subst h
  intro hp
  obtain ⟨hlen, hminor, hresv, hcls, hpair⟩ := passes_iff.1 hp
  obtain ⟨hminor, hsx⟩ := Bool.and_eq_true_iff.1 hminor
  obtain ⟨hdq, ha⟩ := Bool.and_eq_true_iff.1 hcls
  simp only [Bool.and_eq_true, Bool.or_eq_true, Bool.not_eq_true', beq_iff_eq, decide_eq_true_eq] at hlen hresv hminor
  obtain ⟨⟨hb, hc⟩, hrp⟩ := hresv
  obtain ⟨hs, hsub⟩ := hminor
  have hz : r.szc = (Size.ofCode r.szc).code := (Size.code_ofCode _ (Nat.mod_lt _ (by decide))).symm
  rw [hz] at hsx
  have hdst := loadDst_of hr hdq hpair hsx
  have hwf := gmem_wf hr ha
  have henc : ∀ {sub cHi}, sub = r.sub → r.c % 32 + cHi * 32 = r.c → encGMem 0x70 sub r.gmem (Raw.op r.d).1.code 0 cHi = r := fun h1 h2 =>
    encGMem_eq hr hm hlen hs h1 (code_of_fieldOf hr.a ha) (code_of_fieldOf hr.d (Bool.and_eq_true_iff.1 hdq).1) hb.symm h2
  by_cases hodd : r.sub % 2 = 1
  · simp only [hodd, if_true, bne_iff_ne, beq_self_eq_true] at hrp ⊢
    refine ⟨?rp, congrArg some (henc ((loadSub hsub).2 hodd) (by omega))⟩
    simp only [Instr.wf, hwf, Bool.and_eq_true, decide_eq_true_eq]
    exact ⟨⟨⟨trivial, hdst⟩, Nat.pos_of_ne_zero hrp⟩, Nat.mod_lt _ (by decide)⟩
  · simp only [hodd, if_false, beq_iff_eq] at hrp ⊢
    refine ⟨?plain, congrArg some (henc ((loadSub hsub).1 (by omega)) (by omega))⟩
    exact Bool.and_eq_true_iff.2 ⟨hwf, hdst⟩

theorem loadSub_of (k : Nat) (h : k < 2) : (b2n sx * 2 + k) % 2 = k ∧ ((b2n sx * 2 + k) / 2 % 2 == 1) = sx ∧ b2n sx * 2 + k < 4 := by
  have : k = 0 ∨ k = 1 := by omega
  rcases this with rfl | rfl <;> cases sx <;> decide

theorem ld_reads {x : GMem} (hw : (Instr.ld x sx o).wf = true) : Reads (.ld x sx o) := by
  obtain ⟨hx, hd⟩ := Bool.and_eq_true_iff.1 hw
  obtain ⟨how, hdq, he, hsx⟩ := loadDst_parts hd
  obtain ⟨hrp, hext, hsub⟩ := loadSub_of (sx := sx) 0 (by decide)
  obtain ⟨hdiv, hs, hz, -, hl⟩ := encGMem_parts 0x70 (b2n sx * 2) x o.code 0 0
  obtain ⟨hi, hrc⟩ := wfGMem_parts hx
  have hp : x.rc / 32 % 16 = 0 ∧ x.rc < 512 := by omega
  simp only [Nat.add_zero] at hrp hext hsub
  refine reads_of rfl rfl ?_ ?_
  · simp only [passes_iff, hl, hdiv, hs, hz, hrp, hext, Size.ofCode_code, hsx, hsub]
    simpa [encGMem, op_code how, he, hp, hi] using hdq
  · simp only [encGMem_gmem hx, hdiv, hrp, hext]
    simp [encGMem, op_code how]

theorem ldRp_reads {x : GMem} {k : Nat} (hw : (Instr.ldRp x sx o k).wf = true) : Reads (.ldRp x sx o k) := by
  simp only [Instr.wf, Bool.and_eq_true, decide_eq_true_eq] at hw
  obtain ⟨⟨⟨hx, hd⟩, hk0⟩, hk⟩ := hw
  obtain ⟨how, hdq, he, hsx⟩ := loadDst_parts hd
  obtain ⟨hrp, hext, hsub⟩ := loadSub_of (sx := sx) 1 (by decide)
  obtain ⟨hdiv, hs, hz, -, hl⟩ := encGMem_parts 0x70 (b2n sx * 2 + 1) x o.code 0 k
  obtain ⟨hi, hrc⟩ := wfGMem_parts hx
  have hp : (x.rc + k * 32) / 32 % 16 = k ∧ x.rc + k * 32 < 512 := by omega
  refine reads_of rfl rfl ?_ ?_
  · simp only [passes_iff, hl, hdiv, hs, hz, hrp, hext, Size.ofCode_code, hsx, hsub]
    simpa [encGMem, op_code how, he, hp, hi, Nat.ne_of_gt hk0] using hdq
  · simp only [encGMem_gmem hx, hdiv, hrp, hext]
    simp [encGMem, op_code how, hp]
theorem lds_sound (hr : InPlace r) (hm : r.maj = 0x72) (h : r.parseMem = some p) : Sound r p := by
  simp only [Raw.parseMem, hm, Option.some.injEq] at h
  subst h
  intro hp
  obtain ⟨hlen, hminor, hc, hcls, hpair⟩ := passes_iff.1 hp
  obtain ⟨hminor, hsc⟩ := Bool.and_eq_true_iff.1 hminor
  obtain ⟨hminor, hsx⟩ := Bool.and_eq_true_iff.1 hminor
  obtain ⟨hcls, hb⟩ := Bool.and_eq_true_iff.1 hcls
  obtain ⟨hdq, ha⟩ := Bool.and_eq_true_iff.1 hcls
  simp only [Bool.and_eq_true, Bool.or_eq_true, Bool.not_eq_true', beq_iff_eq, decide_eq_true_eq] at hlen hc hminor hsc
  obtain ⟨hs, hsub⟩ := hminor
  have hz : r.szc = (Size.ofCode r.szc).code := (Size.code_ofCode _ (Nat.mod_lt _ (by decide))).symm
  rw [hz] at hsx
  refine ⟨Bool.and_eq_true_iff.2 ⟨smem_wf hr ha hb hsc, loadDst_of hr hdq hpair hsx⟩, congrArg some ?_⟩
  exact encSMem_eq hr hm hlen hs ((loadSub (by omega)).1 (by omega)) (code_of_fieldOf hr.a ha) (code_of_fieldOf hr.b hb)
    (code_of_fieldOf hr.d (Bool.and_eq_true_iff.1 hdq).1) hc.symm

theorem lds_reads {x : SMem} (hw : (Instr.lds x sx o).wf = true) : Reads (.lds x sx o) := by
  obtain ⟨hx, hd⟩ := Bool.and_eq_true_iff.1 hw
  obtain ⟨how, hdq, he, hsx⟩ := loadDst_parts hd
  obtain ⟨hrp, hext, hsub⟩ := loadSub_of (sx := sx) 0 (by decide)
  obtain ⟨hdiv, hs, hz, hc, hl⟩ := encSMem_parts 0x72 (b2n sx * 2) x o.code 0
  obtain ⟨hb, ho, hsc⟩ := wfSMem_parts hx
  have hsub : (b2n sx * 2 == 0 || b2n sx * 2 == 2) = true := by cases sx <;> rfl
  simp only [Nat.add_zero] at hext
  refine reads_of rfl rfl ?_ ?_
  · simp only [passes_iff, hl, hdiv, hs, hz, hc, Size.ofCode_code, hext, hsx, hsub]
    simpa [encSMem, op_code how, he, hb, ho, hsc] using hdq
  · simp only [encSMem_smem hx, hdiv, hext]
    simp [encSMem, op_code how]

/-! ### Stores -/

theorem st_sound (hr : InPlace r) (hm : r.maj = 0x71) (h : r.parseMem = some p) : Sound r p := by
  simp only [Raw.parseMem, hm, Option.some.injEq] at h
  subst h
  intro hp
  simp only [passes_iff, Bool.and_eq_true, Bool.or_eq_true, Bool.not_eq_true', beq_iff_eq, decide_eq_true_eq] at hp
  obtain ⟨hlen, ⟨hs, hsub⟩, ⟨hd, hc⟩, ⟨ha, hb⟩, he⟩ := hp
  refine ⟨Bool.and_eq_true_iff.2 ⟨gmem_wf hr ha, fits_of_fieldOf hr.b hb he⟩, congrArg some ?_⟩
  exact encGMem_eq hr hm hlen hs hsub.symm (code_of_fieldOf hr.a ha) hd.symm (code_of_fieldOf hr.b hb) (by omega)

theorem st_reads {x : GMem} (hw : (Instr.st x o).wf = true) : Reads (.st x o) := by
  obtain ⟨hx, ho⟩ := Bool.and_eq_true_iff.1 hw
  obtain ⟨how, hoc, he⟩ := fits_iff.1 ho
  obtain ⟨hdiv, hs, hz, -, hl⟩ := encGMem_parts 0x71 0 x 0 o.code 0
  obtain ⟨hi, hrc⟩ := wfGMem_parts hx
  refine reads_of rfl rfl ?_ ?_
  · simp only [passes_iff, hl, hdiv, hs, hz, Size.ofCode_code]
    simp [encGMem, op_code how, fieldOf_code how, hoc, he, hi, hrc]
  · simp only [encGMem_gmem hx]
    simp [encGMem, op_code how]

theorem sts_sound (hr : InPlace r) (hm : r.maj = 0x73) (h : r.parseMem = some p) : Sound r p := by
  simp only [Raw.parseMem, hm, Option.some.injEq] at h
  subst h
  intro hp
  simp only [passes_iff, Bool.and_eq_true, Bool.or_eq_true, Bool.not_eq_true', beq_iff_eq, decide_eq_true_eq] at hp
  obtain ⟨hlen, ⟨⟨hs, hsub⟩, hsc⟩, hd, ⟨⟨ha, hb⟩, hc⟩, he⟩ := hp
  refine ⟨Bool.and_eq_true_iff.2 ⟨smem_wf hr ha hb hsc, fits_of_fieldOf hr.c hc he⟩, congrArg some ?_⟩
  exact encSMem_eq hr hm hlen hs hsub.symm (code_of_fieldOf hr.a ha) (code_of_fieldOf hr.b hb) hd.symm (code_of_fieldOf hr.c hc)

theorem sts_reads {x : SMem} (hw : (Instr.sts x o).wf = true) : Reads (.sts x o) := by
  obtain ⟨hx, ho⟩ := Bool.and_eq_true_iff.1 hw
  obtain ⟨how, hoc, he⟩ := fits_iff.1 ho
  obtain ⟨hdiv, hs, hz, hsc, hl⟩ := encSMem_parts 0x73 0 x 0 o.code
  obtain ⟨hb, hf, hsc2⟩ := wfSMem_parts hx
  refine reads_of rfl rfl ?_ ?_
  · simp only [passes_iff, hl, hdiv, hs, hz, hsc, Size.ofCode_code]
    simp [encSMem, op_code how, fieldOf_code how, hoc, he, hb, hf, hsc2]
  · simp only [encSMem_smem hx]
    simp [encSMem, op_code how]

/-! ### Atomics (Table 12-4) -/

/-- FADD is an operation of 32 bits, and the others of 32 or 64. -/
theorem wfAtom_eq (op : AtomOp) (sz : Size) :
    wfAtom op sz = (decide (op.code < 11) && decide (2 ≤ sz.code) && (op.code != 10 || sz.code == 2)) := by
  cases op <;> cases sz <;> rfl

theorem atom_sound (hr : InPlace r) (hm : r.maj = 0x74) (h : r.parseMem = some p) : Sound r p := by
  simp only [Raw.parseMem, hm, Option.some.injEq] at h
  subst h
  intro hp
  obtain ⟨hlen, hminor, hc, hcls, hpair⟩ := passes_iff.1 hp
  simp only [Bool.and_eq_true, Bool.or_eq_true, Bool.not_eq_true', beq_iff_eq, decide_eq_true_eq] at hlen hc hcls hpair hminor
  obtain ⟨⟨⟨hs, hsub⟩, hwide⟩, hadd⟩ := hminor
  obtain ⟨⟨hd, ha⟩, hb⟩ := hcls
  have hz : (Size.ofCode r.szc).code = r.szc := Size.code_ofCode _ (Nat.mod_lt _ (by decide))
  have hop := AtomOp.code_getD _ hsub
  refine ⟨?wf, congrArg some ?enc⟩
  case wf =>
    have hatom : wfAtom ((AtomOp.ofCode r.sub).getD .add) r.gmem.size = true := by
      rw [wfAtom_eq, hop, show r.gmem.size.code = r.szc from hz]
      simpa [hsub, hwide] using hadd
    simp only [Instr.wf, gmem_wf hr ha, hatom, Bool.true_and, Bool.and_eq_true]
    exact ⟨fits_of_fieldOf hr.d hd hpair.1, fits_of_fieldOf hr.b hb hpair.2⟩
  case enc => exact encGMem_eq hr hm hlen hs hop (code_of_fieldOf hr.a ha) (code_of_fieldOf hr.d hd) (code_of_fieldOf hr.b hb) (by omega)

theorem atoms_sound (hr : InPlace r) (hm : r.maj = 0x75) (h : r.parseMem = some p) : Sound r p := by
  simp only [Raw.parseMem, hm, Option.some.injEq] at h
  subst h
  intro hp
  obtain ⟨hlen, hminor, -, hcls, hpair⟩ := passes_iff.1 hp
  simp only [Bool.and_eq_true, Bool.or_eq_true, Bool.not_eq_true', beq_iff_eq, decide_eq_true_eq] at hlen hcls hpair hminor
  obtain ⟨⟨⟨⟨hs, hsub⟩, hwide⟩, hadd⟩, hsc⟩ := hminor
  obtain ⟨⟨⟨hd, ha⟩, hb⟩, hc⟩ := hcls
  have hz : (Size.ofCode r.szc).code = r.szc := Size.code_ofCode _ (Nat.mod_lt _ (by decide))
  have hop := AtomOp.code_getD _ hsub
  refine ⟨?wf, congrArg some ?enc⟩
  case wf =>
    have hatom : wfAtom ((AtomOp.ofCode r.sub).getD .add) r.smem.size = true := by
      rw [wfAtom_eq, hop, show r.smem.size.code = r.szc from hz]
      simpa [hsub, hwide] using hadd
    simp only [Instr.wf, smem_wf hr ha hb hsc, hatom, Bool.true_and, Bool.and_eq_true]
    exact ⟨fits_of_fieldOf hr.d hd hpair.1, fits_of_fieldOf hr.c hc hpair.2⟩
  case enc =>
    exact encSMem_eq hr hm hlen hs hop (code_of_fieldOf hr.a ha) (code_of_fieldOf hr.b hb) (code_of_fieldOf hr.d hd) (code_of_fieldOf hr.c hc)

theorem atom_reads {op : AtomOp} {x : GMem} {data : Opd} (hw : (Instr.atom op x o data).wf = true) : Reads (.atom op x o data) := by
  simp only [Instr.wf, Bool.and_eq_true, fits_iff, wfAtom_eq, decide_eq_true_eq] at hw
  obtain ⟨⟨⟨hx, ⟨hop, hwide⟩, hadd⟩, how, hoc, he⟩, hdw, hdc, hde⟩ := hw
  obtain ⟨hdiv, hs, hz, -, hl⟩ := encGMem_parts 0x74 op.code x o.code data.code 0
  obtain ⟨hi, hrc⟩ := wfGMem_parts hx
  refine reads_of rfl rfl ?_ ?_
  · simp only [passes_iff, hl, hdiv, hs, hz, Size.ofCode_code, hadd]
    simp [encGMem, op_code how, op_code hdw, fieldOf_code how, fieldOf_code hdw, hoc, he, hde, hi, hrc, hop, hwide]
    exact hdc
  · simp only [encGMem_gmem hx, hdiv, AtomOp.ofCode_code]
    simp [encGMem, op_code how, op_code hdw]

theorem atoms_reads {op : AtomOp} {x : SMem} {data : Opd} (hw : (Instr.atoms op x o data).wf = true) : Reads (.atoms op x o data) := by
  simp only [Instr.wf, Bool.and_eq_true, fits_iff, wfAtom_eq, decide_eq_true_eq] at hw
  obtain ⟨⟨⟨hx, ⟨hop, hwide⟩, hadd⟩, how, hoc, he⟩, hdw, hdc, hde⟩ := hw
  obtain ⟨hdiv, hs, hz, hsc, hl⟩ := encSMem_parts 0x75 op.code x o.code data.code
  obtain ⟨hb, hf, hsc2⟩ := wfSMem_parts hx
  refine reads_of rfl rfl ?_ ?_
  · simp only [passes_iff, hl, hdiv, hs, hz, hsc, Size.ofCode_code, hadd]
    simp [encSMem, op_code how, op_code hdw, fieldOf_code how, fieldOf_code hdw, hoc, he, hde, hb, hf, hsc2, hop, hwide]
    exact hdc
  · simp only [encSMem_smem hx, hdiv, AtomOp.ofCode_code]
    simp [encSMem, op_code how, op_code hdw]
/-! ### The uniform forms -/

theorem fence_sound (hr : InPlace r) (hm : r.maj = 0x76) (h : r.parseMem = some p) : Sound r p := by
  simp only [Raw.parseMem, hm, Option.some.injEq] at h
  subst h
  intro hp
  simp only [passes_iff, Raw.sys, List.contains_cons, List.contains_nil, Bool.or_false, Bool.false_or, Bool.true_or, Bool.and_eq_true,
    Bool.not_eq_true', beq_iff_eq, noGuard_iff, and_true] at hp
  obtain ⟨hlen, ⟨⟨hs, hsub⟩, hz⟩, ⟨⟨⟨hg, ha⟩, hb⟩, hc⟩, hd⟩ := hp
  obtain ⟨z, c, hzc, hsc, hmin⟩ := r.size_scope hs
  simp only [Raw.sys, hsc, Scope.ofCode_code]
  refine ⟨fits_of_fieldOf hr.d hd (Opd.evenIf_false _),
    congrArg some (encU_eq hr hm (code_of_fieldOf hr.d hd) ha.symm hb.symm hc.symm ?_ hlen hg)⟩
  rw [← hmin, hsub, memMin, ← hzc, hz]
  omega

theorem fence_reads (hw : (Instr.fence sc o).wf = true) : Reads (.fence sc o) := by
  obtain ⟨how, hoc, -⟩ := fits_iff.1 hw
  have hcode := Laws.scope_code sc
  refine reads_of_check rfl ?_
  have hbit : sc.code.testBit 4 = false := Nat.testBit_lt_two_pow (by omega)
  have hdiv : sc.code / 32 = 0 ∧ sc.code / 4 = 0 := by omega
  simp [Raw.check, Raw.parse, Raw.parseMem, Raw.sys, encU, Raw.noGuard, Raw.sat, Raw.sub, Raw.szc, Raw.scc, fieldOf_code how, op_code how, hoc, hbit,
    hdiv, Nat.mod_eq_of_lt hcode, Scope.ofCode_code]

theorem waita_sound (hr : InPlace r) (hm : r.maj = 0x77) (h : r.parseMem = some p) : Sound r p := by
  simp only [Raw.parseMem, hm, Option.some.injEq] at h
  subst h
  intro hp
  simp only [passes_iff, Bool.and_eq_true, Bool.or_eq_true, Bool.not_eq_true', beq_iff_eq, decide_eq_true_eq, noGuard_iff, and_true] at hp
  obtain ⟨hlen, ⟨⟨⟨hs, hsub⟩, hwide⟩, hscope⟩, ⟨hg, hc⟩, ⟨hd, ha⟩, hb⟩ := hp
  obtain ⟨z, c, hz, hsc, hmin⟩ := r.size_scope hs
  obtain ⟨hdl, hdx⟩ := of_disp hr hlen
  have hrc : r.c % 32 = r.c := Nat.mod_eq_of_lt hc
  have hgp : r.gp = 0 ∧ r.gn = false := by simpa [Raw.guard, Guard.all] using hg
  rw [hz, ge_iff_le, Size.wide_iff] at hwide
  rw [hsc, ge_iff_le, Scope.wide_iff] at hscope
  simp only [hz, hsc, Size.ofCode_code, Scope.ofCode_code]
  refine ⟨?wf, congrArg some (Eq.trans ?enc r.eta.symm)⟩
  case wf =>
    simp [Instr.wf, hwide, hscope, fits_of_fieldOf hr.d hd, fits_of_fieldOf hr.a (cs := sk) ha, fits_of_fieldOf hr.b (cs := sk) hb, hrc, hc]
  case enc =>
    rw [hdl, hdx, code_of_fieldOf hr.d hd, code_of_fieldOf hr.a ha, code_of_fieldOf hr.b hb, hrc, WCond.code_ofCode _ hsub, hmin, hm, hgp.1, hgp.2]

theorem waita_reads {f : WCond} {idx cmp : Opd} {rc : Nat} {disp : Option W32} (hw : (Instr.waita f sz sc o idx rc cmp disp).wf = true) :
    Reads (.waita f sz sc o idx rc cmp disp) := by
  simp only [Instr.wf, Bool.and_eq_true, Bool.or_eq_true, beq_iff_eq, decide_eq_true_eq, fits_iff] at hw
  obtain ⟨⟨⟨⟨⟨hz, hsc⟩, how, hoc, -⟩, hiw, hic, -⟩, hcw, hcc, -⟩, hrc⟩ := hw
  obtain ⟨hdiv, hbit, hzc, hscc⟩ := memMin_parts f.code sz sc
  have hf := Laws.wcond_code f
  rw [← Size.wide_iff] at hz
  rw [← Scope.wide_iff] at hsc
  have hdisp := disp_of_dispLen (d := disp)
    (r := ⟨dispLen disp, 0x77, 0, false, o.code, idx.code, cmp.code, rc, memMin f.code sz sc, dispExt disp⟩) rfl rfl
  refine reads_of rfl rfl ?_ ?_
  · simp only [passes_iff, dispLen_cases, Raw.sat, Raw.sub, Raw.szc, Raw.scc, hdiv, hbit, hzc, hscc, fieldOf_code how, fieldOf_code hiw, fieldOf_code hcw]
    simp only [hoc, Raw.noGuard, decide_eq_true hf, ge_iff_le, decide_eq_true hz, decide_eq_true hsc, decide_eq_true hrc]
    simp [show idx.isOf [.s, .k] = true from hic, show cmp.isOf [.s, .k] = true from hcc]
  · simp only [hdisp, Raw.sub, Raw.szc, Raw.scc, hdiv, hzc, hscc, op_code how, op_code hiw, op_code hcw, Size.ofCode_code, Scope.ofCode_code,
      WCond.ofCode_code, Nat.mod_eq_of_lt hrc]
theorem wake_sound (hr : InPlace r) (hm : r.maj = 0x78) (h : r.parseMem = some p) : Sound r p := by
  simp only [Raw.parseMem, hm, Option.some.injEq] at h
  subst h
  intro hp
  simp only [passes_iff, Bool.and_eq_true, Bool.or_eq_true, Bool.not_eq_true', beq_iff_eq, decide_eq_true_eq, noGuard_iff, and_true] at hp
  obtain ⟨hlen, ⟨⟨⟨hs, hsub⟩, hz⟩, hscope⟩, ⟨⟨⟨hg, hd⟩, hb⟩, hc⟩, ha⟩ := hp
  obtain ⟨z, c, hzc, hsc, hmin⟩ := r.size_scope hs
  obtain ⟨hdl, hdx⟩ := of_disp hr hlen
  have hrc : r.c % 32 = r.c := Nat.mod_eq_of_lt hc
  have hgp : r.gp = 0 ∧ r.gn = false := by simpa [Raw.guard, Guard.all] using hg
  have hmin : c.code = r.min := by
    rw [← hmin, hsub, memMin, ← hzc, hz]
    omega
  rw [hsc, ge_iff_le, Scope.wide_iff] at hscope
  simp only [hsc, Scope.ofCode_code]
  refine ⟨?wf, congrArg some (Eq.trans ?enc r.eta.symm)⟩
  case wf => simp [Instr.wf, hscope, fits_of_fieldOf hr.a (cs := sk) ha, hrc, hc]
  case enc => rw [hdl, hdx, code_of_fieldOf hr.a ha, hrc, hmin, hm, hgp.1, hgp.2, hd, hb]

theorem wake_reads {rc : Nat} {disp : Option W32} (hw : (Instr.wake sc o rc disp).wf = true) : Reads (.wake sc o rc disp) := by
  simp only [Instr.wf, Bool.and_eq_true, Bool.or_eq_true, beq_iff_eq, decide_eq_true_eq, fits_iff] at hw
  obtain ⟨⟨hsc, how, hoc, -⟩, hrc⟩ := hw
  rw [← Scope.wide_iff] at hsc
  have hcode := Laws.scope_code sc
  have hbit : sc.code.testBit 4 = false := Nat.testBit_lt_two_pow (by omega)
  have hdiv : sc.code / 32 = 0 ∧ sc.code / 4 % 4 = 0 ∧ sc.code % 4 = sc.code := by omega
  have hdisp := disp_of_dispLen (d := disp) (r := ⟨dispLen disp, 0x78, 0, false, 0, o.code, 0, rc, sc.code, dispExt disp⟩) rfl rfl
  refine reads_of rfl rfl ?_ ?_
  · simp only [passes_iff, dispLen_cases, Raw.sat, Raw.sub, Raw.szc, Raw.scc, hdiv, hbit, fieldOf_code how]
    simp [Raw.noGuard, hsc, hrc, show o.isOf [.s, .k] = true from hoc]
  · simp only [hdisp, Raw.scc, hdiv, op_code how, Scope.ofCode_code, Nat.mod_eq_of_lt hrc]

/-! ### Byte ranges (R250) -/

theorem range_sound {mk : Range → Instr} {scopes : List Nat} {subOk dOk dCls : Bool} (hr : InPlace r) (hm : r.maj = m)
    (spells : ∀ x, wfRange x = true → subOk = true → scopes.contains r.scc = true → dOk = true → dCls = true →
      Spells (encRange m r.sub r.scc r.d x) (mk x)) :
    Sound r (r.range scopes subOk dOk dCls mk) := by
  intro hp
  simp only [passes_iff, Raw.range, Bool.and_eq_true, Bool.or_eq_true (_ == _), Bool.not_eq_true', beq_iff_eq, decide_eq_true_eq, noGuard_iff,
    and_true] at hp
  obtain ⟨hlen, ⟨⟨⟨hsub, hs⟩, hz⟩, hsc⟩, ⟨⟨hg, hd⟩, hc⟩, ⟨⟨⟨hdc, ha⟩, hb⟩, hac⟩, hbc⟩ := hp
  obtain ⟨hdl, hdx⟩ := of_disp hr hlen
  obtain ⟨z, c, hzc, hcc, hmin⟩ := r.size_scope hs
  have hrc : r.c % 32 = r.c := Nat.mod_eq_of_lt hc
  have hgp : r.gp = 0 ∧ r.gn = false := by simpa [Raw.guard, Guard.all] using hg
  have hmin : r.sub * 32 + r.scc = r.min := by
    rw [← hmin, memMin, ← hzc, hz, hcc]
    omega
  have hw : wfRange ⟨(Raw.op r.a).1, r.c % 32, (Raw.op r.b).1, r.disp⟩ = true := by
    simp [wfRange, fits_of_op (cs := sk) hr.a ha hac (Opd.evenIf_false _), fits_of_op (cs := sk) hr.b hb hbc (Opd.evenIf_false _), hrc, hc]
  have henc : encRange m r.sub r.scc r.d ⟨(Raw.op r.a).1, r.c % 32, (Raw.op r.b).1, r.disp⟩ = r := by
    refine Eq.trans ?_ r.eta.symm
    simp only [encRange, hdl, hdx, hm, (of_op hr.a ha).2, (of_op hr.b hb).2, hrc, hmin, hgp.1, hgp.2]
  have hs := spells _ hw hsub hsc hd hdc
  rwa [henc] at hs

theorem range_reads {mk : Range → Instr} {x : Range} {scopes : List Nat} {scope : Nat} {subOk dOk dCls : Bool} (hw : wfRange x = true)
    (he : enc i = some (encRange m sub scope d x))
    (hparse : (encRange m sub scope d x).parse = some ((encRange m sub scope d x).range scopes subOk dOk dCls mk)) (hi : mk x = i)
    (hsubOk : subOk = true) (hdOk : dOk = true) (hdCls : dCls = true) (hscopes : scopes.contains scope = true) (hscope : scope < 4) :
    Reads i := by
  obtain ⟨idx, rc, len, disp⟩ := x
  simp only [wfRange, Bool.and_eq_true, decide_eq_true_eq, fits_iff] at hw
  obtain ⟨⟨⟨hiw, hic, -⟩, hlw, hlc, -⟩, hrc⟩ := hw
  have hparts := memMin_parts sub .b8 (Scope.ofCode scope)
  simp only [memMin, Scope.code_ofCode scope hscope, Size.code, Nat.zero_mul, Nat.add_zero] at hparts
  obtain ⟨hdiv, hbit, hz, hsc⟩ := hparts
  have hdisp := disp_of_dispLen (d := disp) (r := encRange m sub scope d ⟨idx, rc, len, disp⟩) rfl rfl
  refine reads_of he hparse ?_ (Eq.trans ?_ hi)
  · simp only [passes_iff, Raw.range, hsubOk, hdOk, hdCls]
    simp only [encRange, dispLen_cases, Raw.sat, Raw.szc, Raw.scc, hbit, hz, hsc, hscopes, op_code hiw, op_code hlw]
    simp [Raw.noGuard, hrc, show idx.isOf [.s, .k] = true from hic, show len.isOf [.s, .k] = true from hlc]
  · simp only [Raw.range, hdisp]
    simp only [encRange, op_code hiw, op_code hlw, Nat.mod_eq_of_lt hrc]

end Sys2Proof
end

section
/-!
# The byte ranges, QSTAT and PERSIST of 12_memory_ops, and its rows together
-/

namespace Sys2Proof
open Laws (InPlace)

variable {r : Raw} {p : Parsed} {i : Instr} {g : Guard} {n m c sub d b cHi : Nat} {sz : Size} {sc : Scope} {sx : Bool} {o : Opd}

/-- ZFILL and ICPF: one scope, no sub-code, no destination. -/
theorem range_sound_plain {mk : Range → Instr} {k : Nat} (hr : InPlace r) (hm : r.maj = m)
    (spells : ∀ x, wfRange x = true → Spells (encRange m 0 k 0 x) (mk x)) : Sound r (r.range [k] (r.sub == 0) (r.d == 0) true mk) := by
  refine range_sound hr hm fun x hw hsub hsc hd _ => ?_
  rw [eq_of_beq hsub, eq_of_beq hd, show r.scc = k by simpa using hsc]
  exact spells x hw

theorem pagereq_sound (hr : InPlace r) (hm : r.maj = 0x7B) (h : r.parseMem = some p) : Sound r p := by
  simp only [Raw.parseMem, hm, Option.some.injEq] at h
  subst h
  refine range_sound hr hm fun x hw hsub hsc _ hd => ?_
  rw [eq_of_beq hsub, show r.scc = 0 by simpa using hsc]
  exact ⟨Bool.and_eq_true_iff.2 ⟨hd, hw⟩, rfl⟩

theorem cctl_sound (hr : InPlace r) (hm : r.maj = 0x7C) (h : r.parseMem = some p) : Sound r p := by
  simp only [Raw.parseMem, hm, Option.some.injEq] at h
  subst h
  refine range_sound hr hm fun x hw hsub hsc hd _ => ?_
  have hscc : r.scc = 0 ∨ r.scc = 1 ∨ r.scc = 2 := by simpa using hsc
  obtain ⟨c, hcode, hne⟩ : ∃ c : Scope, r.scc = c.code ∧ (c != .sys) = true := by
    rcases hscc with h | h | h <;> rw [h]
    exacts [⟨.gang, by decide⟩, ⟨.crew, by decide⟩, ⟨.dev, by decide⟩]
  have hsub : r.sub = 0 ∨ r.sub = 1 := by
    have : r.sub < 2 := of_decide_eq_true hsub
    omega
  rcases hsub with h | h <;> rw [h, hcode, eq_of_beq hd, Scope.ofCode_code] <;> exact ⟨Bool.and_eq_true_iff.2 ⟨hne, hw⟩, rfl⟩

theorem icpin_sound (hr : InPlace r) (hm : r.maj = 0x7E) (h : r.parseMem = some p) : Sound r p := by
  simp only [Raw.parseMem, hm, Option.some.injEq] at h
  subst h
  refine range_sound hr hm fun x hw hsub hsc hd _ => ?_
  have hsub : r.sub = 0 ∨ r.sub = 1 := by
    have : r.sub < 2 := of_decide_eq_true hsub
    omega
  rcases hsub with h | h <;> rw [h, eq_of_beq hd, show r.scc = 0 by simpa using hsc] <;> exact ⟨hw, rfl⟩

theorem icinv_sound (hr : InPlace r) (hm : r.maj = 0x7F) (h : r.parseMem = some p) : Sound r p := by
  simp only [Raw.parseMem, hm, Option.some.injEq] at h
  subst h
  refine range_sound hr hm fun x hw hsub hsc hd _ => ?_
  have hscc : r.scc = 1 ∨ r.scc = 2 := by simpa using hsc
  rcases hscc with h | h <;> rw [h, eq_of_beq hsub, eq_of_beq hd] <;> exact ⟨hw, rfl⟩

theorem rangeMin_parts {scope : Nat} (x : Range) (h : scope < 4) :
    (encRange m sub scope d x).sub = sub ∧ (encRange m sub scope d x).scc = scope := by
  simp only [Raw.sub, Raw.scc, encRange]
  omega

/-- Every form of a byte range, from its sub-code, scope and destination. -/
theorem range_forms_read {x : Range} (hw : wfRange x = true) : Reads (.zfill x) ∧ Reads (.icpf x) ∧ Reads (.icpin x) ∧ Reads (.icpinUnpin x)
    ∧ Reads (.icinvCrew x) ∧ Reads (.icinvDev x) := by
  refine ⟨range_reads hw rfl rfl rfl ?_ rfl rfl (by decide) (by decide),
    range_reads hw rfl rfl rfl ?_ rfl rfl (by decide) (by decide),
    range_reads hw rfl rfl ?_ ?_ rfl rfl (by decide) (by decide),
    range_reads hw rfl rfl ?_ ?_ rfl rfl (by decide) (by decide),
    range_reads hw rfl rfl ?_ ?_ rfl rfl (by decide) (by decide),
    range_reads hw rfl rfl ?_ ?_ rfl rfl (by decide) (by decide)⟩ <;>
    simp [rangeMin_parts]

theorem pagereq_reads {f : Nat} {x : Range} (hw : (Instr.pagereq f x).wf = true) : Reads (.pagereq f x) := by
  obtain ⟨hf, hx⟩ := Bool.and_eq_true_iff.1 hw
  refine range_reads hx rfl rfl rfl ?_ rfl hf (by decide) (by decide)
  simp [rangeMin_parts]

theorem cctl_reads {x : Range} (hw : (Instr.cctlWb sc x).wf = true) : Reads (.cctlWb sc x) ∧ Reads (.cctlDisc sc x) := by
  obtain ⟨hsc, hx⟩ := Bool.and_eq_true_iff.1 hw
  have hscopes : [0, 1, 2].contains sc.code = true := by
    cases sc with
    | sys => cases hsc
    | _ => rfl
  refine ⟨range_reads hx rfl rfl ?_ ?_ rfl rfl hscopes (Laws.scope_code sc),
    range_reads hx rfl rfl ?_ ?_ rfl rfl hscopes (Laws.scope_code sc)⟩ <;>
    simp [rangeMin_parts, Laws.scope_code sc, Scope.ofCode_code]

/-! ### QSTAT (R255) -/

theorem queueField_iff (hn : n < 1024) : fieldOf n [.q] = true ↔ 1016 ≤ n := by
  constructor
  · intro h
    obtain ⟨hop, hcs⟩ := fieldOf_iff.1 h
    obtain ⟨hwf, hcode⟩ := of_op hn hop
    rw [← hcode]
    rw [Opd.wf_iff] at hwf
    generalize (Raw.op n).1 = o at hcs hwf
    cases o with
    | q k => exact Nat.le_add_left _ _
    | imm w => exact hwf.elim
    | x sp => cases sp <;> cases hcs
    | _ => cases hcs
  · intro h
    have hq : n = (Opd.q (n - 1016)).code := (Nat.sub_add_cancel h).symm
    rw [hq]
    exact fieldOf_code (Opd.wf_iff.2 (by dsimp only; omega))

theorem qstat_sound (hr : InPlace r) (hm : r.maj = 0x80) (h : r.parseMem = some p) : Sound r p := by
  simp only [Raw.parseMem, hm, Option.some.injEq] at h
  subst h
  intro hp
  simp only [passes_iff, Bool.and_eq_true, Bool.not_eq_true', beq_iff_eq, decide_eq_true_eq, noGuard_iff, and_true] at hp
  obtain ⟨hlen, ⟨⟨⟨hs, hsub⟩, hz⟩, hsc⟩, ⟨⟨hg, hb⟩, hc⟩, hd, ha⟩ := hp
  have hq := (queueField_iff hr.a).1 ha
  have hc16 := Nat.mod_eq_of_lt hc
  obtain ⟨z, c, hzc, hcc, hmin⟩ := r.size_scope hs
  have hfull : b2n (r.sub == 1) = r.sub := by
    have : r.sub = 0 ∨ r.sub = 1 := by omega
    rcases this with h | h <;> rw [h] <;> rfl
  refine ⟨?wf, congrArg some (encU_eq hr hm (code_of_fieldOf hr.d hd) (Nat.sub_add_cancel hq) hb.symm hc16 ?min hlen hg)⟩
  case wf =>
    have := hr.a
    simp only [Instr.wf, fits_of_fieldOf hr.d hd (Opd.evenIf_false _), hc16, decide_eq_true hc, Bool.and_true, Bool.true_and]
    exact decide_eq_true (by omega)
  case min =>
    rw [← hmin, memMin, ← hzc, hz, ← hcc, hsc, hfull]
    rfl

theorem qstat_reads {full : Bool} {q c : Nat} (hw : (Instr.qstat full o q c).wf = true) : Reads (.qstat full o q c) := by
  simp only [Instr.wf, Bool.and_eq_true, decide_eq_true_eq, fits_iff] at hw
  obtain ⟨⟨⟨how, hoc, -⟩, hq⟩, hc⟩ := hw
  refine reads_of_check rfl ?_
  have hqf := (queueField_iff (show q + 1016 < 1024 by omega)).2 (Nat.le_add_left _ _)
  cases full <;>
    simp [Raw.check, Raw.parse, Raw.parseMem, encU, Raw.noGuard, Raw.sat, Raw.sub, Raw.szc, Raw.scc, Nat.testBit, b2n, fieldOf_code how,
      op_code how, hoc, hqf, hc, Nat.mod_eq_of_lt hc]

theorem persist_sound (hr : InPlace r) (hm : r.maj = 0x79) (h : r.parseMem = some p) : Sound r p := by
  simp only [Raw.parseMem, hm, Option.some.injEq] at h
  subst h
  intro hp
  simp only [passes_iff, Raw.sys, List.contains_cons, List.contains_nil, Bool.or_false, Bool.false_or, Bool.and_eq_true, beq_iff_eq, noGuard_iff,
    and_true] at hp
  obtain ⟨hlen, hmin, ⟨⟨⟨hg, hd⟩, ha⟩, hb⟩, hc⟩ := hp
  exact ⟨rfl, congrArg some (encU_eq hr hm hd.symm ha.symm hb.symm hc.symm hmin.symm hlen hg)⟩

/-- The rows of 0x70 to 0x80 (the cases are numbered from 0x70 on). -/
theorem parseMem_sound (hr : InPlace r) (h : r.parseMem = some p) : Sound r p := by
  have row := h
  unfold Raw.parseMem at h
  extract_lets at h
  split at h
  case h_1 hm => exact ld_sound hr hm row
  case h_2 hm => exact st_sound hr hm row
  case h_3 hm => exact lds_sound hr hm row
  case h_4 hm => exact sts_sound hr hm row
  case h_5 hm => exact atom_sound hr hm row
  case h_6 hm => exact atoms_sound hr hm row
  case h_7 hm => exact fence_sound hr hm row
  case h_8 hm => exact waita_sound hr hm row
  case h_9 hm => exact wake_sound hr hm row
  case h_10 hm => exact persist_sound hr hm row
  case h_11 hm | h_14 hm => cases h; exact range_sound_plain hr hm fun _ hw => ⟨hw, rfl⟩
  case h_12 hm => exact pagereq_sound hr hm row
  case h_13 hm => exact cctl_sound hr hm row
  case h_15 hm => exact icpin_sound hr hm row
  case h_16 hm => exact icinv_sound hr hm row
  case h_17 hm => exact qstat_sound hr hm row
  case h_18 => cases h

end Sys2Proof
end

section
/-!
# The encodings of 14_engines, majors 0x90 to 0xA4
-/

namespace Sys2Proof
open Laws (InPlace)

variable {r : Raw} {p : Parsed} {i : Instr} {g : Guard} {n m c sub d b f tile : Nat} {o : Opd}

/-! ### Copies (Table 14-2) -/

/-- The minor opcode of a copy: ARR, BAR, DIR and the barrier. -/
theorem copyMin (hr : InPlace r) (h8 : r.min.testBit 8 = false) :
    b2n (r.min.testBit 7) * 128 + b2n (r.min.testBit 6) * 64 + b2n (r.min.testBit 5) * 32 + r.min % 32 = r.min := by
  have := hr.min
  simp only [Nat.testBit_eq_decide_div_mod_eq, decide_eq_false_iff_not] at h8
  simp only [b2n_testBit]
  omega

theorem copyMin_parts {arr bar dir : Bool} {k : Nat} (h : k < 32) :
    (b2n arr * 128 + b2n bar * 64 + b2n dir * 32 + k).testBit 8 = false ∧ (b2n arr * 128 + b2n bar * 64 + b2n dir * 32 + k).testBit 7 = arr
    ∧ (b2n arr * 128 + b2n bar * 64 + b2n dir * 32 + k).testBit 6 = bar ∧ (b2n arr * 128 + b2n bar * 64 + b2n dir * 32 + k).testBit 5 = dir
    ∧ (b2n arr * 128 + b2n bar * 64 + b2n dir * 32 + k) % 32 = k ∧ b2n arr * 128 + b2n bar * 64 + b2n dir * 32 + k < 512 := by
  simp only [Nat.testBit_eq_decide_div_mod_eq]
  cases arr <;> cases bar <;> cases dir <;> simp only [b2n, decide_eq_true_eq, decide_eq_false_iff_not, Bool.false_eq_true, if_true, if_false] <;>
    omega

theorem copy_sound {mk : Copy → Instr} {minOk extOk : Bool} (hr : InPlace r) (hm : r.maj = m)
    (spells : ∀ x k, wfCopy x = true → x.bar.isSome = r.min.testBit 6 → x.rc = r.ext % 32 → minOk = true → extOk = true → r.ext % 32 + k * 256 = r.ext →
      Spells (encCopy m (r.min.testBit 7) (r.min.testBit 5) k x) (mk x)) (hext : extOk = true → r.ext % 32 + r.ext / 256 * 256 = r.ext) :
    Sound r (r.copy minOk extOk mk) := by
  intro hp
  simp only [passes_iff, Raw.copy, Bool.and_eq_true, Bool.or_eq_true (r.min.testBit 6), Bool.not_eq_true', beq_iff_eq, decide_eq_true_eq, and_true] at hp
  obtain ⟨hlen, ⟨⟨hmin, hbar⟩, h8⟩, hx, ⟨⟨⟨⟨⟨⟨hf, ha⟩, hb⟩, hc⟩, hac⟩, hbc⟩, hcc⟩⟩ := hp
  have hbits := copyMin hr h8
  simp only [Raw.copy]
  have hw : wfCopy ⟨r.guard, r.d, (Raw.op r.a).1, (Raw.op r.b).1, (Raw.op r.c).1, r.ext % 32,
      if r.min.testBit 6 then some (r.min % 32) else none⟩ = true := by
    simp only [wfCopy, r.guard_wf hr, decide_eq_true hf, fits_of_op (cs := sk) hr.a ha hac (Opd.evenIf_false _),
      fits_of_op (cs := sk) hr.b hb hbc (Opd.evenIf_false _), fits_of_op (cs := sk) hr.c hc hcc (Opd.evenIf_false _)]
    cases r.min.testBit 6 <;> simp [Nat.mod_lt]
  have hs := spells _ _ hw (by cases r.min.testBit 6 <;> rfl) rfl hmin hx (hext hx)
  have henc : encCopy m (r.min.testBit 7) (r.min.testBit 5) (r.ext / 256) ⟨r.guard, r.d, (Raw.op r.a).1, (Raw.op r.b).1, (Raw.op r.c).1,
      r.ext % 32, if r.min.testBit 6 then some (r.min % 32) else none⟩ = r := by
    refine Eq.trans ?_ r.eta.symm
    simp only [encCopy, (of_op hr.a ha).2, (of_op hr.b hb).2, (of_op hr.c hc).2, Raw.guard, hlen, hm, hext hx]
    congr 1
    conv_rhs => rw [← hbits]
    rcases hbar with h6 | h0
    · simp [h6]
    · cases r.min.testBit 6 <;> simp [h0]
  rwa [henc] at hs

theorem copy_reads {mk : Copy → Instr} {x : Copy} {arr dir minOk extOk : Bool} {k : Nat} (hw : wfCopy x = true)
    (he : enc i = some (encCopy m arr dir k x)) (hparse : (encCopy m arr dir k x).parse = some ((encCopy m arr dir k x).copy minOk extOk mk))
    (hi : mk x = i) (hminOk : minOk = true) (hextOk : extOk = true) : Reads i := by
  obtain ⟨g, f, a, b, c, rc, bar⟩ := x
  simp only [wfCopy, Bool.and_eq_true, decide_eq_true_eq, fits_iff, Guard.wf] at hw
  obtain ⟨⟨⟨⟨⟨⟨hg, hf⟩, haw, hac, -⟩, hbw, hbc, -⟩, hcw, hcc, -⟩, hrc⟩, hbar⟩ := hw
  have hk32 : bar.getD 0 < 32 := by
    cases bar with
    | none => decide
    | some k => exact of_decide_eq_true hbar
  obtain ⟨h8, h7, h6, h5, hmod, hlt⟩ := copyMin_parts (arr := arr) (bar := bar.isSome) (dir := dir) hk32
  have hext : (rc + k * 256) % 32 = rc := by omega
  refine reads_of he hparse ?_ (Eq.trans ?_ hi)
  · simp only [passes_iff, Raw.copy, hminOk, hextOk]
    simp only [encCopy, h8, h6, hmod, op_code haw, op_code hbw, op_code hcw]
    simp only [hf, show a.isOf [.s, .k] = true from hac, show b.isOf [.s, .k] = true from hbc, show c.isOf [.s, .k] = true from hcc]
    cases bar <;> simp
  · simp only [Raw.copy]
    simp only [encCopy, h6, hmod, op_code haw, op_code hbw, op_code hcw, Raw.guard, hext]
    cases bar <;> simp

/-- CPY and CPY.X: ARR stands only with a barrier. -/
theorem cpy_sound {mk : Copy → Bool → Bool → Instr} (hr : InPlace r) (hm : r.maj = m)
    (spells : ∀ x arr dir, wfCopy x = true → (!arr || x.bar.isSome) = true → Spells (encCopy m arr dir 0 x) (mk x arr dir)) :
    Sound r (r.copy (!r.min.testBit 7 || r.min.testBit 6) (r.ext < 32) (fun x => mk x (r.min.testBit 7) (r.min.testBit 5))) := by
  refine copy_sound hr hm (fun x k hw hbar _ hmin hext hk => ?_) (fun hext => ?_) <;> have hext := of_decide_eq_true hext
  · obtain rfl : k = 0 := by omega
    exact spells x _ _ hw (hbar ▸ hmin)
  · omega

theorem cpy_reads {mk : Copy → Bool → Bool → Instr} {x : Copy} {arr dir : Bool} (hw : wfCopy x = true) (harr : (!arr || x.bar.isSome) = true)
    (he : enc (mk x arr dir) = some (encCopy m arr dir 0 x))
    (hparse : (encCopy m arr dir 0 x).parse = some ((encCopy m arr dir 0 x).copy
      (!(encCopy m arr dir 0 x).min.testBit 7 || (encCopy m arr dir 0 x).min.testBit 6) ((encCopy m arr dir 0 x).ext < 32)
      (fun y => mk y ((encCopy m arr dir 0 x).min.testBit 7) ((encCopy m arr dir 0 x).min.testBit 5)))) :
    Reads (mk x arr dir) := by
  have hwf := hw
  simp only [wfCopy, Bool.and_eq_true, decide_eq_true_eq] at hw
  obtain ⟨⟨-, hrc⟩, hbar⟩ := hw
  have hk32 : x.bar.getD 0 < 32 := by
    cases h : x.bar with
    | none => decide
    | some k => exact of_decide_eq_true (by simpa [h] using hbar)
  obtain ⟨-, h7, h6, h5, -, -⟩ := copyMin_parts (arr := arr) (bar := x.bar.isSome) (dir := dir) hk32
  refine copy_reads hwf he hparse ?_ ?_ (decide_eq_true ?_)
  · simp only [encCopy, h7, h5]
  · simp only [encCopy, h7, h6, harr]
  · simp only [encCopy]
    omega

theorem cpyM_sound (hr : InPlace r) (hm : r.maj = 0x91) (h : r.parseEngine = some p) : Sound r p := by
  simp only [Raw.parseEngine, hm, Option.some.injEq] at h
  subst h
  refine copy_sound hr hm (fun x k hw hbar _ hmin hext hk => ?_) (fun hext => ?_) <;>
    simp only [Bool.and_eq_true, decide_eq_true_eq, beq_iff_eq] at hext
  · simp only [Bool.and_eq_true, Bool.not_eq_true'] at hmin
    have hk : (BitVec.ofNat 8 (r.ext / 256)).toNat = k := by
      simp only [BitVec.toNat_ofNat]
      omega
    exact ⟨hw, congrArg some (by rw [hmin.1, hmin.2, hk])⟩
  · omega

theorem cpyM_reads {x : Copy} {cores : BitVec 8} (hw : (Instr.cpyM x cores).wf = true) : Reads (.cpyM x cores) := by
  have hwf : wfCopy x = true := hw
  simp only [wfCopy, Bool.and_eq_true, decide_eq_true_eq] at hwf
  obtain ⟨⟨-, hrc⟩, hbar⟩ := hwf
  have hk32 : x.bar.getD 0 < 32 := by
    cases h : x.bar with
    | none => decide
    | some k => exact of_decide_eq_true (by simpa [h] using hbar)
  obtain ⟨-, h7, -, h5, -, -⟩ := copyMin_parts (arr := false) (bar := x.bar.isSome) (dir := false) hk32
  have hdiv : (x.rc + cores.toNat * 256) / 256 = cores.toNat := by omega
  refine copy_reads hw rfl rfl ?_ ?_ ?_
  · simp only [encCopy, hdiv, BitVec.ofNat_toNat, BitVec.setWidth_eq]
  · simp only [encCopy, h7, h5]
    rfl
  · refine Bool.and_eq_true_iff.2 ⟨decide_eq_true ?_, beq_iff_eq.2 ?_⟩ <;> simp only [encCopy] <;> omega

/-! ### Matrix commands (Table 14-2) -/

theorem mma_sound {mk : MmaArgs → Instr} {minOk extOk : Bool} (hr : InPlace r) (hm : r.maj = m) (hmin : minOk = true → r.min < 4)
    (spells : ∀ x, wfMma x = true → x.tile = r.min % 4 → x.sb = r.ext / 2 ^ 20 % 2 ^ 20 → minOk = true → extOk = true →
      Spells (encMma m (r.ext / 2 ^ 40) x) (mk x)) :
    Sound r (r.mmaForm minOk extOk mk) := by
  intro hp
  simp only [passes_iff, Raw.mmaForm, Bool.and_eq_true, beq_iff_eq, decide_eq_true_eq, and_true] at hp
  obtain ⟨hlen, hmn, hx, ⟨⟨⟨⟨⟨hf, ha⟩, hb⟩, hac⟩, hbc⟩, hfw⟩⟩ := hp
  have hw : wfMma ⟨r.guard, r.d, (Raw.op r.a).1, (Raw.op r.b).1, r.c, r.min % 4, r.ext % 2 ^ 20, r.ext / 2 ^ 20 % 2 ^ 20⟩ = true := by
    simp [wfMma, r.guard_wf hr, hf, fits_of_op (cs := sk) hr.a ha hac (Opd.evenIf_false _), fits_of_op (cs := sk) hr.b hb hbc (Opd.evenIf_false _),
      hfw, Nat.mod_lt]
  have henc : encMma m (r.ext / 2 ^ 40) ⟨r.guard, r.d, (Raw.op r.a).1, (Raw.op r.b).1, r.c, r.min % 4, r.ext % 2 ^ 20, r.ext / 2 ^ 20 % 2 ^ 20⟩ = r := by
    have hext : r.ext % 2 ^ 20 + r.ext / 2 ^ 20 % 2 ^ 20 * 2 ^ 20 + r.ext / 2 ^ 40 * 2 ^ 40 = r.ext := by omega
    refine Eq.trans ?_ r.eta.symm
    simp only [encMma, (of_op hr.a ha).2, (of_op hr.b hb).2, Raw.guard, hlen, hm, hext, Nat.mod_eq_of_lt (hmin hmn)]
  have hs := spells _ hw rfl rfl hmn hx
  rwa [henc] at hs

theorem mma_reads {mk : MmaArgs → Instr} {x : MmaArgs} {minOk extOk : Bool} {sm : Nat} (hw : wfMma x = true)
    (he : enc i = some (encMma m sm x)) (hparse : (encMma m sm x).parse = some ((encMma m sm x).mmaForm minOk extOk mk))
    (hi : mk x = i) (hminOk : minOk = true) (hextOk : extOk = true) : Reads i := by
  obtain ⟨g, f, a, b, fw, tile, sa, sb⟩ := x
  simp only [wfMma, Bool.and_eq_true, decide_eq_true_eq, fits_iff, Guard.wf] at hw
  obtain ⟨⟨⟨⟨⟨⟨⟨hg, hf⟩, haw, hac, -⟩, hbw, hbc, -⟩, hfw⟩, htile⟩, hsa⟩, hsb⟩ := hw
  have h1 : (sa + sb * 2 ^ 20 + sm * 2 ^ 40) % 2 ^ 20 = sa := by omega
  have h2 : (sa + sb * 2 ^ 20 + sm * 2 ^ 40) / 2 ^ 20 % 2 ^ 20 = sb := by omega
  refine reads_of he hparse ?_ (Eq.trans ?_ hi)
  · simp only [passes_iff, Raw.mmaForm, hminOk, hextOk]
    simp only [encMma, op_code haw, op_code hbw]
    simp [hf, hfw, show a.isOf [.s, .k] = true from hac, show b.isOf [.s, .k] = true from hbc]
  · simp only [Raw.mmaForm]
    simp only [encMma, op_code haw, op_code hbw, Raw.guard, h1, h2, Nat.mod_eq_of_lt htile]

/-- MMA and MMA.P: no metadata offset. -/
theorem mmaDense_sound {mk : MmaArgs → Instr} (hr : InPlace r) (hm : r.maj = m)
    (spells : ∀ x, wfMma x = true → Spells (encMma m 0 x) (mk x)) : Sound r (r.mmaForm (r.min < 4) (r.ext < 2 ^ 40) mk) := by
  refine mma_sound hr hm of_decide_eq_true fun x hw _ _ _ hext => ?_
  rw [Nat.div_eq_of_lt (of_decide_eq_true hext)]
  exact spells x hw

theorem mmaDense_reads {mk : MmaArgs → Instr} {x : MmaArgs} (hw : wfMma x = true) (he : enc (mk x) = some (encMma m 0 x))
    (hparse : (encMma m 0 x).parse = some ((encMma m 0 x).mmaForm ((encMma m 0 x).min < 4) ((encMma m 0 x).ext < 2 ^ 40) mk)) :
    Reads (mk x) := by
  have hwf := hw
  simp only [wfMma, Bool.and_eq_true, decide_eq_true_eq] at hwf
  obtain ⟨⟨⟨-, htile⟩, hsa⟩, hsb⟩ := hwf
  refine mma_reads hw he hparse rfl (decide_eq_true htile) (decide_eq_true ?_)
  simp only [encMma]
  omega

theorem mmaSp_sound (hr : InPlace r) (hm : r.maj = 0x94) (h : r.parseEngine = some p) : Sound r p := by
  simp only [Raw.parseEngine, hm, Option.some.injEq] at h
  subst h
  refine mma_sound hr hm of_decide_eq_true fun x hw _ _ _ hext => ?_
  have hext := of_decide_eq_true hext
  have hsm : r.ext / 2 ^ 40 % 2 ^ 20 = r.ext / 2 ^ 40 := Nat.mod_eq_of_lt (by omega)
  simp only [hsm]
  exact ⟨Bool.and_eq_true_iff.2 ⟨hw, decide_eq_true (by omega)⟩, rfl⟩

theorem mmaSp_reads {x : MmaArgs} {sm : Nat} (hw : (Instr.mmaSp x sm).wf = true) : Reads (.mmaSp x sm) := by
  obtain ⟨hx, hsm⟩ := Bool.and_eq_true_iff.1 hw
  have hsm := of_decide_eq_true hsm
  have hwf := hx
  simp only [wfMma, Bool.and_eq_true, decide_eq_true_eq] at hwf
  obtain ⟨⟨⟨-, htile⟩, hsa⟩, hsb⟩ := hwf
  have hext : (x.sa + x.sb * 2 ^ 20 + sm * 2 ^ 40) / 2 ^ 40 % 2 ^ 20 = sm := by omega
  refine mma_reads hx rfl rfl ?_ (decide_eq_true htile) (decide_eq_true ?_)
  · simp only [encMma, hext]
  · simp only [encMma]
    omega

theorem msel_sound (hr : InPlace r) (hm : r.maj = 0x96) (h : r.parseEngine = some p) : Sound r p := by
  simp only [Raw.parseEngine, hm, Option.some.injEq] at h
  subst h
  refine mma_sound hr hm (fun h => by rw [eq_of_beq h]; decide) fun x hw htile hsb hmin hext => ?_
  simp only [Bool.and_eq_true, decide_eq_true_eq, beq_iff_eq] at hext
  obtain ⟨hlt, hzero⟩ := hext
  obtain ⟨g, f, a, b, fw, tile, sa, sb⟩ := x
  obtain rfl : tile = 0 := htile.trans (by rw [eq_of_beq hmin])
  obtain rfl : sb = 0 := hsb.trans hzero
  have hsm : r.ext / 2 ^ 40 % 2 ^ 20 = r.ext / 2 ^ 40 := Nat.mod_eq_of_lt (by omega)
  simp only [hsm]
  exact ⟨Bool.and_eq_true_iff.2 ⟨hw, decide_eq_true (by omega)⟩, rfl⟩

theorem msel_reads {a b : Opd} {fw sa sm : Nat} (hw : (Instr.msel g f a b fw sa sm).wf = true) : Reads (.msel g f a b fw sa sm) := by
  obtain ⟨hx, hsm⟩ := Bool.and_eq_true_iff.1 hw
  have hsm := of_decide_eq_true hsm
  have hwf := hx
  simp only [wfMma, Bool.and_eq_true, decide_eq_true_eq] at hwf
  have hext : (sa + 0 * 2 ^ 20 + sm * 2 ^ 40) / 2 ^ 40 % 2 ^ 20 = sm := by omega
  refine mma_reads hx rfl rfl ?_ rfl ?_
  · simp only [encMma, hext]
  · refine Bool.and_eq_true_iff.2 ⟨decide_eq_true ?_, beq_iff_eq.2 ?_⟩ <;> simp only [encMma] <;> omega
/-! ### The 64-bit forms -/

/-- What a form of 64 or 96 bits must pass, field by field. -/
theorem sys_passes_iff {lens : List Nat} {lane minOk useD useA useB useC extOk clsOk : Bool} :
    (r.sys lens lane minOk useD useA useB useC extOk clsOk i).passes = true ↔
      lens.contains r.len = true ∧ minOk = true ∧ (lane = false → r.guard = .all) ∧ (useD = false → r.d = 0) ∧ (useA = false → r.a = 0)
      ∧ (useB = false → r.b = 0) ∧ (useC = false → r.c = 0) ∧ extOk = true ∧ clsOk = true := by
  simp only [passes_iff, Raw.sys, Bool.and_eq_true, Bool.or_eq_true, beq_iff_eq, noGuard_iff, and_true, and_assoc]
  cases lane <;> cases useD <;> cases useA <;> cases useB <;> cases useC <;> simp

/-- A 64-bit form with a guard. -/
theorem sysG_sound {minOk useD useA useB useC clsOk : Bool} {d a b c min : Nat} (hr : InPlace r) (hm : r.maj = m)
    (he : enc i = some (encG m r.guard d a b c min))
    (spells : minOk = true → clsOk = true → (useD = false → r.d = 0) → (useA = false → r.a = 0) → (useB = false → r.b = 0) →
      (useC = false → r.c = 0) → i.wf = true ∧ d = r.d ∧ a = r.a ∧ b = r.b ∧ c = r.c ∧ min = r.min) :
    Sound r (r.sys [1] true minOk useD useA useB useC true clsOk i) := by
  intro hp
  obtain ⟨hlen, hmin, -, hd, ha, hb, hc, -, hcls⟩ := sys_passes_iff.1 hp
  obtain ⟨hw, hd, ha, hb, hc, hmin⟩ := spells hmin hcls hd ha hb hc
  exact ⟨hw, he.trans (congrArg some (encG_eq hr hm hd ha hb hc hmin (by simpa using hlen)))⟩

/-- A 64-bit form without a guard. -/
theorem sysU_sound {minOk useD useA useB useC clsOk : Bool} {d a b c min : Nat} (hr : InPlace r) (hm : r.maj = m)
    (he : enc i = some (encU m d a b c min))
    (spells : minOk = true → clsOk = true → (useD = false → r.d = 0) → (useA = false → r.a = 0) → (useB = false → r.b = 0) →
      (useC = false → r.c = 0) → i.wf = true ∧ d = r.d ∧ a = r.a ∧ b = r.b ∧ c = r.c ∧ min = r.min) :
    Sound r (r.sys [1] false minOk useD useA useB useC true clsOk i) := by
  intro hp
  obtain ⟨hlen, hmin, hg, hd, ha, hb, hc, -, hcls⟩ := sys_passes_iff.1 hp
  obtain ⟨hw, hd, ha, hb, hc, hmin⟩ := spells hmin hcls hd ha hb hc
  exact ⟨hw, he.trans (congrArg some (encU_eq hr hm hd ha hb hc hmin (by simpa using hlen) (hg rfl)))⟩

theorem accz_sound (hr : InPlace r) (hm : r.maj = 0x97) (h : r.parseEngine = some p) : Sound r p := by
  simp only [Raw.parseEngine, hm, Option.some.injEq] at h
  subst h
  refine sysG_sound hr hm rfl fun hmin hcls _ ha hb hc => ⟨?_, rfl, (ha rfl).symm, (hb rfl).symm, (hc rfl).symm, ?_⟩
  · simp [Instr.wf, r.guard_wf hr, of_decide_eq_true hcls, Nat.mod_lt]
  · exact Nat.mod_eq_of_lt (of_decide_eq_true hmin)

theorem accz_reads (hw : (Instr.accz g f tile).wf = true) : Reads (.accz g f tile) := by
  simp only [Instr.wf, Bool.and_eq_true, Guard.wf, decide_eq_true_eq] at hw
  obtain ⟨⟨hg, hf⟩, ht⟩ := hw
  refine reads_of_check rfl ?_
  simp [Raw.check, Raw.parse, Raw.parseEngine, Raw.sys, encG, Raw.guard, hf, ht, Nat.mod_eq_of_lt]

theorem accdrFmt (h : [0, 8, 9, 10, 11, 12].contains n = true) :
    ∃ t : Fmt, (Fmt.ofCode n).getD .f32 = t ∧ n = t.code ∧ [Fmt.s32, .f32, .f16, .bf16, .e4m3, .e5m2].contains t = true := by
  have : n = 0 ∨ n = 8 ∨ n = 9 ∨ n = 10 ∨ n = 11 ∨ n = 12 := by simpa using h
  rcases this with rfl | rfl | rfl | rfl | rfl | rfl
  exacts [⟨.s32, rfl, rfl, rfl⟩, ⟨.f32, rfl, rfl, rfl⟩, ⟨.f16, rfl, rfl, rfl⟩, ⟨.bf16, rfl, rfl, rfl⟩, ⟨.e4m3, rfl, rfl, rfl⟩, ⟨.e5m2, rfl, rfl, rfl⟩]

theorem accdr_sound (hr : InPlace r) (hm : r.maj = 0x98) (h : r.parseEngine = some p) : Sound r p := by
  simp only [Raw.parseEngine, hm, Option.some.injEq] at h
  subst h
  refine sysG_sound hr hm rfl fun hmin hcls _ _ hb hc => ?_
  obtain ⟨hmin, hfmt⟩ := Bool.and_eq_true_iff.1 hmin
  obtain ⟨hf, ha⟩ := Bool.and_eq_true_iff.1 hcls
  obtain ⟨t, ht, htc, htw⟩ := accdrFmt hfmt
  refine ⟨?_, rfl, code_of_fieldOf hr.a ha, (hb rfl).symm, (hc rfl).symm, ?_⟩
  · simp only [Instr.wf, r.guard_wf hr, hf, fits_of_fieldOf hr.a (cs := sk) ha (Opd.evenIf_false _), ht, htw, Bool.and_true]
    exact decide_eq_true (Nat.mod_lt _ (by decide))
  · have := of_decide_eq_true hmin
    rw [ht, ← htc, Raw.sub]
    omega

theorem accdr_reads {t : Fmt} (hw : (Instr.accdr g f o t tile).wf = true) : Reads (.accdr g f o t tile) := by
  simp only [Instr.wf, Bool.and_eq_true, Guard.wf, decide_eq_true_eq, fits_iff] at hw
  obtain ⟨⟨⟨⟨hg, hf⟩, how, hoc, -⟩, htile⟩, ht⟩ := hw
  have hmod : (t.code * 32 + tile) % 32 = tile ∧ (t.code * 32 + tile) % 4 = tile ∧ (t.code * 32 + tile) / 32 = t.code := by omega
  have hfmt : [0, 8, 9, 10, 11, 12].contains t.code = true := by
    cases t <;> revert ht <;> decide
  refine reads_of rfl rfl ?_ ?_
  · rw [sys_passes_iff]
    simp only [encG, Raw.sub, hmod, hfmt, fieldOf_code how, show o.isOf [.s, .k] = true from hoc]
    simp [htile, hf]
  · simp only [Raw.sys, encG, Raw.guard, Raw.sub, hmod, op_code how, Fmt.ofCode_code, Option.getD_some]

theorem wdset_sound (hr : InPlace r) (hm : r.maj = 0x99) (h : r.parseEngine = some p) : Sound r p := by
  simp only [Raw.parseEngine, hm, Option.some.injEq] at h
  subst h
  refine sysG_sound hr hm rfl fun hmin hcls _ _ hb hc => ?_
  obtain ⟨hf, ha⟩ := Bool.and_eq_true_iff.1 hcls
  refine ⟨?_, rfl, code_of_fieldOf hr.a ha, (hb rfl).symm, (hc rfl).symm, Nat.mod_eq_of_lt (of_decide_eq_true hmin)⟩
  simp only [Instr.wf, r.guard_wf hr, hf, fits_of_fieldOf hr.a (cs := sk) ha (Opd.evenIf_false _), Bool.and_true]
  exact decide_eq_true (Nat.mod_lt _ (by decide))

theorem wdset_reads (hw : (Instr.wdset g f o tile).wf = true) : Reads (.wdset g f o tile) := by
  simp only [Instr.wf, Bool.and_eq_true, Guard.wf, decide_eq_true_eq, fits_iff] at hw
  obtain ⟨⟨⟨hg, hf⟩, how, hoc, -⟩, ht⟩ := hw
  refine reads_of_check rfl ?_
  simp [Raw.check, Raw.parse, Raw.parseEngine, Raw.sys, encG, Raw.guard, fieldOf_code how, op_code how, show o.isOf [.s, .k] = true from hoc, hf, ht,
    Nat.mod_eq_of_lt]

theorem mfence_sound (hr : InPlace r) (hm : r.maj = 0x9A) (h : r.parseEngine = some p) : Sound r p := by
  simp only [Raw.parseEngine, hm, Option.some.injEq] at h
  subst h
  refine sysG_sound hr hm rfl fun hmin hcls _ ha hb hc =>
    ⟨Bool.and_eq_true_iff.2 ⟨r.guard_wf hr, hcls⟩, rfl, (ha rfl).symm, (hb rfl).symm, (hc rfl).symm, (eq_of_beq hmin).symm⟩

theorem mfence_reads (hw : (Instr.mfence g f).wf = true) : Reads (.mfence g f) := by
  simp only [Instr.wf, Bool.and_eq_true, Guard.wf, decide_eq_true_eq] at hw
  obtain ⟨hg, hf⟩ := hw
  refine reads_of_check rfl ?_
  simp [Raw.check, Raw.parse, Raw.parseEngine, Raw.sys, encG, Raw.guard, hf]

/-! ### Futures (Table 14-5) -/

theorem fwait_sound (hr : InPlace r) (hm : r.maj = 0x9B) (h : r.parseEngine = some p) : Sound r p := by
  simp only [Raw.parseEngine, hm, Option.some.injEq] at h
  subst h
  intro hp
  simp only [passes_iff, Bool.and_eq_true, Bool.or_eq_true, Bool.not_eq_true', beq_iff_eq, decide_eq_true_eq, noGuard_iff, and_true] at hp
  obtain ⟨hlen, hmin, ⟨⟨⟨⟨hg, hd⟩, ha⟩, hb⟩, hc⟩, hcls⟩ := hp
  have hc16 := Nat.mod_eq_of_lt hc
  by_cases hst : r.min = 32
  · obtain ⟨k, hk, hdk⟩ := (scalarField_iff hr.d).1 (hcls.resolve_left (by simp [hst]))
    simp only [hst, hdk, Nat.add_sub_cancel]
    refine ⟨by simp [Instr.wf, hc16, hc, hk], congrArg some (encU_eq hr hm hdk.symm ha.symm hb.symm hc16 hst.symm hlen hg)⟩
  · have h0 : r.min = 0 := hmin.resolve_right hst
    have hd : r.d = 0 := hd.resolve_left hst
    simp only [h0]
    exact ⟨by simp [Instr.wf, hc16, hc], congrArg some (encU_eq hr hm hd.symm ha.symm hb.symm hc16 h0.symm hlen hg)⟩

theorem fwait_reads {w : Option Nat} (hw : (Instr.fwait f w).wf = true) : Reads (.fwait f w) := by
  obtain ⟨hf, hk⟩ := Bool.and_eq_true_iff.1 hw
  have hf : f < 16 := of_decide_eq_true hf
  cases w with
  | none =>
    refine reads_of_check rfl ?_
    simp [Raw.check, Raw.parse, Raw.parseEngine, encU, Raw.noGuard, hf, Nat.mod_eq_of_lt]
  | some k =>
    have hk : k < 128 := of_decide_eq_true hk
    refine reads_of_check rfl ?_
    simp [Raw.check, Raw.parse, Raw.parseEngine, encU, Raw.noGuard, scalarField_code hk, hf, Nat.mod_eq_of_lt]

theorem ftest_sound (hr : InPlace r) (hm : r.maj = 0x9C) (h : r.parseEngine = some p) : Sound r p := by
  simp only [Raw.parseEngine, hm, Option.some.injEq] at h
  subst h
  intro hp
  simp only [passes_iff, Bool.and_eq_true, Bool.or_eq_true, Bool.not_eq_true', beq_iff_eq, decide_eq_true_eq, noGuard_iff, and_true] at hp
  obtain ⟨hlen, ⟨hmin, h4⟩, ⟨⟨⟨⟨hg, hd⟩, ha⟩, hb⟩, hc⟩, hcls⟩ := hp
  have hc16 := Nat.mod_eq_of_lt hc
  have h5 := b2n_testBit r.min 5
  have hbits : b2n (r.min.testBit 5) * 32 + r.min % 16 = r.min := by
    simp only [Nat.testBit_eq_decide_div_mod_eq, decide_eq_false_iff_not] at h4
    omega
  cases hst : r.min.testBit 5 with
  | true =>
    obtain ⟨k, hk, hdk⟩ := (scalarField_iff hr.d).1 (hcls.resolve_left (by simp [hst]))
    rw [hst] at hbits
    simp only [hdk, Nat.add_sub_cancel, if_true]
    refine ⟨by simp [Instr.wf, hc16, hc, hk, Nat.mod_lt], congrArg some (encU_eq hr hm hdk.symm ha.symm hb.symm hc16 hbits hlen hg)⟩
  | false =>
    have hd : r.d = 0 := hd.resolve_left (by simp [hst])
    rw [hst] at hbits
    simp only [Bool.false_eq_true, if_false]
    refine ⟨by simp [Instr.wf, hc16, hc, Nat.mod_lt], congrArg some (encU_eq hr hm hd.symm ha.symm hb.symm hc16 ?_ hlen hg)⟩
    simpa [b2n] using hbits

theorem ftest_reads {w : Option Nat} (hw : (Instr.ftest f c w).wf = true) : Reads (.ftest f c w) := by
  simp only [Instr.wf, Bool.and_eq_true, decide_eq_true_eq] at hw
  obtain ⟨⟨hf, hc⟩, hk⟩ := hw
  cases w with
  | none =>
    have h4 : c.testBit 4 = false := Nat.testBit_lt_two_pow (by omega)
    have h5 : c.testBit 5 = false := Nat.testBit_lt_two_pow (by omega)
    refine reads_of_check rfl ?_
    simp [Raw.check, Raw.parse, Raw.parseEngine, encU, Raw.noGuard, hf, Nat.mod_eq_of_lt hc, Nat.mod_eq_of_lt hf, h4, h5, show c < 64 by omega]
  | some k =>
    have hk : k < 128 := of_decide_eq_true hk
    have h4 : (32 + c).testBit 4 = false := by
      simp only [Nat.testBit_eq_decide_div_mod_eq, decide_eq_false_iff_not]
      omega
    have h5 : (32 + c).testBit 5 = true := by
      simp only [Nat.testBit_eq_decide_div_mod_eq, decide_eq_true_eq]
      omega
    refine reads_of_check rfl ?_
    simp [Raw.check, Raw.parse, Raw.parseEngine, encU, Raw.noGuard, scalarField_code hk, hf, Nat.mod_eq_of_lt hf, h4, h5, show 32 + c < 64 by omega,
      show (32 + c) % 16 = c by omega]

theorem fcancel_sound (hr : InPlace r) (hm : r.maj = 0x9D) (h : r.parseEngine = some p) : Sound r p := by
  simp only [Raw.parseEngine, hm, Option.some.injEq] at h
  subst h
  intro hp
  simp only [passes_iff, Bool.and_eq_true, beq_iff_eq, decide_eq_true_eq, noGuard_iff, and_true] at hp
  obtain ⟨hlen, hmin, ⟨⟨⟨hg, hd⟩, ha⟩, hb⟩, hc⟩ := hp
  exact ⟨decide_eq_true (Nat.mod_lt _ (by decide)),
    congrArg some (encU_eq hr hm hd.symm ha.symm hb.symm (Nat.mod_eq_of_lt hc) hmin.symm hlen hg)⟩

theorem fcancel_reads (hw : (Instr.fcancel f).wf = true) : Reads (.fcancel f) := by
  have hf : f < 16 := of_decide_eq_true hw
  refine reads_of_check rfl ?_
  simp [Raw.check, Raw.parse, Raw.parseEngine, encU, Raw.noGuard, hf, Nat.mod_eq_of_lt]

theorem fexport_sound (hr : InPlace r) (hm : r.maj = 0x9E) (h : r.parseEngine = some p) : Sound r p := by
  simp only [Raw.parseEngine, hm, Option.some.injEq] at h
  subst h
  intro hp
  simp only [passes_iff, Bool.and_eq_true, beq_iff_eq, decide_eq_true_eq, noGuard_iff, and_true] at hp
  obtain ⟨hlen, hmin, ⟨⟨⟨hg, hd⟩, hb⟩, hc⟩, ha⟩ := hp
  exact ⟨Bool.and_eq_true_iff.2 ⟨decide_eq_true (Nat.mod_lt _ (by decide)), fits_of_fieldOf hr.a ha (Opd.evenIf_false _)⟩,
    congrArg some (encU_eq hr hm hd.symm (code_of_fieldOf hr.a ha) hb.symm (Nat.mod_eq_of_lt hc) hmin.symm hlen hg)⟩

theorem fexport_reads (hw : (Instr.fexport f o).wf = true) : Reads (.fexport f o) := by
  simp only [Instr.wf, Bool.and_eq_true, decide_eq_true_eq, fits_iff] at hw
  obtain ⟨hf, how, hoc, -⟩ := hw
  refine reads_of_check rfl ?_
  simp [Raw.check, Raw.parse, Raw.parseEngine, encU, Raw.noGuard, fieldOf_code how, op_code how, show o.isOf [.s, .k] = true from hoc, hf,
    Nat.mod_eq_of_lt]

theorem fimport_sound (hr : InPlace r) (hm : r.maj = 0x9F) (h : r.parseEngine = some p) : Sound r p := by
  simp only [Raw.parseEngine, hm, Option.some.injEq] at h
  subst h
  refine sysU_sound hr hm rfl fun hmin hcls _ _ hb hc => ?_
  obtain ⟨hf, ha⟩ := Bool.and_eq_true_iff.1 hcls
  exact ⟨Bool.and_eq_true_iff.2 ⟨hf, fits_of_fieldOf hr.a ha (Opd.evenIf_false _)⟩, rfl, code_of_fieldOf hr.a ha, (hb rfl).symm, (hc rfl).symm,
    (eq_of_beq hmin).symm⟩

theorem fimport_reads (hw : (Instr.fimport f o).wf = true) : Reads (.fimport f o) := by
  simp only [Instr.wf, Bool.and_eq_true, decide_eq_true_eq, fits_iff] at hw
  obtain ⟨hf, how, hoc, -⟩ := hw
  refine reads_of_check rfl ?_
  simp [Raw.check, Raw.parse, Raw.parseEngine, Raw.sys, encU, Raw.noGuard, fieldOf_code how, op_code how, show o.isOf [.s, .k] = true from hoc, hf]

/-! ### Barriers -/

/-- BARINIT and BAREXP: a barrier and an operand. -/
theorem barOpd_sound {mk : Nat → Opd → Instr} (hr : InPlace r) (hm : r.maj = m)
    (he : enc (mk (r.min % 32) (Raw.op r.a).1) = some (encU m 0 (Raw.op r.a).1.code 0 0 (r.min % 32)))
    (spells : ∀ k e, (decide (k < 32) && e.fits sk false) = true → (mk k e).wf = true) :
    Sound r (r.sys [1] false (r.min < 32) false true false false true (fieldOf r.a [.s, .k]) (mk (r.min % 32) (Raw.op r.a).1)) := by
  refine sysU_sound hr hm he fun hmin ha hd _ hb hc => ⟨spells _ _ (Bool.and_eq_true_iff.2 ⟨decide_eq_true (Nat.mod_lt _ (by decide)),
    fits_of_fieldOf hr.a ha (Opd.evenIf_false _)⟩), (hd rfl).symm, code_of_fieldOf hr.a ha, (hb rfl).symm, (hc rfl).symm,
    Nat.mod_eq_of_lt (of_decide_eq_true hmin)⟩

theorem barOpd_reads (hw : (Instr.barinit b o).wf = true) : Reads (.barinit b o) ∧ Reads (.barexp b o) := by
  simp only [Instr.wf, Bool.and_eq_true, decide_eq_true_eq, fits_iff] at hw
  obtain ⟨hb, how, hoc, -⟩ := hw
  constructor <;>
    refine reads_of_check rfl ?_ <;>
    simp [Raw.check, Raw.parse, Raw.parseEngine, Raw.sys, encU, Raw.noGuard, fieldOf_code how, op_code how, show o.isOf [.s, .k] = true from hoc, hb,
      Nat.mod_eq_of_lt]

theorem bara_sound (hr : InPlace r) (hm : r.maj = 0xA1) (h : r.parseEngine = some p) : Sound r p := by
  simp only [Raw.parseEngine, hm, Option.some.injEq] at h
  subst h
  exact sysU_sound hr hm rfl fun hmin _ hd ha hb hc => ⟨decide_eq_true (Nat.mod_lt _ (by decide)), (hd rfl).symm, (ha rfl).symm, (hb rfl).symm,
    (hc rfl).symm, Nat.mod_eq_of_lt (of_decide_eq_true hmin)⟩

theorem lbar_sound (hr : InPlace r) (hm : r.maj = 0xA4) (h : r.parseEngine = some p) : Sound r p := by
  simp only [Raw.parseEngine, hm, Option.some.injEq] at h
  subst h
  exact sysU_sound hr hm rfl fun hmin _ hd ha hb hc => ⟨decide_eq_true (Nat.mod_lt _ (by decide)), (hd rfl).symm, (ha rfl).symm, (hb rfl).symm,
    (hc rfl).symm, Nat.mod_eq_of_lt (of_decide_eq_true hmin)⟩

theorem barw_sound (hr : InPlace r) (hm : r.maj = 0xA3) (h : r.parseEngine = some p) : Sound r p := by
  simp only [Raw.parseEngine, hm, Option.some.injEq] at h
  subst h
  refine sysU_sound hr hm rfl fun hmin _ hd ha hb hc => ⟨decide_eq_true (Nat.mod_lt _ (by decide)), (hd rfl).symm, (ha rfl).symm, (hb rfl).symm,
    (hc rfl).symm, ?_⟩
  have := of_decide_eq_true hmin
  rw [b2n_testBit]
  omega

theorem bara_reads (hw : (Instr.bara b).wf = true) : Reads (.bara b) := by
  have hb : b < 32 := of_decide_eq_true hw
  refine reads_of_check rfl ?_
  simp [Raw.check, Raw.parse, Raw.parseEngine, Raw.sys, encU, Raw.noGuard, hb, Nat.mod_eq_of_lt]

theorem lbar_reads (hw : (Instr.lbar n).wf = true) : Reads (.lbar n) := by
  have hn : n < 4 := of_decide_eq_true hw
  refine reads_of_check rfl ?_
  simp [Raw.check, Raw.parse, Raw.parseEngine, Raw.sys, encU, Raw.noGuard, hn, Nat.mod_eq_of_lt]

theorem barw_reads {ph : Bool} (hw : (Instr.barw b ph).wf = true) : Reads (.barw b ph) := by
  have hb : b < 32 := of_decide_eq_true hw
  have hmod : (b + b2n ph * 32) % 32 = b := by omega
  have hlt : b + b2n ph * 32 < 64 := by
    have := Laws.b2n_lt ph
    omega
  have hbit : (b + b2n ph * 32).testBit 5 = ph := by
    rw [Nat.testBit_eq_decide_div_mod_eq]
    conv_rhs => rw [← eq_of_b2n_mod ph]
    exact decide_eq_decide.2 (by omega)
  refine reads_of_check rfl ?_
  simp [Raw.check, Raw.parse, Raw.parseEngine, Raw.sys, encU, Raw.noGuard, hmod, hlt, hbit]

/-- The rows of 0x90 to 0xA4 (the cases are numbered from 0x90 on). -/
theorem parseEngine_sound (hr : InPlace r) (h : r.parseEngine = some p) : Sound r p := by
  have row := h
  unfold Raw.parseEngine at h
  extract_lets at h
  split at h
  case h_1 hm | h_3 hm => cases h; exact cpy_sound hr hm fun _ _ _ hw ha => ⟨Bool.and_eq_true_iff.2 ⟨hw, ha⟩, rfl⟩
  case h_2 hm => exact cpyM_sound hr hm row
  case h_4 hm | h_6 hm => cases h; exact mmaDense_sound hr hm fun _ hw => ⟨hw, rfl⟩
  case h_5 hm => exact mmaSp_sound hr hm row
  case h_7 hm => exact msel_sound hr hm row
  case h_8 hm => exact accz_sound hr hm row
  case h_9 hm => exact accdr_sound hr hm row
  case h_10 hm => exact wdset_sound hr hm row
  case h_11 hm => exact mfence_sound hr hm row
  case h_12 hm => exact fwait_sound hr hm row
  case h_13 hm => exact ftest_sound hr hm row
  case h_14 hm => exact fcancel_sound hr hm row
  case h_15 hm => exact fexport_sound hr hm row
  case h_16 hm => exact fimport_sound hr hm row
  case h_17 hm | h_19 hm => cases h; exact barOpd_sound hr hm rfl fun _ _ hw => hw
  case h_18 hm => exact bara_sound hr hm row
  case h_20 hm => exact barw_sound hr hm row
  case h_21 hm => exact lbar_sound hr hm row
  case h_22 => cases h

end Sys2Proof
end

section
/-!
# The encodings of 15_ordered_system and of the emulation space, majors 0xB0 to 0xCC and 0xE0 to 0xEF
-/

namespace Sys2Proof
open Laws (InPlace)

variable {r : Raw} {p : Parsed} {i : Instr} {g : Guard} {n m f : Nat} {o d a b c : Opd}

/-- A 96-bit form with a guard. -/
theorem sysW_sound {minOk useD useA useB useC extOk clsOk : Bool} {d a b c min ext : Nat} (hr : InPlace r) (hm : r.maj = m)
    (he : enc i = some (encW m r.guard d a b c min ext))
    (spells : minOk = true → extOk = true → clsOk = true → (useD = false → r.d = 0) → (useA = false → r.a = 0) → (useB = false → r.b = 0) →
      (useC = false → r.c = 0) → r.ext < 2 ^ 32 → i.wf = true ∧ d = r.d ∧ a = r.a ∧ b = r.b ∧ c = r.c ∧ min = r.min ∧ ext = r.ext) :
    Sound r (r.sys [2] true minOk useD useA useB useC extOk clsOk i) := by
  intro hp
  obtain ⟨hlen, hmin, -, hd, ha, hb, hc, hext, hcls⟩ := sys_passes_iff.1 hp
  have hlen : r.len = 2 := by simpa using hlen
  obtain ⟨hw, hd, ha, hb, hc, hmin, hext⟩ := spells hmin hext hcls hd ha hb hc (r.ext_of_len2 hr hlen)
  exact ⟨hw, he.trans (congrArg some (encW_eq hm hd ha hb hc hmin hlen hext))⟩

/-- A 96-bit form without a guard. -/
theorem sysWU_sound {minOk useD useA useB useC extOk clsOk : Bool} {d a b c min ext : Nat} (hr : InPlace r) (hm : r.maj = m)
    (he : enc i = some (encW m .all d a b c min ext))
    (spells : minOk = true → extOk = true → clsOk = true → (useD = false → r.d = 0) → (useA = false → r.a = 0) → (useB = false → r.b = 0) →
      (useC = false → r.c = 0) → r.ext < 2 ^ 32 → i.wf = true ∧ d = r.d ∧ a = r.a ∧ b = r.b ∧ c = r.c ∧ min = r.min ∧ ext = r.ext) :
    Sound r (r.sys [2] false minOk useD useA useB useC extOk clsOk i) := by
  intro hp
  obtain ⟨hlen, hmin, hg, hd, ha, hb, hc, hext, hcls⟩ := sys_passes_iff.1 hp
  have hlen : r.len = 2 := by simpa using hlen
  obtain ⟨hw, hd, ha, hb, hc, hmin, hext⟩ := spells hmin hext hcls hd ha hb hc (r.ext_of_len2 hr hlen)
  exact ⟨hw, he.trans (congrArg some (hg rfl ▸ encW_eq hm hd ha hb hc hmin hlen hext))⟩

/-- An operand field of 32 bits fits. -/
theorem fits32 {cs : List OC} (hn : n < 1024) (h : fieldOf n cs = true) : (Raw.op n).1.fits cs false = true :=
  fits_of_fieldOf hn h (Opd.evenIf_false _)

/-! ### Transactions (Table 15-3) -/

theorem otdecl_sound (hr : InPlace r) (hm : r.maj = 0xB0) (h : r.parseSystem = some p) : Sound r p := by
  simp only [Raw.parseSystem, hm, Option.some.injEq] at h
  subst h
  refine sysU_sound hr hm rfl fun hmin hcls _ _ hb hc => ?_
  obtain ⟨hf, ha⟩ := Bool.and_eq_true_iff.1 hcls
  exact ⟨Bool.and_eq_true_iff.2 ⟨hf, fits32 hr.a ha⟩, rfl, code_of_fieldOf hr.a ha, (hb rfl).symm, (hc rfl).symm, (eq_of_beq hmin).symm⟩

theorem otbegin_sound (hr : InPlace r) (hm : r.maj = 0xB1) (h : r.parseSystem = some p) : Sound r p := by
  simp only [Raw.parseSystem, hm, Option.some.injEq] at h
  subst h
  intro hp
  simp only [passes_iff, Bool.and_eq_true, beq_iff_eq, decide_eq_true_eq, noGuard_iff, and_true] at hp
  obtain ⟨hlen, hmin, ⟨⟨⟨hg, hd⟩, ha⟩, hb⟩, hc⟩ := hp
  exact ⟨decide_eq_true (Nat.mod_lt _ (by decide)),
    congrArg some (encU_eq hr hm hd.symm ha.symm hb.symm (Nat.mod_eq_of_lt hc) hmin.symm hlen hg)⟩

theorem otend_sound (hr : InPlace r) (hm : r.maj = 0xB2) (h : r.parseSystem = some p) : Sound r p := by
  simp only [Raw.parseSystem, hm, Option.some.injEq] at h
  subst h
  exact sysU_sound hr hm rfl fun hmin _ hd ha hb hc =>
    ⟨rfl, (hd rfl).symm, (ha rfl).symm, (hb rfl).symm, (hc rfl).symm, (eq_of_beq hmin).symm⟩

theorem otround_sound (hr : InPlace r) (hm : r.maj = 0xB3) (h : r.parseSystem = some p) : Sound r p := by
  simp only [Raw.parseSystem, hm, Option.some.injEq] at h
  subst h
  exact sysU_sound hr hm rfl fun hmin ha hd _ hb hc =>
    ⟨fits32 hr.a ha, (hd rfl).symm, code_of_fieldOf hr.a ha, (hb rfl).symm, (hc rfl).symm, (eq_of_beq hmin).symm⟩

theorem otdecl_reads (hw : (Instr.otdecl f o).wf = true) : Reads (.otdecl f o) := by
  simp only [Instr.wf, Bool.and_eq_true, decide_eq_true_eq, fits_iff] at hw
  obtain ⟨hf, how, hoc, -⟩ := hw
  refine reads_of_check rfl ?_
  simp [Raw.check, Raw.parse, Raw.parseSystem, Raw.sys, encU, Raw.noGuard, fieldOf_code how, op_code how, show o.isOf [.s, .k] = true from hoc, hf]

theorem otbegin_reads (hw : (Instr.otbegin f).wf = true) : Reads (.otbegin f) := by
  have hf : f < 16 := of_decide_eq_true hw
  refine reads_of_check rfl ?_
  simp [Raw.check, Raw.parse, Raw.parseSystem, encU, Raw.noGuard, hf, Nat.mod_eq_of_lt]

theorem otround_reads (hw : (Instr.otround o).wf = true) : Reads (.otround o) := by
  obtain ⟨how, hoc, -⟩ := fits_iff.1 hw
  refine reads_of_check rfl ?_
  simp [Raw.check, Raw.parse, Raw.parseSystem, Raw.sys, encU, Raw.noGuard, fieldOf_code how, op_code how, show o.isOf [.s, .k] = true from hoc]

/-! ### Traps and requests (Table 15-7) -/

theorem enc_trap_of_wf (h : o.wf = true) : enc (.trap o) = some (encU 0xC0 0 o.code 0 0 0) := by
  cases o with
  | imm w => cases h
  | _ => rfl

theorem wf_trap_of_wf (h : o.wf = true) : (Instr.trap o).wf = o.fits sk false := by
  cases o with
  | imm w => cases h
  | _ => rfl

theorem trap_sound (hr : InPlace r) (hm : r.maj = 0xC0) (h : r.parseSystem = some p) : Sound r p := by
  simp only [Raw.parseSystem, hm, Option.some.injEq] at h
  subst h
  intro hp
  obtain ⟨hlen, hmin, hg, hd, ha, hb, hc, hext, hcls⟩ := sys_passes_iff.1 hp
  have hlen : r.len = 1 ∨ r.len = 2 := by simpa using hlen
  rcases hlen with hlen | hlen
  · have ha : fieldOf r.a [.s, .k] = true := by simpa [hlen] using hcls
    have hwf := (of_op hr.a (fieldOf_iff.1 ha).1).1
    simp only [Raw.sys, hlen]
    refine ⟨(wf_trap_of_wf hwf).trans (fits32 hr.a ha), (enc_trap_of_wf hwf).trans (congrArg some ?_)⟩
    exact encU_eq hr hm (hd rfl).symm (code_of_fieldOf hr.a ha) (hb rfl).symm (hc rfl).symm (eq_of_beq hmin).symm hlen (hg rfl)
  · have ha : r.a = 0 := ha (by simp [hlen])
    have hext : r.ext < 2 ^ 16 := by simpa [hlen] using hext
    have himm := r.imm_toNat hr hlen
    simp only [Raw.sys, hlen]
    refine ⟨decide_eq_true (himm ▸ hext), congrArg some (hg rfl ▸ ?_)⟩
    exact encW_eq hm (hd rfl).symm ha.symm (hb rfl).symm (hc rfl).symm (eq_of_beq hmin).symm hlen himm

theorem trap_reads (hw : (Instr.trap o).wf = true) : Reads (.trap o) := by
  by_cases himm : ∃ w, o = .imm w
  · obtain ⟨w, rfl⟩ := himm
    have hw : w.toNat < 2 ^ 16 := of_decide_eq_true hw
    refine reads_of rfl rfl ?_ ?_
    · rw [sys_passes_iff]
      refine ⟨rfl, rfl, fun _ => rfl, fun _ => rfl, fun _ => rfl, fun _ => rfl, fun _ => rfl, ?_, rfl⟩
      exact decide_eq_true hw
    · simp [Raw.sys, encW, Raw.imm]
  · have hfits : o.fits sk false = true := by
      cases o with
      | imm w => exact absurd ⟨w, rfl⟩ himm
      | _ => exact hw
    obtain ⟨how, hoc, -⟩ := fits_iff.1 hfits
    refine reads_of_check (enc_trap_of_wf how) ?_
    simp [Raw.check, Raw.parse, Raw.parseSystem, Raw.sys, encU, Raw.noGuard, fieldOf_code how, op_code how, show o.isOf [.s, .k] = true from hoc]

theorem svret_sound (hr : InPlace r) (hm : r.maj = 0xC1) (h : r.parseSystem = some p) : Sound r p := by
  simp only [Raw.parseSystem, hm, Option.some.injEq] at h
  subst h
  exact sysU_sound hr hm rfl fun hmin ha hd _ hb _ => ⟨Bool.and_eq_true_iff.2 ⟨fits32 hr.a ha, decide_eq_true hr.c⟩, (hd rfl).symm,
    code_of_fieldOf hr.a ha, (hb rfl).symm, rfl, (eq_of_beq hmin).symm⟩

theorem svthrow_sound (hr : InPlace r) (hm : r.maj = 0xC2) (h : r.parseSystem = some p) : Sound r p := by
  simp only [Raw.parseSystem, hm, Option.some.injEq] at h
  subst h
  refine sysU_sound hr hm rfl fun hmin hcls hd _ _ hc => ?_
  obtain ⟨ha, hb⟩ := Bool.and_eq_true_iff.1 hcls
  exact ⟨Bool.and_eq_true_iff.2 ⟨fits32 hr.a ha, fits32 hr.b hb⟩, (hd rfl).symm, code_of_fieldOf hr.a ha, code_of_fieldOf hr.b hb, (hc rfl).symm,
    (eq_of_beq hmin).symm⟩

theorem svret_reads (hw : (Instr.svret o n).wf = true) : Reads (.svret o n) := by
  simp only [Instr.wf, Bool.and_eq_true, decide_eq_true_eq, fits_iff] at hw
  obtain ⟨⟨how, hoc, -⟩, hn⟩ := hw
  refine reads_of_check rfl ?_
  simp [Raw.check, Raw.parse, Raw.parseSystem, Raw.sys, encU, Raw.noGuard, fieldOf_code how, op_code how, show o.isOf [.s, .k] = true from hoc]

theorem svthrow_reads (hw : (Instr.svthrow a b).wf = true) : Reads (.svthrow a b) := by
  simp only [Instr.wf, Bool.and_eq_true, fits_iff] at hw
  obtain ⟨⟨haw, hac, -⟩, hbw, hbc, -⟩ := hw
  refine reads_of_check rfl ?_
  simp [Raw.check, Raw.parse, Raw.parseSystem, Raw.sys, encU, Raw.noGuard, fieldOf_code haw, op_code haw, fieldOf_code hbw, op_code hbw,
    show a.isOf [.s, .k] = true from hac, show b.isOf [.s, .k] = true from hbc]

/-- The register and half of RDXV and WRXV. -/
theorem vregExt (h : (decide (r.ext < 2 ^ 17) && r.ext / 1024 % 64 == 0) = true) : r.ext % 1024 + b2n (r.ext.testBit 16) * 2 ^ 16 = r.ext := by
  simp only [Bool.and_eq_true, decide_eq_true_eq, beq_iff_eq] at h
  rw [b2n_testBit]
  omega

theorem vregExt_parts {reg : Nat} (hi : Bool) (h : reg < 1024) :
    (reg + b2n hi * 2 ^ 16) % 1024 = reg ∧ (reg + b2n hi * 2 ^ 16).testBit 16 = hi ∧ reg + b2n hi * 2 ^ 16 < 2 ^ 17 := by
  have hb := Laws.b2n_lt hi
  refine ⟨by omega, ?_, by omega⟩
  rw [Nat.testBit_eq_decide_div_mod_eq]
  conv_rhs => rw [← eq_of_b2n_mod hi]
  exact decide_eq_decide.2 (by omega)

theorem vregExt_ok {reg : Nat} (hi : Bool) (h : reg < 1024) :
    (decide (reg + b2n hi * 2 ^ 16 < 2 ^ 17) && (reg + b2n hi * 2 ^ 16) / 1024 % 64 == 0) = true := by
  have hb := Laws.b2n_lt hi
  simp only [Bool.and_eq_true, decide_eq_true_eq, beq_iff_eq]
  omega

theorem rdxv_sound (hr : InPlace r) (hm : r.maj = 0xC3) (h : r.parseSystem = some p) : Sound r p := by
  simp only [Raw.parseSystem, hm, Option.some.injEq] at h
  subst h
  refine sysW_sound hr hm rfl fun hmin hext hcls _ _ hb hc _ => ?_
  obtain ⟨hd, ha⟩ := Bool.and_eq_true_iff.1 hcls
  refine ⟨?_, code_of_fieldOf hr.d hd, code_of_fieldOf hr.a ha, (hb rfl).symm, (hc rfl).symm, (eq_of_beq hmin).symm, vregExt hext⟩
  simp only [Instr.wf, r.guard_wf hr, fits32 hr.d hd, fits32 hr.a (cs := sk) ha]
  exact decide_eq_true (Nat.mod_lt _ (by decide))

theorem wrxv_sound (hr : InPlace r) (hm : r.maj = 0xC4) (h : r.parseSystem = some p) : Sound r p := by
  simp only [Raw.parseSystem, hm, Option.some.injEq] at h
  subst h
  refine sysW_sound hr hm rfl fun hmin hext hcls hd _ _ hc _ => ?_
  obtain ⟨ha, hb⟩ := Bool.and_eq_true_iff.1 hcls
  refine ⟨?_, (hd rfl).symm, code_of_fieldOf hr.a ha, code_of_fieldOf hr.b hb, (hc rfl).symm, (eq_of_beq hmin).symm, vregExt hext⟩
  simp only [Instr.wf, r.guard_wf hr, fits32 hr.b hb, fits32 hr.a (cs := sk) ha]
  exact decide_eq_true (Nat.mod_lt _ (by decide))

theorem rdxv_reads {reg : Nat} {hi : Bool} (hw : (Instr.rdxv g d a reg hi).wf = true) : Reads (.rdxv g d a reg hi) := by
  simp only [Instr.wf, Bool.and_eq_true, decide_eq_true_eq, fits_iff, Guard.wf] at hw
  obtain ⟨⟨⟨hg, hdw, hdc, -⟩, haw, hac, -⟩, hreg⟩ := hw
  obtain ⟨hmod, hbit, hlt⟩ := vregExt_parts hi hreg
  refine reads_of rfl rfl ?_ ?_
  · rw [sys_passes_iff]
    simp only [encW, fieldOf_code hdw, fieldOf_code haw, hdc, show a.isOf [.s, .k] = true from hac]
    exact ⟨rfl, rfl, nofun, nofun, nofun, fun _ => trivial, fun _ => trivial, vregExt_ok hi hreg, rfl⟩
  · simp only [Raw.sys, encW, Raw.guard, op_code hdw, op_code haw, hmod, hbit]

theorem wrxv_reads {reg : Nat} {hi : Bool} (hw : (Instr.wrxv g a b reg hi).wf = true) : Reads (.wrxv g a b reg hi) := by
  simp only [Instr.wf, Bool.and_eq_true, decide_eq_true_eq, fits_iff, Guard.wf] at hw
  obtain ⟨⟨⟨hg, haw, hac, -⟩, hbw, hbc, -⟩, hreg⟩ := hw
  obtain ⟨hmod, hbit, hlt⟩ := vregExt_parts hi hreg
  refine reads_of rfl rfl ?_ ?_
  · rw [sys_passes_iff]
    simp only [encW, fieldOf_code hbw, fieldOf_code haw, hbc, show a.isOf [.s, .k] = true from hac]
    exact ⟨rfl, rfl, nofun, fun _ => trivial, nofun, nofun, fun _ => trivial, vregExt_ok hi hreg, rfl⟩
  · simp only [Raw.sys, encW, Raw.guard, op_code hbw, op_code haw, hmod, hbit]

theorem rdxs_sound (hr : InPlace r) (hm : r.maj = 0xC5) (h : r.parseSystem = some p) : Sound r p := by
  simp only [Raw.parseSystem, hm, Option.some.injEq] at h
  subst h
  refine sysWU_sound hr hm rfl fun hmin hext hcls _ _ hb hc _ => ?_
  obtain ⟨hd, ha⟩ := Bool.and_eq_true_iff.1 hcls
  refine ⟨?_, code_of_fieldOf hr.d hd, code_of_fieldOf hr.a ha, (hb rfl).symm, (hc rfl).symm, (eq_of_beq hmin).symm,
    Nat.mod_eq_of_lt (of_decide_eq_true hext)⟩
  simp only [Instr.wf, fits32 hr.d hd, fits32 hr.a (cs := sk) ha]
  exact decide_eq_true (Nat.mod_lt _ (by decide))

theorem wrxs_sound (hr : InPlace r) (hm : r.maj = 0xC6) (h : r.parseSystem = some p) : Sound r p := by
  simp only [Raw.parseSystem, hm, Option.some.injEq] at h
  subst h
  refine sysWU_sound hr hm rfl fun hmin hext hcls hd _ _ hc _ => ?_
  obtain ⟨ha, hb⟩ := Bool.and_eq_true_iff.1 hcls
  refine ⟨?_, (hd rfl).symm, code_of_fieldOf hr.a ha, code_of_fieldOf hr.b hb, (hc rfl).symm, (eq_of_beq hmin).symm,
    Nat.mod_eq_of_lt (of_decide_eq_true hext)⟩
  simp only [Instr.wf, fits32 hr.b (cs := sk) hb, fits32 hr.a (cs := sk) ha]
  exact decide_eq_true (Nat.mod_lt _ (by decide))

theorem rdxs_reads (hw : (Instr.rdxs d a n).wf = true) : Reads (.rdxs d a n) := by
  simp only [Instr.wf, Bool.and_eq_true, decide_eq_true_eq, fits_iff] at hw
  obtain ⟨⟨⟨hdw, hdc, -⟩, haw, hac, -⟩, hn⟩ := hw
  refine reads_of rfl rfl ?_ ?_
  · rw [sys_passes_iff]
    simp only [encW, fieldOf_code hdw, fieldOf_code haw, hdc, show a.isOf [.s, .k] = true from hac]
    exact ⟨rfl, rfl, fun _ => rfl, nofun, nofun, fun _ => trivial, fun _ => trivial, decide_eq_true hn, rfl⟩
  · simp only [Raw.sys, encW, op_code hdw, op_code haw, Nat.mod_eq_of_lt hn]

theorem wrxs_reads (hw : (Instr.wrxs a b n).wf = true) : Reads (.wrxs a b n) := by
  simp only [Instr.wf, Bool.and_eq_true, decide_eq_true_eq, fits_iff] at hw
  obtain ⟨⟨⟨haw, hac, -⟩, hbw, hbc, -⟩, hn⟩ := hw
  refine reads_of rfl rfl ?_ ?_
  · rw [sys_passes_iff]
    simp only [encW, fieldOf_code hbw, fieldOf_code haw, show b.isOf [.s, .k] = true from hbc, show a.isOf [.s, .k] = true from hac]
    exact ⟨rfl, rfl, fun _ => rfl, fun _ => trivial, nofun, nofun, fun _ => trivial, decide_eq_true hn, rfl⟩
  · simp only [Raw.sys, encW, op_code hbw, op_code haw, Nat.mod_eq_of_lt hn]

/-! ### System registers, banks and the mailbox -/

theorem rdsys_sound (hr : InPlace r) (hm : r.maj = 0xC7) (h : r.parseSystem = some p) : Sound r p := by
  simp only [Raw.parseSystem, hm, Option.some.injEq] at h
  subst h
  refine sysWU_sound hr hm rfl fun hmin hext hd _ ha hb hc _ => ?_
  obtain ⟨hmin, hnum⟩ := Bool.and_eq_true_iff.1 hmin
  refine ⟨?_, code_of_fieldOf hr.d hd, (ha rfl).symm, (hb rfl).symm, (hc rfl).symm, (eq_of_beq hmin).symm,
    Nat.mod_eq_of_lt (of_decide_eq_true hext)⟩
  simp only [Instr.wf, fits32 hr.d hd, hnum, Bool.and_true]
  exact decide_eq_true (Nat.mod_lt _ (by decide))

theorem wrsys_sound (hr : InPlace r) (hm : r.maj = 0xC8) (h : r.parseSystem = some p) : Sound r p := by
  simp only [Raw.parseSystem, hm, Option.some.injEq] at h
  subst h
  refine sysWU_sound hr hm rfl fun hmin hext ha hd _ hb hc _ => ?_
  obtain ⟨hmin, hnum⟩ := Bool.and_eq_true_iff.1 hmin
  refine ⟨?_, (hd rfl).symm, code_of_fieldOf hr.a ha, (hb rfl).symm, (hc rfl).symm, (eq_of_beq hmin).symm,
    Nat.mod_eq_of_lt (of_decide_eq_true hext)⟩
  simp only [Instr.wf, fits32 hr.a (cs := sk) ha, hnum, Bool.and_true]
  exact decide_eq_true (Nat.mod_lt _ (by decide))

theorem rdsys_reads (hw : (Instr.rdsys d n).wf = true) : Reads (.rdsys d n) := by
  simp only [Instr.wf, Bool.and_eq_true, decide_eq_true_eq, fits_iff] at hw
  obtain ⟨⟨⟨hdw, hdc, -⟩, hn⟩, hnum⟩ := hw
  have hmod : n % 4096 = n := Nat.mod_eq_of_lt hn
  refine reads_of rfl rfl ?_ ?_
  · rw [sys_passes_iff]
    simp only [encW, fieldOf_code hdw, hdc, hmod, hnum]
    exact ⟨rfl, rfl, fun _ => rfl, nofun, fun _ => trivial, fun _ => trivial, fun _ => trivial, decide_eq_true hn, trivial⟩
  · simp only [Raw.sys, encW, op_code hdw, hmod]

theorem wrsys_reads (hw : (Instr.wrsys a n).wf = true) : Reads (.wrsys a n) := by
  simp only [Instr.wf, Bool.and_eq_true, decide_eq_true_eq, fits_iff] at hw
  obtain ⟨⟨⟨haw, hac, -⟩, hn⟩, hnum⟩ := hw
  have hmod : n % 4096 = n := Nat.mod_eq_of_lt hn
  refine reads_of rfl rfl ?_ ?_
  · rw [sys_passes_iff]
    simp only [encW, fieldOf_code haw, show a.isOf [.s, .k] = true from hac, hmod, hnum]
    exact ⟨rfl, rfl, fun _ => rfl, fun _ => trivial, nofun, fun _ => trivial, fun _ => trivial, decide_eq_true hn, trivial⟩
  · simp only [Raw.sys, encW, op_code haw, hmod]

theorem bankset_sound (hr : InPlace r) (hm : r.maj = 0xC9) (h : r.parseSystem = some p) : Sound r p := by
  simp only [Raw.parseSystem, hm, Option.some.injEq] at h
  subst h
  exact sysU_sound hr hm rfl fun hmin ha hd _ hb hc => ⟨fits32 hr.a ha, (hd rfl).symm, code_of_fieldOf hr.a ha, (hb rfl).symm, (hc rfl).symm,
    BankMode.code_getD _ (of_decide_eq_true hmin)⟩

theorem bankset_reads {mode : BankMode} (hw : (Instr.bankset a mode).wf = true) : Reads (.bankset a mode) := by
  obtain ⟨haw, hac, -⟩ := fits_iff.1 hw
  have hmode := mode.code_lt
  refine reads_of_check rfl ?_
  simp [Raw.check, Raw.parse, Raw.parseSystem, Raw.sys, encU, Raw.noGuard, fieldOf_code haw, op_code haw, show a.isOf [.s, .k] = true from hac, hmode,
    BankMode.ofCode_code]

theorem bist_sound (hr : InPlace r) (hm : r.maj = 0xCA) (h : r.parseSystem = some p) : Sound r p := by
  simp only [Raw.parseSystem, hm, Option.some.injEq] at h
  subst h
  refine sysU_sound hr hm rfl fun hmin hcls _ _ _ hc => ?_
  simp only [Bool.and_eq_true] at hcls
  obtain ⟨⟨hd, ha⟩, hb⟩ := hcls
  refine ⟨?_, code_of_fieldOf hr.d hd, code_of_fieldOf hr.a ha, code_of_fieldOf hr.b hb, (hc rfl).symm, (eq_of_beq hmin).symm⟩
  simp only [Instr.wf, fits32 hr.d hd, fits32 hr.a (cs := sk) ha, fits32 hr.b (cs := sk) hb, Bool.and_self]

theorem bist_reads (hw : (Instr.bist d a b).wf = true) : Reads (.bist d a b) := by
  simp only [Instr.wf, Bool.and_eq_true, fits_iff] at hw
  obtain ⟨⟨⟨hdw, hdc, -⟩, haw, hac, -⟩, hbw, hbc, -⟩ := hw
  refine reads_of_check rfl ?_
  simp [Raw.check, Raw.parse, Raw.parseSystem, Raw.sys, encU, Raw.noGuard, fieldOf_code hdw, op_code hdw, fieldOf_code haw, op_code haw,
    fieldOf_code hbw, op_code hbw, hdc, show a.isOf [.s, .k] = true from hac, show b.isOf [.s, .k] = true from hbc]

theorem mbxrd_sound (hr : InPlace r) (hm : r.maj = 0xCB) (h : r.parseSystem = some p) : Sound r p := by
  simp only [Raw.parseSystem, hm] at h
  split at h <;> rw [Option.some.injEq] at h <;> subst h
  case isTrue hword =>
    refine sysU_sound hr hm rfl fun _ hcls _ _ _ hc => ?_
    simp only [Bool.and_eq_true] at hcls
    obtain ⟨⟨hd, ha⟩, hb⟩ := hcls
    refine ⟨?_, code_of_fieldOf hr.d hd, code_of_fieldOf hr.a ha, code_of_fieldOf hr.b hb, (hc rfl).symm, (eq_of_beq hword).symm⟩
    simp only [Instr.wf, fits32 hr.d hd, fits32 hr.a (cs := sk) ha, fits32 hr.b (cs := sk) hb, Bool.and_self]
  case isFalse =>
    exact sysU_sound hr hm rfl fun hmin hd _ ha hb hc =>
      ⟨fits32 hr.d hd, code_of_fieldOf hr.d hd, (ha rfl).symm, (hb rfl).symm, (hc rfl).symm, (eq_of_beq hmin).symm⟩

theorem mbxrdNext_reads (hw : (Instr.mbxrdNext d).wf = true) : Reads (.mbxrdNext d) := by
  obtain ⟨hdw, hdc, -⟩ := fits_iff.1 hw
  refine reads_of_check rfl ?_
  simp [Raw.check, Raw.parse, Raw.parseSystem, Raw.sys, encU, Raw.noGuard, fieldOf_code hdw, op_code hdw, hdc]

theorem mbxrdWord_reads (hw : (Instr.mbxrdWord d a b).wf = true) : Reads (.mbxrdWord d a b) := by
  simp only [Instr.wf, Bool.and_eq_true, fits_iff] at hw
  obtain ⟨⟨⟨hdw, hdc, -⟩, haw, hac, -⟩, hbw, hbc, -⟩ := hw
  refine reads_of_check rfl ?_
  simp [Raw.check, Raw.parse, Raw.parseSystem, Raw.sys, encU, Raw.noGuard, fieldOf_code hdw, op_code hdw, fieldOf_code haw, op_code haw,
    fieldOf_code hbw, op_code hbw, hdc, show a.isOf [.s, .k] = true from hac, show b.isOf [.s, .k] = true from hbc]

theorem coreret_sound (hr : InPlace r) (hm : r.maj = 0xCC) (h : r.parseSystem = some p) : Sound r p := by
  simp only [Raw.parseSystem, hm, Option.some.injEq] at h
  subst h
  refine sysU_sound hr hm rfl fun hmin hcls _ _ hb hc => ?_
  obtain ⟨hd, ha⟩ := Bool.and_eq_true_iff.1 hcls
  exact ⟨Bool.and_eq_true_iff.2 ⟨fits32 hr.d hd, fits32 hr.a ha⟩, code_of_fieldOf hr.d hd, code_of_fieldOf hr.a ha, (hb rfl).symm, (hc rfl).symm,
    (eq_of_beq hmin).symm⟩

theorem coreret_reads (hw : (Instr.coreret d a).wf = true) : Reads (.coreret d a) := by
  simp only [Instr.wf, Bool.and_eq_true, fits_iff] at hw
  obtain ⟨⟨hdw, hdc, -⟩, haw, hac, -⟩ := hw
  refine reads_of_check rfl ?_
  simp [Raw.check, Raw.parse, Raw.parseSystem, Raw.sys, encU, Raw.noGuard, fieldOf_code hdw, op_code hdw, fieldOf_code haw, op_code haw, hdc,
    show a.isOf [.s, .k] = true from hac]

/-- The rows of 0xB0 to 0xB3 and 0xC0 to 0xCC, in order. -/
theorem parseSystem_sound (hr : InPlace r) (h : r.parseSystem = some p) : Sound r p := by
  have row := h
  unfold Raw.parseSystem at h
  extract_lets at h
  split at h
  case h_1 hm => exact otdecl_sound hr hm row
  case h_2 hm => exact otbegin_sound hr hm row
  case h_3 hm => exact otend_sound hr hm row
  case h_4 hm => exact otround_sound hr hm row
  case h_5 hm => exact trap_sound hr hm row
  case h_6 hm => exact svret_sound hr hm row
  case h_7 hm => exact svthrow_sound hr hm row
  case h_8 hm => exact rdxv_sound hr hm row
  case h_9 hm => exact wrxv_sound hr hm row
  case h_10 hm => exact rdxs_sound hr hm row
  case h_11 hm => exact wrxs_sound hr hm row
  case h_12 hm => exact rdsys_sound hr hm row
  case h_13 hm => exact wrsys_sound hr hm row
  case h_14 hm => exact bankset_sound hr hm row
  case h_15 hm => exact bist_sound hr hm row
  case h_16 hm => exact mbxrd_sound hr hm row
  case h_17 hm => exact coreret_sound hr hm row
  case h_18 => cases h

/-! ### The emulation space (Table 5-9) -/

/-- A form with both sources, all of one width. -/
theorem emul_sound {mk : Emu → Instr} {w : Bool} (hr : InPlace r) (hm : r.maj = m)
    (spells : ∀ x, wfEmu w w x = true → Spells (encEmu m x) (mk x)) : Sound r (r.emul w w w true (r.min == 0) mk) := by
  intro hp
  simp only [passes_iff, Raw.emul, Bool.and_eq_true, beq_iff_eq, Bool.not_true, Bool.false_or, Bool.true_or, and_true] at hp
  obtain ⟨hlen, hmin, hc, ⟨⟨hd, ha⟩, hb⟩, ⟨hde, hae⟩, hbe⟩ := hp
  have hw : wfEmu w w ⟨r.guard, (Raw.op r.d).1, (Raw.op r.a).1, (Raw.op r.b).1⟩ = true := by
    simp only [wfEmu, r.guard_wf hr, fits_of_fieldOf hr.d hd hde, fits_of_fieldOf hr.a ha hae, fits_of_fieldOf hr.b hb hbe, Bool.and_self]
  have henc : encEmu m ⟨r.guard, (Raw.op r.d).1, (Raw.op r.a).1, (Raw.op r.b).1⟩ = r :=
    encG_eq hr hm (code_of_fieldOf hr.d hd) (code_of_fieldOf hr.a ha) (code_of_fieldOf hr.b hb) hc.symm hmin.symm hlen
  have hs := spells _ hw
  rwa [henc] at hs

theorem emul_reads {mk : Emu → Instr} {x : Emu} {w : Bool} (hw : wfEmu w w x = true) (he : enc (mk x) = some (encEmu m x))
    (hparse : (encEmu m x).parse = some ((encEmu m x).emul w w w true ((encEmu m x).min == 0) mk)) : Reads (mk x) := by
  simp only [wfEmu, Bool.and_eq_true, fits_iff, Guard.wf, decide_eq_true_eq] at hw
  obtain ⟨⟨⟨hg, hdw, hdc, hde⟩, haw, hac, hae⟩, hbw, hbc, hbe⟩ := hw
  refine reads_of he hparse ?_ ?_
  · simp [passes_iff, Raw.emul, encEmu, encG, fieldOf_code, op_code, *]
  · simp only [Raw.emul, encEmu, encG, Raw.guard, op_code hdw, op_code haw, op_code hbw]

theorem dfma_sound (hr : InPlace r) (hm : r.maj = 0xEB) (h : r.parseEmu = some p) : Sound r p := by
  simp only [Raw.parseEmu, hm, Option.some.injEq] at h
  subst h
  intro hp
  simp only [passes_iff, Raw.emul, Bool.and_eq_true, beq_iff_eq, Bool.not_true, Bool.false_or, true_and] at hp
  obtain ⟨hlen, hmin, ⟨⟨⟨hd, ha⟩, hb⟩, hc⟩, ⟨⟨hde, hae⟩, hbe⟩, hce⟩ := hp
  simp only [Raw.emul]
  refine ⟨?_, congrArg some (encG_eq hr hm (code_of_fieldOf hr.d hd) (code_of_fieldOf hr.a ha) (code_of_fieldOf hr.b hb) (code_of_fieldOf hr.c hc)
    hmin.symm hlen)⟩
  simp only [Instr.wf, wfEmu, r.guard_wf hr, fits_of_fieldOf hr.d hd hde, fits_of_fieldOf hr.a ha hae, fits_of_fieldOf hr.b hb hbe,
    fits_of_fieldOf hr.c hc hce, Bool.and_self]

theorem dfma_reads {x : Emu} (hw : (Instr.dfma x c).wf = true) : Reads (.dfma x c) := by
  simp only [Instr.wf, wfEmu, Bool.and_eq_true, fits_iff, Guard.wf, decide_eq_true_eq] at hw
  obtain ⟨⟨⟨⟨hg, hdw, hdc, hde⟩, haw, hac, hae⟩, hbw, hbc, hbe⟩, hcw, hcc, hce⟩ := hw
  refine reads_of_check rfl ?_
  simp [Raw.check, Raw.parse, Raw.parseEmu, Raw.emul, encG, Raw.guard, fieldOf_code, op_code, *]

theorem dsqrt_sound (hr : InPlace r) (hm : r.maj = 0xED) (h : r.parseEmu = some p) : Sound r p := by
  simp only [Raw.parseEmu, hm, Option.some.injEq] at h
  subst h
  intro hp
  simp only [passes_iff, Raw.emul, Bool.and_eq_true, beq_iff_eq, Bool.not_false, Bool.true_or, Bool.false_or, and_true] at hp
  obtain ⟨hlen, hmin, ⟨hc, hb⟩, ⟨hd, ha⟩, hde, hae⟩ := hp
  simp only [Raw.emul]
  refine ⟨?_, congrArg some (encG_eq hr hm (code_of_fieldOf hr.d hd) (code_of_fieldOf hr.a ha) hb.symm hc.symm hmin.symm hlen)⟩
  simp only [Instr.wf, r.guard_wf hr, fits_of_fieldOf hr.d hd hde, fits_of_fieldOf hr.a ha hae, Bool.and_self]

theorem dsqrt_reads (hw : (Instr.dsqrt g d a).wf = true) : Reads (.dsqrt g d a) := by
  simp only [Instr.wf, Bool.and_eq_true, fits_iff, Guard.wf, decide_eq_true_eq] at hw
  refine reads_of_check rfl ?_
  simp [Raw.check, Raw.parse, Raw.parseEmu, Raw.emul, encG, Raw.guard, fieldOf_code, op_code, *]

/-- DCVT's forms write a pair in the even ones and read one in the odd ones. -/
theorem dcvtForm (h : n < 4) : (n == 0 || n == 2) = (n % 2 == 0) ∧ (n == 1 || n == 3) = (n % 2 == 1) := by
  have : n = 0 ∨ n = 1 ∨ n = 2 ∨ n = 3 := by omega
  rcases this with rfl | rfl | rfl | rfl <;> decide

theorem dcvt_sound (hr : InPlace r) (hm : r.maj = 0xEE) (h : r.parseEmu = some p) : Sound r p := by
  simp only [Raw.parseEmu, hm, Option.some.injEq] at h
  subst h
  obtain ⟨hpd, hpa⟩ := dcvtForm (Nat.mod_lt r.min (show 0 < 4 by decide))
  intro hp
  simp only [passes_iff, Raw.emul, hpd, hpa, Bool.and_eq_true, beq_iff_eq, decide_eq_true_eq, Bool.not_false, Bool.true_or, Bool.false_or,
    and_true] at hp
  obtain ⟨hlen, hmin, ⟨hc, hb⟩, ⟨hd, ha⟩, hde, hae⟩ := hp
  have hf := Nat.mod_eq_of_lt hmin
  simp only [Raw.emul, hf] at hde hae ⊢
  refine ⟨?_, congrArg some (encG_eq hr hm (code_of_fieldOf hr.d hd) (code_of_fieldOf hr.a ha) hb.symm hc.symm rfl hlen)⟩
  simp only [Instr.wf, r.guard_wf hr, fits_of_fieldOf hr.d hd hde, fits_of_fieldOf hr.a ha hae, decide_eq_true hmin, Bool.and_self]

theorem dcvt_reads (hw : (Instr.dcvt g n d a).wf = true) : Reads (.dcvt g n d a) := by
  simp only [Instr.wf, Bool.and_eq_true, fits_iff, Guard.wf, decide_eq_true_eq] at hw
  obtain ⟨⟨⟨hg, hn⟩, hdw, hdc, hde⟩, haw, hac, hae⟩ := hw
  obtain ⟨hpd, hpa⟩ := dcvtForm hn
  have hf := Nat.mod_eq_of_lt hn
  refine reads_of rfl rfl ?_ ?_
  · simp only [passes_iff, Raw.emul, encG, hf, hpd, hpa, fieldOf_code hdw, fieldOf_code haw, op_code hdw, op_code haw, hdc, hac, hde, hae]
    simp [hn]
  · simp only [Raw.emul, encG, Raw.guard, hf, op_code hdw, op_code haw]

/-- The rows of 0xE0 to 0xEF (the cases are numbered from 0xE0 on). -/
theorem parseEmu_sound (hr : InPlace r) (h : r.parseEmu = some p) : Sound r p := by
  have row := h
  unfold Raw.parseEmu at h
  extract_lets at h
  split at h
  case h_1 hm | h_2 hm | h_5 hm | h_6 hm | h_9 hm | h_16 hm => cases h; exact emul_sound (w := false) hr hm fun _ hw => ⟨hw, rfl⟩
  case h_3 hm | h_4 hm | h_7 hm | h_8 hm | h_10 hm | h_11 hm | h_13 hm => cases h; exact emul_sound (w := true) hr hm fun _ hw => ⟨hw, rfl⟩
  case h_12 hm => exact dfma_sound hr hm row
  case h_14 hm => exact dsqrt_sound hr hm row
  case h_15 hm => exact dcvt_sound hr hm row
  case h_17 => cases h

end Sys2Proof
end

section
/-!
# Decoding and encoding are inverse (05_encoding)

The fields of a well-formed instruction are in place (`inPlace_of_wf`) and read back (`reads_of_wf`), every word that passes the checks of
Table 5-8 spells a well-formed instruction (`check_sound`), and so does a clause header; through the bytes of `decode` these are the two halves
of the statement.
-/

namespace Sys2Proof
open Laws (InPlace)

variable {r : Raw} {p : Parsed} {i : Instr} {n m k : Nat}

/-! ### Instructions with fields -/

/-- The fields of a well-formed instruction read back, by the lemma about its form. -/
theorem reads_of_wf (hw : i.wf = true) : Reads i := by
  cases i with
  | nop | ret | elseI | endif | loop | endloop | gjoin | exit | endtryGang | endtryCrew | endtryLaunch | rethrow | persist | otend =>
    exact reads_of_check rfl rfl
  | bra t => exact bra_reads hw
  | brc sense c off => exact brc_reads hw
  | call g t => exact call_reads hw
  | callv g a b => exact callv_reads hw
  | ifI g e n => exact if_reads hw
  | brk g => exact brk_reads.1
  | cont g => exact brk_reads.2
  | waitp n t => exact waitp_reads hw
  | tryGang off =>
    obtain ⟨reads, -⟩ := try_reads (off := off)
    exact reads
  | tryCrew off =>
    obtain ⟨-, reads, -⟩ := try_reads (off := off)
    exact reads
  | tryLaunch off =>
    obtain ⟨-, -, reads⟩ := try_reads (off := off)
    exact reads
  | throw g a => exact throw_reads hw
  | rdexr d a => exact rdexr_reads hw
  | iadd x | isub x | imul x | shl x | imin x | imax x | and x | or x | xor x | shr x | sar x | rot x =>
    exact b2_reads (tys := tyInts) hw rfl rfl
  | imulh x => exact b2_reads (tys := tyWords) hw rfl rfl
  | imad x => exact ter_reads (tys := tyInts) hw rfl rfl
  | iabs x | ineg x | not x | popc x | clz x | ctz x | brev x => exact un_reads (tys := tyInts) hw rfl rfl
  | mov x => exact un_reads (tys := [.u32, .u64]) hw rfl rfl
  | bfx x ctl => exact bfx_reads hw
  | bfi x ctl => exact bfi_reads hw
  | icmp g f ty pd a b => exact icmp_reads hw
  | icmpc f ty cd a b => exact icmpc_reads hw
  | sel x pi neg => exact sel_reads hw
  | movi g ty d imm => exact movi_reads hw
  | lea x sh => exact lea_reads hw
  | plop g d a b tt => exact plop_reads hw
  | clop d a b tt => exact clop_reads hw
  | pmov g f => exact pmov_reads hw
  | shfl g f ty d a b => exact shfl_reads hw
  | bcast g ty d a b => exact bcast_reads hw
  | ballot g d k => exact ballot_reads hw
  | pscan g op incl ty sat d a => exact pscan_reads hw
  | append g d a b => exact append_reads hw
  | red g op ty sat d va => exact red_reads hw
  | fadd x | fsub x | fmul x => exact b2_reads (tys := tyFloats) hw rfl rfl
  | fma x => exact ter_reads (tys := tyFloats) hw rfl rfl
  | fmin nan x => exact fmin_reads hw rfl rfl
  | fmax nan x => exact fmin_reads hw rfl rfl
  | fabs x | fneg x | frcp x | frsq x | fsqrt x | fexp2 x | flog2 x | fsin x | fcos x | ftanh x =>
    exact un_reads (tys := tyFloats) hw rfl rfl
  | fcmp g f k a b => exact fcmp_reads hw
  | fcmpc f k a b => exact fcmpc_reads hw
  | fclass g k a mask => exact fclass_reads hw
  | cvt g tgt src sat d a si di => exact cvt_reads hw
  | cvtmx g f d a b di => exact cvtmx_reads hw
  | cvtmxScale g f d a => exact cvtmxScale_reads hw
  | fscale x => exact fscale_reads hw
  | ld x sx d => exact ld_reads hw
  | ldRp x sx d k => exact ldRp_reads hw
  | st x data => exact st_reads hw
  | lds x sx d => exact lds_reads hw
  | sts x data => exact sts_reads hw
  | atom op x d data => exact atom_reads hw
  | atoms op x d data => exact atoms_reads hw
  | fence sc d => exact fence_reads hw
  | waita f sz sc d idx rc cmp disp => exact waita_reads hw
  | wake sc idx rc disp => exact wake_reads hw
  | zfill x =>
    obtain ⟨reads, -⟩ := range_forms_read hw
    exact reads
  | icpf x =>
    obtain ⟨-, reads, -⟩ := range_forms_read hw
    exact reads
  | icpin x =>
    obtain ⟨-, -, reads, -⟩ := range_forms_read hw
    exact reads
  | icpinUnpin x =>
    obtain ⟨-, -, -, reads, -⟩ := range_forms_read hw
    exact reads
  | icinvCrew x =>
    obtain ⟨-, -, -, -, reads, -⟩ := range_forms_read hw
    exact reads
  | icinvDev x =>
    obtain ⟨-, -, -, -, -, reads⟩ := range_forms_read hw
    exact reads
  | pagereq f x => exact pagereq_reads hw
  | cctlWb sc x => exact (cctl_reads hw).1
  | cctlDisc sc x => exact (cctl_reads hw).2
  | qstat full d q c => exact qstat_reads hw
  | cpy x arr dir | cpyX x arr dir =>
    obtain ⟨hx, harr⟩ := Bool.and_eq_true_iff.1 hw
    exact cpy_reads hx harr rfl rfl
  | cpyM x cores => exact cpyM_reads hw
  | mma x | mmaP x => exact mmaDense_reads hw rfl rfl
  | mmaSp x sm => exact mmaSp_reads hw
  | msel g f a b fw sa sm => exact msel_reads hw
  | accz g f tile => exact accz_reads hw
  | accdr g f off tgt tile => exact accdr_reads hw
  | wdset g f val tile => exact wdset_reads hw
  | mfence g f => exact mfence_reads hw
  | fwait f w => exact fwait_reads hw
  | ftest f c w => exact ftest_reads hw
  | fcancel f => exact fcancel_reads hw
  | fexport f off => exact fexport_reads hw
  | fimport f off => exact fimport_reads hw
  | barinit b e => exact (barOpd_reads hw).1
  | barexp b e => exact (barOpd_reads hw).2
  | bara b => exact bara_reads hw
  | barw b ph => exact barw_reads hw
  | lbar n => exact lbar_reads hw
  | otdecl f off => exact otdecl_reads hw
  | otbegin f => exact otbegin_reads hw
  | otround a => exact otround_reads hw
  | trap code => exact trap_reads hw
  | svret slot n => exact svret_reads hw
  | svthrow slot code => exact svthrow_reads hw
  | rdxv g d slot reg hi => exact rdxv_reads hw
  | wrxv g slot data reg hi => exact wrxv_reads hw
  | rdxs d slot num => exact rdxs_reads hw
  | wrxs slot data num => exact wrxs_reads hw
  | rdsys d num => exact rdsys_reads hw
  | wrsys data num => exact wrsys_reads hw
  | bankset a mode => exact bankset_reads hw
  | bist d arr pat => exact bist_reads hw
  | mbxrdNext d => exact mbxrdNext_reads hw
  | mbxrdWord d slot w => exact mbxrdWord_reads hw
  | coreret d core => exact coreret_reads hw
  | idivU32 x | iremU32 x | idivS32 x | iremS32 x | fdivF32 x | emu x => exact emul_reads (w := false) hw rfl rfl
  | idivU64 x | iremU64 x | idivS64 x | iremS64 x | dadd x | dmul x | ddiv x => exact emul_reads (w := true) hw rfl rfl
  | dfma x c => exact dfma_reads hw
  | dsqrt g d a => exact dsqrt_reads hw
  | dcvt g form d a => exact dcvt_reads hw
  | _ => exact fun r he => nomatch he

/-- The fields of a well-formed instruction are in place, by the law of its form. -/
theorem inPlace_of_wf (i : Instr) : Laws.Fields.Statement i := by
  cases i with
  | nop => apply Laws.Fields.nop
  | bra => apply Laws.Fields.bra
  | brc => apply Laws.Fields.brc
  | call => apply Laws.Fields.call
  | callv => apply Laws.Fields.callv
  | ret => apply Laws.Fields.ret
  | ifI => apply Laws.Fields.ifI
  | elseI => apply Laws.Fields.elseI
  | endif => apply Laws.Fields.endif
  | loop => apply Laws.Fields.loop
  | brk => apply Laws.Fields.brk
  | cont => apply Laws.Fields.cont
  | endloop => apply Laws.Fields.endloop
  | gjoin => apply Laws.Fields.gjoin
  | exit => apply Laws.Fields.exit
  | waitp => apply Laws.Fields.waitp
  | tryGang => apply Laws.Fields.tryGang
  | tryCrew => apply Laws.Fields.tryCrew
  | tryLaunch => apply Laws.Fields.tryLaunch
  | endtryGang => apply Laws.Fields.endtryGang
  | endtryCrew => apply Laws.Fields.endtryCrew
  | endtryLaunch => apply Laws.Fields.endtryLaunch
  | throw => apply Laws.Fields.throw
  | rethrow => apply Laws.Fields.rethrow
  | rdexr => apply Laws.Fields.rdexr
  | iadd => apply Laws.Fields.iadd
  | isub => apply Laws.Fields.isub
  | imul => apply Laws.Fields.imul
  | imulh => apply Laws.Fields.imulh
  | imad => apply Laws.Fields.imad
  | iabs => apply Laws.Fields.iabs
  | ineg => apply Laws.Fields.ineg
  | imin => apply Laws.Fields.imin
  | imax => apply Laws.Fields.imax
  | and => apply Laws.Fields.and
  | or => apply Laws.Fields.or
  | xor => apply Laws.Fields.xor
  | not => apply Laws.Fields.not
  | shl => apply Laws.Fields.shl
  | shr => apply Laws.Fields.shr
  | sar => apply Laws.Fields.sar
  | rot => apply Laws.Fields.rot
  | bfx => apply Laws.Fields.bfx
  | bfi => apply Laws.Fields.bfi
  | popc => apply Laws.Fields.popc
  | clz => apply Laws.Fields.clz
  | ctz => apply Laws.Fields.ctz
  | brev => apply Laws.Fields.brev
  | icmp => apply Laws.Fields.icmp
  | icmpc => apply Laws.Fields.icmpc
  | sel => apply Laws.Fields.sel
  | mov => apply Laws.Fields.mov
  | movi => apply Laws.Fields.movi
  | lea => apply Laws.Fields.lea
  | plop => apply Laws.Fields.plop
  | clop => apply Laws.Fields.clop
  | pmov => apply Laws.Fields.pmov
  | shfl => apply Laws.Fields.shfl
  | bcast => apply Laws.Fields.bcast
  | ballot => apply Laws.Fields.ballot
  | pscan => apply Laws.Fields.pscan
  | append => apply Laws.Fields.append
  | red => apply Laws.Fields.red
  | fadd => apply Laws.Fields.fadd
  | fsub => apply Laws.Fields.fsub
  | fmul => apply Laws.Fields.fmul
  | fma => apply Laws.Fields.fma
  | fmin => apply Laws.Fields.fmin
  | fmax => apply Laws.Fields.fmax
  | fabs => apply Laws.Fields.fabs
  | fneg => apply Laws.Fields.fneg
  | fscale => apply Laws.Fields.fscale
  | fcmp => apply Laws.Fields.fcmp
  | fcmpc => apply Laws.Fields.fcmpc
  | fclass => apply Laws.Fields.fclass
  | frcp => apply Laws.Fields.frcp
  | frsq => apply Laws.Fields.frsq
  | fsqrt => apply Laws.Fields.fsqrt
  | fexp2 => apply Laws.Fields.fexp2
  | flog2 => apply Laws.Fields.flog2
  | fsin => apply Laws.Fields.fsin
  | fcos => apply Laws.Fields.fcos
  | ftanh => apply Laws.Fields.ftanh
  | cvt => apply Laws.Fields.cvt
  | cvtmx => apply Laws.Fields.cvtmx
  | cvtmxScale => apply Laws.Fields.cvtmxScale
  | ld => apply Laws.Fields.ld
  | ldRp => apply Laws.Fields.ldRp
  | st => apply Laws.Fields.st
  | lds => apply Laws.Fields.lds
  | sts => apply Laws.Fields.sts
  | atom => apply Laws.Fields.atom
  | atoms => apply Laws.Fields.atoms
  | fence => apply Laws.Fields.fence
  | waita => apply Laws.Fields.waita
  | wake => apply Laws.Fields.wake
  | persist => apply Laws.Fields.persist
  | zfill => apply Laws.Fields.zfill
  | pagereq => apply Laws.Fields.pagereq
  | cctlWb => apply Laws.Fields.cctlWb
  | cctlDisc => apply Laws.Fields.cctlDisc
  | icpf => apply Laws.Fields.icpf
  | icpin => apply Laws.Fields.icpin
  | icpinUnpin => apply Laws.Fields.icpinUnpin
  | icinvCrew => apply Laws.Fields.icinvCrew
  | icinvDev => apply Laws.Fields.icinvDev
  | qstat => apply Laws.Fields.qstat
  | cpy => apply Laws.Fields.cpy
  | cpyM => apply Laws.Fields.cpyM
  | cpyX => apply Laws.Fields.cpyX
  | mma => apply Laws.Fields.mma
  | mmaSp => apply Laws.Fields.mmaSp
  | mmaP => apply Laws.Fields.mmaP
  | msel => apply Laws.Fields.msel
  | accz => apply Laws.Fields.accz
  | accdr => apply Laws.Fields.accdr
  | wdset => apply Laws.Fields.wdset
  | mfence => apply Laws.Fields.mfence
  | fwait => apply Laws.Fields.fwait
  | ftest => apply Laws.Fields.ftest
  | fcancel => apply Laws.Fields.fcancel
  | fexport => apply Laws.Fields.fexport
  | fimport => apply Laws.Fields.fimport
  | barinit => apply Laws.Fields.barinit
  | bara => apply Laws.Fields.bara
  | barexp => apply Laws.Fields.barexp
  | barw => apply Laws.Fields.barw
  | lbar => apply Laws.Fields.lbar
  | otdecl => apply Laws.Fields.otdecl
  | otbegin => apply Laws.Fields.otbegin
  | otend => apply Laws.Fields.otend
  | otround => apply Laws.Fields.otround
  | trap => apply Laws.Fields.trap
  | svret => apply Laws.Fields.svret
  | svthrow => apply Laws.Fields.svthrow
  | rdxv => apply Laws.Fields.rdxv
  | wrxv => apply Laws.Fields.wrxv
  | rdxs => apply Laws.Fields.rdxs
  | wrxs => apply Laws.Fields.wrxs
  | rdsys => apply Laws.Fields.rdsys
  | wrsys => apply Laws.Fields.wrsys
  | bankset => apply Laws.Fields.bankset
  | bist => apply Laws.Fields.bist
  | mbxrdNext => apply Laws.Fields.mbxrdNext
  | mbxrdWord => apply Laws.Fields.mbxrdWord
  | coreret => apply Laws.Fields.coreret
  | idivU32 => apply Laws.Fields.idivU32
  | iremU32 => apply Laws.Fields.iremU32
  | idivU64 => apply Laws.Fields.idivU64
  | iremU64 => apply Laws.Fields.iremU64
  | idivS32 => apply Laws.Fields.idivS32
  | iremS32 => apply Laws.Fields.iremS32
  | idivS64 => apply Laws.Fields.idivS64
  | iremS64 => apply Laws.Fields.iremS64
  | fdivF32 => apply Laws.Fields.fdivF32
  | dadd => apply Laws.Fields.dadd
  | dmul => apply Laws.Fields.dmul
  | dfma => apply Laws.Fields.dfma
  | ddiv => apply Laws.Fields.ddiv
  | dsqrt => apply Laws.Fields.dsqrt
  | dcvt => apply Laws.Fields.dcvt
  | emu => apply Laws.Fields.emu
  | _ => exact Laws.Fields.of_none rfl

/-- The ranges of Table 5-5. -/
theorem parse_sound (hr : InPlace r) (h : r.parse = some p) : Sound r p := by
  unfold Raw.parse at h
  split at h
  · exact parseControl_sound hr h
  split at h
  · exact parseInt_sound hr h
  split at h
  · exact parseFloat_sound hr h
  split at h
  · exact parseMem_sound hr h
  split at h
  · exact parseEngine_sound hr h
  split at h
  · exact parseSystem_sound hr h
  · exact parseEmu_sound hr h

theorem check_sound (hr : InPlace r) (h : r.check = .ok i) : Spells r i := by
  obtain ⟨p, hparse, hp, rfl⟩ := of_check h
  exact parse_sound hr hparse hp

/-! ### Clause headers (Table 5-2) -/

/-- The word of a clause header. -/
def headerWord (yld : Bool) (setb seta : Nat) (wait : BitVec 12) : Nat := wait.toNat * 4 + seta * 2 ^ 14 + setb * 2 ^ 18 + b2n yld * 2 ^ 22

variable {yld : Bool} {setb seta w e : Nat} {wait : BitVec 12}

theorem header_wf_iff : (Instr.clauseHeader yld setb seta wait).wf = true
    ↔ setb < 16 ∧ seta < 16 ∧ ¬ (12 ≤ setb ∧ setb ≤ 14) ∧ ¬ (12 ≤ seta ∧ seta ≤ 14) := by
  simp only [Instr.wf, Bool.and_eq_true, decide_eq_true_eq, Bool.not_eq_true', Bool.and_eq_false_iff, decide_eq_false_iff_not, not_and_or, and_assoc]

/-- A word of LEN 00b is the header of its fields where nothing stands above bit 22 and neither SETB nor SETA is 12 to 14 (R97). -/
theorem decodeHeader_eq_ok_iff : decodeHeader w = .ok i ↔
    i = .clauseHeader (w.testBit 22) (bits w 21 18) (bits w 17 14) (BitVec.ofNat 12 (w / 4)) ∧ i.wf = true ∧ w < 2 ^ 23 := by
  have hfields : bits w 21 18 < 16 ∧ bits w 17 14 < 16 := ⟨Nat.mod_lt _ (by decide), Nat.mod_lt _ (by decide)⟩
  have hlegal : (w / 2 ^ 23 != 0 || (decide (0xC ≤ bits w 17 14) && decide (bits w 17 14 ≤ 0xE))
      || (decide (0xC ≤ bits w 21 18) && decide (bits w 21 18 ≤ 0xE))) = true
      ↔ ¬ (w < 2 ^ 23 ∧ ¬ (12 ≤ bits w 21 18 ∧ bits w 21 18 ≤ 14) ∧ ¬ (12 ≤ bits w 17 14 ∧ bits w 17 14 ≤ 14)) := by
    simp only [Bool.or_eq_true, Bool.and_eq_true, decide_eq_true_eq, bne_iff_ne, ne_eq]
    omega
  unfold decodeHeader
  extract_lets seta setb
  split
  next h =>
    refine ⟨nofun, fun ⟨hi, hw, hlt⟩ => ?_⟩
    subst hi
    obtain ⟨-, -, hb, ha⟩ := header_wf_iff.1 hw
    exact absurd ⟨hlt, hb, ha⟩ (hlegal.1 h)
  next h =>
    obtain ⟨hlt, hb, ha⟩ := not_not.1 (hlegal.not.1 h)
    refine ⟨fun hi => ?_, fun ⟨hi, _, _⟩ => congrArg _ hi.symm⟩
    cases hi
    exact ⟨rfl, header_wf_iff.2 ⟨hfields.1, hfields.2, hb, ha⟩, hlt⟩

theorem headerWord_lt (hw : (Instr.clauseHeader yld setb seta wait).wf = true) : headerWord yld setb seta wait < 2 ^ 23 := by
  obtain ⟨hb, ha, -, -⟩ := header_wf_iff.1 hw
  have hwait := wait.isLt
  have hyld := Laws.b2n_lt yld
  unfold headerWord
  omega

theorem decodeHeader_headerWord (hw : (Instr.clauseHeader yld setb seta wait).wf = true) :
    decodeHeader (headerWord yld setb seta wait) = .ok (.clauseHeader yld setb seta wait) := by
  refine decodeHeader_eq_ok_iff.2 ⟨?_, hw, headerWord_lt hw⟩
  obtain ⟨hb, ha, -, -⟩ := header_wf_iff.1 hw
  have hwait := wait.isLt
  have hyld := Laws.b2n_lt yld
  simp only [headerWord, bits, Instr.clauseHeader.injEq, Nat.testBit_eq_decide_div_mod_eq]
  refine ⟨?_, by omega, by omega, ?_⟩
  · conv_lhs => rw [← eq_of_b2n_mod yld]
    exact decide_eq_decide.2 (by omega)
  · apply BitVec.eq_of_toNat_eq
    simp only [BitVec.toNat_ofNat]
    omega

theorem headerWord_fields (hlen : w % 4 = 0) (hw : w < 2 ^ 23) :
    headerWord (w.testBit 22) (bits w 21 18) (bits w 17 14) (BitVec.ofNat 12 (w / 4)) = w := by
  simp only [headerWord, bits, b2n_testBit, BitVec.toNat_ofNat]
  omega

theorem headerWord_mod : headerWord yld setb seta wait % 4 = 0 := by
  unfold headerWord
  omega

/-! ### Words, lengths and bytes -/

theorem lenBytes_zero : lenBytes 0 = 8 := rfl

theorem encode_header : encode (.clauseHeader yld setb seta wait) = some (headerWord yld setb seta wait, 0, 8) := rfl

theorem decodeWords_header (hlen : w % 4 = 0) : decodeWords w e = decodeHeader w := by
  rw [decodeWords, hlen]
  rfl

/-- The encoding of an instruction with fields: its word, what follows it, and the length that LEN gives. -/
theorem encode_of_enc (h : enc i = some r) : encode i = some (r.word, r.ext, lenBytes r.len) := by
  unfold encode
  split
  · cases h
  · rw [h]
    rfl

/-- An instruction with words is a clause header or has fields. -/
theorem of_hasWords (h : i.hasWords = true) : (∃ yld setb seta wait, i = .clauseHeader yld setb seta wait) ∨ ∃ r, enc i = some r := by
  unfold Instr.hasWords encode at h
  split at h
  case h_1 yld setb seta wait => exact .inl ⟨yld, setb, seta, wait, rfl⟩
  case h_2 =>
    cases he : enc i with
    | some r => exact .inr ⟨r, rfl⟩
    | none =>
      rw [he] at h
      cases h

theorem bytes_of_encode (h : encode i = some (w, e, n)) : i.bytes = n ∧ encodeBytes i = some (toLE 8 w ++ toLE (n - 8) e) := by
  simp only [Instr.bytes, encodeBytes, h, Option.map_some, Option.getD_some, and_self]

/-- Every well-formed instruction with words has a word and an extension, in the length that the word gives, which decode to it. -/
theorem encode_decodes (hw : i.wf = true) (h : i.hasWords = true) :
    ∃ w e n, encode i = some (w, e, n) ∧ w < 2 ^ 64 ∧ e < 256 ^ (n - 8) ∧ n = lenBytes (w % 4) ∧ decodeWords w e = .ok i := by
  rcases of_hasWords h with ⟨yld, setb, seta, wait, rfl⟩ | ⟨r, he⟩
  · have hlt : headerWord yld setb seta wait < 2 ^ 64 := Nat.lt_trans (headerWord_lt hw) (by norm_num)
    have hlen : 8 = lenBytes (headerWord yld setb seta wait % 4) := by rw [headerWord_mod, lenBytes_zero]
    exact ⟨_, 0, 8, encode_header, hlt, Nat.zero_lt_one, hlen, (decodeWords_header headerWord_mod).trans (decodeHeader_headerWord hw)⟩
  · have hr := inPlace_of_wf i hw r he
    exact ⟨r.word, r.ext, lenBytes r.len, encode_of_enc he, Raw.word_lt hr, Raw.ext_lt hr, by rw [Raw.word_mod hr],
      (decodeWords_word hr).trans (reads_of_wf hw r he)⟩

theorem extOf_of_lt (he : e < 256 ^ (lenBytes (w % 4) - 8)) (hlen : w % 4 ≠ 0) : extOf w e = e := by
  have : w % 4 = 1 ∨ w % 4 = 2 ∨ w % 4 = 3 := by omega
  rcases this with h | h | h <;> simp only [extOf, h, lenBytes] at he ⊢
  · exact (Nat.lt_one_iff.1 he).symm
  · exact Nat.mod_eq_of_lt he
  · exact Nat.mod_eq_of_lt he

/-- Every word and extension that decode are those of the well-formed instruction they decode to. -/
theorem decodeWords_sound (hw : w < 2 ^ 64) (he : e < 256 ^ (lenBytes (w % 4) - 8)) (h : decodeWords w e = .ok i) :
    i.wf = true ∧ encode i = some (w, e, lenBytes (w % 4)) := by
  by_cases hlen : w % 4 = 0
  · rw [decodeWords_header hlen] at h
    obtain ⟨rfl, hwf, hlt⟩ := decodeHeader_eq_ok_iff.1 h
    have he : e = 0 := by
      rw [hlen] at he
      exact Nat.lt_one_iff.1 he
    refine ⟨hwf, encode_header.trans ?_⟩
    rw [headerWord_fields hlen hlt, he, hlen, lenBytes_zero]
  · rw [decodeWords_of_len hlen] at h
    obtain ⟨hwf, henc⟩ := check_sound (ofWord_inPlace hlen) h
    refine ⟨hwf, ?_⟩
    rw [encode_of_enc henc, Raw.word_ofWord hw, ← extOf_of_lt he hlen]
    simp only [Raw.ofWord, extOf_of_lt he hlen]

/-- Settles O2: the fields of every form read back from the word they make, and the word from its bytes. -/
theorem decodeAfterEncode : Obligations.DecodeAfterEncode := by
  intro i rest hwf hwords
  obtain ⟨w, e, n, hencode, hw, he, hn, hdec⟩ := encode_decodes hwf hwords
  obtain ⟨hbytes, henc⟩ := bytes_of_encode hencode
  have hge := lenBytes_ge (w % 4)
  refine ⟨_, henc, ?_, ?_⟩
  · rw [List.length_append, length_toLE, length_toLE, hbytes]
    omega
  · rw [decode_toLE rest hw he hn, hdec, hbytes]
    rfl

/-- Settles O3: the checks of Table 5-8 leave no bit of a word unread, so that the fields of what they accept make the word again. -/
theorem encodeAfterDecode : Obligations.EncodeAfterDecode := by
  intro i bs n h
  obtain ⟨w, e, hw, rfl, hdec, he, hcut⟩ := decode_ok h
  obtain ⟨hwf, hencode⟩ := decodeWords_sound hw he hdec
  obtain ⟨hbytes, henc⟩ := bytes_of_encode hencode
  exact ⟨hwf, hbytes, hcut ▸ henc⟩

end Sys2Proof
end

section
/-!
# The words that the manual writes out (O1)

The statement is about closed words only, so it is evaluated.
-/

namespace Sys2Proof

/-- Settles O1, by evaluation of the decoder on each word. -/
theorem writtenWords : Obligations.WrittenWords := by
  unfold Obligations.WrittenWords
  decide +kernel

end Sys2Proof
end

section
/-!
# Clause headers, NOP, branches, calls and WAITP (O20)

The transfers go through `goTo`, which judges the target (R93, R130); CALL and a round of CALLV put the gang back with the counters raised
and throw the overflows behind it (R32).
-/

namespace Sys2Proof.Machine
variable {s s' : State} {is : Iss} {i : Instr} {t a : Nat} {r : Gang × List Nat} {m : State → Iss → Res}

theorem jumps_of {eff : State} {pc : Nat} (hi : exec i s = issue i s m) (hm : m s is = .jump eff pc) : Jumps i s is eff pc := comes_to m _ hi hm

/-- The gang put back, the group goes on at the address or throws the overflows. -/
theorem countersOr_of_putAndGo (run : mayRun s is i = true → exec i s = conclude is i (putAndGo s' is r t)) :
    CountersOr i s is r (modGang s' is.ref (fun _ => r.1)) (Jumps i s is (modGang s' is.ref (fun _ => r.1)) t) := by
  refine ⟨fun h hr => ?_, fun h hr => ?_⟩
  · rw [run hr, putAndGo, h, List.isEmpty_nil, if_pos rfl]
    rfl
  · rw [run hr, putAndGo, List.isEmpty_eq_false_iff.2 h, if_neg Bool.false_ne_true]
    rfl

/-- A transfer without an effect of its own. -/
theorem goesTo_of_jump (hi : exec i s = issue i s m) (hm : m s is = goTo s is t (fun s' => .jump s' t)) :
    GoesTo i s is t (fun s' => Jumps i s is s' t) :=
  goesTo_of i s is t _ _ m hi hm fun _ _ run => run

/-- A transfer that puts the gang back. -/
theorem goesTo_of_putAndGo (hi : exec i s = issue i s m) (hm : m s is = goTo s is t (fun s' => putAndGo s' is r t)) :
    GoesTo i s is t (fun s' => CountersOr i s is r (modGang s' is.ref (fun _ => r.1)) (Jumps i s is (modGang s' is.ref (fun _ => r.1)) t)) :=
  goesTo_of i s is t _ _ m hi hm fun _ _ run => countersOr_of_putAndGo run

/-! ### The judgement of a target (R130) -/

theorem headerAt_of_misaligned (h : a % 4 ≠ 0) : headerAt s is a = .trap s .misalignedFetch := if_pos h

theorem headerAt_of_fetched {bs : List Byte} (aligned : a % 4 = 0)
    (fetched : fetchSpan s is.ref (lowQuad is.q) is.q.pageFail a 8 = .ok s' bs) :
    headerAt s is a = if leNat bs % 4 = 0 then .ok s' else .trap s' .targetNotHeader := by
  simp only [headerAt, aligned, ne_eq, not_true_eq_false, if_false, fetched]

/-- Settles O20: each clause is a branch of the instruction's meaning; the transfers share `goesTo_of_jump` and `goesTo_of_putAndGo`. -/
theorem flowFormsAnswer : Obligations.FlowFormsAnswer := by
  unfold Obligations.FlowFormsAnswer
  intro s is yld sense setb seta a b c path n w off t g hd put
  refine ⟨fun first clear => ?header, fun first busy => ?headerWaits, fun again => ?headerTwice, answers_of _ s is s _ (exec_nop s) rfl,
    goesTo_of_jump (exec_bra t s) rfl, fun holds => ?brc, fun fails => ?brcPasses, fun none_selected => ?callPasses, fun selected => ?call,
    fun served => ?callvDone, fun f fs rest => ?callv, fun room => ?waitp, fun full => ?waitpWaits, fun a => headerAt_of_misaligned,
    fun a s' bs aligned fetched => ⟨fun header => ?isHeader, fun other => ?isNoHeader⟩⟩
  case header =>
    refine settles_of (exec_clauseHeader yld setb seta w s) ?_
    simp only [first, clear, Bool.false_eq_true, if_false, if_true]
  case headerWaits =>
    refine waits_of (exec_clauseHeader yld setb seta w s) ?_
    simp only [first, busy, Bool.false_eq_true, if_false]
  case headerTwice => exact traps_of (exec_clauseHeader yld setb seta w s) (if_pos again)
  case brc => exact goesTo_of_jump (exec_brc sense c off s) (if_pos holds)
  case brcPasses => exact answers_of _ s is s _ (exec_brc sense c off s) (if_neg fails)
  case callPasses => exact answers_of _ s is s _ (exec_call g t s) (if_pos (List.isEmpty_iff.2 none_selected))
  case call =>
    refine goesTo_of_putAndGo (exec_call g t s) (if_neg ?_)
    rw [List.isEmpty_eq_false_iff.2 selected]
    exact Bool.false_ne_true
  case callvDone =>
    refine answers_of _ s is _ _ (exec_callv g a b s) ?_
    simp only [served]
  case callv =>
    refine goesTo_of_putAndGo (exec_callv g a b s) ?_
    simp only [rest]
  case waitp => exact answers_of _ s is s _ (exec_waitp path n s) (if_pos room)
  case waitpWaits => exact waits_of (exec_waitp path n s) (if_neg (Nat.not_le.2 full))
  case isHeader => rw [headerAt_of_fetched aligned fetched, if_pos header]
  case isNoHeader => rw [headerAt_of_fetched aligned fetched, if_neg other]

end Sys2Proof.Machine
end

section
/-!
# Causes of Table 5-8 before any effect (O41)

Whatever the meaning of an instruction is, `issue` asks the screen first, so what the screen and the check of the target come to is all that
happens (R107, R108). A supervisor's or a user's instruction in the other kind of gang is the last thing that the screen asks (R106).
-/

namespace Sys2Proof.Machine
variable {s t : State} {is : Iss} {i : Instr} {c d : Cause} {m : State → Iss → Res}

/-- The screen stops an instruction before its meaning. -/
theorem issue_of_screen (issuer : issuer? s = some is) (live : is.q.ended = false) (going : suspended s is.ref is.gang = false)
    (free : groupHeld s is = false) (stops : screen s is i = some c) : issue i s m = screened s is i c := by
  simp only [issue, issuer, live, going, free, stops, Bool.or_self, Bool.false_eq_true, if_false]

theorem screened_of_targetOk (h : targetCheck s is i = .ok t) : screened s is i c = conclude is i (.trap t c) := by
  simp only [screened, h]

theorem screened_of_targetTrap (h : targetCheck s is i = .trap t d) : screened s is i c = conclude is i (.trap t (firstCause d c)) := by
  simp only [screened, h]

theorem screened_of_targetWait (h : targetCheck s is i = .wait t) : screened s is i c = .next { t with blocked := some .sync } := by
  simp only [screened, h]

/-- With no earlier cause a privileged instruction is stopped as one. -/
theorem screen_of_privileged (room : i.longLatency = false ∨ is.q.llc < 2 ∨ is.q.idle = true) (defined : dynMinor s is.ref i = false)
    (within : beyondCount is.gang i = false) (h : privileged is.ref i = true) : screen s is i = some .privileged := by
  have short : (i.longLatency && !is.q.idle && decide (is.q.llc ≥ 2)) = false := by
    rcases room with h | h | h
    · rw [h]; rfl
    · rw [decide_eq_false (Nat.not_le.2 h), Bool.and_false]
    · rw [h, Bool.not_true, Bool.and_false]; rfl
  simp only [screen, short, defined, within, h, Bool.false_eq_true, if_false, if_true]

/-- A supervisor gang has no launch, whose reservations could leave a value undefined. -/
theorem dynMinor_sup (n : Nat) : dynMinor s (.sup n) i = false := rfl

/-- Settles O41: the screen decides before the meaning, and the check of the target before the screen's cause. -/
theorem causesComeFirst : Obligations.CausesComeFirst := by
  unfold Obligations.CausesComeFirst
  intro s is i words issuer live going free traps
  refine ⟨fun c stops => ?causes, fun c n user only room defined within => ?user, fun c sup only room within => ?sup⟩
  case causes =>
    have comes : exec i s = screened s is i c := by
      rcases exec_shape i s with ⟨-, m, hm⟩ | ⟨event, -⟩
      · exact hm.trans (issue_of_screen issuer live going free stops)
      · rw [event] at words
        cases words
    exact ⟨fun t h => comes.trans (screened_of_targetOk h), fun t d h => comes.trans (screened_of_targetTrap h),
      fun t h => comes.trans (screened_of_targetWait h)⟩
  case user =>
    refine screen_of_privileged room defined within ?_
    rw [user]
    exact Bool.or_eq_true_iff.2 (.inl only)
  case sup =>
    refine screen_of_privileged room (sup ▸ dynMinor_sup c) within ?_
    rw [sup]
    exact only

end Sys2Proof.Machine
end

section
/-!
# A trap suspends the gang and posts its request (O42)

On a core without outstanding loads, stores or spilled registers there is nothing for the release of `postTrap` to do (`CoreQuiet`): it leaves
every gang and memory (`LeavesGangs`), and the request stands in the mailbox at once (R313, R314).
-/

namespace Sys2Proof.Machine
variable {s t u : State} {g h : GRef} {is : Iss} {x y : Gang} {r : Request} {c d : Nat}

/-! ### A core with nothing on its way to memory -/

/-- No gang of the core holds a store or a spilled register, and no copy at the core point is dirty. -/
structure CoreQuiet (s : State) (c : Nat) : Prop where
  buffers : ∀ h y, gang? s h = some y → coreOf s h = c → y.buf = [] ∧ y.unhomed = []
  clean : ∀ x, core? s c = some x → ∀ p ∈ x.cp, p.2.dirty = false

theorem coreOf_of_mem_gangsOn (hh : h ∈ gangsOn s c) : coreOf s h = c := by
  obtain ⟨p, -, hp⟩ := List.mem_flatMap.1 hh
  split at hp
  · exact eq_of_beq (List.mem_filter.1 hp).2
  · cases hp

theorem coreOf_of_mem_buffersOn (hh : h ∈ buffersOn s c) : coreOf s h = c := by
  rcases List.mem_append.1 hh with hh | hh
  · exact coreOf_of_mem_gangsOn hh
  · obtain rfl := List.mem_singleton.1 hh
    rfl

/-- A fold whose every step leaves the state leaves it. -/
theorem foldl_eq_self {α : Type} {xs : List α} {step : State → α → State} (hstep : ∀ a ∈ xs, step s a = s) : xs.foldl step s = s :=
  List.foldlRecOn (motive := fun t => t = s) xs step rfl fun _ ht a ha => ht ▸ hstep a ha

namespace CoreQuiet

theorem drainAll (quiet : CoreQuiet s (coreOf s g)) : drainAll s g = (s, []) := by
  have empty : ((gang? s g).map (fun x => x.buf.length)).getD 0 = 0 := by
    cases hx : gang? s g with
    | none => rfl
    | some x => exact congrArg List.length (quiet.buffers g x hx rfl).1
  rw [Machine.drainAll, empty]
  rfl

theorem drainOthers (quiet : CoreQuiet s (coreOf s g)) : drainOthers s g = s := by
  refine foldl_eq_self fun h hh => ?_
  have home := coreOf_of_mem_buffersOn (List.mem_of_mem_filter hh)
  cases hy : gang? s h with
  | none => rfl
  | some y =>
    simp only [Option.map_some, Option.getD_some, (quiet.buffers h y hy home).1]
    rfl

theorem othersHold (quiet : CoreQuiet s (coreOf s g)) (upTo : Nat) : othersHold s g upTo = false := by
  refine List.any_eq_false.2 fun h hh => ?_
  have home := coreOf_of_mem_buffersOn (List.mem_of_mem_filter hh)
  cases hy : gang? s h with
  | none => exact Bool.false_ne_true
  | some y =>
    simp only [Option.map_some, Option.getD_some, (quiet.buffers h y hy home).1]
    exact Bool.false_ne_true

theorem spillsHome (quiet : CoreQuiet s c) {p : Nat → Bool} : spillsHome s c p = s := by
  refine foldl_eq_self fun h hh => ?_
  cases hy : gang? s h with
  | none => simp only [spillHome, hy]
  | some y => simp only [spillHome, hy, (quiet.buffers h y hy (coreOf_of_mem_gangsOn hh)).2, List.isEmpty_nil, if_true]

theorem coreLineHome (quiet : CoreQuiet s c) (line : Nat) : coreLineHome s c line = s := by
  have settled : coreDirtyLine s c line = false := by
    unfold coreDirtyLine
    cases hx : core? s c with
    | none => rfl
    | some x =>
      refine List.any_eq_false.2 fun p hp => ?_
      rw [quiet.clean x hx p hp, Bool.and_false]
      exact Bool.false_ne_true
  rw [Machine.coreLineHome, settled, if_neg Bool.false_ne_true]

theorem coreWriteBackAll {core : Core} (quiet : CoreQuiet s c) (hc : core? s c = some core) :
    coreWriteBackAll s c = modCore s c (fun x => { x with lostCp := [] }) := by
  simp only [Machine.coreWriteBackAll, hc, quiet.spillsHome]
  rw [foldl_eq_self fun line _ => quiet.coreLineHome line]

end CoreQuiet

/-! ### What leaves gangs, where they lie, and memory -/

/-- A change that leaves every gang, its core, the cores there are, and memory. -/
structure LeavesGangs (s t : State) : Prop where
  gangs : ∀ h, gang? t h = gang? s h
  homes : ∀ h, coreOf t h = coreOf s h
  cores : ∀ d, (core? t d).isSome = (core? s d).isSome
  mem : t.mem = s.mem

namespace LeavesGangs

theorem refl : LeavesGangs s s := ⟨fun _ => rfl, fun _ => rfl, fun _ => rfl, rfl⟩

theorem trans (a : LeavesGangs s t) (b : LeavesGangs t u) : LeavesGangs s u :=
  ⟨fun h => (b.gangs h).trans (a.gangs h), fun h => (b.homes h).trans (a.homes h), fun d => (b.cores d).trans (a.cores d), b.mem.trans a.mem⟩

theorem modCore {f : Core → Core} (hf : ∀ x, (f x).sup = x.sup) : LeavesGangs s (modCore s c f) where
  gangs h := gang?_modCore s c f h hf
  homes h := by cases h <;> rfl
  cores d := by
    rw [core?_modCore]
    split
    · next e => rw [Option.isSome_map, e]
    · rfl
  mem := rfl

/-- The clocks of a crew are none of its gangs and do not move it. -/
theorem modCrew {f : Crew → Crew} (hf : ∀ x, (f x).gangs = x.gangs ∧ (f x).core = x.core ∧ (f x).launch = x.launch) :
    LeavesGangs s (modCrew s c f) where
  gangs h := by
    cases h with
    | sup d => rfl
    | user d n =>
      simp only [gang?, crew?_modCrew]
      by_cases e : d = c
      · subst e
        rw [if_pos rfl]
        cases crew? s d with
        | none => rfl
        | some x => simp only [Option.map_some, Option.bind_some, hf x]
      · rw [if_neg e]
  homes h := by
    cases h with
    | sup d => rfl
    | user d n =>
      simp only [coreOf, crew?_modCrew]
      by_cases e : d = c
      · subst e
        rw [if_pos rfl]
        cases crew? s d with
        | none => rfl
        | some x =>
          simp only [Option.map_some, isPair, launch?_modCrew, hf x]
          rfl
      · rw [if_neg e]
        rfl
  cores d := rfl
  mem := rfl

theorem raceRel : LeavesGangs s (raceRel s g) := by
  unfold Machine.raceRel raceRelease
  split
  · split
    · exact refl
    · exact modCrew fun _ => ⟨rfl, rfl, rfl⟩
  · exact refl

end LeavesGangs

/-! ### The request of a gang -/

theorem loadsPerformed_of_idle (idle : ∀ f ∈ x.flights, f.elems = []) (seq : Nat) : loadsPerformed x seq = true := by
  refine List.all_eq_true.2 fun f hf => ?_
  rw [idle f hf, List.all_nil, Bool.or_true]

/-- On a quiet core a release at DEV of an idle gang completes, and leaves every gang. -/
theorem releaseTo_of_quiet {core : Core} (quiet : CoreQuiet s (coreOf s g)) (hx : gang? s g = some x) (idle : ∀ f ∈ x.flights, f.elems = [])
    (hc : core? s (coreOf s g) = some core) (seq upTo : Nat) : ∃ t, releaseTo s g .dev seq upTo = some (t, []) ∧ LeavesGangs s t := by
  refine ⟨_, ?_, (LeavesGangs.modCore (s := s) (c := coreOf s g) (f := fun x => { x with lostCp := [] }) fun _ => rfl).trans
    (LeavesGangs.raceRel (g := g))⟩
  simp only [releaseTo, hx, loadsPerformed_of_idle idle, quiet.drainAll, quiet.drainOthers, quiet.othersHold, quiet.coreWriteBackAll hc,
    (quiet.buffers g x hx rfl).1, Bool.not_true, Bool.false_eq_true, if_false, Option.map_some, Option.getD_some, List.all_nil, if_true]

theorem postTrap_of_busy (hx : gang? s g = some x) (hr : x.trapReq = some r) (hcls : r.cls ≠ 4) (busy : ∃ f ∈ x.flights, f.elems ≠ []) :
    postTrap s g = s := by
  obtain ⟨f, hf, helems⟩ := busy
  have outstanding : x.flights.any (fun f => !f.elems.isEmpty && !(r.cls == 4 && waitsOnPage f)) = true :=
    List.any_eq_true.2 ⟨f, hf, by rw [List.isEmpty_eq_false_iff.2 helems, beq_false_of_ne hcls]; rfl⟩
  simp only [postTrap, hx, hr, outstanding, if_true]

theorem postTrap_of_quiet {core : Core} (quiet : CoreQuiet s (coreOf s g)) (hx : gang? s g = some x) (idle : ∀ f ∈ x.flights, f.elems = [])
    (hc : core? s (coreOf s g) = some core) (hr : x.trapReq = some r) (hcls : r.cls ≠ 4) :
    ∃ u, LeavesGangs s u ∧ postTrap s g = postRequest (modGang u g (fun x => { x with trapReq := none, noticed := false })) r := by
  obtain ⟨u, released, leaves⟩ := releaseTo_of_quiet quiet hx idle hc x.seq s.cycle.toNat
  have none_outstanding : x.flights.any (fun f => !f.elems.isEmpty && !(r.cls == 4 && waitsOnPage f)) = false :=
    List.any_eq_false.2 fun f hf => by rw [idle f hf]; exact Bool.false_ne_true
  refine ⟨u, leaves, ?_⟩
  simp only [postTrap, hx, hr, none_outstanding, Bool.false_eq_true, if_false]
  simp only [if_neg hcls, released, beq_false_of_ne hcls]

theorem postRequest_gang? : gang? (postRequest s r) h = gang? s h := by
  unfold postRequest
  split
  · rfl
  · have counted : ∀ v : State, gang? (countCore v (coreOf s r.gref) 0x80F 1) h = gang? v h := fun v => by cases h <;> rfl
    rw [counted]
    exact gang?_modCore _ _ _ _ fun _ => rfl

theorem postRequest_mem : (postRequest s r).mem = s.mem := by
  unfold postRequest
  split <;> rfl

/-- The request stands in the slot of its gang, with its number. -/
theorem postRequest_mbox (hx : gang? s r.gref = some x) (hc : (core? s (coreOf s r.gref)).isSome = true) :
    ∃ k, (core? (postRequest s r) (coreOf s r.gref)).bind (fun y => Tab.find? y.mbox x.slot) = some { r with seq := k } := by
  obtain ⟨core, hcore⟩ := Option.isSome_iff_exists.1 hc
  refine ⟨core.mboxSeq.toNat, ?_⟩
  have counted : ∀ v : State, core? (countCore v (coreOf s r.gref) 0x80F 1) (coreOf s r.gref) = core? v (coreOf s r.gref) := fun _ => rfl
  simp only [postRequest, hx, counted, core?_modCore, if_true, hcore, Option.map_some, Option.bind_some, Tab.find?_put_same]

/-! ### Taking a trap -/

theorem exmOf_lt (x : Gang) (q : QGroup) : exmOf x q < 2 ^ 64 := maskOf_lt _ _ fun l hl => ((mem_activeLanes x q l).1 hl).1

/-- The gang of a trap, with its request still to be posted. -/
def trappedGang (is : Iss) (r : Request) : Gang := { is.gang with trapped := some is.q.quads, trapReq := some r }

/-- The core counts the traps of its gangs in their order. -/
def countTrap (x : Core) : Core := { x with mboxOrder := x.mboxOrder + 1 }

theorem countTrap_sup (x : Core) : (countTrap x).sup = x.sup := rfl

/-- The state in which the request of a trap is still to be posted. -/
def trapPending (s : State) (is : Iss) (r : Request) : State :=
  modGang (modCore s (coreOf s is.ref) countTrap) is.ref (fun y => { y with trapped := some is.q.quads, trapReq := some r })

section
variable {n cls cause info : Nat} {insn : List Byte} {lanes : List Nat} {core : Core} (user : is.ref = .user c n)
include user

theorem takeTrap_user : takeTrap s is cls cause info insn lanes
    = postTrap (trapPending s is (requestOf s is cls cause info insn lanes)) is.ref := by
  simp only [takeTrap, trapPending, user]
  rfl

theorem core?_modGang_user {f : Gang → Gang} : core? (modGang s is.ref f) d = core? s d := by
  rw [user]
  rfl

omit user in
theorem trapPending_gang? (hx : gang? s is.ref = some is.gang) : gang? (trapPending s is r) is.ref = some (trappedGang is r) := by
  rw [trapPending, gang?_modGang_same, gang?_modCore _ _ _ _ countTrap_sup, hx]
  rfl

omit user in
theorem trapPending_coreOf : coreOf (trapPending s is r) h = coreOf s h := by
  rw [trapPending, coreOf_modGang]
  exact (LeavesGangs.modCore countTrap_sup).homes h

theorem trapPending_core? (hc : core? s (coreOf s is.ref) = some core) :
    core? (trapPending s is r) (coreOf s is.ref) = some (countTrap core) := by
  rw [trapPending, core?_modGang_user user, core?_modCore, if_pos rfl, hc]
  rfl

theorem trapPending_quiet (hx : gang? s is.ref = some is.gang) (hc : core? s (coreOf s is.ref) = some core)
    (quiet : ∀ h y, gang? s h = some y → coreOf s h = coreOf s is.ref → y.buf = [] ∧ y.unhomed = []) (clean : ∀ p ∈ core.cp, p.2.dirty = false) :
    CoreQuiet (trapPending s is r) (coreOf (trapPending s is r) is.ref) := by
  rw [trapPending_coreOf]
  refine ⟨fun h y hy home => ?_, fun z hz => ?_⟩
  · rw [trapPending_coreOf] at home
    by_cases hh : h = is.ref
    · subst hh
      obtain rfl := Option.some.inj ((trapPending_gang? hx).symm.trans hy)
      obtain ⟨hbuf, hunhomed⟩ := quiet _ _ hx rfl
      exact ⟨hbuf, hunhomed⟩
    · rw [trapPending, gang?_modGang_ne _ _ _ _ hh, gang?_modCore _ _ _ _ countTrap_sup] at hy
      exact quiet h y hy home
  · obtain rfl := Option.some.inj ((trapPending_core? user hc).symm.trans hz)
    exact clean

omit user in
theorem trapPending_mem : (trapPending s is r).mem = s.mem := modGang_mem _ _ _

end

/-- Settles O42: taking a trap leaves a request to post; an outstanding load keeps it there, and on a quiet core it is posted at once. -/
theorem trapsSuspendTheGang : Obligations.TrapsSuspendTheGang := by
  unfold Obligations.TrapsSuspendTheGang
  intro s is c n cls cause info insn lanes core user hx hc hcls t quiet rest
  have pending := trapPending_gang? (r := requestOf s is cls cause info insn lanes) hx
  have taken : t = postTrap (trapPending s is (requestOf s is cls cause info insn lanes)) is.ref := takeTrap_user user
  refine ⟨fun busy => taken.trans (postTrap_of_busy pending rfl hcls busy), fun idle still clean => ?_⟩
  obtain ⟨u, leaves, posts⟩ := postTrap_of_quiet (trapPending_quiet user hx hc still clean) pending idle
    ((congrArg _ trapPending_coreOf).trans (trapPending_core? user hc)) rfl hcls
  have posted := taken.trans posts
  have hu : gang? (modGang u is.ref (fun x => { x with trapReq := none, noticed := false })) is.ref
      = some { is.gang with trapped := some is.q.quads, trapReq := none, noticed := false } := by
    rw [gang?_modGang_same, leaves.gangs, pending]
    rfl
  have home : coreOf (modGang u is.ref (fun x => { x with trapReq := none, noticed := false })) is.ref = coreOf s is.ref := by
    rw [coreOf_modGang, leaves.homes, trapPending_coreOf]
  have ht : gang? t is.ref = some { is.gang with trapped := some is.q.quads, trapReq := none, noticed := false } := by
    rw [posted, postRequest_gang?, hu]
  refine ⟨⟨_, ht, rfl, rfl, rfl, rfl⟩, ?mailbox, fun a => ?memory⟩
  case mailbox =>
    have there : (core? (modGang u is.ref (fun x => { x with trapReq := none, noticed := false })) (coreOf s is.ref)).isSome = true := by
      rw [core?_modGang_user user, leaves.cores, trapPending_core? user hc]
      rfl
    obtain ⟨k, hk⟩ := postRequest_mbox (r := requestOf s is cls cause info insn lanes) hu (home.symm ▸ there)
    have posts_it : (core? t (coreOf s is.ref)).bind (fun x => Tab.find? x.mbox is.gang.slot)
        = some { requestOf s is cls cause info insn lanes with seq := k } := by
      rw [posted, ← home]
      exact hk
    have active : (requestOf s is cls cause info insn lanes).active.toNat = exmOf is.gang is.q :=
      (BitVec.toNat_ofNat _ _).trans (Nat.mod_eq_of_lt (exmOf_lt _ _))
    exact ⟨_, posts_it, rfl, rfl, rfl, rfl, rfl, BitVec.toNat_ofNat _ _, active, rfl, rfl, rfl, rfl⟩
  case memory => rw [posted, postRequest_mem, modGang_mem, leaves.mem, trapPending_mem]

end Sys2Proof.Machine
end

section
/-!
# The emulation space (O46)

Every instruction of the emulation space has the same meaning, and past the checks of Table 5-8 `issue` takes it one of four ways: an idle group
passes it, what is not ready waits, with no lane selected it is done, and otherwise it traps or throws (R109, R112).
-/

namespace Sys2Proof.Machine
variable {s : State} {is : Iss} {i : Instr}

/-- The meaning of an instruction of the emulation space: an issue without an effect of its own. -/
def Emulates (i : Instr) (s : State) : Prop := i.emulated = true ∧ exec i s = issue i s (fun s _ => .done s)

/-- A group that executes an instruction of the emulation space, with every check of Table 5-8 passed. -/
structure EmulationPasses (s : State) (is : Iss) (i : Instr) : Prop where
  emulates : Emulates i s
  issuer : issuer? s = some is
  live : is.q.ended = false
  going : suspended s is.ref is.gang = false
  free : groupHeld s is = false
  screened : screen s is i = none

namespace EmulationPasses

theorem exec_of_idle (h : EmulationPasses s is i) (idle : is.q.idle = true) : exec i s = .next (past s is i) := by
  obtain ⟨⟨hemu, hexec⟩, hiss, hlive, hgoing, hfree, hscreen⟩ := h
  simp [hexec, issue, hiss, hlive, hgoing, hfree, hscreen, hemu, idle, conclude]

theorem exec_of_notReady (h : EmulationPasses s is i) {why : Stall} (busy : is.q.idle = false) (hwhy : notReady is i = some why) :
    exec i s = .next { s with blocked := some why } := by
  obtain ⟨⟨hemu, hexec⟩, hiss, hlive, hgoing, hfree, hscreen⟩ := h
  simp [hexec, issue, hiss, hlive, hgoing, hfree, hscreen, hemu, busy, hwhy]

theorem exec_of_noLane (h : EmulationPasses s is i) (none_selected : selLanes is.gang is.q (guardOf i) = []) (ready : notReady is i = none) :
    exec i s = .next (past s is i) := by
  obtain ⟨⟨hemu, hexec⟩, hiss, hlive, hgoing, hfree, hscreen⟩ := h
  simp [hexec, issue, hiss, hlive, hgoing, hfree, hscreen, hemu, ready, none_selected, conclude]

theorem exec_of_ready (h : EmulationPasses s is i) (busy : is.q.idle = false) (selected : selLanes is.gang is.q (guardOf i) ≠ [])
    (ready : notReady is i = none) (fetched : (unfetched is.gang i).isEmpty = true) : exec i s = emulate s is i := by
  obtain ⟨⟨hemu, hexec⟩, hiss, hlive, hgoing, hfree, hscreen⟩ := h
  simp [hexec, issue, hiss, hlive, hgoing, hfree, hscreen, hemu, busy, selected, ready, fetched]

end EmulationPasses

/-- The lanes with an uncorrectable operand decide between the trap and the throws (R115). -/
theorem emulate_traps (h : (selLanes is.gang is.q (guardOf i)).filter (fun l => (spillBad is.gang i).getLsbD l) = []) :
    emulate s is i = .next (issued (takeTrap s is 3 0 0 (insnBytes i) (selLanes is.gang is.q (guardOf i))) is i) := by
  simp only [emulate, h]

theorem emulate_throws {bad : List Nat} (h : (selLanes is.gang is.q (guardOf i)).filter (fun l => (spillBad is.gang i).getLsbD l) = bad)
    (hbad : bad ≠ []) : emulate s is i = .next (issued (throwLanes s is.ref is.q.pc (bad.map (fun l => (l, 0x800B))) false none) is i) := by
  obtain ⟨l, ls, rfl⟩ := List.exists_cons_of_ne_nil hbad
  simp only [emulate, h]
  rfl

/-- Settles O46: an emulation-space instruction past the screen is a NOP of an idle group or of no lane, waits, or comes to `emulate`. -/
theorem emulationTraps : Obligations.EmulationTraps := by
  unfold Obligations.EmulationTraps
  intro s is x c d a g form all i hi issuer live going free screened ls bad
  have emulates : Emulates i s := by
    simp only [all, List.mem_cons, List.not_mem_nil, or_false] at hi
    rcases hi with rfl | rfl | rfl | rfl | rfl | rfl | rfl | rfl | rfl | rfl | rfl | rfl | rfl | rfl | rfl | rfl <;> exact ⟨rfl, rfl⟩
  have passes : EmulationPasses s is i := ⟨emulates, issuer, live, going, free, screened⟩
  refine ⟨fun h => h.elim passes.exec_of_idle fun ⟨none_selected, ready⟩ => passes.exec_of_noLane none_selected ready,
    fun why busy hwhy => passes.exec_of_notReady busy hwhy, fun busy selected ready fetched => ⟨fun good => ?_, fun some_bad => ?_⟩⟩
  · exact (passes.exec_of_ready busy selected ready fetched).trans (emulate_traps good)
  · exact (passes.exec_of_ready busy selected ready fetched).trans (emulate_throws rfl some_bad)

end Sys2Proof.Machine
end

section
/-!
# Queue registers (O19)

What a fold of writes leaves at one place; what a vector register, a table and a FIFO read as behind it; and a 32-bit move whose source or
destination is a queue register (R122).
-/

namespace Sys2Proof.Machine
variable {s t : State} {g : GRef} {is : Iss}

/-! ### Folds of writes -/

section
variable {α σ β : Type} {as : List α} {step : σ → α → σ} {read : σ → β}

/-- A fold whose every step leaves what is read leaves it. -/
theorem read_foldl_kept {x : σ} (keeps : ∀ a ∈ as, ∀ z, read (step z a) = read z) : read (as.foldl step x) = read x :=
  List.foldlRecOn (motive := fun z => read z = read x) as step rfl fun z hz a ha => (keeps a ha z).trans hz

/-- A value that one element writes, and that every other leaves, is read behind the fold. -/
theorem read_foldl_written {a : α} {v : β} (ha : a ∈ as) (writes : ∀ z, read (step z a) = v)
    (keeps : ∀ o ∈ as, o ≠ a → ∀ z, read (step z o) = read z) (x : σ) : read (as.foldl step x) = v := by
  induction as generalizing x with
  | nil => cases ha
  | cons b bs ih =>
    have keepsTail : ∀ o ∈ bs, o ≠ a → ∀ z, read (step z o) = read z := fun o ho => keeps o (List.mem_cons_of_mem _ ho)
    by_cases hmem : a ∈ bs
    · exact ih hmem keepsTail _
    · have hab : a = b := (List.mem_cons.1 ha).resolve_right hmem
      subst hab
      exact (read_foldl_kept fun o ho => keepsTail o ho fun e => hmem (e ▸ ho)).trans (writes x)

end

theorem rdV_congr {x y : Gang} (h : x.v = y.v) (n l : Nat) : rdV x n l = rdV y n l := by rw [rdV, rdV, h]

theorem rdV_wrVw_other {x : Gang} {n l v m k : Nat} {is64 : Bool} (hl : l < 64) (hk : k < 64)
    (other : (m ≠ n ∧ (is64 = true → m ≠ n + 1)) ∨ l ≠ k) : rdV (wrVw x n l is64 v) m k = rdV x m k := by
  cases is64 with
  | false => rw [wrVw, if_neg Bool.false_ne_true, rdV_wrV _ _ _ _ _ _ hl hk, if_neg (by grind)]
  | true => rw [wrVw, if_pos rfl, rdV_wrV _ _ _ _ _ _ hl hk, if_neg (by grind), rdV_wrV _ _ _ _ _ _ hl hk, if_neg (by grind)]

/-- A word or a pair reads back in the lane written, as wide as it is (R103). -/
theorem rdVw_wrVw_same {x : Gang} {n l v : Nat} {is64 : Bool} (hl : l < 64) :
    rdVw (wrVw x n l is64 v) n l is64 = v % 2 ^ (if is64 then 64 else 32) := by
  cases is64 with
  | false => simp only [rdVw, wrVw, Bool.false_eq_true, if_false, rdV_wrV _ _ _ _ _ _ hl hl, and_self, if_true]
  | true =>
    have low : rdV (wrVw x n l true v) n l = v % 2 ^ 32 := by
      rw [wrVw, if_pos rfl, rdV_wrV _ _ _ _ _ _ hl hl, if_neg (by omega), rdV_wrV _ _ _ _ _ _ hl hl, if_pos ⟨rfl, rfl⟩]
    have high : rdV (wrVw x n l true v) (n + 1) l = v / 2 ^ 32 % 2 ^ 32 := by
      rw [wrVw, if_pos rfl, rdV_wrV _ _ _ _ _ _ hl hl, if_pos ⟨rfl, rfl⟩]
    rw [rdVw, if_pos rfl, if_pos rfl, low, high]
    omega

theorem rdVw_wrVw_other {x : Gang} {n l v k : Nat} {is64 : Bool} (hl : l < 64) (hk : k < 64) (other : l ≠ k) :
    rdVw (wrVw x n l is64 v) n k is64 = rdVw x n k is64 := by
  simp only [rdVw, rdV_wrVw_other hl hk (.inr other)]

/-! ### The FIFO of a queue register -/

/-- A queue register reads its crew's FIFOs and its configuration, which no change of one gang touches. -/
theorem OnlyGang.qFifo (h : OnlyGang s t g) (n : Nat) : qFifo t g n = Machine.qFifo s g n := by
  have launches : t.launches = s.launches := (congrArg State.launches h.rest :)
  cases g with
  | sup c => rfl
  | user c k =>
    have crews := h.crews c
    simp only [Machine.qFifo, qKey, qCfg, crewOf?, crewIdOf, Option.bind_some, sideOf, isPair, launch?, launches]
    cases hs : crew? s c with
    | none =>
      rw [hs, Option.map_none, Option.map_eq_none_iff] at crews
      rw [crews]
    | some a =>
      rw [hs, Option.map_some, Option.map_eq_some_iff] at crews
      obtain ⟨b, hb, bare⟩ := crews
      have fifos : b.fifos = a.fifos := (congrArg Crew.fifos bare :)
      have qcfg : b.qcfg = a.qcfg := (congrArg Crew.qcfg bare :)
      have launch : b.launch = a.launch := (congrArg Crew.launch bare :)
      simp only [hb, Option.map_some, Option.getD_some, qcfgOf, fifos, qcfg, launch]
      rfl

/-- The entries of a FIFO read back. -/
theorem entries_qFifo_setFifo (hc : (crewOf? s g).isSome = true) (n : Nat) (q : Fifo) : (qFifo (setFifo s g n q) g n).entries = q.entries := by
  cases g with
  | sup c => cases hc
  | user c k =>
    obtain ⟨cr, hcr⟩ : ∃ cr, crew? s c = some cr := Option.isSome_iff_exists.1 hc
    have crew : crewOf? (setFifo s (.user c k) n q) (.user c k) = some { cr with
        fifos := Tab.set Fifo.empty cr.fifos (qKey s (.user c k) n) (if q.entries.isEmpty && q.lost.isEmpty then Fifo.empty else q) } := by
      show crew? (modCrew s c _) c = _
      rw [crew?_modCrew, if_pos rfl, hcr, Option.map_some]
    rw [qFifo, crew, qKey_setFifo, Option.map_some, Option.getD_some, Tab.get_set_same]
    split
    · next empty => exact (List.isEmpty_iff.1 (Bool.and_eq_true_iff.1 empty).1).symm
    · rfl

/-! ### Moves with a queue register (R122) -/

/-- A move out of a queue register is fed the oldest entry, which leaves. -/
theorem feeds_pop {n : Nat} {d : Opd} {ty : Ety} {e : FifoEnt} {es : List FifoEnt} (hd : d.qreg = [])
    (usable : qcfgUsable s is.ref (qCfg s is.ref n) = true) (oldest : (qFifo s is.ref n).entries = e :: es)
    (whole : headBad (qFifo s is.ref n) (qcfgBanks (qCfg s is.ref n)).2 (ringWidth s is.ref) = 0#64) :
    feeds s is [(.q n, ty)] d = some (popped s is.ref n es, [⟨.q n, ty, e.words⟩]) := by
  have names : queueNames [(.q n, ty)] d = [n] := by simp [queueNames, hd, show (Opd.q n).qreg = [n] from rfl]
  have pops : popAll s is.ref [(.q n, ty)] = some (popped s is.ref n es, [⟨.q n, ty, e.words⟩], 0#64) := by
    simp [popAll, oldest, whole]
  simp [feeds, names, usable, pops, hd]

theorem popAll_of_no_queue {o : Opd} {ty : Ety} (ho : o.qreg = []) : popAll s g [(o, ty)] = some (s, [⟨o, ty, []⟩], 0#64) := by
  cases o with
  | q n => cases ho
  | _ => rfl

/-- A move of what is no queue into a queue register with room is fed as it stands. -/
theorem feeds_push {n : Nat} {o : Opd} {ty : Ety} (ho : o.qreg = []) (usable : qcfgUsable s is.ref (qCfg s is.ref n) = true)
    (room : (qFifo s is.ref n).entries.length < qCap s is.ref n is.gang.width) :
    feeds s is [(o, ty)] (.q n) = some (s, [⟨o, ty, []⟩]) := by
  have names : queueNames [(o, ty)] (.q n) = [n] := by simp [queueNames, ho, show (Opd.q n).qreg = [n] from rfl]
  simp [feeds, names, usable, popAll_of_no_queue ho, Opd.qreg, room]

/-- With an unusable mapping a form comes to the throws of its active lanes, or to nothing where there is none. -/
theorem unOp_of_unusable {n : Nat} {x : Un} {f : Nat → Nat} (ha : x.a = .q n) (unusable : qcfgUsable s is.ref (qCfg s is.ref n) = false) :
    unOp s is x f = throwAllOrNop s is 0x8007 := by
  have bad : ¬ (queueNames [(x.a, x.ty)] x.d).all (fun n => qcfgUsable s is.ref (qCfg s is.ref n)) = true := by
    simp [queueNames, ha, Opd.qreg, unusable]
  rw [unOp, laneOp, withQueues, if_neg bad]

/-- A 32-bit move answers behind what its source gives the selected lanes. -/
theorem exec_move_of_feeds {gd : Guard} {d o : Opd} {src : Src} (hd : d.isScalarDst = false)
    (runs : mayRun s is (.mov ⟨gd, .u32, false, d, o⟩) = true) (fed : feeds s is [(o, .u32)] d = some (t, [src])) :
    exec (.mov ⟨gd, .u32, false, d, o⟩) s
      = .next (past (landed t is (selOf is gd) d false (rdSrc s is src)) is (.mov ⟨gd, .u32, false, d, o⟩)) := by
  refine (laneAnswers_of _ _ is _ _ _ _ _ _ (exec_mov ⟨gd, .u32, false, d, o⟩ s) rfl t [src] runs fed fun scalar => ?_).trans ?_
  · rw [hd] at scalar
    cases scalar
  · rw [laneEffect, hd, if_neg Bool.false_ne_true]
    rfl

/-- Settles O19: a pop feeds the move and leaves the younger entries, a push goes behind those that stand, and an unusable mapping throws. -/
theorem queueExchange : Obligations.QueueExchange := by
  unfold Obligations.QueueExchange
  intro s is g n m e es hcrew
  have crew : (crewOf? s is.ref).isSome = true := Option.isSome_iff_exists.2 hcrew
  refine ⟨fun usable oldest whole runs => ?pop, fun usable room runs => ?push, fun unusable active => ?throws, fun unusable idle => ?goesOn⟩
  case pop =>
    have gang : gang? (popped s is.ref n es) is.ref = some is.gang := (gang?_setFifo n _ _).trans (mayRun_gang s is _ runs)
    obtain ⟨y, hy, hregs⟩ := gang_past (popped s is.ref n es) is (.mov ⟨g, .u32, false, .v m, .q n⟩)
      (fun y => (selOf is g).foldl (fun y l => wrVw y m l false (Tab.get 0#32 e.words l).toNat) y) gang
    refine ⟨_, y, exec_move_of_feeds rfl runs (feeds_pop rfl usable oldest whole), hy, ?_, fun l hl => ?_⟩
    · rw [(onlyGang_past _ is _).qFifo, landed, (onlyGang_modGang _ is.ref _).qFifo]
      exact entries_qFifo_setFifo crew n _
    · have written := read_foldl_written (step := fun y l => wrVw y m l false (Tab.get 0#32 e.words l).toNat) (read := fun y => rdVw y m l false)
        hl (fun _ => rdVw_wrVw_same (lt_of_mem_selOf hl))
        (fun _ ho other _ => rdVw_wrVw_other (lt_of_mem_selOf ho) (lt_of_mem_selOf hl) other) is.gang
      refine ((rdV_congr (congrArg Gang.v hregs :) m l).trans written).trans ?_
      exact Nat.mod_eq_of_lt (Tab.get 0#32 e.words l).isLt
  case push =>
    refine ⟨_, ⟨(selOf is g).foldl (fun t l => Tab.set 0#32 t l (BitVec.ofNat 32 (rdV is.gang m l))) []⟩,
      exec_move_of_feeds rfl runs (feeds_push rfl usable room), ?_, fun l hl => ?_⟩
    · rw [(onlyGang_past _ is _).qFifo]
      exact entries_qFifo_setFifo crew n _
    · have written := read_foldl_written (step := fun t l => Tab.set 0#32 t l (BitVec.ofNat 32 (rdV is.gang m l)))
        (read := fun t => Tab.get 0#32 t l) hl (fun _ => Tab.get_set_same _ _ _ _) (fun _ _ other _ => Tab.get_set_ne _ _ _ _ _ other.symm) []
      rw [written, BitVec.toNat_ofNat]
      exact Nat.mod_eq_of_lt (Tab.get 0#32 is.gang.v (64 * m + l)).isLt
  case throws => exact throws_of (exec_mov _ s) ((unOp_of_unusable rfl unusable).trans (throwAllOrNop_of_ne_nil active))
  case goesOn => exact answers_of _ _ _ _ _ (exec_mov _ s) ((unOp_of_unusable rfl unusable).trans (throwAllOrNop_of_nil idle))

end Sys2Proof.Machine
end

section
/-!
# A completed load (O51)

The end of a load in three parts: what its destination gets (a register, or an entry pushed), the residency flags, and the gang it leaves
with its counters lowered (R122, R242, R243). Each part writes what it says and leaves the rest.
-/

namespace Sys2Proof.Machine
variable {s : State} {g : GRef} {x : Gang} {f : Flight} {e : Elem} {n p k l : Nat}

/-! ### The parts of an end -/

/-- A flight whose destination is a queue register pushes the words of its lanes, where the mapping is usable. -/
def Flight.pushes (f : Flight) (s : State) (g : GRef) : State :=
  match f.dst with
  | .q n => if qcfgUsable s g (qCfg s g n)
    then pushed s g n ⟨f.elems.foldl (fun (t : Tab W32) (e : Elem) => Tab.set 0#32 t e.lane (BitVec.ofNat 32 (laneResult f e))) []⟩
    else s
  | _ => s

/-- The vector registers of its destination get what the lanes received. -/
def Flight.fills (f : Flight) (x : Gang) : Gang :=
  match f.dst with
  | .v n => f.elems.foldl (fun (x : Gang) (e : Elem) => wrVw x n e.lane f.size.is64 (laneResult f e)) x
  | _ => x

/-- The predicate of LD.RP gets whether each lane's page was there. -/
def Flight.flags (f : Flight) (x : Gang) : Gang :=
  match f.rp with
  | some p => f.elems.foldl (fun (x : Gang) (e : Elem) => wrP x p e.lane (!e.absent)) x
  | none => x

/-- The flight leaves its gang and lowers its counters. -/
def Flight.leaves (f : Flight) (x : Gang) : Gang :=
  let x := lowerK { x with flights := x.flights.filter (fun y => y.id ≠ f.id) } f.ctr
  pruneMarks (match f.path with | some p => lowerPath x p f.id | none => x)

theorem finishFlight_clean : finishFlight s g f 0 = modGang (f.pushes s g) g (fun x => f.leaves (f.flags (f.fills x))) := by
  have clean : f.elems.filter (fun e => !(0 : Mask).getLsbD e.lane) = f.elems := List.filter_eq_self.2 fun e _ => by simp
  rw [finishFlight, clean]
  rfl

theorem gang?_pushes (h : GRef) : gang? (f.pushes s g) h = gang? s h := by
  unfold Flight.pushes
  split
  · split
    · exact gang?_setFifo _ _ h
    · rfl
  · rfl

/-! ### What each part leaves -/

/-- A gang but for its vector registers and what is noted of their words in the backing store. -/
def Gang.unfilled (x : Gang) : Gang := { x with v := [], spilled := [], unhomed := [] }

/-- A gang but for its predicates. -/
def Gang.unflagged (x : Gang) : Gang := { x with pr := [] }

/-- A gang but for its flights, counters and marks. -/
def Gang.unpending (x : Gang) : Gang := { x with flights := [], k := [], paths := [], marks := [] }

theorem unfilled_fills (f : Flight) (x : Gang) : (f.fills x).unfilled = x.unfilled := by
  unfold Flight.fills
  split
  · refine read_foldl_kept (read := Gang.unfilled) fun e _ z => ?_
    unfold wrVw
    split <;> rfl
  · rfl

theorem unflagged_flags (f : Flight) (x : Gang) : (f.flags x).unflagged = x.unflagged := by
  unfold Flight.flags
  split
  · refine read_foldl_kept (read := Gang.unflagged) fun e _ z => ?_
    unfold wrP
    split <;> rfl
  · rfl

theorem unpending_leaves (f : Flight) (x : Gang) : (f.leaves x).unpending = x.unpending := by
  unfold Flight.leaves lowerK pruneMarks
  cases f.path <;> cases f.ctr <;> rfl

/-! ### What each part writes -/

section
variable (once : (f.elems.map (fun e => e.lane)).Nodup) (lanes : ∀ e ∈ f.elems, e.lane < 64)

include once in
/-- Distinct elements of a flight are of distinct lanes. -/
theorem lane_ne_of_ne {o : Elem} (ho : o ∈ f.elems) (he : e ∈ f.elems) (ne : o ≠ e) : o.lane ≠ e.lane :=
  fun same => ne (List.inj_on_of_nodup_map once ho he same)

include once lanes in
/-- Each lane of a load reads what it received, as wide as the load. -/
theorem rdVw_fills (hd : f.dst = .v n) (he : e ∈ f.elems) :
    rdVw (f.fills x) n e.lane f.size.is64 = laneResult f e % 2 ^ (if f.size.is64 then 64 else 32) := by
  rw [Flight.fills, hd]
  exact read_foldl_written (read := fun y => rdVw y n e.lane f.size.is64) he (fun _ => rdVw_wrVw_same (lanes e he))
    (fun o ho ne _ => rdVw_wrVw_other (lanes o ho) (lanes e he) (lane_ne_of_ne once ho he ne)) x

include lanes in
/-- Other registers, and lanes that the load does not name, keep their words. -/
theorem rdV_fills_other {m : Nat} (hd : f.dst = .v n) (hl : l < 64)
    (other : (m ≠ n ∧ (f.size.is64 = true → m ≠ n + 1)) ∨ ∀ e ∈ f.elems, e.lane ≠ l) : rdV (f.fills x) m l = rdV x m l := by
  rw [Flight.fills, hd]
  exact read_foldl_kept (read := fun y => rdV y m l) fun e he _ => rdV_wrVw_other (lanes e he) hl (other.imp_right fun idle => idle e he)

include once in
theorem rdP_flags (hp : 0 < p) (hp16 : p < 16) (hrp : f.rp = some p) (he : e ∈ f.elems) : rdP (f.flags x) p e.lane = !e.absent := by
  rw [Flight.flags, hrp]
  refine read_foldl_written (read := fun y => rdP y p e.lane) he (fun z => ?_) (fun o ho ne z => ?_) x
  · rw [rdP_wrP _ _ _ _ _ _ hp16, if_pos ⟨rfl, rfl, hp.ne'⟩]
  · rw [rdP_wrP _ _ _ _ _ _ hp16, if_neg fun same => lane_ne_of_ne once ho he ne same.2.1.symm]

include once in
/-- The entry that a load pushes holds what its lanes received, and 0 in the others (R122). -/
theorem pushes_entry (hd : f.dst = .q n) (usable : qcfgUsable s g (qCfg s g n) = true)
    (crew : (crewOf? s g).isSome = true) :
    ∃ e, (qFifo (f.pushes s g) g n).entries = (qFifo s g n).entries ++ [e]
      ∧ (∀ o ∈ f.elems, Tab.get 0#32 e.words o.lane = BitVec.ofNat 32 (laneResult f o))
      ∧ ∀ l, (∀ o ∈ f.elems, o.lane ≠ l) → Tab.get 0#32 e.words l = 0 := by
  rw [Flight.pushes, hd]
  simp only [usable, if_true]
  refine ⟨_, entries_qFifo_setFifo crew n _, fun o ho => ?_, fun l idle => ?_⟩
  · exact read_foldl_written (read := fun t => Tab.get 0#32 t o.lane) ho (fun _ => Tab.get_set_same _ _ _ _)
      (fun _ ha ne _ => Tab.get_set_ne _ _ _ _ _ (lane_ne_of_ne once ha ho ne).symm) []
  · exact read_foldl_kept (read := fun t => Tab.get 0#32 t l) fun o ho _ => Tab.get_set_ne _ _ _ _ _ (idle o ho).symm

end

theorem rdP_flags_other (hp16 : p < 16) (other : p = 0 ∨ f.rp ≠ some p ∨ ∀ e ∈ f.elems, e.lane ≠ l) : rdP (f.flags x) p l = rdP x p l := by
  unfold Flight.flags
  split
  · next r hr =>
    refine read_foldl_kept (read := fun y => rdP y p l) fun e he z => ?_
    rw [rdP_wrP _ _ _ _ _ _ hp16, if_neg]
    rintro ⟨rfl, rfl, nonzero⟩
    rcases other with zero | elsewhere | idle
    · exact nonzero zero
    · exact elsewhere hr
    · exact idle e he rfl
  · rfl

theorem rdK_leaves : rdK (f.leaves x) k = if f.ctr = some k then rdK x k - 1 else rdK x k := by
  have counter : (f.leaves x).k = (lowerK x f.ctr).k := by
    unfold Flight.leaves lowerK pruneMarks
    cases f.path <;> cases f.ctr <;> rfl
  rw [rdK, counter]
  cases hc : f.ctr with
  | none => rfl
  | some c =>
    simp only [lowerK, Tab.get_set, Option.some_inj, eq_comm (a := c)]
    split
    · next h => rw [h]
    · rfl

theorem id_ne_of_mem_leaves {h : Flight} (hh : h ∈ (f.leaves x).flights) : h.id ≠ f.id := by
  have left : (f.leaves x).flights = x.flights.filter (fun y => y.id ≠ f.id) := by
    unfold Flight.leaves lowerK pruneMarks
    cases f.path <;> cases f.ctr <;> rfl
  rw [left] at hh
  exact of_decide_eq_true (List.mem_filter.1 hh).2

/-! ### The gang behind a completed load -/

/-- What the end of a load makes of its gang. -/
def Flight.completes (f : Flight) (x : Gang) : Gang := f.leaves (f.flags (f.fills x))

theorem gang?_finishFlight (hx : gang? s g = some x) : gang? (finishFlight s g f 0) g = some (f.completes x) := by
  rw [finishFlight_clean, gang?_modGang_same, gang?_pushes, hx]
  rfl

theorem qFifo_finishFlight (n : Nat) : qFifo (finishFlight s g f 0) g n = qFifo (f.pushes s g) g n := by
  rw [finishFlight_clean, (onlyGang_modGang _ g _).qFifo]

theorem v_completes (f : Flight) (x : Gang) : (f.completes x).v = (f.fills x).v :=
  ((congrArg Gang.v (unpending_leaves f _) :)).trans (congrArg Gang.v (unflagged_flags f _) :)

theorem pr_completes (f : Flight) (x : Gang) : (f.completes x).pr = (f.flags (f.fills x)).pr := (congrArg Gang.pr (unpending_leaves f _) :)

/-- Neither the scalars nor the nesting counters nor the condition bits of a gang are a load's to write. -/
theorem scalars_completes (f : Flight) (x : Gang) : (f.completes x).s = x.s ∧ (f.completes x).cnt = x.cnt ∧ (f.completes x).c = x.c := by
  have left := unpending_leaves f (f.flags (f.fills x))
  have flagged := unflagged_flags f (f.fills x)
  have filled := unfilled_fills f x
  exact ⟨((congrArg Gang.s left :).trans (congrArg Gang.s flagged :)).trans (congrArg Gang.s filled :),
    ((congrArg Gang.cnt left :).trans (congrArg Gang.cnt flagged :)).trans (congrArg Gang.cnt filled :),
    ((congrArg Gang.c left :).trans (congrArg Gang.c flagged :)).trans (congrArg Gang.c filled :)⟩

theorem rdV_completes (m l : Nat) : rdV (f.completes x) m l = rdV (f.fills x) m l := rdV_congr (v_completes f x) m l

theorem rdVw_completes (m l : Nat) (is64 : Bool) : rdVw (f.completes x) m l is64 = rdVw (f.fills x) m l is64 := by
  rw [rdVw, rdVw, rdV_completes, rdV_completes]

theorem rdP_congr {x y : Gang} (h : x.pr = y.pr) (p l : Nat) : rdP x p l = rdP y p l := by rw [rdP, rdP, h]

theorem rdP_completes_other (hp16 : p < 16) (other : p = 0 ∨ f.rp ≠ some p ∨ ∀ e ∈ f.elems, e.lane ≠ l) :
    rdP (f.completes x) p l = rdP x p l :=
  ((rdP_congr (pr_completes f x) p l).trans (rdP_flags_other hp16 other)).trans (rdP_congr (congrArg Gang.pr (unfilled_fills f x) :) p l)

theorem rdK_completes (k : Nat) : rdK (f.completes x) k = if f.ctr = some k then rdK x k - 1 else rdK x k := by
  have before : (f.flags (f.fills x)).k = x.k :=
    (congrArg Gang.k (unflagged_flags f (f.fills x)) :).trans (congrArg Gang.k (unfilled_fills f x) :)
  rw [Flight.completes, rdK_leaves, rdK, before]
  rfl

/-- Settles O51: the gang left behind reads its registers as they were filled, its predicates as they were flagged, and its counter as the
flight lowers it. -/
theorem loadsWriteTheirDestinations : Obligations.LoadsWriteTheirDestinations := by
  unfold Obligations.LoadsWriteTheirDestinations
  intro s g x f n hx once lanes w idle
  refine ⟨f.completes x, gang?_finishFlight hx, fun hd => ⟨fun e he => ?words, fun m l hl other => ?otherWords⟩,
    fun q hd => ⟨fun m l => ?noWords, fun usable crew => ?entry⟩, fun p hp hp16 hrp e he => ?flags, fun _ _ => rdP_completes_other,
    rdK_completes, fun h hh => id_ne_of_mem_leaves hh, scalars_completes f x⟩
  case words => exact (rdVw_completes n e.lane _).trans (rdVw_fills once lanes hd he)
  case otherWords => exact (rdV_completes m l).trans (rdV_fills_other lanes hd hl other)
  case noWords =>
    have same : f.fills x = x := by rw [Flight.fills, hd]
    rw [rdV_completes, same]
  case entry =>
    rw [qFifo_finishFlight]
    exact pushes_entry once hd usable crew
  case flags => exact (rdP_congr (pr_completes f x) p e.lane).trans (rdP_flags once hp hp16 hrp he)

end Sys2Proof.Machine
end

section
/-!
# Register writes and ticks (O59)

What each event comes to where its guards hold (R334, R350, R353 to R355, R365).
-/

namespace Sys2Proof.Machine
variable {s : State}

theorem exec_lqConfigWrite_of_lt {q word : Nat} {val : W64} (h : q < 64) :
    exec (.lqConfigWrite q word val) s = .next (lqPut s q word val.toNat) := by
  rw [exec_lqConfigWrite, execLqConfigWrite, if_pos h]

/-- A write of the host goes to the function that its address names, with the port up and the device not stopped (R365). -/
theorem exec_registerWrite_of_running {pa : Nat} {val : W64} (port : s.hostPortDown = false) (running : deviceStopped s = false) :
    exec (.registerWrite pa val) s = .next (if pa ≥ 2 ^ 52 then vfPut s (pa / 2 ^ 52) (pa % 2 ^ 52 / 8 * 8) val.toNat
      else if regionOf pa = .regs then regPut s true ((pa - regBase) / 8 * 8) val.toNat else s) := by
  have acts : (s.hostPortDown || (deviceStopped s && !inStart pa)) = false := by rw [port, running, Bool.false_and, Bool.or_self]
  rw [exec_registerWrite, execRegisterWrite, acts, if_neg Bool.false_ne_true]

theorem exec_tickConfigWrite_of_edge {en : Bool} {k : Nat} (next : s.tick.next = some (en, k)) (edge : atEdge s = true) :
    exec .tickConfigWrite s = .next { s with tick := { s.tick with en := en, klog := k, next := none } } := by
  simp only [exec_tickConfigWrite, execTickConfigWrite, next, edge, if_true]

/-- A requested clear is performed at an edge, with EN or without (R353). -/
theorem exec_tickClear_of_edge (clr : s.tick.clr = true) (edge : atEdge s = true) : exec .tickClear s = .next { s with
    tick := { s.tick with clr := false }, live := [], wrote := s.wrote ++ allCounters s
    dies := Tab.mapVals (fun _ (d : Die) => { d with live := [] }) s.dies
    cores := Tab.mapVals (fun _ (c : Core) => { c with live := [] }) s.cores } := by
  have acts : (!s.tick.clr || !atEdge s) = false := by rw [clr, edge]; rfl
  rw [exec_tickClear, execTickClear, acts, if_neg Bool.false_ne_true]

theorem exec_tickEdge_of_edge (edge : atEdge s = true) :
    exec .tickEdge s =
      let t := if s.tick.en then ticked s else s
      let t := if t.tick.next.isSome then soon t .tickConfigWrite else t
      .next (if t.tick.clr then soon t .tickClear else t) := by
  rw [exec_tickEdge, execTickEdge, edge, Bool.not_true, if_neg Bool.false_ne_true]

/-- With EN a sample is taken every 1250 cycles (R355). -/
theorem exec_currentSample_of_due {ma : List W32} (en : s.tick.en = true) (due : s.cycle.toNat % 1250 = 0) :
    let a := fun (d i : Nat) => ((ma[5 * d + i]?).map (fun w => w.toNat)).getD 0
    exec (.currentSample ma) s = .next ([0, 1, 2, 3].foldl (fun s d => traceRecord s
      ([2 + d * 2 ^ 8, s.cycle.toNat, a d 0 + a d 1 * 2 ^ 32, a d 2 + a d 3 * 2 ^ 32, a d 4] ++ dieCorr s d)) s) := by
  have acts : ¬ (!s.tick.en || s.cycle.toNat % 1250 ≠ 0) = true := by simp [en, due]
  rw [exec_currentSample, execCurrentSample, if_neg acts]

/-- Settles O59: each clause is the rule of its event under the conditions that the event tests. -/
theorem registerEvents : Obligations.RegisterEvents := by
  unfold Obligations.RegisterEvents
  intro s c n q word target ctx pa val v en k ma a
  refine ⟨exec_qcfgWrite c n s, exec_lqConfigWrite_of_lt, exec_accessTableWrite target ctx v s,
    fun port running below regs => ?device, fun port running above => ?function, exec_tickConfigWrite_of_edge, exec_tickClear_of_edge,
    exec_tickEdge_of_edge, exec_currentSample_of_due⟩
  case device => rw [exec_registerWrite_of_running port running, if_neg (Nat.not_le.2 below), if_pos regs]
  case function => rw [exec_registerWrite_of_running port running, if_pos above]

end Sys2Proof.Machine
end

section
/-!
# Reset (O6)

The machine right after reset and a gang at its start are closed records over empty tables, whose every entry reads as the table's default.
-/

namespace Sys2Proof.Machine

/-- Memory is empty and so is the agenda. -/
theorem inv_reset : State.reset.Inv := ⟨Tab.wf_nil 0#8, fun _ h => absurd h List.not_mem_nil⟩

/-- The base words of a gang at its start: b0 and b1 describe the arguments and the scratchpad, the others are 0 (R119). -/
theorem rdB_gangStart (l : Launch) (num base count spill slot pipe n : Nat) :
    rdB (gangStart l num base count spill slot pipe) n = if n = 0 then record0 l else if n = 1 then record1 l else 0#128 := by
  show Tab.get 0#128 (Tab.set 0#128 (Tab.set 0#128 [] 0 (record0 l)) 1 (record1 l)) n = _
  rw [Tab.get_set, Tab.get_set, Tab.get_nil]
  split
  · next one => rw [one, if_neg Nat.one_ne_zero]
  · rfl

/-- No predicate but p0 is true (R113). -/
theorem rdP_gangStart (l : Launch) (num base count spill slot pipe p lane : Nat) :
    rdP (gangStart l num base count spill slot pipe) p lane = (p == 0) := by
  show (p == 0 || (0#16).getLsbD p) = _
  rw [BitVec.getLsbD_zero, Bool.or_false]

theorem rdC_gangStart (l : Launch) (num base count spill slot pipe c : Nat) : rdC (gangStart l num base count spill slot pipe) c = false :=
  BitVec.getLsbD_zero

/-- Settles O6: the values of reset stand in its record, and what a gang reads at its start comes from empty tables but for b0, b1 and p0. -/
theorem resetValues : Obligations.ResetValues := by
  unfold Obligations.ResetValues
  refine ⟨⟨rfl, rfl, rfl, rfl, rfl, rfl, rfl, rfl, rfl, rfl, rfl, rfl, fun _ _ => rfl, fun _ => rfl, fun _ => rfl, rfl, fun _ _ => rfl⟩, inv_reset,
    fun l num base count spill slot pipe n lane => ?_⟩
  exact ⟨rfl, rdP_gangStart l num base count spill slot pipe n lane, rfl, rfl, rdC_gangStart l num base count spill slot pipe n, rfl, rfl, rfl, rfl,
    rdB_gangStart l num base count spill slot pipe n, rfl, rfl, rfl⟩

end Sys2Proof.Machine
end

section
/-!
# A fetch leaves who issues

Every function that a fetch calls leaves `State.cur`: one law each, named after the function. The group that lives on through a fetch
(`live_fetchSpan`) is therefore the one that issued before it.
-/

namespace Sys2Proof.Machine
variable {s t : State} {is : Iss}

theorem cur_foldl {α : Type} {as : List α} {f : State → α → State} (h : ∀ t a, (f t a).cur = t.cur) : (as.foldl f s).cur = s.cur :=
  read_foldl_kept fun a _ t => h t a

/-! ### Events (R337 to R339) -/

@[simp] theorem offerClaim_cur (s : State) (e : Nat) : (offerClaim s e).cur = s.cur := rfl

@[simp] theorem deliverClaim_cur (s : State) (e : Nat) (a b : Bool) (n : Nat) : (deliverClaim s e a b n).cur = s.cur := by
  induction n generalizing s a b with
  | zero => rfl
  | succ n ih => simp [deliverClaim, apply_ite State.cur, ih]

@[simp] theorem raiseEvent_cur (s : State) (e payload : Nat) : (raiseEvent s e payload).cur = s.cur := by
  unfold raiseEvent raiseClaim countDev
  dsimp only
  split
  · rfl
  · split <;> simp

/-! ### Memory at the home point (R201 to R214) -/

@[simp] theorem countWire_cur (s : State) (n : Nat) (out : Bool) : (countWire s n out).cur = s.cur := rfl

@[simp] theorem countPort_cur (s : State) (pa : Nat) (out : Bool) : (countPort s pa out).cur = s.cur := by
  unfold countPort
  split <;> simp [apply_ite State.cur]

@[simp] theorem setZeroFar_cur (s : State) (line : Nat) (on : Bool) : (setZeroFar s line on).cur = s.cur := rfl

@[simp] theorem farPut_cur (s : State) (pa : Nat) (b : Byte) : (farPut s pa b).cur = s.cur := by
  simp [farPut, fireWatch, unflagFar, apply_ite State.cur]

@[simp] theorem homeWriteBack_cur (s : State) (pa : Nat) : (homeWriteBack s pa).cur = s.cur := by
  unfold homeWriteBack
  split
  · extract_lets t
    have written : t.cur = s.cur := by
      refine (cur_foldl fun u a => ?_).trans (countPort_cur s pa true)
      split <;> simp
    rw [apply_ite State.cur, setZeroFar_cur, written, ite_self]
  · rfl

@[simp] theorem farDrop_cur (s : State) (line : Nat) : (farDrop s line).cur = s.cur := rfl

@[simp] theorem farLost_cur (s : State) (line cause : Nat) : (farLost s line cause).cur = s.cur := cur_foldl fun _ _ => rfl

@[simp] theorem farSettle_cur (s : State) (line : Nat) : (farSettle s line).cur = s.cur := by
  unfold farSettle
  split
  · exact farLost_cur _ _ _
  · exact cur_foldl homeWriteBack_cur

@[simp] theorem farEvict_cur (s : State) (line : Nat) : (farEvict s line).cur = s.cur := by
  simp [farEvict, apply_ite State.cur]

@[simp] theorem l2Evict_cur (s : State) (line : Nat) : (l2Evict s line).cur = s.cur := by
  unfold l2Evict l2WriteBack
  split
  · dsimp only
    split <;> rfl
  · rfl

@[simp] theorem homeRoom_cur (s : State) (line : Nat) : (homeRoom s line).cur = s.cur := by
  unfold homeRoom
  dsimp only
  split
  · rfl
  · split
    · rfl
    · split <;> simp

@[simp] theorem l2Fill_cur (s : State) (line : Nat) : (l2Fill s line).cur = s.cur := by
  have counted (t : State) : (fillCount t line).cur = t.cur := by
    unfold fillCount
    split <;> rfl
  simp [l2Fill, apply_ite State.cur, counted]

@[simp] theorem homeFetch_cur (s : State) (pa : Nat) : (homeFetch s pa).cur = s.cur := by
  simp [homeFetch, homeFill, apply_ite State.cur]

@[simp] theorem countHome_cur (s : State) (c pa : Nat) : (countHome s c pa).cur = s.cur := by
  simp [countHome, countSlice, countDie, apply_ite State.cur]

@[simp] theorem lineBytes_cur (s : State) (line : Nat) : (lineBytes s line).1.cur = s.cur := by
  simp [lineBytes, apply_ite State.cur, cur_foldl homeFetch_cur]

/-! ### Translation (R328 to R333) -/

theorem walkFrom_cur {entry : EntryAt} (h : ∀ t a, (entry t a).1.cur = t.cur) (va : Nat) (levels : List (Nat × Nat)) (s : State) (base : Nat) :
    (walkFrom entry va levels s base).1.cur = s.cur := by
  induction levels generalizing s base with
  | nil =>
    have first := h s (base + 8 * bits va 24 16)
    unfold walkFrom
    grind [malformed, raiseEvent_cur]
  | cons l levels ih =>
    have first := h s (base + 8 * bits va l.1 l.2)
    unfold walkFrom
    grind [malformed, raiseEvent_cur]

@[simp] theorem walk2_cur (s : State) (root gpa : Nat) : (walk2 s root gpa).1.cur = s.cur := by
  have walked := walkFrom_cur (entry := directEntry) (fun _ _ => rfl) gpa [(51, 43), (42, 34), (33, 25)] s root
  unfold walk2
  grind

@[simp] theorem guestEntry_cur (root : Nat) (s : State) (a : Nat) : (guestEntry root s a).1.cur = s.cur := by
  have walked := walk2_cur s root a
  unfold guestEntry
  grind

@[simp] theorem walkFresh_cur (s : State) (ctx va : Nat) : (walkFresh s ctx va).1.cur = s.cur := by
  unfold walkFresh
  extract_lets page
  split
  · rfl
  · next ce _ =>
    extract_lets entry
    have each (t : State) (a : Nat) : (entry t a).1.cur = t.cur := by
      unfold entry
      split
      · exact guestEntry_cur _ _ _
      · rfl
    have walked := walkFrom_cur each va stage1Levels s ce.root
    grind [walk2_cur]

@[simp] theorem translate_cur (s : State) (ctx va : Nat) : (translate s ctx va).1.cur = s.cur := by
  have walked := walkFresh_cur s ctx va
  unfold translate
  grind [freshen_cur]

@[simp] theorem requestPage_cur (s : State) (fn page ctx kind stage : Nat) (w : Waiter) : (requestPage s fn page ctx kind stage w).cur = s.cur := by
  simp [requestPage, apply_ite State.cur]

/-! ### Fetching (R92, R130, R200) -/

@[simp] theorem icacheFill_cur (s : State) (c line : Nat) (bs : List Byte) (pin : Bool) : (icacheFill s c line bs pin).cur = s.cur := by
  rw [icacheFill, modCore_cur]
  unfold icacheRoom
  grind [modCore_cur, freshen_cur]

/-- The state that a fetch leaves. -/
def Fetched.state : Fetched → State
  | .ok s _ | .bad s | .wait s => s

theorem fetchPiece_cur (s : State) (g : GRef) (quad : Nat) (fail : List Nat) (a n : Nat) : (fetchPiece s g quad fail a n).state.cur = s.cur := by
  have translated := translate_cur s (ctxOf s g) a
  unfold fetchPiece
  grind [Fetched.state, requestPage_cur, icacheFill_cur, lineBytes_cur, countHome_cur, freshen_cur]

theorem fetchSpan_cur (s : State) (g : GRef) (quad : Nat) (fail : List Nat) (a n : Nat) : (fetchSpan s g quad fail a n).state.cur = s.cur := by
  unfold fetchSpan
  grind [Fetched.state, fetchPiece_cur]

theorem headerAt_ok {a : Nat} (h : headerAt s is a = .ok t) : ∃ bs, fetchSpan s is.ref (lowQuad is.q) is.q.pageFail a 8 = .ok t bs := by
  unfold headerAt at h
  grind

/-- The issuer is the group that `State.cur` names, at its place in its gang. -/
theorem issuer?_facts (h : issuer? s = some is) : s.cur = some (is.ref, is.grp) ∧ is.gang.groups[is.grp]? = some is.q := by
  obtain ⟨⟨g, k⟩, named, found⟩ := Option.bind_eq_some_iff.1 h
  obtain ⟨x, -, found⟩ := Option.bind_eq_some_iff.1 found
  obtain ⟨q, hq, rfl⟩ := Option.map_eq_some_iff.1 found
  exact ⟨named, hq⟩

/-- The gang of an instruction that may run is there behind the fetch of its target. -/
theorem gang?_of_headerAt {i : Instr} {a : Nat} (hr : mayRun s is i = true) (h : headerAt s is a = .ok t) : ∃ x, gang? t is.ref = some x := by
  obtain ⟨issuer, live, -⟩ := (mayRun_iff s is i).1 hr
  obtain ⟨bs, fetched⟩ := headerAt_ok h
  have livesOn : (fetchSpan s is.ref (lowQuad is.q) is.q.pageFail a 8).CurLive := live_fetchSpan ⟨is, issuer, live⟩
  have sameCur := fetchSpan_cur s is.ref (lowQuad is.q) is.q.pageFail a 8
  rw [fetched] at livesOn sameCur
  obtain ⟨js, found, -⟩ := livesOn
  have sameRef : some (js.ref, js.grp) = some (is.ref, is.grp) :=
    (issuer?_facts found).1.symm.trans (sameCur.trans (issuer?_facts issuer).1)
  injection sameRef with sameRef
  injection sameRef with ref
  exact ⟨js.gang, ref ▸ issuer?_gang t js found⟩

end Sys2Proof.Machine
end

section
/-!
# RET (O21)

RET puts the gang back as `retGang` makes it and goes on at the address in lr (R142). What the statement reads of that gang, its counters and the
place of its group, passes through the bookkeeping of the issue, which changes of a gang only what `Gang.unnoted` leaves out.
-/

namespace Sys2Proof.Machine
variable {s : State} {is : Iss}

/-! ### The issuing group behind its issue -/

/-- A group but for what the bookkeeping of an issue changes. -/
def QGroup.unnoted (q : QGroup) : QGroup := { q with passed := 0, promoted := false, pageFail := [], pages := [] }

/-- A gang but for what the bookkeeping of an issue changes. -/
def Gang.unnoted (x : Gang) : Gang := { x with groups := x.groups.map QGroup.unnoted, spilled := [] }

theorem unnoted_mapGroups {x : Gang} {f : QGroup → QGroup} (h : ∀ q, (f q).unnoted = q.unnoted) :
    Gang.unnoted { x with groups := x.groups.map f } = x.unnoted := by
  simp [Gang.unnoted, h]

theorem gang?_noteIssue_unnoted (s : State) (is : Iss) (i : Instr) :
    (gang? (noteIssue s is i) is.ref).map Gang.unnoted = (gang? s is.ref).map Gang.unnoted := by
  have noted {f : QGroup → QGroup} (h : ∀ q, (f q).unnoted = q.unnoted) :
      (gang? (modGang s is.ref (fun x => { x with groups := x.groups.map f })) is.ref).map Gang.unnoted
        = (gang? s is.ref).map Gang.unnoted := by
    rw [gang?_modGang_same, Option.map_map]
    exact Option.map_congr fun x _ => unnoted_mapGroups h
  unfold noteIssue
  split
  · exact noted fun q => by split <;> rfl
  · dsimp only
    rw [gang?_modCore]
    · exact noted fun q => by split <;> rfl
    · intro x
      rfl

/-- The issuing gang through the bookkeeping of an issue, its groups with it. -/
theorem gang?_issued_unnoted (s : State) (is : Iss) (i : Instr) :
    (gang? (issued s is i) is.ref).map Gang.unnoted = (gang? s is.ref).map Gang.unnoted := by
  have dropped : (gang? (dropSpilled s is i) is.ref).map Gang.unnoted = (gang? s is.ref).map Gang.unnoted := by
    unfold dropSpilled
    split
    · rfl
    · rw [gang?_modGang_same, Option.map_map]
      rfl
  refine .trans ?_ ((gang?_noteIssue_unnoted _ is i).trans dropped)
  exact congrArg _ (gang?_congr rfl rfl is.ref)

/-- The issuing gang once its group has gone on at an address. -/
theorem gang?_movedTo_unnoted {x : Gang} {i : Instr} {pc : Nat} (hx : gang? s is.ref = some x) :
    ∃ y, gang? (movedTo s is i pc) is.ref = some y
      ∧ y.unnoted = Gang.unnoted { x with groups := x.groups.modify is.grp (fun q => { q with pc := pc, hdr := false }) } := by
  have same : (gang? (movedTo s is i pc) is.ref).map Gang.unnoted = _ := gang?_issued_unnoted (goOn s is pc) is i
  rw [goOn, gang?_modGroup, if_pos rfl, hx] at same
  exact Option.map_eq_some_iff.1 same

theorem group_of_unnoted {x y : Gang} {k : Nat} {q : QGroup} (h : y.unnoted = x.unnoted) (hq : x.groups[k]? = some q) :
    ∃ p, y.groups[k]? = some p ∧ p.unnoted = q.unnoted := by
  have same : (y.groups.map QGroup.unnoted)[k]? = (x.groups.map QGroup.unnoted)[k]? := congrArg (fun z : Gang => z.groups[k]?) h
  rw [List.getElem?_map, List.getElem?_map, hq] at same
  exact Option.map_eq_some_iff.1 same

theorem counterOf_of_unnoted {x y : Gang} (h : y.unnoted = x.unnoted) (l : Nat) : counterOf y l = counterOf x l := by
  have same := congrArg (fun g : Gang => counterOf g l) h
  exact same

/-! ### The gang behind RET (R142) -/

/-- The gang behind RET but for the resume index: where lr bit 0 is 1, the lanes of its group are one level nearer. -/
def nearerGang (is : Iss) : Gang :=
  if is.gang.lr.getLsbD 0 then (setCounters is.gang (groupLanes is.gang is.q) (fun _ c => c - 1)).1 else is.gang

theorem retGang_eq (is : Iss) : retGang is = if is.gang.lr.getLsbD 1
    then { nearerGang is with groups := (nearerGang is).groups.modify is.grp (fun q => { q with resume := is.gang.lr.toNat / 2 ^ 57 }) }
    else nearerGang is := rfl

theorem groups_nearerGang (is : Iss) : (nearerGang is).groups = is.gang.groups := by
  unfold nearerGang
  split
  · have same := congrArg Gang.groups (setCounters_frame is.gang (groupLanes is.gang is.q) (fun _ c => c - 1))
    exact same
  · rfl

theorem counterOf_nearerGang (is : Iss) (l : Nat) :
    counterOf (nearerGang is) l
      = if is.gang.lr.getLsbD 0 ∧ l ∈ groupLanes is.gang is.q then counterOf is.gang l - 1 else counterOf is.gang l := by
  unfold nearerGang
  split
  · next near =>
    have := counterOf_le is.gang l
    rw [counterOf_setGroup, Nat.min_eq_left (by omega)]
    simp only [near, true_and]
  · next far => rw [if_neg fun h => far h.1]

theorem counterOf_retGang (is : Iss) (l : Nat) : counterOf (retGang is) l = counterOf (nearerGang is) l := by
  rw [retGang_eq]
  split <;> rfl

/-- The group that returns takes the resume index that lr brings where its bit 1 is 1. -/
theorem group_retGang (hq : is.gang.groups[is.grp]? = some is.q) : (retGang is).groups[is.grp]?
    = some { is.q with resume := if is.gang.lr.getLsbD 1 then is.gang.lr.toNat / 2 ^ 57 else is.q.resume } := by
  rw [retGang_eq]
  split
  · rw [List.getElem?_modify_eq, groups_nearerGang, hq]
    rfl
  · rw [groups_nearerGang, hq]

/-- Settles O21: behind the fetch of a good target the gang is put back as `retGang` makes it and goes on there. -/
theorem retReturns : Obligations.RetReturns := by
  unfold Obligations.RetReturns
  intro s is a
  obtain ⟨goes, traps, waits⟩ := goesTo_of .ret s is a (fun t => mayRun s is .ret = true →
      exec .ret s = .next (movedTo (modGang t is.ref (fun _ => retGang is)) is .ret a)) _ _ (exec_ret s) rfl fun _ _ run => run
  refine ⟨fun t header hr => ?_, traps, waits⟩
  obtain ⟨x, hx⟩ := gang?_of_headerAt hr header
  have put : gang? (modGang t is.ref (fun _ => retGang is)) is.ref = some (retGang is) := by rw [gang?_modGang_same, hx]; rfl
  obtain ⟨y, hy, same⟩ := gang?_movedTo_unnoted (i := .ret) (pc := a) put
  have returned := group_retGang (issuer?_facts ((mayRun_iff s is .ret).1 hr).1).2
  obtain ⟨q, hq, moved⟩ := group_of_unnoted same (k := is.grp) (by rw [List.getElem?_modify_eq, returned]; rfl)
  refine ⟨_, y, q, goes t header hr, hy, hq, congrArg QGroup.pc moved, congrArg QGroup.resume moved, fun l => ?_⟩
  calc counterOf y l = counterOf (retGang is) l := counterOf_of_unnoted same l
    _ = counterOf (nearerGang is) l := counterOf_retGang is l
    _ = _ := counterOf_nearerGang is l

end Sys2Proof.Machine
end

section
/-!
# THROW, RETHROW and RDEXR (O26)

Each clause is a branch of the meaning in `Control.lean`: with no thrower lane nothing happens, and otherwise every one throws its code (R148, R149).
-/

namespace Sys2Proof.Machine

/-- Settles O26: by the lanes that THROW selects and those that RETHROW finds active; RDEXR writes one scalar register. -/
theorem throwFormsAnswer : Obligations.ThrowFormsAnswer := by
  unfold Obligations.ThrowFormsAnswer
  intro s is g a n
  refine ⟨fun unselected => ?passes, fun selected => ?throws, fun idle => ?rethrowIdle, fun active hr => ?rethrow, ?rdexr⟩
  case passes =>
    refine answers_of _ s is s _ (exec_throw g a s) ?_
    simp only [unselected]
  case throws =>
    obtain ⟨l, ls, lanes⟩ := List.exists_cons_of_ne_nil selected
    refine throws_of (exec_throw g a s) ?_
    simp only [lanes]
  case rethrowIdle =>
    refine answers_of _ s is s _ (exec_rethrow s) ?_
    simp only [idle]
  case rethrow =>
    obtain ⟨l, ls, lanes⟩ := List.exists_cons_of_ne_nil active
    refine comes_to _ (.throwAt s is.q.pc (everyActive is (recordWord s is 0 % 2 ^ 16)) true) (exec_rethrow s) ?_ hr
    simp only [everyActive, lanes]
  case rdexr => exact answers_of _ s is _ _ (exec_rdexr (.s n) a s) rfl

end Sys2Proof.Machine
end

section
/-!
# The computing forms answer (O8, O10, O11, O12, O17)

The meaning of each form in `Integer.lean` and `Float.lean` is one of the shared shapes `laneOp`, `predOp`, `condOp`, `writeLanes` and
`writeScalar`; the laws about those shapes say what an instruction with its operands at hand comes to.
-/

namespace Sys2Proof.Machine
variable {s s' : State} {is : Iss} {g : Guard} {n p : Nat}

/-! ### Results once for the gang and between lanes -/

/-- A scalar register takes its result with no throw: only exm counts nesting (R32, R153). -/
theorem writeScalar_s (s : State) (is : Iss) (n x : Nat) :
    writeScalar s is (.s n) x = .done (modGang s is.ref (fun y => wrS y n x)) := rfl

theorem ballot_answers : Answers (.ballot g (.s n) p) s is
    (modGang s is.ref (fun y => wrS y n (maskOf ((selOf is g).filter (rdP is.gang p))))) :=
  answers_of (hi := exec_ballot g (.s n) p s) (hm := writeScalar_s s is n _)

theorem red_answers {op : RedOp} {ty : Ety} {sat : Bool} {va : Nat} : Answers (.red g op ty sat (.s n) va) s is
    (modGang s is.ref (fun y => wrS y n (scalarResult ty
      (finish ty sat (redFold op ty ((selOf is g).map (fun l => rdVw is.gang va l ty.is64))))))) :=
  answers_of (hi := exec_red g op ty sat (.s n) va s) (hm := writeScalar_s s is n _)

/-- PSCAN works on the one value that its source gives in each lane, popped where the source is a queue (R172). -/
theorem pscan_answers {op : ScanOp} {incl sat : Bool} {ty : Ety} {d a : Opd} {src : Src}
    (hr : mayRun s is (.pscan g op incl ty sat d a) = true) (hf : feeds s is [(a, ty)] d = some (s', [src])) :
    exec (.pscan g op incl ty sat d a) s = .next (past (landed s' is (selOf is g) d false (fun l =>
      finish ty sat (scanFold op ty (((selOf is g).filter (fun k => decide (k < l) || (incl && k == l))).map (rdSrc s is src)))))
      is (.pscan g op incl ty sat d a)) :=
  comes_to _ _ (exec_pscan g op incl ty sat d a s) (withQueues_of_feeds _ _ _ _ _ _ _ hf) hr

/-- Settles O8: the meaning of every integer form is the common shape `laneOp` with the form's own function. -/
theorem integerFormsAnswer : Obligations.IntegerFormsAnswer := by
  unfold Obligations.IntegerFormsAnswer
  intro s is x u y ctl sh pi neg g ty d imm two one bin un
  exact ⟨
    laneAnswers_of (hi := exec_iadd x s) (hm := rfl),
    laneAnswers_of (hi := exec_isub x s) (hm := rfl),
    laneAnswers_of (hi := exec_imul x s) (hm := rfl),
    laneAnswers_of (hi := exec_imulh x s) (hm := rfl),
    laneAnswers_of (hi := exec_imad y s) (hm := rfl),
    laneAnswers_of (hi := exec_iabs u s) (hm := rfl),
    laneAnswers_of (hi := exec_ineg u s) (hm := rfl),
    laneAnswers_of (hi := exec_imin x s) (hm := rfl),
    laneAnswers_of (hi := exec_imax x s) (hm := rfl),
    laneAnswers_of (hi := exec_and x s) (hm := rfl),
    laneAnswers_of (hi := exec_or x s) (hm := rfl),
    laneAnswers_of (hi := exec_xor x s) (hm := rfl),
    laneAnswers_of (hi := exec_not u s) (hm := rfl),
    laneAnswers_of (hi := exec_shl x s) (hm := rfl),
    laneAnswers_of (hi := exec_shr x s) (hm := rfl),
    laneAnswers_of (hi := exec_sar x s) (hm := rfl),
    laneAnswers_of (hi := exec_rot x s) (hm := rfl),
    laneAnswers_of (hi := exec_bfx u ctl s) (hm := rfl),
    laneAnswers_of (hi := exec_bfi x ctl s) (hm := rfl),
    laneAnswers_of (hi := exec_popc u s) (hm := rfl),
    laneAnswers_of (hi := exec_clz u s) (hm := rfl),
    laneAnswers_of (hi := exec_ctz u s) (hm := rfl),
    laneAnswers_of (hi := exec_brev u s) (hm := rfl),
    laneAnswers_of (hi := exec_mov u s) (hm := rfl),
    laneAnswers_of (hi := exec_movi g ty d imm s) (hm := rfl),
    laneAnswers_of (hi := exec_sel x pi neg s) (hm := rfl),
    laneAnswers_of (hi := exec_lea x sh s) (hm := rfl)⟩

/-- Settles O10: all but PMOV from a predicate have the shape `predOp`, and that one is lane-wise. -/
theorem predicateFormsAnswer : Obligations.PredicateFormsAnswer := by
  unfold Obligations.PredicateFormsAnswer
  intro s is g c fc ty p pa pb a b d tt mask two
  exact ⟨
    predAnswers_of (hi := exec_icmp g c ty p a b s) (hm := rfl),
    predAnswers_of (hi := exec_fcmp g fc p a b s) (hm := rfl),
    predAnswers_of (hi := exec_fclass g p a mask s) (hm := rfl),
    predAnswers_of (hi := exec_plop g p pa pb tt s) (hm := rfl),
    predAnswers_of (hi := exec_pmov g (.toPred p a) s) (hm := rfl),
    predAnswers_of (hi := exec_pmov g (.bit p a) s) (hm := rfl),
    laneAnswers_of (hi := exec_pmov g (.fromPred d p) s) (hm := rfl)⟩

/-- Settles O11: the compares have the shape `condOp`, and CLOP writes its bit directly; nothing is popped. -/
theorem conditionFormsAnswer : Obligations.ConditionFormsAnswer := by
  unfold Obligations.ConditionFormsAnswer
  intro s is c fc ty cd ca cb a b tt val put
  exact ⟨
    answers_of (hi := exec_icmpc c ty cd a b s) (hm := rfl),
    answers_of (hi := exec_fcmpc fc cd a b s) (hm := rfl),
    answers_of (hi := exec_clop cd ca cb tt s) (hm := rfl)⟩

/-- Settles O12: SHFL and BCAST write lanes, BALLOT and RED one scalar register, and PSCAN is fed by its source. -/
theorem crossLaneFormsAnswer : Obligations.CrossLaneFormsAnswer := by
  unfold Obligations.CrossLaneFormsAnswer
  intro s is g m ty a b n va p rop sop incl sat own moved scalar
  exact ⟨
    answers_of (hi := exec_shfl g m ty (.v n) (.v va) b s) (hm := rfl),
    answers_of (hi := exec_bcast g ty (.v n) (.v va) b s) (hm := rfl),
    ballot_answers,
    red_answers,
    fun _ _ => pscan_answers⟩

/-! ### The mask of BALLOT -/

/-- The selected lanes lie inside the gang and inside a mask (R27, R96). -/
theorem lt_width_of_mem_selOf {l : Nat} (h : l ∈ selOf is g) : l < min is.gang.width 64 := by
  have := (List.mem_filter.1 (List.mem_filter.1 h).1).1
  rwa [laneIds, List.mem_range] at this

/-- Settles O17: the scalar register holds the mask of the selected lanes whose predicate is true, which fits its 64 bits. -/
theorem ballotMask : Obligations.BallotMask := by
  unfold Obligations.BallotMask
  intro s is g n p hr
  obtain ⟨y, hy, regs⟩ := gang_past s is (.ballot g (.s n) p)
    (fun y => wrS y n (maskOf ((selOf is g).filter (rdP is.gang p)))) (mayRun_gang s is _ hr)
  have below : maskOf ((selOf is g).filter (rdP is.gang p)) < 2 ^ min is.gang.width 64 :=
    maskOf_lt _ _ fun l hl => lt_width_of_mem_selOf (List.mem_filter.1 hl).1
  have fits := below.trans_le (Nat.pow_le_pow_right Nat.two_pos (min_le_right is.gang.width 64))
  have written : rdS y n = maskOf ((selOf is g).filter (rdP is.gang p)) := by
    rw [regs_s regs, rdS_wrS, if_pos rfl, Nat.mod_eq_of_lt fits]
  refine ⟨_, y, ballot_answers hr, hy, written ▸ below, fun l _ => ?_⟩
  rw [written, maskOf_bit, List.mem_filter]

end Sys2Proof.Machine
end

section
/-!
# APPEND reserves slots (O31)

With its word at hand, APPEND reads it, raises it and numbers the selected lanes in ascending order (R173, R174).
-/

namespace Sys2Proof.Machine
variable {s : State} {is : Iss} {g : Guard} {n o : Nat} {a b : Opd} {w : Bool}

theorem append_passes (unselected : selOf is g = []) : Answers (.append g (.v n) a b) s is s := by
  refine answers_of (hi := exec_append g (.v n) a b s) (hm := ?_)
  simp only [unselected, List.isEmpty_nil, if_true]

/-- With no engine on the word, no older access of the gang in its way and no lost line, the lanes take their numbers and the word is
raised (R173). -/
theorem append_reserves (selected : selOf is g ≠ []) (here : chkScr s is.ref (sext (rdU s is a) 64) 4 = .ok (.scr o) w)
    (free : placeFree is.gang (.scr o) 4 = true)
    (unbuffered : is.gang.buf.any (fun e => overlaps e.place e.bytes.length (.scr o) 4) = false)
    (unheld : ∀ c, crewIdOf is.ref = some c → heldByMatrix s c o 4 = false)
    (readable : (loadBytes s is.ref is.gang.seq .crew (.scr o) 4).2.2 = false) :
    let old := leNat (loadBytes s is.ref is.gang.seq .crew (.scr o) 4).2.1
    let granted := min (selOf is g).length (rdSrc s is ⟨b, .u32, []⟩ 0 - old)
    let raised := atomWrite (loadBytes s is.ref is.gang.seq .crew (.scr o) 4).1 is.ref .crew (.scr o) 4 (old + granted)
    Answers (.append g (.v n) a b) s is (landed raised is (selOf is g) (.v n) false
        (fun l => let rank := ((selOf is g).filter (fun m => decide (m < l))).length
          if rank < granted then old + rank else 0xFFFFFFFF)) := by
  intro old granted raised
  refine answers_of (hi := exec_append g (.v n) a b s) (hm := ?_)
  have lanes : (selOf is g).isEmpty = false := List.isEmpty_eq_false_iff.2 selected
  cases hc : crewIdOf is.ref with
  | none =>
    simp only [lanes, here, free, unbuffered, readable, Bool.not_true, Bool.or_false, Bool.false_eq_true, if_false]
    rfl
  | some c =>
    simp only [lanes, here, free, unbuffered, readable, unheld c hc, Bool.not_true, Bool.or_false, Bool.false_eq_true, if_false]
    rfl

/-- Settles O31: with no lane selected nothing happens, and otherwise the lanes reserve their slots. -/
theorem appendAnswers : Obligations.AppendAnswers := by
  unfold Obligations.AppendAnswers
  intro s is g n o a b w
  exact ⟨append_passes, append_reserves⟩

end Sys2Proof.Machine
end

section
/-!
# Integer results wrap or saturate (O18)

An exact result is finished by `finish` (R154) at the width of its type, element by element; without saturation that is the arithmetic of
bit vectors, since `BitVec.ofInt` is a ring homomorphism.
-/

namespace Sys2Proof.Machine
variable {ty : Ety} {sat : Bool} {n w e : Nat}

/-! ### Finishing an exact result -/

theorem low_eq_emod (t : Int) (n : Nat) : low t n = (t % 2 ^ n).toNat := by
  rw [low, Nat.cast_pow, Nat.cast_ofNat]

theorem low_lt (t : Int) (n : Nat) : low t n < 2 ^ n := by
  have pos : (0 : Int) < (2 ^ n : Nat) := by exact_mod_cast Nat.two_pow_pos n
  have := Int.emod_nonneg t pos.ne'
  have := Int.emod_lt_of_pos t pos
  unfold low
  omega

theorem finish_lt (ty : Ety) (sat : Bool) (t : Int) : finish ty sat t < 2 ^ etyBits ty := low_lt _ _

theorem finish_wraps (ty : Ety) (t : Int) : finish ty false t = (t % 2 ^ etyBits ty).toNat := low_eq_emod t _

/-- Saturation wraps the clamped result, and its bounds are ordered. -/
theorem finish_saturates (ty : Ety) (t : Int) : finish ty true t = (min (max t (etyLo ty)) (etyHi ty) % 2 ^ etyBits ty).toNat := by
  have ordered : etyLo ty ≤ etyHi ty := by cases ty <;> decide
  have same : clampInt t (etyLo ty) (etyHi ty) = min (max t (etyLo ty)) (etyHi ty) := by unfold clampInt; omega
  rw [← low_eq_emod, ← same]
  rfl

theorem etyLo_signed (h : etySigned ty = true) : etyLo ty = -(2 ^ (etyBits ty - 1)) := by
  rw [etyLo, if_pos h, Nat.cast_pow, Nat.cast_ofNat]

theorem etyHi_signed (h : etySigned ty = true) : etyHi ty = 2 ^ (etyBits ty - 1) - 1 := by
  rw [etyHi, if_pos h, Nat.cast_pow, Nat.cast_ofNat]

theorem etyLo_unsigned (h : etySigned ty = false) : etyLo ty = 0 := by rw [etyLo, h, if_neg Bool.false_ne_true]

theorem etyHi_unsigned (h : etySigned ty = false) : etyHi ty = 2 ^ etyBits ty - 1 := by
  rw [etyHi, h, if_neg Bool.false_ne_true, Nat.cast_pow, Nat.cast_ofNat]

theorem finish_saturates_signed (h : etySigned ty = true) (t : Int) :
    finish ty true t = (min (max t (-(2 ^ (etyBits ty - 1)))) (2 ^ (etyBits ty - 1) - 1) % 2 ^ etyBits ty).toNat := by
  rw [finish_saturates, etyLo_signed h, etyHi_signed h]

/-- A clamped unsigned result is already below 2^n. -/
theorem finish_saturates_unsigned (h : etySigned ty = false) (t : Int) :
    finish ty true t = (min (max t 0) (2 ^ etyBits ty - 1)).toNat := by
  have pos : (0 : Int) < 2 ^ etyBits ty := by positivity
  rw [finish_saturates, etyLo_unsigned h, etyHi_unsigned h, Int.emod_eq_of_lt (by omega) (by omega)]

/-! ### Elements of a lane word -/

theorem elem_joinElems {xs : List Nat} (h : e < xs.length) : elem n (joinElems n xs) e = xs[e] % 2 ^ n := by
  induction xs generalizing e with
  | nil => cases h
  | cons x xs ih =>
    have below : x % 2 ^ n < 2 ^ n := Nat.mod_lt _ (Nat.two_pow_pos n)
    cases e with
    | zero =>
      rw [joinElems, elem, Nat.mul_zero, pow_zero, Nat.div_one, Nat.add_mul_mod_self_left, Nat.mod_mod, List.getElem_cons_zero]
    | succ e =>
      have shifted : joinElems n (x :: xs) / 2 ^ n = joinElems n xs := by
        rw [joinElems, Nat.add_mul_div_left _ _ (Nat.two_pow_pos n), Nat.div_eq_of_lt below, Nat.zero_add]
      calc elem n (joinElems n (x :: xs)) (e + 1) = elem n (joinElems n (x :: xs) / 2 ^ n) e := by
            rw [elem, elem, Nat.mul_succ, Nat.add_comm, pow_add, Nat.div_div_eq_div_mul]
        _ = (x :: xs)[e + 1] % 2 ^ n := by rw [shifted, ih (Nat.lt_of_succ_lt_succ h), List.getElem_cons_succ]

/-- Each element of a result depends on the elements in its place alone (R156). -/
theorem elem_exact2 (f : Int → Int → Int) (a b : Nat) (he : e < etyCount ty) :
    elem (etyBits ty) (exact2 ty sat f a b) e
      = finish ty sat (f (readElem ty (elem (etyBits ty) a e)) (readElem ty (elem (etyBits ty) b e))) := by
  rw [exact2, lane2, elem_joinElems (by rwa [List.length_map, List.length_range]), List.getElem_map, List.getElem_range,
    Nat.mod_eq_of_lt (finish_lt _ _ _)]

/-! ### Types of one element -/

theorem readElem_signed (wide : etyBits ty = w) (signed : etySigned ty = true) (a : BitVec w) : readElem ty a.toNat = a.toInt := by
  rw [readElem, if_pos signed, wide, sext, BitVec.ofNat_toNat, BitVec.setWidth_eq]

theorem readElem_unsigned (wide : etyBits ty = w) (unsigned : etySigned ty = false) (a : BitVec w) : readElem ty a.toNat = a.toNat := by
  rw [readElem, unsigned, if_neg Bool.false_ne_true, wide, zext, Nat.mod_eq_of_lt a.isLt]

/-- A type reads a word as an integer that is the word again modulo 2^n, signed or not (R152). -/
theorem ofInt_readElem (wide : etyBits ty = w) (a : BitVec w) : BitVec.ofInt w (readElem ty a.toNat) = a := by
  cases signed : etySigned ty with
  | true => rw [readElem_signed wide signed, BitVec.ofInt_toInt]
  | false => rw [readElem_unsigned wide signed, BitVec.ofInt_natCast, BitVec.ofNat_toNat, BitVec.setWidth_eq]

theorem ofInt_sub (x y : Int) : BitVec.ofInt w (x - y) = BitVec.ofInt w x - BitVec.ofInt w y := by
  rw [Int.sub_eq_add_neg, BitVec.ofInt_add, BitVec.ofInt_neg, BitVec.sub_eq_add_neg]

section
variable (one : etyCount ty = 1) (wide : etyBits ty = w)
include one wide

theorem exact2_single (f : Int → Int → Int) (a b : BitVec w) :
    exact2 ty sat f a.toNat b.toNat = finish ty sat (f (readElem ty a.toNat) (readElem ty b.toNat)) := by
  have whole (x : BitVec w) : elem (etyBits ty) x.toNat 0 = x.toNat := by
    rw [wide, elem, Nat.mul_zero, pow_zero, Nat.div_one, Nat.mod_eq_of_lt x.isLt]
  simp only [exact2, lane2, one, List.range_one, List.map_cons, List.map_nil, joinElems, whole, Nat.mul_zero, Nat.add_zero,
    Nat.mod_eq_of_lt (finish_lt _ _ _)]

/-- A wrapped result is the bit-vector operation that `f` reduces to modulo 2^n. -/
theorem exact2_wraps (f : Int → Int → Int) (op : BitVec w → BitVec w → BitVec w)
    (hom : ∀ x y, BitVec.ofInt w (f x y) = op (BitVec.ofInt w x) (BitVec.ofInt w y)) (a b : BitVec w) :
    exact2 ty false f a.toNat b.toNat = (op a b).toNat := by
  have read := ofInt_readElem wide
  calc exact2 ty false f a.toNat b.toNat
      = finish ty false (f (readElem ty a.toNat) (readElem ty b.toNat)) := exact2_single one wide f a b
    _ = (BitVec.ofInt w (f (readElem ty a.toNat) (readElem ty b.toNat))).toNat := by
      rw [finish_wraps, wide, BitVec.toNat_ofInt, Nat.cast_pow, Nat.cast_ofNat]
    _ = (op a b).toNat := by rw [hom, read, read]

/-- Sums, differences and products wrap as those of bit vectors do. -/
theorem exact2_ring (a b : BitVec w) :
    exact2 ty false (fun a b => a + b) a.toNat b.toNat = (a + b).toNat
    ∧ exact2 ty false (fun a b => a - b) a.toNat b.toNat = (a - b).toNat
    ∧ exact2 ty false (fun a b => a * b) a.toNat b.toNat = (a * b).toNat :=
  ⟨exact2_wraps one wide _ _ BitVec.ofInt_add a b, exact2_wraps one wide _ _ ofInt_sub a b,
    exact2_wraps one wide _ _ BitVec.ofInt_mul a b⟩

end

/-! ### Saturated 32-bit results -/

/-- A signed sum saturates at either bound and wraps, which changes nothing, between them. -/
theorem exact2_add_saturates_s32 (a b : BitVec 32) : exact2 .s32 true (fun a b => a + b) a.toNat b.toNat
    = if a.toInt + b.toInt < -(2 ^ 31) then 2 ^ 31 else if 2 ^ 31 ≤ a.toInt + b.toInt then 2 ^ 31 - 1 else (a + b).toNat := by
  have wrapped : (a + b).toNat = ((a.toInt + b.toInt) % 2 ^ 32).toNat := by
    have summed : BitVec.ofInt 32 (a.toInt + b.toInt) = a + b := by rw [BitVec.ofInt_add, BitVec.ofInt_toInt, BitVec.ofInt_toInt]
    rw [← summed, BitVec.toNat_ofInt, Nat.cast_pow, Nat.cast_ofNat]
  rw [exact2_single (w := 32) rfl rfl, finish_saturates_signed rfl, readElem_signed (w := 32) rfl rfl,
    readElem_signed (w := 32) rfl rfl, wrapped]
  generalize a.toInt + b.toInt = t
  show (min (max t (-(2 ^ 31))) (2 ^ 31 - 1) % 2 ^ 32).toNat = _
  split_ifs <;> omega

/-- An unsigned difference saturates at zero, as subtraction of natural numbers does. -/
theorem exact2_sub_saturates_u32 (a b : BitVec 32) :
    exact2 .u32 true (fun a b => a - b) a.toNat b.toNat = a.toNat - b.toNat := by
  rw [exact2_single (w := 32) rfl rfl, finish_saturates_unsigned rfl, readElem_unsigned (w := 32) rfl rfl,
    readElem_unsigned (w := 32) rfl rfl]
  have := a.isLt
  show (min (max _ 0) ((2 : Int) ^ 32 - 1)).toNat = _
  omega

/-- Settles O18: by the wrap and the clamp of one result, the ring of bit vectors, and the elements of a packed word. -/
theorem integerValues : Obligations.IntegerValues := by
  unfold Obligations.IntegerValues
  refine ⟨fun ty t _ => ⟨finish_wraps ty t, fun h => finish_saturates_signed h t, fun h => finish_saturates_unsigned h t⟩,
    fun a b ty h => ?words, fun a b ty h => ?pairs, exact2_add_saturates_s32, exact2_sub_saturates_u32,
    fun a b e sat f ty he => elem_exact2 f a b he⟩
  case words =>
    obtain ⟨one, wide⟩ : etyCount ty = 1 ∧ etyBits ty = 32 := by rcases h with rfl | rfl <;> exact ⟨rfl, rfl⟩
    exact exact2_ring one wide a b
  case pairs =>
    obtain ⟨one, wide⟩ : etyCount ty = 1 ∧ etyBits ty = 64 := by rcases h with rfl | rfl <;> exact ⟨rfl, rfl⟩
    exact exact2_ring one wide a b

end Sys2Proof.Machine
end

section
/-!
# The floating-point and conversion forms answer (O9)

Each meaning in `Float.lean` is `laneOp`, or `binOp`, `unOp` or `terOp` over it, with the form's own function of the values in a lane. That
holds of the conversions too, which read what their destination holds (R186) beside their sources. `laneAnswers_of` then says what the form
comes to.
-/

namespace Sys2Proof.Machine

/-- Settles O9: the meaning of every floating-point and conversion form is the common shape `laneOp` with the form's own function. -/
theorem floatFormsAnswer : Obligations.FloatFormsAnswer := by
  unfold Obligations.FloatFormsAnswer
  intro s is x u y nan sat g tgt src d a b si di two one bin un
  exact ⟨
    laneAnswers_of (hi := exec_fadd x s) (hm := rfl),
    laneAnswers_of (hi := exec_fsub x s) (hm := rfl),
    laneAnswers_of (hi := exec_fmul x s) (hm := rfl),
    laneAnswers_of (hi := exec_fma y s) (hm := rfl),
    laneAnswers_of (hi := exec_fmin nan x s) (hm := rfl),
    laneAnswers_of (hi := exec_fmax nan x s) (hm := rfl),
    laneAnswers_of (hi := exec_fabs u s) (hm := rfl),
    laneAnswers_of (hi := exec_fneg u s) (hm := rfl),
    laneAnswers_of (hi := exec_fscale x s) (hm := rfl),
    laneAnswers_of (hi := exec_frcp u s) (hm := rfl),
    laneAnswers_of (hi := exec_frsq u s) (hm := rfl),
    laneAnswers_of (hi := exec_fsqrt u s) (hm := rfl),
    laneAnswers_of (hi := exec_fexp2 u s) (hm := rfl),
    laneAnswers_of (hi := exec_flog2 u s) (hm := rfl),
    laneAnswers_of (hi := exec_fsin u s) (hm := rfl),
    laneAnswers_of (hi := exec_fcos u s) (hm := rfl),
    laneAnswers_of (hi := exec_ftanh u s) (hm := rfl),
    laneAnswers_of (hi := exec_cvt g tgt src sat d a si di s) (hm := rfl),
    laneAnswers_of (hi := exec_cvtmx g tgt d a b di s) (hm := rfl),
    laneAnswers_of (hi := exec_cvtmxScale g tgt d a s) (hm := rfl)⟩

end Sys2Proof.Machine
end

section
/-!
# The system instructions (O49)

BANKSET, BIST and CORERET answer at their first issue where nothing is left to wait for, and otherwise behind the event that ends their wait. Which
of the two it is stands in what the group waits for (R323 to R325).
-/

namespace Sys2Proof.Machine
variable {s : State} {is : Iss} {a b : Opd} {n c k : Nat} {mode m : BankMode} {core : Core} {w : W64}

/-! ### BANKSET (R323) -/

theorem bankset_ends (switched : is.q.waiting = .banks [] m) :
    Answers (.bankset a mode) s is (modGroup s is.ref is.grp (fun q => { q with waiting := .none })) := by
  refine answers_of _ s is _ _ (exec_bankset a mode s) ?_
  simp only [switched]

/-- Banks that the issuer may switch, none of a FIFO that holds an entry: those that are not in their mode yet are waited for. -/
theorem bankset_begins (idle : is.q.waiting = .none) (hc : core? s (coreOf s is.ref) = some core)
    (own : BitVec.ofNat 32 (rdU s is a) &&& ~~~(ownBanks s is) = 0)
    (empty : (banksLeft core (BitVec.ofNat 32 (rdU s is a)) mode).any (fifoHolds s (coreOf s is.ref)) = false) :
    let left := banksLeft core (BitVec.ofNat 32 (rdU s is a)) mode
    (left = [] → Answers (.bankset a mode) s is s)
    ∧ (left ≠ [] → Waits (.bankset a mode) s is (modGroup s is.ref is.grp (fun q => { q with waiting := .banks left mode })) .sync) := by
  have may : (BitVec.ofNat 32 (rdU s is a) &&& ~~~(ownBanks s is) != 0#32) = false := bne_eq_false_iff_eq.2 own
  refine ⟨fun nothing => answers_of _ s is _ _ (exec_bankset a mode s) ?_, fun banks => waits_of (exec_bankset a mode s) ?_⟩
  · simp only [idle, hc, may, nothing, List.any_nil, List.isEmpty_nil, Bool.false_eq_true, if_false, if_true]
  · have banks : (banksLeft core (BitVec.ofNat 32 (rdU s is a)) mode).isEmpty = false := List.isEmpty_eq_false_iff.2 banks
    simp only [idle, hc, may, empty, banks, Bool.false_eq_true, if_false]

theorem bankset_throws (idle : is.q.waiting = .none) (hc : core? s (coreOf s is.ref) = some core)
    (foreign : BitVec.ofNat 32 (rdU s is a) &&& ~~~(ownBanks s is) ≠ 0) (active : activeLanes is.gang is.q ≠ []) :
    Throws (.bankset a mode) s is s (everyActive is 0x8007) := by
  have mayNot : (BitVec.ofNat 32 (rdU s is a) &&& ~~~(ownBanks s is) != 0#32) = true := bne_iff_ne.2 foreign
  have thrown : everyActive is 0x8007 ≠ [] := fun nobody => active (List.map_eq_nil_iff.1 nobody)
  refine throws_of (exec_bankset a mode s) (.trans ?_ (throwAllOrNop_of_ne_nil thrown))
  simp only [idle, hc, mayNot, if_true]

/-! ### BIST (R324, R394) -/

theorem bist_ends (tested : is.q.waiting = .bist (some w)) : Answers (.bist (.s n) a b) s is
    (modGang (modGroup s is.ref is.grp (fun q => { q with waiting := .none })) is.ref (fun y => wrS y n w.toNat)) := by
  refine answers_of _ s is _ _ (exec_bist (.s n) a b s) (.trans ?_ (writeScalar_s _ is n _))
  simp only [tested]

theorem bist_unknown (idle : is.q.waiting = .none) (h : 4 < rdU s is a ∨ 3 < rdU s is b % 16) :
    Answers (.bist (.s n) a b) s is (modGang s is.ref (fun y => wrS y n 3)) := by
  refine answers_of _ s is _ _ (exec_bist (.s n) a b s) (.trans ?_ (writeScalar_s _ is n _))
  simp only [idle, gt_iff_lt, h, if_true]

/-- A known array and pattern: a core with crews is busy, and another begins its test. -/
theorem bist_known (idle : is.q.waiting = .none) (array : rdU s is a ≤ 4) (pattern : rdU s is b % 16 ≤ 3) :
    (crewsAt s (coreOf s is.ref) ≠ [] → Answers (.bist (.s n) a b) s is (modGang s is.ref (fun y => wrS y n 2)))
    ∧ (crewsAt s (coreOf s is.ref) = [] → Waits (.bist (.s n) a b) s is
        (modGroup (modCore s (coreOf s is.ref) (fun x => { x with bist := some (rdU s is a, rdU s is b % 16) })) is.ref is.grp
          (fun q => { q with waiting := .bist none })) .sync) := by
  have known : ¬ (rdU s is a > 4 ∨ rdU s is b % 16 > 3) := by omega
  refine ⟨fun busy => answers_of _ s is _ _ (exec_bist (.s n) a b s) (.trans ?_ (writeScalar_s _ is n _)),
    fun free => waits_of (exec_bist (.s n) a b s) ?_⟩
  · have busy : (crewsAt s (coreOf s is.ref)).isEmpty = false := List.isEmpty_eq_false_iff.2 busy
    simp only [idle, known, busy, Bool.not_false, if_false, if_true]
  · simp only [idle, known, free, List.isEmpty_nil, Bool.not_true, Bool.false_eq_true, if_false]

/-! ### CORERET (R325) -/

theorem coreret_ends (retiring : is.q.waiting = .coreret c k) (saved : crewsAt s c = []) : Answers (.coreret (.s n) a) s is
    (modGang (modGroup s is.ref is.grp (fun q => { q with waiting := .none })) is.ref (fun y => wrS y n k)) := by
  refine answers_of _ s is _ _ (exec_coreret (.s n) a s) (.trans ?_ (writeScalar_s _ is n _))
  simp only [retiring, saved, List.isEmpty_nil, if_true]

theorem coreret_beyond (idle : is.q.waiting = .none) (above : 639 < rdU s is a) :
    Answers (.coreret (.s n) a) s is (modGang s is.ref (fun y => wrS y n 2)) := by
  refine answers_of _ s is _ _ (exec_coreret (.s n) a s) (.trans ?_ (writeScalar_s _ is n _))
  simp only [idle, gt_iff_lt, above, if_true]

theorem coreret_absent (idle : is.q.waiting = .none) (below : rdU s is a ≤ 639) (absent : core? s (rdU s is a) = none) :
    Answers (.coreret (.s n) a) s is (modGang (freshen s) is.ref (fun y => wrS y n (Config.freeValue s.fresh).toNat)) := by
  refine answers_of _ s is _ _ (exec_coreret (.s n) a s) (.trans ?_ (writeScalar_s _ is n _))
  simp only [idle, gt_iff_lt, Nat.not_lt.2 below, absent, if_false]

theorem coreret_retired (idle : is.q.waiting = .none) (below : rdU s is a ≤ 639) (hc : core? s (rdU s is a) = some core)
    (retired : core.retired = true) : Answers (.coreret (.s n) a) s is (modGang s is.ref (fun y => wrS y n 1)) := by
  refine answers_of _ s is _ _ (exec_coreret (.s n) a s) (.trans ?_ (writeScalar_s _ is n _))
  simp only [idle, gt_iff_lt, Nat.not_lt.2 below, hc, retired, if_false, if_true]

/-- A core in service retires at once where no crew of it is left to save. -/
theorem coreret_retires (idle : is.q.waiting = .none) (below : rdU s is a ≤ 639) (hc : core? s (rdU s is a) = some core)
    (serving : core.retired = false) :
    let r := retireCore s (rdU s is a)
    (crewsAt r.1 (rdU s is a) = [] → Answers (.coreret (.s n) a) s is (modGang r.1 is.ref (fun y => wrS y n r.2)))
    ∧ (crewsAt r.1 (rdU s is a) ≠ [] → Waits (.coreret (.s n) a) s is
        (modGroup r.1 is.ref is.grp (fun q => { q with waiting := .coreret (rdU s is a) r.2 })) .sync) := by
  refine ⟨fun saved => answers_of _ s is _ _ (exec_coreret (.s n) a s) (.trans ?_ (writeScalar_s _ is n _)),
    fun left => waits_of (exec_coreret (.s n) a s) ?_⟩
  · simp only [idle, gt_iff_lt, Nat.not_lt.2 below, hc, serving, saved, List.isEmpty_nil, Bool.false_eq_true, if_false, if_true]
  · have left : (crewsAt (retireCore s (rdU s is a)).1 (rdU s is a)).isEmpty = false := List.isEmpty_eq_false_iff.2 left
    simp only [idle, gt_iff_lt, Nat.not_lt.2 below, hc, serving, left, Bool.false_eq_true, if_false]

/-- Settles O49: RDSYS and WRSYS come to one result each, and the others to what the group waits for and their guards select. -/
theorem systemFormsAnswer : Obligations.SystemFormsAnswer := by
  unfold Obligations.SystemFormsAnswer
  intro s is a b d n num c k mode core w m here put free hold idle mask left arr pat
  exact ⟨answers_of _ s is _ _ (exec_rdsys (.s n) num s) rfl, answers_of _ s is _ _ (exec_wrsys d num s) rfl, bankset_ends, bankset_begins,
    bankset_throws, bist_ends, bist_unknown, fun idle array pattern => (bist_known idle array pattern).1,
    fun idle array pattern => (bist_known idle array pattern).2, coreret_ends, coreret_beyond, coreret_absent, coreret_retired, coreret_retires⟩

end Sys2Proof.Machine
end

section
/-!
# The ends of accesses in flight (O50)

The data of a lane that returns performs its element, opens its window or makes it throw: `laneReturn` has an equation for each. The other events
have their effect where the guard they test holds.
-/

namespace Sys2Proof.Machine
variable {s u : State} {g : GRef} {op l n v : Nat} {x : Gang} {f : Flight} {e : Elem} {b : StoreEnt}

/-! ### Data of one lane returns (R197, R199, R242) -/

/-- The lanes of a mask of one bit. -/
theorem filter_getLsbD_two_pow (hl : l < 64) : (List.range 64).filter (fun k => (BitVec.ofNat 64 (2 ^ l)).getLsbD k) = [l] := by
  have only : (List.range 64).filter (fun k => (BitVec.ofNat 64 (2 ^ l)).getLsbD k) = (List.range 64).filter (fun k => k == l) := by
    refine List.filter_congr fun k hk => ?_
    rw [BitVec.getLsbD_ofNat, decide_eq_true (List.mem_range.1 hk), Bool.true_and, Nat.testBit_two_pow, Bool.beq_eq_decide_eq]
    exact decide_eq_decide.2 eq_comm
  rw [only, List.filter_beq, List.nodup_range.count, if_pos (List.mem_range.2 hl)]
  rfl

theorem exec_loadDataReturn_lane (hl : l < 64) : exec (.loadDataReturn g op (BitVec.ofNat 64 (2 ^ l))) s
    = .next (throwMany (settleFlight (laneReturn g op (s, []) l).1 g op) g (laneReturn g op (s, []) l).2) := by
  rw [exec_loadDataReturn, execLoadDataReturn, filter_getLsbD_two_pow hl]
  rfl

section
variable (hf : flightOf? s g op = some (x, f)) (he : f.elems.find? (fun e => e.lane == l) = some e) (here : onCore s g = true)
  (unopened : e.win = none) (ready : elemReady s g x f e = true) (free : windowHeld s g f e = false)
include hf he here unopened ready free

/-- An element whose bank or way is gone throws. -/
theorem laneReturn_throws (gone : bankGone s g e = true ∨ cutOff s g x f e = true) :
    laneReturn g op (s, []) l = (dropElem s g op l, [(l, f.pc, 0x8007)]) := by
  have gone : (bankGone s g e || cutOff s g x f e) = true := Bool.or_eq_true_iff.2 gone
  simp only [laneReturn, hf, he, here, unopened, ready, free, gone, Option.isSome_none, Bool.not_true, Bool.or_self, Bool.false_eq_true,
    if_false, if_true, List.nil_append]

/-- An element with its bank and its way is performed or opens its window, and throws where it meets an uncorrectable error. -/
theorem laneReturn_performs (bank : bankGone s g e = false) (way : cutOff s g x f e = false) :
    let r := if windowed s g f e then openWindow s g f e else performElem s g f e
    laneReturn g op (s, []) l = if r.2 then (dropElem r.1 g op l, [(l, f.pc, 0x800B)]) else (r.1, []) := by
  simp only [laneReturn, hf, he, here, unopened, ready, free, bank, way, Option.isSome_none, Bool.not_true, Bool.or_self, Bool.false_eq_true,
    if_false, List.nil_append]

theorem laneReturn_once (bank : bankGone s g e = false) (way : cutOff s g x f e = false) (once : windowed s g f e = false) :
    laneReturn g op (s, []) l = if (performElem s g f e).2 then (dropElem (performElem s g f e).1 g op l, [(l, f.pc, 0x800B)])
      else ((performElem s g f e).1, []) := by
  simpa only [once, Bool.false_eq_true, if_false] using laneReturn_performs hf he here unopened ready free bank way

end

/-! ### The other ends (R115, R212, R218, R224, R345) -/

theorem exec_atomicComplete_of_window {a : AtomOp} (hf : flightOf? s g op = some (x, f))
    (he : f.elems.find? (fun e => e.lane == l) = some e) (kind : f.kind = .atomic a) (opened : e.win = some v) :
    exec (.atomicComplete g op l) s = .next (settleFlight (windowClosedAt s g f e a v) g op) := by
  simp only [exec_atomicComplete, execAtomicComplete, hf, he, kind, opened]

theorem exec_sysreadComplete_of_read (hf : flightOf? s g op = some (x, f)) (kind : f.kind = .sysread) :
    exec (.sysreadComplete g op) s = .next (finishRead s g f) := by
  simp only [exec_sysreadComplete, execSysreadComplete, hf, kind, if_true]

theorem exec_fenceComplete_of_released (hf : flightOf? s g op = some (x, f)) (kind : f.kind = .fence)
    (released : fenceRelease s g x f = some (u, [])) : exec (.fenceComplete g op) s = .next (fenceEnded u g f) := by
  simp only [exec_fenceComplete, execFenceComplete, hf, kind, ne_eq, not_true, if_false, released]

theorem exec_spillReadReturn_of_missing {bad : Mask} (hx : gang? s g = some x) (inStore : x.vbound - x.vbase ≤ n) (has : n < x.n)
    (missing : ∀ p ∈ x.spilled, p.1 ≠ n) :
    let mask := (bad ||| spillLost s (coreOf s g) x n) &&& BitVec.ofNat 64 (maskOf (homedLanes x n))
    exec (.spillReadReturn g n bad) s
      = .next (modGang (spillFetched s g x n) g (fun y => { y with spilled := y.spilled ++ [(n, some mask)] })) := by
  have missing : x.spilled.any (fun e => e.1 == n) = false := List.any_eq_false.2 fun p hp => mt eq_of_beq (missing p hp)
  simp only [exec_spillReadReturn, execSpillReadReturn, hx, inStore, has, missing, Bool.not_false, and_self, if_true]

theorem exec_sysStoreComplete_of_onWay {m : SysEnt} (hx : gang? s g = some x) (onWay : x.sysq.find? (fun b => b.seq == n) = some m) :
    exec (.sysStoreComplete g n) s = .next (sysArrive s g m) := by
  simp only [exec_sysStoreComplete, execSysStoreComplete, hx, Option.bind_some, onWay]

/-! ### An entry of a store leaves the scope buffer (R212, R221) -/

theorem exec_bufDrain_one (hx : gang? s g = some x) (one : drainChoices s g x n = [b]) :
    exec (.bufDrain g n) s = .next (throwMany (drainEntry s g b).1 g (drainEntry s g b).2) := by
  simp only [exec_bufDrain, execBufDrain, hx, one, List.length_singleton, if_true, List.getElem?_cons_zero]

theorem exec_bufDrain_several (hx : gang? s g = some x) (several : 1 < (drainChoices s g x n).length)
    (choice : (drainChoices s g x n)[(Config.freeValue s.fresh).toNat % (drainChoices s g x n).length]? = some b) :
    exec (.bufDrain g n) s = .next (throwMany (drainEntry (freshen s) g b).1 g (drainEntry (freshen s) g b).2) := by
  simp only [exec_bufDrain, execBufDrain, hx, several.ne', if_false, choice]

theorem exec_bufDrain_none (hx : gang? s g = some x) (held : drainChoices s g x n = []) : exec (.bufDrain g n) s = .next s := by
  simp only [exec_bufDrain, execBufDrain, hx, held, List.getElem?_nil]

/-- Settles O50: a returning lane comes to one of the results of `laneReturn`, and every other event has its effect under its guard. -/
theorem flightEvents : Obligations.FlightEvents := by
  unfold Obligations.FlightEvents
  intro s g op l v n x f e a u bad b m hx ready
  refine ⟨exec_bufDrain_one hx, exec_bufDrain_several hx, exec_bufDrain_none hx, exec_sysStoreComplete_of_onWay hx,
    exec_spillReadReturn_of_missing hx, fun hf => ?_⟩
  intro ret lane may clear once
  refine ⟨?performed, ?lost, ?opens, ?throws, fun ⟨_, he⟩ => exec_atomicComplete_of_window hf he, exec_sysreadComplete_of_read hf,
    exec_fenceComplete_of_released hf⟩
  case performed =>
    rintro ⟨⟨⟨⟨hl, he⟩, here, unopened, ready, free⟩, bank, way⟩, once⟩ good
    refine (exec_loadDataReturn_lane hl).trans ?_
    rw [laneReturn_once hf he here unopened ready free bank way once, good]
    rfl
  case lost =>
    rintro ⟨⟨⟨⟨hl, he⟩, here, unopened, ready, free⟩, bank, way⟩, once⟩ bad
    refine (exec_loadDataReturn_lane hl).trans ?_
    rw [laneReturn_once hf he here unopened ready free bank way once, bad]
    rfl
  case opens =>
    rintro ⟨⟨⟨hl, he⟩, here, unopened, ready, free⟩, bank, way⟩ windowed good
    refine (exec_loadDataReturn_lane hl).trans ?_
    rw [laneReturn_performs hf he here unopened ready free bank way, if_pos windowed, good]
    rfl
  case throws =>
    rintro ⟨⟨hl, he⟩, here, unopened, ready, free⟩ gone
    refine (exec_loadDataReturn_lane hl).trans ?_
    rw [laneReturn_throws hf he here unopened ready free gone]

end Sys2Proof.Machine
end

section
/-!
# Copies of lines, errors, and accesses from outside (O53)

An event of a line answers by its meaning under the guard that its clause names. An access of the host counts at its port and at the home slices
before its bytes move; that traffic leaves the blocks that the host owns, its directory and OWNREQ as they were, so that the clauses may ask
for them in the state before it.
-/

namespace Sys2Proof.Machine
variable {s : State} {c pa ctx n : Nat} {bs : List Byte} {x : Core} {cr : Crew} {v : Copied}

/-! ### What the traffic of lines leaves alone -/

/-- What the host's hold on blocks and lines stands in: the blocks that it owns, its directory, and OWNREQ (R358 to R361). -/
def State.hostView (s : State) : List Nat × List Nat × OwnReq := (s.hostOwned, s.hostDir, s.ownreq)

theorem foldl_hostView {α : Type} {as : List α} {f : State → α → State} (h : ∀ t a, (f t a).hostView = t.hostView) :
    (as.foldl f s).hostView = s.hostView :=
  read_foldl_kept fun a _ t => h t a

@[simp] theorem countWire_hostView (s : State) (n : Nat) (out : Bool) : (countWire s n out).hostView = s.hostView := by
  simp only [State.hostView, countWire, countDev, freshen_hostOwned, freshen_hostDir, freshen_ownreq, countAt_hostOwned, countAt_hostDir,
    countAt_ownreq]

@[simp] theorem countSlice_hostView (s : State) (pa : Nat) : (countSlice s pa).hostView = s.hostView := rfl

@[simp] theorem countPort_hostView (s : State) (pa : Nat) (out : Bool) : (countPort s pa out).hostView = s.hostView := by
  unfold countPort
  split <;> simp [apply_ite State.hostView]

@[simp] theorem setZeroFar_hostView (s : State) (line : Nat) (on : Bool) : (setZeroFar s line on).hostView = s.hostView := rfl

@[simp] theorem farPut_hostView (s : State) (pa : Nat) (b : Byte) : (farPut s pa b).hostView = s.hostView := by
  unfold farPut unflagFar
  split <;> split <;> rfl

@[simp] theorem homeWriteBack_hostView (s : State) (pa : Nat) : (homeWriteBack s pa).hostView = s.hostView := by
  unfold homeWriteBack
  split
  · extract_lets t
    have written : t.hostView = s.hostView := by
      refine (foldl_hostView fun u a => ?_).trans (countPort_hostView s pa true)
      split <;> simp
    rw [apply_ite State.hostView, setZeroFar_hostView, written, ite_self]
  · rfl

@[simp] theorem farDrop_hostView (s : State) (line : Nat) : (farDrop s line).hostView = s.hostView := rfl

theorem farLost_hostView (s : State) (line cause : Nat) : (farLost s line cause).hostView = s.hostView := foldl_hostView fun _ _ => rfl

@[simp] theorem farEvict_hostView (s : State) (line : Nat) : (farEvict s line).hostView = s.hostView := by
  have settled : (farSettle s line).hostView = s.hostView := by
    unfold farSettle
    split
    · exact farLost_hostView _ _ _
    · exact foldl_hostView homeWriteBack_hostView
  rw [farEvict, farDrop_hostView, apply_ite State.hostView, settled, ite_self]

@[simp] theorem l2Evict_hostView (s : State) (line : Nat) : (l2Evict s line).hostView = s.hostView := by
  unfold l2Evict l2WriteBack
  split
  · dsimp only
    split <;> rfl
  · rfl

@[simp] theorem homeRoom_hostView (s : State) (line : Nat) : (homeRoom s line).hostView = s.hostView := by
  unfold homeRoom
  dsimp only
  split
  · rfl
  · split
    · rfl
    · split
      · exact (farEvict_hostView _ _).trans (l2Evict_hostView _ _)
      · rfl

@[simp] theorem l2Fill_hostView (s : State) (line : Nat) : (l2Fill s line).hostView = s.hostView := by
  have counted (t : State) : (fillCount t line).hostView = t.hostView := by
    unfold fillCount
    split <;> rfl
  unfold l2Fill
  split
  · rfl
  · exact (counted _).trans (homeRoom_hostView s line)

theorem outerAccess_hostView (s : State) (port pa n : Nat) (out : Bool) : (outerAccess s port pa n out).hostView = s.hostView := by
  refine foldl_hostView fun t l => ?_
  simp [apply_ite State.hostView]

theorem snoopRange_hostView (s : State) (pa n : Nat) : (snoopRange s pa n).hostView = s.hostView :=
  foldl_hostView fun _ _ => (farDrop_hostView _ _).trans (foldl_hostView homeWriteBack_hostView)

theorem outerAccess_hostOwned (s : State) (port pa n : Nat) (out : Bool) : (outerAccess s port pa n out).hostOwned = s.hostOwned :=
  (congrArg (·.1) (outerAccess_hostView s port pa n out) :)

theorem outerAccess_hostDir (s : State) (port pa n : Nat) (out : Bool) : (outerAccess s port pa n out).hostDir = s.hostDir :=
  (congrArg (·.2.1) (outerAccess_hostView s port pa n out) :)

theorem outerAccess_ownreq (s : State) (port pa n : Nat) (out : Bool) : (outerAccess s port pa n out).ownreq = s.ownreq :=
  (congrArg (·.2.2) (outerAccess_hostView s port pa n out) :)

theorem snoopRange_ownreq (s : State) (pa n : Nat) : (snoopRange s pa n).ownreq = s.ownreq :=
  (congrArg (·.2.2) (snoopRange_hostView s pa n) :)

/-! ### Write-backs, discards and fetches (R115, R204, R209, R214) -/

theorem exec_coreWriteBack_spills (pending : spillPending s c pa = true) :
    exec (.coreWriteBack (some c) pa) s = .next (spillsHome s c (fun a => a / 4 == pa / 4)) := by
  simp only [exec_coreWriteBack, execCoreWriteBack, pending, if_true]

theorem exec_coreWriteBack_dirty (quiet : spillPending s c pa = false) (copied : coreCopy? s c pa = some v) (dirty : v.dirty = true) :
    exec (.coreWriteBack (some c) pa) s = .next (coreWriteBack (countHome s c pa) c pa) := by
  simp only [exec_coreWriteBack, execCoreWriteBack, quiet, copied, dirty, Option.map_some, Option.getD_some, Bool.false_eq_true, if_false,
    if_true]

theorem exec_coreWriteBack_clean (quiet : spillPending s c pa = false) (clean : ∀ v, coreCopy? s c pa = some v → v.dirty = false) :
    exec (.coreWriteBack (some c) pa) s = .next s := by
  have nothing : ((coreCopy? s c pa).map (fun v => v.dirty)).getD false = false := by
    cases hv : coreCopy? s c pa with
    | none => rfl
    | some v => exact clean v hv
  simp only [exec_coreWriteBack, execCoreWriteBack, quiet, nothing, Bool.false_eq_true, if_false]

theorem exec_coreWriteBack_l2 (home : homeIsMem s pa = true) : exec (.coreWriteBack none pa) s = .next (l2WriteBack s (pa / 128)) := by
  simp only [exec_coreWriteBack, execCoreWriteBack, home, if_true]

theorem exec_coreWriteBack_far (far : homeIsMem s pa = false) (way : reachable s pa = true) :
    exec (.coreWriteBack none pa) s = .next (homeWriteBack s pa) := by
  simp only [exec_coreWriteBack, execCoreWriteBack, far, way, Bool.false_eq_true, if_false, if_true]

/-- A home point's copy goes with its line in level two, unless that is dirty. -/
theorem exec_copyDiscard_home : exec (.copyDiscard none pa) s =
    let t := if ((Tab.find? s.l2 (pa / 128)).map (fun l => l.dirty)).getD true then s else l2Evict s (pa / 128)
    let t := { t with hcopy := t.hcopy.filter (fun p => p.2.dirty || p.1 != pa) }
    .next (if farZero t (pa / 128) then t else setZeroFar t (pa / 128) false) := rfl

theorem exec_copyFetch_home (may : copyable s pa = true) : exec (.copyFetch none pa) s = .next (homeFill s pa [pa]) := by
  simp only [exec_copyFetch, execCopyFetch, may, Bool.not_true, Bool.false_eq_true, if_false]

theorem exec_copyFetch_core (may : copyable s pa = true) (cached : atPoint s c .core = .core) (uncopied : coreCopy? s c pa = none) :
    exec (.copyFetch (some c) pa) s = .next (coreFill (homeFill s pa [pa]) c pa [pa]) := by
  simp only [exec_copyFetch, execCopyFetch, may, cached, uncopied, and_self, Bool.not_true, Bool.false_eq_true, if_false, if_true]

/-! ### Uncorrectable errors (R199) -/

theorem exec_eccUncorrectable_scratch (hc : crew? s c = some cr) (scratch : scrMode s cr pa = true) :
    exec (.eccUncorrectable (.scratchLine c pa)) s
      = .next (modCrew s c (fun cr => { cr with lostScr := Tab.put cr.lostScr (pa / 128) (BitVec.allOnes 128) })) := by
  simp only [exec_eccUncorrectable, execEccUncorrectable, hc, scratch, if_true]

/-- A clean line of a core point is fetched again. -/
theorem exec_eccUncorrectable_clean (hc : core? s c = some x) (clean : ∀ p ∈ x.cp, p.1 / 128 = pa / 128 → p.2.dirty = false)
    (held : ∃ p ∈ x.cp, p.1 / 128 = pa / 128) : exec (.eccUncorrectable (.cacheLine c pa)) s
      = .next (modCore s c (fun y => { y with cp := y.cp.filter (fun p => p.1 / 128 != pa / 128) })) := by
  have present : (x.cp.filter (fun p => p.1 / 128 == pa / 128)).isEmpty = false := by
    obtain ⟨p, hp, line⟩ := held
    exact List.isEmpty_eq_false_iff.2 (List.ne_nil_of_mem (List.mem_filter.2 ⟨hp, beq_iff_eq.2 line⟩))
  have undirtied : (x.cp.filter (fun p => p.1 / 128 == pa / 128)).any (fun p => p.2.dirty) = false := by
    refine List.any_eq_false.2 fun p hp => ?_
    obtain ⟨hp, line⟩ := List.mem_filter.1 hp
    exact Bool.eq_false_iff.1 (clean p hp (beq_iff_eq.1 line))
  simp only [exec_eccUncorrectable, execEccUncorrectable, hc, Option.map_some, Option.getD_some, present, undirtied, Bool.false_eq_true, if_false]

/-! ### The host (R206, R334, R358, R359) -/

theorem exec_hostSnoop_held (held : hostHolds s pa = true) (port : s.hostPortDown = false) : exec (.hostSnoop pa bs) s
    = .next (sysWriteFrom (snoopRange (countWire s 0x900 false) pa bs.length) pa bs) := by
  simp only [exec_hostSnoop, execHostSnoop, held, port, Bool.not_true, Bool.or_self, Bool.false_eq_true, if_false]

/-- How a host access is judged: as a write, where it has bytes. -/
def hostKind (b : Option (List Byte)) : AKind := if b.isSome then .write else .read

/-- What a host access makes of device memory behind its port: a block that the host owns is snooped, and another is written, or read into
the host directory (R358, R359). -/
def hostReaches (s : State) (pa len : Nat) : Option (List Byte) → State
  | some bs =>
    if s.hostOwned.contains (pa / 4096) then sysWriteFrom (snoopRange s pa bs.length) pa bs
    else { homeWriteN s pa bs with hostDir := s.hostDir }
  | none =>
    if s.hostOwned.contains (pa / 4096) then
      let t := snoopRange s pa len
      if t.ownreq.dir ∧ t.ownreq.marked = some (pa / 4096) then (linesTouched pa (max 1 len)).foldl recordHost t else t
    else (linesTouched pa (max 1 len)).foldl recordHost s

theorem exec_hostMemAccess_device (b : Option (List Byte)) (port : s.hostPortDown = false)
    (permitted : refusalOf s .host ctx pa (hostKind b) = none) (running : deviceStopped s = false) (device : isDeviceMem pa = true) :
    exec (.hostMemAccess pa ctx b n) s
      = .next (hostReaches (outerAccess s 0x900 pa ((b.map (fun bs => bs.length)).getD n) b.isNone) pa n b) := by
  have permitted : (refusalOf s .host ctx pa (if b.isSome then .write else .read)).isSome = false :=
    Option.isSome_eq_false_iff.2 (Option.isNone_iff_eq_none.2 permitted)
  have region : regionOf pa = .gddr ∨ regionOf pa = .lpddr := by simpa [isDeviceMem] using device
  simp only [exec_hostMemAccess, execHostMemAccess, port, permitted, running, Bool.false_and, Bool.or_self, Bool.false_eq_true, if_false]
  rcases region with h | h
  · cases b <;> simp only [h, hostReaches]
  · cases b <;> simp only [h, hostReaches]

theorem exec_hostMemAccess_barred (b : Option (List Byte))
    (barred : s.hostPortDown = true ∨ (refusalOf s .host ctx pa (hostKind b)).isSome = true) :
    exec (.hostMemAccess pa ctx b n) s = .next s := by
  have barred : (s.hostPortDown || (refusalOf s .host ctx pa (if b.isSome then .write else .read)).isSome) = true :=
    Bool.or_eq_true_iff.2 barred
  simp only [exec_hostMemAccess, execHostMemAccess, barred, Bool.true_or, if_true]

/-! ### Peers (R210, R234) -/

theorem exec_peerMemAccess_device (device : isDeviceMem pa = true) (permitted : refusalOf s .peer ctx pa .write = none) :
    exec (.peerMemAccess pa ctx (some bs) n) s = .next (sysWriteFrom ((List.range bs.length).foldl (fun s i => homeWriteBack s (pa + i))
      (outerAccess s 0x902 pa bs.length false)) pa bs) := by
  have inside : regionOf pa ≠ .peer := by
    rintro h
    rw [isDeviceMem, h] at device
    cases device
  simp only [exec_peerMemAccess, execPeerMemAccess, inside, device, permitted, Option.isSome_some, Option.isSome_none, reduceCtorEq, and_false,
    Bool.not_true, Bool.or_self, Bool.false_eq_true, if_false, if_true]
  rfl

theorem exec_peerMemAccess_own (own : regionOf pa = .peer) : exec (.peerMemAccess pa ctx (some bs) n) s = .next (peerOwnWrite s pa bs) := by
  simp only [exec_peerMemAccess, execPeerMemAccess, own, reduceCtorEq, and_false, if_false, if_true, Option.getD_some]

theorem exec_backInvalidateResponse_clean (held : s.hostDir.contains (pa / 128) = true) : exec (.backInvalidateResponse pa none) s
    = .next { countWire s 0x900 false with hostDir := (countWire s 0x900 false).hostDir.filter (fun l => l != pa / 128) } := by
  simp only [exec_backInvalidateResponse, execBackInvalidateResponse, held, if_true]

/-- Settles O53: an event of a line has its effect under its guard, and a host access finds the ownership of its block as it was before the
access was counted. -/
theorem lineEvents : Obligations.LineEvents := by
  unfold Obligations.LineEvents
  intro s c pa ctx n bs ls x cr w keep hosted wired owned dropped mine
  refine ⟨exec_coreWriteBack_spills, fun v => exec_coreWriteBack_dirty, exec_coreWriteBack_clean, exec_coreWriteBack_l2, exec_coreWriteBack_far,
    exec_copyDiscard (some c) pa s, fun absent => ?discardAbsent, fun l held clean => ?discardClean, exec_copyFetch_home, exec_copyFetch_core,
    exec_eccUncorrectable (.memLine pa) s, exec_eccUncorrectable (.mapWord ls) s, exec_eccUncorrectable (.codeLine c pa) s,
    exec_eccUncorrectable_scratch, exec_eccUncorrectable_clean, exec_hostSnoop_held, ?unowned, ?ownedWrite, ?ownedRead,
    exec_hostMemAccess_barred, exec_peerMemAccess_device, exec_peerMemAccess_own, exec_backInvalidateResponse_clean⟩
  case discardAbsent => rw [exec_copyDiscard_home, absent]; rfl
  case discardClean =>
    rw [exec_copyDiscard_home, held, Option.map_some, Option.getD_some, clean]
    rfl
  case unowned =>
    rintro b ⟨port, permitted, running, device⟩ (unowned : s.hostOwned.contains (pa / 4096) = false)
    refine (exec_hostMemAccess_device b port permitted running device).trans ?_
    cases b with
    | some bs =>
      simp only [hostReaches, outerAccess_hostOwned, outerAccess_hostDir, unowned, Bool.false_eq_true, if_false]
      rfl
    | none =>
      simp only [hostReaches, outerAccess_hostOwned, unowned, Bool.false_eq_true, if_false]
      rfl
  case ownedWrite =>
    rintro ⟨port, permitted, running, device⟩ (owned : s.hostOwned.contains (pa / 4096) = true)
    refine (exec_hostMemAccess_device (some bs) port permitted running device).trans ?_
    simp only [hostReaches, outerAccess_hostOwned, owned, if_true]
    rfl
  case ownedRead =>
    rintro ⟨port, permitted, running, device⟩ (owned : s.hostOwned.contains (pa / 4096) = true) staying
    have stays : ¬ (s.ownreq.dir = true ∧ s.ownreq.marked = some (pa / 4096)) := fun closing =>
      staying.elim (fun h => Bool.false_ne_true (h.symm.trans closing.1)) (fun h => h closing.2)
    refine (exec_hostMemAccess_device none port permitted running device).trans ?_
    simp only [hostReaches, outerAccess_hostOwned, owned, snoopRange_ownreq, outerAccess_ownreq, stays, if_true, if_false]
    rfl

end Sys2Proof.Machine
end

section
/-!
# The engines and the ends of waits (O54)

Each event has its effect where its subject is there and ready. Which of several copy commands starts a segment is a free value (R267).
-/

namespace Sys2Proof.Machine
variable {s u : State} {g : GRef} {core idx p bank n : Nat} {x : Core} {y : Gang} {m : CopyCmd} {mode : BankMode}

/-! ### The copy engine (R267, R284, R285) -/

theorem exec_copySegmentStart_of_choice {i : Nat} (hc : core? s core = some x)
    (choice : (startable x.copyQ)[(Config.freeValue s.fresh).toNat % (startable x.copyQ).length]? = some i) :
    exec (.copySegmentStart core) s = .next (modCore (freshen s) core (fun x =>
      { x with copyQ := x.copyQ.modify i (fun m => { m with segs := m.segs + 1 }) })) := by
  simp only [exec_copySegmentStart, execCopySegmentStart, hc, choice]

theorem exec_copySegmentStart_of_none (hc : core? s core = some x) (idle : startable x.copyQ = []) :
    exec (.copySegmentStart core) s = .next s := by
  simp only [exec_copySegmentStart, execCopySegmentStart, hc, idle, List.getElem?_nil]

theorem exec_copyPieceWritten_of_open (hm : copyAt? s core idx = some m) (opened : pieceOpen m p = true) :
    exec (.copyPieceWritten core idx p) s = .next (copyPiece s core idx m p) := by
  simp only [exec_copyPieceWritten, execCopyPieceWritten, hm, opened, if_true]

theorem exec_copyComplete_of_done (hm : copyAt? s core idx = some m) (done : ∀ k, k < copyPieces m → k ∈ m.done) :
    exec (.copyComplete core idx) s = .next (copyDone s core idx m) := by
  have all : (List.range (copyPieces m)).all m.done.contains = true :=
    List.all_eq_true.2 fun k hk => List.contains_iff_mem.2 (done k (List.mem_range.1 hk))
  simp only [exec_copyComplete, execCopyComplete, hm, all, if_true]

/-! ### Bank switches and releases (R197, R247, R253) -/

theorem exec_bankSwitchApply_of_free (waits : switching s g bank = some mode) (unnamed : engineNames s (coreOf s g) bank = false)
    (empty : fifoHolds s (coreOf s g) bank = false) : exec (.bankSwitchApply g bank) s = .next (bankSwitched s g bank mode) := by
  simp only [exec_bankSwitchApply, execBankSwitchApply, waits, unnamed, empty, Bool.or_self, Bool.false_eq_true, if_false]

theorem exec_persistComplete_of_released (hy : gang? s g = some y) (persists : persistOf y = some n)
    (released : releaseTo s g .sys n s.cycle.toNat = some (u, [])) :
    exec (.persistComplete g) s = .next (throwMany (persisted u g n) g []) := by
  simp only [exec_persistComplete, execPersistComplete, hy, Option.bind_some, persists, released]

theorem exec_icinvComplete_of_released {rs : List (Nat × Nat)} (hy : gang? s g = some y) (invalidates : icinvOf y = some rs)
    (released : release s g .dev = some (u, [])) : exec (.icinvComplete g) s
      = .next (waitDone { u with cores := Tab.mapVals (fun _ c => dropLines rs c) u.cores } g (.icinv rs false) (.icinv rs true)) := by
  simp only [exec_icinvComplete, execIcinvComplete, hy, Option.bind_some, invalidates, released]
  rfl

/-- Settles O54: the matrix engine's events and WAITA_POLL have one effect each, and the others theirs under the guard they test. -/
theorem engineEvents : Obligations.EngineEvents := by
  unfold Obligations.EngineEvents
  intro s g core idx i p bank n grp x m mode y rs u
  exact ⟨exec_copySegmentStart_of_choice, exec_copySegmentStart_of_none, exec_copyPieceWritten_of_open, exec_copyComplete_of_done,
    exec_matrixCommandStart core s, exec_matrixCommandComplete core s, exec_bankSwitchApply_of_free, exec_persistComplete_of_released,
    exec_icinvComplete_of_released, exec_waitaPoll g grp s⟩

end Sys2Proof.Machine
end

section
/-!
# Forms over a range (O32, O33, O37)

A form over a range does nothing without an active lane or a byte, throws where the limits of R250 break, and otherwise goes on with the range
(`onRange`); the cache forms then go on with its physical ranges, or wait for a page (`onCovered`). A form that answers no longer waits.
-/

namespace Sys2Proof.Machine
variable {s t : State} {is : Iss} {i : Instr} {r : Range} {x : RangeAt} {sc : Scope} {f c n tok : Nat} {rs : List (Nat × Nat)}

/-! ### The common start (R238, R250) -/

theorem memThrow_of_noBody (whole : is.gang.body = none) (ts : List (Nat × Nat)) : memThrow s is ts = .throw s ts := by
  simp only [memThrow, whole, Option.isSome_none, Bool.false_and, Bool.false_eq_true, if_false]

theorem uniThrow_of_noBody (whole : is.gang.body = none) (code : Nat) : uniThrow s is code = .throw s (everyActive is code) :=
  memThrow_of_noBody whole _

/-- A lane is active, and the range has a byte and keeps the limits of R250. -/
structure InRange (s : State) (is : Iss) (r : Range) (x : RangeAt) : Prop where
  something : ((activeLanes is.gang is.q).isEmpty || rangeEmpty s is r) = false
  limits : rangeOf s is r = some x

theorem onRange_of_none {k : RangeAt → Res} (nothing : ((activeLanes is.gang is.q).isEmpty || rangeEmpty s is r) = true) :
    onRange s is r k = .done s := by
  rw [onRange, if_pos nothing]

theorem onRange_of_beyond {k : RangeAt → Res} (something : ((activeLanes is.gang is.q).isEmpty || rangeEmpty s is r) = false)
    (beyond : rangeOf s is r = none) (whole : is.gang.body = none) : onRange s is r k = .throw s (everyActive is 0x8001) := by
  rw [onRange, something, if_neg Bool.false_ne_true, beyond, uniThrow_of_noBody whole]

theorem InRange.onRange {k : RangeAt → Res} (h : InRange s is r x) : onRange s is r k = k x := by
  rw [Machine.onRange, h.something, if_neg Bool.false_ne_true, h.limits]

/-- The forms over a range that do not wait for an event. -/
def rangeForms (r : Range) (sc : Scope) (f : Nat) : List Instr :=
  [.zfill r, .pagereq f r, .cctlWb sc r, .cctlDisc sc r, .icpf r, .icpin r, .icpinUnpin r, .icinvCrew r]

theorem exec_of_mem_rangeForms (hi : i ∈ rangeForms r sc f) :
    ∃ m k, exec i s = issue i s m ∧ m s is = onRange s is r k := by
  simp only [rangeForms, List.mem_cons, List.not_mem_nil, or_false] at hi
  rcases hi with rfl | rfl | rfl | rfl | rfl | rfl | rfl | rfl
  · exact ⟨_, _, exec_zfill r s, rfl⟩
  · exact ⟨_, _, exec_pagereq f r s, rfl⟩
  · exact ⟨_, _, exec_cctlWb sc r s, rfl⟩
  · exact ⟨_, _, exec_cctlDisc sc r s, rfl⟩
  · exact ⟨_, _, exec_icpf r s, rfl⟩
  · exact ⟨_, _, exec_icpin r s, rfl⟩
  · exact ⟨_, _, exec_icpinUnpin r s, rfl⟩
  · exact ⟨_, _, exec_icinvCrew r s, rfl⟩

theorem rangeForm_passes (hi : i ∈ rangeForms r sc f) (nothing : ((activeLanes is.gang is.q).isEmpty || rangeEmpty s is r) = true) :
    Answers i s is s := by
  obtain ⟨m, k, hx, hm⟩ := exec_of_mem_rangeForms hi
  exact answers_of i s is s m hx (hm.trans (onRange_of_none nothing))

theorem rangeForm_throws (hi : i ∈ rangeForms r sc f) (something : ((activeLanes is.gang is.q).isEmpty || rangeEmpty s is r) = false)
    (beyond : rangeOf s is r = none) (whole : is.gang.body = none) : Throws i s is s (everyActive is 0x8001) := by
  obtain ⟨m, k, hx, hm⟩ := exec_of_mem_rangeForms hi
  exact throws_of hx (hm.trans (onRange_of_beyond something beyond whole))

/-! ### ZFILL and PAGEREQ (R250, R251) -/

section
variable (h : InRange s is r x)
include h

/-- A ZFILL of memory whose pages pass: it enters the buffer, or waits there for the pages that stage two lacks. -/
theorem zfill_memory (memory : x.rc.spad = false) (passes : rangeCode (zChecks s is x).2 = none)
    (clear : anyHold (zChecks s is x).2 = false) :
    (anyPage (zChecks s is x).2 = false → Answers (.zfill r) s is (bufferStores (zChecks s is x).1 is.ref
      (zeros is (zChecks s is x).1.cycle.toNat .phys (zRanges x (zChecks s is x).2)) 1))
    ∧ (anyPage (zChecks s is x).2 = true → Answers (.zfill r) s is (awaitZfill (zChecks s is x).1 is x (zChecks s is x).2)) := by
  refine ⟨fun here => ?_, fun lacking => ?_⟩
  · refine answers_of _ s is _ _ (exec_zfill r s) (h.onRange.trans ?_)
    simp only [memory, passes, clear, here, Bool.false_eq_true, if_false]
  · refine answers_of _ s is _ _ (exec_zfill r s) (h.onRange.trans ?_)
    simp only [memory, passes, clear, lacking, Bool.false_eq_true, if_false, if_true]

theorem zfill_scratch {cr : Crew} (scratch : x.rc.spad = true) (bound : x.a + x.len ≤ scrSize s is.ref) (hcr : crewOf? s is.ref = some cr)
    (banks : (linePieces x.a x.len).all (fun p => scrMode s cr p.1) = true) :
    Answers (.zfill r) s is (bufferStores s is.ref (zeros is s.cycle.toNat .scr [(x.a, x.len)]) 1) := by
  refine answers_of _ s is _ _ (exec_zfill r s) (h.onRange.trans ?_)
  simp only [scratch, if_true, zfillScr, gt_iff_lt, Nat.not_lt.2 bound, if_false, hcr, banks]

/-- PAGEREQ with no page refused and an operation entry free; a scratchpad record names no page. -/
theorem pagereq_asks {u : State} {ns : State × List (Nat × PageNeed)} (hu : is.ref = .user c n)
    (needs : (if x.rc.spad then (s, []) else pageNeeds s is (pagePieces x.a x.len)) = ns) (permitted : anyRefused ns.2 = false)
    (entry : newOp ns.1 c n .pagereq = some (u, tok)) : Answers (.pagereq f r) s is (pagesAsked u is f c tok ns.2) := by
  refine answers_of _ s is _ _ (exec_pagereq f r s) (h.onRange.trans ?_)
  simp only [hu, needs, permitted, entry, Bool.false_eq_true, if_false]

/-! ### Cache control (R252, R253) -/

theorem cctl_covered (memory : x.rc.spad = false) (covered : coveredRanges s is (classOf is.ref) .read x.a x.len = (t, some rs)) :
    Answers (.cctlWb sc r) s is (cctl t is rs (sc == .dev) false) ∧ Answers (.cctlDisc sc r) s is (cctl t is rs (sc == .dev) true) := by
  have comes : ∀ disc, cctlOp s is sc r disc = .done (cctl t is rs (sc == .dev) disc) := fun disc =>
    h.onRange.trans (by simp only [memory, covered, onCovered, Bool.false_eq_true, if_false])
  exact ⟨answers_of _ s is _ _ (exec_cctlWb sc r s) (comes false), answers_of _ s is _ _ (exec_cctlDisc sc r s) (comes true)⟩

theorem cctl_waits (memory : x.rc.spad = false) (awaited : coveredRanges s is (classOf is.ref) .read x.a x.len = (t, none)) :
    Waits (.cctlWb sc r) s is t .sync ∧ Waits (.cctlDisc sc r) s is t .sync := by
  have comes : ∀ disc, cctlOp s is sc r disc = .wait t .sync := fun disc =>
    h.onRange.trans (by simp only [memory, awaited, onCovered, Bool.false_eq_true, if_false])
  exact ⟨waits_of (exec_cctlWb sc r s) (comes false), waits_of (exec_cctlDisc sc r s) (comes true)⟩

theorem cctl_scratch (scratch : x.rc.spad = true) : Answers (.cctlWb sc r) s is s ∧ Answers (.cctlDisc sc r) s is s := by
  have comes : ∀ disc, cctlOp s is sc r disc = .done s := fun disc => h.onRange.trans (by simp only [scratch, if_true])
  exact ⟨answers_of _ s is _ _ (exec_cctlWb sc r s) (comes false), answers_of _ s is _ _ (exec_cctlDisc sc r s) (comes true)⟩

theorem icForms_covered (covered : codeRanges s is x = (t, some rs)) :
    Answers (.icpf r) s is (fillLines t (coreOf t is.ref) rs false) ∧ Answers (.icpin r) s is (fillLines t (coreOf t is.ref) rs true)
    ∧ Answers (.icpinUnpin r) s is (modCore t (coreOf t is.ref) (unpinLines rs))
    ∧ Answers (.icinvCrew r) s is (modCore t (coreOf t is.ref) (dropLines rs)) := by
  have comes : ∀ k, onRange s is r (fun x => onCovered (codeRanges s is x) k) = k t rs := fun k =>
    h.onRange.trans (by simp only [covered, onCovered])
  exact ⟨answers_of _ s is _ _ (exec_icpf r s) (comes _), answers_of _ s is _ _ (exec_icpin r s) (comes _),
    answers_of _ s is _ _ (exec_icpinUnpin r s) (comes _), answers_of _ s is _ _ (exec_icinvCrew r s) (comes _)⟩

theorem icForms_wait (awaited : codeRanges s is x = (t, none)) : Waits (.icpf r) s is t .sync ∧ Waits (.icpin r) s is t .sync
    ∧ Waits (.icpinUnpin r) s is t .sync ∧ Waits (.icinvCrew r) s is t .sync := by
  have comes : ∀ k, onRange s is r (fun x => onCovered (codeRanges s is x) k) = .wait t .sync := fun k =>
    h.onRange.trans (by simp only [awaited, onCovered])
  exact ⟨waits_of (exec_icpf r s) (comes _), waits_of (exec_icpin r s) (comes _), waits_of (exec_icpinUnpin r s) (comes _),
    waits_of (exec_icinvCrew r s) (comes _)⟩

end

theorem codeRanges_scratch (scratch : x.rc.spad = true) : codeRanges s is x = (s, some []) := if_pos scratch

theorem codeRanges_memory (memory : x.rc.spad = false) : codeRanges s is x = coveredRanges s is .fetch .fetch x.a x.len := by
  rw [codeRanges, memory, if_neg Bool.false_ne_true]

/-- Settles O32: behind the common start of `onRange` each form has one lemma for each way that the pages of its range come out. -/
theorem rangeFormsAnswer : Obligations.RangeFormsAnswer := by
  unfold Obligations.RangeFormsAnswer
  intro s is r sc f c n x all none' own z ns
  refine ⟨fun nothing i hi => rangeForm_passes hi nothing, fun something beyond whole i hi => rangeForm_throws hi something beyond whole,
    fun something limits => ?_⟩
  have h : InRange s is r x := ⟨something, limits⟩
  refine ⟨fun memory passes clear => (zfill_memory h memory passes clear).1, fun memory passes clear => (zfill_memory h memory passes clear).2,
    fun cr => zfill_scratch h, fun u tok hu memory permitted entry => ?pagereq, fun u tok hu scratch entry => ?pagereqScratch,
    fun scratch => ⟨fun i hi => ?scratch, ?_⟩, fun memory => ⟨fun t rs => cctl_covered h memory, fun t => cctl_waits h memory, ?_, ?_⟩⟩
  case pagereq => exact pagereq_asks h hu (by rw [memory, if_neg Bool.false_ne_true]) permitted entry
  case pagereqScratch => exact pagereq_asks h (ns := (s, [])) hu (if_pos scratch) rfl entry
  case scratch =>
    obtain ⟨fills, pins, -⟩ := icForms_covered h (codeRanges_scratch scratch)
    simp only [List.mem_cons, List.not_mem_nil, or_false] at hi
    rcases hi with rfl | rfl | rfl | rfl
    · exact (cctl_scratch h scratch).1
    · exact (cctl_scratch h scratch).2
    · exact fills
    · exact pins
  · exact (icForms_covered h (codeRanges_scratch scratch)).2.2
  · exact fun t rs covered => icForms_covered h ((codeRanges_memory memory).trans covered)
  · intro t awaited i hi
    obtain ⟨fills, pins, unpins, drops⟩ := icForms_wait h ((codeRanges_memory memory).trans awaited)
    have hi : i ∈ [Instr.icpf r, .icpin r, .icpinUnpin r, .icinvCrew r] := hi
    simp only [List.mem_cons, List.not_mem_nil, or_false] at hi
    rcases hi with rfl | rfl | rfl | rfl
    exacts [fills, pins, unpins, drops]

/-! ### ICINV.DEV (R253) -/

theorem icinvDev_resumes (done : is.q.waiting = .icinv rs true) :
    Answers (.icinvDev r) s is (modGroup s is.ref is.grp (fun q => { q with waiting := .none })) := by
  refine answers_of _ s is _ _ (exec_icinvDev r s) ?_
  simp only [done]

theorem icinvDev_waits (open_ : is.q.waiting = .icinv rs false) : Waits (.icinvDev r) s is s .sync := by
  refine waits_of (exec_icinvDev r s) ?_
  simp only [open_]

/-- A group that does not wait for an invalidation yet begins one. -/
theorem execIcinvDev_begins (free : ∀ rs b, ¬is.q.waiting = .icinv rs b) (hr : mayRun s is (.icinvDev r) = true) :
    exec (.icinvDev r) s = conclude is (.icinvDev r) (onRange s is r (fun x => onCovered (codeRanges s is x) (fun s rs =>
      .wait (modGroup s is.ref is.grp (fun q => { q with waiting := .icinv rs false })) .sync))) := by
  refine comes_to _ _ (exec_icinvDev r s) ?_ hr
  cases hw : is.q.waiting with
  | icinv rs b => exact absurd hw (free rs b)
  | _ => rfl

/-- Settles O33: a group that waits goes on once the invalidation is complete, and one that does not wait begins with the ranges that are there. -/
theorem icinvDevWaits : Obligations.IcinvDevWaits := by
  unfold Obligations.IcinvDevWaits
  intro s is r x rs i waits fresh
  refine ⟨icinvDev_resumes, icinvDev_waits, fun ⟨free, active, bytes, limits⟩ t rs covered hr => ?begins,
    fun ⟨free, active, bytes, limits⟩ t awaited hr => ?page, fun free nothing hr => ?passes⟩
  case begins =>
    rw [execIcinvDev_begins free hr, InRange.onRange ⟨by rw [active, bytes]; rfl, limits⟩, covered]
    rfl
  case page =>
    rw [execIcinvDev_begins free hr, InRange.onRange ⟨by rw [active, bytes]; rfl, limits⟩, awaited]
    rfl
  case passes =>
    rw [execIcinvDev_begins free hr, onRange_of_none nothing]
    rfl

/-! ### Running to the end -/

/-- The instruction answers a next state in which it no longer waits. -/
def Completes (i : Instr) (s : State) (is : Iss) : Prop := mayRun s is i = true → ∃ t, exec i s = .next t ∧ t.blocked = none

theorem Answers.completes {eff : State} (h : Answers i s is eff) : Completes i s is := fun hr => ⟨past eff is i, h hr, rfl⟩

/-- Settles O37: each form answers its effect (O32, O36), and behind its issue nothing holds the group back. -/
theorem rangeAndMatrixFormsComplete : Obligations.RangeAndMatrixFormsComplete := by
  unfold Obligations.RangeAndMatrixFormsComplete
  intro s is r sc f c n sm tile x y g a tgt fw cr hu hcr done free pages ns z room mma
  refine ⟨fun active bytes limits memory => ?ranges, fun sel ⟨queue, u, released, entry⟩ => ?plain,
    fun sel agree ⟨queue, u, released, entry⟩ => ?mma⟩
  case ranges =>
    have h : InRange s is r x := ⟨by rw [active, bytes]; rfl, limits⟩
    refine ⟨fun passes clear here => ((zfill_memory h memory passes clear).1 here).completes, fun permitted entry => ?_, fun there => ?_, fun there => ?_⟩
    · obtain ⟨⟨u, tok⟩, entry⟩ := Option.isSome_iff_exists.1 entry
      exact (pagereq_asks h hu (by rw [memory, if_neg Bool.false_ne_true]) permitted entry).completes
    · obtain ⟨rs, covered⟩ := Option.ne_none_iff_exists'.1 there
      exact (cctl_covered h memory (Prod.ext rfl covered)).imp Answers.completes Answers.completes
    · obtain ⟨rs, covered⟩ := Option.ne_none_iff_exists'.1 there
      obtain ⟨fills, pins, unpins, drops⟩ := icForms_covered h ((codeRanges_memory memory).trans (Prod.ext rfl covered))
      exact ⟨fills.completes, pins.completes, unpins.completes, drops.completes⟩
  case plain =>
    obtain ⟨⟨v, tok⟩, entry⟩ := Option.isSome_iff_exists.1 entry
    obtain ⟨accz, wdset, mfence, accdr, -⟩ := (matrixCommandsAreAccepted s is y g f sm tile c n tok a tgt fw cr u v hu hcr).1 sel
    exact ⟨(accz queue released entry).completes, (wdset queue released entry).completes, (mfence queue released entry).completes,
      fun passes => (accdr passes queue released entry).completes⟩
  case mma =>
    obtain ⟨⟨v, tok⟩, entry⟩ := Option.isSome_iff_exists.1 entry
    obtain ⟨⟨-, -, mma⟩, ⟨-, -, mmaSp⟩, ⟨-, -, mmaP⟩⟩ := (matrixCommandsAreAccepted s is y g f sm tile c n tok a tgt fw cr u v hu hcr).2.2 sel agree
    exact ⟨fun passes free => (mma passes free queue released entry).completes, fun passes free => (mmaSp passes free queue released entry).completes,
      fun passes free => (mmaP passes free queue released entry).completes⟩

end Sys2Proof.Machine
end

section
/-!
# Engine commands: no lane, and the copies (O34, O35)

Every engine command begins with `command`: without a lane it writes the null token (R281). The copies then pass their checks and the body's, and
`acceptCopy` puts them in the queue (R283 to R287, R308).
-/

namespace Sys2Proof.Machine
variable {s s₁ u v : State} {is : Iss} {i : Instr} {m : State → Iss → Res} {g : Guard} {cr : Crew} {c n f tok : Nat} {x : Copy} {e : Bool × Nat}
  {cs : List (Bool × Nat)} {bar : Option Nat} {arr dir empty : Bool} {mk : Nat → CopyCmd}

/-! ### No lane selected (R281) -/

theorem command_of_unselected {k : Nat → Nat → Crew → Res} (hu : is.ref = .user c n) (hcr : crewOf? s is.ref = some cr) (unselected : selOf is g = []) :
    command s is g f k = .done (modGang s is.ref (fun y => wrF y f 0)) := by
  rw [hu] at hcr
  simp only [command, hu, hcr, unselected, List.isEmpty_nil, if_true]

/-- An engine command without a lane writes the null token. -/
theorem answers_of_unselected {k : Nat → Nat → Crew → Res} (hu : is.ref = .user c n) (hcr : crewOf? s is.ref = some cr)
    (hi : exec i s = issue i s m) (hm : m s is = command s is g f k) (unselected : selOf is g = []) :
    Answers i s is (modGang s is.ref (fun y => wrF y f 0)) :=
  answers_of i s is _ m hi (hm.trans (command_of_unselected hu hcr unselected))

/-- Settles O34: each engine command is a `command`. -/
theorem commandsWithoutLanes : Obligations.CommandsWithoutLanes := by
  unfold Obligations.CommandsWithoutLanes
  intro s is x y arr dir cores g f fw sa sm tile c n a b tgt cr hu hcr skip
  exact ⟨answers_of_unselected hu hcr (exec_cpy x arr dir s) rfl, answers_of_unselected hu hcr (exec_cpyM x cores s) rfl,
    answers_of_unselected hu hcr (exec_cpyX x arr dir s) rfl, answers_of_unselected hu hcr (exec_mma y s) rfl,
    answers_of_unselected hu hcr (exec_mmaSp y sm s) rfl, answers_of_unselected hu hcr (exec_mmaP y s) rfl,
    answers_of_unselected hu hcr (exec_msel g f a b fw sa sm s) rfl, answers_of_unselected hu hcr (exec_accz g f tile s) rfl,
    answers_of_unselected hu hcr (exec_accdr g f a tgt tile s) rfl, answers_of_unselected hu hcr (exec_wdset g f a tile s) rfl,
    answers_of_unselected hu hcr (exec_mfence g f s) rfl⟩

/-! ### Acceptance in the copy queue (R285) -/

/-- Does a copy write to several cores (R286)? -/
def CopyKind.toMany (kind : CopyKind) : Bool := match kind with | .multicast _ => true | _ => false

/-- A command comes to `acceptCopy` in a state: with room, the scratchpad released and an entry free it stands in the queue of its core. -/
theorem answers_of_acceptCopy (hi : exec i s = issue i s m) (hm : m s is = acceptCopy s₁ is c n f bar arr empty mk)
    (room : copyRoom s₁ is bar arr empty = true) (released : releaseScr s₁ is.ref = some (u, []))
    (entry : newOp u c n .copy = some (v, tok)) :
    Answers i s is (copyAccepted (modGang v is.ref (fun y => wrF y f tok)) is (coreOf s₁ is.ref) c bar arr empty (mk tok) tok) :=
  answers_of i s is _ m hi (hm.trans (by rw [acceptCopy, if_pos room, afterRelease_of_released released, withOp_of_entry entry]))

section
variable (hu : is.ref = .user c n) (hcr : crewOf? s is.ref = some cr)
include hu hcr

/-- A CPY or CPY.M whose checks pass and whose elements no body refuses, holds back or misses a page of (R283, R308). -/
theorem copyOp_accepts (kind : CopyKind) (sel : selOf is x.g ≠ []) (passes : (copyChecks s is x kind.toMany).find? (fun e => e.1) = none)
    {body : State × List (Nat × Chk)} (hbody : bodyOfCopy s is (cutRec (rdB is.gang x.rc)) (rdE s is x.a) (copyCount s is x) dir = body)
    (granted : bodyRefuses body.2 = false) (free : anyHold body.2 = false) (here : anyPage body.2 = false) :
    copyOp s is x kind arr dir
      = acceptCopy body.1 is c n x.f x.bar arr (rdE s is x.c == 0) (copyCommand s body.1 is c n x kind dir) := by
  simp only [copyOp, command_of_selected hu hcr sel, hbody, granted, free, here, Bool.false_eq_true, if_false]
  exact checked_of_passes passes

theorem copyOp_checked (kind : CopyKind) (sel : selOf is x.g ≠ [])
    (fails : (copyChecks s is x kind.toMany).find? (fun e => e.1) = some e) : copyOp s is x kind arr dir = .throw s (everyActive is e.2) :=
  (command_of_selected hu hcr sel).trans (checked_of_fails fails)

end

/-- A CPY.X in a body reads its index list with the gang's scratchpad stores at the banks, and waits for no tile or page (R287, R308). -/
theorem acceptIndexed_accepts {cr' : Crew} (released : releaseScr s is.ref = some (s₁, [])) (hcr' : crewOf? s₁ is.ref = some cr')
    {body : State × List (Nat × Chk)}
    (hbody : bodyOfIndexed s₁ is cr' (cutRec (rdB is.gang x.rc)) (rdE s₁ is x.a) (rdE s₁ is x.c) dir = body)
    (free : anyHold body.2 = false) (here : anyPage body.2 = false) :
    acceptIndexed s is c n x arr dir
      = acceptCopy body.1 is c n x.f x.bar arr (rdE s₁ is x.c == 0) (indexedCommand s₁ is c n x dir) := by
  rw [acceptIndexed, afterRelease_of_released released]
  simp only [hcr', hbody, free, here, Bool.false_eq_true, if_false]

/-- Settles O35: behind the checks, and in a body behind the tiles, each copy comes to `acceptCopy`. -/
theorem copiesAreAccepted : Obligations.CopiesAreAccepted := by
  unfold Obligations.CopiesAreAccepted
  intro s is x arr dir cores g f fw sa sm c n tok a b w cr u v hu hcr body go fails passes clear
  refine ⟨fun sel => ⟨fun e he => ?cpyFails, fun e he => ?cpyMFails, fun e he => ?cpyXFails, fun pass granted ⟨free, here⟩ => ?cpy,
    fun pass hdir granted ⟨free, here⟩ => ?cpyM, fun pass whole => ?cpyX, fun s₁ cr' pass inBody released hcr' ⟨free, here⟩ => ?cpyXBody⟩,
    fun sel agree => ⟨fun e he => ?mselFails, fun pass => ?msel⟩, fun sel differ => ?mselDiffer⟩
  case cpyFails => exact throws_of (exec_cpy x arr dir s) (copyOp_checked hu hcr .cpy sel he)
  case cpyMFails => exact throws_of (exec_cpyM x cores s) (copyOp_checked hu hcr (.multicast cores) sel he)
  case cpyXFails => exact throws_of_check (exec_cpyX x arr dir s) (command_of_selected hu hcr sel) he
  case cpy => exact answers_of_acceptCopy (exec_cpy x arr dir s) (copyOp_accepts hu hcr .cpy sel pass rfl granted free here)
  case cpyM =>
    subst hdir
    exact answers_of_acceptCopy (exec_cpyM x cores s) (copyOp_accepts hu hcr (.multicast cores) sel pass rfl granted free here)
  case cpyX =>
    refine answers_of_acceptCopy (exec_cpyX x arr dir s) ((command_of_selected hu hcr sel).trans ((checked_of_passes pass).trans ?_))
    rw [whole, Option.isSome_none, if_neg Bool.false_ne_true]
  case cpyXBody =>
    refine answers_of_acceptCopy (exec_cpyX x arr dir s) ((command_of_selected hu hcr sel).trans ((checked_of_passes pass).trans ?_))
    rw [if_pos (Option.isSome_iff_ne_none.2 inBody)]
    exact acceptIndexed_accepts released hcr' rfl free here
  all_goals
    have meaning := fun k : Nat → Nat → Crew → Res => command_of_selected (f := f) (k := k) hu hcr sel
  case mselFails =>
    refine throws_of (exec_msel g f a b fw sa sm s) ((meaning _).trans ?_)
    simp only [agree]
    exact checked_of_fails he
  case msel =>
    refine answers_of_acceptCopy (exec_msel g f a b fw sa sm s) ((meaning _).trans ?_)
    simp only [agree]
    exact checked_of_passes pass
  case mselDiffer =>
    refine throws_of (exec_msel g f a b fw sa sm s) ((meaning _).trans ?_)
    simp only [differ]
    rfl

end Sys2Proof.Machine
end

section
/-!
# Barriers (O39)

A crew's barrier that is full holds BARA back, one of another phase holds BARW back, and LBAR arrives once and goes on behind the release of its
launch barrier (R298 to R302).
-/

namespace Sys2Proof.Machine
variable {s u : State} {is : Iss} {b c n k : Nat} {o : Opd} {ph : Bool} {cr : Crew}

theorem afterRelease_of_empty {r : Option (State × List (Nat × Nat × Nat))} {k : State → Res} (released : r = some (u, [])) :
    afterRelease is s r k = k u := by
  rw [released]
  rfl

theorem barinit_answers (hu : is.ref = .user c n) (low : 1 ≤ rdU s is o) (high : rdU s is o ≤ 4095) :
    Answers (.barinit b o) s is (modBar s c b (fun y => { y with exp := rdU s is o, arr := 0, byt := 0, err := false })) := by
  refine answers_of _ s is _ _ (exec_barinit b o s) ?_
  have fits : ¬(rdU s is o < 1 ∨ rdU s is o > 4095) := by omega
  simp only [fits, if_false, hu]

theorem barinit_throws (beyond : rdU s is o < 1 ∨ 4095 < rdU s is o) (active : everyActive is 0x8001 ≠ []) :
    Throws (.barinit b o) s is s (everyActive is 0x8001) :=
  throws_of (exec_barinit b o s) ((if_pos beyond).trans (throwAllOrNop_of_ne_nil active))

section
variable (hu : is.ref = .user c n) (hcr : crewOf? s is.ref = some cr)
include hu hcr

theorem bara_waits (full : (barOf cr b).arr = (barOf cr b).exp) : Waits (.bara b) s is s .sync := by
  refine waits_of (exec_bara b s) ?_
  rw [hu] at hcr
  simp only [hu, hcr, full, if_true]

theorem bara_arrives (open_ : (barOf cr b).arr ≠ (barOf cr b).exp) (released : release s is.ref (crewScope s is.ref) = some (u, [])) :
    Answers (.bara b) s is (barArrive u c b) := by
  refine answers_of _ s is _ _ (exec_bara b s) ?_
  rw [hu] at hcr released
  simp only [hu, hcr, open_, if_false]
  exact afterRelease_of_empty released

theorem barexp_answers (fits : ¬(2 ^ 23 - 1 < rdU s is o ∨ 2 ^ 23 - 1 < (barOf cr b).byt + (rdU s is o : Int))) :
    Answers (.barexp b o) s is (modBar s c b (fun y => { y with byt := y.byt + (rdU s is o : Int) })) := by
  refine answers_of _ s is _ _ (exec_barexp b o s) ?_
  rw [hu] at hcr
  simp only [hu, hcr]
  exact if_neg fits

theorem barexp_throws (beyond : 2 ^ 23 - 1 < rdU s is o ∨ 2 ^ 23 - 1 < (barOf cr b).byt + (rdU s is o : Int))
    (active : everyActive is 0x8001 ≠ []) : Throws (.barexp b o) s is s (everyActive is 0x8001) := by
  refine throws_of (exec_barexp b o s) (.trans ?_ (throwAllOrNop_of_ne_nil active))
  rw [hu] at hcr
  simp only [hu, hcr]
  exact if_pos beyond

end

theorem barw_passes (hcr : crewOf? s is.ref = some cr) (reached : (barOf cr b).phase = ph) :
    Answers (.barw b ph) s is (acquire s is.ref (crewScope s is.ref)) := by
  refine answers_of _ s is _ _ (exec_barw b ph s) ?_
  simp only [hcr, reached, if_true]

theorem barw_waits (hcr : crewOf? s is.ref = some cr) (other : (barOf cr b).phase ≠ ph) : Waits (.barw b ph) s is s .sync := by
  refine waits_of (exec_barw b ph s) ?_
  simp only [hcr, other, if_false]

theorem lbar_arrives (hu : is.ref = .user c n) (first : is.gang.lbar = none) (released : release s is.ref (lbarScope s is) = some (u, [])) :
    Waits (.lbar k) s is (lbarArrive (modGang u is.ref (fun y => { y with lbar := some k })) c) .sync := by
  refine waits_of (exec_lbar k s) ?_
  rw [hu] at released ⊢
  simp only [first]
  exact afterRelease_of_empty released

theorem lbar_waits {j : Nat} (hu : is.ref = .user c n) (arrived : is.gang.lbar = some j) (held : j < 4) : Waits (.lbar k) s is s .sync := by
  refine waits_of (exec_lbar k s) ?_
  simp only [arrived, hu, ge_iff_le, Nat.not_le.2 held, if_false]

theorem lbar_passes {j : Nat} (hu : is.ref = .user c n) (arrived : is.gang.lbar = some j) (passed : 4 ≤ j) :
    Answers (.lbar k) s is (acquire (modGang s is.ref (fun y => { y with lbar := none })) is.ref (lbarScope s is)) := by
  refine answers_of _ s is _ _ (exec_lbar k s) ?_
  simp only [arrived, hu, ge_iff_le, passed, if_true]

/-- Settles O39: the count, the phase or the stage of the barrier decides each form. -/
theorem barrierFormsAnswer : Obligations.BarrierFormsAnswer := by
  unfold Obligations.BarrierFormsAnswer
  intro s is b c n k o ph cr u hu hcr x bad tooMany
  exact ⟨barinit_answers hu, barinit_throws, bara_waits hu hcr, bara_arrives hu hcr, barexp_answers hu hcr, barexp_throws hu hcr, barw_passes hcr,
    barw_waits hcr, lbar_arrives hu, fun j => lbar_waits hu, fun j => lbar_passes hu⟩

end Sys2Proof.Machine
end

section
/-!
# What events, translations and checks leave alone

Raising an event, walking the page tables, asking for a page and checking the elements of an access leave memory, every crew and every core.
-/

namespace Sys2Proof.Machine
variable {s t : State} {is : Iss} {e p : Nat}

/-- Memory, the crews and the cores of a state. -/
def State.held (s : State) : Memory × Tab Crew × Tab Core := (s.mem, s.crews, s.cores)

theorem mem_of_held (h : t.held = s.held) : t.mem = s.mem := congrArg Prod.fst h

theorem crew?_of_held (h : t.held = s.held) (c : Nat) : crew? t c = crew? s c :=
  congrArg (fun w : Memory × Tab Crew × Tab Core => Tab.find? w.2.1 c) h

theorem core?_of_held (h : t.held = s.held) (c : Nat) : core? t c = core? s c :=
  congrArg (fun w : Memory × Tab Crew × Tab Core => Tab.find? w.2.2 c) h

theorem gang?_of_held (h : t.held = s.held) (g : GRef) : gang? t g = gang? s g := by
  cases g with
  | sup c => rw [gang?, gang?, core?_of_held h]
  | user c n => rw [gang?, gang?, crew?_of_held h]

/-! ### Events (R337 to R339) -/

@[simp] theorem freshen_held (s : State) : (freshen s).held = s.held := rfl
@[simp] theorem countAt_held (s : State) (n unit k : Nat) : (countAt s n unit k).held = s.held := rfl
@[simp] theorem setClaim_held (s : State) (e : Nat) (c : Claim) : (setClaim s e c).held = s.held := rfl
@[simp] theorem offerClaim_held (s : State) (e : Nat) : (offerClaim s e).held = s.held := rfl

@[simp] theorem deliverClaim_held (s : State) (e : Nat) (a b : Bool) (n : Nat) : (deliverClaim s e a b n).held = s.held := by
  induction n generalizing s a b with
  | zero => rfl
  | succ n ih =>
    unfold deliverClaim
    dsimp only
    split
    · rfl
    · split
      · rfl
      · split
        · exact offerClaim_held _ e
        · exact ih _ _ _

@[simp] theorem raiseClaim_held (s : State) (e : Nat) (payload : W64) : (raiseClaim s e payload).held = s.held := by
  unfold raiseClaim
  dsimp only
  split
  · exact setClaim_held _ _ _
  · split
    · rw [offerClaim_held, setClaim_held]
    · rw [deliverClaim_held, setClaim_held]

@[simp] theorem raiseEvent_held (s : State) (e payload : Nat) : (raiseEvent s e payload).held = s.held := raiseClaim_held _ e _

/-! ### Translation (R328 to R333) -/

theorem held_fst {α : Type} {r : State × α} {x : α} (h : r.1.held = s.held) (e : r = (t, x)) : t.held = s.held := by
  rwa [e] at h

theorem malformed_held (s : State) (a : Nat) : (malformed s a).held = s.held := raiseEvent_held _ _ _

theorem walkFrom_held {entry : EntryAt} (h : ∀ t a, (entry t a).1.held = t.held) (va : Nat) (levels : List (Nat × Nat)) (s : State) (base : Nat) :
    (walkFrom entry va levels s base).1.held = s.held := by
  induction levels generalizing s base with
  | nil =>
    unfold walkFrom
    split
    · exact held_fst (h _ _) ‹_›
    · dsimp only
      split
      · exact held_fst (h _ _) ‹_›
      · exact (malformed_held _ _).trans (held_fst (h _ _) ‹_›)
  | cons l levels ih =>
    unfold walkFrom
    split
    · exact held_fst (h _ _) ‹_›
    · dsimp only
      split
      · exact (malformed_held _ _).trans (held_fst (h _ _) ‹_›)
      · split
        · exact (ih _ _).trans (held_fst (h _ _) ‹_›)
        · exact held_fst (h _ _) ‹_›

@[simp] theorem walk2_held (s : State) (root gpa : Nat) : (walk2 s root gpa).1.held = s.held := by
  unfold walk2
  split <;> exact held_fst (walkFrom_held (fun _ _ => rfl) _ _ _ _) ‹_›

theorem guestEntry_held (root : Nat) (s : State) (a : Nat) : (guestEntry root s a).1.held = s.held := by
  unfold guestEntry
  split <;> exact held_fst (walk2_held _ _ _) ‹_›

@[simp] theorem walkFresh_held (s : State) (ctx va : Nat) : (walkFresh s ctx va).1.held = s.held := by
  unfold walkFresh
  extract_lets page
  split
  · rfl
  · extract_lets entry
    have each (t : State) (a : Nat) : (entry t a).1.held = t.held := by
      unfold entry
      split
      · exact guestEntry_held _ _ _
      · rfl
    split
    · next e => exact held_fst (walkFrom_held each _ _ _ _) e
    · next e =>
      have walked := held_fst (walkFrom_held each _ _ _ _) e
      extract_lets x
      split
      · split
        · next e => exact (held_fst (walk2_held _ _ _) e).trans walked
        · next e => exact (held_fst (walk2_held _ _ _) e).trans walked
      · exact walked

@[simp] theorem translate_held (s : State) (ctx va : Nat) : (translate s ctx va).1.held = s.held := by
  have walked := walkFresh_held s ctx va
  unfold translate
  dsimp only
  split
  · exact walked
  · split
    · rfl
    · exact walked
  · split
    · rfl
    · exact walked
  · split
    · split
      · rfl
      · exact walked
    · exact walked

@[simp] theorem requestPage_held (s : State) (fn page ctx kind stage : Nat) (w : Waiter) :
    (requestPage s fn page ctx kind stage w).held = s.held := by
  unfold requestPage
  split <;> rfl

theorem askPages_held (s : State) (ctx kind : Nat) (w : Nat → Waiter) (es : List Place) : (askPages s ctx kind w es).held = s.held := by
  refine read_foldl_kept fun p _ t => ?_
  split
  · exact requestPage_held _ _ _ _ _ _ _
  · rfl

/-! ### The checks of an access (R237 to R241) -/

theorem translateOnce_held (r : Trail) (ctx va : Nat) : (translateOnce r ctx va).1.1.held = r.1.held := by
  unfold translateOnce
  split
  · rfl
  · exact translate_held _ _ _

theorem held_trail {r : Trail × XRes} {u : Trail} {x : XRes} (h : r.1.1.held = s.held) (e : r = (u, x)) : u.1.held = s.held := by
  rwa [e] at h

theorem held_ite {p : Prop} [Decidable p] {a b : Trail × Chk} (ha : a.1.1.held = s.held) (hb : b.1.1.held = s.held) :
    (if p then a else b).1.1.held = s.held := by
  split
  · exact ha
  · exact hb

theorem chkGlobal_held (r : Trail) (is : Iss) (va n : Nat) (k : AKind) : (chkGlobal r is va n k).1.1.held = r.1.held := by
  unfold chkGlobal
  extract_lets ctx
  refine held_ite rfl ?_
  split
  · next e => exact held_trail (translateOnce_held _ _ _) e
  · next e =>
    have translated := held_trail (translateOnce_held _ _ _) e
    exact held_ite translated (held_ite translated (held_ite translated (held_ite translated (held_ite translated translated))))

theorem chkRec_held (r : Trail) (is : Iss) (b : BRec) (i : Int) (n : Nat) (k : AKind) : (chkRec r is b i n k).1.1.held = r.1.held := by
  unfold chkRec chkAt
  split
  · rfl
  · split
    · rfl
    · split
      · rfl
      · exact chkGlobal_held _ _ _ _ _

theorem chkEach_held {f : Trail → Nat → Trail × Chk} (h : ∀ r l, (f r l).1.1.held = r.1.held) (ls : List Nat) (r : Trail) :
    (chkEach f ls r).1.1.held = r.1.held := by
  induction ls generalizing r with
  | nil => rfl
  | cons l ls ih => exact (ih _).trans (h r l)

theorem gChecks_held (s : State) (is : Iss) (m : GMem) (k : AKind) : (gChecks s is m k).1.held = s.held :=
  chkEach_held (fun r _ => chkRec_held r is _ _ _ k) _ (s, [])

theorem sChecks_held (s : State) (is : Iss) (m : SMem) : (sChecks s is m).1.held = s.held := chkEach_held (fun _ _ => rfl) _ (s, [])

end Sys2Proof.Machine
end

section
/-!
# Transactions (O40)

OTDECL reads its block, walks its tiles and submits them; OTBEGIN compares the oldest ticket with its future; OTEND is `bodyEnd`, which closes a
body that nothing holds open (R303 to R310).
-/

namespace Sys2Proof.Machine
variable {s s₁ u : State} {is : Iss} {f c n h tok : Nat} {off a : Opd} {es : List BlockEnt} {ts : List (Nat × Bool)} {t : Ticket}
  {rest : List Ticket} {e : OpEnt} {cr cr' : Crew}

/-! ### OTDECL (R305) -/

theorem submit_of_room (room : sequencerRoom s (dieOf (coreOf s is.ref)) = true) (entry : newOp s c n .ticket = some (u, tok))
    (hcr : crewOf? s is.ref = some cr) : submit s is c n f h ts = .done (submitted u is c n f h cr ts tok) := by
  simp only [submit, room, entry, hcr, Bool.not_true, Bool.false_eq_true, if_false]

theorem otdecl_refused {k : Nat} (hu : is.ref = .user c n) (block : readBlock s is (rdU s is off % 2 ^ 32) = .code k)
    (active : everyActive is k ≠ []) : Throws (.otdecl f off) s is s (everyActive is k) := by
  refine throws_of (exec_otdecl f off s) (.trans ?_ (throwAllOrNop_of_ne_nil active))
  simp only [hu, block]

theorem otdecl_submits (hu : is.ref = .user c n) (block : readBlock s is (rdU s is off % 2 ^ 32) = .ok h es)
    (tiles : tilesCheck s is [] (blockTiles es) = (s₁, .ok ts))
    (room : sequencerRoom (modGang s₁ is.ref nextSeq) (dieOf (coreOf (modGang s₁ is.ref nextSeq) is.ref)) = true)
    (entry : newOp (modGang s₁ is.ref nextSeq) c n .ticket = some (u, tok)) (hcr : crewOf? (modGang s₁ is.ref nextSeq) is.ref = some cr') :
    Answers (.otdecl f off) s is (submitted u is c n f h cr' ts tok) := by
  refine answers_of _ s is _ _ (exec_otdecl f off s) (.trans ?_ (submit_of_room room entry hcr))
  simp only [hu, block, tiles]

/-! ### OTBEGIN (R307) -/

theorem otbegin_inBody (hcr : crewOf? s is.ref = some cr) (inBody : is.gang.body ≠ none) (active : everyActive is 0x800C ≠ []) :
    Throws (.otbegin f) s is s (everyActive is 0x800C) := by
  refine throws_of (exec_otbegin f s) (.trans ?_ (throwAllOrNop_of_ne_nil active))
  simp only [hcr, Option.isSome_iff_ne_none.2 inBody, if_true]

section
variable (hcr : crewOf? s is.ref = some cr) (outside : is.gang.body = none) (first : is.gang.tickets = t :: rest)
  (named : opOf cr (rdF is.gang f) = some e)
include hcr outside first named

/-- The oldest ticket is the one that the future names, and not of a round beyond the gang's. -/
theorem otbegin_mine (mine : ¬(t.op ≠ rdF is.gang f ∨ (t.roundMode = true ∧ is.gang.round < t.round))) :
    (e.st = .ok → Answers (.otbegin f) s is (modGang s is.ref (fun y => { y with tickets := y.tickets.drop 1, body := some t })))
    ∧ (e.st = .unresolved → Waits (.otbegin f) s is s .sync) := by
  refine ⟨fun granted => answers_of _ s is _ _ (exec_otbegin f s) ?_, fun open_ => waits_of (exec_otbegin f s) ?_⟩
  · simp only [hcr, outside, first, named, Option.isSome_none, Bool.false_eq_true, gt_iff_lt, mine, if_false, granted]
  · simp only [hcr, outside, first, named, Option.isSome_none, Bool.false_eq_true, gt_iff_lt, mine, if_false, open_]

theorem otbegin_notMine (other : t.op ≠ rdF is.gang f ∨ (t.roundMode = true ∧ is.gang.round < t.round)) (active : everyActive is 0x8003 ≠ []) :
    Throws (.otbegin f) s is s (everyActive is 0x8003) := by
  refine throws_of (exec_otbegin f s) (.trans ?_ (throwAllOrNop_of_ne_nil active))
  simp only [hcr, outside, first, named, Option.isSome_none, Bool.false_eq_true, gt_iff_lt, other, if_false, if_true]

end

/-! ### OTEND (R309) -/

theorem bodyEnd_of_noBody {x : Gang} (hx : gang? s is.ref = some x) (outside : x.body = none) : bodyEnd s is.ref = (s, [], true) := by
  cases hr : is.ref with
  | sup d => rfl
  | user d m =>
    rw [hr] at hx
    simp only [bodyEnd, hx, outside]

/-- A body whose commands and loads are done and whose stores settle is closed. -/
theorem bodyEnd_closes {x : Gang} (hu : is.ref = .user c n) (hx : gang? s is.ref = some x) (inBody : x.body = some t)
    (commands : bodyCommandsDone s c n t.op = true) (loads : bodyLoadsDone x t = true) (quiet : (settleBody s is.ref).2.1 = [])
    (settled : (settleBody s is.ref).2.2 = true) : bodyEnd s is.ref = (closeBody (settleBody s is.ref).1 is.ref, [], true) := by
  rw [hu] at hx quiet settled ⊢
  simp only [bodyEnd, hx, inBody, commands, loads, quiet, settled, List.isEmpty_nil, Bool.not_true, Bool.or_self, Bool.and_self, Bool.false_eq_true,
    if_false, if_true]

theorem otend_of_closed {v : State} (run : mayRun s is .otend = true → bodyEnd s is.ref = (v, [], true)) : Answers .otend s is v :=
  fun hr => answers_of _ s is _ _ (exec_otend s) (by rw [run hr]) hr

/-- Settles O40: the block and the tiles decide OTDECL, the oldest ticket and its operation OTBEGIN, and `bodyEnd` OTEND. -/
theorem transactionFormsAnswer : Obligations.TransactionFormsAnswer := by
  unfold Obligations.TransactionFormsAnswer
  intro s is f c n h tok off a es ts t rest e cr cr' s₁ u hu hcr o bad notMine
  exact ⟨fun k => otdecl_refused hu, otdecl_submits hu, otbegin_inBody hcr, otbegin_mine hcr, otbegin_notMine hcr,
    fun outside => otend_of_closed fun hr => bodyEnd_of_noBody (mayRun_gang s is _ hr) outside,
    fun inBody commands loads quiet settled => otend_of_closed fun hr =>
      bodyEnd_closes hu (mayRun_gang s is _ hr) inBody commands loads quiet settled,
    answers_of _ s is _ _ (exec_otround a s) rfl⟩

end Sys2Proof.Machine
end

section
/-!
# Supervisor faults (O43)

A trap and a throw of the supervisor gang are one `supFault`, which changes its core alone; the event that it raises touches neither crews nor
cores (R312, R337).
-/

namespace Sys2Proof.Machine
variable {s : State} {c cls cause code pc : Nat}

/-! ### The fault -/

/-- The core behind a fault of its supervisor gang. -/
def faultedCore (cls cause code pc : Nat) (x : Core) : Core :=
  { x with svflt := true, svfpc := pc, svfcause := BitVec.ofNat 32 (cls + cause * 256 + code * 65536), sup := x.sup.map (fun y => { y with halted := true }) }

theorem supFault_eq : supFault s c cls cause code pc = raiseEvent (modCore s c (faultedCore cls cause code pc)) 2 c := rfl

theorem core?_supFault {y : Core} (hc : core? s c = some y) : core? (supFault s c cls cause code pc) c = some (faultedCore cls cause code pc y) := by
  rw [supFault_eq, core?_of_held (raiseEvent_held _ _ _), core?_modCore, if_pos rfl, hc, Option.map_some]

theorem gang?_supFault_sup {x : Gang} (hx : gang? s (.sup c) = some x) :
    gang? (supFault s c cls cause code pc) (.sup c) = some { x with halted := true } := by
  obtain ⟨y, hc, hy⟩ := Option.bind_eq_some_iff.1 hx
  rw [gang?, core?_supFault hc, Option.bind_some, faultedCore, hy, Option.map_some]

theorem gang?_supFault_user (a b : Nat) : gang? (supFault s c cls cause code pc) (.user a b) = gang? s (.user a b) := by
  rw [supFault_eq, gang?_of_held (raiseEvent_held _ _ _)]
  rfl

/-- Settles O43: a trap of the supervisor gang is the fault of its class and cause, and a throw the fault of class 5 with its code. -/
theorem supervisorFaults : Obligations.SupervisorFaults := by
  unfold Obligations.SupervisorFaults
  intro s is c cls cause info insn lanes x hs hx t u
  have ht : t = supFault s c cls cause 0 is.q.pc := by simp only [t, takeTrap, hs]
  have hu : u = supFault s c 5 0 cause is.q.pc := rfl
  rw [hs] at hx
  obtain ⟨y, hc, -⟩ := Option.bind_eq_some_iff.1 hx
  rw [ht, hu]
  refine ⟨gang?_supFault_sup hx, gang?_supFault_sup hx, ⟨_, core?_supFault hc, rfl, rfl, ?_⟩, ⟨_, core?_supFault hc, rfl, rfl, ?_⟩,
    fun a b => ⟨gang?_supFault_user a b, gang?_supFault_user a b⟩⟩
  · simp only [faultedCore, Nat.zero_mul, Nat.add_zero]
  · simp only [faultedCore, Nat.zero_mul, Nat.add_zero]

end Sys2Proof.Machine
end

section
/-!
# TRAP and requests (O47, O48)

The supervisor's instructions act on the request that their slot names, if it has been taken and not abandoned (`actOn`, R407); what they have put
into its write set is read back from there (R315 to R321).
-/

namespace Sys2Proof.Machine
variable {s u : State} {is : Iss} {a b data : Opd} {g : Guard} {n reg num adv k l sl v : Nat} {hi : Bool} {r : Request} {x : Gang} {core : Core}
  {w : W64} {ls : List (Nat × W64)}

/-! ### MBXRD (R315) -/

theorem mbxrdNext_none (hc : core? s (coreOf s is.ref) = some core) (idle : oldestRequest core = none) :
    Answers (.mbxrdNext (.s n)) s is (modGang s is.ref (fun y => wrS y n (2 ^ 64 - 1))) := by
  refine answers_of _ s is _ _ (exec_mbxrdNext (.s n) s) (.trans ?_ (writeScalar_s _ is n _))
  simp only [hc, Option.bind_some, idle]

theorem mbxrdNext_takes (hc : core? s (coreOf s is.ref) = some core) (oldest : oldestRequest core = some k)
    (hr : requestIn s (coreOf s is.ref) k = some r) :
    Answers (.mbxrdNext (.s n)) s is (modGang (if r.cancel then dropRequest s (coreOf s is.ref) k
      else modRequest s (coreOf s is.ref) k (fun r => { r with taken := true })) is.ref (fun y => wrS y n k)) := by
  refine answers_of _ s is _ _ (exec_mbxrdNext (.s n) s) (.trans ?_ (writeScalar_s _ is n _))
  simp only [hc, Option.bind_some, oldest, hr, Option.map_some, Option.getD_some]

theorem mbxrdWord_some (hr : requestIn s (coreOf s is.ref) (rdU s is a) = some r) :
    Answers (.mbxrdWord (.s n) a b) s is (modGang s is.ref (fun y => wrS y n (requestWord r (rdU s is a) (rdU s is b)))) := by
  refine answers_of _ s is _ _ (exec_mbxrdWord (.s n) a b s) (.trans ?_ (writeScalar_s _ is n _))
  simp only [hr]

theorem mbxrdWord_none (hr : requestIn s (coreOf s is.ref) (rdU s is a) = none) :
    Answers (.mbxrdWord (.s n) a b) s is (modGang s is.ref (fun y => wrS y n 0)) := by
  refine answers_of _ s is _ _ (exec_mbxrdWord (.s n) a b s) (.trans ?_ (writeScalar_s _ is n _))
  simp only [hr]

/-! ### The write set (R317, R318) -/

theorem addWrites_fits (hr : actOn s (coreOf s is.ref) sl = some r) (some' : ls ≠ []) (fits : writesFit r k = true) :
    addWrites s is sl k ls = .done (withWrites s (coreOf s is.ref) sl r k ls) := by
  simp only [addWrites, hr, List.isEmpty_eq_false_iff.2 some', fits, Bool.not_true, Bool.false_eq_true, if_false]

theorem addWrites_full (hr : actOn s (coreOf s is.ref) sl = some r) (some' : ls ≠ []) (full : writesFit r k = false) :
    addWrites s is sl k ls = .stay (supFault s (coreOf s is.ref) 6 0 0 is.q.pc) := by
  simp only [addWrites, hr, List.isEmpty_eq_false_iff.2 some', full, Bool.not_false, Bool.false_eq_true, if_false, if_true]

theorem addWrites_nothing (hr : actOn s (coreOf s is.ref) sl = some r) : addWrites s is sl k [] = .done s := by
  simp only [addWrites, hr, List.isEmpty_nil, if_true]

/-- WRXV to the gang of a request. -/
theorem wrxv_comes (hr : actOn s (coreOf s is.ref) (rdU s is a) = some r) (hx : gang? s r.gref = some x)
    (run : mayRun s is (.wrxv g a data reg hi) = true) : exec (.wrxv g a data reg hi) s
      = conclude is (.wrxv g a data reg hi) (addWrites s is (rdU s is a) reg (xvWritten s is g x data reg hi)) := by
  refine comes_to _ _ (exec_wrxv g a data reg hi s) ?_ run
  simp only [hr, Option.bind_some, hx]

theorem wrxs_comes (bits : writeXsBits num (rdU s is b) = some v) (run : mayRun s is (.wrxs a b num) = true) : exec (.wrxs a b num) s
    = conclude is (.wrxs a b num) (addWrites s is (rdU s is a) (scalarKey num) [(0, BitVec.ofNat 64 v)]) := by
  refine comes_to _ _ (exec_wrxs a b num s) ?_ run
  simp only [bits]

/-- The instructions that name an abandoned or an absent request. -/
theorem absent_request (absent : actOn s (coreOf s is.ref) (rdU s is a) = none) :
    Answers (.wrxv g a data reg hi) s is s ∧ Answers (.wrxs a b num) s is s
    ∧ Answers (.svret a adv) s is (dropAbandoned s (coreOf s is.ref) (rdU s is a))
    ∧ Answers (.svthrow a b) s is (dropAbandoned s (coreOf s is.ref) (rdU s is a)) := by
  refine ⟨answers_of _ s is _ _ (exec_wrxv g a data reg hi s) ?_, answers_of _ s is _ _ (exec_wrxs a b num s) ?_,
    answers_of _ s is _ _ (exec_svret a adv s) ?_, answers_of _ s is _ _ (exec_svthrow a b s) ?_⟩
  · simp only [absent, Option.bind_none]
  · cases writeXsBits num (rdU s is b) with
    | none => rfl
    | some v => simp only [addWrites, absent]
  · simp only [absent]
  · simp only [absent]

/-! ### Answers (R319, R320) -/

theorem svret_answers (hr : actOn s (coreOf s is.ref) (rdU s is a) = some r) (released : release s is.ref .dev = some (u, [])) :
    Answers (.svret a adv) s is (returned u (coreOf s is.ref) (rdU s is a) r adv) := by
  refine answers_of _ s is _ _ (exec_svret a adv s) ?_
  simp only [hr, released]
  rfl

theorem svthrow_answers (hr : actOn s (coreOf s is.ref) (rdU s is a) = some r) :
    Answers (.svthrow a b) s is (thrownAt s (coreOf s is.ref) (rdU s is a) r (rdU s is b)) := by
  refine answers_of _ s is _ _ (exec_svthrow a b s) ?_
  simp only [hr]

/-- Settles O47: the request that a slot names decides each instruction, and the room of its write set WRXV and WRXS. -/
theorem requestFormsAnswer : Obligations.RequestFormsAnswer := by
  unfold Obligations.RequestFormsAnswer
  intro s is a b data g n reg num adv k hi r x core u v c sl put onGang
  refine ⟨comes_to _ _ (exec_trap a s) rfl, mbxrdNext_none, mbxrdNext_takes, mbxrdWord_some, mbxrdWord_none,
    answers_of _ s is _ _ (exec_rdxv g (.v n) a reg hi s) rfl, answers_of _ s is _ _ (exec_rdxs (.s n) a num s) rfl,
    fun ⟨hr, hx⟩ fits some' run => ?wrxv, fun ⟨hr, hx⟩ nothing run => ?wrxvNothing, absent_request, fun hr bits fits run => ?wrxs,
    fun hr bits full run => ?wrxsFull, svret_answers, svthrow_answers⟩
  case wrxv =>
    rw [wrxv_comes hr hx run, addWrites_fits hr some' fits]
    rfl
  case wrxvNothing =>
    rw [wrxv_comes hr hx run, nothing, addWrites_nothing hr]
    rfl
  case wrxs =>
    rw [wrxs_comes bits run, addWrites_fits hr (List.cons_ne_nil _ _) fits]
    rfl
  case wrxsFull =>
    rw [wrxs_comes bits run, addWrites_full hr (List.cons_ne_nil _ _) full]
    rfl

/-! ### Reading back (R318) -/

theorem readXv_of_written {t : Tab W64} (lane : l < x.width) (vector : reg < 640) (written : Tab.find? r.writes reg = some t)
    (word : Tab.find? t l = some w) : readXv s r x reg l = w.toNat := by
  simp only [readXv, ge_iff_le, Nat.not_le.2 lane, written, word, Option.bind_some, Nat.ne_of_lt vector, if_false]

theorem readXv_of_unwritten (lane : l < x.width) (vector : num < 640) (has : num < x.n) (unwritten : Tab.find? r.writes num = none)
    (home : spilledReg x num = false) : readXv s r x num l = rdV x num l := by
  simp only [readXv, ge_iff_le, Nat.not_le.2 lane, unwritten, Option.bind_none, vector, has, spillRead, home, Bool.false_and, Bool.false_eq_true,
    if_false, if_true]

theorem readXs_of_written {t : Tab W64} (low : 0x1000 ≤ num) (written : Tab.find? r.writes (scalarKey num) = some t)
    (word : Tab.find? t 0 = some w) : readXs s r x num = w.toNat := by
  have record : ¬(0x208 ≤ num ∧ num ≤ 0x20F) := by omega
  simp only [readXs, written, word, Option.bind_some, record, if_false]

/-- Settles O48: a register in the write set reads from there, and another as the gang holds it. -/
theorem writeSetsReadBack : Obligations.WriteSetsReadBack := by
  unfold Obligations.WriteSetsReadBack
  intro s r x reg l num w t lane vector
  refine ⟨readXv_of_written lane vector (Tab.find?_put_same _ _ _) (Tab.find?_put_same _ _ _),
    fun other unwritten has vector' home => readXv_of_unwritten lane vector' has ?_ home,
    fun low _ => readXs_of_written low (Tab.find?_put_same _ _ _) rfl⟩
  exact (Tab.find?_put_ne _ _ _ _ (Ne.symm other)).trans (Option.isNone_iff_eq_none.1 unwritten)

end Sys2Proof.Machine
end

section
/-!
# The checks of an access, and loads and atomics that issue (O29, O27)

A check of R239 or R241 that fails hides the ones behind it. An access whose lanes pass enters flight (`launch`); where lanes fail, those throw, and
an undeclared tile ends the body first (`memThrow`).
-/

namespace Sys2Proof.Machine
variable {s : State} {is : Iss} {i : Instr} {m : State → Iss → Res} {cr : Crew} {b : BRec} {o j : Int} {n : Nat} {k : AKind}

/-! ### Scratchpad elements (R241) -/

theorem chkScr_misaligned {g : GRef} (h : o % (n : Int) ≠ 0) : chkScr s g o n = .code 0x8008 := if_pos h

theorem chkScr_outside {g : GRef} (aligned : o % (n : Int) = 0) (h : o < 0 ∨ (scrSize s g : Int) < o + n) : chkScr s g o n = .code 0x8001 := by
  rw [chkScr, if_neg (not_not.2 aligned), if_pos h]

theorem chkScr_inside {g : GRef} (hcr : crewOf? s g = some cr) (aligned : o % (n : Int) = 0) (low : 0 ≤ o) (high : o + n ≤ (scrSize s g : Int)) :
    chkScr s g o n = if scrMode s cr o.toNat then .ok (.scr o.toNat) true else .code 0x8007 := by
  have inside : ¬(o < 0 ∨ o + n > (scrSize s g : Int)) := by omega
  rw [chkScr, if_neg (not_not.2 aligned), if_neg inside, hcr]

/-! ### Elements of a record (R237, R239) -/

theorem chkRec_beyond (r : Trail) (h : j < 0 ∨ (recExtent b : Int) ≤ j) : (chkRec r is b j n k).2 = .code 0x8001 := by rw [chkRec, if_pos h]

theorem chkRec_within (r : Trail) (low : 0 ≤ j) (high : j < (recExtent b : Int)) : chkRec r is b j n k = chkAt r is b.spad (recAddr b j.toNat) n k := by
  have within : ¬(j < 0 ∨ j ≥ (recExtent b : Int)) := by omega
  rw [chkRec, if_neg within]

/-- Settles O29: each check of `chkScr` and `chkRec` is judged behind those before it. -/
theorem accessChecks : Obligations.AccessChecks := by
  unfold Obligations.AccessChecks
  intro s is cr b j o n k hcr _
  refine ⟨chkScr_misaligned, chkScr_outside, chkScr_inside hcr, chkRec_beyond _, fun low high memory misaligned => ?memory,
    fun low high scratch => ?scratch⟩
  case memory => rw [chkRec_within _ low high, chkAt, memory, if_neg Bool.false_ne_true, if_pos misaligned]
  case scratch => rw [chkRec_within _ low high, chkAt, if_pos scratch]

/-! ### Failed checks (R238, R308) -/

theorem memThrow_of_declared {ts : List (Nat × Nat)} (h : is.gang.body = none ∨ ∀ t ∈ ts, t.2 ≠ 0x8003) : memThrow s is ts = .throw s ts := by
  rcases h with whole | declared
  · exact memThrow_of_noBody whole ts
  · have none_undeclared : ts.any (fun t => t.2 == 0x8003) = false := List.any_eq_false.2 fun t ht => by simp only [declared t ht, beq_iff_eq, not_false_eq_true]
    simp only [memThrow, none_undeclared, Bool.and_false, Bool.false_eq_true, if_false]

theorem memThrow_of_undeclared {ts : List (Nat × Nat)} (inBody : is.gang.body ≠ none) (h : ∃ t ∈ ts, t.2 = 0x8003) :
    memThrow s is ts = .throw (breakBody s is.ref) ts := by
  obtain ⟨t, ht, code⟩ := h
  have undeclared : ts.any (fun t => t.2 == 0x8003) = true := List.any_eq_true.2 ⟨t, ht, beq_iff_eq.2 code⟩
  simp only [memThrow, Option.isSome_iff_ne_none.2 inBody, undeclared, Bool.and_self, if_true]

/-! ### Loads and atomics (R242 to R245) -/

section
variable {r : State × List (Nat × Chk)} {rp : Option Nat} {kind path : Nat} {fk : FlightKind} {sc : Scope} {z : Size} {d : Opd} {data cmp : Nat → Nat}

theorem launch_of_codes (h : chkCodes rp.isSome r.2 ≠ []) :
    launch r is rp kind path fk sc z d data cmp = memThrow r.1 is (chkCodes rp.isSome r.2) := by
  unfold launch
  cases hc : chkCodes rp.isSome r.2 with
  | nil => exact absurd hc h
  | cons t ts => rfl

theorem launch_of_pass (passes : chkCodes rp.isSome r.2 = []) : launch r is rp kind path fk sc z d data cmp
    = if anyHold r.2 then .wait r.1 .sync else .done (launched r is rp kind path fk sc z d data cmp) := by
  rw [launch, passes]

/-- What an instruction comes to whose meaning is to `launch`: it enters flight, throws in the lanes that fail, or waits. -/
theorem launch_outcomes (hi : exec i s = issue i s m) (hm : m s is = launch r is rp kind path fk sc z d data cmp) :
    let ts := chkCodes rp.isSome r.2
    (ts = [] → anyHold r.2 = false → Answers i s is (launched r is rp kind path fk sc z d data cmp))
    ∧ (ts ≠ [] → (is.gang.body = none ∨ ∀ t ∈ ts, t.2 ≠ 0x8003) → Throws i s is r.1 ts)
    ∧ (is.gang.body ≠ none → (∃ t ∈ ts, t.2 = 0x8003) → Throws i s is (breakBody r.1 is.ref) ts)
    ∧ (ts = [] → anyHold r.2 = true → Waits i s is r.1 .sync) := by
  refine ⟨fun passes free => answers_of i s is _ m hi ?_, fun fails declared => throws_of hi ?_, fun inBody undeclared => throws_of hi ?_,
    fun passes held => waits_of hi ?_⟩
  · rw [hm, launch_of_pass passes, free, if_neg Bool.false_ne_true]
  · rw [hm, launch_of_codes fails, memThrow_of_declared declared]
  · rw [hm, launch_of_codes (List.ne_nil_of_mem undeclared.choose_spec.1), memThrow_of_undeclared inBody undeclared]
  · rw [hm, launch_of_pass passes, if_pos held]

end

theorem queueDst_of_usable {d : Opd} {r : Res} (usable : d.qreg.all (fun n => qcfgUsable s is.ref (qCfg s is.ref n)) = true) :
    queueDst s is d r = r := if_pos usable

/-- Settles O27: a load or atomic is a `launch`, behind the mapping of its queue register where it has one. -/
theorem loadsEnterFlight : Obligations.LoadsEnterFlight := by
  unfold Obligations.LoadsEnterFlight
  intro s is m b sx d data p op zero usable go
  exact ⟨fun use => launch_outcomes (exec_ld m sx d s) (queueDst_of_usable use), fun use => launch_outcomes (exec_ldRp m sx d p s) (queueDst_of_usable use),
    fun use => launch_outcomes (exec_lds b sx d s) (queueDst_of_usable use), launch_outcomes (exec_atom op m d data s) rfl,
    launch_outcomes (exec_atoms op b d data s) rfl⟩

end Sys2Proof.Machine
end

section
/-!
# Stores that issue (O28)

A store pops its data, and its elements enter the scope buffer of the gang or wait there for their pages. None of these steps touches a byte of
memory, of a scratchpad, or of a core's copies (`KeepsBytes`).
-/

namespace Sys2Proof.Machine
variable {s t u s' : State} {is : Iss} {i : Instr} {m : State → Iss → Res} {g : GRef} {xs : List Src} {x : Src} {bad : Mask}

/-- No byte of memory, of a scratchpad or of a core's copies changes. -/
structure KeepsBytes (s t : State) : Prop where
  mem : t.mem = s.mem
  scratch : ∀ c, (crew? t c).map (fun y => y.scr) = (crew? s c).map (fun y => y.scr)
  copies : ∀ c, (core? t c).map (fun y => y.cp) = (core? s c).map (fun y => y.cp)

namespace KeepsBytes

theorem trans (a : KeepsBytes s t) (b : KeepsBytes t u) : KeepsBytes s u :=
  ⟨b.mem.trans a.mem, fun c => (b.scratch c).trans (a.scratch c), fun c => (b.copies c).trans (a.copies c)⟩

theorem of_held (h : t.held = s.held) : KeepsBytes s t :=
  ⟨mem_of_held h, fun c => by rw [crew?_of_held h], fun c => by rw [core?_of_held h]⟩

theorem of_onlyGangAndQueues {qs : List Nat} (h : OnlyGangAndQueues s t g qs) : KeepsBytes s t where
  mem := by
    have rest := congrArg State.mem h.rest
    exact rest
  scratch c := by
    have crew := congrArg (fun o : Option Crew => o.map (fun y => y.scr)) (h.crews c)
    rw [Option.map_map, Option.map_map] at crew
    exact crew
  copies c := by
    have core := congrArg (fun o : Option Core => o.map (fun y => y.cp)) (h.cores c)
    rw [Option.map_map, Option.map_map] at core
    exact core

theorem of_onlyGang (h : OnlyGang s t g) : KeepsBytes s t := of_onlyGangAndQueues (qs := []) h.andQueues

theorem popAll {srcs : List (Opd × Ety)} (h : popAll s g srcs = some (t, xs, bad)) : KeepsBytes s t :=
  of_onlyGangAndQueues (onlyQueues_popAll (qs := srcs.flatMap (fun p => p.1.qreg)) (fun p hp _ hn => List.mem_flatMap.2 ⟨p, hp, hn⟩) h).rest

theorem stored {cs : List (Nat × Chk)} {sc : Scope} {z : Size} {data : Nat → Nat} {path : Nat} : KeepsBytes s (stored s is cs sc z data path) := by
  unfold Machine.stored
  split
  · exact (of_onlyGang (onlyGang_modGang s is.ref _)).trans (of_held (askPages_held _ _ _ _ _))
  · unfold enterStores
    refine (of_held (t := (laneOrder s _).1) ?_).trans (of_onlyGang (onlyGang_modGang _ is.ref _))
    unfold laneOrder
    split <;> rfl

end KeepsBytes

/-- What a store comes to whose data is at hand and whose checks pass. -/
theorem store_of_pass {z : Size} {sc : Scope} {data : Opd} {path : Nat} {chk : State → Iss → State × List (Nat × Chk)}
    (fed : feeds s is [(data, sizeTy z)] .exm = some (u, xs)) (passes : chkCodes false (chk s is).2 = []) (free : anyHold (chk s is).2 = false)
    (pops : popAll (chk s is).1 is.ref [(data, sizeTy z)] = some (s', [x], bad)) :
    store s is z sc data path chk = .done (stored s' is (chk s is).2 sc z (fun l => rdSrc s' is x l) path) := by
  unfold store
  rw [withQueues_of_feeds _ _ _ _ _ _ _ fed]
  simp only [passes, free, pops, Bool.false_eq_true, if_false]

/-- What an instruction comes to whose meaning is to `store`: its entries stand in the buffer, or wait for pages, and no byte changes. -/
theorem store_outcomes {z : Size} {sc : Scope} {data : Opd} {path : Nat} {chk : State → Iss → State × List (Nat × Chk)} {v : State}
    (hi : exec i s = issue i s m) (hm : m s is = store s is z sc data path chk) (checked : (chk s is).1.held = s.held)
    (fed : feeds s is [(data, sizeTy z)] .exm = some (u, xs)) (passes : chkCodes false (chk s is).2 = []) (free : anyHold (chk s is).2 = false)
    (pops : popAll (chk s is).1 is.ref [(data, sizeTy z)] = some (s', [x], bad)) :
    (anyPage (chk s is).2 = false → Answers i s is (enterStores s' is (chk s is).2 sc z.bytes (fun l => rdSrc s' is x l) path))
    ∧ (anyPage (chk s is).2 = true → Answers i s is (askPages (awaitStore s' is (chk s is).2 sc z (fun l => rdSrc s' is x l) path)
        (ctxOf s' is.ref) 1 (fun _ => .flight is.ref is.gang.seq) (placesOf (chk s is).2)))
    ∧ (mayRun s is i = true → exec i s = .next v → (∀ a, v.mem.read a = s.mem.read a)
        ∧ (∀ c, (crew? v c).map (fun y => y.scr) = (crew? s c).map (fun y => y.scr))
        ∧ (∀ c, (core? v c).map (fun y => y.cp) = (core? s c).map (fun y => y.cp))) := by
  have answers := answers_of i s is _ m hi (hm.trans (store_of_pass fed passes free pops))
  refine ⟨fun here => ?buffered, fun lacking => ?awaits, fun hr ran => ?frame⟩
  case buffered => rwa [stored, here, if_neg Bool.false_ne_true] at answers
  case awaits => rwa [stored, if_pos lacking] at answers
  case frame =>
    have hv : v = past _ is i := Host.Outcome.next.inj (ran.symm.trans (answers hr))
    have kept : KeepsBytes s v := hv ▸
      (((KeepsBytes.of_held checked).trans (.popAll pops)).trans .stored).trans (.of_onlyGang (onlyGang_past _ is i))
    exact ⟨fun a => congrArg (fun m => m.read a) kept.mem, kept.scratch, kept.copies⟩

/-- Settles O28: ST and STS are a `store` behind checks that leave memory, crews and cores. -/
theorem storesEnterTheBuffer : Obligations.StoresEnterTheBuffer := by
  unfold Obligations.StoresEnterTheBuffer
  intro s is m b data u v s' xs x bad go
  exact ⟨store_outcomes (exec_st m data s) rfl (gChecks_held s is m .write), store_outcomes (exec_sts b data s) rfl (sChecks_held s is b)⟩

end Sys2Proof.Machine
end

section
/-!
# FENCE, PERSIST, WAITA, WAKE and QSTAT (O30)

WAITA is its loop at one address (`waitAt`): behind the checks, `waitOn` returns, keeps its watch, or throws where no way leads to the word. WAKE
waits for what holds it, and reaches the waiters of the line (R246 to R249, R254).
-/

namespace Sys2Proof.Machine
variable {s s' : State} {is : Iss} {i : Instr} {m : State → Iss → Res} {c : WCond} {z : Size} {sc : Scope} {n rc q k a b : Nat} {p : Place} {w : Bool}
  {idx cmp : Opd} {disp : Option W32} {spad : Bool}

/-! ### The loop of WAITA (R248) -/

/-- The place of an element that passed its checks is not a page that is awaited. -/
def Place.there (p : Place) : Prop := ∀ f g v t, p ≠ .page f g v t

theorem waitAt_of_ok {d : Opd} (passes : alone (chkAt (s, []) is spad a z.bytes .read) = (s', .ok p w)) (there : p.there) :
    waitAt s is c z sc d spad a b = waitOn s' is c z sc d p a b := by
  cases p with
  | page f g v t => exact absurd rfl (there f g v t)
  | _ => simp only [waitAt, passes]

section
variable (free : placeFree is.gang p z.bytes = true)
include free

theorem waitOn_cutOff {d : Opd} (cut : cutOffAt s is.ref is.gang is.gang.seq sc p z.bytes = true) (whole : is.gang.body = none) :
    waitOn s is c z sc d p a b = .throw (setWatch s is none) (everyActive is 0x8007) := by
  simp only [waitOn, free, cut, Bool.not_true, Bool.false_eq_true, if_false, if_true, uniThrow_of_noBody whole]

section
variable (reached : cutOffAt s is.ref is.gang is.gang.seq sc p z.bytes = false) (good : (waitLoad s is z sc p).2.2 = false)
include reached good

theorem waitOn_returns (met : (wCond c (waitLoad s is z sc p).2.1 b || wokenAt is p) = true) : waitOn s is c z sc (.s n) p a b
    = .done (modGang (waitedAt (waitLoad s is z sc p).1 is sc p) is.ref (fun y => wrS y n (waitLoad s is z sc p).2.1)) := by
  simp only [waitOn, free, reached, good, met, Bool.not_true, Bool.false_eq_true, if_false, if_true, writeScalar_s]

theorem waitOn_waits {d : Opd} (unmet : (wCond c (waitLoad s is z sc p).2.1 b || wokenAt is p) = false) : waitOn s is c z sc d p a b
    = .wait (setWatch (waitLoad s is z sc p).1 is (some (watchOf a b p))) .sync := by
  simp only [waitOn, free, reached, good, unmet, Bool.not_true, Bool.false_eq_true, if_false]

end
end

/-- What an instruction comes to whose meaning is the loop of WAITA at an address: by whether a way leads to the word, and whether it meets the
condition. -/
theorem waitAt_outcomes (hi : exec i s = issue i s m) (hm : m s is = waitAt s is c z sc (.s n) spad a b)
    (passes : alone (chkAt (s, []) is spad a z.bytes .read) = (s', .ok p w)) (there : p.there) (free : placeFree is.gang p z.bytes = true) :
    let r := waitLoad s' is z sc p
    let met := wCond c r.2.1 b || wokenAt is p
    let cut := cutOffAt s' is.ref is.gang is.gang.seq sc p z.bytes
    (cut = true → is.gang.body = none → Throws i s is (setWatch s' is none) (everyActive is 0x8007))
    ∧ (cut = false → r.2.2 = false → (met = true → Answers i s is (modGang (waitedAt r.1 is sc p) is.ref (fun y => wrS y n r.2.1)))
      ∧ (met = false → Waits i s is (setWatch r.1 is (some (watchOf a b p))) .sync)) := by
  have meaning := hm.trans (waitAt_of_ok passes there)
  exact ⟨fun cut whole => throws_of hi (meaning.trans (waitOn_cutOff free cut whole)), fun reached good =>
    ⟨fun met => answers_of i s is _ m hi (meaning.trans (waitOn_returns free reached good met)),
      fun unmet => waits_of hi (meaning.trans (waitOn_waits free reached good unmet))⟩⟩

/-! ### WAITA (R248) -/

section
variable (active : (activeLanes is.gang is.q).isEmpty = false)
include active

theorem waita_early {d : Opd} {v : Watch} (watching : is.q.watch = some v) (early : v.due = false) :
    Waits (.waita c z sc d idx rc cmp disp) s is s .sync := by
  refine waits_of (exec_waita c z sc d idx rc cmp disp s) ?_
  simp only [active, watching, early, Bool.false_eq_true, if_false]

/-- A WAITA that is due loads at the address that its watch keeps. -/
theorem waita_due {d : Opd} {v : Watch} (watching : is.q.watch = some v) (due : v.due = true) :
    ∃ m, exec (.waita c z sc d idx rc cmp disp) s = issue (.waita c z sc d idx rc cmp disp) s m
      ∧ m s is = waitAt s is c z sc d v.scr v.addr v.cmp := by
  refine ⟨_, exec_waita c z sc d idx rc cmp disp s, ?_⟩
  simp only [active, watching, due, Bool.false_eq_true, if_false, if_true]

/-- A WAITA that issues first reads its record and operands. -/
theorem waita_first {d : Opd} {e : Int} (first : is.q.watch = none) (he : recIndex (rdSrc s is ⟨idx, .u32, []⟩ 0) disp = e) (low : 0 ≤ e)
    (high : e < (recExtent (recOf is rc) : Int)) :
    ∃ m, exec (.waita c z sc d idx rc cmp disp) s = issue (.waita c z sc d idx rc cmp disp) s m
      ∧ m s is = waitAt s is c z sc d (recOf is rc).spad (recAddr (recOf is rc) e.toNat) (rdSrc s is ⟨cmp, sizeTy z, []⟩ 0) := by
  have within : ¬(e < 0 ∨ e ≥ (recExtent (recOf is rc) : Int)) := by omega
  refine ⟨_, exec_waita c z sc d idx rc cmp disp s, ?_⟩
  simp only [active, first, he, within, Bool.false_eq_true, if_false]

theorem waita_beyond {d : Opd} {e : Int} (first : is.q.watch = none) (he : recIndex (rdSrc s is ⟨idx, .u32, []⟩ 0) disp = e)
    (beyond : e < 0 ∨ (recExtent (recOf is rc) : Int) ≤ e) (whole : is.gang.body = none) :
    Throws (.waita c z sc d idx rc cmp disp) s is s (everyActive is 0x8001) := by
  refine throws_of (exec_waita c z sc d idx rc cmp disp s) ?_
  simp only [active, first, he, ge_iff_le, beyond, Bool.false_eq_true, if_false, if_true, uniThrow_of_noBody whole]

/-! ### WAKE (R249) -/

theorem wake_outcomes (passes : alone (chkRec (s, []) (outOfBody is) (recOf is rc) (recIndex (rdSrc s is ⟨idx, .u32, []⟩ 0) disp) 1 .read)
    = (s', .ok p w)) (there : p.there) :
    (wakeHeld is p = false → Answers (.wake sc idx rc disp) s is (wokenState s' is p))
    ∧ (wakeHeld is p = true → Waits (.wake sc idx rc disp) s is s' .sync) := by
  cases p with
  | page f g v t => exact absurd rfl (there f g v t)
  | _ =>
    refine ⟨fun free => answers_of _ s is _ _ (exec_wake sc idx rc disp s) ?_, fun held => waits_of (exec_wake sc idx rc disp s) ?_⟩
    · simp only [active, passes, free, Bool.false_eq_true, if_false]
    · simp only [active, passes, held, Bool.false_eq_true, if_false, if_true]

end

/-- Settles O30: WAITA is its loop at the address that its record or its watch names, and QSTAT writes what the mapping gives it. -/
theorem orderFormsAnswer : Obligations.OrderFormsAnswer := by
  unfold Obligations.OrderFormsAnswer
  intro s is sc o idx cmp c z rc q k n disp full wa wk rec' e active loads
  refine ⟨answers_of _ s is _ _ (exec_fence sc o s) rfl, answers_of _ s is _ _ (exec_persist s) rfl, ?waitaNobody, ?wakeNobody,
    fun v on watching early => waita_early on watching early, fun v on watching due s' p w passes there free => ?due,
    fun on first low high s' p w passes there free => ?first, fun on first beyond whole => waita_beyond on first rfl beyond whole,
    fun s' p w on passes there => wake_outcomes on passes there, fun usable => ?qstat, fun unusable => ?qstatUnusable⟩
  case waitaNobody =>
    exact (Bool.eq_false_or_eq_true _).symm.imp_right fun nobody => answers_of _ s is _ _ (exec_waita c z sc (.s n) idx rc cmp disp s) (if_pos nobody)
  case wakeNobody =>
    exact (Bool.eq_false_or_eq_true _).symm.imp_right fun nobody => answers_of _ s is _ _ (exec_wake sc idx rc disp s) (if_pos nobody)
  case due =>
    obtain ⟨m, hi, hm⟩ := waita_due (c := c) (z := z) (sc := sc) (d := .s n) (idx := idx) (rc := rc) (cmp := cmp) (disp := disp) on watching due
    exact waitAt_outcomes hi hm passes there free
  case first =>
    obtain ⟨m, hi, hm⟩ := waita_first (c := c) (z := z) (sc := sc) (d := .s n) (cmp := cmp) on first rfl low high
    exact waitAt_outcomes hi hm passes there free
  case qstat => exact answers_of _ s is _ _ (exec_qstat full (.s n) q k s) (if_pos usable)
  case qstatUnusable =>
    exact answers_of _ s is _ _ (exec_qstat full (.s n) q k s) (if_neg (Bool.not_eq_true _ ▸ unusable))

end Sys2Proof.Machine
end


section
/-!
SETTLED: the events of the headframes (O56): queues, acceptance, completion entries, beats, spans and the lead. Each event's equation is a
lemma of its own for each branch of the event; the obligation puts them together.
-/

namespace Sys2Proof.Machine

/-! ### Acceptance and completion entries -/

theorem exec_launchAccept_of_room {s : State} (h : s.launches.length < 256) :
    exec .launchAccept s
      = .next (acceptFrom (serveOrder (lookAll s) (queuesWith (lookAll s) (ready (lookAll s)))) (lookAll s)) := by
  show execLaunchAccept s = _
  simp only [execLaunchAccept, ge_iff_le, Nat.not_le.2 h, if_false]

theorem exec_launchAccept_of_full {s : State} (h : 256 ≤ s.launches.length) : exec .launchAccept s = .next s := by
  show execLaunchAccept s = _
  simp only [execLaunchAccept, ge_iff_le, h, if_true]

theorem exec_completionWrite_of_running {s : State} {k : Nat} {l : Launch} (hl : launch? s k = some l)
    (h : launchOver s k l = false) : exec (.completionWrite k) s = .next s := by
  show execCompletionWrite k s = _
  simp only [execCompletionWrite, hl, h, Bool.not_false, if_true]

section
variable {s t : State} {k : Nat} {l l' : Launch} {ps : List (Nat × Nat)}

theorem exec_completionWrite_of_written (hl : launch? s k = some l) (h : launchOver s k l = true)
    (hl' : launch? (settleHome s) k = some l')
    (hp : hfLocate (settleHome s) l'.queue l'.ctx (some k) true (pagePieces l'.compl 1024) = .ok t ps) :
    exec (.completionWrite k) s = .next (entryWritten t k l' ps) := by
  show execCompletionWrite k s = _
  simp only [execCompletionWrite, hl, h, hl', hp, Option.getD_some, Bool.not_true, Bool.false_eq_true, if_false]

theorem exec_completionWrite_of_lost (hl : launch? s k = some l) (h : launchOver s k l = true)
    (hl' : launch? (settleHome s) k = some l')
    (hp : hfLocate (settleHome s) l'.queue l'.ctx (some k) true (pagePieces l'.compl 1024) = .bad t) :
    exec (.completionWrite k) s = .next (entryLost t k l') := by
  show execCompletionWrite k s = _
  simp only [execCompletionWrite, hl, h, hl', hp, Option.getD_some, Bool.not_true, Bool.false_eq_true, if_false]

end

/-! ### Beats and spans -/

/-- At a beat end the batches close, over a merge that was still under way, and a new length of the beat is to be written. -/
theorem exec_beatEnd_of_end {s : State} (h : s.cycle.toNat % 2 ^ s.beat.toNat = 0) :
    exec .beatEnd s = .next (if (batchesClosed (if s.exchanging then mergedState s else s)).beatNext.isSome
      then soon (batchesClosed (if s.exchanging then mergedState s else s)) .beatWrite
      else batchesClosed (if s.exchanging then mergedState s else s)) := by
  show execBeatEnd s = _
  simp only [execBeatEnd, ne_eq, h, not_true_eq_false, if_false]

theorem exec_beatWrite_of_end {s : State} {b : W32} (hb : s.beatNext = some b) (h : s.cycle.toNat % 2 ^ s.beat.toNat = 0) :
    exec .beatWrite s = .next { s with beat := b, beatNext := none } := by
  show execBeatWrite s = _
  simp only [execBeatWrite, hb, h, if_true]

theorem exec_mergeComplete_of_exchanging {s : State} (h : s.exchanging = true) :
    exec .mergeComplete s = .next (mergedState s) := by
  show execMergeComplete s = _
  simp only [execMergeComplete, h, if_true]

theorem exec_lbarCountExchange_of_span {s : State} {k n modules : Nat} {l : Launch} (hl : launch? s k = some l)
    (hs : l.span ≠ none) (hn : n < 4) :
    exec (.lbarCountExchange k n modules) s
      = .next (lbarRelease (modLaunch s k (fun l => { l with spanArr := Tab.set 0 l.spanArr n modules })) k n) := by
  show execLbarCountExchange k n modules s = _
  simp only [execLbarCountExchange, hl, Option.isSome_iff_ne_none.2 hs, hn, and_self, if_true]

/-! ### Heartbeats and the lead -/

/-- The dies once a heartbeat has been looked for at each of them. -/
def beatsCounted (s : State) (missed : BitVec 4) : State :=
  [0, 1, 2, 3].foldl (fun t d => modDie t d (beatMissed missed s.lead d)) s

section
variable {s : State} {missed : BitVec 4}

theorem exec_heartbeat_of_lead_present (h : missed.getLsbD s.lead = false) :
    exec (.heartbeat missed) s = .next { beatsCounted s missed with missed := 0 } := by
  show execHeartbeat missed s = _
  simp only [execHeartbeat, h, Bool.false_eq_true, if_false, beatsCounted]

/-- A miss of the lead's that is not the fourth is counted. -/
theorem exec_heartbeat_of_lead_missed (h : missed.getLsbD s.lead = true) (hm : s.missed < 3) :
    exec (.heartbeat missed) s = .next { beatsCounted s missed with missed := s.missed + 1 } := by
  have hfew : ¬ s.missed + 1 ≥ 4 := by omega
  show execHeartbeat missed s = _
  simp only [execHeartbeat, h, if_true, hfew, if_false, beatsCounted]

/-- The lead's fourth miss in a row brings the failover. -/
theorem exec_heartbeat_of_lead_lost (h : missed.getLsbD s.lead = true) (hm : 3 ≤ s.missed) :
    exec (.heartbeat missed) s = .next (soon { beatsCounted s missed with missed := s.missed + 1 } .failover) := by
  have hfour : s.missed + 1 ≥ 4 := by omega
  show execHeartbeat missed s = _
  simp only [execHeartbeat, h, if_true, hfour, beatsCounted]

/-- The lead goes to the first die whose headframe has not failed. -/
theorem exec_failover_of_next {d : Nat} (hm : 4 ≤ s.missed)
    (hd : [0, 1, 2, 3].find? (fun d => !(Tab.get Die.reset (modDie s s.lead (fun d => { d with failed := true })).dies d).failed)
      = some d) :
    exec .failover s = .next (raiseEvent (rereadEntries
      { modDie s s.lead (fun d => { d with failed := true }) with
          lead := d
          missed := (Tab.get Die.reset (modDie s s.lead (fun d => { d with failed := true })).dies d).missed }) 7 d) := by
  show execFailover s = _
  simp only [execFailover, Nat.not_lt.2 hm, if_false, hd]

end

/-- Settles O56: the events of tail reads and the dependence watch are their definitions; the others by the branch that the premises
choose. -/
theorem queueEvents : Obligations.QueueEvents := by
  unfold Obligations.QueueEvents
  intro s t q k n modules d l l' ps missed b
  exact ⟨rfl, rfl, rfl, exec_launchAccept_of_room, exec_launchAccept_of_full, exec_completionWrite_of_running,
    exec_completionWrite_of_written, exec_completionWrite_of_lost, exec_beatEnd_of_end, exec_beatWrite_of_end,
    exec_mergeComplete_of_exchanging, exec_lbarCountExchange_of_span, exec_heartbeat_of_lead_present, exec_heartbeat_of_lead_missed,
    exec_heartbeat_of_lead_lost, exec_failover_of_next⟩

end Sys2Proof.Machine
end


section
/-!
SETTLED: the events of claims, translation invalidation, ownership and page requests (O57): one equation for each branch of an event that
the obligation names.
-/

namespace Sys2Proof.Machine

/-! ### Claims and the event ring -/

theorem exec_claimDeadline_of_due {s : State} {e : Nat} (h : (claim s e).state = 1) (hd : (claim s e).deadline ≤ s.cycle.toNat) :
    exec (.claimDeadline e) s = .next (deliverClaim s e true false 2) := by
  show execClaimDeadline e s = _
  simp only [execClaimDeadline, h, hd, and_self, if_true]

theorem exec_eventRingWrite_of_open {s : State} {e : Nat} {es : List Nat} (hw : s.ring.waiting = e :: es)
    (h : eventRingOpen s = true) : exec .eventRingWrite s = .next (eventWritten s e es) := by
  show execEventRingWrite s = _
  simp only [execEventRingWrite, hw, h, if_true]

/-! ### Translation invalidation -/

theorem exec_tinvGo_of_idle {s : State} (h : s.tinv.busy = false) : exec .tinvGo s = .next (tinvStart s) := by
  show execTinvGo s = _
  simp only [execTinvGo, h, Bool.false_eq_true, if_false]

/-- Does a cached translation that the invalidation drops hold the frame of an address in a context? -/
def tinvHolds (s : State) (ctx pa : Nat) : Bool := (s.xlats.filter (tinvDrops s.tinv)).any (fun x => x.ctx == ctx && xlatHolds x pa)

/-- The state with the covered translations dropped from what waiting instructions have kept. -/
def tinvKept (s : State) : State := (allGangs s).foldl (fun s g => dropPages s g.1 (tinvDrops s.tinv)) s

theorem exec_tinvDone_of_quiet {s : State} (hb : s.tinv.busy = true)
    (hg : (allGangs s).any (fun g => onTheWay g.2 (tinvHolds s (ctxOf s g.1))) = false) (hc : copyOnTheWay s (tinvHolds s) = false) :
    exec .tinvDone s = .next { tinvKept s with
      xlats := (tinvKept s).xlats.filter (fun x => !tinvDrops (tinvKept s).tinv x), tinv := { (tinvKept s).tinv with busy := false } } := by
  have quiet : ((allGangs s).any (fun g => onTheWay g.2 (tinvHolds s (ctxOf s g.1))) || copyOnTheWay s (tinvHolds s)) = false := by
    rw [hg, hc, Bool.or_false]
  show execTinvDone s = _
  unfold tinvHolds at quiet
  simp only [execTinvDone, hb, Bool.not_true, Bool.false_eq_true, if_false, quiet, tinvKept]

/-! ### Ownership -/

theorem ownership_marks {s : State} {block : Nat} (h : s.ownreq.marked = some block) :
    (s.ownreq.marked != some block) = false := by
  rw [h, bne_self_eq_false]

theorem exec_ownToHostFlip_of_quiet {s : State} {block : Nat} (hd : s.ownreq.dir = false) (hm : s.ownreq.marked = some block)
    (hg : (allGangs s).any (fun g => onTheWay g.2 (inBlock block)) = false) (hc : copyOnTheWay s (fun _ pa => inBlock block pa) = false) :
    exec (.ownToHostFlip block) s = .next (ownNext { flushBlock s block with
      hostDir := (flushBlock s block).hostDir.filter (fun l => l / 32 != block)
      hostOwned := (flushBlock s block).hostOwned ++ [block] }) := by
  show execOwnToHostFlip block s = _
  simp only [execOwnToHostFlip, hd, ownership_marks hm, hg, hc, Bool.or_false, Bool.false_eq_true, if_false]

/-- The state with the bytes of the block that level two holds of the host's written back, and its far lines dropped. -/
def blockDropped (s : State) (block : Nat) : State :=
  (blockLines block).foldl farDrop ((s.hcopy.filter (fun p => inBlock block p.1)).foldl (fun s p => homeWriteBack s p.1) s)

/-- The state with the host's dirty bytes of the block written over that. -/
def blockReturned (s : State) (block : Nat) (dirty : List (Nat × Byte)) : State :=
  (dirty.filter (fun p => inBlock block p.1)).foldl (fun s p => sysWrite s p.1 p.2) (blockDropped s block)

theorem exec_ownToDeviceFlip_of_marked {s : State} {block : Nat} (dirty : List (Nat × Byte)) (hd : s.ownreq.dir = true)
    (hm : s.ownreq.marked = some block) :
    exec (.ownToDeviceFlip block dirty) s = .next (ownNext { blockReturned s block dirty with
      hostOwned := (blockReturned s block dirty).hostOwned.filter (fun b => b != block) }) := by
  show execOwnToDeviceFlip block dirty s = _
  simp only [execOwnToDeviceFlip, hd, ownership_marks hm, Bool.not_true, Bool.or_false, Bool.false_eq_true, if_false, blockReturned,
    blockDropped]

/-! ### Page requests -/

theorem exec_pageRequestWrite_of_open {s : State} {fn tag : Nat} {r : PageReq}
    (hr : s.pageReqs.find? (fun r => r.fn == fn && r.tag.isNone && r.answer.isNone) = some r) (ho : pageRingOpen s fn = true)
    (ht : (freeTags s fn)[(Config.freeValue s.fresh).toNat % (freeTags s fn).length]? = some tag) :
    exec (.pageRequestWrite fn) s = .next (pageWritten (freshen s) fn r tag) := by
  show execPageRequestWrite fn s = _
  simp only [execPageRequestWrite, hr, ht, ho, Bool.not_true, Bool.false_eq_true, if_false]

theorem exec_pageReply_of_known {s : State} {fn tag stat : Nat} {r : PageReq} (hs : stat ≤ 1)
    (hr : s.pageReqs.find? (fun r => r.fn == fn && r.tag == some tag) = some r) :
    exec (.pageReply fn tag stat) s = .next (answered (r.waiters.foldl (answerNotice tag) s) r (stat == 1)) := by
  show execPageReply fn tag stat s = _
  simp only [execPageReply, gt_iff_lt, Nat.not_lt.2 hs, if_false, hr]

theorem exec_pageReply_of_unknown {s : State} {fn tag stat : Nat}
    (hr : s.pageReqs.find? (fun r => r.fn == fn && r.tag == some tag) = none) (hs : stat ≤ 1) :
    exec (.pageReply fn tag stat) s = .next { s with late := s.late ++ [.replyBad fn] } := by
  show execPageReply fn tag stat s = _
  simp only [execPageReply, gt_iff_lt, Nat.not_lt.2 hs, if_false, hr]

/-- The state with the record of a PAGEREQ gone. -/
def pageOpGone (s : State) (c op : Nat) : State := { s with pageOps := s.pageOps.filter (fun o => !(o.crew == c && o.op == op)) }

theorem exec_pagereqResolve_of_answered {s : State} {c op : Nat} {p : PageOp}
    (hp : s.pageOps.find? (fun p => p.crew == c && p.op == op) = some p) (he : p.pages = []) :
    exec (.pagereqResolve c op) s = .next (if p.fault then resolveOp (pageOpGone s c op) c op .faulted (0x8002 * 2 ^ 16)
      else resolveOp (pageOpGone s c op) c op .ok 0) := by
  show execPagereqResolve c op s = _
  simp only [execPagereqResolve, hp, he, List.isEmpty_nil, Bool.not_true, Bool.false_eq_true, if_false, pageOpGone]

/-- Settles O57: the events of the handlers that wait for nothing are their definitions; the others by the branch that the premises
choose. -/
theorem hostEvents : Obligations.HostEvents := by
  unfold Obligations.HostEvents
  intro s e block fn tag stat c op es fwd dirty r p
  exact ⟨exec_claimDeadline_of_due, rfl, rfl, rfl, exec_eventRingWrite_of_open, exec_tinvGo_of_idle, exec_tinvDone_of_quiet, rfl,
    exec_ownToHostFlip_of_quiet, exec_ownToDeviceFlip_of_marked dirty, exec_pageRequestWrite_of_open, exec_pageReply_of_known,
    exec_pageReply_of_unknown, exec_pagereqResolve_of_answered⟩

end Sys2Proof.Machine
end


section
/-!
SETTLED: starts, resets, attestation, margining and self-test (O58): one equation for each branch of an event that the obligation names,
and of the attestation report its nonce.
-/

namespace Sys2Proof.Machine

/-! ### Starts and resets -/

theorem exec_functionLevelReset_of_function {s : State} {fn : Nat} (h1 : 1 ≤ fn) (h16 : fn ≤ 16) :
    exec (.functionLevelReset fn) s = .next (functionReset s fn) := by
  have inside : ¬ (fn < 1 ∨ fn > 16) := by omega
  show execFunctionLevelReset fn s = _
  simp only [execFunctionLevelReset, inside, if_false]

theorem exec_startCold_of_pending {s : State} (f : Option (Nat × Nat)) (bad : List Nat) (h : s.start.pending = some false) :
    exec (.startCold f bad) s = .next (startSteps (coldKeep s) false f bad) := by
  show execStartCold f bad s = _
  simp only [execStartCold, h, true_or, if_true]

theorem exec_startWarm_of_pending {s : State} (f : Option (Nat × Nat)) (bad : List Nat) (h : s.start.pending = some true)
    (hw : s.start.wfail ≠ 3) : exec (.startWarm f bad) s = .next (startSteps (warmKeep s) true f bad) := by
  show execStartWarm f bad s = _
  simp only [execStartWarm, h, hw, ne_eq, not_false_eq_true, and_self, if_true]

/-! ### Attestation -/

/-- Bytes written one by one from a base are read there. -/
theorem get_foldl_set_base {base n i : Nat} {byte : Nat → Byte} (t : Tab Byte) (hi : i < n) :
    Tab.get 0#8 ((List.range n).foldl (fun t j => Tab.set 0#8 t (base + j) (byte j)) t) (base + i) = byte i :=
  read_foldl_written (read := fun t => Tab.get 0#8 t (base + i)) (List.mem_range.2 hi) (fun _ => Tab.get_set_same _ _ _ _)
    (fun o _ ne _ => Tab.get_set_ne _ _ _ _ _ (by omega)) t

/-- A report that is done has the nonce in its first 64 bytes, and the memory is as before. -/
theorem exec_attestDone_of_going {s : State} (h : s.attestGo = true) :
    ∃ t, exec .attestDone s = .next t ∧ t.attestGo = false ∧ t.attestDone = true ∧ t.mem = s.mem
      ∧ ∀ i, i < 64 → Tab.get 0#8 t.attest (0x100 + i) = Tab.get 0#8 s.attest i := by
  show ∃ t, execAttestDone s = .next t ∧ _
  simp only [execAttestDone, h, Bool.not_true, Bool.false_eq_true, if_false]
  refine ⟨_, rfl, rfl, rfl, rfl, fun i hi => ?_⟩
  rw [get_foldl_set_base s.attest (show i < 320 by omega), if_pos hi]

/-! ### Margining, self-test and the supervisor -/

theorem exec_lmargGo_of_port {s : State} {port : Nat} (h : port ≤ 18) : exec (.lmargGo port) s = .next (lmargStart s port) := by
  show execLmargGo port s = _
  simp only [execLmargGo, h, if_true]

theorem exec_lmargScanDone_of_scan {s : State} {port : Nat} (errors : Nat) (h : (lmargOf s port).scan ≠ none) :
    exec (.lmargScanDone port errors) s = .next { s with
      lmarg := Tab.set Lmarg.reset s.lmarg port { lmargOf s port with scan := none, errors := min errors (2 ^ 32 - 1) }
      late := s.late ++ [.scanDone port] } := by
  have scanning : (lmargOf s port).scan.isNone = false := Option.isNone_eq_false_iff.2 (Option.isSome_iff_ne_none.2 h)
  show execLmargScanDone port errors s = _
  simp only [execLmargScanDone, scanning, Bool.false_eq_true, if_false]

section
variable {s : State} {core : Nat} {x : Core}

theorem exec_supervisorRestart_of_fault (hx : core? s core = some x) (h : x.svflt = true) :
    exec (.supervisorRestart core) s = .next (modCore (supForgets s core) core (fun x =>
      { x with svflt := false, sup := some ((x.sup.map (supAgain x.sventry)).getD (supGang x.sventry)) })) := by
  show execSupervisorRestart core s = _
  simp only [execSupervisorRestart, hx, h, if_true]

theorem exec_bistComplete_of_test {arr pat : Nat} (rows row : Nat) (hx : core? s core = some x) (h : x.bist = some (arr, pat)) :
    exec (.bistComplete core rows row) s
      = .next (raiseEvent (modGang (modCore (testedArray s core arr) core (fun x =>
          { x with
            bist := none
            bistres := BitVec.ofNat 64 (bistWord rows row % 2 ^ 48 + arr % 8 * 2 ^ 48 + pat % 16 * 2 ^ 52) })) (.sup core)
          (fun g => { g with groups := g.groups.map (fun q =>
            if q.waiting = .bist none then { q with waiting := .bist (some (BitVec.ofNat 64 (bistWord rows row))) } else q) })) 11 core) := by
  show execBistComplete core rows row s = _
  simp only [execBistComplete, hx, h]

end

/-- Settles O58: power-on and the attestation's start are their definitions; the others by the branch that the premises choose. -/
theorem startEvents : Obligations.StartEvents := by
  unfold Obligations.StartEvents
  intro s fn core port errors rows row arr pat f bad x
  exact ⟨exec_functionLevelReset_of_function, rfl, exec_startCold_of_pending f bad, exec_startWarm_of_pending f bad, rfl,
    exec_attestDone_of_going, exec_lmargGo_of_port, exec_lmargScanDone_of_scan errors, exec_supervisorRestart_of_fault,
    exec_bistComplete_of_test rows row⟩

end Sys2Proof.Machine
end


section
/-!
REFUTED: a store that leaves the buffer writes its bytes and no other (O52). The clause of the core point says that memory is as before where
the core has room for the bytes. A whole line of a ZFILL at that point is noted at its home slice too, as held zero-flagged (R203); the slice
makes room for the tag, and where it is full it may evict a line of host memory, whose dirty bytes then go to Y(x). In the counterexample the
slice of the line at 0x10000 holds 16,384 lines of host memory with one dirty byte each.
-/

namespace Sys2Proof.Machine
variable {s t : State} {a pa line l c n : Nat} {b : Byte} {e : StoreEnt}

/-! ### What lies beyond the core points -/

/-- Memory, the copies at the home points, level two, and the registers that a write to them is judged by. -/
def State.beyond (s : State) : Memory × Tab Copied × Tab L2Line × List Nat × Bool × Tab (W64 × W64) × Tab (BitVec 16) :=
  (s.mem, s.hcopy, s.l2, s.hostOwned, s.hostPortDown, s.regions, s.access)

theorem fields_of_beyond (h : t.beyond = s.beyond) : t.mem = s.mem ∧ t.hcopy = s.hcopy ∧ t.l2 = s.l2 ∧ t.hostOwned = s.hostOwned
    ∧ t.hostPortDown = s.hostPortDown ∧ t.regions = s.regions ∧ t.access = s.access := by
  simpa only [State.beyond, Prod.mk.injEq] using h

@[simp] theorem freshen_beyond (s : State) : (freshen s).beyond = s.beyond := rfl
@[simp] theorem countAt_beyond (s : State) (n unit k : Nat) : (countAt s n unit k).beyond = s.beyond := rfl
@[simp] theorem modCore_beyond (s : State) (c : Nat) (f : Core → Core) : (modCore s c f).beyond = s.beyond := rfl
@[simp] theorem modGang_beyond (s : State) (g : GRef) (f : Gang → Gang) : (modGang s g f).beyond = s.beyond := by cases g <;> rfl

theorem countHome_beyond (s : State) (c pa : Nat) : (countHome s c pa).beyond = s.beyond := by
  simp only [countHome, countSlice, countDie, apply_ite State.beyond, freshen_beyond, countAt_beyond, ite_self]

theorem countAccess_beyond (s : State) (c : Nat) (p : Point) (pa : Nat) : (countAccess s c p pa).beyond = s.beyond := by
  unfold countAccess
  split
  · split
    · rfl
    · exact (countHome_beyond _ _ _).trans (countAt_beyond _ _ _ _)
  · exact countHome_beyond _ _ _

theorem askLine_beyond (s : State) (g : GRef) (e : StoreEnt) (pa : Nat) : (askLine s g e pa).beyond = s.beyond := by
  unfold askLine
  split
  · rfl
  · exact (modGang_beyond _ _ _).trans (countAccess_beyond _ _ _ _)

/-! ### A core point with room takes the bytes of a store by itself -/

/-- A core with all of its banks in cache mode, and room for a number of bytes more. -/
def Roomy (s : State) (c n : Nat) : Prop := ∃ y, core? s c = some y ∧ y.modes = 0 ∧ y.cp.length + n ≤ 4096

theorem cacheLines_of_cacheMode {y : Core} (h : y.modes = 0) : cacheLines y = 4096 := by
  simp only [cacheLines, bankModeOf, h]
  decide

theorem room_of_roomy (h : Roomy s c n) : ∃ y, core? s c = some y ∧ y.cp.length + n ≤ cacheLines y := by
  obtain ⟨y, hy, hm, hn⟩ := h
  exact ⟨y, hy, by rwa [cacheLines_of_cacheMode hm]⟩

theorem atPoint_of_roomy (h : Roomy s c n) : atPoint s c .core = .core := by
  obtain ⟨y, hy, hm, -⟩ := h
  have cached : (List.range 32).any (fun b => bankModeOf y b == 0) = true := by
    simp only [bankModeOf, hm]
    decide
  simp only [atPoint, hy, Option.map_some, Option.getD_some, cached, if_true]

theorem coreRoom_of_roomy (h : Roomy s c (n + 1)) (pa : Nat) : coreRoom s c pa = s := by
  obtain ⟨y, hy, hm, hn⟩ := h
  have room : y.cp.length < cacheLines y := by
    rw [cacheLines_of_cacheMode hm]
    omega
  simp only [coreRoom, hy, room, decide_true, Bool.true_or, if_true]

theorem Tab.length_put_le {α : Type} (t : Tab α) (k : Nat) (x : α) : (Tab.put t k x).length ≤ t.length + 1 := by
  fun_induction Tab.put t k x <;> grind

/-- One byte of a store takes at most one place more, and leaves what lies beyond. -/
theorem coreDirty_of_roomy (h : Roomy s c (n + 1)) (pa : Nat) (b : Byte) (tied : Bool) :
    Roomy (coreDirty s c pa b tied) c n ∧ (coreDirty s c pa b tied).beyond = s.beyond := by
  rw [coreDirty, coreRoom_of_roomy h]
  refine ⟨?_, rfl⟩
  obtain ⟨y, hy, hm, hn⟩ := h
  have put := Tab.length_put_le y.cp pa ⟨b, true, tied || stillTied (Tab.find? y.cp pa)⟩
  rw [Roomy, core?_modCore, if_pos rfl, hy, Option.map_some]
  exact ⟨_, rfl, hm, (Nat.add_le_add_right put n).trans (by omega)⟩

theorem writeAt_core_of_roomy (h : Roomy s c (n + 1)) (pa : Nat) (b : Byte) (tied : Bool) :
    Roomy (writeAt s c .core pa b tied) c n ∧ (writeAt s c .core pa b tied).beyond = s.beyond := by
  simp only [writeAt, atPoint_of_roomy h]
  exact coreDirty_of_roomy h pa b tied

theorem foldl_writeAt_core_beyond {at_ : Byte × Nat → Nat} {tied : Byte × Nat → Bool} (bs : List (Byte × Nat))
    (h : Roomy s c bs.length) : (bs.foldl (fun s b => writeAt s c .core (at_ b) b.1 (tied b)) s).beyond = s.beyond := by
  induction bs generalizing s with
  | nil => rfl
  | cons b bs ih =>
    obtain ⟨roomy, kept⟩ := writeAt_core_of_roomy (n := bs.length) h (at_ b) b.1 (tied b)
    exact (ih roomy).trans kept

theorem storeAt_core_beyond {bs : List Byte} (g : GRef) (hm : homeIsMem s pa = true) (h : Roomy s (coreOf s g) bs.length) :
    (storeAt s g .core pa bs).beyond = s.beyond := by
  have roomy : Roomy s (coreOf s g) bs.zipIdx.length := by rwa [List.length_zipIdx]
  simp only [storeAt, hm, if_true, writeAtN]
  exact foldl_writeAt_core_beyond (at_ := fun b => pa + b.2) (tied := fun b => wholeElem pa bs.length && b.2 != 0) bs.zipIdx roomy

theorem mem_of_tabFind {α : Type} {tab : Tab α} {k : Nat} {x : α} (h : Tab.find? tab k = some x) : (k, x) ∈ tab := by
  induction tab with
  | nil => cases h
  | cons p tab ih =>
    obtain ⟨j, y⟩ := p
    rw [Tab.find?_cons] at h
    split at h
    · next same =>
      cases h
      exact same ▸ List.mem_cons_self
    · exact List.mem_cons_of_mem _ (ih h)

/-! ### A dirty byte at a home point reaches memory as its line is evicted -/

/-- What one step of a write-back does with a byte. -/
def byteOut (s : State) (a : Nat) : State :=
  match Tab.find? s.hcopy a with
  | some ⟨b, true, _⟩ => farPut s a b
  | _ => s

/-- The byte lies dirty at its home point. -/
def Unwritten (s : State) (a : Nat) (b : Byte) : Prop := ∃ tied, Tab.find? s.hcopy a = some ⟨b, true, tied⟩

/-- The byte is in memory, and its copy at the home point is clean. -/
def Written (s : State) (a : Nat) (b : Byte) : Prop := s.mem.read a = b ∧ Tab.find? s.hcopy a = some ⟨b, false, false⟩

/-- The byte is in memory, or will be when its copy is written back. -/
def Safe (s : State) (a : Nat) (b : Byte) : Prop := Unwritten s a b ∨ Written s a b

theorem written_congr (hm : t.mem = s.mem) (hh : t.hcopy = s.hcopy) (h : Written s a b) : Written t a b := by
  rw [Written, hm, hh]
  exact h

theorem safe_congr (hm : t.mem = s.mem) (hh : t.hcopy = s.hcopy) (h : Safe s a b) : Safe t a b := by
  rw [Safe, Unwritten, Written, hm, hh]
  exact h

theorem farPut_bytes (s : State) (pa : Nat) (b : Byte) :
    (farPut s pa b).mem = s.mem.write pa b ∧ (farPut s pa b).hcopy = Tab.upd s.hcopy pa (fun _ => ⟨b, false, false⟩) := by
  have unflagged (u : State) : (unflagFar u pa b).mem = u.mem ∧ (unflagFar u pa b).hcopy = u.hcopy := by
    unfold unflagFar
    split <;> exact ⟨rfl, rfl⟩
  obtain ⟨hm, hh⟩ := unflagged { s with mem := s.mem.write pa b }
  unfold farPut
  split <;> exact ⟨hm, congrArg (fun t => Tab.upd t pa (fun _ => (⟨b, false, false⟩ : Copied))) hh⟩

theorem byteOut_of_unwritten (h : Unwritten s a b) : byteOut s a = farPut s a b := by
  obtain ⟨tied, h⟩ := h
  simp only [byteOut, h]

theorem written_byteOut_self (h : Unwritten s a b) : Written (byteOut s a) a b := by
  rw [byteOut_of_unwritten h, Written, (farPut_bytes s a b).1, (farPut_bytes s a b).2]
  obtain ⟨tied, h⟩ := h
  exact ⟨Memory.read_write_same _ _ _, by rw [Tab.find?_upd, if_pos rfl, h, Option.map_some]⟩

/-- A step at another byte leaves this one's value in memory and its copy. -/
theorem byteOut_other (h : a ≠ pa) :
    (byteOut s pa).mem.read a = s.mem.read a ∧ Tab.find? (byteOut s pa).hcopy a = Tab.find? s.hcopy a := by
  unfold byteOut
  split
  · rw [(farPut_bytes _ _ _).1, (farPut_bytes _ _ _).2]
    exact ⟨Memory.read_write_ne _ _ _ _ h, by rw [Tab.find?_upd, if_neg h]⟩
  · exact ⟨rfl, rfl⟩

theorem written_byteOut (pa : Nat) (h : Written s a b) : Written (byteOut s pa) a b := by
  by_cases same : a = pa
  · subst same
    have clean : byteOut s a = s := by simp only [byteOut, h.2]
    rwa [clean]
  · obtain ⟨hm, hh⟩ := byteOut_other (s := s) same
    rwa [Written, hm, hh]

theorem safe_byteOut (pa : Nat) (h : Safe s a b) : Safe (byteOut s pa) a b := by
  rcases h with dirty | written
  · by_cases same : a = pa
    · subst same
      exact .inr (written_byteOut_self dirty)
    · left
      rwa [Unwritten, (byteOut_other same).2]
  · exact .inr (written_byteOut pa written)

/-- A step that makes a byte written, among steps that keep it safe and keep it written, makes it written in the end. -/
theorem written_foldl {f : State → Nat → State} {as : List Nat} (ha : a ∈ as) (keeps : ∀ t x, Safe t a b → Safe (f t x) a b)
    (stays : ∀ t x, Written t a b → Written (f t x) a b) (hit : ∀ t, Safe t a b → Written (f t a) a b) (h : Safe s a b) :
    Written (as.foldl f s) a b := by
  obtain ⟨before, after, rfl⟩ := List.append_of_mem ha
  rw [List.foldl_append, List.foldl_cons]
  have safe : Safe (before.foldl f s) a b := List.foldlRecOn (motive := fun t => Safe t a b) before f h fun t ht x _ => keeps t x ht
  exact List.foldlRecOn (motive := fun t => Written t a b) after f (hit _ safe) fun t ht x _ => stays t x ht

theorem countPort_mem_hcopy (s : State) (pa : Nat) (out : Bool) :
    (countPort s pa out).mem = s.mem ∧ (countPort s pa out).hcopy = s.hcopy := by
  have counted (n : Nat) : (countWire s n out).mem = s.mem ∧ (countWire s n out).hcopy = s.hcopy := by
    simp only [countWire, countDev, freshen_mem, freshen_hcopy, countAt_mem, countAt_hcopy, and_self]
  unfold countPort
  split
  · exact counted _
  · exact counted _
  · split
    · exact ⟨rfl, rfl⟩
    · exact counted _
  · split
    · exact ⟨rfl, rfl⟩
    · exact counted _
  · exact ⟨rfl, rfl⟩

/-- The bytes that go out with a dirty byte, one by one. -/
def runOut (s : State) (pa : Nat) : State := (runOf (Tab.find? s.hcopy) pa).foldl byteOut (countPort s pa true)

theorem homeWriteBack_of_unwritten (h : Unwritten s pa b) :
    (homeWriteBack s pa).mem = (runOut s pa).mem ∧ (homeWriteBack s pa).hcopy = (runOut s pa).hcopy := by
  obtain ⟨tied, h⟩ := h
  have flagged (t : State) (p : Bool) : (if p then setZeroFar t (pa / 128) true else t).mem = t.mem
      ∧ (if p then setZeroFar t (pa / 128) true else t).hcopy = t.hcopy := by
    split <;> exact ⟨rfl, rfl⟩
  simp only [homeWriteBack, h]
  exact flagged (runOut s pa) _

theorem homeWriteBack_of_not_unwritten (h : ∀ b, ¬ Unwritten s pa b) : homeWriteBack s pa = s := by
  unfold homeWriteBack
  split
  · next b tied hb => exact absurd ⟨tied, hb⟩ (h b)
  · rfl

theorem safe_homeWriteBack (pa : Nat) (h : Safe s a b) : Safe (homeWriteBack s pa) a b := by
  by_cases dirty : ∃ v, Unwritten s pa v
  · obtain ⟨v, dirty⟩ := dirty
    obtain ⟨hm, hh⟩ := homeWriteBack_of_unwritten dirty
    obtain ⟨cm, ch⟩ := countPort_mem_hcopy s pa true
    exact safe_congr hm hh (List.foldlRecOn (motive := fun t => Safe t a b) _ byteOut (safe_congr cm ch h) fun _ ht x _ => safe_byteOut x ht)
  · rwa [homeWriteBack_of_not_unwritten (not_exists.1 dirty)]

theorem written_homeWriteBack (pa : Nat) (h : Written s a b) : Written (homeWriteBack s pa) a b := by
  by_cases dirty : ∃ v, Unwritten s pa v
  · obtain ⟨v, dirty⟩ := dirty
    obtain ⟨hm, hh⟩ := homeWriteBack_of_unwritten dirty
    obtain ⟨cm, ch⟩ := countPort_mem_hcopy s pa true
    exact written_congr hm hh
      (List.foldlRecOn (motive := fun t => Written t a b) _ byteOut (written_congr cm ch h) fun _ ht x _ => written_byteOut x ht)
  · rwa [homeWriteBack_of_not_unwritten (not_exists.1 dirty)]

/-- A byte is of its own run. -/
theorem mem_runOf (f : Nat → Option Copied) (a : Nat) : a ∈ runOf f a := by
  have inBlock : a ∈ blockOf a := List.mem_map.2 ⟨a % 8, List.mem_range.2 (Nat.mod_lt _ (by decide)), by omega⟩
  refine List.mem_filter.2 ⟨inBlock, List.all_eq_true.2 fun k _ => ?_⟩
  rcases Nat.lt_or_ge a k with above | below
  · simp [above]
  · simp [below]

theorem written_homeWriteBack_self (h : Safe s a b) : Written (homeWriteBack s a) a b := by
  rcases h with dirty | written
  · obtain ⟨hm, hh⟩ := homeWriteBack_of_unwritten dirty
    obtain ⟨cm, ch⟩ := countPort_mem_hcopy s a true
    refine written_congr hm hh (written_foldl (mem_runOf _ a) (fun t x => safe_byteOut x) (fun t x => written_byteOut x) (fun t ht => ?_)
      (safe_congr cm ch (.inl dirty)))
    exact ht.elim written_byteOut_self (written_byteOut a)
  · exact written_homeWriteBack a written

theorem mem_lineAddrs (line : Nat) : 128 * line ∈ lineAddrs (128 * line) :=
  List.mem_map.2 ⟨0, List.mem_range.2 (by decide), by omega⟩

/-- An evicted line whose way is open leaves the first of its bytes, where that is dirty, in memory. -/
theorem farEvict_read (way : wayDown s (128 * line) = none) (h : Unwritten s (128 * line) b) :
    (farEvict s line).mem.read (128 * line) = b := by
  have dirty : farDirty s line = true := by
    obtain ⟨tied, h⟩ := h
    refine List.any_eq_true.2 ⟨_, mem_of_tabFind h, ?_⟩
    simp
  have settled : Written (farSettle s line) (128 * line) b := by
    simp only [farSettle, way]
    exact written_foldl (mem_lineAddrs line) (fun t x => safe_homeWriteBack x) (fun t x => written_homeWriteBack x)
      (fun t => written_homeWriteBack_self) (.inl h)
  rw [farEvict, dirty, if_pos rfl]
  exact settled.1

/-! ### A slice full of lines of host memory -/

/-- A field of an address, of `n` values, with `p` values below it and other bits above. -/
theorem bits_of_field {x hi lo p n r d m : Nat} (below : 2 ^ lo = p) (width : 2 ^ (hi + 1 - lo) = n)
    (h : x = r + p * (d + n * m)) (hr : r < p) (hd : d < n) : bits x hi lo = d := by
  rw [bits, width, below, h, Nat.add_mul_div_left _ _ (below ▸ Nat.two_pow_pos lo), Nat.div_eq_of_lt hr, Nat.zero_add, Nat.add_mul_mod_self_left,
    Nat.mod_eq_of_lt hd]

theorem place_lt {r p d n : Nat} (hr : r < p) (hd : d < n) : r + p * d < p * n :=
  calc r + p * d < p + p * d := Nat.add_lt_add_right hr _
    _ = p * (d + 1) := by rw [Nat.mul_succ, Nat.add_comm]
    _ ≤ p * n := Nat.mul_le_mul_left _ hd

/-- The bits above a field follow it. -/
theorem next_field {x p n r d m : Nat} (h : x = r + p * (d + n * m)) : x = r + p * d + p * n * m := by
  rw [h, Nat.mul_add, Nat.mul_assoc, Nat.add_assoc]

/-- A line of host memory, field by field: `a` is its place in an ownership block, and `v` and `w` stand in two fields each of those that
make the number of its home slice (R201). -/
def hostLine (a v w : Nat) : Nat := a + 32 * (v + 128 * (v + 128 * (w + 128 * (w + 128 * (0 + 128 * (16 + 32 * 0))))))

theorem fields_hostLine {a v w : Nat} (ha : a < 32) (hv : v < 128) (hw : w < 128) :
    bits (128 * hostLine a v w) 18 12 = v ∧ bits (128 * hostLine a v w) 25 19 = v ∧ bits (128 * hostLine a v w) 32 26 = w
      ∧ bits (128 * hostLine a v w) 39 33 = w ∧ bits (128 * hostLine a v w) 46 40 = 0 ∧ bits (128 * hostLine a v w) 51 47 = 16 := by
  have r0 : 0 + 128 * a < 128 * 32 := place_lt (by decide) ha
  have h0 : 128 * hostLine a v w = 0 + 128 * a + 128 * 32 * (v + 128 * (v + 128 * (w + 128 * (w + 128 * (0 + 128 * (16 + 32 * 0)))))) :=
    next_field (Nat.zero_add _).symm
  have r1 := place_lt r0 hv
  have r2 := place_lt r1 hv
  have r3 := place_lt r2 hw
  have r4 := place_lt r3 hw
  have r5 := place_lt r4 (show 0 < 128 by decide)
  have h1 := next_field h0
  have h2 := next_field h1
  have h3 := next_field h2
  have h4 := next_field h3
  have h5 := next_field h4
  exact ⟨bits_of_field (by norm_num) rfl h0 r0 hv, bits_of_field (by norm_num) rfl h1 r1 hv, bits_of_field (by norm_num) rfl h2 r2 hw,
    bits_of_field (by norm_num) rfl h3 r3 hw, bits_of_field (by norm_num) rfl h4 r4 (by decide),
    bits_of_field (by norm_num) rfl h5 r5 (by decide)⟩

/-- The doubled fields cancel, so that the lines lie at one slice. -/
theorem homeSlice_hostLine {a v w : Nat} (ha : a < 32) (hv : v < 128) (hw : w < 128) : homeSlice (128 * hostLine a v w) = 16 := by
  obtain ⟨b0, b1, b2, b3, b4, b5⟩ := fields_hostLine ha hv hw
  rw [homeSlice, b0, b1, b2, b3, b4, b5]
  show 0 ^^^ v ^^^ v ^^^ w ^^^ w ^^^ 0 ^^^ 16 = 16
  rw [Nat.zero_xor, Nat.xor_self, Nat.zero_xor, Nat.xor_self, Nat.zero_xor, Nat.zero_xor]

theorem hostLine_inj {a b v w x y : Nat} (ha : a < 32) (hb : b < 32) (hv : v < 128) (hw : w < 128) (hx : x < 128) (hy : y < 128)
    (h : hostLine a v w = hostLine b x y) : a = b ∧ v = x ∧ w = y := by
  obtain ⟨-, second, third, -⟩ := fields_hostLine ha hv hw
  obtain ⟨-, second', third', -⟩ := fields_hostLine hb hx hy
  rw [h] at second third
  obtain rfl := second.symm.trans second'
  obtain rfl := third.symm.trans third'
  exact ⟨Nat.add_right_cancel h, rfl, rfl⟩

/-- The lines of host memory, in ascending order, that fill a slice. -/
def farLine (i : Nat) : Nat := hostLine (i % 32) (i / 32 % 128) (i / 4096)

/-- As many of them as a slice holds. -/
def farLines : List Nat := (List.range 16384).map farLine

/-- One dirty byte of each, the first. -/
def farHeld : Tab Copied := farLines.map (fun l => (128 * l, ⟨1, true, false⟩))

theorem homeSlice_farLine {i : Nat} (hi : i < 16384) : homeSlice (128 * farLine i) = 16 :=
  homeSlice_hostLine (Nat.mod_lt _ (by decide)) (Nat.mod_lt _ (by decide)) (by omega)

theorem farLine_inj {i j : Nat} (hi : i < 16384) (hj : j < 16384) (h : farLine i = farLine j) : i = j := by
  obtain ⟨low, middle, high⟩ := hostLine_inj (Nat.mod_lt _ (by decide)) (Nat.mod_lt _ (by decide)) (Nat.mod_lt _ (by decide)) (by omega)
    (Nat.mod_lt _ (by decide)) (by omega) h
  omega

theorem farLines_nodup : farLines.Nodup :=
  List.Nodup.map_on (fun _ hi _ hj => farLine_inj (List.mem_range.1 hi) (List.mem_range.1 hj)) List.nodup_range

theorem farLines_length : farLines.length = 16384 := by rw [farLines, List.length_map, List.length_range]

theorem regionOf_of_hostRange (lo : 0x8000000000000 ≤ pa) (hi : pa < 0x10000000000000) : regionOf pa = .host := by
  rw [regionOf, if_neg (by omega), if_neg (by omega), if_neg (by omega), if_neg (by omega), if_pos ⟨lo, hi⟩]

theorem farLine_range (h : l ∈ farLines) : 2 ^ 44 ≤ l ∧ l < 2 ^ 45 := by
  obtain ⟨i, hi, rfl⟩ := List.mem_map.1 h
  have hw : i / 4096 < 4 := Nat.div_lt_of_lt_mul (List.mem_range.1 hi)
  have hv : i / 32 % 128 < 128 := Nat.mod_lt _ (by decide)
  have ha : i % 32 < 32 := Nat.mod_lt _ (by decide)
  unfold farLine hostLine
  generalize i / 4096 = w at hw ⊢
  generalize i / 32 % 128 = v at hv ⊢
  generalize i % 32 = a at ha ⊢
  omega

theorem region_of_farLine (h : l ∈ farLines) : regionOf (128 * l) = .host := by
  obtain ⟨lo, hi⟩ := farLine_range h
  exact regionOf_of_hostRange (Nat.mul_le_mul_left 128 lo) (Nat.mul_lt_mul_of_pos_left hi (by decide))

theorem slice_of_farLine (h : l ∈ farLines) : homeSlice (128 * l) = 16 := by
  obtain ⟨i, hi, rfl⟩ := List.mem_map.1 h
  exact homeSlice_farLine (List.mem_range.1 hi)

/-- A line of device memory is none of them. -/
theorem notMem_farLines (h : line < 2 ^ 44) : line ∉ farLines := fun hm => absurd (farLine_range hm).1 (Nat.not_le.2 h)

/-- One step of the list of a table's lines. -/
def addLine (ls : List Nat) (line : Nat) : List Nat :=
  match ls with
  | l :: _ => if l = line then ls else line :: ls
  | [] => [line]

theorem tabLines_eq_foldl {α : Type} (tab : Tab α) : tabLines tab = tab.foldl (fun ls p => addLine ls (p.1 / 128)) [] := rfl

theorem addLine_of_new {ls : List Nat} (h : line ∉ ls) : addLine ls line = line :: ls := by
  cases ls with
  | nil => rfl
  | cons l ls => exact if_neg fun (same : l = line) => h (same ▸ List.mem_cons_self)

/-- A table with the first byte of each of some lines holds those lines. -/
theorem tabLines_map_first {α : Type} (x : α) (ls : List Nat) (h : ls.Nodup) :
    tabLines (ls.map (fun l => (128 * l, x))) = ls.reverse := by
  suffices onto : ∀ acc : List Nat, (ls ++ acc).Nodup → ls.foldl addLine acc = ls.reverse ++ acc by
    simpa [tabLines_eq_foldl, List.foldl_map] using onto [] (by simpa using h)
  clear h
  induction ls with
  | nil => exact fun _ _ => rfl
  | cons m ms ih =>
    intro acc once
    obtain ⟨new, others⟩ := List.nodup_cons.1 once
    rw [List.foldl_cons, addLine_of_new fun hm => new (List.mem_append_right _ hm), ih (m :: acc) (List.nodup_middle.2 once),
      List.reverse_cons, List.append_assoc, List.singleton_append]

theorem find?_farHeld (h : l ∈ farLines) : Tab.find? farHeld (128 * l) = some ⟨1, true, false⟩ := by
  unfold farHeld
  generalize farLines = ls at h
  induction ls with
  | nil => cases h
  | cons m ms ih =>
    rw [List.map_cons, Tab.find?_cons]
    split
    · rfl
    · next other => exact ih ((List.mem_cons.1 h).resolve_left fun same => other (by rw [same]))

/-! ### Room is made in a full slice -/

/-- A state whose slice 16 is full of dirty host lines, with level two empty and the host port up. -/
structure Crowded (s : State) : Prop where
  held : s.hcopy = farHeld
  empty : s.l2 = []
  up : s.hostPortDown = false

theorem crowded_congr (h : t.beyond = s.beyond) (hs : Crowded s) : Crowded t := by
  obtain ⟨-, hh, hl, -, hd, -, -⟩ := fields_of_beyond h
  exact ⟨hh.trans hs.held, hl.trans hs.empty, hd.trans hs.up⟩

/-- Where a slice is full of far lines, and level two is empty, one of those lines is evicted to make room. -/
theorem homeRoom_of_full {ls : List Nat} (hl : s.l2 = []) (lines : tabLines s.hcopy = ls) (many : sliceLines ≤ s.hcopy.length)
    (full : sliceLines ≤ ls.length) (same : ∀ l ∈ ls, homeSlice (128 * l) = homeSlice (128 * line)) (new : line ∉ ls) :
    ∃ l ∈ ls, homeRoom s line = farEvict (l2Evict (freshen s) l) l := by
  have crowd : ¬ s.l2.length + s.hcopy.length < sliceLines := by omega
  have filtered : ls.filter (fun l => homeSlice (128 * l) == homeSlice (128 * line)) = ls :=
    List.filter_eq_self.2 fun l hm => beq_iff_eq.2 (same l hm)
  have every : ls.filter (fun _ => true) = ls := List.filter_eq_self.2 fun _ _ => rfl
  have absent : ls.contains line = false := by simpa using new
  have enough : decide (ls.length < sliceLines) = false := decide_eq_false (Nat.not_lt.2 full)
  have positive : 0 < ls.length := Nat.lt_of_lt_of_le (by decide) full
  have inside : (Config.freeValue s.fresh).toNat % ls.length < ls.length := Nat.mod_lt _ positive
  refine ⟨ls[(Config.freeValue s.fresh).toNat % ls.length], List.getElem_mem inside, ?_⟩
  rw [homeRoom, if_neg crowd]
  simp only [hl, List.map_nil, List.filter_nil, List.nil_append, List.contains_nil, Bool.not_false, lines, filtered, every, absent, enough,
    Bool.or_false, Bool.false_eq_true, if_false, List.getElem?_eq_getElem inside]

theorem homeRoom_of_crowded (h : Crowded s) (slice : homeSlice (128 * line) = 16) (new : line ∉ farLines) :
    ∃ l ∈ farLines, homeRoom s line = farEvict (l2Evict (freshen s) l) l := by
  obtain ⟨hh, hl, -⟩ := h
  have lines : tabLines s.hcopy = farLines.reverse := by
    rw [hh]
    exact tabLines_map_first _ _ farLines_nodup
  have count : sliceLines ≤ s.hcopy.length := by rw [hh, farHeld, List.length_map, farLines_length, sliceLines]
  have full : sliceLines ≤ farLines.reverse.length := by rw [List.length_reverse, farLines_length, sliceLines]
  obtain ⟨l, hm, evicted⟩ := homeRoom_of_full hl lines count full
    (fun l hm => (slice_of_farLine (List.mem_reverse.1 hm)).trans slice.symm) fun hm => new (List.mem_reverse.1 hm)
  exact ⟨l, List.mem_reverse.1 hm, evicted⟩

/-- Nothing is held in an empty level two, so that nothing of it is written back. -/
theorem l2WriteBack_of_empty (h : s.l2 = []) (l : Nat) : l2WriteBack s l = s := by
  simp only [l2WriteBack, h, Tab.find?_nil]

theorem l2Evict_of_empty (h : s.l2 = []) (l : Nat) :
    (l2Evict s l).hcopy = s.hcopy ∧ (l2Evict s l).hostPortDown = s.hostPortDown := by
  rw [l2Evict, l2WriteBack_of_empty h]
  exact ⟨rfl, rfl⟩

theorem wayDown_of_host (region : regionOf pa = .host) (up : s.hostPortDown = false) : wayDown s pa = none := by
  simp only [wayDown, region, up, Bool.false_eq_true, if_false]

/-- Where the slice is full, making room in it puts a byte of a host line into memory. -/
theorem homeRoom_writes (h : Crowded s) (slice : homeSlice (128 * line) = 16) (new : line ∉ farLines) :
    ∃ a, (homeRoom s line).mem.read a = 1 := by
  obtain ⟨l, hm, evicted⟩ := homeRoom_of_crowded h slice new
  refine ⟨128 * l, ?_⟩
  obtain ⟨copies, port⟩ := l2Evict_of_empty (s := freshen s) h.empty l
  rw [evicted]
  refine farEvict_read (wayDown_of_host (region_of_farLine hm) (port.trans h.up)) ⟨false, ?_⟩
  rw [copies]
  exact (congrArg (Tab.find? · _) h.held).trans (find?_farHeld hm)

/-! ### The counterexample -/

/-- A whole line of zeros at 0x10000, as a ZFILL of scope GANG leaves it in the buffer. -/
def zeroStore : StoreEnt := ⟨0, 0, 0, 0, .phys 0x10000, List.replicate 128 0#8, .gang, true, false, 0⟩

/-- The supervisor of core 0 holds it, may write it, and has every bank in cache mode; memory is all zero. The copies at the home points
are a parameter, which only `crowded_fullSlice` looks into. -/
def fullSlice (held : Tab Copied) : State :=
  { State.reset with
    hcopy := held, cores := [(0, { Core.reset with sup := some { supGang 0 with buf := [zeroStore] } })]
    regions := [(0, (1#64, 0xFFFF0000#64))], access := [(0, 0xFFFF#16)] }

variable {held : Tab Copied}

theorem crowded_fullSlice (h : held = farHeld) : Crowded (fullSlice held) := ⟨h, rfl, rfl⟩

theorem roomy_fullSlice : Roomy (fullSlice held) 0 128 := ⟨_, rfl, rfl, show 0 + 128 ≤ 4096 by decide⟩

/-- The supervisor may write the line wherever the registers are as in the counterexample. -/
theorem refusalOf_fullSlice (h : s.beyond = (fullSlice held).beyond) : refusalOf s .sup (ctxOf s (.sup 0)) 0x10000 .write = none := by
  obtain ⟨-, -, -, -, -, hr, ha⟩ := fields_of_beyond h
  replace hr : s.regions = [(0, (1#64, 0xFFFF0000#64))] := hr
  replace ha : s.access = [(0, 0xFFFF#16)] := ha
  have region : regionOf 0x10000 = .gddr := by decide
  have index : regionIndex? s 0x10000 = some 0 := by
    unfold regionIndex?
    rw [hr]
    decide
  have ctx : ctxOf s (.sup 0) = 0 := rfl
  have entry : accessEntry s 0 0 = 0xFFFF := by
    unfold accessEntry
    rw [ha]
    decide
  simp only [refusalOf, region, index, Option.elim_some, ctx, entry]
  decide

/-! ### The drain of a whole line at a supervisor's core point -/

theorem roomy_of_held (h : t.held = s.held) (hs : Roomy s c n) : Roomy t c n := by
  rw [Roomy, core?_of_held h]
  exact hs

theorem roomy_modGang (f : Gang → Gang) (h : Roomy s c n) : Roomy (modGang s (.sup c) f) c n := by
  obtain ⟨y, hy, hm, hn⟩ := h
  refine ⟨{ y with sup := y.sup.map f }, ?_, hm, hn⟩
  rw [modGang, core?_modCore, if_pos rfl, hy, Option.map_some]

theorem countAccess_held (s : State) (c : Nat) (p : Point) (pa : Nat) : (countAccess s c p pa).held = s.held := by
  have counted (t : State) : (countHome t c pa).held = t.held := by
    simp only [countHome, countSlice, countDie, apply_ite State.held, freshen_held, countAt_held, ite_self]
  unfold countAccess
  split
  · split
    · rfl
    · exact (counted _).trans (countAt_held _ _ _ _)
  · exact counted _

/-- The state in which a supervisor's store is about to be written: its entry is out of the buffer and its line asked for. -/
def leaving (s : State) (c : Nat) (e : StoreEnt) (pa : Nat) : State :=
  askLine (modGang s (.sup c) (fun x => { x with buf := x.buf.filter (fun o => o ≠ e) })) (.sup c) e pa

theorem leaving_beyond (s : State) (c : Nat) (e : StoreEnt) (pa : Nat) : (leaving s c e pa).beyond = s.beyond :=
  (askLine_beyond _ _ _ _).trans (modGang_beyond _ _ _)

theorem roomy_leaving (h : Roomy s c n) : Roomy (leaving s c e pa) c n := by
  unfold leaving askLine
  split
  · exact roomy_modGang _ h
  · exact roomy_modGang _ (roomy_of_held (countAccess_held _ _ _ _) (roomy_modGang _ h))

theorem drainEntry_mem_of_line (place : e.place = .phys pa) (leaf : e.leafW = true) (scope : e.scope = .gang)
    (whole : e.bytes.length = 128) (region : regionOf pa ≠ .regs)
    (passes : refusalOf (leaving s c e pa) .sup (ctxOf (leaving s c e pa) (.sup c)) pa .write = none) :
    (drainEntry s (.sup c) e).1.mem = (flagZero (storeAt (leaving s c e pa) (.sup c) .core pa e.bytes) pa).mem := by
  have pair (t : State) : pointOf (gangPair t (.sup c)) .gang = .core := rfl
  unfold leaving at passes
  simp only [drainEntry, place, leaf, if_true, classOf, passes, region, if_false, raceGang, scope, pair, whole, storeDone, modGang_mem,
    leaving]

/-- A store of a whole line at the core point of a supervisor writes a byte of host memory back, where the slice of the line is full. -/
theorem drainEntry_writes_hostByte (hs : Crowded s) (device : homeIsMem (leaving s c e pa) pa = true) (room : Roomy s c e.bytes.length)
    (slice : homeSlice (128 * (pa / 128)) = 16) (place : e.place = .phys pa) (leaf : e.leafW = true) (scope : e.scope = .gang)
    (whole : e.bytes.length = 128) (region : regionOf pa ≠ .regs) (near : pa / 128 < 2 ^ 44)
    (passes : refusalOf (leaving s c e pa) .sup (ctxOf (leaving s c e pa) (.sup c)) pa .write = none) :
    ∃ a, (drainEntry s (.sup c) e).1.mem.read a = 1 := by
  have stored : (storeAt (leaving s c e pa) (.sup c) .core pa e.bytes).beyond = (leaving s c e pa).beyond :=
    storeAt_core_beyond (.sup c) device (roomy_leaving room)
  have crowded := crowded_congr (stored.trans (leaving_beyond s c e pa)) hs
  have owned := (fields_of_beyond stored).2.2.2.1
  have atHome : homeIsMem (storeAt (leaving s c e pa) (.sup c) .core pa e.bytes) pa = true := by
    rw [homeIsMem, owned]
    exact device
  rw [drainEntry_mem_of_line place leaf scope whole region passes, flagZero, atHome, if_pos rfl]
  exact homeRoom_writes crowded slice (notMem_farLines near)

/-- Refutes O52: the supervisor of core 0 holds a line of zeros in its buffer, its core has room for the 128 bytes, and the slice of the line is
full; the zero-flagged tag that the slice takes in drives out a host line, whose dirty byte goes to memory. -/
theorem not_storesWriteTheirBytes : ¬ Obligations.StoresWriteTheirBytes := by
  unfold Obligations.StoresWriteTheirBytes
  intro h
  obtain ⟨held, crowd⟩ : ∃ held, held = farHeld := ⟨_, rfl⟩
  have device : homeIsMem (leaving (fullSlice held) 0 zeroStore 0x10000) 0x10000 = true := by
    rw [homeIsMem, (fields_of_beyond (leaving_beyond (fullSlice held) 0 zeroStore 0x10000)).2.2.2.1]
    show (isDeviceMem 0x10000 && !([] : List Nat).contains (0x10000 / 4096)) = true
    decide
  obtain ⟨a, written⟩ := drainEntry_writes_hostByte (crowded_fullSlice crowd) device roomy_fullSlice (by decide) rfl rfl rfl rfl (by decide)
    (by decide) (refusalOf_fullSlice (leaving_beyond (fullSlice held) 0 zeroStore 0x10000))
  have unchanged : (drainEntry (fullSlice held) (.sup 0) zeroStore).1.mem.read a = 0 :=
    ((h (fullSlice held) (.sup 0) zeroStore 0 0x10000 0 seedCrew).2.2
      ⟨rfl, rfl, refusalOf_fullSlice rfl, by decide, fun _ user => by cases user⟩ (atPoint_of_roomy roomy_fullSlice) (by decide)
      (room_of_roomy roomy_fullSlice)).1 a
  rw [unchanged] at written
  exact absurd written (by decide)

end Sys2Proof.Machine
end
